-- ==== Sys2Proof/Word.lean ====
section
/-! DEFINITION. Word.lean: the word types of the machine. -/

namespace Sys2Proof

/-- One byte of memory. -/
abbrev Byte := BitVec 8

/-- A register, and an instruction word (R46, R78). -/
abbrev Word := BitVec 32

/-- A 7-bit register field: n names v_n for n below 120 and t_(n - 120) from 120 on (R49). -/
abbrev Reg := BitVec 7

/-- A 3-bit predicate field (R50). -/
abbrev PredIx := BitVec 3

/-- A 3-bit branch-target field (R50). -/
abbrev BtIx := BitVec 3

end Sys2Proof
end

