-- ==== Sys2Proof/Config.lean ====
section
/-! DEFINITION. Config.lean: what is fixed for the part (the figures of R13 to R16 and of the tables that the rules name),
and the values that the manual leaves open, each an opaque constant: nothing can prove what such a value is. -/

namespace Sys2Proof.Config

/-- Cores of the package, cores of a die, dies (R13, R16). -/
def cores : Nat := 256
/-- Cores of one die (R13). -/
def coresPerDie : Nat := 64
/-- Compute dies (R13). -/
def dies : Nat := 4
/-- Thread-table entries of a core (R14). -/
def threadsPerCore : Nat := 2048
/-- Thread-table entries of a home lane (R14). -/
def entriesPerLane : Nat := 32
/-- Registers of a home lane (R14). -/
def regsPerLane : Nat := 2048
/-- Bytes of a core's stash (R14). -/
def stashBytes : Nat := 524288
/-- Tile-table entries of a core (R14). -/
def tileEntries : Nat := 32
/-- Sets of a core TLB (R368). -/
def tlbSets : Nat := 64
/-- Ways of a core TLB's set (R368). -/
def tlbWays : Nat := 8
/-- Table-pointer entries that a die's walker keeps (R367). -/
def walkPointers : Nat := 256
/-- TLB merge-table entries of a die (R15, R369). -/
def mergeEntries : Nat := 1024
/-- Concurrent walks of a die (R15, R367). -/
def walksPerDie : Nat := 128
/-- Horizon-table entries (R229). -/
def horizonEntries : Nat := 4096
/-- Hardware slots (R268, R275). -/
def slots : Nat := 128
/-- User queues (R268). -/
def queues : Nat := 4096
/-- Grids held by the distributor and the grid table (R268, R320). -/
def grids : Nat := 1024
/-- Cards of one engine instance (R268). -/
def cardsPerInstance : Nat := 256
/-- Cards that the footprint tracker holds (R285). -/
def trackerCards : Nat := 4096
/-- Gather windows (R299). -/
def windows : Nat := 256
/-- Graph nodes that one walker holds (R320). -/
def graphNodes : Nat := 4096
/-- Fired nodes that wait in a walker's ready queue (R268, R360). -/
def readyNodes : Nat := 256
/-- Open queue pairs (R307). -/
def queuePairs : Nat := 1024
/-- Frames that one frame list holds (R374). -/
def framesPerList : Nat := 64
/-- The lease length of R219. -/
def lease : Nat := 16
/-- Older versions that one line may keep (R210, R230). -/
def recordsPerLine : Nat := 7
/-- Lines of one write set (R234). -/
def writeSetLines : Nat := 64
/-- Words of a run (R52). -/
def runWords : Nat := 24
/-- The BTAG of a thread that holds no tag (R325). -/
def noTag : Nat := 0x1FFF
/-- Cycles of 256 us at 1.25 GHz (R7, R275, R322). -/
def cycles256us : Nat := 320000
/-- Cycles of 64 us (R275). -/
def cycles64us : Nat := 80000
/-- Cycles of 200 us (R317). -/
def cycles200us : Nat := 250000
/-- Cycles of one second (R318). -/
def cyclesSecond : Nat := 1250000000
/-- Events that Boxwood keeps (R212). -/
def boxwoodEvents : Nat := 16384
/-- Barrier words that a core keeps hidden stamps for (R392). -/
def barrierStamps : Nat := 4096
/-- Bytes of one context save area (R213). -/
def areaBytes : Nat := 0x200000

/-- The FP32 value that the part delivers for a special function of an operand, where the manual gives a bound and not a
value (R115, R140 to R142, R175; notes/assumptions/7.md). The first argument names the function, the rest are the operands. The meanings take it
only where it keeps the bound of the rule. -/
opaque special : Nat → List Word → Word
/-- What a byte of a sort's scratch region holds after the job, where the manual says only that it is the old value or one
that the job wrote (R298; notes/assumptions/8.md): by the card and the byte. -/
opaque sortScratch : Nat → Nat → Byte
/-- How far above its bounds the version floor stands at an opening, which R435 leaves to the part
(notes/assumptions/10.md): by a counter. -/
opaque floorRise : Nat → Nat
/-- Is a dirty line among those that a warm reset loses (R209)? Which of them have been written back before is open
(notes/assumptions/11.md): by a counter and the line. -/
opaque dirtyLost : Nat → Nat → Bool
/-- The cores that fail self-test at the boot after a warm reset, and the ports that fail training there (R306, R320;
notes/assumptions/6.md), by a counter. -/
opaque selfTestFails : Nat → List Nat
opaque trainingFails : Nat → List Nat
/-- Is a dirty line displaced where the cache portion of its slice shrinks (R205; notes/assumptions/11.md)? By a counter and the line. -/
opaque displaced : Nat → Nat → Bool
/-- How the additions of an allreduce are grouped (R3, R304; notes/assumptions/13.md): which partial results are combined at each step, by the
collective's group, its sequence number and the step. -/
opaque collectiveOrder : Nat → Nat → Nat → Nat
/-- Which members' operands an element of a lost collective's result combines (R304; notes/assumptions/13.md): a set of ranks as a bit mask, by card
and element; the empty set leaves the old value. -/
opaque lostMembers : Nat → Nat → Nat

end Sys2Proof.Config
end

