-- ==== Sys2Proof/Syntax.lean ====
section
/-! DEFINITION. Syntax.lean: the instruction type, one constructor per row of the opcode table (the words of the opcode map,
R59 to R71, and the steps of the rest of the machine), and the small types of its fields. -/

namespace Sys2Proof

/-- MOD of IADD and ISUB (R60, R93). -/
inductive SatMode where
  | wrap  -- wrap modulo 2^32
  | sati  -- saturate as signed
  | satn  -- saturate as unsigned
  deriving DecidableEq, Repr

/-- MOD of IMUL (R60, R94). -/
inductive MulMode where
  | lo  -- low half
  | hiI  -- signed high half
  | hiN  -- unsigned high half
  deriving DecidableEq, Repr

/-- Signedness .i or .n of IMIN, IMAX, IABSD and of .i32/.n32 of ICVF (R60, R63). -/
inductive Sgn where
  | i  -- signed
  | n  -- unsigned
  deriving DecidableEq, Repr

/-- MOD of FEXT: .n fills with zeros, .i with the sign (R60, R99). -/
inductive ExtMode where
  | n  -- zero fill
  | i  -- sign fill
  deriving DecidableEq, Repr

/-- MOD of SHR (R60, R97). -/
inductive ShrMode where
  | logical  -- zeros enter
  | arith  -- the sign enters
  deriving DecidableEq, Repr

/-- MOD of MOV: word, pair, quad (R61, R105). -/
inductive MovWidth where
  | w1  -- one register
  | w2  -- a pair
  | w4  -- a quad
  deriving DecidableEq, Repr

/-- Condition of the integer compares (R65, R110). -/
inductive Cond where
  | eq  -- equal
  | ne  -- not equal
  | ltI  -- signed less
  | leI  -- signed at most
  | ltN  -- unsigned less
  | leN  -- unsigned at most
  | gtI  -- signed greater
  | gtN  -- unsigned greater
  deriving DecidableEq, Repr

/-- Condition of FCMP (R65, R111). -/
inductive FCond where
  | eq
  | ne
  | lt
  | le
  | gt
  | ge
  | ord  -- neither is a NaN
  | unord  -- some is a NaN
  deriving DecidableEq, Repr

/-- MOD of PCOMB (R65, R112). -/
inductive PCombOp where
  | and
  | or
  | xor
  | andn
  | not
  deriving DecidableEq, Repr

/-- Rounding mode (R25). -/
inductive Rm where
  | rne  -- to nearest, ties to even
  | rz  -- toward zero
  | rd  -- toward minus infinity
  | ru  -- toward plus infinity
  | rna  -- to nearest, ties away from zero
  deriving DecidableEq, Repr

/-- MOD of FMIN and FMAX (R63, R120). -/
inductive NanMode where
  | number  -- number-preferring
  | nan  -- NaN-propagating
  deriving DecidableEq, Repr

/-- MOD 100..111 of CLS 2 SUB 6, FROUND (R63, R122). -/
inductive FRoundMode where
  | rne
  | rz
  | rd
  | ru
  deriving DecidableEq, Repr

/-- Element format of the packed 16-bit words (R63). -/
inductive Pk where
  | bf16  -- BF16
  | f16  -- F16
  deriving DecidableEq, Repr

/-- MOD of FCVI: rounding in [1:0], .i32 or .n32 in [2] (R63, R130). -/
inductive FcviMode where
  | rneI
  | rzI
  | rdI
  | ruI
  | rneN
  | rzN
  | rdN
  | ruN
  deriving DecidableEq, Repr

/-- MOD of PACK16 (R63, R132). -/
inductive Pack16Mode where
  | bf16
  | f16
  | bf16Rz
  | f16Rz
  | bf16Sat
  | f16Sat
  deriving DecidableEq, Repr

/-- MOD of UNPK16 (R63, R133). -/
inductive Unpk16Mode where
  | bf16Lo
  | bf16Hi
  | f16Lo
  | f16Hi
  deriving DecidableEq, Repr

/-- MOD of ICVI (R63, R134). -/
inductive IcviMode where
  | i8
  | n8
  | i16
  | n16
  | satI8
  | satN8
  | satI16
  | satN16
  deriving DecidableEq, Repr

/-- MOD of SHFL (R64, R153). -/
inductive ShflMode where
  | lane  -- .at
  | below
  | above
  | flip
  deriving DecidableEq, Repr

/-- MOD of GPOLL (R64, R155). -/
inductive GpollMode where
  | some
  | every
  | mask  -- D is a pair
  | same
  deriving DecidableEq, Repr

/-- MOD of IRED (R64, R156). -/
inductive IredOp where
  | add
  | minI
  | maxI
  | minN
  | maxN
  | and
  | or
  | xor
  deriving DecidableEq, Repr

/-- MOD of FRED and MOD[1:0] of FSCAN (R64, R157). -/
inductive FredOp where
  | add
  | min
  | max
  deriving DecidableEq, Repr

/-- MOD[1:0] of FSCAN (R64, R158). -/
inductive FscanOp where
  | add
  | min
  | max
  deriving DecidableEq, Repr

/-- MOD[1:0] of ISCAN (R64, R156). -/
inductive IscanOp where
  | add
  | maxI
  | minI
  | or
  deriving DecidableEq, Repr

/-- MOD of DDX (R64, R160). -/
inductive DdxMode where
  | cx
  | cy
  | fx
  | fy
  deriving DecidableEq, Repr

/-- MOD of COMPACT: the field width (R64, R159). -/
inductive CompactW where
  | w8
  | w16
  | w24
  | w32
  deriving DecidableEq, Repr

/-- MOD of ATOM and ATOMS (R67, R247). -/
inductive AtomOp where
  | add
  | minI
  | maxI
  | minN
  | maxN
  | and
  | or
  | xchg
  deriving DecidableEq, Repr

/-- MOD of ATOM64 (R67, R247). -/
inductive Atom64Op where
  | add
  | minN
  | maxN
  | xchg
  | and
  | or
  deriving DecidableEq, Repr

/-- MOD of ATOMF (R67, R247). -/
inductive AtomfOp where
  | add
  | min
  | max
  deriving DecidableEq, Repr

/-- MOD of CAS (R67, R248). -/
inductive CasWidth where
  | w32
  | w64
  deriving DecidableEq, Repr

/-- MOD of RADD (R67, R250). -/
inductive RaddKind where
  | f32  -- one FP32
  | f32x2  -- two FP32
  | f32x4  -- four FP32
  | i32  -- one INT32
  deriving DecidableEq, Repr

/-- MOD of RFLUSH (R67, R251). -/
inductive RflushScope where
  | die
  | pkg
  deriving DecidableEq, Repr

/-- Final action of CHLD (R67, R252). -/
inductive ChldFin where
  | ld64
  | ld32
  | addr
  | add32
  deriving DecidableEq, Repr

/-- Element size named by TLD and TST (R67, R350). -/
inductive TileEs where
  | b8
  | b16
  | b32
  deriving DecidableEq, Repr

/-- Fragment form of TLDF (R67, R352). -/
inductive TldfForm where
  | a
  | b
  | d
  deriving DecidableEq, Repr

/-- SCOPE of BAR (R69, R399). -/
inductive BarScope where
  | team
  | cluster
  deriving DecidableEq, Repr

/-- KIND of JOB (R69, R284). -/
inductive JobKind where
  | copy
  | sort
  | gatherbind
  | unbind
  | coll
  | ocomp
  deriving DecidableEq, Repr

/-- Scope of FENCE (R69, R267). -/
inductive FenceScope where
  | tgt
  | sys
  deriving DecidableEq, Repr

/-- SCOPE of IFLUSH (R69, R190). -/
inductive IflushScope where
  | own
  | core
  deriving DecidableEq, Repr

/-- What a scrub slot finds in the line it reads (R208). -/
inductive ScrubResult where
  | clean
  | corrected      -- a single-bit soft error, corrected in place
  | uncorrectable  -- the line becomes poisoned
  deriving DecidableEq, Repr

/-- A Koloz frame: the forwarding header (R309), the first flit (R310) and the data of the flits after it. -/
structure Frame where
  dpkg : Nat
  spkg : Nat
  cls : Nat
  entropy : Nat := 0
  stamp : Nat
  addr : Nat
  asid : Nat
  tag : Nat
  ack : Nat := 0
  op : Nat
  subop : Nat := 0
  len : Nat := 0
  data : List Byte := []
  rsv : Nat := 0             -- the reserved bits: header [11:0], then [447:441] and [353:352] of the first flit
  seq : Nat := 0             -- its sequence number between the two packages (R315), for which R310 gives no field
  rasid : Nat := 0           -- the requesting address space (R311), for which R310 gives no field
  deriving DecidableEq, Repr

/-- A frame as a link receives it: `misrouted` where the link does not lead to its SPKG (R310). -/
structure Arrival where
  frame : Frame
  misrouted : Bool := false
  deriving DecidableEq, Repr

/-- An RDMA FLUSH: its queue pair, its remote key, and the range of virtual addresses that it flushes (R307). -/
structure FlushReq where
  qp : Nat
  key : Nat
  va : Nat
  n : Nat
  deriving DecidableEq, Repr

/-- A Redfish read: `n` items of a resource from `from_` on (R319). -/
structure RedfishGet where
  resource : Nat
  from_ : Nat
  n : Nat
  deriving DecidableEq, Repr

/-- The end of a walk: the merge entry that it is for, and whether it went over table pointers that the walker keeps (R367, R369). -/
structure WalkReturn where
  entry : Nat
  kept : Bool := false
  deriving DecidableEq, Repr

/-- A hint word: its KIND and its 24-bit payload (R54, R56). -/
structure Hint where
  kind : BitVec 4
  payload : BitVec 24
  deriving DecidableEq, Repr


/-- The steps of the machine: the 195 instruction words of the opcode map, then the steps that the rest of the
package takes (the rows of the table that have no word). A step that a condition of its rule holds back does not come about. -/
inductive Instr where
  /-- IADD (R93). -/
  | iadd (m : SatMode) (d : Reg) (a : Reg) (b : Reg)
  /-- ISUB (R93). -/
  | isub (m : SatMode) (d : Reg) (a : Reg) (b : Reg)
  /-- IMUL (R94). -/
  | imul (m : MulMode) (d : Reg) (a : Reg) (b : Reg)
  /-- IMIN (R95). -/
  | imin (m : Sgn) (d : Reg) (a : Reg) (b : Reg)
  /-- IMAX (R95). -/
  | imax (m : Sgn) (d : Reg) (a : Reg) (b : Reg)
  /-- IABSD (R95). -/
  | iabsd (m : Sgn) (d : Reg) (a : Reg) (b : Reg)
  /-- AND (R96). -/
  | and (d : Reg) (a : Reg) (b : Reg)
  /-- OR (R96). -/
  | or (d : Reg) (a : Reg) (b : Reg)
  /-- XOR (R96). -/
  | xor (d : Reg) (a : Reg) (b : Reg)
  /-- ANDN (R96). -/
  | andn (d : Reg) (a : Reg) (b : Reg)
  /-- SHL (R97). -/
  | shl (d : Reg) (a : Reg) (b : Reg)
  /-- SHR (R97). -/
  | shr (m : ShrMode) (d : Reg) (a : Reg) (b : Reg)
  /-- ROTL (R97). -/
  | rotl (d : Reg) (a : Reg) (b : Reg)
  /-- BCNT (R98). -/
  | bcnt (d : Reg) (a : Reg)
  /-- CLZ (R98). -/
  | clz (d : Reg) (a : Reg)
  /-- CTZ (R98). -/
  | ctz (d : Reg) (a : Reg)
  /-- BITREV (R98). -/
  | bitrev (d : Reg) (a : Reg)
  /-- NOT (R98). -/
  | not (d : Reg) (a : Reg)
  /-- FEXT (R99). -/
  | fext (m : ExtMode) (d : Reg) (a : Reg) (b : Reg)
  /-- FINS (R100). -/
  | fins (d : Reg) (a : Reg) (b : Reg)
  /-- MOVI (R101). -/
  | movi (d : Reg) (imm : BitVec 10)
  /-- IADDI (R102). -/
  | iaddi (d : Reg) (a : Reg) (imm : BitVec 10)
  /-- IMULI (R102). -/
  | imuli (d : Reg) (a : Reg) (imm : BitVec 10)
  /-- ANDI (R102). -/
  | andi (d : Reg) (a : Reg) (imm : BitVec 10)
  /-- ORI (R102). -/
  | ori (d : Reg) (a : Reg) (imm : BitVec 10)
  /-- XORI (R102). -/
  | xori (d : Reg) (a : Reg) (imm : BitVec 10)
  /-- SHLI (R103). -/
  | shli (d : Reg) (a : Reg) (n : BitVec 5)
  /-- SHRI (R103). -/
  | shri (d : Reg) (a : Reg) (n : BitVec 5)
  /-- SARI (R103). -/
  | sari (d : Reg) (a : Reg) (n : BitVec 5)
  /-- ADD64I (R104). -/
  | add64i (d : Reg) (a : Reg) (imm : BitVec 10)
  /-- ADD64 (R104). -/
  | add64 (d : Reg) (a : Reg) (b : Reg)
  /-- LEA64 (R104). -/
  | lea64 (sh : BitVec 3) (d : Reg) (a : Reg) (b : Reg)
  /-- SUB64 (R104). -/
  | sub64 (d : Reg) (a : Reg) (b : Reg)
  /-- MOV (R105). -/
  | mov (m : MovWidth) (d : Reg) (a : Reg)
  /-- MOVSR (R106). -/
  | movsr (d : Reg) (n : BitVec 10)
  /-- MOVL (R107). -/
  | movl (d : Reg) (n : BitVec 6)
  /-- IMAD (R109). -/
  | imad (d : Reg) (a : Reg) (b : Reg) (c : Reg)
  /-- ICMP (R110). -/
  | icmp (c : Cond) (pd : PredIx) (pc : PredIx) (a : Reg) (b : Reg)
  /-- ICMPI (R110). -/
  | icmpi (c : Cond) (pd : PredIx) (pc : PredIx) (a : Reg) (imm : BitVec 7)
  /-- FCMP (R111). -/
  | fcmp (c : FCond) (pd : PredIx) (pc : PredIx) (a : Reg) (b : Reg)
  /-- ICMP64 (R110). -/
  | icmp64 (c : Cond) (pd : PredIx) (pc : PredIx) (a : Reg) (b : Reg)
  /-- PCOMB (R112). -/
  | pcomb (m : PCombOp) (pd : PredIx) (pc : PredIx) (pa : PredIx) (pb : PredIx)
  /-- PGET (R113). -/
  | pget (d : Reg)
  /-- PSET (R113). -/
  | pset (a : Reg)
  /-- PICK (R114). -/
  | pick (p : PredIx) (d : Reg) (a : Reg) (b : Reg)
  /-- FADD (R119). -/
  | fadd (m : Rm) (d : Reg) (a : Reg) (b : Reg)
  /-- FSUB (R119). -/
  | fsub (m : Rm) (d : Reg) (a : Reg) (b : Reg)
  /-- FMUL (R119). -/
  | fmul (m : Rm) (d : Reg) (a : Reg) (b : Reg)
  /-- FMIN (R120). -/
  | fmin (m : NanMode) (d : Reg) (a : Reg) (b : Reg)
  /-- FMAX (R120). -/
  | fmax (m : NanMode) (d : Reg) (a : Reg) (b : Reg)
  /-- FDIV (R121). -/
  | fdiv (m : Rm) (d : Reg) (a : Reg) (b : Reg)
  /-- FABS (R122). -/
  | fabs (d : Reg) (a : Reg)
  /-- FNEG (R122). -/
  | fneg (d : Reg) (a : Reg)
  /-- FSAT (R122). -/
  | fsat (d : Reg) (a : Reg)
  /-- FFRAC (R122). -/
  | ffrac (d : Reg) (a : Reg)
  /-- FROUND (R122). -/
  | fround (m : FRoundMode) (d : Reg) (a : Reg)
  /-- FCOPYS (R123). -/
  | fcopys (d : Reg) (a : Reg) (b : Reg)
  /-- FLDX (R124). -/
  | fldx (m : Rm) (d : Reg) (a : Reg) (b : Reg)
  /-- FKIND (R125). -/
  | fkind (d : Reg) (a : Reg)
  /-- PADD (R126). -/
  | padd (m : Pk) (d : Reg) (a : Reg) (b : Reg)
  /-- PMUL (R126). -/
  | pmul (m : Pk) (d : Reg) (a : Reg) (b : Reg)
  /-- PMIN (R126). -/
  | pmin (m : Pk) (d : Reg) (a : Reg) (b : Reg)
  /-- PMAX (R126). -/
  | pmax (m : Pk) (d : Reg) (a : Reg) (b : Reg)
  /-- FDP2 (R127). -/
  | fdp2 (m : Pk) (d : Reg) (a : Reg) (b : Reg)
  /-- FMAC (R128). -/
  | fmac (d : Reg) (a : Reg) (b : Reg) (c : Reg)
  /-- PMAC (R129). -/
  | pmac (d : Reg) (a : Reg) (b : Reg) (c : Reg)
  /-- FCVI (R130). -/
  | fcvi (m : FcviMode) (d : Reg) (a : Reg)
  /-- ICVF (R131). -/
  | icvf (m : Sgn) (d : Reg) (a : Reg)
  /-- PACK16 (R132). -/
  | pack16 (m : Pack16Mode) (d : Reg) (a : Reg) (b : Reg)
  /-- UNPK16 (R133). -/
  | unpk16 (m : Unpk16Mode) (d : Reg) (a : Reg)
  /-- CVTN (R136). -/
  | cvtn (k : BitVec 3) (d : Reg) (a : Reg) (b : Reg)
  /-- CVTW (R137). -/
  | cvtw (k : BitVec 3) (d : Reg) (a : Reg) (b : Reg)
  /-- UNPK3 (R138). -/
  | unpk3 (z : Bool) (m : BitVec 2) (d : Reg) (a : Reg)
  /-- CBDEC (R139). -/
  | cbdec (k : BitVec 3) (d : Reg) (a : Reg)
  /-- RECIP (R141). -/
  | recip (d : Reg) (a : Reg)
  /-- RROOT (R141). -/
  | rroot (d : Reg) (a : Reg)
  /-- SQRT (R141). -/
  | sqrt (d : Reg) (a : Reg)
  /-- EXP2 (R141). -/
  | exp2 (d : Reg) (a : Reg)
  /-- LOG2 (R141). -/
  | log2 (d : Reg) (a : Reg)
  /-- TANH (R141). -/
  | tanh (d : Reg) (a : Reg)
  /-- SINT (R142). -/
  | sint (d : Reg) (a : Reg)
  /-- COST (R142). -/
  | cost (d : Reg) (a : Reg)
  /-- ICVI (R134). -/
  | icvi (m : IcviMode) (d : Reg) (a : Reg)
  /-- BSEL (R143). -/
  | bsel (d : Reg) (a : Reg) (b : Reg)
  /-- DOTB4 (R144). -/
  | dotb4 (sat : Bool) (ua : Bool) (ub : Bool) (d : Reg) (a : Reg) (b : Reg)
  /-- ISGNA (R145). -/
  | isgna (d : Reg) (a : Reg) (b : Reg)
  /-- SHFL (R153). -/
  | shfl (m : ShflMode) (d : Reg) (a : Reg) (b : Reg)
  /-- GPOLL (R155). -/
  | gpoll (m : GpollMode) (d : Reg) (a : Reg)
  /-- IRED (R156). -/
  | ired (m : IredOp) (d : Reg) (a : Reg)
  /-- FRED (R157). -/
  | fred (m : FredOp) (d : Reg) (a : Reg)
  /-- ISCAN (R156). -/
  | iscan (excl : Bool) (m : IscanOp) (d : Reg) (a : Reg)
  /-- FSCAN (R158). -/
  | fscan (excl : Bool) (m : FscanOp) (d : Reg) (a : Reg)
  /-- PEERS (R155). -/
  | peers (d : Reg) (a : Reg)
  /-- BCAST (R154). -/
  | bcast (d : Reg) (a : Reg) (b : Reg)
  /-- LEADER (R155). -/
  | leader (d : Reg)
  /-- DDX (R160). -/
  | ddx (m : DdxMode) (d : Reg) (a : Reg)
  /-- GJOIN (R161). -/
  | gjoin
  /-- COMPACT (R159). -/
  | compact (m : CompactW) (d : Reg) (a : Reg) (b : Reg)
  /-- LD_N8 (R243). -/
  | ldN8 (pg : PredIx) (d : Reg) (a : Reg) (imm : BitVec 7)
  /-- LD_I8 (R243). -/
  | ldI8 (pg : PredIx) (d : Reg) (a : Reg) (imm : BitVec 7)
  /-- LD_N16 (R243). -/
  | ldN16 (pg : PredIx) (d : Reg) (a : Reg) (imm : BitVec 7)
  /-- LD_I16 (R243). -/
  | ldI16 (pg : PredIx) (d : Reg) (a : Reg) (imm : BitVec 7)
  /-- LD_32 (R243). -/
  | ld32 (pg : PredIx) (d : Reg) (a : Reg) (imm : BitVec 7)
  /-- LD_64 (R243). -/
  | ld64 (pg : PredIx) (d : Reg) (a : Reg) (imm : BitVec 7)
  /-- LD_128 (R243). -/
  | ld128 (pg : PredIx) (d : Reg) (a : Reg) (imm : BitVec 7)
  /-- ST_8 (R244). -/
  | st8 (pg : PredIx) (d : Reg) (a : Reg) (imm : BitVec 7)
  /-- ST_16 (R244). -/
  | st16 (pg : PredIx) (d : Reg) (a : Reg) (imm : BitVec 7)
  /-- ST_32 (R244). -/
  | st32 (pg : PredIx) (d : Reg) (a : Reg) (imm : BitVec 7)
  /-- ST_64 (R244). -/
  | st64 (pg : PredIx) (d : Reg) (a : Reg) (imm : BitVec 7)
  /-- ST_128 (R244). -/
  | st128 (pg : PredIx) (d : Reg) (a : Reg) (imm : BitVec 7)
  /-- LDS_32 (R246). -/
  | lds32 (pg : PredIx) (d : Reg) (a : Reg) (imm : BitVec 7)
  /-- STS_32 (R246). -/
  | sts32 (pg : PredIx) (d : Reg) (a : Reg) (imm : BitVec 7)
  /-- LDS_128 (R246). -/
  | lds128 (pg : PredIx) (d : Reg) (a : Reg) (imm : BitVec 7)
  /-- STS_128 (R246). -/
  | sts128 (pg : PredIx) (d : Reg) (a : Reg) (imm : BitVec 7)
  /-- ATOM (R247). -/
  | atom (m : AtomOp) (d : Reg) (a : Reg) (b : Reg)
  /-- ATOM64 (R247). -/
  | atom64 (m : Atom64Op) (d : Reg) (a : Reg) (b : Reg)
  /-- ATOMF (R247). -/
  | atomf (m : AtomfOp) (d : Reg) (a : Reg) (b : Reg)
  /-- CAS (R248). -/
  | cas (m : CasWidth) (d : Reg) (a : Reg) (b : Reg)
  /-- RADD (R250). -/
  | radd (m : RaddKind) (a : Reg) (b : Reg)
  /-- RFLUSH (R251). -/
  | rflush (m : RflushScope)
  /-- CHLD (R254). -/
  | chld (m : ChldFin) (d : Reg) (a : Reg) (b : Reg)
  /-- CLD (R257). -/
  | cld (d : Reg) (a : Reg)
  /-- CST (R257). -/
  | cst (a : Reg) (b : Reg)
  /-- ATOMS (R257). -/
  | atoms (m : AtomOp) (d : Reg) (a : Reg) (b : Reg)
  /-- TLD (R351). -/
  | tld (m : TileEs) (d : Reg) (a : Reg) (k : BitVec 5)
  /-- TST (R351). -/
  | tst (m : TileEs) (d : Reg) (a : Reg) (k : BitVec 5)
  /-- TLDF (R352). -/
  | tldf (m : TldfForm) (d : Reg) (a : Reg) (k : BitVec 5)
  /-- TSTF (R352). -/
  | tstf (d : Reg) (a : Reg) (k : BitVec 5)
  /-- TCTL_MAP (R353). -/
  | tctlMap (d : Reg) (a : Reg)
  /-- TCTL_FILL (R353). -/
  | tctlFill (k : BitVec 5)
  /-- TCTL_DRAIN (R353). -/
  | tctlDrain (k : BitVec 5)
  /-- TCTL_FREE (R353). -/
  | tctlFree (k : BitVec 5)
  /-- TCTL_QUERY (R353). -/
  | tctlQuery (d : Reg) (k : BitVec 5)
  /-- BARW_ARRIVE (R260). -/
  | barwArrive (d : Reg) (a : Reg)
  /-- BARW_WAIT (R260). -/
  | barwWait (a : Reg) (b : Reg)
  /-- BARW_ARRIVE_WAIT (R260). -/
  | barwArriveWait (d : Reg) (a : Reg)
  /-- BARW_INIT (R260). -/
  | barwInit (a : Reg) (b : Reg)
  /-- MMA (R166). -/
  | mma (k : BitVec 3) (d : Reg) (a : Reg) (b : Reg)
  /-- MMA_U (R166). -/
  | mmaU (k : BitVec 3) (d : Reg) (a : Reg) (b : Reg)
  /-- MMA_SP (R166). -/
  | mmaSp (k : BitVec 3) (d : Reg) (a : Reg) (b : Reg)
  /-- MMA_SP_U (R166). -/
  | mmaSpU (k : BitVec 3) (d : Reg) (a : Reg) (b : Reg)
  /-- CMPRS (R173). -/
  | cmprs (k : BitVec 3) (d : Reg) (a : Reg)
  /-- SPALPHA (R175). -/
  | spalpha (d : Reg) (a : Reg) (b : Reg)
  /-- SPBLEND (R176). -/
  | spblend (d : Reg) (a : Reg) (b : Reg)
  /-- KEYPK (R177). -/
  | keypk (d : Reg) (a : Reg) (b : Reg)
  /-- TRIEDGE (R178). -/
  | triedge (d : Reg) (a : Reg) (b : Reg)
  /-- WAIT (R398). -/
  | wait (ld : BitVec 6) (st : BitVec 6) (cp : BitVec 4) (tl : BitVec 4)
  /-- BAR (R400). -/
  | bar (m : BarScope)
  /-- JOB (R285). -/
  | job (k : JobKind) (a : Reg)
  /-- QPUSH (R278). -/
  | qpush (d : Reg) (a : Reg) (b : Reg)
  /-- TXBEGIN (R263). -/
  | txbegin
  /-- TXCOMMIT (R264). -/
  | txcommit (pd : PredIx)
  /-- TXABORT (R265). -/
  | txabort
  /-- SNAP_OPEN (R266). -/
  | snapOpen
  /-- SNAP_CLOSE (R266). -/
  | snapClose
  /-- FENCE (R267). -/
  | fence (m : FenceScope)
  /-- TRAP (R383). -/
  | trap (n : BitVec 16)
  /-- BRKPT (R384). -/
  | brkpt
  /-- YIELD (R334). -/
  | yield
  /-- STOP (R333). -/
  | stop
  /-- IFLUSH (R190). -/
  | iflush (m : IflushScope)
  /-- THRCLR (R386). -/
  | thrclr (a : Reg) (d : Reg)
  /-- THREAD (R382). -/
  | thread (a : Reg) (d : Reg)
  /-- GRIDEND (R386). -/
  | gridend (a : Reg) (d : Reg)
  /-- AGEMAX (R329). -/
  | agemax (a : Reg) (d : Reg)
  /-- LAURELSZ (R205). -/
  | laurelsz (a : Reg) (d : Reg)
  /-- MIGTH (R374). -/
  | migth (a : Reg) (d : Reg)
  /-- FRAMEADD (R374). -/
  | frameadd (a : Reg) (d : Reg)
  /-- MIGRATE (R376). -/
  | migrate (a : Reg) (d : Reg)
  /-- ROOT (R362). -/
  | root (a : Reg) (d : Reg)
  /-- INVAL (R371). -/
  | inval (a : Reg) (d : Reg)
  /-- REPLAY (R370). -/
  | replay (a : Reg) (d : Reg)
  /-- RINGSET (R280). -/
  | ringset (a : Reg) (d : Reg)
  /-- QUEUE (R386). -/
  | queue (a : Reg) (d : Reg)
  /-- RELEASE (R282). -/
  | release (a : Reg) (d : Reg)
  /-- QPOPEN (R307). -/
  | qpopen (a : Reg) (d : Reg)
  /-- CGROUP (R303). -/
  | cgroup (a : Reg) (d : Reg)
  /-- PKGSET (R315). -/
  | pkgset (a : Reg) (d : Reg)
  /-- EXPORT (R311). -/
  | exportPage (a : Reg) (d : Reg)
  /-- RETIRE (R415). -/
  | retire (a : Reg) (d : Reg)
  /-- DBGMATCH (R337). -/
  | dbgmatch (a : Reg) (d : Reg)
  /-- TEAMSTOP (R337). -/
  | teamstop (a : Reg) (d : Reg)
  /-- DEBUG (R338). -/
  | debug (a : Reg) (d : Reg)
  /-- PREEMPT (R389). -/
  | preempt (a : Reg) (d : Reg)
  /-- RESTORE (R393). -/
  | restore (a : Reg) (d : Reg)
  /-- BOXREAD (R407). -/
  | boxread (a : Reg) (d : Reg)
  /-- PREP (R183). -/
  | prep (bt : BtIx) (imm : BitVec 17)
  /-- PREPR (R183). -/
  | prepr (bt : BtIx) (a : Reg)
  /-- XFER (R185). -/
  | xfer (bt : BtIx) (ps : PredIx) (neg : Bool)
  /-- XFER_CALL (R185). -/
  | xferCall (bt : BtIx) (ps : PredIx) (neg : Bool)
  /-- XFER_RET (R185). -/
  | xferRet (bt : BtIx) (ps : PredIx) (neg : Bool)
  /-- BCOPY (R184). -/
  | bcopy (bt : BtIx) (bs : BtIx)
  /-- BLOAD (R183). -/
  | bload (bt : BtIx) (a : Reg)
  /-- BINV (R184). -/
  | binv (bt : BtIx)
  /-- XDEC (R185). -/
  | xdec (bt : BtIx) (a : Reg)
  /-- MATRIX_OPERATION (R168): Matrix operation `op` runs its passes and writes its D spans. -/
  | matrixOperation (op : Nat)
  /-- JOB_APPEND (R285): the cards of JOB word `wid` are appended once all of them fit. -/
  | jobAppend (wid : Nat)
  /-- FORM_BUNDLE (R329): port `port` of core `core` has an issue opportunity. -/
  | formBundle (core : Nat) (port : Nat)
  /-- TEAM_PLACEMENT (R324): the distributor places the next team of a grid without clusters. -/
  | teamPlacement
  /-- CLUSTER_PLACEMENT (R323): the distributor places the next whole cluster. -/
  | clusterPlacement
  /-- GRID_RESERVING (R322): grid `grid` has waited 256 us and becomes reserving. -/
  | gridReserving (grid : Nat)
  /-- TEAM_FREE (R335): the DRAINING team `team` (core x 2048 + team slot) is freed. -/
  | teamFree (team : Nat)
  /-- GRID_COMPLETION (R357): grid `grid` completes. -/
  | gridCompletion (grid : Nat)
  /-- HOME_ACCESS (R219): the accesses of word `wid` to line `line` are performed, loads from an L1 copy where `viaL1` and the lease allow. -/
  | homeAccess (wid : Nat) (line : Nat) (viaL1 : Bool)
  /-- LOAD_RETURN (R243): the value of operation `op` of thread `thr` returns. -/
  | loadReturn (thr : Nat) (op : Nat)
  /-- CHAIN_STEP (R255): the chain packet `op` of thread `thr` performs its next step. -/
  | chainStep (thr : Nat) (op : Nat)
  /-- PEER_STASH_ACCESS (R258): the routed stash accesses of word `wid` are performed. -/
  | peerStashAccess (wid : Nat)
  /-- RADD_ARRIVAL (R222): the RADDs of word `wid` to line `line` arrive at the Laurel partition. -/
  | raddArrival (wid : Nat) (line : Nat)
  /-- HORIZON_ENTRY_FREED (R229): a waiting opening (of grid or thread `waiter`) proceeds. -/
  | horizonEntryFreed (grid : Bool) (waiter : Nat)
  /-- SLOT_BIND (R275): a free slot binds a waiting queue. -/
  | slotBind (slot : Nat)
  /-- SLOT_UNBIND (R275): a slot unbinds its queue. -/
  | slotUnbind (slot : Nat)
  /-- ENTRY_TAKE (R272): a slot copies the head entry from the ring. -/
  | entryTake (slot : Nat)
  /-- ENTRY_WAIT_POLL (R274): a slot loads the wait word of its entry. -/
  | entryWaitPoll (slot : Nat)
  /-- ENTRY_HAND_ON (R274): a slot hands its entry on. -/
  | entryHandOn (slot : Nat)
  /-- ENTRY_SIGNAL_WRITE (R274): SIGVAL of a finished entry is written. -/
  | entrySignalWrite (queue : Nat) (entry : Nat)
  /-- FAULT_RECORD_WRITE (R280): the oldest waiting fault record of a die is written. -/
  | faultRecordWrite (die : Nat)
  /-- JOB_START (R224): a card whose dependences are met is checked and started. -/
  | jobStart (card : Nat)
  /-- COPY_PIECE (R295): the piece of destination row `row` that starts at address or offset `dst` is performed. -/
  | copyPiece (card : Nat) (row : Nat) (dst : Nat)
  /-- SORT_JOB (R298): Hornbeam sorts. -/
  | sortJob (card : Nat)
  /-- GATHERBIND_JOB (R299): a gather window is bound. -/
  | gatherbindJob (card : Nat)
  /-- UNBIND_JOB (R302): a gather window is removed. -/
  | unbindJob (card : Nat)
  /-- COLL_JOB (R304): a collective whose members are all present is performed. -/
  | collJob (card : Nat)
  /-- OCOMP_JOB (R305): a compositing collective whose members are all present is performed. -/
  | ocompJob (card : Nat)
  /-- JOB_COMPLETION (R291): a job completes. -/
  | jobCompletion (card : Nat)
  /-- WALK_COMPLETE (R369): the walk of a merge entry returns. -/
  | walkComplete (die : Nat) (w : WalkReturn)
  /-- ZERO_FILL_FIRST_WRITE (R372): the first write to a zero-fill page. -/
  | zeroFillFirstWrite (die : Nat) (entry : Nat)
  /-- MIGRATION (R377): a locked page is copied and its leaf swapped. -/
  | migration (asid : Nat) (va : Nat)
  /-- TILE_FILL_COMPLETE (R346): every block of a FILLING tile is filled. -/
  | tileFillComplete (team : Nat) (tile : Nat)
  /-- TILE_DRAIN_COMPLETE (R344): every store of a DRAINING tile is accepted. -/
  | tileDrainComplete (team : Nat) (tile : Nat)
  /-- HOST_PATH_RESPONSE (R308): the host answers the accesses of word `wid` to a host-memory line, after the host processors own stores `hostWrites`. -/
  | hostPathResponse (wid : Nat) (line : Nat) (hostWrites : List (Nat × Byte))
  /-- PREEMPT_COMPLETE (R390): every area of a pre-emption set is written. -/
  | preemptComplete (base : Nat)
  /-- GRAPH_START (R358): a walker copies and checks a graph. -/
  | graphStart (slot : Nat)
  /-- KERNEL_NODE (R360): a fired KERNEL node launches its record. -/
  | kernelNode (die : Nat) (node : Nat)
  /-- JOB_NODE (R360): a fired JOB node appends its card. -/
  | jobNode (die : Nat) (node : Nat)
  /-- COND_NODE (R360): a fired COND node loads its word. -/
  | condNode (die : Nat) (node : Nat)
  /-- WHILE_NODE (R360): a fired WHILE node counts its word down. -/
  | whileNode (die : Nat) (node : Nat)
  /-- SIGNAL_NODE (R360): a fired SIGNAL node writes VAL. -/
  | signalNode (die : Nat) (node : Nat)
  /-- WAIT_NODE (R360): a running WAIT node polls its word. -/
  | waitNode (die : Nat) (node : Nat)
  /-- NODE_COMPLETE (R360): a completed node sends its arrivals. -/
  | nodeComplete (die : Nat) (node : Nat)
  /-- CYCLE_COUNTER (R402): one cycle of the 1.25 GHz arithmetic clock. -/
  | cycleCounter
  /-- PRIVET_SLOT (R409): Privet examines up to four version records, each (line, wts). -/
  | privetSlot (recs : List (Nat × Nat))
  /-- SCRUB_SLOT (R208): scrub reads one line. -/
  | scrubSlot (line : Nat) (result : ScrubResult)
  /-- REFRESH_SLOT (R408): an HBM4 channel issues its due refresh commands. -/
  | refreshSlot (channel : Nat)
  /-- TELEMETRY_SLOT (R409): device temperature and error counters are read. -/
  | telemetrySlot (channel : Nat) (temp : Nat) (errors : Nat)
  /-- DOORBELL (R270): an RDMA WRITE that covers a write-index word. -/
  | doorbell (qp : Nat) (key : Nat) (va : Nat) (data : List Byte)
  /-- MIGRATION_DEVICE_REQUEST (R374): the fill count of a page has reached MIGTH. -/
  | migrationDeviceRequest (die : Nat) (asid : Nat) (va : Nat)
  /-- HOST_MIGRATION_REQUEST (R375): a write to the migration mailbox. -/
  | hostMigrationRequest (qp : Nat) (key : Nat) (va : Nat) (data : List Byte)
  /-- HOST_RDMA_WRITE (R307): the host port performs an RDMA WRITE. -/
  | hostRdmaWrite (qp : Nat) (key : Nat) (va : Nat) (data : List Byte)
  /-- HOST_RDMA_READ (R307): the host port performs an RDMA READ. -/
  | hostRdmaRead (qp : Nat) (key : Nat) (va : Nat) (n : Nat)
  /-- HOST_RDMA_FLUSH (R307): the host port performs an RDMA FLUSH. -/
  | hostRdmaFlush (r : FlushReq)
  /-- HOST_UNSUPPORTED_REQUEST (R307): a request of an unsupported kind is answered with a NAK. -/
  | hostUnsupportedRequest (qp : Nat)
  /-- KOLOZ_READ (R310): a remote READ is performed at its home. -/
  | kolozRead (port : Nat) (f : Frame)
  /-- KOLOZ_WRITE (R310): a remote WRITE is performed at its home. -/
  | kolozWrite (port : Nat) (f : Frame)
  /-- KOLOZ_ATOMIC (R310): a remote ATOMIC is performed at its home. -/
  | kolozAtomic (port : Nat) (f : Frame)
  /-- KOLOZ_RADD (R310): a remote RADD merges at this package. -/
  | kolozRadd (port : Nat) (f : Frame)
  /-- KOLOZ_CHAIN (R310): a chain packet arrives. -/
  | kolozChain (port : Nat) (f : Frame)
  /-- KOLOZ_RFLUSH (R310): a remote RFLUSH is performed. -/
  | kolozRflush (port : Nat) (f : Frame)
  /-- KOLOZ_COLL (R310): a collective step frame arrives. -/
  | kolozColl (port : Nat) (f : Frame)
  /-- KOLOZ_MGMT (R310): a management frame arrives in slot 255. -/
  | kolozMgmt (port : Nat) (f : Frame)
  /-- KOLOZ_DATA (R314): a DATA response returns. -/
  | kolozData (port : Nat) (f : Frame)
  /-- KOLOZ_ACK (R314): an acknowledgement returns. -/
  | kolozAck (port : Nat) (f : Frame)
  /-- KOLOZ_REFUSED (R311): a REFUSED response returns. -/
  | kolozRefused (port : Nat) (f : Frame)
  /-- FRAME_FCS_REPLAY (R310): a frame with a bad FCS is replayed by the link. -/
  | frameFcsReplay (port : Nat)
  /-- FRAME_DISCARD (R310): a frame with a reserved value, or with an SPKG that the link does not lead to, is discarded. -/
  | frameDiscard (port : Nat) (a : Arrival)
  /-- RETRANSMIT_TIMEOUT (R317): a request has been unanswered for 200 us. -/
  | retransmitTimeout (tag : Nat)
  /-- PORT_FAILURE (R317): a fabric port fails. -/
  | portFailure (port : Nat)
  /-- REDFISH_RESET (R413): a Chassis Reset action. -/
  | redfishReset (cold : Bool)
  /-- REDFISH_UPDATE (R319): UpdateService writes an image or the retired-unit map. -/
  | redfishUpdate (slot : Nat) (version : Nat) (crcOk : Bool) (retired : List Nat)
  /-- REDFISH_READ (R319): a Redfish read. -/
  | redfishRead (r : RedfishGet)
  /-- POWER_ON (R413): the first application of standby power. -/
  | powerOn
  /-- COLD_RESET (R413): cold reset and boot; cores that fail self-test and ports that fail training. -/
  | coldReset (badCores : List Nat) (downPorts : List Nat)
  /-- WARM_RESET (R413): warm reset and boot. -/
  | warmReset
  /-- POWER_ALARM (R411): the readings exceed a limit. -/
  | powerAlarm (moduleW : Nat) (packageW : Nat) (junction : Nat)
  /-- POWER_ALARM_CLEAR (R411): the readings have stayed below the clear limits for 10 ms. -/
  | powerAlarmClear (moduleW : Nat) (packageW : Nat) (junction : Nat)
  /-- TRIP (R412): over-temperature or low coolant flow. -/
  | trip (cause : Nat) (reading : Nat)
  /-- COUNTER_SAMPLE (R403): the management core samples the performance counters. -/
  | counterSample
  /-- PER_BANK_REFRESH (R207): an LPDDR-6 channel issues a due per-bank refresh. -/
  | perBankRefresh (channel : Nat)
  /-- PRIORITY_FLOW_CONTROL (R306): a priority flow control frame is received. -/
  | priorityFlowControl (port : Nat) (prio : Nat) (quanta : Nat)
  deriving DecidableEq, Repr

end Sys2Proof
end

