-- ==== Sys2Proof/Machine/State.lean ====
section
/-! DEFINITION. State.lean: everything that the manual gives the machine, as plain data, and the state after reset. Tables
are lists of keyed entries in ascending order of their keys; a key that is not listed stands for the default entry. A
thread is named by core x 2048 + thread-table index, a team by core x 2048 + team slot, a merge entry by
die x 1024 + entry. -/

namespace Sys2Proof.Machine

/-- Why a step stops the model. -/
inductive Fault where
  /-- SCRUB_SLOT and the eviction of a line: the line lies at a physical address that R201 says is unmapped. Safe: the
  machine has no such line. -/
  | unmappedPhysical (line : Nat)
  deriving DecidableEq, Repr

/-- Why the model gives a step no meaning. -/
inductive Refusal where
  /-- exec: an instruction whose meaning is not written. Safe: nothing is claimed of it. -/
  | notModelled (mnemonic : String)
  deriving DecidableEq, Repr

/-- Memory by physical address, in canonical form: addresses strictly rising, no zero byte listed (R209). -/
abbrev Mem := List Host.Cell

/-- A table: keys strictly rising. -/
abbrev Tab (α : Type) := List (Nat × α)

/-- STATE of a thread-table entry; a FREE entry is not listed (R325, R326). -/
inductive TState where
  | ready | waiting | parked | stopped | draining
  deriving DecidableEq, Repr

/-- WAITON (R325). -/
inductive WaitOn where
  | nothing | join | gjoin | bar | barw | wait | table | stop
  deriving DecidableEq, Repr

/-- A branch-target register (R180). -/
structure Bt where
  prepared : Bool := false
  target : Word := 0
  deriving DecidableEq, Repr

/-- Where a global location is performed: a line of this package, a host line, a line of another package, or a gather
window (R199, R202, R300). -/
inductive Loc where
  | here (pa : Nat)
  | host (pa : Nat)
  | remote (pkg asid va : Nat)
  | window (asid va : Nat)
  deriving DecidableEq, Repr

/-- What a load writes to its destination (R243). -/
inductive LoadForm where
  | n8 | i8 | n16 | i16 | w32 | w64 | w128
  deriving DecidableEq, Repr

/-- The read-modify-write operations (R247, R248, R360). -/
inductive Rmw where
  | atom (o : AtomOp) | atom64 (o : Atom64Op) | atomf (o : AtomfOp) | cas (w : CasWidth) (cmp : Nat)
  | countDown                -- of a WHILE node (R360)
  deriving DecidableEq, Repr

/-- The counter of an outstanding operation (R394); a matrix operation is counted by none. -/
inductive Cnt where
  | ld | st | cp | tl | uncounted
  deriving DecidableEq, Repr

/-- The state of a chain in flight (R254, R256). -/
structure Chain where
  fin : ChldFin
  steps : List Nat           -- the descriptor, as read at issue
  k : Nat := 0               -- next step
  p : Int                    -- P
  n : Nat := 0
  c : Nat                    -- the packet's stamp
  base : Nat := 0
  x1 : Nat := 0
  self : Bool := false
  deriving DecidableEq, Repr

/-- What an outstanding operation does. -/
inductive OpKind where
  | load (f : LoadForm)
  | store (x : Nat)
  | rmw (f : Rmw) (x : Nat)
  | radd (k : RaddKind) (x : Nat)
  | rflush
  | chain (c : Chain)
  | peerLoad (team off : Nat)
  | peerStore (team off x : Nat)
  | peerRmw (team off : Nat) (o : AtomOp) (x : Nat)
  | matrix (id : Nat)
  | job (card : Nat)
  | tile (k : Nat) (fill : Bool)
  | done                     -- performed at issue, counted until it retires
  | sysop (base : Nat)       -- PREEMPT, until its areas are written
  | inval (scope asid va size : Nat)  -- INVAL, until nothing uses what it removed (R371); scope 0 page, 1 ASID, 2 all
  | migrate (asid va dest : Nat)      -- MIGRATE, until the page's lock is free (R376)
  deriving DecidableEq, Repr

/-- An outstanding operation of a thread (R80, R394 to R396). -/
structure Op where
  id : Nat
  wid : Nat                  -- the issue of the word that made it
  seq : Nat := 0             -- its place among the thread's operations of its counter
  cnt : Cnt
  kind : OpKind
  fpc : Word := 0            -- first word of its hint sequence
  va : Nat := 0
  loc : Loc := .here 0
  zf : Bool := false         -- the page read as zero-fill (R372)
  size : Nat := 0
  dest : Nat := 0            -- first register of the destination
  dlen : Nat := 0            -- registers of the destination
  inTx : Bool := false
  snap : Option Nat := none  -- S of a snapshot read
  tile : Option Nat := none  -- the tile a tile store belongs to
  cold : Bool := false       -- HINT.CACHE prefers the second tier (R195)
  excl : Bool := false       -- a snapshot's or a transaction's read of a line that R233 excludes
  sent : Bool := false       -- a remote request is on its way
  performed : Bool := false  -- it has its stamp
  visible : Bool := false    -- readable outside logical time (R223)
  value : Nat := 0
  poisoned : Bool := false
  prot : Bool := false       -- a window element was denied (R301)
  finish : Nat := 0          -- F of a job
  complete : Bool := false   -- waits only to retire in order (R396)
  back : Option (Nat × Nat × Tab Bool) := none  -- run position, tag and validity before its word, to fault precisely
  buf : Tab Nat := []        -- elements of a window read that other packages have returned (R300, R301)
  deriving DecidableEq, Repr

/-- A destination whose value was poisoned, or whose window element was denied (R242, R301). -/
structure Bad where
  id : Nat                   -- the operation that returned it
  seq : Nat := 0
  cnt : Cnt
  dest : Nat
  dlen : Nat
  addr : Nat
  prot : Bool
  deriving DecidableEq, Repr

/-- What a transaction does to a word from its first RADD of it on: it adds to it, or stores byte i of it (R234, R250). -/
inductive TxMod where
  | add (isInt : Bool) (x : Word)
  | put (i : Nat) (b : Byte)
  deriving DecidableEq, Repr

/-- A transaction (R234, R262 to R265). -/
structure Tx where
  depth : Nat := 0
  active : Bool := false     -- TXACTIVE
  s : Nat := 0               -- S of its snapshot
  held : Bool := false       -- its horizon entry is held
  revoked : Bool := false    -- its next load faults (R232)
  ws : Tab Byte := []        -- the write set, by physical address
  adds : Tab (List TxMod) := []     -- its words with a RADD, by address div 4: what to do over the bytes above, oldest first
  deriving DecidableEq, Repr

/-- The snapshot that a thread reads at, outside transactions (R227, R266). -/
inductive Snap where
  | off | grid (s : Nat) | own (s : Nat)
  deriving DecidableEq, Repr

/-- The frame of handler mode (R380). -/
structure HFrame where
  ts : List Word             -- t0..t7
  tvalid : Tab Bool
  runPos : Nat
  btag : Nat
  b7 : Bt
  depth : Nat
  since : Nat := 0           -- operations numbered below this were outstanding at delivery
  deriving DecidableEq, Repr

/-- A translation (R364, R368). -/
structure Leaf where
  size : Nat                 -- 0 64 KiB, 1 2 MiB, 2 1 GiB
  r : Bool
  w : Bool
  x : Bool
  zf : Bool := false
  gather : Bool := false
  pin : Bool := false
  mig : Bool := false
  remote : Bool := false
  frame : Nat                -- physical address of the page; RPKG x 4096 + RASID for a remote leaf
  entry : Nat := 0           -- physical address of the page-table entry
  deriving DecidableEq, Repr

/-- A translation with the page it is for: the contents of a last-page register or of a core TLB entry (R368). -/
structure TlbEntry where
  asid : Nat
  vpn : Nat                  -- VA[56:16]
  leaf : Leaf
  deriving DecidableEq, Repr

/-- The word that a waiting thread stands at: what it is, its hints, the token and offset of a BARW wait, and a token of 1 for the STOP by
which the supervisor ends it. -/
structure Held where
  instr : Instr
  hints : List Hint
  token : Nat := 0
  off : Nat := 0
  deriving DecidableEq, Repr

/-- A thread-table entry (R325), the registers held beside it (R78) and its outstanding operations. -/
structure Thread where
  team : Nat
  pc : Word
  depth : Nat := 0
  age : Nat := 0
  group : Nat := 0
  glane : Nat := 0
  hlane : Nat := 0
  btag : Nat := Config.noTag
  runPos : Nat := 0
  st : TState := .ready
  waitOn : WaitOn := .nothing
  serial : Bool := false
  dstop : Bool := false
  yielded : Bool := false
  stepping : Bool := false   -- it executes one unit of a single-step (R338)
  regs : Tab Word := []      -- by register field: v0..v119, then t0..t7 (R49)
  tvalid : Tab Bool := []
  preds : Tab Bool := []
  bts : Tab Bt := []
  capClk : Word := 0
  capPts : Word := 0
  fcode : Word := 0
  faddr : Nat := 0
  fpc : Word := 0
  serialSeen : Bool := false
  ternBad : Bool := false
  derivLost : Bool := false
  snapx : Bool := false
  preempted : Bool := false
  txReason : Nat := 0
  pts : Nat := 0
  ops : List Op := []        -- in issue order
  bad : List Bad := []
  ldIssued : Nat := 0        -- operations counted on ld since placement
  cpIssued : Nat := 0
  retF : Tab Nat := []       -- F of its retired jobs that no WAIT has covered, by place (R225)
  tx : Tx := {}
  snap : Snap := .off
  revoked : Bool := false    -- its next snapshot read faults (R232)
  frame : Option HFrame := none
  held : Option Held := none
  epoch : Nat := 0           -- fetch epoch (R181)
  runEpoch : Nat := 0        -- the epoch when its run began
  quiet : Nat := 0           -- the cycle until which HINT.SCHED holds it (R196)
  grants : List TlbEntry := []      -- translations that no TLB holds, until the word completes (R368)
  buf : Tab Nat := []               -- what other packages have returned for the word: a card, an entry
  rpoison : List Nat := []   -- registers with an uncorrectable error (R387)
  brk : Option (Word × Nat) := none     -- the PC at which it stands before a BRKPT, and the words of that unit (R384)
  deriving DecidableEq, Repr

/-- STATE of a tile (R343). -/
inductive TileState where
  | empty | filling | ready | draining
  deriving DecidableEq, Repr

/-- A mapped tile-table entry (R341, R343, R346). -/
structure Tile where
  desc : List Word           -- the eight words of the descriptor
  doff : Nat                 -- data-area offset in the stash allocation
  st : TileState := .empty
  freeing : Bool := false    -- the entry is unmapped when EMPTY is reached
  fillPts : Nat := 0
  fillThr : Nat := 0
  blocks : Tab (Nat × Nat) := []    -- (w, r) of the filled blocks
  waiters : List Nat := []          -- threads whose words wait on it (R345, R352)
  poisoned : List Nat := []         -- stash bytes of poisoned elements
  buf : Tab Nat := []
  deriving DecidableEq, Repr

/-- A placed team (R18, R203, R324). -/
structure Team where
  grid : Nat                 -- grid-table index
  lin : Nat                  -- exact linear index
  cluster : Nat              -- key of its cluster
  rank : Nat := 0
  prio : Nat := 0            -- priority, taken when it was placed (R277)
  threads : Nat              -- threads created
  base : Nat := 0            -- first byte of its stash range
  size : Nat := 0            -- bytes of its allocation
  tileCount : Nat := 0
  stash : Tab Byte := []     -- by offset; an unlisted byte is zero
  spoison : List Nat := []   -- stash words with an uncorrectable error (R387)
  hidden : Tab Nat := []     -- hidden stamps of barrier words (R221)
  hiddenAt : Tab Nat := []   -- the same as they stood when the phase last changed
  tiles : Tab Tile := []
  barCount : Nat := 0
  teamStop : Bool := false   -- TEAMSTOP (R337)
  gone : Bool := false       -- freed, its range kept for its cluster (R335)
  exitPts : Nat := 0         -- the largest pts of its threads when it was freed (R221)
  deriving DecidableEq, Repr

/-- A placed cluster (R18, R400). -/
structure Cluster where
  grid : Nat
  teams : List Nat
  barCount : Nat := 0
  deriving DecidableEq, Repr

/-- Who launched a grid or issued a card (R216, R227). -/
inductive Launcher where
  | slot (queue entry : Nat)
  | node (die node : Nat)
  deriving DecidableEq, Repr

/-- A grid of the grid table (R320). -/
structure Grid where
  record : List Word         -- the latched launch record, overrides applied
  codebooks : Tab (List Nat) := []
  stamp : Nat := 0           -- launch stamp
  launcher : Launcher
  launchSlot : Nat := 0      -- the slot that launched it, where a queue did
  prio : Nat := 0            -- priority of its queue
  queue : Nat := 0
  arrival : Nat := 0         -- order of entry in the distributor list
  snap : Option Nat := none  -- S of its snapshot
  snapRevoked : Bool := false
  waitsHorizon : Bool := false
  next : Nat := 0            -- teams placed
  rr : Nat := 0              -- round-robin pointer
  waitSince : Nat := 0       -- cycle at which its next team began to wait
  reserving : Option Nat := none
  ended : Bool := false      -- by GRIDEND
  maxStamp : Nat := 0        -- largest pts at STOP and stamp of a write (R357)
  deriving DecidableEq, Repr

/-- A version record (R210). -/
structure Version where
  wts : Nat
  data : List Byte
  spill : Bool := false      -- it lies in the spill region (R211)
  born : Nat := 0            -- the model's own count at its creation: the oldest record of a share has the least
  place : Nat := 0           -- its number in its share, or in the spill region
  deriving DecidableEq, Repr

/-- The pending deltas of a line (R222, R250). -/
structure Delta where
  elems : Tab (Bool × Word)  -- element number: (INT32?, delta)
  d : Nat                    -- greatest stamp held
  first : Nat := 0           -- least stamp held
  since : Nat                -- when the delta line was taken
  owe : List Frame := []     -- the second answers owed to other packages for it (R314)
  deriving DecidableEq, Repr

/-- What the home of a line holds (R217, R219, R210, R222). -/
structure Line where
  wts : Nat
  rts : Nat
  poison : Bool := false
  recs : List Version := []  -- newest first
  delta : Option Delta := none
  back : Option (List Byte) := none  -- what memory holds of it while the slice holds it dirty (R209)
  own : Option Nat := none   -- of a host line that came with version records: the wts of its own version (R377)
  deriving DecidableEq, Repr

/-- An L1 copy (R219). -/
structure Copy where
  wts : Nat
  rts : Nat
  data : List Byte
  deriving DecidableEq, Repr

/-- A matrix operation in flight (R168). -/
structure MatOp where
  core : Nat
  engine : Nat
  team : Nat
  group : Nat
  dstart : Nat
  sp : Bool
  uniform : Bool
  slot : Nat
  chained : Bool
  passes : Nat
  narrow : Option Bool := none  -- once it has started on its engine: the mode that it started in (R85, R169, R411)
  lanes : List Nat           -- participants, by group lane
  a : Tab (List Word)        -- group lane: A span
  b : Tab (List Word)
  c : Tab (List Word)        -- C as read at the join; unused when chained
  mask : Tab (List Word)     -- metadata span
  deriving DecidableEq, Repr

/-- A held word of code (R181, R187): its core, its location and its value, and, in the prefetch store, the location of the
target that its entry is for; the other words stand in the instruction cache. -/
structure CodeLine where
  core : Nat
  loc : Nat                  -- ASID x 2^57 + the virtual address (R199)
  word : Word
  filled : Nat
  entry : Option Nat := none
  deriving DecidableEq, Repr

/-- A core: its ports, pointers and translation structures (R14, R320). -/
structure Core where
  ports : Tab (List Nat) := []      -- port: the threads of its bundle; an idle port is not listed
  pointer : Nat := 0                -- rotating pointer
  lastPage : Tab TlbEntry := []     -- by home lane
  tlb : List TlbEntry := []         -- newest first
  comparators : Tab Nat := []             -- comparators that are enabled: byte addresses
  formed : Tab Nat := []            -- team slot: when its last bundle was formed (R328)
  hiddenAge : List (Nat × Nat) := []    -- the barrier words that it keeps hidden stamps for, newest first: team, offset (R392)
  hiddenFloor : Nat := 0            -- the floor stamp, which serves every other word (R392)
  deriving DecidableEq, Repr

/-- Who waits on a merge entry (R369). -/
inductive Waiter where
  | lane (thr va : Nat) (fpc : Word)
  | fetch (thr va : Nat) (fpc : Word)
  | chain (thr op va : Nat)
  | element (thr op va : Nat)       -- an element of a gather window
  | card (card va : Nat)
  | completion (card va : Nat)
  | node (die node va : Nat)
  | tile (team tile va : Nat)
  deriving DecidableEq, Repr

/-- Where a merge entry stands. -/
inductive MergePhase where
  | queued                          -- its walk has still to start (R367)
  | walking
  | absent                          -- its record is written, or waits in the fault queue
  | zero (leaf : Leaf)              -- the first write to a zero-fill page
  deriving DecidableEq, Repr

/-- A merge-table entry (R369). -/
structure Merge where
  asid : Nat
  vpn : Nat
  acc : Nat                         -- ACC of the miss that created it (R279)
  srcKind : Nat := 0                -- SRCKIND and SRCID of that miss, and its address
  srcId : Nat := 0
  va : Nat := 0
  since : Nat := 0                  -- its arrival at the walker (R367)
  phase : MergePhase := .walking
  waiters : List Waiter := []
  deriving DecidableEq, Repr

/-- A table-pointer entry that a die's walker keeps from a recent walk (R367). -/
structure Pointer where
  die : Nat
  asid : Nat
  level : Nat                       -- 4, 3 or 2
  index : Nat                       -- VA[56:12 + 9 x level]
  value : Nat
  deriving DecidableEq, Repr

/-- A record that waits to be written to a fault queue (R279). -/
structure FaultRec where
  merge : Nat
  srcKind : Nat
  srcId : Nat
  asid : Nat
  acc : Nat
  va : Nat
  deriving DecidableEq, Repr

/-- A die's fault queue and its writer (R280). -/
structure FaultQueue where
  base : Option Nat := none
  readIx : Nat := 0
  seq : Nat := 0
  full : Bool := false              -- FAULTQ_FULL has been posted for this full period
  pts : Nat := 0
  waiting : List FaultRec := []
  deriving DecidableEq, Repr

/-- The supervisor event queue and its writer (R283). -/
structure EventQueue where
  base : Option Nat := none
  readIx : Nat := 0
  count : Nat := 0
  pts : Nat := 0
  deriving DecidableEq, Repr

/-- An event (R404). -/
structure Event where
  clock : Nat
  arg1 : Nat
  arg0 : Nat
  seq : Nat
  srcKind : Nat
  srcId : Nat
  code : Nat
  deriving DecidableEq, Repr

/-- An entry that has been handed on and is not finished (R274). -/
structure Pending where
  queue : Nat
  index : Nat
  sigAddr : Option Nat
  sigVal : Nat
  signal : Bool := false           -- a SIGNAL entry: complete once every earlier entry of its queue is
  fin : Option Nat := none         -- the stamp of its completion
  deriving DecidableEq, Repr

/-- A queue descriptor (R269). -/
structure Queue where
  ridx : Nat := 0
  widx : Nat := 0
  freason : Nat := 0
  detail : Nat := 0
  qpn : Nat := 0
  asid : Nat := 0
  frozen : Bool := false
  push : Bool := false
  prio : Nat := 0
  logn : Nat := 0
  ringBase : Nat := 0
  waitingSince : Nat := 0
  bell : Nat := 0                   -- stamp of the write that last moved WIDX (R271)
  doneStamp : Nat := 0              -- largest stamp of its completed entries
  sigFrozen : Option Nat := none    -- the entry whose signal write froze it
  deriving DecidableEq, Repr

/-- A hardware slot: the bound queue and the entry taken (R272, R275). -/
structure Slot where
  queue : Nat
  pts : Nat := 0
  boundAt : Nat := 0
  blockedAt : Option Nat := none
  entry : Option Nat := none        -- the 512 bits of the entry
  waitMet : Bool := false
  buf : Tab Nat := []
  deriving DecidableEq, Repr

/-- A job card held by the footprint tracker (R285, R290). -/
structure Card where
  instance_ : Nat                   -- instance number (R292)
  asid : Nat
  kind : JobKind
  bits : Nat                        -- the 1024 bits of the card
  stamp : Nat                       -- J
  thr : Option (Nat × Nat) := none  -- issuing thread and its operation
  node : Option (Nat × Nat) := none -- issuing walker and node
  team : Option Nat := none
  deps : List Nat := []
  started : Bool := false
  frozen : Option Nat := none
  pts : Nat := 0                    -- start stamp
  fin : Nat := 0                    -- largest stamp of its accesses
  pieces : List (Nat × Nat) := []   -- copy pieces performed
  ahead : List (Nat × Nat) := []    -- copy pieces that are read, and wait to be written (R261)
  worked : Bool := false            -- its accesses are performed
  finished : Bool := false          -- it has completed, and only its completion word is to be written (R291)
  buf : Tab Nat := []
  status : Nat := 0
  deriving DecidableEq, Repr

/-- A gather window (R299). -/
structure Window where
  asid : Nat
  wbase : Nat
  n : Nat
  es : Nat                          -- element size in bytes
  tbase : Nat
  tn : Nat
  idx : Nat
  fill : Nat
  deriving DecidableEq, Repr

/-- A node of a walker's graph table (R359, R360). -/
structure GNode where
  graph : Nat
  place : Nat                       -- its number in the graph
  bits : Nat                        -- the 512 bits of the node
  arrivals : Nat := 0
  running : Bool := false
  fired : Nat := 0                  -- firings in the ready queue, or beyond it
  launched : Option Nat := none     -- the grid or card that it waits for
  finished : Option Nat := none     -- the stamp at which that completed
  choice : Bool := false            -- COND, WHILE: S0 was chosen
  ticket : Nat := 0                 -- its place among the fired nodes (R268, R360)
  buf : Tab Nat := []
  complete : Bool := false
  deriving DecidableEq, Repr

/-- A graph in flight (R358). -/
structure Graph where
  die : Nat
  queue : Nat
  index : Nat                       -- the queue entry that started it
  asid : Nat
  count : Nat
  failure : Option (Nat × Nat) := none  -- freeze reason and launch detail
  deriving DecidableEq, Repr

/-- A live entry of the horizon table (R229). -/
structure Horizon where
  s : Nat
  holders : Nat
  deriving DecidableEq, Repr

/-- A host queue pair (R307). -/
structure QueuePair where
  asid : Nat
  key : Nat
  mode : Nat                        -- 1 open, 2 host path, 3 migration mailbox
  frozen : Bool := false
  pts : Nat := 0
  deriving DecidableEq, Repr

/-- A fabric peer (R315, R318). -/
structure Peer where
  frozen : Bool := false
  lost : Bool := false
  sendSeq : Nat := 0                -- the sequence number of the next request to it
  received : Tab (List Frame) := [] -- the requests performed for it, by sequence number, with the answers given
  strikes : List Nat := []          -- cycles of its refusals and discarded frames
  owed : List Frame := []           -- responses held while it is frozen
  deriving DecidableEq, Repr

/-- Who sent a request: an operation of a thread, the word that a thread stands at, a card, the completion word of a card, a
step frame of a card's collective, a tile, a node of a walker, a slot, the signal of an entry, the completion of a grid, or the management core. -/
inductive Owner where
  | op (thr id : Nat)
  | word (thr : Nat)
  | card (card : Nat)
  | completion (card : Nat)
  | tile (team tile : Nat)
  | node (die node : Nat)
  | slot (slot : Nat)
  | signal (queue entry : Nat)
  | grid (grid : Nat)
  | step (card : Nat)
  deriving DecidableEq, Repr

/-- A request that this package has sent and that is unanswered (R310, R317). -/
structure Request where
  frame : Frame
  since : Nat
  tries : Nat := 0
  port : Option Nat := none         -- the port that it left by last
  owner : Owner
  accepted : Bool := false          -- its first answer has come
  visible : Bool := false           -- its second answer has come before its value (R314)
  parts : List (Nat × Nat × Nat) := []  -- the lanes that an aggregated atomic serves: thread, operation, operand (R313)
  slot : Option Nat := none             -- what it reads for its owner, as address x 256 + bytes
  born : Nat := 0                   -- the model's own count when it was made
  deriving DecidableEq, Repr

/-- A page exported to another package (R311, R386). -/
structure Export where
  asid : Nat
  vpn : Nat
  pkg : Nat
  rasid : Nat
  deriving DecidableEq, Repr

/-- Who asked for a migration (R374, R375). -/
inductive MigSide where
  | device | supervisor | host (result : Nat)
  deriving DecidableEq, Repr

/-- A page that a migration request has locked (R376). -/
structure MigLock where
  asid : Nat
  va : Nat
  dest : Nat                        -- 0 host, 1 HBM4, 2 second tier
  side : MigSide
  size : Nat                        -- of the page, as its leaf gives it
  list : Nat                        -- the frame list that the frame came from
  frame : Nat                       -- the new frame
  entry : Nat                       -- the leaf's address, and what the lock has written there
  leaf : Nat
  deriving DecidableEq, Repr

/-- A line of the second tier or of host memory that a home slice has filled from memory: its slice, the 64 KiB of its address,
and when (R374). -/
structure Fill where
  slice : Nat
  unit : Nat
  clock : Nat
  deriving DecidableEq, Repr

/-- A side that lost the race for a page, or that migrated it, and until when that counts (R376). -/
structure MigRecent where
  asid : Nat
  vpn : Nat
  host : Bool
  until_ : Nat
  lost : Bool := false              -- it lost, and has not won
  deriving DecidableEq, Repr

/-- A pre-emption set: its base, its cores and whether its areas are written (R389). -/
structure SavedSet where
  base : Nat
  cores : List Nat
  written : Bool := false
  thr : Nat                         -- the thread that asked, and its operation
  op : Nat
  -- what the areas hold: its bytes where R213, R391 and R392 give them, and the rest as it stood, under the old names
  threads : Tab Thread := []
  teams : Tab Team := []
  clusters : Tab Cluster := []
  coreRecs : Tab Core := []
  parked : List Nat := []           -- threads parked on a translation, whose miss starts afresh (R370)
  debugReqs : List (Nat × Nat) := []    -- debug requests made while the context is saved (R339)
  slots : List (Nat × Nat) := []        -- its teams when it was written, with their tile counts; GRIDEND may have dropped some (R386)
  deriving DecidableEq, Repr

/-- A firmware image slot of the boot flash (R414). -/
structure Image where
  version : Nat
  valid : Bool
  fails : Bool := false             -- it fails to boot although its CRC stands (notes/assumptions/6.md)
  deriving DecidableEq, Repr

/-- Where the module stands (R412 to R414). -/
inductive Power where
  | running | tripped | managementOnly | standby
  deriving DecidableEq, Repr

/-- The word that a port is issuing: its bundle's core and port, the hints before it and the PC of the sequence's first
word. -/
structure Issue where
  core : Nat
  port : Nat
  hints : List Hint := []
  fpc : Word
  deriving DecidableEq, Repr

/-- Which part of the package moves next. The manual gives no order among them; the list of moves is free. -/
inductive Move where
  | issue (core port : Nat) (held : Bool)  -- a port issues the next unit of its bundle, from a held word where it may
  | event (i : Instr)
  | evict (line : Nat)                     -- a home slice evicts a line (R219)
  | registerError (thr r : Nat)            -- an uncorrectable error of a register (R387)
  | stashError (team off : Nat)
  | coreTableError (core : Nat)
  | lineError (line : Nat)                 -- an uncorrectable error of a line in memory or of its delta line (R208)
  | softError (memory : Nat)               -- a corrected soft error of a memory (R387, R403)
  | visit                                  -- a visiting packet performs its access here, and goes on (R255)
  | sysop (thr op : Nat)                   -- a SYSOP in progress completes, where it has nothing to wait for (R385)
  | sendDue                                -- the fabric ports send the answers that a fold has made ready
  | eventWrite                             -- the event-queue writer writes the oldest waiting event (R283)
  deriving DecidableEq, Repr

/-- The memories and what their homes keep (R197, R217 to R222, R229, R435). -/
structure MemSys where
  mem : Mem := []                          -- HBM4, second tier and host memory
  lines : Tab Line := []                   -- by line number, PA div 128
  memStamp : Tab Nat := []                 -- by home slice
  l1 : Tab Copy := []                      -- by core x 2^41 + line
  fills : List Fill := []                  -- of the last 256 us, newest first (R374)
  laurel : Nat := 0                        -- 0, 1, 2 for 128, 192, 256 KiB a slice
  horizon : List Horizon := []
  floor : Nat := 0                         -- VF
  maxWrite : Nat := 0                      -- the largest stamp that a write has taken
  openings : Nat := 0                      -- the model's own count of openings, for the free rise of VF
  versionGiB : Nat := 16                   -- size of the version region (R197, R210)
  spillGiB : Nat := 64                     -- size of the spill region (R197, R210)
  deriving DecidableEq, Repr

/-- The cores and what runs on them (R14, R18, R320). -/
structure Exec where
  cores : Tab Core := []
  threads : Tab Thread := []
  teams : Tab Team := []
  clusters : Tab Cluster := []
  grids : Tab Grid := []                   -- by grid-table index
  matOps : Tab MatOp := []                 -- by join order
  code : List CodeLine := []
  ageMax : Nat := 64                       -- AGE_MAX
  matNarrow : List Nat := []               -- cores whose MATNARROW is 1
  saved : List SavedSet := []
  deriving DecidableEq, Repr

/-- Translation and migration (R362 to R377). -/
structure Trans where
  roots : Tab Nat := []                    -- enabled ASID roots: level-4 PA
  merges : Tab Merge := []
  pointers : List Pointer := []            -- newest first
  faultQs : Tab FaultQueue := []           -- by die
  frames : Tab (List Nat) := []            -- frame lists, by die x 3 + memory
  migth : Nat := 64
  locks : List MigLock := []
  recent : List MigRecent := []
  deriving DecidableEq, Repr

/-- The queue unit and the walkers (R268, R358). -/
structure QueueUnit where
  queues : Tab Queue := []                 -- the queues whose EN is 1
  slots : Tab Slot := []                   -- the bound slots
  slotPts : Tab Nat := []                  -- the largest stamp that a slot has observed (R216)
  pendings : List Pending := []
  graphs : Tab Graph := []
  nodes : Tab GNode := []                  -- by die x 4096 + table index
  walkerPts : Tab Nat := []                -- by die
  deriving DecidableEq, Repr

/-- The engines (R287, R290, R299, R303). -/
structure Engines where
  cards : Tab Card := []                   -- by order of append
  windows : List Window := []
  pages : Tab TlbEntry := []               -- by instance: the translation of its current page (R368)
  groups : Tab (List Nat) := []            -- collective groups: member packages by rank
  inbox : List Frame := []                 -- collective step frames received
  deriving DecidableEq, Repr

/-- The host port and the fabric ports (R306 to R318). -/
structure Fabric where
  qps : Tab QueuePair := []
  peers : Tab Peer := []                   -- by package
  requests : Tab Request := []             -- by TAG
  unsent : List Request := []              -- requests that wait for a TAG, oldest first
  visitors : List Frame := []              -- CHAIN frames whose packet has its next access at this package (R255)
  due : List Frame := []                   -- answers that a fold has made ready to send
  sent : List (Nat × Frame) := []          -- frames given to the ports, newest first
  answers : List (Nat × Nat × List Byte) := []  -- answers of the host port by queue pair, newest first: 0 done, with the
                                           -- bytes read; 1 a remote-invalid-request, 2 a remote-access NAK
  exports : List Export := []
  pkg : Nat := 0                           -- PKG
  badPorts : List Nat := []                -- retired ports
  downPorts : List Nat := []
  pauses : Tab Nat := []                   -- priority: the cycle until which the host port pauses it
  path : List (Nat × Nat × List Byte) := []     -- requests of the host path, newest first: 0 READ, 1 WRITE, 2 FLUSH, with the
                                           -- host bus address and the bytes written, or the count read (R308)
  dataMac : Nat := 0                       -- the host port's address for data
  mgmtMac : Nat := 0                       -- the host port's address for management
  deriving DecidableEq, Repr

/-- The base die and the module: clock, events, counters, resets (R402 to R415). -/
structure Base where
  clock : Nat := 0                         -- the cycle counter
  alarm : Bool := false
  quietSince : Option Nat := none          -- since when every reading has been below the clear limits
  eventQ : EventQueue := {}
  evWait : List Event := []                -- events that wait for the event-queue writer
  boxwood : List Event := []               -- newest first
  posted : Nat := 0
  seqs : Tab Nat := []                     -- SEQ by source kind x 4096 + source
  perf : Tab Nat := []                     -- performance counters, by unit kind x 2^16 + unit x 16 + counter
  samples : Tab Nat := []                  -- the last sample of them
  corrected : Tab Nat := []                -- corrected-error counts, by memory: the rows of R197 from 0 on, then 13 for
                                           -- register files and 14 for core tables (R387, R394)
  refreshed : Tab Nat := []                -- by channel: refresh commands issued
  telemetry : Tab (Nat × Nat) := []        -- by channel: temperature and error counter
  badCores : List Nat := []                -- the retired-unit map: cores
  mgmtPts : Nat := 0
  power : Power := .running
  resetPending : Option Bool := none       -- a requested reset; true for cold
  images : List Image := []                -- the boot flash's image slots
  image : Option Nat := none               -- the slot that the management core's memory is loaded from (R197, R414)
  flashVersion : Nat := 16                 -- the region sizes of the flash configuration, in GiB (R210, R414)
  flashSpill : Nat := 64
  redfish : List Byte := []                -- what the last Redfish read has returned (R319)
  flashCores : List Nat := []              -- the flash copy of the retired-unit map
  flashPorts : List Nat := []
  deriving DecidableEq, Repr

/-- The whole machine. -/
structure State where
  mm : MemSys := {}
  ex : Exec := {}
  tr : Trans := {}
  qu : QueueUnit := {}
  en : Engines := {}
  fa : Fabric := {}
  bd : Base := {}
  halted : Bool := false                   -- the stop of R217
  cur : Option Issue := none               -- the word that a port is issuing
  agenda : List Move := []                 -- which part moves next
  nextId : Nat := 0                        -- the model's own count: words, operations, cards, arrivals
  deriving DecidableEq, Repr

/-- The hand-off state after cold reset (R413, R414): memory reads zero, every table is empty, and the boot firmware has
created queue 0 with ASID 0 and opened its queue pair. The fields of queue 0 that R414 does not give, the images of the
flash and the queue pair's number and key are DESIGN CHOICEs (notes/assumptions/6.md). -/
def State.reset : State :=
  { qu := { queues := [(0, { asid := 0, prio := 7, qpn := 0, logn := 4, ringBase := 0 })] }
    fa := { qps := [(0, { asid := 0, key := 0, mode := 1 })] }
    bd := { images := [{ version := 1, valid := true }, { version := 0, valid := false }], image := some 0 } }

end Sys2Proof.Machine
end

