-- ==== Sys2Proof/Machine/Table.lean ====
section
/-! DEFINITION. Table.lean: reading and writing tables, byte memories and little-endian values. -/

namespace Sys2Proof.Machine

/-- The entry of a key. -/
def tget {α : Type} : Tab α → Nat → Option α
  | [], _ => none
  | (k, v) :: t, n => if n = k then some v else tget t n

/-- The table with the entry of a key set. -/
def tset {α : Type} : Tab α → Nat → α → Tab α
  | [], n, v => [(n, v)]
  | (k, w) :: t, n, v =>
    if n = k then (n, v) :: t else if n < k then (n, v) :: (k, w) :: t else (k, w) :: tset t n v

/-- The table without a key. -/
def tdel {α : Type} (t : Tab α) (n : Nat) : Tab α := t.filter fun e => e.1 != n

/-- The table with the entry of a key, where it has one, changed. -/
def tmod {α : Type} (t : Tab α) (n : Nat) (f : α → α) : Tab α :=
  match tget t n with
  | some v => tset t n (f v)
  | none => t

/-- The lowest key from `n` on, of `fuel` keys, that a table does not list. -/
def tfree {α : Type} (t : Tab α) : Nat → Nat → Option Nat
  | 0, _ => none
  | fuel + 1, n => if (tget t n).isNone then some n else tfree t fuel (n + 1)

/-- One byte; an unlisted byte is zero (R79, R203, R209). -/
def mget : Mem → Nat → Byte
  | [], _ => 0
  | (k, b) :: t, a => if a = k then b else mget t a

/-- A byte written, in canonical form: a zero byte is not listed. -/
def mset (m : Mem) (a : Nat) (b : Byte) : Mem := if b = 0 then tdel m a else tset m a b

/-- The canonical form of a memory: addresses strictly rising, no zero byte. -/
def Memory.wf (m : Mem) : Bool :=
  decide (m.Pairwise fun x y => x.1 < y.1) && m.all fun c => c.2 != 0

/-- `n` bytes from an address. -/
def mread (m : Mem) (a n : Nat) : List Byte := (List.range n).map fun i => mget m (a + i)

/-- Bytes written from an address on. -/
def mwrite : Mem → Nat → List Byte → Mem
  | m, _, [] => m
  | m, a, b :: bs => mwrite (mset m a b) (a + 1) bs

/-- The value of bytes, lowest first (R6). -/
def leNat : List Byte → Nat
  | [] => 0
  | b :: bs => b.toNat + 256 * leNat bs

/-- The low `n` bytes of a value, lowest first (R6). -/
def natLe : Nat → Nat → List Byte
  | 0, _ => []
  | n + 1, x => BitVec.ofNat 8 x :: natLe n (x / 256)

/-- Bits [hi:lo] of a value. -/
def bits (x hi lo : Nat) : Nat := x / 2 ^ lo % 2 ^ (hi + 1 - lo)

/-- Bit n of a value. -/
def bit (x n : Nat) : Bool := x / 2 ^ n % 2 == 1

/-- x[n-1:0] read as two's complement (R45). -/
def sext (x n : Nat) : Int :=
  let y := x % 2 ^ n
  if n ≠ 0 ∧ 2 ^ (n - 1) ≤ y then (y : Int) - (2 ^ n : Nat) else (y : Int)

/-- x mod 2^n (R45). -/
def wrap (x : Int) (n : Nat) : Nat := (x % (2 ^ n : Nat)).toNat

/-- The nearest value of a signed type of n bits (R45). -/
def satI (x : Int) (n : Nat) : Int :=
  if x < -((2 : Int) ^ (n - 1)) then -((2 : Int) ^ (n - 1)) else if (2 : Int) ^ (n - 1) - 1 < x then (2 : Int) ^ (n - 1) - 1 else x

/-- The nearest value of an unsigned type of n bits (R45). -/
def satN (x : Int) (n : Nat) : Int :=
  if x < 0 then 0 else if (2 : Int) ^ n - 1 < x then (2 : Int) ^ n - 1 else x

/-- The natural number of bits, lowest first. -/
def bitsNat : List Bool → Nat
  | [] => 0
  | b :: bs => b.toNat + 2 * bitsNat bs

/-- The state with a model count advanced, and the count before. -/
def fresh (s : State) : Nat × State := (s.nextId, { s with nextId := s.nextId + 1 })

/-- The member of a list that stands before every other. -/
def firstBy {α : Type} (before : α → α → Bool) : List α → Option α
  | [] => none
  | x :: xs => match firstBy before xs with
    | none => some x
    | some y => if before y x then some y else some x

end Sys2Proof.Machine
end

