-- ==== Sys2Proof/Machine/Float.lean ====
section
/-! DEFINITION. Float.lean: the number formats, exact arithmetic on their values and the one rounding of an exact result
(R22 to R31, R45). -/

namespace Sys2Proof.Machine

/-- The formats of R22, R31 and R36. -/
inductive NumFmt where
  | fp32 | bf16 | f16 | e5m2 | e4m3 | e2m1 | hs4 | int8 | int4
  deriving DecidableEq, Repr

/-- Width in bits. -/
def NumFmt.width : NumFmt → Nat
  | .fp32 => 32 | .bf16 => 16 | .f16 => 16 | .e5m2 => 8 | .e4m3 => 8 | .e2m1 => 4 | .hs4 => 4 | .int8 => 8 | .int4 => 4

/-- Fraction bits (R22). -/
def NumFmt.fbits : NumFmt → Nat
  | .fp32 => 23 | .bf16 => 7 | .f16 => 10 | .e5m2 => 2 | .e4m3 => 3 | .e2m1 => 1 | _ => 0

/-- Exponent bias (R22). -/
def NumFmt.bias : NumFmt → Nat
  | .fp32 => 127 | .bf16 => 127 | .f16 => 15 | .e5m2 => 15 | .e4m3 => 7 | .e2m1 => 1 | _ => 0

/-- The code of +infinity, where the format has one. -/
def NumFmt.inf? : NumFmt → Option Nat
  | .fp32 => some 0x7F800000 | .bf16 => some 0x7F80 | .f16 => some 0x7C00 | .e5m2 => some 0x7C | _ => none

/-- The code of the largest finite value (R22). -/
def NumFmt.maxCode : NumFmt → Nat
  | .fp32 => 0x7F7FFFFF | .bf16 => 0x7F7F | .f16 => 0x7BFF | .e5m2 => 0x7B | .e4m3 => 0x7E | .e2m1 => 7
  | .hs4 => 7 | .int8 => 127 | .int4 => 7

/-- CanonNaN (R24), where the format has a NaN. -/
def NumFmt.nan? : NumFmt → Option Nat
  | .fp32 => some 0x7FC00000 | .bf16 => some 0x7FC0 | .f16 => some 0x7E00 | .e5m2 => some 0x7E | .e4m3 => some 0x7F
  | _ => none

/-- An exact value: NaN, an infinity, or (-1)^neg x m x 2^e; with `sticky`, a value strictly between m x 2^e and
(m + 1) x 2^e in magnitude. Zeros are signed. -/
inductive Ext where
  | nan
  | inf (neg : Bool)
  | fin (neg : Bool) (m : Nat) (e : Int) (sticky : Bool := false)
  deriving DecidableEq, Repr

/-- A magnitude with a sign. -/
def signed (neg : Bool) (m : Nat) : Int := if neg then -(m : Int) else (m : Int)

/-- An integer as an exact value. -/
def Ext.ofInt (i : Int) : Ext := .fin (decide (i < 0)) i.natAbs 0

/-- IsNaN of a code (R22, R45). -/
def isNaN (f : NumFmt) (x : Nat) : Bool :=
  let mag := x % 2 ^ (f.width - 1)
  match f with
  | .e4m3 => mag == 0x7F
  | .e2m1 | .hs4 | .int8 | .int4 => false
  | _ => match f.inf? with
    | some i => i < mag
    | none => false

/-- Value(x, f) of R45. -/
def value (f : NumFmt) (x : Nat) : Ext :=
  match f with
  | .int8 => .ofInt (sext x 8)
  | .int4 => .ofInt (sext x 4)
  | .hs4 => let i := 2 * sext x 4 + 1; .fin (decide (i < 0)) i.natAbs (-1)
  | _ =>
    let s := bit x (f.width - 1)
    let mag := x % 2 ^ (f.width - 1)
    if isNaN f x then .nan
    else if f.inf? = some mag then .inf s
    else
      let E := mag / 2 ^ f.fbits
      let F := mag % 2 ^ f.fbits
      if E = 0 then .fin s F (1 - (f.bias : Int) - f.fbits)
      else .fin s (2 ^ f.fbits + F) ((E : Int) - f.bias - f.fbits)

/-- Scale formats of a format slot (R38). -/
inductive ScaleFmt where
  | none | e8m0 | bf16
  deriving DecidableEq, Repr

/-- ScaleValue (R30, R45); an absent scale is 1. -/
def scaleValue (k : ScaleFmt) (s : Nat) : Ext :=
  match k with
  | .none => .fin false 1 0
  | .e8m0 => if s % 256 = 0xFF then .nan else .fin false 1 ((s % 256 : Nat) - 127)
  | .bf16 => value .bf16 (s % 65536)

/-- Does a discarded part round the magnitude up? `cmp` compares it with one half; `odd` is the kept part's low bit. -/
def roundsUp (rm : Rm) (neg odd : Bool) (cmp : Ordering) (exact : Bool) : Bool :=
  if exact then false
  else match rm with
    | .rne => cmp == .gt || (cmp == .eq && odd)
    | .rna => cmp == .gt || cmp == .eq
    | .rz => false
    | .rd => neg
    | .ru => !neg

/-- The magnitude m x 2^e (with sticky) in units of 2^q, rounded by `rm`. -/
def roundAt (rm : Rm) (neg : Bool) (m : Nat) (e : Int) (sticky : Bool) (q : Int) : Nat :=
  if m = 0 ∧ sticky = false then 0
  else if q ≤ e then
    let n := m * 2 ^ (e - q).toNat
    if roundsUp rm neg (n % 2 == 1) .lt (!sticky) then n + 1 else n
  else
    let sh := (q - e).toNat
    if Nat.log2 m + 2 ≤ sh then (if roundsUp rm neg false .lt false then 1 else 0)
    else
      let n := m / 2 ^ sh
      let r := m % 2 ^ sh
      let cmp := if 2 * r < 2 ^ sh then Ordering.lt
        else if 2 * r = 2 ^ sh then (if sticky then .gt else .eq) else .gt
      if roundsUp rm neg (n % 2 == 1) cmp (r == 0 && !sticky) then n + 1 else n

/-- RoundInt of R45: infinities give a value beyond every integer container, NaN gives 0. -/
def roundInt (rm : Rm) : Ext → Int
  | .nan => 0
  | .inf neg => signed neg (2 ^ 300)
  | .fin neg m e st =>
    signed neg (roundAt rm neg m e st 0)

/-- x - 1/2, exactly (R31). -/
def Ext.subHalf : Ext → Ext
  | .nan => .nan
  | .inf n => .inf n
  | .fin neg m e st =>
    let e' : Int := min e (-1)
    let m' := m * 2 ^ (e - e').toNat
    let h := 2 ^ (-1 - e').toNat
    if neg then .fin true (m' + h) e' st
    else if h ≤ m' then .fin false (m' - h) e' st
    else if st then .fin true (h - m' - 1) e' true else .fin true (h - m') e' false

/-- The sign bit of a format set where `neg`. -/
def withSign (f : NumFmt) (neg : Bool) (mag : Nat) : Nat := if neg then mag + 2 ^ (f.width - 1) else mag

/-- The code that a magnitude beyond the largest finite one rounds to (R26, R27). -/
def overflowCode (f : NumFmt) (rm : Rm) (sat neg : Bool) : Nat :=
  let toInf := match rm with
    | .rne | .rna => true
    | .rz => false
    | .rd => neg
    | .ru => !neg
  if toInf = false ∨ sat = true ∨ f = .e2m1 then withSign f neg f.maxCode
  else match f.inf? with
    | some i => withSign f neg i
    | none => f.nan?.getD 0

/-- Round(x, f, rm, sat) of R45. An infinite x stays infinite in every rounding mode, and is NaN in E4M3: DESIGN CHOICE, the test
against MaxFinite being one of finite values (notes/assumptions/52.md). -/
def round (f : NumFmt) (rm : Rm) (sat : Bool) (x : Ext) : Nat :=
  match f with
  | .int8 => wrap (satI (roundInt rm x) 8) 8
  | .int4 => wrap (satI (roundInt rm x) 4) 4
  | .hs4 => match x with
    | .nan => 0
    | _ => wrap (satI (roundInt rm x.subHalf) 4) 4
  | _ => match x with
    | .nan => f.nan?.getD 0
    | .inf neg => overflowCode f .rne sat neg
    | .fin neg m e st =>
      if m = 0 ∧ st = false then withSign f neg 0
      else
        let qmin : Int := 1 - (f.bias : Int) - f.fbits
        let q := max ((Nat.log2 m : Int) + e - f.fbits) qmin
        let n := roundAt rm neg m e st q
        let mag := (q - qmin).toNat * 2 ^ f.fbits + n
        if f.maxCode < mag then overflowCode f rm sat neg else withSign f neg mag

/-- The product of exact values. -/
def Ext.mul : Ext → Ext → Ext
  | .nan, _ => .nan
  | _, .nan => .nan
  | .inf a, .inf b => .inf (a != b)
  | .inf a, .fin b m _ _ => if m = 0 then .nan else .inf (a != b)
  | .fin a m _ _, .inf b => if m = 0 then .nan else .inf (a != b)
  | .fin a m e _, .fin b n f _ => .fin (a != b) (m * n) (e + f)

/-- The negated value. -/
def Ext.neg : Ext → Ext
  | .nan => .nan
  | .inf a => .inf !a
  | .fin a m e st => .fin (!a) m e st

/-- The value times 2^k. -/
def Ext.shift (k : Int) : Ext → Ext
  | .fin a m e st => .fin a m (e + k) st
  | x => x

/-- The least exponent of the finite terms. -/
def minExp : List Ext → Int
  | [] => 0
  | [.fin _ _ e _] => e
  | .fin _ _ e _ :: t => min e (minExp t)
  | _ :: t => minExp t

/-- The terms as integers in units of 2^e. -/
def intSum (e : Int) : List Ext → Int
  | [] => 0
  | .fin a m f _ :: t => (signed a (m * 2 ^ (f - e).toNat)) + intSum e t
  | _ :: t => intSum e t

/-- A zero of the sign given by `neg`. -/
def Ext.isZero (neg : Bool) : Ext → Bool
  | .fin a m _ _ => a == neg && m == 0
  | _ => false

/-- The exact sum, with IEEE specials; `zneg` is the sign of an exact zero of terms that are not all zeros of one sign. -/
def sumExt (zneg : Bool) (l : List Ext) : Ext :=
  if l.any (· == .nan) || (l.any (· == .inf true) && l.any (· == .inf false)) then .nan
  else if l.any (· == .inf true) then .inf true
  else if l.any (· == .inf false) then .inf false
  else
    let e := minExp l
    let i := intSum e l
    if i = 0 then
      .fin (if l.all (Ext.isZero true) then true else if l.all (Ext.isZero false) then false else zneg) 0 0
    else .fin (decide (i < 0)) i.natAbs e

/-- The quotient, with IEEE specials (R121); enough bits for one rounding, and the rest sticky. -/
def Ext.div : Ext → Ext → Ext
  | .nan, _ => .nan
  | _, .nan => .nan
  | .inf _, .inf _ => .nan
  | .inf a, .fin b _ _ _ => .inf (a != b)
  | .fin a _ _ _, .inf b => .fin (a != b) 0 0
  | .fin a m e _, .fin b n f _ =>
    if n = 0 then (if m = 0 then .nan else .inf (a != b))
    else if m = 0 then .fin (a != b) 0 0
    else
      let k := 64 + Nat.log2 n
      .fin (a != b) (m * 2 ^ k / n) (e - f - k) (m * 2 ^ k % n != 0)

/-- floor(sqrt n), bit by bit from bit `i - 1` down. -/
def isqrt (n : Nat) : Nat → Nat → Nat
  | 0, r => r
  | i + 1, r => isqrt n i (if (r + 2 ^ i) * (r + 2 ^ i) ≤ n then r + 2 ^ i else r)

/-- The order of exact values without NaN; -0 equals +0. -/
def Ext.lt : Ext → Ext → Bool
  | .nan, _ => false
  | _, .nan => false
  | .inf a, .inf b => a && !b
  | .inf a, .fin .. => a
  | .fin .., .inf b => !b
  | .fin a m e _, .fin b n f _ =>
    let g := min e f
    let x := signed a (m * 2 ^ (e - g).toNat)
    let y := signed b (n * 2 ^ (f - g).toNat)
    decide (x < y)

/-- Equal values; -0 equals +0. -/
def Ext.eqv (x y : Ext) : Bool := x != .nan && y != .nan && !x.lt y && !y.lt x

/-- Round of a sum of two codes of one format. -/
def faddCode (f : NumFmt) (rm : Rm) (sat : Bool) (x y : Nat) : Nat :=
  round f rm sat (sumExt (rm == .rd) [value f x, value f y])

/-- Round of a product of two codes of one format. -/
def fmulCode (f : NumFmt) (rm : Rm) (sat : Bool) (x y : Nat) : Nat := round f rm sat ((value f x).mul (value f y))

/-- Round of a product plus a term (R128). -/
def fmaCode (f : NumFmt) (rm : Rm) (sat : Bool) (x y z : Nat) : Nat :=
  round f rm sat (sumExt (rm == .rd) [(value f x).mul (value f y), value f z])

/-- Order for FMIN and FMAX: -0 is less than +0 (R120). -/
def codeLt (f : NumFmt) (x y : Nat) : Bool :=
  (value f x).lt (value f y) || ((value f x).eqv (value f y) && bit x (f.width - 1) && !bit y (f.width - 1))

/-- FMIN or FMAX of R120 on codes of a format; `nanMode` as MOD 001. -/
def fminmax (f : NumFmt) (isMax nanMode : Bool) (x y : Nat) : Nat :=
  if isNaN f x && isNaN f y || nanMode && (isNaN f x || isNaN f y) then f.nan?.getD 0
  else if isNaN f x then y
  else if isNaN f y then x
  else if codeLt f x y == isMax then y else x

/-- FP32 addition by RNE, as words. -/
def fadd32 (x y : Word) : Word := BitVec.ofNat 32 (faddCode .fp32 .rne false x.toNat y.toNat)

end Sys2Proof.Machine
end

