-- ==== Sys2Proof/Machine/Memory.lean ====
section
/-! DEFINITION. Memory.lean: the setters of the state's tables, events (R404 to R406), the homes of lines (R201, R202), the
stamps of loads and writes (R219), versions and snapshots (R227 to R232, R435), Laurel deltas (R222, R250) and the
accesses that an agent makes at a home. -/

namespace Sys2Proof.Machine

/-- One thread set. -/
def setThread (s : State) (k : Nat) (t : Thread) : State := { s with ex := { s.ex with threads := tset s.ex.threads k t } }
/-- One thread changed. -/
def modThread (s : State) (k : Nat) (f : Thread → Thread) : State := { s with ex := { s.ex with threads := tmod s.ex.threads k f } }
/-- One thread. -/
def getThread (s : State) (k : Nat) : Option Thread := tget s.ex.threads k
/-- Every thread changed, those of saved contexts too. -/
def mapThreads (s : State) (f : Thread → Thread) : State :=
  { s with ex := { s.ex with
      threads := s.ex.threads.map fun e => (e.1, f e.2)
      saved := s.ex.saved.map fun x => { x with threads := x.threads.map fun e => (e.1, f e.2) } } }
/-- Has a grid a team in a saved context? -/
def savedHas (s : State) (grid : Nat) : Bool := s.ex.saved.any fun x => x.teams.any fun e => e.2.grid == grid && !e.2.gone
/-- Is a core being brought to its pre-emption? (R389) -/
def halting (s : State) (core : Nat) : Bool := s.ex.saved.any fun x => !x.written && x.cores.contains core
/-- One team changed. -/
def modTeam (s : State) (k : Nat) (f : Team → Team) : State := { s with ex := { s.ex with teams := tmod s.ex.teams k f } }
/-- One core; an unlisted core is idle. -/
def getCore (s : State) (c : Nat) : Core := (tget s.ex.cores c).getD {}
/-- One core changed. -/
def modCore (s : State) (c : Nat) (f : Core → Core) : State := { s with ex := { s.ex with cores := tset s.ex.cores c (f (getCore s c)) } }
/-- One grid changed. -/
def modGrid (s : State) (g : Nat) (f : Grid → Grid) : State := { s with ex := { s.ex with grids := tmod s.ex.grids g f } }
/-- One queue changed. -/
def modQueue (s : State) (q : Nat) (f : Queue → Queue) : State := { s with qu := { s.qu with queues := tmod s.qu.queues q f } }
/-- One slot changed. -/
def modSlot (s : State) (q : Nat) (f : Slot → Slot) : State := { s with qu := { s.qu with slots := tmod s.qu.slots q f } }
/-- One card changed. -/
def modCard (s : State) (c : Nat) (f : Card → Card) : State := { s with en := { s.en with cards := tmod s.en.cards c f } }
/-- Memory replaced. -/
def setMem (s : State) (m : Mem) : State := { s with mm := { s.mm with mem := m } }
/-- A performance counter raised (R403); they wrap at 64 bits. -/
def perf (s : State) (unit n counter by_ : Nat) : State :=
  let k := unit * 65536 + n * 16 + counter
  { s with bd := { s.bd with perf := tset s.bd.perf k (((tget s.bd.perf k).getD 0 + by_) % 2 ^ 64) } }

/-- Event codes that also enter the supervisor event queue (R405). -/
def isQ (code : Nat) : Bool := [1, 2, 3, 4, 5, 6, 0xA, 0xB, 0xD, 0xF, 0x10, 0x13].contains code

/-- An event is posted: it takes its source's next SEQ, enters Boxwood, and waits for the event-queue writer where R405
marks it Q (R404 to R407). -/
def post (s : State) (srcKind srcId code arg0 arg1 : Nat) : State :=
  let src := srcKind * 4096 + srcId
  let n := (tget s.bd.seqs src).getD 0
  let e : Event := { clock := s.bd.clock, arg1 := arg1, arg0 := arg0, seq := n, srcKind := srcKind, srcId := srcId, code := code }
  { s with bd := { s.bd with
      seqs := tset s.bd.seqs src ((n + 1) % 2 ^ 32)
      boxwood := (e :: s.bd.boxwood).take Config.boxwoodEvents
      posted := s.bd.posted + 1
      evWait := if isQ code then s.bd.evWait ++ [e] else s.bd.evWait } }

/-- Does the physical map list an address? (R201) -/
def mapped (pa : Nat) : Bool :=
  decide (pa < 0x9000000000) || (decide (0x10000000000 ≤ pa) && decide (pa < 0x70000000000)) ||
    (decide (0x800000000000 ≤ pa) && decide (pa < 0x1000000000000))

/-- Is an address host memory? (R201) -/
def isHost (pa : Nat) : Bool := decide (0x800000000000 ≤ pa)

/-- Is an address second-tier memory? (R201) -/
def isTier2 (pa : Nat) : Bool := decide (0x10000000000 ≤ pa) && decide (pa < 0x70000000000)

/-- Where a line's home keeps what it holds of it: the host-port ordering point keeps one write stamp and one lease for all
of host memory, since its accesses stand in M in the order in which it performs them (R308). They stand under the number of a line
that the map does not list. -/
def lineKey (ln : Nat) : Nat := if isHost (ln * 128) then 0xFFFFFFFFFF else ln

/-- The die that homes an address (R202). -/
def homeDie (pa : Nat) : Nat :=
  if pa < 0x9000000000 then pa / 0xC00000000 / 3 else bits pa 8 7 ^^^ bits pa 10 9

/-- The slice that homes an address (R202); for host memory, the host-port ordering point keeps the stamps. -/
def homeSlice (pa : Nat) : Nat := homeDie pa * 32 + (bits pa 11 7 ^^^ bits pa 16 12 ^^^ bits pa 21 17)

/-- The channel of an HBM4 or second-tier address: HBM4 channels 0..383, then the 96 of the second tier (R206, R207). Which
two pseudo-channels form a channel the manual does not say: DESIGN CHOICE, 2c and 2c + 1 (notes/assumptions/46.md). -/
def channelOf (pa : Nat) : Nat :=
  if pa < 0x9000000000 then pa / 0xC00000000 * 32 + (bits pa 13 8 ^^^ bits pa 19 14) / 2
  else 384 + (pa - 0x10000000000) / 2048 % 96

/-- What the home of a line holds; a line that is filled starts at its slice's memory stamp (R219). A host line, which no
slice ever holds, has its stamps at the host-port ordering point (R202), and its poison, and the version records with which
its page came there, under its own number. -/
def getLine (s : State) (ln : Nat) : Line :=
  if isHost (ln * 128) then
    let x := (tget s.mm.lines ln).getD { wts := 0, rts := 0 }
    { (tget s.mm.lines (lineKey ln)).getD { wts := 0, rts := 0 } with poison := x.poison, recs := x.recs, own := x.own }
  else match tget s.mm.lines ln with
    | some l => l
    | none => let m := (tget s.mm.memStamp (homeSlice (ln * 128))).getD 0
      { wts := m, rts := m }

/-- The table of lines with what the host-port ordering point keeps replaced, and what one host line has of its own. -/
def putHostLine (m : Tab Line) (ln : Nat) (l : Line) : Tab Line :=
  let m := tset m (lineKey ln) { wts := l.wts, rts := l.rts }
  if l.poison ∨ l.recs ≠ [] ∨ l.own.isSome then tset m ln { wts := 0, rts := 0, poison := l.poison, recs := l.recs, own := l.own }
  else tdel m ln

/-- What a line's home keeps, replaced. -/
def setLine (s : State) (ln : Nat) (l : Line) : State :=
  { s with mm := { s.mm with lines := (if isHost (ln * 128) then putHostLine s.mm.lines ln l else tset s.mm.lines ln l) } }

/-- A line of the second tier or of host memory filled from memory, counted for migration for 256 us (R374). Host memory has
no home slice: DESIGN CHOICE, each access to it counts, at the slice that the formula of the second tier names
(notes/assumptions/49.md). -/
def noteFill (s : State) (ln : Nat) : State :=
  let new : Fill := { slice := homeSlice (ln * 128), unit := ln / 512, clock := s.bd.clock }
  let old := s.mm.fills.filter fun x => decide (s.bd.clock < x.clock + Config.cycles256us)
  if isTier2 (ln * 128) || isHost (ln * 128) then { s with mm := { s.mm with fills := new :: old } } else s

/-- An access that reaches a line at its slice: a hit, or a miss that reads memory (R374, R403). -/
def touchLine (s : State) (ln : Nat) : State :=
  if isHost (ln * 128) then noteFill s ln
  else if (tget s.mm.lines ln).isSome then perf s 1 (homeSlice (ln * 128)) 0 1
  else perf (perf (noteFill s ln) 1 (homeSlice (ln * 128)) 1 1) 2 (channelOf (ln * 128)) 0 1

/-- A request and its answer on the host port, counted (R403): the host port is the port with number 32. -/
def hostFrames (s : State) : State := perf (perf s 4 32 0 1) 4 32 1 1

/-- A request of the host path, at the host bus address (R308): 0 RDMA READ, with the count of bytes, 1 RDMA WRITE, with the
bytes. -/
def hostPath (s : State) (kind pa : Nat) (bs : List Byte) : State :=
  hostFrames { s with fa := { s.fa with path := (kind, pa - 0x800000000000, bs) :: s.fa.path } }

/-- The RDMA READ of a read of host memory (R308). -/
def readHost (s : State) (pa n : Nat) : State := if isHost pa then hostPath s 0 pa (natLe 2 n) else s

/-- The RDMA WRITE of a write of host memory (R308). -/
def writeHost (s : State) (pa : Nat) (bs : List Byte) : State := if isHost pa then hostPath s 1 pa bs else s

/-- May the host path send: is its port up and not paused, and is a queue pair open as the host path and not frozen (R307)? Its
requests go out at priority 3, a DESIGN CHOICE (notes/assumptions/50.md), and the port with number 32 is the host port
(R306). -/
def hostPathOpen (s : State) : Bool :=
  !s.fa.downPorts.contains 32 && decide (((tget s.fa.pauses 3).getD 0) ≤ s.bd.clock) &&
    s.fa.qps.any fun e => e.2.mode == 2 && !e.2.frozen

/-- Lines that are dirty in their slices, written back to memory (R209, R251, R403). -/
def writeBackWhere (s : State) (f : Nat → Bool) : State :=
  let dirtied := s.mm.lines.filter fun e => f e.1 && e.2.back.isSome
  dirtied.foldl (fun s e => perf (perf s 1 (homeSlice (e.1 * 128)) 2 1) 2 (channelOf (e.1 * 128)) 1 1)
    { s with mm := { s.mm with lines := s.mm.lines.map fun e => (e.1, if f e.1 then { e.2 with back := none } else e.2) } }

/-- A stamp is taken; past 2^64 - 1 the package stops issuing and posts STAMP_LIMIT (R217), which names the line's home slice
(R405). Host memory has no home slice: DESIGN CHOICE, the one that the formula of the second tier names
(notes/assumptions/49.md). -/
def noteStamp (s : State) (ln ts : Nat) : State :=
  if 2 ^ 64 ≤ ts ∧ s.halted = false then { (post s 6 0 5 (homeSlice (ln * 128)) 0) with halted := true } else s

/-- One pending delta folded into its element (R250). -/
def foldElem (m : Mem) (ln : Nat) (e : Nat × (Bool × Word)) : Mem :=
  let a := ln * 128 + 4 * e.1
  let base := leNat (mread m a 4)
  let x := if e.2.1 then wrap (base + e.2.2.toNat) 32 else faddCode .fp32 .rne false base e.2.2.toNat
  mwrite m a (natLe 4 x)

/-- A line of HBM4 or the second tier is about to be changed in its slice: what memory holds of it is kept (R209). -/
def dirty (s : State) (ln : Nat) : State :=
  if isHost (ln * 128) || (getLine s ln).back.isSome then s
  else setLine s ln { getLine s ln with back := some (mread s.mm.mem (ln * 128) 128) }

/-- A line's deltas folded in and cleared (R222, R250). -/
def foldLine (s : State) (ln : Nat) : State :=
  match (getLine s ln).delta with
  | none => s
  | some d =>
    let s := dirty s ln
    let s := setMem s (d.elems.foldl (fun m e => foldElem m ln e) s.mm.mem)
    let s := { s with fa := { s.fa with due := s.fa.due ++ d.owe } }
    perf (setLine s ln { getLine s ln with delta := none }) 1 (homeSlice (ln * 128)) 4 1

/-- Can a live snapshot read a version of wts `w0` whose successor has `w1`? (R230) -/
def readable (s : State) (w0 w1 : Nat) : Bool := s.mm.horizon.any fun h => w0 ≤ h.s && h.s < w1

/-- The version floor raised (R435). -/
def raiseFloor (s : State) (w : Nat) : State := { s with mm := { s.mm with floor := max s.mm.floor w } }

/-- The wts of a line's current version (R210, R377). -/
def Line.version (l : Line) : Nat := l.own.getD l.wts

/-- The 128 bytes of a line that a snapshot at S reads: the current version, or the newest record of wts at most S (R228).
R230 and R435 keep such a version for every live S, so the last arm, the current version, is met by none. -/
def versionAt (s : State) (ln : Nat) (S : Nat) : List Byte :=
  let l := getLine s ln
  if l.version ≤ S then mread (foldLine s ln).mm.mem (ln * 128) 128
  else match l.recs.find? fun r => r.wts ≤ S with
    | some r => r.data
    | none => mread s.mm.mem (ln * 128) 128

/-- The line of an unperformed snapshot read at S. -/
def pendingAt (S : Nat) (o : Op) : Option Nat :=
  match o.loc with
  | .here pa => if o.snap = some S ∧ o.performed = false then some (pa / 128) else none
  | _ => none

/-- The unperformed snapshot reads at S of one thread, performed before S is revoked (R228, R232). -/
def settleThread (s : State) (S : Nat) (t : Thread) : Thread :=
  { t with ops := t.ops.map fun o =>
      match o.loc with
      | .here pa =>
        if o.snap = some S ∧ o.performed = false then
          { o with performed := true, visible := true, poisoned := !o.zf && (getLine s (pa / 128)).poison
                   value := if o.zf then 0 else leNat (((versionAt s (pa / 128) S).drop (pa % 128)).take o.size) }
        else o
      | _ => o }

/-- The lines that the unperformed snapshot reads at S wait for, in every thread. -/
def pendingLines (s : State) (S : Nat) : List Nat :=
  (s.ex.threads ++ s.ex.saved.flatMap (·.threads)).flatMap fun e => e.2.ops.filterMap (pendingAt S)

/-- Those reads keep later writes of their lines above S (R228). -/
def leaseAll (s : State) (S : Nat) (lns : List Nat) : State :=
  lns.foldl (fun s ln => setLine s ln { getLine s ln with rts := max (getLine s ln).rts S }) s

/-- One thread at the revocation of S: a holder loses TSTAT.SNAP and its next snapshot read faults; its transaction at S
aborts with REVOKED (R232, R236). -/
def revokeThread (s : State) (S : Nat) (t : Thread) : Thread :=
  let t := settleThread s S t
  let t := if t.snap = .grid S ∨ t.snap = .own S then { t with snap := .off, revoked := true } else t
  if t.tx.held ∧ t.tx.s = S then
    { t with txReason := if t.tx.active then 5 else t.txReason,
             tx := { t.tx with active := false, held := false, revoked := true, ws := [], adds := [] } }
  else t

/-- The successor of the record at place `i`: the next newer version's wts (R230). -/
def successor (l : Line) : Nat → Nat
  | 0 => l.version
  | i + 1 => ((l.recs[i]?).map (·.wts)).getD 0

/-- May a selected record of a line be freed: can no live entry read it? (R231) -/
def unread (s : State) (sel : Version → Bool) (l : Line) (x : Version × Nat) : Bool :=
  sel x.1 && !readable s x.1.wts (successor l x.2)

/-- The selected records that no live entry can read are freed, and the version floor rises to their successors (R232,
R435). -/
def freeRecords (s : State) (sel : Nat → Version → Bool) : State :=
  raiseFloor { s with mm := { s.mm with lines := s.mm.lines.map fun e =>
      (e.1, { e.2 with recs := (e.2.recs.zipIdx.filter fun x => !unread s (sel e.1) e.2 x).map (·.1) }) } }
    (s.mm.lines.foldl (fun n e =>
      (e.2.recs.zipIdx.filter (unread s (sel e.1) e.2)).foldl (fun n x => max n (successor e.2 x.2)) n) 0)

/-- S leaves the horizon table, and the grids that read at it are marked (R232). -/
def dropSnap (s : State) (S : Nat) : State :=
  { s with
    mm := { s.mm with horizon := s.mm.horizon.filter fun h => h.s != S }
    ex := { s.ex with grids := s.ex.grids.map fun e => (e.1, if e.2.snap = some S then { e.2 with snapRevoked := true } else e.2) } }

/-- The snapshot S revoked (R232); the records of the spill region that only it could read are freed (R215). -/
def revoke (s : State) (S : Nat) : State :=
  let holders := ((s.mm.horizon.find? fun h => h.s == S).map (·.holders)).getD 0
  let s := dropSnap (leaseAll s S (pendingLines s S)) S
  post (freeRecords (mapThreads s (revokeThread s S)) fun _ r => r.spill) 6 0 6 S holders

/-- Every live snapshot that can read a version of wts `w0` whose successor has `w1`, revoked, the least S first. R230 names
the least S alone; DEDUCED: the record may be freed only once no live snapshot can read it (R435; notes/assumptions/47.md). -/
def revokeReaders : Nat → State → Nat → Nat → State
  | 0, s, _, _ => s
  | n + 1, s, w0, w1 => match (s.mm.horizon.filter fun h => w0 ≤ h.s && h.s < w1).map (·.s) |>.min? with
    | some S => revokeReaders n (revoke s S) w0 w1
    | none => s

/-- A line's oldest record freed; the snapshots that can still read it are revoked first (R230, R232). -/
def dropOldest (s : State) (ln : Nat) : State :=
  let l := getLine s ln
  match l.recs.getLast? with
  | none => s
  | some r =>
    let w1 := successor l (l.recs.length - 1)
    let s := revokeReaders s.mm.horizon.length s r.wts w1
    raiseFloor (setLine s ln { getLine s ln with recs := (getLine s ln).recs.filter fun x => x.wts != r.wts }) w1

/-- Records of one die's share (R210). The regions are equal shares per die, and a share holds whole records: DESIGN CHOICE,
the two records by which four shares fall short of the whole region's count are not held (notes/assumptions/46.md). -/
def shareRecords (s : State) : Nat := s.mm.versionGiB * 2 ^ 30 / 4 / 160
/-- Records of the spill region (R210). -/
def spillRecords (s : State) : Nat := s.mm.spillGiB * 2 ^ 30 / 160

/-- The least address of a die's share of the version region (R210; notes/assumptions/9.md). -/
def versionBase (s : State) (die : Nat) : Nat := (die + 1) * 3 * 0xC00000000 - s.mm.versionGiB * 2 ^ 30 / 4
/-- The least address of the spill region (R210; notes/assumptions/9.md). -/
def spillBase (s : State) : Nat := 0x70000000000 - s.mm.spillGiB * 2 ^ 30

/-- The records of a die's share, or of the spill region (R210). -/
def recordsOf (s : State) (die : Option Nat) : List Version :=
  s.mm.lines.flatMap fun e => match die with
    | some d => if homeDie (e.1 * 128) = d then e.2.recs.filter fun r => !r.spill else []
    | none => e.2.recs.filter (·.spill)

/-- The lowest place that no record of a list takes. -/
def freePlace (rs : List Version) : Nat := ((List.range (rs.length + 1)).find? fun i => rs.all fun r => r.place != i).getD 0

/-- Where a record of a line lies (R210): the places within the regions are a DESIGN CHOICE (notes/assumptions/46.md). -/
def recordPa (s : State) (ln : Nat) (r : Version) : Nat :=
  (if r.spill then spillBase s else versionBase s (homeDie (ln * 128))) + 160 * r.place

/-- The oldest record of a die's share moves to the spill region (R211), by a read and a write of their channels (R403): the one
created first, a DESIGN CHOICE (notes/assumptions/46.md). -/
def moveOldest (s : State) (d : Nat) : State :=
  match (recordsOf s (some d)).map (·.born) |>.min? with
  | none => s
  | some b =>
    let at_ := freePlace (recordsOf s none)
    let moves := s.mm.lines.flatMap fun e => (e.2.recs.filter fun r => r.born == b).map fun r => (e.1, r)
    let s := moves.foldl (fun s m =>
      perf (perf s 2 (channelOf (recordPa s m.1 m.2)) 0 1) 2 (channelOf (recordPa s m.1 { m.2 with spill := true, place := at_ })) 1 1) s
    { s with mm := { s.mm with lines := s.mm.lines.map fun e =>
        (e.1, { e.2 with recs := e.2.recs.map fun r => if r.born = b then { r with spill := true, place := at_ } else r }) } }

/-- Room for a record in the share of a die: its oldest record moves to the spill region; where that is full, or of size 0,
the oldest live snapshot is revoked, and the records that it alone could read go (R211, R232, R435). -/
def makeRoom : Nat → State → Nat → State
  | 0, s, _ => s
  | n + 1, s, d =>
    if (recordsOf s (some d)).length < shareRecords s then s
    else if (recordsOf s none).length < spillRecords s then moveOldest s d
    else match (s.mm.horizon.map (·.s)).min? with
      | some S => makeRoom n (freeRecords (revoke s S) fun ln _ => homeDie (ln * 128) == d) d
      | none => s

/-- The current version of a line becomes a record (R210, R230). -/
def keepVersion (s : State) (ln : Nat) : State :=
  let l := getLine s ln
  let r : Version := { wts := l.version, data := mread s.mm.mem (ln * 128) 128, born := s.nextId,
                       place := freePlace (recordsOf s (some (homeDie (ln * 128)))) }
  let s := perf s 2 (channelOf (recordPa s ln r)) 1 1
  { setLine s ln { l with recs := r :: l.recs } with nextId := s.nextId + 1 }

/-- Can a live snapshot read the current version of a line that one of wts `ts` replaces? (R230) -/
def needed (s : State) (ln ts : Nat) : Bool := readable s (getLine s ln).version ts

/-- Room for the current version of a line to become a record, where a live snapshot can read it: in the die's share, and among
the records of the line (R210, R211, R230). -/
def placeFor (s : State) (ln ts : Nat) : State :=
  let s := if needed s ln ts then makeRoom (s.mm.horizon.length + 1) s (homeDie (ln * 128)) else s
  if needed s ln ts ∧ Config.recordsPerLine ≤ (getLine s ln).recs.length then dropOldest s ln else s

/-- The current version of a line is about to be replaced by one of wts `ts`: it becomes a record where a live snapshot can
read it, and is discarded otherwise (R230, R435). Only HBM4 and second-tier lines have versions (R233), and a host line that
came with version records, so that they are all there when it leaves again (R377). -/
def supersede (s : State) (ln ts : Nat) : State :=
  if isHost (ln * 128) ∧ (getLine s ln).own = none then s
  else
    let s := placeFor s ln ts
    if needed s ln ts then keepVersion s ln else raiseFloor s ts

/-- The stamp of a load and the line after it (R219). -/
def loadStamp (p : Nat) (l : Line) : Nat × Line :=
  let ts := max p l.wts
  (ts, { l with rts := max l.rts (ts + Config.lease) })

/-- The stamp of a write (R219). -/
def writeStamp (p : Nat) (l : Line) : Nat := max p (l.rts + 1)

/-- What an access at a home returns: the stamp, the value read and whether it is poisoned. -/
structure Ack where
  ts : Nat
  value : Nat := 0
  poison : Bool := false
  deriving DecidableEq, Repr

/-- The host-port ordering point gives no later access a smaller stamp (R308). -/
def hostOrder (ln ts : Nat) (l : Line) : Line := if isHost (ln * 128) then { l with wts := max l.wts ts } else l

/-- A load of `n` bytes by an agent of pts `p` at the home (R219); it folds the line's deltas (R250). -/
def loadAt (s : State) (p pa n : Nat) : Ack × State :=
  let ln := pa / 128
  let s := foldLine (touchLine (readHost s pa n) ln) ln
  let (ts, l) := loadStamp p (getLine s ln)
  ({ ts := ts, value := leNat (mread s.mm.mem pa n), poison := l.poison }, noteStamp (setLine s ln (hostOrder ln ts l)) ln l.rts)

/-- A load of a zero-fill page: zero, as the line's initial value in M, with the stamps of a load, so that every write of the
line comes after it (R218, R219, R372). -/
def zeroLoad (s : State) (p pa : Nat) : Ack × State :=
  let ln := pa / 128
  let (ts, l) := loadStamp p (getLine s ln)
  ({ ts := ts }, noteStamp (setLine s ln l) ln l.rts)

/-- The same, at a snapshot (R228). -/
def zeroSnap (s : State) (p S pa : Nat) : Ack × State :=
  let l := getLine s (pa / 128)
  ({ ts := p }, setLine s (pa / 128) { l with rts := max l.rts S })

/-- A snapshot read of `n` bytes at S (R228). -/
def snapReadAt (s : State) (S pa n : Nat) : Ack × State :=
  let ln := pa / 128
  let l := getLine s ln
  let data := versionAt s ln S
  let s := match l.recs.find? fun r => r.wts ≤ S with
    | some r => if l.version ≤ S then foldLine (touchLine s ln) ln else perf s 2 (channelOf (recordPa s ln r)) 0 1
    | none => if l.version ≤ S then foldLine (touchLine s ln) ln else s
  let l := getLine s ln
  ({ ts := 0, value := leNat ((data.drop (pa % 128)).take n), poison := l.poison },
    setLine s ln { l with rts := max l.rts S })

/-- A read of a page that may be zero-fill, at a snapshot where there is one (R219, R228, R372). -/
def readAt (s : State) (zf : Bool) (S : Option Nat) (p pa n : Nat) : Ack × State :=
  match zf, S with
  | true, none => zeroLoad s p pa
  | true, some S => zeroSnap s p S pa
  | false, none => loadAt s p pa n
  | false, some S => snapReadAt s S pa n

/-- A write by an agent of pts `p` at the home: the line's deltas are folded, the old version is kept or discarded, and
`f` gives the new memory from the old (R219, R230, R250). One that R387 names as a single write of the whole line clears its
poison (R242). -/
def writeWith (s : State) (p pa : Nat) (whole : Bool) (f : Mem → Mem) : Nat × State :=
  let ln := pa / 128
  let s := foldLine (touchLine s ln) ln
  let ts := writeStamp p (getLine s ln)
  let s := dirty (supersede s ln ts) ln
  let s := setMem s (f s.mm.mem)
  let l := getLine s ln
  let s := setLine s ln { l with wts := ts, rts := ts, own := l.own.map fun _ => ts, poison := l.poison && !whole }
  (ts, noteStamp { s with mm := { s.mm with maxWrite := max s.mm.maxWrite ts } } ln ts)

/-- Bytes written by an agent of pts `p` at the home; `clears` where the agent is one whose write of a whole line clears its
poison (R387). -/
def writeAt (s : State) (p pa : Nat) (bs : List Byte) (clears : Bool := false) : Nat × State :=
  writeWith (writeHost s pa bs) p pa (clears && bs.length == 128) fun m => mwrite m pa bs

/-- The new value of an atomic or CAS (R247, R248). -/
def Rmw.apply (f : Rmw) (old x : Nat) : Nat :=
  match f with
  | .atom o => match o with
    | .add => (old + x) % 2 ^ 32
    | .minI => if sext x 32 < sext old 32 then x else old
    | .maxI => if sext old 32 < sext x 32 then x else old
    | .minN => min old x
    | .maxN => max old x
    | .and => old &&& x
    | .or => old ||| x
    | .xchg => x
  | .atom64 o => match o with
    | .add => (old + x) % 2 ^ 64
    | .minN => min old x
    | .maxN => max old x
    | .xchg => x
    | .and => old &&& x
    | .or => old ||| x
  | .atomf o => match o with
    | .add => faddCode .fp32 .rne false old x
    | .min => fminmax .fp32 false false old x
    | .max => fminmax .fp32 true false old x
  | .cas _ cmp => if old = cmp then x else old
  | .countDown => old - 1

/-- Does an atomic or CAS write? Only a CAS whose comparison fails does not, and the count of a WHILE node at zero (R219, R248,
R360). -/
def Rmw.writes (f : Rmw) (old : Nat) : Bool :=
  match f with
  | .cas _ cmp => old == cmp
  | .countDown => old != 0
  | _ => true

/-- An atomic or CAS of `n` bytes at the home (R219, R247, R248); on a poisoned line it writes nothing (R242). In host memory it
is a read and a write of what it leaves there (R308). -/
def rmwAt (s : State) (p pa n : Nat) (f : Rmw) (x : Nat) : Ack × State :=
  let ln := pa / 128
  let s := foldLine (readHost s pa n) ln
  let l := getLine s ln
  let old := leNat (mread s.mm.mem pa n)
  if l.poison then ({ ts := p, poison := true }, s)
  else if f.writes old then
    let (ts, s) := writeAt s p pa (natLe n (f.apply old x))
    ({ ts := ts, value := old }, s)
  else
    let ts := writeStamp p l
    ({ ts := ts, value := old },
      writeHost (noteStamp (setLine (touchLine s ln) ln (hostOrder ln ts { l with rts := ts })) ln ts) pa (natLe n old))

/-- Elements of a RADD (R250). -/
def raddCount : RaddKind → Nat
  | .f32 => 1 | .f32x2 => 2 | .f32x4 => 4 | .i32 => 1

/-- Is a RADD of the kind INT32? -/
def raddInt : RaddKind → Bool
  | .i32 => true
  | _ => false

/-- The elements that a RADD adds: element number in the line, and operand. -/
def raddElems (k : RaddKind) (pa x : Nat) : List (Nat × Word) :=
  (List.range (raddCount k)).map fun i => (pa % 128 / 4 + i, BitVec.ofNat 32 (x / 2 ^ (32 * i)))

/-- Delta lines of a slice (R205). -/
def deltaLines (s : State) : Nat := if s.mm.laurel = 0 then 1024 else if s.mm.laurel = 1 then 1536 else 2048

/-- The delta lines that a slice holds. -/
def heldDeltas (s : State) (slice : Nat) : List (Nat × Nat) :=
  s.mm.lines.filterMap fun e =>
    if homeSlice (e.1 * 128) = slice then e.2.delta.map fun d => (d.since, e.1) else none

/-- Where a slice has no free delta line, the one held longest is evicted: it is folded, and its line written back (R215,
R250). -/
def evictDelta (s : State) (slice : Nat) : State :=
  let h := heldDeltas s slice
  if h.length < deltaLines s then s
  else match (h.map (·.1)).min? with
    | none => s
    | some t => match h.find? fun e => e.1 == t with
      | none => s
      | some e => perf (writeBackWhere (foldLine s e.2) (· == e.2)) 1 slice 5 1

/-- One element of a RADD joins the deltas of its line; a delta of the other kind is folded first (R250). -/
def addElem (s : State) (ln ts id : Nat) (isInt : Bool) (e : Nat × Word) : State :=
  let l := getLine s ln
  let d := l.delta.getD { elems := [], d := ts, first := ts, since := id }
  match tget d.elems e.1 with
  | none => setLine s ln { l with delta := some { d with d := max d.d ts, elems := tset d.elems e.1 (isInt, e.2) } }
  | some (k, y) =>
    if k = isInt then
      let z : Word := if isInt then y + e.2 else fadd32 y e.2
      setLine s ln { l with delta := some { d with d := max d.d ts, elems := tset d.elems e.1 (k, z) } }
    else
      let s := dirty s ln
      let s := setMem s (foldElem s.mm.mem ln (e.1, (k, y)))
      setLine s ln { getLine s ln with delta := some { d with d := max d.d ts, elems := tset d.elems e.1 (isInt, e.2) } }

/-- A RADD arrives at its partition: it takes the stamp of a write. What is pending is folded first where a live S separates
it from the RADD; a RADD to a line without a pending delta, whose current version a live snapshot can read, is folded at once,
and that version becomes a record where R230 keeps it (R222, R250). -/
def raddAt (s : State) (p pa : Nat) (k : RaddKind) (x : Nat) : Nat × State :=
  let ln := pa / 128
  let s := touchLine (perf s 1 (homeSlice pa) 3 1) ln
  let l := getLine s ln
  let ts := writeStamp p l
  let s := match l.delta with
    | some d => if readable s d.d ts then foldLine s ln else s
    | none => s
  let s := if (getLine s ln).delta.isNone then evictDelta s (homeSlice pa) else s
  let (id, s) := fresh s
  let l := getLine s ln
  let split := l.delta.isNone && s.mm.horizon.any fun h => decide (l.wts ≤ h.s)
  let s := if split then supersede s ln ts else raiseFloor s ts
  let s := (raddElems k pa x).foldl (fun s e => addElem s ln ts id (raddInt k) e) s
  let s := setLine s ln { getLine s ln with wts := ts, rts := ts }
  let s := if split then foldLine s ln else s
  (ts, noteStamp { s with mm := { s.mm with maxWrite := max s.mm.maxWrite ts } } ln ts)

/-- A RADD performed as an atomic add at the host-port ordering point: a read, a compute and a write (R222, R308). -/
def raddHost (s : State) (p pa : Nat) (k : RaddKind) (x : Nat) : Nat × State :=
  let (ts, s) := writeWith (readHost s pa (4 * raddCount k)) p pa false fun m =>
    (raddElems k pa x).foldl (fun m e => foldElem m (pa / 128) (e.1, (raddInt k, e.2))) m
  (ts, writeHost s pa (mread s.mm.mem pa (4 * raddCount k)))

/-- Every delta of the lines that `f` selects, folded (R251). -/
def foldWhere (s : State) (f : Nat → Bool) : State :=
  (s.mm.lines.map (·.1)).foldl (fun s ln => if f ln then foldLine s ln else s) s

/-- RFLUSH of the lines that `f` selects: every delta is folded, and the folded lines are written back (R251). -/
def flushWhere (s : State) (f : Nat → Bool) : State :=
  let lns := (s.mm.lines.filter fun e => f e.1 && e.2.delta.isSome).map (·.1)
  writeBackWhere (foldWhere s f) fun ln => lns.contains ln

/-- The writes sent on the host path are followed by an RDMA FLUSH, whose acknowledgement makes them visible (R308, R314). -/
def flushHost (s : State) : State :=
  if (s.fa.path.takeWhile fun x => x.1 != 2).any fun x => x.1 == 1 then hostFrames { s with fa := { s.fa with path := (2, 0, []) :: s.fa.path } } else s

/-- Every write so far readable outside logical time: deltas are folded, dirty lines written back, and the host's flushed (R209,
R223). R267 wants what the fencing thread has written; DESIGN CHOICE, every delta and every dirty line of the package goes
(notes/assumptions/55.md). -/
def settleAll (s : State) : State := flushHost (writeBackWhere (foldWhere s fun _ => true) fun _ => true)

/-- The version floor at an opening: how far above its bounds it stands is free, within the largest stamp of a write
(R435). -/
def openFloor (s : State) : Nat := max s.mm.floor (min s.mm.maxWrite (s.mm.floor + Config.floorRise s.mm.openings))

/-- Can an opening at S take an entry of the horizon table? (R229) -/
def horizonRoom (s : State) (S : Nat) : Bool :=
  s.mm.horizon.any (fun h => h.s == S) || decide (s.mm.horizon.length < Config.horizonEntries)

/-- A snapshot at S is opened for one holder (R227, R229), whose pts becomes S + 1. Where that would pass 2^64 - 1 the package
stops (R217); STAMP_LIMIT's home slice is then 0, a DESIGN CHOICE (notes/assumptions/46.md). -/
def openSnap (s : State) (S : Nat) : State :=
  let h := if s.mm.horizon.any (fun h => h.s == S)
    then s.mm.horizon.map fun h => if h.s = S then { h with holders := h.holders + 1 } else h
    else { s := S, holders := 1 } :: s.mm.horizon
  noteStamp (post { s with mm := { s.mm with horizon := h, floor := openFloor s, openings := s.mm.openings + 1 } } 6 0 7 S h.length) 0 (S + 1)

/-- One holder of S leaves; the entry is freed with the last one (R229). -/
def closeSnap (s : State) (S : Nat) : State :=
  { s with mm := { s.mm with horizon :=
      (s.mm.horizon.map fun h => if h.s = S then { h with holders := h.holders - 1 } else h).filter fun h => h.holders != 0 } }

end Sys2Proof.Machine
end

