-- ==== Sys2Proof/Machine/Ops.lean ====
section
/-! DEFINITION. Ops.lean: registers, the end of a word and of a run, taking a fault and returning from a handler, waiting
and retiring, and the one frame in which every instruction word is issued (R46 to R58, R78 to R89, R325 to R336, R378 to
R382, R395, R396). -/

namespace Sys2Proof.Machine

/-- The core of a thread or of a team. -/
def coreOf (k : Nat) : Nat := k / 2048

/-- A register of a thread, by its field (R49, R58). -/
def readReg (t : Thread) (n : Nat) : Word := (tget t.regs n).getD 0

/-- A register written: a temporary becomes valid (R51, R58). -/
def writeReg (t : Thread) (n : Nat) (x : Word) : Thread :=
  { t with regs := tset t.regs n x
           tvalid := if 120 ≤ n then tset t.tvalid n true else t.tvalid
           rpoison := t.rpoison.filter (· != n) }

/-- ReadPair of R58, as a number. -/
def readPair (t : Thread) (n : Nat) : Nat := (readReg t n).toNat + 2 ^ 32 * (readReg t (n + 1)).toNat

/-- WritePair of R58. -/
def writePair (t : Thread) (n x : Nat) : Thread :=
  writeReg (writeReg t n (BitVec.ofNat 32 x)) (n + 1) (BitVec.ofNat 32 (x / 2 ^ 32))

/-- The `len` registers from `n` on, lowest first. -/
def readSpan (t : Thread) (n len : Nat) : List Word := (List.range len).map fun i => readReg t (n + i)

/-- Registers from `n` on written. -/
def writeSpan : Thread → Nat → List Word → Thread
  | t, _, [] => t
  | t, n, x :: xs => writeSpan (writeReg t n x) (n + 1) xs

/-- The value of a span, lowest register first (R6). -/
def spanNat : List Word → Nat
  | [] => 0
  | x :: xs => x.toNat + 2 ^ 32 * spanNat xs

/-- `len` words of a value, lowest first. -/
def natSpan : Nat → Nat → List Word
  | 0, _ => []
  | n + 1, x => BitVec.ofNat 32 x :: natSpan n (x / 2 ^ 32)

/-- ReadPred of R58: p0 reads true (R50). -/
def readPred (t : Thread) (p : PredIx) : Bool := p == 0 || (tget t.preds p.toNat).getD false

/-- WritePred of R58: a write to p0 is ignored. -/
def writePred (t : Thread) (p : PredIx) (b : Bool) : Thread :=
  if p = 0 then t else { t with preds := tset t.preds p.toNat b }

/-- A branch-target register (R180). -/
def readBt (t : Thread) (b : BtIx) : Bt := (tget t.bts b.toNat).getD {}

/-- A branch-target register written. -/
def writeBt (t : Thread) (b : BtIx) (x : Bt) : Thread := { t with bts := tset t.bts b.toNat x }

/-- The grid of a thread. -/
def gridOf (s : State) (t : Thread) : Grid :=
  match tget s.ex.teams t.team with
  | none => { record := [], launcher := .slot 0 0 }
  | some tm => (tget s.ex.grids tm.grid).getD { record := [], launcher := .slot 0 0 }

/-- A word of the latched launch record (R107, R355). -/
def Grid.word (g : Grid) (i : Nat) : Nat := (g.record[i]?.getD 0).toNat
/-- CODEBASE (R46, R355). -/
def Grid.codeBase (g : Grid) : Nat := g.word 0 + 2 ^ 32 * g.word 1
/-- ENTRY. -/
def Grid.entry (g : Grid) : Nat := g.word 2
/-- HANDLER. -/
def Grid.handler (g : Grid) : Nat := g.word 3
/-- The group width of WCODE. -/
def Grid.width (g : Grid) : Nat := 8 * 2 ^ (g.word 4 % 256)
/-- REGS. -/
def Grid.regs (g : Grid) : Nat := bits (g.word 4) 15 8
/-- FLAGS bit 0, SNAP. -/
def Grid.snapFlag (g : Grid) : Bool := bit (g.word 4) 16
/-- FLAGS bit 2, DEBUG. -/
def Grid.debugFlag (g : Grid) : Bool := bit (g.word 4) 18
/-- Threads of a team (R20). -/
def Grid.teamThreads (g : Grid) : Nat := bits (g.word 6) 15 0 * bits (g.word 6) 31 16 * bits (g.word 7) 15 0
/-- The stash allocation of a team (R203). -/
def Grid.stash (g : Grid) : Nat := (g.word 5 + 1023) / 1024 * 1024
/-- Cluster width. -/
def Grid.cw (g : Grid) : Nat := bits (g.word 7) 23 16
/-- Cluster height. -/
def Grid.ch (g : Grid) : Nat := bits (g.word 7) 31 24
/-- Teams of the grid. -/
def Grid.teams (g : Grid) : Nat := g.word 8 * g.word 9 * g.word 10
/-- TILES. -/
def Grid.tiles (g : Grid) : Nat := g.word 11 % 256
/-- TSTASH. -/
def Grid.tstash (g : Grid) : Nat := bits (g.word 11) 31 16
/-- The address space of the grid. -/
def Grid.asid (g : Grid) : Nat := g.word 18 % 4096
/-- Priority of its teams (R277). -/
def Grid.priority (g : Grid) : Nat := min g.prio (bits (g.word 18) 23 16)
/-- The 128 bits of format slot k (R38). -/
def Grid.slot (g : Grid) (k : Nat) : Nat := spanNat ((g.record.drop (32 + 4 * k)).take 4)

/-- Is a thread live? (R326) -/
def Thread.live (t : Thread) : Bool := t.st != .draining

/-- The threads of a team. -/
def teamMates (s : State) (team : Nat) : List (Nat × Thread) := s.ex.threads.filter fun e => e.2.team == team

/-- The threads of a thread's group, in ascending group lane where they are listed so. -/
def groupMates (s : State) (team group : Nat) : List (Nat × Thread) :=
  s.ex.threads.filter fun e => e.2.team == team && e.2.group == group

/-- A thread leaves the bundle that a port holds; a bundle with no thread frees its port (R330). -/
def leaveBundle (s : State) (k : Nat) : State :=
  modCore s (coreOf k) fun c =>
    { c with ports := (c.ports.map fun p => (p.1, p.2.filter (· != k))).filter fun p => p.2 != [] }

/-- Should a group be in serial mode? Its live threads differ in PC or DEPTH, and one stands above depth 15 (R332). -/
def serialCond (ts : List (Nat × Thread)) : Bool :=
  let l := ts.filter fun e => e.2.live
  l.any (fun e => l.any fun f => e.2.pc != f.2.pc || e.2.depth != f.2.depth) && l.any fun e => decide (15 < e.2.depth)

/-- A thread whose group enters or leaves serial mode (R84, R332). -/
def markSerial (team group : Nat) (c : Bool) (t : Thread) : Thread :=
  if t.team = team ∧ t.group = group ∧ t.live then { t with serial := c, serialSeen := t.serialSeen || c } else t

/-- Serial mode of a group evaluated (R332). -/
def evalSerial (s : State) (team group : Nat) : State :=
  let ts := groupMates s team group
  let c := serialCond ts
  let l := ts.filter fun e => e.2.live
  if l.all fun e => e.2.serial == c then s
  else
    let s := { s with ex := { s.ex with threads := s.ex.threads.map fun e =>
      (e.1, markSerial team group c e.2) } }
    if c then perf s 0 (coreOf team) 4 1 else s

/-- Does a step from `t` to `v` make R332 evaluate the thread's group: has it ended a run, that of a handler too (R381), stopped,
parked, been replayed or exited? -/
def serialEvent (t v : Thread) : Bool :=
  (t.st != v.st && [t.st, v.st].any fun x => x == .parked || x == .stopped || x == .draining) ||
    (v.runPos == 0 && t.runPos != 0) || (v.btag == Config.noTag && t.btag != Config.noTag) ||
    (t.frame.isSome && v.frame.isNone)

/-- The groups whose serial mode a step makes the core evaluate, from the threads before and after it (R332). -/
def serialGroups : Tab Thread → Tab Thread → List (Nat × Nat)
  | [], _ => []
  | (k, t) :: r, l =>
    let l := l.dropWhile fun e => decide (e.1 < k)
    match l.head? with
    | some (j, v) => if j = k ∧ serialEvent t v = false then serialGroups r l else (t.team, t.group) :: serialGroups r l
    | none => (t.team, t.group) :: serialGroups r l

/-- Has a thread an operation that may still fault precisely at its word: a chain, an access that another thread or another
package performs, or an access of a view that is not performed yet? -/
def Thread.mayFault (t : Thread) : Bool :=
  t.ops.any fun o => !o.complete && match o.kind with
    | .chain _ => true
    | .peerLoad .. | .peerStore .. | .peerRmw .. => !o.performed
    | _ => match o.loc with
      | .remote .. => !o.performed
      | .window .. => (o.inTx || o.snap.isSome) && !o.performed
      | .host _ => o.inTx && !o.performed
      | _ => false

/-- Is a waiter the lane of a word of a thread? -/
def Waiter.isLaneOf (k : Nat) : Waiter → Bool
  | .lane j _ _ | .fetch j _ _ | .chain j _ _ => j == k
  | _ => false

/-- Is a thread's word under way: does it wait for a translation, or for an access that may fault? Such a thread has not come to
a word boundary (R337). -/
def underWay (s : State) (k : Nat) (t : Thread) : Bool :=
  t.mayFault || s.tr.merges.any fun e => e.2.waiters.any (Waiter.isLaneOf k)

/-- Has a thread of a stopped group come to a word boundary, where it stops (R337)? -/
def stopsNow (s : State) (e : Nat × Thread) : Bool := e.2.st == .ready && e.2.dstop && !e.2.stepping && !underWay s e.1 e.2

/-- The threads of stopped groups that have come to a word boundary stop (R326, R337). -/
def settleStops (s : State) : State :=
  (s.ex.threads.filter (stopsNow s)).foldl (fun s e => modThread (leaveBundle s e.1) e.1 fun t => { t with st := .stopped }) s

/-- What a step leaves: debug stops reach the threads at word boundaries, and serial mode is evaluated where R332 asks for it:
once the step is over, so that threads that one word moves together are seen together. -/
def settleSerial (before after : State) : State :=
  let after := settleStops after
  (serialGroups before.ex.threads after.ex.threads).dedup.foldl (fun s g => evalSerial s g.1 g.2) after

/-- A transaction aborts; only its first cause counts (R236). -/
def abortTx (t : Thread) (reason : Nat) : Thread :=
  if t.tx.active then { t with txReason := reason, tx := { t.tx with active := false, ws := [], adds := [] } } else t

/-- The class of a fault (R378): 1 PROGRAM, 3 SYSTEM. -/
def faultClass (code : Nat) : Nat := if code = 0x17 then 3 else 1

/-- May a PROGRAM fault of a thread go to the user handler? (R380) -/
def toHandler (s : State) (t : Thread) (code : Nat) : Bool :=
  faultClass code == 1 && (gridOf s t).handler != 0xFFFFFFFF && t.frame.isNone && decide (t.depth < 255)

/-- The fault registers written (R86). -/
def faultRegs (t : Thread) (cls code addr : Nat) (fpc : Word) : Thread :=
  { t with fcode := BitVec.ofNat 32 (cls * 256 + code), faddr := addr % 2 ^ 57, fpc := fpc }

/-- DeliverToHandler of R380: the temporaries, run position, tag, b7 and depth go to the frame, and the thread goes on at
the handler. -/
def deliverToHandler (t : Thread) (since handler code addr : Nat) (fpc : Word) : Thread :=
  let t := faultRegs t 1 code addr fpc
  let ret := if code = 0x14 ∨ code = 0x15 then fpc + 1 else fpc
  { t with
    frame := some { ts := readSpan t 120 8, tvalid := t.tvalid, runPos := t.runPos, btag := t.btag, b7 := readBt t 7, depth := t.depth, since := since }
    bts := tset t.bts 7 { prepared := true, target := ret }
    depth := t.depth + 1, btag := Config.noTag, runPos := 0, waitOn := .nothing, held := none, tvalid := [],
    runEpoch := t.epoch, pc := BitVec.ofNat 32 handler, st := if t.dstop then .stopped else .ready }

/-- ARG0 of FAULT_SUP and DEBUG_STOP (R405). -/
def faultArg (k : Nat) (t : Thread) : Nat :=
  coreOf k + 256 * (k % 2048) + 2 ^ 20 * (t.fcode.toNat % 1024) + 2 ^ 32 * t.fpc.toNat

/-- What other packages are still to return for some owners goes to nobody: the slot with the number after the last. -/
def forget (s : State) (p : Owner → Bool) : State :=
  { s with fa := { s.fa with requests := s.fa.requests.map fun e => (e.1, if p e.2.owner then { e.2 with owner := .slot Config.slots } else e.2)
                             unsent := s.fa.unsent.filter fun r => !p r.owner } }

/-- A thread has left the word for which it asked other packages. -/
def forgetWord (s : State) (k : Nat) : State := forget s (· == .word k)

/-- A fault is taken by a thread: a transaction body aborts (R265), the thread leaves its bundle, and the fault goes to the
user handler or to the supervisor (R379 to R382). The PC does not move past the word and nothing of it takes effect, QUIET of
its HINT.SCHED included (R54, R196). -/
def deliver (s : State) (k code addr : Nat) (fpc : Word) : State :=
  match getThread s k with
  | none => s
  | some t =>
    let s := perf (leaveBundle (forgetWord s k) k) 0 (coreOf k) 5 1
    let t := abortTx { t with buf := [], grants := [], quiet := 0 } 4
    if toHandler s t code then
      setThread s k (deliverToHandler t s.nextId (gridOf s t).handler code addr fpc)
    else
      let t := { faultRegs t (faultClass code) code addr fpc with st := .parked, pc := fpc }
      post (setThread s k t) 0 (coreOf k) 3 (faultArg k t) (addr % 2 ^ 57)

/-- EndHandler of R381, at a transfer to `tgt`. -/
def endHandler (t : Thread) (f : HFrame) (tgt : Word) : Thread :=
  let t := { t with depth := f.depth, bts := tset t.bts 7 f.b7, frame := none, pc := tgt }
  if tgt = t.fpc then { writeSpan t 120 f.ts with tvalid := f.tvalid, runPos := f.runPos, btag := f.btag }
  else { t with runPos := 0, btag := Config.noTag, tvalid := [] }

/-- A thread is parked on a TRANSLATION fault, keeping its run position and tag (R370). -/
def park (s : State) (k : Nat) : State :=
  modThread (leaveBundle s k) k fun t => { t with st := .parked }

/-- A wait is met: the thread completes its word, hints included, and returns to READY (R147, R336). -/
def completeWait (t : Thread) (words : Nat) : Thread :=
  let t := { t with pc := t.pc + BitVec.ofNat 32 words, waitOn := .nothing, held := none,
                    st := if t.dstop then .stopped else .ready }
  if Config.runWords ≤ t.runPos + words then { t with runPos := 0, btag := Config.noTag, tvalid := [], runEpoch := t.epoch }
  else { t with runPos := t.runPos + words }

/-- A run ends for a thread of a bundle (R52, R330). -/
def endRun (t : Thread) : Thread :=
  { t with runPos := 0, btag := Config.noTag, tvalid := [], runEpoch := t.epoch }

/-- A word of `words` words, hints included, is completed by a thread: the PC and the run position move on (R46, R52). -/
def advance (t : Thread) (words : Nat) : Thread :=
  { t with pc := t.pc + BitVec.ofNat 32 words, runPos := t.runPos + words }

/-- Operations that a thread has outstanding on a counter (R394, R396). -/
def count (t : Thread) (c : Cnt) : Nat := (t.ops.filter fun o => o.cnt == c).length

/-- The condition of a WAIT, with each counter as it stands; a field of all ones imposes none (R398). -/
def waitMet (t : Thread) (ld st : BitVec 6) (cp tl : BitVec 4) : Bool :=
  (ld.toNat == 63 || decide (count t .ld ≤ ld.toNat)) && (st.toNat == 63 || decide (count t .st ≤ st.toNat)) &&
    (cp.toNat == 15 || decide (count t .cp ≤ cp.toNat)) && (tl.toNat == 15 || decide (count t .tl ≤ tl.toNat))

/-- Does a thread that had parked or stopped at its word wait on: is WAITON's condition unmet? A join and a barrier wait for
threads that stand WAITING, so theirs is (R326); a word that waits for room in a table is executed again. -/
def waitsOn (t : Thread) : Bool :=
  match t.waitOn with
  | .nothing | .table => false
  | .wait => match t.held with
    | some { instr := .wait ld st cp tl, .. } => !waitMet t ld st cp tl
    | _ => false
  | .stop => count t .ld != 0
  | _ => true

/-- A parked or stopped thread goes on: to WAITING where its word's condition is unmet, to READY otherwise, which is STOPPED
under a debug stop (R326, R338). -/
def unparked (t : Thread) : Thread :=
  if waitsOn t then { t with st := .waiting }
  else { t with waitOn := .nothing, held := none, st := if t.dstop then .stopped else .ready }

/-- Is a register the destination of an operation that has not written it? (R80) -/
def pendingReg (t : Thread) (n : Nat) : Bool :=
  t.ops.any fun o => !o.complete && decide (o.dest ≤ n) && decide (n < o.dest + o.dlen)

/-- The same, but for a matrix operation whose D span starts at `d` (R168). -/
def pendingBut (t : Thread) (d : Option Nat) (n : Nat) : Bool :=
  t.ops.any fun o => !o.complete && decide (o.dest ≤ n) && decide (n < o.dest + o.dlen) && match o.kind with
    | .matrix _ => d != some o.dest
    | _ => true

/-- Are all of a thread's global accesses stamped? (R216, R221) -/
def stamped (t : Thread) : Bool :=
  t.ops.all fun o => o.performed || match o.kind with
    | .load _ | .store _ | .rmw _ _ | .radd _ _ | .chain _ => false
    | _ => true

/-- The operations of one counter that retire now: the complete ones before the first that is not. -/
def retiring (ops : List Op) (c : Cnt) : List Op := (ops.filter fun o => o.cnt == c).takeWhile (·.complete)

/-- A thread whose complete operations retire, counter by counter (R396); jobs leave their F (R225). -/
def retire (t : Thread) : Thread :=
  let gone := retiring t.ops .ld ++ retiring t.ops .st ++ retiring t.ops .cp ++ retiring t.ops .tl ++
    t.ops.filter fun o => o.cnt == .uncounted && o.complete
  { t with ops := t.ops.filter fun o => !(gone.any fun g => g.id == o.id)
           retF := gone.foldl (fun m o => if o.cnt = .cp then tset m o.seq o.finish else m) t.retF }

/-- An operation issued: it takes its place among those of its counter (R395). -/
def addOp (t : Thread) (o : Op) : Thread :=
  let t' : Thread := { t with ldIssued := if o.cnt = .ld then t.ldIssued + 1 else t.ldIssued
                              cpIssued := if o.cnt = .cp then t.cpIssued + 1 else t.cpIssued }
  { t' with ops := t.ops ++ [{ o with seq := if o.cnt = .cp then t'.cpIssued else t'.ldIssued }] }

/-- An operation that is complete when it is issued: it is counted until those before it have retired (R396). -/
def addDone (t : Thread) (id : Nat) (c : Cnt) : Thread :=
  retire (addOp t { id := id, wid := id, cnt := c, kind := .done, performed := true, visible := true, complete := true })

/-- One operation of a thread changed. -/
def modOp (t : Thread) (id : Nat) (f : Op → Op) : Thread :=
  { t with ops := t.ops.map fun o => if o.id = id then f o else o }

/-- The operation of a thread with a number. -/
def findOp (t : Thread) (id : Nat) : Option Op := t.ops.find? fun o => o.id == id

/-- Poisoned or denied values that have retired, oldest first (R242, R398). -/
def retiredBad (t : Thread) : List Bad :=
  t.bad.filter fun b => b.cnt == .ld && !(t.ops.any fun o => o.id == b.id)

/-- The fault code of a poisoned or denied value (R242, R301). -/
def badCode (b : Bad) : Nat := if b.prot then 0x08 else 0x17

/-- What a word needs before it can be issued. -/
structure WordSpec where
  /-- hint kinds that it accepts besides HINT.SCHED (R56) -/
  hints : List Nat := []
  /-- hint kinds that it requires -/
  needs : List Nat := []
  /-- register operands: field, span and alignment (R49) -/
  spans : List (Nat × Nat × Nat) := []
  /-- registers that it reads -/
  reads : List Nat := []
  /-- registers that it writes -/
  writes : List Nat := []
  /-- it reads the registers that it writes too, and a matrix operation that writes them from this start may be pending
  (R168) -/
  accD : Option Nat := none
  /-- its guard (R239) -/
  guard : PredIx := 0
  /-- the format slot that it names, where it names one, is one that it accepts (R41) -/
  slotOk : Grid → Bool := fun _ => true
  /-- it ends the run (R52) -/
  ends : Bool := false
  /-- it accepts HINT.RND with [2:0] = 0b111 (R56) -/
  rnd7 : Bool := false
  /-- it waits for the thread's earlier global accesses to be stamped -/
  order : Bool := false
  /-- operations that it adds to each counter (R395) -/
  adds : List (Cnt × Nat) := []

/-- The issuing word: where it stands and its hints. -/
structure Ctx where
  core : Nat
  port : Nat
  hints : List Hint
  fpc : Word
  deriving DecidableEq, Repr

/-- Words of the issue unit: the hints and the target. -/
def Ctx.words (c : Ctx) : Nat := c.hints.length + 1

/-- The PC of the target word. -/
def Ctx.pc (c : Ctx) : Word := c.fpc + BitVec.ofNat 32 c.hints.length

/-- The payload of a hint kind in the sequence. -/
def Ctx.hint (c : Ctx) (kind : Nat) : Option Nat := (c.hints.find? fun h => h.kind.toNat == kind).map (·.payload.toNat)

/-- A route: the turns before the first end, none after it, no reserved code (R56). -/
def routeOk : Nat → Nat → Bool → Bool
  | 0, _, _ => true
  | n + 1, p, ended =>
    let x := p % 8
    if x = 0 then routeOk n (p / 8) true else !ended && decide (x ≤ 4) && routeOk n (p / 8) false

/-- A hint's payload is one that R56 and R193 allow. -/
def payloadOk (rnd7 : Bool) (h : Hint) : Bool :=
  let p := h.payload.toNat
  match h.kind.toNat with
  | 0 => decide (p < 2 ^ 22)
  | 1 => p % 2 ^ 17 == 0
  | 2 => routeOk 8 p false
  | 3 => decide (p ≤ 4)
  | 4 => decide (p < 16) && (decide (p % 8 ≤ 4) || (rnd7 && p % 8 == 7))
  | 5 => decide (p < 2 ^ 12) && bits p 7 6 != 3
  | _ => false

/-- Is the hint sequence one that the target accepts? (R54, R56) -/
def hintsOk (w : WordSpec) (runPos : Nat) (hs : List Hint) : Bool :=
  (hs.map (·.kind)).Nodup && hs.all (fun h => (h.kind == 5 || w.hints.contains h.kind.toNat) && payloadOk w.rnd7 h) &&
    w.needs.all (fun n => hs.any fun h => h.kind.toNat == n) && (hs.isEmpty || decide (runPos + hs.length < Config.runWords))

/-- CheckSpan of R58: does a span of `w` registers at field `n` with alignment `a` stand? -/
def checkSpan (regCount : Nat) (x : Nat × Nat × Nat) : Bool :=
  x.1 % x.2.2 == 0 && (if x.1 < 120 then decide (x.1 + x.2.1 ≤ regCount) else decide (x.1 + x.2.1 ≤ 128))

/-- What stands before the lanes of a word. -/
inductive Prelude where
  | idle                                             -- no port is issuing
  | refuse (c : Ctx) (code : Nat) (ks : List Nat)    -- a fault of the whole bundle
  | hold                                             -- an interlock holds the bundle (R330)
  | go (c : Ctx) (ks : List Nat)
  deriving DecidableEq, Repr

/-- The threads of the bundle that a port holds. -/
def bundle (s : State) (core port : Nat) : List Nat := (tget (getCore s core).ports port).getD []

/-- The registers whose values the word uses. -/
def WordSpec.uses (w : WordSpec) : List Nat := if w.accD.isSome then w.reads ++ w.writes else w.reads

/-- Is a register one that still waits for a poisoned or denied value? (R242) In handler mode the temporaries are not those of
the frame, to which what was issued before belongs (R380). -/
def Bad.covers (t : Thread) (n : Nat) (b : Bad) : Bool :=
  decide (b.dest ≤ n) && decide (n < b.dest + b.dlen) && !(decide (120 ≤ n) && t.frame.any fun f => decide (b.id < f.since))

/-- Has a temporary that the word reads not been written in this run? (R51) Where it still waits for a poisoned or denied value,
the word meets that (R242). -/
def tempUndef (w : WordSpec) (t : Thread) : Bool :=
  w.uses.any fun n => decide (120 ≤ n) && !(tget t.tvalid n).getD false && !t.bad.any (Bad.covers t n)

/-- A read or written register whose pending value was poisoned or denied (R242). -/
def badReg (w : WordSpec) (t : Thread) : Option Bad := t.bad.find? fun b => (w.reads ++ w.writes).any fun n => b.covers t n

/-- Does a thread hold the bundle at this word: a register interlock (R80), an operation whose faults are not yet excluded,
a full counter (R395), HINT.SCHED's QUIET (R196), or a wait for stamps? -/
def holds (s : State) (w : WordSpec) (t : Thread) : Bool :=
  let act := readPred t w.guard
  decide (s.bd.clock < t.quiet) ||
  t.mayFault ||
  act && (w.reads.any (pendingReg t) || w.writes.any (pendingBut t w.accD) ||
    w.adds.any (fun a => decide ((if a.1 = .cp then 63 else 255) < count t a.1 + a.2)) ||
    (w.order && !stamped t))

/-- The checks before any lane acts: the hint sequence, the spans, then the interlocks (R54, R57, R58, R80). -/
def prelude (w : WordSpec) (s : State) : Prelude :=
  match s.cur with
  | none => .idle
  | some u =>
    let c : Ctx := { core := u.core, port := u.port, hints := u.hints, fpc := u.fpc }
    let ks := bundle s u.core u.port
    let ts := ks.filterMap (getThread s)
    match ts with
    | [] => .idle
    | t :: _ =>
      if !hintsOk w t.runPos c.hints then .refuse c 0x02 ks
      else if !w.spans.all (checkSpan (gridOf s t).regs) then .refuse c 0x05 ks
      else if ts.any (holds s w) then .hold
      else .go c ks

/-- What a word does in one lane. -/
inductive LaneOut where
  | ok (s : State)                -- it completes
  | fault (code addr : Nat)
  | faultIn (s : State) (code addr : Nat)
  | wait (s : State)              -- it stands at the word, WAITING or parked

/-- A lane completes its word; at the end of a run it leaves the bundle (R52, R330). -/
def completeLane (s : State) (k words : Nat) (ends : Bool) : State :=
  match getThread s k with
  | none => s
  | some t =>
    if ends ∨ Config.runWords ≤ t.runPos + words then
      leaveBundle (setThread s k (endRun (advance { t with grants := [], buf := [] } words))) k
    else setThread s k (advance { t with grants := [], buf := [] } words)

/-- QUIET of the word's HINT.SCHED (R196). -/
def schedQuiet (s : State) (c : Ctx) (t : Thread) : Thread :=
  match c.hint 5 with
  | none => t
  | some p => { t with quiet := s.bd.clock + p % 64 }

/-- One lane of a word: the guard, TEMP_UNDEF, FORMAT_SLOT, a poisoned register, then the word's own effect (R57, R239). -/
def laneStep (w : WordSpec) (c : Ctx) (body : State → Nat → Thread → LaneOut) (s : State) (k : Nat) : State :=
  match getThread s k with
  | none => s
  | some t =>
    if readPred t w.guard = false then completeLane (setThread s k (schedQuiet s c t)) k c.words w.ends
    else if tempUndef w t then deliver s k 0x03 0 c.fpc
    else if w.slotOk (gridOf s t) = false then deliver s k 0x10 0 c.fpc
    else match badReg w t with
      | some b => deliver (setThread s k { t with bad := t.bad.filter fun x => x.id != b.id }) k (badCode b) b.addr c.fpc
      | none =>
        if w.uses.any t.rpoison.contains then deliver s k 0x17 0 c.fpc
        else match body s k (schedQuiet s c t) with
          | .fault code addr => deliver s k code addr c.fpc
          | .faultIn s code addr => deliver s k code addr c.fpc
          | .ok s => completeLane s k c.words w.ends
          | .wait s => leaveBundle s k

/-- Every lane of a list takes the word, in the order of the list. -/
def laneLoop (f : State → Nat → State) : State → List Nat → State
  | s, [] => s
  | s, k :: ks => laneLoop f (f s k) ks

/-- The port is no longer issuing. -/
def done (s : State) : State := { s with cur := none }

/-- Every live thread of a bundle takes a fault (R57). -/
def faultAll (s : State) (ks : List Nat) (code : Nat) (fpc : Word) : State :=
  laneLoop (fun s k => deliver s k code 0 fpc) s ks

/-- A word issued: the checks, then what it does to the lanes of its bundle, in ascending home-lane order (R57, R90,
R330). -/
def issueGo (w : WordSpec) (go : Ctx → List Nat → State → State) (s : State) : Host.Outcome State Fault Refusal :=
  match prelude w s with
  | .idle => .next s
  | .hold => .next (done s)
  | .refuse c code ks => .next (done (faultAll s ks code c.fpc))
  | .go c ks => .next (done (go c ks s))

/-- A word with an effect in each lane. -/
def issueWord (w : WordSpec) (body : Ctx → State → Nat → Thread → LaneOut) (s : State) : Host.Outcome State Fault Refusal :=
  issueGo w (fun c ks s => laneLoop (laneStep w c (body c)) s ks) s

/-- A word after each of whose lanes something is settled: the joins that an arrival or an exit may complete. -/
def issueThen (w : WordSpec) (body : Ctx → State → Nat → Thread → LaneOut) (after : State → Nat → State) (s : State) :
    Host.Outcome State Fault Refusal :=
  issueGo w (fun c ks s => laneLoop (fun s k => after (laneStep w c (body c) s k) k) s ks) s

/-- Would a lane execute its word now: guard true, and no fault of R57 or poisoned register before it? -/
def ready (s : State) (w : WordSpec) (t : Thread) : Bool :=
  readPred t w.guard && !tempUndef w t && w.slotOk (gridOf s t) && (badReg w t).isNone && !w.uses.any t.rpoison.contains

/-- A thread WAITING at an instruction, which it has not executed (R147, R336). -/
def waiting (c : Ctx) (t : Thread) (on : WaitOn) (i : Instr) : Thread :=
  { t with st := .waiting, waitOn := on, held := some { instr := i, hints := c.hints } }

/-- The words of the issue unit that a waiting thread stands at. -/
def heldWords (t : Thread) : Nat := match t.held with
  | some h => h.hints.length + 1
  | none => 1

/-- The wait of a thread is met: it completes its word (R336). -/
def release (s : State) (k : Nat) : State :=
  modThread s k fun t => completeWait t (heldWords t)

/-- The grid of the bundle that is issuing. -/
def curGrid (s : State) : Grid :=
  match s.cur with
  | none => { record := [], launcher := .slot 0 0 }
  | some u => match (bundle s u.core u.port).filterMap (getThread s) with
    | t :: _ => gridOf s t
    | [] => { record := [], launcher := .slot 0 0 }

/-- What a register word does: the thread afterwards, or a fault code. -/
abbrev LaneFn := Ctx → State → Thread → Except Nat Thread

/-- A register word: its effect in a lane depends on that lane's registers alone and changes nothing else (R90, R115,
R174). -/
def regWord (w : WordSpec) (f : LaneFn) (s : State) : Host.Outcome State Fault Refusal :=
  issueWord w (fun c s k t => match f c s t with
    | .ok t' => .ok (setThread s k t')
    | .error code => .fault code 0) s

end Sys2Proof.Machine
end

