-- ==== Sys2Proof/Machine/Operands.lean ====
section
/-! DEFINITION. Operands.lean: register operands and their spans (R49), immediates (R58), the effect of HINT.RND (R117), and
the fields and the check of a format slot (R37 to R41). -/

namespace Sys2Proof.Machine

/-- Words, pairs and quads as operands: field, span, alignment (R49). -/
def sp1 (n : Reg) : Nat × Nat × Nat := (n.toNat, 1, 1)
/-- A pair. -/
def sp2 (n : Reg) : Nat × Nat × Nat := (n.toNat, 2, 2)
/-- A quad. -/
def sp4 (n : Reg) : Nat × Nat × Nat := (n.toNat, 4, 4)

/-- The registers of spans. -/
def regsOf (l : List (Nat × Nat × Nat)) : List Nat := l.flatMap fun x => (List.range x.2.1).map (x.1 + ·)

/-- A word with sources and destinations (R49, R90). -/
def opSpec (src dst : List (Nat × Nat × Nat)) : WordSpec :=
  { spans := src ++ dst, reads := regsOf src, writes := regsOf dst }

/-- A word that also reads its destination. -/
def opSpecD (src dst : List (Nat × Nat × Nat)) : WordSpec :=
  { spans := src ++ dst, reads := regsOf src ++ regsOf dst, writes := regsOf dst }

/-- The value of a source register. -/
def rd (t : Thread) (n : Reg) : Word := readReg t n.toNat

/-- The value of a source pair. -/
def rdPair (t : Thread) (n : Reg) : Nat := readPair t n.toNat

/-- Imm32 of R58. -/
def imm32 (c : Ctx) (imm : BitVec 10) : Word :=
  match c.hint 0 with
  | some h => BitVec.ofNat 32 (h % 2 ^ 22 * 2 ^ 10 + imm.toNat)
  | none => imm.signExtend 32

/-- The rounding mode of a code of R25; RNE for the reserved codes, which no accepted hint holds. -/
def rmOf (n : Nat) : Rm := if n = 1 then .rz else if n = 2 then .rd else if n = 3 then .ru else if n = 4 then .rna else .rne

/-- The rounding mode that HINT.RND gives, RNE without it (R117). -/
def hintRm (c : Ctx) : Rm := match c.hint 4 with
  | some p => rmOf (p % 8)
  | none => .rne

/-- The saturation that HINT.RND requests (R117). -/
def hintSat (c : Ctx) : Bool := match c.hint 4 with
  | some p => bit p 3
  | none => false

/-- A register destination of one word. -/
def put (t : Thread) (d : Reg) (x : Word) : Except Nat Thread := .ok (writeReg t d.toNat x)

/-- A register destination of a pair. -/
def putPair (t : Thread) (d : Reg) (x : Nat) : Except Nat Thread := .ok (writePair t d.toNat x)

/-- The format of a format code (R37); CB2 and the reserved codes have no scalar format. -/
def fmtOf (code : Nat) : Option NumFmt :=
  match code with
  | 1 => some .bf16 | 2 => some .f16 | 3 => some .e4m3 | 4 => some .e5m2 | 5 => some .e2m1 | 6 => some .hs4
  | 8 => some .int8 | 9 => some .int4 | _ => none

/-- The scale format of a code of R38. -/
def sclOf (code : Nat) : ScaleFmt := if code = 1 then .e8m0 else if code = 2 then .bf16 else .none

/-- KIND of a slot (R38). -/
def slotKind (x : Nat) : Nat := bits x 3 0
/-- AFMT. -/
def slotA (x : Nat) : Nat := bits x 7 4
/-- BFMT. -/
def slotB (x : Nat) : Nat := bits x 11 8
/-- ACC. -/
def slotAcc (x : Nat) : Nat := bits x 13 12
/-- ASCL. -/
def slotAscl (x : Nat) : Nat := bits x 15 14
/-- BSCL. -/
def slotBscl (x : Nat) : Nat := bits x 17 16
/-- KBLK in elements. -/
def slotKblk (x : Nat) : Nat := 16 * 2 ^ bits x 19 18
/-- SPM: the sparsity group size M, 0 for dense. -/
def slotM (x : Nat) : Nat := 4 * bits x 21 20
/-- SAT. -/
def slotSat (x : Nat) : Bool := bit x 22
/-- CBADDR. -/
def slotCb (x : Nat) : Nat := bits x 120 64

/-- May a scale format stand for B in a 4-bit row of R39? -/
def scale4 (fmt scl : Nat) : Bool := if fmt = 5 then scl == 1 else scl == 1 || scl == 2

/-- A matrix slot holds a row of R39. -/
def matrixRow (x : Nat) : Bool :=
  let a := slotA x; let b := slotB x; let acc := slotAcc x; let sa := slotAscl x; let sb := slotBscl x
  let kb := bits x 19 18; let m := bits x 21 20
  (((a == 1 && b == 1) || (a == 2 && b == 2)) && acc == 0 && sa == 0 && sb == 0 && kb == 0) ||
  ((a == 3 || a == 4) && (b == 3 || b == 4) && acc == 0 && decide (sa ≤ 1) && decide (sb ≤ 1) &&
    (kb == 1 || (kb == 0 && sa == 0 && sb == 0))) ||
  (a == 8 && b == 8 && acc == 1 && sa == 0 && sb == 0 && decide (kb ≤ 1)) ||
  ((a == 5 || a == 6) && (b == 5 || b == 6) && acc == 0 && scale4 a sa && scale4 b sb && kb == 1) ||
  (a == 7 && (b == 5 || b == 6) && acc == 0 && sa == 2 && scale4 b sb && kb == 1 && m == 0)

/-- A conversion slot holds what R40 allows. -/
def convertRow (x : Nat) : Bool :=
  let a := slotA x; let sa := slotAscl x
  slotB x == 0 && slotAcc x == 0 && slotBscl x == 0 && bits x 21 18 == 0 &&
  (((a == 1 || a == 2 || a == 8 || a == 9) && sa == 0) || ((a == 3 || a == 4) && decide (sa ≤ 1)) || (a == 5 && sa == 1) ||
    (a == 6 && (sa == 1 || sa == 2)) || (a == 7 && sa == 2))

/-- The check of a slot's fields at launch (R38 to R40). A matrix slot, too, has a CBADDR exactly where A is CB2, which R40 says of
conversion slots: DESIGN CHOICE (notes/assumptions/52.md). -/
def slotValid (x : Nat) : Bool :=
  if slotKind x = 0 then x == 0
  else
    bits x 127 121 == 0 && bits x 63 23 == 0 && bits x 70 64 == 0 &&
    ((slotA x == 7) == (slotCb x != 0)) &&
    (if slotKind x = 1 then !slotSat x && matrixRow x
     else if slotKind x = 2 then convertRow x
     else false)

/-- A table entry of a codebook (R34): an even magnitude sum. -/
def codebookEntryOk (p : Nat) : Bool :=
  ((List.range 8).map fun j => bits p (2 * j + 1) (2 * j)).sum % 2 == 0

/-- The k extent of a matrix slot (R39). -/
def kExtent (x : Nat) : Nat :=
  if slotA x = 1 ∨ slotA x = 2 then 16 else if slotA x = 3 ∨ slotA x = 4 ∨ slotA x = 8 then 32 else 64

end Sys2Proof.Machine
end

