-- ==== Sys2Proof/Machine/Flags.lean ====
section
/-! DEFINITION. Flags.lean: the conditions of the compares (R110, R111), the logic of PCOMB (R112), and the status words
TSTAT and CORESTAT (R84, R85). -/

namespace Sys2Proof.Machine

/-- The condition of an integer compare on values of `n` bits (R110). -/
def condHolds (c : Cond) (n x y : Nat) : Bool :=
  match c with
  | .eq => x == y
  | .ne => x != y
  | .ltI => decide (sext x n < sext y n)
  | .leI => decide (sext x n ≤ sext y n)
  | .ltN => decide (x < y)
  | .leN => decide (x ≤ y)
  | .gtI => decide (sext y n < sext x n)
  | .gtN => decide (y < x)

/-- The condition of FCMP (R111). -/
def fcondHolds (c : FCond) (x y : Word) : Bool :=
  let a := value .fp32 x.toNat
  let b := value .fp32 y.toNat
  let un := isNaN .fp32 x.toNat || isNaN .fp32 y.toNat
  match c with
  | .eq => a.eqv b
  | .ne => !a.eqv b
  | .lt => a.lt b
  | .le => a.lt b || a.eqv b
  | .gt => b.lt a
  | .ge => b.lt a || a.eqv b
  | .ord => !un
  | .unord => un

/-- PCOMB before the AND with PC (R112). -/
def combine (o : PCombOp) (a b : Bool) : Bool :=
  match o with
  | .and => a && b
  | .or => a || b
  | .xor => a != b
  | .andn => a && !b
  | .not => !a

/-- Does a thread read at a snapshot? (R84) -/
def Snap.isOn : Snap → Bool
  | .off => false
  | _ => true

/-- TSTAT (R84). -/
def tstat (t : Thread) : Nat :=
  bitsNat [t.snapx, t.derivLost, t.ternBad, t.serialSeen, false, false, false, false, t.snap.isOn, t.tx.active, t.serial]

/-- CORESTAT (R85). -/
def corestat (s : State) (core : Nat) (t : Thread) : Nat := bitsNat [s.ex.matNarrow.contains core, t.preempted]

end Sys2Proof.Machine
end

