-- ==== Sys2Proof/Machine/Translate.lean ====
section
/-! DEFINITION. Translate.lean: page tables and walks (R362 to R367), the last-page registers and the core TLB (R368), the
merge table and its waiters (R369, R370), and invalidation (R371). -/

namespace Sys2Proof.Machine

/-- Kinds of access (R279, R366). -/
inductive Acc where
  | load | store | fetch | atomic | chain | chainAdd | radd | tileFill | tileStore | engineRead | engineWrite
  deriving DecidableEq, Repr

/-- ACC of a fault record (R279). A RADD and a tile store count as stores, the final add of a chain as a chain step
(notes/assumptions/20.md). -/
def accCode : Acc → Nat
  | .load => 0 | .store => 1 | .fetch => 2 | .atomic => 3 | .chain => 4 | .chainAdd => 4 | .radd => 1 | .tileFill => 5
  | .tileStore => 1 | .engineRead => 6 | .engineWrite => 7

/-- Does an access need R? (R366) -/
def needsR : Acc → Bool
  | .load | .atomic | .chain | .chainAdd | .tileFill | .engineRead => true
  | _ => false
/-- Does an access need W? (R366) -/
def needsW : Acc → Bool
  | .store | .atomic | .chainAdd | .radd | .tileStore | .engineWrite => true
  | _ => false
/-- Does an access need X? (R366) -/
def needsX : Acc → Bool
  | .fetch => true
  | _ => false

/-- Does a leaf allow an access? (R366) -/
def permits (l : Leaf) (a : Acc) : Bool := (!needsR a || l.r) && (!needsW a || l.w) && (!needsX a || l.x)

/-- Bytes of a page (R200). -/
def pageBytes (size : Nat) : Nat := if size = 0 then 2 ^ 16 else if size = 1 then 2 ^ 21 else 2 ^ 30

/-- Does a range lie wholly inside one range of R201 and clear of the version and spill regions? (R365) -/
def frameOk (s : State) (pa n : Nat) : Bool :=
  let last := pa + n - 1
  if last < 0x9000000000 then
    (List.range 4).all fun d => last < versionBase s d || (d + 1) * 3 * 0xC00000000 ≤ pa
  else (decide (0x10000000000 ≤ pa) && decide (last < spillBase s)) || (decide (0x800000000000 ≤ pa) && decide (last < 0x1000000000000))

/-- How a walk ends (R365, R367, R370). -/
inductive WalkEnd where
  | leaf (l : Leaf)
  | absent
  | bad
  | poison
  deriving DecidableEq, Repr

/-- Lowest bit of the index of a level (R363). -/
def levelShift (level : Nat) : Nat := if level = 0 then 16 else 12 + 9 * level

/-- A leaf entry read at a level, or none where it is malformed (R364, R365). -/
def leafOf (s : State) (level x pte : Nat) : Option Leaf :=
  let r := bit x 60
  let w := bit x 59
  let ex := bit x 58
  if bits x 62 61 = 1 then
    let pa := bits x 47 16 * 65536
    let l : Leaf := { size := level, r := r, w := w, x := ex, zf := bit x 57, gather := bit x 56, pin := bit x 55,
                      mig := bits x 54 53 == 1, frame := pa, entry := pte }
    if bits x 52 48 = 0 ∧ bits x 15 0 = 0 ∧ bits x 54 53 ≤ 1 ∧ pa % pageBytes level = 0 ∧ frameOk s pa (pageBytes level) ∧
      ¬ (l.zf ∧ isHost pa) ∧ ¬ (l.gather ∧ (¬ r ∨ w ∨ ex ∨ l.zf ∨ l.pin ∨ pa ≠ 0)) then some l else none
  else
    if bits x 57 48 = 0 ∧ bits x 22 0 = 0 ∧ ¬ ex ∧ bits x 47 35 ≠ s.fa.pkg then
      some { size := level, r := r, w := w, x := false, remote := true, frame := bits x 47 35 * 4096 + bits x 34 23, entry := pte }
    else none

/-- Is a line poisoned? (R208) -/
def linePoison (s : State) (pa : Nat) : Bool := ((tget s.mm.lines (pa / 128)).map (·.poison)).getD false

/-- The walk from a table of a level down, over kept table pointers where it uses them (R363 to R365, R367). -/
def walkFrom (s : State) (kept : List Pointer) (va : Nat) : Nat → Nat → Nat → WalkEnd
  | 0, _, _ => .bad
  | fuel + 1, level, table =>
    let pte := table + 8 * (va / 2 ^ levelShift level % (if level = 0 then 32 else 512))
    let old := kept.find? fun p => p.level == level && p.index == va / 2 ^ levelShift level
    let x := (old.map (·.value)).getD (leNat (mread s.mm.mem pte 8))
    if old.isNone && linePoison s pte then .poison
    else if bit x 63 = false then .absent
    else if bits x 62 61 = 0 then
      let next := bits x 47 8 * 256
      if level = 0 ∨ bits x 60 48 ≠ 0 ∨ bits x 7 0 ≠ 0 ∨ (level ≠ 1 ∧ bits x 11 8 ≠ 0) ∨ ¬ mapped next then .bad
      else walkFrom s kept va fuel (level - 1) next
    else if bits x 62 61 = 3 ∨ 3 ≤ level then .bad
    else match leafOf s level x pte with
      | some l => .leaf l
      | none => .bad

/-- The walk of an address in an address space (R362, R363). -/
def walkOver (s : State) (kept : List Pointer) (asid va : Nat) : WalkEnd :=
  match tget s.tr.roots asid with
  | none => .absent
  | some root => walkFrom s kept va 5 4 root

/-- The walk that reads every entry from memory. -/
def walk (s : State) (asid va : Nat) : WalkEnd := walkOver s [] asid va

/-- The table-pointer entries of an address space that a die's walker keeps (R367). -/
def keptPointers (s : State) (die asid : Nat) : List Pointer := s.tr.pointers.filter fun p => p.die == die && p.asid == asid

/-- The table pointers of levels 4 to 2 that a walk meets on the way to an address. -/
def pointersTo (s : State) (kept : List Pointer) (die asid va : Nat) : Nat → Nat → Nat → List Pointer
  | 0, _, _ => []
  | fuel + 1, level, table =>
    let old := kept.find? fun p => p.level == level && p.index == va / 2 ^ levelShift level
    let x := (old.map (·.value)).getD (leNat (mread s.mm.mem (table + 8 * (va / 2 ^ levelShift level % 512)) 8))
    if level < 2 ∨ bit x 63 = false ∨ bits x 62 61 ≠ 0 then []
    else { die := die, asid := asid, level := level, index := va / 2 ^ levelShift level, value := x } ::
      pointersTo s kept die asid va fuel (level - 1) (bits x 47 8 * 256)

/-- A walk's table pointers kept, the newest of each die (R367). -/
def keepPointers (s : State) (kept : List Pointer) (die asid va : Nat) : State :=
  match tget s.tr.roots asid with
  | none => s
  | some root =>
    let new := pointersTo s kept die asid va 5 4 root
    let old := s.tr.pointers.filter fun p => !(p.die == die && p.asid == asid && new.any fun q => q.level == p.level && q.index == p.index)
    { s with tr := { s.tr with pointers :=
        (new ++ old.filter (·.die == die)).take Config.walkPointers ++ old.filter (·.die != die) } }

/-- Does a held translation cover an address? (R368) -/
def covers (e : TlbEntry) (asid va : Nat) : Bool :=
  e.asid == asid && va / pageBytes e.leaf.size == e.vpn * 65536 / pageBytes e.leaf.size

/-- Where a translated address is performed (R199). -/
def locOf (l : Leaf) (asid va : Nat) : Loc :=
  if l.gather then .window asid va
  else if l.remote then .remote (l.frame / 4096) (l.frame % 4096) va
  else
    let pa := l.frame + va % pageBytes l.size
    if isHost pa then .host pa else .here pa

/-- The window in which an address lies (R300). -/
def windowAt (s : State) (asid va : Nat) : Option Window :=
  s.en.windows.find? fun w => w.asid == asid && decide (w.wbase ≤ va) && decide (va < w.wbase + w.n * w.es)

/-- What a translation gives an access. -/
inductive Xlat where
  | ok (l : Leaf)
  | miss
  | zeroMiss (l : Leaf)    -- the first write to a zero-fill page (R372)
  | prot
  deriving DecidableEq, Repr

/-- An access judged against a leaf (R366, R372, R373). -/
def judge (s : State) (l : Leaf) (a : Acc) (asid va : Nat) : Xlat :=
  if !permits l a then .prot
  else if l.gather && (!(a == .load || a == .tileFill || a == .engineRead) || (windowAt s asid va).isNone) then .prot
  else if l.zf && needsW a then .zeroMiss l
  else .ok l

/-- The translation that a thread's lane, its core, or the thread itself holds (R368). -/
def heldXlat (s : State) (k : Nat) (t : Thread) (fetch : Bool) (asid va : Nat) : Option TlbEntry :=
  let c := getCore s (coreOf k)
  let hit (e : TlbEntry) := covers e asid va
  let last := if fetch then none else (tget c.lastPage t.hlane).filter hit
  match last with
  | some e => some e
  | none => match c.tlb.find? hit with
    | some e => some e
    | none => t.grants.find? hit

/-- The translation of a thread's access (R366, R368). -/
def xlate (s : State) (k : Nat) (t : Thread) (a : Acc) (asid va : Nat) : Xlat :=
  match heldXlat s k t (needsX a) asid va with
  | none => .miss
  | some e => judge s e.leaf a asid va

/-- The merge entry of a page in a die's table (R369). -/
def mergeOf (s : State) (die asid va : Nat) : Option (Nat × Merge) :=
  s.tr.merges.find? fun e => e.1 / 1024 == die && e.2.asid == asid && e.2.vpn == va / 65536

/-- A merge entry set. -/
def setMerge (s : State) (k : Nat) (m : Merge) : State := { s with tr := { s.tr with merges := tset s.tr.merges k m } }
/-- A merge entry freed. -/
def freeMerge (s : State) (k : Nat) : State := { s with tr := { s.tr with merges := tdel s.tr.merges k } }

/-- A free merge entry of a die. -/
def freeEntry (s : State) (die : Nat) : Option Nat := tfree s.tr.merges Config.mergeEntries (die * 1024)

/-- The walks that a die is making. -/
def walksOf (s : State) (die : Nat) : Nat := (s.tr.merges.filter fun e => e.1 / 1024 == die && e.2.phase == .walking).length

/-- The entry of a die whose walk has waited longest to start. -/
def nextWalk (s : State) (die : Nat) : Option (Nat × Merge) :=
  firstBy (fun a b => decide (a.2.since < b.2.since)) (s.tr.merges.filter fun e => e.1 / 1024 == die && e.2.phase == .queued)

/-- A die with room for another walk starts the one that has waited longest (R367). -/
def startWalk (s : State) (die : Nat) : State :=
  if Config.walksPerDie ≤ walksOf s die then s
  else match nextWalk s die with
    | some (k, m) => setMerge s k { m with phase := .walking }
    | none => s

/-- A merge entry whose page is to be walked: it waits its turn behind the walks that arrived before it (R367). -/
def queueWalk (s : State) (k : Nat) (m : Merge) : State :=
  startWalk { setMerge s k { m with phase := .queued, since := s.nextId } with nextId := s.nextId + 1 } (k / 1024)

/-- A miss joins the entry of its page, or makes one that starts in a phase; where the table is full it waits at the die
(R369). -/
def joinMerge (s : State) (die asid va acc : Nat) (src : Nat × Nat) (ph : MergePhase) (w : Waiter) : State :=
  match mergeOf s die asid va with
  | some (k, m) => if m.waiters.contains w then s else perf (setMerge s k { m with waiters := m.waiters ++ [w] }) 3 die 1 1
  | none => match freeEntry s die with
    | some k =>
      let m : Merge := { asid := asid, vpn := va / 65536, acc := acc, srcKind := src.1, srcId := src.2, va := va, phase := ph, waiters := [w] }
      if ph = .queued then queueWalk s k m else setMerge s k m
    | none => s

/-- Through what an agent that is no thread translates: its die's merge table, and the page that its instance holds, or the TLB
of its core. -/
structure Via where
  die : Nat
  page : Option TlbEntry := none
  core : Option Nat := none
  deriving DecidableEq, Repr

/-- The translation of an address that an agent holds (R368). -/
def viaHeld (s : State) (u : Via) (asid va : Nat) : Option TlbEntry :=
  match u.page.filter fun e => covers e asid va with
  | some e => some e
  | none => u.core.bind fun c => (getCore s c).tlb.find? fun e => covers e asid va

/-- The translation of an agent's access, as the end of a walk: one that it holds, or from the tables where no merge entry of the
page stands, the merge table has room for its miss and the die for its walk; otherwise the access waits there (R366 to
R370). -/
def walkNow (s : State) (u : Via) (a : Acc) (asid va : Nat) : WalkEnd :=
  let judged (l : Leaf) : WalkEnd := match judge s l a asid va with
    | .prot => .bad
    | _ => .leaf l
  match viaHeld s u asid va with
  | some e => judged e.leaf
  | none =>
    if (mergeOf s u.die asid va).isSome || (freeEntry s u.die).isNone || decide (Config.walksPerDie ≤ walksOf s u.die) then .absent
    else match walk s asid va with
      | .leaf l => judged l
      | e => e

/-- Does an agent's access to a page that the tables map wait: is a miss of the page under way, or the merge table or the walker
full? (R367, R369) -/
def walkWaits (s : State) (u : Via) (a : Acc) (asid va : Nat) : Bool := walkNow s u a asid va == .absent && walk s asid va != .absent

/-- Does an agent's access wait for the host path, which cannot carry it now? (R306, R307) -/
def portWaits (s : State) (u : Via) (a : Acc) (asid va : Nat) : Bool :=
  match walkNow s u a asid va with
  | .leaf l => !l.remote && !l.gather && isHost l.frame && !hostPathOpen s
  | _ => false

/-- A walk that an agent's access has made, counted (R403). -/
def noteWalk (s : State) (u : Via) (asid va : Nat) : State := if (viaHeld s u asid va).isSome then s else perf s 3 u.die 0 1

/-- Is the page's merge entry one whose walk ended at an invalid entry? (R370) -/
def absentNow (s : State) (die asid va : Nat) : Bool :=
  match mergeOf s die asid va with
  | some (_, m) => m.phase == .absent
  | none => false

/-- The die of a core (R13). -/
def dieOf (core : Nat) : Nat := core / 64

/-- The lane's miss: it joins the merge entry; on an entry that is already absent it parks at once (R369, R370). -/
def laneMiss (s : State) (k asid va : Nat) (a : Acc) (ph : MergePhase) (w : Waiter) : State :=
  let die := dieOf (coreOf k)
  let ab := absentNow s die asid va
  let s := joinMerge s die asid va (accCode a) (0, coreOf k) ph w
  if ab then park s k else s

/-- The set of the core TLB that a translation goes to (R368): by the page's number, a DESIGN CHOICE
(notes/assumptions/26.md). -/
def tlbSet (e : TlbEntry) : Nat := e.vpn * 65536 / pageBytes e.leaf.size % Config.tlbSets

/-- A translation taken into a TLB (R368): where its set is full, the set drops its oldest entry, a DESIGN CHOICE
(notes/assumptions/26.md). -/
def fillTlb (l : List TlbEntry) (e : TlbEntry) : List TlbEntry :=
  let l := l.filter (· != e)
  let set := l.filter fun x => tlbSet x == tlbSet e
  match set.getLast? with
  | some x => if set.length < Config.tlbWays then e :: l else e :: l.filter (· != x)
  | none => e :: l

/-- A translation taken into a core's TLB, and into a lane's last-page register but for a fetch (R368). -/
def fillCore (s : State) (core : Nat) (lane : Option Nat) (e : TlbEntry) : State :=
  modCore s core fun c => { c with tlb := fillTlb c.tlb e, lastPage := match lane with
    | some h => tset c.lastPage h e
    | none => c.lastPage }

/-- A lane's last-page register refilled by a hit in the core TLB, where the register itself does not hit, with the 64 KiB unit
that was hit (R368). -/
def touchPage (s : State) (k : Nat) (t : Thread) (asid va : Nat) : State :=
  if (tget (getCore s (coreOf k)).lastPage t.hlane).any fun e => covers e asid va then s
  else match (getCore s (coreOf k)).tlb.find? fun e => covers e asid va with
  | some e => modCore s (coreOf k) fun c => { c with lastPage := tset c.lastPage t.hlane { e with vpn := va / 65536 } }
  | none => s

/-- May a translation be held by the TLBs? (R368) -/
def holdable (l : Leaf) : Bool := !l.zf && !l.gather && !l.mig

/-- A thread that has what it waited for: it leaves PARKED where the miss had parked it (R370). -/
def unparkThread (s : State) (k : Nat) : State :=
  match getThread s k with
  | some t => if t.st = .parked then setThread s k (unparked t) else s
  | none => s

/-- The number under which a walker of a die holds its page, after the engine instances (notes/assumptions/45.md). -/
def walkerPage (die : Nat) : Nat := 256 + die

/-- An agent's page (R368). -/
def setPage (s : State) (n : Nat) (e : TlbEntry) : State :=
  if holdable e.leaf then { s with en := { s.en with pages := tset s.en.pages n e } } else s

/-- A waiter receives its translation: a thread, its core; a tile, the core of its team; an engine instance, a walker and the
gather unit, each its current page (R368, R369). -/
def grantTo (s : State) (e : TlbEntry) (w : Waiter) : State :=
  let give (k : Nat) (lane : Thread → Option Nat) : State := match getThread s k with
    | none => s
    | some t =>
      let s := if holdable e.leaf then fillCore s (coreOf k) (lane t) e else modThread s k fun t => { t with grants := e :: t.grants }
      unparkThread s k
  match w with
  | .lane k _ _ | .chain k _ _ => give k fun t => some t.hlane
  | .fetch k _ _ => give k fun _ => none
  | .element _ _ _ => setPage s 128 e
  | .card c _ | .completion c _ => match tget s.en.cards c with
    | some x => setPage s x.instance_ e
    | none => s
  | .node d _ _ => setPage s (walkerPage d) e
  | .tile tm _ _ => if holdable e.leaf then fillCore s (coreOf tm) none e else s

/-- Translations of a scope removed everywhere, with the table pointers that `q` selects (R371). -/
def dropXlats (s : State) (p : TlbEntry → Bool) (q : Pointer → Bool) : State :=
  { s with
    ex := { s.ex with
      cores := s.ex.cores.map fun e => (e.1, { e.2 with
        lastPage := e.2.lastPage.filter fun x => !p x.2
        tlb := e.2.tlb.filter fun x => !p x })
      threads := s.ex.threads.map fun e => (e.1, { e.2 with grants := e.2.grants.filter fun x => !p x }) }
    tr := { s.tr with pointers := s.tr.pointers.filter fun x => !q x }
    en := { s.en with pages := s.en.pages.filter fun x => !p x.2 } }

/-- The page of a size at an address, as a scope. -/
def pageScope (asid va size : Nat) (e : TlbEntry) : Bool :=
  e.asid == asid && (e.vpn * 65536 / pageBytes size == va / pageBytes size || covers e asid va)

/-- The translations of one page removed, with the table pointers on the way to it (R371). -/
def dropPage (s : State) (asid va size : Nat) : State :=
  dropXlats s (pageScope asid va size) fun p => p.asid == asid && p.index == va / 2 ^ levelShift p.level

/-- The writes that wait for the zeros of a page walk again (R372). -/
def rewalk (s : State) (asid vpn : Nat) : State :=
  (s.tr.merges.filter fun e => match e.2.phase with
    | .zero _ => e.2.asid == asid && e.2.vpn == vpn
    | _ => false).foldl (fun s e => queueWalk s e.1 e.2) s

end Sys2Proof.Machine
end

