-- ==== Sys2Proof/Machine/Access.lean ====
section
/-! DEFINITION. Access.lean: the issue of a global access (R238 to R240), what it is inside a transaction or under a snapshot
(R228, R233, R234), its performance at a home (R219) and its return (R242, R243, R396). -/

namespace Sys2Proof.Machine

/-- The address of an access of n bytes, or the fault of R238 items 1 and 2. -/
def addrOf (ea : Int) (n : Nat) : Except (Nat × Nat) Nat :=
  if ea < 0 ∨ 2 ^ 57 ≤ ea then .error (0x08, wrap ea 57)
  else if ea.toNat % n ≠ 0 then .error (0x06, ea.toNat)
  else .ok ea.toNat

/-- The bundle's lanes whose translation is missing: thread, address, and where their merge entry starts. -/
def missing (s : State) (w : WordSpec) (a : Acc) (n : Nat) (ea : Thread → Int) (ks : List Nat) : List (Nat × Nat × MergePhase) :=
  ks.filterMap fun k => (getThread s k).bind fun t =>
    if ready s w t then match addrOf (ea t) n with
      | .error _ => none
      | .ok va => match xlate s k t a (gridOf s t).asid va with
        | .miss => some (k, va, .queued)
        | .zeroMiss l => some (k, va, .zero l)
        | _ => none
    else none

/-- One lane's miss joins the merge table. -/
def joinLane (a : Acc) (fpc : Word) (s : State) (m : Nat × Nat × MergePhase) : State :=
  match getThread s m.1 with
  | none => s
  | some t => laneMiss s m.1 (gridOf s t).asid m.2.1 a m.2.2 (.lane m.1 m.2.1 fpc)

/-- A global access in one lane: the faults of R238, then `body` with its address and translation. -/
def globalLane (a : Acc) (n : Nat) (ea : Thread → Int) (body : State → Nat → Thread → Nat → Leaf → LaneOut)
    (s : State) (k : Nat) (t : Thread) : LaneOut :=
  match addrOf (ea t) n with
  | .error (code, addr) => .fault code addr
  | .ok va => match xlate s k t a (gridOf s t).asid va with
    | .ok l => body (touchPage s k t (gridOf s t).asid va) k t va l
    | .prot => .fault 0x08 va
    | _ => .wait (setThread s k t)

/-- A word that accesses global memory: no lane goes on until every lane has its translation (R240, R368 to R370). -/
def globalWord (w : WordSpec) (a : Acc) (n : Nat) (ea : Thread → Int)
    (body : Ctx → Nat → State → Nat → Thread → Nat → Leaf → LaneOut) (s : State) : Host.Outcome State Fault Refusal :=
  issueGo w (fun c ks s =>
    match missing s w a n ea ks with
    | [] => let (wid, s) := fresh s
      laneLoop (laneStep w c (globalLane a n ea (body c wid))) s ks
    | ms => ms.foldl (joinLane a c.fpc) s) s

/-- A new operation of a thread. -/
def newOp (c : Ctx) (wid id : Nat) (t : Thread) (cnt : Cnt) (kind : OpKind) (va : Nat) (loc : Loc) (size : Nat) : Op :=
  { id := id, wid := wid, cnt := cnt, kind := kind, fpc := c.fpc, va := va, loc := loc, size := size
    cold := c.hint 3 == some 4, back := some (t.runPos, t.btag, t.tvalid) }

/-- An operation issued by a thread. -/
def issueOp (s : State) (k : Nat) (t : Thread) (o : Op) : State := setThread s k (addOp t o)

/-- Is a location one that has versions: a line of this package? (R233) -/
def versioned : Loc → Bool
  | .here _ => true
  | .window .. => true
  | _ => false

/-- S of the snapshot at which a thread's loads read, outside and inside transactions (R228, R234). -/
def readSnap (t : Thread) : Option Nat :=
  if 0 < t.tx.depth then (if t.tx.held then some t.tx.s else none)
  else match t.snap with
    | .off => none
    | .grid s => some s
    | .own s => some s

/-- Does the thread's next snapshot read fault with SNAP_REVOKED? (R232) -/
def revokedNow (t : Thread) : Bool := if 0 < t.tx.depth then t.tx.revoked else t.revoked

/-- The fault taken, the thread's loads read current versions (R232). -/
def clearRevoked (t : Thread) : Thread :=
  if 0 < t.tx.depth then { t with tx := { t.tx with revoked := false } } else { t with revoked := false }

/-- The bytes of a write set over those of memory. -/
def overlay (ws : Tab Byte) (pa : Nat) (base : List Byte) : List Byte := base.mapIdx fun i b => (tget ws (pa + i)).getD b

/-- A word changed (R234, R250). -/
def TxMod.apply (x : Nat) : TxMod → Nat
  | .add isInt y => if isInt then wrap (x + y.toNat) 32 else faddCode .fp32 .rne false x y.toNat
  | .put i b => leNat ((natLe 4 x).set i b)

/-- What the write set does to a word of memory with its RADDs (R234). -/
def Tx.wordMods (x : Tx) (w : Nat) : List TxMod := (tget x.adds w).getD []

/-- Does the write set hold a byte: has the transaction stored it? (R234) -/
def Tx.holds (x : Tx) (a : Nat) : Bool :=
  (tget x.ws a).isSome || (x.wordMods (a / 4)).any fun m => match m with
    | .put i _ => i == a % 4
    | _ => false

/-- The write set over the bytes of whole words of memory, lowest first. -/
def Tx.over (x : Tx) : Nat → Nat → List Byte → List Byte
  | 0, _, _ => []
  | n + 1, a, bs => natLe 4 ((x.wordMods (a / 4)).foldl TxMod.apply (leNat (overlay x.ws a (bs.take 4)))) ++ x.over n (a + 4) (bs.drop 4)

/-- `n` bytes as the write set leaves them over what stands in memory's words, from the word of their first byte on. -/
def Tx.value (x : Tx) (pa n : Nat) (bs : List Byte) : Nat :=
  leNat (((x.over ((pa % 4 + n + 3) / 4) (pa / 4 * 4) bs).drop (pa % 4)).take n)

/-- A read of `n` bytes in the view of a transaction by an agent of pts p: the bytes of its write set where they are all there,
else those over what a read at `S` gives (R228, R234). -/
def viewRead (s : State) (x : Tx) (zf : Bool) (S : Option Nat) (p pa n : Nat) : Ack × State :=
  let m := (pa % 4 + n + 3) / 4 * 4
  if (List.range n).all fun i => x.holds (pa + i) then ({ ts := p, value := x.value pa n (natLe m 0) }, s)
  else
    let (a, s) := readAt s zf S p (pa / 4 * 4) m
    ({ a with value := x.value pa n (natLe m a.value) }, s)

/-- The view of a transaction: its write set, else the snapshot at S, else, once revoked, the current version (R234). -/
def txView (s : State) (t : Thread) (pa n : Nat) (zf : Bool) : Ack × State := viewRead s t.tx zf (readSnap t) t.pts pa n

/-- Lines of a write set, in ascending address (R234, R235). -/
def Tx.lines (x : Tx) : List Nat :=
  let l : List Nat := x.ws.map (fun e => e.1 / 128) ++ x.adds.map (fun e => e.1 / 32)
  l.dedup.insertionSort (· ≤ ·)

/-- Bytes entered in a write set. -/
def Tx.put : Tx → Nat → List Byte → Tx
  | x, _, [] => x
  | x, a, b :: bs =>
    Tx.put (if (tget x.adds (a / 4)).isSome then { x with adds := tset x.adds (a / 4) (x.wordMods (a / 4) ++ [.put (a % 4) b]) }
      else { x with ws := tset x.ws a b }) (a + 1) bs

/-- One element of a RADD entered in a write set: added to its bytes there, where it holds them all, else kept as an add. -/
def Tx.addWord (isInt : Bool) (x : Tx) (e : Nat × Word) : Tx :=
  if x.wordMods e.1 = [] ∧ (List.range 4).all fun i => x.holds (4 * e.1 + i) then
    x.put (4 * e.1) (natLe 4 (TxMod.apply (x.value (4 * e.1) 4 (natLe 4 0)) (.add isInt e.2)))
  else { x with adds := tset x.adds e.1 (x.wordMods e.1 ++ [.add isInt e.2]) }

/-- A write of a transaction body to a line: entered in the write set by `f`, dropped after an abort; a 65th line aborts with
CAPACITY (R234). -/
def enterLine (t : Thread) (ln : Nat) (f : Tx → Tx) : Thread :=
  if t.tx.active = false then t
  else if t.tx.lines.contains ln ∨ t.tx.lines.length < Config.writeSetLines then { t with tx := f t.tx }
  else abortTx t 2

/-- Bytes written by a transaction body (R234). -/
def enterWs (t : Thread) (pa : Nat) (bs : List Byte) : Thread := enterLine t (pa / 128) fun x => x.put pa bs

/-- A RADD of a transaction body (R234). -/
def enterRadd (t : Thread) (pa : Nat) (k : RaddKind) (x : Nat) : Thread :=
  enterLine t (pa / 128) fun tx =>
    ((raddElems k pa x).map fun e => (pa / 128 * 32 + e.1, e.2)).foldl (Tx.addWord (raddInt k)) tx

/-- An access of a body to a line that R233 excludes: the transaction aborts with REMOTE (R234). -/
def remoteAbort (t : Thread) : Thread := abortTx t 3

/-- What an access leaves; where it prefers the second tier, it is not counted for migration (R195, R374). -/
def uncounted (cold : Bool) (before after : State) : State :=
  if cold then { after with mm := { after.mm with fills := before.mm.fills } } else after

/-- The issue of a load (R243, R228, R234): a body's load of a versioned line reads its view at once; a snapshot's load is
performed later, at S; a load that R233 excludes reads the current value, and sets SNAPX once it has it. -/
def issueLoad (s : State) (k : Nat) (t : Thread) (o : Op) : LaneOut :=
  let body := decide (0 < t.tx.depth)
  let rs := readSnap t
  if revokedNow t && versioned o.loc then .faultIn (setThread s k (clearRevoked t)) 0x11 o.va
  else
    let excluded := (body || rs.isSome) && !versioned o.loc
    let t := if excluded && body then remoteAbort t else t
    let o := { o with excl := excluded }
    match o.loc with
    | .here pa =>
      if body then
        let (a, s') := txView s t pa o.size o.zf
        let s := uncounted o.cold s s'
        .ok (issueOp s k { t with pts := max t.pts a.ts }
          { o with inTx := true, performed := true, visible := true, value := a.value, poisoned := a.poison })
      else .ok (issueOp s k t { o with snap := rs })
    | .window .. => .ok (issueOp s k t { o with snap := rs, inTx := body })
    | _ => .ok (issueOp s k t { o with inTx := body })

/-- The issue of a store of `x`; in a body it is counted on st, and enters the write set or aborts (R234, R244, R395). -/
def issueStore (s : State) (k : Nat) (t : Thread) (o : Op) (x : Nat) : LaneOut :=
  if 0 < t.tx.depth then
    match o.loc with
    | .here pa => .ok (setThread s k (addDone (enterWs t pa (natLe o.size x)) o.id .st))
    | _ => .ok (setThread s k (addDone (remoteAbort t) o.id .st))
  else .ok (issueOp s k t o)

/-- The issue of an atomic or CAS (R247 to R249): in a body its old value comes from the transaction's view and its write is
entered in the write set; on a line that R233 excludes the body aborts and only reads. -/
def issueRmw (s : State) (k : Nat) (t : Thread) (o : Op) (f : Rmw) (x : Nat) : LaneOut :=
  if 0 < t.tx.depth then
    match o.loc with
    | .here pa =>
      let (a, s') := txView s t pa o.size o.zf
      let s := uncounted o.cold s s'
      let t := if a.poison ∨ f.writes a.value = false then t else enterWs t pa (natLe o.size (f.apply a.value x))
      .ok (issueOp s k { t with pts := max t.pts a.ts }
        { o with inTx := true, performed := true, visible := true, value := a.value, poisoned := a.poison })
    | _ => .ok (issueOp s k (remoteAbort t) { o with kind := .load (if o.size = 8 then .w64 else .w32), inTx := true })
  else .ok (issueOp s k t o)

/-- The issue of a RADD (R250); in a body as a store. -/
def issueRadd (s : State) (k : Nat) (t : Thread) (o : Op) (f : RaddKind) (x : Nat) : LaneOut :=
  if 0 < t.tx.depth then
    match o.loc with
    | .here pa => .ok (setThread s k (addDone (enterRadd t pa f x) o.id .st))
    | _ => .ok (setThread s k (addDone (remoteAbort t) o.id .st))
  else .ok (issueOp s k t o)

/-- The line of a location, as HOME_ACCESS names it: by physical address, or by virtual address with a mark for a line of
another package and for a gather window. -/
def lineOf : Loc → Nat
  | .here pa => pa / 128
  | .host pa => pa / 128
  | .remote _ _ va => 2 ^ 51 + va / 128
  | .window _ va => 2 ^ 52 + va / 128

/-- Is an operation a global access that takes a stamp? -/
def takesStamp (o : Op) : Bool :=
  match o.kind with
  | .load _ | .store _ | .rmw _ _ | .radd _ _ | .chain _ => true
  | _ => false

/-- Are the accesses of a thread before operation `id` performed? Snapshot reads hold nothing and wait for nothing (R218,
R228). -/
def earlierDone (t : Thread) (id : Nat) : Bool :=
  (t.ops.takeWhile fun o => o.id != id).all fun o => !takesStamp o || o.performed || o.snap.isSome

/-- The unperformed operations of a word to a line that `f` selects, by thread in ascending home lane (R240). -/
def wordOps (s : State) (wid line : Nat) (f : Op → Bool) : List (Nat × Op) :=
  let l := s.ex.threads.flatMap fun e =>
    (e.2.ops.filter fun o => o.wid == wid && lineOf o.loc == line && !o.performed && f o).map fun o => (e.1, o)
  (List.range 64).flatMap fun h => l.filter fun e => e.1 % 64 == h

/-- May the operations be performed now? -/
def mayPerform (s : State) (l : List (Nat × Op)) : Bool :=
  l.all fun e => match getThread s e.1 with
    | some t => e.2.snap.isSome || earlierDone t e.2.id
    | none => false

/-- One operation performed: its stamp, value and poison; the thread's pts follows, but for a snapshot read, and SNAPX is set
where a snapshot's read returns the current value of a line that R233 excludes (R84, R219, R228). -/
def performed (s : State) (k id : Nat) (snap : Bool) (a : Ack) : State :=
  modThread s k fun t =>
    { modOp t id (fun o => { o with performed := true, visible := true, value := a.value, poisoned := a.poison }) with
      pts := if snap then t.pts else max t.pts a.ts
      snapx := t.snapx || (!a.poison && (findOp t id).any (·.excl)) }

/-- A load served from the core's L1 copy, where the lease allows (R219). -/
def l1Load (s : State) (core : Nat) (p pa n : Nat) : Option Ack :=
  match tget s.mm.l1 (core * 2 ^ 41 + pa / 128) with
  | none => none
  | some c => if p ≤ c.rts then some { ts := max p c.wts, value := leNat ((c.data.drop (pa % 128)).take n) } else none

/-- A copy of a line granted to a core's L1 (R219). -/
def l1Fill (s : State) (core pa : Nat) : State :=
  let l := getLine s (pa / 128)
  if l.poison then s
  else
    let c : Copy := { wts := l.wts, rts := l.rts, data := mread s.mm.mem (pa / 128 * 128) 128 }
    { s with mm := { s.mm with l1 := tset s.mm.l1 (core * 2 ^ 41 + pa / 128) c } }

/-- One operation of a line of this package performed at its home, a load from the L1 where `viaL1` and the lease allow
(R219, R240). An L1 takes copies of lines homed on its own package: DESIGN CHOICE, those of lines homed on another package
stay with that package (R202; notes/assumptions/15.md). -/
def performHere (viaL1 : Bool) (s : State) (e : Nat × Op) : State :=
  match getThread s e.1, e.2.loc with
  | some t, .here pa =>
    let o := e.2
    let core := coreOf e.1
    uncounted o.cold s <| match o.kind with
    | .load _ =>
      if o.zf || o.snap.isSome then
        let (a, s) := readAt s o.zf o.snap t.pts pa o.size
        performed s e.1 o.id o.snap.isSome a
      else match (if viaL1 then l1Load s core t.pts pa o.size else none) with
        | some a => performed s e.1 o.id false a
        | none => let (a, s) := loadAt s t.pts pa o.size
          performed (if viaL1 then l1Fill s core pa else s) e.1 o.id false a
    | .store x => let (ts, s) := writeAt s t.pts pa (natLe o.size x)
      performed s e.1 o.id false { ts := ts }
    | .rmw f x => let (a, s) := rmwAt s t.pts pa o.size f x
      performed s e.1 o.id false a
    | _ => s
  | _, _ => s

/-- A load's value as it is written to D (R243). -/
def loadSpan (f : LoadForm) (v : Nat) : List Word :=
  match f with
  | .n8 => [BitVec.ofNat 32 (v % 256)]
  | .i8 => [BitVec.ofInt 32 (sext v 8)]
  | .n16 => [BitVec.ofNat 32 (v % 65536)]
  | .i16 => [BitVec.ofInt 32 (sext v 16)]
  | .w32 => [BitVec.ofNat 32 v]
  | .w64 => natSpan 2 v
  | .w128 => natSpan 4 v

/-- What an operation writes to its destination. -/
def resultSpan (o : Op) : List Word :=
  match o.kind with
  | .load f => loadSpan f o.value
  | _ => natSpan o.dlen o.value

/-- A destination written by an operation; one issued before a handler was entered writes the frame's temporaries (R380). -/
def writeDest (t : Thread) (o : Op) (l : List Word) : Thread :=
  match t.frame with
  | some f =>
    if 120 ≤ o.dest ∧ o.id < f.since then
      { t with frame := some { f with
          ts := f.ts.mapIdx fun i x => if o.dest - 120 ≤ i then (l[i - (o.dest - 120)]?).getD x else x
          tvalid := (List.range l.length).foldl (fun v i => tset v (o.dest + i) true) f.tvalid } }
    else writeSpan t o.dest l
  | none => writeSpan t o.dest l

/-- A destination marked poisoned or denied (R242, R301): nothing of it is written, and no validity bit changes (R51). The marks
stand in the order of issue, in which WAIT looks for the first (R398). -/
def markDest (t : Thread) (o : Op) : Thread :=
  let b : Bad := { id := o.id, seq := o.seq, cnt := o.cnt, dest := o.dest, dlen := o.dlen, addr := o.va, prot := o.prot }
  { t with bad := (t.bad.takeWhile fun x => decide (x.id < b.id)) ++ b :: t.bad.dropWhile fun x => decide (x.id < b.id) }

/-- An operation of the thread returns: D is written, or marked poisoned or denied (R242, R301), and the counter retires
what it can (R396). -/
def returnOp (t : Thread) (o : Op) : Thread :=
  let t := if o.poisoned ∨ o.prot then markDest t o else writeDest t o (resultSpan o)
  retire (modOp t o.id fun o => { o with complete := true })

/-- An operation that writes no register has been accepted (R244, R396). -/
def acceptOp (s : State) (k id : Nat) : State := modThread s k fun t => retire (modOp t id fun o => { o with complete := true })

end Sys2Proof.Machine
end

