-- ==== Sys2Proof/WellFormed.lean ====
section
/-! DEFINITION. WellFormed.lean: what the type of instructions does not already say of their fields: the combinations
that the opcode map reserves (R62, R112, R182), and the ranges of the numbers that name parts of the package (R13 to
R16). -/

namespace Sys2Proof

/-- A word of code: a hint, or an instruction (R54). -/
inductive CodeWord where
  | hint (h : Hint)
  | instr (i : Instr)
  deriving DecidableEq, Repr

/-- A frame whose fields fit their widths (R309, R310). -/
def Frame.WellFormed (f : Frame) : Prop :=
  f.dpkg < 2 ^ 13 ∧ f.spkg < 2 ^ 13 ∧ f.cls < 4 ∧ f.entropy < 2 ^ 8 ∧ f.stamp < 2 ^ 64 ∧ f.addr < 2 ^ 57 ∧
  f.asid < 2 ^ 12 ∧ f.tag < 2 ^ 16 ∧ f.ack < 4 ∧ f.op < 2 ^ 8 ∧ f.subop < 2 ^ 8 ∧ f.len < 2 ^ 16 ∧ f.rsv < 2 ^ 21

/-- The instructions that the opcode map gives, and the steps whose operands name parts that the package has. -/
def Instr.WellFormed : Instr → Prop
  | .movsr _ n => n.toNat < 22
  | .pcomb c _ _ _ pb => c = .not → pb = 0
  | .xfer _ ps neg => ¬ (ps = 0 ∧ neg = true)
  | .xferCall _ ps neg => ¬ (ps = 0 ∧ neg = true)
  | .xferRet _ ps neg => ¬ (ps = 0 ∧ neg = true)
  | .formBundle core port => core < 256 ∧ port < 4
  | .slotBind slot => slot < 128
  | .slotUnbind slot => slot < 128
  | .entryTake slot => slot < 128
  | .entryWaitPoll slot => slot < 128
  | .entryHandOn slot => slot < 128
  | .graphStart slot => slot < 128
  | .faultRecordWrite die => die < 4
  | .walkComplete die w => die < 4 ∧ w.entry < 1024
  | .zeroFillFirstWrite die entry => die < 4 ∧ entry < 1024
  | .privetSlot recs => recs.length ≤ 4
  | .kolozRead port f => port < 32 ∧ f.WellFormed
  | .kolozWrite port f => port < 32 ∧ f.WellFormed
  | .kolozAtomic port f => port < 32 ∧ f.WellFormed
  | .kolozRadd port f => port < 32 ∧ f.WellFormed
  | .kolozChain port f => port < 32 ∧ f.WellFormed
  | .kolozRflush port f => port < 32 ∧ f.WellFormed
  | .kolozColl port f => port < 32 ∧ f.WellFormed
  | .kolozMgmt port f => port < 32 ∧ f.WellFormed
  | .kolozData port f => port < 32 ∧ f.WellFormed
  | .kolozAck port f => port < 32 ∧ f.WellFormed
  | .kolozRefused port f => port < 32 ∧ f.WellFormed
  | _ => True

end Sys2Proof
end

