-- ==== Sys2Proof/Decode.lean ====
section
/-! DEFINITION. Decode.lean: from a 32-bit word to a hint or an instruction, or a refusal by name (every word that the
opcode map does not list faults with ILLEGAL_OP, R59), and the encoder, written from the same rows. -/

namespace Sys2Proof

/-- The code of a value of `SatMode`. MOD of IADD and ISUB (R60, R93). -/
def SatMode.code : SatMode → BitVec 3
  | .wrap => 0
  | .sati => 1
  | .satn => 2

/-- The value of `SatMode` with a code; none where the code is reserved. -/
def SatMode.ofCode? (c : BitVec 3) : Option SatMode :=
  match c.toNat with
  | 0 => Option.some .wrap
  | 1 => Option.some .sati
  | 2 => Option.some .satn
  | _ => Option.none

/-- The code of a value of `MulMode`. MOD of IMUL (R60, R94). -/
def MulMode.code : MulMode → BitVec 3
  | .lo => 0
  | .hiI => 1
  | .hiN => 2

/-- The value of `MulMode` with a code; none where the code is reserved. -/
def MulMode.ofCode? (c : BitVec 3) : Option MulMode :=
  match c.toNat with
  | 0 => Option.some .lo
  | 1 => Option.some .hiI
  | 2 => Option.some .hiN
  | _ => Option.none

/-- The code of a value of `Sgn`. Signedness .i or .n of IMIN, IMAX, IABSD and of .i32/.n32 of ICVF (R60, R63). -/
def Sgn.code : Sgn → BitVec 3
  | .i => 0
  | .n => 1

/-- The value of `Sgn` with a code; none where the code is reserved. -/
def Sgn.ofCode? (c : BitVec 3) : Option Sgn :=
  match c.toNat with
  | 0 => Option.some .i
  | 1 => Option.some .n
  | _ => Option.none

/-- The code of a value of `ExtMode`. MOD of FEXT: .n fills with zeros, .i with the sign (R60, R99). -/
def ExtMode.code : ExtMode → BitVec 3
  | .n => 0
  | .i => 1

/-- The value of `ExtMode` with a code; none where the code is reserved. -/
def ExtMode.ofCode? (c : BitVec 3) : Option ExtMode :=
  match c.toNat with
  | 0 => Option.some .n
  | 1 => Option.some .i
  | _ => Option.none

/-- The code of a value of `ShrMode`. MOD of SHR (R60, R97). -/
def ShrMode.code : ShrMode → BitVec 3
  | .logical => 0
  | .arith => 1

/-- The value of `ShrMode` with a code; none where the code is reserved. -/
def ShrMode.ofCode? (c : BitVec 3) : Option ShrMode :=
  match c.toNat with
  | 0 => Option.some .logical
  | 1 => Option.some .arith
  | _ => Option.none

/-- The code of a value of `MovWidth`. MOD of MOV: word, pair, quad (R61, R105). -/
def MovWidth.code : MovWidth → BitVec 3
  | .w1 => 0
  | .w2 => 1
  | .w4 => 2

/-- The value of `MovWidth` with a code; none where the code is reserved. -/
def MovWidth.ofCode? (c : BitVec 3) : Option MovWidth :=
  match c.toNat with
  | 0 => Option.some .w1
  | 1 => Option.some .w2
  | 2 => Option.some .w4
  | _ => Option.none

/-- The code of a value of `Cond`. Condition of the integer compares (R65, R110). -/
def Cond.code : Cond → BitVec 3
  | .eq => 0
  | .ne => 1
  | .ltI => 2
  | .leI => 3
  | .ltN => 4
  | .leN => 5
  | .gtI => 6
  | .gtN => 7

/-- The value of `Cond` with a code; none where the code is reserved. -/
def Cond.ofCode? (c : BitVec 3) : Option Cond :=
  match c.toNat with
  | 0 => Option.some .eq
  | 1 => Option.some .ne
  | 2 => Option.some .ltI
  | 3 => Option.some .leI
  | 4 => Option.some .ltN
  | 5 => Option.some .leN
  | 6 => Option.some .gtI
  | _ => Option.some .gtN

/-- The code of a value of `FCond`. Condition of FCMP (R65, R111). -/
def FCond.code : FCond → BitVec 3
  | .eq => 0
  | .ne => 1
  | .lt => 2
  | .le => 3
  | .gt => 4
  | .ge => 5
  | .ord => 6
  | .unord => 7

/-- The value of `FCond` with a code; none where the code is reserved. -/
def FCond.ofCode? (c : BitVec 3) : Option FCond :=
  match c.toNat with
  | 0 => Option.some .eq
  | 1 => Option.some .ne
  | 2 => Option.some .lt
  | 3 => Option.some .le
  | 4 => Option.some .gt
  | 5 => Option.some .ge
  | 6 => Option.some .ord
  | _ => Option.some .unord

/-- The code of a value of `PCombOp`. MOD of PCOMB (R65, R112). -/
def PCombOp.code : PCombOp → BitVec 3
  | .and => 0
  | .or => 1
  | .xor => 2
  | .andn => 3
  | .not => 4

/-- The value of `PCombOp` with a code; none where the code is reserved. -/
def PCombOp.ofCode? (c : BitVec 3) : Option PCombOp :=
  match c.toNat with
  | 0 => Option.some .and
  | 1 => Option.some .or
  | 2 => Option.some .xor
  | 3 => Option.some .andn
  | 4 => Option.some .not
  | _ => Option.none

/-- The code of a value of `Rm`. Rounding mode (R25). -/
def Rm.code : Rm → BitVec 3
  | .rne => 0
  | .rz => 1
  | .rd => 2
  | .ru => 3
  | .rna => 4

/-- The value of `Rm` with a code; none where the code is reserved. -/
def Rm.ofCode? (c : BitVec 3) : Option Rm :=
  match c.toNat with
  | 0 => Option.some .rne
  | 1 => Option.some .rz
  | 2 => Option.some .rd
  | 3 => Option.some .ru
  | 4 => Option.some .rna
  | _ => Option.none

/-- The code of a value of `NanMode`. MOD of FMIN and FMAX (R63, R120). -/
def NanMode.code : NanMode → BitVec 3
  | .number => 0
  | .nan => 1

/-- The value of `NanMode` with a code; none where the code is reserved. -/
def NanMode.ofCode? (c : BitVec 3) : Option NanMode :=
  match c.toNat with
  | 0 => Option.some .number
  | 1 => Option.some .nan
  | _ => Option.none

/-- The code of a value of `FRoundMode`. MOD 100..111 of CLS 2 SUB 6, FROUND (R63, R122). -/
def FRoundMode.code : FRoundMode → BitVec 3
  | .rne => 4
  | .rz => 5
  | .rd => 6
  | .ru => 7

/-- The value of `FRoundMode` with a code; none where the code is reserved. -/
def FRoundMode.ofCode? (c : BitVec 3) : Option FRoundMode :=
  match c.toNat with
  | 4 => Option.some .rne
  | 5 => Option.some .rz
  | 6 => Option.some .rd
  | 7 => Option.some .ru
  | _ => Option.none

/-- The code of a value of `Pk`. Element format of the packed 16-bit words (R63). -/
def Pk.code : Pk → BitVec 3
  | .bf16 => 0
  | .f16 => 1

/-- The value of `Pk` with a code; none where the code is reserved. -/
def Pk.ofCode? (c : BitVec 3) : Option Pk :=
  match c.toNat with
  | 0 => Option.some .bf16
  | 1 => Option.some .f16
  | _ => Option.none

/-- The code of a value of `FcviMode`. MOD of FCVI: rounding in [1:0], .i32 or .n32 in [2] (R63, R130). -/
def FcviMode.code : FcviMode → BitVec 3
  | .rneI => 0
  | .rzI => 1
  | .rdI => 2
  | .ruI => 3
  | .rneN => 4
  | .rzN => 5
  | .rdN => 6
  | .ruN => 7

/-- The value of `FcviMode` with a code; none where the code is reserved. -/
def FcviMode.ofCode? (c : BitVec 3) : Option FcviMode :=
  match c.toNat with
  | 0 => Option.some .rneI
  | 1 => Option.some .rzI
  | 2 => Option.some .rdI
  | 3 => Option.some .ruI
  | 4 => Option.some .rneN
  | 5 => Option.some .rzN
  | 6 => Option.some .rdN
  | _ => Option.some .ruN

/-- The code of a value of `Pack16Mode`. MOD of PACK16 (R63, R132). -/
def Pack16Mode.code : Pack16Mode → BitVec 3
  | .bf16 => 0
  | .f16 => 1
  | .bf16Rz => 2
  | .f16Rz => 3
  | .bf16Sat => 4
  | .f16Sat => 5

/-- The value of `Pack16Mode` with a code; none where the code is reserved. -/
def Pack16Mode.ofCode? (c : BitVec 3) : Option Pack16Mode :=
  match c.toNat with
  | 0 => Option.some .bf16
  | 1 => Option.some .f16
  | 2 => Option.some .bf16Rz
  | 3 => Option.some .f16Rz
  | 4 => Option.some .bf16Sat
  | 5 => Option.some .f16Sat
  | _ => Option.none

/-- The code of a value of `Unpk16Mode`. MOD of UNPK16 (R63, R133). -/
def Unpk16Mode.code : Unpk16Mode → BitVec 3
  | .bf16Lo => 0
  | .bf16Hi => 1
  | .f16Lo => 2
  | .f16Hi => 3

/-- The value of `Unpk16Mode` with a code; none where the code is reserved. -/
def Unpk16Mode.ofCode? (c : BitVec 3) : Option Unpk16Mode :=
  match c.toNat with
  | 0 => Option.some .bf16Lo
  | 1 => Option.some .bf16Hi
  | 2 => Option.some .f16Lo
  | 3 => Option.some .f16Hi
  | _ => Option.none

/-- The code of a value of `IcviMode`. MOD of ICVI (R63, R134). -/
def IcviMode.code : IcviMode → BitVec 3
  | .i8 => 0
  | .n8 => 1
  | .i16 => 2
  | .n16 => 3
  | .satI8 => 4
  | .satN8 => 5
  | .satI16 => 6
  | .satN16 => 7

/-- The value of `IcviMode` with a code; none where the code is reserved. -/
def IcviMode.ofCode? (c : BitVec 3) : Option IcviMode :=
  match c.toNat with
  | 0 => Option.some .i8
  | 1 => Option.some .n8
  | 2 => Option.some .i16
  | 3 => Option.some .n16
  | 4 => Option.some .satI8
  | 5 => Option.some .satN8
  | 6 => Option.some .satI16
  | _ => Option.some .satN16

/-- The code of a value of `ShflMode`. MOD of SHFL (R64, R153). -/
def ShflMode.code : ShflMode → BitVec 3
  | .lane => 0
  | .below => 1
  | .above => 2
  | .flip => 3

/-- The value of `ShflMode` with a code; none where the code is reserved. -/
def ShflMode.ofCode? (c : BitVec 3) : Option ShflMode :=
  match c.toNat with
  | 0 => Option.some .lane
  | 1 => Option.some .below
  | 2 => Option.some .above
  | 3 => Option.some .flip
  | _ => Option.none

/-- The code of a value of `GpollMode`. MOD of GPOLL (R64, R155). -/
def GpollMode.code : GpollMode → BitVec 3
  | .some => 0
  | .every => 1
  | .mask => 2
  | .same => 3

/-- The value of `GpollMode` with a code; none where the code is reserved. -/
def GpollMode.ofCode? (c : BitVec 3) : Option GpollMode :=
  match c.toNat with
  | 0 => Option.some .some
  | 1 => Option.some .every
  | 2 => Option.some .mask
  | 3 => Option.some .same
  | _ => Option.none

/-- The code of a value of `IredOp`. MOD of IRED (R64, R156). -/
def IredOp.code : IredOp → BitVec 3
  | .add => 0
  | .minI => 1
  | .maxI => 2
  | .minN => 3
  | .maxN => 4
  | .and => 5
  | .or => 6
  | .xor => 7

/-- The value of `IredOp` with a code; none where the code is reserved. -/
def IredOp.ofCode? (c : BitVec 3) : Option IredOp :=
  match c.toNat with
  | 0 => Option.some .add
  | 1 => Option.some .minI
  | 2 => Option.some .maxI
  | 3 => Option.some .minN
  | 4 => Option.some .maxN
  | 5 => Option.some .and
  | 6 => Option.some .or
  | _ => Option.some .xor

/-- The code of a value of `FredOp`. MOD of FRED and MOD[1:0] of FSCAN (R64, R157). -/
def FredOp.code : FredOp → BitVec 3
  | .add => 0
  | .min => 1
  | .max => 2

/-- The value of `FredOp` with a code; none where the code is reserved. -/
def FredOp.ofCode? (c : BitVec 3) : Option FredOp :=
  match c.toNat with
  | 0 => Option.some .add
  | 1 => Option.some .min
  | 2 => Option.some .max
  | _ => Option.none

/-- The code of a value of `FscanOp`. MOD[1:0] of FSCAN (R64, R158). -/
def FscanOp.code : FscanOp → BitVec 2
  | .add => 0
  | .min => 1
  | .max => 2

/-- The value of `FscanOp` with a code; none where the code is reserved. -/
def FscanOp.ofCode? (c : BitVec 2) : Option FscanOp :=
  match c.toNat with
  | 0 => Option.some .add
  | 1 => Option.some .min
  | 2 => Option.some .max
  | _ => Option.none

/-- The code of a value of `IscanOp`. MOD[1:0] of ISCAN (R64, R156). -/
def IscanOp.code : IscanOp → BitVec 2
  | .add => 0
  | .maxI => 1
  | .minI => 2
  | .or => 3

/-- The value of `IscanOp` with a code; none where the code is reserved. -/
def IscanOp.ofCode? (c : BitVec 2) : Option IscanOp :=
  match c.toNat with
  | 0 => Option.some .add
  | 1 => Option.some .maxI
  | 2 => Option.some .minI
  | _ => Option.some .or

/-- The code of a value of `DdxMode`. MOD of DDX (R64, R160). -/
def DdxMode.code : DdxMode → BitVec 3
  | .cx => 0
  | .cy => 1
  | .fx => 2
  | .fy => 3

/-- The value of `DdxMode` with a code; none where the code is reserved. -/
def DdxMode.ofCode? (c : BitVec 3) : Option DdxMode :=
  match c.toNat with
  | 0 => Option.some .cx
  | 1 => Option.some .cy
  | 2 => Option.some .fx
  | 3 => Option.some .fy
  | _ => Option.none

/-- The code of a value of `CompactW`. MOD of COMPACT: the field width (R64, R159). -/
def CompactW.code : CompactW → BitVec 3
  | .w8 => 0
  | .w16 => 1
  | .w24 => 2
  | .w32 => 3

/-- The value of `CompactW` with a code; none where the code is reserved. -/
def CompactW.ofCode? (c : BitVec 3) : Option CompactW :=
  match c.toNat with
  | 0 => Option.some .w8
  | 1 => Option.some .w16
  | 2 => Option.some .w24
  | 3 => Option.some .w32
  | _ => Option.none

/-- The code of a value of `AtomOp`. MOD of ATOM and ATOMS (R67, R247). -/
def AtomOp.code : AtomOp → BitVec 3
  | .add => 0
  | .minI => 1
  | .maxI => 2
  | .minN => 3
  | .maxN => 4
  | .and => 5
  | .or => 6
  | .xchg => 7

/-- The value of `AtomOp` with a code; none where the code is reserved. -/
def AtomOp.ofCode? (c : BitVec 3) : Option AtomOp :=
  match c.toNat with
  | 0 => Option.some .add
  | 1 => Option.some .minI
  | 2 => Option.some .maxI
  | 3 => Option.some .minN
  | 4 => Option.some .maxN
  | 5 => Option.some .and
  | 6 => Option.some .or
  | _ => Option.some .xchg

/-- The code of a value of `Atom64Op`. MOD of ATOM64 (R67, R247). -/
def Atom64Op.code : Atom64Op → BitVec 3
  | .add => 0
  | .minN => 1
  | .maxN => 2
  | .xchg => 3
  | .and => 4
  | .or => 5

/-- The value of `Atom64Op` with a code; none where the code is reserved. -/
def Atom64Op.ofCode? (c : BitVec 3) : Option Atom64Op :=
  match c.toNat with
  | 0 => Option.some .add
  | 1 => Option.some .minN
  | 2 => Option.some .maxN
  | 3 => Option.some .xchg
  | 4 => Option.some .and
  | 5 => Option.some .or
  | _ => Option.none

/-- The code of a value of `AtomfOp`. MOD of ATOMF (R67, R247). -/
def AtomfOp.code : AtomfOp → BitVec 3
  | .add => 0
  | .min => 1
  | .max => 2

/-- The value of `AtomfOp` with a code; none where the code is reserved. -/
def AtomfOp.ofCode? (c : BitVec 3) : Option AtomfOp :=
  match c.toNat with
  | 0 => Option.some .add
  | 1 => Option.some .min
  | 2 => Option.some .max
  | _ => Option.none

/-- The code of a value of `CasWidth`. MOD of CAS (R67, R248). -/
def CasWidth.code : CasWidth → BitVec 3
  | .w32 => 0
  | .w64 => 1

/-- The value of `CasWidth` with a code; none where the code is reserved. -/
def CasWidth.ofCode? (c : BitVec 3) : Option CasWidth :=
  match c.toNat with
  | 0 => Option.some .w32
  | 1 => Option.some .w64
  | _ => Option.none

/-- The code of a value of `RaddKind`. MOD of RADD (R67, R250). -/
def RaddKind.code : RaddKind → BitVec 3
  | .f32 => 0
  | .f32x2 => 1
  | .f32x4 => 2
  | .i32 => 3

/-- The value of `RaddKind` with a code; none where the code is reserved. -/
def RaddKind.ofCode? (c : BitVec 3) : Option RaddKind :=
  match c.toNat with
  | 0 => Option.some .f32
  | 1 => Option.some .f32x2
  | 2 => Option.some .f32x4
  | 3 => Option.some .i32
  | _ => Option.none

/-- The code of a value of `RflushScope`. MOD of RFLUSH (R67, R251). -/
def RflushScope.code : RflushScope → BitVec 3
  | .die => 0
  | .pkg => 1

/-- The value of `RflushScope` with a code; none where the code is reserved. -/
def RflushScope.ofCode? (c : BitVec 3) : Option RflushScope :=
  match c.toNat with
  | 0 => Option.some .die
  | 1 => Option.some .pkg
  | _ => Option.none

/-- The code of a value of `ChldFin`. Final action of CHLD (R67, R252). -/
def ChldFin.code : ChldFin → BitVec 3
  | .ld64 => 0
  | .ld32 => 1
  | .addr => 2
  | .add32 => 3

/-- The value of `ChldFin` with a code; none where the code is reserved. -/
def ChldFin.ofCode? (c : BitVec 3) : Option ChldFin :=
  match c.toNat with
  | 0 => Option.some .ld64
  | 1 => Option.some .ld32
  | 2 => Option.some .addr
  | 3 => Option.some .add32
  | _ => Option.none

/-- The code of a value of `TileEs`. Element size named by TLD and TST (R67, R350). -/
def TileEs.code : TileEs → BitVec 3
  | .b8 => 0
  | .b16 => 1
  | .b32 => 2

/-- The value of `TileEs` with a code; none where the code is reserved. -/
def TileEs.ofCode? (c : BitVec 3) : Option TileEs :=
  match c.toNat with
  | 0 => Option.some .b8
  | 1 => Option.some .b16
  | 2 => Option.some .b32
  | _ => Option.none

/-- The code of a value of `TldfForm`. Fragment form of TLDF (R67, R352). -/
def TldfForm.code : TldfForm → BitVec 3
  | .a => 0
  | .b => 1
  | .d => 2

/-- The value of `TldfForm` with a code; none where the code is reserved. -/
def TldfForm.ofCode? (c : BitVec 3) : Option TldfForm :=
  match c.toNat with
  | 0 => Option.some .a
  | 1 => Option.some .b
  | 2 => Option.some .d
  | _ => Option.none

/-- The code of a value of `BarScope`. SCOPE of BAR (R69, R399). -/
def BarScope.code : BarScope → BitVec 3
  | .team => 1
  | .cluster => 2

/-- The value of `BarScope` with a code; none where the code is reserved. -/
def BarScope.ofCode? (c : BitVec 3) : Option BarScope :=
  match c.toNat with
  | 1 => Option.some .team
  | 2 => Option.some .cluster
  | _ => Option.none

/-- The code of a value of `JobKind`. KIND of JOB (R69, R284). -/
def JobKind.code : JobKind → BitVec 3
  | .copy => 0
  | .sort => 1
  | .gatherbind => 2
  | .unbind => 3
  | .coll => 4
  | .ocomp => 5

/-- The value of `JobKind` with a code; none where the code is reserved. -/
def JobKind.ofCode? (c : BitVec 3) : Option JobKind :=
  match c.toNat with
  | 0 => Option.some .copy
  | 1 => Option.some .sort
  | 2 => Option.some .gatherbind
  | 3 => Option.some .unbind
  | 4 => Option.some .coll
  | 5 => Option.some .ocomp
  | _ => Option.none

/-- The code of a value of `FenceScope`. Scope of FENCE (R69, R267). -/
def FenceScope.code : FenceScope → BitVec 3
  | .tgt => 0
  | .sys => 1

/-- The value of `FenceScope` with a code; none where the code is reserved. -/
def FenceScope.ofCode? (c : BitVec 3) : Option FenceScope :=
  match c.toNat with
  | 0 => Option.some .tgt
  | 1 => Option.some .sys
  | _ => Option.none

/-- The code of a value of `IflushScope`. SCOPE of IFLUSH (R69, R190). -/
def IflushScope.code : IflushScope → BitVec 1
  | .own => 0
  | .core => 1

/-- The value of `IflushScope` with a code; none where the code is reserved. -/
def IflushScope.ofCode? (c : BitVec 1) : Option IflushScope :=
  match c.toNat with
  | 0 => Option.some .own
  | _ => Option.some .core

/-- The field of `n` bits whose lowest bit is bit `lo` of a word. -/
def fld (w : BitVec 32) (lo n : Nat) : BitVec n := w.extractLsb' lo n

/-- Why a word is not an instruction. Each of these is ILLEGAL_OP to the threads that reach the word (R59). -/
inductive DecodeError where
  | reservedClass    -- CLS 0xF
  | reservedSub      -- a reserved SUB or SYSOP operation
  | reservedMod      -- a reserved MOD, KIND or scope value
  | mustBeZero       -- a field that its row marks zero is nonzero
  | notP0            -- a transfer with PS = p0 and NEG = 1 (R182)
  | specialRegister  -- MOVSR of a reserved number (R62)
  | reservedHint     -- CLS 0xB with a reserved KIND (R54)
  | truncated        -- fewer than four bytes
  deriving DecidableEq, Repr


/-- Words of CLS 0x0 (R60). -/
def decodeClass0 (w : BitVec 32) : Except DecodeError Instr :=
  match (fld w 24 4).toNat with
  | 0 => (SatMode.ofCode? (fld w 21 3)).elim (.error .reservedMod) fun m => .ok (.iadd m (fld w 14 7) (fld w 7 7) (fld w 0 7))
  | 1 => (SatMode.ofCode? (fld w 21 3)).elim (.error .reservedMod) fun m => .ok (.isub m (fld w 14 7) (fld w 7 7) (fld w 0 7))
  | 2 => (MulMode.ofCode? (fld w 21 3)).elim (.error .reservedMod) fun m => .ok (.imul m (fld w 14 7) (fld w 7 7) (fld w 0 7))
  | 3 => (Sgn.ofCode? (fld w 21 3)).elim (.error .reservedMod) fun m => .ok (.imin m (fld w 14 7) (fld w 7 7) (fld w 0 7))
  | 4 => (Sgn.ofCode? (fld w 21 3)).elim (.error .reservedMod) fun m => .ok (.imax m (fld w 14 7) (fld w 7 7) (fld w 0 7))
  | 5 => (Sgn.ofCode? (fld w 21 3)).elim (.error .reservedMod) fun m => .ok (.iabsd m (fld w 14 7) (fld w 7 7) (fld w 0 7))
  | 6 => if fld w 21 3 = 0 then .ok (.and (fld w 14 7) (fld w 7 7) (fld w 0 7)) else .error .mustBeZero
  | 7 => if fld w 21 3 = 0 then .ok (.or (fld w 14 7) (fld w 7 7) (fld w 0 7)) else .error .mustBeZero
  | 8 => if fld w 21 3 = 0 then .ok (.xor (fld w 14 7) (fld w 7 7) (fld w 0 7)) else .error .mustBeZero
  | 9 => if fld w 21 3 = 0 then .ok (.andn (fld w 14 7) (fld w 7 7) (fld w 0 7)) else .error .mustBeZero
  | 10 => if fld w 21 3 = 0 then .ok (.shl (fld w 14 7) (fld w 7 7) (fld w 0 7)) else .error .mustBeZero
  | 11 => (ShrMode.ofCode? (fld w 21 3)).elim (.error .reservedMod) fun m => .ok (.shr m (fld w 14 7) (fld w 7 7) (fld w 0 7))
  | 12 => if fld w 21 3 = 0 then .ok (.rotl (fld w 14 7) (fld w 7 7) (fld w 0 7)) else .error .mustBeZero
  | 13 =>
    if fld w 21 3 = 0 then if fld w 0 7 = 0 then .ok (.bcnt (fld w 14 7) (fld w 7 7)) else .error .mustBeZero
    else     if fld w 21 3 = 1 then if fld w 0 7 = 0 then .ok (.clz (fld w 14 7) (fld w 7 7)) else .error .mustBeZero
    else     if fld w 21 3 = 2 then if fld w 0 7 = 0 then .ok (.ctz (fld w 14 7) (fld w 7 7)) else .error .mustBeZero
    else     if fld w 21 3 = 3 then if fld w 0 7 = 0 then .ok (.bitrev (fld w 14 7) (fld w 7 7)) else .error .mustBeZero
    else     if fld w 21 3 = 4 then if fld w 0 7 = 0 then .ok (.not (fld w 14 7) (fld w 7 7)) else .error .mustBeZero
    else .error .reservedMod
  | 14 => (ExtMode.ofCode? (fld w 21 3)).elim (.error .reservedMod) fun m => .ok (.fext m (fld w 14 7) (fld w 7 7) (fld w 0 7))
  | _ => if fld w 21 3 = 0 then .ok (.fins (fld w 14 7) (fld w 7 7) (fld w 0 7)) else .error .mustBeZero

/-- Words of CLS 0x1 (R61). -/
def decodeClass1 (w : BitVec 32) : Except DecodeError Instr :=
  match (fld w 24 4).toNat with
  | 0 => if fld w 10 7 = 0 then .ok (.movi (fld w 17 7) (fld w 0 10)) else .error .mustBeZero
  | 1 => .ok (.iaddi (fld w 17 7) (fld w 10 7) (fld w 0 10))
  | 2 => .ok (.imuli (fld w 17 7) (fld w 10 7) (fld w 0 10))
  | 3 => .ok (.andi (fld w 17 7) (fld w 10 7) (fld w 0 10))
  | 4 => .ok (.ori (fld w 17 7) (fld w 10 7) (fld w 0 10))
  | 5 => .ok (.xori (fld w 17 7) (fld w 10 7) (fld w 0 10))
  | 6 => if fld w 5 5 = 0 then .ok (.shli (fld w 17 7) (fld w 10 7) (fld w 0 5)) else .error .mustBeZero
  | 7 => if fld w 5 5 = 0 then .ok (.shri (fld w 17 7) (fld w 10 7) (fld w 0 5)) else .error .mustBeZero
  | 8 => if fld w 5 5 = 0 then .ok (.sari (fld w 17 7) (fld w 10 7) (fld w 0 5)) else .error .mustBeZero
  | 9 => .ok (.add64i (fld w 17 7) (fld w 10 7) (fld w 0 10))
  | 10 => if fld w 21 3 = 0 then .ok (.add64 (fld w 14 7) (fld w 7 7) (fld w 0 7)) else .error .mustBeZero
  | 11 => .ok (.lea64 (fld w 21 3) (fld w 14 7) (fld w 7 7) (fld w 0 7))
  | 12 => if fld w 21 3 = 0 then .ok (.sub64 (fld w 14 7) (fld w 7 7) (fld w 0 7)) else .error .mustBeZero
  | 13 => if fld w 0 7 = 0 then (MovWidth.ofCode? (fld w 21 3)).elim (.error .reservedMod) fun m => .ok (.mov m (fld w 14 7) (fld w 7 7)) else .error .mustBeZero
  | 14 => if fld w 10 7 = 0 then if 22 ≤ (fld w 0 10).toNat then .error .specialRegister else .ok (.movsr (fld w 17 7) (fld w 0 10)) else .error .mustBeZero
  | _ => if fld w 10 7 = 0 ∧ fld w 6 4 = 0 then .ok (.movl (fld w 17 7) (fld w 0 6)) else .error .mustBeZero

/-- Words of CLS 0x5 (R65). -/
def decodeClass5 (w : BitVec 32) : Except DecodeError Instr :=
  match (fld w 24 4).toNat with
  | 0 => if fld w 17 1 = 0 then (Cond.ofCode? (fld w 21 3)).elim (.error .reservedMod) fun c => .ok (.icmp c (fld w 18 3) (fld w 14 3) (fld w 7 7) (fld w 0 7)) else .error .mustBeZero
  | 1 => if fld w 17 1 = 0 then (Cond.ofCode? (fld w 21 3)).elim (.error .reservedMod) fun c => .ok (.icmpi c (fld w 18 3) (fld w 14 3) (fld w 7 7) (fld w 0 7)) else .error .mustBeZero
  | 2 => if fld w 17 1 = 0 then (FCond.ofCode? (fld w 21 3)).elim (.error .reservedMod) fun c => .ok (.fcmp c (fld w 18 3) (fld w 14 3) (fld w 7 7) (fld w 0 7)) else .error .mustBeZero
  | 3 => if fld w 17 1 = 0 then (Cond.ofCode? (fld w 21 3)).elim (.error .reservedMod) fun c => .ok (.icmp64 c (fld w 18 3) (fld w 14 3) (fld w 7 7) (fld w 0 7)) else .error .mustBeZero
  | 4 => if fld w 17 1 = 0 ∧ fld w 10 4 = 0 ∧ fld w 3 4 = 0 then (PCombOp.ofCode? (fld w 21 3)).elim (.error .reservedMod) fun m => if m = .not ∧ fld w 0 3 ≠ 0 then .error .mustBeZero else .ok (.pcomb m (fld w 18 3) (fld w 14 3) (fld w 7 3) (fld w 0 3)) else .error .mustBeZero
  | 5 => if fld w 21 3 = 0 ∧ fld w 7 7 = 0 ∧ fld w 0 7 = 0 then .ok (.pget (fld w 14 7)) else .error .mustBeZero
  | 6 => if fld w 21 3 = 0 ∧ fld w 18 3 = 0 ∧ fld w 17 1 = 0 ∧ fld w 14 3 = 0 ∧ fld w 0 7 = 0 then .ok (.pset (fld w 7 7)) else .error .mustBeZero
  | 7 => .ok (.pick (fld w 21 3) (fld w 14 7) (fld w 7 7) (fld w 0 7))
  | _ => .error .reservedSub

/-- Words of CLS 0x2 (R63). -/
def decodeClass2 (w : BitVec 32) : Except DecodeError Instr :=
  match (fld w 24 4).toNat with
  | 0 => (Rm.ofCode? (fld w 21 3)).elim (.error .reservedMod) fun m => .ok (.fadd m (fld w 14 7) (fld w 7 7) (fld w 0 7))
  | 1 => (Rm.ofCode? (fld w 21 3)).elim (.error .reservedMod) fun m => .ok (.fsub m (fld w 14 7) (fld w 7 7) (fld w 0 7))
  | 2 => (Rm.ofCode? (fld w 21 3)).elim (.error .reservedMod) fun m => .ok (.fmul m (fld w 14 7) (fld w 7 7) (fld w 0 7))
  | 3 => (NanMode.ofCode? (fld w 21 3)).elim (.error .reservedMod) fun m => .ok (.fmin m (fld w 14 7) (fld w 7 7) (fld w 0 7))
  | 4 => (NanMode.ofCode? (fld w 21 3)).elim (.error .reservedMod) fun m => .ok (.fmax m (fld w 14 7) (fld w 7 7) (fld w 0 7))
  | 5 => (Rm.ofCode? (fld w 21 3)).elim (.error .reservedMod) fun m => .ok (.fdiv m (fld w 14 7) (fld w 7 7) (fld w 0 7))
  | 6 =>
    if fld w 21 3 = 0 then if fld w 0 7 = 0 then .ok (.fabs (fld w 14 7) (fld w 7 7)) else .error .mustBeZero
    else     if fld w 21 3 = 1 then if fld w 0 7 = 0 then .ok (.fneg (fld w 14 7) (fld w 7 7)) else .error .mustBeZero
    else     if fld w 21 3 = 2 then if fld w 0 7 = 0 then .ok (.fsat (fld w 14 7) (fld w 7 7)) else .error .mustBeZero
    else     if fld w 21 3 = 3 then if fld w 0 7 = 0 then .ok (.ffrac (fld w 14 7) (fld w 7 7)) else .error .mustBeZero
    else if fld w 0 7 = 0 then (FRoundMode.ofCode? (fld w 21 3)).elim (.error .reservedMod) fun m => .ok (.fround m (fld w 14 7) (fld w 7 7)) else .error .mustBeZero
  | 7 => if fld w 21 3 = 0 then .ok (.fcopys (fld w 14 7) (fld w 7 7) (fld w 0 7)) else .error .mustBeZero
  | 8 => (Rm.ofCode? (fld w 21 3)).elim (.error .reservedMod) fun m => .ok (.fldx m (fld w 14 7) (fld w 7 7) (fld w 0 7))
  | 9 => if fld w 21 3 = 0 ∧ fld w 0 7 = 0 then .ok (.fkind (fld w 14 7) (fld w 7 7)) else .error .mustBeZero
  | 10 => (Pk.ofCode? (fld w 21 3)).elim (.error .reservedMod) fun m => .ok (.padd m (fld w 14 7) (fld w 7 7) (fld w 0 7))
  | 11 => (Pk.ofCode? (fld w 21 3)).elim (.error .reservedMod) fun m => .ok (.pmul m (fld w 14 7) (fld w 7 7) (fld w 0 7))
  | 12 => (Pk.ofCode? (fld w 21 3)).elim (.error .reservedMod) fun m => .ok (.pmin m (fld w 14 7) (fld w 7 7) (fld w 0 7))
  | 13 => (Pk.ofCode? (fld w 21 3)).elim (.error .reservedMod) fun m => .ok (.pmax m (fld w 14 7) (fld w 7 7) (fld w 0 7))
  | 14 => (Pk.ofCode? (fld w 21 3)).elim (.error .reservedMod) fun m => .ok (.fdp2 m (fld w 14 7) (fld w 7 7) (fld w 0 7))
  | _ => .error .reservedSub

/-- Words of CLS 0x3 (R63). -/
def decodeClass3 (w : BitVec 32) : Except DecodeError Instr :=
  match (fld w 24 4).toNat with
  | 0 => if fld w 0 7 = 0 then (FcviMode.ofCode? (fld w 21 3)).elim (.error .reservedMod) fun m => .ok (.fcvi m (fld w 14 7) (fld w 7 7)) else .error .mustBeZero
  | 1 => if fld w 0 7 = 0 then (Sgn.ofCode? (fld w 21 3)).elim (.error .reservedMod) fun m => .ok (.icvf m (fld w 14 7) (fld w 7 7)) else .error .mustBeZero
  | 2 => (Pack16Mode.ofCode? (fld w 21 3)).elim (.error .reservedMod) fun m => .ok (.pack16 m (fld w 14 7) (fld w 7 7) (fld w 0 7))
  | 3 => if fld w 0 7 = 0 then (Unpk16Mode.ofCode? (fld w 21 3)).elim (.error .reservedMod) fun m => .ok (.unpk16 m (fld w 14 7) (fld w 7 7)) else .error .mustBeZero
  | 4 => .ok (.cvtn (fld w 21 3) (fld w 14 7) (fld w 7 7) (fld w 0 7))
  | 5 => .ok (.cvtw (fld w 21 3) (fld w 14 7) (fld w 7 7) (fld w 0 7))
  | 6 => if fld w 0 7 = 0 then .ok (.unpk3 (fld w 23 1 == 1) (fld w 21 2) (fld w 14 7) (fld w 7 7)) else .error .mustBeZero
  | 7 => if fld w 0 7 = 0 then .ok (.cbdec (fld w 21 3) (fld w 14 7) (fld w 7 7)) else .error .mustBeZero
  | 8 =>
    if fld w 21 3 = 0 then if fld w 0 7 = 0 then .ok (.recip (fld w 14 7) (fld w 7 7)) else .error .mustBeZero
    else     if fld w 21 3 = 1 then if fld w 0 7 = 0 then .ok (.rroot (fld w 14 7) (fld w 7 7)) else .error .mustBeZero
    else     if fld w 21 3 = 2 then if fld w 0 7 = 0 then .ok (.sqrt (fld w 14 7) (fld w 7 7)) else .error .mustBeZero
    else     if fld w 21 3 = 3 then if fld w 0 7 = 0 then .ok (.exp2 (fld w 14 7) (fld w 7 7)) else .error .mustBeZero
    else     if fld w 21 3 = 4 then if fld w 0 7 = 0 then .ok (.log2 (fld w 14 7) (fld w 7 7)) else .error .mustBeZero
    else     if fld w 21 3 = 5 then if fld w 0 7 = 0 then .ok (.tanh (fld w 14 7) (fld w 7 7)) else .error .mustBeZero
    else .error .reservedMod
  | 9 =>
    if fld w 21 3 = 0 then if fld w 0 7 = 0 then .ok (.sint (fld w 14 7) (fld w 7 7)) else .error .mustBeZero
    else     if fld w 21 3 = 1 then if fld w 0 7 = 0 then .ok (.cost (fld w 14 7) (fld w 7 7)) else .error .mustBeZero
    else .error .reservedMod
  | 10 => if fld w 0 7 = 0 then (IcviMode.ofCode? (fld w 21 3)).elim (.error .reservedMod) fun m => .ok (.icvi m (fld w 14 7) (fld w 7 7)) else .error .mustBeZero
  | 11 => if fld w 21 3 = 0 then .ok (.bsel (fld w 14 7) (fld w 7 7) (fld w 0 7)) else .error .mustBeZero
  | 12 => .ok (.dotb4 (fld w 23 1 == 1) (fld w 22 1 == 1) (fld w 21 1 == 1) (fld w 14 7) (fld w 7 7) (fld w 0 7))
  | 13 => if fld w 21 3 = 0 then .ok (.isgna (fld w 14 7) (fld w 7 7) (fld w 0 7)) else .error .mustBeZero
  | _ => .error .reservedSub

/-- Words of CLS 0x4 (R64). -/
def decodeClass4 (w : BitVec 32) : Except DecodeError Instr :=
  match (fld w 24 4).toNat with
  | 0 => (ShflMode.ofCode? (fld w 21 3)).elim (.error .reservedMod) fun m => .ok (.shfl m (fld w 14 7) (fld w 7 7) (fld w 0 7))
  | 1 => if fld w 0 7 = 0 then (GpollMode.ofCode? (fld w 21 3)).elim (.error .reservedMod) fun m => .ok (.gpoll m (fld w 14 7) (fld w 7 7)) else .error .mustBeZero
  | 2 => if fld w 0 7 = 0 then (IredOp.ofCode? (fld w 21 3)).elim (.error .reservedMod) fun m => .ok (.ired m (fld w 14 7) (fld w 7 7)) else .error .mustBeZero
  | 3 => if fld w 0 7 = 0 then (FredOp.ofCode? (fld w 21 3)).elim (.error .reservedMod) fun m => .ok (.fred m (fld w 14 7) (fld w 7 7)) else .error .mustBeZero
  | 4 => if fld w 0 7 = 0 then (IscanOp.ofCode? (fld w 21 2)).elim (.error .reservedMod) fun m => .ok (.iscan (fld w 23 1 == 1) m (fld w 14 7) (fld w 7 7)) else .error .mustBeZero
  | 5 => if fld w 0 7 = 0 then (FscanOp.ofCode? (fld w 21 2)).elim (.error .reservedMod) fun m => .ok (.fscan (fld w 23 1 == 1) m (fld w 14 7) (fld w 7 7)) else .error .mustBeZero
  | 6 => if fld w 21 3 = 0 ∧ fld w 0 7 = 0 then .ok (.peers (fld w 14 7) (fld w 7 7)) else .error .mustBeZero
  | 7 => if fld w 21 3 = 0 then .ok (.bcast (fld w 14 7) (fld w 7 7) (fld w 0 7)) else .error .mustBeZero
  | 8 => if fld w 21 3 = 0 ∧ fld w 7 7 = 0 ∧ fld w 0 7 = 0 then .ok (.leader (fld w 14 7)) else .error .mustBeZero
  | 9 => if fld w 0 7 = 0 then (DdxMode.ofCode? (fld w 21 3)).elim (.error .reservedMod) fun m => .ok (.ddx m (fld w 14 7) (fld w 7 7)) else .error .mustBeZero
  | 10 => if fld w 21 3 = 0 ∧ fld w 14 7 = 0 ∧ fld w 7 7 = 0 ∧ fld w 0 7 = 0 then .ok (.gjoin) else .error .mustBeZero
  | 11 => (CompactW.ofCode? (fld w 21 3)).elim (.error .reservedMod) fun m => .ok (.compact m (fld w 14 7) (fld w 7 7) (fld w 0 7))
  | _ => .error .reservedSub

/-- Words of CLS 0x6 (R66). -/
def decodeClass6 (w : BitVec 32) : Except DecodeError Instr :=
  match (fld w 24 4).toNat with
  | 0 => .ok (.ldN8 (fld w 21 3) (fld w 14 7) (fld w 7 7) (fld w 0 7))
  | 1 => .ok (.ldI8 (fld w 21 3) (fld w 14 7) (fld w 7 7) (fld w 0 7))
  | 2 => .ok (.ldN16 (fld w 21 3) (fld w 14 7) (fld w 7 7) (fld w 0 7))
  | 3 => .ok (.ldI16 (fld w 21 3) (fld w 14 7) (fld w 7 7) (fld w 0 7))
  | 4 => .ok (.ld32 (fld w 21 3) (fld w 14 7) (fld w 7 7) (fld w 0 7))
  | 5 => .ok (.ld64 (fld w 21 3) (fld w 14 7) (fld w 7 7) (fld w 0 7))
  | 6 => .ok (.ld128 (fld w 21 3) (fld w 14 7) (fld w 7 7) (fld w 0 7))
  | 7 => .ok (.st8 (fld w 21 3) (fld w 14 7) (fld w 7 7) (fld w 0 7))
  | 8 => .ok (.st16 (fld w 21 3) (fld w 14 7) (fld w 7 7) (fld w 0 7))
  | 9 => .ok (.st32 (fld w 21 3) (fld w 14 7) (fld w 7 7) (fld w 0 7))
  | 10 => .ok (.st64 (fld w 21 3) (fld w 14 7) (fld w 7 7) (fld w 0 7))
  | 11 => .ok (.st128 (fld w 21 3) (fld w 14 7) (fld w 7 7) (fld w 0 7))
  | 12 => .ok (.lds32 (fld w 21 3) (fld w 14 7) (fld w 7 7) (fld w 0 7))
  | 13 => .ok (.sts32 (fld w 21 3) (fld w 14 7) (fld w 7 7) (fld w 0 7))
  | 14 => .ok (.lds128 (fld w 21 3) (fld w 14 7) (fld w 7 7) (fld w 0 7))
  | _ => .ok (.sts128 (fld w 21 3) (fld w 14 7) (fld w 7 7) (fld w 0 7))

/-- Words of CLS 0x7 (R67). -/
def decodeClass7 (w : BitVec 32) : Except DecodeError Instr :=
  match (fld w 24 4).toNat with
  | 0 => (AtomOp.ofCode? (fld w 21 3)).elim (.error .reservedMod) fun m => .ok (.atom m (fld w 14 7) (fld w 7 7) (fld w 0 7))
  | 1 => (Atom64Op.ofCode? (fld w 21 3)).elim (.error .reservedMod) fun m => .ok (.atom64 m (fld w 14 7) (fld w 7 7) (fld w 0 7))
  | 2 => (AtomfOp.ofCode? (fld w 21 3)).elim (.error .reservedMod) fun m => .ok (.atomf m (fld w 14 7) (fld w 7 7) (fld w 0 7))
  | 3 => (CasWidth.ofCode? (fld w 21 3)).elim (.error .reservedMod) fun m => .ok (.cas m (fld w 14 7) (fld w 7 7) (fld w 0 7))
  | 4 => if fld w 14 7 = 0 then (RaddKind.ofCode? (fld w 21 3)).elim (.error .reservedMod) fun m => .ok (.radd m (fld w 7 7) (fld w 0 7)) else .error .mustBeZero
  | 5 => if fld w 14 7 = 0 ∧ fld w 7 7 = 0 ∧ fld w 0 7 = 0 then (RflushScope.ofCode? (fld w 21 3)).elim (.error .reservedMod) fun m => .ok (.rflush m) else .error .mustBeZero
  | 6 => (ChldFin.ofCode? (fld w 21 3)).elim (.error .reservedMod) fun m => .ok (.chld m (fld w 14 7) (fld w 7 7) (fld w 0 7))
  | 7 => if fld w 21 3 = 0 ∧ fld w 0 7 = 0 then .ok (.cld (fld w 14 7) (fld w 7 7)) else .error .mustBeZero
  | 8 => if fld w 21 3 = 0 ∧ fld w 14 7 = 0 then .ok (.cst (fld w 7 7) (fld w 0 7)) else .error .mustBeZero
  | 9 => if fld w 5 2 = 0 then (TileEs.ofCode? (fld w 21 3)).elim (.error .reservedMod) fun m => .ok (.tld m (fld w 14 7) (fld w 7 7) (fld w 0 5)) else .error .mustBeZero
  | 10 => if fld w 5 2 = 0 then (TileEs.ofCode? (fld w 21 3)).elim (.error .reservedMod) fun m => .ok (.tst m (fld w 14 7) (fld w 7 7) (fld w 0 5)) else .error .mustBeZero
  | 11 => if fld w 5 2 = 0 then (TldfForm.ofCode? (fld w 21 3)).elim (.error .reservedMod) fun m => .ok (.tldf m (fld w 14 7) (fld w 7 7) (fld w 0 5)) else .error .mustBeZero
  | 12 => if fld w 21 3 = 2 ∧ fld w 5 2 = 0 then .ok (.tstf (fld w 14 7) (fld w 7 7) (fld w 0 5)) else .error .mustBeZero
  | 13 =>
    if fld w 21 3 = 0 then if fld w 0 7 = 0 then .ok (.tctlMap (fld w 14 7) (fld w 7 7)) else .error .mustBeZero
    else     if fld w 21 3 = 1 then if fld w 14 7 = 0 ∧ fld w 7 7 = 0 ∧ fld w 5 2 = 0 then .ok (.tctlFill (fld w 0 5)) else .error .mustBeZero
    else     if fld w 21 3 = 2 then if fld w 14 7 = 0 ∧ fld w 7 7 = 0 ∧ fld w 5 2 = 0 then .ok (.tctlDrain (fld w 0 5)) else .error .mustBeZero
    else     if fld w 21 3 = 3 then if fld w 14 7 = 0 ∧ fld w 7 7 = 0 ∧ fld w 5 2 = 0 then .ok (.tctlFree (fld w 0 5)) else .error .mustBeZero
    else     if fld w 21 3 = 4 then if fld w 7 7 = 0 ∧ fld w 5 2 = 0 then .ok (.tctlQuery (fld w 14 7) (fld w 0 5)) else .error .mustBeZero
    else .error .reservedMod
  | 14 => (AtomOp.ofCode? (fld w 21 3)).elim (.error .reservedMod) fun m => .ok (.atoms m (fld w 14 7) (fld w 7 7) (fld w 0 7))
  | _ =>
    if fld w 21 3 = 0 then if fld w 0 7 = 0 then .ok (.barwArrive (fld w 14 7) (fld w 7 7)) else .error .mustBeZero
    else     if fld w 21 3 = 1 then if fld w 14 7 = 0 then .ok (.barwWait (fld w 7 7) (fld w 0 7)) else .error .mustBeZero
    else     if fld w 21 3 = 2 then if fld w 0 7 = 0 then .ok (.barwArriveWait (fld w 14 7) (fld w 7 7)) else .error .mustBeZero
    else     if fld w 21 3 = 3 then if fld w 14 7 = 0 then .ok (.barwInit (fld w 7 7) (fld w 0 7)) else .error .mustBeZero
    else .error .reservedMod

/-- Words of CLS 0x8 (R68). -/
def decodeClass8 (w : BitVec 32) : Except DecodeError Instr :=
  match (fld w 24 4).toNat with
  | 0 => .ok (.mma (fld w 21 3) (fld w 14 7) (fld w 7 7) (fld w 0 7))
  | 1 => .ok (.mmaU (fld w 21 3) (fld w 14 7) (fld w 7 7) (fld w 0 7))
  | 2 => .ok (.mmaSp (fld w 21 3) (fld w 14 7) (fld w 7 7) (fld w 0 7))
  | 3 => .ok (.mmaSpU (fld w 21 3) (fld w 14 7) (fld w 7 7) (fld w 0 7))
  | 4 => if fld w 0 7 = 0 then .ok (.cmprs (fld w 21 3) (fld w 14 7) (fld w 7 7)) else .error .mustBeZero
  | 5 => if fld w 21 3 = 0 then .ok (.spalpha (fld w 14 7) (fld w 7 7) (fld w 0 7)) else .error .mustBeZero
  | 6 => if fld w 21 3 = 0 then .ok (.spblend (fld w 14 7) (fld w 7 7) (fld w 0 7)) else .error .mustBeZero
  | 7 => if fld w 21 3 = 0 then .ok (.keypk (fld w 14 7) (fld w 7 7) (fld w 0 7)) else .error .mustBeZero
  | 8 => if fld w 21 3 = 0 then .ok (.triedge (fld w 14 7) (fld w 7 7) (fld w 0 7)) else .error .mustBeZero
  | _ => .error .reservedSub

/-- SYSOP words by their operation field (R385, R386). -/
def decodeSysop (w : BitVec 32) : Except DecodeError Instr :=
  if fld w 14 2 = 0 then
    match (fld w 16 8).toNat with
    | 1 => .ok (.thrclr (fld w 7 7) (fld w 0 7))
    | 2 => .ok (.thread (fld w 7 7) (fld w 0 7))
    | 3 => .ok (.gridend (fld w 7 7) (fld w 0 7))
    | 4 => .ok (.agemax (fld w 7 7) (fld w 0 7))
    | 5 => .ok (.laurelsz (fld w 7 7) (fld w 0 7))
    | 6 => .ok (.migth (fld w 7 7) (fld w 0 7))
    | 7 => .ok (.frameadd (fld w 7 7) (fld w 0 7))
    | 8 => .ok (.migrate (fld w 7 7) (fld w 0 7))
    | 9 => .ok (.root (fld w 7 7) (fld w 0 7))
    | 10 => .ok (.inval (fld w 7 7) (fld w 0 7))
    | 11 => .ok (.replay (fld w 7 7) (fld w 0 7))
    | 12 => .ok (.ringset (fld w 7 7) (fld w 0 7))
    | 13 => .ok (.queue (fld w 7 7) (fld w 0 7))
    | 14 => .ok (.release (fld w 7 7) (fld w 0 7))
    | 15 => .ok (.qpopen (fld w 7 7) (fld w 0 7))
    | 16 => .ok (.cgroup (fld w 7 7) (fld w 0 7))
    | 17 => .ok (.pkgset (fld w 7 7) (fld w 0 7))
    | 18 => .ok (.exportPage (fld w 7 7) (fld w 0 7))
    | 19 => .ok (.retire (fld w 7 7) (fld w 0 7))
    | 20 => .ok (.dbgmatch (fld w 7 7) (fld w 0 7))
    | 21 => .ok (.teamstop (fld w 7 7) (fld w 0 7))
    | 22 => .ok (.debug (fld w 7 7) (fld w 0 7))
    | 23 => .ok (.preempt (fld w 7 7) (fld w 0 7))
    | 24 => .ok (.restore (fld w 7 7) (fld w 0 7))
    | 25 => .ok (.boxread (fld w 7 7) (fld w 0 7))
    | _ => .error .reservedSub
  else .error .mustBeZero

/-- Words of CLS 0x9 (R69). -/
def decodeClass9 (w : BitVec 32) : Except DecodeError Instr :=
  match (fld w 24 4).toNat with
  | 0 => if fld w 0 4 = 0 then .ok (.wait (fld w 18 6) (fld w 12 6) (fld w 8 4) (fld w 4 4)) else .error .mustBeZero
  | 1 => if fld w 0 21 = 0 then (BarScope.ofCode? (fld w 21 3)).elim (.error .reservedMod) fun m => .ok (.bar m) else .error .mustBeZero
  | 2 => if fld w 14 7 = 0 ∧ fld w 0 7 = 0 then (JobKind.ofCode? (fld w 21 3)).elim (.error .reservedMod) fun k => .ok (.job k (fld w 7 7)) else .error .mustBeZero
  | 3 => if fld w 21 3 = 0 then .ok (.qpush (fld w 14 7) (fld w 7 7) (fld w 0 7)) else .error .mustBeZero
  | 4 => if fld w 0 24 = 0 then .ok (.txbegin) else .error .mustBeZero
  | 5 => if fld w 21 3 = 0 ∧ fld w 0 18 = 0 then .ok (.txcommit (fld w 18 3)) else .error .mustBeZero
  | 6 => if fld w 0 24 = 0 then .ok (.txabort) else .error .mustBeZero
  | 7 =>
    if fld w 23 1 = 0 then if fld w 0 23 = 0 then .ok (.snapOpen) else .error .mustBeZero
    else     if fld w 23 1 = 1 then if fld w 0 23 = 0 then .ok (.snapClose) else .error .mustBeZero
    else .error .reservedMod
  | 8 => if fld w 0 21 = 0 then (FenceScope.ofCode? (fld w 21 3)).elim (.error .reservedMod) fun m => .ok (.fence m) else .error .mustBeZero
  | 9 => if fld w 16 8 = 0 then .ok (.trap (fld w 0 16)) else .error .mustBeZero
  | 10 => if fld w 0 24 = 0 then .ok (.brkpt) else .error .mustBeZero
  | 11 => if fld w 0 24 = 0 then .ok (.yield) else .error .mustBeZero
  | 12 => if fld w 0 24 = 0 then .ok (.stop) else .error .mustBeZero
  | 13 => if fld w 0 23 = 0 then (IflushScope.ofCode? (fld w 23 1)).elim (.error .reservedMod) fun m => .ok (.iflush m) else .error .mustBeZero
  | 14 => decodeSysop w
  | _ => .error .reservedSub

/-- Words of CLS 0xa (R70). -/
def decodeClassA (w : BitVec 32) : Except DecodeError Instr :=
  match (fld w 24 4).toNat with
  | 0 => if fld w 17 4 = 0 then .ok (.prep (fld w 21 3) (fld w 0 17)) else .error .mustBeZero
  | 1 => if fld w 17 4 = 0 ∧ fld w 0 10 = 0 then .ok (.prepr (fld w 21 3) (fld w 10 7)) else .error .mustBeZero
  | 2 => if fld w 0 17 = 0 then if fld w 18 3 = 0 ∧ fld w 17 1 = 1 then .error .notP0 else .ok (.xfer (fld w 21 3) (fld w 18 3) (fld w 17 1 == 1)) else .error .mustBeZero
  | 3 => if fld w 0 17 = 0 then if fld w 18 3 = 0 ∧ fld w 17 1 = 1 then .error .notP0 else .ok (.xferCall (fld w 21 3) (fld w 18 3) (fld w 17 1 == 1)) else .error .mustBeZero
  | 4 => if fld w 0 17 = 0 then if fld w 18 3 = 0 ∧ fld w 17 1 = 1 then .error .notP0 else .ok (.xferRet (fld w 21 3) (fld w 18 3) (fld w 17 1 == 1)) else .error .mustBeZero
  | 5 => if fld w 18 3 = 0 ∧ fld w 17 1 = 0 ∧ fld w 13 4 = 0 ∧ fld w 0 10 = 0 then .ok (.bcopy (fld w 21 3) (fld w 10 3)) else .error .mustBeZero
  | 6 => if fld w 17 4 = 0 ∧ fld w 0 10 = 0 then .ok (.bload (fld w 21 3) (fld w 10 7)) else .error .mustBeZero
  | 7 => if fld w 0 21 = 0 then .ok (.binv (fld w 21 3)) else .error .mustBeZero
  | 8 => if fld w 17 4 = 0 ∧ fld w 0 10 = 0 then .ok (.xdec (fld w 21 3) (fld w 10 7)) else .error .mustBeZero
  | _ => .error .reservedSub

/-- The instruction of a word whose CLS is not 0xB. -/
def decodeInstr (w : BitVec 32) : Except DecodeError Instr :=
  match (fld w 28 4).toNat with
  | 0 => decodeClass0 w
  | 1 => decodeClass1 w
  | 2 => decodeClass2 w
  | 3 => decodeClass3 w
  | 4 => decodeClass4 w
  | 5 => decodeClass5 w
  | 6 => decodeClass6 w
  | 7 => decodeClass7 w
  | 8 => decodeClass8 w
  | 9 => decodeClass9 w
  | 10 => decodeClassA w
  | 12 => .ok (.fmac (fld w 21 7) (fld w 14 7) (fld w 7 7) (fld w 0 7))
  | 13 => .ok (.pmac (fld w 21 7) (fld w 14 7) (fld w 7 7) (fld w 0 7))
  | 14 => .ok (.imad (fld w 21 7) (fld w 14 7) (fld w 7 7) (fld w 0 7))
  | _ => .error .reservedClass

/-- The hint of a word of CLS 0xB: its kind and its payload (R54, R56). -/
def decodeHint (w : BitVec 32) : Except DecodeError Hint :=
  if (fld w 24 4).toNat < 6 then .ok ⟨fld w 24 4, fld w 0 24⟩ else .error .reservedHint

/-- What a word of code is: a hint, or an instruction. -/
def decodeWord (w : BitVec 32) : Except DecodeError CodeWord :=
  if fld w 28 4 = 0xB#4 then (decodeHint w).map .hint else (decodeInstr w).map .instr

/-- The word whose bytes stand in memory, lowest address first (R6, R46). -/
def wordOfBytes (b0 b1 b2 b3 : Byte) : BitVec 32 := b3 ++ b2 ++ b1 ++ b0

/-- The bytes of a word in memory order (R6). -/
def bytesOfWord (w : BitVec 32) : List Byte := [fld w 0 8, fld w 8 8, fld w 16 8, fld w 24 8]

/-- Decoding on bytes: the first word and the bytes after it. -/
def decode : List Byte → Except DecodeError (CodeWord × List Byte)
  | b0 :: b1 :: b2 :: b3 :: rest => (decodeWord (wordOfBytes b0 b1 b2 b3)).map (·, rest)
  | _ => .error .truncated

/-- The instruction that the decoder reads from the table's numbering of bits: an instruction is one word of 32 bits, so
bit 0 is the least significant bit of that word (R46, R48). -/
def decodeTableWord (_nbits w : Nat) : Option Instr :=
  match decode (bytesOfWord (BitVec.ofNat 32 w)) with
  | .ok (.instr i, _) => some i
  | _ => none


/-- The word of an instruction, field by field from the rows of the opcode map (R48, R60 to R71); none for a step
that has no word. -/
def encode : Instr → Option (BitVec 32)
  | .iadd m d a b => some (0#4 ++ 0#4 ++ m.code ++ d ++ a ++ b)
  | .isub m d a b => some (0#4 ++ 1#4 ++ m.code ++ d ++ a ++ b)
  | .imul m d a b => some (0#4 ++ 2#4 ++ m.code ++ d ++ a ++ b)
  | .imin m d a b => some (0#4 ++ 3#4 ++ m.code ++ d ++ a ++ b)
  | .imax m d a b => some (0#4 ++ 4#4 ++ m.code ++ d ++ a ++ b)
  | .iabsd m d a b => some (0#4 ++ 5#4 ++ m.code ++ d ++ a ++ b)
  | .and d a b => some (0#4 ++ 6#4 ++ 0#3 ++ d ++ a ++ b)
  | .or d a b => some (0#4 ++ 7#4 ++ 0#3 ++ d ++ a ++ b)
  | .xor d a b => some (0#4 ++ 8#4 ++ 0#3 ++ d ++ a ++ b)
  | .andn d a b => some (0#4 ++ 9#4 ++ 0#3 ++ d ++ a ++ b)
  | .shl d a b => some (0#4 ++ 10#4 ++ 0#3 ++ d ++ a ++ b)
  | .shr m d a b => some (0#4 ++ 11#4 ++ m.code ++ d ++ a ++ b)
  | .rotl d a b => some (0#4 ++ 12#4 ++ 0#3 ++ d ++ a ++ b)
  | .bcnt d a => some (0#4 ++ 13#4 ++ 0#3 ++ d ++ a ++ 0#7)
  | .clz d a => some (0#4 ++ 13#4 ++ 1#3 ++ d ++ a ++ 0#7)
  | .ctz d a => some (0#4 ++ 13#4 ++ 2#3 ++ d ++ a ++ 0#7)
  | .bitrev d a => some (0#4 ++ 13#4 ++ 3#3 ++ d ++ a ++ 0#7)
  | .not d a => some (0#4 ++ 13#4 ++ 4#3 ++ d ++ a ++ 0#7)
  | .fext m d a b => some (0#4 ++ 14#4 ++ m.code ++ d ++ a ++ b)
  | .fins d a b => some (0#4 ++ 15#4 ++ 0#3 ++ d ++ a ++ b)
  | .movi d imm => some (1#4 ++ 0#4 ++ d ++ 0#7 ++ imm)
  | .iaddi d a imm => some (1#4 ++ 1#4 ++ d ++ a ++ imm)
  | .imuli d a imm => some (1#4 ++ 2#4 ++ d ++ a ++ imm)
  | .andi d a imm => some (1#4 ++ 3#4 ++ d ++ a ++ imm)
  | .ori d a imm => some (1#4 ++ 4#4 ++ d ++ a ++ imm)
  | .xori d a imm => some (1#4 ++ 5#4 ++ d ++ a ++ imm)
  | .shli d a n => some (1#4 ++ 6#4 ++ d ++ a ++ 0#5 ++ n)
  | .shri d a n => some (1#4 ++ 7#4 ++ d ++ a ++ 0#5 ++ n)
  | .sari d a n => some (1#4 ++ 8#4 ++ d ++ a ++ 0#5 ++ n)
  | .add64i d a imm => some (1#4 ++ 9#4 ++ d ++ a ++ imm)
  | .add64 d a b => some (1#4 ++ 10#4 ++ 0#3 ++ d ++ a ++ b)
  | .lea64 sh d a b => some (1#4 ++ 11#4 ++ sh ++ d ++ a ++ b)
  | .sub64 d a b => some (1#4 ++ 12#4 ++ 0#3 ++ d ++ a ++ b)
  | .mov m d a => some (1#4 ++ 13#4 ++ m.code ++ d ++ a ++ 0#7)
  | .movsr d n => some (1#4 ++ 14#4 ++ d ++ 0#7 ++ n)
  | .movl d n => some (1#4 ++ 15#4 ++ d ++ 0#7 ++ 0#4 ++ n)
  | .imad d a b c => some (14#4 ++ d ++ a ++ b ++ c)
  | .icmp c pd pc a b => some (5#4 ++ 0#4 ++ c.code ++ pd ++ 0#1 ++ pc ++ a ++ b)
  | .icmpi c pd pc a imm => some (5#4 ++ 1#4 ++ c.code ++ pd ++ 0#1 ++ pc ++ a ++ imm)
  | .fcmp c pd pc a b => some (5#4 ++ 2#4 ++ c.code ++ pd ++ 0#1 ++ pc ++ a ++ b)
  | .icmp64 c pd pc a b => some (5#4 ++ 3#4 ++ c.code ++ pd ++ 0#1 ++ pc ++ a ++ b)
  | .pcomb m pd pc pa pb => some (5#4 ++ 4#4 ++ m.code ++ pd ++ 0#1 ++ pc ++ 0#4 ++ pa ++ 0#4 ++ pb)
  | .pget d => some (5#4 ++ 5#4 ++ 0#3 ++ d ++ 0#7 ++ 0#7)
  | .pset a => some (5#4 ++ 6#4 ++ 0#3 ++ 0#3 ++ 0#1 ++ 0#3 ++ a ++ 0#7)
  | .pick p d a b => some (5#4 ++ 7#4 ++ p ++ d ++ a ++ b)
  | .fadd m d a b => some (2#4 ++ 0#4 ++ m.code ++ d ++ a ++ b)
  | .fsub m d a b => some (2#4 ++ 1#4 ++ m.code ++ d ++ a ++ b)
  | .fmul m d a b => some (2#4 ++ 2#4 ++ m.code ++ d ++ a ++ b)
  | .fmin m d a b => some (2#4 ++ 3#4 ++ m.code ++ d ++ a ++ b)
  | .fmax m d a b => some (2#4 ++ 4#4 ++ m.code ++ d ++ a ++ b)
  | .fdiv m d a b => some (2#4 ++ 5#4 ++ m.code ++ d ++ a ++ b)
  | .fabs d a => some (2#4 ++ 6#4 ++ 0#3 ++ d ++ a ++ 0#7)
  | .fneg d a => some (2#4 ++ 6#4 ++ 1#3 ++ d ++ a ++ 0#7)
  | .fsat d a => some (2#4 ++ 6#4 ++ 2#3 ++ d ++ a ++ 0#7)
  | .ffrac d a => some (2#4 ++ 6#4 ++ 3#3 ++ d ++ a ++ 0#7)
  | .fround m d a => some (2#4 ++ 6#4 ++ m.code ++ d ++ a ++ 0#7)
  | .fcopys d a b => some (2#4 ++ 7#4 ++ 0#3 ++ d ++ a ++ b)
  | .fldx m d a b => some (2#4 ++ 8#4 ++ m.code ++ d ++ a ++ b)
  | .fkind d a => some (2#4 ++ 9#4 ++ 0#3 ++ d ++ a ++ 0#7)
  | .padd m d a b => some (2#4 ++ 10#4 ++ m.code ++ d ++ a ++ b)
  | .pmul m d a b => some (2#4 ++ 11#4 ++ m.code ++ d ++ a ++ b)
  | .pmin m d a b => some (2#4 ++ 12#4 ++ m.code ++ d ++ a ++ b)
  | .pmax m d a b => some (2#4 ++ 13#4 ++ m.code ++ d ++ a ++ b)
  | .fdp2 m d a b => some (2#4 ++ 14#4 ++ m.code ++ d ++ a ++ b)
  | .fmac d a b c => some (12#4 ++ d ++ a ++ b ++ c)
  | .pmac d a b c => some (13#4 ++ d ++ a ++ b ++ c)
  | .fcvi m d a => some (3#4 ++ 0#4 ++ m.code ++ d ++ a ++ 0#7)
  | .icvf m d a => some (3#4 ++ 1#4 ++ m.code ++ d ++ a ++ 0#7)
  | .pack16 m d a b => some (3#4 ++ 2#4 ++ m.code ++ d ++ a ++ b)
  | .unpk16 m d a => some (3#4 ++ 3#4 ++ m.code ++ d ++ a ++ 0#7)
  | .cvtn k d a b => some (3#4 ++ 4#4 ++ k ++ d ++ a ++ b)
  | .cvtw k d a b => some (3#4 ++ 5#4 ++ k ++ d ++ a ++ b)
  | .unpk3 z m d a => some (3#4 ++ 6#4 ++ BitVec.ofBool z ++ m ++ d ++ a ++ 0#7)
  | .cbdec k d a => some (3#4 ++ 7#4 ++ k ++ d ++ a ++ 0#7)
  | .recip d a => some (3#4 ++ 8#4 ++ 0#3 ++ d ++ a ++ 0#7)
  | .rroot d a => some (3#4 ++ 8#4 ++ 1#3 ++ d ++ a ++ 0#7)
  | .sqrt d a => some (3#4 ++ 8#4 ++ 2#3 ++ d ++ a ++ 0#7)
  | .exp2 d a => some (3#4 ++ 8#4 ++ 3#3 ++ d ++ a ++ 0#7)
  | .log2 d a => some (3#4 ++ 8#4 ++ 4#3 ++ d ++ a ++ 0#7)
  | .tanh d a => some (3#4 ++ 8#4 ++ 5#3 ++ d ++ a ++ 0#7)
  | .sint d a => some (3#4 ++ 9#4 ++ 0#3 ++ d ++ a ++ 0#7)
  | .cost d a => some (3#4 ++ 9#4 ++ 1#3 ++ d ++ a ++ 0#7)
  | .icvi m d a => some (3#4 ++ 10#4 ++ m.code ++ d ++ a ++ 0#7)
  | .bsel d a b => some (3#4 ++ 11#4 ++ 0#3 ++ d ++ a ++ b)
  | .dotb4 sat ua ub d a b => some (3#4 ++ 12#4 ++ BitVec.ofBool sat ++ BitVec.ofBool ua ++ BitVec.ofBool ub ++ d ++ a ++ b)
  | .isgna d a b => some (3#4 ++ 13#4 ++ 0#3 ++ d ++ a ++ b)
  | .shfl m d a b => some (4#4 ++ 0#4 ++ m.code ++ d ++ a ++ b)
  | .gpoll m d a => some (4#4 ++ 1#4 ++ m.code ++ d ++ a ++ 0#7)
  | .ired m d a => some (4#4 ++ 2#4 ++ m.code ++ d ++ a ++ 0#7)
  | .fred m d a => some (4#4 ++ 3#4 ++ m.code ++ d ++ a ++ 0#7)
  | .iscan excl m d a => some (4#4 ++ 4#4 ++ BitVec.ofBool excl ++ m.code ++ d ++ a ++ 0#7)
  | .fscan excl m d a => some (4#4 ++ 5#4 ++ BitVec.ofBool excl ++ m.code ++ d ++ a ++ 0#7)
  | .peers d a => some (4#4 ++ 6#4 ++ 0#3 ++ d ++ a ++ 0#7)
  | .bcast d a b => some (4#4 ++ 7#4 ++ 0#3 ++ d ++ a ++ b)
  | .leader d => some (4#4 ++ 8#4 ++ 0#3 ++ d ++ 0#7 ++ 0#7)
  | .ddx m d a => some (4#4 ++ 9#4 ++ m.code ++ d ++ a ++ 0#7)
  | .gjoin => some (4#4 ++ 10#4 ++ 0#3 ++ 0#7 ++ 0#7 ++ 0#7)
  | .compact m d a b => some (4#4 ++ 11#4 ++ m.code ++ d ++ a ++ b)
  | .ldN8 pg d a imm => some (6#4 ++ 0#4 ++ pg ++ d ++ a ++ imm)
  | .ldI8 pg d a imm => some (6#4 ++ 1#4 ++ pg ++ d ++ a ++ imm)
  | .ldN16 pg d a imm => some (6#4 ++ 2#4 ++ pg ++ d ++ a ++ imm)
  | .ldI16 pg d a imm => some (6#4 ++ 3#4 ++ pg ++ d ++ a ++ imm)
  | .ld32 pg d a imm => some (6#4 ++ 4#4 ++ pg ++ d ++ a ++ imm)
  | .ld64 pg d a imm => some (6#4 ++ 5#4 ++ pg ++ d ++ a ++ imm)
  | .ld128 pg d a imm => some (6#4 ++ 6#4 ++ pg ++ d ++ a ++ imm)
  | .st8 pg d a imm => some (6#4 ++ 7#4 ++ pg ++ d ++ a ++ imm)
  | .st16 pg d a imm => some (6#4 ++ 8#4 ++ pg ++ d ++ a ++ imm)
  | .st32 pg d a imm => some (6#4 ++ 9#4 ++ pg ++ d ++ a ++ imm)
  | .st64 pg d a imm => some (6#4 ++ 10#4 ++ pg ++ d ++ a ++ imm)
  | .st128 pg d a imm => some (6#4 ++ 11#4 ++ pg ++ d ++ a ++ imm)
  | .lds32 pg d a imm => some (6#4 ++ 12#4 ++ pg ++ d ++ a ++ imm)
  | .sts32 pg d a imm => some (6#4 ++ 13#4 ++ pg ++ d ++ a ++ imm)
  | .lds128 pg d a imm => some (6#4 ++ 14#4 ++ pg ++ d ++ a ++ imm)
  | .sts128 pg d a imm => some (6#4 ++ 15#4 ++ pg ++ d ++ a ++ imm)
  | .atom m d a b => some (7#4 ++ 0#4 ++ m.code ++ d ++ a ++ b)
  | .atom64 m d a b => some (7#4 ++ 1#4 ++ m.code ++ d ++ a ++ b)
  | .atomf m d a b => some (7#4 ++ 2#4 ++ m.code ++ d ++ a ++ b)
  | .cas m d a b => some (7#4 ++ 3#4 ++ m.code ++ d ++ a ++ b)
  | .radd m a b => some (7#4 ++ 4#4 ++ m.code ++ 0#7 ++ a ++ b)
  | .rflush m => some (7#4 ++ 5#4 ++ m.code ++ 0#7 ++ 0#7 ++ 0#7)
  | .chld m d a b => some (7#4 ++ 6#4 ++ m.code ++ d ++ a ++ b)
  | .cld d a => some (7#4 ++ 7#4 ++ 0#3 ++ d ++ a ++ 0#7)
  | .cst a b => some (7#4 ++ 8#4 ++ 0#3 ++ 0#7 ++ a ++ b)
  | .atoms m d a b => some (7#4 ++ 14#4 ++ m.code ++ d ++ a ++ b)
  | .tld m d a k => some (7#4 ++ 9#4 ++ m.code ++ d ++ a ++ 0#2 ++ k)
  | .tst m d a k => some (7#4 ++ 10#4 ++ m.code ++ d ++ a ++ 0#2 ++ k)
  | .tldf m d a k => some (7#4 ++ 11#4 ++ m.code ++ d ++ a ++ 0#2 ++ k)
  | .tstf d a k => some (7#4 ++ 12#4 ++ 2#3 ++ d ++ a ++ 0#2 ++ k)
  | .tctlMap d a => some (7#4 ++ 13#4 ++ 0#3 ++ d ++ a ++ 0#7)
  | .tctlFill k => some (7#4 ++ 13#4 ++ 1#3 ++ 0#7 ++ 0#7 ++ 0#2 ++ k)
  | .tctlDrain k => some (7#4 ++ 13#4 ++ 2#3 ++ 0#7 ++ 0#7 ++ 0#2 ++ k)
  | .tctlFree k => some (7#4 ++ 13#4 ++ 3#3 ++ 0#7 ++ 0#7 ++ 0#2 ++ k)
  | .tctlQuery d k => some (7#4 ++ 13#4 ++ 4#3 ++ d ++ 0#7 ++ 0#2 ++ k)
  | .barwArrive d a => some (7#4 ++ 15#4 ++ 0#3 ++ d ++ a ++ 0#7)
  | .barwWait a b => some (7#4 ++ 15#4 ++ 1#3 ++ 0#7 ++ a ++ b)
  | .barwArriveWait d a => some (7#4 ++ 15#4 ++ 2#3 ++ d ++ a ++ 0#7)
  | .barwInit a b => some (7#4 ++ 15#4 ++ 3#3 ++ 0#7 ++ a ++ b)
  | .mma k d a b => some (8#4 ++ 0#4 ++ k ++ d ++ a ++ b)
  | .mmaU k d a b => some (8#4 ++ 1#4 ++ k ++ d ++ a ++ b)
  | .mmaSp k d a b => some (8#4 ++ 2#4 ++ k ++ d ++ a ++ b)
  | .mmaSpU k d a b => some (8#4 ++ 3#4 ++ k ++ d ++ a ++ b)
  | .cmprs k d a => some (8#4 ++ 4#4 ++ k ++ d ++ a ++ 0#7)
  | .spalpha d a b => some (8#4 ++ 5#4 ++ 0#3 ++ d ++ a ++ b)
  | .spblend d a b => some (8#4 ++ 6#4 ++ 0#3 ++ d ++ a ++ b)
  | .keypk d a b => some (8#4 ++ 7#4 ++ 0#3 ++ d ++ a ++ b)
  | .triedge d a b => some (8#4 ++ 8#4 ++ 0#3 ++ d ++ a ++ b)
  | .wait ld st cp tl => some (9#4 ++ 0#4 ++ ld ++ st ++ cp ++ tl ++ 0#4)
  | .bar m => some (9#4 ++ 1#4 ++ m.code ++ 0#21)
  | .job k a => some (9#4 ++ 2#4 ++ k.code ++ 0#7 ++ a ++ 0#7)
  | .qpush d a b => some (9#4 ++ 3#4 ++ 0#3 ++ d ++ a ++ b)
  | .txbegin => some (9#4 ++ 4#4 ++ 0#24)
  | .txcommit pd => some (9#4 ++ 5#4 ++ 0#3 ++ pd ++ 0#18)
  | .txabort => some (9#4 ++ 6#4 ++ 0#24)
  | .snapOpen => some (9#4 ++ 7#4 ++ 0#1 ++ 0#23)
  | .snapClose => some (9#4 ++ 7#4 ++ 1#1 ++ 0#23)
  | .fence m => some (9#4 ++ 8#4 ++ m.code ++ 0#21)
  | .trap n => some (9#4 ++ 9#4 ++ 0#8 ++ n)
  | .brkpt => some (9#4 ++ 10#4 ++ 0#24)
  | .yield => some (9#4 ++ 11#4 ++ 0#24)
  | .stop => some (9#4 ++ 12#4 ++ 0#24)
  | .iflush m => some (9#4 ++ 13#4 ++ m.code ++ 0#23)
  | .thrclr a d => some (9#4 ++ 14#4 ++ 1#8 ++ 0#2 ++ a ++ d)
  | .thread a d => some (9#4 ++ 14#4 ++ 2#8 ++ 0#2 ++ a ++ d)
  | .gridend a d => some (9#4 ++ 14#4 ++ 3#8 ++ 0#2 ++ a ++ d)
  | .agemax a d => some (9#4 ++ 14#4 ++ 4#8 ++ 0#2 ++ a ++ d)
  | .laurelsz a d => some (9#4 ++ 14#4 ++ 5#8 ++ 0#2 ++ a ++ d)
  | .migth a d => some (9#4 ++ 14#4 ++ 6#8 ++ 0#2 ++ a ++ d)
  | .frameadd a d => some (9#4 ++ 14#4 ++ 7#8 ++ 0#2 ++ a ++ d)
  | .migrate a d => some (9#4 ++ 14#4 ++ 8#8 ++ 0#2 ++ a ++ d)
  | .root a d => some (9#4 ++ 14#4 ++ 9#8 ++ 0#2 ++ a ++ d)
  | .inval a d => some (9#4 ++ 14#4 ++ 10#8 ++ 0#2 ++ a ++ d)
  | .replay a d => some (9#4 ++ 14#4 ++ 11#8 ++ 0#2 ++ a ++ d)
  | .ringset a d => some (9#4 ++ 14#4 ++ 12#8 ++ 0#2 ++ a ++ d)
  | .queue a d => some (9#4 ++ 14#4 ++ 13#8 ++ 0#2 ++ a ++ d)
  | .release a d => some (9#4 ++ 14#4 ++ 14#8 ++ 0#2 ++ a ++ d)
  | .qpopen a d => some (9#4 ++ 14#4 ++ 15#8 ++ 0#2 ++ a ++ d)
  | .cgroup a d => some (9#4 ++ 14#4 ++ 16#8 ++ 0#2 ++ a ++ d)
  | .pkgset a d => some (9#4 ++ 14#4 ++ 17#8 ++ 0#2 ++ a ++ d)
  | .exportPage a d => some (9#4 ++ 14#4 ++ 18#8 ++ 0#2 ++ a ++ d)
  | .retire a d => some (9#4 ++ 14#4 ++ 19#8 ++ 0#2 ++ a ++ d)
  | .dbgmatch a d => some (9#4 ++ 14#4 ++ 20#8 ++ 0#2 ++ a ++ d)
  | .teamstop a d => some (9#4 ++ 14#4 ++ 21#8 ++ 0#2 ++ a ++ d)
  | .debug a d => some (9#4 ++ 14#4 ++ 22#8 ++ 0#2 ++ a ++ d)
  | .preempt a d => some (9#4 ++ 14#4 ++ 23#8 ++ 0#2 ++ a ++ d)
  | .restore a d => some (9#4 ++ 14#4 ++ 24#8 ++ 0#2 ++ a ++ d)
  | .boxread a d => some (9#4 ++ 14#4 ++ 25#8 ++ 0#2 ++ a ++ d)
  | .prep bt imm => some (10#4 ++ 0#4 ++ bt ++ 0#4 ++ imm)
  | .prepr bt a => some (10#4 ++ 1#4 ++ bt ++ 0#4 ++ a ++ 0#10)
  | .xfer bt ps neg => some (10#4 ++ 2#4 ++ bt ++ ps ++ BitVec.ofBool neg ++ 0#17)
  | .xferCall bt ps neg => some (10#4 ++ 3#4 ++ bt ++ ps ++ BitVec.ofBool neg ++ 0#17)
  | .xferRet bt ps neg => some (10#4 ++ 4#4 ++ bt ++ ps ++ BitVec.ofBool neg ++ 0#17)
  | .bcopy bt bs => some (10#4 ++ 5#4 ++ bt ++ 0#3 ++ 0#1 ++ 0#4 ++ bs ++ 0#10)
  | .bload bt a => some (10#4 ++ 6#4 ++ bt ++ 0#4 ++ a ++ 0#10)
  | .binv bt => some (10#4 ++ 7#4 ++ bt ++ 0#21)
  | .xdec bt a => some (10#4 ++ 8#4 ++ bt ++ 0#4 ++ a ++ 0#10)
  | .matrixOperation _ => none
  | .jobAppend _ => none
  | .formBundle _ _ => none
  | .teamPlacement => none
  | .clusterPlacement => none
  | .gridReserving _ => none
  | .teamFree _ => none
  | .gridCompletion _ => none
  | .homeAccess _ _ _ => none
  | .loadReturn _ _ => none
  | .chainStep _ _ => none
  | .peerStashAccess _ => none
  | .raddArrival _ _ => none
  | .horizonEntryFreed _ _ => none
  | .slotBind _ => none
  | .slotUnbind _ => none
  | .entryTake _ => none
  | .entryWaitPoll _ => none
  | .entryHandOn _ => none
  | .entrySignalWrite _ _ => none
  | .faultRecordWrite _ => none
  | .jobStart _ => none
  | .copyPiece _ _ _ => none
  | .sortJob _ => none
  | .gatherbindJob _ => none
  | .unbindJob _ => none
  | .collJob _ => none
  | .ocompJob _ => none
  | .jobCompletion _ => none
  | .walkComplete _ _ => none
  | .zeroFillFirstWrite _ _ => none
  | .migration _ _ => none
  | .tileFillComplete _ _ => none
  | .tileDrainComplete _ _ => none
  | .hostPathResponse _ _ _ => none
  | .preemptComplete _ => none
  | .graphStart _ => none
  | .kernelNode _ _ => none
  | .jobNode _ _ => none
  | .condNode _ _ => none
  | .whileNode _ _ => none
  | .signalNode _ _ => none
  | .waitNode _ _ => none
  | .nodeComplete _ _ => none
  | .cycleCounter => none
  | .privetSlot _ => none
  | .scrubSlot _ _ => none
  | .refreshSlot _ => none
  | .telemetrySlot _ _ _ => none
  | .doorbell _ _ _ _ => none
  | .migrationDeviceRequest _ _ _ => none
  | .hostMigrationRequest _ _ _ _ => none
  | .hostRdmaWrite _ _ _ _ => none
  | .hostRdmaRead _ _ _ _ => none
  | .hostRdmaFlush _ => none
  | .hostUnsupportedRequest _ => none
  | .kolozRead _ _ => none
  | .kolozWrite _ _ => none
  | .kolozAtomic _ _ => none
  | .kolozRadd _ _ => none
  | .kolozChain _ _ => none
  | .kolozRflush _ _ => none
  | .kolozColl _ _ => none
  | .kolozMgmt _ _ => none
  | .kolozData _ _ => none
  | .kolozAck _ _ => none
  | .kolozRefused _ _ => none
  | .frameFcsReplay _ => none
  | .frameDiscard _ _ => none
  | .retransmitTimeout _ => none
  | .portFailure _ => none
  | .redfishReset _ => none
  | .redfishUpdate _ _ _ _ => none
  | .redfishRead _ => none
  | .powerOn => none
  | .coldReset _ _ => none
  | .warmReset => none
  | .powerAlarm _ _ _ => none
  | .powerAlarmClear _ _ _ => none
  | .trip _ _ => none
  | .counterSample => none
  | .perBankRefresh _ => none
  | .priorityFlowControl _ _ _ => none

end Sys2Proof
end

