-- ==== Sys2Proof/Machine/Integer.lean ====
section
/-! DEFINITION. Integer.lean: class 0x0, class 0x1, IMAD and the compares, predicate logic and selection of class 0x5
(R90 to R114). -/

namespace Sys2Proof.Machine

/-- A word of two sources and one destination. -/
def bin (d a b : Reg) (f : Word → Word → Word) (s : State) : Host.Outcome State Fault Refusal :=
  regWord (opSpec [sp1 a, sp1 b] [sp1 d]) (fun _ _ t => put t d (f (rd t a) (rd t b))) s

/-- A word of one source and one destination. -/
def un (d a : Reg) (f : Word → Word) (s : State) : Host.Outcome State Fault Refusal :=
  regWord (opSpec [sp1 a] [sp1 d]) (fun _ _ t => put t d (f (rd t a))) s

/-- A word of one source, Imm32 and one destination; it accepts HINT.IMM (R102). -/
def immWord (d a : Reg) (imm : BitVec 10) (f : Word → Word → Word) (s : State) : Host.Outcome State Fault Refusal :=
  regWord { opSpec [sp1 a] [sp1 d] with hints := [0] } (fun c _ t => put t d (f (rd t a) (imm32 c imm))) s

/-- IADD and ISUB from the exact signed and unsigned results (R93). -/
def addMode (m : SatMode) (wrapped : Word) (si un : Int) : Word :=
  match m with
  | .wrap => wrapped
  | .sati => BitVec.ofInt 32 (satI si 32)
  | .satn => BitVec.ofInt 32 (satN un 32)

/-- IADD (R93). -/
def iaddVal (m : SatMode) (a b : Word) : Word := addMode m (a + b) (a.toInt + b.toInt) (a.toNat + b.toNat)
/-- ISUB (R93). -/
def isubVal (m : SatMode) (a b : Word) : Word := addMode m (a - b) (a.toInt - b.toInt) ((a.toNat : Int) - b.toNat)

/-- IMUL (R94). -/
def imulVal (m : MulMode) (a b : Word) : Word :=
  match m with
  | .lo => a * b
  | .hiI => BitVec.ofNat 32 (wrap (a.toInt * b.toInt) 64 / 2 ^ 32)
  | .hiN => BitVec.ofNat 32 (a.toNat * b.toNat / 2 ^ 32)

/-- a < b, signed or unsigned. -/
def ltS (m : Sgn) (a b : Word) : Bool :=
  match m with
  | .i => a.slt b
  | .n => a.ult b

/-- IMIN (R95). -/
def iminVal (m : Sgn) (a b : Word) : Word := if ltS m b a then b else a
/-- IMAX (R95). -/
def imaxVal (m : Sgn) (a b : Word) : Word := if ltS m a b then b else a
/-- IABSD (R95). -/
def iabsdVal (m : Sgn) (a b : Word) : Word := if ltS m a b then b - a else a - b

/-- SHL: the whole of b is the count (R97). -/
def shlVal (a b : Word) : Word := if 32 ≤ b.toNat then 0 else a <<< b.toNat
/-- SHR and SHR.a (R97). -/
def shrVal (m : ShrMode) (a b : Word) : Word :=
  match m with
  | .logical => if 32 ≤ b.toNat then 0 else a >>> b.toNat
  | .arith => a.sshiftRight (min b.toNat 31)
/-- ROTL (R97). -/
def rotlVal (a b : Word) : Word := a.rotateLeft (b.toNat % 32)

/-- BCNT (R98). -/
def bcntVal (a : Word) : Word := BitVec.ofNat 32 ((List.range 32).filter fun i => a.getLsbD i).length
/-- Zero bits above the highest set bit, from bit `n - 1` down. -/
def clzFrom (a : Word) : Nat → Nat
  | 0 => 0
  | n + 1 => if a.getLsbD n then 0 else 1 + clzFrom a n
/-- CLZ (R98). -/
def clzVal (a : Word) : Word := BitVec.ofNat 32 (clzFrom a 32)
/-- Zero bits below the lowest set bit, `n` bits from bit `i` up. -/
def ctzFrom (a : Word) : Nat → Nat → Nat
  | 0, _ => 0
  | n + 1, i => if a.getLsbD i then 0 else 1 + ctzFrom a n (i + 1)
/-- CTZ (R98). -/
def ctzVal (a : Word) : Word := BitVec.ofNat 32 (ctzFrom a 32 0)
/-- BITREV (R98). -/
def bitrevVal (a : Word) : Word := a.reverse

/-- The word whose bit i is `f i`. -/
def ofBits (f : Nat → Bool) : Word := BitVec.ofNat 32 (bitsNat ((List.range 32).map f))

/-- Offset and width that FEXT and FINS take from b (R99). -/
def fieldOff (b : Word) : Nat := bits b.toNat 7 0
/-- The width, at most 32. -/
def fieldLen (b : Word) : Nat := min (bits b.toNat 15 8) 32

/-- FEXT (R99). -/
def fextVal (m : ExtMode) (a b : Word) : Word :=
  let o := fieldOff b
  let w := fieldLen b
  let f (i : Nat) : Bool := if o + i < 32 then a.getLsbD (o + i) else match m with
    | .n => false
    | .i => a.getLsbD 31
  if w = 0 then 0
  else ofBits fun i => if i < w then f i else match m with
    | .n => false
    | .i => f (w - 1)

/-- FINS (R100). -/
def finsVal (d a b : Word) : Word :=
  ofBits fun j => if fieldOff b ≤ j ∧ j < fieldOff b + fieldLen b then a.getLsbD (j - fieldOff b) else d.getLsbD j

/-- IADD (R93). -/
def execIadd (m : SatMode) (d a b : Reg) (s : State) : Host.Outcome State Fault Refusal := bin d a b (iaddVal m) s
/-- ISUB (R93). -/
def execIsub (m : SatMode) (d a b : Reg) (s : State) : Host.Outcome State Fault Refusal := bin d a b (isubVal m) s
/-- IMUL (R94). -/
def execImul (m : MulMode) (d a b : Reg) (s : State) : Host.Outcome State Fault Refusal := bin d a b (imulVal m) s
/-- IMIN (R95). -/
def execImin (m : Sgn) (d a b : Reg) (s : State) : Host.Outcome State Fault Refusal := bin d a b (iminVal m) s
/-- IMAX (R95). -/
def execImax (m : Sgn) (d a b : Reg) (s : State) : Host.Outcome State Fault Refusal := bin d a b (imaxVal m) s
/-- IABSD (R95). -/
def execIabsd (m : Sgn) (d a b : Reg) (s : State) : Host.Outcome State Fault Refusal := bin d a b (iabsdVal m) s
/-- AND (R96). -/
def execAnd (d a b : Reg) (s : State) : Host.Outcome State Fault Refusal := bin d a b (fun x y => x &&& y) s
/-- OR (R96). -/
def execOr (d a b : Reg) (s : State) : Host.Outcome State Fault Refusal := bin d a b (fun x y => x ||| y) s
/-- XOR (R96). -/
def execXor (d a b : Reg) (s : State) : Host.Outcome State Fault Refusal := bin d a b (fun x y => x ^^^ y) s
/-- ANDN (R96). -/
def execAndn (d a b : Reg) (s : State) : Host.Outcome State Fault Refusal := bin d a b (fun x y => x &&& ~~~y) s
/-- SHL (R97). -/
def execShl (d a b : Reg) (s : State) : Host.Outcome State Fault Refusal := bin d a b shlVal s
/-- SHR (R97). -/
def execShr (m : ShrMode) (d a b : Reg) (s : State) : Host.Outcome State Fault Refusal := bin d a b (shrVal m) s
/-- ROTL (R97). -/
def execRotl (d a b : Reg) (s : State) : Host.Outcome State Fault Refusal := bin d a b rotlVal s
/-- BCNT (R98). -/
def execBcnt (d a : Reg) (s : State) : Host.Outcome State Fault Refusal := un d a bcntVal s
/-- CLZ (R98). -/
def execClz (d a : Reg) (s : State) : Host.Outcome State Fault Refusal := un d a clzVal s
/-- CTZ (R98). -/
def execCtz (d a : Reg) (s : State) : Host.Outcome State Fault Refusal := un d a ctzVal s
/-- BITREV (R98). -/
def execBitrev (d a : Reg) (s : State) : Host.Outcome State Fault Refusal := un d a bitrevVal s
/-- NOT (R98). -/
def execNot (d a : Reg) (s : State) : Host.Outcome State Fault Refusal := un d a (fun x => ~~~x) s
/-- FEXT (R99). -/
def execFext (m : ExtMode) (d a b : Reg) (s : State) : Host.Outcome State Fault Refusal := bin d a b (fextVal m) s
/-- FINS (R100): D is also a source. -/
def execFins (d a b : Reg) (s : State) : Host.Outcome State Fault Refusal :=
  regWord (opSpecD [sp1 a, sp1 b] [sp1 d]) (fun _ _ t => put t d (finsVal (rd t d) (rd t a) (rd t b))) s
/-- MOVI (R101). -/
def execMovi (d : Reg) (imm : BitVec 10) (s : State) : Host.Outcome State Fault Refusal :=
  regWord { opSpec [] [sp1 d] with hints := [0] } (fun c _ t => put t d (imm32 c imm)) s
/-- IADDI (R102). -/
def execIaddi (d a : Reg) (imm : BitVec 10) (s : State) : Host.Outcome State Fault Refusal := immWord d a imm (fun x m => x + m) s
/-- IMULI (R102). -/
def execImuli (d a : Reg) (imm : BitVec 10) (s : State) : Host.Outcome State Fault Refusal := immWord d a imm (fun x m => x * m) s
/-- ANDI (R102). -/
def execAndi (d a : Reg) (imm : BitVec 10) (s : State) : Host.Outcome State Fault Refusal := immWord d a imm (fun x m => x &&& m) s
/-- ORI (R102). -/
def execOri (d a : Reg) (imm : BitVec 10) (s : State) : Host.Outcome State Fault Refusal := immWord d a imm (fun x m => x ||| m) s
/-- XORI (R102). -/
def execXori (d a : Reg) (imm : BitVec 10) (s : State) : Host.Outcome State Fault Refusal := immWord d a imm (fun x m => x ^^^ m) s
/-- SHLI (R103). -/
def execShli (d a : Reg) (n : BitVec 5) (s : State) : Host.Outcome State Fault Refusal := un d a (fun x => x <<< n.toNat) s
/-- SHRI (R103). -/
def execShri (d a : Reg) (n : BitVec 5) (s : State) : Host.Outcome State Fault Refusal := un d a (fun x => x >>> n.toNat) s
/-- SARI (R103). -/
def execSari (d a : Reg) (n : BitVec 5) (s : State) : Host.Outcome State Fault Refusal := un d a (fun x => x.sshiftRight n.toNat) s
/-- ADD64I (R104). -/
def execAdd64i (d a : Reg) (imm : BitVec 10) (s : State) : Host.Outcome State Fault Refusal :=
  regWord { opSpec [sp2 a] [sp2 d] with hints := [0] }
    (fun c _ t => putPair t d (wrap (rdPair t a + (imm32 c imm).toInt) 64)) s
/-- ADD64 (R104). -/
def execAdd64 (d a b : Reg) (s : State) : Host.Outcome State Fault Refusal :=
  regWord (opSpec [sp2 a, sp2 b] [sp2 d]) (fun _ _ t => putPair t d (wrap (rdPair t a + rdPair t b : Nat) 64)) s
/-- SUB64 (R104). -/
def execSub64 (d a b : Reg) (s : State) : Host.Outcome State Fault Refusal :=
  regWord (opSpec [sp2 a, sp2 b] [sp2 d]) (fun _ _ t => putPair t d (wrap ((rdPair t a : Int) - rdPair t b) 64)) s
/-- LEA64 (R104). -/
def execLea64 (sh : BitVec 3) (d a b : Reg) (s : State) : Host.Outcome State Fault Refusal :=
  regWord (opSpec [sp2 a, sp1 b] [sp2 d])
    (fun _ _ t => putPair t d (wrap (rdPair t a + (rd t b).toInt * 2 ^ sh.toNat) 64)) s

/-- Registers that MOV copies (R105). -/
def movLen : MovWidth → Nat
  | .w1 => 1 | .w2 => 2 | .w4 => 4

/-- MOV (R105). -/
def execMov (m : MovWidth) (d a : Reg) (s : State) : Host.Outcome State Fault Refusal :=
  let n := movLen m
  regWord (opSpec [(a.toNat, n, n)] [(d.toNat, n, n)]) (fun _ _ t => .ok (writeSpan t d.toNat (readSpan t a.toNat n))) s

/-- A special register as a thread reads it (R82 to R87). -/
def specialReg (s : State) (core : Nat) (t : Thread) (n : Nat) : Nat :=
  let g := gridOf s t
  let tm := tget s.ex.teams t.team
  let lin := (tm.map (·.lin)).getD 0
  let wh := g.cw * g.ch
  match n with
  | 0 => t.hlane
  | 1 => t.glane
  | 2 => g.width
  | 3 => t.group
  | 4 => lin % 2 ^ 32
  | 5 => lin / wh % 2 ^ 28 * 16 + lin % wh
  | 6 => min g.teams 0xFFFFFFFF
  | 7 => core
  | 8 => core / 64
  | 9 => s.fa.pkg
  | 10 => s.bd.clock % 2 ^ 32
  | 11 => t.capClk.toNat
  | 12 => t.pts % 2 ^ 32
  | 13 => t.capPts.toNat
  | 14 => t.depth
  | 15 => tstat t
  | 16 => corestat s core t
  | 17 => t.fcode.toNat
  | 18 => t.faddr % 2 ^ 32
  | 19 => t.faddr / 2 ^ 32
  | 20 => t.fpc.toNat
  | _ => t.txReason

/-- MOVSR (R106): CLOCKLO and PTSLO also capture their high halves (R83), and PTSLO waits for the thread's accesses to be
stamped (R216). -/
def execMovsr (d : Reg) (n : BitVec 10) (s : State) : Host.Outcome State Fault Refusal :=
  regWord { opSpec [] [sp1 d] with order := n == 12 } (fun c s t =>
    let x := BitVec.ofNat 32 (specialReg s c.core t n.toNat)
    let t := if n = 10 then { t with capClk := BitVec.ofNat 32 (s.bd.clock / 2 ^ 32) } else t
    let t := if n = 12 then { t with capPts := BitVec.ofNat 32 (t.pts / 2 ^ 32) } else t
    put t d x) s

/-- MOVL (R107): a word of the latched launch record. -/
def execMovl (d : Reg) (n : BitVec 6) (s : State) : Host.Outcome State Fault Refusal :=
  regWord (opSpec [] [sp1 d]) (fun _ s t => put t d (BitVec.ofNat 32 ((gridOf s t).word n.toNat))) s

/-- IMAD (R109). -/
def execImad (d a b c : Reg) (s : State) : Host.Outcome State Fault Refusal :=
  regWord (opSpec [sp1 a, sp1 b, sp1 c] [sp1 d]) (fun _ _ t => put t d (rd t a * rd t b + rd t c)) s

/-- A compare writes PD with its condition AND PC (R110). -/
def cmpWord (src : List (Nat × Nat × Nat)) (pd pc : PredIx) (f : Thread → Bool) (s : State) : Host.Outcome State Fault Refusal :=
  regWord (opSpec src []) (fun _ _ t => .ok (writePred t pd (f t && readPred t pc))) s

/-- ICMP (R110). -/
def execIcmp (c : Cond) (pd pc : PredIx) (a b : Reg) (s : State) : Host.Outcome State Fault Refusal :=
  cmpWord [sp1 a, sp1 b] pd pc (fun t => condHolds c 32 (rd t a).toNat (rd t b).toNat) s
/-- ICMPI (R110). -/
def execIcmpi (c : Cond) (pd pc : PredIx) (a : Reg) (imm : BitVec 7) (s : State) : Host.Outcome State Fault Refusal :=
  cmpWord [sp1 a] pd pc (fun t => condHolds c 32 (rd t a).toNat (imm.signExtend 32).toNat) s
/-- ICMP64 (R110). -/
def execIcmp64 (c : Cond) (pd pc : PredIx) (a b : Reg) (s : State) : Host.Outcome State Fault Refusal :=
  cmpWord [sp2 a, sp2 b] pd pc (fun t => condHolds c 64 (rdPair t a) (rdPair t b)) s
/-- PCOMB (R112). -/
def execPcomb (m : PCombOp) (pd pc pa pb : PredIx) (s : State) : Host.Outcome State Fault Refusal :=
  cmpWord [] pd pc (fun t => combine m (readPred t pa) (readPred t pb)) s
/-- PGET (R113). -/
def execPget (d : Reg) (s : State) : Host.Outcome State Fault Refusal :=
  regWord (opSpec [] [sp1 d])
    (fun _ _ t => put t d (BitVec.ofNat 32 (bitsNat ((List.range 8).map fun k => readPred t (BitVec.ofNat 3 k))))) s
/-- PSET (R113). -/
def execPset (a : Reg) (s : State) : Host.Outcome State Fault Refusal :=
  regWord (opSpec [sp1 a] [])
    (fun _ _ t => .ok ((List.range 8).foldl (fun u k => writePred u (BitVec.ofNat 3 k) ((rd t a).getLsbD k)) t)) s
/-- PICK (R114). -/
def execPick (p : PredIx) (d a b : Reg) (s : State) : Host.Outcome State Fault Refusal :=
  regWord (opSpec [sp1 a, sp1 b] [sp1 d]) (fun _ _ t => put t d (if readPred t p then rd t a else rd t b)) s

end Sys2Proof.Machine
end

