-- ==== Sys2Proof/Machine/FloatOps.lean ====
section
/-! DEFINITION. FloatOps.lean: FP32 and packed 16-bit arithmetic (class 0x2), FCMP, FMAC and PMAC (R111, R115 to R129). -/

namespace Sys2Proof.Machine

/-- A result code as a word. -/
def w32 (n : Nat) : Word := BitVec.ofNat 32 n

/-- FADD (R119). -/
def faddVal (m : Rm) (a b : Word) : Word := w32 (faddCode .fp32 m false a.toNat b.toNat)
/-- FSUB (R119): the exact difference. -/
def fsubVal (m : Rm) (a b : Word) : Word :=
  w32 (round .fp32 m false (sumExt (m == .rd) [value .fp32 a.toNat, (value .fp32 b.toNat).neg]))
/-- FMUL (R119). -/
def fmulVal (m : Rm) (a b : Word) : Word := w32 (fmulCode .fp32 m false a.toNat b.toNat)
/-- FDIV (R121). -/
def fdivVal (m : Rm) (a b : Word) : Word := w32 (round .fp32 m false ((value .fp32 a.toNat).div (value .fp32 b.toNat)))

/-- Is NaN-propagating MOD 001 named? (R120) -/
def nanProp : NanMode → Bool
  | .number => false
  | .nan => true

/-- FMIN and FMAX (R120). -/
def fminmaxVal (isMax : Bool) (m : NanMode) (a b : Word) : Word := w32 (fminmax .fp32 isMax (nanProp m) a.toNat b.toNat)

/-- FABS (R122). -/
def fabsVal (a : Word) : Word := a &&& 0x7FFFFFFF
/-- FNEG (R122). -/
def fnegVal (a : Word) : Word := a ^^^ 0x80000000
/-- FSAT (R122). -/
def fsatVal (a : Word) : Word :=
  if isNaN .fp32 a.toNat ∨ a.getLsbD 31 then 0 else if 0x3F800000 < a.toNat then 0x3F800000 else a

/-- FFRAC (R122): an exact zero is +0. -/
def ffracVal (a : Word) : Word :=
  match value .fp32 a.toNat with
  | .fin n m e _ =>
    if 0 ≤ e then 0
    else
      let d := 2 ^ (-e).toNat
      let r := if n then (d - m % d) % d else m % d
      w32 (round .fp32 .rd false (.fin false r e))
  | _ => 0x7FC00000

/-- FROUND's rounding mode. -/
def froundRm : FRoundMode → Rm
  | .rne => .rne | .rz => .rz | .rd => .rd | .ru => .ru

/-- FROUND (R122): a zero result keeps the sign of a. -/
def froundVal (m : FRoundMode) (a : Word) : Word :=
  match value .fp32 a.toNat with
  | .nan => 0x7FC00000
  | .inf _ => a
  | .fin n k e st => w32 (round .fp32 .rne false (.fin n (roundAt (froundRm m) n k e st 0) 0))

/-- FCOPYS (R123). -/
def fcopysVal (a b : Word) : Word := (a &&& 0x7FFFFFFF) ||| (b &&& 0x80000000)

/-- The exponent of FLDX kept within what decides the result: beyond it every finite nonzero a overflows, or underflows to
the rounding of a value below every format value (R124). -/
def clampExp (i : Int) : Int := max (-600) (min 600 i)

/-- FLDX (R124). -/
def fldxVal (m : Rm) (a b : Word) : Word := w32 (round .fp32 m false ((value .fp32 a.toNat).shift (clampExp b.toInt)))

/-- FKIND (R125). -/
def fkindVal (a : Word) : Word :=
  let neg := a.getLsbD 31
  let mag := a.toNat % 2 ^ 31
  let k :=
    if 0x7F800000 < mag then (if a.getLsbD 22 then 1 else 0)
    else if mag = 0x7F800000 then (if neg then 2 else 9)
    else if mag = 0 then (if neg then 5 else 6)
    else if mag < 0x800000 then (if neg then 4 else 7)
    else if neg then 3 else 8
  w32 (2 ^ k)

/-- The format of a packed MOD. -/
def pkFmt : Pk → NumFmt
  | .bf16 => .bf16
  | .f16 => .f16

/-- Element i of a packed word. -/
def elem16 (x : Word) (i : Nat) : Nat := bits x.toNat (16 * i + 15) (16 * i)

/-- A packed result from its elements. -/
def packed (f : Nat → Nat) : Word := w32 (f 0 % 65536 + 65536 * (f 1 % 65536))

/-- PADD (R126). -/
def paddVal (f : NumFmt) (rm : Rm) (sat : Bool) (a b : Word) : Word := packed fun i => faddCode f rm sat (elem16 a i) (elem16 b i)
/-- PMUL (R126). -/
def pmulVal (f : NumFmt) (rm : Rm) (sat : Bool) (a b : Word) : Word := packed fun i => fmulCode f rm sat (elem16 a i) (elem16 b i)
/-- PMIN and PMAX (R126). -/
def pminmaxVal (f : NumFmt) (isMax : Bool) (a b : Word) : Word := packed fun i => fminmax f isMax false (elem16 a i) (elem16 b i)

/-- An exact zero given the sign that R127 states: -0 where every term is -0 or the mode is RD. -/
def zeroSign (rm : Rm) (l : List Ext) (x : Ext) : Ext :=
  match x with
  | .fin _ 0 e false => .fin (l.all (Ext.isZero true) || rm == .rd) 0 e false
  | _ => x

/-- FDP2 (R127). -/
def fdp2Val (f : NumFmt) (rm : Rm) (sat : Bool) (d a b : Word) : Word :=
  let p (i : Nat) := (value f (elem16 a i)).mul (value f (elem16 b i))
  let l := [value .fp32 d.toNat, p 0, p 1]
  w32 (round .fp32 rm sat (zeroSign rm l (sumExt (rm == .rd) l)))

/-- FMAC (R128). -/
def fmacVal (rm : Rm) (sat : Bool) (a b c : Word) : Word := w32 (fmaCode .fp32 rm sat a.toNat b.toNat c.toNat)

/-- PMAC (R129): HINT.RND [2:0] = 0b111 selects F16 with RNE. -/
def pmacVal (f16 : Bool) (rm : Rm) (sat : Bool) (a b c : Word) : Word :=
  packed fun i => fmaCode (if f16 then .f16 else .bf16) (if f16 then .rne else rm) sat (elem16 a i) (elem16 b i) (elem16 c i)

/-- Does HINT.RND ask PMAC for F16? (R117, R129) -/
def hintF16 (c : Ctx) : Bool := match c.hint 4 with
  | some p => p % 8 == 7
  | none => false

/-- FADD (R119). -/
def execFadd (m : Rm) (d a b : Reg) (s : State) : Host.Outcome State Fault Refusal := bin d a b (faddVal m) s
/-- FSUB (R119). -/
def execFsub (m : Rm) (d a b : Reg) (s : State) : Host.Outcome State Fault Refusal := bin d a b (fsubVal m) s
/-- FMUL (R119). -/
def execFmul (m : Rm) (d a b : Reg) (s : State) : Host.Outcome State Fault Refusal := bin d a b (fmulVal m) s
/-- FMIN (R120). -/
def execFmin (m : NanMode) (d a b : Reg) (s : State) : Host.Outcome State Fault Refusal := bin d a b (fminmaxVal false m) s
/-- FMAX (R120). -/
def execFmax (m : NanMode) (d a b : Reg) (s : State) : Host.Outcome State Fault Refusal := bin d a b (fminmaxVal true m) s
/-- FDIV (R121). -/
def execFdiv (m : Rm) (d a b : Reg) (s : State) : Host.Outcome State Fault Refusal := bin d a b (fdivVal m) s
/-- FABS (R122). -/
def execFabs (d a : Reg) (s : State) : Host.Outcome State Fault Refusal := un d a fabsVal s
/-- FNEG (R122). -/
def execFneg (d a : Reg) (s : State) : Host.Outcome State Fault Refusal := un d a fnegVal s
/-- FSAT (R122). -/
def execFsat (d a : Reg) (s : State) : Host.Outcome State Fault Refusal := un d a fsatVal s
/-- FFRAC (R122). -/
def execFfrac (d a : Reg) (s : State) : Host.Outcome State Fault Refusal := un d a ffracVal s
/-- FROUND (R122). -/
def execFround (m : FRoundMode) (d a : Reg) (s : State) : Host.Outcome State Fault Refusal := un d a (froundVal m) s
/-- FCOPYS (R123). -/
def execFcopys (d a b : Reg) (s : State) : Host.Outcome State Fault Refusal := bin d a b fcopysVal s
/-- FLDX (R124). -/
def execFldx (m : Rm) (d a b : Reg) (s : State) : Host.Outcome State Fault Refusal := bin d a b (fldxVal m) s
/-- FKIND (R125). -/
def execFkind (d a : Reg) (s : State) : Host.Outcome State Fault Refusal := un d a fkindVal s

/-- A word of two sources that accepts HINT.RND (R117). -/
def rndBin (d a b : Reg) (f : Rm → Bool → Word → Word → Word) (s : State) : Host.Outcome State Fault Refusal :=
  regWord { opSpec [sp1 a, sp1 b] [sp1 d] with hints := [4] } (fun c _ t => put t d (f (hintRm c) (hintSat c) (rd t a) (rd t b))) s

/-- PADD (R126). -/
def execPadd (m : Pk) (d a b : Reg) (s : State) : Host.Outcome State Fault Refusal := rndBin d a b (paddVal (pkFmt m)) s
/-- PMUL (R126). -/
def execPmul (m : Pk) (d a b : Reg) (s : State) : Host.Outcome State Fault Refusal := rndBin d a b (pmulVal (pkFmt m)) s
/-- PMIN (R126). -/
def execPmin (m : Pk) (d a b : Reg) (s : State) : Host.Outcome State Fault Refusal := bin d a b (pminmaxVal (pkFmt m) false) s
/-- PMAX (R126). -/
def execPmax (m : Pk) (d a b : Reg) (s : State) : Host.Outcome State Fault Refusal := bin d a b (pminmaxVal (pkFmt m) true) s
/-- FDP2 (R127). -/
def execFdp2 (m : Pk) (d a b : Reg) (s : State) : Host.Outcome State Fault Refusal :=
  regWord { opSpecD [sp1 a, sp1 b] [sp1 d] with hints := [4] }
    (fun c _ t => put t d (fdp2Val (pkFmt m) (hintRm c) (hintSat c) (rd t d) (rd t a) (rd t b))) s
/-- FMAC (R128). -/
def execFmac (d a b c : Reg) (s : State) : Host.Outcome State Fault Refusal :=
  regWord { opSpec [sp1 a, sp1 b, sp1 c] [sp1 d] with hints := [4] }
    (fun x _ t => put t d (fmacVal (hintRm x) (hintSat x) (rd t a) (rd t b) (rd t c))) s
/-- PMAC (R129). -/
def execPmac (d a b c : Reg) (s : State) : Host.Outcome State Fault Refusal :=
  regWord { opSpec [sp1 a, sp1 b, sp1 c] [sp1 d] with hints := [4], rnd7 := true }
    (fun x _ t => put t d (pmacVal (hintF16 x) (hintRm x) (hintSat x) (rd t a) (rd t b) (rd t c))) s
/-- FCMP (R111). -/
def execFcmp (c : FCond) (pd pc : PredIx) (a b : Reg) (s : State) : Host.Outcome State Fault Refusal :=
  cmpWord [sp1 a, sp1 b] pd pc (fun t => fcondHolds c (rd t a) (rd t b)) s

end Sys2Proof.Machine
end

