-- ==== Sys2Proof/Machine/Convert.lean ====
section
/-! DEFINITION. Convert.lean: the conversions, the packed-weight decoders and the byte operations of class 0x3 (R130 to
R139, R143 to R145). -/

namespace Sys2Proof.Machine

/-- FCVI's rounding mode: MOD[1:0] (R130). -/
def fcviRm : FcviMode → Rm
  | .rneI | .rneN => .rne | .rzI | .rzN => .rz | .rdI | .rdN => .rd | .ruI | .ruN => .ru

/-- FCVI's MOD[2]: .n32. -/
def fcviUnsigned : FcviMode → Bool
  | .rneI | .rzI | .rdI | .ruI => false
  | .rneN | .rzN | .rdN | .ruN => true

/-- FCVI (R130). -/
def fcviVal (m : FcviMode) (a : Word) : Word :=
  let x := value .fp32 a.toNat
  if x = .nan then 0
  else
    let i := roundInt (fcviRm m) x
    BitVec.ofInt 32 (if fcviUnsigned m then satN i 32 else satI i 32)

/-- ICVF (R131). -/
def icvfVal (m : Sgn) (rm : Rm) (a : Word) : Word :=
  w32 (round .fp32 rm false (.ofInt (match m with
    | .i => a.toInt
    | .n => (a.toNat : Int))))

/-- PACK16's format, mode and saturation (R132). -/
def pack16Parts : Pack16Mode → NumFmt × Rm × Bool
  | .bf16 => (.bf16, .rne, false) | .f16 => (.f16, .rne, false) | .bf16Rz => (.bf16, .rz, false)
  | .f16Rz => (.f16, .rz, false) | .bf16Sat => (.bf16, .rne, true) | .f16Sat => (.f16, .rne, true)

/-- PACK16 (R132). -/
def pack16Val (m : Pack16Mode) (a b : Word) : Word :=
  let (f, rm, sat) := pack16Parts m
  packed fun i => round f rm sat (value .fp32 (if i = 0 then a else b).toNat)

/-- UNPK16's format and element (R133). -/
def unpk16Parts : Unpk16Mode → NumFmt × Nat
  | .bf16Lo => (.bf16, 0) | .bf16Hi => (.bf16, 1) | .f16Lo => (.f16, 0) | .f16Hi => (.f16, 1)

/-- UNPK16 (R133). -/
def unpk16Val (m : Unpk16Mode) (a : Word) : Word :=
  let (f, i) := unpk16Parts m
  w32 (round .fp32 .rne false (value f (elem16 a i)))

/-- ICVI (R134). -/
def icviVal (m : IcviMode) (a : Word) : Word :=
  BitVec.ofInt 32 (match m with
    | .i8 => sext a.toNat 8
    | .n8 => ((a.toNat % 2 ^ 8 : Nat) : Int)
    | .i16 => sext a.toNat 16
    | .n16 => ((a.toNat % 2 ^ 16 : Nat) : Int)
    | .satI8 => satI a.toInt 8
    | .satN8 => satN a.toInt 8
    | .satI16 => satI a.toInt 16
    | .satN16 => satN a.toInt 16)

/-- A slot that CVTN and CVTW accept: a conversion slot whose AFMT is not CB2 (R135). -/
def cvtSlot (k : BitVec 3) (g : Grid) : Bool := slotKind (g.slot k.toNat) == 2 && (fmtOf (slotA (g.slot k.toNat))).isSome

/-- The scale that the value of B gives (R135). -/
def cvtScale (slot : Nat) (b : Word) : Ext := scaleValue (sclOf (slotAscl slot)) b.toNat

/-- CVTN (R136): the operand over its scale, rounded to the slot's format. -/
def cvtnVal (slot : Nat) (rm : Rm) (sat : Bool) (a b : Word) : Word :=
  match fmtOf (slotA slot) with
  | none => 0
  | some f => w32 (round f rm (slotSat slot || sat) ((value .fp32 a.toNat).div (cvtScale slot b)))

/-- CVTW (R137): the code times its scale, rounded to FP32. -/
def cvtwVal (slot : Nat) (a b : Word) : Word :=
  match fmtOf (slotA slot) with
  | none => 0
  | some f => w32 (round .fp32 .rne (slotSat slot) ((value f (a.toNat % 2 ^ f.width)).mul (cvtScale slot b)))

/-- The five trits of a T5 byte as weights, by the steps of R138. -/
def tritsOf : Nat → Nat → List Word
  | 0, _ => []
  | n + 1, v => let q : Nat := v * 171 / 2 ^ 9; BitVec.ofInt 32 ((v : Int) - 3 * (q : Int) - 1) :: tritsOf n q

/-- UNPK3 in one lane (R138): an illegal byte faults with TRIT_CODE, or gives five zeros and TERNBAD under .z. -/
def unpk3Lane (z : Bool) (m : BitVec 2) (d a : Reg) (t : Thread) : Except Nat Thread :=
  let v := bits (rd t a).toNat (8 * m.toNat + 7) (8 * m.toNat)
  if 243 ≤ v then
    if z then .ok { writeSpan t d.toNat [0, 0, 0, 0, 0] with ternBad := true } else .error 0x0E
  else .ok (writeSpan t d.toNat (tritsOf 5 v))

/-- A slot that CBDEC accepts: a conversion or matrix slot whose AFMT is CB2 (R139). -/
def cbSlot (k : BitVec 3) (g : Grid) : Bool :=
  let x := g.slot k.toNat
  (slotKind x == 1 || slotKind x == 2) && slotA x == 7

/-- The eight doubled coordinates of a CB2 index under a table entry (R32, R33, R139). -/
def cb2Coords (entry x : Nat) : List Int :=
  let c (j : Nat) : Int := (2 * bits entry (2 * j + 1) (2 * j) + bits x 15 15 : Nat)
  let l := (List.range 7).map fun j => if bit x j then -(c j) else c j
  let odd := ((List.range 7).filter fun j => bit x j).length % 2 == 1
  let flip := if bit x 15 then (l.sum + c 7) % 4 != 0 else odd
  l ++ [if flip then -(c 7) else c 7]

/-- The entry of a latched codebook that an index names (R139). -/
def cb2Entry (g : Grid) (k x : Nat) : Nat := (((tget g.codebooks k).getD [])[bits x 14 7]?).getD 0

/-- CBDEC (R139), as a pair's value. -/
def cbdecVal (g : Grid) (k : Nat) (a : Word) : Nat :=
  leNat ((cb2Coords (cb2Entry g k a.toNat) (a.toNat % 65536)).map fun c => BitVec.ofInt 8 c)

/-- BSEL (R143). -/
def bselVal (d a b : Word) : Word :=
  let src := a.toNat + 2 ^ 32 * b.toNat
  w32 (leNat ((List.range 4).map fun i =>
    let n := bits d.toNat (4 * i + 3) (4 * i)
    let y := bits src (8 * (n % 8) + 7) (8 * (n % 8))
    BitVec.ofNat 8 (if n < 8 then y else if 128 ≤ y then 255 else 0)))

/-- DOTB4 (R144). -/
def dotb4Val (sat ua ub : Bool) (d a b : Word) : Word :=
  let e (u : Bool) (x i : Nat) : Int := if u then (bits x (8 * i + 7) (8 * i) : Nat) else sext (x / 2 ^ (8 * i)) 8
  let x := d.toInt + ((List.range 4).map fun i => e ua a.toNat i * e ub b.toNat i).sum
  BitVec.ofInt 32 (if sat then satI x 32 else x)

/-- ISGNA (R145). -/
def isgnaVal (d a b : Word) : Word := if a = 0 then d else if a.getLsbD 31 then d - b else d + b

/-- FCVI (R130). -/
def execFcvi (m : FcviMode) (d a : Reg) (s : State) : Host.Outcome State Fault Refusal := un d a (fcviVal m) s
/-- ICVF (R131). -/
def execIcvf (m : Sgn) (d a : Reg) (s : State) : Host.Outcome State Fault Refusal :=
  regWord { opSpec [sp1 a] [sp1 d] with hints := [4] } (fun c _ t => put t d (icvfVal m (hintRm c) (rd t a))) s
/-- PACK16 (R132). -/
def execPack16 (m : Pack16Mode) (d a b : Reg) (s : State) : Host.Outcome State Fault Refusal := bin d a b (pack16Val m) s
/-- UNPK16 (R133). -/
def execUnpk16 (m : Unpk16Mode) (d a : Reg) (s : State) : Host.Outcome State Fault Refusal := un d a (unpk16Val m) s
/-- CVTN (R135, R136). -/
def execCvtn (k : BitVec 3) (d a b : Reg) (s : State) : Host.Outcome State Fault Refusal :=
  regWord { opSpec [sp1 a, sp1 b] [sp1 d] with hints := [4], slotOk := cvtSlot k }
    (fun c s t => put t d (cvtnVal ((gridOf s t).slot k.toNat) (hintRm c) (hintSat c) (rd t a) (rd t b))) s
/-- CVTW (R135, R137). -/
def execCvtw (k : BitVec 3) (d a b : Reg) (s : State) : Host.Outcome State Fault Refusal :=
  regWord { opSpec [sp1 a, sp1 b] [sp1 d] with slotOk := cvtSlot k }
    (fun _ s t => put t d (cvtwVal ((gridOf s t).slot k.toNat) (rd t a) (rd t b))) s
/-- UNPK3 (R138). -/
def execUnpk3 (z : Bool) (m : BitVec 2) (d a : Reg) (s : State) : Host.Outcome State Fault Refusal :=
  regWord (opSpec [sp1 a] [(d.toNat, 5, 1)]) (fun _ _ t => unpk3Lane z m d a t) s
/-- CBDEC (R139). -/
def execCbdec (k : BitVec 3) (d a : Reg) (s : State) : Host.Outcome State Fault Refusal :=
  regWord { opSpec [sp1 a] [sp2 d] with slotOk := cbSlot k }
    (fun _ s t => putPair t d (cbdecVal (gridOf s t) k.toNat (rd t a))) s
/-- ICVI (R134). -/
def execIcvi (m : IcviMode) (d a : Reg) (s : State) : Host.Outcome State Fault Refusal := un d a (icviVal m) s
/-- BSEL (R143). -/
def execBsel (d a b : Reg) (s : State) : Host.Outcome State Fault Refusal :=
  regWord (opSpecD [sp1 a, sp1 b] [sp1 d]) (fun _ _ t => put t d (bselVal (rd t d) (rd t a) (rd t b))) s
/-- DOTB4 (R144). -/
def execDotb4 (sat ua ub : Bool) (d a b : Reg) (s : State) : Host.Outcome State Fault Refusal :=
  regWord (opSpecD [sp1 a, sp1 b] [sp1 d]) (fun _ _ t => put t d (dotb4Val sat ua ub (rd t d) (rd t a) (rd t b))) s
/-- ISGNA (R145). -/
def execIsgna (d a b : Reg) (s : State) : Host.Outcome State Fault Refusal :=
  regWord (opSpecD [sp1 a, sp1 b] [sp1 d]) (fun _ _ t => put t d (isgnaVal (rd t d) (rd t a) (rd t b))) s

end Sys2Proof.Machine
end

