-- ==== Sys2Proof/Machine/Special.lean ====
section
/-! DEFINITION. Special.lean: the special functions of R140 to R142 and the exponential of SPALPHA (R175). Where the manual
gives a bound and not a value, the result is the free value of Config when that keeps the bound, and the nearest FP32 value
otherwise. -/

namespace Sys2Proof.Machine

/-- floor(ln 2 x 2^192). -/
def ln2Fix : Nat := 0xb17217f7d1cf79abc9e3b39803f2f6af40f343267298b62d
/-- floor(log2 e x 2^192). -/
def log2eFix : Nat := 0x171547652b82fe1777d0ffda0d23a7d11d6aef551bad2b4b1
/-- floor(2 pi x 2^192). -/
def twoPiFix : Nat := 0x6487ed5110b4611a62633145c06e0e68948127044533e63a0

/-- The Taylor sum of e^y for y x 2^192 below 2^192, from term `k`. -/
def expSum (y : Nat) : Nat → Nat → Nat → Nat
  | 0, _, _ => 0
  | n + 1, k, term => term + expSum y n (k + 1) (term * y / 2 ^ 192 / (k + 1))

/-- 2^f x 2^192 for f x 2^192 below 2^192. -/
def exp2Frac (f : Nat) : Nat := expSum (f * ln2Fix / 2 ^ 192) 48 0 (2 ^ 192)

/-- 2^x for x in units of 2^-192, as m x 2^e. -/
def exp2Dyadic (x : Int) : Nat × Int :=
  (exp2Frac (x % (2 ^ 192 : Nat)).toNat, x / (2 ^ 192 : Nat) - 192)

/-- A dyadic magnitude in units of 2^-192, rounded down. -/
def toFix (m : Nat) (e : Int) : Nat := if 0 ≤ e + 192 then m * 2 ^ (e + 192).toNat else m / 2 ^ (-(e + 192)).toNat

/-- The series of atanh(u), u x 2^192 given, from the term u^k / k. -/
def atanhSum (u2 : Nat) : Nat → Nat → Nat → Nat
  | 0, _, _ => 0
  | n + 1, k, p => p / k + atanhSum u2 n (k + 2) (p * u2 / 2 ^ 192)

/-- log2 of a positive m x 2^e, in units of 2^-192. -/
def log2Fix (m : Nat) (e : Int) : Int :=
  let k := Nat.log2 m
  let u := (m - 2 ^ k) * 2 ^ 192 / (m + 2 ^ k)
  let ln := 2 * atanhSum (u * u / 2 ^ 192) 64 1 u
  ((k : Int) + e) * (2 ^ 192 : Nat) + (ln * log2eFix / 2 ^ 192 : Nat)

/-- The series of sin(th), th in units of 2^-F, from a term of degree `k`. -/
def sinSum (th2 F : Nat) : Nat → Nat → Nat → Bool → Int
  | 0, _, _, _ => 0
  | n + 1, k, p, neg => signed neg p + sinSum th2 F n (k + 2) (p * th2 / 2 ^ F / ((k + 1) * (k + 2))) (!neg)

/-- sin(2 pi x) for a dyadic x = m x 2^e in 0..1/4, m > 0, as n x 2^f. -/
def sinQuarter (m : Nat) (e : Int) : Nat × Int :=
  let p := twoPiFix * m                        -- theta = p x 2^(e - 192)
  let z := ((192 : Int) - e - Nat.log2 p).toNat   -- theta is about 2^-z
  let F := 192 + z
  let th := if 0 ≤ e - 192 + F then p * 2 ^ (e - 192 + F).toNat else p / 2 ^ (192 - e - F).toNat
  ((sinSum (th * th / 2 ^ F) F 40 1 th false).toNat, -(F : Int))

/-- Does an FP32 code keep a bound of `n` ulp of an exact result near `neg` m x 2^e? The approximation is good to one part
in 2^40, and the check allows for that (R140). -/
def withinUlp (n : Nat) (neg : Bool) (m : Nat) (e : Int) (z : Nat) : Bool :=
  match value .fp32 z with
  | .fin zn zm ze _ =>
    let u := max ((Nat.log2 (m - m / 2 ^ 40 - 1) : Int) + e) (-126) - 23
    let g := min (min e ze) (min u (e - 40))
    let y := signed neg (m * 2 ^ (e - g).toNat)
    let x := signed zn (zm * 2 ^ (ze - g).toNat)
    (zn == neg || zm == 0) &&
      decide ((x - y).natAbs + m * 2 ^ (e - 40 - g).toNat ≤ n * 2 ^ (u - g).toNat)
  | _ => false

/-- A result within `n` ulp of m x 2^e: the free value where it keeps the bound, else the nearest finite value. -/
def chosen (op n : Nat) (args : List Word) (neg : Bool) (m : Nat) (e : Int) : Nat :=
  let c := (Config.special op args).toNat
  if withinUlp n neg m e c then c else round .fp32 .rne true (.fin neg m e)

/-- Is a positive magnitude a power of two? -/
def isPow2 (m : Nat) : Bool := 2 ^ Nat.log2 m == m

/-- CanonNaN of FP32. -/
def nan32 : Nat := 0x7FC00000
/-- +infinity. -/
def inf32 : Nat := 0x7F800000

/-- RECIP (R141). Of ±2^-128, whose reciprocal lies just outside the format, the bound allows the two largest finite values, and the
free value says which (notes/assumptions/7.md). -/
def recipVal (a : Word) : Nat :=
  match value .fp32 a.toNat with
  | .nan => nan32
  | .inf n => withSign .fp32 n 0
  | .fin n m e _ =>
    if m = 0 then withSign .fp32 n inf32
    else if (Nat.log2 m : Int) + e < -128 then withSign .fp32 n inf32
    else if isPow2 m ∧ (Nat.log2 m : Int) + e = -128 then withSign .fp32 n (0x7F7FFFFF - (Config.special 0 [a]).toNat % 2)
    else
      let q := 2 ^ (96 + Nat.log2 m) / m
      let f : Int := -e - 96 - Nat.log2 m
      if isPow2 m then round .fp32 .rne true (.fin n q f) else chosen 0 1 [a] n q f

/-- m x 2^e with an even exponent, for square roots. -/
def evenExp (m : Nat) (e : Int) : Nat × Int := if e % 2 = 0 then (m, e) else (2 * m, e - 1)

/-- SQRT: correctly rounded (R141). -/
def sqrtVal (a : Word) : Nat :=
  match value .fp32 a.toNat with
  | .nan => nan32
  | .inf n => if n then nan32 else inf32
  | .fin n m e _ =>
    if m = 0 then withSign .fp32 n 0
    else if n then nan32
    else
      let (m, e) := evenExp m e
      let x := m * 2 ^ 64
      let r := isqrt x 48 0
      round .fp32 .rne false (.fin false r (e / 2 - 32) (r * r != x))

/-- RROOT (R141). -/
def rrootVal (a : Word) : Nat :=
  match value .fp32 a.toNat with
  | .nan => nan32
  | .inf n => if n then nan32 else 0
  | .fin n m e _ =>
    if m = 0 then withSign .fp32 n inf32
    else if n then nan32
    else
      let (m, e) := evenExp m e
      let r := isqrt (2 ^ 192 / m) 97 0
      if isPow2 m && Nat.log2 m % 2 == 0 then round .fp32 .rne true (.fin false r (-(e / 2) - 96))
      else chosen 1 2 [a] false r (-(e / 2) - 96)

/-- EXP2 (R141). -/
def exp2Val (a : Word) : Nat :=
  match value .fp32 a.toNat with
  | .nan => nan32
  | .inf n => if n then 0 else inf32
  | .fin n m e _ =>
    let x : Ext := .fin n m e
    if !(x.lt (.fin false 128 0)) then inf32
    else if x.lt (.fin true 150 0) then 0
    else
      let (y, f) := exp2Dyadic (signed n (toFix m e))
      if m = 0 ∨ (0 ≤ e ∨ m % 2 ^ (-e).toNat = 0) ∧ ¬ x.lt (.fin true 149 0) then round .fp32 .rne true (.fin false y f)
      else chosen 2 2 [a] false y f

/-- LOG2 (R141). -/
def log2Val (a : Word) : Nat :=
  match value .fp32 a.toNat with
  | .nan => nan32
  | .inf n => if n then nan32 else inf32
  | .fin n m e _ =>
    if m = 0 then withSign .fp32 true inf32
    else if n then nan32
    else if isPow2 m then round .fp32 .rne true (.ofInt ((Nat.log2 m : Int) + e))
    else
      let y := log2Fix m e
      chosen 3 2 [a] (decide (y < 0)) y.natAbs (-192)

/-- TANH (R141). -/
def tanhVal (a : Word) : Nat :=
  match value .fp32 a.toNat with
  | .nan => nan32
  | .inf n => withSign .fp32 n 0x3F800000
  | .fin n m e _ =>
    if m = 0 then withSign .fp32 n 0
    else if !((Ext.fin false m e).lt (.fin false 10 0)) then withSign .fp32 n 0x3F800000
    else if (Nat.log2 m : Int) + e < -10 then
      -- a - a^3 / 3 + 2 a^5 / 15, in units of 2^(e - 128)
      let sq := if 0 ≤ 2 * e + 192 then m * m * 2 ^ (2 * e + 192).toNat else m * m / 2 ^ (-(2 * e + 192)).toNat
      let y := m * (2 ^ 192 - sq / 3 + 2 * (sq * sq / 2 ^ 192) / 15) / 2 ^ 64
      chosen 4 2 [a] n y (e - 128)
    else
      let (p, f) := exp2Dyadic (2 * (toFix m e * log2eFix / 2 ^ 192) : Nat)
      let p := if 0 ≤ f + 192 then p * 2 ^ (f + 192).toNat else p / 2 ^ (-(f + 192)).toNat
      chosen 4 2 [a] n ((p - 2 ^ 192) * 2 ^ 192 / (p + 2 ^ 192)) (-192)

/-- sin(2 pi (quarter x j + x)) for x = m x 2^e in 0..1/4, j the quadrant, within 2 ulp and exact at quarter turns. -/
def sinTurn (op : Nat) (a : Word) (j m : Nat) (e : Int) : Nat :=
  let neg := decide (2 ≤ j)
  let (m', e') :=
    if j % 2 = 0 then (m, e)
    else let f := min e (-2); (2 ^ (-2 - f).toNat - m * 2 ^ (e - f).toNat, f)
  if m' = 0 then 0
  else if 0 ≤ e' + 2 ∧ m' * 2 ^ (e' + 2).toNat = 1 ∨ e' + 2 < 0 ∧ m' = 2 ^ (-(e' + 2)).toNat then withSign .fp32 neg 0x3F800000
  else
    let (y, f) := sinQuarter m' e'
    let z := chosen op 2 [a] neg y f
    if 0x3F800000 < z % 2 ^ 31 then withSign .fp32 neg 0x3F800000 else z

/-- SINT and COST (R142): the argument in turns, reduced exactly. -/
def turnVal (op quarter : Nat) (a : Word) : Nat :=
  match value .fp32 a.toNat with
  | .fin n m e _ =>
    if 0 ≤ e then sinTurn op a (quarter % 4) 0 0
    else
      let d := 2 ^ (-e).toNat
      let r := if n then (d - m % d) % d else m % d      -- the turn, in units of 2^e
      let j := 4 * r / d
      let x := 4 * r % d                                  -- the rest of the quadrant, in units of 2^(e - 2)
      sinTurn op a ((j + quarter) % 4) x (e - 2)
  | _ => nan32

/-- SINT; of -0 it is -0 (R142). -/
def sintVal (a : Word) : Nat := if a = 0x80000000 then 0x80000000 else turnVal 5 0 a
/-- COST (R142). -/
def costVal (a : Word) : Nat := turnVal 6 1 a

/-- SPALPHA (R175): the opacity o at the exponent -q/2. -/
def alphaVal (cA cB cC o dx dy : Word) : Nat :=
  let v (x : Word) := value .fp32 x.toNat
  let q := sumExt false [((v cA).mul (v dx)).mul (v dx), (((v cB).mul (v dx)).mul (v dy)).shift 1, ((v cC).mul (v dy)).mul (v dy)]
  let anyNan := [cA, cB, cC, o, dx, dy].any fun x => isNaN .fp32 x.toNat
  let zero : Ext := .fin false 0 0
  if anyNan ∨ q = .nan ∨ q = .inf false ∨ ¬ zero.lt (v o) then 0
  else
    let top : Nat := 0x3F7F0000
    let z := match q, v o with
      | .inf _, _ => top
      | _, .inf _ => top
      | .fin qn qm qe _, .fin _ om oe _ =>
        if qm = 0 then (if (Ext.fin false 255 (-8)).lt (v o) then top else o.toNat)
        else if (Nat.log2 qm : Int) + qe ≥ 10 then (if qn then top else 0)
        else
          let x := toFix qm (qe - 1) * log2eFix / 2 ^ 192
          let (y, f) := exp2Dyadic (signed (!qn) x)
          let m := om * y
          let e := oe + f
          if !((Ext.fin false m e).lt (.fin false 255 (-8))) then top
          else let z := chosen 7 2 [cA, cB, cC, o, dx, dy] false m e; if top < z then top else z
      | _, _ => 0
    if (value .fp32 z).lt (.fin false 1 (-8)) then 0 else z

/-- A special function as a word. -/
def special (d a : Reg) (f : Word → Nat) (s : State) : Host.Outcome State Fault Refusal :=
  regWord (opSpec [sp1 a] [sp1 d]) (fun _ _ t => put t d (BitVec.ofNat 32 (f (rd t a)))) s

/-- RECIP (R141). -/
def execRecip (d a : Reg) (s : State) : Host.Outcome State Fault Refusal := special d a recipVal s
/-- RROOT (R141). -/
def execRroot (d a : Reg) (s : State) : Host.Outcome State Fault Refusal := special d a rrootVal s
/-- SQRT (R141). -/
def execSqrt (d a : Reg) (s : State) : Host.Outcome State Fault Refusal := special d a sqrtVal s
/-- EXP2 (R141). -/
def execExp2 (d a : Reg) (s : State) : Host.Outcome State Fault Refusal := special d a exp2Val s
/-- LOG2 (R141). -/
def execLog2 (d a : Reg) (s : State) : Host.Outcome State Fault Refusal := special d a log2Val s
/-- TANH (R141). -/
def execTanh (d a : Reg) (s : State) : Host.Outcome State Fault Refusal := special d a tanhVal s
/-- SINT (R142). -/
def execSint (d a : Reg) (s : State) : Host.Outcome State Fault Refusal := special d a sintVal s
/-- COST (R142). -/
def execCost (d a : Reg) (s : State) : Host.Outcome State Fault Refusal := special d a costVal s

end Sys2Proof.Machine
end

