-- ==== Sys2Proof/Machine/Splat.lean ====
section
/-! DEFINITION. Splat.lean: SPALPHA, SPBLEND, KEYPK and TRIEDGE (R174 to R178). -/

namespace Sys2Proof.Machine

/-- The FP32 value of register n + i. -/
def regVal (t : Thread) (n : Reg) (i : Nat) : Ext := value .fp32 (readReg t (n.toNat + i)).toNat

/-- SPBLEND in one lane (R176): a lane whose T is below 2^-13 or a NaN, or whose alpha lies outside (0, 1], is unchanged. Every
source is read before a destination is written, a DESIGN CHOICE where spans overlap (notes/assumptions/53.md). -/
def spblendLane (d a b : Reg) (t : Thread) : Thread :=
  let tr := regVal t d 3
  let al := regVal t b 0
  let one : Ext := .fin false 1 0
  if tr = .nan ∨ tr.lt (.fin false 1 (-13)) ∨ ¬ (Ext.lt (.fin false 0 0) al) ∨ one.lt al then t
  else
    let w := round .fp32 .rne false (tr.mul al)
    let ch (i : Nat) : Word := w32 (round .fp32 .rne false (sumExt false [regVal t d i, (value .fp32 w).mul (regVal t a i)]))
    writeSpan t d.toNat [ch 0, ch 1, ch 2, w32 (round .fp32 .rne false (tr.mul (sumExt false [one, al.neg])))]

/-- The depth code of KEYPK (R177). -/
def keyDepth (a : Word) : Word :=
  if 0x7F800000 < a.toNat % 2 ^ 31 then 0x7F800000 else if a.getLsbD 31 then 0 else a

/-- The results of TRIEDGE (R178): the edge value, and the inside flag. -/
def triedgeVal (x0 y0 x1 y1 px py : Ext) : Word × Word :=
  let e := sumExt false [(sumExt false [px, x0.neg]).mul (sumExt false [y1, y0.neg]),
    ((sumExt false [py, y0.neg]).mul (sumExt false [x1, x0.neg])).neg]
  let zero : Ext := .fin false 0 0
  let topLeft := y0.lt y1 || (y1.eqv y0 && x1.lt x0)
  if e = .nan ∨ [x0, y0, x1, y1, px, py].any (· == .nan) then (0x7FC00000, 0)
  else (if e.eqv zero then 0 else w32 (round .fp32 .rne false e), if zero.lt e ∨ e.eqv zero ∧ topLeft then 1 else 0)

/-- SPALPHA (R175). -/
def execSpalpha (d a b : Reg) (s : State) : Host.Outcome State Fault Refusal :=
  regWord (opSpec [sp4 a, sp2 b] [sp1 d]) (fun _ _ t =>
    let r (i : Nat) := readReg t (a.toNat + i)
    put t d (w32 (alphaVal (r 0) (r 1) (r 2) (r 3) (rd t b) (readReg t (b.toNat + 1))))) s
/-- SPBLEND (R176): D is also a source. -/
def execSpblend (d a b : Reg) (s : State) : Host.Outcome State Fault Refusal :=
  regWord (opSpecD [(a.toNat, 3, 1), sp1 b] [sp4 d]) (fun _ _ t => .ok (spblendLane d a b t)) s
/-- KEYPK (R177): both sources are read before D is written, a DESIGN CHOICE (notes/assumptions/53.md). -/
def execKeypk (d a b : Reg) (s : State) : Host.Outcome State Fault Refusal :=
  regWord (opSpec [sp1 a, sp1 b] [sp2 d]) (fun _ _ t => .ok (writeSpan t d.toNat [keyDepth (rd t a), rd t b])) s
/-- TRIEDGE (R178). -/
def execTriedge (d a b : Reg) (s : State) : Host.Outcome State Fault Refusal :=
  regWord (opSpec [sp4 a, sp2 b] [sp2 d]) (fun _ _ t =>
    let r := triedgeVal (regVal t a 0) (regVal t a 1) (regVal t a 2) (regVal t a 3) (regVal t b 0) (regVal t b 1)
    .ok (writeSpan t d.toNat [r.1, r.2])) s

end Sys2Proof.Machine
end

