-- ==== Sys2Proof/Machine/GroupVal.lean ====
section
/-! DEFINITION. GroupVal.lean: what the collective words of class 0x4 compute from the values of a group's participants
(R152 to R160). -/

namespace Sys2Proof.Machine

/-- A participant at a join: its group lane, its A value and its B value. -/
structure Part where
  g : Nat
  x : Word
  y : Word
  deriving DecidableEq, Repr

/-- The A value of a group lane, where it is a participant. -/
def partX (l : List Part) (g : Nat) : Option Word := (l.find? fun p => p.g == g).map (·.x)

/-- B of the lowest participant, as a number. -/
def lowY (l : List Part) : Nat := (l.head?.map (·.y.toNat)).getD 0

/-- SHFL (R153). -/
def shflVal (m : ShflMode) (w : Nat) (l : List Part) (p : Part) : Word :=
  let k := p.y.toNat
  let src : Option Nat := match m with
    | .lane => some (k % w)
    | .below => if k ≤ p.g then some (p.g - k) else none
    | .above => if p.g + k < w then some (p.g + k) else none
    | .flip => some (p.g ^^^ (k % w))
  ((src.bind (partX l)).getD p.x)

/-- BCAST (R154). -/
def bcastVal (w : Nat) (l : List Part) (p : Part) : Word := (partX l (lowY l % w)).getD p.x

/-- The pair whose bit h is set where participant h meets `f`. -/
def maskOf (l : List Part) (f : Part → Bool) : List Word := natSpan 2 ((l.filter f).map fun p => 2 ^ p.g).sum

/-- GPOLL (R155). -/
def gpollVal (m : GpollMode) (l : List Part) (p : Part) : List Word :=
  let b (x : Bool) : List Word := [if x then 1 else 0]
  match m with
  | .some => b (l.any fun q => q.x != 0)
  | .every => b (l.all fun q => q.x != 0)
  | .mask => maskOf l fun q => q.x != 0
  | .same => b (l.all fun q => q.x == p.x)

/-- IRED's combination and identity (R156). -/
def iredOp (m : IredOp) : (Word → Word → Word) × Word :=
  match m with
  | .add => (fun a b => a + b, 0)
  | .minI => (iminVal .i, 0x7FFFFFFF)
  | .maxI => (imaxVal .i, 0x80000000)
  | .minN => (iminVal .n, 0xFFFFFFFF)
  | .maxN => (imaxVal .n, 0)
  | .and => (fun a b => a &&& b, 0xFFFFFFFF)
  | .or => (fun a b => a ||| b, 0)
  | .xor => (fun a b => a ^^^ b, 0)

/-- ISCAN's operation, as IRED's. -/
def iscanOp (m : IscanOp) : IredOp :=
  match m with
  | .add => .add
  | .maxI => .maxI
  | .minI => .minI
  | .or => .or

/-- IRED (R156). -/
def iredVal (m : IredOp) (l : List Part) : Word := (l.map (·.x)).foldl (iredOp m).1 (iredOp m).2

/-- ISCAN (R156). -/
def iscanVal (excl : Bool) (m : IscanOp) (l : List Part) (p : Part) : Word :=
  iredVal (iscanOp m) (l.filter fun q => if excl then q.g < p.g else q.g ≤ p.g)

/-- The node operation of FRED and FSCAN (R157). -/
def fredOp (m : FredOp) (a b : Word) : Word :=
  match m with
  | .add => fadd32 a b
  | .min => fminmaxVal false .number a b
  | .max => fminmaxVal true .number a b

/-- The tree of R157 over the 2^n group lanes from `g` on; missing lanes have no value. -/
def fredTree (m : FredOp) (x : Nat → Option Word) : Nat → Nat → Option Word
  | 0, g => x g
  | n + 1, g => match fredTree m x n g, fredTree m x n (g + 2 ^ n) with
    | a, none => a
    | none, b => b
    | some a, some b => some (fredOp m a b)

/-- A NaN made canonical. -/
def canon32 (x : Word) : Word := if isNaN .fp32 x.toNat then 0x7FC00000 else x

/-- FRED (R157). -/
def fredVal (m : FredOp) (w : Nat) (l : List Part) : Word := canon32 ((fredTree m (partX l) (Nat.log2 w) 0).getD 0)

/-- FSCAN's operation and identity (R158). -/
def fscanOp (m : FscanOp) : FredOp × Word :=
  match m with
  | .add => (.add, 0)
  | .min => (.min, 0x7F800000)
  | .max => (.max, 0xFF800000)

/-- The running value of FSCAN over values in ascending group lane (R158). -/
def runVal (m : FredOp) : List Word → Option Word
  | [] => none
  | x :: xs => some (xs.foldl (fredOp m) x)

/-- FSCAN (R158). -/
def fscanVal (excl : Bool) (m : FscanOp) (l : List Part) (p : Part) : Word :=
  let before := (l.filter fun q => if excl then q.g < p.g else q.g ≤ p.g).map (·.x)
  canon32 ((runVal (fscanOp m).1 before).getD (fscanOp m).2)

/-- The field width of COMPACT (R159). -/
def compactBits (m : CompactW) : Nat :=
  match m with
  | .w8 => 8 | .w16 => 16 | .w24 => 24 | .w32 => 32

/-- The slot of a participant under COMPACT (R159). -/
def compactVal (l : List Part) (p : Part) : Nat := lowY l + (l.filter fun q => q.g < p.g && q.x != 0).length

/-- Does COMPACT overflow its field? (R159) -/
def compactOvf (m : CompactW) (l : List Part) : Bool := l.any fun p => decide (2 ^ compactBits m ≤ compactVal l p)

/-- DDX in a quad (R160): the result, and whether an absent position was used. -/
def ddxVal (m : DdxMode) (l : List Part) (p : Part) : Word × Bool :=
  let j := p.g % 4
  let q := p.g / 4 * 4
  let (a, b) := match m with
    | .cx => (1, 0)
    | .cy => (2, 0)
    | .fx => (2 * (j / 2) + 1, 2 * (j / 2))
    | .fy => (2 + j % 2, j % 2)
  let v (i : Nat) : Word := (partX l (q + i)).getD p.x
  (fsubVal .rne (v a) (v b), (partX l (q + a)).isNone || (partX l (q + b)).isNone)

/-- What a collective word that writes registers writes, first register and value for each participant; none where the
word is no such word (R153 to R160). -/
def joinWrites (i : Instr) (w : Nat) (l : List Part) : Option (Reg × (Part → List Word)) :=
  match i with
  | .shfl m d _ _ => some (d, fun p => [shflVal m w l p])
  | .gpoll m d _ => some (d, gpollVal m l)
  | .ired m d _ => some (d, fun _ => [iredVal m l])
  | .fred m d _ => some (d, fun _ => [fredVal m w l])
  | .iscan e m d _ => some (d, fun p => [iscanVal e m l p])
  | .fscan e m d _ => some (d, fun p => [fscanVal e m l p])
  | .peers d _ => some (d, fun p => maskOf l fun q => q.x == p.x)
  | .bcast d _ _ => some (d, fun p => [bcastVal w l p])
  | .leader d => some (d, fun p => [if l.head?.map (·.g) = some p.g then 1 else 0])
  | .ddx m d _ => some (d, fun p => [(ddxVal m l p).1])
  | .compact _ d _ _ => some (d, fun p => [BitVec.ofNat 32 (compactVal l p)])
  | _ => none

/-- The registers that a collective word reads at the join as A and B. -/
def joinAB (i : Instr) : Reg × Reg :=
  match i with
  | .shfl _ _ a b => (a, b)
  | .gpoll _ _ a => (a, a)
  | .ired _ _ a => (a, a)
  | .fred _ _ a => (a, a)
  | .iscan _ _ _ a => (a, a)
  | .fscan _ _ _ a => (a, a)
  | .peers _ a => (a, a)
  | .bcast _ a b => (a, b)
  | .ddx _ _ a => (a, a)
  | .compact _ _ a b => (a, b)
  | _ => (0, 0)

end Sys2Proof.Machine
end

