-- ==== Sys2Proof/Machine/MatrixVal.lean ====
section
/-! DEFINITION. MatrixVal.lean: the fragments of the matrix words, the spans they need, the products of one accumulator
element, the check of sparsity metadata, and the pruning of CMPRS (R163 to R167, R171 to R173). -/

namespace Sys2Proof.Machine

/-- Element width in a fragment of A; CB2 indices are 16 bits wide (R164). -/
def fragWidth (fmt : Nat) : Nat :=
  match fmtOf fmt with
  | some f => f.width
  | none => 16

/-- Scale bits of a scale code of R38. -/
def scaleBits (code : Nat) : Nat := if code = 1 then 8 else if code = 2 then 16 else 0

/-- Scale words of `blocks` blocks (R165). -/
def scaleWords (code blocks : Nat) : Nat := (blocks * scaleBits code + 31) / 32

/-- Data words of A (R164). -/
def dataWordsA (x : Nat) : Nat := if slotA x = 7 then 4 else 8
/-- Data words of B. -/
def dataWordsB (sp : Bool) : Nat := if sp then 16 else 8
/-- n_A of R165. -/
def spanA (x : Nat) : Nat := dataWordsA x + scaleWords (slotAscl x) (if slotA x = 7 then 1 else kExtent x / 32)
/-- n_B of R165. -/
def spanB (x : Nat) (sp : Bool) : Nat := dataWordsB sp + scaleWords (slotBscl x) (kExtent x * (if sp then 2 else 1) / 32)
/-- Metadata words: 1, 2 or 4 for element widths 16, 8 or 4 (R164, R171). -/
def metaWords (x : Nat) : Nat := 16 / fragWidth (slotA x)

/-- Does an MMA-family word accept a slot? (R166) -/
def mmaSlot (k : BitVec 3) (sp : Bool) (g : Grid) : Bool :=
  let x := g.slot k.toNat
  slotKind x == 1 && (slotM x != 0) == sp

/-- Groups of a sparse row (R171). -/
def sparseGroups (x : Nat) : Nat := kExtent x / (slotM x / 2)
/-- Logical positions of a sparse row, K_L. -/
def sparseLen (x : Nat) : Nat := sparseGroups x * slotM x
/-- Stored slots in use: every slot, but 6G under M = 12. -/
def usedSlots (x : Nat) (sp : Bool) : Nat := if sp then sparseGroups x * (slotM x / 2) else kExtent x

/-- Element i of width w of a span. -/
def elemAt (ws : List Word) (w i : Nat) : Nat := bits (spanNat ws) (w * i + w - 1) (w * i)

/-- The scale of block i, from the scale words after `data` data words (R165). -/
def blockScale (code : Nat) (ws : List Word) (data i : Nat) : Ext :=
  scaleValue (sclOf code) (elemAt (ws.drop data) (scaleBits code) i)

/-- AV(g, i) of R166: a stored slot of A times its scale; a CB2 coordinate times the row's scale. A CB2
coordinate of magnitude 0 is +0, whatever its sign bit: DESIGN CHOICE (R33, R42; notes/assumptions/52.md). -/
def avVal (g : Grid) (k x : Nat) (ws : List Word) (i : Nat) : Ext :=
  match fmtOf (slotA x) with
  | some f => (value f (elemAt ws f.width i)).mul (blockScale (slotAscl x) ws (dataWordsA x) (i / 32))
  | none =>
    let ix := elemAt ws 16 (i / 8)
    let c := ((cb2Coords (cb2Entry g k ix) ix)[i % 8]?).getD 0
    (Ext.fin (decide (c < 0)) c.natAbs (-1)).mul (blockScale (slotAscl x) ws 4 0)

/-- BV(o, j, p) of R166. -/
def bvVal (x : Nat) (sp : Bool) (ws : List Word) (p : Nat) : Ext :=
  match fmtOf (slotB x) with
  | some f => (value f (elemAt ws f.width p)).mul (blockScale (slotBscl x) ws (dataWordsB sp) (p / 32))
  | none => .fin false 0 0

/-- The logical positions that a mask keeps, ascending (R171). -/
def keptPositions (mask len : Nat) : List Nat := (List.range len).filter fun p => bit mask p

/-- Pos(g, i) for every stored slot in use. -/
def positions (x : Nat) (sp : Bool) (mask : List Word) : List Nat :=
  if sp then keptPositions (spanNat mask) (sparseLen x) else List.range (kExtent x)

/-- One accumulator element after a pass (R42 to R44, R166): INT32 wraps, FP32 is rounded once per k-block. -/
def macElem (g : Grid) (k x : Nat) (sp : Bool) (aw mask : List Word) (bw : List Word) (c : Word) : Word :=
  let pos := (positions x sp mask).take (usedSlots x sp)
  if slotAcc x = 1 then
    let prods := pos.mapIdx fun i p => sext (elemAt aw 8 i) 8 * sext (elemAt bw 8 p) 8
    BitVec.ofInt 32 (c.toInt + prods.sum)
  else
    let blocks := (List.range ((pos.length + slotKblk x - 1) / slotKblk x)).map fun b =>
      (((pos.mapIdx fun i p => (i, p)).drop (b * slotKblk x)).take (slotKblk x)).map fun ip =>
        (avVal g k x aw ip.1).mul (bvVal x sp bw ip.2)
    blocks.foldl (fun c l => w32 (round .fp32 .rne false (sumExt false [value .fp32 c.toNat, sumExt false l]))) c

/-- Is a row's metadata valid? (R172) -/
def metaOk (x : Nat) (mask : List Word) : Bool :=
  let n := spanNat mask
  let m := slotM x
  (List.range (sparseGroups x)).all (fun q => (keptPositions (bits n (q * m + m - 1) (q * m)) m).length == m / 2) &&
    n / 2 ^ sparseLen x == 0

/-- Does position p of a group rank above q in CMPRS: greater magnitude, a NaN above every number, the lower position on a
tie? (R173) Of two NaNs the rule does not say which ranks above: DESIGN CHOICE, the lower position
(notes/assumptions/57.md). -/
def ranksAbove (f : NumFmt) (v : Nat → Nat) (p q : Nat) : Bool :=
  let a := value f (v p)
  let b := value f (v q)
  let abs (e : Ext) : Ext := match e with
    | .fin _ m k st => .fin false m k st
    | .inf _ => .inf false
    | .nan => .nan
  match isNaN f (v p), isNaN f (v q) with
  | true, true => decide (p < q)
  | true, false => true
  | false, true => false
  | false, false => (abs b).lt (abs a) || ((abs a).eqv (abs b) && decide (p < q))

/-- The positions that CMPRS keeps: in each group, those that fewer than M/2 others rank above (R173). -/
def cmprsKept (f : NumFmt) (m groups : Nat) (v : Nat → Nat) : List Nat :=
  (List.range (groups * m)).filter fun p =>
    decide (((List.range m).filter fun i => ranksAbove f v (p / m * m + i) p).length < m / 2)

/-- CMPRS of one row: the stored fragment and the mask (R173). -/
def cmprsVal (x : Nat) (aw : List Word) : List Word × List Word :=
  match fmtOf (slotA x) with
  | none => ([], [])
  | some f =>
    let w := f.width
    let kept := cmprsKept f (slotM x) (sparseGroups x) fun p => elemAt aw w p
    (natSpan 8 ((kept.mapIdx fun i p => elemAt aw w p * 2 ^ (w * i)).sum), natSpan (metaWords x) ((kept.map fun p => 2 ^ p).sum))

end Sys2Proof.Machine
end

