-- ==== Sys2Proof/Machine/Join.lean ====
section
/-! DEFINITION. Join.lean: the implicit join of the collective words, quad joins and GJOIN, and what a completed join does
(R146 to R150, R160, R161, R166 to R168, R172). -/

namespace Sys2Proof.Machine

/-- The participants of a group, in ascending group lane (R146). -/
def participants (s : State) (team group : Nat) : List (Nat × Thread) :=
  let l := (groupMates s team group).filter fun e => e.2.live
  (List.range 64).filterMap fun g => l.find? fun e => e.2.glane == g

/-- The PC of the word at which a thread waits, past its hints (R147, R149). -/
def Thread.waitPc (t : Thread) : Word := t.pc + BitVec.ofNat 32 ((t.held.map (·.hints.length)).getD 0)

/-- The word at which every thread of a list waits: one PC of that word, whatever hints led there, and no debug stop (R147, R149,
R337). Where code has changed between their fetches (R181), the threads may hold different words for one PC: DESIGN CHOICE,
they join, and the word of the lowest participant executes for all (notes/assumptions/56.md). -/
def joinedAt (l : List (Nat × Thread)) : Option Instr :=
  match l with
  | [] => none
  | (_, t) :: _ =>
    if l.all fun e => e.2.st == .waiting && e.2.waitOn == .join && !e.2.dstop && e.2.waitPc == t.waitPc then t.held.map (·.instr)
    else none

/-- The operand values of participants. -/
def partsOf (i : Instr) (l : List (Nat × Thread)) : List Part :=
  l.map fun e => { g := e.2.glane, x := rd e.2 (joinAB i).1, y := rd e.2 (joinAB i).2 }

/-- A participant that takes its result and completes the word. -/
def joinWrite (i : Instr) (ps : List Part) (d : Reg) (f : Part → List Word) (s : State) (e : Nat × Thread) : State :=
  match ps.find? fun p => p.g == e.2.glane with
  | none => s
  | some p =>
    let t := writeSpan e.2 d.toNat (f p)
    let t := match i with
      | .ddx m _ _ => if (ddxVal m ps p).2 then { t with derivLost := true } else t
      | _ => t
    release (setThread s e.1 t) e.1

/-- What an MMA-family word names: slot, D, A, B, sparse, uniform. -/
def mmaParts (i : Instr) : Option (BitVec 3 × Reg × Reg × Reg × Bool × Bool) :=
  match i with
  | .mma k d a b => some (k, d, a, b, false, false)
  | .mmaU k d a b => some (k, d, a, b, false, true)
  | .mmaSp k d a b => some (k, d, a, b, true, false)
  | .mmaSpU k d a b => some (k, d, a, b, true, true)
  | _ => none

/-- The register that HINT.OPX X1 names. -/
def opxX1 (hs : List Hint) : Nat := ((hs.find? fun h => h.kind == 1).map fun h => bits h.payload.toNat 23 17).getD 0

/-- The matrix operations in flight of a group with a D span start (R168). -/
def inFlight (s : State) (team group d : Nat) : List (Nat × MatOp) :=
  s.ex.matOps.filter fun e => e.2.team == team && e.2.group == group && e.2.dstart == d

/-- Is MATNARROW of a core 1? (R85) -/
def isNarrow (s : State) (core : Nat) : Bool := s.ex.matNarrow.contains core

/-- Cycles of a matrix operation: one a pass, or two where it runs in the narrow mode, which is that of its start (R168, R169). -/
def matCycles (s : State) (o : MatOp) : Nat := if o.narrow.getD (isNarrow s o.core) then 2 * o.passes else o.passes

/-- The operations of an engine. -/
def engineOps (s : State) (core e : Nat) : Tab MatOp := s.ex.matOps.filter fun o => o.2.core == core && o.2.engine == e

/-- Cycles of the operations that wait on an engine. -/
def engineLoad (s : State) (core e : Nat) : Nat := (engineOps s core e).foldl (fun n o => n + matCycles s o.2) 0

/-- The oldest operation of an engine, which it runs, takes its mode as it starts (R168, R169, R411). -/
def startEngine (s : State) (core e : Nat) : State :=
  match engineOps s core e with
  | [] => s
  | (id, o) :: _ =>
    if o.narrow.isSome then s
    else { s with ex := { s.ex with matOps := tset s.ex.matOps id { o with narrow := some (isNarrow s core) } } }

/-- The engine that becomes free first, the lowest-numbered on a tie (R168). -/
def freeEngine (s : State) (core : Nat) : Nat :=
  (List.range 4).foldl (fun b e => if engineLoad s core e < engineLoad s core b then e else b) 0

/-- A matrix operation from the operands of every participant, read at once (R166 to R168). -/
def matOpOf (s : State) (l : List (Nat × Thread)) (team group core : Nat) (x : Nat)
    (p : BitVec 3 × Reg × Reg × Reg × Bool × Bool) : MatOp :=
  let (k, d, a, b, sp, u) := p
  let prev := (inFlight s team group d.toNat).getLast?
  { core := core, engine := (prev.map (·.2.engine)).getD (freeEngine s core), team := team, group := group, dstart := d.toNat,
    sp := sp, uniform := u, slot := k.toNat, chained := prev.isSome,
    passes := if u then 1 else ((List.range 8).filter fun o => l.any fun e => e.2.glane / 8 == o).length
    lanes := l.map (·.2.glane)
    a := l.map fun e => (e.2.glane, readSpan e.2 a.toNat (spanA x))
    b := l.map fun e => (e.2.glane, readSpan e.2 b.toNat (spanB x sp))
    c := l.map fun e => (e.2.glane, readSpan e.2 d.toNat 8)
    mask := l.map fun e => (e.2.glane, readSpan e.2 (opxX1 ((e.2.held.map (·.hints)).getD [])) (metaWords x)) }

/-- A participant after its matrix operation is accepted: D is pending, and the word is complete (R168). -/
def pendD (id d : Nat) (s : State) (e : Nat × Thread) : State :=
  let (n, s) := fresh s
  release (modThread s e.1 fun t => { t with ops := t.ops ++
    [{ id := n, wid := n, cnt := .uncounted, kind := .matrix id, dest := d, dlen := 8, performed := true }] }) e.1

/-- A completed join of an MMA-family word: SPARSE_META in the participants with invalid metadata, none of them executing,
or one matrix operation (R166, R172). -/
def joinMatrix (s : State) (l : List (Nat × Thread)) (p : BitVec 3 × Reg × Reg × Reg × Bool × Bool) : State :=
  match l with
  | [] => s
  | (k0, t0) :: _ =>
    let x := (gridOf s t0).slot p.1.toNat
    let op := matOpOf s l t0.team t0.group (coreOf k0) x p
    let bad := l.filter fun e => op.sp && !metaOk x ((tget op.mask e.2.glane).getD [])
    if bad ≠ [] then bad.foldl (fun s e => deliver s e.1 0x0D 0 e.2.pc) s
    else
      let (id, s) := fresh s
      let s := startEngine { s with ex := { s.ex with matOps := tset s.ex.matOps id op } } op.core op.engine
      l.foldl (pendD id op.dstart) s

/-- A completed join executes its word once, for every participant (R147). -/
def runJoined (s : State) (l : List (Nat × Thread)) (i : Instr) (w : Nat) : State :=
  match mmaParts i with
  | some p => joinMatrix s l p
  | none =>
    let ps := partsOf i l
    let ovf := match i with
      | .compact m _ _ _ => compactOvf m ps
      | _ => false
    if ovf then l.foldl (fun s e => deliver s e.1 0x0F 0 e.2.pc) s
    else match joinWrites i w ps with
      | none => s
      | some (d, f) => l.foldl (joinWrite i ps d f) s

/-- Is a word a DDX, which joins the quad only? (R160) -/
def isDdx (i : Instr) : Bool := match i with
  | .ddx .. => true
  | _ => false

/-- The quads of a group whose participants all wait at one DDX execute it (R160). -/
def checkQuads (s : State) (l : List (Nat × Thread)) (w : Nat) : State :=
  (List.range 16).foldl (fun s q =>
    let ql := l.filter fun e => e.2.glane / 4 == q
    match joinedAt ql with
    | some i => if isDdx i then runJoined s ql i w else s
    | none => s) s

/-- The joins of a group that are complete execute: GJOIN releases every participant (R161), a collective word executes
(R147), and so does a DDX whose quad is complete (R160). -/
def checkGroup (s : State) (team group : Nat) : State :=
  let l := participants s team group
  match l with
  | [] => s
  | (_, t) :: _ =>
    let w := (gridOf s t).width
    if l.all fun e => e.2.st == .waiting && e.2.waitOn == .gjoin && !e.2.dstop then l.foldl (fun s e => release s e.1) s
    else match joinedAt l with
      | some i => if isDdx i then checkQuads s l w else runJoined s l i w
      | none => checkQuads s l w

/-- The joins that a thread's arrival or exit may complete. -/
def checkJoins (s : State) (k : Nat) : State :=
  match getThread s k with
  | some t => checkGroup s t.team t.group
  | none => s

/-- A collective word: each live lane arrives and waits, and the join that it completes executes (R147, R148). -/
def collective (w : WordSpec) (i : Instr) (s : State) : Host.Outcome State Fault Refusal :=
  issueThen w (fun c s k t => .wait (setThread s k (waiting c t .join i))) checkJoins s

end Sys2Proof.Machine
end

