-- ==== Sys2Proof/Machine/Waits.lean ====
section
/-! DEFINITION. Waits.lean: what ends a wait: barriers (R221, R399 to R401), the conditions of WAIT (R398), and the exit of a
thread by STOP (R333). -/

namespace Sys2Proof.Machine

/-- The scope of the BAR at which a thread waits. -/
def barScope (t : Thread) : Option BarScope :=
  if t.waitOn = .bar then match t.held with
    | some { instr := .bar m, .. } => some m
    | _ => none
  else none

/-- Have the accesses of a set's exited threads all received their stamps? A release takes the pts of those threads too, after
that (R221, R400). -/
def drainedStamped (l : List (Nat × Thread)) : Bool := l.all fun e => e.2.live || stamped e.2

/-- A thread waits at a BAR of a scope. -/
def atBar (m : BarScope) (t : Thread) : Bool := barScope t == some m

/-- The threads of a barrier set released, with the largest pts of the set, of which `p` is that of threads that are gone
(R221, R400). -/
def releaseBar (s : State) (m : BarScope) (p : Nat) (set : List (Nat × Thread)) : State :=
  let p := set.foldl (fun n e => max n e.2.pts) p
  set.foldl (fun s e => if atBar m e.2 then release (modThread s e.1 fun t => { t with pts := max t.pts p }) e.1 else s) s

/-- Exited threads of a list. -/
def drained (l : List (Nat × Thread)) : Nat := (l.filter fun e => !e.2.live).length

/-- A team's barrier released where its condition holds (R400). -/
def checkTeamBar (s : State) (team : Nat) : State :=
  match tget s.ex.teams team with
  | none => s
  | some tm =>
    let l := teamMates s team
    if 0 < tm.barCount ∧ tm.barCount + drained l = tm.threads ∧ drainedStamped l then
      releaseBar (modTeam s team fun tm => { tm with barCount := 0 }) .team 0 l
    else s

/-- The threads of a cluster's teams. -/
def clusterThreads (s : State) (c : Cluster) : List (Nat × Thread) := c.teams.flatMap (teamMates s)

/-- The threads of a cluster's freed teams that have accesses in flight. -/
def lateThreads (s : State) (k : Nat) : List (Nat × Thread) :=
  s.ex.threads.filter fun e => decide (2 ^ 90 ≤ e.2.team) && ((tget s.ex.teams e.2.team).map (·.cluster)) == some k

/-- A cluster's barrier released where its condition holds (R400). Threads of a freed team of it have exited. -/
def checkClusterBar (s : State) (k : Nat) : State :=
  match tget s.ex.clusters k with
  | none => s
  | some c =>
    let l := clusterThreads s c
    let size := c.teams.foldl (fun n k => n + ((tget s.ex.teams k).map (·.threads)).getD 0) 0
    let gone := c.teams.foldl (fun n k => n + match tget s.ex.teams k with
      | some tm => if tm.gone then tm.threads else 0
      | none => 0) 0
    let late := lateThreads s k
    let top := c.teams.foldl (fun p k => max p (((tget s.ex.teams k).map (·.exitPts)).getD 0)) 0
    if 0 < c.barCount ∧ c.barCount + drained l + gone = size ∧ drainedStamped (l ++ late) then
      releaseBar { s with ex := { s.ex with clusters := tset s.ex.clusters k { c with barCount := 0 } } } .cluster top (l ++ late)
    else s

/-- The barriers that a thread of a team may complete. -/
def checkBars (s : State) (team : Nat) : State :=
  let s := checkTeamBar s team
  match tget s.ex.teams team with
  | some tm => checkClusterBar s tm.cluster
  | none => s

/-- The first poisoned or denied value that a WAIT's ld condition covers: every operation but the `ld` most recent
(R396, R398). -/
def waitBad (t : Thread) (ld : BitVec 6) : Option Bad :=
  if ld.toNat = 63 then none
  else t.bad.find? fun b => b.cnt == .ld && decide (b.seq + ld.toNat ≤ t.ldIssued)

/-- The pts of a thread whose WAIT completes: the F of every job that its cp condition covers (R225). -/
def waitJoin (t : Thread) (cp : BitVec 4) : Thread :=
  if cp.toNat = 15 then t
  else
    let l := t.retF.filter fun e => decide (e.1 + cp.toNat ≤ t.cpIssued)
    { t with pts := l.foldl (fun n e => max n e.2) t.pts, retF := t.retF.filter fun e => !decide (e.1 + cp.toNat ≤ t.cpIssued) }

/-- A value's fault has been raised. -/
def dropBad (t : Thread) (b : Bad) : Thread := { t with bad := t.bad.filter fun x => x.id != b.id }

/-- A thread that waits at a WAIT completes it, or faults, where its condition holds (R398). -/
def checkWait (s : State) (k : Nat) : State :=
  match getThread s k with
  | none => s
  | some t => match t.held with
    | some { instr := .wait ld st cp tl, .. } =>
      if t.st = .waiting ∧ t.waitOn = .wait ∧ waitMet t ld st cp tl then
        match waitBad t ld with
        | some b => deliver (setThread s k (dropBad t b)) k (badCode b) b.addr t.pc
        | none => release (setThread s k (waitJoin t cp)) k
      else s
    | _ => s

/-- The horizon entries that an exiting thread holds, released (R229, R236, R266). -/
def closeOwn (s : State) (t : Thread) : State :=
  let s := if t.tx.held then closeSnap s t.tx.s else s
  match t.snap with
  | .own S => closeSnap s S
  | _ => s

/-- An exited thread (R265, R333). -/
def exited (t : Thread) : Thread :=
  let t := if 0 < t.tx.depth then abortTx t 4 else t
  { t with tx := {}, snap := .off, st := .draining, btag := Config.noTag, runPos := 0, waitOn := .nothing, held := none, frame := none }

/-- A tile of a team whose last thread has exited: it is drained and freed (R344). -/
def exitTile (e : Nat × Tile) : Option (Nat × Tile) :=
  match e.2.st with
  | .ready | .draining => some (e.1, { e.2 with st := .draining, freeing := true })
  | _ => none

/-- Fills of a team's tiles wait in no merge table any more, nor for other packages. -/
def dropTileWaiters (s : State) (team : Nat) (p : Nat → Bool) : State :=
  let s := forget s fun o => match o with
    | .tile t j => t == team && p j
    | _ => false
  { s with tr := { s.tr with merges := s.tr.merges.map fun e => (e.1, { e.2 with waiters := e.2.waiters.filter fun w => match w with
      | .tile t j _ => !(t == team && p j)
      | _ => true }) } }

/-- The tiles of a team, drained and freed where its last thread has exited (R335, R344). -/
def exitTiles (s : State) (team : Nat) : State :=
  if (teamMates s team).all fun e => !e.2.live then
    modTeam (dropTileWaiters s team fun _ => true) team fun tm => { tm with tiles := tm.tiles.filterMap exitTile }
  else s

/-- The thread exits: it leaves its bundle, every join and every barrier count (R333). -/
def exitThread (s : State) (k : Nat) : State :=
  match getThread s k with
  | none => s
  | some t =>
    let s := setThread (closeOwn s t) k (exited t)
    exitTiles (checkBars (checkGroup (leaveBundle s k) t.team t.group) t.team) t.team

/-- STOP's load drain ends: the thread exits, or takes the fault of a poisoned value (R242, R333). -/
def finishStop (s : State) (k : Nat) (fpc : Word) : State :=
  match getThread s k with
  | none => s
  | some t => match t.bad.find? fun b => b.cnt == .ld with
    | some b => deliver (setThread s k (dropBad t b)) k (badCode b) b.addr fpc
    | none => exitThread s k

/-- A thread that waits at STOP exits once its ld counter is zero (R333); under a debug stop it becomes STOPPED before the word
instead (R326, R337), but for one that the supervisor has ended, whose token says so (R382). -/
def checkStop (s : State) (k : Nat) : State :=
  match getThread s k with
  | none => s
  | some t =>
    if t.st = .waiting ∧ t.waitOn = .stop ∧ count t .ld = 0 then
      if t.dstop ∧ (t.held.any fun h => h.token == 1) = false then setThread s k (unparked t) else finishStop s k t.pc
    else s

/-- The barriers that an exited thread's last stamp may complete (R221, R400). -/
def checkDrained (s : State) (k : Nat) : State :=
  match getThread s k with
  | some t => if !t.live && stamped t then checkBars s t.team else s
  | none => s

/-- The waits that the retirement of a thread's operations, or their stamps, may end. -/
def recheck (s : State) (k : Nat) : State := checkDrained (checkStop (checkWait s k) k) k

/-- The tl operations on a tile that its state completes: every one at EMPTY, the fills at READY (R353). -/
def tileOps (s : State) (team k : Nat) (fillOnly : Bool) : State :=
  (teamMates s team).foldl (fun s e =>
    let l := e.2.ops.filter fun o => match o.kind with
      | .tile j f => j == k && (f || !fillOnly)
      | _ => false
    if l.isEmpty then s else recheck (l.foldl (fun s o => acceptOp s e.1 o.id) s) e.1) s

/-- A tile brought to EMPTY, or unmapped where it is being freed (R344, R353). -/
def tileEmpty (s : State) (team k : Nat) : State :=
  let s := modTeam (dropTileWaiters s team (· == k)) team fun tm => match tget tm.tiles k with
    | none => tm
    | some x => if x.freeing then { tm with tiles := tdel tm.tiles k }
      else { tm with tiles := tset tm.tiles k { x with st := .empty, blocks := [], waiters := [], poisoned := [], buf := [] } }
  tileOps s team k false

/-- A read of a tile's elements that met PAGE_PROT: a fill is discarded, a READY tile stays, and every lane whose word waits on
the tile faults (R344, R352). -/
def tileFault (s : State) (team k code va : Nat) : State :=
  match (tget s.ex.teams team).bind fun tm => tget tm.tiles k with
  | none => s
  | some x =>
    let s := if x.st = .filling then tileEmpty s team k
      else modTeam (dropTileWaiters s team (· == k)) team fun tm => { tm with tiles := tmod tm.tiles k fun x => { x with waiters := [], buf := [] } }
    x.waiters.foldl (fun s j => match getThread s j with
      | some t => if t.st = .ready then deliver s j code va t.pc else s
      | none => s) s

end Sys2Proof.Machine
end

