-- ==== Sys2Proof/Machine/Packet.lean ====
section
/-! DEFINITION. Packet.lean: a Koloz frame as the bytes of its forwarding header and its flits (R309, R310), and the packet of a
CHLD: its next access, its next step, its end, and the bytes in which a CHAIN frame carries it (R226, R254 to R256). -/

namespace Sys2Proof.Machine

/-- The forwarding header (R309). -/
def frameHeader (f : Frame) : Nat := f.dpkg * 2 ^ 35 + f.spkg * 2 ^ 22 + f.cls * 2 ^ 20 + f.entropy * 2 ^ 12 + f.rsv % 2 ^ 12

/-- The operands that stand in DATA of the first flit: those that fit, where no flit follows (R310). -/
def frameOperands (f : Frame) : Nat := if f.len = 0 then leNat (f.data.take 40) else 0

/-- The first flit (R310). -/
def firstFlit (f : Frame) : Nat :=
  f.stamp * 2 ^ 448 + bits f.rsv 18 12 * 2 ^ 441 + f.addr * 2 ^ 384 + f.asid * 2 ^ 372 + f.tag * 2 ^ 356 + f.ack * 2 ^ 354 +
    bits f.rsv 20 19 * 2 ^ 352 + f.op * 2 ^ 344 + f.subop * 2 ^ 336 + f.len * 2 ^ 320 + frameOperands f

/-- Flits of a frame (R309, R310). -/
def frameFlits (f : Frame) : Nat := 1 + (f.len + 63) / 64

/-- One bit of the FCS of Ethernet, with the polynomial of IEEE 802.3 in reflected order. -/
def fcsBit (c : Nat) : Nat := if c % 2 = 1 then c / 2 ^^^ 0xEDB88320 else c / 2

/-- One byte of the FCS. -/
def fcsByte (c : Nat) (b : Byte) : Nat :=
  fcsBit (fcsBit (fcsBit (fcsBit (fcsBit (fcsBit (fcsBit (fcsBit (c ^^^ b.toNat))))))))

/-- The standard FCS of bytes, as it is sent (R309). -/
def fcs (bs : List Byte) : List Byte := natLe 4 (bs.foldl fcsByte 0xFFFFFFFF ^^^ 0xFFFFFFFF)

/-- The bytes of a frame before its FCS: the header and the EtherType 0x88B5, most significant byte first, then the flits, each
lowest byte first (R6, R309, R310). -/
def frameBody (f : Frame) : List Byte :=
  (natLe 6 (frameHeader f)).reverse ++ (natLe 2 0x88B5).reverse ++ natLe 64 (firstFlit f) ++
    if f.len = 0 then [] else f.data ++ List.replicate (64 * (frameFlits f - 1) - f.data.length) 0

/-- The bytes of a frame, which end in its FCS (R309). -/
def frameBytes (f : Frame) : List Byte := frameBody f ++ fcs (frameBody f)

/-- The next access of a packet: its address, size and kind; none where only .addr is left (R254). -/
def chainNext (ch : Chain) : Option (Int × Nat × Acc) :=
  match (if ch.self then none else ch.steps[ch.k]?) with
  | some x => some (ch.p + sext (bits x 31 0) 32, if bits x 47 46 = 1 then 4 else 8, .chain)
  | none => match ch.fin with
    | .ld64 => some (ch.p, 8, .chain)
    | .ld32 => some (ch.p, 4, .chain)
    | .add32 => some (ch.p, 4, .chainAdd)
    | .addr => none

/-- Is the next access the final one? -/
def chainFinal (ch : Chain) : Bool := ch.self || decide (ch.steps.length ≤ ch.k)

/-- A step of the descriptor taken with the value read (R254). -/
def chainAdvance (ch : Chain) (x v : Nat) : Chain :=
  let v := v % 2 ^ (64 - bits x 39 32) / 2 ^ bits x 45 40 * 2 ^ bits x 45 40
  let q : Int := if bits x 47 46 = 0 then v
    else if bits x 47 46 = 1 then ch.base + v % 2 ^ 32 * 2 ^ bits x 51 48
    else ch.base + v * 2 ^ bits x 51 48
  if bit x 52 ∧ q = ch.p then { ch with k := ch.k + 1, n := ch.n + 1, self := true }
  else { ch with k := ch.k + 1, n := ch.n + 1, p := q }

/-- The result of .addr, where its address is one (R254). -/
def chainAddrValue (ch : Chain) : Option Nat :=
  if ch.p < 0 ∨ 2 ^ 57 ≤ ch.p then none else some (ch.p.toNat + ch.self.toNat * 2 ^ 63 + ch.n * 2 ^ 57)

/-- MOD of a CHLD. -/
def finCode : ChldFin → Nat
  | .ld64 => 0 | .ld32 => 1 | .addr => 2 | .add32 => 3

/-- The CHLD that a MOD names. -/
def finOf : Nat → Option ChldFin
  | 0 => some .ld64 | 1 => some .ld32 | 2 => some .addr | 3 => some .add32 | _ => none

/-- A packet on its way: whether its owner is to send it back after one access, and its state. Its frame names its issuer. -/
structure Packet where
  one : Bool := false
  chain : Chain
  deriving DecidableEq, Repr

/-- The bytes in which a CHAIN frame carries a packet: the descriptor and the partial state of R256. STAMP holds c. Their places
are a DESIGN CHOICE (notes/assumptions/31.md). -/
def packetBytes (x : Packet) : List Byte :=
  let ch := x.chain
  natLe 1 x.one.toNat ++ natLe 1 (finCode ch.fin) ++ natLe 1 ch.k ++ natLe 1 ch.n ++
    natLe 1 ch.self.toNat ++ natLe 10 (wrap ch.p 80) ++ natLe 8 ch.base ++ natLe 4 ch.x1 ++ ch.steps.flatMap (natLe 8)

/-- Eight-byte words of bytes. -/
def words8 : Nat → List Byte → List Nat
  | 0, _ => []
  | n + 1, bs => leNat (bs.take 8) :: words8 n (bs.drop 8)

/-- The packet that a CHAIN frame carries, or none where its bytes are none. -/
def packetOf (stamp : Nat) (bs : List Byte) : Option Packet :=
  let at_ (i n : Nat) : Nat := leNat ((bs.drop i).take n)
  let rest := bs.drop 27
  match finOf (at_ 1 1) with
  | none => none
  | some fin =>
    if rest.length = 0 ∨ rest.length % 8 ≠ 0 ∨ 64 < rest.length then none
    else some { one := at_ 0 1 == 1
                chain := { fin := fin, steps := words8 (rest.length / 8) rest, k := at_ 2 1, p := sext (at_ 5 10) 80, n := at_ 3 1, c := stamp
                           base := at_ 15 8, x1 := at_ 23 4, self := at_ 4 1 == 1 } }

/-- The packet returns its result: the issuer's pts takes c (R226). -/
def chainDone (s : State) (k id c v : Nat) : State :=
  modThread s k fun t => { modOp t id (fun o => { o with performed := true, visible := true, value := v }) with pts := max t.pts c }

/-- A packet that read a poisoned value returns: its destination is poisoned, at the address of the step (R242, R256). -/
def chainPoison (s : State) (k id c va : Nat) : State :=
  modThread s k fun t =>
    { modOp t id (fun o => { o with performed := true, visible := true, poisoned := true, va := va }) with pts := max t.pts c }

/-- What an access of a packet read, taken: the packet as it sets out for its next access, or none where that was the last. -/
def chainGot (ch : Chain) (c v : Nat) : Option Chain :=
  if chainFinal ch then none
  else (ch.steps[ch.k]?).map fun x => chainAdvance { ch with c := c } x v

end Sys2Proof.Machine
end

