-- ==== Sys2Proof/Machine/Fabric.lean ====
section
/-! DEFINITION. Fabric.lean: Koloz frames and requests, what a request does at its home on this package, what an answer does
for the thread that sent it, the failure of peers (R309 to R318), and the freezing of masters (R282, R388). -/

namespace Sys2Proof.Machine

/-- A master frozen: its event (R282, R388, R405). -/
def freezeEvent (s : State) (srcKind srcId master num asid reason detail : Nat) : State :=
  post s srcKind srcId 1 (master + 2 ^ 16 * (num % 2 ^ 16) + 2 ^ 32 * asid) (reason + 256 * detail)

/-- The event source of an engine instance (R292, R404): its kind, and its index among the engines of that kind of its die plus
32 times the die (notes/assumptions/19.md). -/
def engineSrc (inst : Nat) : Nat × Nat :=
  if inst = 128 then (3, 0) else if inst = 129 then (5, 0) else if inst % 32 = 8 then (2, inst - 8) else (1, inst)

/-- SRCKIND and SRCID of an engine instance in a fault record: the index within the die (R279). -/
def recordSrc (inst : Nat) : Nat × Nat := ((engineSrc inst).1, (engineSrc inst).2 % 32)

/-- A card's stream frozen (R292). -/
def freezeCard (s : State) (card reason : Nat) : State :=
  match tget s.en.cards card with
  | none => s
  | some c =>
    if c.frozen.isSome then s
    else freezeEvent (modCard s card fun c => { c with frozen := some reason }) (engineSrc c.instance_).1 (engineSrc c.instance_).2 1
      c.instance_ c.asid reason 0

/-- Is a fabric port up: one that the part has, that has not failed and is not retired? (R306, R317, R320) -/
def portUp (s : State) (p : Nat) : Bool := decide (p < 32) && !s.fa.downPorts.contains p && !s.fa.badPorts.contains p

/-- The lowest fabric port that is up; a flow uses it (R306, R317; notes/assumptions/30.md). -/
def upPort (s : State) : Option Nat := (List.range 32).find? (portUp s)

/-- Another path than by a port, where there is one (R317). -/
def otherPort (s : State) (p : Option Nat) : Option Nat :=
  match (List.range 32).find? fun q => portUp s q && p != some q with
  | some q => some q
  | none => upPort s

/-- A frame given to a port; with no port up it goes nowhere. -/
def sendBy (s : State) (port : Option Nat) (f : Frame) : State :=
  match port with
  | none => s
  | some p => perf { s with fa := { s.fa with sent := (p, f) :: s.fa.sent } } 4 p 0 1

/-- A frame given to the port of its flow. -/
def sendFrame (s : State) (f : Frame) : State := sendBy s (upPort s) f

/-- Bytes that stand in the flits after the first: what does not fit the 40 bytes of DATA, and a CHAIN's descriptor and partial
state (R310). -/
def lenOf (op : Nat) (data : List Byte) : Nat := if data.length ≤ 40 ∧ op ≠ 5 then 0 else data.length

/-- A peer's context. -/
def getPeer (s : State) (p : Nat) : Peer := (tget s.fa.peers p).getD {}
/-- A peer's context set. -/
def setPeer (s : State) (p : Nat) (x : Peer) : State := { s with fa := { s.fa with peers := tset s.fa.peers p x } }

/-- The frame of a request as it is sent: from this package, under its TAG and its peer's next sequence number (R310, R315). -/
def requestFrame (s : State) (tag : Nat) (f : Frame) : Frame :=
  { f with spkg := s.fa.pkg, cls := 0, tag := tag, len := lenOf f.op f.data, seq := (getPeer s f.dpkg).sendSeq }

/-- A request sent, and remembered until it is answered; to a package that is lost nothing is sent (R310, R317). -/
def startRequest (s : State) (tag : Nat) (r : Request) : State :=
  let f := requestFrame s tag r.frame
  let p := getPeer s f.dpkg
  let s := setPeer s f.dpkg { p with sendSeq := p.sendSeq + 1 }
  let port := upPort s
  let s := if p.lost then s else sendBy s port f
  { s with fa := { s.fa with requests := tset s.fa.requests tag { r with frame := f, since := s.bd.clock, port := port } } }

/-- A request made: under a free TAG, or, where none is free, after the requests that wait for one (R310). -/
def sendRequest (s : State) (f : Frame) (owner : Owner) (parts : List (Nat × Nat × Nat) := []) (slot : Option Nat := none) : State :=
  let r : Request := { frame := f, since := s.bd.clock, owner := owner, parts := parts, slot := slot, born := s.nextId }
  match tfree s.fa.requests 65536 0 with
  | none => { s with fa := { s.fa with unsent := s.fa.unsent ++ [r] } }
  | some tag => startRequest s tag r

/-- A request is answered for good: its TAG goes to the request that has waited longest for one. -/
def dropRequest (s : State) (tag : Nat) : State :=
  let s := { s with fa := { s.fa with requests := tdel s.fa.requests tag } }
  match s.fa.unsent with
  | [] => s
  | r :: rest => startRequest { s with fa := { s.fa with unsent := rest } } tag r

/-- Every request of an owner, waiting for a TAG or for an answer. -/
def ownRequests (s : State) (o : Owner) : List Request := (s.fa.requests.map (·.2) ++ s.fa.unsent).filter fun r => r.owner == o

/-- SUBOP of an atomic: the SUB of its word x 8 and its MOD (R67, R310; notes/assumptions/31.md). -/
def rmwSubop : Rmw → Nat
  | .atom o => match o with
    | .add => 0 | .minI => 1 | .maxI => 2 | .minN => 3 | .maxN => 4 | .and => 5 | .or => 6 | .xchg => 7
  | .atom64 o => match o with
    | .add => 8 | .minN => 9 | .maxN => 10 | .xchg => 11 | .and => 12 | .or => 13
  | .atomf o => match o with
    | .add => 16 | .min => 17 | .max => 18
  | .cas w _ => match w with
    | .w32 => 24
    | .w64 => 25
  | .countDown => 26

/-- The atomic that a SUBOP names, with its size; `cmp` is CAS's compare value. -/
def rmwOf (subop cmp : Nat) : Option (Rmw × Nat) :=
  match subop with
  | 0 => some (.atom .add, 4) | 1 => some (.atom .minI, 4) | 2 => some (.atom .maxI, 4) | 3 => some (.atom .minN, 4)
  | 4 => some (.atom .maxN, 4) | 5 => some (.atom .and, 4) | 6 => some (.atom .or, 4) | 7 => some (.atom .xchg, 4)
  | 8 => some (.atom64 .add, 8) | 9 => some (.atom64 .minN, 8) | 10 => some (.atom64 .maxN, 8) | 11 => some (.atom64 .xchg, 8)
  | 12 => some (.atom64 .and, 8) | 13 => some (.atom64 .or, 8) | 16 => some (.atomf .add, 4) | 17 => some (.atomf .min, 4)
  | 18 => some (.atomf .max, 4) | 24 => some (.cas .w32 cmp, 4) | 25 => some (.cas .w64 cmp, 8)
  | 26 => some (.countDown, 8) | _ => none

/-- MOD of a RADD. -/
def raddMod : RaddKind → Nat
  | .f32 => 0 | .f32x2 => 1 | .f32x4 => 2 | .i32 => 3

/-- The RADD that a MOD names. -/
def raddOf (n : Nat) : Option RaddKind :=
  match n with
  | 0 => some .f32 | 1 => some .f32x2 | 2 => some .f32x4 | 3 => some .i32 | _ => none

/-- The compare value that CAS carries after its operand. -/
def casBytes (n : Nat) : Rmw → List Byte
  | .cas _ cmp => natLe n cmp
  | _ => []

/-- The request that an operation on a line of another package sends: OP, SUBOP and operands (R310). -/
def requestOf (o : Op) : Option (Nat × Nat × List Byte) :=
  match o.kind with
  | .load _ => some (1, 0, natLe 2 o.size)
  | .store x => some (2, 0, natLe o.size x)
  | .rmw f x => some (3, rmwSubop f, natLe o.size x ++ casBytes o.size f)
  | .radd k x => some (4, raddMod k, natLe o.size x)
  | _ => none

/-- Do two lanes of one word aggregate: an ATOM or ATOM64 of one address (R313)? -/
def lanesJoin (o : Op) (e : Nat × Op) : Bool :=
  match o.kind, e.2.kind with
  | .rmw (.atom _) _, .rmw _ _ => e.2.va == o.va
  | .rmw (.atom64 _) _, .rmw _ _ => e.2.va == o.va
  | _, _ => false

/-- The lanes that an aggregated atomic serves: thread, operation, operand (R313). -/
def laneParts (l : List (Nat × Op)) : List (Nat × Nat × Nat) :=
  l.filterMap fun e => match e.2.kind with
    | .rmw _ x => some (e.1, e.2.id, x)
    | _ => none

/-- The operation with the operands of its lanes combined in ascending home lane (R313). -/
def combineLanes (o : Op) (parts : List (Nat × Nat × Nat)) : Op :=
  match o.kind, parts with
  | .rmw f x, _ :: ps => { o with kind := .rmw f (ps.foldl (fun x p => f.apply x p.2.2) x) }
  | _, _ => o

/-- The largest pts of the threads of a list (R313). -/
def lanesPts (s : State) (l : List (Nat × Op)) : Nat := l.foldl (fun p e => max p (((getThread s e.1).map (·.pts)).getD 0)) 0

/-- Operations on a line of another package send their requests (R310, R311). The lanes of an ATOM or ATOM64 that name one
address send one request, with their operands combined in ascending home lane, and with the largest of their stamps (R313). -/
def sendOps : Nat → State → List (Nat × Op) → State
  | 0, s, _ => s
  | _, s, [] => s
  | fuel + 1, s, (k, o) :: rest =>
    let l := (k, o) :: rest.filter (lanesJoin o)
    let s := match getThread s k, o.loc, requestOf (combineLanes o (laneParts l)) with
      | some t, .remote pkg asid va, some (op, sub, data) =>
        sendRequest s { dpkg := pkg, spkg := 0, cls := 0, stamp := lanesPts s l, addr := va, asid := asid, tag := 0, op := op, subop := sub
                        data := data, rasid := (gridOf s t).asid } (.op k o.id) (laneParts l)
      | _, _, _ => s
    let mark (s : State) (e : Nat × Op) : State := modThread s e.1 fun t => modOp t e.2.id fun o => { o with sent := true }
    sendOps fuel (l.foldl mark s) (rest.filter fun e => !lanesJoin o e)

/-- A stretch of bytes, cut where a unit of `u` bytes ends. -/
def spanBy (u : Nat) : Nat → Nat → Nat → List (Nat × Nat)
  | 0, _, _ => []
  | fuel + 1, a, n =>
    if n = 0 then []
    else
      let m := min n (u - a % u)
      (a, m) :: spanBy u fuel (a + m) (n - m)

/-- Reads and writes of a stretch of bytes at a home, line by line. -/
def spanLines : Nat → Nat → Nat → List (Nat × Nat) := spanBy 128

/-- Bytes read at their homes by an agent of pts p: the largest stamp, the bytes, and whether any is poisoned. -/
def readSpanAt (s : State) (p pa n : Nat) : (Nat × List Byte × Bool) × State :=
  (spanLines (n + 1) pa n).foldl (fun (r : (Nat × List Byte × Bool) × State) x =>
    let (a, s) := loadAt r.2 r.1.1 x.1 x.2
    ((max r.1.1 a.ts, r.1.2.1 ++ natLe x.2 a.value, r.1.2.2 || a.poison), s)) ((p, [], false), s)

/-- Bytes written at their homes by an agent of pts p: the largest stamp; `clears` as for one write. -/
def writeSpanAt (s : State) (p pa : Nat) (bs : List Byte) (clears : Bool := false) : Nat × State :=
  (spanLines (bs.length + 1) pa bs.length).foldl (fun (r : Nat × State) x =>
    let (ts, s) := writeAt r.2 r.1 x.1 ((bs.drop (x.1 - pa)).take x.2) clears
    (max r.1 ts, s)) (p, s)

/-- Every line of a frame of memory written zero by the package itself (R372): its bytes, poison, records and deltas go, and
the zeros are its initial version. -/
def zeroFrame (s : State) (pa n : Nat) : State :=
  { s with mm := { s.mm with
      mem := s.mm.mem.filter fun c => !(decide (pa ≤ c.1) && decide (c.1 < pa + n))
      lines := s.mm.lines.map fun e =>
        (e.1, if pa ≤ e.1 * 128 ∧ e.1 * 128 < pa + n then { e.2 with wts := 0, poison := false, recs := [], delta := none } else e.2)
      l1 := s.mm.l1.filter fun e => !(decide (pa ≤ e.1 % 2 ^ 41 * 128) && decide (e.1 % 2 ^ 41 * 128 < pa + n)) } }

/-- The first write to a zero-fill page: zeros, then ZF cleared in the leaf, then its translations invalidated (R372). A migration that
has locked the page expects the leaf so (R377). -/
def zeroFill (s : State) (asid va : Nat) (l : Leaf) : State :=
  let n := pageBytes l.size
  let s := zeroFrame s l.frame n
  let x := leNat (mread s.mm.mem l.entry 8)
  let y := if bit x 57 then x - 2 ^ 57 else x
  let s := setMem s (mwrite s.mm.mem l.entry (natLe 8 y))
  let s := { s with tr := { s.tr with locks := s.tr.locks.map fun (m : MigLock) => if m.entry = l.entry ∧ m.leaf = x then { m with leaf := y } else m } }
  let inFrame (o : Op) : Bool := match o.loc with
    | .here pa => decide (l.frame ≤ pa) && decide (pa < l.frame + n)
    | _ => false
  let s := { s with ex := { s.ex with threads := s.ex.threads.map fun e =>
    (e.1, { e.2 with ops := e.2.ops.map fun o => if inFrame o && !o.performed then { o with zf := false } else o }) } }
  rewalk (dropPage s asid va l.size) asid (va / 65536)

/-- A walk of an agent that reached a malformed or poisoned table entry is reported (R365, R405). -/
def noteBad (s : State) (asid va : Nat) : State :=
  match walk s asid va with
  | .bad | .poison => post s 7 0 0x0B asid va
  | _ => s

/-- The physical address at which an agent accesses an address, with the leaf; a write to a zero-fill page has filled it
first. -/
def agentPa (s : State) (u : Via) (a : Acc) (asid va : Nat) : Except WalkEnd (Leaf × State) :=
  match walkNow s u a asid va with
  | .leaf l =>
    let s := noteWalk s u asid va
    if l.zf && needsW a then
      let s := zeroFill s asid va l
      .ok ({ l with zf := false }, s)
    else .ok (l, s)
  | e => .error e

/-- Is a page exported to an address space of a package? (R311) -/
def exported (s : State) (asid va pkg rasid : Nat) (l : Leaf) : Bool :=
  s.fa.exports.any fun e => e.asid == asid && e.pkg == pkg && e.rasid == rasid && e.vpn * 65536 / pageBytes l.size == va / pageBytes l.size

/-- The answer to a request. -/
def answer (s : State) (f : Frame) (op subop ack stamp : Nat) (data : List Byte) : Frame :=
  { dpkg := f.spkg, spkg := s.fa.pkg, cls := 1, entropy := f.entropy, stamp := stamp, addr := f.addr, asid := f.asid, tag := f.tag,
    ack := ack, op := op, subop := subop, len := lenOf op data, data := data, seq := f.seq }

/-- An answer sent, or held while the peer is frozen (R318). -/
def sendAnswer (s : State) (f : Frame) : State :=
  let p := getPeer s f.dpkg
  if p.frozen then setPeer s f.dpkg { p with owed := p.owed ++ [f] } else sendFrame s f

/-- An answer other than REFUSED, kept for a retransmission of its request (R315). -/
def respond (s : State) (f : Frame) : State :=
  let p := getPeer s f.dpkg
  sendAnswer (setPeer s f.dpkg { p with received := tset p.received f.seq ((tget p.received f.seq).getD [] ++ [f]) }) f

/-- A refusal or a discarded frame counted against a peer: it freezes after its third within one second (R318). -/
def strike (s : State) (port pkg : Nat) : State :=
  let p := getPeer s pkg
  let l := s.bd.clock :: p.strikes.filter fun c => decide (s.bd.clock < c + Config.cyclesSecond)
  let s := setPeer s pkg { p with strikes := l }
  if 3 ≤ l.length ∧ p.frozen = false then
    freezeEvent (setPeer s pkg { p with strikes := [], frozen := true }) 0xA port 2 pkg 0 0 0
  else s

/-- REFUSED is sent (R311, R318). -/
def sendRefused (s : State) (port : Nat) (f : Frame) : State := perf (sendFrame s (answer s f 0x83 0 0 f.stamp [])) 4 port 4 1

/-- A request refused for what it asks (R311, R318). -/
def refuse (s : State) (port : Nat) (f : Frame) : State :=
  let p := getPeer s f.spkg
  strike (sendRefused (setPeer s f.spkg { p with received := tdel p.received f.seq }) port f) port f.spkg

/-- Does a request ask what its OP may: a SUBOP that it has, and of a READ no more bytes than one answer carries? (R310;
notes/assumptions/31.md) -/
def subopOk (f : Frame) : Bool :=
  if f.op = 1 then decide (leNat f.data ≤ 1984)
  else if f.op = 3 then (rmwOf f.subop 0).isSome
  else if f.op = 4 then (raddOf f.subop).isSome
  else if f.op = 5 then (finOf f.subop).isSome && (packetOf f.stamp f.data).isSome
  else if f.op = 7 then decide (f.subop ≤ 1)
  else true

/-- Does a frame hold a reserved value? (R309, R310) -/
def badFrame (f : Frame) : Bool :=
  f.rsv != 0 || f.cls == 3 || decide (1984 < f.len) || f.ack == 3 || !([1, 2, 3, 4, 5, 6, 7, 8, 0x81, 0x82, 0x83].contains f.op) ||
    (f.cls == 0 && (f.ack != 0 || !subopOk f))

/-- A frame discarded, and counted against its peer (R310, R318). -/
def discard (s : State) (port : Nat) (f : Frame) : State := strike (perf s 4 port 1 1) port f.spkg

/-- Does a frame stand as a request of an operation to this package, on a port that is up? (R309, R310) -/
def isRequest (s : State) (port : Nat) (f : Frame) (op : Nat) : Bool :=
  portUp s port && f.dpkg == s.fa.pkg && f.spkg != s.fa.pkg && f.cls == 0 && f.op == op

/-- A request is received: discarded where it holds a reserved value, refused while its peer is frozen, answered as before
where it has been performed already, and performed by `act` otherwise, once nothing that it waits for stands before it (R310,
R315, R318). -/
def takeRequest (port : Nat) (f : Frame) (op : Nat) (act : State → State) (s : State) (waits : Bool := false) : State :=
  if !isRequest s port f op then s
  else if badFrame f then discard s port f
  else
    let p := getPeer s f.spkg
    if p.frozen then sendRefused (perf s 4 port 1 1) port f
    else match tget p.received f.seq with
      | some l => l.foldl sendAnswer (perf s 4 port 1 1)
      | none =>
        if waits then s
        else act (setPeer (perf s 4 port 1 1) f.spkg { p with received := tset p.received f.seq [] })

/-- The pages that a request's `n` bytes stand in, as stretches of addresses. -/
def framePages (f : Frame) (n : Nat) : List (Nat × Nat) := spanBy 65536 (n + 1) f.addr n

/-- Does a request wait, for the translation of one of its pages or for the host path? (R306, R367, R369) -/
def frameWaits (s : State) (f : Frame) (a : Acc) (n : Nat) : Bool :=
  (framePages f n).any fun x => walkWaits s { die := 0 } a f.asid x.1 || portWaits s { die := 0 } a f.asid x.1

/-- The stretches of a request's bytes with their translations, where each stands in a page that is exported to the request's
address space (R311); else the address of one that does not. -/
def homePages (f : Frame) (a : Acc) : State → List (Nat × Nat) → Except Nat (List (Leaf × Nat × Nat) × State)
  | s, [] => .ok ([], s)
  | s, (va, m) :: rest =>
    if 2 ^ 57 ≤ va then .error (va % 2 ^ 57)
    else match agentPa s { die := 0 } a f.asid va with
    | .error _ => .error va
    | .ok (l, s) =>
      if l.remote ∨ l.gather ∨ exported s f.asid va f.spkg f.rasid l = false then .error va
      else match homePages f a s rest with
        | .error va => .error va
        | .ok (ps, s) => .ok ((l, l.frame + va % pageBytes l.size, m) :: ps, s)

/-- What a request asks of its bytes is performed at their homes, where every page of them is exported to its address space
(R311). -/
def atHomes (port : Nat) (f : Frame) (a : Acc) (n : Nat) (act : State → List (Leaf × Nat × Nat) → State) (s : State) : State :=
  match homePages f a s (framePages f n) with
  | .error va => refuse (noteBad s f.asid va) port f
  | .ok (ps, s) => act s ps

/-- What a request asks of bytes within one line; one that would leave its line is refused (R238, R311;
notes/assumptions/31.md). -/
def atHome (port : Nat) (f : Frame) (a : Acc) (n : Nat) (act : State → Leaf → Nat → State) (s : State) : State :=
  if f.addr % 128 + n > 128 then refuse s port f
  else atHomes port f a n (fun s ps => match ps with
    | (l, pa, _) :: _ => act s l pa
    | [] => s) s

/-- A DATA answer; SUBOP 1 marks a poisoned value (notes/assumptions/31.md). That of an ATOMIC is its first answer (R314). -/
def dataAnswer (s : State) (f : Frame) (ts : Nat) (bs : List Byte) (poison : Bool) (ack : Nat := 0) : State :=
  respond s (answer s f 0x81 (if poison then 1 else 0) ack ts bs)

/-- Stretches of pages read by an agent of pts p: the largest stamp, the bytes, and whether any is poisoned. -/
def readPages (s : State) (p : Nat) (ps : List (Leaf × Nat × Nat)) : (Nat × List Byte × Bool) × State :=
  ps.foldl (fun (r : (Nat × List Byte × Bool) × State) x =>
    let ((ts, bs, poison), s) := if x.1.zf then
        let (p, s) := (spanLines (x.2.2 + 1) x.2.1 x.2.2).foldl (fun (r : Nat × State) y =>
          let (a, s) := zeroLoad r.2 r.1 y.1
          (a.ts, s)) (r.1.1, r.2)
        ((p, natLe x.2.2 0, false), s)
      else readSpanAt r.2 r.1.1 x.2.1 x.2.2
    ((ts, r.1.2.1 ++ bs, r.1.2.2 || poison), s)) ((p, [], false), s)

/-- KOLOZ_READ (R310, R311): a Load at the home with the stamp of the request. -/
def execKolozRead (port : Nat) (f : Frame) (s : State) : Host.Outcome State Fault Refusal :=
  let n := leNat f.data
  .next (takeRequest port f 1 (atHomes port f .load n fun s ps =>
    let (r, s) := readPages s f.stamp ps
    dataAnswer s f r.1 r.2.1 r.2.2) s (frameWaits s f .load n))

/-- Both answers of a write that is performed and readable at once (R314). -/
def ackBoth (s : State) (f : Frame) (ts : Nat) : State :=
  respond (respond s (answer s f 0x82 0 1 ts [])) (answer s f 0x82 0 2 ts [])

/-- KOLOZ_WRITE (R310, R311, R314): what it writes to host memory is flushed before the second answer. -/
def execKolozWrite (port : Nat) (f : Frame) (s : State) : Host.Outcome State Fault Refusal :=
  let n := f.data.length
  .next (takeRequest port f 2 (atHomes port f .store n fun s ps =>
    let (ts, _, s) := ps.foldl (fun (r : Nat × List Byte × State) x =>
      let (ts, s) := writeSpanAt r.2.2 r.1 x.2.1 (r.2.1.take x.2.2) (f.subop == 1)
      (ts, r.2.1.drop x.2.2, s)) (f.stamp, f.data, s)
    ackBoth (if ps.any fun x => isHost x.2.1 then flushHost s else s) f ts) s (frameWaits s f .store n))

/-- KOLOZ_ATOMIC (R310, R311, R313): answered by DATA with the old value. -/
def execKolozAtomic (port : Nat) (f : Frame) (s : State) : Host.Outcome State Fault Refusal :=
  let size := if f.subop / 8 = 1 ∨ 25 ≤ f.subop then 8 else 4
  .next (takeRequest port f 3 (fun s => match rmwOf f.subop (leNat (f.data.drop size)) with
    | none => s
    | some (r, n) => atHome port f .atomic n (fun s _ pa =>
      let (a, s) := rmwAt s f.stamp pa n r (leNat (f.data.take n))
      let s := dataAnswer (if isHost pa then flushHost s else s) f a.ts (natLe n a.value) a.poison 1
      respond s (answer s f 0x82 0 2 a.ts [])) s) s (frameWaits s f .atomic size))

/-- KOLOZ_RADD (R310, R311, R222): the delta merges at this package's partition; the second answer follows when it is
folded. -/
def execKolozRadd (port : Nat) (f : Frame) (s : State) : Host.Outcome State Fault Refusal :=
  .next (takeRequest port f 4 (fun s => match raddOf f.subop with
    | none => s
    | some r => atHome port f .radd (4 * raddCount r) (fun s _ pa =>
      let x := leNat f.data
      let (ts, s) := if isHost pa then (let (ts, s) := raddHost s f.stamp pa r x; (ts, flushHost s)) else raddAt s f.stamp pa r x
      let s := respond s (answer s f 0x82 0 1 ts [])
      let ln := pa / 128
      let last := answer s f 0x82 0 2 ts []
      match (getLine s ln).delta with
      | some d => setLine s ln { getLine s ln with delta := some { d with owe := d.owe ++ [last] } }
      | none => respond s last) s) s (frameWaits s f .radd (4 * ((raddOf f.subop).map raddCount).getD 1)))

/-- KOLOZ_RFLUSH (R251, R310): the deltas of the package are folded, and their lines written back. -/
def execKolozRflush (port : Nat) (f : Frame) (s : State) : Host.Outcome State Fault Refusal :=
  .next (takeRequest port f 6 (fun s => ackBoth (flushWhere s fun _ => true) f f.stamp) s)

/-- Does an answered operation write no register? -/
def isWrite (o : Op) : Bool :=
  match o.kind with
  | .store _ | .radd _ _ => true
  | _ => false

/-- A thread's operation faults after its word was issued: the thread stands at that word again, as the fault finds it
(R58, R256, R311). -/
def faultOp (s : State) (k : Nat) (o : Op) (code addr : Nat) : State :=
  match getThread s k with
  | none => s
  | some t =>
    let (rp, tag, tv) := o.back.getD (t.runPos, t.btag, t.tvalid)
    let t := { t with ops := t.ops.filter (fun x => x.id != o.id), pc := o.fpc, runPos := rp, btag := tag, tvalid := tv }
    deliver (setThread s k t) k code addr o.fpc

/-- FRAME_FCS_REPLAY (R310): the link replays the frame. -/
def execFrameFcsReplay (port : Nat) (s : State) : Host.Outcome State Fault Refusal := .next (perf s 4 port 2 1)

/-- FRAME_DISCARD (R310, R318): a frame with a reserved value, or with an SPKG that the receiving link does not lead to, is
discarded and counted against its peer. -/
def execFrameDiscard (port : Nat) (a : Arrival) (s : State) : Host.Outcome State Fault Refusal :=
  .next (if portUp s port && (badFrame a.frame || a.misrouted) then discard s port a.frame else s)

/-- KOLOZ_MGMT (R316, R319): a management frame, in slot 255: the management core sends one, or is handed one; what it asks
changes no state that the manual names. -/
def execKolozMgmt (port : Nat) (f : Frame) (s : State) : Host.Outcome State Fault Refusal :=
  .next (if !(portUp s port && f.op == 8 && f.cls == 2) then s
    else if f.spkg = s.fa.pkg then sendBy s (some port) f
    else if f.dpkg ≠ s.fa.pkg then s
    else if badFrame f then discard s port f
    else perf s 4 port 1 1)

/-- KOLOZ_COLL (R304, R310, R317): a collective step frame waits at the collective unit; ACK says that it has come, so that it is
not sent again (notes/assumptions/31.md). -/
def execKolozColl (port : Nat) (f : Frame) (s : State) : Host.Outcome State Fault Refusal :=
  .next (takeRequest port f 7 (fun s =>
    respond { s with en := { s.en with inbox := s.en.inbox ++ [f] } } (answer s f 0x82 0 1 f.stamp [])) s)

end Sys2Proof.Machine
end

