-- ==== Sys2Proof/Machine/Home.lean ====
section
/-! DEFINITION. Home.lean: reads and writes of agents that translate as they go (R292, R300, R301), and the steps in which
the accesses of a word are performed and return (R218, R219, R222, R240, R241, R308). -/

namespace Sys2Proof.Machine

/-- What stands between an agent and a value that it reads. -/
inductive Want where
  | absent (va : Nat)            -- its page, for which it waits in the merge table
  | denied (va : Nat)
  | away (pkg asid va n : Nat)   -- the bytes are on another package
  | port                         -- the host path, which cannot carry the read now (R306, R307)
  deriving DecidableEq, Repr

/-- An agent in the course of its reads. -/
structure Reader where
  via : Via
  asid : Nat
  p : Nat                        -- its pts
  snap : Option Nat := none      -- S of its snapshot
  tx : Option Tx := none         -- the transaction whose view it reads
  view : Bool := false           -- it reads a snapshot's or a transaction's view
  excl : Bool := false           -- it has read a line that R233 excludes from one
  buf : Tab Nat := []            -- what it has read so far, and what other packages have returned
  wants : List Want := []        -- what it lacks, newest first
  deriving DecidableEq, Repr

/-- The key under which a value read is kept: its address and its size. -/
def readKey (va n : Nat) : Nat := va * 256 + n

/-- A value as a buffer keeps it, with its poison and its stamp. -/
def bufVal (a : Ack) : Nat := a.value + (if a.poison then 2 ^ 2048 else 0) + a.ts * 2 ^ 2049

/-- A value that a buffer keeps. -/
def bufAck (v : Nat) : Ack := { ts := v / 2 ^ 2049, value := v % 2 ^ 2048, poison := bit v 2048 }

/-- A value read: the agent keeps it, and its pts follows the stamp. -/
def Reader.took (r : Reader) (va n : Nat) (a : Ack) : Reader :=
  { r with p := max r.p a.ts, buf := tset r.buf (readKey va n) (bufVal a) }

/-- A value that the agent lacks. -/
def Reader.lacks (r : Reader) (w : Want) : Reader := { r with wants := w :: r.wants }

/-- Is an address of a reader one that R233 excludes from snapshots: of host memory, or of another package? -/
def unversioned (s : State) (r : Reader) (va : Nat) : Bool :=
  match walkNow s r.via .engineRead r.asid va with
  | .leaf l => l.remote || isHost l.frame
  | _ => false

/-- A read of n bytes within a line that is no window read (R219, R228, R233, R365, R366). -/
def plainRead (s : State) (r : Reader) (va n : Nat) : Option Ack × Reader × State :=
  match tget r.buf (readKey va n) with
  | some v => (some (bufAck v), { r with p := max r.p (bufAck v).ts, excl := r.excl || (r.view && unversioned s r va) }, s)
  | none =>
    if 2 ^ 57 ≤ va then (none, r.lacks (.denied (va % 2 ^ 57)), s)
    else match walkNow s r.via .engineRead r.asid va with
      | .absent => (none, r.lacks (.absent va), s)
      | .bad => (none, r.lacks (.denied va), noteBad s r.asid va)
      | .poison => (some { ts := r.p, poison := true }, r, noteBad s r.asid va)
      | .leaf l =>
        let s := noteWalk s r.via r.asid va
        if l.gather then (none, r.lacks (.denied va), s)
        else if l.remote then (none, { r.lacks (.away (l.frame / 4096) (l.frame % 4096) va n) with excl := r.excl || r.view }, s)
        else
          let pa := l.frame + va % pageBytes l.size
          if isHost pa && !hostPathOpen s then (none, r.lacks .port, s)
          else
          let S := if isHost pa then none else r.snap
          let (a, s) := match r.tx with
            | none => readAt s l.zf S r.p pa n
            | some x => viewRead s x l.zf S r.p pa n
          (some a, { r.took va n a with excl := r.excl || (r.view && isHost pa) }, s)

/-- A read that an agent makes for a window's element. -/
abbrev ReadFn := State → Reader → Nat → Nat → Option Ack × Reader × State

/-- One element of a window: its index, then the table element or the fill value (R300). -/
def readElem (f : ReadFn) (s : State) (r : Reader) (w : Window) (i : Nat) : Option Ack × Reader × State :=
  match f s r (w.idx + 4 * i) 4 with
  | (some a, r, s) =>
    if a.poison then (some a, r, s)
    else if w.n ≤ i ∨ w.tn ≤ a.value then (some { a with value := w.fill % 2 ^ (8 * w.es) }, r, s)
    else f s r (w.tbase + a.value * w.es) w.es
  | x => x

/-- Elements `i` on of a window, `k` of them, lowest first; one that is lacking holds back none of the others (R301). -/
def readElems (f : ReadFn) (w : Window) : Nat → Nat → State → Reader → Option (Nat × Bool) × Reader × State
  | 0, _, s, r => (some (0, false), r, s)
  | k + 1, i, s, r =>
    let (a, r, s) := readElem f s r w i
    let (b, r, s) := readElems f w k (i + 1) s r
    (match a, b with
      | some a, some b => some (a.value + 2 ^ (8 * w.es) * b.1, a.poison || b.2)
      | _, _ => none, r, s)

/-- A read of window bytes, whose indexes and table elements `f` reads (R300). -/
def windowRead (f : ReadFn) (s : State) (r : Reader) (w : Window) (va n : Nat) : Option Ack × Reader × State :=
  let i0 := (va - w.wbase) / w.es
  let (v, r, s) := readElems f w ((va + n - 1 - w.wbase) / w.es + 1 - i0) i0 s r
  (v.map fun x => { ts := r.p, value := x.1 / 2 ^ (8 * (va - w.wbase - i0 * w.es)) % 2 ^ (8 * n), poison := x.2 }, r, s)

/-- The window that an agent's read goes to: its address lies in one, on a GATHER page (R300, R373). -/
def windowFor (s : State) (u : Via) (asid va : Nat) : Option Window :=
  match walkNow s u .engineRead asid va with
  | .leaf l => if l.gather then windowAt s asid va else none
  | _ => none

/-- A read for a window's element, which may lie in a window itself (R300, R373). Windows that lead back to themselves give no
value: DESIGN CHOICE, a read that has passed through as many windows as can be bound is denied (notes/assumptions/59.md). -/
def readThrough : Nat → ReadFn
  | 0, s, r, va, n => plainRead s r va n
  | k + 1, s, r, va, n => match windowFor s r.via r.asid va with
    | some w => windowRead (readThrough k) s r w va n
    | none => plainRead s r va n

/-- A read of n bytes within a line by an agent that may read windows (R300). -/
def agentRead (s : State) (r : Reader) (va n : Nat) : Option Ack × Reader × State :=
  match windowFor s r.via r.asid va with
  | some w => windowRead (readThrough Config.windows) s r w va n
  | none => plainRead s r va n

/-- The address at which an agent's reads were denied. -/
def Reader.denied (r : Reader) : Option Nat := r.wants.findSome? fun w => match w with
  | .denied va => some va
  | _ => none

/-- What a write of an agent meets. -/
inductive Wr where
  | ok (ts : Nat) (s : State)
  | absent
  | denied (s : State)
  | poison (s : State)           -- of a table entry
  | away (pkg asid : Nat)
  | later                        -- the host path cannot carry it now (R306, R307)

/-- A write of bytes within one line by an agent of pts p; `clears` where its write of a whole line clears poison (R387). -/
def agentWrite (s : State) (u : Via) (p asid va : Nat) (bs : List Byte) (clears : Bool := false) : Wr :=
  if 2 ^ 57 ≤ va then .denied s
  else if portWaits s u .engineWrite asid va then .later
  else match agentPa s u .engineWrite asid va with
    | .error .absent => .absent
    | .error .poison => .poison (noteBad s asid va)
    | .error _ => .denied (noteBad s asid va)
    | .ok (l, s) =>
      if l.remote then .away (l.frame / 4096) (l.frame % 4096)
      else let (ts, s) := writeAt s p (l.frame + va % pageBytes l.size) bs clears
        .ok ts s

/-- Does an agent wait in a merge table? -/
def blockedOn (s : State) (w : Waiter) : Bool := s.tr.merges.any fun e => e.2.waiters.contains w

/-- A record that waits for its die's fault queue (R279). -/
def addRecord (s : State) (die : Nat) (r : FaultRec) : State :=
  let q := (tget s.tr.faultQs die).getD {}
  { s with tr := { s.tr with faultQs := tset s.tr.faultQs die { q with waiting := q.waiting ++ [r] } } }

/-- A miss of an agent: it joins the page's merge entry, waits where the table is full, queues its walk where the die makes as
many as it can, or makes an entry with its record, since its walk has ended at an invalid entry (R292, R367, R369, R370). -/
def agentMiss (s : State) (die asid va acc : Nat) (src : Nat × Nat) (w : Waiter) : State :=
  match mergeOf s die asid va with
  | some _ => joinMerge s die asid va acc src .absent w
  | none => match freeEntry s die with
    | none => s
    | some k =>
      if Config.walksPerDie ≤ walksOf s die then perf (joinMerge s die asid va acc src .queued w) 3 die 0 1
      else addRecord (perf (joinMerge s die asid va acc src .absent w) 3 die 0 1) die
        { merge := k % 1024, srcKind := src.1, srcId := src.2, asid := asid, acc := acc, va := va }

/-- Has an owner already asked another package for a value? -/
def asked (s : State) (o : Owner) (slot : Nat) : Bool := (ownRequests s o).any fun r => r.slot == some slot

/-- A READ of an owner in an address space `ra` sent to another package; what returns is kept under its address, its size and a
tag of the owner's. -/
def askRead (s : State) (o : Owner) (ra pkg asid va n p : Nat) (tag : Nat := 0) : State :=
  if asked s o (tag + readKey va n) then s
  else sendRequest s { dpkg := pkg, spkg := 0, cls := 0, stamp := p, addr := va, asid := asid, tag := 0, op := 1, data := natLe 2 n, rasid := ra }
    o [] (some (tag + readKey va n))

/-- The frame of a WRITE of an agent; SUBOP 1 says that it clears the poison of a line that it covers (R387;
notes/assumptions/31.md). -/
def writeFrame (pkg asid va p ra : Nat) (bs : List Byte) (clears : Bool := false) : Frame :=
  { dpkg := pkg, spkg := 0, cls := 0, stamp := p, addr := va, asid := asid, tag := 0, op := 2, subop := if clears then 1 else 0
    data := bs, rasid := ra }

/-- An agent goes after what it lacks: it misses on pages and asks other packages (R301, R311, R369). -/
def pursue (s : State) (r : Reader) (acc : Nat) (src : Nat × Nat) (o : Owner) (w : Nat → Waiter) (tag : Nat := 0) : State :=
  r.wants.reverse.foldl (fun s x => match x with
    | .absent va => agentMiss s r.via.die r.asid va acc src (w va)
    | .denied _ | .port => s
    | .away pkg asid va n => askRead s o r.asid pkg asid va n r.p tag) s

/-- One operation of a thread changed. -/
def setOp (s : State) (k id : Nat) (f : Op → Op) : State := modThread s k fun t => modOp t id f

/-- A transaction's or a snapshot's window load has reached a line that R233 excludes (R233, R234). -/
def windowExcluded (s : State) (k : Nat) (o : Op) : State :=
  modThread s k fun t => modOp (if o.inTx then remoteAbort t else t) o.id fun o => { o with excl := true }

/-- Has the snapshot at which a window read was issued been revoked since (R232)? -/
def deadSnap (s : State) (o : Op) : Bool := o.snap.any fun S => s.mm.horizon.all fun h => h.s != S

/-- A window read of a load performed, as far as its elements are at hand (R300, R301). One of a snapshot that has been revoked
since its issue is the thread's next snapshot read, and faults (R232). -/
def performWindow (s : State) (e : Nat × Op) : State :=
  match getThread s e.1, e.2.loc with
  | some t, .window asid va =>
    let o := e.2
    if deadSnap s o then faultOp (setThread s e.1 (clearRevoked t)) e.1 o 0x11 va
    else uncounted o.cold s <|
    let r : Reader := { via := { die := dieOf (coreOf e.1), page := tget s.en.pages 128 }, asid := asid, p := t.pts, snap := o.snap
                        tx := if o.inTx then some t.tx else none, view := o.inTx || o.snap.isSome, buf := o.buf }
    let (a, r, s) := agentRead s r va o.size
    let s := if r.excl then windowExcluded s e.1 o else s
    match a with
    | some a => performed s e.1 o.id false { a with ts := r.p }
    | none =>
      let prot := o.prot || r.denied.isSome
      let waits := r.wants.any fun w => match w with
        | .denied _ => false
        | _ => true
      pursue (setOp s e.1 o.id fun o => { o with buf := r.buf, prot := prot, performed := !waits }) r 6 (3, 0) (.op e.1 o.id) (.element e.1 o.id)
  | _, _ => s

/-- A performed write of a word has been accepted (R244). -/
def acceptDone (s : State) (e : Nat × Op) : State :=
  if isWrite e.2 then recheck (acceptOp s e.1 e.2.id) e.1 else s

/-- Is an operation a load, a store or an atomic? -/
def isPlain (o : Op) : Bool :=
  match o.kind with
  | .load _ | .store _ | .rmw _ _ => true
  | _ => false

/-- Is an operation a RADD? -/
def isRadd (o : Op) : Bool :=
  match o.kind with
  | .radd _ _ => true
  | _ => false

/-- Is an operation one that HOME_ACCESS performs, or sends? A RADD to another package is sent with the stores. -/
def atHomeOp (o : Op) : Bool := isPlain o || (isRadd o && match o.loc with
  | .remote .. => true
  | _ => false)

/-- Is an operation a RADD to a line of this package? -/
def raddHere (o : Op) : Bool := isRadd o && match o.loc with
  | .here _ => true
  | _ => false

/-- Is an operation an access to host memory? -/
def onHostPath (o : Op) : Bool := (isPlain o || isRadd o) && match o.loc with
  | .host _ => true
  | _ => false

/-- HOME_ACCESS (R218, R219, R240, R241): the accesses of a word to one line are performed at its home, in ascending home lane,
once the threads' earlier accesses are; those to another package are sent there. -/
def execHomeAccess (wid line : Nat) (viaL1 : Bool) (s : State) : Host.Outcome State Fault Refusal :=
  let l := wordOps s wid line atHomeOp
  if !mayPerform s l then .next s
  else match l with
    | [] => .next s
    | (_, o) :: _ => match o.loc with
      | .here _ => .next (l.foldl acceptDone (l.foldl (performHere viaL1) s))
      | .remote .. => .next (sendOps l.length s (l.filter fun e => !e.2.sent))
      | .window .. => .next (l.foldl performWindow s)
      | .host _ => .next s

/-- One RADD at its partition (R222). -/
def arriveRadd (s : State) (e : Nat × Op) : State :=
  match getThread s e.1, e.2.loc, e.2.kind with
  | some t, .here pa, .radd k x =>
    let (ts, s) := raddAt s t.pts pa k x
    performed s e.1 e.2.id false { ts := ts }
  | _, _, _ => s

/-- RADD_ARRIVAL (R222, R250). -/
def execRaddArrival (wid line : Nat) (s : State) : Host.Outcome State Fault Refusal :=
  let l := wordOps s wid line raddHere
  if mayPerform s l then .next (l.foldl acceptDone (l.foldl arriveRadd s)) else .next s

/-- The lanes of an aggregated atomic take their old values from the one returned (R313). -/
def splitParts (a : Ack) : State → Nat → List (Nat × Nat × Nat) → State
  | s, _, [] => s
  | s, v, (k, id, x) :: ps =>
    let s := performed s k id false { a with value := v }
    match (getThread s k).bind fun t => findOp t id with
    | some { kind := .rmw f _, .. } => splitParts a s (f.apply v x) ps
    | _ => splitParts a s v ps

/-- One access performed at the host-port ordering point (R308). -/
def performHost (s : State) (e : Nat × Op) : State :=
  match getThread s e.1, e.2.loc with
  | some t, .host pa =>
    let o := e.2
    uncounted o.cold s <| match o.kind with
    | .load _ => let (a, s) := loadAt s t.pts pa o.size
      performed s e.1 o.id false a
    | .store x => let (ts, s) := writeAt s t.pts pa (natLe o.size x)
      performed s e.1 o.id false { ts := ts }
    | .rmw f x => let (a, s) := rmwAt s t.pts pa o.size f x
      performed s e.1 o.id false a
    | .radd k x => let (ts, s) := raddHost s t.pts pa k x
      performed s e.1 o.id false { ts := ts }
    | _ => s
  | _, _ => s

/-- The accesses of a word to a line of host memory performed; the lanes of an ATOM or ATOM64 that name one address make one read
and one write (R308, R313). -/
def performHostLanes : Nat → State → List (Nat × Op) → State
  | 0, s, _ => s
  | _, s, [] => s
  | fuel + 1, s, (k, o) :: rest =>
    let l := (k, o) :: rest.filter (lanesJoin o)
    let s := match o.loc, (combineLanes o (laneParts l)).kind, decide (1 < l.length) with
      | .host pa, .rmw f x, true =>
        let (a, z) := rmwAt s (lanesPts s l) pa o.size f x
        splitParts a (uncounted o.cold s z) a.value (laneParts l)
      | _, _, _ => performHost s (k, o)
    performHostLanes fuel s (rest.filter fun e => !lanesJoin o e)

/-- The host processors' own stores to host memory, outside logical time (R308). -/
def hostStores (s : State) (l : List (Nat × Byte)) : State :=
  l.foldl (fun s e => if isHost e.1 && mapped e.1 then setMem s (mset s.mm.mem e.1 e.2) else s) s

/-- HOST_PATH_RESPONSE (R308): the host's own stores land, and the accesses of a word to a line of host memory are performed
and acknowledged. -/
def execHostPathResponse (wid line : Nat) (hostWrites : List (Nat × Byte)) (s : State) : Host.Outcome State Fault Refusal :=
  let s := hostStores s hostWrites
  let l := wordOps s wid line onHostPath
  if mayPerform s l && hostPathOpen s then .next (l.foldl acceptDone (performHostLanes l.length s l)) else .next s

/-- Does an operation return to a register? -/
def isReturning (o : Op) : Bool :=
  match o.kind with
  | .load _ | .rmw _ _ | .peerLoad .. | .peerRmw .. | .chain _ => true
  | _ => false

/-- LOAD_RETURN (R242, R243, R396): D is written, and the counter retires what it can. -/
def execLoadReturn (thr op : Nat) (s : State) : Host.Outcome State Fault Refusal :=
  match getThread s thr with
  | none => .next s
  | some t => match findOp t op with
    | none => .next s
    | some o =>
      if isReturning o && o.performed && !o.complete then .next (recheck (setThread s thr (returnOp t o)) thr)
      else .next s

end Sys2Proof.Machine
end

