-- ==== Sys2Proof/Machine/Stash.lean ====
section
/-! DEFINITION. Stash.lean: the stash and its faults (R203, R246, R348, R387), barrier words (R221, R259 to R261), and the
accesses to the stashes of a cluster (R194, R257, R258). -/

namespace Sys2Proof.Machine

/-- A team; the default one holds nothing. -/
def getTeam (s : State) (k : Nat) : Team := (tget s.ex.teams k).getD { grid := 0, lin := 0, cluster := 0, threads := 0 }

/-- TB of R340: the start of a team's tile region. -/
def tileBase (s : State) (tm : Team) : Nat := tm.size - ((tget s.ex.grids tm.grid).map (·.tstash)).getD 0 * 1024

/-- Element size of a descriptor in bytes (R341). -/
def tileEs (d : List Word) : Nat := 2 ^ bits (spanNat d) 58 57

/-- Extent of dimension d (R341). -/
def tileExt (desc : List Word) (d : Nat) : Nat := bits (spanNat desc) (160 + 8 * d + 7) (160 + 8 * d) + 1

/-- E of R341: the bytes of a data area. -/
def tileArea (desc : List Word) : Nat :=
  (tileEs desc * tileExt desc 0 * tileExt desc 1 * tileExt desc 2 * tileExt desc 3 + 127) / 128 * 128

/-- BASE of a descriptor (R341). -/
def tileOrigin (d : List Word) : Nat := bits (spanNat d) 56 0
/-- The signed stride of dimension 1, 2 or 3 (R341). -/
def tileStr (desc : List Word) (d : Nat) : Int := sext (bits (spanNat desc) (32 + 32 * d + 31) (32 + 32 * d)) 32
/-- Elements of the window of a descriptor. -/
def tileCount (d : List Word) : Nat := tileExt d 0 * tileExt d 1 * tileExt d 2 * tileExt d 3

/-- A coordinate of a list of four. -/
def at4 (i : List Int) (d : Nat) : Int := (i[d]?).getD 0

/-- The coordinates of the element with a number. -/
def elemCoords (desc : List Word) (n : Nat) : List Int :=
  let a := tileExt desc 0; let b := tileExt desc 1; let c := tileExt desc 2
  [((n % a : Nat) : Int), ((n / a % b : Nat) : Int), ((n / a / b % c : Nat) : Int), ((n / a / b / c : Nat) : Int)]

/-- The address of an element (R341). -/
def elemAddr (desc : List Word) (i : List Int) : Int :=
  tileOrigin desc + tileEs desc * (at4 i 0 + at4 i 1 * tileStr desc 1 + at4 i 2 * tileStr desc 2 + at4 i 3 * tileStr desc 3)

/-- The numbers of the window's elements in a block (R346). -/
def blockElems (desc : List Word) (b : Nat) : List Nat :=
  ((List.range (128 / tileEs desc)).map fun i => b * (128 / tileEs desc) + i).filter fun n => decide (n < tileCount desc)

/-- Do two stretches of bytes meet? -/
def meets (a n b m : Nat) : Bool := decide (a < b + m) && decide (b < a + n)

/-- Does a stretch reach the descriptor or the data area of a mapped tile? (R348) -/
def inTiles (s : State) (tm : Team) (o n : Nat) : Bool :=
  tm.tiles.any fun e => meets o n (tileBase s tm + 32 * e.1) 32 || meets o n e.2.doff (tileArea e.2.desc)

/-- The offset of a stash access of n bytes, or its fault; MISALIGN stands before STASH_RANGE (R203). -/
def stashAt (tm : Team) (o : Int) (n : Nat) : Except Nat Nat :=
  if o % n ≠ 0 then .error 0x06
  else if o < 0 ∨ (tm.size : Int) < o + n then .error 0x09
  else .ok o.toNat

/-- Bytes of the stash; an unlisted byte is zero (R79, R203). -/
def stashRead (tm : Team) (o n : Nat) : Nat := leNat ((List.range n).map fun i => (tget tm.stash (o + i)).getD 0)

/-- Does a stretch hold a word with an uncorrectable error? (R387) -/
def stashPoison (tm : Team) (o n : Nat) : Bool := tm.spoison.any fun w => meets o n (4 * w) 4

/-- Bytes set in a stash. -/
def stashBytes : Tab Byte → Nat → List Byte → Tab Byte
  | m, _, [] => m
  | m, a, b :: bs => stashBytes (if b = 0 then tdel m a else tset m a b) (a + 1) bs

/-- Bytes of the stash written; a word written whole is no longer in error. -/
def stashPut (tm : Team) (o : Nat) (bs : List Byte) : Team :=
  { tm with stash := stashBytes tm.stash o bs
            spoison := tm.spoison.filter fun w => !(decide (o ≤ 4 * w) && decide (4 * w + 4 ≤ o + bs.length)) }

/-- The threads of a team that wait on a barrier word. -/
def barwWaiters (s : State) (team w : Nat) : List (Nat × Thread) :=
  (teamMates s team).filter fun e => e.2.waitOn == .barw && (e.2.held.map (·.off)) == some w

/-- The hidden stamp of a barrier word: its own, or its core's floor stamp where the core keeps none for it (R221, R392). -/
def hiddenStamp (s : State) (team w : Nat) : Nat := (tget (getTeam s team).hidden w).getD (getCore s (coreOf team)).hiddenFloor

/-- The oldest barrier word of a core loses its hidden stamp to the floor stamp, where the core keeps its most (R392). -/
def foldHidden (s : State) (core : Nat) : State :=
  let c := getCore s core
  if c.hiddenAge.length < Config.barrierStamps then s
  else match c.hiddenAge.getLast? with
    | none => s
    | some (team, w) =>
      let h := max (hiddenStamp s team w) ((tget (getTeam s team).hiddenAt w).getD 0)
      modCore (modTeam s team fun tm => { tm with hidden := tdel tm.hidden w, hiddenAt := tdel tm.hiddenAt w }) core
        fun c => { c with hiddenAge := c.hiddenAge.dropLast, hiddenFloor := max c.hiddenFloor h }

/-- The hidden stamp of a barrier word set (R221, R392). -/
def setHidden (s : State) (team w h : Nat) : State :=
  let core := coreOf team
  let kept := (getCore s core).hiddenAge.contains (team, w)
  let s := if kept then s else foldHidden s core
  let s := if kept then s else modCore s core fun c => { c with hiddenAge := (team, w) :: c.hiddenAge }
  modTeam s team fun tm => { tm with hidden := tset tm.hidden w h }

/-- A barrier word's phase has changed under a writer of pts p: the hidden stamp rises, and every waiter is released with it
(R221, R261). -/
def phaseChanged (p : Nat) (s : State) (team w : Nat) : State :=
  let h := max (hiddenStamp s team w) p
  let s := modTeam (setHidden s team w h) team fun tm => { tm with hiddenAt := tset tm.hiddenAt w h }
  (barwWaiters s team w).foldl (fun s e => release (modThread s e.1 fun t => { t with pts := max t.pts h }) e.1) s

/-- The aligned words that a stretch touches. -/
def wordsOf (o n : Nat) : List Nat := (List.range ((o + n + 3) / 4 - o / 4)).map fun i => 4 * (o / 4 + i)

/-- Bytes written to a team's stash by a writer of pts p, with what that does to the barrier words among them (R221,
R261). -/
def stashWrite (s : State) (team o : Nat) (bs : List Byte) (p : Nat) : State :=
  let old := getTeam s team
  let s := modTeam s team fun tm => stashPut tm o bs
  let new := getTeam s team
  (wordsOf o bs.length).foldl (fun s w =>
    if bit (stashRead old w 4) 31 = bit (stashRead new w 4) 31 then s else phaseChanged p s team w) s

/-- A load of `r` registers from the team's stash (R246). -/
def ldsWord (r : Nat) (pg : PredIx) (d a : Reg) (imm : BitVec 7) (s : State) : Host.Outcome State Fault Refusal :=
  issueWord { opSpec [sp1 a] [(d.toNat, r, r)] with guard := pg } (fun _ s k t =>
    let tm := getTeam s t.team
    match stashAt tm ((rd t a).toNat + imm.toInt * (4 * r : Nat)) (4 * r) with
    | .error code => .fault code 0
    | .ok o => if stashPoison tm o (4 * r) then .fault 0x17 0
      else .ok (setThread s k (writeSpan t d.toNat (natSpan r (stashRead tm o (4 * r)))))) s

/-- A store of `r` registers to the team's stash (R246, R348). -/
def stsWord (r : Nat) (pg : PredIx) (d a : Reg) (imm : BitVec 7) (s : State) : Host.Outcome State Fault Refusal :=
  issueWord { opSpec [sp1 a, (d.toNat, r, r)] [] with guard := pg } (fun _ s k t =>
    let tm := getTeam s t.team
    match stashAt tm ((rd t a).toNat + imm.toInt * (4 * r : Nat)) (4 * r) with
    | .error code => .fault code 0
    | .ok o => if inTiles s tm o (4 * r) then .fault 0x0A 0
      else .ok (stashWrite (setThread s k t) t.team o (natLe (4 * r) (spanNat (readSpan t d.toNat r))) t.pts)) s

/-- LDS_32 (R246). -/
def execLds32 (pg : PredIx) (d a : Reg) (imm : BitVec 7) (s : State) : Host.Outcome State Fault Refusal := ldsWord 1 pg d a imm s
/-- STS_32 (R246). -/
def execSts32 (pg : PredIx) (d a : Reg) (imm : BitVec 7) (s : State) : Host.Outcome State Fault Refusal := stsWord 1 pg d a imm s
/-- LDS_128 (R246). -/
def execLds128 (pg : PredIx) (d a : Reg) (imm : BitVec 7) (s : State) : Host.Outcome State Fault Refusal := ldsWord 4 pg d a imm s
/-- STS_128 (R246). -/
def execSts128 (pg : PredIx) (d a : Reg) (imm : BitVec 7) (s : State) : Host.Outcome State Fault Refusal := stsWord 4 pg d a imm s

/-- The barrier word of a BARW lane: its offset, or a fault (R260, R348, R387). -/
def barwAt (s : State) (t : Thread) (a : Reg) : Except Nat Nat :=
  let tm := getTeam s t.team
  match stashAt tm (rd t a).toNat 4 with
  | .error code => .error code
  | .ok o => if inTiles s tm o 4 then .error 0x0A else if stashPoison tm o 4 then .error 0x17 else .ok o

/-- The word after an arrival (R260). -/
def arriveWord (w : Nat) : Nat :=
  let k := bits w 14 0 + 1
  if bits w 30 16 ≤ k then (if bit w 31 then 0 else 2 ^ 31) + bits w 30 16 * 2 ^ 16
  else bits w 31 31 * 2 ^ 31 + bits w 30 16 * 2 ^ 16 + k

/-- An arrival at a barrier word by a thread of pts p (R221, R260). -/
def arrive (s : State) (team o p : Nat) : State :=
  let tm := getTeam s team
  let s := setHidden s team o (max (hiddenStamp s team o) p)
  stashWrite s team o (natLe 4 (arriveWord (stashRead tm o 4))) p

/-- A wait at a barrier word with a token (R221, R260). -/
def barwWaitAt (c : Ctx) (s : State) (k o token : Nat) (i : Instr) : LaneOut :=
  match getThread s k with
  | none => .ok s
  | some t =>
    let tm := getTeam s t.team
    if bit (stashRead tm o 4) 31 ≠ bit token 31 then
      .ok (setThread s k { t with pts := max t.pts ((tget tm.hiddenAt o).getD (getCore s (coreOf k)).hiddenFloor) })
    else .wait (setThread s k { waiting c t .barw i with held := some { instr := i, hints := c.hints, token := token, off := o } })

/-- A thread that waits at a barrier word, checked against the word as it stands now (R261). -/
def checkBarw (s : State) (k : Nat) : State :=
  match getThread s k with
  | none => s
  | some t => match t.held with
    | none => s
    | some h =>
      let tm := getTeam s t.team
      if t.st = .waiting ∧ t.waitOn = .barw ∧ bit (stashRead tm h.off 4) 31 ≠ bit h.token 31 then
        release (setThread s k { t with pts := max t.pts ((tget tm.hiddenAt h.off).getD (getCore s (coreOf k)).hiddenFloor) }) k
      else s

/-- BARW_ARRIVE (R260). -/
def execBarwArrive (d a : Reg) (s : State) : Host.Outcome State Fault Refusal :=
  issueWord { opSpec [sp1 a] [sp1 d] with order := true } (fun _ s k t =>
    match barwAt s t a with
    | .error code => .fault code 0
    | .ok o =>
      let w := stashRead (getTeam s t.team) o 4
      .ok (arrive (setThread s k (writeReg t d.toNat (BitVec.ofNat 32 w))) t.team o t.pts)) s

/-- BARW_WAIT (R260). -/
def execBarwWait (a b : Reg) (s : State) : Host.Outcome State Fault Refusal :=
  issueWord (opSpec [sp1 a, sp1 b] []) (fun c s k t =>
    match barwAt s t a with
    | .error code => .fault code 0
    | .ok o => barwWaitAt c (setThread s k t) k o (rd t b).toNat (.barwWait a b)) s

/-- BARW_ARRIVE_WAIT (R260). -/
def execBarwArriveWait (d a : Reg) (s : State) : Host.Outcome State Fault Refusal :=
  issueWord { opSpec [sp1 a] [sp1 d] with order := true } (fun c s k t =>
    match barwAt s t a with
    | .error code => .fault code 0
    | .ok o =>
      let w := stashRead (getTeam s t.team) o 4
      barwWaitAt c (arrive (setThread s k (writeReg t d.toNat (BitVec.ofNat 32 w))) t.team o t.pts) k o w (.barwArriveWait d a)) s

/-- BARW_INIT (R260, R261). -/
def execBarwInit (a b : Reg) (s : State) : Host.Outcome State Fault Refusal :=
  issueWord (opSpec [sp1 a, sp1 b] []) (fun _ s k t =>
    match barwAt s t a with
    | .error code => .fault code 0
    | .ok o => .ok (stashWrite (setThread s k t) t.team o (natLe 4 (bits (rd t b).toNat 14 0 * 2 ^ 16)) t.pts)) s

/-- One turn of a route from a core, within its die (R13, R194). -/
def turn (core x : Nat) : Option Nat :=
  let d := core / 64; let y := core / 8 % 8; let c := core % 8
  if x = 1 then (if y = 0 then none else some (d * 64 + (y - 1) * 8 + c))
  else if x = 2 then (if c = 7 then none else some (d * 64 + y * 8 + c + 1))
  else if x = 3 then (if y = 7 then none else some (d * 64 + (y + 1) * 8 + c))
  else if x = 4 then (if c = 0 then none else some (d * 64 + y * 8 + c - 1))
  else none

/-- The core that a route names, or none where it is dead (R194). -/
def routeCore (s : State) : Nat → Nat → Nat → Option Nat
  | 0, core, _ => some core
  | n + 1, core, p =>
    if p % 8 = 0 then some core
    else match turn core (p % 8) with
      | none => none
      | some c => if s.bd.badCores.contains c then none else routeCore s n c (p / 8)

/-- The team of the issuing cluster on the core that a route names (R257). -/
def routeTeam (s : State) (t : Thread) (p : Nat) : Option Nat :=
  match routeCore s 8 (coreOf t.team) p, tget s.ex.clusters (getTeam s t.team).cluster with
  | some c, some cl =>
    if s.bd.badCores.contains c then none else cl.teams.find? fun k => coreOf k == c
  | _, _ => none

/-- A routed access in one lane: its target team and offset, or its fault (R257, R348). -/
def peerAt (s : State) (t : Thread) (c : Ctx) (a : Reg) (writes : Bool) : Except Nat (Nat × Nat) :=
  match routeTeam s t ((c.hint 2).getD 0) with
  | none => .error 0x12
  | some k => match stashAt (getTeam s k) (rd t a).toNat 4 with
    | .error code => .error code
    | .ok o => if writes && inTiles s (getTeam s k) o 4 then .error 0x0A else .ok (k, o)

/-- A routed word: its accesses are performed by PEER_STASH_ACCESS. -/
def peerWord (w : WordSpec) (cnt : Cnt) (dest : List Nat) (a : Reg) (writes : Bool) (kind : Thread → Nat → Nat → OpKind) (s : State) :
    Host.Outcome State Fault Refusal :=
  issueGo w (fun c ks s =>
    let (wid, s) := fresh s
    laneLoop (laneStep w c fun s k t => match peerAt s t c a writes with
      | .error code => .fault code 0
      | .ok (team, o) =>
        let (id, s) := fresh s
        .ok (issueOp s k t { newOp c wid id t cnt (kind t team o) 0 (.here 0) 4 with dest := dest.headD 0, dlen := dest.length })) s ks) s

/-- CLD (R257, R258). -/
def execCld (d a : Reg) (s : State) : Host.Outcome State Fault Refusal :=
  peerWord { opSpec [sp1 a] [sp1 d] with hints := [2], needs := [2], adds := [(.ld, 1)] } .ld [d.toNat] a false (fun _ team o => .peerLoad team o) s

/-- CST (R257, R258). -/
def execCst (a b : Reg) (s : State) : Host.Outcome State Fault Refusal :=
  peerWord { opSpec [sp1 a, sp1 b] [] with hints := [2], needs := [2], adds := [(.st, 1)] } .st [] a true
    (fun t team o => .peerStore team o (rd t b).toNat) s

/-- Does the issuing word have a route? -/
def routed (s : State) : Bool := match s.cur with
  | some u => u.hints.any fun h => h.kind == 2
  | none => false

/-- ATOMS (R257, R258): routed, or in issue order on the team's own stash. -/
def execAtoms (m : AtomOp) (d a b : Reg) (s : State) : Host.Outcome State Fault Refusal :=
  let w : WordSpec := { opSpec [sp1 a, sp1 b] [sp1 d] with hints := [2], adds := [(.ld, 1)] }
  if routed s then peerWord w .ld [d.toNat] a true (fun t team o => .peerRmw team o m (rd t b).toNat) s
  else issueWord w (fun _ s k t =>
    match barwAt s t a with
    | .error code => .fault code 0
    | .ok o =>
      let old := stashRead (getTeam s t.team) o 4
      let (id, s) := fresh s
      let s := setThread s k (addDone (writeReg t d.toNat (BitVec.ofNat 32 old)) id .ld)
      .ok (stashWrite s t.team o (natLe 4 ((Rmw.atom m).apply old (rd t b).toNat)) t.pts)) s

/-- Is an operation a routed stash access? -/
def isPeer (o : Op) : Bool :=
  match o.kind with
  | .peerLoad .. | .peerStore .. | .peerRmw .. => true
  | _ => false

/-- One routed access at its target (R258); a write to bytes that have become a tile's faults (R348), and so does a read of a
word in error (R387). -/
def performPeer (s : State) (e : Nat × Op) : State :=
  let k := e.1
  let o := e.2
  let p := ((getThread s k).map (·.pts)).getD 0
  let fin (s : State) (v : Nat) : State := modThread s k fun t => modOp t o.id fun o => { o with performed := true, value := v }
  match o.kind with
  | .peerLoad team off =>
    if stashPoison (getTeam s team) off 4 then faultOp s k o 0x17 0 else fin s (stashRead (getTeam s team) off 4)
  | .peerStore team off x =>
    if inTiles s (getTeam s team) off 4 then faultOp s k o 0x0A 0
    else recheck (acceptOp (stashWrite (fin s 0) team off (natLe 4 x) p) k o.id) k
  | .peerRmw team off m x =>
    let old := stashRead (getTeam s team) off 4
    if inTiles s (getTeam s team) off 4 then faultOp s k o 0x0A 0
    else if stashPoison (getTeam s team) off 4 then faultOp s k o 0x17 0
    else stashWrite (fin s old) team off (natLe 4 ((Rmw.atom m).apply old x)) p
  | _ => s

/-- PEER_STASH_ACCESS (R258): the routed accesses of a word, in ascending home lane, after those of the threads' earlier
words. -/
def execPeerStashAccess (wid : Nat) (s : State) : Host.Outcome State Fault Refusal :=
  let all := s.ex.threads.flatMap fun e => (e.2.ops.filter fun o => o.wid == wid && isPeer o && !o.performed).map fun o => (e.1, o)
  let l := (List.range 64).flatMap fun h => all.filter fun e => e.1 % 64 == h
  let first (e : Nat × Op) : Bool := match getThread s e.1 with
    | some t => (t.ops.takeWhile fun o => o.id != e.2.id).all fun o => !isPeer o || o.performed
    | none => false
  if l.all first then .next (l.foldl performPeer s) else .next s

end Sys2Proof.Machine
end

