-- ==== Sys2Proof/Machine/Chain.lean ====
section
/-! DEFINITION. Chain.lean: CHLD, its descriptor and the steps of its packet (R226, R252 to R256). -/

namespace Sys2Proof.Machine

/-- Is a step well formed? (R253) -/
def stepOk (x : Nat) : Bool :=
  bits x 63 54 == 0 && bits x 47 46 != 3 && decide (bits x 39 32 + bits x 45 40 ≤ 64)

/-- The steps of a descriptor from an offset on, up to the first with LAST, and the fault of reading them, where there is one
(R253, R387). -/
def readSteps (tm : Team) : Nat → Nat → List Nat × Option Nat
  | 0, _ => ([], some 0x0C)
  | n + 1, o =>
    if tm.size < o + 8 then ([], some 0x09)
    else if stashPoison tm o 8 then ([], some 0x17)
    else
      let x := stashRead tm o 8
      if bit x 53 then ([x], none)
      else let (l, e) := readSteps tm n (o + 8)
        (x :: l, e)

/-- The descriptor of a CHLD: its steps as far as they could be read, and its fault (R253). -/
def chainDesc (tm : Team) (o : Nat) : List Nat × Option Nat :=
  if o % 8 ≠ 0 then ([], some 0x06)
  else match readSteps tm 8 o with
    | (l, none) => (l, if l.all stepOk then none else some 0x0C)
    | x => x

/-- Does a descriptor hold an index step? -/
def hasIndex (l : List Nat) : Bool := l.any fun x => bits x 47 46 == 1 || bits x 47 46 == 2

/-- Is the final action .add32? -/
def isAdd : ChldFin → Bool
  | .add32 => true
  | _ => false

/-- CHLD (R252 to R256): the descriptor, the pointer, the base and X1 are read at issue, and the packet sets out. A base pair
that is an undefined temporary faults before what is wrong with the descriptor, as far as the steps read name an index step
(R57, R254; DESIGN CHOICE, notes/assumptions/53.md). -/
def execChld (m : ChldFin) (d a b : Reg) (s : State) : Host.Outcome State Fault Refusal :=
  let x1 := match s.cur with
    | some u => opxX1 u.hints
    | none => 0
  let x := if isAdd m then [(x1, 1, 1)] else []
  let h := if isAdd m then [1] else []
  issueWord { opSpec ([sp2 a, sp1 b] ++ x) [sp2 d] with hints := h, needs := h, adds := [(.ld, 1)] } (fun c s k t =>
    let (l, e) := chainDesc (getTeam s t.team) (rd t b).toNat
    let base := [d.toNat, d.toNat + 1]
    if hasIndex l && base.any (fun n => decide (120 ≤ n) && !(tget t.tvalid n).getD false) then .fault 0x03 0
    else match e with
      | some code => .fault code 0
      | none =>
        if hasIndex l && base.any t.rpoison.contains then .fault 0x17 0
        else
          let (id, s) := fresh s
          let ch : Chain := { fin := m, steps := l, p := rdPair t a, c := t.pts, base := if hasIndex l then rdPair t d else 0, x1 := (readReg t x1).toNat }
          .ok (issueOp s k t { newOp c id id t .ld (.chain ch) 0 (.here 0) 8 with dest := d.toNat, dlen := 2 })) s

/-- A chain of an operation replaced. -/
def setChain (s : State) (k id : Nat) (ch : Chain) : State :=
  modThread s k fun t => modOp t id fun o => { o with kind := .chain ch, sent := false }

/-- What an access of the packet read, taken: the next step stands, or the chain is done; a poisoned value ends it (R256). Where
`fill` names the line that the result was loaded from, the core's L1 takes a copy of it (R215). -/
def chainTake (s : State) (k : Nat) (o : Op) (ch : Chain) (va c : Nat) (a : Ack) (fill : Option Nat := none) : State :=
  if a.poison then chainPoison s k o.id c va
  else match chainGot ch c a.value with
    | none => chainDone (match fill with
      | some pa => l1Fill s (coreOf k) pa
      | none => s) k o.id c a.value
    | some ch => setChain s k o.id ch

/-- .addr (R254). -/
def chainAddr (s : State) (k : Nat) (o : Op) (ch : Chain) : State :=
  match chainAddrValue ch with
  | none => faultOp s k o 0x08 (wrap ch.p 57)
  | some v => chainDone s k o.id ch.c v

/-- The access of a packet to a line of this package or of host memory (R226, R228, R233, R234): the stamp after it, what it
read, and the state. -/
def chainAccess (s : State) (k : Nat) (t : Thread) (ch : Chain) (l : Leaf) (pa w : Nat) (add : Bool) : Nat × Ack × State :=
  let host := isHost pa
  let t := { t with pts := ch.c }
  if 0 < t.tx.depth ∧ host = false then
    let (a, s) := txView s t pa w l.zf
    let s := if add && !a.poison then modThread s k fun t => enterWs t pa (natLe 4 ((a.value + ch.x1) % 2 ^ 32)) else s
    (max ch.c a.ts, a, s)
  else if add && t.tx.depth == 0 then
    let (a, s) := rmwAt s ch.c pa 4 (.atom .add) ch.x1
    (max ch.c a.ts, a, s)
  else
    let (a, s) := readAt s l.zf (if host then none else readSnap t) ch.c pa w
    (max ch.c a.ts, a, s)

/-- A snapshot's step has returned the current value of a line that R233 excludes (R84). -/
def noteExcluded (s : State) (k : Nat) (excluded : Bool) : State :=
  if excluded then modThread s k fun t => { t with snapx := true } else s

/-- The packet sent to the package that owns its next address (R255). Under a snapshot, and in a transaction, whose reads are of
its view, it comes back after the access, and a transaction's .add32 only reads there (R226, R234); `excl` where what it reads is
excluded from that view (R84, R233). -/
def chainSend (s : State) (k : Nat) (t : Thread) (o : Op) (ch : Chain) (pkg asid va : Nat) (view excl : Bool) : State :=
  let body := decide (0 < t.tx.depth)
  let out : Chain := if body && chainFinal ch then { ch with fin := if isAdd ch.fin then .ld32 else ch.fin } else ch
  let s := setOp s k o.id fun o => { o with sent := true, excl := excl }
  sendRequest s { dpkg := pkg, spkg := 0, cls := 0, stamp := ch.c, addr := va, asid := asid, tag := 0, op := 5, subop := finCode out.fin
                  data := packetBytes { one := view, chain := out }, rasid := (gridOf s t).asid } (.op k o.id)

/-- The access of a packet once its translation is at hand. -/
def chainGo (s : State) (k : Nat) (t : Thread) (o : Op) (ch : Chain) (l : Leaf) (va w : Nat) (acc : Acc) : State :=
  let add := acc == .chainAdd
  let body := decide (0 < t.tx.depth)
  let loc := locOf l (gridOf s t).asid va
  let reads := !add || body
  if reads && revokedNow t && versioned loc then faultOp (setThread s k (clearRevoked t)) k o 0x11 va
  else
    let view := body || (readSnap t).isSome
    let excluded := reads && view && !versioned loc
    let s := if excluded && body then modThread s k remoteAbort else s
    match loc with
    | .here pa | .host pa =>
      if isHost pa && !hostPathOpen s then s
      else
        let (c, a, s) := chainAccess s k t ch l pa w (add && !(excluded && body))
        let plain := !add && !view && !l.zf && !isHost pa
        chainTake (noteExcluded s k (excluded && !a.poison)) k o ch va c a (if plain then some pa else none)
    | .remote pkg asid _ => chainSend s k t o ch pkg asid va view excluded
    | .window .. => s

/-- CHAIN_STEP (R226, R254 to R256): the packet performs its next access at that line's owner, once the issuer's earlier
accesses have their stamps. -/
def execChainStep (thr op : Nat) (s : State) : Host.Outcome State Fault Refusal :=
  match getThread s thr with
  | none => .next s
  | some t => match findOp t op with
    | none => .next s
    | some o => match o.kind with
      | .chain ch =>
        if o.performed ∨ o.sent ∨ earlierDone t op = false then .next s
        else
          let ch := if ch.k = 0 then { ch with c := max ch.c t.pts } else ch
          match chainNext ch with
          | none => .next (chainAddr s thr o ch)
          | some (ea, w, acc) => match addrOf ea w with
            | .error (code, addr) => .next (faultOp s thr o (if code = 0x06 then 0x0B else code) addr)
            | .ok va =>
              if blockedOn s (.chain thr op va) then .next s
              else match xlate s thr t acc (gridOf s t).asid va with
                | .ok l => .next (chainGo (touchPage s thr t (gridOf s t).asid va) thr t o ch l va w acc)
                | .prot => .next (faultOp s thr o 0x08 va)
                | .miss => .next (laneMiss s thr (gridOf s t).asid va acc .queued (.chain thr op va))
                | .zeroMiss l => .next (laneMiss s thr (gridOf s t).asid va acc (.zero l) (.chain thr op va))
      | _ => .next s

/-- An answer to a packet's issuer, from the package where it stands. -/
def packetAnswer (s : State) (f : Frame) (subop stamp : Nat) (bs : List Byte) : State :=
  respond s (answer s f 0x81 subop 0 stamp bs)

/-- A packet given back to its issuer with its partial state (R255, R256). -/
def giveBack (s : State) (f : Frame) (x : Packet) : State := packetAnswer s f 2 x.chain.c (packetBytes x)

/-- A packet sent on to the package that owns its next address (R255): under the issuer's name and TAG, with a sequence number
that no request of the issuer has, and kept for a retransmission of the frame that brought it. -/
def sendOn (s : State) (f : Frame) (x : Packet) (pkg asid va : Nat) : State :=
  let out : Frame := { f with dpkg := pkg, asid := asid, addr := va, stamp := x.chain.c, data := packetBytes x, len := lenOf 5 (packetBytes x)
                              seq := 2 ^ 64 + f.seq * 2 ^ 14 + s.fa.pkg + 1 }
  let p := getPeer s f.spkg
  sendFrame (setPeer s f.spkg { p with received := tset p.received f.seq ((tget p.received f.seq).getD [] ++ [out]) }) out

/-- A packet's access to a line of this package, and where it goes then: it answers its issuer, or stays for its next access
(R226, R255, R256). -/
def packetAccess (f : Frame) (x : Packet) (w va : Nat) (acc : Acc) (s : State) (l : Leaf) (pa : Nat) : State :=
  let ch := x.chain
  let (a, s) := if acc == .chainAdd then rmwAt s ch.c pa 4 (.atom .add) ch.x1 else readAt s l.zf none ch.c pa w
  let c := max ch.c a.ts
  if a.poison then packetAnswer s f 1 c (natLe 8 va)
  else match chainGot ch c a.value with
    | none => packetAnswer s f 0 c (natLe 8 a.value)
    | some ch =>
      let x := { x with chain := ch }
      if x.one then giveBack s f x
      else { s with fa := { s.fa with visitors := s.fa.visitors ++ [{ f with stamp := ch.c, data := packetBytes x }] } }

/-- A packet that has performed an access at this package goes on: its next address is translated in the address space that
brought it here, which is all that R310 gives an owner (notes/assumptions/31.md). It performs the access where that page lies
here and is exported to its issuer, is sent on where it lies on a third package, and goes back to its issuer otherwise. -/
def visitOn (s : State) (f : Frame) (x : Packet) : State :=
  match chainNext x.chain with
  | none => match chainAddrValue x.chain with
    | some v => packetAnswer s f 0 x.chain.c (natLe 8 v)
    | none => giveBack s f x
  | some (ea, w, acc) => match addrOf ea w with
    | .error _ => giveBack s f x
    | .ok va => match agentPa s { die := 0 } acc f.asid va with
      | .error _ => giveBack (noteBad s f.asid va) f x
      | .ok (l, s') =>
        if l.remote then
          if l.frame / 4096 = f.spkg then giveBack s f x else sendOn s f x (l.frame / 4096) (l.frame % 4096) va
        else if l.gather ∨ exported s' f.asid va f.spkg f.rasid l = false then giveBack s f x
        else packetAccess f x w va acc s' l (l.frame + va % pageBytes l.size)

/-- Does a packet's next access wait, for its translation or for the host path? (R306, R367, R369) -/
def packetWaits (s : State) (f : Frame) (x : Packet) : Bool :=
  match chainNext x.chain with
  | some (ea, w, acc) => match addrOf ea w with
    | .ok va => frameWaits s { f with addr := va } acc w
    | .error _ => false
  | none => false

/-- The packet that has stayed at this package longest goes on (R255). -/
def runVisit (s : State) : State :=
  match s.fa.visitors with
  | [] => s
  | f :: rest => match packetOf f.stamp f.data with
    | some x => if packetWaits s f x then s else visitOn { s with fa := { s.fa with visitors := rest } } f x
    | none => { s with fa := { s.fa with visitors := rest } }

/-- KOLOZ_CHAIN (R255, R310, R311): a packet performs its access at a line of this package, where the page is exported to its
issuer, and then stays, is sent on, or answers. -/
def execKolozChain (port : Nat) (f : Frame) (s : State) : Host.Outcome State Fault Refusal :=
  .next (takeRequest port f 5 (fun s => match packetOf f.stamp f.data with
    | none => s
    | some x => match chainNext x.chain with
      | none => visitOn s f x
      | some (_, w, acc) => atHome port f acc w (packetAccess f x w f.addr acc) s) s
    (match (packetOf f.stamp f.data).bind fun x => chainNext x.chain with
      | some (_, w, acc) => frameWaits s f acc w
      | none => false))

end Sys2Proof.Machine
end

