-- ==== Sys2Proof/Machine/Sync.lean ====
section
/-! DEFINITION. Sync.lean: transactions (R234 to R237, R262 to R265), thread snapshots (R227, R229, R266), fences (R223, R267),
WAIT (R398), BAR (R399 to R401), debug stops (R337), TRAP and BRKPT (R383, R384). -/

namespace Sys2Proof.Machine

/-- The S that an opening by an agent of pts p takes (R227, R435). -/
def openAt (s : State) (p : Nat) : Nat := max p (openFloor s)

/-- An opening by a thread of pts p: S where the horizon table has room, else it waits, which is posted (R229). -/
def tryOpen (s : State) (p : Nat) : Option Nat × State :=
  let S := openAt s p
  if horizonRoom s S then (some S, openSnap s S) else (none, post s 6 0 8 p 0)

/-- The outermost transaction begins at S (R227, R263). -/
def beginTx (t : Thread) (S : Nat) : Thread := { t with pts := max t.pts (S + 1), tx := { depth := 1, active := true, s := S, held := true } }

/-- A thread snapshot begins at S (R227, R266). -/
def beginSnap (t : Thread) (S : Nat) : Thread := { t with pts := max t.pts (S + 1), snap := .own S, revoked := false }

/-- TXBEGIN (R263). -/
def execTxbegin (s : State) : Host.Outcome State Fault Refusal :=
  issueWord { order := true } (fun c s k t =>
    if t.tx.depth = 0 then
      match tryOpen s t.pts with
      | (some S, s) => .ok (setThread s k (beginTx t S))
      | (none, s) => .wait (setThread s k (waiting c t .table .txbegin))
    else if t.tx.depth < 255 then .ok (setThread s k { t with tx := { t.tx with depth := t.tx.depth + 1 } })
    else .ok (setThread s k (abortTx t 2))) s

/-- Does some line of a write set hold a version newer than S? (R235) -/
def conflicts (s : State) (S : Nat) (lns : List Nat) : Bool := lns.any fun ln => decide (S < (getLine s ln).wts)

/-- C of R235. -/
def commitStamp (s : State) (p : Nat) (lns : List Nat) : Nat := lns.foldl (fun n ln => max n ((getLine s ln).rts + 1)) p

/-- A word of memory as a write set's RADDs, and the stores after them, leave it (R234, R235). -/
def commitWord (m : Mem) (e : Nat × List TxMod) : Mem :=
  mwrite m (4 * e.1) (natLe 4 (e.2.foldl TxMod.apply (leNat (mread m (4 * e.1) 4))))

/-- One line of a write set committed at C: its old version is kept or discarded, its bytes are written, and its RADDs are
applied to the current value (R230, R235); a write set that holds all 128 bytes clears poison (R387). -/
def commitLine (x : Tx) (C : Nat) (s : State) (ln : Nat) : State :=
  let s := dirty (supersede (foldLine s ln) ln C) ln
  let m := (x.ws.filter fun e => e.1 / 128 == ln).foldl (fun m e => mset m e.1 e.2) s.mm.mem
  let s := setMem s ((x.adds.filter fun e => e.1 / 32 == ln).foldl commitWord m)
  let l := getLine s ln
  let whole := (List.range 128).all fun i => x.holds (ln * 128 + i)
  noteStamp (setLine { s with mm := { s.mm with maxWrite := max s.mm.maxWrite C } } ln
    { l with wts := C, rts := C, poison := l.poison && !whole }) ln C

/-- The commit of a transaction (R235): the state, the thread's pts after it, and whether it committed. -/
def commit (s : State) (t : Thread) : State × Nat × Bool :=
  let lns := t.tx.lines
  if conflicts s t.tx.s lns then (s, t.pts, false)
  else
    let C := commitStamp s t.pts lns
    (lns.foldl (commitLine t.tx C) s, C, true)

/-- TXCOMMIT (R235, R236, R264). -/
def execTxcommit (pd : PredIx) (s : State) : Host.Outcome State Fault Refusal :=
  issueWord { order := true, adds := [(.st, 1)] } (fun _ s k t =>
    let (id, s) := fresh s
    let t := addDone t id .st
    if t.tx.depth = 0 then .ok (setThread s k (writePred t pd false))
    else if 1 < t.tx.depth then
      .ok (setThread s k (writePred { t with tx := { t.tx with depth := t.tx.depth - 1 } } pd t.tx.active))
    else
      let (s, p, ok) := if t.tx.active then commit (setThread s k t) t else (setThread s k t, t.pts, false)
      match getThread s k with
      | none => .ok s
      | some t =>
        let t := if ok then { t with pts := max t.pts p, txReason := 0 } else abortTx t 1
        let s := if t.tx.held then closeSnap s t.tx.s else s
        .ok (setThread s k (writePred { t with tx := {} } pd ok))) s

/-- TXABORT (R265). -/
def execTxabort (s : State) : Host.Outcome State Fault Refusal :=
  issueWord {} (fun _ s k t => .ok (setThread s k (if t.tx.depth = 0 then t else abortTx t 4))) s

/-- SNAP_OPEN (R265, R266). -/
def execSnapOpen (s : State) : Host.Outcome State Fault Refusal :=
  issueWord { order := true } (fun c s k t =>
    let t := abortTx t 4
    let s := match t.snap with
      | .own S => closeSnap s S
      | _ => s
    let t := { t with snap := .off }
    match tryOpen s t.pts with
    | (some S, s) => .ok (setThread s k (beginSnap t S))
    | (none, s) => .wait (setThread s k (waiting c t .table .snapOpen))) s

/-- SNAP_CLOSE (R265, R266). -/
def execSnapClose (s : State) : Host.Outcome State Fault Refusal :=
  issueWord { order := true } (fun _ s k t =>
    let t := abortTx t 4
    let s := match t.snap with
      | .own S => closeSnap s S
      | _ => s
    .ok (setThread s k { t with snap := .off })) s

/-- The pts of the walker of a die (R216). -/
def walkerPts (s : State) (die : Nat) : Nat := (tget s.qu.walkerPts die).getD 0

/-- A walker's pts raised. -/
def raiseWalker (s : State) (die p : Nat) : State :=
  { s with qu := { s.qu with walkerPts := tset s.qu.walkerPts die (max (walkerPts s die) p) } }

/-- A slot's pts raised: it keeps the largest stamp that it has observed (R216). -/
def raiseSlot (s : State) (slot p : Nat) : State :=
  modSlot { s with qu := { s.qu with slotPts := tset s.qu.slotPts slot (max ((tget s.qu.slotPts slot).getD 0) p) } } slot
    fun x => { x with pts := max x.pts p }

/-- The pts of a grid's launching agent. -/
def launcherPts (s : State) (g : Grid) : Nat := match g.launcher with
  | .slot _ _ => (tget s.qu.slotPts g.launchSlot).getD 0
  | .node d _ => walkerPts s d

/-- The pts of a grid's launching agent raised. -/
def raiseLauncher (s : State) (g : Grid) (p : Nat) : State := match g.launcher with
  | .slot _ _ => raiseSlot s g.launchSlot p
  | .node d _ => raiseWalker s d p

/-- A grid with the snapshot flag opens its snapshot at its launch stamp, to which its launching agent's pts rises (R227,
R229). -/
def openGrid (s : State) (g : Nat) : State :=
  match tget s.ex.grids g with
  | none => s
  | some gr =>
    let S := openAt s gr.stamp
    if horizonRoom s S then
      raiseLauncher (modGrid (openSnap s S) g fun x => { x with snap := some S, stamp := max x.stamp S, waitsHorizon := false }) gr S
    else s

/-- HORIZON_ENTRY_FREED (R229): an opening that waits, of a grid or of a thread, proceeds once the table has room. -/
def execHorizonEntryFreed (grid : Bool) (waiter : Nat) (s : State) : Host.Outcome State Fault Refusal :=
  if grid then
    match tget s.ex.grids waiter with
    | some g => if g.waitsHorizon then .next (openGrid s waiter) else .next s
    | none => .next s
  else match getThread s waiter with
    | none => .next s
    | some t =>
      let S := openAt s t.pts
      if t.st = .waiting ∧ t.waitOn = .table ∧ horizonRoom s S then
        match t.held with
        | some { instr := .txbegin, .. } => .next (release (setThread (openSnap s S) waiter (beginTx t S)) waiter)
        | some { instr := .snapOpen, .. } => .next (release (setThread (openSnap s S) waiter (beginSnap t S)) waiter)
        | _ => .next s
      else .next s

/-- Has a thread a write whose second answer another package, or the host, still owes? (R223, R308, R314) -/
def owes (s : State) (k : Nat) : Bool :=
  s.fa.requests.any fun r => (match r.2.owner with
    | .op j _ => j == k
    | _ => false) || r.2.parts.any fun p => p.1 == k

/-- Is a write on the host path still to be flushed, and may the path not send now? (R306, R308, R314) -/
def flushWaits (s : State) : Bool := (flushHost s).fa.path != s.fa.path && !hostPathOpen s

/-- FENCE (R223, R267): every earlier access is performed; for .sys every write is answered as visible, and pending deltas are
folded. -/
def execFence (m : FenceScope) (s : State) : Host.Outcome State Fault Refusal :=
  issueGo { order := true } (fun c ks s =>
    match m with
    | .tgt => laneLoop (laneStep { order := true } c fun s k t => .ok (setThread s k t)) s ks
    | .sys =>
      if ks.any (owes s) || flushWaits s then s
      else laneLoop (laneStep { order := true } c fun s k t => .ok (setThread s k t)) (settleAll s) ks) s

/-- WAIT (R398). -/
def execWait (ld st : BitVec 6) (cp tl : BitVec 4) (s : State) : Host.Outcome State Fault Refusal :=
  issueWord {} (fun c s k t =>
    if waitMet t ld st cp tl then
      match waitBad t ld with
      | some b => .faultIn (setThread s k (dropBad t b)) (badCode b) b.addr
      | none => .ok (setThread s k (waitJoin t cp))
    else .wait (setThread s k (waiting c t .wait (.wait ld st cp tl)))) s

/-- An arrival at a BAR is counted (R400). -/
def countBar (s : State) (m : BarScope) (team : Nat) : State :=
  match m with
  | .team => modTeam s team fun tm => { tm with barCount := tm.barCount + 1 }
  | .cluster => { s with ex := { s.ex with
      clusters := tmod s.ex.clusters (getTeam s team).cluster fun c => { c with barCount := c.barCount + 1 } } }

/-- BAR (R400): each live lane arrives; the barrier that an arrival completes releases. -/
def execBar (m : BarScope) (s : State) : Host.Outcome State Fault Refusal :=
  issueThen { order := true } (fun c s k t => .wait (countBar (setThread s k (waiting c t .bar (.bar m))) m t.team))
    (fun s k => match getThread s k with
      | some t => checkBars s t.team
      | none => s) s

/-- A debug stop of one thread (R326, R337); a thread that waits stops when its wait is met, and one whose word is under way at
its next word boundary. -/
def stopThread (s : State) (e : Nat × Thread) : State :=
  if e.2.st = .ready ∧ underWay s e.1 e.2 = false then
    modThread (leaveBundle s e.1) e.1 fun t => { t with dstop := true, st := .stopped }
  else modThread s e.1 fun t => { t with dstop := true }

/-- A debug stop of a group, or of its team under team-stop (R337). -/
def debugStop (s : State) (team group : Nat) : State :=
  (if (getTeam s team).teamStop && (gridOf s { team := team, pc := 0 }).debugFlag then teamMates s team else groupMates s team group).foldl stopThread s

/-- A thread meets a breakpoint in a unit of `n` words from `pc` on: its fault registers say so, an event reports it, and its
group stops (R337, R384). -/
def meetBreak (s : State) (k : Nat) (code : Nat) (fpc pc : Word) (n : Nat) : State :=
  match getThread s k with
  | none => s
  | some t =>
    let t' := { faultRegs t 3 code 0 fpc with brk := some (pc, n) }
    let s := setThread s k t'
    if t.dstop then s
    else debugStop (post s 0 (coreOf k) 4 (faultArg k t') 0) t.team t.group

/-- The PROGRAM fault of TRAP and BRKPT: FPC holds the word's own PC, past its hints, from which the handler returns
(notes/assumptions/48.md); nothing of the sequence takes effect, and a thread that no handler takes is parked before it (R54,
R55, R383). -/
def trapAt (c : Ctx) (s : State) (k code : Nat) : State :=
  modThread (deliver s k code 0 c.pc) k fun t => if t.st = .parked then { t with pc := c.fpc } else t

/-- TRAP (R383): the PROGRAM fault with FPC at the TRAP word. -/
def execTrap (_ : BitVec 16) (s : State) : Host.Outcome State Fault Refusal :=
  issueWord {} (fun c s k _ => .wait (trapAt c s k 0x14)) s

/-- BRKPT (R384): a debug stop in a grid with DEBUG, a PROGRAM fault otherwise. -/
def execBrkpt (s : State) : Host.Outcome State Fault Refusal :=
  issueWord {} (fun c s k t =>
    if (gridOf s t).debugFlag then .wait (meetBreak s k 0x15 c.pc c.fpc c.words) else .wait (trapAt c s k 0x15)) s

end Sys2Proof.Machine
end

