-- ==== Sys2Proof/Machine/Transfer.lean ====
section
/-! DEFINITION. Transfer.lean: reading code (R46, R181, R188), the branch-target words (R180 to R186), the end of a handler
(R381), IFLUSH (R190), STOP and YIELD (R333, R334). -/

namespace Sys2Proof.Machine

/-- Words of code that a core's instruction cache holds: 64 KiB (R14). -/
def codeLines : Nat := 16384

/-- Entries of a core's prefetch store, of 24 words each (R187, R320). -/
def prefetchEntries : Nat := 512

/-- The byte address of the word at a PC (R46). -/
def codeAddr (g : Grid) (pc : Word) : Nat := g.codeBase + 4 * pc.toNat

/-- How reading a word of code ends. -/
inductive Fetched where
  | ok (w : Word) (s : State)
  | miss (va : Nat)
  | later                        -- the host path cannot carry it now (R306, R307)
  | prot (va : Nat)
  | poison (va : Nat)

/-- A word of memory as fetch reads it, outside logical time (R181, R223). -/
def codeWord (s : State) (l : Leaf) (pa : Nat) : Word := if l.zf then 0 else BitVec.ofNat 32 (leNat (mread s.mm.mem pa 4))

/-- A location of code, by which the instruction cache and the prefetch store hold its word: an address space and a virtual
address (R181, R199). -/
def codeLoc (g : Grid) (pc : Word) : Nat := g.asid * 2 ^ 57 + codeAddr g pc

/-- A word of code taken into a core's instruction cache (R14, R181). The manual gives a full cache no replacement rule: DESIGN
CHOICE, the word that was taken longest ago goes (notes/assumptions/14.md). -/
def holdCode (s : State) (core loc : Nat) (w : Word) : State :=
  let mine (x : CodeLine) : Bool := x.core == core && x.entry.isNone
  { s with ex := { s.ex with
      code := { core := core, loc := loc, word := w, filled := s.nextId } ::
        (s.ex.code.filter fun x => mine x && x.loc != loc).take (codeLines - 1) ++ s.ex.code.filter fun x => !mine x } }

/-- A core's prefetch store takes an entry of words from a target on, in place of one of the same target; where it is full the
oldest entry is dropped (R187). -/
def holdPrefetch (s : State) (core target : Nat) (ws : List (Nat × Word)) : State :=
  let new : List CodeLine := ws.map fun x => { core := core, loc := x.1, word := x.2, filled := s.nextId, entry := some target }
  let all := new ++ s.ex.code.filter fun x => !(x.core == core && x.entry == some target)
  let kept := ((all.filter fun x => x.core == core).filterMap (·.entry)).dedup.take prefetchEntries
  { s with ex := { s.ex with code := all.filter fun x => x.core != core || x.entry.all kept.contains } }

/-- A word of code that a core holds from the time since an epoch (R181). -/
def heldCode (s : State) (core loc epoch : Nat) : Option CodeLine :=
  s.ex.code.find? fun x => x.core == core && x.loc == loc && decide (epoch ≤ x.filled)

/-- The word at a PC, read for a thread: from the words its core holds since an epoch, where `held` gives one, or from memory,
which the instruction cache then holds where `keep` (R181, R188). -/
def fetchWord (s : State) (k : Nat) (t : Thread) (pc : Word) (held : Option Nat) (keep : Bool := true) : Fetched :=
  let g := gridOf s t
  let va := codeAddr g pc
  if 2 ^ 57 ≤ va then .prot (va % 2 ^ 57)
  else match xlate s k t .fetch g.asid va with
    | .ok l =>
      let pa := l.frame + va % pageBytes l.size
      match held.bind fun epoch => heldCode s (coreOf k) (codeLoc g pc) epoch with
      | some x => .ok x.word s
      | none =>
        if isHost pa && !hostPathOpen s then .later
        else if linePoison s pa then .poison va
        else
          let w := codeWord s l pa
          let s := readHost s pa 4
          .ok w (if keep then holdCode s (coreOf k) (codeLoc g pc) w else s)
    | .prot => .prot va
    | _ => .miss va

/-- The words of a prefetch from a target on, at most 24; a miss ends it early, and nothing faults (R181). -/
def prefetchWords (k : Nat) (t : Thread) : Nat → State → Word → List (Nat × Word) × State
  | 0, s, _ => ([], s)
  | n + 1, s, pc => match fetchWord s k t pc none false with
    | .ok w s =>
      let (ws, s) := prefetchWords k t n s (pc + 1)
      ((codeLoc (gridOf s t) pc, w) :: ws, s)
    | _ => ([], s)

/-- A prefetch from a target (R181, R187). -/
def prefetch (k : Nat) (t : Thread) (s : State) (pc : Word) : State :=
  let (ws, s) := prefetchWords k t Config.runWords s pc
  holdPrefetch s (coreOf k) (codeLoc (gridOf s t) pc) ws

/-- A word that changes a branch-target register, and the prefetch that it starts (R183, R184). -/
def btWord (w : WordSpec) (pre : Bool) (bt : BtIx) (f : Ctx → Thread → Bt) (s : State) : Host.Outcome State Fault Refusal :=
  issueWord w (fun c s k t =>
    let b := f c t
    let t := writeBt t bt b
    let s := setThread s k t
    .ok (if pre && b.prepared then prefetch k t s b.target else s)) s

/-- PREP (R183). -/
def execPrep (bt : BtIx) (imm : BitVec 17) (s : State) : Host.Outcome State Fault Refusal :=
  btWord {} true bt (fun c _ => { prepared := true, target := c.pc + imm.signExtend 32 }) s

/-- PREPR (R183). -/
def execPrepr (bt : BtIx) (a : Reg) (s : State) : Host.Outcome State Fault Refusal :=
  btWord (opSpec [sp1 a] []) true bt (fun _ t => { prepared := true, target := rd t a }) s

/-- BLOAD (R183). -/
def execBload (bt : BtIx) (a : Reg) (s : State) : Host.Outcome State Fault Refusal :=
  btWord (opSpec [sp1 a] []) false bt (fun _ t => { prepared := true, target := rd t a }) s

/-- BCOPY (R184). -/
def execBcopy (bt bs : BtIx) (s : State) : Host.Outcome State Fault Refusal := btWord {} true bt (fun _ t => readBt t bs) s

/-- BINV (R184). -/
def execBinv (bt : BtIx) (s : State) : Host.Outcome State Fault Refusal := btWord {} false bt (fun _ _ => {}) s

/-- A lane of a transfer word, its run ended, at a PC (R52, R185). -/
def transferTo (s : State) (k : Nat) (t : Thread) (pc : Word) : LaneOut :=
  .wait (leaveBundle (setThread s k (endRun { t with pc := pc, grants := [], buf := [] })) k)

/-- XFER (R185). -/
def execXfer (bt : BtIx) (ps : PredIx) (neg : Bool) (s : State) : Host.Outcome State Fault Refusal :=
  issueWord {} (fun c s k t =>
    if (readBt t bt).prepared = false then .fault 0x04 0
    else transferTo s k t (if readPred t ps != neg then (readBt t bt).target else c.pc + 1)) s

/-- XFER_CALL (R185): b7 takes the return target after bT is read. -/
def execXferCall (bt : BtIx) (ps : PredIx) (neg : Bool) (s : State) : Host.Outcome State Fault Refusal :=
  issueWord {} (fun c s k t =>
    if (readBt t bt).prepared = false then .fault 0x04 0
    else if readPred t ps != neg then
      if t.depth = 255 then .fault 0x16 0
      else
        let t' := { writeBt t 7 { prepared := true, target := c.pc + 1 } with depth := t.depth + 1 }
        transferTo (prefetch k t' s (c.pc + 1)) k t' (readBt t bt).target
    else transferTo s k t (c.pc + 1)) s

/-- XFER_RET (R185, R381): at the handler's depth it ends handler mode. -/
def execXferRet (bt : BtIx) (ps : PredIx) (neg : Bool) (s : State) : Host.Outcome State Fault Refusal :=
  issueWord {} (fun c s k t =>
    if (readBt t bt).prepared = false then .fault 0x04 0
    else if readPred t ps != neg then
      if t.depth = 0 then .fault 0x16 0
      else
        let tgt := (readBt t bt).target
        match t.frame with
        | some f =>
          if t.depth = f.depth + 1 then
            .wait (leaveBundle (setThread s k { endHandler (endRun t) f tgt with grants := [], buf := [] }) k)
          else transferTo s k { t with depth := t.depth - 1 } tgt
        | none => transferTo s k { t with depth := t.depth - 1 } tgt
    else transferTo s k t (c.pc + 1)) s

/-- XDEC (R185). -/
def execXdec (bt : BtIx) (a : Reg) (s : State) : Host.Outcome State Fault Refusal :=
  issueWord (opSpecD [] [sp1 a]) (fun c s k t =>
    if (readBt t bt).prepared = false then .fault 0x04 0
    else
      let n := rd t a - 1
      transferTo s k (writeReg t a.toNat n) (if n = 0 then c.pc + 1 else (readBt t bt).target)) s

/-- The fetch epoch of a thread moved to now (R181). -/
def moveEpoch (s : State) (k : Nat) : State :=
  let (n, s) := fresh s
  modThread s k fun t => { t with epoch := n + 1 }

/-- IFLUSH (R190): once no load is outstanding. -/
def execIflush (m : IflushScope) (s : State) : Host.Outcome State Fault Refusal :=
  issueGo {} (fun c ks s =>
    if ks.any fun k => match getThread s k with
      | some t => count t .ld != 0
      | none => false
    then s
    else laneLoop (laneStep {} c fun s k t =>
      let s := setThread s k t
      match m with
      | .own => .ok (moveEpoch s k)
      | .core =>
        let s := { s with ex := { s.ex with code := s.ex.code.filter fun x => x.core != c.core } }
        .ok (((s.ex.threads.filter fun e => coreOf e.1 == c.core).map (·.1)).foldl moveEpoch s)) s ks) s

/-- STOP (R333). -/
def execStop (s : State) : Host.Outcome State Fault Refusal :=
  issueWord {} (fun c s k t =>
    if count t .ld = 0 then .wait (finishStop (setThread s k t) k c.fpc) else .wait (setThread s k (waiting c t .stop .stop))) s

/-- YIELD (R334). -/
def execYield (s : State) : Host.Outcome State Fault Refusal :=
  issueWord { ends := true } (fun _ s k t => .ok (setThread s k { t with yielded := true })) s

end Sys2Proof.Machine
end

