-- ==== Sys2Proof/Machine/Fetch.lean ====
section
/-! DEFINITION. Fetch.lean: the issue unit of a port, which is a hint sequence and its target (R54, R55, R188), the debug
comparators (R337), and the end of a single step (R338). -/

namespace Sys2Proof.Machine

/-- What a port has to issue. -/
inductive IssueUnit where
  | run (i : Instr) (hints : List Hint) (s : State)
  | stop (s : State)                                   -- nothing issues

/-- The lanes of a bundle whose fetch missed join the merge table (R188, R369). -/
def fetchMiss (s : State) (ks : List Nat) (va : Nat) (fpc : Word) : State :=
  ks.foldl (fun s k => match getThread s k with
    | some t => laneMiss s k (gridOf s t).asid va .fetch .queued (.fetch k va fpc)
    | none => s) s

/-- Does an enabled comparator of the core match the word at a PC? Only in a DEBUG grid (R337, R355). -/
def debugHit (s : State) (core : Nat) (g : Grid) (pc : Word) : Bool :=
  g.debugFlag && (getCore s core).comparators.any fun e => codeAddr g pc == e.2

/-- A debug match stops the groups of the bundle before the unit, and is reported once for each group (R337; the FCODE and
FPC of the report: notes/assumptions/35.md). -/
def debugMatch (s : State) (ks : List Nat) : State :=
  ks.foldl (fun s k => match getThread s k with
    | none => s
    | some t =>
      if t.dstop then s
      else debugStop (post s 0 (coreOf k) 4 (faultArg k { t with fcode := 0x315, fpc := t.pc }) 0) t.team t.group) s

/-- The port that single steps use, beside the four issue ports. -/
def stepPort : Nat := 4

/-- The words from a PC on, up to the first that is no hint (R54, R57, R188); where a comparator matches one, the bundle stops
before the first, and that word is not fetched (R55, R337). -/
def fetchSeq (port k : Nat) (t : Thread) (ks : List Nat) (held : Option Nat) : Nat → State → Word → List Hint → IssueUnit
  | 0, s, _, _ => .stop (faultAll s ks 0x02 t.pc)
  | n + 1, s, pc, hs =>
    if port ≠ stepPort ∧ debugHit s (coreOf k) (gridOf s t) pc then .stop (debugMatch s ks)
    else match fetchWord s k t pc held with
      | .ok w s => match decodeWord w with
        | .error _ => .stop (faultAll s ks 0x01 t.pc)
        | .ok (.hint h) => fetchSeq port k t ks held n s (pc + 1) (hs ++ [h])
        | .ok (.instr i) => .run i hs s
      | .miss va => .stop (fetchMiss s ks va t.pc)
      | .later => .stop s
      | .prot va => .stop (laneLoop (fun s k => deliver s k 0x08 va t.pc) s ks)
      | .poison va => .stop (laneLoop (fun s k => deliver s k 0x17 va t.pc) s ks)

/-- The latest epoch at which a run of the bundle's threads began: no thread takes a word older than its own (R181). -/
def bundleEpoch (s : State) (ks : List Nat) : Nat := (ks.filterMap (getThread s)).foldl (fun n t => max n t.runEpoch) 0

/-- The unit that a port issues for its bundle, from held words where `held`. A seventh hint faults before the word after it is
looked at, a DESIGN CHOICE (notes/assumptions/53.md). -/
def portUnit (s : State) (core port : Nat) (held : Bool) : IssueUnit :=
  let ks := bundle s core port
  match ks with
  | [] => .stop s
  | k :: _ => match getThread s k with
    | none => .stop s
    | some t => match fetchSeq port k t ks (if held then some (bundleEpoch s ks) else none) 7 s t.pc [] with
      | .stop s => .stop s
      | .run i hs s => .run i hs { s with cur := some { core := core, port := port, hints := hs, fpc := t.pc } }

/-- An outcome whose next state something more is done to. -/
def mapNext (f : State → State) : Host.Outcome State Fault Refusal → Host.Outcome State Fault Refusal
  | .next s => .next (f s)
  | .fault r => .fault r
  | .refused r => .refused r

/-- Does a thread stand where it stood: has it neither completed its word nor left it? -/
def stands (t v : Thread) : Bool := t.pc == v.pc && t.st == v.st && t.runPos == v.runPos && t.btag == v.btag && t.held == v.held

/-- Has the bundle that a port held taken its word, in some thread? -/
def tookWord (before after : State) (core port : Nat) : Bool :=
  (bundle before core port).any fun k => match getThread before k, getThread after k with
    | some t, some v => !stands t v
    | _, _ => true

/-- The words of a unit that a bundle has taken, counted (R403). -/
def countWords (core port n : Nat) (before after : State) : State :=
  if tookWord before after core port then perf after 0 core 0 n else after

/-- Single-stepped threads whose unit is done, or has parked them, stand STOPPED again (R338, R339). -/
def endStep (before after : State) (core : Nat) : State :=
  if tookWord before after core stepPort then
    (bundle before core stepPort).foldl (fun s k => match getThread s k with
      | none => s
      | some t => modThread (leaveBundle s k) k fun _ => { t with stepping := false, st := if t.st = .ready then .stopped else t.st }) after
  else after

end Sys2Proof.Machine
end

