-- ==== Sys2Proof/Machine/Walks.lean ====
section
/-! DEFINITION. Walks.lean: what ends a miss (R365, R367, R369, R370), the first write to a zero-fill page (R372), the fault
queues and the event queue (R279 to R283), and migration (R374 to R377). -/

namespace Sys2Proof.Machine

/-- The fault that a waiter takes for its access: PAGE_PROT (R366, R370) or, of a poisoned table, DATA_POISON (R242). -/
def failWaiter (code : Nat) (s : State) (w : Waiter) : State :=
  match w with
  | .lane k va fpc | .fetch k va fpc => match getThread s k with
    | none => s
    | some t => if t.live then deliver s k code va fpc else s
  | .chain k op va => match (getThread s k).bind fun t => findOp t op with
    | some o => faultOp s k o code va
    | none => s
  | .element k op _ => setOp s k op fun o =>
      if code = 0x17 then { o with performed := true, poisoned := true } else { o with performed := true, prot := true }
  | .card c _ | .completion c _ => freezeCard s c (if code = 0x17 then 4 else 3)
  | .node d n _ => { s with qu := { s.qu with nodes := tmod s.qu.nodes (d * 4096 + n) fun x => { x with buf := tset x.buf 0 (if code = 0x17 then 2 else 1) } } }
  | .tile tm k va => tileFault s tm k code va

/-- The lane of a waiter parked (R370); elements of a window leave their thread running (R301). -/
def parkWaiter (s : State) (w : Waiter) : State :=
  match w with
  | .lane k _ _ | .fetch k _ _ | .chain k _ _ => match getThread s k with
    | some t => if t.live then park s k else s
    | none => s
  | _ => s

/-- A merge entry whose walk reached a malformed or a poisoned table entry: it is freed, WALK_BAD names the address that
missed first, and every waiter fails (R365, R405). -/
def walkBad (s : State) (key : Nat) (m : Merge) (code : Nat) : State :=
  m.waiters.foldl (failWaiter code) (post (freeMerge s key) 7 0 0x0B m.asid m.va)

/-- A merge entry whose walk ended at an invalid entry: its record is written, and its lanes park (R279, R370). -/
def walkAbsent (s : State) (die key : Nat) (m : Merge) : State :=
  m.waiters.foldl parkWaiter (addRecord (setMerge s key { m with phase := .absent }) die
    { merge := key % 1024, srcKind := m.srcKind, srcId := m.srcId, asid := m.asid, acc := m.acc, va := m.va })

/-- WALK_COMPLETE (R365, R367, R369, R370): a walk returns, over the walker's kept table pointers where `w.kept`. A leaf goes to
every waiter; an invalid entry writes a record and parks them; a malformed one is a fault of each. The walk that has waited
longest starts in its place. -/
def execWalkComplete (die : Nat) (w : WalkReturn) (s : State) : Host.Outcome State Fault Refusal :=
  let key := die * 1024 + w.entry
  match tget s.tr.merges key with
  | none => .next s
  | some m =>
    if m.phase ≠ .walking ∨ 1024 ≤ w.entry then .next s
    else
      let va := m.vpn * 65536
      let ps := if w.kept then keptPointers s die m.asid else []
      let r := walkOver s ps m.asid va
      let s := keepPointers (perf s 3 die 0 1) ps die m.asid va
      let s := match r with
        | .leaf l => m.waiters.foldl (fun s w => grantTo s { asid := m.asid, vpn := m.vpn, leaf := l } w) (freeMerge s key)
        | .absent => walkAbsent s die key m
        | .bad => walkBad s key m 0x08
        | .poison => walkBad s key m 0x17
      .next (startWalk s die)

/-- ZERO_FILL_FIRST_WRITE (R372): the frame is zeroed, ZF is cleared, the translations go, and the accesses that waited walk
again. -/
def execZeroFillFirstWrite (die entry : Nat) (s : State) : Host.Outcome State Fault Refusal :=
  let key := die * 1024 + entry
  match tget s.tr.merges key with
  | none => .next s
  | some m => match m.phase with
    | .zero _ => match walk s m.asid (m.vpn * 65536) with
      | .leaf l => .next (if l.zf then zeroFill s m.asid (m.vpn * 65536) l else queueWalk s key m)
      | _ => .next (queueWalk s key m)
    | _ => .next s

/-- The value of a fault record (R279). -/
def recordValue (r : FaultRec) (seq : Nat) : Nat :=
  r.va % 2 ^ 57 + 7 * 2 ^ 128 + r.acc * 2 ^ 136 + r.asid * 2 ^ 140 + r.srcId * 2 ^ 152 + r.srcKind * 2 ^ 168 + r.merge * 2 ^ 176 +
    seq % 2 ^ 64 * 2 ^ 192

/-- How the writing of a counted record ends. -/
inductive Counted where
  | ok (ts : Nat) (s : State)
  | waits                        -- a page of it waits for its translation, or for the host path
  | denied (s : State)           -- a page of it is not writable

/-- A record and the write-count word after it, with a higher stamp (R280, R283). A malformed or poisoned table entry on the way
is reported (R365). -/
def writeCounted (s : State) (u : Via) (p slot count : Nat) (bs : List Byte) (n : Nat) : Counted :=
  if [slot, count].any fun va => walkWaits s u .engineWrite 0 va || portWaits s u .engineWrite 0 va then .waits
  else match agentWrite s u p 0 slot bs with
  | .ok ts z => match agentWrite z u (ts + 1) 0 count (natLe 8 n) with
    | .ok ts z => .ok ts z
    | _ => .denied (noteBad s 0 count)
  | _ => .denied (noteBad s 0 slot)

/-- A fault queue set. -/
def setFaultQ (s : State) (die : Nat) (q : FaultQueue) : State := { s with tr := { s.tr with faultQs := tset s.tr.faultQs die q } }

/-- A fault queue refuses a record; the first refusal of a full period is posted (R281). -/
def refuseRecord (s : State) (die : Nat) (q : FaultQueue) : State :=
  if q.full then s else post (setFaultQ s die { q with full := true }) 7 die 2 die 0

/-- FAULT_RECORD_WRITE (R279 to R281): the oldest waiting record of a die is written, and the write-count word after it. A
record with no writable ring waits. -/
def execFaultRecordWrite (die : Nat) (s : State) : Host.Outcome State Fault Refusal :=
  match tget s.tr.faultQs die with
  | none => .next s
  | some q => match q.waiting with
    | [] => .next s
    | r :: rest =>
      if 4096 ≤ (q.seq + 2 ^ 32 - q.readIx % 2 ^ 32) % 2 ^ 32 then .next (refuseRecord s die q)
      else match q.base with
        | none => .next s
        | some b => match writeCounted s { die := die } q.pts (b + 32 * (q.seq % 4096)) (b + 131072) (natLe 32 (recordValue r (q.seq + 1))) (q.seq + 1) with
          | .denied z => .next z
          | .waits => .next s
          | .ok ts s => .next (perf (setFaultQ s die { q with seq := q.seq + 1, pts := ts, waiting := rest, full := false }) 3 die 2 1)

/-- The value of an event (R404). -/
def eventValue (e : Event) : Nat :=
  e.code + e.srcId * 2 ^ 16 + e.srcKind * 2 ^ 28 + e.seq * 2 ^ 32 + e.arg0 % 2 ^ 64 * 2 ^ 64 + e.arg1 % 2 ^ 64 * 2 ^ 128 + e.clock % 2 ^ 64 * 2 ^ 192

/-- The event-queue writer takes the oldest event that waits: it writes it, or leaves it to Boxwood alone where the queue is
full (R283). DESIGN CHOICE: a queue whose base is not set, or whose pages are not writable, is one that is full
(notes/assumptions/58.md), and where a malformed table entry is why, WALK_BAD itself is not reported again; an event whose pages wait for their translation waits with them. -/
def writeEvent (s : State) : State :=
  match s.bd.evWait with
  | [] => s
  | e :: rest =>
    let q := s.bd.eventQ
    let drop (s : State) : State := { s with bd := { s.bd with evWait := rest } }
    if 8192 ≤ (q.count + 2 ^ 32 - q.readIx % 2 ^ 32) % 2 ^ 32 then drop s
    else match q.base with
      | none => drop s
      | some b => match writeCounted (drop s) { die := 0 } q.pts (b + 32 * (q.count % 8192)) (b + 262144) (natLe 32 (eventValue e)) (q.count + 1) with
        | .waits => s
        | .denied z => if e.code = 0x0B then drop s else z
        | .ok ts s => { s with bd := { s.bd with eventQ := { q with count := q.count + 1, pts := ts } } }

/-- A destination of R375 as a frame list: HBM4, second tier, host. -/
def destList (dest : Nat) : Nat := if dest = 1 then 0 else if dest = 2 then 1 else 2

/-- The memory of an address as a frame list. -/
def memList (pa : Nat) : Nat := if isHost pa then 2 else if isTier2 pa then 1 else 0

/-- Is a page locked by a migration? -/
def lockOf (s : State) (asid va : Nat) : Option MigLock := s.tr.locks.find? fun m => m.asid == asid && m.va == va

/-- How a migration request ends at its page's current home (R376). -/
inductive MigAsk where
  | locked (s : State)
  | noFrame
  deriving DecidableEq, Repr

/-- A request takes a frame of a die's list, locks its page and marks the leaf, whose translations go (R374, R377). -/
def lockPage (s : State) (asid va die dest : Nat) (l : Leaf) (side : MigSide) : MigAsk :=
  let key := die * 3 + destList dest
  let fs := (tget s.tr.frames key).getD []
  match fs.find? fun f => f % pageBytes l.size == 0 && frameOk s f (pageBytes l.size) with
  | none => .noFrame
  | some f =>
    let x := leNat (mread s.mm.mem l.entry 8)
    let x := x - bits x 54 53 * 2 ^ 53 + 2 ^ 53
    let s := setMem s (mwrite s.mm.mem l.entry (natLe 8 x))
    let s := { s with tr := { s.tr with
      frames := tset s.tr.frames key (fs.filter (· != f))
      locks := { asid := asid, va := va, dest := dest, side := side, size := l.size, list := key, frame := f, entry := l.entry, leaf := x } :: s.tr.locks } }
    .locked (dropPage s asid va l.size)

/-- The first byte of the page of a leaf at an address. -/
def pageStart (va size : Nat) : Nat := va / pageBytes size * pageBytes size

/-- A side that may not ask for a page for 256 us: since it has lost a request for it, or since the other side has migrated it
(R376). -/
def addRecent (s : State) (asid va : Nat) (host lost : Bool) : State :=
  { s with tr := { s.tr with recent :=
      { asid := asid, vpn := va / 65536, host := host, until_ := s.bd.clock + Config.cycles256us, lost := lost } :: s.tr.recent } }

/-- Is a side held back from a page by a loss of its own, or by a migration of the other side? (R376) -/
def isRecent (s : State) (asid va : Nat) (host lost : Bool) : Bool :=
  s.tr.recent.any fun r => r.asid == asid && r.vpn == va / 65536 && r.host == host && r.lost == lost && decide (s.bd.clock < r.until_)

/-- When a page began to count again after the device lost a request for it (R376). -/
def countsSince (s : State) (asid va : Nat) : Nat :=
  s.tr.recent.foldl (fun n r => if r.asid = asid ∧ r.vpn = va / 65536 ∧ r.host = false ∧ r.lost then max n r.until_ else n) 0

/-- Does a fill count for a page of a leaf? -/
def fillOf (l : Leaf) (x : Fill) : Bool := decide (l.frame ≤ x.unit * 65536) && decide (x.unit * 65536 < l.frame + pageBytes l.size)

/-- Has the count of a page reached MIGTH within one window, at a slice of a die? (R374, R376) -/
def isHot (s : State) (die asid va : Nat) (l : Leaf) : Bool :=
  let fs := s.mm.fills.filter fun x =>
    fillOf l x && decide (countsSince s asid va ≤ x.clock) && decide (s.bd.clock < x.clock + Config.cycles256us)
  (List.range 32).any fun i => decide (s.tr.migth ≤ (fs.filter fun x => x.slice == die * 32 + i).length)

/-- MIGRATION_DEVICE_REQUEST (R374, R376): a page's count at a slice of a die has reached MIGTH within its window, and the page
is requested for HBM4 on that die. -/
def execMigrationDeviceRequest (die asid va : Nat) (s : State) : Host.Outcome State Fault Refusal :=
  match walk s asid va with
  | .leaf l =>
    let va := pageStart va l.size
    if Config.dies ≤ die || s.tr.migth == 0 || !isHot s die asid va l || l.pin || l.gather || l.zf || l.remote || l.size == 2 ||
        !(isHost l.frame || isTier2 l.frame) then .next s
    else
      let s := { s with mm := { s.mm with fills := s.mm.fills.filter fun x => !fillOf l x } }
      if (lockOf s asid va).isSome || isRecent s asid va false false then .next (addRecent s asid va false true)
      else match lockPage s asid va die 1 l .device with
        | .locked s => .next s
        | .noFrame => .next (post s 6 0 0x0E asid va)
  | _ => .next s

/-- An address of a migrated page in its new frame. -/
def moveAddr (old new n pa : Nat) : Nat := if old ≤ pa ∧ pa < old + n then new + (pa - old) else pa

/-- A location of a migrated page in its new frame (R377). -/
def moveLoc (old new n : Nat) (loc : Loc) : Loc :=
  match loc with
  | .here pa | .host pa => let x := moveAddr old new n pa; if isHost x then .host x else .here x
  | _ => loc

/-- One line moved to its new home with its value, stamps, poison and records; its deltas are folded first (R377). The stamps of
the host-port ordering point, which are those of all its lines, only rise; where snapshots are live, or records there, a line
that goes to host memory keeps the wts of its version there beside its records, and takes it with it when it leaves. -/
def moveLine (s : State) (a b : Nat) : State :=
  let s := foldLine s a
  let l := { getLine s a with back := none }
  let h := getLine s b
  let l := if isHost (b * 128) then
      { l with wts := max l.wts h.wts, rts := max l.rts h.rts
               own := if l.own.isSome ∨ l.recs ≠ [] ∨ s.mm.horizon ≠ [] then some l.version else none }
    else { l with wts := l.version, own := none }
  let s := writeHost (readHost s (a * 128) 128) (b * 128) (mread s.mm.mem (a * 128) 128)
  let s := setLine (setMem s (mwrite s.mm.mem (b * 128) (mread s.mm.mem (a * 128) 128))) b l
  { s with mm := { s.mm with lines := tdel s.mm.lines a } }

/-- The lines of a page moved, in ascending order (R377). -/
def moveLines : Nat → State → Nat → Nat → State
  | 0, s, _, _ => s
  | n + 1, s, a, b => moveLines n (moveLine s a b) (a + 1) (b + 1)

/-- What a thread's accesses and write set say of a page, moved with it. -/
def moveThread (old new n : Nat) (t : Thread) : Thread :=
  { t with
    ops := t.ops.map fun o => if o.performed then o else { o with loc := moveLoc old new n o.loc }
    tx := { t.tx with ws := t.tx.ws.foldl (fun m x => tset m (moveAddr old new n x.1) x.2) []
                      adds := t.tx.adds.foldl (fun m x => tset m (moveAddr old new n (4 * x.1) / 4) x.2) [] } }

/-- Does a block of a tile hold a copy of bytes of a frame: does an element of it stand there? -/
def blockIn (s : State) (asid old n : Nat) (desc : List Word) (b : Nat) : Bool :=
  (blockElems desc b).any fun i => match walk s asid (elemAddr desc (elemCoords desc i)).toNat with
    | .leaf l =>
      let pa := l.frame + (elemAddr desc (elemCoords desc i)).toNat % pageBytes l.size
      !l.remote && !l.gather && decide (old ≤ pa) && decide (pa < old + n)
    | _ => false

/-- A team's tile-block copies of a frame's lines invalidated (R377). -/
def forgetBlocks (s : State) (old n : Nat) (tm : Team) : Team :=
  let asid := ((tget s.ex.grids tm.grid).map Grid.asid).getD 0
  { tm with tiles := tm.tiles.map fun t => (t.1, { t.2 with blocks := t.2.blocks.filter fun e => !blockIn s asid old n t.2.desc e.1 }) }

/-- What accesses, write sets and copies say of a page, moved with it, in the saved contexts too (R377). `before` has the page
where it was. -/
def moveAccesses (before s : State) (old new n : Nat) : State :=
  let s := mapThreads s (moveThread old new n)
  { s with
    ex := { s.ex with
      saved := s.ex.saved.map fun x => { x with teams := x.teams.map fun e => (e.1, forgetBlocks before old n e.2) }
      teams := s.ex.teams.map fun e => (e.1, forgetBlocks before old n e.2) }
    mm := { s.mm with l1 := s.mm.l1.filter fun e => !(decide (old ≤ e.1 % 2 ^ 41 * 128) && decide (e.1 % 2 ^ 41 * 128 < old + n)) } }

/-- The result word of a host request (R375): written at a host bus address, an aligned one of host memory. -/
def hostResult (s : State) (result x : Nat) : State :=
  let pa := 0x800000000000 + result
  if result % 8 = 0 ∧ mapped pa then (writeAt s 0 pa (natLe 8 x)).2 else s

/-- A frame returned to a list. -/
def returnFrame (s : State) (list f : Nat) : State :=
  { s with tr := { s.tr with frames := tset s.tr.frames list ((tget s.tr.frames list).getD [] ++ [f]) } }

/-- MIGRATION (R377): the lines of a locked page move to its new frame, and its leaf names that frame; where the supervisor has
changed the leaf, the migration is abandoned. What touches host memory, the result word of a host request too, waits until the
host path can carry it (R306, R307). -/
def execMigration (asid va : Nat) (s : State) : Host.Outcome State Fault Refusal :=
  match lockOf s asid va with
  | none => .next s
  | some m =>
    let toHost := isHost m.frame || isHost (bits m.leaf 47 16 * 65536) || match m.side with
      | .host _ => true
      | _ => false
    if toHost && !hostPathOpen s then .next s
    else
    let s := { s with tr := { s.tr with locks := s.tr.locks.filter (· != m) } }
    if leNat (mread s.mm.mem m.entry 8) ≠ m.leaf then .next (post (returnFrame s m.list m.frame) 6 0 0x0D asid va)
    else
      let old := bits m.leaf 47 16 * 65536
      let n := pageBytes m.size
      let s := moveAccesses s (moveLines (n / 128) s (old / 128) (m.frame / 128)) old m.frame n
      let x := m.leaf - bits m.leaf 54 53 * 2 ^ 53 - old + m.frame
      let s := setMem s (mwrite s.mm.mem m.entry (natLe 8 x))
      let s := returnFrame (dropPage s asid va m.size) (homeDie old * 3 + memList old) old
      let s := match m.side with
        | .device => addRecent s asid va true false
        | .host result => hostResult (addRecent s asid va false false) result 0
        | .supervisor => s
      .next (post s 6 0 0x0C asid va)

/-- The fields of a request to the migration mailbox (R375): RESULT, DEST, ASID, VA; none where a reserved field is not
zero. -/
def mailRequest (x : Nat) : Option (Nat × Nat × Nat × Nat) :=
  if bits x 191 132 = 0 ∧ bits x 129 128 = 0 ∧ bits x 127 76 = 0 ∧ bits x 63 57 = 0 ∧ bits x 131 130 ≠ 3 ∧ bits x 255 192 % 8 = 0 then
    some (bits x 255 192, bits x 131 130, bits x 75 64, bits x 56 0)
  else none

/-- A request of the host runtime (R375, R376), whose result word goes out on the host path. -/
def hostMigrate (s : State) (x : Nat) : State :=
  let result := bits x 255 192
  if !hostPathOpen s then s
  else match mailRequest x with
  | none => hostResult s result 3
  | some (result, dest, asid, va) => match walk s asid va with
    | .leaf l =>
      let va := pageStart va l.size
      if l.pin || l.gather || l.zf || l.remote then hostResult s result 2
      else if (lockOf s asid va).isSome || isRecent s asid va true false then hostResult (addRecent s asid va true true) result 1
      else if isRecent s asid va true true then hostResult s result 1
      else match lockPage s asid va (homeDie l.frame) dest l (.host result) with
        | .locked s => s
        | .noFrame => hostResult (post s 6 0 0x0E asid va) result 2
    | _ => hostResult s result 2

end Sys2Proof.Machine
end

