-- ==== Sys2Proof/Machine/Tile.lean ====
section
/-! DEFINITION. Tile.lean: tiles, their fills and their words (R340 to R354). -/

namespace Sys2Proof.Machine

/-- WR of a descriptor (R341). -/
def tileWr (d : List Word) : Bool := bit (spanNat d) 59
/-- The fill value of an element (R341). -/
def tileFillValue (d : List Word) : Nat := bits (spanNat d) 223 192 % 2 ^ (8 * tileEs d)

/-- The coordinates that a register packs (R350). -/
def coordsOf (x : Word) : List Int := (List.range 4).map fun d => sext (bits x.toNat (8 * d + 7) (8 * d)) 8

/-- Is a coordinate in the window? (R341) -/
def inWindow (desc : List Word) (i : List Int) : Bool :=
  (List.range 4).all fun d => decide (0 ≤ at4 i d) && decide (at4 i d < tileExt desc d)

/-- The number of an element of the window, dimension 0 fastest (R341). -/
def elemIndex (desc : List Word) (i : List Int) : Nat :=
  let n (d : Nat) : Nat := (at4 i d).toNat
  n 0 + tileExt desc 0 * (n 1 + tileExt desc 1 * (n 2 + tileExt desc 2 * n 3))

/-- The least, and the greatest, sum of a list of ranges' ends. -/
def cornerSums (desc : List Word) : Int × Int :=
  (List.range 4).foldl (fun (r : Int × Int) d =>
    let x : Int := (tileExt desc d - 1 : Nat) * (if d = 0 then 1 else tileStr desc d)
    (r.1 + min 0 x, r.2 + max 0 x)) (0, 0)

/-- Is a descriptor well formed? (R342) -/
def descOk (d : List Word) : Bool :=
  let x := spanNat d
  let (lo, hi) := cornerSums d
  bits x 255 224 == 0 && bits x 63 60 == 0 && bits x 58 57 != 3 && tileOrigin d % tileEs d == 0 &&
    decide (0 ≤ tileOrigin d + tileEs d * lo) && decide (tileOrigin d + tileEs d * hi < 2 ^ 57)

/-- A team's tile. -/
def getTile (s : State) (team k : Nat) : Option Tile := tget (getTeam s team).tiles k

/-- A team's tile changed. -/
def modTile (s : State) (team k : Nat) (f : Tile → Tile) : State := modTeam s team fun tm => { tm with tiles := tmod tm.tiles k f }

/-- The grid of a team. -/
def teamGrid (s : State) (team : Nat) : Grid := gridOf s { team := team, pc := 0 }

/-- S of the snapshot at which the fills of a team's tiles read (R346). -/
def fillSnap (s : State) (team : Nat) : Option Nat :=
  let g := teamGrid s team
  if g.snapFlag && !g.snapRevoked then g.snap else none

/-- What the elements of a block were read as, and the range of stamps over which every value is current (R346). -/
structure BlockRead where
  w : Nat := 0
  r : Nat := 2 ^ 64 - 1
  vals : List (Nat × (Nat × Bool)) := []     -- element number, value, poisoned
  deriving DecidableEq, Repr

/-- A reading of blocks under way. -/
structure TileRead where
  rd : Reader
  s : State
  denied : Option Nat := none                -- the address of an element that was denied
  lacks : Bool := false
  blocks : List (Nat × BlockRead) := []

/-- The range of stamps over which a value read at an address is current (R219, R346). A block read at a snapshot is never
renewed; of its values that are no version of S, the stamp of the ordinary Load stays (R233). Of a window element, and of a line of
another package, no lease is known: the first stands for where the reading began, the second for its answer's stamp. -/
def currency (s : State) (r : Reader) (start va ts : Nat) : Nat × Nat :=
  if r.snap.isSome then (if r.excl then ts else 0, 2 ^ 64 - 1)
  else match walkNow s r.via .engineRead r.asid va with
    | .leaf l =>
      if l.gather then (ts, start)
      else if l.remote then (ts, ts)
      else let x := getLine s ((l.frame + va % pageBytes l.size) / 128); (x.wts, x.rts)
    | _ => (ts, ts)

/-- Is a want a denial? -/
def Want.isDenied : Want → Bool
  | .denied _ => true
  | _ => false

/-- One element of a block read by a Load (R346). -/
def readTileElem (desc : List Word) (start : Nat) (x : TileRead × BlockRead) (n : Nat) : TileRead × BlockRead :=
  let va := (elemAddr desc (elemCoords desc n)).toNat
  let (a, r, s) := agentRead x.1.s x.1.rd va (tileEs desc)
  let den := (r.wants.take (r.wants.length - x.1.rd.wants.length)).any Want.isDenied
  let t := { x.1 with rd := r, s := s, denied := if x.1.denied.isNone && den then some va else x.1.denied, lacks := x.1.lacks || a.isNone }
  match a with
  | none => (t, x.2)
  | some a =>
    let (w, e) := currency s r start va a.ts
    (t, { w := max x.2.w w, r := min x.2.r e, vals := x.2.vals ++ [(n, (a.value, a.poison))] })

/-- One block read. -/
def readBlock (desc : List Word) (start : Nat) (x : TileRead) (b : Nat) : TileRead :=
  let (x, y) := (blockElems desc b).foldl (readTileElem desc start) (x, {})
  { x with blocks := x.blocks ++ [(b, y)] }

/-- Blocks read by an agent of pts p. -/
def readBlocks (s : State) (team : Nat) (desc : List Word) (p : Nat) (buf : Tab Nat) (bs : List Nat) : TileRead :=
  let S := fillSnap s team
  let r : Reader := { via := { die := dieOf (coreOf team), core := some (coreOf team) }, asid := (teamGrid s team).asid, p := p, snap := S, view := S.isSome, buf := buf }
  bs.foldl (readBlock desc p) { rd := r, s := s }

/-- Is there for each block a stamp at which every value of it is current? -/
def TileRead.current (x : TileRead) : Bool := x.blocks.all fun e => decide (e.2.w ≤ e.2.r)

/-- An element put into the data area. -/
def putElem (x : Tile) (tm : Team) (e : Nat × (Nat × Bool)) : Team :=
  { tm with stash := stashBytes tm.stash (x.doff + tileEs x.desc * e.1) (natLe (tileEs x.desc) e.2.1) }

/-- A block filled with what was read: its values, its stamps and its poisoned elements (R346, R352). -/
def commitBlock (team k : Nat) (x : Tile) (s : State) (e : Nat × BlockRead) : State :=
  modTile (modTeam s team fun tm => e.2.vals.foldl (putElem x) tm) team k fun y => { y with
    blocks := tset y.blocks e.1 (e.2.w, e.2.r)
    poisoned := (y.poisoned.filter fun o => o / 128 != e.1) ++ (e.2.vals.filter fun v => v.2.2).map fun v => tileEs x.desc * v.1 }

/-- A reading goes after what it lacks: an absent page waits in the merge table, an element's with ACC 0x5, an index or table
page of a window as one of its elements, and other packages are asked (R301, R352). -/
def pursueTile (s : State) (team k : Nat) (desc : List Word) (r : Reader) : State :=
  let core := coreOf team
  let own (va : Nat) : Bool := (List.range (tileCount desc)).any fun n => (elemAddr desc (elemCoords desc n)).toNat == va
  r.wants.reverse.foldl (fun s w => match w with
    | .absent va =>
      if own va then agentMiss s (dieOf core) r.asid va 5 (0, core) (.tile team k va)
      else agentMiss s (dieOf core) r.asid va 6 (3, 0) (.tile team k va)
    | .denied _ | .port => s
    | .away pkg asid va n => askRead s (.tile team k) r.asid pkg asid va n r.p) s

/-- Blocks of a tile filled by Loads of an agent of pts p, for a thread: they are read, and where no stamp is found at which all
of a block's values are current, read once more from the stamps reached. The first result says whether they are filled; where a
value is lacking the tile goes after it, and a denied one is a fault (R346, R352). A snapshot grid's fill that returns the
current value of a line that R233 excludes sets the thread's SNAPX. -/
def fillTile (s : State) (team k thr : Nat) (x : Tile) (p : Nat) (bs : List Nat) : Bool × State :=
  let a := readBlocks s team x.desc p x.buf bs
  let again := !a.lacks && !a.current
  let b := if again then readBlocks a.s team x.desc a.rd.p [] bs else a
  match b.denied with
  | some va => (false, tileFault b.s team k 0x08 va)
  | none =>
    if b.lacks || !b.current then
      (false, pursueTile (modTile b.s team k fun y => { y with buf := if again then [] else y.buf }) team k x.desc b.rd)
    else
      let s := modTile (b.blocks.foldl (commitBlock team k x) b.s) team k fun y => { y with buf := [] }
      (true, if b.rd.excl then modThread s thr fun t => { t with snapx := true } else s)

/-- Does a tile's fill wait in a merge table? -/
def tileBlocked (s : State) (team k : Nat) : Bool :=
  s.tr.merges.any fun e => e.2.waiters.any fun w => match w with
    | .tile t j _ => t == team && j == k
    | _ => false

/-- Does a thread's next read of its grid's snapshot fault? (R232) -/
def tileRevoked (s : State) (j : Nat) : Bool := match getThread s j with
  | some t => (teamGrid s t.team).snapFlag && t.revoked
  | none => false

/-- SNAP_REVOKED at a tile's first touch, or of a word that waits on its fill (R232). -/
def faultRevoked (x : Tile) (s : State) (j : Nat) : State := match getThread s j with
  | some t => deliver (setThread s j { t with revoked := false }) j 0x11 (tileOrigin x.desc) t.pc
  | none => s

/-- TILE_FILL_COMPLETE (R344, R346, R352): every block of a FILLING tile is filled. A fill at a snapshot that has been revoked is
discarded, and the words that wait on it fault (R232). -/
def execTileFillComplete (team tile : Nat) (s : State) : Host.Outcome State Fault Refusal :=
  match getTile s team tile with
  | none => .next s
  | some x =>
    if x.st ≠ .filling ∨ tileBlocked s team tile then .next s
    else if (x.fillThr :: x.waiters).any (tileRevoked s) then
      .next ((x.waiters.filter (tileRevoked s)).foldl (faultRevoked x) (tileEmpty s team tile))
    else match fillTile s team tile x.fillThr x x.fillPts (List.range (tileArea x.desc / 128)) with
      | (true, s) => .next (tileOps (modTile s team tile fun y => { y with st := .ready, waiters := [] }) team tile true)
      | (false, s) => .next s

/-- Stores of a tile that are not accepted (R343). -/
def tileStores (s : State) (team k : Nat) : Nat :=
  ((teamMates s team).flatMap fun e => e.2.ops.filter fun o => o.tile == some k && !o.performed).length

/-- TILE_DRAIN_COMPLETE (R344): every store of a DRAINING tile is accepted. -/
def execTileDrainComplete (team tile : Nat) (s : State) : Host.Outcome State Fault Refusal :=
  match getTile s team tile with
  | none => .next s
  | some x => if x.st = .draining ∧ tileStores s team tile = 0 then .next (tileEmpty s team tile) else .next s

/-- A fill starts for a thread (R344, R346). -/
def startFill (s : State) (team k thr : Nat) : State :=
  let p := ((getThread s thr).map (·.pts)).getD 0
  modTile s team k fun x => { x with st := .filling, fillPts := p, fillThr := thr, blocks := [], poisoned := [], buf := [] }

/-- A word that finds its tile not READY holds its bundle; one that finds it EMPTY makes the first touch (R345). In a grid
whose snapshot was revoked the first touch is the next snapshot read (R232). Lanes that an earlier fault of R57 concerns wait for
nothing. -/
def tileWait (s : State) (w : WordSpec) (team k : Nat) (x : Tile) (ks : List Nat) : State :=
  let ks := ks.filter fun j => (getThread s j).any (ready s w)
  let rv := ks.filter (tileRevoked s)
  if x.st = .empty ∧ rv ≠ [] then rv.foldl (faultRevoked x) s
  else
    let s := modTile s team k fun y => { y with waiters := (y.waiters ++ ks).dedup }
    if x.st = .empty then startFill s team k (ks.headD 0) else s

/-- Does a tile word wait for its tile: is it not READY, while some lane would act? -/
def tileHolds (s : State) (w : WordSpec) (x : Tile) (ks : List Nat) : Bool :=
  x.st != .ready && ks.any fun j => (getThread s j).any (ready s w)

/-- The team of a list of lanes. -/
def teamOf (s : State) (ks : List Nat) : Nat := ((ks.head?.bind (getThread s)).map (·.team)).getD 0

/-- The blocks of a tile that a read at pts p renews first: those that are not current at p (R346). -/
def staleBlocks (x : Tile) (p : Nat) (bs : List Nat) : List Nat := bs.filter fun b => match tget x.blocks b with
  | some (_, r) => decide (r < p)
  | none => true

/-- The blocks that a lane's elements lie in. -/
def laneBlocks (desc : List Word) (coords : List (List Int)) : List Nat :=
  ((coords.filter (inWindow desc)).map fun i => elemIndex desc i * tileEs desc / 128).dedup

/-- The renewals of every lane of a word; where one cannot be made, the bundle holds (R346). -/
def renewAll (w : WordSpec) (team k : Nat) (desc : List Word) (coords : Thread → List (List Int)) : List Nat → State → Bool × State
  | [], s => (true, s)
  | j :: js, s => match getThread s j, getTile s team k with
    | some t, some x =>
      let bs := if ready s w t then staleBlocks x t.pts (laneBlocks desc (coords t)) else []
      if bs.isEmpty then renewAll w team k desc coords js s
      else if tileBlocked s team k then (false, s)
      else match fillTile s team k j x t.pts bs with
        | (true, s) => renewAll w team k desc coords js s
        | (false, s) => (false, s)
    | _, _ => renewAll w team k desc coords js s

/-- An element as TLD reads it: FILL outside the window, else the data area's value (R351). -/
def elemValue (tm : Team) (x : Tile) (i : List Int) : Nat :=
  if inWindow x.desc i then stashRead tm (x.doff + elemIndex x.desc i * tileEs x.desc) (tileEs x.desc) else tileFillValue x.desc

/-- The accesses that a tile read, or store, of a lane makes: its elements in the window, and at least `least` (R351, R394,
R395). -/
def tileCounts (least : Nat) (desc : List Word) (coords : List (List Int)) : Nat := max least (coords.filter (inWindow desc)).length

/-- Has a lane no room on a counter for its accesses to a tile? (R395) -/
def tileFull (s : State) (w : WordSpec) (c : Cnt) (least : Nat) (desc : List Word) (coords : Thread → List (List Int)) (ks : List Nat) : Bool :=
  ks.any fun j => (getThread s j).any fun t => ready s w t && decide (255 < count t c + tileCounts least desc (coords t))

/-- One element access of a tile read counted on ld and returned; a poisoned one marks its register (R242, R352, R394). -/
def tileLoadOne (x : Tile) (dest : Nat) (r : Thread × State) (e : List Int × Nat) : Thread × State :=
  let (t, s) := r
  let (id, s) := fresh s
  if x.poisoned.contains (elemIndex x.desc e.1 * tileEs x.desc) then
    let o : Op := { id := id, wid := id, cnt := .ld, kind := .load .w32, va := (elemAddr x.desc e.1).toNat, dest := dest + e.2, dlen := 1,
                    performed := true, visible := true, poisoned := true }
    let t := addOp t o
    (returnOp t ((findOp t id).getD o), s)
  else (addDone t id .ld, s)

/-- The result of a tile read in one lane: the stamps of its blocks are joined, each register is written, and a poisoned
element marks the register that would hold it (R242, R346, R351, R352, R387). `reg` gives an element's register. -/
def tileReadLane (k dest least : Nat) (coords : Thread → List (List Int)) (pack : Nat → List Nat → List Word) (reg : Nat → Nat → Nat)
    (s : State) (j : Nat) (t : Thread) : LaneOut :=
  let tm := getTeam s t.team
  match tget tm.tiles k with
  | none => .fault 0x0A 0
  | some x =>
    let es := tileEs x.desc
    let els := ((coords t).zipIdx.map fun e => (e.1, reg es e.2)).filter fun e => inWindow x.desc e.1
    let offs := els.map fun e => elemIndex x.desc e.1 * es
    if offs.any fun o => stashPoison tm (x.doff + o) es then .fault 0x17 0
    else
      let t := { t with pts := offs.foldl (fun p o => max p ((tget x.blocks (o / 128)).getD (0, 0)).1) t.pts }
      let lost := (els.filter fun e => x.poisoned.contains (elemIndex x.desc e.1 * es)).map (·.2)
      let t := (pack es ((coords t).map (elemValue tm x))).zipIdx.foldl (fun t v => if lost.contains v.2 then t else writeReg t (dest + v.2) v.1) t
      let (t, s) := els.foldl (tileLoadOne x dest) (t, s)
      let (t, s) := (List.range (least - els.length)).foldl (fun (r : Thread × State) _ =>
        let (id, s) := fresh r.2
        (addDone r.1 id .ld, s)) (t, s)
      .ok (setThread s j t)

/-- Does a thread stand at its word as it stood before a step: has it neither parked nor gone to its handler? -/
def standsAt (before after : State) (j : Nat) : Bool :=
  match getThread before j, getThread after j with
  | some t, some v => t.pc == v.pc && t.st == v.st && t.frame.isSome == v.frame.isSome
  | _, _ => false

/-- A word that reads a tile (R345, R351, R352). Lanes that the denial of a renewal has faulted wait for nothing more. -/
def tileReadWord (w : WordSpec) (k : Nat) (ok : List Word → Bool) (dest least : Nat) (coords : List Word → Thread → List (List Int))
    (pack : Nat → List Nat → List Word) (reg : Nat → Nat → Nat) (s : State) : Host.Outcome State Fault Refusal :=
  issueGo w (fun c ks s =>
    let team := teamOf s ks
    match getTile s team k with
    | none => laneLoop (laneStep w c fun _ _ _ => .fault 0x0A 0) s ks
    | some x =>
      if !ok x.desc then laneLoop (laneStep w c fun _ _ _ => .fault 0x0A 0) s ks
      else if tileHolds s w x ks then tileWait s w team k x ks
      else if tileFull s w .ld least x.desc (coords x.desc) ks then s
      else match renewAll w team k x.desc (coords x.desc) ks s with
        | (false, z) => modTile z team k fun y =>
            { y with waiters := (y.waiters ++ ks.filter fun j => standsAt s z j && (getThread z j).any (ready z w)).dedup }
        | (true, s) => laneLoop (laneStep w c (tileReadLane k dest least (coords x.desc) pack reg))
            (modTile s team k fun y => { y with waiters := y.waiters.filter fun j => !ks.contains j }) ks) s

/-- Element size that a MOD names (R350). -/
def esOf : TileEs → Nat
  | .b8 => 1 | .b16 => 2 | .b32 => 4

/-- The single element of TLD and TST. -/
def oneElem (a : Reg) (t : Thread) : List (List Int) := [coordsOf (rd t a)]

/-- The elements of a fragment in a lane (R352). -/
def fragElems (m : TldfForm) (a : Reg) (desc : List Word) (t : Thread) : List (List Int) :=
  let o := coordsOf (rd t a)
  let r : Int := match m with
    | .b => (t.glane % 8 : Nat)
    | _ => t.glane
  let n := match m with
    | .d => 8
    | _ => 32 / tileEs desc
  (List.range n).map fun (e : Nat) => [at4 o 0 + (e : Int), at4 o 1 + r, at4 o 2, at4 o 3]

/-- Is a fragment form one that an element size allows? (R352) -/
def fragOk (m : TldfForm) (desc : List Word) : Bool :=
  match m with
  | .d => tileEs desc == 4
  | _ => tileEs desc == 1 || tileEs desc == 2

/-- Elements packed lowest first into registers (R352). -/
def packFrag (es : Nat) (vs : List Nat) : List Word := natSpan 8 (leNat (vs.flatMap (natLe es)))

/-- TLD (R351). -/
def execTld (m : TileEs) (d a : Reg) (k : BitVec 5) (s : State) : Host.Outcome State Fault Refusal :=
  tileReadWord { opSpec [sp1 a] [sp1 d] with order := true, adds := [(.ld, 1)] } k.toNat (fun x => tileEs x == esOf m) d.toNat 1
    (fun _ => oneElem a) (fun _ vs => [BitVec.ofNat 32 (vs.headD 0)]) (fun _ _ => 0) s

/-- TLDF (R352). -/
def execTldf (m : TldfForm) (d a : Reg) (k : BitVec 5) (s : State) : Host.Outcome State Fault Refusal :=
  tileReadWord { opSpec [sp1 a] [(d.toNat, 8, 4)] with order := true } k.toNat (fragOk m) d.toNat 0 (fragElems m a) packFrag
    (fun es e => es * e / 4) s

/-- The element stores of a lane: address and value (R351, R352). -/
def elemStores (desc : List Word) (coords : List (List Int)) (vals : List Nat) : List (List Int × Nat) :=
  (coords.zip vals).filter fun e => inWindow desc e.1

/-- The lanes of a tile store whose translation is missing. -/
def storeMisses (w : WordSpec) (desc : List Word) (coords : Thread → List (List Int)) (ks : List Nat) (s : State) :
    List (Nat × Nat × MergePhase) :=
  ks.flatMap fun j => match getThread s j with
    | none => []
    | some t =>
      if !ready s w t then []
      else ((coords t).filter (inWindow desc)).filterMap fun i =>
        let va := (elemAddr desc i).toNat
        match xlate s j t .tileStore (gridOf s t).asid va with
        | .miss => some (j, va, .queued)
        | .zeroMiss l => some (j, va, .zero l)
        | _ => none

/-- One element store of a lane, whose translation is `e.2`: an operation, and its block is invalidated but in a snapshot grid
(R347). -/
def tileStoreOne (c : Ctx) (wid k : Nat) (x : Tile) (j : Nat) (s : State) (e : (List Int × Nat) × Leaf) : State :=
  match getThread s j with
  | none => s
  | some t =>
    let es := tileEs x.desc
    let va := (elemAddr x.desc e.1.1).toNat
    let (id, s) := fresh (touchPage s j t (gridOf s t).asid va)
    let s := issueOp s j t { newOp c wid id t .st (.store (e.1.2 % 2 ^ (8 * es))) va (locOf e.2 (gridOf s t).asid va) es with tile := some k }
    if (teamGrid s t.team).snapFlag then s
    else modTile s t.team k fun y => { y with blocks := tdel y.blocks (elemIndex x.desc e.1.1 * es / 128) }

/-- The element stores of a lane with their translations, every one of them looked up before the first is made. -/
def storeLeaves (s : State) (j : Nat) (t : Thread) (desc : List Word) (l : List (List Int × Nat)) : List ((List Int × Nat) × Leaf) :=
  l.filterMap fun e => match xlate s j t .tileStore (gridOf s t).asid (elemAddr desc e.1).toNat with
    | .ok lf => some (e, lf)
    | _ => none

/-- A word that writes a tile's elements (R347, R351, R352): stores outside any transaction (R348). -/
def tileStoreWord (w : WordSpec) (k least : Nat) (ok : List Word → Bool) (coords : List Word → Thread → List (List Int))
    (vals : Thread → List Nat) (s : State) : Host.Outcome State Fault Refusal :=
  issueGo w (fun c ks s =>
    let team := teamOf s ks
    match getTile s team k with
    | none => laneLoop (laneStep w c fun _ _ _ => .fault 0x0A 0) s ks
    | some x =>
      if !ok x.desc || !tileWr x.desc then laneLoop (laneStep w c fun _ _ _ => .fault 0x0A 0) s ks
      else if tileHolds s w x ks then tileWait s w team k x ks
      else if tileFull s w .st least x.desc (coords x.desc) ks then s
      else match storeMisses w x.desc (coords x.desc) ks s with
        | [] =>
          let (wid, s) := fresh s
          laneLoop (laneStep w c fun s j t =>
            let l := elemStores x.desc (coords x.desc t) (vals t)
            let bad := l.find? fun e => match xlate s j t .tileStore (gridOf s t).asid (elemAddr x.desc e.1).toNat with
              | .prot => true
              | _ => false
            match bad with
            | some e => .fault 0x08 (elemAddr x.desc e.1).toNat
            | none => .ok ((storeLeaves s j t x.desc l).foldl (tileStoreOne c wid k x j) (setThread s j t)))
            (modTile s team k fun y => { y with waiters := y.waiters.filter fun j => !ks.contains j }) ks
        | ms => ms.foldl (joinLane .tileStore c.fpc) s) s

/-- TST (R351). -/
def execTst (m : TileEs) (d a : Reg) (k : BitVec 5) (s : State) : Host.Outcome State Fault Refusal :=
  tileStoreWord { opSpec [sp1 a, sp1 d] [] with adds := [(.st, 1)] } k.toNat 0 (fun x => tileEs x == esOf m) (fun _ => oneElem a)
    (fun t => [(rd t d).toNat]) s

/-- TSTF (R352). -/
def execTstf (d a : Reg) (k : BitVec 5) (s : State) : Host.Outcome State Fault Refusal :=
  tileStoreWord (opSpec [sp1 a, (d.toNat, 8, 4)] []) k.toNat 0 (fragOk .d) (fragElems .d a)
    (fun t => (readSpan t d.toNat 8).map (·.toNat)) s

/-- The start of the data areas (R340). -/
def dataBase (s : State) (tm : Team) : Nat := (tileBase s tm + 32 * tm.tileCount + 127) / 128 * 128

/-- Is a stretch free of every mapped data area? -/
def areaFree (tm : Team) (o n : Nat) : Bool := tm.tiles.all fun e => !meets o n e.2.doff (tileArea e.2.desc)

/-- The lowest data area that fits, in units of 128 bytes (R340, R353). -/
def findArea (s : State) (tm : Team) (n : Nat) : Option Nat :=
  let b := dataBase s tm
  ((List.range ((tm.size - b) / 128)).map fun i => b + 128 * i).find? fun o => decide (o + n ≤ tm.size) && areaFree tm o n

/-- TCTL_MAP (R353). -/
def execTctlMap (d a : Reg) (s : State) : Host.Outcome State Fault Refusal :=
  issueWord (opSpec [(a.toNat, 8, 4)] [sp1 d]) (fun _ s j t =>
    let desc := readSpan t a.toNat 8
    let tm := getTeam s t.team
    let ret (s : State) (x : Word) : LaneOut := .ok (setThread s j (writeReg t d.toNat x))
    if !descOk desc then ret s 0x80000003
    else match (List.range tm.tileCount).find? fun k => (tget tm.tiles k).isNone with
      | none => ret s 0x80000001
      | some k => match findArea s tm (tileArea desc) with
        | none => ret s 0x80000002
        | some o =>
          let s := modTeam s t.team fun x => { stashPut x (tileBase s tm + 32 * k) (natLe 32 (spanNat desc)) with
            tiles := tset x.tiles k { desc := desc, doff := o } }
          ret s (BitVec.ofNat 32 k)) s

/-- A tl operation of a thread on a tile, complete at once where its state is reached (R353). -/
def tlOp (s : State) (j : Nat) (t : Thread) (k : Nat) (fill done_ : Bool) : State :=
  let (id, s) := fresh s
  setThread s j (retire (addOp t { id := id, wid := id, cnt := .tl, kind := .tile k fill, performed := true, visible := true, complete := done_ }))

/-- TCTL_FILL (R353): it waits for EMPTY on DRAINING. -/
def execTctlFill (k : BitVec 5) (s : State) : Host.Outcome State Fault Refusal :=
  let w : WordSpec := { order := true, adds := [(.tl, 1)] }
  issueGo w (fun c ks s =>
    let team := teamOf s ks
    if (getTile s team k.toNat).map (·.st) = some .draining then s
    else laneLoop (laneStep w c fun s j t => match getTile s team k.toNat with
      | none => .fault 0x0A 0
      | some x => match x.st with
        | .empty => .ok (tlOp (startFill (setThread s j t) team k.toNat j) j t k.toNat true false)
        | .filling => .ok (tlOp s j t k.toNat true false)
        | _ => .ok (tlOp s j t k.toNat true true)) s ks) s

/-- A drain of a tile (R344, R353): a FILLING tile's fill is discarded, a READY one drains. -/
def drainTile (s : State) (team k : Nat) : State :=
  match getTile s team k with
  | none => s
  | some x => match x.st with
    | .ready => modTile s team k fun y => { y with st := .draining }
    | .draining => s
    | _ => tileEmpty s team k

/-- TCTL_DRAIN (R353). -/
def execTctlDrain (k : BitVec 5) (s : State) : Host.Outcome State Fault Refusal :=
  issueWord { adds := [(.tl, 1)] } (fun _ s j t => match getTile s t.team k.toNat with
    | none => .fault 0x0A 0
    | some x =>
      let s := tlOp s j t k.toNat false (x.st == .empty)
      .ok (drainTile s t.team k.toNat)) s

/-- TCTL_FREE (R353). -/
def execTctlFree (k : BitVec 5) (s : State) : Host.Outcome State Fault Refusal :=
  issueWord { adds := [(.tl, 1)] } (fun _ s j t =>
    if (getTeam s t.team).tileCount ≤ k.toNat then .fault 0x0A 0
    else match getTile s t.team k.toNat with
      | none => .ok (tlOp s j t k.toNat false true)
      | some x =>
        let s := tlOp s j t k.toNat false (x.st == .empty)
        .ok (drainTile (modTile s t.team k.toNat fun y => { y with freeing := true }) t.team k.toNat)) s

/-- STATE of a tile entry (R343). -/
def tileCode : TileState → Nat
  | .empty => 0 | .filling => 1 | .ready => 2 | .draining => 3

/-- The entry word of a mapped tile (R343). -/
def tileWord (x : Tile) : Nat := tileCode x.st + 8 + x.doff / 128 * 2 ^ 20

/-- TCTL_QUERY (R353). -/
def execTctlQuery (d : Reg) (k : BitVec 5) (s : State) : Host.Outcome State Fault Refusal :=
  issueWord (opSpec [] [sp1 d]) (fun _ s j t =>
    if (getTeam s t.team).tileCount ≤ k.toNat then .fault 0x0A 0
    else .ok (setThread s j (writeReg t d.toNat (match getTile s t.team k.toNat with
      | some x => BitVec.ofNat 32 (tileWord x)
      | none => 0)))) s

end Sys2Proof.Machine
end

