-- ==== Sys2Proof/Machine/Bundle.lean ====
section
/-! DEFINITION. Bundle.lean: candidates and the forming of bundles (R327 to R331). -/

namespace Sys2Proof.Machine

/-- A candidate (R328): 0 continuation, 1 serial, 2 fresh; its threads in ascending index. -/
structure Cand where
  kind : Nat
  ts : List (Nat × Thread)
  deriving DecidableEq, Repr

/-- What the threads of one candidate share (R328). -/
def candKey (e : Nat × Thread) : List Nat :=
  if 0 < e.2.runPos then [0, e.2.btag, e.2.pc.toNat]
  else if e.2.serial then [1, e.1]
  else [2, e.2.team, min e.2.depth 15, e.2.pc.toNat]

/-- The threads of a core that no port holds and that are READY. -/
def idleThreads (s : State) (core : Nat) : List (Nat × Thread) :=
  let held := (getCore s core).ports.flatMap (·.2)
  s.ex.threads.filter fun e => coreOf e.1 == core && e.2.st == .ready && !held.contains e.1

/-- The candidates of a core, by lowest position (R328); a thread that QUIET holds is none (R196). -/
def candidates (s : State) (core : Nat) : List Cand :=
  let l := (idleThreads s core).filter fun e => !e.2.yielded && decide (e.2.quiet ≤ s.bd.clock)
  (l.map candKey).dedup.map fun key => { kind := key.headD 0, ts := l.filter fun e => candKey e == key }

/-- A candidate's age (R328). -/
def Cand.age (x : Cand) : Nat := x.ts.foldl (fun n e => max n e.2.age) 0

/-- A candidate's position: its lowest thread-table index (R328). -/
def Cand.pos (x : Cand) : Nat := ((x.ts.map fun e => e.1 % 2048).min?).getD 0

/-- The first thread of a candidate. -/
def Cand.first (x : Cand) : Thread := ((x.ts.head?).map (·.2)).getD { team := 0, pc := 0 }

/-- Rules 1 to 4 of the candidate order, as numbers of which the lower stands first (R328). -/
def Cand.head (s : State) (x : Cand) : List Nat :=
  let t := x.first
  [255 - (getTeam s t.team).prio, if x.kind = 0 then 0 else 1, 15 - min t.depth 15, t.pc.toNat]

/-- Rule 5, for serial candidates (R328). -/
def Cand.serialKey (x : Cand) : List Nat := [255 - x.first.depth, x.first.glane]

/-- Rules 6 to 8 (R328). -/
def Cand.tail (s : State) (core : Nat) (x : Cand) : List Nat :=
  let slot := x.first.team % 2048
  [(tget (getCore s core).formed slot).getD 0, slot, x.pos]

/-- Does a list of numbers stand before another in lexicographic order? -/
def lexLt : List Nat → List Nat → Bool
  | a :: as, b :: bs => decide (a < b) || (a == b && lexLt as bs)
  | _, _ => false

/-- Does a candidate stand before another in the candidate order? (R328) -/
def candBefore (s : State) (core : Nat) (x y : Cand) : Bool :=
  let a := x.head s; let b := y.head s
  if a ≠ b then lexLt a b
  else if x.kind = 1 ∧ y.kind = 1 ∧ x.serialKey ≠ y.serialKey then lexLt x.serialKey y.serialKey
  else lexLt (x.tail s core) (y.tail s core)

/-- The candidate that ageing chooses, if any has reached AGE_MAX (R329). -/
def agedChoice (s : State) (core : Nat) (l : List Cand) : Option Cand :=
  let p := (getCore s core).pointer
  let key (x : Cand) : List Nat := [255 - x.age, (x.pos + 2048 - p) % 2048]
  firstBy (fun x y => lexLt (key x) (key y)) (l.filter fun x => decide (s.ex.ageMax ≤ x.age))

/-- The lowest bundle tag of a core that no entry and no handler frame holds (R327). -/
def freeTag (s : State) (core : Nat) : Nat :=
  let ts := s.ex.threads.filter fun e => coreOf e.1 == core
  let used := ts.map (·.2.btag) ++ ts.filterMap fun e => e.2.frame.map (·.btag)
  ((List.range 4096).find? fun n => !used.contains n).getD 0

/-- The threads of a fresh candidate that its bundle takes: in each home lane the one of the lowest group (R329). -/
def onePerLane (x : Cand) : List (Nat × Thread) :=
  (List.range 64).filterMap fun h =>
    firstBy (fun a b => decide (a.2.group < b.2.group)) (x.ts.filter fun e => e.2.hlane == h)

/-- A thread at the start of a run (R51, R52, R181). -/
def startRun (tag : Nat) (t : Thread) : Thread := { t with btag := tag, tvalid := [], runEpoch := t.epoch }

/-- A bundle of threads given to a port. -/
def giveBundle (s : State) (core port : Nat) (x : Cand) : State :=
  let b := if x.kind = 2 then onePerLane x else x.ts
  let tag := freeTag s core
  let s := b.foldl (fun s e => modThread s e.1 fun t =>
    { (if x.kind = 0 then t else startRun tag t) with age := 0 }) s
  let lanes := (List.range 64).flatMap fun h => (b.filter fun e => e.2.hlane == h).map (·.1)
  let (now, s) := fresh s
  let s := modCore s core fun c => { c with ports := tset c.ports port lanes, formed := tset c.formed (x.first.team % 2048) (now + 1) }
  perf (perf s 0 core 1 1) 0 core 2 b.length

/-- A candidate's threads that are passed over age (R329). -/
def ageAll (s : State) (l : List Cand) : State :=
  l.foldl (fun s x => x.ts.foldl (fun s e => modThread s e.1 fun t => { t with age := min 255 (t.age + 1) }) s) s

/-- The yielded threads of a core compete again (R329). -/
def clearYield (s : State) (core : Nat) : State :=
  (idleThreads s core).foldl (fun s e => if e.2.yielded then modThread s e.1 fun t => { t with yielded := false } else s) s

/-- FORM_BUNDLE (R328, R329): an issue opportunity of a port that holds no bundle. -/
def execFormBundle (core port : Nat) (s : State) : Host.Outcome State Fault Refusal :=
  if 4 ≤ port ∨ Config.cores ≤ core ∨ s.halted ∨ halting s core ∨ (tget (getCore s core).ports port).isSome then .next s
  else
    let l := candidates s core
    let s := clearYield s core
    match l with
    | [] => .next (perf s 0 core 3 1)
    | _ =>
      match agedChoice s core l with
      | some x => .next (giveBundle (ageAll (modCore s core fun c => { c with pointer := (x.pos + 1) % 2048 }) l) core port x)
      | none => match firstBy (candBefore s core) l with
        | some x => .next (giveBundle (ageAll s l) core port x)
        | none => .next s

end Sys2Proof.Machine
end

