-- ==== Sys2Proof/Machine/Launch.lean ====
section
/-! DEFINITION. Launch.lean: launch records and their checks (R355, R356), the distributor and placement (R19 to R21, R320 to
R324), and the freeing of teams (R335). -/

namespace Sys2Proof.Machine

/-- Is a launch record in range? (R355) -/
def recordOk (x : Nat) : Bool :=
  let cw := bits x 247 240; let ch := bits x 255 248; let regs := bits x 143 136
  let t := bits x 207 192 * bits x 223 208 * bits x 239 224
  bits x 1023 600 == 0 && decide (bits x 599 592 ≤ 7) && bits x 591 588 == 0 && bits x 511 505 == 0 && bits x 450 448 == 0 &&
    bits x 367 360 == 0 && decide (bits x 359 352 ≤ 32) && decide (1 ≤ bits x 351 320) && decide (1 ≤ bits x 319 288) &&
    decide (1 ≤ bits x 287 256) && decide (1 ≤ ch) && decide (ch ≤ 8) && decide (1 ≤ cw) && decide (cw ≤ 8) && decide (cw * ch ≤ 12) &&
    decide (1 ≤ t) && decide (t ≤ 2048) && decide (bits x 191 160 ≤ 524288) && bits x 159 147 == 0 && !bit x 145 &&
    decide (8 ≤ regs) && decide (regs ≤ 120) && regs % 8 == 0 && decide (bits x 135 128 ≤ 3) && bits x 7 0 == 0 && bits x 63 57 == 0

/-- The words of a record. -/
def recordWords (x : Nat) : List Word := natSpan 64 x

/-- A grid with a record, as the checks see it. -/
def protoGrid (ws : List Word) : Grid := { record := ws, launcher := .slot 0 0 }

/-- The shape checks of R356, details 0x01 to 0x04 before the codebooks; none where they pass. -/
def recordFault (x : Nat) : Option Nat :=
  let g := protoGrid (recordWords x)
  if !recordOk x then some 1
  else if g.stash < g.tstash * 1024 ∨ (0 < g.tiles ∧ g.tstash * 1024 < 32 * g.tiles + 128) ∨ (g.tiles = 0 ∧ g.tstash ≠ 0) then some 2
  else if g.teams % (g.cw * g.ch) ≠ 0 then some 3
  else if !(List.range 8).all fun k => slotValid (g.slot k) then some 4
  else none

/-- A record with its grid dimensions overridden (R273, R359). -/
def override (x : Nat) (o : Option Nat) : Nat :=
  match o with
  | some d => x - bits x 351 256 * 2 ^ 256 + d * 2 ^ 256
  | none => x

/-- The slots that name a codebook (R38). -/
def codebookSlots (g : Grid) : List Nat := (List.range 8).filter fun k => slotKind (g.slot k) != 0 && slotA (g.slot k) == 7

/-- `n` Loads of `m` bytes from an address on by an agent, and whether one was poisoned; none while one is lacking (R356, R358). -/
def readArray (m : Nat) : Nat → Nat → State → Reader → Option (Nat × Bool) × Reader × State
  | 0, _, s, r => (some (0, false), r, s)
  | n + 1, va, s, r => match agentRead s r va m with
    | (none, r, s) => (none, r, s)
    | (some a, r, s) =>
      if a.poison then (some (0, true), r, s)
      else match readArray m n (va + m) s r with
        | (some x, r, s) => (some (a.value + 2 ^ (8 * m) * x.1, x.2), r, s)
        | x => x

/-- The codebook tables of a record's slots, read once at launch, and whether one was poisoned (R34, R356). -/
def readBooks (g : Grid) : List Nat → State → Reader → Option (Tab (List Nat) × Bool) × Reader × State
  | [], s, r => (some ([], false), r, s)
  | k :: ks, s, r => match readArray 128 4 (slotCb (g.slot k)) s r with
    | (none, r, s) => (none, r, s)
    | (some (v, bad), r, s) =>
      if bad then (some ([], true), r, s)
      else match readBooks g ks s r with
        | (some x, r, s) => (some (tset x.1 k ((List.range 256).map fun i => v / 2 ^ (16 * i) % 65536), x.2), r, s)
        | x => x

/-- Is what an agent lacks out of its reach: a page without permission, or one whose walk ends at an invalid entry? Any other
page it waits for: its walk waits its turn, or stands in the merge table (R365, R367, R369). -/
def Reader.barred (s : State) (r : Reader) : Bool := r.wants.any fun w => match w with
  | .denied _ => true
  | .absent va => walk s r.asid va == .absent
  | .away .. | .port => false

/-- Threads of a team of T threads in a home lane (R20, R321). -/
def laneCount (T l : Nat) : Nat := (T + 63 - l) / 64

/-- Does a team fit an empty core? (R321, R356) -/
def fitsEmpty (g : Grid) : Bool := decide (laneCount g.teamThreads 0 * g.regs ≤ Config.regsPerLane)

/-- The rectangles of the cluster search in its order: the core of each rank (R323). -/
def rectangles (w h : Nat) : List (List Nat) :=
  (List.range 4).flatMap fun d => (List.range (9 - h)).flatMap fun y0 => (List.range (9 - w)).map fun x0 =>
    (List.range (w * h)).map fun r => d * 64 + (y0 + r / w) * 8 + (x0 + r % w)

/-- Can some empty core, or rectangle, hold a team, or a cluster? (R356) -/
def canFit (s : State) (g : Grid) : Bool :=
  fitsEmpty g &&
    if g.cw * g.ch = 1 then (List.range Config.cores).any fun c => !s.bd.badCores.contains c
    else (rectangles g.cw g.ch).any fun l => l.all fun c => !s.bd.badCores.contains c

/-- How a launch ends; the launching agent has read what its reader says. -/
inductive Launched where
  | ok (grid : Nat) (r : Reader) (s : State)
  | full (r : Reader) (s : State)          -- all 1024 grids are held
  | fail (detail : Nat) (r : Reader) (s : State)
  | asid (r : Reader) (s : State)
  | poison (r : Reader) (s : State)
  | lacks (r : Reader) (s : State)         -- something of the record, or of its codebooks, is not at hand

/-- The grid in the distributor list, at the lowest free index (R216, R227, R386). -/
def enterGrid (s : State) (idx : Nat) (ws : List Word) (books : Tab (List Nat)) (p prio queue : Nat) (l : Launcher) (slot : Nat) : State :=
  let (n, s) := fresh s
  let g : Grid := { record := ws, codebooks := books, stamp := p, launcher := l, launchSlot := slot, prio := prio, queue := queue, arrival := n
                    waitSince := s.bd.clock }
  if g.snapFlag then
    let s := openGrid { s with ex := { s.ex with grids := tset s.ex.grids idx { g with waitsHorizon := true } } } idx
    match tget s.ex.grids idx with
    | some x => if x.waitsHorizon then post s 6 0 8 p 0 else s
    | none => s
  else { s with ex := { s.ex with grids := tset s.ex.grids idx g } }

/-- The launch of a record that has been read and stands: its codebooks are read and checked, and it is handed to the distributor
list (R34, R216, R356). -/
def launchGrid (s : State) (r : Reader) (g : Grid) (prio queue : Nat) (l : Launcher) (slot : Nat) : Launched :=
  match readBooks g (codebookSlots g) s r with
  | (none, r, s) => if r.barred s then .fail 5 r s else .lacks r s
  | (some (books, bad), r, s) =>
    if bad then .poison r s
    else if !books.all (fun b => b.2.all codebookEntryOk) then .fail 4 r s
    else if !canFit s g then .fail 6 r s
    else match tfree s.ex.grids Config.grids 0 with
      | none => .full r s
      | some idx => .ok idx r (enterGrid s idx g.record books r.p prio queue l slot)

/-- A launch by an agent: the record is read and latched, checked, and handed to the distributor (R41, R216, R274, R356). -/
def launch (s : State) (r : Reader) (va : Nat) (ovr : Option Nat) (prio queue : Nat) (l : Launcher) (slot : Nat) : Launched :=
  match readArray 128 2 va s r with
  | (none, r, s) => .lacks r s
  | (some (x, bad), r, s) =>
    if bad then .poison r s
    else
      let x := override x ovr
      let g := protoGrid (recordWords x)
      if g.asid ≠ r.asid then .asid r s
      else match recordFault x with
        | some d => .fail d r s
        | none => launchGrid s r g prio queue l slot

/-- The threads of a core in a home lane. -/
def laneThreads (s : State) (core l : Nat) : List (Nat × Thread) := s.ex.threads.filter fun e => coreOf e.1 == core && e.1 % 64 == l

/-- Registers that a home lane's threads hold (R14, R321). -/
def laneRegs (s : State) (core l : Nat) : Nat := (laneThreads s core l).foldl (fun n e => n + (gridOf s e.2).regs) 0

/-- The teams of a core. -/
def coreTeams (s : State) (core : Nat) : List (Nat × Team) := s.ex.teams.filter fun e => coreOf e.1 == core

/-- The lowest free stash range of a core (R203, R321). -/
def freeRange (s : State) (core n : Nat) : Option Nat :=
  ((List.range 512).map (1024 * ·)).find? fun o => decide (o + n ≤ Config.stashBytes) &&
    (coreTeams s core).all fun e => e.2.size == 0 || !meets o n e.2.base e.2.size || n == 0

/-- Tile entries of a core that teams hold. -/
def usedTiles (s : State) (core : Nat) : Nat := (coreTeams s core).foldl (fun n e => if e.2.gone then n else n + e.2.tileCount) 0

/-- The resource check (R321). -/
def fits (s : State) (g : Grid) (core : Nat) : Bool :=
  !s.bd.badCores.contains core && !halting s core &&
    ((List.range 64).all fun l =>
      let n := laneCount g.teamThreads l
      decide ((laneThreads s core l).length + n ≤ Config.entriesPerLane) && decide (laneRegs s core l + n * g.regs ≤ Config.regsPerLane)) &&
    (freeRange s core g.stash).isSome && decide (usedTiles s core + g.tiles ≤ Config.tileEntries) &&
    (tfree s.ex.teams Config.threadsPerCore (core * 2048)).isSome

/-- The cores of the next team, or cluster, of a grid, by rank; none where it fits nowhere now (R19, R322, R323). -/
def planOf (s : State) (g : Grid) : Option (List Nat) :=
  if g.cw * g.ch = 1 then
    (((List.range Config.cores).map fun i => (g.rr + i) % Config.cores).find? (fits s g)).map fun c => [c]
  else (rectangles g.cw g.ch).find? fun l => l.all (fits s g)

/-- Priority of a grid's teams to be distributed, by the queue's PRIO as it stands (R277). -/
def gridPrio (s : State) (g : Grid) : Nat :=
  let q := ((tget s.qu.queues g.queue).map (·.prio)).getD g.prio
  min q (bits (g.word 18) 23 16)

/-- Has a grid teams that the distributor may place? -/
def waitsPlacement (g : Grid) : Bool := decide (g.next < g.teams) && !g.waitsHorizon && !g.ended

/-- The grids that the distributor serves now: the first reserving grid alone, where there is one (R322). -/
def servedGrids (s : State) : List (Nat × Grid) :=
  let l := s.ex.grids.filter fun e => waitsPlacement e.2
  match firstBy (fun a b => decide ((a.2.reserving).getD 0 < (b.2.reserving).getD 0)) (l.filter fun e => e.2.reserving.isSome) with
  | some e => [e]
  | none => l

/-- The grid whose next team is placed, and where (R322): by priority, then by arrival, the first that fits. -/
def chooseGrid (s : State) : Option (Nat × Grid × List Nat) :=
  let key (e : Nat × Grid × List Nat) : List Nat := [255 - gridPrio s e.2.1, e.2.1.arrival]
  firstBy (fun a b => lexLt (key a) (key b)) ((servedGrids s).filterMap fun e => (planOf s e.2).map fun l => (e.1, e.2, l))

/-- A thread at its placement; it takes no word of code that was filled before `e` (R78, R79, R181, R216, R324, R325). -/
def newThread (e : Nat) (g : Grid) (team i : Nat) : Thread :=
  let live := g.snapFlag && !g.snapRevoked
  { team := team, pc := BitVec.ofNat 32 g.entry, group := i / g.width, glane := i % g.width, hlane := i % 64,
    pts := if g.snapFlag then g.stamp + 1 else g.stamp
    snap := if live then (match g.snap with
      | some S => .grid S
      | none => .off) else .off
    revoked := g.snapFlag && g.snapRevoked, epoch := e, runEpoch := e }

/-- The threads of a team placed in their entries, in ascending linear index (R324). -/
def placeThreads (e : Nat) (g : Grid) (core team : Nat) : Nat → Nat → State → State
  | 0, _, s => s
  | n + 1, i, s =>
    let k := ((List.range 32).find? fun k => (getThread s (core * 2048 + 64 * k + i % 64)).isNone).getD 0
    placeThreads e g core team n (i + 1) (setThread s (core * 2048 + 64 * k + i % 64) (newThread e g team i))

/-- One team placed on a core (R19, R324); no bundle of it has been formed (R328). -/
def placeTeam (s : State) (gi : Nat) (g : Grid) (core lin cluster rank : Nat) : State :=
  match tfree s.ex.teams Config.threadsPerCore (core * 2048), freeRange s core g.stash with
  | some key, some base =>
    let tm : Team := { grid := gi, lin := lin, cluster := cluster, rank := rank, prio := gridPrio s g, threads := g.teamThreads, base := base,
                       size := g.stash, tileCount := g.tiles }
    let s := { s with ex := { s.ex with teams := tset s.ex.teams key tm }, nextId := s.nextId + 1 }
    placeThreads s.nextId g core key g.teamThreads 0 (modCore s core fun c => { c with formed := tdel c.formed (key % 2048) })
  | _, _ => s

/-- A team, or a whole cluster, placed by rank (R323). -/
def placeRanks (gi : Nat) (g : Grid) (cluster : Nat) : List Nat → Nat → State → List Nat → State × List Nat
  | [], _, s, ks => (s, ks)
  | core :: cs, rank, s, ks =>
    let key := (tfree s.ex.teams Config.threadsPerCore (core * 2048)).getD 0
    placeRanks gi g cluster cs (rank + 1) (placeTeam s gi g core (g.next + rank) cluster rank) (ks ++ [key])

/-- The next teams of a grid placed on cores; its round-robin pointer moves past the last (R322). -/
def place (s : State) (gi : Nat) (g : Grid) (cores : List Nat) : State :=
  let ckey := (tfree s.ex.teams Config.threadsPerCore (cores.headD 0 * 2048)).getD 0
  let (s, ks) := placeRanks gi g ckey cores 0 s []
  let s := { s with ex := { s.ex with clusters := tset s.ex.clusters ckey { grid := gi, teams := ks } } }
  modGrid s gi fun x => { x with next := x.next + cores.length, rr := (cores.getLastD 0 + 1) % Config.cores, waitSince := s.bd.clock, reserving := none }

/-- TEAM_PLACEMENT (R19, R322, R324). -/
def execTeamPlacement (s : State) : Host.Outcome State Fault Refusal :=
  match chooseGrid s with
  | some (gi, g, l) => if s.halted = false ∧ g.cw * g.ch = 1 then .next (place s gi g l) else .next s
  | none => .next s

/-- CLUSTER_PLACEMENT (R323, R324). -/
def execClusterPlacement (s : State) : Host.Outcome State Fault Refusal :=
  match chooseGrid s with
  | some (gi, g, l) => if s.halted = false ∧ 1 < g.cw * g.ch then .next (place s gi g l) else .next s
  | none => .next s

/-- GRID_RESERVING (R322): the grid's next team has waited 256 us. -/
def execGridReserving (grid : Nat) (s : State) : Host.Outcome State Fault Refusal :=
  match tget s.ex.grids grid with
  | none => .next s
  | some g =>
    if waitsPlacement g ∧ g.reserving = none ∧ g.waitSince + Config.cycles256us ≤ s.bd.clock then
      let (n, s) := fresh s
      .next (modGrid s grid fun x => { x with reserving := some n })
    else .next s

/-- Is a team's stash still the side of a copy that has not completed? (R296, R335) -/
def copyHolds (s : State) (team : Nat) : Bool :=
  s.en.cards.any fun e => e.2.team == some team && !e.2.finished && (match e.2.kind with
    | .copy => bits e.2.bits 513 512 == 1 || bits e.2.bits 513 512 == 2
    | _ => false)

/-- Has a thread a routed write or atomic that has not been performed? (R258, R335) -/
def peerOwed (t : Thread) : Bool := t.ops.any fun o => !o.performed && match o.kind with
  | .peerStore .. | .peerRmw .. => true
  | _ => false

/-- Is an operation a global write, or an atomic? -/
def isWriting (o : Op) : Bool :=
  match o.kind with
  | .store _ | .radd _ _ | .rmw _ _ => true
  | _ => false

/-- Has a thread a global write in flight: one that is not performed, or whose answers another package owes? (R223) -/
def threadOwes (s : State) (e : Nat × Thread) : Bool := owes s e.1 || e.2.ops.any fun o => isWriting o && !o.performed

/-- The snapshot of a grid whose last team is freed ends (R227). -/
def closeGridSnap (s : State) (gi : Nat) : State :=
  match tget s.ex.grids gi with
  | none => s
  | some g =>
    if (g.next < g.teams ∧ g.ended = false) ∨ s.ex.teams.any (fun e => e.2.grid == gi && !e.2.gone) ∨ savedHas s gi then s
    else match g.snap with
      | some S => modGrid (if g.snapRevoked then s else closeSnap s S) gi fun x => { x with snap := none }
      | none => s

/-- The name under which a thread, or a team, that has been freed keeps its accesses in flight. -/
def lateKey (n k : Nat) : Nat := 2 ^ 90 * (n + 1) + k % 2048

/-- An owner of a request under its thread's later name. -/
def renameOwner (f : Nat → Nat) : Owner → Owner
  | .op k id => .op (f k) id
  | o => o

/-- A request under its threads' later names. -/
def renameRequest (f : Nat → Nat) (r : Request) : Request :=
  { r with owner := renameOwner f r.owner, parts := r.parts.map fun p => (f p.1, p.2) }

/-- The writes in flight of a freed team's threads go on: STOP does not wait for them, and the grid's completion does (R223, R333,
R335). -/
def keepWrites (s : State) (team : Nat) : State :=
  let late := (teamMates s team).filter (threadOwes s)
  if late.isEmpty then s
  else
    let tm := getTeam s team
    let (n, s) := fresh s
    let name (k : Nat) : Nat := if late.any fun e => e.1 == k then lateKey n k else k
    let old (t : Thread) : Thread := { t with team := lateKey n 0, st := .draining, ops := t.ops.filter isWriting }
    { s with
      ex := { s.ex with
        threads := late.foldl (fun m e => tset m (name e.1) (old e.2)) s.ex.threads
        teams := tset s.ex.teams (lateKey n 0) { grid := tm.grid, lin := tm.lin, cluster := tm.cluster, rank := tm.rank, threads := tm.threads, gone := true } }
      fa := { s.fa with requests := s.fa.requests.map fun e => (e.1, renameRequest name e.2), unsent := s.fa.unsent.map (renameRequest name) } }

/-- A cluster with no team left goes; the writes in flight of its teams belong to none. -/
def dropCluster (s : State) (ck : Nat) (mates : List Nat) : State :=
  { s with ex := { s.ex with
    teams := (s.ex.teams.filter fun e => !mates.contains e.1).map fun e =>
      (e.1, if 2 ^ 90 ≤ e.1 ∧ e.2.cluster = ck then { e.2 with cluster := e.1 } else e.2)
    clusters := tdel s.ex.clusters ck } }

/-- A team freed: its entries, registers and tiles at once, its stash range with its whole cluster (R335). -/
def freeTeam (s : State) (team : Nat) : State :=
  let tm := getTeam s team
  let top := (teamMates s team).foldl (fun n e => max n e.2.pts) 0
  let s := modGrid s tm.grid fun g => { g with maxStamp := max g.maxStamp top }
  let s := keepWrites s team
  let s := { s with ex := { s.ex with
    threads := s.ex.threads.filter fun e => e.2.team != team
    teams := tmod s.ex.teams team fun x => { x with gone := true, tiles := [], tileCount := 0, exitPts := top } } }
  let s := modCore s (coreOf team) fun c => { c with hiddenAge := c.hiddenAge.filter fun x => x.1 != team }
  let mates := ((tget s.ex.clusters tm.cluster).map (·.teams)).getD [team]
  closeGridSnap (if mates.all fun k => (getTeam s k).gone then dropCluster s tm.cluster mates else s) tm.grid

/-- TEAM_FREE (R204, R335). -/
def execTeamFree (team : Nat) (s : State) : Host.Outcome State Fault Refusal :=
  match tget s.ex.teams team with
  | none => .next s
  | some tm =>
    let ts := teamMates s team
    if tm.gone ∨ ts.any (fun e => e.2.live) ∨ copyHolds s team ∨ ts.any (fun e => peerOwed e.2) ∨ tm.tiles ≠ [] then .next s
    else .next (freeTeam s team)

end Sys2Proof.Machine
end

