-- ==== Sys2Proof/Machine/Queues.lean ====
section
/-! DEFINITION. Queues.lean: user queues, their doorbells, slots and entries (R268 to R278, R282), and the host port's accesses
(R307, R375). -/

namespace Sys2Proof.Machine

/-- N of R269: the entries of a ring. -/
def Queue.size (q : Queue) : Nat := if q.logn = 0 then 65536 else 2 ^ q.logn
/-- The write-index word of a queue: the start of its control line (R269). -/
def Queue.ctl (q : Queue) : Nat := q.ringBase + 64 * q.size
/-- The address of entry i (R269). -/
def Queue.at_ (q : Queue) (i : Nat) : Nat := q.ringBase + 64 * (i % q.size)

/-- The slot that a queue is bound to. -/
def slotOf (s : State) (n : Nat) : Option Nat := (s.qu.slots.find? fun e => e.2.queue == n).map (·.1)

/-- Is a queue waiting? (R275) -/
def isWaiting (s : State) (n : Nat) (q : Queue) : Bool := decide (q.ridx < q.widx) && !q.frozen && (slotOf s n).isNone

/-- A queue unbound from its slot, whose entry goes back untaken; the slot keeps the largest stamp it has observed (R216,
R272, R275). -/
def unbind (s : State) (n : Nat) : State :=
  match slotOf s n with
  | none => s
  | some k =>
    let s := forget (raiseSlot s k (((tget s.qu.slots k).map (·.pts)).getD 0)) (· == .slot k)
    modQueue { s with qu := { s.qu with slots := tdel s.qu.slots k } } n fun q => { q with waitingSince := s.bd.clock }

/-- A queue frozen with a reason (R282). -/
def freezeQueue (s : State) (n reason detail : Nat) : State :=
  match tget s.qu.queues n with
  | none => s
  | some q =>
    if q.frozen then s
    else unbind (freezeEvent (modQueue s n fun q => { q with frozen := true, freason := reason, detail := detail }) 8 0 0 n 0 reason detail) n

/-- A value presented by a doorbell in good form, by an agent of pts `stamp` (R270, R271). -/
def presentBell (s : State) (n w stamp : Nat) : State :=
  match tget s.qu.queues n with
  | none => s
  | some q =>
    if q.frozen then s
    else if w < q.widx then freezeQueue s n 1 0
    else if q.ridx + q.size < w then freezeQueue s n 2 0
    else if w = q.widx then s
    else modQueue s n fun q => { q with widx := w, bell := max q.bell stamp
                                        waitingSince := if q.ridx < q.widx then q.waitingSince else s.bd.clock }

/-- An answer of the host port. -/
def hostAnswer (s : State) (qp code : Nat) (bs : List Byte) : State :=
  hostFrames { s with fa := { s.fa with answers := (qp, code, bs) :: s.fa.answers } }

/-- A host queue pair frozen (R307, R388). -/
def freezePair (s : State) (qp : Nat) : State :=
  match tget s.fa.qps qp with
  | none => s
  | some x =>
    if x.frozen then s
    else freezeEvent { s with fa := { s.fa with qps := tset s.fa.qps qp { x with frozen := true } } } 9 0 3 qp 0 0 0

/-- A failed check of a host access: a remote-access NAK, and the queue pair freezes (R307). -/
def hostNak (s : State) (qp : Nat) : State := freezePair (hostAnswer s qp 2 []) qp

/-- Is the host port down? A port that is down carries nothing (R306). -/
def hostDown (s : State) : Bool := s.fa.downPorts.contains 32

/-- An RDMA request with its key on an open queue pair of the host's side: `act` where both stand; a frozen pair refuses
every request (R307). A request to a queue pair that is not open reaches nothing. A WRITE to the migration mailbox is a
request of R375 and nothing else; the host path answers requests as every pair does. -/
def hostRequest (s : State) (qp key : Nat) (serves : Nat → Bool) (act : QueuePair → State) : State :=
  match tget s.fa.qps qp with
  | none => s
  | some x =>
    if hostDown s then s
    else if x.frozen then hostAnswer s qp 2 []
    else if !serves x.mode then s
    else if x.key ≠ key then hostNak s qp
    else act x

/-- May a byte of a page be accessed by the host, as the page tables stand? -/
def hostPage (s : State) (a : Acc) (asid va : Nat) : Bool :=
  match walk s asid va with
  | .leaf l => permits l a && !l.remote && !l.gather
  | _ => false

/-- May every byte of a range be accessed by the host? (R307) -/
def hostMay (s : State) (a : Acc) (asid va n : Nat) : Bool :=
  decide (va + n ≤ 2 ^ 57) && (spanLines (n + 1) va n).all fun x => hostPage s a asid x.1

/-- The translations of the host port and of the queue unit, on the base die, go by the walker of die 0
(notes/assumptions/45.md). -/
def baseVia : Via := { die := 0 }

/-- Does a range wait: for the merge table, which holds a miss of one of its pages, or has no room (R367, R369), or for the host
path (R306, R307)? -/
def hostWaits (s : State) (a : Acc) (asid va n : Nat) : Bool :=
  (spanLines (n + 1) va n).any fun x => walkWaits s baseVia a asid x.1 || portWaits s baseVia a asid x.1

/-- The first page of a range whose table entry is malformed or poisoned is reported (R365). -/
def noteRange (s : State) (asid va n : Nat) : State :=
  match (spanLines (n + 1) va n).find? fun x => walk s asid x.1 == .bad || walk s asid x.1 == .poison with
  | some x => noteBad s asid x.1
  | none => s

/-- A host access to a range: a NAK where a page of it may not be accessed, `act` once every page can be (R307). -/
def hostAccess (s : State) (qp : Nat) (a : Acc) (asid va n : Nat) (act : State) : State :=
  if !hostMay s a asid va n then hostNak (noteRange s asid va n) qp
  else if hostWaits s a asid va n then s
  else act

/-- Bytes written by an agent of pts p at virtual addresses, line by line: the largest stamp; `clears` as for one write. -/
def hostWrite (s : State) (p asid va : Nat) (bs : List Byte) (clears : Bool := false) : Nat × State :=
  (spanLines (bs.length + 1) va bs.length).foldl (fun (r : Nat × State) x =>
    match agentWrite r.2 baseVia r.1 asid x.1 ((bs.drop (x.1 - va)).take x.2) clears with
    | .ok ts s => (max r.1 ts, s)
    | _ => r) (p, s)

/-- Bytes read by an agent of pts p at virtual addresses: the largest stamp, the bytes, and whether any is poisoned. -/
def hostRead (s : State) (p asid va n : Nat) : (Nat × List Byte × Bool) × State :=
  (spanLines (n + 1) va n).foldl (fun (r : (Nat × List Byte × Bool) × State) x =>
    match plainRead r.2 { via := baseVia, asid := asid, p := r.1.1 } x.1 x.2 with
    | (some a, _, s) => ((max r.1.1 a.ts, r.1.2.1 ++ natLe x.2 a.value, r.1.2.2 || a.poison), s)
    | _ => r) ((p, [], false), s)

/-- A queue pair's pts raised (R216). -/
def raisePair (s : State) (qp p : Nat) : State :=
  { s with fa := { s.fa with qps := tmod s.fa.qps qp fun x => { x with pts := max x.pts p } } }

/-- The queues whose write-index word an RDMA WRITE of n bytes covers in part (R270). -/
def rung (s : State) (asid va n : Nat) : List (Nat × Queue) :=
  s.qu.queues.filter fun e => e.2.asid == asid && meets va n e.2.ctl 8

/-- Is a doorbell in good form? (R270) -/
def goodBell (qp va n : Nat) (q : Queue) : Bool := q.qpn == qp && !q.push && va == q.ctl && n == 8

/-- An RDMA WRITE performed by the queue-pair agent, and answered (R216, R271, R307); where it covers a line it clears its poison
(R387). -/
def performHostWrite (s : State) (qp : Nat) (x : QueuePair) (va : Nat) (bs : List Byte) : Nat × State :=
  let (ts, s) := hostWrite s x.pts x.asid va bs true
  (ts, hostAnswer (raisePair s qp ts) qp 0 [])

/-- DOORBELL (R270, R271): an RDMA WRITE that covers a byte of a write-index word. R270 does not say how the host is answered for
one in bad form: DESIGN CHOICE, nothing is written, the queue freezes, and neither an answer is sent nor the queue pair frozen
(notes/assumptions/58.md). -/
def execDoorbell (qp key va : Nat) (data : List Byte) (s : State) : Host.Outcome State Fault Refusal :=
  .next (hostRequest s qp key (· != 3) fun x =>
    let l := rung s x.asid va data.length
    let bad := l.filter fun e => !goodBell qp va data.length e.2
    if l.isEmpty then s
    else if !bad.isEmpty then bad.foldl (fun s e => freezeQueue s e.1 3 0) s
    else hostAccess s qp .engineWrite x.asid va data.length <|
      let (ts, s) := performHostWrite s qp x va data
      l.foldl (fun s e => presentBell s e.1 (leNat data) ts) s)

/-- HOST_RDMA_WRITE (R307). -/
def execHostRdmaWrite (qp key va : Nat) (data : List Byte) (s : State) : Host.Outcome State Fault Refusal :=
  .next (hostRequest s qp key (· != 3) fun x =>
    if !(rung s x.asid va data.length).isEmpty then s
    else hostAccess s qp .engineWrite x.asid va data.length (performHostWrite s qp x va data).2)

/-- HOST_RDMA_READ (R307): a poisoned byte is answered with a remote-access NAK, without its value (R208). -/
def execHostRdmaRead (qp key va n : Nat) (s : State) : Host.Outcome State Fault Refusal :=
  .next (hostRequest s qp key (fun _ => true) fun x =>
    hostAccess s qp .engineRead x.asid va n <|
      let ((ts, bs, poison), s) := hostRead s x.pts x.asid va n
      let s := raisePair s qp ts
      if poison then hostAnswer s qp 2 [] else hostAnswer s qp 0 bs)

/-- HOST_RDMA_FLUSH (R307, R314): every write of the queue pair is visible already, and it is acknowledged, where the key and the
pages of the range stand as for a read of it (notes/assumptions/24.md). -/
def execHostRdmaFlush (r : FlushReq) (s : State) : Host.Outcome State Fault Refusal :=
  .next (hostRequest s r.qp r.key (fun _ => true) fun x =>
    hostAccess s r.qp .engineRead x.asid r.va r.n (hostAnswer s r.qp 0 []))

/-- HOST_UNSUPPORTED_REQUEST (R307): a remote-invalid-request NAK. -/
def execHostUnsupportedRequest (qp : Nat) (s : State) : Host.Outcome State Fault Refusal :=
  .next (match tget s.fa.qps qp with
    | none => s
    | some x => if hostDown s then s else if x.frozen then hostAnswer s qp 2 [] else hostAnswer s qp 1 [])

/-- HOST_MIGRATION_REQUEST (R375): a 32-byte RDMA WRITE to the migration mailbox; one of another length is malformed. -/
def execHostMigrationRequest (qp key _va : Nat) (data : List Byte) (s : State) : Host.Outcome State Fault Refusal :=
  .next (hostRequest s qp key (· == 3) fun _ =>
    if data.length = 32 then if !hostPathOpen s then s else hostAnswer (hostMigrate s (leNat data)) qp 0 [] else hostAnswer s qp 2 [])

/-- Effective priority of a waiting queue (R275). -/
def effPrio (s : State) (q : Queue) : Nat := min 7 (q.prio + (s.bd.clock - q.waitingSince) / Config.cycles256us)

/-- The waiting queue that a free slot binds (R275). -/
def nextQueue (s : State) : Option (Nat × Queue) :=
  let key (e : Nat × Queue) : List Nat := [7 - effPrio s e.2, e.2.waitingSince, e.1]
  firstBy (fun a b => lexLt (key a) (key b)) (s.qu.queues.filter fun e => isWaiting s e.1 e.2)

/-- SLOT_BIND (R275). -/
def execSlotBind (slot : Nat) (s : State) : Host.Outcome State Fault Refusal :=
  if Config.slots ≤ slot ∨ (tget s.qu.slots slot).isSome then .next s
  else match nextQueue s with
    | none => .next s
    | some (n, _) =>
      let x : Slot := { queue := n, pts := (tget s.qu.slotPts slot).getD 0, boundAt := s.bd.clock }
      .next { s with qu := { s.qu with slots := tset s.qu.slots slot x } }

/-- Does a slot unbind its queue now? (R275) -/
def unbinds (s : State) (x : Slot) (q : Queue) : Bool :=
  decide (q.widx ≤ q.ridx) || q.frozen ||
    (decide (x.boundAt + Config.cycles64us ≤ s.bd.clock) && s.qu.queues.any fun e => isWaiting s e.1 e.2 && decide (q.prio ≤ effPrio s e.2)) ||
    (match x.blockedAt with
      | some b => decide (b + Config.cycles64us ≤ s.bd.clock) && s.qu.queues.any fun e => isWaiting s e.1 e.2
      | none => false)

/-- SLOT_UNBIND (R275). -/
def execSlotUnbind (slot : Nat) (s : State) : Host.Outcome State Fault Refusal :=
  match tget s.qu.slots slot with
  | none => .next s
  | some x => match tget s.qu.queues x.queue with
    | none => .next (unbind s x.queue)
    | some q => if unbinds s x q then .next (unbind s x.queue) else .next s

/-- A slot as it reads for a queue (R216, R274). -/
def slotReader (x : Slot) (q : Queue) : Reader := { via := baseVia, asid := q.asid, p := x.pts, buf := x.buf }

/-- What a slot has read is kept, its pts follows, and other packages are asked for what it lacks; a page out of its reach freezes
the queue (R216, R274). -/
def slotLacks (s : State) (slot n : Nat) (r : Reader) : State :=
  let s := modSlot (raiseSlot s slot r.p) slot fun x => { x with buf := r.buf }
  if r.barred s then freezeQueue s n 5 0
  else r.wants.reverse.foldl (fun s w => match w with
    | .away pkg asid va n => askRead s (.slot slot) r.asid pkg asid va n r.p
    | _ => s) s

/-- A read of n bytes by a slot: `act` with the value; a page out of its reach and a poisoned value freeze the queue (R274). -/
def slotRead (s : State) (slot va n : Nat) (act : State → Nat → State) : State :=
  match tget s.qu.slots slot with
  | none => s
  | some x => match tget s.qu.queues x.queue with
    | none => s
    | some q =>
      if (tget x.buf 0) = some 1 then freezeQueue s x.queue 5 0
      else match agentRead s (slotReader x q) va n with
        | (some a, r, s) =>
          let s := raiseSlot s slot r.p
          if a.poison then freezeQueue s x.queue 8 0 else act s a.value
        | (none, r, s) => slotLacks s slot x.queue r

/-- TYPE of an entry (R273). -/
def entryType (e : Nat) : Nat := e % 256

/-- Is an entry well formed? (R273) -/
def entryOk (e : Nat) : Bool :=
  let ov := bit e 10
  bits e 255 224 == 0 && bits e 63 12 == 0 && decide (1 ≤ entryType e) && decide (entryType e ≤ 3) && (!ov || entryType e == 1) &&
    ([0, 1, 2].all fun k => (bits e (159 + 32 * k) (128 + 32 * k) != 0) == ov) && (bit e 8 || bits e 319 256 == 0) &&
    (bit e 9 || bits e 447 384 == 0) && (entryType e != 3 || bits e 127 64 == 0)

/-- Are an entry's wait and signal addresses 8-byte-aligned 57-bit addresses? (R273, R274) -/
def entryAddrs (e : Nat) : Bool :=
  [bits e 319 256, bits e 447 384].all fun a => a % 8 == 0 && decide (a < 2 ^ 57)

/-- ENTRY_TAKE (R271 to R273). -/
def execEntryTake (slot : Nat) (s : State) : Host.Outcome State Fault Refusal :=
  match tget s.qu.slots slot with
  | none => .next s
  | some x => match tget s.qu.queues x.queue with
    | none => .next s
    | some q =>
      if x.entry.isSome ∨ q.frozen ∨ q.widx ≤ q.ridx then .next s
      else
        let s := raiseSlot s slot q.bell
        .next (slotRead s slot (q.at_ q.ridx) 64 fun s e =>
          if !entryOk e then freezeQueue s x.queue 4 0
          else if !entryAddrs e then freezeQueue s x.queue 5 0
          else modSlot s slot fun x => { x with entry := some e, waitMet := !bit e 8, blockedAt := none, buf := [] })

/-- Is a wait met? (R274) -/
def waitWordMet (ge : Bool) (x v : Nat) : Bool := if ge then decide (v ≤ x) else x == v

/-- A head that is blocked, with what its slot keeps of its reads (R275). -/
def blockHead (s : State) (slot : Nat) (buf : Tab Nat) : State :=
  modSlot s slot fun x => { x with blockedAt := some (x.blockedAt.getD s.bd.clock), buf := buf }

/-- ENTRY_WAIT_POLL (R274). -/
def execEntryWaitPoll (slot : Nat) (s : State) : Host.Outcome State Fault Refusal :=
  match (tget s.qu.slots slot).bind (·.entry), (tget s.qu.slots slot).map (·.waitMet) with
  | some e, some false => .next (slotRead s slot (bits e 319 256) 8 fun s x =>
      if waitWordMet (bit e 11) x (bits e 383 320) then modSlot s slot fun x => { x with waitMet := true, blockedAt := none, buf := [] }
      else blockHead s slot [])
  | _, _ => .next s

/-- The entries of a queue that complete with those before them: a SIGNAL is complete once every earlier one is (R274). -/
def settleSignals (q stamp : Nat) : Bool → List Pending → List Pending
  | _, [] => []
  | opened, p :: ps =>
    if p.queue ≠ q then p :: settleSignals q stamp opened ps
    else if p.fin.isSome then p :: settleSignals q stamp opened ps
    else if p.signal && !opened then { p with fin := some stamp } :: settleSignals q stamp opened ps
    else p :: settleSignals q stamp true ps

/-- The finished entries settled; those without a signal leave (R274). -/
def settlePending (s : State) (q : Nat) : State :=
  let stamp := ((tget s.qu.queues q).map (·.doneStamp)).getD 0
  { s with qu := { s.qu with
      pendings := (settleSignals q stamp false s.qu.pendings).filter fun p => p.fin.isNone || p.sigAddr.isSome } }

/-- An entry completes with a stamp (R274, R357). -/
def completePending (s : State) (q i stamp : Nat) : State :=
  let s := modQueue s q fun x => { x with doneStamp := max x.doneStamp stamp }
  settlePending { s with qu := { s.qu with
    pendings := s.qu.pendings.map fun p => if p.queue = q ∧ p.index = i then { p with fin := some stamp } else p } } q

/-- A completed entry without its signal (R282, R361). -/
def dropPending (s : State) (q i : Nat) : State :=
  settlePending { s with qu := { s.qu with pendings := s.qu.pendings.filter fun p => !(p.queue == q && p.index == i) } } q

/-- The entry as it waits for its completion. -/
def pendingOf (n : Nat) (q : Queue) (e : Nat) : Pending :=
  { queue := n, index := q.ridx, sigAddr := if bit e 9 then some (bits e 447 384) else none, sigVal := bits e 511 448, signal := entryType e == 3 }

/-- Does the write of a queue's read-index word wait for the merge table? -/
def indexWaits (s : State) (q : Queue) : Bool := hostWaits s .engineWrite q.asid (q.ctl + 64) 8

/-- An entry handed on: RIDX moves past it and is written to the read-index word; where that cannot be written the queue
freezes (R272, R274). R274 gives no reason for a poisoned page-table entry on that way: DESIGN CHOICE, POISON
(notes/assumptions/58.md). -/
def handOn (s : State) (slot e : Nat) : State :=
  match tget s.qu.slots slot with
  | none => s
  | some x => match tget s.qu.queues x.queue with
    | none => s
    | some q =>
      let s := modQueue s x.queue fun q => { q with ridx := q.ridx + 1, doneStamp := if entryType e = 3 then max q.doneStamp x.pts else q.doneStamp }
      let s := { s with qu := { s.qu with pendings := s.qu.pendings ++ [pendingOf x.queue q e] } }
      let s := modSlot s slot fun x => { x with entry := none, waitMet := false, blockedAt := none, buf := [] }
      let s := settlePending s x.queue
      match agentWrite s baseVia x.pts q.asid (q.ctl + 64) (natLe 8 (q.ridx + 1)) with
      | .ok ts s => raiseSlot s slot ts
      | .denied s => freezeQueue s x.queue 5 0
      | .poison s => freezeQueue s x.queue 8 0
      | _ => freezeQueue s x.queue 5 0

/-- The grid dimensions that an entry puts in place of the record's. -/
def entryOverride (e : Nat) : Option Nat := if bit e 10 then some (bits e 223 128) else none

/-- ENTRY_HAND_ON of a LAUNCH entry (R274, R356). -/
def handLaunch (s : State) (slot e : Nat) : State :=
  match tget s.qu.slots slot with
  | none => s
  | some x => match tget s.qu.queues x.queue with
    | none => s
    | some q =>
      let va := bits e 127 64
      if va % 256 ≠ 0 ∨ 2 ^ 57 < va + 256 ∨ tget x.buf 0 = some 1 then freezeQueue s x.queue 5 0
      else match launch s (slotReader x q) va (entryOverride e) q.prio x.queue (.slot x.queue q.ridx) slot with
        | .full r s => blockHead (raiseSlot s slot r.p) slot r.buf
        | .ok _ r s => handOn (raiseSlot s slot r.p) slot e
        | .fail d r s => freezeQueue (raiseSlot s slot r.p) x.queue 7 d
        | .asid r s => freezeQueue (raiseSlot s slot r.p) x.queue 6 0
        | .poison r s => freezeQueue (raiseSlot s slot r.p) x.queue 8 0
        | .lacks r s => slotLacks s slot x.queue r

/-- The queue that a slot is bound to. -/
def slotQueue (s : State) (slot : Nat) : Queue := ((tget s.qu.slots slot).bind fun x => tget s.qu.queues x.queue).getD {}

/-- ENTRY_HAND_ON (R274): a LAUNCH or a SIGNAL entry whose wait is met. -/
def execEntryHandOn (slot : Nat) (s : State) : Host.Outcome State Fault Refusal :=
  match (tget s.qu.slots slot).bind (·.entry), (tget s.qu.slots slot).map (·.waitMet) with
  | some e, some true =>
    if indexWaits s (slotQueue s slot) then .next s
    else if entryType e = 1 then .next (handLaunch s slot e)
    else if entryType e = 3 then .next (handOn s slot e)
    else .next s
  | _, _ => .next s

/-- A queue frozen at an entry's signal write (R274, R282). -/
def freezeSignal (s : State) (n entry reason : Nat) : State :=
  if ((tget s.qu.queues n).map (·.frozen)) = some false then
    modQueue (freezeQueue s n reason 0) n fun q => { q with sigFrozen := some entry }
  else s

/-- A signal written with a stamp: the entry has nothing more to do, and the slot that serves its queue has observed the stamp. -/
def signalled (s : State) (n entry ts : Nat) : State :=
  dropPending (match slotOf s n with
    | some k => raiseSlot s k ts
    | none => s) n entry

/-- ENTRY_SIGNAL_WRITE (R274, R282): SIGVAL of a finished entry is written, stamped above its completion; on another package it is
asked for, and the entry waits for the answer. A queue that froze at this write waits for its release. -/
def execEntrySignalWrite (queue entry : Nat) (s : State) : Host.Outcome State Fault Refusal :=
  match s.qu.pendings.find? fun p => p.queue == queue && p.index == entry, tget s.qu.queues queue with
  | some p, some q => match p.fin, p.sigAddr with
    | some fin, some va =>
      if q.frozen ∧ q.sigFrozen = some entry ∨ ownRequests s (.signal queue entry) ≠ [] then .next s
      else match agentWrite s baseVia (fin + 1) q.asid va (natLe 8 p.sigVal) with
        | .ok ts s => .next (signalled s queue entry ts)
        | .away pkg asid => .next (sendRequest s (writeFrame pkg asid va (fin + 1) q.asid (natLe 8 p.sigVal)) (.signal queue entry))
        | .absent => .next (if walk s q.asid va = .absent then freezeSignal s queue entry 5 else s)
        | .later => .next s
        | .denied s => .next (freezeSignal s queue entry 5)
        | .poison s => .next (freezeSignal s queue entry 8)
    | _, _ => .next s
  | _, _ => .next s

/-- May a QPUSH of a lane go to its queue? (R278) -/
def pushOk (s : State) (t : Thread) (b : Reg) : Bool :=
  let x := (rd t b).toNat
  decide (x < 4096) && match tget s.qu.queues x with
    | some q => q.asid == (gridOf s t).asid && q.push
    | none => false

/-- The reason for which a queue freezes whose ring cannot be reached: POISON where a page-table entry is poisoned, a DESIGN CHOICE
(notes/assumptions/58.md), ENTRY_ADDR otherwise (R274). -/
def ringReason (s : State) (asid va n : Nat) : Nat :=
  if (spanLines (n + 1) va n).any fun x => walk s asid x.1 == .poison then 8 else 5

/-- The queue unit's step of QPUSH: the entry appended by an agent of pts p, the result and the stamp (R278). -/
def pushEntry (s : State) (n p e : Nat) : Nat × Nat × State :=
  match tget s.qu.queues n with
  | none => (0x80000001, p, s)
  | some q =>
    if q.frozen then (0x80000001, p, s)
    else if q.widx - q.ridx = q.size then (0x80000000, p, s)
    else
      let ok (va n : Nat) : Bool := hostMay s .engineWrite q.asid va n
      if !ok (q.at_ q.widx) 64 then (0x80000001, p, freezeQueue (noteRange s q.asid (q.at_ q.widx) 64) n (ringReason s q.asid (q.at_ q.widx) 64) 0)
      else if !ok q.ctl 8 then (0x80000001, p, freezeQueue (noteRange s q.asid q.ctl 8) n (ringReason s q.asid q.ctl 8) 0)
      else
        let (ts, s) := hostWrite s p q.asid (q.at_ q.widx) (natLe 64 e)
        let (ts, s) := hostWrite s ts q.asid q.ctl (natLe 8 (q.widx + 1))
        let s := modQueue s n fun x => { x with widx := x.widx + 1, bell := max x.bell ts
                                                waitingSince := if x.ridx < x.widx then x.waitingSince else s.bd.clock }
        (q.widx % 2 ^ 31, ts, s)

/-- Does a queue unit's write to a ring wait for the merge table, for a push of up to `n` entries? -/
def pushWaits (s : State) (n : Nat) (t : Thread) (b : Reg) : Bool :=
  match tget s.qu.queues (rd t b).toNat with
  | none => false
  | some q => pushOk s t b && !q.frozen && (hostWaits s .engineWrite q.asid q.ctl 8 ||
      (List.range n).any fun i => hostWaits s .engineWrite q.asid (q.at_ (q.widx + i)) 64)

/-- A lane as it reads at its word: at the current versions, or in its snapshot's and its transaction's view (R228, R234). -/
def laneReader (s : State) (k : Nat) (t : Thread) (view : Bool) : Reader :=
  let body := decide (0 < t.tx.depth)
  { via := { die := dieOf (coreOf k) }, asid := (gridOf s t).asid, p := t.pts, snap := if view then readSnap t else none
    tx := if view && body then some t.tx else none, view := view && (body || (readSnap t).isSome), buf := t.buf }

/-- What a lane's read of the bytes at its address gives, with the translation that the lane holds (R228, R234, R300). -/
def laneRead (s : State) (r : Reader) (l : Leaf) (va n : Nat) : Option Ack × Reader × State :=
  if l.gather then
    match windowAt s r.asid va with
    | some w => windowRead (readThrough Config.windows) s r w va n
    | none => (none, r.lacks (.denied va), s)
  else if l.remote then
    match tget r.buf (readKey va n) with
    | some v => (some (bufAck v), { r with p := max r.p (bufAck v).ts, excl := r.excl || r.view }, s)
    | none => (none, r.lacks (.away (l.frame / 4096) (l.frame % 4096) va n), s)
  else
    let pa := l.frame + va % pageBytes l.size
    if isHost pa && !hostPathOpen s then (none, r.lacks .port, s)
    else
    let S := if isHost pa then none else r.snap
    let (a, s) := match r.tx with
      | none => readAt s l.zf S r.p pa n
      | some x => viewRead s x l.zf S r.p pa n
    (some a, { r.took va n a with excl := r.excl || (r.view && isHost pa) }, s)

/-- What a lane's read lacks, where it lacks something that it can wait for. -/
def laneLacks (s : State) (k : Nat) (t : Thread) (view : Bool) (va n : Nat) : Option Reader :=
  match xlate s k t .load (gridOf s t).asid va with
  | .ok l => match laneRead s (laneReader s k t view) l va n with
    | (none, r, _) => if r.denied.isSome then none else some r
    | _ => none
  | _ => none

/-- Every lane goes after what its read lacks; where any does, the bundle holds. -/
def askLanes (w : WordSpec) (view : Bool) (n : Nat) (ea : Thread → Int) (fpc : Word) : State → List Nat → Bool × State
  | s, [] => (false, s)
  | s, k :: ks =>
    let lacks := (getThread s k).bind fun t =>
      if ready s w t then match addrOf (ea t) n with
        | .ok va => laneLacks s k t view va n
        | .error _ => none
      else none
    match lacks with
    | some r =>
      let s := pursue (modThread s k fun t => { t with buf := r.buf }) r 6 (3, 0) (.word k) (fun va => .lane k va fpc)
      (true, (askLanes w view n ea fpc s ks).2)
    | none => askLanes w view n ea fpc s ks

/-- A word whose lanes each read a line's bytes at its issue (R278, R285): the bundle goes on once every lane can. -/
def readWord (w : WordSpec) (view : Bool) (n : Nat) (ea : State → Thread → Int) (go : Ctx → List Nat → State → State) (s : State) :
    Host.Outcome State Fault Refusal :=
  issueGo w (fun c ks s =>
    match missing s w .load n (ea s) ks with
    | [] => match askLanes w view n (ea s) c.fpc s ks with
      | (true, s) => s
      | (false, s) => go c ks s
    | ms => ms.foldl (joinLane .load c.fpc) s) s

/-- The destination of a QPUSH whose entry was poisoned or denied (R242, R301). -/
def pushLost (s : State) (k : Nat) (t : Thread) (d : Reg) (va : Nat) (prot : Bool) : State :=
  let (id, s) := fresh s
  let t := addOp t { id := id, wid := id, cnt := .ld, kind := .load .w32, va := va, dest := d.toNat, dlen := 1, performed := true
                     visible := true, poisoned := !prot, prot := prot }
  setThread s k (match findOp t id with
    | some o => returnOp t o
    | none => t)

/-- One lane of QPUSH (R278): a poisoned or denied entry is met as a load's would be (R242, R301). -/
def pushLane (d a b : Reg) (s : State) (k : Nat) (t : Thread) : LaneOut :=
  if !pushOk s t b then .fault 0x13 0
  else globalLane .load 64 (fun t => (readPair t a.toNat : Int)) (fun s k t va l =>
    match laneRead s (laneReader s k t false) l va 64 with
    | (some e, r, s) =>
      if e.poison then .ok (pushLost s k { t with pts := max t.pts r.p } d va false)
      else
        let (x, p, s) := pushEntry (setThread s k t) (rd t b).toNat (max t.pts r.p) e.value
        let (id, s) := fresh s
        .ok (modThread s k fun t => addDone (writeReg { t with pts := max t.pts p } d.toNat (BitVec.ofNat 32 x)) id .ld)
    | (none, _, s) => .ok (pushLost s k t d va true)) s k t

/-- QPUSH (R278). -/
def execQpush (d a b : Reg) (s : State) : Host.Outcome State Fault Refusal :=
  let w : WordSpec := { opSpec [(a.toNat, 2, 2), sp1 b] [sp1 d] with order := true, adds := [(.ld, 1)] }
  readWord w false 64 (fun s t => if pushOk s t b then (readPair t a.toNat : Int) else -1)
    (fun c ks s =>
      if ks.any fun k => (getThread s k).any fun t => ready s w t && pushWaits s ks.length t b then s
      else laneLoop (laneStep w c (pushLane d a b)) s ks) s

end Sys2Proof.Machine
end

