-- ==== Sys2Proof/Machine/Engines.lean ====
section
/-! DEFINITION. Engines.lean: JOB and job cards (R224, R225, R284 to R293), the copy engines (R294 to R296), Hornbeam (R297,
R298), gather windows (R299 to R302) and collectives (R303 to R305). -/

namespace Sys2Proof.Machine

/-- A used footprint of a card: base, length and WRITE (R289). -/
def footprints (x : Nat) : List (Nat × Nat × Bool) :=
  ((List.range 4).map fun i =>
    let f := bits x (223 + 96 * i) (128 + 96 * i)
    (bits f 56 0, bits f 95 64, bit f 57)).filter fun f => f.2.1 != 0

/-- Is a card's header in form? (R288, R289) A footprint out of range is CARD_FORM here, though R200 gives PAGE_PROT to a footprint
with high bits set: DEDUCED, the chapter of the card decides (notes/assumptions/51.md). -/
def headerOk (kind : Nat) (x : Nat) : Bool :=
  bits x 127 121 == 0 && bits x 120 64 % 8 == 0 && bits x 31 8 == 0 && x % 256 == kind + 1 &&
    (List.range 4).all fun i =>
      let f := bits x (223 + 96 * i) (128 + 96 * i)
      bits f 63 58 == 0 && (if bits f 95 64 = 0 then bits f 57 0 == 0 else decide (bits f 56 0 + bits f 95 64 ≤ 2 ^ 57))

/-- Do two cards overlap? (R224) -/
def overlap (x y : Nat) : Bool :=
  (footprints x).any fun f => (footprints y).any fun g => (f.2.2 || g.2.2) && meets f.1 f.2.1 g.1 g.2.1

/-- The code of a kind of job (R284). -/
def kindCode (k : JobKind) : Nat :=
  match k with
  | .copy => 0 | .sort => 1 | .gatherbind => 2 | .unbind => 3 | .coll => 4 | .ocomp => 5

/-- The kind that a code names. -/
def kindOf (n : Nat) : Option JobKind :=
  match n with
  | 0 => some .copy | 1 => some .sort | 2 => some .gatherbind | 3 => some .unbind | 4 => some .coll | 5 => some .ocomp | _ => none

/-- The cards that an instance, or the tracker, holds. -/
def heldCards (s : State) : List (Nat × Card) := s.en.cards.filter fun e => !e.2.finished

/-- Cards queued at an instance. -/
def queuedAt (s : State) (i : Nat) : Nat := ((heldCards s).filter fun e => e.2.instance_ == i).length

/-- The instance that a card of a kind from a die goes to; `sent` are the instances of earlier cards of the word (R287). -/
def instanceFor (s : State) (die : Nat) (k : JobKind) (sent : List Nat) : Nat :=
  match k with
  | .copy =>
    let load (i : Nat) : Nat := queuedAt s i + (sent.filter (· == i)).length
    (firstBy (fun a b => decide (load a < load b)) ((List.range 8).map (32 * die + ·))).getD (32 * die)
  | .sort => 32 * die + 8
  | .gatherbind | .unbind => 128
  | .coll | .ocomp => 129

/-- A card appended to its instance and to the footprint tracker, which finds what it depends on (R224, R285, R290). -/
def appendCard (s : State) (c : Card) : Nat × State :=
  let (id, s) := fresh s
  let deps := ((heldCards s).filter fun e => e.2.asid == c.asid && overlap e.2.bits c.bits).map (·.1)
  (id, { s with en := { s.en with cards := tset s.en.cards id { c with deps := deps, pts := c.stamp } } })

/-- The threads that wait at JOB word `wid` for room, in ascending home lane, with their kind. -/
def jobWaiters (s : State) (wid : Nat) : List (Nat × Thread × JobKind) :=
  let l := s.ex.threads.filterMap fun e => match e.2.held with
    | some { instr := .job k _, token, .. } => if e.2.waitOn = .table ∧ token = wid then some (e.1, e.2, k) else none
    | _ => none
  (List.range 64).flatMap fun h => l.filter fun e => e.1 % 64 == h

/-- The instances of a word's cards, lane by lane (R285, R287). -/
def planJobs (s : State) : List (Nat × Thread × JobKind) → List Nat → List Nat
  | [], _ => []
  | e :: l, sent =>
    let i := instanceFor s (coreOf e.1 / Config.coresPerDie) e.2.2 sent
    i :: planJobs s l (i :: sent)

/-- Do all the cards of a word fit? R285 counts the word's live lanes against each thread's cp counter. -/
def jobsFit (s : State) (l : List (Nat × Thread × JobKind)) (plan : List Nat) : Bool :=
  l.all (fun e => decide (count e.2.1 .cp + l.length ≤ 63)) && decide ((heldCards s).length + l.length ≤ Config.trackerCards) &&
    plan.all fun i => decide (queuedAt s i + (plan.filter (· == i)).length ≤ Config.cardsPerInstance)

/-- A thread leaves a JOB word that it has not executed: it reads its card again when it next comes to the word (R285). -/
def leaveJob (t : Thread) (st : TState) : Thread := { t with st := st, waitOn := .nothing, held := none, buf := [] }

/-- One lane's card appended, and its word completed; under a debug stop the thread is STOPPED before the word instead (R285,
R326). -/
def appendLane (s : State) (e : (Nat × Thread × JobKind) × Nat) : State :=
  let k := e.1.1; let t := e.1.2.1
  if t.dstop then setThread s k (leaveJob t .stopped)
  else
    let (id, s) := fresh s
    let (card, s) := appendCard s
      { instance_ := e.2, asid := (gridOf s t).asid, kind := e.1.2.2, bits := (tget t.buf 0).getD 0, stamp := t.pts
        thr := some (k, id), team := some t.team }
    let o : Op := { id := id, wid := id, cnt := .cp, kind := .job card, fpc := t.pc, performed := true, visible := true }
    release (modThread s k fun t => addOp { t with buf := [] } o) k

/-- The cards of a word appended in one step, or none (R285). -/
def appendJobs (s : State) (wid : Nat) : State :=
  let l := jobWaiters s wid
  let plan := planJobs s l []
  if jobsFit s l plan then (l.zip plan).foldl appendLane s else s

/-- The thread of a lane that has read its card: it waits for room (R285). -/
def jobWaits (c : Ctx) (wid : Nat) (k : JobKind) (a : Reg) (t : Thread) (x : Nat) : Thread :=
  { waiting c t .table (.job k a) with held := some { instr := .job k a, hints := c.hints, token := wid }, buf := [(0, x)], grants := [] }

/-- One lane of JOB: its card read in the thread's view (R285, R286). -/
def jobLane (c : Ctx) (wid : Nat) (kind : JobKind) (a : Reg) (s : State) (k : Nat) (t : Thread) : LaneOut :=
  globalLane .load 128 (fun t => (readPair t a.toNat : Int)) (fun s k t va l =>
    if revokedNow t && versioned (locOf l (gridOf s t).asid va) then .faultIn (setThread s k (clearRevoked t)) 0x11 va
    else match laneRead s (laneReader s k t true) l va 128 with
      | (none, _, s) => .faultIn (setThread s k t) 0x08 va
      | (some e, r, s) =>
        if e.poison then .faultIn (setThread s k t) 0x17 va
        else
          let t := if r.excl then { (if 0 < t.tx.depth then remoteAbort t else t) with snapx := true } else t
          .wait (setThread s k (jobWaits c wid kind a { t with pts := max t.pts r.p } e.value))) s k t

/-- The lanes of a bundle that have completed the word, and whose run goes on, stand in the bundle again (R330). -/
def rejoin (core port : Nat) (ks : List Nat) (s : State) : State :=
  match ks.filter fun k => (getThread s k).any fun t => t.st == .ready && t.btag != Config.noTag with
  | [] => s
  | l => modCore s core fun c => { c with ports := tset c.ports port l }

/-- JOB (R284 to R286): every lane's card is read, and they are appended together, at once where they fit. -/
def execJob (kind : JobKind) (a : Reg) (s : State) : Host.Outcome State Fault Refusal :=
  let w : WordSpec := { opSpec [(a.toNat, 2, 2)] [] with order := true, adds := [(.cp, 1)] }
  readWord w true 128 (fun _ t => (readPair t a.toNat : Int)) (fun c ks s =>
    let (wid, s) := fresh s
    rejoin c.core c.port ks (appendJobs (laneLoop (laneStep w c (jobLane c wid kind a)) s ks) wid)) s

/-- JOB_APPEND (R285): the cards of a waiting word all fit now. -/
def execJobAppend (wid : Nat) (s : State) : Host.Outcome State Fault Refusal := .next (appendJobs s wid)

/-- Body of a card (R288). -/
def Card.body (c : Card) : Nat := c.bits / 2 ^ 512 % 2 ^ 512

/-- MODE of a COPY body (R294). -/
def copyMode (b : Nat) : Nat := b % 4
/-- ROWS. -/
def copyRows (b : Nat) : Nat := bits b 319 288
/-- ROWLEN. -/
def copyLen (b : Nat) : Nat := bits b 287 256
/-- First destination byte of a row (R295). -/
def copyDst (b r : Nat) : Int := (bits b 191 128 : Nat) + (r : Int) * sext (bits b 447 384) 64
/-- First source byte of a row. -/
def copySrc (b r : Nat) : Int := (bits b 127 64 : Nat) + (r : Int) * sext (bits b 383 320) 64

/-- The smallest range that holds every byte of a side of a copy: its first byte, and the byte after its last. -/
def copySpan (b : Nat) (f : Nat → Nat → Int) : Int × Int :=
  let x := f b 0; let y := f b (copyRows b - 1)
  (min x y, max x y + copyLen b)

/-- Does the copy's body stand? `size` is the issuing team's allocation, where there is one (R294). -/
def copyOk (b : Nat) (size : Option Nat) : Bool :=
  let m := copyMode b
  let stash := m == 1 || m == 2
  let d := copySpan b copyDst
  let a := copySpan b copySrc
  let side (isStash : Bool) (x : Int × Int) (field : Nat) : Bool :=
    if isStash then field < 2 ^ 32 && field % 4 == 0 && decide (0 ≤ x.1) && (match size with
      | some n => decide (x.2 ≤ n)
      | none => false)
    else decide (0 ≤ x.1) && decide (x.2 ≤ 2 ^ 57)
  bits b 511 448 == 0 && bits b 63 2 == 0 && decide (1 ≤ copyRows b) && decide (1 ≤ copyLen b) && (m == 3 || bits b 255 192 == 0) &&
    (m != 3 || bits b 127 64 == 0) &&
    (!stash || (copyLen b % 4 == 0 && bits b 447 384 % 4 == 0 && bits b 383 320 % 4 == 0)) &&
    side (m == 1) d (bits b 191 128) && (m == 3 || side (m == 2) a (bits b 127 64)) &&
    (copyRows b == 1 || decide ((copyLen b : Int) ≤ |sext (bits b 447 384) 64|)) &&
    (m != 0 || decide (d.2 ≤ a.1) || decide (a.2 ≤ d.1))

/-- Are four regions apart? -/
def apart : List (Nat × Nat) → Bool
  | [] => true
  | x :: l => (l.all fun y => !meets x.1 x.2 y.1 y.2 || x.2 == 0 || y.2 == 0) && apart l

/-- N of a SORT body (R297). -/
def sortN (b : Nat) : Nat := bits b 351 320
/-- NT of a SORT body. -/
def sortNT (b : Nat) : Nat := bits b 383 352
/-- The regions of a sort: KEYS, PAYS, SCR, RANGES. -/
def sortRegions (b : Nat) : List (Nat × Nat) :=
  [(bits b 63 0, 8 * sortN b), (bits b 127 64, 4 * sortN b), (bits b 191 128, 12 * sortN b), (bits b 255 192, 8 * sortNT b)]

/-- Does a sort's body stand? (R297) -/
def sortOk (b : Nat) : Bool :=
  let nb := bits b 295 288; let lo := bits b 303 296; let tb := bits b 311 304; let ts := bits b 319 312
  bits b 511 384 == 0 && bits b 287 256 == 0 && decide (1 ≤ sortN b) && decide (sortN b ≤ 2 ^ 28) && decide (ts ≤ 63) &&
    (if sortNT b = 0 then tb == 0 else decide (1 ≤ tb) && decide (tb ≤ 32)) && decide (lo ≤ 63) && decide (1 ≤ nb) && decide (nb ≤ 64) &&
    decide (lo + nb ≤ 64) && decide (ts + tb ≤ 64) && bits b 255 192 % 8 == 0 && bits b 191 128 % 128 == 0 && bits b 127 64 % 4 == 0 &&
    bits b 63 0 % 8 == 0 && apart (sortRegions b)

/-- The window of a GATHERBIND body (R299). -/
def windowOf (asid b : Nat) : Window :=
  { asid := asid, wbase := bits b 63 0, n := bits b 351 320, es := 4 * 2 ^ bits b 257 256, tbase := bits b 191 128, tn := bits b 383 352
    idx := bits b 127 64, fill := bits b 511 384 }

/-- The pages of a window, by their first addresses. -/
def windowPages (w : Window) : List Nat := (List.range ((w.n * w.es + 65535) / 65536)).map fun i => w.wbase + 65536 * i

/-- Is every page of a window mapped with the gather attribute? (R299) -/
def gatherPages (s : State) (w : Window) : Bool :=
  decide (w.wbase + w.n * w.es ≤ 2 ^ 57) && (windowPages w).all fun va =>
    match walk s w.asid va with
    | .leaf l => l.gather
    | _ => false

/-- Does a GATHERBIND body stand, but for the pages of its window? (R299) -/
def bindForm (asid b : Nat) : Bool :=
  let w := windowOf asid b
  bits b 319 258 == 0 && bits b 257 256 != 3 && bits b 255 192 == 0 && decide (1 ≤ w.n) && w.tbase % w.es == 0 && w.idx % 4 == 0 &&
    w.wbase % 65536 == 0

/-- Does a GATHERBIND body stand? (R299) -/
def bindOk (s : State) (asid b : Nat) : Bool := bindForm asid b && gatherPages s (windowOf asid b)

/-- The pages of a card's window whose walks, made for the check of a body that stands, meet a malformed or poisoned entry (R299,
R365). -/
def badPages (s : State) (c : Card) : List Nat :=
  if c.kind = .gatherbind ∧ headerOk (kindCode c.kind) c.bits ∧ bindForm c.asid (c.bits / 2 ^ 512 % 2 ^ 512) then
    (windowPages (windowOf c.asid (c.bits / 2 ^ 512 % 2 ^ 512))).filter fun va => walk s c.asid va == .bad || walk s c.asid va == .poison
  else []

/-- Does a COLL body stand? (R303) -/
def collOk (b : Nat) : Bool :=
  bits b 511 276 == 0 && decide (bits b 275 272 ≤ 1) && decide (bits b 271 268 ≤ 4) && decide (1 ≤ bits b 223 192) &&
    decide (bits b 223 192 ≤ 2 ^ 28) && bits b 191 128 == 0 && bits b 127 64 % 4 == 0 && bits b 63 0 % 4 == 0

/-- Does an OCOMP body stand? (R305) -/
def ocompOk (b : Nat) : Bool :=
  bits b 511 268 == 0 && decide (1 ≤ bits b 223 192) && decide (bits b 223 192 ≤ 2 ^ 22) && bits b 191 128 % 128 == 0 &&
    bits b 127 64 % 4 == 0 && bits b 63 0 % 128 == 0

/-- The allocation of a team, on its core or in a save area. -/
def teamSize (s : State) (k : Nat) : Option Nat :=
  match tget s.ex.teams k with
  | some tm => some tm.size
  | none => s.ex.saved.findSome? fun x => (tget x.teams k).map (·.size)

/-- Does a card stand? (R289) -/
def cardOk (s : State) (c : Card) : Bool :=
  headerOk (kindCode c.kind) c.bits && match c.kind with
    | .copy => copyOk c.body (c.team.bind (teamSize s))
    | .sort => sortOk c.body
    | .gatherbind => bindOk s c.asid c.body
    | .unbind => bits c.body 511 64 == 0
    | .coll => collOk c.body
    | .ocomp => ocompOk c.body

/-- Is a card's stream frozen? (R292) -/
def streamFrozen (s : State) (c : Card) : Bool :=
  s.en.cards.any fun e => e.2.instance_ == c.instance_ && e.2.asid == c.asid && e.2.frozen.isSome

/-- Has the copy a stash side whose team is not on a core? -/
def teamAway (s : State) (c : Card) : Bool :=
  (match c.kind with
    | .copy => copyMode c.body == 1 || copyMode c.body == 2
    | _ => false) && match c.team with
    | some k => (tget s.ex.teams k).isNone
    | none => false

/-- JOB_START (R224, R289, R292): a card whose dependences are met is checked and started. -/
def execJobStart (card : Nat) (s : State) : Host.Outcome State Fault Refusal :=
  match tget s.en.cards card with
  | none => .next s
  | some c =>
    if c.started ∨ c.finished ∨ c.deps ≠ [] ∨ streamFrozen s c then .next s
    else if c.status = 3 then .next (modCard s card fun c => { c with started := true, worked := true })
    else if cardOk s c then .next (modCard s card fun c => { c with started := true })
    else .next (freezeCard ((badPages s c).foldl (fun s va => noteBad s c.asid va) s) card 1)

/-- A card that is at work: started, not frozen, with accesses still to make. -/
def atWork (s : State) (card : Nat) (k : JobKind → Bool) : Option Card :=
  match tget s.en.cards card with
  | some c => if c.started && c.frozen.isNone && !c.worked && !c.finished && k c.kind then some c else none
  | none => none

/-- The die whose merge table an instance's accesses use; that of die 0 for the units of the base die. -/
def instanceDie (i : Nat) : Nat := if i < 128 then i / 32 else 0

/-- Does an access lie within a footprint of the card? (R290) -/
def inFootprint (c : Card) (va n : Nat) (write : Bool) : Bool :=
  (footprints c.bits).any fun f => (!write || f.2.2) && decide (f.1 ≤ va) && decide (va + n ≤ f.1 + f.2.1)

/-- The part of a card's buffer that one of its pieces keeps. -/
def pieceBuf (buf : Tab Nat) (tag : Nat) : Tab Nat :=
  (buf.filter fun e => decide (tag ≤ e.1) && decide (e.1 < tag + 2 ^ 80)).map fun e => (e.1 - tag, e.2)

/-- A card's buffer with what one of its pieces keeps. -/
def keepBuf (buf : Tab Nat) (tag : Nat) (mine : Tab Nat) : Tab Nat := mine.foldl (fun m e => tset m (tag + e.1) e.2) buf

/-- Through what a card's accesses are translated: its die's merge table, and the page that its instance holds (R368). -/
def cardVia (s : State) (c : Card) : Via := { die := instanceDie c.instance_, page := tget s.en.pages c.instance_ }

/-- A card as it reads for one of its pieces. -/
def cardReader (s : State) (c : Card) (tag : Nat) : Reader := { via := cardVia s c, asid := c.asid, p := c.pts, buf := pieceBuf c.buf tag }

/-- An instance takes the translation of the page that it works on; that of a gather page it walks for at each read (R368, R403). -/
def keepPage (s : State) (c : Card) (a : Acc) (va : Nat) : State :=
  match walkNow s (cardVia s c) a c.asid va with
  | .leaf l => setPage (if l.gather then noteWalk s (cardVia s c) c.asid va else s) c.instance_ { asid := c.asid, vpn := va / 65536, leaf := l }
  | _ => s

/-- May a job read n bytes within its footprints? Of a window not the address is checked, but the index and table bytes that the read
takes, through as many windows as it goes (R290, R300). -/
def mayRead (c : Card) : Nat → State → Reader → Nat → Nat → Bool
  | 0, _, _, va, n => inFootprint c va n false
  | k + 1, s, r, va, n => match windowFor s r.via r.asid va with
    | some w =>
      let i0 := (va - w.wbase) / w.es
      (List.range ((va + n - 1 - w.wbase) / w.es + 1 - i0)).all fun j =>
        let i := i0 + j
        mayRead c k s r (w.idx + 4 * i) 4 && match readThrough k s r (w.idx + 4 * i) 4 with
          | (some a, _, _) => a.poison || decide (w.n ≤ i) || decide (w.tn ≤ a.value) || mayRead c k s r (w.tbase + a.value * w.es) w.es
          | _ => true
    | none => inFootprint c va n false || ((windowAt s r.asid va).isSome && match walk s r.asid va with
      | .leaf _ => false
      | _ => true)

/-- Is a job's read one that its footprints allow (R290)? -/
def readAllowed (s : State) (c : Card) (r : Reader) (va n : Nat) : Bool := mayRead c (Config.windows + 1) s r va n

/-- What a card's read has performed, kept; the job's pts and F follow (R219, R224). -/
def cardTook (s : State) (card tag : Nat) (r : Reader) : State :=
  modCard s card fun c =>
    if pieceBuf c.buf tag = r.buf then c else { c with buf := keepBuf c.buf tag r.buf, pts := max c.pts r.p, fin := max c.fin r.p }

/-- One read of a job within a line (R224, R290, R292): its bytes, or none where something of it is lacking, which the job goes
after while the rest of it proceeds. -/
def cardRead (card tag : Nat) (s : State) (va n : Nat) : Option (List Byte) × State :=
  match tget s.en.cards card with
  | none => (none, s)
  | some c =>
    let r := cardReader s c tag
    if c.frozen.isSome then (none, s)
    else if !readAllowed s c r va n then (none, freezeCard s card 2)
    else match agentRead s r va n with
      | (some a, r, s) =>
        let s := cardTook (keepPage s c .engineRead va) card tag r
        if a.poison then (none, freezeCard s card 4) else (some (natLe n a.value), s)
      | (none, r, s) =>
        let s := cardTook s card tag r
        if r.denied.isSome then (none, freezeCard s card 3)
        else (none, pursue s r 6 (recordSrc c.instance_) (.card card) (.card card) tag)

/-- Reads of a job over lines: every one that can be made is (R292); the bytes once all are at hand. -/
def cardReads (card tag : Nat) : List (Nat × Nat) → State → Option (List Byte) × State
  | [], s => (some [], s)
  | x :: l, s =>
    let (v, s) := cardRead card tag s x.1 x.2
    let (v', s) := cardReads card tag l s
    (match v, v' with
      | some v, some v' => some (v ++ v')
      | _, _ => none, s)

/-- A stretch of n bytes read by a job. -/
def cardReadSpan (s : State) (card tag va n : Nat) : Option (List Byte) × State := cardReads card tag (spanLines (n + 1) va n) s

/-- Where a card's buffer notes that a write has been made. -/
def wroteKey (va : Nat) : Nat := 2 ^ 66 + va

/-- One write of a job within a line, where it has not been made: it is checked against the footprints, and waits where its page is
absent (R219, R224, R290, R292); `clears` for a copy's piece, which clears the poison of a line that it covers (R387). -/
def cardWrite (card : Nat) (clears : Bool) (s : State) (x : Nat × List Byte) : State :=
  match tget s.en.cards card with
  | none => s
  | some c =>
    let made (s : State) (ts : Nat) : State :=
      modCard s card fun c => { c with pts := max c.pts ts, fin := max c.fin ts, buf := tset c.buf (wroteKey x.1) 1 }
    if c.frozen.isSome ∨ (tget c.buf (wroteKey x.1)).isSome then s
    else if !inFootprint c x.1 x.2.length true then freezeCard s card 2
    else match agentWrite s (cardVia s c) c.pts c.asid x.1 x.2 clears with
      | .later => s
      | .ok ts s => made (keepPage s c .engineWrite x.1) ts
      | .absent => agentMiss s (instanceDie c.instance_) c.asid x.1 7 (recordSrc c.instance_) (.card card x.1)
      | .denied s => freezeCard s card 3
      | .poison s => freezeCard s card 4
      | .away pkg asid =>
        modCard (sendRequest s (writeFrame pkg asid x.1 c.pts c.asid x.2 clears) (.card card)) card fun c => { c with buf := tset c.buf (wroteKey x.1) 1 }

/-- The lines that a job's writes fall into. -/
def writeLines (l : List (Nat × List Byte)) : List (Nat × List Byte) :=
  l.flatMap fun x => (spanLines (x.2.length + 1) x.1 x.2.length).map fun y => (y.1, (x.2.drop (y.1 - x.1)).take y.2)

/-- Bytes written by a job over stretches, every line that can be; the first result says whether all are (R292). -/
def cardWriteSpans (s : State) (card : Nat) (l : List (Nat × List Byte)) (clears : Bool := false) : Bool × State :=
  let lines := writeLines l
  let s := lines.foldl (cardWrite card clears) s
  ((tget s.en.cards card).any fun c => c.frozen.isNone && lines.all fun x => (tget c.buf (wroteKey x.1)).isSome, s)

/-- A job whose accesses have all been made. -/
def cardWorked (s : State) (card status : Nat) : State := modCard s card fun c => { c with worked := true, status := status }

/-- Bytes of the piece that starts at `dst` in a row whose first byte is `ds` (R295). -/
def pieceLen (b ds dst : Nat) : Nat := min (128 - dst % 128) (ds + copyLen b - dst)

/-- Is (row, dst) a piece of the copy that is still to be made? -/
def isPiece (c : Card) (row dst : Nat) : Bool :=
  let b := c.body; let ds := (copyDst b row).toNat
  decide (row < copyRows b) && decide (ds ≤ dst) && decide (dst < ds + copyLen b) && (dst == ds || dst % 128 == 0) &&
    !c.pieces.contains (row, dst)

/-- The tag of a copy piece in its card's buffer. -/
def pieceTag (row dst : Nat) : Nat := (row * 2 ^ 57 + dst + 1) * 2 ^ 80

/-- Where a card's buffer keeps the bytes that a piece has read from the stash. -/
def pieceKey (row dst : Nat) : Nat := pieceTag row dst + 2 ^ 79

/-- The bytes that a piece receives; those that it has read from the stash it does not read again (R295, R296). -/
def pieceBytes (s : State) (card : Nat) (c : Card) (row dst : Nat) : Option (List Byte) × State :=
  let b := c.body; let ds := (copyDst b row).toNat; let j := dst - ds; let n := pieceLen b ds dst
  let src := (copySrc b row).toNat + j
  if copyMode b = 3 then (some ((List.range n).map fun i => BitVec.ofNat 8 (bits b 255 192 / 2 ^ (8 * ((j + i) % 8)))), s)
  else if copyMode b = 2 then
    match tget c.buf (pieceKey row dst), c.team.bind (tget s.ex.teams) with
    | some v, _ => (some (natLe n v), s)
    | none, none => (none, s)
    | none, some tm =>
      if stashPoison tm src n then (none, freezeCard s card 4)
      else (some (natLe n (stashRead tm src n)),
        modCard s card fun c => { c with buf := tset c.buf (pieceKey row dst) (stashRead tm src n) })
  else cardReadSpan s card (pieceTag row dst) src n

/-- Bytes of pieces of a copy. -/
def pieceSum (b : Nat) (l : List (Nat × Nat)) : Nat := l.foldl (fun n p => n + pieceLen b (copyDst b p.1).toNat p.2) 0

/-- A piece performed; the last one ends the job's work. -/
def pieceDone (s : State) (card row dst : Nat) : State :=
  modCard s card fun c =>
    let l := (row, dst) :: c.pieces
    let tag := pieceTag row dst
    { c with pieces := l, ahead := c.ahead.filter (· != (row, dst)), worked := c.worked || pieceSum c.body l == copyRows c.body * copyLen c.body
             buf := c.buf.filter fun e => !(decide (tag ≤ e.1) && decide (e.1 < tag + 2 ^ 80)) && e.1 != wroteKey dst }

/-- A piece that is read and waits to be written. -/
def pieceAhead (s : State) (card row dst : Nat) : State :=
  modCard s card fun c => if c.ahead.contains (row, dst) then c else { c with ahead := (row, dst) :: c.ahead }

/-- Would bytes written to a team's stash change the phase of a barrier word on which threads wait, or may come to wait? (R261) -/
def changesPhase (tm : Team) (o : Nat) (bs : List Byte) : Bool :=
  let new := stashPut tm o bs
  (wordsOf o bs.length).any fun w => bit (stashRead tm w 4) 31 != bit (stashRead new w 4) 31

/-- A stash piece of a copy written at the issuing team's stash, once the team is on a core (R296): a piece that changes a phase raises
the hidden stamp to the job's F, which stands once every piece has been read, so it waits for that (R261); bytes that are a tile's are
left (R348). -/
def stashPiece (s : State) (card k row dst : Nat) (bs : List Byte) : State :=
  let tm := getTeam s k
  let s := pieceAhead s card row dst
  match tget s.en.cards card with
  | none => s
  | some c =>
    if teamAway s c then s
    else if inTiles s tm dst bs.length then pieceDone s card row dst
    else if changesPhase tm dst bs && pieceSum c.body (c.ahead ++ c.pieces) != copyRows c.body * copyLen c.body then s
    else pieceDone (stashWrite s k dst bs (max c.stamp c.fin)) card row dst

/-- COPY_PIECE (R295, R296, R348): while the team's core is pre-empted its global side goes on. -/
def execCopyPiece (card row dst : Nat) (s : State) : Host.Outcome State Fault Refusal :=
  match atWork s card fun k => k == .copy with
  | none => .next s
  | some c =>
    if !isPiece c row dst then .next s
    else match pieceBytes s card c row dst with
      | (none, s) => .next s
      | (some bs, s) =>
        if copyMode c.body = 1 then
          match c.team with
          | none => .next s
          | some k => .next (stashPiece s card k row dst bs)
        else match cardWriteSpans s card [(dst, bs)] true with
          | (false, s) => .next s
          | (true, s) => .next (pieceDone s card row dst)

/-- The values of n-byte elements in bytes. -/
def elemsOf (n : Nat) : Nat → List Byte → List Nat
  | 0, _ => []
  | k + 1, bs => leNat (bs.take n) :: elemsOf n k (bs.drop n)

/-- An element put into an ordered list, after those that are not greater. -/
def insertPair (f : Nat → Nat) (x : Nat × Nat) : List (Nat × Nat) → List (Nat × Nat)
  | [] => [x]
  | y :: l => if f x.1 < f y.1 then x :: y :: l else y :: insertPair f x l

/-- A stable sort of key and payload pairs by f of the key (R298). -/
def stableSort (f : Nat → Nat) (l : List (Nat × Nat)) : List (Nat × Nat) := l.foldl (fun acc x => insertPair f x acc) []

/-- The sort's field of a key (R298). -/
def sortField (b k : Nat) : Nat := k / 2 ^ bits b 303 296 % 2 ^ bits b 295 288
/-- The tile of a key (R298). -/
def sortTile (b k : Nat) : Nat := k / 2 ^ bits b 319 312 % 2 ^ bits b 311 304

/-- The range word of a tile (R298). -/
def rangeWord (b : Nat) (keys : List Nat) (t : Nat) : Nat :=
  (keys.filter fun k => decide (sortTile b k < t)).length + 2 ^ 32 * (keys.filter fun k => decide (sortTile b k ≤ t)).length

/-- What a sort writes: keys, payloads, scratch and ranges (R298). -/
def sortWrites (card b : Nat) (pairs : List (Nat × Nat)) : List (Nat × List Byte) :=
  let keys := pairs.map (·.1)
  [(bits b 63 0, keys.flatMap (natLe 8)), (bits b 127 64, (pairs.map (·.2)).flatMap (natLe 4)),
    (bits b 191 128, (List.range (12 * sortN b)).map (Config.sortScratch card)),
    (bits b 255 192, (List.range (sortNT b)).flatMap fun t => natLe 8 (rangeWord b keys t))]

/-- SORT_JOB (R298): keys and payloads are read, every line that can be, and once all are at hand the result is written. -/
def execSortJob (card : Nat) (s : State) : Host.Outcome State Fault Refusal :=
  match atWork s card fun k => k == .sort with
  | none => .next s
  | some c =>
    let b := c.body; let n := sortN b
    let (ks, s) := cardReadSpan s card 0 (bits b 63 0) (8 * n)
    let (ps, s) := cardReadSpan s card 0 (bits b 127 64) (4 * n)
    match ks, ps with
    | some ks, some ps =>
      let pairs := stableSort (sortField b) ((elemsOf 8 n ks).zip (elemsOf 4 n ps))
      match cardWriteSpans s card (sortWrites card b pairs) with
      | (true, s) => .next (cardWorked s card 0)
      | (false, s) => .next s
    | _, _ => .next s

/-- Do two windows of one address space overlap? -/
def windowsMeet (x y : Window) : Bool := x.asid == y.asid && meets x.wbase (x.n * x.es) y.wbase (y.n * y.es)

/-- GATHERBIND_JOB (R299). -/
def execGatherbindJob (card : Nat) (s : State) : Host.Outcome State Fault Refusal :=
  match atWork s card fun k => k == .gatherbind with
  | none => .next s
  | some c =>
    let w := windowOf c.asid c.body
    if Config.windows ≤ s.en.windows.length then .next (cardWorked s card 6)
    else if s.en.windows.any (windowsMeet w) then .next (cardWorked s card 7)
    else .next (cardWorked { s with en := { s.en with windows := s.en.windows ++ [w] } } card 0)

/-- Does an address lie in a window? -/
def Window.has (w : Window) (va : Nat) : Bool := decide (w.wbase ≤ va) && decide (va < w.wbase + w.n * w.es)

/-- Has a thread a window read in flight: a load, or the card or the entry that its word reads? -/
def threadInWindow (s : State) (w : Window) (t : Thread) : Bool :=
  t.ops.any (fun o => !o.complete && match o.loc with
    | .window asid va => asid == w.asid && w.has va
    | _ => false) || ((gridOf s t).asid == w.asid && t.buf.any fun e => decide (256 ≤ e.1))

/-- Is a reading of a tile's elements under way, some of which lie in a window? -/
def tileInWindow (s : State) (w : Window) (tm : Team) (x : Tile) : Bool :=
  (((tget s.ex.grids tm.grid).map (·.asid)) == some w.asid) && (x.st == .filling || x.waiters != []) &&
    (List.range (tileCount x.desc)).any fun n => w.has (elemAddr x.desc (elemCoords x.desc n)).toNat

/-- The stretches of memory that a card reads: its first address and its bytes. -/
def sourceSpans (c : Card) : List (Nat × Nat) :=
  let b := c.body
  match c.kind with
  | .copy => if copyMode b ≤ 1 then [((copySpan b copySrc).1.toNat, ((copySpan b copySrc).2 - (copySpan b copySrc).1).toNat)] else []
  | .sort => [(bits b 63 0, 8 * sortN b), (bits b 127 64, 4 * sortN b)]
  | .coll => [(bits b 63 0, 4 * bits b 223 192)]
  | .ocomp => [(bits b 63 0, 1024 * bits b 223 192), (bits b 127 64, 4 * bits b 223 192)]
  | _ => []

/-- Has a card a window read in flight: one that waits in a merge table, or for another package? -/
def cardInWindow (s : State) (w : Window) (e : Nat × Card) : Bool :=
  e.2.asid == w.asid && !e.2.worked && (sourceSpans e.2).any (fun x => meets x.1 x.2 w.wbase (w.n * w.es)) &&
    (s.tr.merges.any (fun m => m.2.waiters.any fun x => match x with
      | .card k _ => k == e.1
      | _ => false) || (ownRequests s (.card e.1)).any fun r => r.slot.isSome)

/-- Is a window read of a window in flight? (R302) -/
def windowBusy (s : State) (w : Window) : Bool :=
  s.ex.threads.any (fun e => threadInWindow s w e.2) || s.ex.teams.any (fun e => e.2.tiles.any fun x => tileInWindow s w e.2 x.2) ||
    s.en.cards.any (cardInWindow s w)

/-- UNBIND_JOB (R302). -/
def execUnbindJob (card : Nat) (s : State) : Host.Outcome State Fault Refusal :=
  match atWork s card fun k => k == .unbind with
  | none => .next s
  | some c => match s.en.windows.find? fun w => w.asid == c.asid && w.wbase == bits c.body 63 0 with
    | none => .next (cardWorked s card 4)
    | some w =>
      if windowBusy s w then .next s
      else .next (cardWorked { s with en := { s.en with windows := s.en.windows.filter (· != w) } } card 0)

/-- What a member presents to a collective: its rank, what must agree, and its operand. -/
structure Present where
  rank : Nat
  head : List Byte
  data : List Byte
  deriving DecidableEq, Repr

/-- SUBOP of a collective step (notes/assumptions/31.md). -/
def collSub (k : JobKind) : Nat := match k with
  | .ocomp => 1
  | _ => 0

/-- GID of a collective card. -/
def collGid (b : Nat) : Nat := bits b 267 256
/-- SEQ of a collective card. -/
def collSeq (b : Nat) : Nat := bits b 255 224
/-- OP, TYPE and COUNT of a COLL card; NT of an OCOMP card. -/
def collFields (k : JobKind) (b : Nat) : List Byte :=
  match k with
  | .ocomp => natLe 8 (bits b 223 192)
  | _ => natLe 4 (bits b 275 268) ++ natLe 4 (bits b 223 192)

/-- The members of a card's group. -/
def collMembers (s : State) (b : Nat) : List Nat := (tget s.en.groups (collGid b)).getD []

/-- The group as a step frame names it: the set of its packages, with its length in bytes. -/
def groupBytes (ms : List Nat) : List Byte :=
  let n := ms.foldl (fun n m => max n (m / 8 + 1)) 0
  natLe 2 n ++ natLe n (ms.foldl (fun x m => x + 2 ^ m) 0)

/-- What must agree at every member: OP, TYPE and COUNT, or NT, and the group itself (R304, R305, R315). -/
def collHead (s : State) (k : JobKind) (b : Nat) : List Byte := collFields k b ++ groupBytes (collMembers s b)

/-- Bytes of the operand that a head names. -/
def headBytes (k : JobKind) (h : List Byte) : Nat := match k with
  | .ocomp => 1028 * leNat (h.take 8)
  | _ => 4 * leNat ((h.drop 4).take 4)

/-- Bytes of the head in a step frame. -/
def headLen (f : Frame) : Nat := 10 + leNat ((f.data.drop 12).take 2)

/-- Does a step frame belong to a card? -/
def isStep (k : JobKind) (b : Nat) (f : Frame) : Bool :=
  f.subop == collSub k && f.asid == collGid b && f.data.take 4 == natLe 4 (collSeq b)

/-- The operand that the step frames of one member carry, from an offset on: each stands at its ADDR (R310). -/
def joinFrames (fs : List Frame) : Nat → Nat → List Byte
  | 0, _ => []
  | n + 1, at_ => match fs.find? fun f => f.addr == at_ with
    | some f =>
      let x := f.data.drop (4 + headLen f)
      if x.isEmpty then [] else x ++ joinFrames fs n (at_ + x.length)
    | none => []

/-- What another member has presented to a card's collective, once it has come whole. -/
def presentedBy (s : State) (c : Card) (m rank : Nat) : Option Present :=
  let fs := s.en.inbox.filter fun f => f.spkg == m && isStep c.kind c.body f
  match fs with
  | [] => none
  | f :: _ =>
    let h := (f.data.drop 4).take (headLen f)
    let v := joinFrames fs fs.length 0
    if v.length = headBytes c.kind h then some { rank := rank, head := h, data := v } else none

/-- What the members of a card's collective have presented, by rank (R303). -/
def presented (s : State) (c : Card) (own : List Byte) : List Present :=
  ((collMembers s c.body).zipIdx).filterMap fun m =>
    if m.1 = s.fa.pkg then some { rank := m.2, head := collHead s c.kind c.body, data := own }
    else presentedBy s c m.1 m.2

/-- The operand that a card presents: the bytes at SRCA, after the order keys of an OCOMP card. -/
def collOperand (s : State) (card : Nat) (c : Card) : Option (List Byte) × State :=
  let b := c.body; let n := bits b 223 192
  match c.kind with
  | .ocomp =>
    let (ks, s) := cardReadSpan s card 0 (bits b 127 64) (4 * n)
    let (v, s) := cardReadSpan s card 0 (bits b 63 0) (1024 * n)
    (match ks, v with
      | some ks, some v => some (ks ++ v)
      | _, _ => none, s)
  | _ => cardReadSpan s card 0 (bits b 63 0) (4 * n)

/-- Bytes of a card's operand. -/
def collBytes (c : Card) : Nat := match c.kind with
  | .ocomp => 1028 * bits c.body 223 192
  | _ => 4 * bits c.body 223 192

/-- The stretches of an operand that go into one step frame each, of at most 1984 bytes of data (R310). -/
def chunks (n : Nat) : Nat → Nat → List Byte → List (Nat × List Byte)
  | 0, _, _ => []
  | fuel + 1, at_, v => if v.isEmpty then [] else (at_, v.take n) :: chunks n fuel (at_ + n) (v.drop n)

/-- What a step frame of a card starts with: SEQ, and what must agree at every member. -/
def stepHead (s : State) (c : Card) : List Byte := natLe 4 (collSeq c.body) ++ collHead s c.kind c.body

/-- A step frame of a card sent to a package, as a request with a TAG of its own (R310, R317). -/
def sendStep (s : State) (card : Nat) (c : Card) (pkg at_ : Nat) (v : List Byte) : State :=
  sendRequest s { dpkg := pkg, spkg := 0, cls := 0, stamp := c.pts, addr := at_, asid := collGid c.body, tag := 0, op := 7
                  subop := collSub c.kind, data := stepHead s c ++ v } (.step card)

/-- The card presents its operand: the unit keeps it, and sends its step frames to every other member. -/
def present (s : State) (card : Nat) (c : Card) (v : List Byte) : State :=
  let s := modCard s card fun c => { c with buf := [(1, leNat v)] }
  (collMembers s c.body).foldl (fun s m =>
    if m = s.fa.pkg then s
    else (chunks (1984 - (stepHead s c).length) v.length 0 v).foldl (fun s x => sendStep s card c m x.1 x.2) s) s

/-- The packages that have presented a card of equal GID and SEQ, and that define the group otherwise: one that is no member here, or
one whose frames name other members (R315). -/
def strangers (s : State) (c : Card) : List Nat :=
  ((s.en.inbox.filter fun f => isStep c.kind c.body f &&
    (!(collMembers s c.body).contains f.spkg || ((f.data.drop 4).take (headLen f)).drop 8 != groupBytes (collMembers s c.body))).map (·.spkg)).dedup

/-- One combination of two elements (R120, R304). -/
def collCombine (int : Bool) (op x y : Nat) : Nat :=
  if int then
    if op = 0 then (x + y) % 2 ^ 32
    else if op = 1 then (if sext y 32 < sext x 32 then y else x)
    else (if sext x 32 < sext y 32 then y else x)
  else if op = 0 then faddCode .fp32 .rne false x y
  else fminmax .fp32 (op == 2) false x y

/-- Elements combined in the order in which they arrived, which is free (R3, R304). -/
def combineAll (gid seq : Nat) (f : Nat → Nat → Nat) : Nat → List Nat → Nat
  | 0, l => l.headD 0
  | fuel + 1, l => match l with
    | [] => 0
    | [x] => x
    | _ :: _ =>
      let i := Config.collectiveOrder gid seq (2 * fuel) % l.length
      let rest := l.eraseIdx i
      let j := Config.collectiveOrder gid seq (2 * fuel + 1) % rest.length
      combineAll gid seq f fuel (f (l[i]?.getD 0) (rest[j]?.getD 0) :: rest.eraseIdx j)

/-- The combination of one element of members; an FP32 result is canonical even where it is one operand alone (R24, R304). -/
def combined (b : Nat) (l : List Nat) : Nat :=
  let int := bits b 275 272 == 1
  let x := combineAll (collGid b) (collSeq b) (collCombine int (bits b 271 268)) l.length l
  if int then x else (canon32 (BitVec.ofNat 32 x)).toNat

/-- Element j of what a member presents. -/
def Present.elem (p : Present) (j : Nat) : Nat := leNat ((p.data.drop (4 * j)).take 4)

/-- What a COLL card writes where every member is present and agrees (R304). -/
def collResult (b : Nat) (ps : List Present) : List (Nat × List Byte) :=
  let n := bits b 223 192; let op := bits b 271 268; let dst := bits b 127 64
  if op ≤ 2 then
    [(dst, (List.range n).flatMap fun j => natLe 4 (combined b (ps.map (·.elem j))))]
  else if op = 3 then ps.map fun p => (dst + 4 * n * p.rank, p.data)
  else ((ps.find? fun p => p.rank == 0).map fun p => (dst, p.data)).toList

/-- One element of what a card may have written where a member is lost: its combination `f` over some of the members that are
present, or its old value where it is over none; which members is free (R304, R305; notes/assumptions/13.md). -/
def lostElem (card dst i : Nat) (ps : List Present) (f : List Present → Nat) : Option (Nat × List Byte) :=
  let l := ps.filter fun p => bit (Config.lostMembers card i) p.rank
  if l.isEmpty then none else some (dst + 4 * i, natLe 4 (f l))

/-- What a COLL card may have written where a member is lost: each element its old value, or a combination over some of the
members that are present (R304). -/
def lostResult (card b : Nat) (ps : List Present) : List (Nat × List Byte) :=
  let n := bits b 223 192; let op := bits b 271 268; let dst := bits b 127 64
  if op ≤ 2 then (List.range n).filterMap fun j => lostElem card dst j ps fun l => combined b (l.map (·.elem j))
  else if op = 3 then ps.flatMap fun p => (List.range n).filterMap fun j => lostElem card dst (n * p.rank + j) [p] fun _ => p.elem j
  else (ps.filter fun p => p.rank == 0).flatMap fun p => (List.range n).filterMap fun j => lostElem card dst j [p] fun _ => p.elem j

/-- A member that is wanting is lost: by a link failure or a freeze of its peer (R304). -/
def memberLost (s : State) (b : Nat) (ps : List Present) : Bool :=
  ((collMembers s b).zipIdx).any fun m => !(ps.any fun p => p.rank == m.2) && ((getPeer s m.1).lost || (getPeer s m.1).frozen)

/-- The step frames of a card's collective leave the unit. -/
def dropSteps (s : State) (c : Card) : State := { s with en := { s.en with inbox := s.en.inbox.filter fun f => !isStep c.kind c.body f } }

/-- A collective's card that has its operand: it ends once every member is present, or one is lost; a card that has begun to write
what a loss leaves ends so (R303 to R305). One that another package's card shows to be of another group ends at once, and tells the
packages that are no members here (R315). -/
def collEnd (s : State) (card : Nat) (c : Card) (own : Nat) (result lost : List Present → List (Nat × List Byte)) : State :=
  let ps := presented s c (natLe (collBytes c) own)
  if c.status = 0 ∧ strangers s c ≠ [] then
    let others := (strangers s c).filter fun m => !(collMembers s c.body).contains m
    cardWorked (dropSteps (others.foldl (fun s m => sendStep s card c m 0 []) s) c) card 8
  else if c.status = 0 ∧ ps.length = (collMembers s c.body).length ∧ ps ≠ [] then
    if ps.any fun p => p.head != collHead s c.kind c.body then cardWorked (dropSteps s c) card 8
    else match cardWriteSpans s card (result ps) with
      | (false, s) => s
      | (true, s) => cardWorked (dropSteps s c) card 0
  else if c.status = 5 ∨ memberLost s c.body ps then
    match cardWriteSpans (modCard s card fun c => { c with status := 5 }) card (lost ps) with
    | (false, s) => s
    | (true, s) => cardWorked (dropSteps s c) card 5
  else s

/-- A collective's card at work: it presents its operand, then waits for the other members. -/
def collWork (s : State) (card : Nat) (c : Card) (result lost : List Present → List (Nat × List Byte)) : State :=
  match tget c.buf 1 with
  | some own => collEnd s card c own result lost
  | none => match collOperand s card c with
    | (none, s) => s
    | (some v, s) => present s card c v

/-- COLL_JOB (R303, R304). -/
def execCollJob (card : Nat) (s : State) : Host.Outcome State Fault Refusal :=
  match atWork s card fun k => k == .coll with
  | none => .next s
  | some c => .next (collWork s card c (collResult c.body) (lostResult card c.body))

/-- A pixel: R, G, B and T, as FP32 codes (R305). -/
def pixelOf (v : List Byte) (a : Nat) : List Nat := elemsOf 4 4 ((v.drop a).take 16)

/-- The over operator of R305 on one pixel: the front, and what lies behind it. -/
def overPixel : List Nat → List (List Nat) → List Nat
  | acc, [] => acc
  | acc, m :: ms =>
    let v (l : List Nat) (i : Nat) : Ext := value .fp32 (l[i]?.getD 0)
    let tr := v acc 3
    if tr = .nan ∨ tr.lt (.fin false 1 (-13)) then acc
    else
      let ch (i : Nat) : Nat := round .fp32 .rne false (sumExt false [v acc i, tr.mul (v m i)])
      overPixel [ch 0, ch 1, ch 2, round .fp32 .rne false (tr.mul (v m 3))] ms

/-- A member put in the order of a tile: by key, then by rank (R305). -/
def insertMember (t : Nat) (x : Present) : List Present → List Present
  | [] => [x]
  | y :: l =>
    if x.elem t < y.elem t ∨ (x.elem t = y.elem t ∧ x.rank < y.rank) then x :: y :: l else y :: insertMember t x l

/-- A composited pixel of a tile, of members in the tile's order; a NaN of it is canonical (R24, R305). -/
def ocompPixel (n t i : Nat) (order : List Present) : List Nat :=
  match order.map fun p => pixelOf p.data (4 * n + 1024 * t + 16 * i) with
  | [] => []
  | x :: l => (overPixel x l).map fun v => (canon32 (BitVec.ofNat 32 v)).toNat

/-- Members in the order of a tile (R305). -/
def tileOrder (t : Nat) (ps : List Present) : List Present := ps.foldl (fun l p => insertMember t p l) []

/-- The result image of an OCOMP collective (R305). -/
def ocompImage (n : Nat) (ps : List Present) : List Byte :=
  (List.range n).flatMap fun t =>
    let order := tileOrder t ps
    (List.range 64).flatMap fun i => (ocompPixel n t i order).flatMap (natLe 4)

/-- What an OCOMP card may have written where a member is lost, by the elements of its image: a pixel's channels (R304, R305). -/
def ocompLost (card n dst : Nat) (ps : List Present) : List (Nat × List Byte) :=
  (List.range (256 * n)).filterMap fun e =>
    lostElem card dst e ps fun l => (ocompPixel n (e / 256) (e % 256 / 4) (tileOrder (e / 256) l))[e % 4]?.getD 0

/-- OCOMP_JOB (R305). -/
def execOcompJob (card : Nat) (s : State) : Host.Outcome State Fault Refusal :=
  match atWork s card fun k => k == .ocomp with
  | none => .next s
  | some c =>
    let b := c.body
    let n := bits b 223 192; let dst := bits b 191 128
    let writes (f : List Present → List (Nat × List Byte)) (ps : List Present) := if dst = 0 then [] else f ps
    .next (collWork s card c (writes fun ps => [(dst, ocompImage n ps)]) (writes (ocompLost card n dst)))

/-- F of a card, which is J where it has made no access (R224, R293). -/
def Card.finish (c : Card) : Nat := max c.stamp c.fin

/-- A job completes for its issuer and for the cards that depend on it (R224, R225, R291). -/
def finishCard (s : State) (card : Nat) (c : Card) : State :=
  let F := c.finish
  let fin (t : Thread) (id : Nat) : Thread := retire (modOp t id fun o => { o with finish := F, complete := true })
  let s := match c.thr with
    | some (k, id) =>
      if ((getThread s k).bind fun t => findOp t id).isSome then recheck (modThread s k fun t => fin t id) k
      else mapThreads s fun t => if (findOp t id).isSome then fin t id else t
    | none => s
  let s := match c.node with
    | some (d, n) => { s with qu := { s.qu with nodes := tmod s.qu.nodes (d * 4096 + n) fun x => { x with finished := some F } } }
    | none => s
  { s with en := { s.en with cards := s.en.cards.map fun e =>
      if e.1 = card then (e.1, { e.2 with finished := true })
      else (e.1, if e.2.deps.contains card then { e.2 with deps := e.2.deps.filter (· != card), pts := max e.2.pts F } else e.2) } }

/-- A card leaves the tables. -/
def dropCard (s : State) (card : Nat) : State := { s with en := { s.en with cards := tdel s.en.cards card } }

/-- The completion word of a card that has completed, where one is named: it is written once every write of the job is visible as
under FENCE.SYS, stamped above F (R225, R291). On another package it is asked for, and the card waits for the answer. -/
def completionWord (s : State) (card : Nat) (c : Card) : State :=
  let va := bits c.bits 120 64
  let bs := natLe 8 (bits c.bits 63 32 + 2 ^ 32 * c.status)
  if va = 0 then dropCard s card
  else if ownRequests s (.card card) ≠ [] ∨ ownRequests s (.completion card) ≠ [] then s
  else match agentWrite (settleAll s) (cardVia s c) (c.finish + 1) c.asid va bs with
    | .ok _ s => dropCard s card
    | .later => s
    | .absent => agentMiss s (instanceDie c.instance_) c.asid va 7 (recordSrc c.instance_) (.completion card va)
    | .denied s => freezeCard s card 3
    | .poison s => freezeCard s card 4
    | .away pkg asid => sendRequest s (writeFrame pkg asid va (c.finish + 1) c.asid bs) (.completion card)

/-- JOB_COMPLETION (R291): every access of the job is performed, and every write of it accepted; then the completion word is
written. -/
def execJobCompletion (card : Nat) (s : State) : Host.Outcome State Fault Refusal :=
  match tget s.en.cards card with
  | none => .next s
  | some c =>
    if c.frozen.isSome ∨ c.worked = false ∨ (ownRequests s (.card card)).any (fun r => !r.accepted) then .next s
    else .next (completionWord (if c.finished then s else finishCard s card c) card c)

end Sys2Proof.Machine
end

