-- ==== Sys2Proof/Machine/Graph.lean ====
section
/-! DEFINITION. Graph.lean: task graphs and their walkers (R358 to R361), and the completion of grids (R357). -/

namespace Sys2Proof.Machine

/-- KIND of a node (R359). -/
def nodeKind (x : Nat) : Nat := x % 256
/-- ADDR of a node. -/
def nodeAddr (x : Nat) : Nat := bits x 127 64
/-- VAL of a node. -/
def nodeVal (x : Nat) : Nat := bits x 191 128

/-- May a node name a successor? (R359) -/
def successorOk (count x : Nat) (needed : Bool) : Bool := decide (x < count) || (x == 0x1FFF && !needed)

/-- Is a node well formed? (R358, R359) -/
def nodeOk (count i x : Nat) : Bool :=
  let k := nodeKind x; let ov := bit x 9; let np := bits x 60 48; let cond := k == 3 || k == 4
  bits x 511 288 == 0 && bits x 63 61 == 0 && bits x 47 45 == 0 && bits x 31 29 == 0 && bits x 15 13 == 0 &&
    decide (1 ≤ k) && decide (k ≤ 6) && (!ov || k == 1) &&
    ([0, 1, 2].all fun j => (bits x (223 + 32 * j) (192 + 32 * j) != 0) == ov) &&
    (k == 5 || k == 6 || nodeVal x == 0) && (if k = 2 then decide (bits x 12 10 ≤ 5) else bits x 12 10 == 0) && (!bit x 8 || k == 6) &&
    decide (np ≤ 4096) && (1 ≤ np || i == 0) && successorOk count (bits x 28 16) cond && successorOk count (bits x 44 32) cond

/-- Is a node's ADDR aligned for its kind? (R358) -/
def nodeAligned (x : Nat) : Bool := nodeAddr x % (if nodeKind x = 1 then 256 else if nodeKind x = 2 then 128 else 8) == 0

/-- Is a graph descriptor well formed? (R358) -/
def descriptorOk (x : Nat) : Bool :=
  bits x 63 57 == 0 && bits x 79 77 == 0 && bits x 127 82 == 0 && decide (1 ≤ bits x 76 64) && decide (bits x 76 64 ≤ 4096)

/-- The lowest free indexes of a walker's graph table. -/
def freeNodes (s : State) (die n : Nat) : List Nat :=
  ((List.range Config.graphNodes).filter fun i => (tget s.qu.nodes (die * 4096 + i)).isNone).take n

/-- A node of a walker's table. -/
def getNode (s : State) (die n : Nat) : Option GNode := tget s.qu.nodes (die * 4096 + n)
/-- A node changed. -/
def modNode (s : State) (die n : Nat) (f : GNode → GNode) : State :=
  { s with qu := { s.qu with nodes := tmod s.qu.nodes (die * 4096 + n) f } }

/-- The graph in flight: its nodes in the walker's table, node 0 fired (R358, R360). -/
def enterGraph (s : State) (die p queue index asid : Nat) (xs : List Nat) : State :=
  let (g, s) := fresh s
  let places := (freeNodes s die xs.length).zip xs.zipIdx
  let nodes := places.foldl (fun m e => tset m (die * 4096 + e.1)
    { graph := g, place := e.2.2, bits := e.2.1, fired := if e.2.2 = 0 then 1 else 0, ticket := g }) s.qu.nodes
  raiseWalker { s with qu := { s.qu with
    nodes := nodes
    graphs := tset s.qu.graphs g { die := die, queue := queue, index := index, asid := asid, count := xs.length } } } die p

/-- The nodes of a graph copied and checked; the entry is then handed on (R274, R358). -/
def copyGraph (s : State) (slot e desc : Nat) (r : Reader) (x : Slot) (q : Queue) : State :=
  let die := bits desc 81 80; let n := bits desc 76 64; let va := bits desc 56 0
  if va % 64 ≠ 0 then freezeQueue (raiseSlot s slot r.p) x.queue 5 0
  else match readArray 64 n va s r with
    | (none, r, s) => slotLacks s slot x.queue r
    | (some (v, bad), r, s) =>
      let s := raiseSlot s slot r.p
      let xs := (List.range n).map fun i => v / 2 ^ (512 * i) % 2 ^ 512
      if bad then freezeQueue s x.queue 8 0
      else if !(xs.zipIdx.all fun e => nodeOk n e.2 e.1) then freezeQueue s x.queue 4 0
      else if !(xs.all nodeAligned) then freezeQueue s x.queue 5 0
      else if (freeNodes s die n).length < n then blockHead s slot r.buf
      else handOn (enterGraph s die r.p x.queue q.ridx q.asid xs) slot e

/-- The start of a graph by a slot: its descriptor is read and checked, then its nodes (R358). -/
def startGraph (s : State) (slot e : Nat) (x : Slot) (q : Queue) : State :=
  let va := bits e 127 64
  if va % 16 ≠ 0 ∨ tget x.buf 0 = some 1 then freezeQueue s x.queue 5 0
  else match readArray 16 1 va s (slotReader x q) with
    | (none, r, s) => slotLacks s slot x.queue r
    | (some (v, bad), r, s) =>
      if bad then freezeQueue (raiseSlot s slot r.p) x.queue 8 0
      else if !descriptorOk v then freezeQueue (raiseSlot s slot r.p) x.queue 4 0
      else copyGraph s slot e v r x q

/-- GRAPH_START (R274, R358). -/
def execGraphStart (slot : Nat) (s : State) : Host.Outcome State Fault Refusal :=
  match tget s.qu.slots slot with
  | none => .next s
  | some x => match x.entry, tget s.qu.queues x.queue with
    | some e, some q => if entryType e ≠ 2 ∨ x.waitMet = false ∨ indexWaits s q then .next s else .next (startGraph s slot e x q)
    | _, _ => .next s

/-- The nodes of a graph. -/
def nodesOf (s : State) (g : Nat) : List (Nat × GNode) := s.qu.nodes.filter fun e => e.2.graph == g

/-- A graph ends when no node of it runs or is to fire: its entry is complete, or, after a failure, its queue freezes and the
signal is not written (R274, R360, R361). -/
def endGraph (s : State) (g : Nat) : State :=
  match tget s.qu.graphs g with
  | none => s
  | some x =>
    if (nodesOf s g).any fun e => e.2.running || e.2.fired != 0 then s
    else
      let p := walkerPts s x.die
      let s := { s with qu := { s.qu with nodes := s.qu.nodes.filter fun e => e.2.graph != g, graphs := tdel s.qu.graphs g } }
      match x.failure with
      | none => completePending s x.queue x.index p
      | some (reason, detail) => freezeQueue (dropPending s x.queue x.index) x.queue reason detail

/-- A node that runs no more. -/
def idleNode (x : GNode) : GNode := { x with running := false, complete := false, launched := none, finished := none, buf := [] }

/-- A node fails: no node of its graph fires any more (R361). -/
def failNode (s : State) (die n reason detail : Nat) : State :=
  match getNode s die n with
  | none => s
  | some x =>
    let s := modNode (forget s (· == .node die n)) die n idleNode
    let s := { s with qu := { s.qu with
      nodes := s.qu.nodes.map fun e => (e.1, if e.2.graph = x.graph then { e.2 with fired := 0 } else e.2)
      graphs := tmod s.qu.graphs x.graph fun g => { g with failure := some (g.failure.getD (reason, detail)) } } }
    endGraph s x.graph

/-- Through what a walker translates: its die's merge table, and the page that it holds (R368). -/
def nodeVia (s : State) (die : Nat) : Via := { die := die, page := tget s.en.pages (walkerPage die) }

/-- A walker takes the translation of the page that it works on (R368). -/
def walkerKeeps (s : State) (die : Nat) (a : Acc) (asid va : Nat) : State :=
  match walkNow s (nodeVia s die) a asid va with
  | .leaf l => setPage s (walkerPage die) { asid := asid, vpn := va / 65536, leaf := l }
  | _ => s

/-- A walker as it reads for a node (R216, R361). -/
def nodeReader (s : State) (die : Nat) (g : Graph) (x : GNode) : Reader :=
  { via := nodeVia s die, asid := g.asid, p := walkerPts s die, buf := x.buf }

/-- What a node has read is kept, and the walker's pts follows. -/
def nodeTook (s : State) (die n : Nat) (r : Reader) : State := raiseWalker (modNode s die n fun x => { x with buf := r.buf }) die r.p

/-- What a walker's access lacks: it waits for its page, asks another package, or fails its node (R361). -/
def nodeLacks (s : State) (die n acc : Nat) (r : Reader) : State :=
  let s := nodeTook s die n r
  if r.denied.isSome then failNode s die n 5 0
  else pursue s r acc (4, 0) (.node die n) (fun va => .node die n va)

/-- Does a fired node stand in its walker's ready queue: do fewer than 256 that wait stand before it? (R268, R360) -/
def inReadyQueue (s : State) (die : Nat) (x : GNode) : Bool :=
  decide ((s.qu.nodes.filter fun e => e.1 / 4096 == die && e.2.fired != 0 && !e.2.running && decide (e.2.ticket < x.ticket)).length < Config.readyNodes)

/-- The run of a node of a kind: it starts where it has fired, stands in the ready queue and is not running; it goes on where it is
running and its work is not done. `act` does its work. -/
def nodeRun (s : State) (die n kind : Nat) (act : State → Graph → GNode → State) : State :=
  match getNode s die n with
  | none => s
  | some x => match tget s.qu.graphs x.graph with
    | none => s
    | some g =>
      if nodeKind x.bits ≠ kind ∨ x.complete ∨ x.launched.isSome ∨ (x.running = false ∧ (x.fired = 0 ∨ inReadyQueue s die x = false)) then s
      else
        let s := if x.running then s else modNode s die n fun x => { x with running := true, fired := x.fired - 1 }
        if tget x.buf 0 = some 1 then failNode s die n 5 0
        else if tget x.buf 0 = some 2 then failNode s die n 8 0
        else act s g x

/-- A node's run that has done its work. -/
def nodeDone (s : State) (die n : Nat) (choice : Bool) : State := modNode s die n fun x => { x with complete := true, choice := choice, buf := [] }

/-- A load of n bytes at a node's address (R360). -/
def nodeLoad (s : State) (die node : Nat) (g : Graph) (x : GNode) (n : Nat) (act : State → Nat → State) : State :=
  match agentRead s (nodeReader s die g x) (nodeAddr x.bits) n with
  | (some a, r, s) =>
    let s := raiseWalker (walkerKeeps s die .engineRead g.asid (nodeAddr x.bits)) die r.p
    if a.poison then failNode s die node 8 0 else act s a.value
  | (none, r, s) => nodeLacks s die node 6 r

/-- KERNEL_NODE (R356, R360, R361). -/
def execKernelNode (die node : Nat) (s : State) : Host.Outcome State Fault Refusal :=
  .next (nodeRun s die node 1 fun s g x =>
    let ov := if bit x.bits 9 then some (bits x.bits 287 192) else none
    let prio := ((tget s.qu.queues g.queue).map (·.prio)).getD 0
    match launch s (nodeReader s die g x) (nodeAddr x.bits) ov prio g.queue (.node die node) 0 with
    | .ok gi r s => raiseWalker (modNode s die node fun x => { x with launched := some gi, buf := [] }) die r.p
    | .full r s => nodeTook s die node r
    | .fail d r s => failNode (raiseWalker s die r.p) die node 7 d
    | .asid r s => failNode (raiseWalker s die r.p) die node 6 0
    | .poison r s => failNode (raiseWalker s die r.p) die node 8 0
    | .lacks r s => nodeLacks s die node 6 r)

/-- A card of a node appended where it fits (R285, R287); its bytes are kept until then. -/
def nodeCard (s : State) (die node : Nat) (g : Graph) (k : JobKind) (v : Nat) : State :=
  let i := instanceFor s die k []
  if Config.trackerCards ≤ (heldCards s).length ∨ Config.cardsPerInstance ≤ queuedAt s i then modNode s die node fun x => { x with buf := [(4, v)] }
  else
    let (card, s) := appendCard s { instance_ := i, asid := g.asid, kind := k, bits := v, stamp := walkerPts s die, node := some (die, node) }
    modNode s die node fun x => { x with launched := some card, buf := [] }

/-- JOB_NODE (R287, R360, R361). -/
def execJobNode (die node : Nat) (s : State) : Host.Outcome State Fault Refusal :=
  .next (nodeRun s die node 2 fun s g x =>
    match kindOf (bits x.bits 12 10), tget x.buf 4 with
    | none, _ => s
    | some k, some v => nodeCard s die node g k v
    | some k, none => nodeLoad s die node g x 128 fun s v => nodeCard s die node g k v)

/-- COND_NODE (R360). -/
def execCondNode (die node : Nat) (s : State) : Host.Outcome State Fault Refusal :=
  .next (nodeRun s die node 3 fun s g x => nodeLoad s die node g x 8 fun s w => nodeDone s die node (w != 0))

/-- A WHILE node's word, as its one Write has read it: it chooses, or fails on poison (R360, R361). -/
def whileDone (s : State) (die node : Nat) (a : Ack) : State :=
  let s := raiseWalker s die a.ts
  if a.poison then failNode s die node 8 0 else nodeDone s die node (a.value != 0)

/-- WHILE_NODE (R360): one Write that reads the word and counts it down; on another package an ATOMIC of SUBOP 26
(notes/assumptions/31.md). -/
def execWhileNode (die node : Nat) (s : State) : Host.Outcome State Fault Refusal :=
  .next (nodeRun s die node 4 fun s g x =>
    let va := nodeAddr x.bits
    match tget x.buf 3 with
    | some v => whileDone s die node (bufAck v)
    | none =>
      if (ownRequests s (.node die node)).any (fun r => !r.accepted) then s
      else if 2 ^ 57 ≤ va then failNode s die node 5 0
      else if portWaits s (nodeVia s die) .atomic g.asid va then s
      else match agentPa s (nodeVia s die) .atomic g.asid va with
        | .error .absent => agentMiss s die g.asid va 3 (4, 0) (.node die node va)
        | .error .poison => failNode (noteBad s g.asid va) die node 8 0
        | .error _ => failNode (noteBad s g.asid va) die node 5 0
        | .ok (l, s) =>
          if l.remote then
            sendRequest s { dpkg := l.frame / 4096, spkg := 0, cls := 0, stamp := walkerPts s die, addr := va, asid := l.frame % 4096, tag := 0, op := 3
                            subop := rmwSubop .countDown, data := natLe 8 0, rasid := g.asid } (.node die node)
          else
            let (a, s) := rmwAt (walkerKeeps s die .atomic g.asid va) (walkerPts s die) (l.frame + va % pageBytes l.size) 8 .countDown 0
            whileDone s die node a)

/-- SIGNAL_NODE (R360). -/
def execSignalNode (die node : Nat) (s : State) : Host.Outcome State Fault Refusal :=
  .next (nodeRun s die node 5 fun s g x =>
    let va := nodeAddr x.bits
    let bs := natLe 8 (nodeVal x.bits)
    match agentWrite s (nodeVia s die) (walkerPts s die) g.asid va bs with
    | .ok ts s => nodeDone (raiseWalker (walkerKeeps s die .engineWrite g.asid va) die ts) die node false
    | .later => s
    | .absent => agentMiss s die g.asid va 7 (4, 0) (.node die node va)
    | .denied s => failNode s die node 5 0
    | .poison s => failNode s die node 8 0
    | .away pkg asid => nodeDone (sendRequest s (writeFrame pkg asid va (walkerPts s die) g.asid bs) (.node die node)) die node false)

/-- WAIT_NODE (R360): one poll of the node's word. -/
def execWaitNode (die node : Nat) (s : State) : Host.Outcome State Fault Refusal :=
  .next (nodeRun s die node 6 fun s g x => nodeLoad s die node g x 8 fun s w =>
    if waitWordMet (bit x.bits 8) w (nodeVal x.bits) then nodeDone s die node false
    else modNode s die node fun x => { x with buf := [] })

/-- A node fires: it takes its place among the fired nodes where it had none (R360). -/
def fire (now : Nat) (x : GNode) : GNode := { x with fired := x.fired + 1, ticket := if x.fired = 0 then now else x.ticket }

/-- One arrival at a node (R360). -/
def arrived (now : Nat) (x : GNode) : GNode :=
  if nodeKind x.bits = 3 ∨ nodeKind x.bits = 4 then fire now x
  else if bits x.bits 60 48 ≤ x.arrivals + 1 then { fire now x with arrivals := 0 }
  else { x with arrivals := x.arrivals + 1 }

/-- One arrival at a node of a graph (R360). -/
def arriveAt (s : State) (g i : Nat) : State :=
  let (now, s) := fresh s
  { s with qu := { s.qu with nodes := s.qu.nodes.map fun e => (e.1, if e.2.graph = g ∧ e.2.place = i then arrived now e.2 else e.2) } }

/-- The successors of a completed node (R360). -/
def successors (x : GNode) : List Nat :=
  let s0 := bits x.bits 28 16; let s1 := bits x.bits 44 32
  (if nodeKind x.bits = 3 ∨ nodeKind x.bits = 4 then [if x.choice then s0 else s1] else [s0, s1]).filter (· != 0x1FFF)

/-- NODE_COMPLETE (R360, R361); a node that has fired again meanwhile takes its place among the fired nodes now. -/
def execNodeComplete (die node : Nat) (s : State) : Host.Outcome State Fault Refusal :=
  match getNode s die node with
  | none => .next s
  | some x =>
    if x.running = false ∨ (ownRequests s (.node die node)).any (fun r => !r.accepted) ∨ (x.complete = false ∧ x.finished = none) then .next s
    else if tget x.buf 0 = some 1 then .next (failNode s die node 5 0)
    else if tget x.buf 0 = some 2 then .next (failNode s die node 8 0)
    else
      let (now, s) := fresh (raiseWalker s die (x.finished.getD 0))
      let s := modNode s die node fun x => { idleNode x with ticket := now }
      let failed := ((tget s.qu.graphs x.graph).bind (·.failure)).isSome
      let s := if failed then s else (successors x).foldl (fun s i => arriveAt s x.graph i) s
      .next (endGraph s x.graph)

/-- The threads of a grid's freed teams that have writes in flight. -/
def lateOf (s : State) (gi : Nat) : List (Nat × Thread) :=
  s.ex.threads.filter fun e => decide (2 ^ 90 ≤ e.2.team) && ((tget s.ex.teams e.2.team).map (·.grid)) == some gi

/-- A grid leaves the grid table. What its freed teams have in flight, of a grid that was ended, keeps the grid's record under the name
of each such team, until it has landed; of other grids nothing is in flight any more. -/
def dropGrid (s : State) (gi : Nat) : State :=
  match tget s.ex.grids gi with
  | none => s
  | some g =>
    let late := (s.ex.teams.filter fun e => decide (2 ^ 90 ≤ e.1) && (e.2.grid == gi || decide (2 ^ 90 ≤ e.2.grid))).map (·.1)
    let live := late.filter fun k => s.ex.threads.any fun e => e.2.team == k && threadOwes s e
    { s with ex := { s.ex with
      threads := s.ex.threads.filter fun e => !late.contains e.2.team || live.contains e.2.team
      teams := (s.ex.teams.filter fun e => !late.contains e.1 || live.contains e.1).map fun e =>
        (e.1, if live.contains e.1 then { e.2 with grid := e.1 } else e.2)
      grids := live.foldl (fun m k => tset m k { (tget s.ex.grids k).getD g with ended := true, snap := none, waitsHorizon := false, reserving := none })
        ((tdel s.ex.grids gi).filter fun e => decide (e.1 < 2 ^ 90)) } }

/-- A grid is complete with a stamp, for the entry or the node that launched it (R274, R357, R360). -/
def gridDone (s : State) (gi : Nat) (g : Grid) (stamp : Nat) : State :=
  let s := raiseLauncher (dropGrid (closeGridSnap s gi) gi) g stamp
  match g.launcher with
  | .slot q i => completePending s q i stamp
  | .node d n => modNode s d n fun x => { x with finished := some stamp }

/-- Has every team of a grid been freed? (R335, R357) -/
def allFreed (s : State) (gi : Nat) (g : Grid) : Bool :=
  (g.ended || decide (g.teams ≤ g.next)) && !(s.ex.teams.any fun e => e.2.grid == gi && !e.2.gone) && !savedHas s gi

/-- G: one above the largest pts of the grid's threads and the stamps of its writes (R357). -/
def gridStamp (s : State) (gi : Nat) (g : Grid) : Nat := (lateOf s gi).foldl (fun p e => max p e.2.pts) (max g.stamp g.maxStamp) + 1

/-- A completion write that cannot be made: a queue's grid is complete with G, and the queue then freezes; a node fails (R357). -/
def gridDenied (s : State) (gi : Nat) (g : Grid) (G reason : Nat) : State :=
  match g.launcher with
  | .slot q _ => freezeQueue (gridDone s gi g G) q reason 0
  | .node d n => failNode (dropGrid (closeGridSnap s gi) gi) d n reason 0

/-- The completion write of a grid (R357): by the launching agent, at a stamp no lower than G; on another package it is asked for, and
the grid waits for the answer. -/
def gridWrite (s : State) (gi : Nat) (g : Grid) (G : Nat) : State :=
  let va := g.word 14 + 2 ^ 32 * g.word 15
  let bs := natLe 8 (g.word 16 + 2 ^ 32 * g.word 17)
  let p := max (launcherPts s g) G
  let via := match g.launcher with
    | .slot _ _ => baseVia
    | .node d _ => nodeVia s d
  match agentWrite s via p g.asid va bs with
  | .later => s
  | .ok ts s => gridDone s gi g ts
  | .away pkg asid => sendRequest s (writeFrame pkg asid va p g.asid bs) (.grid gi)
  | .denied s => gridDenied s gi g G 5
  | .poison s => gridDenied s gi g G 8
  | .absent => match g.launcher with
    | .slot _ _ => if walk s g.asid va = .absent then gridDenied s gi g G 5 else s
    | .node d n => agentMiss s d g.asid va 7 (4, 0) (.node d n va)

/-- Why a node's completion write was denied at replay, where it was. -/
def writeDenied (s : State) (g : Grid) : Option Nat :=
  match g.launcher with
  | .node d n => match (getNode s d n).bind fun x => tget x.buf 0 with
    | some 1 => some 5
    | some 2 => some 8
    | _ => none
  | .slot _ _ => none

/-- GRID_COMPLETION (R357): its writes are visible, its completion stamp stands above them, and the completion write is made
where one is named and the grid was not ended. -/
def execGridCompletion (grid : Nat) (s : State) : Host.Outcome State Fault Refusal :=
  match tget s.ex.grids grid with
  | none => .next s
  | some g =>
    if Config.grids ≤ grid ∨ allFreed s grid g = false ∨ ownRequests s (.grid grid) ≠ [] then .next s
    else if g.ended then .next (gridDone s grid g (gridStamp s grid g))
    else if (lateOf s grid).any (threadOwes s) then .next s
    else
      let s := settleAll s
      let G := gridStamp s grid g
      if g.word 14 + 2 ^ 32 * g.word 15 = 0 then .next (gridDone s grid g G)
      else match writeDenied s g with
        | some reason => .next (gridDenied s grid g G reason)
        | none => .next (gridWrite s grid g G)

end Sys2Proof.Machine
end

