-- ==== Sys2Proof/Machine/Answers.lean ====
section
/-! DEFINITION. Answers.lean: what an answer does for the owner of the request that it answers, and what becomes of a request that is
not answered (R223, R256, R301, R311, R313 to R318). -/

namespace Sys2Proof.Machine

/-- The sequence number that a packet's issuer gave it, of one that a frame sent on bears (R255; notes/assumptions/31.md). -/
def issuerSeq : Nat → Nat → Nat
  | 0, n => n
  | k + 1, n => if n < 2 ^ 64 then n else issuerSeq k ((n - 2 ^ 64) / 2 ^ 14)

/-- The request that an answer is for: its TAG and its sequence number, from the package that it went to; the answer to a CHAIN comes
from the package where its packet stands (R255, R310). -/
def requestFor (s : State) (f : Frame) : Option Request :=
  match tget s.fa.requests f.tag with
  | some r =>
    let chain := r.frame.op == 5
    if f.dpkg = s.fa.pkg ∧ f.cls = 1 ∧ (chain ∨ r.frame.dpkg = f.spkg) ∧ (if chain then issuerSeq 8 f.seq else f.seq) = r.frame.seq then some r
    else none
  | none => none

/-- A value that another package returned, kept by the operation or the word that asked for it. -/
def threadGot (s : State) (k key : Nat) (id : Option Nat) (a : Ack) : State :=
  modThread s k fun t =>
    let t := { t with pts := max t.pts a.ts }
    match id with
    | some id => modOp t id fun o => { o with buf := tset o.buf key (bufVal a) }
    | none => { t with buf := tset t.buf key (bufVal a) }

/-- A node's remote access answered: a value that it reads, its countdown, or its signal (R216, R360). -/
def nodeAnswered (s : State) (r : Request) (d n : Nat) (a : Ack) : State :=
  let key := r.slot.getD 3
  let s := if r.slot.isSome ∨ r.frame.op = 3 then modNode s d n fun x => { x with buf := tset x.buf key (bufVal a) } else s
  raiseWalker s d a.ts

/-- A request is answered: its owner has the stamp and the value (R216, R311, R314). -/
def answered (s : State) (r : Request) (a : Ack) : State :=
  let key := r.slot.getD 0
  match r.owner with
  | .op k id => if r.slot.isSome then threadGot s k key (some id) a else if r.parts ≠ [] then splitParts a s a.value r.parts else performed s k id false a
  | .word k => if ((getThread s k).map (·.st)) = some .ready then threadGot s k key none a else s
  | .card c => modCard s c fun c =>
    { c with buf := if r.slot.isSome then tset c.buf key (bufVal a) else c.buf, pts := max c.pts a.ts, fin := max c.fin a.ts }
  | .completion c => dropCard s c
  | .tile tm k => modTile s tm k fun x => { x with buf := tset x.buf key (bufVal a) }
  | .node d n => nodeAnswered s r d n a
  | .slot n => if (tget s.qu.slots n).isSome then raiseSlot (modSlot s n fun x => { x with buf := tset x.buf key (bufVal a) }) n a.ts else s
  | .signal q e => signalled s q e a.ts
  | .grid gi => match tget s.ex.grids gi with
    | some g => gridDone s gi g (max a.ts (gridStamp s gi g))
    | none => s
  | .step _ => s

/-- A write of a thread has been accepted by its remote home (R244, R314). -/
def acceptIfWrite (s : State) (r : Request) : State :=
  match r.owner with
  | .op k id => match (getThread s k).bind fun t => findOp t id with
    | some o => if isWrite o then recheck (acceptOp s k id) k else s
    | none => s
  | _ => s

/-- A snapshot's or a transaction's packet has returned a value of another package, which R233 excludes (R84). -/
def chainExcluded (s : State) (k id : Nat) : State :=
  noteExcluded s k (((getThread s k).bind fun t => findOp t id).any (·.excl))

/-- A packet has come back: with its result, with the address of a poisoned value, or with its state (R256). -/
def chainAnswered (s : State) (k id : Nat) (f : Frame) : State :=
  if f.subop = 1 then chainPoison s k id f.stamp (leNat f.data)
  else if f.subop = 0 then chainDone (chainExcluded s k id) k id f.stamp (leNat f.data)
  else match packetOf f.stamp f.data with
    | some x => setChain (chainExcluded s k id) k id x.chain
    | none => s

/-- What an answer finds of its request changes. -/
def setRequest (s : State) (tag : Nat) (r : Request) : State := { s with fa := { s.fa with requests := tset s.fa.requests tag r } }

/-- An answer received on a port: discarded where it holds a reserved value, dropped where nothing asks for it, and taken otherwise. -/
def takeAnswer (port : Nat) (f : Frame) (op : Nat) (act : State → Request → State) (s : State) : State :=
  if !(portUp s port && f.op == op && f.dpkg == s.fa.pkg && f.cls == 1) then s
  else if badFrame f then discard s port f
  else match requestFor s f with
    | none => s
    | some r => act (perf s 4 port 1 1) r

/-- The value of a READ, an ATOMIC or a CHAIN taken (R314). An ATOMIC stays until its second answer has come as well, which a value
with ACK 0b10 is at once. -/
def takeData (f : Frame) (s : State) (r : Request) : State :=
  match r.frame.op, r.owner with
  | 5, .op k id => chainAnswered (dropRequest s f.tag) k id f
  | 3, _ =>
    if r.accepted then s
    else
      let s := answered s r { ts := f.stamp, value := leNat f.data, poison := f.subop == 1 }
      if r.visible ∨ f.ack = 2 then dropRequest s f.tag else setRequest s f.tag { r with accepted := true }
  | _, _ => answered (dropRequest s f.tag) r { ts := f.stamp, value := leNat f.data, poison := f.subop == 1 }

/-- KOLOZ_DATA (R314): the value and stamp of a READ, an ATOMIC or a CHAIN. -/
def execKolozData (port : Nat) (f : Frame) (s : State) : Host.Outcome State Fault Refusal := .next (takeAnswer port f 0x81 (takeData f) s)

/-- An ACK taken: 0b01 accepts a write, 0b10 says that it is visible too, so that a write answered so at once is accepted as well; an
ATOMIC answered so keeps its request until its value has come (R314). A collective step is done once it is accepted. -/
def takeAck (f : Frame) (s : State) (r : Request) : State :=
  let first (s : State) : State := acceptIfWrite (answered s r { ts := f.stamp }) r
  if r.frame.op = 7 then dropRequest s f.tag
  else if r.frame.op = 3 then (if f.ack ≠ 2 then s else if r.accepted then dropRequest s f.tag else setRequest s f.tag { r with visible := true })
  else if f.ack = 2 then (if r.accepted then dropRequest s f.tag else first (dropRequest s f.tag))
  else if f.ack = 1 ∧ r.accepted = false then first (setRequest s f.tag { r with accepted := true })
  else s

/-- KOLOZ_ACK (R314): the first answer accepts a write; the second is what FENCE.SYS waits for. -/
def execKolozAck (port : Nat) (f : Frame) (s : State) : Host.Outcome State Fault Refusal := .next (takeAnswer port f 0x82 (takeAck f) s)

/-- An operation of a thread is refused: it faults with PAGE_PROT, with the lanes that share its request (R238, R311); an element of a
window read is denied (R301). -/
def refuseOp (s : State) (r : Request) (k id addr : Nat) : State :=
  match (getThread s k).bind fun t => findOp t id with
  | none => s
  | some o => match r.slot with
    | some key => setOp s k id fun o => { o with prot := true, buf := tset o.buf key 0 }
    | none =>
      let s := r.parts.foldl (fun s p => match (getThread s p.1).bind fun t => findOp t p.2.1 with
        | some q => if p.1 = k then s else faultOp s p.1 q 0x08 q.va
        | none => s) s
      faultOp s k o 0x08 addr

/-- A request of an owner is refused: a thread faults with PAGE_PROT, and the other owners meet it as a denied access (R274, R292, R311,
R352, R357, R361). -/
def refusedTo (s : State) (r : Request) (addr : Nat) : State :=
  match r.owner with
  | .op k id => refuseOp s r k id addr
  | .word k => match getThread s k with
    | some t => if t.st = .ready then deliver s k 0x08 addr t.pc else s
    | none => s
  | .card c | .completion c => freezeCard s c 3
  | .step _ => s
  | .tile tm k => tileFault s tm k 0x08 addr
  | .node d n => modNode s d n fun x => { x with buf := tset x.buf 0 1 }
  | .slot n => modSlot s n fun x => { x with buf := tset x.buf 0 1 }
  | .signal q e => freezeSignal s q e 5
  | .grid gi => match tget s.ex.grids gi with
    | some g => gridDenied s gi g (gridStamp s gi g) 5
    | none => s

/-- KOLOZ_REFUSED (R311). -/
def execKolozRefused (port : Nat) (f : Frame) (s : State) : Host.Outcome State Fault Refusal :=
  .next (takeAnswer port f 0x83 (fun s r => if r.accepted then s else refusedTo (dropRequest s f.tag) r f.addr) s)

/-- A request given up: a read, an atomic or a chain delivers a poisoned value, a write is dropped (R317). One that was answered once
is owed nothing more. -/
def giveUp (s : State) (e : Nat × Request) : State :=
  let r := e.2
  let s := dropRequest s e.1
  if r.accepted then s
  else match r.frame.op, r.owner with
    | 1, _ | 3, _ => answered s r { ts := 0, poison := true }
    | 5, .op k id => chainPoison s k id r.frame.stamp r.frame.addr
    | _, _ => acceptIfWrite (answered s r { ts := 0 }) r

/-- A package declared lost (R317). -/
def losePackage (s : State) (pkg : Nat) : State :=
  let s := (s.fa.requests.filter fun e => e.2.frame.dpkg == pkg).foldl giveUp s
  post (setPeer s pkg { getPeer s pkg with lost := true }) 0xA 0 0x10 pkg 0

/-- A request sent again, over another port where there is one (R317). -/
def resend (s : State) (tag : Nat) (r : Request) (port : Option Nat) : State :=
  setRequest (perf (sendBy s port r.frame) 4 (port.getD 0) 3 1) tag { r with since := s.bd.clock, port := port }

/-- RETRANSMIT_TIMEOUT (R317): after 200 us an unanswered request is sent again over another path, three times; then its package is
lost. -/
def execRetransmitTimeout (tag : Nat) (s : State) : Host.Outcome State Fault Refusal :=
  match tget s.fa.requests tag with
  | none => .next s
  | some r =>
    if r.accepted ∨ s.bd.clock < r.since + Config.cycles200us then .next s
    else if (getPeer s r.frame.dpkg).lost then .next (giveUp s (tag, r))
    else if r.tries < 3 then .next (resend s tag { r with tries := r.tries + 1 } (otherPort s r.port))
    else .next (losePackage s r.frame.dpkg)

/-- The flows of a fabric port that carries nothing any more move, and its requests in flight are retransmitted (R317, R415). -/
def moveFlows (s : State) (port : Nat) : State :=
  (s.fa.requests.filter fun e => e.2.port == some port && !e.2.accepted).foldl (fun s e => resend s e.1 e.2 (upPort s)) s

/-- PORT_FAILURE (R306, R317): the port goes down, and its event is posted; the flows of a fabric port move, and its requests in flight
are retransmitted. Port 32 is the host port. -/
def execPortFailure (port : Nat) (s : State) : Host.Outcome State Fault Refusal :=
  if 32 < port ∨ s.fa.downPorts.contains port then .next s
  else
    let s := { s with fa := { s.fa with downPorts := port :: s.fa.downPorts } }
    let s := if port = 32 then post s 9 0 0x0F port 0 else post s 0xA port 0x0F port 0
    .next (moveFlows s port)

end Sys2Proof.Machine
end

