-- ==== Sys2Proof/Machine/Global.lean ====
section
/-! DEFINITION. Global.lean: the global loads and stores, the atomics, CAS, RADD and RFLUSH (R243 to R251). -/

namespace Sys2Proof.Machine

/-- The address of an AM word: ReadPair(A) + SExt(IMM7, 7) x n (R238). -/
def amAddr (a : Reg) (imm : BitVec 7) (n : Nat) (t : Thread) : Int := rdPair t a + imm.toInt * n

/-- The address of an A3 word: ReadPair(A) (R238). -/
def pairAddr (a : Reg) (t : Thread) : Int := rdPair t a

/-- Size, destination registers and their alignment of a load form (R243). -/
def loadShape : LoadForm → Nat × Nat
  | .n8 => (1, 1) | .i8 => (1, 1) | .n16 => (2, 1) | .i16 => (2, 1) | .w32 => (4, 1) | .w64 => (8, 2) | .w128 => (16, 4)

/-- A global load (R243). -/
def loadWord (f : LoadForm) (pg : PredIx) (d a : Reg) (imm : BitVec 7) (s : State) : Host.Outcome State Fault Refusal :=
  let (n, r) := loadShape f
  globalWord { opSpec [sp2 a] [(d.toNat, r, r)] with guard := pg, hints := [3], adds := [(.ld, 1)] } .load n (amAddr a imm n)
    (fun c wid s k t va l =>
      let (id, s) := fresh s
      let o := newOp c wid id t .ld (.load f) va (locOf l (gridOf s t).asid va) n
      issueLoad s k t { o with zf := l.zf, dest := d.toNat, dlen := r }) s

/-- A global store of `n` bytes from `r` registers (R244). -/
def storeWord (n r : Nat) (pg : PredIx) (d a : Reg) (imm : BitVec 7) (s : State) : Host.Outcome State Fault Refusal :=
  globalWord { opSpec [sp2 a, (d.toNat, r, r)] [] with guard := pg, hints := [3], adds := [(.st, 1)] } .store n (amAddr a imm n)
    (fun c wid s k t va l =>
      let (id, s) := fresh s
      let x := spanNat (readSpan t d.toNat r) % 2 ^ (8 * n)
      issueStore s k t (newOp c wid id t .st (.store x) va (locOf l (gridOf s t).asid va) n) x) s

/-- LD_N8 (R243). -/
def execLdN8 (pg : PredIx) (d a : Reg) (imm : BitVec 7) (s : State) : Host.Outcome State Fault Refusal := loadWord .n8 pg d a imm s
/-- LD_I8 (R243). -/
def execLdI8 (pg : PredIx) (d a : Reg) (imm : BitVec 7) (s : State) : Host.Outcome State Fault Refusal := loadWord .i8 pg d a imm s
/-- LD_N16 (R243). -/
def execLdN16 (pg : PredIx) (d a : Reg) (imm : BitVec 7) (s : State) : Host.Outcome State Fault Refusal := loadWord .n16 pg d a imm s
/-- LD_I16 (R243). -/
def execLdI16 (pg : PredIx) (d a : Reg) (imm : BitVec 7) (s : State) : Host.Outcome State Fault Refusal := loadWord .i16 pg d a imm s
/-- LD_32 (R243). -/
def execLd32 (pg : PredIx) (d a : Reg) (imm : BitVec 7) (s : State) : Host.Outcome State Fault Refusal := loadWord .w32 pg d a imm s
/-- LD_64 (R243). -/
def execLd64 (pg : PredIx) (d a : Reg) (imm : BitVec 7) (s : State) : Host.Outcome State Fault Refusal := loadWord .w64 pg d a imm s
/-- LD_128 (R243). -/
def execLd128 (pg : PredIx) (d a : Reg) (imm : BitVec 7) (s : State) : Host.Outcome State Fault Refusal := loadWord .w128 pg d a imm s
/-- ST_8 (R244). -/
def execSt8 (pg : PredIx) (d a : Reg) (imm : BitVec 7) (s : State) : Host.Outcome State Fault Refusal := storeWord 1 1 pg d a imm s
/-- ST_16 (R244). -/
def execSt16 (pg : PredIx) (d a : Reg) (imm : BitVec 7) (s : State) : Host.Outcome State Fault Refusal := storeWord 2 1 pg d a imm s
/-- ST_32 (R244). -/
def execSt32 (pg : PredIx) (d a : Reg) (imm : BitVec 7) (s : State) : Host.Outcome State Fault Refusal := storeWord 4 1 pg d a imm s
/-- ST_64 (R244). -/
def execSt64 (pg : PredIx) (d a : Reg) (imm : BitVec 7) (s : State) : Host.Outcome State Fault Refusal := storeWord 8 2 pg d a imm s
/-- ST_128 (R244). -/
def execSt128 (pg : PredIx) (d a : Reg) (imm : BitVec 7) (s : State) : Host.Outcome State Fault Refusal := storeWord 16 4 pg d a imm s

/-- An atomic of `r` registers (R247 to R249); CAS reads D as its compare value. -/
def rmwWord (w : WordSpec) (r : Nat) (d a b : Reg) (f : Thread → Rmw) (s : State) : Host.Outcome State Fault Refusal :=
  globalWord { w with hints := [3], adds := [(.ld, 1)] } .atomic (4 * r) (pairAddr a)
    (fun c wid s k t va l =>
      let (id, s) := fresh s
      let x := spanNat (readSpan t b.toNat r)
      let o := newOp c wid id t .ld (.rmw (f t) x) va (locOf l (gridOf s t).asid va) (4 * r)
      issueRmw s k t { o with dest := d.toNat, dlen := r } (f t) x) s

/-- ATOM (R247). -/
def execAtom (m : AtomOp) (d a b : Reg) (s : State) : Host.Outcome State Fault Refusal :=
  rmwWord (opSpec [sp2 a, sp1 b] [sp1 d]) 1 d a b (fun _ => .atom m) s
/-- ATOM64 (R247). -/
def execAtom64 (m : Atom64Op) (d a b : Reg) (s : State) : Host.Outcome State Fault Refusal :=
  rmwWord (opSpec [sp2 a, sp2 b] [sp2 d]) 2 d a b (fun _ => .atom64 m) s
/-- ATOMF (R247). -/
def execAtomf (m : AtomfOp) (d a b : Reg) (s : State) : Host.Outcome State Fault Refusal :=
  rmwWord (opSpec [sp2 a, sp1 b] [sp1 d]) 1 d a b (fun _ => .atomf m) s
/-- CAS (R248). -/
def execCas (m : CasWidth) (d a b : Reg) (s : State) : Host.Outcome State Fault Refusal :=
  match m with
  | .w32 => rmwWord (opSpecD [sp2 a, sp1 b] [sp1 d]) 1 d a b (fun t => .cas .w32 (rd t d).toNat) s
  | .w64 => rmwWord (opSpecD [sp2 a, sp2 b] [sp2 d]) 2 d a b (fun t => .cas .w64 (rdPair t d)) s

/-- RADD (R250). -/
def execRadd (m : RaddKind) (a b : Reg) (s : State) : Host.Outcome State Fault Refusal :=
  let r := raddCount m
  globalWord { opSpec [sp2 a, (b.toNat, r, r)] [] with adds := [(.st, 1)] } .radd (4 * r) (pairAddr a)
    (fun c wid s k t va l =>
      let (id, s) := fresh s
      let x := spanNat (readSpan t b.toNat r)
      issueRadd s k t (newOp c wid id t .st (.radd m x) va (locOf l (gridOf s t).asid va) (4 * r)) m x) s

/-- Is a line homed on a die? (R202) -/
def homedOn (die : Nat) (ln : Nat) : Bool := homeDie (ln * 128) == die

/-- RFLUSH (R251): the deltas held at its issue are folded, their lines written back and their delta lines freed. The
write-back is complete with the step. -/
def execRflush (m : RflushScope) (s : State) : Host.Outcome State Fault Refusal :=
  issueWord { opSpec [] [] with adds := [(.st, 1)] } (fun c s k t =>
    let s := flushWhere s fun ln => match m with
      | .die => homedOn (dieOf c.core) ln
      | .pkg => true
    let (id, s) := fresh s
    .ok (setThread s k (addDone t id .st))) s

end Sys2Proof.Machine
end

