-- ==== Sys2Proof/Machine/Group.lean ====
section
/-! DEFINITION. Group.lean: the words of class 0x4 (R152 to R161). -/

namespace Sys2Proof.Machine

/-- SHFL (R153). -/
def execShfl (m : ShflMode) (d a b : Reg) (s : State) : Host.Outcome State Fault Refusal :=
  collective (opSpec [sp1 a, sp1 b] [sp1 d]) (.shfl m d a b) s
/-- The D span of GPOLL: a pair for .mask (R155). -/
def gpollD (m : GpollMode) (d : Reg) : Nat × Nat × Nat := match m with
  | .mask => sp2 d
  | _ => sp1 d
/-- GPOLL (R155). -/
def execGpoll (m : GpollMode) (d a : Reg) (s : State) : Host.Outcome State Fault Refusal :=
  collective (opSpec [sp1 a] [gpollD m d]) (.gpoll m d a) s
/-- IRED (R156). -/
def execIred (m : IredOp) (d a : Reg) (s : State) : Host.Outcome State Fault Refusal :=
  collective (opSpec [sp1 a] [sp1 d]) (.ired m d a) s
/-- FRED (R157). -/
def execFred (m : FredOp) (d a : Reg) (s : State) : Host.Outcome State Fault Refusal :=
  collective (opSpec [sp1 a] [sp1 d]) (.fred m d a) s
/-- ISCAN (R156). -/
def execIscan (excl : Bool) (m : IscanOp) (d a : Reg) (s : State) : Host.Outcome State Fault Refusal :=
  collective (opSpec [sp1 a] [sp1 d]) (.iscan excl m d a) s
/-- FSCAN (R158). -/
def execFscan (excl : Bool) (m : FscanOp) (d a : Reg) (s : State) : Host.Outcome State Fault Refusal :=
  collective (opSpec [sp1 a] [sp1 d]) (.fscan excl m d a) s
/-- PEERS (R155). -/
def execPeers (d a : Reg) (s : State) : Host.Outcome State Fault Refusal :=
  collective (opSpec [sp1 a] [sp2 d]) (.peers d a) s
/-- BCAST (R154). -/
def execBcast (d a b : Reg) (s : State) : Host.Outcome State Fault Refusal :=
  collective (opSpec [sp1 a, sp1 b] [sp1 d]) (.bcast d a b) s
/-- LEADER (R155). -/
def execLeader (d : Reg) (s : State) : Host.Outcome State Fault Refusal :=
  collective (opSpec [] [sp1 d]) (.leader d) s
/-- DDX (R160). -/
def execDdx (m : DdxMode) (d a : Reg) (s : State) : Host.Outcome State Fault Refusal :=
  collective (opSpec [sp1 a] [sp1 d]) (.ddx m d a) s
/-- COMPACT (R159). -/
def execCompact (m : CompactW) (d a b : Reg) (s : State) : Host.Outcome State Fault Refusal :=
  collective (opSpec [sp1 a, sp1 b] [sp1 d]) (.compact m d a b) s
/-- GJOIN (R161). -/
def execGjoin (s : State) : Host.Outcome State Fault Refusal :=
  issueThen (opSpec [] []) (fun c s k t => .wait (setThread s k (waiting c t .gjoin .gjoin))) checkJoins s

end Sys2Proof.Machine
end

