-- ==== Sys2Proof/Machine/Matrix.lean ====
section
/-! DEFINITION. Matrix.lean: the MMA family, CMPRS, and the running of a matrix operation (R162 to R173). -/

namespace Sys2Proof.Machine

/-- The spans of an MMA-family word: by the slot where the word accepts it, else the least lengths of R166. -/
def mmaSpec (k : BitVec 3) (d a b : Reg) (sp : Bool) (s : State) : WordSpec :=
  let g := curGrid s
  let x := g.slot k.toNat
  let ok := mmaSlot k sp g
  let x1 := match s.cur with
    | some u => opxX1 u.hints
    | none => 0
  let ml := if ok then metaWords x else 1
  let src := [(a.toNat, if ok then spanA x else 4, 4), (b.toNat, if ok then spanB x sp else 4, 4)] ++
    if sp then [(x1, ml, ml)] else []
  { opSpec src [(d.toNat, 8, 4)] with
      hints := if sp then [1] else [], needs := if sp then [1] else [], accD := some d.toNat, slotOk := mmaSlot k sp }

/-- MMA (R166). -/
def execMma (k : BitVec 3) (d a b : Reg) (s : State) : Host.Outcome State Fault Refusal :=
  collective (mmaSpec k d a b false s) (.mma k d a b) s
/-- MMA.U (R166, R167). -/
def execMmaU (k : BitVec 3) (d a b : Reg) (s : State) : Host.Outcome State Fault Refusal :=
  collective (mmaSpec k d a b false s) (.mmaU k d a b) s
/-- MMA.SP (R166, R171, R172). -/
def execMmaSp (k : BitVec 3) (d a b : Reg) (s : State) : Host.Outcome State Fault Refusal :=
  collective (mmaSpec k d a b true s) (.mmaSp k d a b) s
/-- MMA.SP.U (R166, R167, R171, R172). -/
def execMmaSpU (k : BitVec 3) (d a b : Reg) (s : State) : Host.Outcome State Fault Refusal :=
  collective (mmaSpec k d a b true s) (.mmaSpU k d a b) s

/-- Does CMPRS accept a slot: a matrix slot that is sparse? (R173) -/
def cmprsSlot (k : BitVec 3) (g : Grid) : Bool := slotKind (g.slot k.toNat) == 1 && slotM (g.slot k.toNat) != 0

/-- CMPRS (R173). Where the slot is not accepted, its mask span is checked at length 1, as R166 has it for MMA. -/
def execCmprs (k : BitVec 3) (d a : Reg) (s : State) : Host.Outcome State Fault Refusal :=
  let g := curGrid s
  let x := g.slot k.toNat
  let x1 := match s.cur with
    | some u => opxX1 u.hints
    | none => 0
  let ml := if cmprsSlot k g then metaWords x else 1
  regWord { opSpec [(a.toNat, 16, 4)] [(d.toNat, 8, 4), (x1, ml, ml)] with
      hints := [1], needs := [1], slotOk := cmprsSlot k }
    (fun _ _ t =>
      let r := cmprsVal x (readSpan t a.toNat 16)
      .ok (writeSpan (writeSpan t d.toNat r.1) x1 r.2)) s

/-- The lane that supplies column j of B to a row's octet (R166, R167). -/
def columnLane (op : MatOp) (o j : Nat) : Option Nat :=
  if op.uniform then op.lanes.find? fun h => h % 8 == j else op.lanes.find? fun h => h == 8 * o + j

/-- The new D span of row g, from its C (R166). -/
def matRow (gr : Grid) (op : MatOp) (g : Nat) (cs : List Word) : List Word :=
  (List.range 8).map fun j =>
    let cj := (cs[j]?).getD 0
    match columnLane op (g / 8) j with
    | none => cj
    | some h => macElem gr op.slot (gr.slot op.slot) op.sp ((tget op.a g).getD []) ((tget op.mask g).getD []) ((tget op.b h).getD []) cj

/-- The temporaries of a handler's frame with values written from register `d` on. -/
def frameSpan (f : HFrame) (d : Nat) (l : List Word) : HFrame :=
  { f with ts := f.ts.mapIdx fun i x => if d - 120 ≤ i then (l[i - (d - 120)]?).getD x else x
           tvalid := (List.range l.length).foldl (fun v i => tset v (d + i) true) f.tvalid }

/-- A participant's D span is written, once, and is no longer pending (R166, R168); where the word was issued before a
handler was entered, a D span of temporaries is the frame's (R380). -/
def writeRow (id : Nat) (gr : Grid) (op : MatOp) (t : Thread) : Thread :=
  let row (cs : List Word) : List Word := matRow gr op t.glane (if op.chained then cs else (tget op.c t.glane).getD [])
  let mine (f : HFrame) : Bool := decide (120 ≤ op.dstart) && t.ops.any fun o => o.kind == .matrix id && decide (o.id < f.since)
  let t := match t.frame.filter mine with
    | some f => { t with frame := some (frameSpan f op.dstart (row (f.ts.drop (op.dstart - 120)))) }
    | none => writeSpan t op.dstart (row (readSpan t op.dstart 8))
  retire { t with ops := t.ops.map fun o => if o.kind = .matrix id then { o with complete := true } else o }

/-- MATRIX_OPERATION (R168): the oldest operation of its engine runs its passes and writes the D spans of its
participants, and the next one starts (R169). -/
def execMatrixOperation (id : Nat) (s : State) : Host.Outcome State Fault Refusal :=
  match tget s.ex.matOps id with
  | none => .next s
  | some op =>
    if s.ex.matOps.any fun o => o.2.core == op.core && o.2.engine == op.engine && decide (o.1 < id) then .next s
    else
      let gr := match tget s.ex.teams op.team with
        | some tm => (tget s.ex.grids tm.grid).getD { record := [], launcher := .slot 0 0 }
        | none => { record := [], launcher := .slot 0 0 }
      let s := { s with ex := { s.ex with
        matOps := tdel s.ex.matOps id
        threads := s.ex.threads.map fun e =>
          if e.2.ops.any (fun o => o.kind == .matrix id) then (e.1, writeRow id gr op e.2) else e } }
      .next (startEngine (perf s 0 op.core (if op.narrow.getD (isNarrow s op.core) then 7 else 6) op.passes) op.core op.engine)

end Sys2Proof.Machine
end

