-- ==== Sys2Proof/Machine/Sysop.lean ====
section
/-! DEFINITION. Sysop.lean: the supervisor's operations but for pre-emption (R339, R382, R384 to R388, R407). -/

namespace Sys2Proof.Machine

/-- The four argument words of a SYSOP (R385). -/
abbrev Args := Nat → Nat

/-- The arguments that a lane reads. -/
def argsOf (t : Thread) (a : Reg) : Args := fun i => (readReg t (a.toNat + i)).toNat

/-- Status codes (R385). -/
def stOk : Nat := 0
/-- ARG (R385). -/
def stArg : Nat := 1
/-- STATE (R385). -/
def stState : Nat := 2

/-- What a SYSOP needs before it can be issued. -/
def sysSpec (a d : Reg) : WordSpec := { opSpec [(a.toNat, 4, 4)] [sp1 d] with adds := [(.ld, 1)] }

/-- May the thread issue SYSOP: is its grid's ASID 0? (R385) -/
def privileged (s : State) (t : Thread) : Bool := (gridOf s t).asid == 0

/-- One lane of a SYSOP (R385): PRIV, or the operation and its status in D, counted on ld. -/
def sysLane (a d : Reg) (f : State → Nat → Args → Nat × State) (s : State) (k : Nat) (t : Thread) : LaneOut :=
  if !privileged s t then .fault 0x13 0
  else
    let (id, s) := fresh s
    let (x, s) := f (setThread s k t) k (argsOf t a)
    .ok (modThread s k fun t => addDone (writeReg t d.toNat (BitVec.ofNat 32 x)) id .ld)

/-- A SYSOP whose operation is done at once (R385). -/
def sysWord (a d : Reg) (f : State → Nat → Args → Nat × State) (s : State) : Host.Outcome State Fault Refusal :=
  issueWord (sysSpec a d) (fun _ => sysLane a d f) s

/-- Does a lane of a SYSOP wait, for a page's translation or for the host path (R306, R369)? -/
def sysWaits (w : WordSpec) (a : Reg) (waits : State → Args → Bool) (s : State) (k : Nat) : Bool :=
  (getThread s k).any fun t => ready s w t && privileged s t && waits s (argsOf t a)

/-- A SYSOP that reads or writes memory: the bundle goes on once no lane waits for a page. -/
def sysGo (w : WordSpec) (a d : Reg) (waits : State → Args → Bool) (f : State → Nat → Args → Nat × State) (s : State) :
    Host.Outcome State Fault Refusal :=
  issueGo w (fun c ks s => if ks.any (sysWaits w a waits s) then s else laneLoop (laneStep w c (sysLane a d f)) s ks) s

/-- A SYSOP that reads or writes memory as its thread: the thread's earlier accesses are stamped first. -/
def sysWordOrd (a d : Reg) (waits : State → Args → Bool) (f : State → Nat → Args → Nat × State) (s : State) :
    Host.Outcome State Fault Refusal :=
  sysGo { sysSpec a d with order := true } a d waits f s

/-- The status of a SYSOP in progress put into its thread (R385). -/
def statusIn (id status p : Nat) (t : Thread) : Thread :=
  match findOp t id with
  | some o => { returnOp t { o with value := status } with pts := max t.pts p }
  | none => t

/-- A SYSOP's status delivered to its thread, wherever that is (R385, R390). -/
def sysopDone (s : State) (k id status p : Nat) : State := recheck (mapThreads s (statusIn id status p)) k

/-- A SYSOP that may stay in progress: what `f` gives is its status, or the operation that stands until it completes. -/
def sysPend (a d : Reg) (f : State → Nat → Args → (Nat ⊕ OpKind) × State) (s : State) : Host.Outcome State Fault Refusal :=
  issueWord (sysSpec a d) (fun c s k t =>
    if !privileged s t then .fault 0x13 0
    else
      let (id, s) := fresh s
      let (x, s) := f (setThread s k t) k (argsOf t a)
      match x with
      | .inl status => .ok (modThread s k fun t => addDone (writeReg t d.toNat (BitVec.ofNat 32 status)) id .ld)
      | .inr kind => .ok (modThread s k fun t =>
        addOp t { newOp c id id t .ld kind 0 (.here 0) 0 with dest := d.toNat, dlen := 1, performed := true, visible := true })) s

/-- A thread reference (R385). -/
def threadRef (x : Args) : Nat := bits (x 0) 7 0 * 2048 + bits (x 0) 18 8

/-- A 57-bit value or address in two argument words. -/
def argPair (x : Args) (i : Nat) : Nat := x i + 2 ^ 32 * x (i + 1)

/-- THRCLR (R84, R85, R386). -/
def thrclr (s : State) (_ : Nat) (x : Args) : Nat × State :=
  match getThread s (threadRef x) with
  | none => (stArg, s)
  | some t =>
    let m (i : Nat) (b : Bool) : Bool := b && !bit (x 1) i
    (stOk, setThread s (threadRef x) { t with
      snapx := m 0 t.snapx, derivLost := m 1 t.derivLost, ternBad := m 2 t.ternBad, serialSeen := m 3 t.serialSeen
      preempted := m 4 t.preempted })

/-- THRCLR (R386). -/
def execThrclr (a d : Reg) (s : State) : Host.Outcome State Fault Refusal := sysWord a d thrclr s

/-- The thread that a merge entry's waiter belongs to. -/
def waiterThread (w : Waiter) : Option Nat :=
  match w with
  | .lane k _ _ | .fetch k _ _ | .chain k _ _ | .element k _ _ => some k
  | _ => none

/-- Waiters of some threads leave every merge entry. -/
def dropWaiters (s : State) (p : Nat → Bool) : State :=
  { s with tr := { s.tr with merges := s.tr.merges.map fun e =>
      (e.1, { e.2 with waiters := e.2.waiters.filter fun w => !((waiterThread w).any p) }) } }

/-- A parked thread that the supervisor resumes at FPC: its handler frame is discarded, its run goes on, and it waits on where what it
waits for is still to come (R326, R381, R382). -/
def resumed (t : Thread) : Thread := unparked { t with frame := none, pc := t.fpc }

/-- A parked thread that the supervisor resumes at another PC: its handler frame is discarded, and it starts a new run (R381, R382). -/
def resumedAt (t : Thread) (pc : Word) : Thread :=
  endRun { t with frame := none, waitOn := .nothing, held := none, pc := pc, st := if t.dstop then .stopped else .ready }

/-- A parked thread ended as STOP does, under a debug stop too: its loads drain first (R326, R333, R382). -/
def endParked (s : State) (k : Nat) (t : Thread) : State :=
  let t := { t with frame := none, bad := [], waitOn := .stop, held := some { instr := .stop, hints := [], token := 1 }, st := .waiting }
  checkStop (setThread s k t) k

/-- THREAD (R382, R386). -/
def threadCtl (s : State) (_ : Nat) (x : Args) : Nat × State :=
  let k := threadRef x
  if 2 < x 1 then (stArg, s)
  else match getThread s k with
    | none => (stState, s)
    | some t =>
      if t.st ≠ .parked then (stState, s)
      else
        let s := dropWaiters s (· == k)
        if x 1 = 0 then (stOk, checkJoins (recheck (setThread s k (resumed t)) k) k)
        else if x 1 = 1 then (stOk, setThread s k (resumedAt t (BitVec.ofNat 32 (x 2))))
        else (stOk, endParked s k t)

/-- THREAD (R386). -/
def execThread (a d : Reg) (s : State) : Host.Outcome State Fault Refusal := sysWord a d threadCtl s

/-- A card with a stash side in a freed allocation: it completes with TEAM_GONE (R296). -/
def cardGone (team : Nat) (c : Card) : Card :=
  if c.team = some team ∧ c.finished = false then
    match c.kind with
    | .copy => if copyMode c.body = 1 ∨ copyMode c.body = 2 then { c with team := none, status := 3, worked := c.started } else c
    | _ => c
  else c

/-- A placed team of an ended grid freed at once (R296, R335). -/
def endTeam (s : State) (team : Nat) : State :=
  let ts := teamMates s team
  let s := ts.foldl (fun s e => leaveBundle (closeOwn (forgetWord s e.1) e.2) e.1) s
  let s := dropTileWaiters (dropWaiters s fun k => ts.any fun e => e.1 == k) team fun _ => true
  let s := { s with
    ex := { s.ex with matOps := s.ex.matOps.filter fun e => e.2.team != team }
    en := { s.en with cards := s.en.cards.map fun e => (e.1, cardGone team e.2) } }
  freeTeam s team

/-- The name of a team of a saved context, while it is saved. -/
def awayKey (base k : Nat) : Nat := (base + 1) * 2 ^ 20 + k

/-- The saved teams of a grid dropped from their areas; a set that this empties is held no more (R213, R386). -/
def dropSaved (s : State) (gi : Nat) : State :=
  let mine (x : SavedSet) : List (Nat × Team) := x.teams.filter fun e => e.2.grid == gi
  let away := s.ex.saved.flatMap fun x => (mine x).map fun e => awayKey x.base e.1
  let held := s.ex.saved.flatMap fun x => x.threads.filter fun e => (mine x).any fun m => m.1 == e.2.team
  let top := held.foldl (fun n e => max n e.2.pts) 0
  let s := modGrid (held.foldl (fun s e => closeOwn s e.2) s) gi fun g => { g with maxStamp := max g.maxStamp top }
  { s with
    en := { s.en with cards := s.en.cards.map fun e => (e.1, away.foldl (fun c k => cardGone k c) e.2) }
    ex := { s.ex with saved := s.ex.saved.filterMap fun x =>
      let l := mine x
      let x' := { x with teams := x.teams.filter fun e => e.2.grid != gi, threads := x.threads.filter fun e => !(l.any fun m => m.1 == e.2.team) }
      if l ≠ [] ∧ x'.teams = [] then none else some x' } }

/-- A grid ended: its placed teams are freed, its saved teams dropped, the rest never placed (R335, R386). -/
def endGrid (s : State) (gi : Nat) : State :=
  let s := modGrid s gi fun g => { g with ended := true, waitsHorizon := false, reserving := none }
  let s := (s.ex.teams.filter fun e => e.2.grid == gi && !e.2.gone).foldl (fun s e => endTeam s e.1) s
  closeGridSnap (dropSaved s gi) gi

/-- The grid of a referenced thread, saved or not. -/
def refGrid (s : State) (k : Nat) : Option Nat :=
  match getThread s k with
  | some t => (tget s.ex.teams t.team).map (·.grid)
  | none => s.ex.saved.findSome? fun x => (tget x.threads k).bind fun t => (tget x.teams t.team).map (·.grid)

/-- GRIDEND (R386). -/
def gridEnd (s : State) (_ : Nat) (x : Args) : Nat × State :=
  if 1 < x 1 then (stArg, s)
  else match (if x 1 = 0 then some (x 0) else refGrid s (threadRef x)) with
    | none => (stArg, s)
    | some gi => if (tget s.ex.grids gi).isSome then (stOk, endGrid s gi) else (stArg, s)

/-- GRIDEND (R386). -/
def execGridend (a d : Reg) (s : State) : Host.Outcome State Fault Refusal := sysWord a d gridEnd s

/-- An uncorrectable error of a core's tables: every grid with a team on the core ends (R387). -/
def coreTableError (s : State) (core : Nat) : State :=
  let gs := ((coreTeams s core).filter fun e => !e.2.gone).map (·.2.grid)
  post (gs.foldl endGrid s) 0 core 0x13 core 0

/-- AGEMAX (R329, R386). -/
def execAgemax (a d : Reg) (s : State) : Host.Outcome State Fault Refusal :=
  sysWord a d (fun s _ x => if 1 ≤ x 0 ∧ x 0 ≤ 255 then (stOk, { s with ex := { s.ex with ageMax := x 0 } }) else (stArg, s)) s

/-- LAURELSZ (R205, R386): RFLUSH.pkg comes first, then the dirty lines that the shrinking cache portion displaces are written back; which
these are is free. -/
def execLaurelsz (a d : Reg) (s : State) : Host.Outcome State Fault Refusal :=
  sysWord a d (fun s _ x =>
    if x 0 ≤ 2 then
      let (n, s) := fresh (flushWhere s fun _ => true)
      let s := if s.mm.laurel < x 0 then writeBackWhere s (Config.displaced n) else s
      (stOk, { s with mm := { s.mm with laurel := x 0 } })
    else (stArg, s)) s

/-- MIGTH (R374, R386). -/
def execMigth (a d : Reg) (s : State) : Host.Outcome State Fault Refusal :=
  sysWord a d (fun s _ x => if x 0 ≤ 1023 then (stOk, { s with tr := { s.tr with migth := x 0 } }) else (stArg, s)) s

/-- FRAMEADD (R374, R386). -/
def frameAdd (s : State) (_ : Nat) (x : Args) : Nat × State :=
  let pa := argPair x 2
  let key := x 0 * 3 + x 1
  let l := (tget s.tr.frames key).getD []
  if 4 ≤ x 0 ∨ 3 ≤ x 1 ∨ pa % 65536 ≠ 0 ∨ frameOk s pa 65536 = false ∨ memList pa ≠ x 1 then (stArg, s)
  else if Config.framesPerList ≤ l.length then (stState, s)
  else (stOk, { s with tr := { s.tr with frames := tset s.tr.frames key (l ++ [pa]) } })

/-- FRAMEADD (R386). -/
def execFrameadd (a d : Reg) (s : State) : Host.Outcome State Fault Refusal := sysWord a d frameAdd s

/-- A supervisor's request for a page that no request has locked: its status (R374, R376). The frame comes from the list of the die on
which the page lies, a DESIGN CHOICE (notes/assumptions/24.md). A page that cannot migrate gives STATE: a GATHER or a remote page,
which have no frame here, or a ZF page to host memory, where R365 allows none; so does the want of a frame. PIN and ZF bar the device
and the host, and not the supervisor. -/
def migrateNow (s : State) (asid va dest : Nat) : Nat × State :=
  match walk s asid va with
  | .leaf l =>
    let va := pageStart va l.size
    if l.gather || l.remote || (l.zf && destList dest == 2) then (stState, s)
    else match lockPage s asid va (homeDie l.frame) dest l .supervisor with
      | .locked s => (stOk, s)
      | .noFrame => (stState, post s 6 0 0x0E asid va)
  | _ => (stState, s)

/-- Is a page locked by a request that a supervisor's waits for? (R376) -/
def migrateWaits (s : State) (asid va : Nat) : Bool :=
  match walk s asid va with
  | .leaf l => (lockOf s asid (pageStart va l.size)).isSome
  | _ => false

/-- MIGRATE (R374, R376): it waits for the page's lock. -/
def migrateReq (s : State) (_ : Nat) (x : Args) : (Nat ⊕ OpKind) × State :=
  let va := argPair x 1
  if 4096 ≤ x 0 ∨ 2 ^ 57 ≤ va ∨ 3 ≤ x 3 then (.inl stArg, s)
  else if migrateWaits s (x 0) va then (.inr (.migrate (x 0) va (x 3)), s)
  else
    let (st, s) := migrateNow s (x 0) va (x 3)
    (.inl st, s)

/-- MIGRATE (R376, R386). -/
def execMigrate (a d : Reg) (s : State) : Host.Outcome State Fault Refusal := sysPend a d migrateReq s

/-- ROOT (R362, R386). -/
def execRoot (a d : Reg) (s : State) : Host.Outcome State Fault Refusal :=
  sysWord a d (fun s _ x =>
    let pa := argPair x 1; let asid := bits (x 0) 11 0
    if pa % 4096 ≠ 0 ∨ mapped pa = false then (stArg, s)
    else (stOk, { s with tr := { s.tr with roots := if bit (x 0) 12 then tset s.tr.roots asid pa else tdel s.tr.roots asid } })) s

/-- The translations that the package's TLBs, threads and units hold. -/
def heldXlats (s : State) : List TlbEntry :=
  s.ex.cores.flatMap (fun e => e.2.lastPage.map (·.2) ++ e.2.tlb) ++ s.ex.threads.flatMap (fun e => e.2.grants) ++ s.en.pages.map (·.2)

/-- The size of the largest page whose translation an invalidation of a page removes: that of its scope, or of a larger one that
covers its address (R371). -/
def scopeSize (s : State) (asid va size : Nat) : Nat :=
  (heldXlats s).foldl (fun n e => if covers e asid va then max n e.leaf.size else n) size

/-- Does an access at an address lie in the scope of an invalidation: 0 a page, 1 an ASID, 2 all? (R371, R386) -/
def inScope (scope asid va size : Nat) (asid' va' : Nat) : Bool :=
  scope == 2 || asid' == asid && (scope == 1 || va' / pageBytes size == va / pageBytes size)

/-- The first steps of an invalidation: the translations and the table pointers of its scope go (R371). Walks in flight read every
entry anew when they return. -/
def dropScope (s : State) (scope asid va size : Nat) : State :=
  dropXlats s (fun e => scope == 2 || e.asid == asid && (scope == 1 || pageScope asid va size e))
    (fun p => scope == 2 || p.asid == asid && (scope == 1 || p.index == va / 2 ^ levelShift p.level))

/-- Is an operation a global access that is translated and not performed, made before count `n`? A chain translates each access when it
makes it, and one under way to another package is a request. -/
def translatedOp (n : Nat) (o : Op) : Bool :=
  takesStamp o && !o.performed && decide (o.id < n) && (match o.kind with
    | .chain _ => false
    | _ => true)

/-- Is an element of a window read of a thread's operation parked: does it wait on an absent page? (R301, R371) -/
def elementParked (s : State) (k id : Nat) : Bool :=
  s.tr.merges.any fun m => m.2.phase == .absent && m.2.waiters.any fun w => match w with
    | .element j i _ => j == k && i == id
    | _ => false

/-- Is an access of the scope, translated before count `n`, still to be performed: an operation of a thread, saved or not, or a request
that has no answer? (R371) -/
def invalWaits (s : State) (n scope asid va size : Nat) : Bool :=
  let op (g : Nat) (t : Thread) (k : Option Nat) : Bool := t.ops.any fun o =>
    translatedOp n o && inScope scope asid va size g o.va && !(k.any fun k => elementParked s k o.id)
  let grid (tms : Tab Team) (t : Thread) : Nat := (((tget tms t.team).bind fun tm => tget s.ex.grids tm.grid).map (·.asid)).getD 0
  (s.ex.threads.any fun e => op (grid s.ex.teams e.2) e.2 (some e.1)) ||
    (s.ex.saved.any fun x => x.threads.any fun e => op (grid x.teams e.2) e.2 none) ||
    (s.fa.requests.map (·.2) ++ s.fa.unsent).any fun r =>
      !r.accepted && decide (r.born ≤ n) && inScope scope asid va size r.frame.rasid r.frame.addr

/-- INVAL (R371): its translations go at once, and it completes when nothing uses them any more; that of a page waits for the accesses
to the largest page that it removes. -/
def invalReq (s : State) (_ : Nat) (x : Args) : (Nat ⊕ OpKind) × State :=
  let scope := bits (x 0) 1 0; let size := bits (x 0) 3 2; let asid := bits (x 0) 15 4; let va := argPair x 1
  if scope = 3 ∨ (scope = 0 ∧ size = 3) then (.inl stArg, s)
  else
    let all := if scope = 0 then scopeSize s asid va size else size
    let s := dropScope s scope asid va size
    if invalWaits s s.nextId scope asid va all then (.inr (.inval scope asid va all), s) else (.inl stOk, s)

/-- INVAL (R371, R386). -/
def execInval (a d : Reg) (s : State) : Host.Outcome State Fault Refusal := sysPend a d invalReq s

/-- A SYSOP in progress completes where it has nothing more to wait for (R371, R376, R385). -/
def runSysop (s : State) (k id : Nat) : State :=
  match (getThread s k).bind fun t => findOp t id with
  | none => s
  | some o =>
    if o.complete then s
    else match o.kind with
      | .inval scope asid va size => if invalWaits s id scope asid va size then s else sysopDone s k id stOk 0
      | .migrate asid va dest =>
        if migrateWaits s asid va then s
        else
          let (st, s) := migrateNow s asid va dest
          sysopDone s k id st 0
      | _ => s

/-- REPLAY (R370, R386). -/
def replayReq (s : State) (_ : Nat) (x : Args) : Nat × State :=
  let key := x 0 * 1024 + x 1
  if 4 ≤ x 0 ∨ 1024 ≤ x 1 ∨ 2 ≤ x 2 then (stArg, s)
  else match tget s.tr.merges key with
    | none => (stState, s)
    | some m =>
      if m.phase ≠ .absent then (stState, s)
      else if x 2 = 0 then (stOk, queueWalk s key m)
      else (stOk, m.waiters.foldl (failWaiter 0x08) (freeMerge s key))

/-- REPLAY (R386). -/
def execReplay (a d : Reg) (s : State) : Host.Outcome State Fault Refusal := sysWord a d replayReq s

/-- Does a read index lie beyond a count, modulo 2^32? (R386) -/
def beyond (count ix : Nat) : Bool := decide (2 ^ 31 ≤ (count % 2 ^ 32 + 2 ^ 32 - ix % 2 ^ 32) % 2 ^ 32)

/-- RINGSET (R280, R283, R386). -/
def ringSet (s : State) (_ : Nat) (x : Args) : Nat × State :=
  let base := argPair x 1; let die := bits (x 0) 3 2
  if base % 4096 ≠ 0 then (stArg, s)
  else if bits (x 0) 1 0 = 0 then
    let q := (tget s.tr.faultQs die).getD {}
    if hostMay s .engineWrite 0 base (131072 + 8) = false ∨ beyond q.seq (x 3) then (stArg, s)
    else (stOk, setFaultQ s die { q with base := some base, readIx := x 3 })
  else if bits (x 0) 1 0 = 1 then
    if hostMay s .engineWrite 0 base (262144 + 8) = false ∨ beyond s.bd.eventQ.count (x 3) then (stArg, s)
    else (stOk, { s with bd := { s.bd with eventQ := { s.bd.eventQ with base := some base, readIx := x 3 } } })
  else (stArg, s)

/-- RINGSET (R386). -/
def execRingset (a d : Reg) (s : State) : Host.Outcome State Fault Refusal := sysWord a d ringSet s

/-- Are the ring and the control line of a queue mapped writable? (R269) -/
def ringMapped (s : State) (q : Queue) : Bool := hostMay s .engineWrite q.asid q.ringBase (64 * q.size + 128)

/-- The RWS fields of a QUEUE's argument words (R386). -/
def queueArgs (x : Args) : Queue :=
  { asid := bits (x 0) 23 12, prio := bits (x 0) 26 24, logn := bits (x 0) 30 27, qpn := bits (x 1) 23 0, push := bit (x 1) 24
    ringBase := argPair x 2 % 2 ^ 57 }

/-- May a queue have these LOGN and RINGBASE? (R269) -/
def ringArgs (s : State) (q : Queue) : Bool :=
  (q.logn == 0 || decide (4 ≤ q.logn)) && q.ringBase % 4096 == 0 && ringMapped s q

/-- The number that stands for a queue that has been destroyed, where its grids and graphs still name it. -/
def noQueue : Nat := 4096

/-- A launcher without its queue. -/
def orphaned (n : Nat) (l : Launcher) : Launcher :=
  match l with
  | .slot q i => if q = n then .slot noQueue i else l
  | .node _ _ => l

/-- A queue destroyed (R269, R386). The grids and graphs that it has handed on run on, and complete for no entry of a queue that is
created under its number later (R274). -/
def destroyQueue (s : State) (n : Nat) : State :=
  let s := forget s fun o => match o with
    | .signal q _ => q == n
    | _ => false
  { s with
    ex := { s.ex with grids := s.ex.grids.map fun e =>
      (e.1, { e.2 with launcher := orphaned n e.2.launcher, queue := if e.2.queue = n then noQueue else e.2.queue }) }
    qu := { s.qu with
      queues := tdel s.qu.queues n
      pendings := s.qu.pendings.filter fun p => p.queue != n
      graphs := s.qu.graphs.map fun e => (e.1, if e.2.queue = n then { e.2 with queue := noQueue } else e.2) } }

/-- QUEUE (R269, R277, R386). -/
def queueReq (s : State) (_ : Nat) (x : Args) : Nat × State :=
  let n := bits (x 0) 11 0; let r := queueArgs x
  if bits (x 1) 31 25 ≠ 0 ∨ bits (x 3) 31 25 ≠ 0 then (stArg, s)
  else match tget s.qu.queues n, bit (x 0) 31 with
    | none, true =>
      if ringArgs s r then (stOk, { s with qu := { s.qu with queues := tset s.qu.queues n { r with waitingSince := s.bd.clock } } }) else (stArg, s)
    | none, false => (stOk, s)
    | some q, true =>
      if q.logn = r.logn ∧ q.ringBase = r.ringBase then
        (stOk, modQueue s n fun q => { q with asid := r.asid, prio := r.prio, qpn := r.qpn, push := r.push })
      else if q.ridx ≠ q.widx then (stState, s)
      else if ringArgs s r then
        (stOk, modQueue s n fun q => { q with asid := r.asid, prio := r.prio, qpn := r.qpn, push := r.push, logn := r.logn, ringBase := r.ringBase })
      else (stArg, s)
    | some q, false =>
      if (q.ridx = q.widx ∨ q.frozen) ∧ slotOf s n = none then (stOk, destroyQueue s n) else (stState, s)

/-- QUEUE (R386). -/
def execQueue (a d : Reg) (s : State) : Host.Outcome State Fault Refusal := sysWord a d queueReq s

/-- At release, a queue that doorbells append reads its write-index word and takes it as a doorbell's (R282). Where the word cannot be
read the queue freezes with ENTRY_ADDR, where it is poisoned with POISON; R282 names no reason: DESIGN CHOICE
(notes/assumptions/58.md). -/
def rereadBell (s : State) (n : Nat) : State :=
  match tget s.qu.queues n with
  | none => s
  | some q =>
    if q.push then s
    else match plainRead s { via := baseVia, asid := q.asid, p := q.bell } q.ctl 8 with
      | (some a, _, s) => if a.poison then freezeQueue s n 8 0 else presentBell s n a.value a.ts
      | (none, _, s) => freezeQueue s n 5 0

/-- A frozen queue released: 0 resume, 1 skip, 2 reset (R282). -/
def releaseQueue (s : State) (n mode : Nat) : Nat × State :=
  match tget s.qu.queues n with
  | none => (stState, s)
  | some q =>
    if q.frozen = false then (stState, s)
    else
      let s := match q.sigFrozen with
        | some i => if mode = 0 then s else dropPending s n i
        | none => s
      let s := modQueue s n fun q =>
        { q with frozen := false, freason := 0, detail := 0, sigFrozen := none, waitingSince := s.bd.clock
                 ridx := if mode = 2 then q.widx else if mode = 1 ∧ q.sigFrozen = none then min q.widx (q.ridx + 1) else q.ridx }
      (stOk, rereadBell s n)

/-- A card released from a frozen stream: performed again from its start, or completed with a status (R293). -/
def releaseCard (mode : Nat) (c : Card) : Card :=
  if mode = 0 then
    if c.finished then { c with frozen := none }
    else { c with frozen := none, started := false, pieces := [], ahead := [], worked := false, buf := [], status := if c.status = 3 then 3 else 0 }
  else { c with frozen := none, started := true, worked := true, deps := [], status := mode }

/-- A frozen engine stream released (R293). -/
def releaseStream (s : State) (inst asid mode : Nat) : Nat × State :=
  let mine (c : Card) : Bool := c.instance_ == inst && c.asid == asid
  if !(s.en.cards.any fun e => mine e.2 && e.2.frozen.isSome) then (stState, s)
  else
    let cards := s.en.cards.filter fun e => !(mode != 0 && mine e.2 && e.2.finished && e.2.frozen.isSome)
    let s := forget s fun o => match o with
      | .card c => ((tget s.en.cards c).map fun x => mine x && x.frozen.isSome).getD false
      | _ => false
    (stOk, { s with en := { s.en with cards := cards.map fun e =>
      (e.1, if mine e.2 ∧ (e.2.frozen.isSome ∨ (mode = 2 ∧ e.2.finished = false)) then releaseCard mode e.2 else e.2) } })

/-- A frozen peer released: resume sends the answers that were held, reset discards them (R318). -/
def releasePeer (s : State) (pkg mode : Nat) : Nat × State :=
  let p := getPeer s pkg
  if mode = 1 then (stArg, s)
  else if p.frozen = false then (stState, s)
  else
    let s := setPeer s pkg { p with frozen := false, owed := [] }
    (stOk, if mode = 0 then p.owed.foldl sendFrame s else s)

/-- RELEASE (R282, R293, R307, R318, R386). -/
def releaseReq (s : State) (_ : Nat) (x : Args) : Nat × State :=
  let mode := x 2
  if 2 < mode then (stArg, s)
  else
    let kind := bits (x 0) 1 0
    if kind = 0 then releaseQueue s (x 1) mode
    else if kind = 1 then releaseStream s (bits (x 1) 7 0) (bits (x 1) 19 8) mode
    else if kind = 2 then releasePeer s (x 1) mode
    else match tget s.fa.qps (x 1) with
      | some q =>
        if q.frozen = false then (stState, s)
        else (stOk, { s with fa := { s.fa with qps := if q.mode = 0 then tdel s.fa.qps (x 1) else tset s.fa.qps (x 1) { q with frozen := false } } })
      | none => (stState, s)

/-- Does the write-index word of a frozen queue wait for its translation, which its release reads? (R282, R369) -/
def releaseWaits (s : State) (x : Args) : Bool :=
  bits (x 0) 1 0 == 0 && decide (x 2 ≤ 2) && (tget s.qu.queues (x 1)).any fun q => q.frozen && !q.push && hostWaits s .engineRead q.asid q.ctl 8

/-- RELEASE (R386). -/
def execRelease (a d : Reg) (s : State) : Host.Outcome State Fault Refusal := sysGo (sysSpec a d) a d releaseWaits releaseReq s

/-- QPOPEN (R307, R375, R386). A pair that is frozen stays so until its release, closed and opened again or not. -/
def qpOpen (s : State) (_ : Nat) (x : Args) : Nat × State :=
  let n := x 0; let mode := x 3
  let others := s.fa.qps.filter fun e => e.1 != n && e.2.mode != 0
  if 2 ^ 24 ≤ n ∨ 3 < mode then (stArg, s)
  else if mode = 0 then (stOk, { s with fa := { s.fa with qps := match tget s.fa.qps n with
    | some q => if q.frozen then tset s.fa.qps n { q with mode := 0 } else tdel s.fa.qps n
    | none => s.fa.qps } })
  else if Config.queuePairs ≤ others.length ∨ (mode ≠ 1 ∧ others.any fun e => e.2.mode == mode) then (stState, s)
  else
    let q : QueuePair := (tget s.fa.qps n).getD { asid := 0, key := 0, mode := 0 }
    (stOk, { s with fa := { s.fa with qps := tset s.fa.qps n { q with asid := bits (x 1) 11 0, key := x 2, mode := mode } } })

/-- QPOPEN (R386). -/
def execQpopen (a d : Reg) (s : State) : Host.Outcome State Fault Refusal := sysWord a d qpOpen s

/-- The packages of a member mask, in ascending order (notes/assumptions/36.md). -/
def maskMembers (x : Nat) : List Nat := (List.range 8192).filter fun i => bit x i

/-- CGROUP (R303, R315, R386). -/
def cgroup (s : State) (k : Nat) (x : Args) : Nat × State :=
  let va := argPair x 1
  if 4096 ≤ x 0 ∨ va % 8 ≠ 0 ∨ hostMay s .engineRead 0 va 1024 = false then (stArg, s)
  else
    let p := ((getThread s k).map (·.pts)).getD 0
    let ((ts, bs, poison), s) := hostRead s p 0 va 1024
    let s := modThread s k fun t => { t with pts := max t.pts ts }
    let l := maskMembers (leNat bs)
    if poison ∨ l.length ≠ x 3 ∨ l = [] then (stArg, s)
    else (stOk, { s with en := { s.en with groups := tset s.en.groups (x 0) l } })

/-- Does the member mask of a group wait for its translation? (R369) -/
def cgroupWaits (s : State) (x : Args) : Bool :=
  let va := argPair x 1
  decide (x 0 < 4096) && va % 8 == 0 && hostMay s .engineRead 0 va 1024 && hostWaits s .engineRead 0 va 1024

/-- CGROUP (R386). -/
def execCgroup (a d : Reg) (s : State) : Host.Outcome State Fault Refusal := sysWordOrd a d cgroupWaits cgroup s

/-- PKGSET (R82, R315, R386). -/
def execPkgset (a d : Reg) (s : State) : Host.Outcome State Fault Refusal :=
  sysWord a d (fun s _ x => if x 0 < 8192 then (stOk, { s with fa := { s.fa with pkg := x 0 } }) else (stArg, s)) s

/-- EXPORT (R311, R386). -/
def exportReq (s : State) (_ : Nat) (x : Args) : Nat × State :=
  let va := argPair x 1
  let e : Export := { asid := x 0, vpn := va / 65536, pkg := bits (x 3) 12 0, rasid := bits (x 3) 24 13 }
  if 4096 ≤ x 0 ∨ 2 ^ 57 ≤ va then (stArg, s)
  else
    let rest := s.fa.exports.filter (· != e)
    (stOk, { s with fa := { s.fa with exports := if bit (x 3) 25 then rest else e :: rest } })

/-- EXPORT (R386). -/
def execExportPage (a d : Reg) (s : State) : Host.Outcome State Fault Refusal := sysWord a d exportReq s

/-- A number put into a list of retired units. -/
def addUnit (l : List Nat) (n : Nat) : List Nat := if l.contains n then l else l ++ [n]

/-- The retired-unit map as it stands rewritten in the flash (R415). -/
def flashMap (s : State) : State := { s with bd := { s.bd with flashCores := s.bd.badCores, flashPorts := s.fa.badPorts } }

/-- RETIRE (R320, R386, R415): the map, and its copy in the flash; the flows of a retired port move (R317). -/
def retireReq (s : State) (_ : Nat) (x : Args) : Nat × State :=
  let n := bits (x 0) 7 0
  if bit (x 0) 8 then
    if 32 ≤ n then (stArg, s)
    else (stOk, moveFlows (flashMap { s with fa := { s.fa with badPorts := addUnit s.fa.badPorts n } }) n)
  else if (coreTeams s n).any fun e => !e.2.gone || decide (0 < e.2.size) then (stState, s)
  else (stOk, flashMap { s with bd := { s.bd with badCores := addUnit s.bd.badCores n } })

/-- RETIRE (R386). -/
def execRetire (a d : Reg) (s : State) : Host.Outcome State Fault Refusal := sysWord a d retireReq s

/-- DBGMATCH (R337, R386). -/
def execDbgmatch (a d : Reg) (s : State) : Host.Outcome State Fault Refusal :=
  sysWord a d (fun s _ x =>
    let i := bits (x 0) 10 8
    (stOk, modCore s (bits (x 0) 7 0) fun c => { c with comparators := if bit (x 0) 11 then tset c.comparators i (argPair x 1) else tdel c.comparators i })) s

/-- TEAMSTOP (R337, R386). -/
def execTeamstop (a d : Reg) (s : State) : Host.Outcome State Fault Refusal :=
  sysWord a d (fun s _ x =>
    let k := bits (x 0) 7 0 * 2048 + bits (x 0) 18 8
    match tget s.ex.teams k with
    | none => (stState, s)
    | some _ => (stOk, modTeam s k fun tm => { tm with teamStop := bit (x 1) 0 })) s

/-- The breakpoint before which a thread stands executed as a no-op (R384). -/
def stepOver (t : Thread) : Thread :=
  match t.brk with
  | some (pc, n) => if t.st = .stopped ∧ t.pc = pc then { completeWait t n with brk := none } else t
  | none => t

/-- A thread on which continue acts: one that was to be stepped leaves the run that it had not begun, and a JOB that waits for room is
executed again in full (R285, R338). -/
def continued (t : Thread) : Thread :=
  let t := { (if t.stepping ∧ t.runPos = 0 then endRun t else t) with dstop := false, stepping := false }
  match t.held with
  | some { instr := .job _ _, .. } => if t.st = .waiting then leaveJob t .ready else if t.st = .stopped then unparked t else t
  | _ => if t.st = .stopped then unparked t else t

/-- The threads that a debug request on a thread is for: its group, or its team under team-stop (R337, R338). -/
def debugSet (s : State) (t : Thread) : List (Nat × Thread) :=
  if (getTeam s t.team).teamStop && (gridOf s t).debugFlag then teamMates s t.team else groupMates s t.team t.group

/-- Continue (R338): a single step that has not been taken is given up, and the joins that the stop held back may now complete. -/
def debugContinue (s : State) (t : Thread) : State :=
  let l := debugSet s t
  let s := l.foldl (fun s e => modThread (if e.2.stepping then leaveBundle s e.1 else s) e.1 continued) s
  l.foldl (fun s e => checkJoins (recheck s e.1) e.1) s

/-- The stepped set of a single step (R338). -/
def stepSet (s : State) (k : Nat) (t : Thread) : List (Nat × Thread) :=
  let l := (groupMates s t.team t.group).filter fun e => e.2.st == .stopped
  if 0 < t.runPos then l.filter fun e => e.2.btag == t.btag && e.2.pc == t.pc
  else if t.serial then [(k, t)]
  else onePerLane { kind := 2, ts := l.filter fun e => e.2.runPos == 0 && min e.2.depth 15 == min t.depth 15 && e.2.pc == t.pc }

/-- A single step begins: the stepped set is the bundle of the step port (R338). -/
def debugStep (s : State) (k : Nat) (t : Thread) : State :=
  let core := coreOf k
  let l := stepSet s k t
  let tag := freeTag s core
  let s := l.foldl (fun s e => modThread s e.1 fun x => { (if t.runPos = 0 then startRun tag x else x) with stepping := true }) s
  let lanes := (List.range 64).flatMap fun h => (l.filter fun e => e.2.hlane == h).map (·.1)
  modCore s core fun c => { c with ports := tset c.ports stepPort lanes }

/-- A debug request on a thread: 0 step, 1 continue, 2 stop (R338, R384, R386). -/
def debugDo (s : State) (k req : Nat) : Nat × State :=
  let op := bits req 3 0
  match getThread s k with
  | none => (stState, s)
  | some t =>
    if op = 2 then (if t.live then (stOk, debugStop s t.team t.group) else (stState, s))
    else if t.st ≠ .stopped then (stState, s)
    else
      let s := if bit req 4 then (debugSet s t).foldl (fun s e => modThread s e.1 stepOver) s else s
      let t := (getThread s k).getD t
      if op = 1 then (stOk, debugContinue s t)
      else if (tget (getCore s (coreOf k)).ports stepPort).isSome then (stState, s)
      else (stOk, debugStep s k t)

/-- DEBUG (R338, R339, R384, R386): a request for a saved context takes effect when it is restored. -/
def debugReq (s : State) (_ : Nat) (x : Args) : Nat × State :=
  let k := threadRef x
  if 2 < bits (x 1) 3 0 then (stArg, s)
  else if (getThread s k).isNone ∧ s.ex.saved.any (fun e => (tget e.threads k).isSome) then
    (stOk, { s with ex := { s.ex with saved := s.ex.saved.map fun e =>
      if (tget e.threads k).isSome then { e with debugReqs := e.debugReqs ++ [(k, x 1)] } else e } })
  else debugDo s k (x 1)

/-- DEBUG (R386). -/
def execDebug (a d : Reg) (s : State) : Host.Outcome State Fault Refusal := sysWord a d debugReq s

/-- BOXREAD (R212, R386, R407): the copies are stamped stores of the issuing thread. -/
def boxread (s : State) (k : Nat) (x : Args) : Nat × State :=
  let dst := argPair x 2
  if x 1 = 0 ∨ Config.boxwoodEvents < x 0 + x 1 ∨ dst % 32 ≠ 0 ∨ hostMay s .store 0 dst (32 * x 1) = false then (stArg, s)
  else
    let bs := (List.range (x 1)).flatMap fun i => match s.bd.boxwood[x 0 + i]? with
      | some e => natLe 32 (eventValue e)
      | none => natLe 32 0
    let p := ((getThread s k).map (·.pts)).getD 0
    let (ts, s) := hostWrite s p 0 dst bs
    (stOk, modThread s k fun t => { t with pts := max t.pts ts })

/-- Do the pages of a BOXREAD's destination wait? (R369) -/
def boxWaits (s : State) (x : Args) : Bool :=
  x 1 != 0 && decide (x 0 + x 1 ≤ Config.boxwoodEvents) && argPair x 2 % 32 == 0 && hostMay s .store 0 (argPair x 2) (32 * x 1) &&
    hostWaits s .store 0 (argPair x 2) (32 * x 1)

/-- BOXREAD (R386). -/
def execBoxread (a d : Reg) (s : State) : Host.Outcome State Fault Refusal := sysWordOrd a d boxWaits boxread s

end Sys2Proof.Machine
end

