-- ==== Sys2Proof/Machine/Preempt.lean ====
section
/-! DEFINITION. Preempt.lean: PREEMPT, the save areas, and RESTORE (R213, R339, R349, R370, R389 to R393). -/

namespace Sys2Proof.Machine

/-- The cores of the clusters that have a team on one of some cores. -/
def clusterCores (s : State) (cores : List Nat) : List Nat :=
  (s.ex.clusters.filter fun c => c.2.teams.any fun k => cores.contains (coreOf k)).flatMap fun c => c.2.teams.map coreOf

/-- The pre-emption set of a core: closed over clusters, in ascending core number (R389). -/
def closeCores (s : State) : Nat → List Nat → List Nat
  | 0, l => l
  | n + 1, l => closeCores s n ((List.range Config.cores).filter fun c => l.contains c || (clusterCores s l).contains c)

/-- The pre-emption set of a core (R389). -/
def preemptSet (s : State) (core : Nat) : List Nat :=
  closeCores s Config.coresPerDie ((List.range Config.cores).filter (· == core))

/-- Does a saved set hold one of `n` areas from an address on? (R213, R389) -/
def areaHeld (s : State) (base n : Nat) : Bool :=
  s.ex.saved.any fun x => meets base (n * Config.areaBytes) x.base (x.cores.length * Config.areaBytes)

/-- PREEMPT (R213, R386, R389): the cores stop forming bundles; the status follows when every area is written. -/
def execPreempt (a d : Reg) (s : State) : Host.Outcome State Fault Refusal :=
  issueWord (sysSpec a d) (fun c s k t =>
    if !privileged s t then .fault 0x13 0
    else
      let x := argsOf t a
      let base := argPair x 1
      let cores := preemptSet s (bits (x 0) 7 0)
      let n := cores.length
      let (id, s) := fresh (setThread s k t)
      let status (x : Nat) : LaneOut := .ok (modThread s k fun t => addDone (writeReg t d.toNat (BitVec.ofNat 32 x)) id .ld)
      if base % Config.areaBytes ≠ 0 ∨ frameOk s base (n * Config.areaBytes) = false then status stArg
      else if x 3 < n then status 3
      else if areaHeld s base n then status stState
      else
        let o : Op := { newOp c id id t .ld (.sysop base) 0 (.here 0) 0 with dest := d.toNat, dlen := 1, performed := true, visible := true }
        .ok { issueOp s k t o with ex := { (issueOp s k t o).ex with
          saved := { base := base, cores := cores, thr := k, op := id } :: (issueOp s k t o).ex.saved } }) s

/-- The code of a STATE (R325). -/
def stateCode : TState → Nat
  | .ready => 1 | .waiting => 2 | .parked => 3 | .stopped => 4 | .draining => 5

/-- The STATE of a code. -/
def stateOf (n : Nat) : Option TState :=
  match n with
  | 1 => some .ready | 2 => some .waiting | 3 => some .parked | 4 => some .stopped | 5 => some .draining | _ => none

/-- The code of a WAITON (R325). -/
def waitCode : WaitOn → Nat
  | .nothing => 0 | .join => 1 | .gjoin => 2 | .bar => 3 | .barw => 4 | .wait => 5 | .table => 6 | .stop => 7

/-- The WAITON of a code. -/
def waitOf (n : Nat) : Option WaitOn :=
  match n with
  | 0 => some .nothing | 1 => some .join | 2 => some .gjoin | 3 => some .bar | 4 => some .barw | 5 => some .wait | 6 => some .table
  | 7 => some .stop | _ => none

/-- Flags as a number, bit i first. -/
def flagBits (f : Nat → Bool) (n : Nat) : Nat := bitsNat ((List.range n).map f)

/-- A thread-table entry (R325). -/
def entryValue (t : Thread) : Nat :=
  t.pc.toNat * 2 ^ 96 + t.depth * 2 ^ 88 + t.age * 2 ^ 80 + t.group * 2 ^ 69 + t.hlane * 2 ^ 63 + t.team % 2048 * 2 ^ 52 + t.btag * 2 ^ 39 +
    t.runPos * 2 ^ 34 + stateCode t.st * 2 ^ 31 + waitCode t.waitOn * 2 ^ 27 + t.serial.toNat * 2 ^ 26 + t.tx.active.toNat * 2 ^ 25 +
    (t.snap != .off).toNat * 2 ^ 24 + t.dstop.toNat * 2 ^ 23 + t.yielded.toNat * 2 ^ 22

/-- A thread record (R391). -/
def threadRecord (t : Thread) : List Byte :=
  let words (l : List Word) : List Byte := l.flatMap fun w => natLe 4 w.toNat
  let cnt (c : Cnt) : Nat := count t c
  let own : Nat := match t.snap with
    | .own S => S
    | _ => 0
  natLe 16 (entryValue t) ++ words (readSpan t 120 8) ++
    natLe 4 (flagBits (fun i => (tget t.tvalid (120 + i)).getD false) 8 + 2 ^ 8 * flagBits (fun i => readPred t (BitVec.ofNat 3 i)) 8 +
      2 ^ 16 * flagBits (fun i => (readBt t (BitVec.ofNat 3 i)).prepared) 8 + 2 ^ 24 * t.tx.depth) ++
    natLe 4 (cnt .ld + 2 ^ 8 * cnt .st + 2 ^ 16 * cnt .cp + 2 ^ 24 * cnt .tl) ++
    words ((List.range 8).map fun i => (readBt t (BitVec.ofNat 3 i)).target) ++ natLe 8 t.pts ++ words [t.capClk, t.capPts] ++
    words [t.fcode] ++ natLe 8 t.faddr ++ words [t.fpc] ++
    natLe 4 (t.snapx.toNat + 2 * t.derivLost.toNat + 4 * t.ternBad.toNat + 8 * t.serialSeen.toNat + 16 * t.preempted.toNat +
      2 ^ 8 * t.txReason + 2 ^ 12 * t.frame.isSome.toNat) ++ natLe 4 0 ++
    (match t.frame with
      | some f => words f.ts ++ natLe 4 (flagBits (fun i => (tget f.tvalid (120 + i)).getD false) 8 + 2 ^ 8 * f.runPos + 2 ^ 13 * f.btag +
          2 ^ 26 * f.b7.prepared.toNat) ++ words [f.b7.target] ++ natLe 4 f.depth ++ natLe 4 0
      | none => natLe 48 0) ++ natLe 8 own ++ natLe 72 0

/-- Flags read back. -/
def flagTab (base x n : Nat) : Tab Bool := (List.range n).map fun i => (base + i, bit x i)

/-- Words read back: `n` words of a value from bit `lo`. -/
def wordsAt (x lo n : Nat) : List Word := (List.range n).map fun i => BitVec.ofNat 32 (x / 2 ^ (lo + 32 * i))

/-- Are the reserved fields of a thread record, of value `x`, zero? (R86, R325, R391) -/
def reservedOk (x : Nat) : Bool :=
  let zero (off hi lo : Nat) : Bool := bits x (8 * off + hi) (8 * off + lo) == 0
  zero 0 21 0 && zero 0x68 31 10 && zero 0x70 31 25 && zero 0x78 7 5 && zero 0x78 31 13 && zero 0x7C 31 0 && zero 0xA0 31 27 && zero 0xA8 31 8 &&
    zero 0xAC 31 0 && zero 0xB8 575 0

/-- The snapshot that a record gives a thread: its own, at the record's S, or its grid's (R227, R325, R391); none where it was revoked
while the thread was saved (R232). -/
def recordSnap (t : Thread) (g : Option Nat) (on : Bool) (S : Nat) : Snap :=
  if !on || t.revoked then .off
  else match t.snap, g with
    | .grid S', _ => .grid S'
    | .off, some S' => .grid S'
    | _, _ => .own S

/-- What a record, of value `x`, makes of a thread of core `core` whose grid has the snapshot `g`: none where it is malformed, no thread
where its entry is FREE (R325, R391, R393). -/
def recordThread (core : Nat) (g : Option Nat) (t : Thread) (x : Nat) : Option (Option Thread) :=
  let b (off : Nat) (hi lo : Nat) : Nat := bits x (8 * off + hi) (8 * off + lo)
  if !reservedOk x then none
  else match stateOf (b 0 33 31), waitOf (b 0 30 27) with
  | some st, some w =>
    let frame : HFrame :=
      { ts := wordsAt x (8 * 0x80) 8, tvalid := flagTab 120 (b 0xA0 7 0) 8, runPos := b 0xA0 12 8, btag := b 0xA0 25 13
        b7 := { prepared := bit x (8 * 0xA0 + 26), target := BitVec.ofNat 32 (b 0xA4 31 0) }, depth := b 0xA8 7 0
        since := (t.frame.map (·.since)).getD 0 }
    let t : Thread := { t with
      team := core * 2048 + b 0 62 52, group := b 0 79 69, hlane := b 0 68 63
      pc := BitVec.ofNat 32 (b 0 127 96), depth := b 0 95 88, age := b 0 87 80, btag := b 0 51 39, runPos := b 0 38 34, st := st, waitOn := w
      serial := bit x 26, dstop := bit x 23, yielded := bit x 22
      tvalid := flagTab 120 (b 0x30 7 0) 8, preds := flagTab 0 (b 0x30 15 8) 8
      bts := (List.range 8).map fun i => (i, { prepared := bit x (8 * 0x30 + 16 + i), target := BitVec.ofNat 32 (b (0x38 + 4 * i) 31 0) })
      pts := b 0x58 63 0, capClk := BitVec.ofNat 32 (b 0x60 31 0), capPts := BitVec.ofNat 32 (b 0x64 31 0)
      fcode := BitVec.ofNat 32 (b 0x68 31 0), faddr := b 0x6C 63 0 % 2 ^ 57, fpc := BitVec.ofNat 32 (b 0x74 31 0)
      snapx := bit x (8 * 0x78), derivLost := bit x (8 * 0x78 + 1), ternBad := bit x (8 * 0x78 + 2), serialSeen := bit x (8 * 0x78 + 3)
      txReason := b 0x78 11 8, frame := if bit x (8 * 0x78 + 12) then some frame else none
      tx := { t.tx with depth := b 0x30 31 24, active := bit x 25 }, snap := recordSnap t g (bit x 24) (b 0xB0 63 0) }
    some (some { t with regs := (wordsAt x (8 * 0x10) 8).zipIdx.foldl (fun m e => tset m (120 + e.2) e.1) t.regs })
  | none, _ => if b 0 33 31 = 0 ∧ (waitOf (b 0 30 27)).isSome then some none else none
  | _, none => none

/-- Where a thread's registers stand in its home lane's part of the register-file image: after those of the lane's threads of
lower index (notes/assumptions/37.md). -/
def regBase (ts : List (Nat × Thread)) (regs : Nat → Nat) (k : Nat) : Nat :=
  (ts.filter fun e => e.1 % 64 == k % 64 && decide (e.1 < k)).foldl (fun n e => n + regs e.2.team) 0

/-- Bytes with others written over them from an offset on. -/
def patch (l : List Byte) (o : Nat) (bs : List Byte) : List Byte := l.take o ++ bs ++ l.drop (o + bs.length)

/-- Bytes of zero. -/
def zeros (n : Nat) : List Byte := List.replicate n 0

/-- The register-file image of a core: lane l's register j at byte 4(2048l + j) (R391). -/
def regImage (ts : List (Nat × Thread)) (regs : Nat → Nat) : List Byte :=
  ts.foldl (fun l e => patch l (4 * (2048 * (e.1 % 64) + regBase ts regs e.1)) ((readSpan e.2 0 (regs e.2.team)).flatMap fun w => natLe 4 w.toNat))
    (zeros 0x80000)

/-- The stash image of a core (R213). -/
def stashImage (tms : List (Nat × Team)) : List Byte :=
  tms.foldl (fun l e => e.2.stash.foldl (fun l x => patch l (e.2.base + x.1) [x.2]) l) (zeros 0x80000)

/-- The thread records of a core (R213, R391). -/
def recordImage (ts : List (Nat × Thread)) : List Byte :=
  ts.foldl (fun l e => patch l (256 * (e.1 % 2048)) (threadRecord e.2)) (zeros 0x80000)

/-- Bytes in a part of `n` bytes. -/
def fitBytes (n : Nat) (l : List Byte) : List Byte := l.take n ++ zeros (n - l.length)

/-- Where R392 gives a part and not its bytes, their places here are DESIGN CHOICEs (notes/assumptions/37.md). The entry of a team slot:
the slot, the grid-table index, the linear team index, the cluster number and rank, the tile count, and the stash range (R392). -/
def teamBytes (e : Nat × Team) : List Byte :=
  natLe 2 (e.1 % 2048) ++ natLe 2 e.2.grid ++ natLe 8 e.2.lin ++ natLe 2 (e.2.cluster % 2048) ++ natLe 1 e.2.rank ++ natLe 1 e.2.tileCount ++
    natLe 4 e.2.base ++ natLe 4 e.2.size

/-- The first part of a core record: the saved core's number, the rotating pointer, the team slots, and the bundle table as the tags in
use, those that handler frames keep too (R327, R380, R392). -/
def slotPart (core : Nat) (c : Core) (ts : List (Nat × Thread)) (tms : List (Nat × Team)) : List Byte :=
  natLe 4 core ++ natLe 4 c.pointer ++ natLe 8 tms.length ++ fitBytes 0xDF0 (tms.flatMap teamBytes) ++
    natLe 512 (flagBits (fun i => ts.any fun e => e.2.btag == i || e.2.frame.any fun f => f.btag == i) 4096)

/-- The entries of a core's tile table: each team's, by team slot, as its team and the tile's number (R343, R392). -/
def tileEntries (tms : List (Nat × Team)) : List ((Nat × Team) × Nat) :=
  (tms.flatMap fun e => (List.range e.2.tileCount).map fun j => (e, j)).take 32

/-- The entry of a tile: its word, and the count of its stores that are not accepted (R343, R392). -/
def tileBytes (ts : List (Nat × Thread)) (e : (Nat × Team) × Nat) : List Byte :=
  let stores := ((ts.filter fun t => t.2.team == e.1.1).flatMap fun t => t.2.ops.filter fun o => o.tile == some e.2 && !o.performed).length
  natLe 4 (((tget e.1.2.tiles e.2).map tileWord).getD 0) ++ natLe 4 stores ++ zeros 24

/-- The block stamps of a tile's data area, by block of the stash; (1, 0) stands for a block without stamps (R346, R392). -/
def stampBytes (tm : Team) (x : Tile) : List (Nat × List Byte) :=
  if x.st = .empty then []
  else (List.range (tileArea x.desc / 128)).map fun b =>
    let y := (tget x.blocks b).getD (1, 0)
    (16 * ((tm.base + x.doff) / 128 + b), natLe 8 y.1 ++ natLe 8 y.2)

/-- Parts written into a stretch of `n` bytes. -/
def patchAll (n : Nat) (l : List (Nat × List Byte)) : List Byte := l.foldl (fun m e => patch m e.1 e.2) (zeros n)

/-- Is an operation a store that stands in a store buffer? -/
def isStore (o : Op) : Bool := !o.performed && match o.kind with
  | .store _ | .radd _ _ | .peerStore .. => true
  | _ => false

/-- A store of the store buffer, with its stamp: that of its thread (R219, R392). -/
def storeBytes (e : Nat × Thread) (o : Op) : List Byte :=
  natLe 4 (e.1 % 2048) ++ natLe 4 o.size ++ natLe 8 o.va ++ natLe 16 (match o.kind with
    | .store x | .radd _ x | .peerStore _ _ x => x
    | _ => 0) ++ natLe 8 e.2.pts

/-- A pending load, or a chain with its state (R256, R392). -/
def loadBytes (e : Nat × Thread) (o : Op) : List Byte :=
  fitBytes 128 (natLe 4 (e.1 % 2048) ++ natLe 2 o.dest ++ natLe 2 o.size ++ natLe 8 o.va ++ match o.kind with
    | .chain ch => natLe 8 ch.c ++ packetBytes { chain := ch }
    | _ => [])

/-- Is an operation a load, or a chain, that has not returned? -/
def isPendingLoad (o : Op) : Bool := !o.performed && match o.kind with
  | .load _ | .chain _ | .peerLoad .. => true
  | _ => false

/-- The parked fault records of a core: for each entry of the thread table, the merge key, the access, the lane mask and the address
(R370, R392). -/
def parkedParts (s : State) (core : Nat) : List (Nat × List Byte) :=
  s.tr.merges.flatMap fun m => m.2.waiters.filterMap fun w => match w with
    | .lane k va _ | .fetch k va _ | .chain k _ va =>
      if coreOf k = core then
        some (32 * (k % 2048), natLe 8 (m.2.asid * 2 ^ 41 + m.2.vpn) ++ natLe 8 m.2.acc ++ natLe 8 (2 ^ (k % 64)) ++ natLe 8 va)
      else none
    | _ => none

/-- The barrier stamps of a core: the offset in the core's stash, and the hidden stamp (R221, R392). -/
def barrierBytes (c : Core) (tms : List (Nat × Team)) : List Byte :=
  c.hiddenAge.flatMap fun x => match tget tms x.1 with
    | some tm => natLe 4 (tm.base + x.2) ++ natLe 8 ((tget tm.hidden x.2).getD 0)
    | none => []

/-- The register blocks of a thread: the numbers of its blocks, and their count in byte 15 (R392). -/
def blockBytes (ts : List (Nat × Thread)) (regs : Nat → Nat) (e : Nat × Thread) : List Byte :=
  let n := regs e.2.team / 8
  fitBytes 15 ((List.range n).map fun i => BitVec.ofNat 8 (regBase ts regs e.1 / 8 + i)) ++ natLe 1 n

/-- The core record (R392); `s` is the state as the core halts. -/
def coreImage (s : State) (core : Nat) (c : Core) (ts : List (Nat × Thread)) (tms : List (Nat × Team)) (regs : Nat → Nat) : List Byte :=
  let ops (f : Op → Bool) (g : Nat × Thread → Op → List Byte) : List Byte := ts.flatMap fun e => (e.2.ops.filter f).flatMap (g e)
  slotPart core c ts tms ++ patchAll 0x8000 (ts.map fun e => (16 * (e.1 % 2048), blockBytes ts regs e)) ++
    fitBytes 0x400 ((tileEntries tms).flatMap (tileBytes ts)) ++
    patchAll 0x10000 (tms.flatMap fun e => e.2.tiles.flatMap fun x => stampBytes e.2 x.2) ++
    fitBytes 0x10000 (ops isStore storeBytes) ++ fitBytes 0x20000 (ops isPendingLoad loadBytes) ++ patchAll 0x10000 (parkedParts s core) ++
    fitBytes 0x26C00 (fitBytes 0xC000 (barrierBytes c tms))

/-- The area of a core (R213). -/
def areaImage (s : State) (core : Nat) (c : Core) (ts : List (Nat × Thread)) (tms : List (Nat × Team)) (regs : Nat → Nat) : List Byte :=
  regImage ts regs ++ stashImage tms ++ recordImage ts ++ coreImage s core c ts tms regs

/-- Is an operation a plain load? -/
def isLoad (o : Op) : Bool :=
  match o.kind with
  | .load _ | .peerLoad .. => true
  | _ => false

/-- An operation of a thread as it is saved: what has not been performed, and a plain load that has not returned, is issued again after
the restore (R389); but a load at a snapshot that has been revoked, or of a transaction whose snapshot is gone, keeps the value that it
had (R232, R234, R236). -/
def savedOp (s : State) (t : Thread) (o : Op) : Op :=
  if o.complete || (o.performed && (!isLoad o || deadSnap s o || (o.inTx && !t.tx.held))) then o
  else { o with sent := false, buf := [], performed := false, visible := false, poisoned := false, prot := false
                snap := if o.inTx && t.tx.held then some t.tx.s else o.snap }

/-- A thread at the instruction boundary of its pre-emption: its transaction aborts, and a JOB that waits for room is left unexecuted
(R265, R285, R339, R389). -/
def halted (s : State) (t : Thread) : Thread :=
  let t : Thread := if t.tx.depth = 0 then t else abortTx t 1
  let t : Thread := match t.held with
    | some { instr := .job _ _, .. } => if t.st = .waiting then leaveJob t (if t.dstop then .stopped else .ready) else t
    | _ => t
  { t with ops := t.ops.map (savedOp s t), grants := [], buf := [], stepping := false, st := if t.stepping ∧ t.st = .ready then .stopped else t.st }

/-- A tile as it is saved (R349). -/
def savedTile (x : Tile) : Tile := { x with waiters := [], buf := [] }

/-- Is a thread on one of some cores? -/
def onCores (cores : List Nat) (k : Nat) : Bool := cores.contains (coreOf k)

/-- The fills of some cores' tiles discarded: each goes to EMPTY, and the tl operations that it completes retire (R349, R353, R394). -/
def discardFills (s : State) (cores : List Nat) : State :=
  (s.ex.teams.filter fun e => onCores cores e.1).foldl (fun s e =>
    (e.2.tiles.filter fun x => x.2.st == .filling).foldl (fun s x => tileEmpty s e.1 x.1) s) s

/-- Does a request serve a thread on one of some cores, as a write, an atomic or a chain? -/
def sentFor (cores : List Nat) (r : Request) : Bool :=
  (match r.owner with
    | .op k _ => onCores cores k && r.frame.op != 1
    | _ => false) || r.parts.any fun p => onCores cores p.1

/-- Has an operation done at its home what may not be done twice, and not yet returned: an atomic, a CAS, or the last action of a chain? -/
def returnsLate (o : Op) : Bool :=
  !o.complete && match o.kind with
    | .rmw .. | .peerRmw .. => true
    | .chain _ => o.performed
    | _ => false

/-- Have the cores of a set come to where their areas may be written: their matrix operations are complete, their atomics and chains have
returned, and what they have sent but loads is accepted (R170, R389)? -/
def canHalt (s : State) (cores : List Nat) : Bool :=
  !(s.ex.matOps.any fun e => cores.contains e.2.core) &&
    !((s.fa.requests.map (·.2) ++ s.fa.unsent).any fun r => !r.accepted && sentFor cores r) &&
    !(s.ex.threads.any fun e => onCores cores e.1 && e.2.ops.any returnsLate)

/-- The saved set with what its cores held. -/
def fillSet (s : State) (x : SavedSet) : SavedSet :=
  let parked := s.tr.merges.flatMap fun e => e.2.waiters.filterMap waiterThread
  { x with
    written := true
    threads := (s.ex.threads.filter fun e => onCores x.cores e.1).map fun e => (e.1, halted s e.2)
    teams := (s.ex.teams.filter fun e => onCores x.cores e.1).map fun e => (e.1, { e.2 with tiles := e.2.tiles.map fun t => (t.1, savedTile t.2) })
    clusters := s.ex.clusters.filter fun e => onCores x.cores e.1
    coreRecs := s.ex.cores.filter fun e => x.cores.contains e.1
    slots := (s.ex.teams.filter fun e => onCores x.cores e.1).map fun e => (e.1, e.2.tileCount)
    parked := parked.filter fun k => onCores x.cores k && ((getThread s k).map (·.st)) == some .parked }

/-- The name of a thread, a team or a cluster of some cores, while it is saved. -/
def awayName (x : SavedSet) (k : Nat) : Nat := if onCores x.cores k then awayKey x.base k else k

/-- A request of a set's threads once they are saved: one that another package has accepted keeps its thread under its saved name, and
what a load or a word was to receive goes to nobody (R389). -/
def savedRequest (x : SavedSet) (r : Request) : Request :=
  if r.accepted then renameRequest (awayName x) r
  else match r.owner with
    | .op k _ | .word k | .tile k _ => if onCores x.cores k then { r with owner := .slot Config.slots } else r
    | _ => r

/-- The cores of a set emptied; their debug comparators stay (R389). What the freed teams of its clusters still have in flight goes on,
for the clusters as they are saved. -/
def emptyCores (s : State) (x : SavedSet) : State :=
  let s := dropWaiters s (onCores x.cores)
  { s with
    ex := { s.ex with
      threads := s.ex.threads.filter fun e => !onCores x.cores e.1
      teams := (s.ex.teams.filter fun e => !onCores x.cores e.1).map fun e =>
        (e.1, if 2 ^ 90 ≤ e.1 then { e.2 with cluster := awayName x e.2.cluster } else e.2)
      clusters := s.ex.clusters.filter fun e => !onCores x.cores e.1
      cores := s.ex.cores.map fun e => (e.1, if x.cores.contains e.1 then { comparators := e.2.comparators } else e.2)
      code := s.ex.code.filter fun c => !x.cores.contains c.core
      saved := s.ex.saved.map fun y => if y.base = x.base then x else y }
    tr := { s.tr with merges := s.tr.merges.map fun e => (e.1, { e.2 with waiters := e.2.waiters.filter fun w => match w with
      | .tile k _ _ => !onCores x.cores k
      | _ => true }) }
    fa := { s.fa with requests := s.fa.requests.map fun r => (r.1, savedRequest x r.2)
                      unsent := s.fa.unsent.filter fun r => savedRequest x r == r }
    en := { s.en with cards := s.en.cards.map fun e => (e.1, { e.2 with team := e.2.team.map (awayName x) }) } }

/-- The areas of a set written, as stamped writes of an agent of pts p, and the events of their completion (R389, R405). `h` is the
state as the cores halted. -/
def writeAreas (h : State) (x : SavedSet) (regs : Nat → Nat) : List Nat → Nat → Nat → State → Nat × State
  | [], _, p, s => (p, s)
  | core :: cs, i, p, s =>
    let ts := x.threads.filter fun e => coreOf e.1 == core
    let tms := x.teams.filter fun e => coreOf e.1 == core
    let area := x.base + i * Config.areaBytes
    let (p, s) := writeSpanAt s p area (areaImage h core ((tget x.coreRecs core).getD {}) ts tms regs)
    writeAreas h x regs cs (i + 1) p (post s 0 core 0x12 core area)

/-- The pts of the thread that has an operation. -/
def ptsOf (s : State) (id : Nat) : Nat := s.ex.threads.foldl (fun p e => if (findOp e.2 id).isSome then max p e.2.pts else p) 0

/-- REGS of the grid of a team. -/
def teamRegs (s : State) (tms : Tab Team) (team : Nat) : Nat := (((tget tms team).bind fun tm => tget s.ex.grids tm.grid).map (·.regs)).getD 0

/-- The place of a core among a set's areas. -/
def areaIndex (x : SavedSet) (core : Nat) : Nat := (x.cores.idxOf? core).getD 0

/-- The bytes of a set's area i, from an offset on. -/
def areaBytesAt (s : State) (x : SavedSet) (i o n : Nat) : List Byte := mread s.mm.mem (x.base + i * Config.areaBytes + o) n

/-- A number of a set's area i. -/
def areaNat (s : State) (x : SavedSet) (i o n : Nat) : Nat := leNat (areaBytesAt s x i o n)

/-- What the status of an operation changes in the saved image of its thread (R80, R385): D, its validity bit, the ld count and the pts,
by offset in the area (R391, R392). -/
def statusBytes (s : State) (x : SavedSet) (k : Nat) (o : Op) (status p : Nat) : List (Nat × List Byte) :=
  let i := areaIndex x (coreOf k)
  let r := 0x100000 + 256 * (k % 2048)
  let d := o.dest
  let block := areaNat s x i (0x180000 + 0x1000 + 16 * (k % 2048) + d / 8) 1
  let valid := areaNat s x i (r + 0x30) 1
  (if d < 120 then [(4 * (2048 * bits (areaNat s x i r 16) 68 63 + 8 * block + d % 8), natLe 4 status)]
    else [(r + 0x10 + 4 * (d - 120), natLe 4 status), (r + 0x30, natLe 1 (if bit valid (d - 120) then valid else valid + 2 ^ (d - 120)))]) ++
    [(r + 0x34, natLe 1 (areaNat s x i (r + 0x34) 1 - 1)), (r + 0x58, natLe 8 (max p (areaNat s x i (r + 0x58) 8)))]

/-- The status of an operation written into the saved image of its thread, where another set's areas hold it (R80, R390). -/
def writeStatus (s : State) (k id status p : Nat) : State :=
  match s.ex.saved.find? fun x => x.written && x.threads.any fun e => e.1 == k && (findOp e.2 id).any fun o => !o.complete with
  | none => s
  | some x => match (tget x.threads k).bind fun t => findOp t id with
    | none => s
    | some o => (statusBytes s x k o status p).foldl
        (fun s y => (writeSpanAt s p (x.base + areaIndex x (coreOf k) * Config.areaBytes + y.1) y.2).2) s

/-- PREEMPT_COMPLETE (R389, R390): the cores of the set halt, every area is written, and the status is delivered; a thread of the set that
asked has it in its record, with the stamp that the writes have, and one that another set's areas hold has it there. -/
def execPreemptComplete (base : Nat) (s : State) : Host.Outcome State Fault Refusal :=
  match s.ex.saved.find? fun x => x.base == base && !x.written with
  | none => .next s
  | some x =>
    if !canHalt s x.cores then .next s
    else
      let s := discardFills s x.cores
      let x := fillSet s x
      let p := (writeAreas s x (teamRegs s x.teams) x.cores 0 (ptsOf s x.op) s).1
      let x := { x with threads := x.threads.map fun e => (e.1, statusIn x.op stOk p e.2) }
      let (p, s) := writeAreas s x (teamRegs s x.teams) x.cores 0 (ptsOf s x.op) (emptyCores s x)
      .next (sysopDone (writeStatus s x.thr x.op stOk p) x.thr x.op stOk p)

/-- The place of a saved core under a new origin, or none where it falls off the die (R393). -/
def moveCore (low origin core : Nat) : Option Nat :=
  let x : Int := (origin % 8 : Nat) + (core % 8 : Nat) - (low % 8 : Nat)
  let y : Int := (origin / 8 % 8 : Nat) + (core / 8 % 8 : Nat) - (low / 8 % 8 : Nat)
  if 0 ≤ x ∧ x < 8 ∧ 0 ≤ y ∧ y < 8 ∧ core / 64 = low / 64 then some (origin / 64 * 64 + y.toNat * 8 + x.toNat) else none

/-- The targets of a set's cores, by saved core (R393). -/
def targets (x : SavedSet) (origin : Nat) : Option (List (Nat × Nat)) :=
  let low := x.cores.min?.getD 0
  x.cores.mapM fun c => (moveCore low origin c).map fun n => (c, n)

/-- A key of the saved context under its new core. -/
def moveKey (m : List (Nat × Nat)) (k : Nat) : Nat :=
  match m.find? fun e => e.1 == coreOf k with
  | some e => e.2 * 2048 + k % 2048
  | none => k

/-- Does a set's area hold a poisoned line? (R393) -/
def setPoisoned (s : State) (x : SavedSet) : Bool :=
  s.mm.lines.any fun e => e.2.poison && decide (x.base ≤ e.1 * 128) && decide (e.1 * 128 < x.base + x.cores.length * Config.areaBytes)

/-- The registers of a thread of home lane `h`, by its register blocks (R391, R392). -/
def readRegs (s : State) (x : SavedSet) (i idx h : Nat) : Tab Word :=
  let bs := areaNat s x i (0x180000 + 0x1000 + 16 * idx) 16
  (List.range (min 15 (bits bs 127 120))).foldl (fun m b =>
    (wordsAt (areaNat s x i (4 * (2048 * h + 8 * bits bs (8 * b + 7) (8 * b))) 32) 0 8).zipIdx.foldl (fun m w => tset m (8 * b + w.2) w.1) m) []

/-- The thread that a record restores, with its registers, as memory holds them now: none where the record is malformed, no thread where
its entry is FREE (R391, R393). An entry that was FREE when it was saved has nothing but its record. -/
def readThread (s : State) (x : SavedSet) (core idx : Nat) : Option (Option (Nat × Thread)) :=
  let i := areaIndex x core
  let r := areaNat s x i (0x100000 + 256 * idx) 256
  let key := core * 2048 + idx
  let team := core * 2048 + bits r 62 52
  let g := ((tget x.teams team).bind fun tm => tget s.ex.grids tm.grid).bind (·.snap)
  let h := bits r 68 63
  let t := (tget x.threads key).getD { team := team, pc := 0, glane := h }
  (recordThread core g { t with regs := readRegs s x i idx h } r).map fun o => o.map fun t => (key, t)

/-- Has GRIDEND dropped a team from its area since it was saved? (R213, R386) -/
def teamDropped (x : SavedSet) (team : Nat) : Bool := x.slots.any (fun e => e.1 == team) && (tget x.teams team).isNone

/-- The threads of a set as its records give them, or none where one is malformed (R393); those of a team that GRIDEND has dropped are no
part of it any more (R386). -/
def readThreads (s : State) (x : SavedSet) : Option (List (Nat × Thread)) :=
  (x.cores.mapM fun c => (List.range 2048).mapM fun i => readThread s x c i).map fun l =>
    (l.flatten.filterMap id).filter fun e => !teamDropped x e.2.team

/-- STATE of a tile entry's code; a fill is not restored (R343, R349). -/
def tileStateOf (n : Nat) : TileState := if n = 2 then .ready else if n = 3 then .draining else .empty

/-- The word of entry n of a saved core's tile table (R392). -/
def savedTileWord (s : State) (x : SavedSet) (i n : Nat) : Nat := areaNat s x i (0x180000 + 0x9000 + 32 * n) 4

/-- Are the reserved bits of a tile word zero? (R9, R343) -/
def tileWordOk (w : Nat) : Bool := bits w 19 4 == 0 && !bit w 2

/-- A tile as its entry in the core record restores it; no tile where none is mapped (R343, R392, R393). -/
def readTile (s : State) (x : SavedSet) (i n : Nat) (tm : Team) (j : Nat) : Option (Nat × Tile) :=
  let w := savedTileWord s x i n
  if bit w 3 = false then none
  else
    let desc := wordsAt (leNat (areaBytesAt s x i (0x80000 + tm.base + tileBase s tm + 32 * j) 32)) 0 8
    let doff := 128 * bits w 31 20
    let st := tileStateOf (bits w 1 0)
    let stamps := (List.range (if st = .empty then 0 else tileArea desc / 128)).filterMap fun b =>
      let y := areaNat s x i (0x180000 + 0x9400 + 16 * ((tm.base + doff) / 128 + b)) 16
      if bits y 63 0 ≤ bits y 127 64 then some (b, (bits y 63 0, bits y 127 64)) else none
    let old := (tget tm.tiles j).getD { desc := desc, doff := doff }
    some (j, { old with desc := desc, doff := doff, st := st, blocks := stamps })

/-- The entries of a core's tile table as it was saved: each team's, by team slot, as its team and the tile's number (R343, R392). -/
def tileNumbers (l : List (Nat × Nat)) : List (Nat × Nat) := (l.flatMap fun e => (List.range e.2).map fun j => (e.1, j)).take 32

/-- The tiles of a set's teams as its core records give them, or none where an entry of a core's 32 is malformed (R9, R393). -/
def readTiles (s : State) (x : SavedSet) : Option (List (Nat × Tab Tile)) :=
  if x.cores.all fun c => (List.range 32).all fun n => tileWordOk (savedTileWord s x (areaIndex x c) n) then
    some (x.teams.map fun e =>
      let c := coreOf e.1
      (e.1, (tileNumbers (x.slots.filter fun y => coreOf y.1 == c)).zipIdx.filterMap fun y =>
        if y.1.1 = e.1 then readTile s x (areaIndex x c) y.2 e.2 y.1.2 else none))
  else none

/-- The barrier stamps of a core record: offset in the core's stash, and stamp (R392). -/
def readStamps (s : State) (x : SavedSet) (i : Nat) : List (Nat × Nat) :=
  ((List.range Config.barrierStamps).map fun n =>
    let y := areaNat s x i (0x180000 + 0x59400 + 12 * n) 12
    (bits y 31 0, bits y 95 32)).filter fun e => e.2 != 0

/-- A load that is issued again: its page is looked up anew (R389). -/
def reissued (s : State) (asid : Nat) (o : Op) : Op :=
  match o.kind with
  | .load _ => if o.performed then o else match walk s asid o.va with
    | .leaf l => if l.r then { o with loc := locOf l asid o.va, zf := l.zf } else o
    | _ => o
  | _ => o

/-- ASID of a saved team. -/
def savedAsid (s : State) (x : SavedSet) (team : Nat) : Nat :=
  (((tget x.teams team).bind fun tm => tget s.ex.grids tm.grid).map (·.asid)).getD 0

/-- An operation that names a team, under the team's new name. -/
def moveOp (m : List (Nat × Nat)) (o : Op) : Op :=
  { o with kind := match o.kind with
    | .peerLoad k off => .peerLoad (moveKey m k) off
    | .peerStore k off y => .peerStore (moveKey m k) off y
    | .peerRmw k off f y => .peerRmw (moveKey m k) off f y
    | kind => kind }

/-- A restored thread: it takes no word of code that was filled before `e` (R81, R85, R89, R181, R370, R389); its registers come from the image, which holds no uncorrectable error (R387; notes/assumptions/37.md). -/
def restored (s : State) (x : SavedSet) (m : List (Nat × Nat)) (e k : Nat) (t : Thread) : Thread :=
  let ops := t.ops.map fun o => moveOp m (reissued s (savedAsid s x t.team) o)
  let t := { t with team := moveKey m t.team, preempted := true, ops := ops, epoch := e, runEpoch := e, rpoison := [] }
  if x.parked.contains k ∧ t.st = .parked then unparked t else t

/-- A restored team: its stash, its hidden stamps and its tiles as the area holds them (R213, R392, R393). -/
def restoreTeam (s : State) (x : SavedSet) (m : List (Nat × Nat)) (tiles : List (Nat × Tab Tile)) (e : Nat × Team) : Nat × Team :=
  let i := areaIndex x (coreOf e.1)
  let bs := areaBytesAt s x i (0x80000 + e.2.base) e.2.size
  let hidden := ((readStamps s x i).filter fun y => decide (e.2.base ≤ y.1) && decide (y.1 < e.2.base + e.2.size)).foldl
    (fun l y => tset l (y.1 - e.2.base) y.2) []
  (moveKey m e.1, { e.2 with cluster := moveKey m e.2.cluster, stash := stashBytes [] 0 bs, spoison := [], hidden := hidden
                             tiles := ((tiles.find? fun y => y.1 == e.1).map (·.2)).getD e.2.tiles })

/-- What a restored core takes over: its pointer, the order of its bundles and its barrier stamps. Its translation structures start
empty (R368, R393). -/
def restoreCore (x : SavedSet) (m : List (Nat × Nat)) (s : State) (f : Nat × Nat) : State :=
  let old := (tget x.coreRecs f.1).getD {}
  modCore s f.2 fun c => { c with
    pointer := old.pointer, formed := old.formed, lastPage := [], tlb := [], hiddenFloor := old.hiddenFloor
    hiddenAge := old.hiddenAge.filterMap fun y =>
      let k := moveKey m y.1
      if ((tget s.ex.teams k).bind fun tm => tget tm.hidden y.2).isSome then some (k, y.2) else none }

/-- A name that a saved context has lent, as the new cores have it. -/
def backName (x : SavedSet) (m : List (Nat × Nat)) (k : Nat) : Nat :=
  let k' := k % 2 ^ 20
  if k = awayKey x.base k' ∧ onCores x.cores k' then moveKey m k' else k

/-- The waits of restored threads, checked again: against the counters, the barrier words, the joins and the barriers as they stand (R261,
R326, R398). -/
def recheckAll (s : State) (ks : List Nat) : State :=
  ks.foldl (fun s k => match getThread s k with
    | some t => checkBars (checkJoins (checkBarw (recheck s k) k) k) t.team
    | none => s) s

/-- The context on its new cores; its areas are free (R393). -/
def putBack (s : State) (x : SavedSet) (m : List (Nat × Nat)) (ts : List (Nat × Thread)) (tiles : List (Nat × Tab Tile)) : State :=
  let (e, s) := fresh s
  let s := { s with
    ex := { s.ex with
      threads := ts.foldl (fun l y => tset l (moveKey m y.1) (restored s x m e y.1 y.2)) s.ex.threads
      teams := x.teams.foldl (fun l y => tset l (restoreTeam s x m tiles y).1 (restoreTeam s x m tiles y).2)
        (s.ex.teams.map fun y => (y.1, { y.2 with cluster := backName x m y.2.cluster }))
      clusters := x.clusters.foldl (fun l y => tset l (moveKey m y.1) { y.2 with teams := y.2.teams.map (moveKey m) }) s.ex.clusters
      saved := s.ex.saved.filter fun y => y.base != x.base }
    fa := { s.fa with requests := s.fa.requests.map fun r => (r.1, renameRequest (backName x m) r.2) }
    en := { s.en with cards := s.en.cards.map fun y => (y.1,
      let c := { y.2 with team := y.2.team.map (backName x m) }
      match c.thr with
      | some (k, id) => match ts.find? fun t => t.1 == k && (findOp t.2 id).isSome with
        | some _ => { c with thr := some (moveKey m k, id) }
        | none => c
      | none => c) } }
  let s := m.foldl (restoreCore x m) s
  let s := recheckAll s (ts.map fun y => moveKey m y.1)
  x.debugReqs.foldl (fun s r => (debugDo s (moveKey m r.1) r.2).2) s

/-- RESTORE (R386, R393): a poisoned area gives POISON before a record of it can be found malformed. -/
def restoreReq (s : State) (_ : Nat) (a : Args) : Nat × State :=
  match s.ex.saved.find? fun x => x.base == argPair a 1 && x.written with
  | none => (stArg, s)
  | some x =>
    if a 3 ≠ x.cores.length then (stArg, s)
    else match targets x (bits (a 0) 7 0) with
      | none => (4, s)
      | some m =>
        if m.any fun e => s.bd.badCores.contains e.2 || halting s e.2 || (coreTeams s e.2).any fun t => !t.2.gone || decide (0 < t.2.size) then (4, s)
        else if setPoisoned s x then (6, s)
        else match readThreads s x, readTiles s x with
          | some ts, some tiles => (stOk, putBack s x m ts tiles)
          | _, _ => (5, s)

/-- RESTORE (R386). -/
def execRestore (a d : Reg) (s : State) : Host.Outcome State Fault Refusal := sysWord a d restoreReq s

end Sys2Proof.Machine
end

