-- ==== Sys2Proof/Machine/Module.lean ====
section
/-! DEFINITION. Module.lean: the slots of the memory channels (R207 to R211, R231, R408, R409), the clock and the counters
(R402, R403), power (R410 to R412), resets and boot (R209, R413, R414), the management endpoint (R319), flow control (R306),
and what happens on its own: evictions and soft errors (R219, R387). -/

namespace Sys2Proof.Machine

/-- The channel on which a record, by line and wts, is held (R210, R409). -/
def recordChannel (s : State) (x : Nat × Nat) : Option Nat :=
  ((getLine s x.1).recs.find? fun r => r.wts == x.2).map fun r => channelOf (recordPa s x.1 r)

/-- Privet frees a record on its channel that no live entry can reach (R231, R409). -/
def privetOne (ch : Nat) (s : State) (x : Nat × Nat) : State :=
  let l := getLine s x.1
  match l.recs.findIdx? fun r => r.wts == x.2 with
  | none => s
  | some i =>
    let w1 := successor l i
    if recordChannel s x ≠ some ch ∨ readable s x.2 w1 then s
    else perf (raiseFloor (setLine s x.1 { l with recs := l.recs.eraseIdx i }) w1) 2 ch 6 1

/-- PRIVET_SLOT (R211, R231, R403, R409): a slot of the channel of the first record; up to four records held there are examined. -/
def execPrivetSlot (recs : List (Nat × Nat)) (s : State) : Host.Outcome State Fault Refusal :=
  match recs.head?.bind (recordChannel s) with
  | some ch => if recs.length ≤ 4 then .next (recs.foldl (privetOne ch) (perf s 2 ch 3 1)) else .next s
  | none => .next s

/-- A corrected soft error, counted for its memory: by the rows of R197, then register files and core tables. The counts saturate (R387,
R394, R403). -/
def softError (s : State) (memory : Nat) : State :=
  if 15 ≤ memory then s
  else { s with bd := { s.bd with corrected := tset s.bd.corrected memory (min (2 ^ 32 - 1) ((tget s.bd.corrected memory).getD 0 + 1)) } }

/-- The row of HBM4 in R197. -/
def rowHbm4 : Nat := 5

/-- SCRUB_SLOT (R208, R405, R408): one line of HBM4 is read. -/
def execScrubSlot (line : Nat) (result : ScrubResult) (s : State) : Host.Outcome State Fault Refusal :=
  let pa := line * 128
  let ch := channelOf pa
  if 0x9000000000 ≤ pa then (if mapped pa then .next s else .fault (.unmappedPhysical line))
  else
    let s := perf s 2 ch 4 1
    match result with
    | .clean => .next s
    | .corrected => .next (post (softError s rowHbm4) 6 ch 9 pa 0)
    | .uncorrectable => .next (post (setLine s line { getLine s line with poison := true }) 6 ch 0xA pa 0)

/-- Refresh commands counted for a channel. -/
def refreshed (s : State) (ch : Nat) : State :=
  perf { s with bd := { s.bd with refreshed := tset s.bd.refreshed ch ((tget s.bd.refreshed ch).getD 0 + 1) } } 2 ch 2 1

/-- REFRESH_SLOT (R206, R408). -/
def execRefreshSlot (channel : Nat) (s : State) : Host.Outcome State Fault Refusal :=
  if channel < 384 then .next (refreshed s channel) else .next s

/-- PER_BANK_REFRESH (R207). -/
def execPerBankRefresh (channel : Nat) (s : State) : Host.Outcome State Fault Refusal :=
  if channel < 96 then .next (refreshed s (384 + channel)) else .next s

/-- TELEMETRY_SLOT (R408, R409). -/
def execTelemetrySlot (channel temp errors : Nat) (s : State) : Host.Outcome State Fault Refusal :=
  if channel < 384 then
    .next (perf { s with bd := { s.bd with telemetry := tset s.bd.telemetry channel (temp, errors) } } 2 channel 5 1)
  else .next s

/-- CYCLE_COUNTER (R402). -/
def execCycleCounter (s : State) : Host.Outcome State Fault Refusal :=
  .next { s with bd := { s.bd with clock := (s.bd.clock + 1) % 2 ^ 64 } }

/-- COUNTER_SAMPLE (R403). -/
def execCounterSample (s : State) : Host.Outcome State Fault Refusal :=
  .next { s with bd := { s.bd with samples := s.bd.perf } }

/-- PRIORITY_FLOW_CONTROL (R306): a pause of the host port on priority 3 or 4, in quanta of 512 bit times; 0 ends it. -/
def execPriorityFlowControl (port prio quanta : Nat) (s : State) : Host.Outcome State Fault Refusal :=
  if port = 0 ∧ (prio = 3 ∨ prio = 4) then
    let until_ := s.bd.clock + (2 * quanta + 4) / 5
    .next { s with fa := { s.fa with pauses := if quanta = 0 then tdel s.fa.pauses prio else tset s.fa.pauses prio until_ } }
  else .next s

/-- Do readings exceed a limit of the power alarm? (R411) -/
def overLimit (moduleW packageW junction : Nat) : Bool := decide (3200 < moduleW) || decide (2800 < packageW) || decide (95 < junction)
/-- Do readings stand below every clear limit? (R411) -/
def belowClear (moduleW packageW junction : Nat) : Bool := decide (moduleW < 3040) && decide (packageW < 2660) && decide (junction < 90)

/-- The alarm set or cleared: the matrix engines' mode follows, and it is posted (R85, R411). -/
def setAlarm (s : State) (on : Bool) : State :=
  post { s with
    bd := { s.bd with alarm := on, quietSince := none }
    ex := { s.ex with matNarrow := if on then List.range Config.cores else [] } } 0xB 0 0x11 on.toNat 0

/-- POWER_ALARM (R411). -/
def execPowerAlarm (moduleW packageW junction : Nat) (s : State) : Host.Outcome State Fault Refusal :=
  let s := if belowClear moduleW packageW junction then s else { s with bd := { s.bd with quietSince := none } }
  if overLimit moduleW packageW junction ∧ s.bd.alarm = false then .next (setAlarm s true) else .next s

/-- Cycles of 10 ms. -/
def cycles10ms : Nat := 12500000

/-- POWER_ALARM_CLEAR (R411): readings below the clear limits; the alarm clears once they have lasted for 10 ms. -/
def execPowerAlarmClear (moduleW packageW junction : Nat) (s : State) : Host.Outcome State Fault Refusal :=
  if !belowClear moduleW packageW junction then .next { s with bd := { s.bd with quietSince := none } }
  else match s.bd.quietSince with
    | none => .next { s with bd := { s.bd with quietSince := some s.bd.clock } }
    | some c => if s.bd.alarm ∧ c + cycles10ms ≤ s.bd.clock then .next (setAlarm s false) else .next s

/-- Host memory, which is no part of the module and stands through what happens to it (R1, R201). -/
def hostMem (s : State) : Mem := s.mm.mem.filter fun c => isHost c.1

/-- What the flash and the always-on domain keep through everything but a power-on (R197, R413 to R415). -/
def keptBase (s : State) (b : Base) : Base :=
  { b with boxwood := s.bd.boxwood, posted := s.bd.posted, images := s.bd.images, flashCores := s.bd.flashCores, flashPorts := s.bd.flashPorts
           flashVersion := s.bd.flashVersion, flashSpill := s.bd.flashSpill }

/-- A machine without power but in its always-on domain (R412, R413). -/
def darkState (s : State) (p : Power) : State :=
  { bd := keptBase s { badCores := s.bd.flashCores, power := p }
    fa := { badPorts := s.bd.flashPorts, dataMac := s.fa.dataMac, mgmtMac := s.fa.mgmtMac }
    agenda := s.agenda, nextId := s.nextId, mm := { mem := hostMem s, openings := s.mm.openings } }

/-- TRIP (R412): a junction above 110 degrees, or a flow below 1000 mL/min; it is posted, and power goes. -/
def execTrip (cause reading : Nat) (s : State) : Host.Outcome State Fault Refusal :=
  if (cause = 1 ∧ 110 < reading) ∨ (cause = 2 ∧ reading < 1000) then
    .next (darkState (post s 0xB 0 0x14 cause reading) .tripped)
  else .next s

/-- POWER_ON (R413): the first application of standby power zeroes Boxwood and POSTED, and asks for a cold reset. -/
def execPowerOn (s : State) : Host.Outcome State Fault Refusal :=
  let d := darkState s .standby
  .next { d with bd := { d.bd with boxwood := [], posted := 0, resetPending := some true } }

/-- The image that boots: the valid one of the higher version, or the other valid one where that fails; of two of one version, the first
(R414; notes/assumptions/6.md). -/
def bootImage (s : State) : Option Nat :=
  let l := s.bd.images.zipIdx.filter fun x => x.1.valid && !x.1.fails
  (firstBy (fun a b => decide (b.1.version < a.1.version)) l).map (·.2)

/-- The state of the units of a boot: the retired-unit map is that of the flash, with the cores that fail self-test; ports that fail training
stay down; the version and spill regions have the sizes of the flash configuration (R306, R320, R414). -/
def booted (s r : State) (image : Option Nat) (badCores downPorts : List Nat) : State :=
  let cores := badCores.filter fun c => decide (c < Config.cores)
  { r with
    bd := { r.bd with badCores := cores.foldl addUnit s.bd.flashCores, image := image }
    fa := { r.fa with badPorts := s.bd.flashPorts, downPorts := (downPorts.filter fun p => decide (p ≤ 32)).dedup
                      dataMac := s.fa.dataMac, mgmtMac := s.fa.mgmtMac }
    mm := { r.mm with versionGiB := s.bd.flashVersion, spillGiB := s.bd.flashSpill, openings := s.mm.openings } }

/-- Every port that is down after training posts its event (R306, R405). Port 32 is the host port. -/
def postDown (s : State) : State :=
  s.fa.downPorts.foldl (fun s p => if p = 32 then post s 9 0 0x0F p 0 else post s 0xA p 0x0F p 0) s

/-- The hand-off state of a cold boot, with what the reset keeps (R209, R413, R414). -/
def coldState (s : State) (image : Option Nat) (badCores downPorts : List Nat) : State :=
  let r := State.reset
  let b := booted s r image badCores downPorts
  { b with bd := keptBase s b.bd, mm := { b.mm with mem := hostMem s }, agenda := s.agenda, nextId := s.nextId }

/-- COLD_RESET (R306, R413, R414): with no image that boots the module stays in management-only mode. -/
def execColdReset (badCores downPorts : List Nat) (s : State) : Host.Outcome State Fault Refusal :=
  if s.bd.resetPending ≠ some true then .next s
  else match bootImage s with
    | some i => .next (postDown (coldState s (some i) badCores downPorts))
    | none => .next (darkState s .managementOnly)

/-- Memory after a warm reset: the dirty lines that it loses hold what memory held (R209). -/
def warmMem (s : State) : Mem :=
  s.mm.lines.foldl (fun m e => match e.2.back with
    | some bs => if Config.dirtyLost s.nextId e.1 then mwrite m (e.1 * 128) bs else m
    | none => m) s.mm.mem

/-- What a warm reset leaves before a boot (R209, R413): grids, queues, jobs, contexts and snapshots are discarded, memories, Boxwood
and the cycle counter kept, with what counts from a cold reset (R283, R394), and only the management core runs. -/
def warmKept (s : State) : State :=
  { mm := { mem := warmMem s
            lines := (s.mm.lines.filter (·.2.poison)).map fun e => (e.1, { wts := 0, rts := 0, poison := true })
            laurel := s.mm.laurel, openings := s.mm.openings, versionGiB := s.mm.versionGiB, spillGiB := s.mm.spillGiB }
    ex := { ageMax := s.ex.ageMax, matNarrow := s.ex.matNarrow }
    tr := { roots := s.tr.roots, frames := s.tr.frames, migth := s.tr.migth }
    fa := { exports := s.fa.exports, pkg := s.fa.pkg, badPorts := s.fa.badPorts, downPorts := s.fa.downPorts
            dataMac := s.fa.dataMac, mgmtMac := s.fa.mgmtMac }
    bd := { s.bd with eventQ := { count := s.bd.eventQ.count }, evWait := [], mgmtPts := 0, resetPending := none, image := none
                      power := .managementOnly }
    agenda := s.agenda, nextId := s.nextId + 1 }

/-- The state after a warm reset whose boot has taken an image: queue 0 and its pair are created again (R414). -/
def warmState (s : State) (image : Nat) (badCores downPorts : List Nat) : State :=
  let b := booted s (warmKept s) (some image) badCores downPorts
  { b with qu := State.reset.qu, fa := { b.fa with qps := State.reset.fa.qps }, bd := { b.bd with power := .running } }

/-- Is the management core in charge of a module that no trip has stopped? (R412 to R414) -/
def managed (s : State) : Bool := s.bd.power == .running || s.bd.power == .managementOnly

/-- WARM_RESET (R413, R414): with no image that boots the module is in management-only mode, and nothing of a boot is done. Which cores fail self-test and which
ports fail training is open (notes/assumptions/6.md). -/
def execWarmReset (s : State) : Host.Outcome State Fault Refusal :=
  if s.bd.resetPending = some false ∧ managed s = true then
    match bootImage s with
    | some i => .next (postDown (warmState s i (Config.selfTestFails s.nextId) (Config.trainingFails s.nextId)))
    | none => .next (warmKept s)
  else .next s

/-- REDFISH_RESET (R412, R413): a reset asked for while another is in progress is merged with it. A trip is left only by a cold
reset. -/
def execRedfishReset (cold : Bool) (s : State) : Host.Outcome State Fault Refusal :=
  if cold || managed s then
    .next { s with bd := { s.bd with resetPending := some (cold || s.bd.resetPending == some true) } }
  else .next s

/-- May the version region have this size, in GiB? (R210) -/
def versionOk (n : Nat) : Bool := decide (4 ≤ n) && decide (n ≤ 64) && n % 4 == 0

/-- REDFISH_UPDATE (R319, R414, R415): an image is written to slot 0 or 1, or, as slot 2, the retired-unit map: cores by
number, and ports as 256 + number; or, as slot 3, the sizes of the version and spill regions in the flash configuration. An image with
a list that is not empty is one that fails to boot (notes/assumptions/6.md). -/
def execRedfishUpdate (slot version : Nat) (crcOk : Bool) (retired : List Nat) (s : State) : Host.Outcome State Fault Refusal :=
  if slot < 2 then
    .next { s with bd := { s.bd with images := s.bd.images.set slot { version := version, valid := crcOk, fails := !retired.isEmpty } } }
  else if slot = 2 then
    .next { s with bd := { s.bd with
      flashCores := retired.filter fun n => decide (n < 256)
      flashPorts := (retired.filter fun n => decide (256 ≤ n) && decide (n < 288)).map (· - 256) } }
  else if slot = 3 ∧ versionOk version = true ∧ retired.length = 1 ∧ retired.headD 0 ≤ 1024 then
    .next { s with bd := { s.bd with flashVersion := version, flashSpill := retired.headD 0 } }
  else .next s

/-- Where the module stands, as Redfish says it: Enabled is the hand-off (R414). -/
def powerCode : Power → Nat
  | .standby => 0 | .running => 1 | .managementOnly => 2 | .tripped => 3

/-- What a Redfish read returns (R223, R319, R403, R407, R414): 0 LogServices, `n` Boxwood entries from an age on; 1 `n` bytes of memory
from a physical address on; 2 Sensors, the last samples of `n` counters from a number on; 3 UpdateService, the images' versions; 4
ServiceRoot, the numbers of the resources; 5 Managers, the image that the management core runs and whether a reset is pending; 6 Chassis,
its Status; 7 PowerSubsystem, the alarm; 8 ThermalSubsystem, the temperatures of `n` channels from a number on. The bytes are a DESIGN
CHOICE (notes/assumptions/29.md). -/
def redfishValue (s : State) (resource from_ n : Nat) : List Byte :=
  match resource with
  | 0 => ((s.bd.boxwood.drop from_).take n).flatMap fun e => natLe 32 (eventValue e)
  | 1 => mread s.mm.mem from_ n
  | 2 => (List.range n).flatMap fun i => natLe 8 ((tget s.bd.samples (from_ + i)).getD 0)
  | 3 => s.bd.images.flatMap fun x => natLe 8 x.version
  | 4 => (List.range 9).flatMap (natLe 1)
  | 5 => natLe 1 ((s.bd.image.map (· + 1)).getD 0) ++ natLe 1 (match s.bd.resetPending with
    | none => 0
    | some false => 1
    | some true => 2)
  | 6 => natLe 1 (powerCode s.bd.power)
  | 7 => natLe 1 s.bd.alarm.toNat
  | 8 => (List.range n).flatMap fun i => natLe 8 (((tget s.bd.telemetry (from_ + i)).map (·.1)).getD 0)
  | _ => []

/-- REDFISH_READ (R223, R319): it changes no state of the device; what it returns goes out by the management endpoint. -/
def execRedfishRead (r : RedfishGet) (s : State) : Host.Outcome State Fault Refusal :=
  .next { s with bd := { s.bd with redfish := redfishValue s r.resource r.from_ r.n } }

/-- May an event happen while the dies have no power? Only what the management core does (R412 to R414, R319). -/
def managementEvent (s : State) (i : Instr) : Bool :=
  match i with
  | .redfishReset _ | .redfishUpdate .. | .redfishRead .. | .powerOn | .coldReset .. | .warmReset .. | .counterSample => true
  | .trip .. => managed s
  | .powerAlarm .. | .powerAlarmClear .. | .cycleCounter => s.bd.power == .managementOnly
  | _ => false

/-- May an event happen now? -/
def eventAllowed (s : State) (i : Instr) : Bool := s.bd.power == .running || managementEvent s i

/-- A home slice evicts a line (R219, R222): its deltas are folded, it is written back, and the memory stamp rises to its rts. No slice
holds a host line (R202). The model evicts no line with records or poison, and none whose rts a live snapshot is below (notes/assumptions/12.md). -/
def evictLine (s : State) (line : Nat) : Host.Outcome State Fault Refusal :=
  if !mapped (line * 128) then .fault (.unmappedPhysical line)
  else
    let s := writeBackWhere (foldLine s line) (· == line)
    if isHost (line * 128) then .next s
    else match tget s.mm.lines line with
    | none => .next s
    | some l =>
      if l.recs ≠ [] ∨ l.poison ∨ s.mm.horizon.any (fun h => decide (h.s < l.rts)) ∨ s.mm.maxWrite < l.rts then .next s
      else
        let h := homeSlice (line * 128)
        let m := max ((tget s.mm.memStamp h).getD 0) l.rts
        .next (raiseFloor { s with mm := { s.mm with memStamp := tset s.mm.memStamp h m, lines := tdel s.mm.lines line } } m)

/-- An uncorrectable error of a register (R387). -/
def registerError (s : State) (k r : Nat) : State := modThread s k fun t => { t with rpoison := addUnit t.rpoison r }

/-- An uncorrectable error of a stash word (R387). -/
def stashError (s : State) (team off : Nat) : State := modTeam s team fun tm => { tm with spoison := addUnit tm.spoison (off / 4) }

/-- An uncorrectable error of a line of HBM4 or of the second tier, or of its delta line: it is poisoned, which is posted (R208, R405). -/
def lineError (s : State) (line : Nat) : State :=
  let pa := line * 128
  if isHost pa || !mapped pa then s
  else post (setLine s line { getLine s line with poison := true }) 6 (channelOf pa) 0xA pa 0

/-- The answers that folds have made ready are sent (R314). -/
def sendDue (s : State) : State := s.fa.due.foldl respond { s with fa := { s.fa with due := [] } }

end Sys2Proof.Machine
end

