-- ==== Sys2Proof/Machine/Dispatch.lean ====
section
/-! DEFINITION. Dispatch.lean: the meaning of each instruction and of each step, one arm per constructor. -/

namespace Sys2Proof.Machine

def exec (i : Instr) (s : State) : Host.Outcome State Fault Refusal :=
  match i with
  | .iadd m d a b => Sys2Proof.Machine.execIadd m d a b s
  | .isub m d a b => Sys2Proof.Machine.execIsub m d a b s
  | .imul m d a b => Sys2Proof.Machine.execImul m d a b s
  | .imin m d a b => Sys2Proof.Machine.execImin m d a b s
  | .imax m d a b => Sys2Proof.Machine.execImax m d a b s
  | .iabsd m d a b => Sys2Proof.Machine.execIabsd m d a b s
  | .and d a b => Sys2Proof.Machine.execAnd d a b s
  | .or d a b => Sys2Proof.Machine.execOr d a b s
  | .xor d a b => Sys2Proof.Machine.execXor d a b s
  | .andn d a b => Sys2Proof.Machine.execAndn d a b s
  | .shl d a b => Sys2Proof.Machine.execShl d a b s
  | .shr m d a b => Sys2Proof.Machine.execShr m d a b s
  | .rotl d a b => Sys2Proof.Machine.execRotl d a b s
  | .bcnt d a => Sys2Proof.Machine.execBcnt d a s
  | .clz d a => Sys2Proof.Machine.execClz d a s
  | .ctz d a => Sys2Proof.Machine.execCtz d a s
  | .bitrev d a => Sys2Proof.Machine.execBitrev d a s
  | .not d a => Sys2Proof.Machine.execNot d a s
  | .fext m d a b => Sys2Proof.Machine.execFext m d a b s
  | .fins d a b => Sys2Proof.Machine.execFins d a b s
  | .movi d imm => Sys2Proof.Machine.execMovi d imm s
  | .iaddi d a imm => Sys2Proof.Machine.execIaddi d a imm s
  | .imuli d a imm => Sys2Proof.Machine.execImuli d a imm s
  | .andi d a imm => Sys2Proof.Machine.execAndi d a imm s
  | .ori d a imm => Sys2Proof.Machine.execOri d a imm s
  | .xori d a imm => Sys2Proof.Machine.execXori d a imm s
  | .shli d a n => Sys2Proof.Machine.execShli d a n s
  | .shri d a n => Sys2Proof.Machine.execShri d a n s
  | .sari d a n => Sys2Proof.Machine.execSari d a n s
  | .add64i d a imm => Sys2Proof.Machine.execAdd64i d a imm s
  | .add64 d a b => Sys2Proof.Machine.execAdd64 d a b s
  | .lea64 sh d a b => Sys2Proof.Machine.execLea64 sh d a b s
  | .sub64 d a b => Sys2Proof.Machine.execSub64 d a b s
  | .mov m d a => Sys2Proof.Machine.execMov m d a s
  | .movsr d n => Sys2Proof.Machine.execMovsr d n s
  | .movl d n => Sys2Proof.Machine.execMovl d n s
  | .imad d a b c => Sys2Proof.Machine.execImad d a b c s
  | .icmp c pd pc a b => Sys2Proof.Machine.execIcmp c pd pc a b s
  | .icmpi c pd pc a imm => Sys2Proof.Machine.execIcmpi c pd pc a imm s
  | .fcmp c pd pc a b => Sys2Proof.Machine.execFcmp c pd pc a b s
  | .icmp64 c pd pc a b => Sys2Proof.Machine.execIcmp64 c pd pc a b s
  | .pcomb m pd pc pa pb => Sys2Proof.Machine.execPcomb m pd pc pa pb s
  | .pget d => Sys2Proof.Machine.execPget d s
  | .pset a => Sys2Proof.Machine.execPset a s
  | .pick p d a b => Sys2Proof.Machine.execPick p d a b s
  | .fadd m d a b => Sys2Proof.Machine.execFadd m d a b s
  | .fsub m d a b => Sys2Proof.Machine.execFsub m d a b s
  | .fmul m d a b => Sys2Proof.Machine.execFmul m d a b s
  | .fmin m d a b => Sys2Proof.Machine.execFmin m d a b s
  | .fmax m d a b => Sys2Proof.Machine.execFmax m d a b s
  | .fdiv m d a b => Sys2Proof.Machine.execFdiv m d a b s
  | .fabs d a => Sys2Proof.Machine.execFabs d a s
  | .fneg d a => Sys2Proof.Machine.execFneg d a s
  | .fsat d a => Sys2Proof.Machine.execFsat d a s
  | .ffrac d a => Sys2Proof.Machine.execFfrac d a s
  | .fround m d a => Sys2Proof.Machine.execFround m d a s
  | .fcopys d a b => Sys2Proof.Machine.execFcopys d a b s
  | .fldx m d a b => Sys2Proof.Machine.execFldx m d a b s
  | .fkind d a => Sys2Proof.Machine.execFkind d a s
  | .padd m d a b => Sys2Proof.Machine.execPadd m d a b s
  | .pmul m d a b => Sys2Proof.Machine.execPmul m d a b s
  | .pmin m d a b => Sys2Proof.Machine.execPmin m d a b s
  | .pmax m d a b => Sys2Proof.Machine.execPmax m d a b s
  | .fdp2 m d a b => Sys2Proof.Machine.execFdp2 m d a b s
  | .fmac d a b c => Sys2Proof.Machine.execFmac d a b c s
  | .pmac d a b c => Sys2Proof.Machine.execPmac d a b c s
  | .fcvi m d a => Sys2Proof.Machine.execFcvi m d a s
  | .icvf m d a => Sys2Proof.Machine.execIcvf m d a s
  | .pack16 m d a b => Sys2Proof.Machine.execPack16 m d a b s
  | .unpk16 m d a => Sys2Proof.Machine.execUnpk16 m d a s
  | .cvtn k d a b => Sys2Proof.Machine.execCvtn k d a b s
  | .cvtw k d a b => Sys2Proof.Machine.execCvtw k d a b s
  | .unpk3 z m d a => Sys2Proof.Machine.execUnpk3 z m d a s
  | .cbdec k d a => Sys2Proof.Machine.execCbdec k d a s
  | .recip d a => Sys2Proof.Machine.execRecip d a s
  | .rroot d a => Sys2Proof.Machine.execRroot d a s
  | .sqrt d a => Sys2Proof.Machine.execSqrt d a s
  | .exp2 d a => Sys2Proof.Machine.execExp2 d a s
  | .log2 d a => Sys2Proof.Machine.execLog2 d a s
  | .tanh d a => Sys2Proof.Machine.execTanh d a s
  | .sint d a => Sys2Proof.Machine.execSint d a s
  | .cost d a => Sys2Proof.Machine.execCost d a s
  | .icvi m d a => Sys2Proof.Machine.execIcvi m d a s
  | .bsel d a b => Sys2Proof.Machine.execBsel d a b s
  | .dotb4 sat ua ub d a b => Sys2Proof.Machine.execDotb4 sat ua ub d a b s
  | .isgna d a b => Sys2Proof.Machine.execIsgna d a b s
  | .shfl m d a b => Sys2Proof.Machine.execShfl m d a b s
  | .gpoll m d a => Sys2Proof.Machine.execGpoll m d a s
  | .ired m d a => Sys2Proof.Machine.execIred m d a s
  | .fred m d a => Sys2Proof.Machine.execFred m d a s
  | .iscan excl m d a => Sys2Proof.Machine.execIscan excl m d a s
  | .fscan excl m d a => Sys2Proof.Machine.execFscan excl m d a s
  | .peers d a => Sys2Proof.Machine.execPeers d a s
  | .bcast d a b => Sys2Proof.Machine.execBcast d a b s
  | .leader d => Sys2Proof.Machine.execLeader d s
  | .ddx m d a => Sys2Proof.Machine.execDdx m d a s
  | .gjoin => Sys2Proof.Machine.execGjoin s
  | .compact m d a b => Sys2Proof.Machine.execCompact m d a b s
  | .ldN8 pg d a imm => Sys2Proof.Machine.execLdN8 pg d a imm s
  | .ldI8 pg d a imm => Sys2Proof.Machine.execLdI8 pg d a imm s
  | .ldN16 pg d a imm => Sys2Proof.Machine.execLdN16 pg d a imm s
  | .ldI16 pg d a imm => Sys2Proof.Machine.execLdI16 pg d a imm s
  | .ld32 pg d a imm => Sys2Proof.Machine.execLd32 pg d a imm s
  | .ld64 pg d a imm => Sys2Proof.Machine.execLd64 pg d a imm s
  | .ld128 pg d a imm => Sys2Proof.Machine.execLd128 pg d a imm s
  | .st8 pg d a imm => Sys2Proof.Machine.execSt8 pg d a imm s
  | .st16 pg d a imm => Sys2Proof.Machine.execSt16 pg d a imm s
  | .st32 pg d a imm => Sys2Proof.Machine.execSt32 pg d a imm s
  | .st64 pg d a imm => Sys2Proof.Machine.execSt64 pg d a imm s
  | .st128 pg d a imm => Sys2Proof.Machine.execSt128 pg d a imm s
  | .lds32 pg d a imm => Sys2Proof.Machine.execLds32 pg d a imm s
  | .sts32 pg d a imm => Sys2Proof.Machine.execSts32 pg d a imm s
  | .lds128 pg d a imm => Sys2Proof.Machine.execLds128 pg d a imm s
  | .sts128 pg d a imm => Sys2Proof.Machine.execSts128 pg d a imm s
  | .atom m d a b => Sys2Proof.Machine.execAtom m d a b s
  | .atom64 m d a b => Sys2Proof.Machine.execAtom64 m d a b s
  | .atomf m d a b => Sys2Proof.Machine.execAtomf m d a b s
  | .cas m d a b => Sys2Proof.Machine.execCas m d a b s
  | .radd m a b => Sys2Proof.Machine.execRadd m a b s
  | .rflush m => Sys2Proof.Machine.execRflush m s
  | .chld m d a b => Sys2Proof.Machine.execChld m d a b s
  | .cld d a => Sys2Proof.Machine.execCld d a s
  | .cst a b => Sys2Proof.Machine.execCst a b s
  | .atoms m d a b => Sys2Proof.Machine.execAtoms m d a b s
  | .tld m d a k => Sys2Proof.Machine.execTld m d a k s
  | .tst m d a k => Sys2Proof.Machine.execTst m d a k s
  | .tldf m d a k => Sys2Proof.Machine.execTldf m d a k s
  | .tstf d a k => Sys2Proof.Machine.execTstf d a k s
  | .tctlMap d a => Sys2Proof.Machine.execTctlMap d a s
  | .tctlFill k => Sys2Proof.Machine.execTctlFill k s
  | .tctlDrain k => Sys2Proof.Machine.execTctlDrain k s
  | .tctlFree k => Sys2Proof.Machine.execTctlFree k s
  | .tctlQuery d k => Sys2Proof.Machine.execTctlQuery d k s
  | .barwArrive d a => Sys2Proof.Machine.execBarwArrive d a s
  | .barwWait a b => Sys2Proof.Machine.execBarwWait a b s
  | .barwArriveWait d a => Sys2Proof.Machine.execBarwArriveWait d a s
  | .barwInit a b => Sys2Proof.Machine.execBarwInit a b s
  | .mma k d a b => Sys2Proof.Machine.execMma k d a b s
  | .mmaU k d a b => Sys2Proof.Machine.execMmaU k d a b s
  | .mmaSp k d a b => Sys2Proof.Machine.execMmaSp k d a b s
  | .mmaSpU k d a b => Sys2Proof.Machine.execMmaSpU k d a b s
  | .cmprs k d a => Sys2Proof.Machine.execCmprs k d a s
  | .spalpha d a b => Sys2Proof.Machine.execSpalpha d a b s
  | .spblend d a b => Sys2Proof.Machine.execSpblend d a b s
  | .keypk d a b => Sys2Proof.Machine.execKeypk d a b s
  | .triedge d a b => Sys2Proof.Machine.execTriedge d a b s
  | .wait ld st cp tl => Sys2Proof.Machine.execWait ld st cp tl s
  | .bar m => Sys2Proof.Machine.execBar m s
  | .job k a => Sys2Proof.Machine.execJob k a s
  | .qpush d a b => Sys2Proof.Machine.execQpush d a b s
  | .txbegin => Sys2Proof.Machine.execTxbegin s
  | .txcommit pd => Sys2Proof.Machine.execTxcommit pd s
  | .txabort => Sys2Proof.Machine.execTxabort s
  | .snapOpen => Sys2Proof.Machine.execSnapOpen s
  | .snapClose => Sys2Proof.Machine.execSnapClose s
  | .fence m => Sys2Proof.Machine.execFence m s
  | .trap n => Sys2Proof.Machine.execTrap n s
  | .brkpt => Sys2Proof.Machine.execBrkpt s
  | .yield => Sys2Proof.Machine.execYield s
  | .stop => Sys2Proof.Machine.execStop s
  | .iflush m => Sys2Proof.Machine.execIflush m s
  | .thrclr a d => Sys2Proof.Machine.execThrclr a d s
  | .thread a d => Sys2Proof.Machine.execThread a d s
  | .gridend a d => Sys2Proof.Machine.execGridend a d s
  | .agemax a d => Sys2Proof.Machine.execAgemax a d s
  | .laurelsz a d => Sys2Proof.Machine.execLaurelsz a d s
  | .migth a d => Sys2Proof.Machine.execMigth a d s
  | .frameadd a d => Sys2Proof.Machine.execFrameadd a d s
  | .migrate a d => Sys2Proof.Machine.execMigrate a d s
  | .root a d => Sys2Proof.Machine.execRoot a d s
  | .inval a d => Sys2Proof.Machine.execInval a d s
  | .replay a d => Sys2Proof.Machine.execReplay a d s
  | .ringset a d => Sys2Proof.Machine.execRingset a d s
  | .queue a d => Sys2Proof.Machine.execQueue a d s
  | .release a d => Sys2Proof.Machine.execRelease a d s
  | .qpopen a d => Sys2Proof.Machine.execQpopen a d s
  | .cgroup a d => Sys2Proof.Machine.execCgroup a d s
  | .pkgset a d => Sys2Proof.Machine.execPkgset a d s
  | .exportPage a d => Sys2Proof.Machine.execExportPage a d s
  | .retire a d => Sys2Proof.Machine.execRetire a d s
  | .dbgmatch a d => Sys2Proof.Machine.execDbgmatch a d s
  | .teamstop a d => Sys2Proof.Machine.execTeamstop a d s
  | .debug a d => Sys2Proof.Machine.execDebug a d s
  | .preempt a d => Sys2Proof.Machine.execPreempt a d s
  | .restore a d => Sys2Proof.Machine.execRestore a d s
  | .boxread a d => Sys2Proof.Machine.execBoxread a d s
  | .prep bt imm => Sys2Proof.Machine.execPrep bt imm s
  | .prepr bt a => Sys2Proof.Machine.execPrepr bt a s
  | .xfer bt ps neg => Sys2Proof.Machine.execXfer bt ps neg s
  | .xferCall bt ps neg => Sys2Proof.Machine.execXferCall bt ps neg s
  | .xferRet bt ps neg => Sys2Proof.Machine.execXferRet bt ps neg s
  | .bcopy bt bs => Sys2Proof.Machine.execBcopy bt bs s
  | .bload bt a => Sys2Proof.Machine.execBload bt a s
  | .binv bt => Sys2Proof.Machine.execBinv bt s
  | .xdec bt a => Sys2Proof.Machine.execXdec bt a s
  | .matrixOperation op => Sys2Proof.Machine.execMatrixOperation op s
  | .jobAppend wid => Sys2Proof.Machine.execJobAppend wid s
  | .formBundle core port => Sys2Proof.Machine.execFormBundle core port s
  | .teamPlacement => Sys2Proof.Machine.execTeamPlacement s
  | .clusterPlacement => Sys2Proof.Machine.execClusterPlacement s
  | .gridReserving grid => Sys2Proof.Machine.execGridReserving grid s
  | .teamFree team => Sys2Proof.Machine.execTeamFree team s
  | .gridCompletion grid => Sys2Proof.Machine.execGridCompletion grid s
  | .homeAccess wid line viaL1 => Sys2Proof.Machine.execHomeAccess wid line viaL1 s
  | .loadReturn thr op => Sys2Proof.Machine.execLoadReturn thr op s
  | .chainStep thr op => Sys2Proof.Machine.execChainStep thr op s
  | .peerStashAccess wid => Sys2Proof.Machine.execPeerStashAccess wid s
  | .raddArrival wid line => Sys2Proof.Machine.execRaddArrival wid line s
  | .horizonEntryFreed grid waiter => Sys2Proof.Machine.execHorizonEntryFreed grid waiter s
  | .slotBind slot => Sys2Proof.Machine.execSlotBind slot s
  | .slotUnbind slot => Sys2Proof.Machine.execSlotUnbind slot s
  | .entryTake slot => Sys2Proof.Machine.execEntryTake slot s
  | .entryWaitPoll slot => Sys2Proof.Machine.execEntryWaitPoll slot s
  | .entryHandOn slot => Sys2Proof.Machine.execEntryHandOn slot s
  | .entrySignalWrite queue entry => Sys2Proof.Machine.execEntrySignalWrite queue entry s
  | .faultRecordWrite die => Sys2Proof.Machine.execFaultRecordWrite die s
  | .jobStart card => Sys2Proof.Machine.execJobStart card s
  | .copyPiece card row dst => Sys2Proof.Machine.execCopyPiece card row dst s
  | .sortJob card => Sys2Proof.Machine.execSortJob card s
  | .gatherbindJob card => Sys2Proof.Machine.execGatherbindJob card s
  | .unbindJob card => Sys2Proof.Machine.execUnbindJob card s
  | .collJob card => Sys2Proof.Machine.execCollJob card s
  | .ocompJob card => Sys2Proof.Machine.execOcompJob card s
  | .jobCompletion card => Sys2Proof.Machine.execJobCompletion card s
  | .walkComplete die w => Sys2Proof.Machine.execWalkComplete die w s
  | .zeroFillFirstWrite die entry => Sys2Proof.Machine.execZeroFillFirstWrite die entry s
  | .migration asid va => Sys2Proof.Machine.execMigration asid va s
  | .tileFillComplete team tile => Sys2Proof.Machine.execTileFillComplete team tile s
  | .tileDrainComplete team tile => Sys2Proof.Machine.execTileDrainComplete team tile s
  | .hostPathResponse wid line hostWrites => Sys2Proof.Machine.execHostPathResponse wid line hostWrites s
  | .preemptComplete base => Sys2Proof.Machine.execPreemptComplete base s
  | .graphStart slot => Sys2Proof.Machine.execGraphStart slot s
  | .kernelNode die node => Sys2Proof.Machine.execKernelNode die node s
  | .jobNode die node => Sys2Proof.Machine.execJobNode die node s
  | .condNode die node => Sys2Proof.Machine.execCondNode die node s
  | .whileNode die node => Sys2Proof.Machine.execWhileNode die node s
  | .signalNode die node => Sys2Proof.Machine.execSignalNode die node s
  | .waitNode die node => Sys2Proof.Machine.execWaitNode die node s
  | .nodeComplete die node => Sys2Proof.Machine.execNodeComplete die node s
  | .cycleCounter => Sys2Proof.Machine.execCycleCounter s
  | .privetSlot recs => Sys2Proof.Machine.execPrivetSlot recs s
  | .scrubSlot line result => Sys2Proof.Machine.execScrubSlot line result s
  | .refreshSlot channel => Sys2Proof.Machine.execRefreshSlot channel s
  | .telemetrySlot channel temp errors => Sys2Proof.Machine.execTelemetrySlot channel temp errors s
  | .doorbell qp key va data => Sys2Proof.Machine.execDoorbell qp key va data s
  | .migrationDeviceRequest die asid va => Sys2Proof.Machine.execMigrationDeviceRequest die asid va s
  | .hostMigrationRequest qp key va data => Sys2Proof.Machine.execHostMigrationRequest qp key va data s
  | .hostRdmaWrite qp key va data => Sys2Proof.Machine.execHostRdmaWrite qp key va data s
  | .hostRdmaRead qp key va n => Sys2Proof.Machine.execHostRdmaRead qp key va n s
  | .hostRdmaFlush r => Sys2Proof.Machine.execHostRdmaFlush r s
  | .hostUnsupportedRequest qp => Sys2Proof.Machine.execHostUnsupportedRequest qp s
  | .kolozRead port f => Sys2Proof.Machine.execKolozRead port f s
  | .kolozWrite port f => Sys2Proof.Machine.execKolozWrite port f s
  | .kolozAtomic port f => Sys2Proof.Machine.execKolozAtomic port f s
  | .kolozRadd port f => Sys2Proof.Machine.execKolozRadd port f s
  | .kolozChain port f => Sys2Proof.Machine.execKolozChain port f s
  | .kolozRflush port f => Sys2Proof.Machine.execKolozRflush port f s
  | .kolozColl port f => Sys2Proof.Machine.execKolozColl port f s
  | .kolozMgmt port f => Sys2Proof.Machine.execKolozMgmt port f s
  | .kolozData port f => Sys2Proof.Machine.execKolozData port f s
  | .kolozAck port f => Sys2Proof.Machine.execKolozAck port f s
  | .kolozRefused port f => Sys2Proof.Machine.execKolozRefused port f s
  | .frameFcsReplay port => Sys2Proof.Machine.execFrameFcsReplay port s
  | .frameDiscard port a => Sys2Proof.Machine.execFrameDiscard port a s
  | .retransmitTimeout tag => Sys2Proof.Machine.execRetransmitTimeout tag s
  | .portFailure port => Sys2Proof.Machine.execPortFailure port s
  | .redfishReset cold => Sys2Proof.Machine.execRedfishReset cold s
  | .redfishUpdate slot version crcOk retired => Sys2Proof.Machine.execRedfishUpdate slot version crcOk retired s
  | .redfishRead r => Sys2Proof.Machine.execRedfishRead r s
  | .powerOn => Sys2Proof.Machine.execPowerOn s
  | .coldReset badCores downPorts => Sys2Proof.Machine.execColdReset badCores downPorts s
  | .warmReset => Sys2Proof.Machine.execWarmReset s
  | .powerAlarm moduleW packageW junction => Sys2Proof.Machine.execPowerAlarm moduleW packageW junction s
  | .powerAlarmClear moduleW packageW junction => Sys2Proof.Machine.execPowerAlarmClear moduleW packageW junction s
  | .trip cause reading => Sys2Proof.Machine.execTrip cause reading s
  | .counterSample => Sys2Proof.Machine.execCounterSample s
  | .perBankRefresh channel => Sys2Proof.Machine.execPerBankRefresh channel s
  | .priorityFlowControl port prio quanta => Sys2Proof.Machine.execPriorityFlowControl port prio quanta s

end Sys2Proof.Machine
end

