-- ==== Sys2Proof/Machine/Sched.lean ====
section
/-! DEFINITION. Sched.lean: what one move of a part of the package is, and which move comes when the agenda names none
(notes/assumptions/2.md): the manual gives the parts no order, so the agenda, a list of moves held in the state, is free. -/

namespace Sys2Proof.Machine

/-- Does the issue unit of a port run? Nothing issues while the dies have no power or after the stop of R217. -/
def mayIssue (s : State) : Bool := !s.halted && s.bd.power == .running

/-- What a port's unit of `n` words leaves: its words are counted, and a single step ends (R338, R403). -/
def afterUnit (core port n : Nat) (before after : State) : State :=
  let s := countWords core port n before after
  if port = stepPort then endStep before s core else s

/-- A port issues its unit: the word that the fetch gives is executed (R54, R188). -/
def issueMove (core port : Nat) (held : Bool) (s : State) : Host.Outcome State Fault Refusal :=
  if !mayIssue s then .next s
  else match portUnit s core port held with
    | .stop s' => .next (if port = stepPort then endStep s s' core else s')
    | .run i hs s' => mapNext (afterUnit core port (hs.length + 1) s') (exec i s')

/-- An event of the rest of the package, which happens only where power allows it. -/
def eventMove (i : Instr) (s : State) : Host.Outcome State Fault Refusal :=
  if eventAllowed s i then exec i { s with cur := none } else .next s

/-- What a part of the package does. -/
def partMove (m : Move) (s : State) : Host.Outcome State Fault Refusal :=
  match m with
  | .issue core port held => issueMove core port held s
  | .event i => eventMove i s
  | .evict line => evictLine s line
  | .registerError k r => .next (registerError s k r)
  | .stashError team off => .next (stashError s team off)
  | .coreTableError core => .next (coreTableError s core)
  | .lineError line => .next (lineError s line)
  | .softError memory => .next (softError s memory)
  | .visit => .next (runVisit s)
  | .sysop k id => .next (runSysop s k id)
  | .sendDue => .next (sendDue s)
  | .eventWrite => .next (writeEvent s)

/-- One move: serial mode is evaluated once what it does is done (R332). -/
def runMove (m : Move) (s : State) : Host.Outcome State Fault Refusal := mapNext (settleSerial s) (partMove m s)

/-- The moves that an operation of a thread waits for. -/
def opMoves (k : Nat) (o : Op) : List Move :=
  if o.complete then []
  else if o.performed then match o.kind with
    | .inval .. | .migrate .. => [.sysop k o.id]
    | _ => if isReturning o then [.event (.loadReturn k o.id)] else []
  else match o.kind with
    | .chain _ => [.event (.chainStep k o.id)]
    | .peerLoad .. | .peerStore .. | .peerRmw .. => [.event (.peerStashAccess o.wid)]
    | .radd .. => match o.loc with
      | .here _ => [.event (.raddArrival o.wid (lineOf o.loc))]
      | .host _ => [.event (.hostPathResponse o.wid (lineOf o.loc) [])]
      | _ => [.event (.homeAccess o.wid (lineOf o.loc) false)]
    | .load _ | .store _ | .rmw .. => match o.loc with
      | .host _ => [.event (.hostPathResponse o.wid (lineOf o.loc) [])]
      | _ => [.event (.homeAccess o.wid (lineOf o.loc) false)]
    | _ => []

/-- The moves of the threads: their operations, their matrix operations, and waits on a table. -/
def threadMoves (s : State) : List Move :=
  s.ex.threads.flatMap fun e =>
    e.2.ops.flatMap (opMoves e.1) ++
    (if e.2.st = .waiting ∧ e.2.waitOn = .table then match e.2.held with
      | some { instr := .job .., token := w, .. } => [.event (.jobAppend w)]
      | _ => [.event (.horizonEntryFreed false e.1)]
    else [])

/-- The moves of the cores: every port that holds a bundle issues, and a core with READY threads forms one. -/
def coreMoves (s : State) : List Move :=
  (s.ex.cores.flatMap fun e => e.2.ports.map fun p => Move.issue e.1 p.1 true) ++
  (((s.ex.threads.filter fun e => e.2.st == .ready).map fun e => coreOf e.1).dedup.flatMap fun c =>
    ((List.range 4).find? fun p => (tget (getCore s c).ports p).isNone).toList.map fun p => Move.event (.formBundle c p)) ++
  s.ex.matOps.map fun e => .event (.matrixOperation e.1)

/-- The moves of translation. -/
def transMoves (s : State) : List Move :=
  (s.tr.merges.flatMap fun e => match e.2.phase with
    | .walking => [Move.event (.walkComplete (e.1 / 1024) { entry := e.1 % 1024 })]
    | .zero _ => [.event (.zeroFillFirstWrite (e.1 / 1024) (e.1 % 1024))]
    | .absent | .queued => []) ++
  (s.tr.faultQs.filter fun e => !e.2.waiting.isEmpty).map (fun e => .event (.faultRecordWrite e.1)) ++
  s.tr.locks.map fun m => .event (.migration m.asid m.va)

/-- The moves of the grids. -/
def gridMoves (s : State) : List Move :=
  (if s.ex.grids.isEmpty then [] else [Move.event .teamPlacement, .event .clusterPlacement]) ++
  (s.ex.grids.flatMap fun e =>
    [Move.event (.gridCompletion e.1)] ++ (if e.2.waitsHorizon then [.event (.horizonEntryFreed true e.1)] else []) ++
    if waitsPlacement e.2 && e.2.reserving.isNone then [.event (.gridReserving e.1)] else []) ++
  (s.ex.teams.flatMap fun e =>
    [Move.event (.teamFree e.1)] ++ e.2.tiles.flatMap fun x => match x.2.st with
      | .filling => [.event (.tileFillComplete e.1 x.1)]
      | .draining => [.event (.tileDrainComplete e.1 x.1)]
      | _ => []) ++
  (s.ex.saved.filter fun x => !x.written).map fun x => .event (.preemptComplete x.base)

/-- The moves of the queue unit. -/
def queueMoves (s : State) : List Move :=
  (match (List.range Config.slots).find? fun k => (tget s.qu.slots k).isNone with
    | some k => if s.qu.queues.any fun e => isWaiting s e.1 e.2 then [Move.event (.slotBind k)] else []
    | none => []) ++
  (s.qu.slots.flatMap fun e =>
    (match e.2.entry with
      | none => [Move.event (.entryTake e.1)]
      | some x => if !e.2.waitMet then [.event (.entryWaitPoll e.1)]
        else if entryType x = 2 then [.event (.graphStart e.1)] else [.event (.entryHandOn e.1)]) ++
    [.event (.slotUnbind e.1)]) ++
  (s.qu.pendings.filter fun p => p.fin.isSome).map fun p => .event (.entrySignalWrite p.queue p.index)

/-- The first eight pieces that a copy has still to begin. -/
def newPieces (c : Card) : List (Nat × Nat) :=
  let n := c.pieces.length + c.ahead.length
  (List.range (min (copyRows c.body) (n + 8))).foldl (fun l row =>
    if 8 ≤ l.length then l
    else
      let ds := (copyDst c.body row).toNat
      let r := (List.range (min (copyLen c.body / 128 + 2) (n + 9))).map fun i => (row, if i = 0 then ds else (ds / 128 + i) * 128)
      (l ++ r.filter fun x => isPiece c x.1 x.2 && !c.ahead.contains x).take 8) []

/-- The pieces that a copy makes next: new ones, and those that are read and wait to be written. -/
def nextPieces (c : Card) : List (Nat × Nat) := newPieces c ++ c.ahead.take 8

/-- The move of a card. -/
def cardMove (e : Nat × Card) : List Move :=
  if e.2.finished || e.2.worked then [.event (.jobCompletion e.1)]
  else if !e.2.started then [.event (.jobStart e.1)]
  else match e.2.kind with
    | .copy => (nextPieces e.2).map fun x => .event (.copyPiece e.1 x.1 x.2)
    | .sort => [.event (.sortJob e.1)]
    | .gatherbind => [.event (.gatherbindJob e.1)]
    | .unbind => [.event (.unbindJob e.1)]
    | .coll => [.event (.collJob e.1)]
    | .ocomp => [.event (.ocompJob e.1)]

/-- The move of a node of a walker. -/
def nodeMove (key : Nat) (x : GNode) : List Move :=
  let d := key / 4096; let n := key % 4096
  if x.running && (x.complete || x.finished.isSome) then [.event (.nodeComplete d n)]
  else if x.launched.isSome || (!x.running && x.fired == 0) then []
  else match nodeKind x.bits with
    | 1 => [.event (.kernelNode d n)]
    | 2 => [.event (.jobNode d n)]
    | 3 => [.event (.condNode d n)]
    | 4 => [.event (.whileNode d n)]
    | 5 => [.event (.signalNode d n)]
    | 6 => [.event (.waitNode d n)]
    | _ => []

/-- The moves that the state waits for, in no order that the manual gives. -/
def defaultMoves (s : State) : List Move :=
  (if s.bd.evWait.isEmpty then [] else [Move.eventWrite]) ++ (if s.fa.due.isEmpty then [] else [.sendDue]) ++
  (if s.fa.visitors.isEmpty then [] else [.visit]) ++
  threadMoves s ++ coreMoves s ++ transMoves s ++ gridMoves s ++ queueMoves s ++ s.en.cards.flatMap cardMove ++
  s.qu.nodes.flatMap fun e => nodeMove e.1 e.2

/-- The move that comes where the agenda names none: the moves that wait take turns by the clock, which then ticks. -/
def defaultStep (s : State) : Host.Outcome State Fault Refusal :=
  let l := defaultMoves s
  match l[s.bd.clock % l.length]? with
  | none => execCycleCounter s
  | some m => match runMove m s with
    | .next s => execCycleCounter s
    | o => o

/-- One step of the machine: the first move of the agenda, or one that waits. -/
def nextMove (s : State) : Host.Outcome State Fault Refusal :=
  match s.agenda with
  | m :: rest => runMove m { s with agenda := rest }
  | [] => defaultStep s

/-! How a word is placed for the next step. -/

/-- The physical page that holds the word. -/
def placedPage : Nat := 0x10000

/-- The launch record of the grid that runs it: CODEBASE 0x10000, ENTRY 0, no handler, groups of 8 lanes, 120 registers, 1024
bytes of stash, and one team of one thread. -/
def placedRecord : List Word :=
  [0x10000, 0, 0, 0xFFFFFFFF, 120 * 256, 1024, 0x10001, 0x01010001, 1, 1, 1] ++ List.replicate 53 0

/-- The grid that runs it: its one team is placed. -/
def placedGrid : Grid := { record := placedRecord, launcher := .slot 0 0, next := 1 }

/-- Its team. -/
def placedTeam : Team := { grid := 0, lin := 0, cluster := 0, threads := 1, size := 1024 }

/-- Its thread, at ENTRY. -/
def placedThread : Thread := { team := 0, pc := 0 }

/-- The translation of its code page. -/
def placedEntry : TlbEntry := { asid := 0, vpn := 1, leaf := { size := 0, r := true, w := true, x := true, frame := placedPage } }

/-- Core 0 with the thread in the bundle of port 0, and the translation. -/
def placedCore (c : Core) : Core :=
  { c with ports := tset c.ports 0 [0]
           lastPage := tdel c.lastPage 0
           tlb := placedEntry :: c.tlb.filter fun e => !(e.asid == 0 && e.vpn == 1) }

/-- A word placed where the next step fetches: its bytes in memory, and the grid, team, thread, bundle and translation that
stand there once a grid has been launched and placed (notes/assumptions/3.md). -/
def placeWord (s : State) (w : Nat) : State :=
  let s := modCore s 0 placedCore
  { s with
    mm := { s.mm with mem := mwrite s.mm.mem placedPage (natLe 4 w), lines := tdel s.mm.lines (placedPage / 128) }
    ex := { s.ex with
      grids := tset s.ex.grids 0 placedGrid
      clusters := tset s.ex.clusters 0 { grid := 0, teams := [0] }
      teams := tset s.ex.teams 0 placedTeam
      threads := tset s.ex.threads 0 placedThread }
    bd := { s.bd with power := .running }
    halted := false
    agenda := .issue 0 0 false :: s.agenda }

end Sys2Proof.Machine
end

