-- ==== Sys2Proof/Machine/Step.lean ====
section
/-! DEFINITION. Step.lean: one step of the machine, and the placing of a word that the next step runs. -/

namespace Sys2Proof.Machine

/-- One step: one move of one part of the package. -/
def step (s : State) : Host.Outcome State Fault Refusal := nextMove s

/-- The state with a word placed where the next step fetches it. -/
def State.withFetchWord (s : State) (_nbits w : Nat) : State := placeWord s w

end Sys2Proof.Machine
end

