-- ==== Sys2Proof/Laws/Fields.lean ====
section
/-! SUPPORT. Fields.lean: reading a field of a word that is put together from fields, and the classes of the opcode map. -/

namespace Sys2Proof.Laws

/-- A field within the lower part of a word. -/
theorem fld_low {w v n l : Nat} (x : BitVec w) (y : BitVec v) (h : l + n ≤ v) :
    (x ++ y).extractLsb' l n = y.extractLsb' l n := BitVec.extractLsb'_append_eq_of_add_le h

/-- A field within the upper part of a word. -/
theorem fld_high {w v n l : Nat} (x : BitVec w) (y : BitVec v) (h : v ≤ l) :
    (x ++ y).extractLsb' l n = x.extractLsb' (l - v) n := BitVec.extractLsb'_append_eq_of_le h

/-- The bytes of a word make the word again (R6). -/
theorem wordOfBytes_bytes (w : BitVec 32) : wordOfBytes (fld w 0 8) (fld w 8 8) (fld w 16 8) (fld w 24 8) = w := by
  apply BitVec.eq_of_getLsbD_eq
  intro i hi
  simp only [wordOfBytes, fld, BitVec.getLsbD_append, BitVec.getLsbD_extractLsb']
  split
  · simp_all
  · split
    · rename_i h1 h2
      have : 8 + (i - 8) = i := by omega
      simp_all
    · split
      · rename_i h1 h2 h3
        have : 16 + (i - 8 - 8) = i := by omega
        simp_all
      · rename_i h1 h2 h3
        have : 24 + (i - 8 - 8 - 8) = i := by omega
        have h4 : i - 8 - 8 - 8 < 8 := by omega
        simp_all

/-- Decoding the bytes of a word, with bytes after it. -/
theorem decode_bytesOfWord (w : BitVec 32) (rest : List Byte) : decode (bytesOfWord w ++ rest) = (decodeWord w).map (·, rest) := by
  simp only [bytesOfWord, List.cons_append, List.nil_append, decode, wordOfBytes_bytes]

/-- A word of CLS 0. -/
theorem decodeWord_class0 {w : BitVec 32} (h : fld w 28 4 = 0#4) : decodeWord w = (decodeClass0 w).map .instr := by
  simp [decodeWord, decodeInstr, h]

/-- A word of CLS 1. -/
theorem decodeWord_class1 {w : BitVec 32} (h : fld w 28 4 = 1#4) : decodeWord w = (decodeClass1 w).map .instr := by
  simp [decodeWord, decodeInstr, h]

/-- A word of CLS 2. -/
theorem decodeWord_class2 {w : BitVec 32} (h : fld w 28 4 = 2#4) : decodeWord w = (decodeClass2 w).map .instr := by
  simp [decodeWord, decodeInstr, h]

/-- A word of CLS 3. -/
theorem decodeWord_class3 {w : BitVec 32} (h : fld w 28 4 = 3#4) : decodeWord w = (decodeClass3 w).map .instr := by
  simp [decodeWord, decodeInstr, h]

/-- A word of CLS 4. -/
theorem decodeWord_class4 {w : BitVec 32} (h : fld w 28 4 = 4#4) : decodeWord w = (decodeClass4 w).map .instr := by
  simp [decodeWord, decodeInstr, h]

/-- A word of CLS 5. -/
theorem decodeWord_class5 {w : BitVec 32} (h : fld w 28 4 = 5#4) : decodeWord w = (decodeClass5 w).map .instr := by
  simp [decodeWord, decodeInstr, h]

/-- A word of CLS 6. -/
theorem decodeWord_class6 {w : BitVec 32} (h : fld w 28 4 = 6#4) : decodeWord w = (decodeClass6 w).map .instr := by
  simp [decodeWord, decodeInstr, h]

/-- A word of CLS 7. -/
theorem decodeWord_class7 {w : BitVec 32} (h : fld w 28 4 = 7#4) : decodeWord w = (decodeClass7 w).map .instr := by
  simp [decodeWord, decodeInstr, h]

/-- A word of CLS 8. -/
theorem decodeWord_class8 {w : BitVec 32} (h : fld w 28 4 = 8#4) : decodeWord w = (decodeClass8 w).map .instr := by
  simp [decodeWord, decodeInstr, h]

/-- A word of CLS 9. -/
theorem decodeWord_class9 {w : BitVec 32} (h : fld w 28 4 = 9#4) : decodeWord w = (decodeClass9 w).map .instr := by
  simp [decodeWord, decodeInstr, h]

/-- A word of CLS 10. -/
theorem decodeWord_classA {w : BitVec 32} (h : fld w 28 4 = 10#4) : decodeWord w = (decodeClassA w).map .instr := by
  simp [decodeWord, decodeInstr, h]

/-- A word of CLS 12. -/
theorem decodeWord_classC {w : BitVec 32} (h : fld w 28 4 = 12#4) :
    decodeWord w = .ok (.instr (.fmac (fld w 21 7) (fld w 14 7) (fld w 7 7) (fld w 0 7))) := by
  simp [decodeWord, decodeInstr, h, Except.map]

/-- A word of CLS 13. -/
theorem decodeWord_classD {w : BitVec 32} (h : fld w 28 4 = 13#4) :
    decodeWord w = .ok (.instr (.pmac (fld w 21 7) (fld w 14 7) (fld w 7 7) (fld w 0 7))) := by
  simp [decodeWord, decodeInstr, h, Except.map]

/-- A word of CLS 14. -/
theorem decodeWord_classE {w : BitVec 32} (h : fld w 28 4 = 14#4) :
    decodeWord w = .ok (.instr (.imad (fld w 21 7) (fld w 14 7) (fld w 7 7) (fld w 0 7))) := by
  simp [decodeWord, decodeInstr, h, Except.map]

end Sys2Proof.Laws
end

