-- ==== Sys2Proof/Laws/PerInstr.lean ====
section
/-! SUPPORT. PerInstr.lean: for every instruction, that the decoder reads back what the encoder writes. -/

namespace Sys2Proof.Laws

set_option linter.unusedSimpArgs false

/-- What is said of each instruction: where it is well formed and has a word, the bytes of the word decode to it, whatever
bytes follow. -/
def Encodes.Statement (i : Instr) : Prop :=
  i.WellFormed → ∀ w, encode i = some w → ∀ rest, decode (bytesOfWord w ++ rest) = .ok (.instr i, rest)

theorem encodes_of_word {i : Instr} {w : BitVec 32} (h : encode i = some w) (d : i.WellFormed → decodeWord w = .ok (.instr i)) :
    Encodes.Statement i := by
  intro hi v hv rest
  obtain rfl : w = v := by simpa [h] using hv
  rw [decode_bytesOfWord, d hi]; rfl

theorem encodes_of_none {i : Instr} (h : encode i = none) : Encodes.Statement i := by
  intro _ v hv
  simp [h] at hv

theorem Encodes.iadd (m : SatMode) (d : Reg) (a : Reg) (b : Reg) : Encodes.Statement (.iadd m d a b) := by
  refine encodes_of_word rfl fun hi => ?_
  have hc : fld (0#4 ++ 0#4 ++ m.code ++ d ++ a ++ b) 28 4 = 0#4 := by
    simp (disch := decide) only [fld, fld_low, fld_high, Nat.reduceSub, BitVec.extractLsb'_eq_self]
  have hs : fld (0#4 ++ 0#4 ++ m.code ++ d ++ a ++ b) 24 4 = 0#4 := by
    simp (disch := decide) only [fld, fld_low, fld_high, Nat.reduceSub, BitVec.extractLsb'_eq_self]
  simp only [decodeWord_class0 hc, decodeClass0, hs, BitVec.toNat_ofNat, Nat.reducePow, Nat.reduceMod]
  simp (disch := decide) only [fld, fld_low, fld_high, Nat.reduceSub, BitVec.extractLsb'_eq_self]
  all_goals cases m <;> rfl

theorem Encodes.isub (m : SatMode) (d : Reg) (a : Reg) (b : Reg) : Encodes.Statement (.isub m d a b) := by
  refine encodes_of_word rfl fun hi => ?_
  have hc : fld (0#4 ++ 1#4 ++ m.code ++ d ++ a ++ b) 28 4 = 0#4 := by
    simp (disch := decide) only [fld, fld_low, fld_high, Nat.reduceSub, BitVec.extractLsb'_eq_self]
  have hs : fld (0#4 ++ 1#4 ++ m.code ++ d ++ a ++ b) 24 4 = 1#4 := by
    simp (disch := decide) only [fld, fld_low, fld_high, Nat.reduceSub, BitVec.extractLsb'_eq_self]
  simp only [decodeWord_class0 hc, decodeClass0, hs, BitVec.toNat_ofNat, Nat.reducePow, Nat.reduceMod]
  simp (disch := decide) only [fld, fld_low, fld_high, Nat.reduceSub, BitVec.extractLsb'_eq_self]
  all_goals cases m <;> rfl

theorem Encodes.imul (m : MulMode) (d : Reg) (a : Reg) (b : Reg) : Encodes.Statement (.imul m d a b) := by
  refine encodes_of_word rfl fun hi => ?_
  have hc : fld (0#4 ++ 2#4 ++ m.code ++ d ++ a ++ b) 28 4 = 0#4 := by
    simp (disch := decide) only [fld, fld_low, fld_high, Nat.reduceSub, BitVec.extractLsb'_eq_self]
  have hs : fld (0#4 ++ 2#4 ++ m.code ++ d ++ a ++ b) 24 4 = 2#4 := by
    simp (disch := decide) only [fld, fld_low, fld_high, Nat.reduceSub, BitVec.extractLsb'_eq_self]
  simp only [decodeWord_class0 hc, decodeClass0, hs, BitVec.toNat_ofNat, Nat.reducePow, Nat.reduceMod]
  simp (disch := decide) only [fld, fld_low, fld_high, Nat.reduceSub, BitVec.extractLsb'_eq_self]
  all_goals cases m <;> rfl

theorem Encodes.imin (m : Sgn) (d : Reg) (a : Reg) (b : Reg) : Encodes.Statement (.imin m d a b) := by
  refine encodes_of_word rfl fun hi => ?_
  have hc : fld (0#4 ++ 3#4 ++ m.code ++ d ++ a ++ b) 28 4 = 0#4 := by
    simp (disch := decide) only [fld, fld_low, fld_high, Nat.reduceSub, BitVec.extractLsb'_eq_self]
  have hs : fld (0#4 ++ 3#4 ++ m.code ++ d ++ a ++ b) 24 4 = 3#4 := by
    simp (disch := decide) only [fld, fld_low, fld_high, Nat.reduceSub, BitVec.extractLsb'_eq_self]
  simp only [decodeWord_class0 hc, decodeClass0, hs, BitVec.toNat_ofNat, Nat.reducePow, Nat.reduceMod]
  simp (disch := decide) only [fld, fld_low, fld_high, Nat.reduceSub, BitVec.extractLsb'_eq_self]
  all_goals cases m <;> rfl

theorem Encodes.imax (m : Sgn) (d : Reg) (a : Reg) (b : Reg) : Encodes.Statement (.imax m d a b) := by
  refine encodes_of_word rfl fun hi => ?_
  have hc : fld (0#4 ++ 4#4 ++ m.code ++ d ++ a ++ b) 28 4 = 0#4 := by
    simp (disch := decide) only [fld, fld_low, fld_high, Nat.reduceSub, BitVec.extractLsb'_eq_self]
  have hs : fld (0#4 ++ 4#4 ++ m.code ++ d ++ a ++ b) 24 4 = 4#4 := by
    simp (disch := decide) only [fld, fld_low, fld_high, Nat.reduceSub, BitVec.extractLsb'_eq_self]
  simp only [decodeWord_class0 hc, decodeClass0, hs, BitVec.toNat_ofNat, Nat.reducePow, Nat.reduceMod]
  simp (disch := decide) only [fld, fld_low, fld_high, Nat.reduceSub, BitVec.extractLsb'_eq_self]
  all_goals cases m <;> rfl

theorem Encodes.iabsd (m : Sgn) (d : Reg) (a : Reg) (b : Reg) : Encodes.Statement (.iabsd m d a b) := by
  refine encodes_of_word rfl fun hi => ?_
  have hc : fld (0#4 ++ 5#4 ++ m.code ++ d ++ a ++ b) 28 4 = 0#4 := by
    simp (disch := decide) only [fld, fld_low, fld_high, Nat.reduceSub, BitVec.extractLsb'_eq_self]
  have hs : fld (0#4 ++ 5#4 ++ m.code ++ d ++ a ++ b) 24 4 = 5#4 := by
    simp (disch := decide) only [fld, fld_low, fld_high, Nat.reduceSub, BitVec.extractLsb'_eq_self]
  simp only [decodeWord_class0 hc, decodeClass0, hs, BitVec.toNat_ofNat, Nat.reducePow, Nat.reduceMod]
  simp (disch := decide) only [fld, fld_low, fld_high, Nat.reduceSub, BitVec.extractLsb'_eq_self]
  all_goals cases m <;> rfl

theorem Encodes.and (d : Reg) (a : Reg) (b : Reg) : Encodes.Statement (.and d a b) := by
  refine encodes_of_word rfl fun hi => ?_
  have hc : fld (0#4 ++ 6#4 ++ 0#3 ++ d ++ a ++ b) 28 4 = 0#4 := by
    simp (disch := decide) only [fld, fld_low, fld_high, Nat.reduceSub, BitVec.extractLsb'_eq_self]
  have hs : fld (0#4 ++ 6#4 ++ 0#3 ++ d ++ a ++ b) 24 4 = 6#4 := by
    simp (disch := decide) only [fld, fld_low, fld_high, Nat.reduceSub, BitVec.extractLsb'_eq_self]
  simp only [decodeWord_class0 hc, decodeClass0, hs, BitVec.toNat_ofNat, Nat.reducePow, Nat.reduceMod]
  simp (disch := decide) only [fld, fld_low, fld_high, Nat.reduceSub, BitVec.extractLsb'_eq_self]
  all_goals rfl

theorem Encodes.or (d : Reg) (a : Reg) (b : Reg) : Encodes.Statement (.or d a b) := by
  refine encodes_of_word rfl fun hi => ?_
  have hc : fld (0#4 ++ 7#4 ++ 0#3 ++ d ++ a ++ b) 28 4 = 0#4 := by
    simp (disch := decide) only [fld, fld_low, fld_high, Nat.reduceSub, BitVec.extractLsb'_eq_self]
  have hs : fld (0#4 ++ 7#4 ++ 0#3 ++ d ++ a ++ b) 24 4 = 7#4 := by
    simp (disch := decide) only [fld, fld_low, fld_high, Nat.reduceSub, BitVec.extractLsb'_eq_self]
  simp only [decodeWord_class0 hc, decodeClass0, hs, BitVec.toNat_ofNat, Nat.reducePow, Nat.reduceMod]
  simp (disch := decide) only [fld, fld_low, fld_high, Nat.reduceSub, BitVec.extractLsb'_eq_self]
  all_goals rfl

theorem Encodes.xor (d : Reg) (a : Reg) (b : Reg) : Encodes.Statement (.xor d a b) := by
  refine encodes_of_word rfl fun hi => ?_
  have hc : fld (0#4 ++ 8#4 ++ 0#3 ++ d ++ a ++ b) 28 4 = 0#4 := by
    simp (disch := decide) only [fld, fld_low, fld_high, Nat.reduceSub, BitVec.extractLsb'_eq_self]
  have hs : fld (0#4 ++ 8#4 ++ 0#3 ++ d ++ a ++ b) 24 4 = 8#4 := by
    simp (disch := decide) only [fld, fld_low, fld_high, Nat.reduceSub, BitVec.extractLsb'_eq_self]
  simp only [decodeWord_class0 hc, decodeClass0, hs, BitVec.toNat_ofNat, Nat.reducePow, Nat.reduceMod]
  simp (disch := decide) only [fld, fld_low, fld_high, Nat.reduceSub, BitVec.extractLsb'_eq_self]
  all_goals rfl

theorem Encodes.andn (d : Reg) (a : Reg) (b : Reg) : Encodes.Statement (.andn d a b) := by
  refine encodes_of_word rfl fun hi => ?_
  have hc : fld (0#4 ++ 9#4 ++ 0#3 ++ d ++ a ++ b) 28 4 = 0#4 := by
    simp (disch := decide) only [fld, fld_low, fld_high, Nat.reduceSub, BitVec.extractLsb'_eq_self]
  have hs : fld (0#4 ++ 9#4 ++ 0#3 ++ d ++ a ++ b) 24 4 = 9#4 := by
    simp (disch := decide) only [fld, fld_low, fld_high, Nat.reduceSub, BitVec.extractLsb'_eq_self]
  simp only [decodeWord_class0 hc, decodeClass0, hs, BitVec.toNat_ofNat, Nat.reducePow, Nat.reduceMod]
  simp (disch := decide) only [fld, fld_low, fld_high, Nat.reduceSub, BitVec.extractLsb'_eq_self]
  all_goals rfl

theorem Encodes.shl (d : Reg) (a : Reg) (b : Reg) : Encodes.Statement (.shl d a b) := by
  refine encodes_of_word rfl fun hi => ?_
  have hc : fld (0#4 ++ 10#4 ++ 0#3 ++ d ++ a ++ b) 28 4 = 0#4 := by
    simp (disch := decide) only [fld, fld_low, fld_high, Nat.reduceSub, BitVec.extractLsb'_eq_self]
  have hs : fld (0#4 ++ 10#4 ++ 0#3 ++ d ++ a ++ b) 24 4 = 10#4 := by
    simp (disch := decide) only [fld, fld_low, fld_high, Nat.reduceSub, BitVec.extractLsb'_eq_self]
  simp only [decodeWord_class0 hc, decodeClass0, hs, BitVec.toNat_ofNat, Nat.reducePow, Nat.reduceMod]
  simp (disch := decide) only [fld, fld_low, fld_high, Nat.reduceSub, BitVec.extractLsb'_eq_self]
  all_goals rfl

theorem Encodes.shr (m : ShrMode) (d : Reg) (a : Reg) (b : Reg) : Encodes.Statement (.shr m d a b) := by
  refine encodes_of_word rfl fun hi => ?_
  have hc : fld (0#4 ++ 11#4 ++ m.code ++ d ++ a ++ b) 28 4 = 0#4 := by
    simp (disch := decide) only [fld, fld_low, fld_high, Nat.reduceSub, BitVec.extractLsb'_eq_self]
  have hs : fld (0#4 ++ 11#4 ++ m.code ++ d ++ a ++ b) 24 4 = 11#4 := by
    simp (disch := decide) only [fld, fld_low, fld_high, Nat.reduceSub, BitVec.extractLsb'_eq_self]
  simp only [decodeWord_class0 hc, decodeClass0, hs, BitVec.toNat_ofNat, Nat.reducePow, Nat.reduceMod]
  simp (disch := decide) only [fld, fld_low, fld_high, Nat.reduceSub, BitVec.extractLsb'_eq_self]
  all_goals cases m <;> rfl

theorem Encodes.rotl (d : Reg) (a : Reg) (b : Reg) : Encodes.Statement (.rotl d a b) := by
  refine encodes_of_word rfl fun hi => ?_
  have hc : fld (0#4 ++ 12#4 ++ 0#3 ++ d ++ a ++ b) 28 4 = 0#4 := by
    simp (disch := decide) only [fld, fld_low, fld_high, Nat.reduceSub, BitVec.extractLsb'_eq_self]
  have hs : fld (0#4 ++ 12#4 ++ 0#3 ++ d ++ a ++ b) 24 4 = 12#4 := by
    simp (disch := decide) only [fld, fld_low, fld_high, Nat.reduceSub, BitVec.extractLsb'_eq_self]
  simp only [decodeWord_class0 hc, decodeClass0, hs, BitVec.toNat_ofNat, Nat.reducePow, Nat.reduceMod]
  simp (disch := decide) only [fld, fld_low, fld_high, Nat.reduceSub, BitVec.extractLsb'_eq_self]
  all_goals rfl

theorem Encodes.bcnt (d : Reg) (a : Reg) : Encodes.Statement (.bcnt d a) := by
  refine encodes_of_word rfl fun hi => ?_
  have hc : fld (0#4 ++ 13#4 ++ 0#3 ++ d ++ a ++ 0#7) 28 4 = 0#4 := by
    simp (disch := decide) only [fld, fld_low, fld_high, Nat.reduceSub, BitVec.extractLsb'_eq_self]
  have hs : fld (0#4 ++ 13#4 ++ 0#3 ++ d ++ a ++ 0#7) 24 4 = 13#4 := by
    simp (disch := decide) only [fld, fld_low, fld_high, Nat.reduceSub, BitVec.extractLsb'_eq_self]
  simp only [decodeWord_class0 hc, decodeClass0, hs, BitVec.toNat_ofNat, Nat.reducePow, Nat.reduceMod]
  simp (disch := decide) only [fld, fld_low, fld_high, Nat.reduceSub, BitVec.extractLsb'_eq_self]
  all_goals rfl

theorem Encodes.clz (d : Reg) (a : Reg) : Encodes.Statement (.clz d a) := by
  refine encodes_of_word rfl fun hi => ?_
  have hc : fld (0#4 ++ 13#4 ++ 1#3 ++ d ++ a ++ 0#7) 28 4 = 0#4 := by
    simp (disch := decide) only [fld, fld_low, fld_high, Nat.reduceSub, BitVec.extractLsb'_eq_self]
  have hs : fld (0#4 ++ 13#4 ++ 1#3 ++ d ++ a ++ 0#7) 24 4 = 13#4 := by
    simp (disch := decide) only [fld, fld_low, fld_high, Nat.reduceSub, BitVec.extractLsb'_eq_self]
  simp only [decodeWord_class0 hc, decodeClass0, hs, BitVec.toNat_ofNat, Nat.reducePow, Nat.reduceMod]
  simp (disch := decide) only [fld, fld_low, fld_high, Nat.reduceSub, BitVec.extractLsb'_eq_self]
  all_goals rfl

theorem Encodes.ctz (d : Reg) (a : Reg) : Encodes.Statement (.ctz d a) := by
  refine encodes_of_word rfl fun hi => ?_
  have hc : fld (0#4 ++ 13#4 ++ 2#3 ++ d ++ a ++ 0#7) 28 4 = 0#4 := by
    simp (disch := decide) only [fld, fld_low, fld_high, Nat.reduceSub, BitVec.extractLsb'_eq_self]
  have hs : fld (0#4 ++ 13#4 ++ 2#3 ++ d ++ a ++ 0#7) 24 4 = 13#4 := by
    simp (disch := decide) only [fld, fld_low, fld_high, Nat.reduceSub, BitVec.extractLsb'_eq_self]
  simp only [decodeWord_class0 hc, decodeClass0, hs, BitVec.toNat_ofNat, Nat.reducePow, Nat.reduceMod]
  simp (disch := decide) only [fld, fld_low, fld_high, Nat.reduceSub, BitVec.extractLsb'_eq_self]
  all_goals rfl

theorem Encodes.bitrev (d : Reg) (a : Reg) : Encodes.Statement (.bitrev d a) := by
  refine encodes_of_word rfl fun hi => ?_
  have hc : fld (0#4 ++ 13#4 ++ 3#3 ++ d ++ a ++ 0#7) 28 4 = 0#4 := by
    simp (disch := decide) only [fld, fld_low, fld_high, Nat.reduceSub, BitVec.extractLsb'_eq_self]
  have hs : fld (0#4 ++ 13#4 ++ 3#3 ++ d ++ a ++ 0#7) 24 4 = 13#4 := by
    simp (disch := decide) only [fld, fld_low, fld_high, Nat.reduceSub, BitVec.extractLsb'_eq_self]
  simp only [decodeWord_class0 hc, decodeClass0, hs, BitVec.toNat_ofNat, Nat.reducePow, Nat.reduceMod]
  simp (disch := decide) only [fld, fld_low, fld_high, Nat.reduceSub, BitVec.extractLsb'_eq_self]
  all_goals rfl

theorem Encodes.not (d : Reg) (a : Reg) : Encodes.Statement (.not d a) := by
  refine encodes_of_word rfl fun hi => ?_
  have hc : fld (0#4 ++ 13#4 ++ 4#3 ++ d ++ a ++ 0#7) 28 4 = 0#4 := by
    simp (disch := decide) only [fld, fld_low, fld_high, Nat.reduceSub, BitVec.extractLsb'_eq_self]
  have hs : fld (0#4 ++ 13#4 ++ 4#3 ++ d ++ a ++ 0#7) 24 4 = 13#4 := by
    simp (disch := decide) only [fld, fld_low, fld_high, Nat.reduceSub, BitVec.extractLsb'_eq_self]
  simp only [decodeWord_class0 hc, decodeClass0, hs, BitVec.toNat_ofNat, Nat.reducePow, Nat.reduceMod]
  simp (disch := decide) only [fld, fld_low, fld_high, Nat.reduceSub, BitVec.extractLsb'_eq_self]
  all_goals rfl

theorem Encodes.fext (m : ExtMode) (d : Reg) (a : Reg) (b : Reg) : Encodes.Statement (.fext m d a b) := by
  refine encodes_of_word rfl fun hi => ?_
  have hc : fld (0#4 ++ 14#4 ++ m.code ++ d ++ a ++ b) 28 4 = 0#4 := by
    simp (disch := decide) only [fld, fld_low, fld_high, Nat.reduceSub, BitVec.extractLsb'_eq_self]
  have hs : fld (0#4 ++ 14#4 ++ m.code ++ d ++ a ++ b) 24 4 = 14#4 := by
    simp (disch := decide) only [fld, fld_low, fld_high, Nat.reduceSub, BitVec.extractLsb'_eq_self]
  simp only [decodeWord_class0 hc, decodeClass0, hs, BitVec.toNat_ofNat, Nat.reducePow, Nat.reduceMod]
  simp (disch := decide) only [fld, fld_low, fld_high, Nat.reduceSub, BitVec.extractLsb'_eq_self]
  all_goals cases m <;> rfl

theorem Encodes.fins (d : Reg) (a : Reg) (b : Reg) : Encodes.Statement (.fins d a b) := by
  refine encodes_of_word rfl fun hi => ?_
  have hc : fld (0#4 ++ 15#4 ++ 0#3 ++ d ++ a ++ b) 28 4 = 0#4 := by
    simp (disch := decide) only [fld, fld_low, fld_high, Nat.reduceSub, BitVec.extractLsb'_eq_self]
  have hs : fld (0#4 ++ 15#4 ++ 0#3 ++ d ++ a ++ b) 24 4 = 15#4 := by
    simp (disch := decide) only [fld, fld_low, fld_high, Nat.reduceSub, BitVec.extractLsb'_eq_self]
  simp only [decodeWord_class0 hc, decodeClass0, hs, BitVec.toNat_ofNat, Nat.reducePow, Nat.reduceMod]
  simp (disch := decide) only [fld, fld_low, fld_high, Nat.reduceSub, BitVec.extractLsb'_eq_self]
  all_goals rfl

theorem Encodes.movi (d : Reg) (imm : BitVec 10) : Encodes.Statement (.movi d imm) := by
  refine encodes_of_word rfl fun hi => ?_
  have hc : fld (1#4 ++ 0#4 ++ d ++ 0#7 ++ imm) 28 4 = 1#4 := by
    simp (disch := decide) only [fld, fld_low, fld_high, Nat.reduceSub, BitVec.extractLsb'_eq_self]
  have hs : fld (1#4 ++ 0#4 ++ d ++ 0#7 ++ imm) 24 4 = 0#4 := by
    simp (disch := decide) only [fld, fld_low, fld_high, Nat.reduceSub, BitVec.extractLsb'_eq_self]
  simp only [decodeWord_class1 hc, decodeClass1, hs, BitVec.toNat_ofNat, Nat.reducePow, Nat.reduceMod]
  simp (disch := decide) only [fld, fld_low, fld_high, Nat.reduceSub, BitVec.extractLsb'_eq_self]
  all_goals rfl

theorem Encodes.iaddi (d : Reg) (a : Reg) (imm : BitVec 10) : Encodes.Statement (.iaddi d a imm) := by
  refine encodes_of_word rfl fun hi => ?_
  have hc : fld (1#4 ++ 1#4 ++ d ++ a ++ imm) 28 4 = 1#4 := by
    simp (disch := decide) only [fld, fld_low, fld_high, Nat.reduceSub, BitVec.extractLsb'_eq_self]
  have hs : fld (1#4 ++ 1#4 ++ d ++ a ++ imm) 24 4 = 1#4 := by
    simp (disch := decide) only [fld, fld_low, fld_high, Nat.reduceSub, BitVec.extractLsb'_eq_self]
  simp only [decodeWord_class1 hc, decodeClass1, hs, BitVec.toNat_ofNat, Nat.reducePow, Nat.reduceMod]
  simp (disch := decide) only [fld, fld_low, fld_high, Nat.reduceSub, BitVec.extractLsb'_eq_self]
  all_goals rfl

theorem Encodes.imuli (d : Reg) (a : Reg) (imm : BitVec 10) : Encodes.Statement (.imuli d a imm) := by
  refine encodes_of_word rfl fun hi => ?_
  have hc : fld (1#4 ++ 2#4 ++ d ++ a ++ imm) 28 4 = 1#4 := by
    simp (disch := decide) only [fld, fld_low, fld_high, Nat.reduceSub, BitVec.extractLsb'_eq_self]
  have hs : fld (1#4 ++ 2#4 ++ d ++ a ++ imm) 24 4 = 2#4 := by
    simp (disch := decide) only [fld, fld_low, fld_high, Nat.reduceSub, BitVec.extractLsb'_eq_self]
  simp only [decodeWord_class1 hc, decodeClass1, hs, BitVec.toNat_ofNat, Nat.reducePow, Nat.reduceMod]
  simp (disch := decide) only [fld, fld_low, fld_high, Nat.reduceSub, BitVec.extractLsb'_eq_self]
  all_goals rfl

theorem Encodes.andi (d : Reg) (a : Reg) (imm : BitVec 10) : Encodes.Statement (.andi d a imm) := by
  refine encodes_of_word rfl fun hi => ?_
  have hc : fld (1#4 ++ 3#4 ++ d ++ a ++ imm) 28 4 = 1#4 := by
    simp (disch := decide) only [fld, fld_low, fld_high, Nat.reduceSub, BitVec.extractLsb'_eq_self]
  have hs : fld (1#4 ++ 3#4 ++ d ++ a ++ imm) 24 4 = 3#4 := by
    simp (disch := decide) only [fld, fld_low, fld_high, Nat.reduceSub, BitVec.extractLsb'_eq_self]
  simp only [decodeWord_class1 hc, decodeClass1, hs, BitVec.toNat_ofNat, Nat.reducePow, Nat.reduceMod]
  simp (disch := decide) only [fld, fld_low, fld_high, Nat.reduceSub, BitVec.extractLsb'_eq_self]
  all_goals rfl

theorem Encodes.ori (d : Reg) (a : Reg) (imm : BitVec 10) : Encodes.Statement (.ori d a imm) := by
  refine encodes_of_word rfl fun hi => ?_
  have hc : fld (1#4 ++ 4#4 ++ d ++ a ++ imm) 28 4 = 1#4 := by
    simp (disch := decide) only [fld, fld_low, fld_high, Nat.reduceSub, BitVec.extractLsb'_eq_self]
  have hs : fld (1#4 ++ 4#4 ++ d ++ a ++ imm) 24 4 = 4#4 := by
    simp (disch := decide) only [fld, fld_low, fld_high, Nat.reduceSub, BitVec.extractLsb'_eq_self]
  simp only [decodeWord_class1 hc, decodeClass1, hs, BitVec.toNat_ofNat, Nat.reducePow, Nat.reduceMod]
  simp (disch := decide) only [fld, fld_low, fld_high, Nat.reduceSub, BitVec.extractLsb'_eq_self]
  all_goals rfl

theorem Encodes.xori (d : Reg) (a : Reg) (imm : BitVec 10) : Encodes.Statement (.xori d a imm) := by
  refine encodes_of_word rfl fun hi => ?_
  have hc : fld (1#4 ++ 5#4 ++ d ++ a ++ imm) 28 4 = 1#4 := by
    simp (disch := decide) only [fld, fld_low, fld_high, Nat.reduceSub, BitVec.extractLsb'_eq_self]
  have hs : fld (1#4 ++ 5#4 ++ d ++ a ++ imm) 24 4 = 5#4 := by
    simp (disch := decide) only [fld, fld_low, fld_high, Nat.reduceSub, BitVec.extractLsb'_eq_self]
  simp only [decodeWord_class1 hc, decodeClass1, hs, BitVec.toNat_ofNat, Nat.reducePow, Nat.reduceMod]
  simp (disch := decide) only [fld, fld_low, fld_high, Nat.reduceSub, BitVec.extractLsb'_eq_self]
  all_goals rfl

theorem Encodes.shli (d : Reg) (a : Reg) (n : BitVec 5) : Encodes.Statement (.shli d a n) := by
  refine encodes_of_word rfl fun hi => ?_
  have hc : fld (1#4 ++ 6#4 ++ d ++ a ++ 0#5 ++ n) 28 4 = 1#4 := by
    simp (disch := decide) only [fld, fld_low, fld_high, Nat.reduceSub, BitVec.extractLsb'_eq_self]
  have hs : fld (1#4 ++ 6#4 ++ d ++ a ++ 0#5 ++ n) 24 4 = 6#4 := by
    simp (disch := decide) only [fld, fld_low, fld_high, Nat.reduceSub, BitVec.extractLsb'_eq_self]
  simp only [decodeWord_class1 hc, decodeClass1, hs, BitVec.toNat_ofNat, Nat.reducePow, Nat.reduceMod]
  simp (disch := decide) only [fld, fld_low, fld_high, Nat.reduceSub, BitVec.extractLsb'_eq_self]
  all_goals rfl

theorem Encodes.shri (d : Reg) (a : Reg) (n : BitVec 5) : Encodes.Statement (.shri d a n) := by
  refine encodes_of_word rfl fun hi => ?_
  have hc : fld (1#4 ++ 7#4 ++ d ++ a ++ 0#5 ++ n) 28 4 = 1#4 := by
    simp (disch := decide) only [fld, fld_low, fld_high, Nat.reduceSub, BitVec.extractLsb'_eq_self]
  have hs : fld (1#4 ++ 7#4 ++ d ++ a ++ 0#5 ++ n) 24 4 = 7#4 := by
    simp (disch := decide) only [fld, fld_low, fld_high, Nat.reduceSub, BitVec.extractLsb'_eq_self]
  simp only [decodeWord_class1 hc, decodeClass1, hs, BitVec.toNat_ofNat, Nat.reducePow, Nat.reduceMod]
  simp (disch := decide) only [fld, fld_low, fld_high, Nat.reduceSub, BitVec.extractLsb'_eq_self]
  all_goals rfl

theorem Encodes.sari (d : Reg) (a : Reg) (n : BitVec 5) : Encodes.Statement (.sari d a n) := by
  refine encodes_of_word rfl fun hi => ?_
  have hc : fld (1#4 ++ 8#4 ++ d ++ a ++ 0#5 ++ n) 28 4 = 1#4 := by
    simp (disch := decide) only [fld, fld_low, fld_high, Nat.reduceSub, BitVec.extractLsb'_eq_self]
  have hs : fld (1#4 ++ 8#4 ++ d ++ a ++ 0#5 ++ n) 24 4 = 8#4 := by
    simp (disch := decide) only [fld, fld_low, fld_high, Nat.reduceSub, BitVec.extractLsb'_eq_self]
  simp only [decodeWord_class1 hc, decodeClass1, hs, BitVec.toNat_ofNat, Nat.reducePow, Nat.reduceMod]
  simp (disch := decide) only [fld, fld_low, fld_high, Nat.reduceSub, BitVec.extractLsb'_eq_self]
  all_goals rfl

theorem Encodes.add64i (d : Reg) (a : Reg) (imm : BitVec 10) : Encodes.Statement (.add64i d a imm) := by
  refine encodes_of_word rfl fun hi => ?_
  have hc : fld (1#4 ++ 9#4 ++ d ++ a ++ imm) 28 4 = 1#4 := by
    simp (disch := decide) only [fld, fld_low, fld_high, Nat.reduceSub, BitVec.extractLsb'_eq_self]
  have hs : fld (1#4 ++ 9#4 ++ d ++ a ++ imm) 24 4 = 9#4 := by
    simp (disch := decide) only [fld, fld_low, fld_high, Nat.reduceSub, BitVec.extractLsb'_eq_self]
  simp only [decodeWord_class1 hc, decodeClass1, hs, BitVec.toNat_ofNat, Nat.reducePow, Nat.reduceMod]
  simp (disch := decide) only [fld, fld_low, fld_high, Nat.reduceSub, BitVec.extractLsb'_eq_self]
  all_goals rfl

theorem Encodes.add64 (d : Reg) (a : Reg) (b : Reg) : Encodes.Statement (.add64 d a b) := by
  refine encodes_of_word rfl fun hi => ?_
  have hc : fld (1#4 ++ 10#4 ++ 0#3 ++ d ++ a ++ b) 28 4 = 1#4 := by
    simp (disch := decide) only [fld, fld_low, fld_high, Nat.reduceSub, BitVec.extractLsb'_eq_self]
  have hs : fld (1#4 ++ 10#4 ++ 0#3 ++ d ++ a ++ b) 24 4 = 10#4 := by
    simp (disch := decide) only [fld, fld_low, fld_high, Nat.reduceSub, BitVec.extractLsb'_eq_self]
  simp only [decodeWord_class1 hc, decodeClass1, hs, BitVec.toNat_ofNat, Nat.reducePow, Nat.reduceMod]
  simp (disch := decide) only [fld, fld_low, fld_high, Nat.reduceSub, BitVec.extractLsb'_eq_self]
  all_goals rfl

theorem Encodes.lea64 (sh : BitVec 3) (d : Reg) (a : Reg) (b : Reg) : Encodes.Statement (.lea64 sh d a b) := by
  refine encodes_of_word rfl fun hi => ?_
  have hc : fld (1#4 ++ 11#4 ++ sh ++ d ++ a ++ b) 28 4 = 1#4 := by
    simp (disch := decide) only [fld, fld_low, fld_high, Nat.reduceSub, BitVec.extractLsb'_eq_self]
  have hs : fld (1#4 ++ 11#4 ++ sh ++ d ++ a ++ b) 24 4 = 11#4 := by
    simp (disch := decide) only [fld, fld_low, fld_high, Nat.reduceSub, BitVec.extractLsb'_eq_self]
  simp only [decodeWord_class1 hc, decodeClass1, hs, BitVec.toNat_ofNat, Nat.reducePow, Nat.reduceMod]
  simp (disch := decide) only [fld, fld_low, fld_high, Nat.reduceSub, BitVec.extractLsb'_eq_self]
  all_goals rfl

theorem Encodes.sub64 (d : Reg) (a : Reg) (b : Reg) : Encodes.Statement (.sub64 d a b) := by
  refine encodes_of_word rfl fun hi => ?_
  have hc : fld (1#4 ++ 12#4 ++ 0#3 ++ d ++ a ++ b) 28 4 = 1#4 := by
    simp (disch := decide) only [fld, fld_low, fld_high, Nat.reduceSub, BitVec.extractLsb'_eq_self]
  have hs : fld (1#4 ++ 12#4 ++ 0#3 ++ d ++ a ++ b) 24 4 = 12#4 := by
    simp (disch := decide) only [fld, fld_low, fld_high, Nat.reduceSub, BitVec.extractLsb'_eq_self]
  simp only [decodeWord_class1 hc, decodeClass1, hs, BitVec.toNat_ofNat, Nat.reducePow, Nat.reduceMod]
  simp (disch := decide) only [fld, fld_low, fld_high, Nat.reduceSub, BitVec.extractLsb'_eq_self]
  all_goals rfl

theorem Encodes.mov (m : MovWidth) (d : Reg) (a : Reg) : Encodes.Statement (.mov m d a) := by
  refine encodes_of_word rfl fun hi => ?_
  have hc : fld (1#4 ++ 13#4 ++ m.code ++ d ++ a ++ 0#7) 28 4 = 1#4 := by
    simp (disch := decide) only [fld, fld_low, fld_high, Nat.reduceSub, BitVec.extractLsb'_eq_self]
  have hs : fld (1#4 ++ 13#4 ++ m.code ++ d ++ a ++ 0#7) 24 4 = 13#4 := by
    simp (disch := decide) only [fld, fld_low, fld_high, Nat.reduceSub, BitVec.extractLsb'_eq_self]
  simp only [decodeWord_class1 hc, decodeClass1, hs, BitVec.toNat_ofNat, Nat.reducePow, Nat.reduceMod]
  simp (disch := decide) only [fld, fld_low, fld_high, Nat.reduceSub, BitVec.extractLsb'_eq_self]
  all_goals cases m <;> rfl

theorem Encodes.movsr (d : Reg) (n : BitVec 10) : Encodes.Statement (.movsr d n) := by
  refine encodes_of_word rfl fun hi => ?_
  have hc : fld (1#4 ++ 14#4 ++ d ++ 0#7 ++ n) 28 4 = 1#4 := by
    simp (disch := decide) only [fld, fld_low, fld_high, Nat.reduceSub, BitVec.extractLsb'_eq_self]
  have hs : fld (1#4 ++ 14#4 ++ d ++ 0#7 ++ n) 24 4 = 14#4 := by
    simp (disch := decide) only [fld, fld_low, fld_high, Nat.reduceSub, BitVec.extractLsb'_eq_self]
  simp only [decodeWord_class1 hc, decodeClass1, hs, BitVec.toNat_ofNat, Nat.reducePow, Nat.reduceMod]
  simp (disch := decide) only [fld, fld_low, fld_high, Nat.reduceSub, BitVec.extractLsb'_eq_self]
  have hn : ¬ 22 ≤ n.toNat := Nat.not_le.mpr hi
  simp [hn, Except.map]

theorem Encodes.movl (d : Reg) (n : BitVec 6) : Encodes.Statement (.movl d n) := by
  refine encodes_of_word rfl fun hi => ?_
  have hc : fld (1#4 ++ 15#4 ++ d ++ 0#7 ++ 0#4 ++ n) 28 4 = 1#4 := by
    simp (disch := decide) only [fld, fld_low, fld_high, Nat.reduceSub, BitVec.extractLsb'_eq_self]
  have hs : fld (1#4 ++ 15#4 ++ d ++ 0#7 ++ 0#4 ++ n) 24 4 = 15#4 := by
    simp (disch := decide) only [fld, fld_low, fld_high, Nat.reduceSub, BitVec.extractLsb'_eq_self]
  simp only [decodeWord_class1 hc, decodeClass1, hs, BitVec.toNat_ofNat, Nat.reducePow, Nat.reduceMod]
  simp (disch := decide) only [fld, fld_low, fld_high, Nat.reduceSub, BitVec.extractLsb'_eq_self]
  all_goals rfl

theorem Encodes.imad (d : Reg) (a : Reg) (b : Reg) (c : Reg) : Encodes.Statement (.imad d a b c) := by
  refine encodes_of_word rfl fun hi => ?_
  have hc : fld (14#4 ++ d ++ a ++ b ++ c) 28 4 = 14#4 := by
    simp (disch := decide) only [fld, fld_low, fld_high, Nat.reduceSub, BitVec.extractLsb'_eq_self]
  simp only [decodeWord_classE hc]
  simp (disch := decide) only [fld, fld_low, fld_high, Nat.reduceSub, BitVec.extractLsb'_eq_self]
  all_goals rfl

theorem Encodes.icmp (c : Cond) (pd : PredIx) (pc : PredIx) (a : Reg) (b : Reg) : Encodes.Statement (.icmp c pd pc a b) := by
  refine encodes_of_word rfl fun hi => ?_
  have hc : fld (5#4 ++ 0#4 ++ c.code ++ pd ++ 0#1 ++ pc ++ a ++ b) 28 4 = 5#4 := by
    simp (disch := decide) only [fld, fld_low, fld_high, Nat.reduceSub, BitVec.extractLsb'_eq_self]
  have hs : fld (5#4 ++ 0#4 ++ c.code ++ pd ++ 0#1 ++ pc ++ a ++ b) 24 4 = 0#4 := by
    simp (disch := decide) only [fld, fld_low, fld_high, Nat.reduceSub, BitVec.extractLsb'_eq_self]
  simp only [decodeWord_class5 hc, decodeClass5, hs, BitVec.toNat_ofNat, Nat.reducePow, Nat.reduceMod]
  simp (disch := decide) only [fld, fld_low, fld_high, Nat.reduceSub, BitVec.extractLsb'_eq_self]
  all_goals cases c <;> rfl

theorem Encodes.icmpi (c : Cond) (pd : PredIx) (pc : PredIx) (a : Reg) (imm : BitVec 7) : Encodes.Statement (.icmpi c pd pc a imm) := by
  refine encodes_of_word rfl fun hi => ?_
  have hc : fld (5#4 ++ 1#4 ++ c.code ++ pd ++ 0#1 ++ pc ++ a ++ imm) 28 4 = 5#4 := by
    simp (disch := decide) only [fld, fld_low, fld_high, Nat.reduceSub, BitVec.extractLsb'_eq_self]
  have hs : fld (5#4 ++ 1#4 ++ c.code ++ pd ++ 0#1 ++ pc ++ a ++ imm) 24 4 = 1#4 := by
    simp (disch := decide) only [fld, fld_low, fld_high, Nat.reduceSub, BitVec.extractLsb'_eq_self]
  simp only [decodeWord_class5 hc, decodeClass5, hs, BitVec.toNat_ofNat, Nat.reducePow, Nat.reduceMod]
  simp (disch := decide) only [fld, fld_low, fld_high, Nat.reduceSub, BitVec.extractLsb'_eq_self]
  all_goals cases c <;> rfl

theorem Encodes.fcmp (c : FCond) (pd : PredIx) (pc : PredIx) (a : Reg) (b : Reg) : Encodes.Statement (.fcmp c pd pc a b) := by
  refine encodes_of_word rfl fun hi => ?_
  have hc : fld (5#4 ++ 2#4 ++ c.code ++ pd ++ 0#1 ++ pc ++ a ++ b) 28 4 = 5#4 := by
    simp (disch := decide) only [fld, fld_low, fld_high, Nat.reduceSub, BitVec.extractLsb'_eq_self]
  have hs : fld (5#4 ++ 2#4 ++ c.code ++ pd ++ 0#1 ++ pc ++ a ++ b) 24 4 = 2#4 := by
    simp (disch := decide) only [fld, fld_low, fld_high, Nat.reduceSub, BitVec.extractLsb'_eq_self]
  simp only [decodeWord_class5 hc, decodeClass5, hs, BitVec.toNat_ofNat, Nat.reducePow, Nat.reduceMod]
  simp (disch := decide) only [fld, fld_low, fld_high, Nat.reduceSub, BitVec.extractLsb'_eq_self]
  all_goals cases c <;> rfl

theorem Encodes.icmp64 (c : Cond) (pd : PredIx) (pc : PredIx) (a : Reg) (b : Reg) : Encodes.Statement (.icmp64 c pd pc a b) := by
  refine encodes_of_word rfl fun hi => ?_
  have hc : fld (5#4 ++ 3#4 ++ c.code ++ pd ++ 0#1 ++ pc ++ a ++ b) 28 4 = 5#4 := by
    simp (disch := decide) only [fld, fld_low, fld_high, Nat.reduceSub, BitVec.extractLsb'_eq_self]
  have hs : fld (5#4 ++ 3#4 ++ c.code ++ pd ++ 0#1 ++ pc ++ a ++ b) 24 4 = 3#4 := by
    simp (disch := decide) only [fld, fld_low, fld_high, Nat.reduceSub, BitVec.extractLsb'_eq_self]
  simp only [decodeWord_class5 hc, decodeClass5, hs, BitVec.toNat_ofNat, Nat.reducePow, Nat.reduceMod]
  simp (disch := decide) only [fld, fld_low, fld_high, Nat.reduceSub, BitVec.extractLsb'_eq_self]
  all_goals cases c <;> rfl

theorem Encodes.pcomb (m : PCombOp) (pd : PredIx) (pc : PredIx) (pa : PredIx) (pb : PredIx) : Encodes.Statement (.pcomb m pd pc pa pb) := by
  refine encodes_of_word rfl fun hi => ?_
  have hc : fld (5#4 ++ 4#4 ++ m.code ++ pd ++ 0#1 ++ pc ++ 0#4 ++ pa ++ 0#4 ++ pb) 28 4 = 5#4 := by
    simp (disch := decide) only [fld, fld_low, fld_high, Nat.reduceSub, BitVec.extractLsb'_eq_self]
  have hs : fld (5#4 ++ 4#4 ++ m.code ++ pd ++ 0#1 ++ pc ++ 0#4 ++ pa ++ 0#4 ++ pb) 24 4 = 4#4 := by
    simp (disch := decide) only [fld, fld_low, fld_high, Nat.reduceSub, BitVec.extractLsb'_eq_self]
  simp only [decodeWord_class5 hc, decodeClass5, hs, BitVec.toNat_ofNat, Nat.reducePow, Nat.reduceMod]
  simp (disch := decide) only [fld, fld_low, fld_high, Nat.reduceSub, BitVec.extractLsb'_eq_self]
  cases m <;> first
    | rfl
    | (obtain rfl : pb = 0 := hi rfl; rfl)

theorem Encodes.pget (d : Reg) : Encodes.Statement (.pget d) := by
  refine encodes_of_word rfl fun hi => ?_
  have hc : fld (5#4 ++ 5#4 ++ 0#3 ++ d ++ 0#7 ++ 0#7) 28 4 = 5#4 := by
    simp (disch := decide) only [fld, fld_low, fld_high, Nat.reduceSub, BitVec.extractLsb'_eq_self]
  have hs : fld (5#4 ++ 5#4 ++ 0#3 ++ d ++ 0#7 ++ 0#7) 24 4 = 5#4 := by
    simp (disch := decide) only [fld, fld_low, fld_high, Nat.reduceSub, BitVec.extractLsb'_eq_self]
  simp only [decodeWord_class5 hc, decodeClass5, hs, BitVec.toNat_ofNat, Nat.reducePow, Nat.reduceMod]
  simp (disch := decide) only [fld, fld_low, fld_high, Nat.reduceSub, BitVec.extractLsb'_eq_self]
  all_goals rfl

theorem Encodes.pset (a : Reg) : Encodes.Statement (.pset a) := by
  refine encodes_of_word rfl fun hi => ?_
  have hc : fld (5#4 ++ 6#4 ++ 0#3 ++ 0#3 ++ 0#1 ++ 0#3 ++ a ++ 0#7) 28 4 = 5#4 := by
    simp (disch := decide) only [fld, fld_low, fld_high, Nat.reduceSub, BitVec.extractLsb'_eq_self]
  have hs : fld (5#4 ++ 6#4 ++ 0#3 ++ 0#3 ++ 0#1 ++ 0#3 ++ a ++ 0#7) 24 4 = 6#4 := by
    simp (disch := decide) only [fld, fld_low, fld_high, Nat.reduceSub, BitVec.extractLsb'_eq_self]
  simp only [decodeWord_class5 hc, decodeClass5, hs, BitVec.toNat_ofNat, Nat.reducePow, Nat.reduceMod]
  simp (disch := decide) only [fld, fld_low, fld_high, Nat.reduceSub, BitVec.extractLsb'_eq_self]
  all_goals rfl

theorem Encodes.pick (p : PredIx) (d : Reg) (a : Reg) (b : Reg) : Encodes.Statement (.pick p d a b) := by
  refine encodes_of_word rfl fun hi => ?_
  have hc : fld (5#4 ++ 7#4 ++ p ++ d ++ a ++ b) 28 4 = 5#4 := by
    simp (disch := decide) only [fld, fld_low, fld_high, Nat.reduceSub, BitVec.extractLsb'_eq_self]
  have hs : fld (5#4 ++ 7#4 ++ p ++ d ++ a ++ b) 24 4 = 7#4 := by
    simp (disch := decide) only [fld, fld_low, fld_high, Nat.reduceSub, BitVec.extractLsb'_eq_self]
  simp only [decodeWord_class5 hc, decodeClass5, hs, BitVec.toNat_ofNat, Nat.reducePow, Nat.reduceMod]
  simp (disch := decide) only [fld, fld_low, fld_high, Nat.reduceSub, BitVec.extractLsb'_eq_self]
  all_goals rfl

theorem Encodes.fadd (m : Rm) (d : Reg) (a : Reg) (b : Reg) : Encodes.Statement (.fadd m d a b) := by
  refine encodes_of_word rfl fun hi => ?_
  have hc : fld (2#4 ++ 0#4 ++ m.code ++ d ++ a ++ b) 28 4 = 2#4 := by
    simp (disch := decide) only [fld, fld_low, fld_high, Nat.reduceSub, BitVec.extractLsb'_eq_self]
  have hs : fld (2#4 ++ 0#4 ++ m.code ++ d ++ a ++ b) 24 4 = 0#4 := by
    simp (disch := decide) only [fld, fld_low, fld_high, Nat.reduceSub, BitVec.extractLsb'_eq_self]
  simp only [decodeWord_class2 hc, decodeClass2, hs, BitVec.toNat_ofNat, Nat.reducePow, Nat.reduceMod]
  simp (disch := decide) only [fld, fld_low, fld_high, Nat.reduceSub, BitVec.extractLsb'_eq_self]
  all_goals cases m <;> rfl

theorem Encodes.fsub (m : Rm) (d : Reg) (a : Reg) (b : Reg) : Encodes.Statement (.fsub m d a b) := by
  refine encodes_of_word rfl fun hi => ?_
  have hc : fld (2#4 ++ 1#4 ++ m.code ++ d ++ a ++ b) 28 4 = 2#4 := by
    simp (disch := decide) only [fld, fld_low, fld_high, Nat.reduceSub, BitVec.extractLsb'_eq_self]
  have hs : fld (2#4 ++ 1#4 ++ m.code ++ d ++ a ++ b) 24 4 = 1#4 := by
    simp (disch := decide) only [fld, fld_low, fld_high, Nat.reduceSub, BitVec.extractLsb'_eq_self]
  simp only [decodeWord_class2 hc, decodeClass2, hs, BitVec.toNat_ofNat, Nat.reducePow, Nat.reduceMod]
  simp (disch := decide) only [fld, fld_low, fld_high, Nat.reduceSub, BitVec.extractLsb'_eq_self]
  all_goals cases m <;> rfl

theorem Encodes.fmul (m : Rm) (d : Reg) (a : Reg) (b : Reg) : Encodes.Statement (.fmul m d a b) := by
  refine encodes_of_word rfl fun hi => ?_
  have hc : fld (2#4 ++ 2#4 ++ m.code ++ d ++ a ++ b) 28 4 = 2#4 := by
    simp (disch := decide) only [fld, fld_low, fld_high, Nat.reduceSub, BitVec.extractLsb'_eq_self]
  have hs : fld (2#4 ++ 2#4 ++ m.code ++ d ++ a ++ b) 24 4 = 2#4 := by
    simp (disch := decide) only [fld, fld_low, fld_high, Nat.reduceSub, BitVec.extractLsb'_eq_self]
  simp only [decodeWord_class2 hc, decodeClass2, hs, BitVec.toNat_ofNat, Nat.reducePow, Nat.reduceMod]
  simp (disch := decide) only [fld, fld_low, fld_high, Nat.reduceSub, BitVec.extractLsb'_eq_self]
  all_goals cases m <;> rfl

theorem Encodes.fmin (m : NanMode) (d : Reg) (a : Reg) (b : Reg) : Encodes.Statement (.fmin m d a b) := by
  refine encodes_of_word rfl fun hi => ?_
  have hc : fld (2#4 ++ 3#4 ++ m.code ++ d ++ a ++ b) 28 4 = 2#4 := by
    simp (disch := decide) only [fld, fld_low, fld_high, Nat.reduceSub, BitVec.extractLsb'_eq_self]
  have hs : fld (2#4 ++ 3#4 ++ m.code ++ d ++ a ++ b) 24 4 = 3#4 := by
    simp (disch := decide) only [fld, fld_low, fld_high, Nat.reduceSub, BitVec.extractLsb'_eq_self]
  simp only [decodeWord_class2 hc, decodeClass2, hs, BitVec.toNat_ofNat, Nat.reducePow, Nat.reduceMod]
  simp (disch := decide) only [fld, fld_low, fld_high, Nat.reduceSub, BitVec.extractLsb'_eq_self]
  all_goals cases m <;> rfl

theorem Encodes.fmax (m : NanMode) (d : Reg) (a : Reg) (b : Reg) : Encodes.Statement (.fmax m d a b) := by
  refine encodes_of_word rfl fun hi => ?_
  have hc : fld (2#4 ++ 4#4 ++ m.code ++ d ++ a ++ b) 28 4 = 2#4 := by
    simp (disch := decide) only [fld, fld_low, fld_high, Nat.reduceSub, BitVec.extractLsb'_eq_self]
  have hs : fld (2#4 ++ 4#4 ++ m.code ++ d ++ a ++ b) 24 4 = 4#4 := by
    simp (disch := decide) only [fld, fld_low, fld_high, Nat.reduceSub, BitVec.extractLsb'_eq_self]
  simp only [decodeWord_class2 hc, decodeClass2, hs, BitVec.toNat_ofNat, Nat.reducePow, Nat.reduceMod]
  simp (disch := decide) only [fld, fld_low, fld_high, Nat.reduceSub, BitVec.extractLsb'_eq_self]
  all_goals cases m <;> rfl

theorem Encodes.fdiv (m : Rm) (d : Reg) (a : Reg) (b : Reg) : Encodes.Statement (.fdiv m d a b) := by
  refine encodes_of_word rfl fun hi => ?_
  have hc : fld (2#4 ++ 5#4 ++ m.code ++ d ++ a ++ b) 28 4 = 2#4 := by
    simp (disch := decide) only [fld, fld_low, fld_high, Nat.reduceSub, BitVec.extractLsb'_eq_self]
  have hs : fld (2#4 ++ 5#4 ++ m.code ++ d ++ a ++ b) 24 4 = 5#4 := by
    simp (disch := decide) only [fld, fld_low, fld_high, Nat.reduceSub, BitVec.extractLsb'_eq_self]
  simp only [decodeWord_class2 hc, decodeClass2, hs, BitVec.toNat_ofNat, Nat.reducePow, Nat.reduceMod]
  simp (disch := decide) only [fld, fld_low, fld_high, Nat.reduceSub, BitVec.extractLsb'_eq_self]
  all_goals cases m <;> rfl

theorem Encodes.fabs (d : Reg) (a : Reg) : Encodes.Statement (.fabs d a) := by
  refine encodes_of_word rfl fun hi => ?_
  have hc : fld (2#4 ++ 6#4 ++ 0#3 ++ d ++ a ++ 0#7) 28 4 = 2#4 := by
    simp (disch := decide) only [fld, fld_low, fld_high, Nat.reduceSub, BitVec.extractLsb'_eq_self]
  have hs : fld (2#4 ++ 6#4 ++ 0#3 ++ d ++ a ++ 0#7) 24 4 = 6#4 := by
    simp (disch := decide) only [fld, fld_low, fld_high, Nat.reduceSub, BitVec.extractLsb'_eq_self]
  simp only [decodeWord_class2 hc, decodeClass2, hs, BitVec.toNat_ofNat, Nat.reducePow, Nat.reduceMod]
  simp (disch := decide) only [fld, fld_low, fld_high, Nat.reduceSub, BitVec.extractLsb'_eq_self]
  all_goals rfl

theorem Encodes.fneg (d : Reg) (a : Reg) : Encodes.Statement (.fneg d a) := by
  refine encodes_of_word rfl fun hi => ?_
  have hc : fld (2#4 ++ 6#4 ++ 1#3 ++ d ++ a ++ 0#7) 28 4 = 2#4 := by
    simp (disch := decide) only [fld, fld_low, fld_high, Nat.reduceSub, BitVec.extractLsb'_eq_self]
  have hs : fld (2#4 ++ 6#4 ++ 1#3 ++ d ++ a ++ 0#7) 24 4 = 6#4 := by
    simp (disch := decide) only [fld, fld_low, fld_high, Nat.reduceSub, BitVec.extractLsb'_eq_self]
  simp only [decodeWord_class2 hc, decodeClass2, hs, BitVec.toNat_ofNat, Nat.reducePow, Nat.reduceMod]
  simp (disch := decide) only [fld, fld_low, fld_high, Nat.reduceSub, BitVec.extractLsb'_eq_self]
  all_goals rfl

theorem Encodes.fsat (d : Reg) (a : Reg) : Encodes.Statement (.fsat d a) := by
  refine encodes_of_word rfl fun hi => ?_
  have hc : fld (2#4 ++ 6#4 ++ 2#3 ++ d ++ a ++ 0#7) 28 4 = 2#4 := by
    simp (disch := decide) only [fld, fld_low, fld_high, Nat.reduceSub, BitVec.extractLsb'_eq_self]
  have hs : fld (2#4 ++ 6#4 ++ 2#3 ++ d ++ a ++ 0#7) 24 4 = 6#4 := by
    simp (disch := decide) only [fld, fld_low, fld_high, Nat.reduceSub, BitVec.extractLsb'_eq_self]
  simp only [decodeWord_class2 hc, decodeClass2, hs, BitVec.toNat_ofNat, Nat.reducePow, Nat.reduceMod]
  simp (disch := decide) only [fld, fld_low, fld_high, Nat.reduceSub, BitVec.extractLsb'_eq_self]
  all_goals rfl

theorem Encodes.ffrac (d : Reg) (a : Reg) : Encodes.Statement (.ffrac d a) := by
  refine encodes_of_word rfl fun hi => ?_
  have hc : fld (2#4 ++ 6#4 ++ 3#3 ++ d ++ a ++ 0#7) 28 4 = 2#4 := by
    simp (disch := decide) only [fld, fld_low, fld_high, Nat.reduceSub, BitVec.extractLsb'_eq_self]
  have hs : fld (2#4 ++ 6#4 ++ 3#3 ++ d ++ a ++ 0#7) 24 4 = 6#4 := by
    simp (disch := decide) only [fld, fld_low, fld_high, Nat.reduceSub, BitVec.extractLsb'_eq_self]
  simp only [decodeWord_class2 hc, decodeClass2, hs, BitVec.toNat_ofNat, Nat.reducePow, Nat.reduceMod]
  simp (disch := decide) only [fld, fld_low, fld_high, Nat.reduceSub, BitVec.extractLsb'_eq_self]
  all_goals rfl

theorem Encodes.fround (m : FRoundMode) (d : Reg) (a : Reg) : Encodes.Statement (.fround m d a) := by
  refine encodes_of_word rfl fun hi => ?_
  have hc : fld (2#4 ++ 6#4 ++ m.code ++ d ++ a ++ 0#7) 28 4 = 2#4 := by
    simp (disch := decide) only [fld, fld_low, fld_high, Nat.reduceSub, BitVec.extractLsb'_eq_self]
  have hs : fld (2#4 ++ 6#4 ++ m.code ++ d ++ a ++ 0#7) 24 4 = 6#4 := by
    simp (disch := decide) only [fld, fld_low, fld_high, Nat.reduceSub, BitVec.extractLsb'_eq_self]
  simp only [decodeWord_class2 hc, decodeClass2, hs, BitVec.toNat_ofNat, Nat.reducePow, Nat.reduceMod]
  simp (disch := decide) only [fld, fld_low, fld_high, Nat.reduceSub, BitVec.extractLsb'_eq_self]
  all_goals cases m <;> rfl

theorem Encodes.fcopys (d : Reg) (a : Reg) (b : Reg) : Encodes.Statement (.fcopys d a b) := by
  refine encodes_of_word rfl fun hi => ?_
  have hc : fld (2#4 ++ 7#4 ++ 0#3 ++ d ++ a ++ b) 28 4 = 2#4 := by
    simp (disch := decide) only [fld, fld_low, fld_high, Nat.reduceSub, BitVec.extractLsb'_eq_self]
  have hs : fld (2#4 ++ 7#4 ++ 0#3 ++ d ++ a ++ b) 24 4 = 7#4 := by
    simp (disch := decide) only [fld, fld_low, fld_high, Nat.reduceSub, BitVec.extractLsb'_eq_self]
  simp only [decodeWord_class2 hc, decodeClass2, hs, BitVec.toNat_ofNat, Nat.reducePow, Nat.reduceMod]
  simp (disch := decide) only [fld, fld_low, fld_high, Nat.reduceSub, BitVec.extractLsb'_eq_self]
  all_goals rfl

theorem Encodes.fldx (m : Rm) (d : Reg) (a : Reg) (b : Reg) : Encodes.Statement (.fldx m d a b) := by
  refine encodes_of_word rfl fun hi => ?_
  have hc : fld (2#4 ++ 8#4 ++ m.code ++ d ++ a ++ b) 28 4 = 2#4 := by
    simp (disch := decide) only [fld, fld_low, fld_high, Nat.reduceSub, BitVec.extractLsb'_eq_self]
  have hs : fld (2#4 ++ 8#4 ++ m.code ++ d ++ a ++ b) 24 4 = 8#4 := by
    simp (disch := decide) only [fld, fld_low, fld_high, Nat.reduceSub, BitVec.extractLsb'_eq_self]
  simp only [decodeWord_class2 hc, decodeClass2, hs, BitVec.toNat_ofNat, Nat.reducePow, Nat.reduceMod]
  simp (disch := decide) only [fld, fld_low, fld_high, Nat.reduceSub, BitVec.extractLsb'_eq_self]
  all_goals cases m <;> rfl

theorem Encodes.fkind (d : Reg) (a : Reg) : Encodes.Statement (.fkind d a) := by
  refine encodes_of_word rfl fun hi => ?_
  have hc : fld (2#4 ++ 9#4 ++ 0#3 ++ d ++ a ++ 0#7) 28 4 = 2#4 := by
    simp (disch := decide) only [fld, fld_low, fld_high, Nat.reduceSub, BitVec.extractLsb'_eq_self]
  have hs : fld (2#4 ++ 9#4 ++ 0#3 ++ d ++ a ++ 0#7) 24 4 = 9#4 := by
    simp (disch := decide) only [fld, fld_low, fld_high, Nat.reduceSub, BitVec.extractLsb'_eq_self]
  simp only [decodeWord_class2 hc, decodeClass2, hs, BitVec.toNat_ofNat, Nat.reducePow, Nat.reduceMod]
  simp (disch := decide) only [fld, fld_low, fld_high, Nat.reduceSub, BitVec.extractLsb'_eq_self]
  all_goals rfl

theorem Encodes.padd (m : Pk) (d : Reg) (a : Reg) (b : Reg) : Encodes.Statement (.padd m d a b) := by
  refine encodes_of_word rfl fun hi => ?_
  have hc : fld (2#4 ++ 10#4 ++ m.code ++ d ++ a ++ b) 28 4 = 2#4 := by
    simp (disch := decide) only [fld, fld_low, fld_high, Nat.reduceSub, BitVec.extractLsb'_eq_self]
  have hs : fld (2#4 ++ 10#4 ++ m.code ++ d ++ a ++ b) 24 4 = 10#4 := by
    simp (disch := decide) only [fld, fld_low, fld_high, Nat.reduceSub, BitVec.extractLsb'_eq_self]
  simp only [decodeWord_class2 hc, decodeClass2, hs, BitVec.toNat_ofNat, Nat.reducePow, Nat.reduceMod]
  simp (disch := decide) only [fld, fld_low, fld_high, Nat.reduceSub, BitVec.extractLsb'_eq_self]
  all_goals cases m <;> rfl

theorem Encodes.pmul (m : Pk) (d : Reg) (a : Reg) (b : Reg) : Encodes.Statement (.pmul m d a b) := by
  refine encodes_of_word rfl fun hi => ?_
  have hc : fld (2#4 ++ 11#4 ++ m.code ++ d ++ a ++ b) 28 4 = 2#4 := by
    simp (disch := decide) only [fld, fld_low, fld_high, Nat.reduceSub, BitVec.extractLsb'_eq_self]
  have hs : fld (2#4 ++ 11#4 ++ m.code ++ d ++ a ++ b) 24 4 = 11#4 := by
    simp (disch := decide) only [fld, fld_low, fld_high, Nat.reduceSub, BitVec.extractLsb'_eq_self]
  simp only [decodeWord_class2 hc, decodeClass2, hs, BitVec.toNat_ofNat, Nat.reducePow, Nat.reduceMod]
  simp (disch := decide) only [fld, fld_low, fld_high, Nat.reduceSub, BitVec.extractLsb'_eq_self]
  all_goals cases m <;> rfl

theorem Encodes.pmin (m : Pk) (d : Reg) (a : Reg) (b : Reg) : Encodes.Statement (.pmin m d a b) := by
  refine encodes_of_word rfl fun hi => ?_
  have hc : fld (2#4 ++ 12#4 ++ m.code ++ d ++ a ++ b) 28 4 = 2#4 := by
    simp (disch := decide) only [fld, fld_low, fld_high, Nat.reduceSub, BitVec.extractLsb'_eq_self]
  have hs : fld (2#4 ++ 12#4 ++ m.code ++ d ++ a ++ b) 24 4 = 12#4 := by
    simp (disch := decide) only [fld, fld_low, fld_high, Nat.reduceSub, BitVec.extractLsb'_eq_self]
  simp only [decodeWord_class2 hc, decodeClass2, hs, BitVec.toNat_ofNat, Nat.reducePow, Nat.reduceMod]
  simp (disch := decide) only [fld, fld_low, fld_high, Nat.reduceSub, BitVec.extractLsb'_eq_self]
  all_goals cases m <;> rfl

theorem Encodes.pmax (m : Pk) (d : Reg) (a : Reg) (b : Reg) : Encodes.Statement (.pmax m d a b) := by
  refine encodes_of_word rfl fun hi => ?_
  have hc : fld (2#4 ++ 13#4 ++ m.code ++ d ++ a ++ b) 28 4 = 2#4 := by
    simp (disch := decide) only [fld, fld_low, fld_high, Nat.reduceSub, BitVec.extractLsb'_eq_self]
  have hs : fld (2#4 ++ 13#4 ++ m.code ++ d ++ a ++ b) 24 4 = 13#4 := by
    simp (disch := decide) only [fld, fld_low, fld_high, Nat.reduceSub, BitVec.extractLsb'_eq_self]
  simp only [decodeWord_class2 hc, decodeClass2, hs, BitVec.toNat_ofNat, Nat.reducePow, Nat.reduceMod]
  simp (disch := decide) only [fld, fld_low, fld_high, Nat.reduceSub, BitVec.extractLsb'_eq_self]
  all_goals cases m <;> rfl

theorem Encodes.fdp2 (m : Pk) (d : Reg) (a : Reg) (b : Reg) : Encodes.Statement (.fdp2 m d a b) := by
  refine encodes_of_word rfl fun hi => ?_
  have hc : fld (2#4 ++ 14#4 ++ m.code ++ d ++ a ++ b) 28 4 = 2#4 := by
    simp (disch := decide) only [fld, fld_low, fld_high, Nat.reduceSub, BitVec.extractLsb'_eq_self]
  have hs : fld (2#4 ++ 14#4 ++ m.code ++ d ++ a ++ b) 24 4 = 14#4 := by
    simp (disch := decide) only [fld, fld_low, fld_high, Nat.reduceSub, BitVec.extractLsb'_eq_self]
  simp only [decodeWord_class2 hc, decodeClass2, hs, BitVec.toNat_ofNat, Nat.reducePow, Nat.reduceMod]
  simp (disch := decide) only [fld, fld_low, fld_high, Nat.reduceSub, BitVec.extractLsb'_eq_self]
  all_goals cases m <;> rfl

theorem Encodes.fmac (d : Reg) (a : Reg) (b : Reg) (c : Reg) : Encodes.Statement (.fmac d a b c) := by
  refine encodes_of_word rfl fun hi => ?_
  have hc : fld (12#4 ++ d ++ a ++ b ++ c) 28 4 = 12#4 := by
    simp (disch := decide) only [fld, fld_low, fld_high, Nat.reduceSub, BitVec.extractLsb'_eq_self]
  simp only [decodeWord_classC hc]
  simp (disch := decide) only [fld, fld_low, fld_high, Nat.reduceSub, BitVec.extractLsb'_eq_self]
  all_goals rfl

theorem Encodes.pmac (d : Reg) (a : Reg) (b : Reg) (c : Reg) : Encodes.Statement (.pmac d a b c) := by
  refine encodes_of_word rfl fun hi => ?_
  have hc : fld (13#4 ++ d ++ a ++ b ++ c) 28 4 = 13#4 := by
    simp (disch := decide) only [fld, fld_low, fld_high, Nat.reduceSub, BitVec.extractLsb'_eq_self]
  simp only [decodeWord_classD hc]
  simp (disch := decide) only [fld, fld_low, fld_high, Nat.reduceSub, BitVec.extractLsb'_eq_self]
  all_goals rfl

theorem Encodes.fcvi (m : FcviMode) (d : Reg) (a : Reg) : Encodes.Statement (.fcvi m d a) := by
  refine encodes_of_word rfl fun hi => ?_
  have hc : fld (3#4 ++ 0#4 ++ m.code ++ d ++ a ++ 0#7) 28 4 = 3#4 := by
    simp (disch := decide) only [fld, fld_low, fld_high, Nat.reduceSub, BitVec.extractLsb'_eq_self]
  have hs : fld (3#4 ++ 0#4 ++ m.code ++ d ++ a ++ 0#7) 24 4 = 0#4 := by
    simp (disch := decide) only [fld, fld_low, fld_high, Nat.reduceSub, BitVec.extractLsb'_eq_self]
  simp only [decodeWord_class3 hc, decodeClass3, hs, BitVec.toNat_ofNat, Nat.reducePow, Nat.reduceMod]
  simp (disch := decide) only [fld, fld_low, fld_high, Nat.reduceSub, BitVec.extractLsb'_eq_self]
  all_goals cases m <;> rfl

theorem Encodes.icvf (m : Sgn) (d : Reg) (a : Reg) : Encodes.Statement (.icvf m d a) := by
  refine encodes_of_word rfl fun hi => ?_
  have hc : fld (3#4 ++ 1#4 ++ m.code ++ d ++ a ++ 0#7) 28 4 = 3#4 := by
    simp (disch := decide) only [fld, fld_low, fld_high, Nat.reduceSub, BitVec.extractLsb'_eq_self]
  have hs : fld (3#4 ++ 1#4 ++ m.code ++ d ++ a ++ 0#7) 24 4 = 1#4 := by
    simp (disch := decide) only [fld, fld_low, fld_high, Nat.reduceSub, BitVec.extractLsb'_eq_self]
  simp only [decodeWord_class3 hc, decodeClass3, hs, BitVec.toNat_ofNat, Nat.reducePow, Nat.reduceMod]
  simp (disch := decide) only [fld, fld_low, fld_high, Nat.reduceSub, BitVec.extractLsb'_eq_self]
  all_goals cases m <;> rfl

theorem Encodes.pack16 (m : Pack16Mode) (d : Reg) (a : Reg) (b : Reg) : Encodes.Statement (.pack16 m d a b) := by
  refine encodes_of_word rfl fun hi => ?_
  have hc : fld (3#4 ++ 2#4 ++ m.code ++ d ++ a ++ b) 28 4 = 3#4 := by
    simp (disch := decide) only [fld, fld_low, fld_high, Nat.reduceSub, BitVec.extractLsb'_eq_self]
  have hs : fld (3#4 ++ 2#4 ++ m.code ++ d ++ a ++ b) 24 4 = 2#4 := by
    simp (disch := decide) only [fld, fld_low, fld_high, Nat.reduceSub, BitVec.extractLsb'_eq_self]
  simp only [decodeWord_class3 hc, decodeClass3, hs, BitVec.toNat_ofNat, Nat.reducePow, Nat.reduceMod]
  simp (disch := decide) only [fld, fld_low, fld_high, Nat.reduceSub, BitVec.extractLsb'_eq_self]
  all_goals cases m <;> rfl

theorem Encodes.unpk16 (m : Unpk16Mode) (d : Reg) (a : Reg) : Encodes.Statement (.unpk16 m d a) := by
  refine encodes_of_word rfl fun hi => ?_
  have hc : fld (3#4 ++ 3#4 ++ m.code ++ d ++ a ++ 0#7) 28 4 = 3#4 := by
    simp (disch := decide) only [fld, fld_low, fld_high, Nat.reduceSub, BitVec.extractLsb'_eq_self]
  have hs : fld (3#4 ++ 3#4 ++ m.code ++ d ++ a ++ 0#7) 24 4 = 3#4 := by
    simp (disch := decide) only [fld, fld_low, fld_high, Nat.reduceSub, BitVec.extractLsb'_eq_self]
  simp only [decodeWord_class3 hc, decodeClass3, hs, BitVec.toNat_ofNat, Nat.reducePow, Nat.reduceMod]
  simp (disch := decide) only [fld, fld_low, fld_high, Nat.reduceSub, BitVec.extractLsb'_eq_self]
  all_goals cases m <;> rfl

theorem Encodes.cvtn (k : BitVec 3) (d : Reg) (a : Reg) (b : Reg) : Encodes.Statement (.cvtn k d a b) := by
  refine encodes_of_word rfl fun hi => ?_
  have hc : fld (3#4 ++ 4#4 ++ k ++ d ++ a ++ b) 28 4 = 3#4 := by
    simp (disch := decide) only [fld, fld_low, fld_high, Nat.reduceSub, BitVec.extractLsb'_eq_self]
  have hs : fld (3#4 ++ 4#4 ++ k ++ d ++ a ++ b) 24 4 = 4#4 := by
    simp (disch := decide) only [fld, fld_low, fld_high, Nat.reduceSub, BitVec.extractLsb'_eq_self]
  simp only [decodeWord_class3 hc, decodeClass3, hs, BitVec.toNat_ofNat, Nat.reducePow, Nat.reduceMod]
  simp (disch := decide) only [fld, fld_low, fld_high, Nat.reduceSub, BitVec.extractLsb'_eq_self]
  all_goals rfl

theorem Encodes.cvtw (k : BitVec 3) (d : Reg) (a : Reg) (b : Reg) : Encodes.Statement (.cvtw k d a b) := by
  refine encodes_of_word rfl fun hi => ?_
  have hc : fld (3#4 ++ 5#4 ++ k ++ d ++ a ++ b) 28 4 = 3#4 := by
    simp (disch := decide) only [fld, fld_low, fld_high, Nat.reduceSub, BitVec.extractLsb'_eq_self]
  have hs : fld (3#4 ++ 5#4 ++ k ++ d ++ a ++ b) 24 4 = 5#4 := by
    simp (disch := decide) only [fld, fld_low, fld_high, Nat.reduceSub, BitVec.extractLsb'_eq_self]
  simp only [decodeWord_class3 hc, decodeClass3, hs, BitVec.toNat_ofNat, Nat.reducePow, Nat.reduceMod]
  simp (disch := decide) only [fld, fld_low, fld_high, Nat.reduceSub, BitVec.extractLsb'_eq_self]
  all_goals rfl

theorem Encodes.unpk3 (z : Bool) (m : BitVec 2) (d : Reg) (a : Reg) : Encodes.Statement (.unpk3 z m d a) := by
  refine encodes_of_word rfl fun hi => ?_
  have hc : fld (3#4 ++ 6#4 ++ BitVec.ofBool z ++ m ++ d ++ a ++ 0#7) 28 4 = 3#4 := by
    simp (disch := decide) only [fld, fld_low, fld_high, Nat.reduceSub, BitVec.extractLsb'_eq_self]
  have hs : fld (3#4 ++ 6#4 ++ BitVec.ofBool z ++ m ++ d ++ a ++ 0#7) 24 4 = 6#4 := by
    simp (disch := decide) only [fld, fld_low, fld_high, Nat.reduceSub, BitVec.extractLsb'_eq_self]
  simp only [decodeWord_class3 hc, decodeClass3, hs, BitVec.toNat_ofNat, Nat.reducePow, Nat.reduceMod]
  simp (disch := decide) only [fld, fld_low, fld_high, Nat.reduceSub, BitVec.extractLsb'_eq_self]
  all_goals cases z <;> rfl

theorem Encodes.cbdec (k : BitVec 3) (d : Reg) (a : Reg) : Encodes.Statement (.cbdec k d a) := by
  refine encodes_of_word rfl fun hi => ?_
  have hc : fld (3#4 ++ 7#4 ++ k ++ d ++ a ++ 0#7) 28 4 = 3#4 := by
    simp (disch := decide) only [fld, fld_low, fld_high, Nat.reduceSub, BitVec.extractLsb'_eq_self]
  have hs : fld (3#4 ++ 7#4 ++ k ++ d ++ a ++ 0#7) 24 4 = 7#4 := by
    simp (disch := decide) only [fld, fld_low, fld_high, Nat.reduceSub, BitVec.extractLsb'_eq_self]
  simp only [decodeWord_class3 hc, decodeClass3, hs, BitVec.toNat_ofNat, Nat.reducePow, Nat.reduceMod]
  simp (disch := decide) only [fld, fld_low, fld_high, Nat.reduceSub, BitVec.extractLsb'_eq_self]
  all_goals rfl

theorem Encodes.recip (d : Reg) (a : Reg) : Encodes.Statement (.recip d a) := by
  refine encodes_of_word rfl fun hi => ?_
  have hc : fld (3#4 ++ 8#4 ++ 0#3 ++ d ++ a ++ 0#7) 28 4 = 3#4 := by
    simp (disch := decide) only [fld, fld_low, fld_high, Nat.reduceSub, BitVec.extractLsb'_eq_self]
  have hs : fld (3#4 ++ 8#4 ++ 0#3 ++ d ++ a ++ 0#7) 24 4 = 8#4 := by
    simp (disch := decide) only [fld, fld_low, fld_high, Nat.reduceSub, BitVec.extractLsb'_eq_self]
  simp only [decodeWord_class3 hc, decodeClass3, hs, BitVec.toNat_ofNat, Nat.reducePow, Nat.reduceMod]
  simp (disch := decide) only [fld, fld_low, fld_high, Nat.reduceSub, BitVec.extractLsb'_eq_self]
  all_goals rfl

theorem Encodes.rroot (d : Reg) (a : Reg) : Encodes.Statement (.rroot d a) := by
  refine encodes_of_word rfl fun hi => ?_
  have hc : fld (3#4 ++ 8#4 ++ 1#3 ++ d ++ a ++ 0#7) 28 4 = 3#4 := by
    simp (disch := decide) only [fld, fld_low, fld_high, Nat.reduceSub, BitVec.extractLsb'_eq_self]
  have hs : fld (3#4 ++ 8#4 ++ 1#3 ++ d ++ a ++ 0#7) 24 4 = 8#4 := by
    simp (disch := decide) only [fld, fld_low, fld_high, Nat.reduceSub, BitVec.extractLsb'_eq_self]
  simp only [decodeWord_class3 hc, decodeClass3, hs, BitVec.toNat_ofNat, Nat.reducePow, Nat.reduceMod]
  simp (disch := decide) only [fld, fld_low, fld_high, Nat.reduceSub, BitVec.extractLsb'_eq_self]
  all_goals rfl

theorem Encodes.sqrt (d : Reg) (a : Reg) : Encodes.Statement (.sqrt d a) := by
  refine encodes_of_word rfl fun hi => ?_
  have hc : fld (3#4 ++ 8#4 ++ 2#3 ++ d ++ a ++ 0#7) 28 4 = 3#4 := by
    simp (disch := decide) only [fld, fld_low, fld_high, Nat.reduceSub, BitVec.extractLsb'_eq_self]
  have hs : fld (3#4 ++ 8#4 ++ 2#3 ++ d ++ a ++ 0#7) 24 4 = 8#4 := by
    simp (disch := decide) only [fld, fld_low, fld_high, Nat.reduceSub, BitVec.extractLsb'_eq_self]
  simp only [decodeWord_class3 hc, decodeClass3, hs, BitVec.toNat_ofNat, Nat.reducePow, Nat.reduceMod]
  simp (disch := decide) only [fld, fld_low, fld_high, Nat.reduceSub, BitVec.extractLsb'_eq_self]
  all_goals rfl

theorem Encodes.exp2 (d : Reg) (a : Reg) : Encodes.Statement (.exp2 d a) := by
  refine encodes_of_word rfl fun hi => ?_
  have hc : fld (3#4 ++ 8#4 ++ 3#3 ++ d ++ a ++ 0#7) 28 4 = 3#4 := by
    simp (disch := decide) only [fld, fld_low, fld_high, Nat.reduceSub, BitVec.extractLsb'_eq_self]
  have hs : fld (3#4 ++ 8#4 ++ 3#3 ++ d ++ a ++ 0#7) 24 4 = 8#4 := by
    simp (disch := decide) only [fld, fld_low, fld_high, Nat.reduceSub, BitVec.extractLsb'_eq_self]
  simp only [decodeWord_class3 hc, decodeClass3, hs, BitVec.toNat_ofNat, Nat.reducePow, Nat.reduceMod]
  simp (disch := decide) only [fld, fld_low, fld_high, Nat.reduceSub, BitVec.extractLsb'_eq_self]
  all_goals rfl

theorem Encodes.log2 (d : Reg) (a : Reg) : Encodes.Statement (.log2 d a) := by
  refine encodes_of_word rfl fun hi => ?_
  have hc : fld (3#4 ++ 8#4 ++ 4#3 ++ d ++ a ++ 0#7) 28 4 = 3#4 := by
    simp (disch := decide) only [fld, fld_low, fld_high, Nat.reduceSub, BitVec.extractLsb'_eq_self]
  have hs : fld (3#4 ++ 8#4 ++ 4#3 ++ d ++ a ++ 0#7) 24 4 = 8#4 := by
    simp (disch := decide) only [fld, fld_low, fld_high, Nat.reduceSub, BitVec.extractLsb'_eq_self]
  simp only [decodeWord_class3 hc, decodeClass3, hs, BitVec.toNat_ofNat, Nat.reducePow, Nat.reduceMod]
  simp (disch := decide) only [fld, fld_low, fld_high, Nat.reduceSub, BitVec.extractLsb'_eq_self]
  all_goals rfl

theorem Encodes.tanh (d : Reg) (a : Reg) : Encodes.Statement (.tanh d a) := by
  refine encodes_of_word rfl fun hi => ?_
  have hc : fld (3#4 ++ 8#4 ++ 5#3 ++ d ++ a ++ 0#7) 28 4 = 3#4 := by
    simp (disch := decide) only [fld, fld_low, fld_high, Nat.reduceSub, BitVec.extractLsb'_eq_self]
  have hs : fld (3#4 ++ 8#4 ++ 5#3 ++ d ++ a ++ 0#7) 24 4 = 8#4 := by
    simp (disch := decide) only [fld, fld_low, fld_high, Nat.reduceSub, BitVec.extractLsb'_eq_self]
  simp only [decodeWord_class3 hc, decodeClass3, hs, BitVec.toNat_ofNat, Nat.reducePow, Nat.reduceMod]
  simp (disch := decide) only [fld, fld_low, fld_high, Nat.reduceSub, BitVec.extractLsb'_eq_self]
  all_goals rfl

theorem Encodes.sint (d : Reg) (a : Reg) : Encodes.Statement (.sint d a) := by
  refine encodes_of_word rfl fun hi => ?_
  have hc : fld (3#4 ++ 9#4 ++ 0#3 ++ d ++ a ++ 0#7) 28 4 = 3#4 := by
    simp (disch := decide) only [fld, fld_low, fld_high, Nat.reduceSub, BitVec.extractLsb'_eq_self]
  have hs : fld (3#4 ++ 9#4 ++ 0#3 ++ d ++ a ++ 0#7) 24 4 = 9#4 := by
    simp (disch := decide) only [fld, fld_low, fld_high, Nat.reduceSub, BitVec.extractLsb'_eq_self]
  simp only [decodeWord_class3 hc, decodeClass3, hs, BitVec.toNat_ofNat, Nat.reducePow, Nat.reduceMod]
  simp (disch := decide) only [fld, fld_low, fld_high, Nat.reduceSub, BitVec.extractLsb'_eq_self]
  all_goals rfl

theorem Encodes.cost (d : Reg) (a : Reg) : Encodes.Statement (.cost d a) := by
  refine encodes_of_word rfl fun hi => ?_
  have hc : fld (3#4 ++ 9#4 ++ 1#3 ++ d ++ a ++ 0#7) 28 4 = 3#4 := by
    simp (disch := decide) only [fld, fld_low, fld_high, Nat.reduceSub, BitVec.extractLsb'_eq_self]
  have hs : fld (3#4 ++ 9#4 ++ 1#3 ++ d ++ a ++ 0#7) 24 4 = 9#4 := by
    simp (disch := decide) only [fld, fld_low, fld_high, Nat.reduceSub, BitVec.extractLsb'_eq_self]
  simp only [decodeWord_class3 hc, decodeClass3, hs, BitVec.toNat_ofNat, Nat.reducePow, Nat.reduceMod]
  simp (disch := decide) only [fld, fld_low, fld_high, Nat.reduceSub, BitVec.extractLsb'_eq_self]
  all_goals rfl

theorem Encodes.icvi (m : IcviMode) (d : Reg) (a : Reg) : Encodes.Statement (.icvi m d a) := by
  refine encodes_of_word rfl fun hi => ?_
  have hc : fld (3#4 ++ 10#4 ++ m.code ++ d ++ a ++ 0#7) 28 4 = 3#4 := by
    simp (disch := decide) only [fld, fld_low, fld_high, Nat.reduceSub, BitVec.extractLsb'_eq_self]
  have hs : fld (3#4 ++ 10#4 ++ m.code ++ d ++ a ++ 0#7) 24 4 = 10#4 := by
    simp (disch := decide) only [fld, fld_low, fld_high, Nat.reduceSub, BitVec.extractLsb'_eq_self]
  simp only [decodeWord_class3 hc, decodeClass3, hs, BitVec.toNat_ofNat, Nat.reducePow, Nat.reduceMod]
  simp (disch := decide) only [fld, fld_low, fld_high, Nat.reduceSub, BitVec.extractLsb'_eq_self]
  all_goals cases m <;> rfl

theorem Encodes.bsel (d : Reg) (a : Reg) (b : Reg) : Encodes.Statement (.bsel d a b) := by
  refine encodes_of_word rfl fun hi => ?_
  have hc : fld (3#4 ++ 11#4 ++ 0#3 ++ d ++ a ++ b) 28 4 = 3#4 := by
    simp (disch := decide) only [fld, fld_low, fld_high, Nat.reduceSub, BitVec.extractLsb'_eq_self]
  have hs : fld (3#4 ++ 11#4 ++ 0#3 ++ d ++ a ++ b) 24 4 = 11#4 := by
    simp (disch := decide) only [fld, fld_low, fld_high, Nat.reduceSub, BitVec.extractLsb'_eq_self]
  simp only [decodeWord_class3 hc, decodeClass3, hs, BitVec.toNat_ofNat, Nat.reducePow, Nat.reduceMod]
  simp (disch := decide) only [fld, fld_low, fld_high, Nat.reduceSub, BitVec.extractLsb'_eq_self]
  all_goals rfl

theorem Encodes.dotb4 (sat : Bool) (ua : Bool) (ub : Bool) (d : Reg) (a : Reg) (b : Reg) : Encodes.Statement (.dotb4 sat ua ub d a b) := by
  refine encodes_of_word rfl fun hi => ?_
  have hc : fld (3#4 ++ 12#4 ++ BitVec.ofBool sat ++ BitVec.ofBool ua ++ BitVec.ofBool ub ++ d ++ a ++ b) 28 4 = 3#4 := by
    simp (disch := decide) only [fld, fld_low, fld_high, Nat.reduceSub, BitVec.extractLsb'_eq_self]
  have hs : fld (3#4 ++ 12#4 ++ BitVec.ofBool sat ++ BitVec.ofBool ua ++ BitVec.ofBool ub ++ d ++ a ++ b) 24 4 = 12#4 := by
    simp (disch := decide) only [fld, fld_low, fld_high, Nat.reduceSub, BitVec.extractLsb'_eq_self]
  simp only [decodeWord_class3 hc, decodeClass3, hs, BitVec.toNat_ofNat, Nat.reducePow, Nat.reduceMod]
  simp (disch := decide) only [fld, fld_low, fld_high, Nat.reduceSub, BitVec.extractLsb'_eq_self]
  all_goals cases sat <;> cases ua <;> cases ub <;> rfl

theorem Encodes.isgna (d : Reg) (a : Reg) (b : Reg) : Encodes.Statement (.isgna d a b) := by
  refine encodes_of_word rfl fun hi => ?_
  have hc : fld (3#4 ++ 13#4 ++ 0#3 ++ d ++ a ++ b) 28 4 = 3#4 := by
    simp (disch := decide) only [fld, fld_low, fld_high, Nat.reduceSub, BitVec.extractLsb'_eq_self]
  have hs : fld (3#4 ++ 13#4 ++ 0#3 ++ d ++ a ++ b) 24 4 = 13#4 := by
    simp (disch := decide) only [fld, fld_low, fld_high, Nat.reduceSub, BitVec.extractLsb'_eq_self]
  simp only [decodeWord_class3 hc, decodeClass3, hs, BitVec.toNat_ofNat, Nat.reducePow, Nat.reduceMod]
  simp (disch := decide) only [fld, fld_low, fld_high, Nat.reduceSub, BitVec.extractLsb'_eq_self]
  all_goals rfl

theorem Encodes.shfl (m : ShflMode) (d : Reg) (a : Reg) (b : Reg) : Encodes.Statement (.shfl m d a b) := by
  refine encodes_of_word rfl fun hi => ?_
  have hc : fld (4#4 ++ 0#4 ++ m.code ++ d ++ a ++ b) 28 4 = 4#4 := by
    simp (disch := decide) only [fld, fld_low, fld_high, Nat.reduceSub, BitVec.extractLsb'_eq_self]
  have hs : fld (4#4 ++ 0#4 ++ m.code ++ d ++ a ++ b) 24 4 = 0#4 := by
    simp (disch := decide) only [fld, fld_low, fld_high, Nat.reduceSub, BitVec.extractLsb'_eq_self]
  simp only [decodeWord_class4 hc, decodeClass4, hs, BitVec.toNat_ofNat, Nat.reducePow, Nat.reduceMod]
  simp (disch := decide) only [fld, fld_low, fld_high, Nat.reduceSub, BitVec.extractLsb'_eq_self]
  all_goals cases m <;> rfl

theorem Encodes.gpoll (m : GpollMode) (d : Reg) (a : Reg) : Encodes.Statement (.gpoll m d a) := by
  refine encodes_of_word rfl fun hi => ?_
  have hc : fld (4#4 ++ 1#4 ++ m.code ++ d ++ a ++ 0#7) 28 4 = 4#4 := by
    simp (disch := decide) only [fld, fld_low, fld_high, Nat.reduceSub, BitVec.extractLsb'_eq_self]
  have hs : fld (4#4 ++ 1#4 ++ m.code ++ d ++ a ++ 0#7) 24 4 = 1#4 := by
    simp (disch := decide) only [fld, fld_low, fld_high, Nat.reduceSub, BitVec.extractLsb'_eq_self]
  simp only [decodeWord_class4 hc, decodeClass4, hs, BitVec.toNat_ofNat, Nat.reducePow, Nat.reduceMod]
  simp (disch := decide) only [fld, fld_low, fld_high, Nat.reduceSub, BitVec.extractLsb'_eq_self]
  all_goals cases m <;> rfl

theorem Encodes.ired (m : IredOp) (d : Reg) (a : Reg) : Encodes.Statement (.ired m d a) := by
  refine encodes_of_word rfl fun hi => ?_
  have hc : fld (4#4 ++ 2#4 ++ m.code ++ d ++ a ++ 0#7) 28 4 = 4#4 := by
    simp (disch := decide) only [fld, fld_low, fld_high, Nat.reduceSub, BitVec.extractLsb'_eq_self]
  have hs : fld (4#4 ++ 2#4 ++ m.code ++ d ++ a ++ 0#7) 24 4 = 2#4 := by
    simp (disch := decide) only [fld, fld_low, fld_high, Nat.reduceSub, BitVec.extractLsb'_eq_self]
  simp only [decodeWord_class4 hc, decodeClass4, hs, BitVec.toNat_ofNat, Nat.reducePow, Nat.reduceMod]
  simp (disch := decide) only [fld, fld_low, fld_high, Nat.reduceSub, BitVec.extractLsb'_eq_self]
  all_goals cases m <;> rfl

theorem Encodes.fred (m : FredOp) (d : Reg) (a : Reg) : Encodes.Statement (.fred m d a) := by
  refine encodes_of_word rfl fun hi => ?_
  have hc : fld (4#4 ++ 3#4 ++ m.code ++ d ++ a ++ 0#7) 28 4 = 4#4 := by
    simp (disch := decide) only [fld, fld_low, fld_high, Nat.reduceSub, BitVec.extractLsb'_eq_self]
  have hs : fld (4#4 ++ 3#4 ++ m.code ++ d ++ a ++ 0#7) 24 4 = 3#4 := by
    simp (disch := decide) only [fld, fld_low, fld_high, Nat.reduceSub, BitVec.extractLsb'_eq_self]
  simp only [decodeWord_class4 hc, decodeClass4, hs, BitVec.toNat_ofNat, Nat.reducePow, Nat.reduceMod]
  simp (disch := decide) only [fld, fld_low, fld_high, Nat.reduceSub, BitVec.extractLsb'_eq_self]
  all_goals cases m <;> rfl

theorem Encodes.iscan (excl : Bool) (m : IscanOp) (d : Reg) (a : Reg) : Encodes.Statement (.iscan excl m d a) := by
  refine encodes_of_word rfl fun hi => ?_
  have hc : fld (4#4 ++ 4#4 ++ BitVec.ofBool excl ++ m.code ++ d ++ a ++ 0#7) 28 4 = 4#4 := by
    simp (disch := decide) only [fld, fld_low, fld_high, Nat.reduceSub, BitVec.extractLsb'_eq_self]
  have hs : fld (4#4 ++ 4#4 ++ BitVec.ofBool excl ++ m.code ++ d ++ a ++ 0#7) 24 4 = 4#4 := by
    simp (disch := decide) only [fld, fld_low, fld_high, Nat.reduceSub, BitVec.extractLsb'_eq_self]
  simp only [decodeWord_class4 hc, decodeClass4, hs, BitVec.toNat_ofNat, Nat.reducePow, Nat.reduceMod]
  simp (disch := decide) only [fld, fld_low, fld_high, Nat.reduceSub, BitVec.extractLsb'_eq_self]
  all_goals cases excl <;> cases m <;> rfl

theorem Encodes.fscan (excl : Bool) (m : FscanOp) (d : Reg) (a : Reg) : Encodes.Statement (.fscan excl m d a) := by
  refine encodes_of_word rfl fun hi => ?_
  have hc : fld (4#4 ++ 5#4 ++ BitVec.ofBool excl ++ m.code ++ d ++ a ++ 0#7) 28 4 = 4#4 := by
    simp (disch := decide) only [fld, fld_low, fld_high, Nat.reduceSub, BitVec.extractLsb'_eq_self]
  have hs : fld (4#4 ++ 5#4 ++ BitVec.ofBool excl ++ m.code ++ d ++ a ++ 0#7) 24 4 = 5#4 := by
    simp (disch := decide) only [fld, fld_low, fld_high, Nat.reduceSub, BitVec.extractLsb'_eq_self]
  simp only [decodeWord_class4 hc, decodeClass4, hs, BitVec.toNat_ofNat, Nat.reducePow, Nat.reduceMod]
  simp (disch := decide) only [fld, fld_low, fld_high, Nat.reduceSub, BitVec.extractLsb'_eq_self]
  all_goals cases excl <;> cases m <;> rfl

theorem Encodes.peers (d : Reg) (a : Reg) : Encodes.Statement (.peers d a) := by
  refine encodes_of_word rfl fun hi => ?_
  have hc : fld (4#4 ++ 6#4 ++ 0#3 ++ d ++ a ++ 0#7) 28 4 = 4#4 := by
    simp (disch := decide) only [fld, fld_low, fld_high, Nat.reduceSub, BitVec.extractLsb'_eq_self]
  have hs : fld (4#4 ++ 6#4 ++ 0#3 ++ d ++ a ++ 0#7) 24 4 = 6#4 := by
    simp (disch := decide) only [fld, fld_low, fld_high, Nat.reduceSub, BitVec.extractLsb'_eq_self]
  simp only [decodeWord_class4 hc, decodeClass4, hs, BitVec.toNat_ofNat, Nat.reducePow, Nat.reduceMod]
  simp (disch := decide) only [fld, fld_low, fld_high, Nat.reduceSub, BitVec.extractLsb'_eq_self]
  all_goals rfl

theorem Encodes.bcast (d : Reg) (a : Reg) (b : Reg) : Encodes.Statement (.bcast d a b) := by
  refine encodes_of_word rfl fun hi => ?_
  have hc : fld (4#4 ++ 7#4 ++ 0#3 ++ d ++ a ++ b) 28 4 = 4#4 := by
    simp (disch := decide) only [fld, fld_low, fld_high, Nat.reduceSub, BitVec.extractLsb'_eq_self]
  have hs : fld (4#4 ++ 7#4 ++ 0#3 ++ d ++ a ++ b) 24 4 = 7#4 := by
    simp (disch := decide) only [fld, fld_low, fld_high, Nat.reduceSub, BitVec.extractLsb'_eq_self]
  simp only [decodeWord_class4 hc, decodeClass4, hs, BitVec.toNat_ofNat, Nat.reducePow, Nat.reduceMod]
  simp (disch := decide) only [fld, fld_low, fld_high, Nat.reduceSub, BitVec.extractLsb'_eq_self]
  all_goals rfl

theorem Encodes.leader (d : Reg) : Encodes.Statement (.leader d) := by
  refine encodes_of_word rfl fun hi => ?_
  have hc : fld (4#4 ++ 8#4 ++ 0#3 ++ d ++ 0#7 ++ 0#7) 28 4 = 4#4 := by
    simp (disch := decide) only [fld, fld_low, fld_high, Nat.reduceSub, BitVec.extractLsb'_eq_self]
  have hs : fld (4#4 ++ 8#4 ++ 0#3 ++ d ++ 0#7 ++ 0#7) 24 4 = 8#4 := by
    simp (disch := decide) only [fld, fld_low, fld_high, Nat.reduceSub, BitVec.extractLsb'_eq_self]
  simp only [decodeWord_class4 hc, decodeClass4, hs, BitVec.toNat_ofNat, Nat.reducePow, Nat.reduceMod]
  simp (disch := decide) only [fld, fld_low, fld_high, Nat.reduceSub, BitVec.extractLsb'_eq_self]
  all_goals rfl

theorem Encodes.ddx (m : DdxMode) (d : Reg) (a : Reg) : Encodes.Statement (.ddx m d a) := by
  refine encodes_of_word rfl fun hi => ?_
  have hc : fld (4#4 ++ 9#4 ++ m.code ++ d ++ a ++ 0#7) 28 4 = 4#4 := by
    simp (disch := decide) only [fld, fld_low, fld_high, Nat.reduceSub, BitVec.extractLsb'_eq_self]
  have hs : fld (4#4 ++ 9#4 ++ m.code ++ d ++ a ++ 0#7) 24 4 = 9#4 := by
    simp (disch := decide) only [fld, fld_low, fld_high, Nat.reduceSub, BitVec.extractLsb'_eq_self]
  simp only [decodeWord_class4 hc, decodeClass4, hs, BitVec.toNat_ofNat, Nat.reducePow, Nat.reduceMod]
  simp (disch := decide) only [fld, fld_low, fld_high, Nat.reduceSub, BitVec.extractLsb'_eq_self]
  all_goals cases m <;> rfl

theorem Encodes.gjoin : Encodes.Statement .gjoin := by
  exact encodes_of_word rfl fun _ => by decide

theorem Encodes.compact (m : CompactW) (d : Reg) (a : Reg) (b : Reg) : Encodes.Statement (.compact m d a b) := by
  refine encodes_of_word rfl fun hi => ?_
  have hc : fld (4#4 ++ 11#4 ++ m.code ++ d ++ a ++ b) 28 4 = 4#4 := by
    simp (disch := decide) only [fld, fld_low, fld_high, Nat.reduceSub, BitVec.extractLsb'_eq_self]
  have hs : fld (4#4 ++ 11#4 ++ m.code ++ d ++ a ++ b) 24 4 = 11#4 := by
    simp (disch := decide) only [fld, fld_low, fld_high, Nat.reduceSub, BitVec.extractLsb'_eq_self]
  simp only [decodeWord_class4 hc, decodeClass4, hs, BitVec.toNat_ofNat, Nat.reducePow, Nat.reduceMod]
  simp (disch := decide) only [fld, fld_low, fld_high, Nat.reduceSub, BitVec.extractLsb'_eq_self]
  all_goals cases m <;> rfl

theorem Encodes.ldN8 (pg : PredIx) (d : Reg) (a : Reg) (imm : BitVec 7) : Encodes.Statement (.ldN8 pg d a imm) := by
  refine encodes_of_word rfl fun hi => ?_
  have hc : fld (6#4 ++ 0#4 ++ pg ++ d ++ a ++ imm) 28 4 = 6#4 := by
    simp (disch := decide) only [fld, fld_low, fld_high, Nat.reduceSub, BitVec.extractLsb'_eq_self]
  have hs : fld (6#4 ++ 0#4 ++ pg ++ d ++ a ++ imm) 24 4 = 0#4 := by
    simp (disch := decide) only [fld, fld_low, fld_high, Nat.reduceSub, BitVec.extractLsb'_eq_self]
  simp only [decodeWord_class6 hc, decodeClass6, hs, BitVec.toNat_ofNat, Nat.reducePow, Nat.reduceMod]
  simp (disch := decide) only [fld, fld_low, fld_high, Nat.reduceSub, BitVec.extractLsb'_eq_self]
  all_goals rfl

theorem Encodes.ldI8 (pg : PredIx) (d : Reg) (a : Reg) (imm : BitVec 7) : Encodes.Statement (.ldI8 pg d a imm) := by
  refine encodes_of_word rfl fun hi => ?_
  have hc : fld (6#4 ++ 1#4 ++ pg ++ d ++ a ++ imm) 28 4 = 6#4 := by
    simp (disch := decide) only [fld, fld_low, fld_high, Nat.reduceSub, BitVec.extractLsb'_eq_self]
  have hs : fld (6#4 ++ 1#4 ++ pg ++ d ++ a ++ imm) 24 4 = 1#4 := by
    simp (disch := decide) only [fld, fld_low, fld_high, Nat.reduceSub, BitVec.extractLsb'_eq_self]
  simp only [decodeWord_class6 hc, decodeClass6, hs, BitVec.toNat_ofNat, Nat.reducePow, Nat.reduceMod]
  simp (disch := decide) only [fld, fld_low, fld_high, Nat.reduceSub, BitVec.extractLsb'_eq_self]
  all_goals rfl

theorem Encodes.ldN16 (pg : PredIx) (d : Reg) (a : Reg) (imm : BitVec 7) : Encodes.Statement (.ldN16 pg d a imm) := by
  refine encodes_of_word rfl fun hi => ?_
  have hc : fld (6#4 ++ 2#4 ++ pg ++ d ++ a ++ imm) 28 4 = 6#4 := by
    simp (disch := decide) only [fld, fld_low, fld_high, Nat.reduceSub, BitVec.extractLsb'_eq_self]
  have hs : fld (6#4 ++ 2#4 ++ pg ++ d ++ a ++ imm) 24 4 = 2#4 := by
    simp (disch := decide) only [fld, fld_low, fld_high, Nat.reduceSub, BitVec.extractLsb'_eq_self]
  simp only [decodeWord_class6 hc, decodeClass6, hs, BitVec.toNat_ofNat, Nat.reducePow, Nat.reduceMod]
  simp (disch := decide) only [fld, fld_low, fld_high, Nat.reduceSub, BitVec.extractLsb'_eq_self]
  all_goals rfl

theorem Encodes.ldI16 (pg : PredIx) (d : Reg) (a : Reg) (imm : BitVec 7) : Encodes.Statement (.ldI16 pg d a imm) := by
  refine encodes_of_word rfl fun hi => ?_
  have hc : fld (6#4 ++ 3#4 ++ pg ++ d ++ a ++ imm) 28 4 = 6#4 := by
    simp (disch := decide) only [fld, fld_low, fld_high, Nat.reduceSub, BitVec.extractLsb'_eq_self]
  have hs : fld (6#4 ++ 3#4 ++ pg ++ d ++ a ++ imm) 24 4 = 3#4 := by
    simp (disch := decide) only [fld, fld_low, fld_high, Nat.reduceSub, BitVec.extractLsb'_eq_self]
  simp only [decodeWord_class6 hc, decodeClass6, hs, BitVec.toNat_ofNat, Nat.reducePow, Nat.reduceMod]
  simp (disch := decide) only [fld, fld_low, fld_high, Nat.reduceSub, BitVec.extractLsb'_eq_self]
  all_goals rfl

theorem Encodes.ld32 (pg : PredIx) (d : Reg) (a : Reg) (imm : BitVec 7) : Encodes.Statement (.ld32 pg d a imm) := by
  refine encodes_of_word rfl fun hi => ?_
  have hc : fld (6#4 ++ 4#4 ++ pg ++ d ++ a ++ imm) 28 4 = 6#4 := by
    simp (disch := decide) only [fld, fld_low, fld_high, Nat.reduceSub, BitVec.extractLsb'_eq_self]
  have hs : fld (6#4 ++ 4#4 ++ pg ++ d ++ a ++ imm) 24 4 = 4#4 := by
    simp (disch := decide) only [fld, fld_low, fld_high, Nat.reduceSub, BitVec.extractLsb'_eq_self]
  simp only [decodeWord_class6 hc, decodeClass6, hs, BitVec.toNat_ofNat, Nat.reducePow, Nat.reduceMod]
  simp (disch := decide) only [fld, fld_low, fld_high, Nat.reduceSub, BitVec.extractLsb'_eq_self]
  all_goals rfl

theorem Encodes.ld64 (pg : PredIx) (d : Reg) (a : Reg) (imm : BitVec 7) : Encodes.Statement (.ld64 pg d a imm) := by
  refine encodes_of_word rfl fun hi => ?_
  have hc : fld (6#4 ++ 5#4 ++ pg ++ d ++ a ++ imm) 28 4 = 6#4 := by
    simp (disch := decide) only [fld, fld_low, fld_high, Nat.reduceSub, BitVec.extractLsb'_eq_self]
  have hs : fld (6#4 ++ 5#4 ++ pg ++ d ++ a ++ imm) 24 4 = 5#4 := by
    simp (disch := decide) only [fld, fld_low, fld_high, Nat.reduceSub, BitVec.extractLsb'_eq_self]
  simp only [decodeWord_class6 hc, decodeClass6, hs, BitVec.toNat_ofNat, Nat.reducePow, Nat.reduceMod]
  simp (disch := decide) only [fld, fld_low, fld_high, Nat.reduceSub, BitVec.extractLsb'_eq_self]
  all_goals rfl

theorem Encodes.ld128 (pg : PredIx) (d : Reg) (a : Reg) (imm : BitVec 7) : Encodes.Statement (.ld128 pg d a imm) := by
  refine encodes_of_word rfl fun hi => ?_
  have hc : fld (6#4 ++ 6#4 ++ pg ++ d ++ a ++ imm) 28 4 = 6#4 := by
    simp (disch := decide) only [fld, fld_low, fld_high, Nat.reduceSub, BitVec.extractLsb'_eq_self]
  have hs : fld (6#4 ++ 6#4 ++ pg ++ d ++ a ++ imm) 24 4 = 6#4 := by
    simp (disch := decide) only [fld, fld_low, fld_high, Nat.reduceSub, BitVec.extractLsb'_eq_self]
  simp only [decodeWord_class6 hc, decodeClass6, hs, BitVec.toNat_ofNat, Nat.reducePow, Nat.reduceMod]
  simp (disch := decide) only [fld, fld_low, fld_high, Nat.reduceSub, BitVec.extractLsb'_eq_self]
  all_goals rfl

theorem Encodes.st8 (pg : PredIx) (d : Reg) (a : Reg) (imm : BitVec 7) : Encodes.Statement (.st8 pg d a imm) := by
  refine encodes_of_word rfl fun hi => ?_
  have hc : fld (6#4 ++ 7#4 ++ pg ++ d ++ a ++ imm) 28 4 = 6#4 := by
    simp (disch := decide) only [fld, fld_low, fld_high, Nat.reduceSub, BitVec.extractLsb'_eq_self]
  have hs : fld (6#4 ++ 7#4 ++ pg ++ d ++ a ++ imm) 24 4 = 7#4 := by
    simp (disch := decide) only [fld, fld_low, fld_high, Nat.reduceSub, BitVec.extractLsb'_eq_self]
  simp only [decodeWord_class6 hc, decodeClass6, hs, BitVec.toNat_ofNat, Nat.reducePow, Nat.reduceMod]
  simp (disch := decide) only [fld, fld_low, fld_high, Nat.reduceSub, BitVec.extractLsb'_eq_self]
  all_goals rfl

theorem Encodes.st16 (pg : PredIx) (d : Reg) (a : Reg) (imm : BitVec 7) : Encodes.Statement (.st16 pg d a imm) := by
  refine encodes_of_word rfl fun hi => ?_
  have hc : fld (6#4 ++ 8#4 ++ pg ++ d ++ a ++ imm) 28 4 = 6#4 := by
    simp (disch := decide) only [fld, fld_low, fld_high, Nat.reduceSub, BitVec.extractLsb'_eq_self]
  have hs : fld (6#4 ++ 8#4 ++ pg ++ d ++ a ++ imm) 24 4 = 8#4 := by
    simp (disch := decide) only [fld, fld_low, fld_high, Nat.reduceSub, BitVec.extractLsb'_eq_self]
  simp only [decodeWord_class6 hc, decodeClass6, hs, BitVec.toNat_ofNat, Nat.reducePow, Nat.reduceMod]
  simp (disch := decide) only [fld, fld_low, fld_high, Nat.reduceSub, BitVec.extractLsb'_eq_self]
  all_goals rfl

theorem Encodes.st32 (pg : PredIx) (d : Reg) (a : Reg) (imm : BitVec 7) : Encodes.Statement (.st32 pg d a imm) := by
  refine encodes_of_word rfl fun hi => ?_
  have hc : fld (6#4 ++ 9#4 ++ pg ++ d ++ a ++ imm) 28 4 = 6#4 := by
    simp (disch := decide) only [fld, fld_low, fld_high, Nat.reduceSub, BitVec.extractLsb'_eq_self]
  have hs : fld (6#4 ++ 9#4 ++ pg ++ d ++ a ++ imm) 24 4 = 9#4 := by
    simp (disch := decide) only [fld, fld_low, fld_high, Nat.reduceSub, BitVec.extractLsb'_eq_self]
  simp only [decodeWord_class6 hc, decodeClass6, hs, BitVec.toNat_ofNat, Nat.reducePow, Nat.reduceMod]
  simp (disch := decide) only [fld, fld_low, fld_high, Nat.reduceSub, BitVec.extractLsb'_eq_self]
  all_goals rfl

theorem Encodes.st64 (pg : PredIx) (d : Reg) (a : Reg) (imm : BitVec 7) : Encodes.Statement (.st64 pg d a imm) := by
  refine encodes_of_word rfl fun hi => ?_
  have hc : fld (6#4 ++ 10#4 ++ pg ++ d ++ a ++ imm) 28 4 = 6#4 := by
    simp (disch := decide) only [fld, fld_low, fld_high, Nat.reduceSub, BitVec.extractLsb'_eq_self]
  have hs : fld (6#4 ++ 10#4 ++ pg ++ d ++ a ++ imm) 24 4 = 10#4 := by
    simp (disch := decide) only [fld, fld_low, fld_high, Nat.reduceSub, BitVec.extractLsb'_eq_self]
  simp only [decodeWord_class6 hc, decodeClass6, hs, BitVec.toNat_ofNat, Nat.reducePow, Nat.reduceMod]
  simp (disch := decide) only [fld, fld_low, fld_high, Nat.reduceSub, BitVec.extractLsb'_eq_self]
  all_goals rfl

theorem Encodes.st128 (pg : PredIx) (d : Reg) (a : Reg) (imm : BitVec 7) : Encodes.Statement (.st128 pg d a imm) := by
  refine encodes_of_word rfl fun hi => ?_
  have hc : fld (6#4 ++ 11#4 ++ pg ++ d ++ a ++ imm) 28 4 = 6#4 := by
    simp (disch := decide) only [fld, fld_low, fld_high, Nat.reduceSub, BitVec.extractLsb'_eq_self]
  have hs : fld (6#4 ++ 11#4 ++ pg ++ d ++ a ++ imm) 24 4 = 11#4 := by
    simp (disch := decide) only [fld, fld_low, fld_high, Nat.reduceSub, BitVec.extractLsb'_eq_self]
  simp only [decodeWord_class6 hc, decodeClass6, hs, BitVec.toNat_ofNat, Nat.reducePow, Nat.reduceMod]
  simp (disch := decide) only [fld, fld_low, fld_high, Nat.reduceSub, BitVec.extractLsb'_eq_self]
  all_goals rfl

theorem Encodes.lds32 (pg : PredIx) (d : Reg) (a : Reg) (imm : BitVec 7) : Encodes.Statement (.lds32 pg d a imm) := by
  refine encodes_of_word rfl fun hi => ?_
  have hc : fld (6#4 ++ 12#4 ++ pg ++ d ++ a ++ imm) 28 4 = 6#4 := by
    simp (disch := decide) only [fld, fld_low, fld_high, Nat.reduceSub, BitVec.extractLsb'_eq_self]
  have hs : fld (6#4 ++ 12#4 ++ pg ++ d ++ a ++ imm) 24 4 = 12#4 := by
    simp (disch := decide) only [fld, fld_low, fld_high, Nat.reduceSub, BitVec.extractLsb'_eq_self]
  simp only [decodeWord_class6 hc, decodeClass6, hs, BitVec.toNat_ofNat, Nat.reducePow, Nat.reduceMod]
  simp (disch := decide) only [fld, fld_low, fld_high, Nat.reduceSub, BitVec.extractLsb'_eq_self]
  all_goals rfl

theorem Encodes.sts32 (pg : PredIx) (d : Reg) (a : Reg) (imm : BitVec 7) : Encodes.Statement (.sts32 pg d a imm) := by
  refine encodes_of_word rfl fun hi => ?_
  have hc : fld (6#4 ++ 13#4 ++ pg ++ d ++ a ++ imm) 28 4 = 6#4 := by
    simp (disch := decide) only [fld, fld_low, fld_high, Nat.reduceSub, BitVec.extractLsb'_eq_self]
  have hs : fld (6#4 ++ 13#4 ++ pg ++ d ++ a ++ imm) 24 4 = 13#4 := by
    simp (disch := decide) only [fld, fld_low, fld_high, Nat.reduceSub, BitVec.extractLsb'_eq_self]
  simp only [decodeWord_class6 hc, decodeClass6, hs, BitVec.toNat_ofNat, Nat.reducePow, Nat.reduceMod]
  simp (disch := decide) only [fld, fld_low, fld_high, Nat.reduceSub, BitVec.extractLsb'_eq_self]
  all_goals rfl

theorem Encodes.lds128 (pg : PredIx) (d : Reg) (a : Reg) (imm : BitVec 7) : Encodes.Statement (.lds128 pg d a imm) := by
  refine encodes_of_word rfl fun hi => ?_
  have hc : fld (6#4 ++ 14#4 ++ pg ++ d ++ a ++ imm) 28 4 = 6#4 := by
    simp (disch := decide) only [fld, fld_low, fld_high, Nat.reduceSub, BitVec.extractLsb'_eq_self]
  have hs : fld (6#4 ++ 14#4 ++ pg ++ d ++ a ++ imm) 24 4 = 14#4 := by
    simp (disch := decide) only [fld, fld_low, fld_high, Nat.reduceSub, BitVec.extractLsb'_eq_self]
  simp only [decodeWord_class6 hc, decodeClass6, hs, BitVec.toNat_ofNat, Nat.reducePow, Nat.reduceMod]
  simp (disch := decide) only [fld, fld_low, fld_high, Nat.reduceSub, BitVec.extractLsb'_eq_self]
  all_goals rfl

theorem Encodes.sts128 (pg : PredIx) (d : Reg) (a : Reg) (imm : BitVec 7) : Encodes.Statement (.sts128 pg d a imm) := by
  refine encodes_of_word rfl fun hi => ?_
  have hc : fld (6#4 ++ 15#4 ++ pg ++ d ++ a ++ imm) 28 4 = 6#4 := by
    simp (disch := decide) only [fld, fld_low, fld_high, Nat.reduceSub, BitVec.extractLsb'_eq_self]
  have hs : fld (6#4 ++ 15#4 ++ pg ++ d ++ a ++ imm) 24 4 = 15#4 := by
    simp (disch := decide) only [fld, fld_low, fld_high, Nat.reduceSub, BitVec.extractLsb'_eq_self]
  simp only [decodeWord_class6 hc, decodeClass6, hs, BitVec.toNat_ofNat, Nat.reducePow, Nat.reduceMod]
  simp (disch := decide) only [fld, fld_low, fld_high, Nat.reduceSub, BitVec.extractLsb'_eq_self]
  all_goals rfl

theorem Encodes.atom (m : AtomOp) (d : Reg) (a : Reg) (b : Reg) : Encodes.Statement (.atom m d a b) := by
  refine encodes_of_word rfl fun hi => ?_
  have hc : fld (7#4 ++ 0#4 ++ m.code ++ d ++ a ++ b) 28 4 = 7#4 := by
    simp (disch := decide) only [fld, fld_low, fld_high, Nat.reduceSub, BitVec.extractLsb'_eq_self]
  have hs : fld (7#4 ++ 0#4 ++ m.code ++ d ++ a ++ b) 24 4 = 0#4 := by
    simp (disch := decide) only [fld, fld_low, fld_high, Nat.reduceSub, BitVec.extractLsb'_eq_self]
  simp only [decodeWord_class7 hc, decodeClass7, hs, BitVec.toNat_ofNat, Nat.reducePow, Nat.reduceMod]
  simp (disch := decide) only [fld, fld_low, fld_high, Nat.reduceSub, BitVec.extractLsb'_eq_self]
  all_goals cases m <;> rfl

theorem Encodes.atom64 (m : Atom64Op) (d : Reg) (a : Reg) (b : Reg) : Encodes.Statement (.atom64 m d a b) := by
  refine encodes_of_word rfl fun hi => ?_
  have hc : fld (7#4 ++ 1#4 ++ m.code ++ d ++ a ++ b) 28 4 = 7#4 := by
    simp (disch := decide) only [fld, fld_low, fld_high, Nat.reduceSub, BitVec.extractLsb'_eq_self]
  have hs : fld (7#4 ++ 1#4 ++ m.code ++ d ++ a ++ b) 24 4 = 1#4 := by
    simp (disch := decide) only [fld, fld_low, fld_high, Nat.reduceSub, BitVec.extractLsb'_eq_self]
  simp only [decodeWord_class7 hc, decodeClass7, hs, BitVec.toNat_ofNat, Nat.reducePow, Nat.reduceMod]
  simp (disch := decide) only [fld, fld_low, fld_high, Nat.reduceSub, BitVec.extractLsb'_eq_self]
  all_goals cases m <;> rfl

theorem Encodes.atomf (m : AtomfOp) (d : Reg) (a : Reg) (b : Reg) : Encodes.Statement (.atomf m d a b) := by
  refine encodes_of_word rfl fun hi => ?_
  have hc : fld (7#4 ++ 2#4 ++ m.code ++ d ++ a ++ b) 28 4 = 7#4 := by
    simp (disch := decide) only [fld, fld_low, fld_high, Nat.reduceSub, BitVec.extractLsb'_eq_self]
  have hs : fld (7#4 ++ 2#4 ++ m.code ++ d ++ a ++ b) 24 4 = 2#4 := by
    simp (disch := decide) only [fld, fld_low, fld_high, Nat.reduceSub, BitVec.extractLsb'_eq_self]
  simp only [decodeWord_class7 hc, decodeClass7, hs, BitVec.toNat_ofNat, Nat.reducePow, Nat.reduceMod]
  simp (disch := decide) only [fld, fld_low, fld_high, Nat.reduceSub, BitVec.extractLsb'_eq_self]
  all_goals cases m <;> rfl

theorem Encodes.cas (m : CasWidth) (d : Reg) (a : Reg) (b : Reg) : Encodes.Statement (.cas m d a b) := by
  refine encodes_of_word rfl fun hi => ?_
  have hc : fld (7#4 ++ 3#4 ++ m.code ++ d ++ a ++ b) 28 4 = 7#4 := by
    simp (disch := decide) only [fld, fld_low, fld_high, Nat.reduceSub, BitVec.extractLsb'_eq_self]
  have hs : fld (7#4 ++ 3#4 ++ m.code ++ d ++ a ++ b) 24 4 = 3#4 := by
    simp (disch := decide) only [fld, fld_low, fld_high, Nat.reduceSub, BitVec.extractLsb'_eq_self]
  simp only [decodeWord_class7 hc, decodeClass7, hs, BitVec.toNat_ofNat, Nat.reducePow, Nat.reduceMod]
  simp (disch := decide) only [fld, fld_low, fld_high, Nat.reduceSub, BitVec.extractLsb'_eq_self]
  all_goals cases m <;> rfl

theorem Encodes.radd (m : RaddKind) (a : Reg) (b : Reg) : Encodes.Statement (.radd m a b) := by
  refine encodes_of_word rfl fun hi => ?_
  have hc : fld (7#4 ++ 4#4 ++ m.code ++ 0#7 ++ a ++ b) 28 4 = 7#4 := by
    simp (disch := decide) only [fld, fld_low, fld_high, Nat.reduceSub, BitVec.extractLsb'_eq_self]
  have hs : fld (7#4 ++ 4#4 ++ m.code ++ 0#7 ++ a ++ b) 24 4 = 4#4 := by
    simp (disch := decide) only [fld, fld_low, fld_high, Nat.reduceSub, BitVec.extractLsb'_eq_self]
  simp only [decodeWord_class7 hc, decodeClass7, hs, BitVec.toNat_ofNat, Nat.reducePow, Nat.reduceMod]
  simp (disch := decide) only [fld, fld_low, fld_high, Nat.reduceSub, BitVec.extractLsb'_eq_self]
  all_goals cases m <;> rfl

theorem Encodes.rflush (m : RflushScope) : Encodes.Statement (.rflush m) := by
  refine encodes_of_word rfl fun hi => ?_
  have hc : fld (7#4 ++ 5#4 ++ m.code ++ 0#7 ++ 0#7 ++ 0#7) 28 4 = 7#4 := by
    simp (disch := decide) only [fld, fld_low, fld_high, Nat.reduceSub, BitVec.extractLsb'_eq_self]
  have hs : fld (7#4 ++ 5#4 ++ m.code ++ 0#7 ++ 0#7 ++ 0#7) 24 4 = 5#4 := by
    simp (disch := decide) only [fld, fld_low, fld_high, Nat.reduceSub, BitVec.extractLsb'_eq_self]
  simp only [decodeWord_class7 hc, decodeClass7, hs, BitVec.toNat_ofNat, Nat.reducePow, Nat.reduceMod]
  simp (disch := decide) only [fld, fld_low, fld_high, Nat.reduceSub, BitVec.extractLsb'_eq_self]
  all_goals cases m <;> rfl

theorem Encodes.chld (m : ChldFin) (d : Reg) (a : Reg) (b : Reg) : Encodes.Statement (.chld m d a b) := by
  refine encodes_of_word rfl fun hi => ?_
  have hc : fld (7#4 ++ 6#4 ++ m.code ++ d ++ a ++ b) 28 4 = 7#4 := by
    simp (disch := decide) only [fld, fld_low, fld_high, Nat.reduceSub, BitVec.extractLsb'_eq_self]
  have hs : fld (7#4 ++ 6#4 ++ m.code ++ d ++ a ++ b) 24 4 = 6#4 := by
    simp (disch := decide) only [fld, fld_low, fld_high, Nat.reduceSub, BitVec.extractLsb'_eq_self]
  simp only [decodeWord_class7 hc, decodeClass7, hs, BitVec.toNat_ofNat, Nat.reducePow, Nat.reduceMod]
  simp (disch := decide) only [fld, fld_low, fld_high, Nat.reduceSub, BitVec.extractLsb'_eq_self]
  all_goals cases m <;> rfl

theorem Encodes.cld (d : Reg) (a : Reg) : Encodes.Statement (.cld d a) := by
  refine encodes_of_word rfl fun hi => ?_
  have hc : fld (7#4 ++ 7#4 ++ 0#3 ++ d ++ a ++ 0#7) 28 4 = 7#4 := by
    simp (disch := decide) only [fld, fld_low, fld_high, Nat.reduceSub, BitVec.extractLsb'_eq_self]
  have hs : fld (7#4 ++ 7#4 ++ 0#3 ++ d ++ a ++ 0#7) 24 4 = 7#4 := by
    simp (disch := decide) only [fld, fld_low, fld_high, Nat.reduceSub, BitVec.extractLsb'_eq_self]
  simp only [decodeWord_class7 hc, decodeClass7, hs, BitVec.toNat_ofNat, Nat.reducePow, Nat.reduceMod]
  simp (disch := decide) only [fld, fld_low, fld_high, Nat.reduceSub, BitVec.extractLsb'_eq_self]
  all_goals rfl

theorem Encodes.cst (a : Reg) (b : Reg) : Encodes.Statement (.cst a b) := by
  refine encodes_of_word rfl fun hi => ?_
  have hc : fld (7#4 ++ 8#4 ++ 0#3 ++ 0#7 ++ a ++ b) 28 4 = 7#4 := by
    simp (disch := decide) only [fld, fld_low, fld_high, Nat.reduceSub, BitVec.extractLsb'_eq_self]
  have hs : fld (7#4 ++ 8#4 ++ 0#3 ++ 0#7 ++ a ++ b) 24 4 = 8#4 := by
    simp (disch := decide) only [fld, fld_low, fld_high, Nat.reduceSub, BitVec.extractLsb'_eq_self]
  simp only [decodeWord_class7 hc, decodeClass7, hs, BitVec.toNat_ofNat, Nat.reducePow, Nat.reduceMod]
  simp (disch := decide) only [fld, fld_low, fld_high, Nat.reduceSub, BitVec.extractLsb'_eq_self]
  all_goals rfl

theorem Encodes.atoms (m : AtomOp) (d : Reg) (a : Reg) (b : Reg) : Encodes.Statement (.atoms m d a b) := by
  refine encodes_of_word rfl fun hi => ?_
  have hc : fld (7#4 ++ 14#4 ++ m.code ++ d ++ a ++ b) 28 4 = 7#4 := by
    simp (disch := decide) only [fld, fld_low, fld_high, Nat.reduceSub, BitVec.extractLsb'_eq_self]
  have hs : fld (7#4 ++ 14#4 ++ m.code ++ d ++ a ++ b) 24 4 = 14#4 := by
    simp (disch := decide) only [fld, fld_low, fld_high, Nat.reduceSub, BitVec.extractLsb'_eq_self]
  simp only [decodeWord_class7 hc, decodeClass7, hs, BitVec.toNat_ofNat, Nat.reducePow, Nat.reduceMod]
  simp (disch := decide) only [fld, fld_low, fld_high, Nat.reduceSub, BitVec.extractLsb'_eq_self]
  all_goals cases m <;> rfl

theorem Encodes.tld (m : TileEs) (d : Reg) (a : Reg) (k : BitVec 5) : Encodes.Statement (.tld m d a k) := by
  refine encodes_of_word rfl fun hi => ?_
  have hc : fld (7#4 ++ 9#4 ++ m.code ++ d ++ a ++ 0#2 ++ k) 28 4 = 7#4 := by
    simp (disch := decide) only [fld, fld_low, fld_high, Nat.reduceSub, BitVec.extractLsb'_eq_self]
  have hs : fld (7#4 ++ 9#4 ++ m.code ++ d ++ a ++ 0#2 ++ k) 24 4 = 9#4 := by
    simp (disch := decide) only [fld, fld_low, fld_high, Nat.reduceSub, BitVec.extractLsb'_eq_self]
  simp only [decodeWord_class7 hc, decodeClass7, hs, BitVec.toNat_ofNat, Nat.reducePow, Nat.reduceMod]
  simp (disch := decide) only [fld, fld_low, fld_high, Nat.reduceSub, BitVec.extractLsb'_eq_self]
  all_goals cases m <;> rfl

theorem Encodes.tst (m : TileEs) (d : Reg) (a : Reg) (k : BitVec 5) : Encodes.Statement (.tst m d a k) := by
  refine encodes_of_word rfl fun hi => ?_
  have hc : fld (7#4 ++ 10#4 ++ m.code ++ d ++ a ++ 0#2 ++ k) 28 4 = 7#4 := by
    simp (disch := decide) only [fld, fld_low, fld_high, Nat.reduceSub, BitVec.extractLsb'_eq_self]
  have hs : fld (7#4 ++ 10#4 ++ m.code ++ d ++ a ++ 0#2 ++ k) 24 4 = 10#4 := by
    simp (disch := decide) only [fld, fld_low, fld_high, Nat.reduceSub, BitVec.extractLsb'_eq_self]
  simp only [decodeWord_class7 hc, decodeClass7, hs, BitVec.toNat_ofNat, Nat.reducePow, Nat.reduceMod]
  simp (disch := decide) only [fld, fld_low, fld_high, Nat.reduceSub, BitVec.extractLsb'_eq_self]
  all_goals cases m <;> rfl

theorem Encodes.tldf (m : TldfForm) (d : Reg) (a : Reg) (k : BitVec 5) : Encodes.Statement (.tldf m d a k) := by
  refine encodes_of_word rfl fun hi => ?_
  have hc : fld (7#4 ++ 11#4 ++ m.code ++ d ++ a ++ 0#2 ++ k) 28 4 = 7#4 := by
    simp (disch := decide) only [fld, fld_low, fld_high, Nat.reduceSub, BitVec.extractLsb'_eq_self]
  have hs : fld (7#4 ++ 11#4 ++ m.code ++ d ++ a ++ 0#2 ++ k) 24 4 = 11#4 := by
    simp (disch := decide) only [fld, fld_low, fld_high, Nat.reduceSub, BitVec.extractLsb'_eq_self]
  simp only [decodeWord_class7 hc, decodeClass7, hs, BitVec.toNat_ofNat, Nat.reducePow, Nat.reduceMod]
  simp (disch := decide) only [fld, fld_low, fld_high, Nat.reduceSub, BitVec.extractLsb'_eq_self]
  all_goals cases m <;> rfl

theorem Encodes.tstf (d : Reg) (a : Reg) (k : BitVec 5) : Encodes.Statement (.tstf d a k) := by
  refine encodes_of_word rfl fun hi => ?_
  have hc : fld (7#4 ++ 12#4 ++ 2#3 ++ d ++ a ++ 0#2 ++ k) 28 4 = 7#4 := by
    simp (disch := decide) only [fld, fld_low, fld_high, Nat.reduceSub, BitVec.extractLsb'_eq_self]
  have hs : fld (7#4 ++ 12#4 ++ 2#3 ++ d ++ a ++ 0#2 ++ k) 24 4 = 12#4 := by
    simp (disch := decide) only [fld, fld_low, fld_high, Nat.reduceSub, BitVec.extractLsb'_eq_self]
  simp only [decodeWord_class7 hc, decodeClass7, hs, BitVec.toNat_ofNat, Nat.reducePow, Nat.reduceMod]
  simp (disch := decide) only [fld, fld_low, fld_high, Nat.reduceSub, BitVec.extractLsb'_eq_self]
  all_goals rfl

theorem Encodes.tctlMap (d : Reg) (a : Reg) : Encodes.Statement (.tctlMap d a) := by
  refine encodes_of_word rfl fun hi => ?_
  have hc : fld (7#4 ++ 13#4 ++ 0#3 ++ d ++ a ++ 0#7) 28 4 = 7#4 := by
    simp (disch := decide) only [fld, fld_low, fld_high, Nat.reduceSub, BitVec.extractLsb'_eq_self]
  have hs : fld (7#4 ++ 13#4 ++ 0#3 ++ d ++ a ++ 0#7) 24 4 = 13#4 := by
    simp (disch := decide) only [fld, fld_low, fld_high, Nat.reduceSub, BitVec.extractLsb'_eq_self]
  simp only [decodeWord_class7 hc, decodeClass7, hs, BitVec.toNat_ofNat, Nat.reducePow, Nat.reduceMod]
  simp (disch := decide) only [fld, fld_low, fld_high, Nat.reduceSub, BitVec.extractLsb'_eq_self]
  all_goals rfl

theorem Encodes.tctlFill (k : BitVec 5) : Encodes.Statement (.tctlFill k) := by
  refine encodes_of_word rfl fun hi => ?_
  have hc : fld (7#4 ++ 13#4 ++ 1#3 ++ 0#7 ++ 0#7 ++ 0#2 ++ k) 28 4 = 7#4 := by
    simp (disch := decide) only [fld, fld_low, fld_high, Nat.reduceSub, BitVec.extractLsb'_eq_self]
  have hs : fld (7#4 ++ 13#4 ++ 1#3 ++ 0#7 ++ 0#7 ++ 0#2 ++ k) 24 4 = 13#4 := by
    simp (disch := decide) only [fld, fld_low, fld_high, Nat.reduceSub, BitVec.extractLsb'_eq_self]
  simp only [decodeWord_class7 hc, decodeClass7, hs, BitVec.toNat_ofNat, Nat.reducePow, Nat.reduceMod]
  simp (disch := decide) only [fld, fld_low, fld_high, Nat.reduceSub, BitVec.extractLsb'_eq_self]
  all_goals rfl

theorem Encodes.tctlDrain (k : BitVec 5) : Encodes.Statement (.tctlDrain k) := by
  refine encodes_of_word rfl fun hi => ?_
  have hc : fld (7#4 ++ 13#4 ++ 2#3 ++ 0#7 ++ 0#7 ++ 0#2 ++ k) 28 4 = 7#4 := by
    simp (disch := decide) only [fld, fld_low, fld_high, Nat.reduceSub, BitVec.extractLsb'_eq_self]
  have hs : fld (7#4 ++ 13#4 ++ 2#3 ++ 0#7 ++ 0#7 ++ 0#2 ++ k) 24 4 = 13#4 := by
    simp (disch := decide) only [fld, fld_low, fld_high, Nat.reduceSub, BitVec.extractLsb'_eq_self]
  simp only [decodeWord_class7 hc, decodeClass7, hs, BitVec.toNat_ofNat, Nat.reducePow, Nat.reduceMod]
  simp (disch := decide) only [fld, fld_low, fld_high, Nat.reduceSub, BitVec.extractLsb'_eq_self]
  all_goals rfl

theorem Encodes.tctlFree (k : BitVec 5) : Encodes.Statement (.tctlFree k) := by
  refine encodes_of_word rfl fun hi => ?_
  have hc : fld (7#4 ++ 13#4 ++ 3#3 ++ 0#7 ++ 0#7 ++ 0#2 ++ k) 28 4 = 7#4 := by
    simp (disch := decide) only [fld, fld_low, fld_high, Nat.reduceSub, BitVec.extractLsb'_eq_self]
  have hs : fld (7#4 ++ 13#4 ++ 3#3 ++ 0#7 ++ 0#7 ++ 0#2 ++ k) 24 4 = 13#4 := by
    simp (disch := decide) only [fld, fld_low, fld_high, Nat.reduceSub, BitVec.extractLsb'_eq_self]
  simp only [decodeWord_class7 hc, decodeClass7, hs, BitVec.toNat_ofNat, Nat.reducePow, Nat.reduceMod]
  simp (disch := decide) only [fld, fld_low, fld_high, Nat.reduceSub, BitVec.extractLsb'_eq_self]
  all_goals rfl

theorem Encodes.tctlQuery (d : Reg) (k : BitVec 5) : Encodes.Statement (.tctlQuery d k) := by
  refine encodes_of_word rfl fun hi => ?_
  have hc : fld (7#4 ++ 13#4 ++ 4#3 ++ d ++ 0#7 ++ 0#2 ++ k) 28 4 = 7#4 := by
    simp (disch := decide) only [fld, fld_low, fld_high, Nat.reduceSub, BitVec.extractLsb'_eq_self]
  have hs : fld (7#4 ++ 13#4 ++ 4#3 ++ d ++ 0#7 ++ 0#2 ++ k) 24 4 = 13#4 := by
    simp (disch := decide) only [fld, fld_low, fld_high, Nat.reduceSub, BitVec.extractLsb'_eq_self]
  simp only [decodeWord_class7 hc, decodeClass7, hs, BitVec.toNat_ofNat, Nat.reducePow, Nat.reduceMod]
  simp (disch := decide) only [fld, fld_low, fld_high, Nat.reduceSub, BitVec.extractLsb'_eq_self]
  all_goals rfl

theorem Encodes.barwArrive (d : Reg) (a : Reg) : Encodes.Statement (.barwArrive d a) := by
  refine encodes_of_word rfl fun hi => ?_
  have hc : fld (7#4 ++ 15#4 ++ 0#3 ++ d ++ a ++ 0#7) 28 4 = 7#4 := by
    simp (disch := decide) only [fld, fld_low, fld_high, Nat.reduceSub, BitVec.extractLsb'_eq_self]
  have hs : fld (7#4 ++ 15#4 ++ 0#3 ++ d ++ a ++ 0#7) 24 4 = 15#4 := by
    simp (disch := decide) only [fld, fld_low, fld_high, Nat.reduceSub, BitVec.extractLsb'_eq_self]
  simp only [decodeWord_class7 hc, decodeClass7, hs, BitVec.toNat_ofNat, Nat.reducePow, Nat.reduceMod]
  simp (disch := decide) only [fld, fld_low, fld_high, Nat.reduceSub, BitVec.extractLsb'_eq_self]
  all_goals rfl

theorem Encodes.barwWait (a : Reg) (b : Reg) : Encodes.Statement (.barwWait a b) := by
  refine encodes_of_word rfl fun hi => ?_
  have hc : fld (7#4 ++ 15#4 ++ 1#3 ++ 0#7 ++ a ++ b) 28 4 = 7#4 := by
    simp (disch := decide) only [fld, fld_low, fld_high, Nat.reduceSub, BitVec.extractLsb'_eq_self]
  have hs : fld (7#4 ++ 15#4 ++ 1#3 ++ 0#7 ++ a ++ b) 24 4 = 15#4 := by
    simp (disch := decide) only [fld, fld_low, fld_high, Nat.reduceSub, BitVec.extractLsb'_eq_self]
  simp only [decodeWord_class7 hc, decodeClass7, hs, BitVec.toNat_ofNat, Nat.reducePow, Nat.reduceMod]
  simp (disch := decide) only [fld, fld_low, fld_high, Nat.reduceSub, BitVec.extractLsb'_eq_self]
  all_goals rfl

theorem Encodes.barwArriveWait (d : Reg) (a : Reg) : Encodes.Statement (.barwArriveWait d a) := by
  refine encodes_of_word rfl fun hi => ?_
  have hc : fld (7#4 ++ 15#4 ++ 2#3 ++ d ++ a ++ 0#7) 28 4 = 7#4 := by
    simp (disch := decide) only [fld, fld_low, fld_high, Nat.reduceSub, BitVec.extractLsb'_eq_self]
  have hs : fld (7#4 ++ 15#4 ++ 2#3 ++ d ++ a ++ 0#7) 24 4 = 15#4 := by
    simp (disch := decide) only [fld, fld_low, fld_high, Nat.reduceSub, BitVec.extractLsb'_eq_self]
  simp only [decodeWord_class7 hc, decodeClass7, hs, BitVec.toNat_ofNat, Nat.reducePow, Nat.reduceMod]
  simp (disch := decide) only [fld, fld_low, fld_high, Nat.reduceSub, BitVec.extractLsb'_eq_self]
  all_goals rfl

theorem Encodes.barwInit (a : Reg) (b : Reg) : Encodes.Statement (.barwInit a b) := by
  refine encodes_of_word rfl fun hi => ?_
  have hc : fld (7#4 ++ 15#4 ++ 3#3 ++ 0#7 ++ a ++ b) 28 4 = 7#4 := by
    simp (disch := decide) only [fld, fld_low, fld_high, Nat.reduceSub, BitVec.extractLsb'_eq_self]
  have hs : fld (7#4 ++ 15#4 ++ 3#3 ++ 0#7 ++ a ++ b) 24 4 = 15#4 := by
    simp (disch := decide) only [fld, fld_low, fld_high, Nat.reduceSub, BitVec.extractLsb'_eq_self]
  simp only [decodeWord_class7 hc, decodeClass7, hs, BitVec.toNat_ofNat, Nat.reducePow, Nat.reduceMod]
  simp (disch := decide) only [fld, fld_low, fld_high, Nat.reduceSub, BitVec.extractLsb'_eq_self]
  all_goals rfl

theorem Encodes.mma (k : BitVec 3) (d : Reg) (a : Reg) (b : Reg) : Encodes.Statement (.mma k d a b) := by
  refine encodes_of_word rfl fun hi => ?_
  have hc : fld (8#4 ++ 0#4 ++ k ++ d ++ a ++ b) 28 4 = 8#4 := by
    simp (disch := decide) only [fld, fld_low, fld_high, Nat.reduceSub, BitVec.extractLsb'_eq_self]
  have hs : fld (8#4 ++ 0#4 ++ k ++ d ++ a ++ b) 24 4 = 0#4 := by
    simp (disch := decide) only [fld, fld_low, fld_high, Nat.reduceSub, BitVec.extractLsb'_eq_self]
  simp only [decodeWord_class8 hc, decodeClass8, hs, BitVec.toNat_ofNat, Nat.reducePow, Nat.reduceMod]
  simp (disch := decide) only [fld, fld_low, fld_high, Nat.reduceSub, BitVec.extractLsb'_eq_self]
  all_goals rfl

theorem Encodes.mmaU (k : BitVec 3) (d : Reg) (a : Reg) (b : Reg) : Encodes.Statement (.mmaU k d a b) := by
  refine encodes_of_word rfl fun hi => ?_
  have hc : fld (8#4 ++ 1#4 ++ k ++ d ++ a ++ b) 28 4 = 8#4 := by
    simp (disch := decide) only [fld, fld_low, fld_high, Nat.reduceSub, BitVec.extractLsb'_eq_self]
  have hs : fld (8#4 ++ 1#4 ++ k ++ d ++ a ++ b) 24 4 = 1#4 := by
    simp (disch := decide) only [fld, fld_low, fld_high, Nat.reduceSub, BitVec.extractLsb'_eq_self]
  simp only [decodeWord_class8 hc, decodeClass8, hs, BitVec.toNat_ofNat, Nat.reducePow, Nat.reduceMod]
  simp (disch := decide) only [fld, fld_low, fld_high, Nat.reduceSub, BitVec.extractLsb'_eq_self]
  all_goals rfl

theorem Encodes.mmaSp (k : BitVec 3) (d : Reg) (a : Reg) (b : Reg) : Encodes.Statement (.mmaSp k d a b) := by
  refine encodes_of_word rfl fun hi => ?_
  have hc : fld (8#4 ++ 2#4 ++ k ++ d ++ a ++ b) 28 4 = 8#4 := by
    simp (disch := decide) only [fld, fld_low, fld_high, Nat.reduceSub, BitVec.extractLsb'_eq_self]
  have hs : fld (8#4 ++ 2#4 ++ k ++ d ++ a ++ b) 24 4 = 2#4 := by
    simp (disch := decide) only [fld, fld_low, fld_high, Nat.reduceSub, BitVec.extractLsb'_eq_self]
  simp only [decodeWord_class8 hc, decodeClass8, hs, BitVec.toNat_ofNat, Nat.reducePow, Nat.reduceMod]
  simp (disch := decide) only [fld, fld_low, fld_high, Nat.reduceSub, BitVec.extractLsb'_eq_self]
  all_goals rfl

theorem Encodes.mmaSpU (k : BitVec 3) (d : Reg) (a : Reg) (b : Reg) : Encodes.Statement (.mmaSpU k d a b) := by
  refine encodes_of_word rfl fun hi => ?_
  have hc : fld (8#4 ++ 3#4 ++ k ++ d ++ a ++ b) 28 4 = 8#4 := by
    simp (disch := decide) only [fld, fld_low, fld_high, Nat.reduceSub, BitVec.extractLsb'_eq_self]
  have hs : fld (8#4 ++ 3#4 ++ k ++ d ++ a ++ b) 24 4 = 3#4 := by
    simp (disch := decide) only [fld, fld_low, fld_high, Nat.reduceSub, BitVec.extractLsb'_eq_self]
  simp only [decodeWord_class8 hc, decodeClass8, hs, BitVec.toNat_ofNat, Nat.reducePow, Nat.reduceMod]
  simp (disch := decide) only [fld, fld_low, fld_high, Nat.reduceSub, BitVec.extractLsb'_eq_self]
  all_goals rfl

theorem Encodes.cmprs (k : BitVec 3) (d : Reg) (a : Reg) : Encodes.Statement (.cmprs k d a) := by
  refine encodes_of_word rfl fun hi => ?_
  have hc : fld (8#4 ++ 4#4 ++ k ++ d ++ a ++ 0#7) 28 4 = 8#4 := by
    simp (disch := decide) only [fld, fld_low, fld_high, Nat.reduceSub, BitVec.extractLsb'_eq_self]
  have hs : fld (8#4 ++ 4#4 ++ k ++ d ++ a ++ 0#7) 24 4 = 4#4 := by
    simp (disch := decide) only [fld, fld_low, fld_high, Nat.reduceSub, BitVec.extractLsb'_eq_self]
  simp only [decodeWord_class8 hc, decodeClass8, hs, BitVec.toNat_ofNat, Nat.reducePow, Nat.reduceMod]
  simp (disch := decide) only [fld, fld_low, fld_high, Nat.reduceSub, BitVec.extractLsb'_eq_self]
  all_goals rfl

theorem Encodes.spalpha (d : Reg) (a : Reg) (b : Reg) : Encodes.Statement (.spalpha d a b) := by
  refine encodes_of_word rfl fun hi => ?_
  have hc : fld (8#4 ++ 5#4 ++ 0#3 ++ d ++ a ++ b) 28 4 = 8#4 := by
    simp (disch := decide) only [fld, fld_low, fld_high, Nat.reduceSub, BitVec.extractLsb'_eq_self]
  have hs : fld (8#4 ++ 5#4 ++ 0#3 ++ d ++ a ++ b) 24 4 = 5#4 := by
    simp (disch := decide) only [fld, fld_low, fld_high, Nat.reduceSub, BitVec.extractLsb'_eq_self]
  simp only [decodeWord_class8 hc, decodeClass8, hs, BitVec.toNat_ofNat, Nat.reducePow, Nat.reduceMod]
  simp (disch := decide) only [fld, fld_low, fld_high, Nat.reduceSub, BitVec.extractLsb'_eq_self]
  all_goals rfl

theorem Encodes.spblend (d : Reg) (a : Reg) (b : Reg) : Encodes.Statement (.spblend d a b) := by
  refine encodes_of_word rfl fun hi => ?_
  have hc : fld (8#4 ++ 6#4 ++ 0#3 ++ d ++ a ++ b) 28 4 = 8#4 := by
    simp (disch := decide) only [fld, fld_low, fld_high, Nat.reduceSub, BitVec.extractLsb'_eq_self]
  have hs : fld (8#4 ++ 6#4 ++ 0#3 ++ d ++ a ++ b) 24 4 = 6#4 := by
    simp (disch := decide) only [fld, fld_low, fld_high, Nat.reduceSub, BitVec.extractLsb'_eq_self]
  simp only [decodeWord_class8 hc, decodeClass8, hs, BitVec.toNat_ofNat, Nat.reducePow, Nat.reduceMod]
  simp (disch := decide) only [fld, fld_low, fld_high, Nat.reduceSub, BitVec.extractLsb'_eq_self]
  all_goals rfl

theorem Encodes.keypk (d : Reg) (a : Reg) (b : Reg) : Encodes.Statement (.keypk d a b) := by
  refine encodes_of_word rfl fun hi => ?_
  have hc : fld (8#4 ++ 7#4 ++ 0#3 ++ d ++ a ++ b) 28 4 = 8#4 := by
    simp (disch := decide) only [fld, fld_low, fld_high, Nat.reduceSub, BitVec.extractLsb'_eq_self]
  have hs : fld (8#4 ++ 7#4 ++ 0#3 ++ d ++ a ++ b) 24 4 = 7#4 := by
    simp (disch := decide) only [fld, fld_low, fld_high, Nat.reduceSub, BitVec.extractLsb'_eq_self]
  simp only [decodeWord_class8 hc, decodeClass8, hs, BitVec.toNat_ofNat, Nat.reducePow, Nat.reduceMod]
  simp (disch := decide) only [fld, fld_low, fld_high, Nat.reduceSub, BitVec.extractLsb'_eq_self]
  all_goals rfl

theorem Encodes.triedge (d : Reg) (a : Reg) (b : Reg) : Encodes.Statement (.triedge d a b) := by
  refine encodes_of_word rfl fun hi => ?_
  have hc : fld (8#4 ++ 8#4 ++ 0#3 ++ d ++ a ++ b) 28 4 = 8#4 := by
    simp (disch := decide) only [fld, fld_low, fld_high, Nat.reduceSub, BitVec.extractLsb'_eq_self]
  have hs : fld (8#4 ++ 8#4 ++ 0#3 ++ d ++ a ++ b) 24 4 = 8#4 := by
    simp (disch := decide) only [fld, fld_low, fld_high, Nat.reduceSub, BitVec.extractLsb'_eq_self]
  simp only [decodeWord_class8 hc, decodeClass8, hs, BitVec.toNat_ofNat, Nat.reducePow, Nat.reduceMod]
  simp (disch := decide) only [fld, fld_low, fld_high, Nat.reduceSub, BitVec.extractLsb'_eq_self]
  all_goals rfl

theorem Encodes.wait (ld : BitVec 6) (st : BitVec 6) (cp : BitVec 4) (tl : BitVec 4) : Encodes.Statement (.wait ld st cp tl) := by
  refine encodes_of_word rfl fun hi => ?_
  have hc : fld (9#4 ++ 0#4 ++ ld ++ st ++ cp ++ tl ++ 0#4) 28 4 = 9#4 := by
    simp (disch := decide) only [fld, fld_low, fld_high, Nat.reduceSub, BitVec.extractLsb'_eq_self]
  have hs : fld (9#4 ++ 0#4 ++ ld ++ st ++ cp ++ tl ++ 0#4) 24 4 = 0#4 := by
    simp (disch := decide) only [fld, fld_low, fld_high, Nat.reduceSub, BitVec.extractLsb'_eq_self]
  simp only [decodeWord_class9 hc, decodeClass9, hs, BitVec.toNat_ofNat, Nat.reducePow, Nat.reduceMod]
  simp (disch := decide) only [fld, fld_low, fld_high, Nat.reduceSub, BitVec.extractLsb'_eq_self]
  all_goals rfl

theorem Encodes.bar (m : BarScope) : Encodes.Statement (.bar m) := by
  refine encodes_of_word rfl fun hi => ?_
  have hc : fld (9#4 ++ 1#4 ++ m.code ++ 0#21) 28 4 = 9#4 := by
    simp (disch := decide) only [fld, fld_low, fld_high, Nat.reduceSub, BitVec.extractLsb'_eq_self]
  have hs : fld (9#4 ++ 1#4 ++ m.code ++ 0#21) 24 4 = 1#4 := by
    simp (disch := decide) only [fld, fld_low, fld_high, Nat.reduceSub, BitVec.extractLsb'_eq_self]
  simp only [decodeWord_class9 hc, decodeClass9, hs, BitVec.toNat_ofNat, Nat.reducePow, Nat.reduceMod]
  simp (disch := decide) only [fld, fld_low, fld_high, Nat.reduceSub, BitVec.extractLsb'_eq_self]
  all_goals cases m <;> rfl

theorem Encodes.job (k : JobKind) (a : Reg) : Encodes.Statement (.job k a) := by
  refine encodes_of_word rfl fun hi => ?_
  have hc : fld (9#4 ++ 2#4 ++ k.code ++ 0#7 ++ a ++ 0#7) 28 4 = 9#4 := by
    simp (disch := decide) only [fld, fld_low, fld_high, Nat.reduceSub, BitVec.extractLsb'_eq_self]
  have hs : fld (9#4 ++ 2#4 ++ k.code ++ 0#7 ++ a ++ 0#7) 24 4 = 2#4 := by
    simp (disch := decide) only [fld, fld_low, fld_high, Nat.reduceSub, BitVec.extractLsb'_eq_self]
  simp only [decodeWord_class9 hc, decodeClass9, hs, BitVec.toNat_ofNat, Nat.reducePow, Nat.reduceMod]
  simp (disch := decide) only [fld, fld_low, fld_high, Nat.reduceSub, BitVec.extractLsb'_eq_self]
  all_goals cases k <;> rfl

theorem Encodes.qpush (d : Reg) (a : Reg) (b : Reg) : Encodes.Statement (.qpush d a b) := by
  refine encodes_of_word rfl fun hi => ?_
  have hc : fld (9#4 ++ 3#4 ++ 0#3 ++ d ++ a ++ b) 28 4 = 9#4 := by
    simp (disch := decide) only [fld, fld_low, fld_high, Nat.reduceSub, BitVec.extractLsb'_eq_self]
  have hs : fld (9#4 ++ 3#4 ++ 0#3 ++ d ++ a ++ b) 24 4 = 3#4 := by
    simp (disch := decide) only [fld, fld_low, fld_high, Nat.reduceSub, BitVec.extractLsb'_eq_self]
  simp only [decodeWord_class9 hc, decodeClass9, hs, BitVec.toNat_ofNat, Nat.reducePow, Nat.reduceMod]
  simp (disch := decide) only [fld, fld_low, fld_high, Nat.reduceSub, BitVec.extractLsb'_eq_self]
  all_goals rfl

theorem Encodes.txbegin : Encodes.Statement .txbegin := by
  exact encodes_of_word rfl fun _ => by decide

theorem Encodes.txcommit (pd : PredIx) : Encodes.Statement (.txcommit pd) := by
  refine encodes_of_word rfl fun hi => ?_
  have hc : fld (9#4 ++ 5#4 ++ 0#3 ++ pd ++ 0#18) 28 4 = 9#4 := by
    simp (disch := decide) only [fld, fld_low, fld_high, Nat.reduceSub, BitVec.extractLsb'_eq_self]
  have hs : fld (9#4 ++ 5#4 ++ 0#3 ++ pd ++ 0#18) 24 4 = 5#4 := by
    simp (disch := decide) only [fld, fld_low, fld_high, Nat.reduceSub, BitVec.extractLsb'_eq_self]
  simp only [decodeWord_class9 hc, decodeClass9, hs, BitVec.toNat_ofNat, Nat.reducePow, Nat.reduceMod]
  simp (disch := decide) only [fld, fld_low, fld_high, Nat.reduceSub, BitVec.extractLsb'_eq_self]
  all_goals rfl

theorem Encodes.txabort : Encodes.Statement .txabort := by
  exact encodes_of_word rfl fun _ => by decide

theorem Encodes.snapOpen : Encodes.Statement .snapOpen := by
  exact encodes_of_word rfl fun _ => by decide

theorem Encodes.snapClose : Encodes.Statement .snapClose := by
  exact encodes_of_word rfl fun _ => by decide

theorem Encodes.fence (m : FenceScope) : Encodes.Statement (.fence m) := by
  refine encodes_of_word rfl fun hi => ?_
  have hc : fld (9#4 ++ 8#4 ++ m.code ++ 0#21) 28 4 = 9#4 := by
    simp (disch := decide) only [fld, fld_low, fld_high, Nat.reduceSub, BitVec.extractLsb'_eq_self]
  have hs : fld (9#4 ++ 8#4 ++ m.code ++ 0#21) 24 4 = 8#4 := by
    simp (disch := decide) only [fld, fld_low, fld_high, Nat.reduceSub, BitVec.extractLsb'_eq_self]
  simp only [decodeWord_class9 hc, decodeClass9, hs, BitVec.toNat_ofNat, Nat.reducePow, Nat.reduceMod]
  simp (disch := decide) only [fld, fld_low, fld_high, Nat.reduceSub, BitVec.extractLsb'_eq_self]
  all_goals cases m <;> rfl

theorem Encodes.trap (n : BitVec 16) : Encodes.Statement (.trap n) := by
  refine encodes_of_word rfl fun hi => ?_
  have hc : fld (9#4 ++ 9#4 ++ 0#8 ++ n) 28 4 = 9#4 := by
    simp (disch := decide) only [fld, fld_low, fld_high, Nat.reduceSub, BitVec.extractLsb'_eq_self]
  have hs : fld (9#4 ++ 9#4 ++ 0#8 ++ n) 24 4 = 9#4 := by
    simp (disch := decide) only [fld, fld_low, fld_high, Nat.reduceSub, BitVec.extractLsb'_eq_self]
  simp only [decodeWord_class9 hc, decodeClass9, hs, BitVec.toNat_ofNat, Nat.reducePow, Nat.reduceMod]
  simp (disch := decide) only [fld, fld_low, fld_high, Nat.reduceSub, BitVec.extractLsb'_eq_self]
  all_goals rfl

theorem Encodes.brkpt : Encodes.Statement .brkpt := by
  exact encodes_of_word rfl fun _ => by decide

theorem Encodes.yield : Encodes.Statement .yield := by
  exact encodes_of_word rfl fun _ => by decide

theorem Encodes.stop : Encodes.Statement .stop := by
  exact encodes_of_word rfl fun _ => by decide

theorem Encodes.iflush (m : IflushScope) : Encodes.Statement (.iflush m) := by
  refine encodes_of_word rfl fun hi => ?_
  have hc : fld (9#4 ++ 13#4 ++ m.code ++ 0#23) 28 4 = 9#4 := by
    simp (disch := decide) only [fld, fld_low, fld_high, Nat.reduceSub, BitVec.extractLsb'_eq_self]
  have hs : fld (9#4 ++ 13#4 ++ m.code ++ 0#23) 24 4 = 13#4 := by
    simp (disch := decide) only [fld, fld_low, fld_high, Nat.reduceSub, BitVec.extractLsb'_eq_self]
  simp only [decodeWord_class9 hc, decodeClass9, hs, BitVec.toNat_ofNat, Nat.reducePow, Nat.reduceMod]
  simp (disch := decide) only [fld, fld_low, fld_high, Nat.reduceSub, BitVec.extractLsb'_eq_self]
  all_goals cases m <;> rfl

theorem Encodes.thrclr (a : Reg) (d : Reg) : Encodes.Statement (.thrclr a d) := by
  refine encodes_of_word rfl fun hi => ?_
  have hc : fld (9#4 ++ 14#4 ++ 1#8 ++ 0#2 ++ a ++ d) 28 4 = 9#4 := by
    simp (disch := decide) only [fld, fld_low, fld_high, Nat.reduceSub, BitVec.extractLsb'_eq_self]
  have hs : fld (9#4 ++ 14#4 ++ 1#8 ++ 0#2 ++ a ++ d) 24 4 = 14#4 := by
    simp (disch := decide) only [fld, fld_low, fld_high, Nat.reduceSub, BitVec.extractLsb'_eq_self]
  simp only [decodeWord_class9 hc, decodeClass9, hs, BitVec.toNat_ofNat, Nat.reducePow, Nat.reduceMod, decodeSysop]
  simp (disch := decide) only [fld, fld_low, fld_high, Nat.reduceSub, BitVec.extractLsb'_eq_self]
  all_goals rfl

theorem Encodes.thread (a : Reg) (d : Reg) : Encodes.Statement (.thread a d) := by
  refine encodes_of_word rfl fun hi => ?_
  have hc : fld (9#4 ++ 14#4 ++ 2#8 ++ 0#2 ++ a ++ d) 28 4 = 9#4 := by
    simp (disch := decide) only [fld, fld_low, fld_high, Nat.reduceSub, BitVec.extractLsb'_eq_self]
  have hs : fld (9#4 ++ 14#4 ++ 2#8 ++ 0#2 ++ a ++ d) 24 4 = 14#4 := by
    simp (disch := decide) only [fld, fld_low, fld_high, Nat.reduceSub, BitVec.extractLsb'_eq_self]
  simp only [decodeWord_class9 hc, decodeClass9, hs, BitVec.toNat_ofNat, Nat.reducePow, Nat.reduceMod, decodeSysop]
  simp (disch := decide) only [fld, fld_low, fld_high, Nat.reduceSub, BitVec.extractLsb'_eq_self]
  all_goals rfl

theorem Encodes.gridend (a : Reg) (d : Reg) : Encodes.Statement (.gridend a d) := by
  refine encodes_of_word rfl fun hi => ?_
  have hc : fld (9#4 ++ 14#4 ++ 3#8 ++ 0#2 ++ a ++ d) 28 4 = 9#4 := by
    simp (disch := decide) only [fld, fld_low, fld_high, Nat.reduceSub, BitVec.extractLsb'_eq_self]
  have hs : fld (9#4 ++ 14#4 ++ 3#8 ++ 0#2 ++ a ++ d) 24 4 = 14#4 := by
    simp (disch := decide) only [fld, fld_low, fld_high, Nat.reduceSub, BitVec.extractLsb'_eq_self]
  simp only [decodeWord_class9 hc, decodeClass9, hs, BitVec.toNat_ofNat, Nat.reducePow, Nat.reduceMod, decodeSysop]
  simp (disch := decide) only [fld, fld_low, fld_high, Nat.reduceSub, BitVec.extractLsb'_eq_self]
  all_goals rfl

theorem Encodes.agemax (a : Reg) (d : Reg) : Encodes.Statement (.agemax a d) := by
  refine encodes_of_word rfl fun hi => ?_
  have hc : fld (9#4 ++ 14#4 ++ 4#8 ++ 0#2 ++ a ++ d) 28 4 = 9#4 := by
    simp (disch := decide) only [fld, fld_low, fld_high, Nat.reduceSub, BitVec.extractLsb'_eq_self]
  have hs : fld (9#4 ++ 14#4 ++ 4#8 ++ 0#2 ++ a ++ d) 24 4 = 14#4 := by
    simp (disch := decide) only [fld, fld_low, fld_high, Nat.reduceSub, BitVec.extractLsb'_eq_self]
  simp only [decodeWord_class9 hc, decodeClass9, hs, BitVec.toNat_ofNat, Nat.reducePow, Nat.reduceMod, decodeSysop]
  simp (disch := decide) only [fld, fld_low, fld_high, Nat.reduceSub, BitVec.extractLsb'_eq_self]
  all_goals rfl

theorem Encodes.laurelsz (a : Reg) (d : Reg) : Encodes.Statement (.laurelsz a d) := by
  refine encodes_of_word rfl fun hi => ?_
  have hc : fld (9#4 ++ 14#4 ++ 5#8 ++ 0#2 ++ a ++ d) 28 4 = 9#4 := by
    simp (disch := decide) only [fld, fld_low, fld_high, Nat.reduceSub, BitVec.extractLsb'_eq_self]
  have hs : fld (9#4 ++ 14#4 ++ 5#8 ++ 0#2 ++ a ++ d) 24 4 = 14#4 := by
    simp (disch := decide) only [fld, fld_low, fld_high, Nat.reduceSub, BitVec.extractLsb'_eq_self]
  simp only [decodeWord_class9 hc, decodeClass9, hs, BitVec.toNat_ofNat, Nat.reducePow, Nat.reduceMod, decodeSysop]
  simp (disch := decide) only [fld, fld_low, fld_high, Nat.reduceSub, BitVec.extractLsb'_eq_self]
  all_goals rfl

theorem Encodes.migth (a : Reg) (d : Reg) : Encodes.Statement (.migth a d) := by
  refine encodes_of_word rfl fun hi => ?_
  have hc : fld (9#4 ++ 14#4 ++ 6#8 ++ 0#2 ++ a ++ d) 28 4 = 9#4 := by
    simp (disch := decide) only [fld, fld_low, fld_high, Nat.reduceSub, BitVec.extractLsb'_eq_self]
  have hs : fld (9#4 ++ 14#4 ++ 6#8 ++ 0#2 ++ a ++ d) 24 4 = 14#4 := by
    simp (disch := decide) only [fld, fld_low, fld_high, Nat.reduceSub, BitVec.extractLsb'_eq_self]
  simp only [decodeWord_class9 hc, decodeClass9, hs, BitVec.toNat_ofNat, Nat.reducePow, Nat.reduceMod, decodeSysop]
  simp (disch := decide) only [fld, fld_low, fld_high, Nat.reduceSub, BitVec.extractLsb'_eq_self]
  all_goals rfl

theorem Encodes.frameadd (a : Reg) (d : Reg) : Encodes.Statement (.frameadd a d) := by
  refine encodes_of_word rfl fun hi => ?_
  have hc : fld (9#4 ++ 14#4 ++ 7#8 ++ 0#2 ++ a ++ d) 28 4 = 9#4 := by
    simp (disch := decide) only [fld, fld_low, fld_high, Nat.reduceSub, BitVec.extractLsb'_eq_self]
  have hs : fld (9#4 ++ 14#4 ++ 7#8 ++ 0#2 ++ a ++ d) 24 4 = 14#4 := by
    simp (disch := decide) only [fld, fld_low, fld_high, Nat.reduceSub, BitVec.extractLsb'_eq_self]
  simp only [decodeWord_class9 hc, decodeClass9, hs, BitVec.toNat_ofNat, Nat.reducePow, Nat.reduceMod, decodeSysop]
  simp (disch := decide) only [fld, fld_low, fld_high, Nat.reduceSub, BitVec.extractLsb'_eq_self]
  all_goals rfl

theorem Encodes.migrate (a : Reg) (d : Reg) : Encodes.Statement (.migrate a d) := by
  refine encodes_of_word rfl fun hi => ?_
  have hc : fld (9#4 ++ 14#4 ++ 8#8 ++ 0#2 ++ a ++ d) 28 4 = 9#4 := by
    simp (disch := decide) only [fld, fld_low, fld_high, Nat.reduceSub, BitVec.extractLsb'_eq_self]
  have hs : fld (9#4 ++ 14#4 ++ 8#8 ++ 0#2 ++ a ++ d) 24 4 = 14#4 := by
    simp (disch := decide) only [fld, fld_low, fld_high, Nat.reduceSub, BitVec.extractLsb'_eq_self]
  simp only [decodeWord_class9 hc, decodeClass9, hs, BitVec.toNat_ofNat, Nat.reducePow, Nat.reduceMod, decodeSysop]
  simp (disch := decide) only [fld, fld_low, fld_high, Nat.reduceSub, BitVec.extractLsb'_eq_self]
  all_goals rfl

theorem Encodes.root (a : Reg) (d : Reg) : Encodes.Statement (.root a d) := by
  refine encodes_of_word rfl fun hi => ?_
  have hc : fld (9#4 ++ 14#4 ++ 9#8 ++ 0#2 ++ a ++ d) 28 4 = 9#4 := by
    simp (disch := decide) only [fld, fld_low, fld_high, Nat.reduceSub, BitVec.extractLsb'_eq_self]
  have hs : fld (9#4 ++ 14#4 ++ 9#8 ++ 0#2 ++ a ++ d) 24 4 = 14#4 := by
    simp (disch := decide) only [fld, fld_low, fld_high, Nat.reduceSub, BitVec.extractLsb'_eq_self]
  simp only [decodeWord_class9 hc, decodeClass9, hs, BitVec.toNat_ofNat, Nat.reducePow, Nat.reduceMod, decodeSysop]
  simp (disch := decide) only [fld, fld_low, fld_high, Nat.reduceSub, BitVec.extractLsb'_eq_self]
  all_goals rfl

theorem Encodes.inval (a : Reg) (d : Reg) : Encodes.Statement (.inval a d) := by
  refine encodes_of_word rfl fun hi => ?_
  have hc : fld (9#4 ++ 14#4 ++ 10#8 ++ 0#2 ++ a ++ d) 28 4 = 9#4 := by
    simp (disch := decide) only [fld, fld_low, fld_high, Nat.reduceSub, BitVec.extractLsb'_eq_self]
  have hs : fld (9#4 ++ 14#4 ++ 10#8 ++ 0#2 ++ a ++ d) 24 4 = 14#4 := by
    simp (disch := decide) only [fld, fld_low, fld_high, Nat.reduceSub, BitVec.extractLsb'_eq_self]
  simp only [decodeWord_class9 hc, decodeClass9, hs, BitVec.toNat_ofNat, Nat.reducePow, Nat.reduceMod, decodeSysop]
  simp (disch := decide) only [fld, fld_low, fld_high, Nat.reduceSub, BitVec.extractLsb'_eq_self]
  all_goals rfl

theorem Encodes.replay (a : Reg) (d : Reg) : Encodes.Statement (.replay a d) := by
  refine encodes_of_word rfl fun hi => ?_
  have hc : fld (9#4 ++ 14#4 ++ 11#8 ++ 0#2 ++ a ++ d) 28 4 = 9#4 := by
    simp (disch := decide) only [fld, fld_low, fld_high, Nat.reduceSub, BitVec.extractLsb'_eq_self]
  have hs : fld (9#4 ++ 14#4 ++ 11#8 ++ 0#2 ++ a ++ d) 24 4 = 14#4 := by
    simp (disch := decide) only [fld, fld_low, fld_high, Nat.reduceSub, BitVec.extractLsb'_eq_self]
  simp only [decodeWord_class9 hc, decodeClass9, hs, BitVec.toNat_ofNat, Nat.reducePow, Nat.reduceMod, decodeSysop]
  simp (disch := decide) only [fld, fld_low, fld_high, Nat.reduceSub, BitVec.extractLsb'_eq_self]
  all_goals rfl

theorem Encodes.ringset (a : Reg) (d : Reg) : Encodes.Statement (.ringset a d) := by
  refine encodes_of_word rfl fun hi => ?_
  have hc : fld (9#4 ++ 14#4 ++ 12#8 ++ 0#2 ++ a ++ d) 28 4 = 9#4 := by
    simp (disch := decide) only [fld, fld_low, fld_high, Nat.reduceSub, BitVec.extractLsb'_eq_self]
  have hs : fld (9#4 ++ 14#4 ++ 12#8 ++ 0#2 ++ a ++ d) 24 4 = 14#4 := by
    simp (disch := decide) only [fld, fld_low, fld_high, Nat.reduceSub, BitVec.extractLsb'_eq_self]
  simp only [decodeWord_class9 hc, decodeClass9, hs, BitVec.toNat_ofNat, Nat.reducePow, Nat.reduceMod, decodeSysop]
  simp (disch := decide) only [fld, fld_low, fld_high, Nat.reduceSub, BitVec.extractLsb'_eq_self]
  all_goals rfl

theorem Encodes.queue (a : Reg) (d : Reg) : Encodes.Statement (.queue a d) := by
  refine encodes_of_word rfl fun hi => ?_
  have hc : fld (9#4 ++ 14#4 ++ 13#8 ++ 0#2 ++ a ++ d) 28 4 = 9#4 := by
    simp (disch := decide) only [fld, fld_low, fld_high, Nat.reduceSub, BitVec.extractLsb'_eq_self]
  have hs : fld (9#4 ++ 14#4 ++ 13#8 ++ 0#2 ++ a ++ d) 24 4 = 14#4 := by
    simp (disch := decide) only [fld, fld_low, fld_high, Nat.reduceSub, BitVec.extractLsb'_eq_self]
  simp only [decodeWord_class9 hc, decodeClass9, hs, BitVec.toNat_ofNat, Nat.reducePow, Nat.reduceMod, decodeSysop]
  simp (disch := decide) only [fld, fld_low, fld_high, Nat.reduceSub, BitVec.extractLsb'_eq_self]
  all_goals rfl

theorem Encodes.release (a : Reg) (d : Reg) : Encodes.Statement (.release a d) := by
  refine encodes_of_word rfl fun hi => ?_
  have hc : fld (9#4 ++ 14#4 ++ 14#8 ++ 0#2 ++ a ++ d) 28 4 = 9#4 := by
    simp (disch := decide) only [fld, fld_low, fld_high, Nat.reduceSub, BitVec.extractLsb'_eq_self]
  have hs : fld (9#4 ++ 14#4 ++ 14#8 ++ 0#2 ++ a ++ d) 24 4 = 14#4 := by
    simp (disch := decide) only [fld, fld_low, fld_high, Nat.reduceSub, BitVec.extractLsb'_eq_self]
  simp only [decodeWord_class9 hc, decodeClass9, hs, BitVec.toNat_ofNat, Nat.reducePow, Nat.reduceMod, decodeSysop]
  simp (disch := decide) only [fld, fld_low, fld_high, Nat.reduceSub, BitVec.extractLsb'_eq_self]
  all_goals rfl

theorem Encodes.qpopen (a : Reg) (d : Reg) : Encodes.Statement (.qpopen a d) := by
  refine encodes_of_word rfl fun hi => ?_
  have hc : fld (9#4 ++ 14#4 ++ 15#8 ++ 0#2 ++ a ++ d) 28 4 = 9#4 := by
    simp (disch := decide) only [fld, fld_low, fld_high, Nat.reduceSub, BitVec.extractLsb'_eq_self]
  have hs : fld (9#4 ++ 14#4 ++ 15#8 ++ 0#2 ++ a ++ d) 24 4 = 14#4 := by
    simp (disch := decide) only [fld, fld_low, fld_high, Nat.reduceSub, BitVec.extractLsb'_eq_self]
  simp only [decodeWord_class9 hc, decodeClass9, hs, BitVec.toNat_ofNat, Nat.reducePow, Nat.reduceMod, decodeSysop]
  simp (disch := decide) only [fld, fld_low, fld_high, Nat.reduceSub, BitVec.extractLsb'_eq_self]
  all_goals rfl

theorem Encodes.cgroup (a : Reg) (d : Reg) : Encodes.Statement (.cgroup a d) := by
  refine encodes_of_word rfl fun hi => ?_
  have hc : fld (9#4 ++ 14#4 ++ 16#8 ++ 0#2 ++ a ++ d) 28 4 = 9#4 := by
    simp (disch := decide) only [fld, fld_low, fld_high, Nat.reduceSub, BitVec.extractLsb'_eq_self]
  have hs : fld (9#4 ++ 14#4 ++ 16#8 ++ 0#2 ++ a ++ d) 24 4 = 14#4 := by
    simp (disch := decide) only [fld, fld_low, fld_high, Nat.reduceSub, BitVec.extractLsb'_eq_self]
  simp only [decodeWord_class9 hc, decodeClass9, hs, BitVec.toNat_ofNat, Nat.reducePow, Nat.reduceMod, decodeSysop]
  simp (disch := decide) only [fld, fld_low, fld_high, Nat.reduceSub, BitVec.extractLsb'_eq_self]
  all_goals rfl

theorem Encodes.pkgset (a : Reg) (d : Reg) : Encodes.Statement (.pkgset a d) := by
  refine encodes_of_word rfl fun hi => ?_
  have hc : fld (9#4 ++ 14#4 ++ 17#8 ++ 0#2 ++ a ++ d) 28 4 = 9#4 := by
    simp (disch := decide) only [fld, fld_low, fld_high, Nat.reduceSub, BitVec.extractLsb'_eq_self]
  have hs : fld (9#4 ++ 14#4 ++ 17#8 ++ 0#2 ++ a ++ d) 24 4 = 14#4 := by
    simp (disch := decide) only [fld, fld_low, fld_high, Nat.reduceSub, BitVec.extractLsb'_eq_self]
  simp only [decodeWord_class9 hc, decodeClass9, hs, BitVec.toNat_ofNat, Nat.reducePow, Nat.reduceMod, decodeSysop]
  simp (disch := decide) only [fld, fld_low, fld_high, Nat.reduceSub, BitVec.extractLsb'_eq_self]
  all_goals rfl

theorem Encodes.exportPage (a : Reg) (d : Reg) : Encodes.Statement (.exportPage a d) := by
  refine encodes_of_word rfl fun hi => ?_
  have hc : fld (9#4 ++ 14#4 ++ 18#8 ++ 0#2 ++ a ++ d) 28 4 = 9#4 := by
    simp (disch := decide) only [fld, fld_low, fld_high, Nat.reduceSub, BitVec.extractLsb'_eq_self]
  have hs : fld (9#4 ++ 14#4 ++ 18#8 ++ 0#2 ++ a ++ d) 24 4 = 14#4 := by
    simp (disch := decide) only [fld, fld_low, fld_high, Nat.reduceSub, BitVec.extractLsb'_eq_self]
  simp only [decodeWord_class9 hc, decodeClass9, hs, BitVec.toNat_ofNat, Nat.reducePow, Nat.reduceMod, decodeSysop]
  simp (disch := decide) only [fld, fld_low, fld_high, Nat.reduceSub, BitVec.extractLsb'_eq_self]
  all_goals rfl

theorem Encodes.retire (a : Reg) (d : Reg) : Encodes.Statement (.retire a d) := by
  refine encodes_of_word rfl fun hi => ?_
  have hc : fld (9#4 ++ 14#4 ++ 19#8 ++ 0#2 ++ a ++ d) 28 4 = 9#4 := by
    simp (disch := decide) only [fld, fld_low, fld_high, Nat.reduceSub, BitVec.extractLsb'_eq_self]
  have hs : fld (9#4 ++ 14#4 ++ 19#8 ++ 0#2 ++ a ++ d) 24 4 = 14#4 := by
    simp (disch := decide) only [fld, fld_low, fld_high, Nat.reduceSub, BitVec.extractLsb'_eq_self]
  simp only [decodeWord_class9 hc, decodeClass9, hs, BitVec.toNat_ofNat, Nat.reducePow, Nat.reduceMod, decodeSysop]
  simp (disch := decide) only [fld, fld_low, fld_high, Nat.reduceSub, BitVec.extractLsb'_eq_self]
  all_goals rfl

theorem Encodes.dbgmatch (a : Reg) (d : Reg) : Encodes.Statement (.dbgmatch a d) := by
  refine encodes_of_word rfl fun hi => ?_
  have hc : fld (9#4 ++ 14#4 ++ 20#8 ++ 0#2 ++ a ++ d) 28 4 = 9#4 := by
    simp (disch := decide) only [fld, fld_low, fld_high, Nat.reduceSub, BitVec.extractLsb'_eq_self]
  have hs : fld (9#4 ++ 14#4 ++ 20#8 ++ 0#2 ++ a ++ d) 24 4 = 14#4 := by
    simp (disch := decide) only [fld, fld_low, fld_high, Nat.reduceSub, BitVec.extractLsb'_eq_self]
  simp only [decodeWord_class9 hc, decodeClass9, hs, BitVec.toNat_ofNat, Nat.reducePow, Nat.reduceMod, decodeSysop]
  simp (disch := decide) only [fld, fld_low, fld_high, Nat.reduceSub, BitVec.extractLsb'_eq_self]
  all_goals rfl

theorem Encodes.teamstop (a : Reg) (d : Reg) : Encodes.Statement (.teamstop a d) := by
  refine encodes_of_word rfl fun hi => ?_
  have hc : fld (9#4 ++ 14#4 ++ 21#8 ++ 0#2 ++ a ++ d) 28 4 = 9#4 := by
    simp (disch := decide) only [fld, fld_low, fld_high, Nat.reduceSub, BitVec.extractLsb'_eq_self]
  have hs : fld (9#4 ++ 14#4 ++ 21#8 ++ 0#2 ++ a ++ d) 24 4 = 14#4 := by
    simp (disch := decide) only [fld, fld_low, fld_high, Nat.reduceSub, BitVec.extractLsb'_eq_self]
  simp only [decodeWord_class9 hc, decodeClass9, hs, BitVec.toNat_ofNat, Nat.reducePow, Nat.reduceMod, decodeSysop]
  simp (disch := decide) only [fld, fld_low, fld_high, Nat.reduceSub, BitVec.extractLsb'_eq_self]
  all_goals rfl

theorem Encodes.debug (a : Reg) (d : Reg) : Encodes.Statement (.debug a d) := by
  refine encodes_of_word rfl fun hi => ?_
  have hc : fld (9#4 ++ 14#4 ++ 22#8 ++ 0#2 ++ a ++ d) 28 4 = 9#4 := by
    simp (disch := decide) only [fld, fld_low, fld_high, Nat.reduceSub, BitVec.extractLsb'_eq_self]
  have hs : fld (9#4 ++ 14#4 ++ 22#8 ++ 0#2 ++ a ++ d) 24 4 = 14#4 := by
    simp (disch := decide) only [fld, fld_low, fld_high, Nat.reduceSub, BitVec.extractLsb'_eq_self]
  simp only [decodeWord_class9 hc, decodeClass9, hs, BitVec.toNat_ofNat, Nat.reducePow, Nat.reduceMod, decodeSysop]
  simp (disch := decide) only [fld, fld_low, fld_high, Nat.reduceSub, BitVec.extractLsb'_eq_self]
  all_goals rfl

theorem Encodes.preempt (a : Reg) (d : Reg) : Encodes.Statement (.preempt a d) := by
  refine encodes_of_word rfl fun hi => ?_
  have hc : fld (9#4 ++ 14#4 ++ 23#8 ++ 0#2 ++ a ++ d) 28 4 = 9#4 := by
    simp (disch := decide) only [fld, fld_low, fld_high, Nat.reduceSub, BitVec.extractLsb'_eq_self]
  have hs : fld (9#4 ++ 14#4 ++ 23#8 ++ 0#2 ++ a ++ d) 24 4 = 14#4 := by
    simp (disch := decide) only [fld, fld_low, fld_high, Nat.reduceSub, BitVec.extractLsb'_eq_self]
  simp only [decodeWord_class9 hc, decodeClass9, hs, BitVec.toNat_ofNat, Nat.reducePow, Nat.reduceMod, decodeSysop]
  simp (disch := decide) only [fld, fld_low, fld_high, Nat.reduceSub, BitVec.extractLsb'_eq_self]
  all_goals rfl

theorem Encodes.restore (a : Reg) (d : Reg) : Encodes.Statement (.restore a d) := by
  refine encodes_of_word rfl fun hi => ?_
  have hc : fld (9#4 ++ 14#4 ++ 24#8 ++ 0#2 ++ a ++ d) 28 4 = 9#4 := by
    simp (disch := decide) only [fld, fld_low, fld_high, Nat.reduceSub, BitVec.extractLsb'_eq_self]
  have hs : fld (9#4 ++ 14#4 ++ 24#8 ++ 0#2 ++ a ++ d) 24 4 = 14#4 := by
    simp (disch := decide) only [fld, fld_low, fld_high, Nat.reduceSub, BitVec.extractLsb'_eq_self]
  simp only [decodeWord_class9 hc, decodeClass9, hs, BitVec.toNat_ofNat, Nat.reducePow, Nat.reduceMod, decodeSysop]
  simp (disch := decide) only [fld, fld_low, fld_high, Nat.reduceSub, BitVec.extractLsb'_eq_self]
  all_goals rfl

theorem Encodes.boxread (a : Reg) (d : Reg) : Encodes.Statement (.boxread a d) := by
  refine encodes_of_word rfl fun hi => ?_
  have hc : fld (9#4 ++ 14#4 ++ 25#8 ++ 0#2 ++ a ++ d) 28 4 = 9#4 := by
    simp (disch := decide) only [fld, fld_low, fld_high, Nat.reduceSub, BitVec.extractLsb'_eq_self]
  have hs : fld (9#4 ++ 14#4 ++ 25#8 ++ 0#2 ++ a ++ d) 24 4 = 14#4 := by
    simp (disch := decide) only [fld, fld_low, fld_high, Nat.reduceSub, BitVec.extractLsb'_eq_self]
  simp only [decodeWord_class9 hc, decodeClass9, hs, BitVec.toNat_ofNat, Nat.reducePow, Nat.reduceMod, decodeSysop]
  simp (disch := decide) only [fld, fld_low, fld_high, Nat.reduceSub, BitVec.extractLsb'_eq_self]
  all_goals rfl

theorem Encodes.prep (bt : BtIx) (imm : BitVec 17) : Encodes.Statement (.prep bt imm) := by
  refine encodes_of_word rfl fun hi => ?_
  have hc : fld (10#4 ++ 0#4 ++ bt ++ 0#4 ++ imm) 28 4 = 10#4 := by
    simp (disch := decide) only [fld, fld_low, fld_high, Nat.reduceSub, BitVec.extractLsb'_eq_self]
  have hs : fld (10#4 ++ 0#4 ++ bt ++ 0#4 ++ imm) 24 4 = 0#4 := by
    simp (disch := decide) only [fld, fld_low, fld_high, Nat.reduceSub, BitVec.extractLsb'_eq_self]
  simp only [decodeWord_classA hc, decodeClassA, hs, BitVec.toNat_ofNat, Nat.reducePow, Nat.reduceMod]
  simp (disch := decide) only [fld, fld_low, fld_high, Nat.reduceSub, BitVec.extractLsb'_eq_self]
  all_goals rfl

theorem Encodes.prepr (bt : BtIx) (a : Reg) : Encodes.Statement (.prepr bt a) := by
  refine encodes_of_word rfl fun hi => ?_
  have hc : fld (10#4 ++ 1#4 ++ bt ++ 0#4 ++ a ++ 0#10) 28 4 = 10#4 := by
    simp (disch := decide) only [fld, fld_low, fld_high, Nat.reduceSub, BitVec.extractLsb'_eq_self]
  have hs : fld (10#4 ++ 1#4 ++ bt ++ 0#4 ++ a ++ 0#10) 24 4 = 1#4 := by
    simp (disch := decide) only [fld, fld_low, fld_high, Nat.reduceSub, BitVec.extractLsb'_eq_self]
  simp only [decodeWord_classA hc, decodeClassA, hs, BitVec.toNat_ofNat, Nat.reducePow, Nat.reduceMod]
  simp (disch := decide) only [fld, fld_low, fld_high, Nat.reduceSub, BitVec.extractLsb'_eq_self]
  all_goals rfl

theorem Encodes.xfer (bt : BtIx) (ps : PredIx) (neg : Bool) : Encodes.Statement (.xfer bt ps neg) := by
  refine encodes_of_word rfl fun hi => ?_
  have hc : fld (10#4 ++ 2#4 ++ bt ++ ps ++ BitVec.ofBool neg ++ 0#17) 28 4 = 10#4 := by
    simp (disch := decide) only [fld, fld_low, fld_high, Nat.reduceSub, BitVec.extractLsb'_eq_self]
  have hs : fld (10#4 ++ 2#4 ++ bt ++ ps ++ BitVec.ofBool neg ++ 0#17) 24 4 = 2#4 := by
    simp (disch := decide) only [fld, fld_low, fld_high, Nat.reduceSub, BitVec.extractLsb'_eq_self]
  simp only [decodeWord_classA hc, decodeClassA, hs, BitVec.toNat_ofNat, Nat.reducePow, Nat.reduceMod]
  simp (disch := decide) only [fld, fld_low, fld_high, Nat.reduceSub, BitVec.extractLsb'_eq_self]
  cases neg
  · simp [Except.map]
  · have hp : ps ≠ 0#3 := fun e => hi ⟨e, rfl⟩
    simp [hp, Except.map]

theorem Encodes.xferCall (bt : BtIx) (ps : PredIx) (neg : Bool) : Encodes.Statement (.xferCall bt ps neg) := by
  refine encodes_of_word rfl fun hi => ?_
  have hc : fld (10#4 ++ 3#4 ++ bt ++ ps ++ BitVec.ofBool neg ++ 0#17) 28 4 = 10#4 := by
    simp (disch := decide) only [fld, fld_low, fld_high, Nat.reduceSub, BitVec.extractLsb'_eq_self]
  have hs : fld (10#4 ++ 3#4 ++ bt ++ ps ++ BitVec.ofBool neg ++ 0#17) 24 4 = 3#4 := by
    simp (disch := decide) only [fld, fld_low, fld_high, Nat.reduceSub, BitVec.extractLsb'_eq_self]
  simp only [decodeWord_classA hc, decodeClassA, hs, BitVec.toNat_ofNat, Nat.reducePow, Nat.reduceMod]
  simp (disch := decide) only [fld, fld_low, fld_high, Nat.reduceSub, BitVec.extractLsb'_eq_self]
  cases neg
  · simp [Except.map]
  · have hp : ps ≠ 0#3 := fun e => hi ⟨e, rfl⟩
    simp [hp, Except.map]

theorem Encodes.xferRet (bt : BtIx) (ps : PredIx) (neg : Bool) : Encodes.Statement (.xferRet bt ps neg) := by
  refine encodes_of_word rfl fun hi => ?_
  have hc : fld (10#4 ++ 4#4 ++ bt ++ ps ++ BitVec.ofBool neg ++ 0#17) 28 4 = 10#4 := by
    simp (disch := decide) only [fld, fld_low, fld_high, Nat.reduceSub, BitVec.extractLsb'_eq_self]
  have hs : fld (10#4 ++ 4#4 ++ bt ++ ps ++ BitVec.ofBool neg ++ 0#17) 24 4 = 4#4 := by
    simp (disch := decide) only [fld, fld_low, fld_high, Nat.reduceSub, BitVec.extractLsb'_eq_self]
  simp only [decodeWord_classA hc, decodeClassA, hs, BitVec.toNat_ofNat, Nat.reducePow, Nat.reduceMod]
  simp (disch := decide) only [fld, fld_low, fld_high, Nat.reduceSub, BitVec.extractLsb'_eq_self]
  cases neg
  · simp [Except.map]
  · have hp : ps ≠ 0#3 := fun e => hi ⟨e, rfl⟩
    simp [hp, Except.map]

theorem Encodes.bcopy (bt : BtIx) (bs : BtIx) : Encodes.Statement (.bcopy bt bs) := by
  refine encodes_of_word rfl fun hi => ?_
  have hc : fld (10#4 ++ 5#4 ++ bt ++ 0#3 ++ 0#1 ++ 0#4 ++ bs ++ 0#10) 28 4 = 10#4 := by
    simp (disch := decide) only [fld, fld_low, fld_high, Nat.reduceSub, BitVec.extractLsb'_eq_self]
  have hs : fld (10#4 ++ 5#4 ++ bt ++ 0#3 ++ 0#1 ++ 0#4 ++ bs ++ 0#10) 24 4 = 5#4 := by
    simp (disch := decide) only [fld, fld_low, fld_high, Nat.reduceSub, BitVec.extractLsb'_eq_self]
  simp only [decodeWord_classA hc, decodeClassA, hs, BitVec.toNat_ofNat, Nat.reducePow, Nat.reduceMod]
  simp (disch := decide) only [fld, fld_low, fld_high, Nat.reduceSub, BitVec.extractLsb'_eq_self]
  all_goals rfl

theorem Encodes.bload (bt : BtIx) (a : Reg) : Encodes.Statement (.bload bt a) := by
  refine encodes_of_word rfl fun hi => ?_
  have hc : fld (10#4 ++ 6#4 ++ bt ++ 0#4 ++ a ++ 0#10) 28 4 = 10#4 := by
    simp (disch := decide) only [fld, fld_low, fld_high, Nat.reduceSub, BitVec.extractLsb'_eq_self]
  have hs : fld (10#4 ++ 6#4 ++ bt ++ 0#4 ++ a ++ 0#10) 24 4 = 6#4 := by
    simp (disch := decide) only [fld, fld_low, fld_high, Nat.reduceSub, BitVec.extractLsb'_eq_self]
  simp only [decodeWord_classA hc, decodeClassA, hs, BitVec.toNat_ofNat, Nat.reducePow, Nat.reduceMod]
  simp (disch := decide) only [fld, fld_low, fld_high, Nat.reduceSub, BitVec.extractLsb'_eq_self]
  all_goals rfl

theorem Encodes.binv (bt : BtIx) : Encodes.Statement (.binv bt) := by
  refine encodes_of_word rfl fun hi => ?_
  have hc : fld (10#4 ++ 7#4 ++ bt ++ 0#21) 28 4 = 10#4 := by
    simp (disch := decide) only [fld, fld_low, fld_high, Nat.reduceSub, BitVec.extractLsb'_eq_self]
  have hs : fld (10#4 ++ 7#4 ++ bt ++ 0#21) 24 4 = 7#4 := by
    simp (disch := decide) only [fld, fld_low, fld_high, Nat.reduceSub, BitVec.extractLsb'_eq_self]
  simp only [decodeWord_classA hc, decodeClassA, hs, BitVec.toNat_ofNat, Nat.reducePow, Nat.reduceMod]
  simp (disch := decide) only [fld, fld_low, fld_high, Nat.reduceSub, BitVec.extractLsb'_eq_self]
  all_goals rfl

theorem Encodes.xdec (bt : BtIx) (a : Reg) : Encodes.Statement (.xdec bt a) := by
  refine encodes_of_word rfl fun hi => ?_
  have hc : fld (10#4 ++ 8#4 ++ bt ++ 0#4 ++ a ++ 0#10) 28 4 = 10#4 := by
    simp (disch := decide) only [fld, fld_low, fld_high, Nat.reduceSub, BitVec.extractLsb'_eq_self]
  have hs : fld (10#4 ++ 8#4 ++ bt ++ 0#4 ++ a ++ 0#10) 24 4 = 8#4 := by
    simp (disch := decide) only [fld, fld_low, fld_high, Nat.reduceSub, BitVec.extractLsb'_eq_self]
  simp only [decodeWord_classA hc, decodeClassA, hs, BitVec.toNat_ofNat, Nat.reducePow, Nat.reduceMod]
  simp (disch := decide) only [fld, fld_low, fld_high, Nat.reduceSub, BitVec.extractLsb'_eq_self]
  all_goals rfl

theorem Encodes.matrixOperation (op : Nat) : Encodes.Statement (.matrixOperation op) := encodes_of_none rfl
theorem Encodes.jobAppend (wid : Nat) : Encodes.Statement (.jobAppend wid) := encodes_of_none rfl
theorem Encodes.formBundle (core : Nat) (port : Nat) : Encodes.Statement (.formBundle core port) := encodes_of_none rfl
theorem Encodes.teamPlacement : Encodes.Statement .teamPlacement := encodes_of_none rfl
theorem Encodes.clusterPlacement : Encodes.Statement .clusterPlacement := encodes_of_none rfl
theorem Encodes.gridReserving (grid : Nat) : Encodes.Statement (.gridReserving grid) := encodes_of_none rfl
theorem Encodes.teamFree (team : Nat) : Encodes.Statement (.teamFree team) := encodes_of_none rfl
theorem Encodes.gridCompletion (grid : Nat) : Encodes.Statement (.gridCompletion grid) := encodes_of_none rfl
theorem Encodes.homeAccess (wid : Nat) (line : Nat) (viaL1 : Bool) : Encodes.Statement (.homeAccess wid line viaL1) := encodes_of_none rfl
theorem Encodes.loadReturn (thr : Nat) (op : Nat) : Encodes.Statement (.loadReturn thr op) := encodes_of_none rfl
theorem Encodes.chainStep (thr : Nat) (op : Nat) : Encodes.Statement (.chainStep thr op) := encodes_of_none rfl
theorem Encodes.peerStashAccess (wid : Nat) : Encodes.Statement (.peerStashAccess wid) := encodes_of_none rfl
theorem Encodes.raddArrival (wid : Nat) (line : Nat) : Encodes.Statement (.raddArrival wid line) := encodes_of_none rfl
theorem Encodes.horizonEntryFreed (grid : Bool) (waiter : Nat) : Encodes.Statement (.horizonEntryFreed grid waiter) := encodes_of_none rfl
theorem Encodes.slotBind (slot : Nat) : Encodes.Statement (.slotBind slot) := encodes_of_none rfl
theorem Encodes.slotUnbind (slot : Nat) : Encodes.Statement (.slotUnbind slot) := encodes_of_none rfl
theorem Encodes.entryTake (slot : Nat) : Encodes.Statement (.entryTake slot) := encodes_of_none rfl
theorem Encodes.entryWaitPoll (slot : Nat) : Encodes.Statement (.entryWaitPoll slot) := encodes_of_none rfl
theorem Encodes.entryHandOn (slot : Nat) : Encodes.Statement (.entryHandOn slot) := encodes_of_none rfl
theorem Encodes.entrySignalWrite (queue : Nat) (entry : Nat) : Encodes.Statement (.entrySignalWrite queue entry) := encodes_of_none rfl
theorem Encodes.faultRecordWrite (die : Nat) : Encodes.Statement (.faultRecordWrite die) := encodes_of_none rfl
theorem Encodes.jobStart (card : Nat) : Encodes.Statement (.jobStart card) := encodes_of_none rfl
theorem Encodes.copyPiece (card : Nat) (row : Nat) (dst : Nat) : Encodes.Statement (.copyPiece card row dst) := encodes_of_none rfl
theorem Encodes.sortJob (card : Nat) : Encodes.Statement (.sortJob card) := encodes_of_none rfl
theorem Encodes.gatherbindJob (card : Nat) : Encodes.Statement (.gatherbindJob card) := encodes_of_none rfl
theorem Encodes.unbindJob (card : Nat) : Encodes.Statement (.unbindJob card) := encodes_of_none rfl
theorem Encodes.collJob (card : Nat) : Encodes.Statement (.collJob card) := encodes_of_none rfl
theorem Encodes.ocompJob (card : Nat) : Encodes.Statement (.ocompJob card) := encodes_of_none rfl
theorem Encodes.jobCompletion (card : Nat) : Encodes.Statement (.jobCompletion card) := encodes_of_none rfl
theorem Encodes.walkComplete (die : Nat) (w : WalkReturn) : Encodes.Statement (.walkComplete die w) := encodes_of_none rfl
theorem Encodes.zeroFillFirstWrite (die : Nat) (entry : Nat) : Encodes.Statement (.zeroFillFirstWrite die entry) := encodes_of_none rfl
theorem Encodes.migration (asid : Nat) (va : Nat) : Encodes.Statement (.migration asid va) := encodes_of_none rfl
theorem Encodes.tileFillComplete (team : Nat) (tile : Nat) : Encodes.Statement (.tileFillComplete team tile) := encodes_of_none rfl
theorem Encodes.tileDrainComplete (team : Nat) (tile : Nat) : Encodes.Statement (.tileDrainComplete team tile) := encodes_of_none rfl
theorem Encodes.hostPathResponse (wid : Nat) (line : Nat) (hostWrites : List (Nat × Byte)) : Encodes.Statement (.hostPathResponse wid line hostWrites) := encodes_of_none rfl
theorem Encodes.preemptComplete (base : Nat) : Encodes.Statement (.preemptComplete base) := encodes_of_none rfl
theorem Encodes.graphStart (slot : Nat) : Encodes.Statement (.graphStart slot) := encodes_of_none rfl
theorem Encodes.kernelNode (die : Nat) (node : Nat) : Encodes.Statement (.kernelNode die node) := encodes_of_none rfl
theorem Encodes.jobNode (die : Nat) (node : Nat) : Encodes.Statement (.jobNode die node) := encodes_of_none rfl
theorem Encodes.condNode (die : Nat) (node : Nat) : Encodes.Statement (.condNode die node) := encodes_of_none rfl
theorem Encodes.whileNode (die : Nat) (node : Nat) : Encodes.Statement (.whileNode die node) := encodes_of_none rfl
theorem Encodes.signalNode (die : Nat) (node : Nat) : Encodes.Statement (.signalNode die node) := encodes_of_none rfl
theorem Encodes.waitNode (die : Nat) (node : Nat) : Encodes.Statement (.waitNode die node) := encodes_of_none rfl
theorem Encodes.nodeComplete (die : Nat) (node : Nat) : Encodes.Statement (.nodeComplete die node) := encodes_of_none rfl
theorem Encodes.cycleCounter : Encodes.Statement .cycleCounter := encodes_of_none rfl
theorem Encodes.privetSlot (recs : List (Nat × Nat)) : Encodes.Statement (.privetSlot recs) := encodes_of_none rfl
theorem Encodes.scrubSlot (line : Nat) (result : ScrubResult) : Encodes.Statement (.scrubSlot line result) := encodes_of_none rfl
theorem Encodes.refreshSlot (channel : Nat) : Encodes.Statement (.refreshSlot channel) := encodes_of_none rfl
theorem Encodes.telemetrySlot (channel : Nat) (temp : Nat) (errors : Nat) : Encodes.Statement (.telemetrySlot channel temp errors) := encodes_of_none rfl
theorem Encodes.doorbell (qp : Nat) (key : Nat) (va : Nat) (data : List Byte) : Encodes.Statement (.doorbell qp key va data) := encodes_of_none rfl
theorem Encodes.migrationDeviceRequest (die : Nat) (asid : Nat) (va : Nat) : Encodes.Statement (.migrationDeviceRequest die asid va) := encodes_of_none rfl
theorem Encodes.hostMigrationRequest (qp : Nat) (key : Nat) (va : Nat) (data : List Byte) : Encodes.Statement (.hostMigrationRequest qp key va data) := encodes_of_none rfl
theorem Encodes.hostRdmaWrite (qp : Nat) (key : Nat) (va : Nat) (data : List Byte) : Encodes.Statement (.hostRdmaWrite qp key va data) := encodes_of_none rfl
theorem Encodes.hostRdmaRead (qp : Nat) (key : Nat) (va : Nat) (n : Nat) : Encodes.Statement (.hostRdmaRead qp key va n) := encodes_of_none rfl
theorem Encodes.hostRdmaFlush (r : FlushReq) : Encodes.Statement (.hostRdmaFlush r) := encodes_of_none rfl
theorem Encodes.hostUnsupportedRequest (qp : Nat) : Encodes.Statement (.hostUnsupportedRequest qp) := encodes_of_none rfl
theorem Encodes.kolozRead (port : Nat) (f : Frame) : Encodes.Statement (.kolozRead port f) := encodes_of_none rfl
theorem Encodes.kolozWrite (port : Nat) (f : Frame) : Encodes.Statement (.kolozWrite port f) := encodes_of_none rfl
theorem Encodes.kolozAtomic (port : Nat) (f : Frame) : Encodes.Statement (.kolozAtomic port f) := encodes_of_none rfl
theorem Encodes.kolozRadd (port : Nat) (f : Frame) : Encodes.Statement (.kolozRadd port f) := encodes_of_none rfl
theorem Encodes.kolozChain (port : Nat) (f : Frame) : Encodes.Statement (.kolozChain port f) := encodes_of_none rfl
theorem Encodes.kolozRflush (port : Nat) (f : Frame) : Encodes.Statement (.kolozRflush port f) := encodes_of_none rfl
theorem Encodes.kolozColl (port : Nat) (f : Frame) : Encodes.Statement (.kolozColl port f) := encodes_of_none rfl
theorem Encodes.kolozMgmt (port : Nat) (f : Frame) : Encodes.Statement (.kolozMgmt port f) := encodes_of_none rfl
theorem Encodes.kolozData (port : Nat) (f : Frame) : Encodes.Statement (.kolozData port f) := encodes_of_none rfl
theorem Encodes.kolozAck (port : Nat) (f : Frame) : Encodes.Statement (.kolozAck port f) := encodes_of_none rfl
theorem Encodes.kolozRefused (port : Nat) (f : Frame) : Encodes.Statement (.kolozRefused port f) := encodes_of_none rfl
theorem Encodes.frameFcsReplay (port : Nat) : Encodes.Statement (.frameFcsReplay port) := encodes_of_none rfl
theorem Encodes.frameDiscard (port : Nat) (a : Arrival) : Encodes.Statement (.frameDiscard port a) := encodes_of_none rfl
theorem Encodes.retransmitTimeout (tag : Nat) : Encodes.Statement (.retransmitTimeout tag) := encodes_of_none rfl
theorem Encodes.portFailure (port : Nat) : Encodes.Statement (.portFailure port) := encodes_of_none rfl
theorem Encodes.redfishReset (cold : Bool) : Encodes.Statement (.redfishReset cold) := encodes_of_none rfl
theorem Encodes.redfishUpdate (slot : Nat) (version : Nat) (crcOk : Bool) (retired : List Nat) : Encodes.Statement (.redfishUpdate slot version crcOk retired) := encodes_of_none rfl
theorem Encodes.redfishRead (r : RedfishGet) : Encodes.Statement (.redfishRead r) := encodes_of_none rfl
theorem Encodes.powerOn : Encodes.Statement .powerOn := encodes_of_none rfl
theorem Encodes.coldReset (badCores : List Nat) (downPorts : List Nat) : Encodes.Statement (.coldReset badCores downPorts) := encodes_of_none rfl
theorem Encodes.warmReset : Encodes.Statement .warmReset := encodes_of_none rfl
theorem Encodes.powerAlarm (moduleW : Nat) (packageW : Nat) (junction : Nat) : Encodes.Statement (.powerAlarm moduleW packageW junction) := encodes_of_none rfl
theorem Encodes.powerAlarmClear (moduleW : Nat) (packageW : Nat) (junction : Nat) : Encodes.Statement (.powerAlarmClear moduleW packageW junction) := encodes_of_none rfl
theorem Encodes.trip (cause : Nat) (reading : Nat) : Encodes.Statement (.trip cause reading) := encodes_of_none rfl
theorem Encodes.counterSample : Encodes.Statement .counterSample := encodes_of_none rfl
theorem Encodes.perBankRefresh (channel : Nat) : Encodes.Statement (.perBankRefresh channel) := encodes_of_none rfl
theorem Encodes.priorityFlowControl (port : Nat) (prio : Nat) (quanta : Nat) : Encodes.Statement (.priorityFlowControl port prio quanta) := encodes_of_none rfl

end Sys2Proof.Laws
end

