-- ==== Sys2Proof/Safety.lean ====
section
/-! DEFINITION. Safety.lean: the terms in which the claims are stated: a memory in canonical form, a word that its bundle
executes, and what a word may change. -/

namespace Sys2Proof.Machine

/-- Memory keeps its canonical form, so that equal memories are equal data. -/
def MemOk (s : State) : Prop := Memory.wf s.mm.mem = true

/-- A thread but for its registers, predicates and branch targets, and for its place in the program. -/
def Thread.rest (t : Thread) : Thread :=
  { t with regs := [], tvalid := [], rpoison := [], preds := [], bts := [], pc := 0, runPos := 0, btag := 0, runEpoch := 0, quiet := 0, grants := [], buf := [] }

/-- A word stands before the bundle `ks`, its hints and spans are ones that it accepts, no interlock holds it, and no lane
has a fault of R57 before it or a false guard. -/
structure Issues (w : WordSpec) (c : Ctx) (ks : List Nat) (s : State) : Prop where
  go : prelude w s = .go c ks
  nodup : ks.Nodup
  lanes : ∀ k ∈ ks, ∃ t, getThread s k = some t ∧ ready s w t = true

/-- Nothing but threads, the bundles that ports hold and the issuing word differs. -/
structure OnlyLanes (s u : State) : Prop where
  mm : u.mm = s.mm
  tr : u.tr = s.tr
  qu : u.qu = s.qu
  en : u.en = s.en
  fa : u.fa = s.fa
  bd : u.bd = s.bd
  halted : u.halted = s.halted
  agenda : u.agenda = s.agenda
  nextId : u.nextId = s.nextId
  teams : u.ex.teams = s.ex.teams
  clusters : u.ex.clusters = s.ex.clusters
  grids : u.ex.grids = s.ex.grids
  matOps : u.ex.matOps = s.ex.matOps
  code : u.ex.code = s.ex.code
  ageMax : u.ex.ageMax = s.ex.ageMax
  matNarrow : u.ex.matNarrow = s.ex.matNarrow
  saved : u.ex.saved = s.ex.saved
  cores : ∀ n, { getCore u n with ports := [] } = { getCore s n with ports := [] }

/-- A lane after its word: registers, predicates and branch targets as given, the PC past the word and its hints, and
everything else of the thread as before. -/
structure LaneIs (c : Ctx) (t u : Thread) (r : Nat → Word) (p : PredIx → Bool) (b : BtIx → Bt) : Prop where
  regs : ∀ n, readReg u n = r n
  preds : ∀ q, readPred u q = p q
  bts : ∀ q, readBt u q = b q
  pc : u.pc = t.pc + BitVec.ofNat 32 c.words
  rest : u.rest = t.rest

/-- Every lane of a bundle ends as `f` says, and every other thread stays as it was. -/
structure Lanes (ks : List Nat) (s u : State) (f : Thread → Thread → Prop) : Prop where
  mine : ∀ k ∈ ks, ∀ t, getThread s k = some t → ∃ v, getThread u k = some v ∧ f t v
  others : ∀ k, k ∉ ks → getThread u k = getThread s k

/-- A word writes registers alone: it ends in a next state in which every lane of its bundle has the registers that `r`
gives, and nothing else has changed. -/
def WritesRegs (w : WordSpec) (i : Instr) (r : Ctx → State → Thread → Nat → Word) : Prop :=
  ∀ s c ks, Issues w c ks s → ∃ u, exec i s = .next u ∧ u.cur = none ∧ OnlyLanes s u ∧
    Lanes ks s u fun t v => LaneIs c t v (r c s t) (readPred t) (readBt t)

/-- A word writes predicates alone. -/
def WritesPreds (w : WordSpec) (i : Instr) (p : Ctx → State → Thread → PredIx → Bool) : Prop :=
  ∀ s c ks, Issues w c ks s → ∃ u, exec i s = .next u ∧ u.cur = none ∧ OnlyLanes s u ∧
    Lanes ks s u fun t v => LaneIs c t v (readReg t) (p c s t) (readBt t)

/-- One register written. -/
def set1 (t : Thread) (d : Reg) (x : Word) : Nat → Word := Function.update (readReg t) d.toNat x

/-- A pair written, low half in the first register. -/
def set2 (t : Thread) (d : Reg) (x : Nat) : Nat → Word :=
  Function.update (Function.update (readReg t) d.toNat (BitVec.ofNat 32 x)) (d.toNat + 1) (BitVec.ofNat 32 (x / 2 ^ 32))

/-- Consecutive registers written. -/
def setSpan (t : Thread) (d : Reg) (xs : List Word) : Nat → Word :=
  fun n => if d.toNat ≤ n ∧ n < d.toNat + xs.length then xs[n - d.toNat]?.getD 0 else readReg t n

/-- What the end of a word makes of a lane's thread: its PC and run position move on, and at the end of a run the run is
closed (R46, R52). -/
def finish (w : WordSpec) (c : Ctx) (t : Thread) : Thread :=
  let t : Thread := { t with grants := [], buf := [] }
  if w.ends ∨ Config.runWords ≤ t.runPos + c.words then endRun (advance t c.words) else advance t c.words

/-- One lane's thread ends as `v`, and the state is otherwise `s`, but for ports. -/
structure LaneEnds (k : Nat) (s : State) (v : Thread) (u : State) : Prop where
  only : OnlyLanes s u
  mine : getThread u k = some v
  others : ∀ j, j ≠ k → getThread u j = getThread s j

/-- A word in state `s`: where no check of the whole bundle stops it, it ends in a next state, which one lane after another
has reached from `start`; and each lane that executes it, in whatever state `u` it finds, does to its thread `t` what `post`
says. A word whose bundle has one lane does just that. -/
def LaneByLane (s : State) (w : WordSpec) (i : Instr) (pre : Ctx → List Nat → Prop) (start : List Nat → State)
    (post : Ctx → State → Nat → Thread → State → Prop) : Prop :=
  ∀ c ks, prelude w s = .go c ks → pre c ks → ∃ f : State → Nat → State,
    exec i s = .next (done (laneLoop f (start ks) ks)) ∧
    ∀ u k t, getThread u k = some t → ready u w t = true → post c u k (schedQuiet u c t) (f u k)

/-- In a bundle of one lane, whose thread is `t` (with the QUIET of the word's hints) and meets `ok`, the word completes: it ends
in a next state, in which the port issues it no longer and of which `post` holds. -/
def Completes (w : WordSpec) (i : Instr) (ok : Ctx → State → Nat → Thread → Prop) (post : Ctx → State → Nat → Thread → State → Prop) : Prop :=
  ∀ s c k t, Issues w c [k] s → getThread s k = some t → ok c s k (schedQuiet s c t) →
    ∃ u, exec i s = .next u ∧ u.cur = none ∧ post c s k (schedQuiet s c t) u

/-- No condition beside those of every word. -/
def always (_ : Ctx) (_ : List Nat) : Prop := True

/-- A word that accesses global memory, `n` bytes at `ea`: no lane goes on until every lane has its translation; then a lane
whose address lies outside the virtual space takes PAGE_PROT, one whose address is no multiple of `n` takes MISALIGN, one
without permission PAGE_PROT, and every other does what `post` says, at its address and with its translation (R238, R240). -/
def GlobalLanes (w : WordSpec) (i : Instr) (a : Acc) (n : Nat) (ea : Thread → Int)
    (post : Ctx → Nat → State → Nat → Thread → Nat → Leaf → State → Prop) : Prop :=
  ∀ s, LaneByLane s w i (fun _ ks => missing s w a n ea ks = []) (fun _ => { s with nextId := s.nextId + 1 }) fun c u k t v =>
    (ea t < 0 ∨ 2 ^ 57 ≤ ea t → v = deliver u k 0x08 ((ea t) % 2 ^ 57).toNat c.fpc) ∧
    (0 ≤ ea t → ea t < 2 ^ 57 → ea t % n ≠ 0 → v = deliver u k 0x06 (ea t).toNat c.fpc) ∧
    ∀ va : Nat, ea t = va → va < 2 ^ 57 → va % n = 0 →
      (xlate u k t a (gridOf u t).asid va = .prot → v = deliver u k 0x08 va c.fpc) ∧
      ∀ l, xlate u k t a (gridOf u t).asid va = .ok l → post c s.nextId (touchPage u k t (gridOf u t).asid va) k t va l v

/-- A lane accesses `n` bytes at the address `ea`, which is `va`, through the leaf `l`: no fault of R238 stands before it and its
translation is at hand. -/
structure AccessAt (s : State) (k : Nat) (t : Thread) (a : Acc) (n : Nat) (ea : Int) (va : Nat) (l : Leaf) : Prop where
  addr : ea = va
  inside : va < 2 ^ 57
  aligned : va % n = 0
  leaf : xlate s k t a (gridOf s t).asid va = .ok l

/-- In a bundle of one lane whose access stands and whose thread meets `ok`, a word that accesses global memory completes: it
ends in a next state, of which what `post` says of its lane holds. -/
def GlobalCompletes (w : WordSpec) (i : Instr) (a : Acc) (n : Nat) (ea : Thread → Int) (ok : Thread → Prop)
    (post : Ctx → Nat → State → Nat → Thread → Nat → Leaf → State → Prop) : Prop :=
  ∀ s c k t va l, Issues w c [k] s → getThread s k = some t → AccessAt s k t a n (ea t) va l → ok t →
    let t' := schedQuiet s c t
    ∃ u, exec i s = .next u ∧ u.cur = none ∧
      post c s.nextId (touchPage { s with nextId := s.nextId + 1 } k t' (gridOf s t').asid va) k t' va l u

/-- A lane after a load of `n` bytes: outside a transaction it is outstanding, at the thread's snapshot where there is one and
the place has versions; inside one, a line of this package has been read in the transaction's view, and another place aborts
it; a load of a place that R233 excludes from a snapshot or a transaction is marked, for SNAPX (R228, R232 to R234, R243). `f` is
the end of the word. -/
def LoadIssued (c : Ctx) (wid : Nat) (u : State) (k : Nat) (t : Thread) (va : Nat) (l : Leaf) (n : Nat) (form : LoadForm) (d : Reg) (r : Nat)
    (f : Thread → Thread) (v : State) : Prop :=
  let loc := locOf l (gridOf u t).asid va
  let o : Op := { newOp c wid u.nextId t .ld (.load form) va loc n with zf := l.zf, dest := d.toNat, dlen := r }
  let next : State := { u with nextId := u.nextId + 1 }
  (revokedNow t = true → versioned loc = true → v = deliver (setThread next k (clearRevoked t)) k 0x11 va c.fpc) ∧
  (revokedNow t = false → t.tx.depth = 0 → versioned loc = true → LaneEnds k next (f (addOp t { o with snap := readSnap t })) v) ∧
  (t.tx.depth = 0 → versioned loc = false → LaneEnds k next (f (addOp t { o with excl := (readSnap t).isSome })) v) ∧
  (revokedNow t = false → 0 < t.tx.depth → (∃ a b, loc = .window a b) →
    LaneEnds k next (f (addOp t { o with snap := readSnap t, inTx := true })) v) ∧
  (revokedNow t = false → 0 < t.tx.depth → ∀ pa, loc = .here pa →
    let a := (txView next t pa n l.zf).1
    LaneEnds k (uncounted o.cold next (txView next t pa n l.zf).2) (f (addOp { t with pts := max t.pts a.ts }
      { o with inTx := true, performed := true, visible := true, value := a.value, poisoned := a.poison })) v) ∧
  (0 < t.tx.depth → versioned loc = false → LaneEnds k next (f (addOp (abortTx t 3) { o with excl := true, inTx := true })) v)

/-- A lane after a store of `n` bytes: outside a transaction it is outstanding; inside one its bytes are in the write set, or
the transaction is aborted; it is counted on st in each case (R234, R244, R395). -/
def StoreIssued (c : Ctx) (wid : Nat) (u : State) (k : Nat) (t : Thread) (va : Nat) (l : Leaf) (n : Nat) (kind : OpKind) (ws : Nat → Thread)
    (f : Thread → Thread) (v : State) : Prop :=
  let loc := locOf l (gridOf u t).asid va
  let next : State := { u with nextId := u.nextId + 1 }
  (t.tx.depth = 0 → LaneEnds k next (f (addOp t (newOp c wid u.nextId t .st kind va loc n))) v) ∧
  (0 < t.tx.depth → ∀ pa, loc = .here pa → LaneEnds k next (f (addDone (ws pa) u.nextId .st)) v) ∧
  (0 < t.tx.depth → (∀ pa, loc ≠ .here pa) → LaneEnds k next (f (addDone (abortTx t 3) u.nextId .st)) v)

/-- A lane after an atomic or CAS of `n` bytes (R234, R247 to R249). -/
def RmwIssued (c : Ctx) (wid : Nat) (u : State) (k : Nat) (t : Thread) (va : Nat) (l : Leaf) (n : Nat) (g : Rmw) (x : Nat) (d : Reg) (r : Nat)
    (f : Thread → Thread) (v : State) : Prop :=
  let loc := locOf l (gridOf u t).asid va
  let o : Op := { newOp c wid u.nextId t .ld (.rmw g x) va loc n with dest := d.toNat, dlen := r }
  let next : State := { u with nextId := u.nextId + 1 }
  (t.tx.depth = 0 → LaneEnds k next (f (addOp t o)) v) ∧
  (0 < t.tx.depth → ∀ pa, loc = .here pa →
    let a := (txView next t pa n false).1
    let t' := if a.poison = false ∧ g.writes a.value = true then enterWs t pa (natLe n (g.apply a.value x)) else t
    LaneEnds k (uncounted o.cold next (txView next t pa n false).2) (f (addOp { t' with pts := max t'.pts a.ts }
      { o with inTx := true, performed := true, visible := true, value := a.value, poisoned := a.poison })) v) ∧
  (0 < t.tx.depth → (∀ pa, loc ≠ .here pa) → LaneEnds k next (f (addOp (abortTx t 3)
    { o with kind := .load (if n = 8 then .w64 else .w32), inTx := true })) v)

/-- A lane after a RADD of `n` bytes: outside a transaction it is outstanding; inside one its elements are in the write set, with no
access to memory, or the transaction is aborted; it is counted on st in each case (R234, R250, R395). -/
def RaddIssued (c : Ctx) (wid : Nat) (u : State) (k : Nat) (t : Thread) (va : Nat) (l : Leaf) (n : Nat) (g : RaddKind) (x : Nat)
    (f : Thread → Thread) (v : State) : Prop :=
  let loc := locOf l (gridOf u t).asid va
  let next : State := { u with nextId := u.nextId + 1 }
  (t.tx.depth = 0 → LaneEnds k next (f (addOp t (newOp c wid u.nextId t .st (.radd g x) va loc n))) v) ∧
  (0 < t.tx.depth → ∀ pa, loc = .here pa → LaneEnds k next (f (addDone (enterRadd t pa g x) u.nextId .st)) v) ∧
  (0 < t.tx.depth → (∀ pa, loc ≠ .here pa) → LaneEnds k next (f (addDone (abortTx t 3) u.nextId .st)) v)

/-- A thread that waited at a join has completed its word, with the registers that `t` has (R147, R336). -/
def JoinsWith (e : Nat × Thread) (v : State) (t : Thread) : Prop :=
  getThread v e.1 = some (completeWait t (heldWords e.2))

/-- The participants of a lane's group once the lane waits at the word `i` (R146, R147). -/
def joining (c : Ctx) (s : State) (k : Nat) (t : Thread) (i : Instr) : List (Nat × Thread) :=
  participants (setThread s k (waiting c t .join i)) t.team t.group

/-- Every participant of a lane's group waits at the word `i`, which the lane reaches last (R147). -/
structure AllAtWord (c : Ctx) (s : State) (k : Nat) (t : Thread) (i : Instr) (l : List (Nat × Thread)) : Prop where
  mine : (k, waiting c t .join i) ∈ l
  listed : s.ex.threads.Pairwise fun x y => x.1 < y.1
  all : ∀ e ∈ l, e.2.st = .waiting ∧ e.2.waitOn = .join ∧ e.2.dstop = false ∧ e.2.waitPc = (waiting c t .join i).waitPc ∧
    e.2.held.map (·.instr) = some i

/-- A lane of thread `t` that reaches the collective word `i`: it waits where some participant of its group does not wait at
the word; where it is the last one, `res` says what becomes of each participant, from the values of all and its own (R146 to
R148). The threads are listed in ascending number, and a group lane is below 64. -/
def JoinReached (c : Ctx) (u : State) (k : Nat) (t : Thread) (v : State) (i : Instr) (res : Nat × Thread → List Part → Part → Prop) : Prop :=
  let w := waiting c t .join i
  let l := participants (setThread u k w) t.team t.group
  u.ex.threads.Pairwise (fun x y => x.1 < y.1) → (∀ e ∈ u.ex.threads, e.2.glane < 64) →
  ((∃ e ∈ l, e.2.st ≠ .waiting) → (∀ e ∈ l, e.2.waitOn ≠ .gjoin) → (∀ e ∈ l, ∀ m d a, e.2.held.map (·.instr) ≠ some (.ddx m d a)) → LaneEnds k u w v) ∧
  ((∀ e ∈ l, e.2.st = .waiting ∧ e.2.waitOn = .join ∧ e.2.dstop = false ∧ e.2.waitPc = w.waitPc ∧ e.2.held.map (·.instr) = some i) →
    ∀ e ∈ l, ∀ p ∈ partsOf i l, p.g = e.2.glane → res e (partsOf i l) p)

/-- The matrix operation that a completed join of a word with the parts `p` starts (R166 to R168). -/
def joinedOp (u : State) (t : Thread) (l : List (Nat × Thread)) (p : BitVec 3 × Reg × Reg × Reg × Bool × Bool) : MatOp :=
  matOpOf u l t.team t.group (coreOf ((l.head?.map (·.1)).getD 0)) ((gridOf u t).slot p.1.toNat) p

/-- The metadata of a participant of a sparse word is valid (R172). -/
def MetaValid (u : State) (t : Thread) (l : List (Nat × Thread)) (p : BitVec 3 × Reg × Reg × Reg × Bool × Bool) (e : Nat × Thread) : Prop :=
  p.2.2.2.2.1 = true → metaOk ((gridOf u t).slot p.1.toNat) ((tget (joinedOp u t l p).mask e.2.glane).getD []) = true

/-- One matrix operation enters its engine, where the oldest one runs in the mode of its start, memory stays, and every participant
completes its word, with its D span pending (R168, R169). -/
structure MatrixStarts (u : State) (t : Thread) (l : List (Nat × Thread)) (p : BitVec 3 × Reg × Reg × Reg × Bool × Bool) (v : State) : Prop where
  mm : v.mm = u.mm
  ops : v.ex.matOps = (startEngine { u with ex := { u.ex with matOps := tset u.ex.matOps u.nextId (joinedOp u t l p) } }
    (joinedOp u t l p).core (joinedOp u t l p).engine).ex.matOps
  each : ∀ e ∈ l, ∃ n, getThread v e.1 = some (completeWait { e.2 with ops := e.2.ops ++
    [{ id := n, wid := n, cnt := .uncounted, kind := .matrix u.nextId, dest := p.2.1.toNat, dlen := 8, performed := true }] } (heldWords e.2))

/-- A lane that reaches a word of the MMA family, whose parts are `p`: where every participant of its group waits at it, one
matrix operation starts and every participant completes the word with D pending; or none where metadata is not valid
(R147, R166, R168, R172). -/
def MatrixJoin (c : Ctx) (u : State) (k : Nat) (t : Thread) (v : State) (i : Instr) (p : BitVec 3 × Reg × Reg × Reg × Bool × Bool) : Prop :=
  let l := joining c u k t i
  AllAtWord c u k t i l →
    ((∃ e ∈ l, ¬ MetaValid u t l p e) → v.ex.matOps = u.ex.matOps) ∧
    ((∀ e ∈ l, MetaValid u t l p e) → MatrixStarts u t l p v)

/-- A lane has read elements of tile `x`, which lie at the offsets `offs` of its data area: the registers from `d` on hold `vals`,
and its pts joins the stamps of the elements' blocks, but under a snapshot; nothing else of it changes but its operations (R346,
R351, R352). -/
def TileLoaded (c : Ctx) (u : State) (j : Nat) (t : Thread) (v : State) (w : WordSpec) (d : Nat) (x : Tile) (offs : List Nat) (vals : List Word) : Prop :=
  ∃ y n, LaneEnds j { u with nextId := n } (finish w c y) v ∧ u.nextId ≤ n ∧
    (∀ m, readReg y m = if d ≤ m ∧ m < d + vals.length then (vals[m - d]?).getD 0 else readReg t m) ∧
    y.preds = t.preds ∧ y.bts = t.bts ∧ t.pts ≤ y.pts ∧
    ((fillSnap u t.team).isSome = true → y.pts = t.pts) ∧
    ((fillSnap u t.team).isSome = false → ∀ o ∈ offs, ((tget x.blocks (o / 128)).getD (0, 0)).1 ≤ y.pts)

/-- Where the elements of the window among `els` lie in a tile's data area. -/
def offsOf (x : Tile) (els : List (List Int)) : List Nat := (els.filter (inWindow x.desc)).map fun i => elemIndex x.desc i * tileEs x.desc

/-- No word of a team's stash that holds one of the elements at `offs` of a tile is in error, and no such element is poisoned (R352,
R387). -/
def TileClean (tm : Team) (x : Tile) (offs : List Nat) : Prop :=
  ∀ o ∈ offs, stashPoison tm (x.doff + o) (tileEs x.desc) = false ∧ o ∉ x.poisoned

/-- A lane after a word that reads elements of tile `k`: the faults of R351 and R387, or the registers from `d` on written,
where no element is poisoned. -/
def ReadsTile (c : Ctx) (u : State) (j : Nat) (t : Thread) (v : State) (w : WordSpec) (k d : Nat) (els : List (List Int))
    (val : Team → Tile → List Word) : Prop :=
  let tm := getTeam u t.team
  match tget tm.tiles k with
  | none => v = deliver u j 0x0A 0 c.fpc
  | some x =>
    if ∃ o ∈ offsOf x els, stashPoison tm (x.doff + o) (tileEs x.desc) = true then v = deliver u j 0x17 0 c.fpc
    else TileClean tm x (offsOf x els) → TileLoaded c u j t v w d x (offsOf x els) (val tm x)

/-- A lane has issued the stores `l`, element and value, to tile number `k`: one operation for each, in order, outside any
transaction; no register and no byte of memory changes (R347, R348, R351, R352). -/
def TileIssued (c : Ctx) (u : State) (j : Nat) (t : Thread) (v : State) (w : WordSpec) (k : Nat) (x : Tile) (l : List (List Int × Nat)) : Prop :=
  ∃ y s, LaneEnds j s (finish w c y) v ∧ s.mm = u.mm ∧ y.regs = t.regs ∧ y.preds = t.preds ∧ y.pts = t.pts ∧ y.tx = t.tx ∧
    y.ops.take t.ops.length = t.ops ∧
    (y.ops.drop t.ops.length).map (fun o => (o.va, o.size, o.kind, o.cnt, o.tile, o.inTx)) =
      l.map fun e => ((elemAddr x.desc e.1).toNat, tileEs x.desc, .store (e.2 % 2 ^ (8 * tileEs x.desc)), .st, some k, false)

/-- A lane has the translation of every store of `l`, with permission. -/
def StoresReach (u : State) (j : Nat) (t : Thread) (x : Tile) (l : List (List Int × Nat)) : Prop :=
  ∀ e ∈ l, ∃ lf, xlate u j t .tileStore (gridOf u t).asid (elemAddr x.desc e.1).toNat = .ok lf

/-- A lane after a word that stores elements of tile `x`, number `k` (R347, R351, R352). -/
def TileStored (c : Ctx) (u : State) (j : Nat) (t : Thread) (v : State) (w : WordSpec) (k : Nat) (x : Tile) (els : List (List Int))
    (vals : List Nat) : Prop :=
  let l := elemStores x.desc els vals
  let va (e : List Int × Nat) : Nat := (elemAddr x.desc e.1).toNat
  (∀ e, l.find? (fun e => xlate u j t .tileStore (gridOf u t).asid (va e) == .prot) = some e → v = deliver u j 0x08 (va e) c.fpc) ∧
  (StoresReach u j t x l → TileIssued c u j t v w k x l)

/-- A SYSOP: in each lane it takes PRIV where its grid's ASID is not 0; otherwise `post` gives, from the state, the lane and the
four argument words, the status and the state after the operation, and the lane, which still stands there, completes with the status
in D and the operation counted on ld (R385); only where `gone` holds, as it does of a thread whose own grid is ended, has the
operation removed the thread. A word that accesses memory goes on once no lane `waits` for a page or for the host path. -/
def SysopLanes (w : WordSpec) (i : Instr) (a d : Reg) (post : State → Nat → Args → Nat → State → Prop)
    (gone : State → Nat → Args → Prop := fun _ _ _ => False) (waits : State → Args → Bool := fun _ _ => false) : Prop :=
  ∀ s, LaneByLane s w i (fun _ ks => ∀ k ∈ ks, sysWaits w a waits s k = false) (fun _ => s) fun c u k t v =>
    ((gridOf u t).asid ≠ 0 → v = deliver u k 0x13 0 c.fpc) ∧
    ((gridOf u t).asid = 0 → ∃ st u', post (setThread { u with nextId := u.nextId + 1 } k t) k (fun j => (readReg t (a.toNat + j)).toNat) st u' ∧
      ((∃ t', getThread u' k = some t' ∧ LaneEnds k u' (finish w c (addDone (writeReg t' d.toNat (BitVec.ofNat 32 st)) u.nextId .ld)) v) ∨
        (gone u k (fun j => (readReg t (a.toNat + j)).toNat) ∧ getThread u' k = none ∧ ∀ j, getThread v j = getThread u' j)))

/-- A SYSOP of a bundle of one lane in a grid of ASID 0 whose arguments meet `ok` completes with the status OK and the effect
`post`: the lane goes on with the status in D, and the operation counted on ld (R385). -/
def SysopCompletes (w : WordSpec) (i : Instr) (a d : Reg) (ok : State → Nat → Args → Prop) (post : State → Nat → Args → Nat → State → Prop)
    (waits : State → Args → Bool := fun _ _ => false) : Prop :=
  ∀ s c k t, Issues w c [k] s → getThread s k = some t → (gridOf s t).asid = 0 →
    let t' := schedQuiet s c t
    let u := setThread { s with nextId := s.nextId + 1 } k t'
    let x : Args := fun j => (readReg t (a.toNat + j)).toNat
    waits s x = false → ok u k x → ∃ z v y, exec i s = .next z ∧ z.cur = none ∧ post u k x 0 v ∧ getThread v k = some y ∧
      LaneEnds k v (finish w c (addDone (writeReg y d.toNat 0) s.nextId .ld)) z

/-- A prefetch changes the words of code that a core holds, and what it has read on the host path, and nothing else (R181, R187,
R308). -/
def Prefetched (s u : State) : Prop :=
  u = { s with ex := { s.ex with code := u.ex.code }, fa := { s.fa with path := u.fa.path }, bd := { s.bd with perf := u.bd.perf } }

/-- The lines stand in ascending order, a line's deltas are of its own elements, and no line of host memory has any. -/
structure LinesOk (s : State) : Prop where
  sorted : s.mm.lines.Pairwise fun a b => a.1 < b.1
  elems : ∀ e ∈ s.mm.lines, ∀ d, e.2.delta = some d → ∀ x ∈ d.elems, x.1 < 32
  host : ∀ e ∈ s.mm.lines, isHost (e.1 * 128) = true ∨ e.1 = 0xFFFFFFFFFF → e.2.delta = none

/-- The lines that `f` selects have been flushed: each holds what stood there, its bytes with its deltas, and every other byte of memory
is as it was; a line whose deltas went is written back, the answers that they owed are due, and every other line is as it was
(R222, R250, R251). -/
structure Flushed (f : Nat → Bool) (s u : State) : Prop where
  bytes : ∀ ln, mread u.mm.mem (ln * 128) 128 = mread (if f ln then (foldLine s ln).mm.mem else s.mm.mem) (ln * 128) 128
  lines : ∀ ln, getLine u ln = if f ln = true ∧ (getLine s ln).delta.isSome = true then { getLine s ln with delta := none, back := none } else getLine s ln
  due : ∀ x, x ∈ u.fa.due ↔ x ∈ s.fa.due ∨ ∃ e ∈ s.mm.lines, f e.1 = true ∧ ∃ d, e.2.delta = some d ∧ x ∈ d.owe
  rest : u = { s with mm := u.mm, fa := { s.fa with due := u.fa.due }, bd := { s.bd with perf := u.bd.perf } }
  others : u.mm = { s.mm with mem := u.mm.mem, lines := u.mm.lines }

/-- An agent that translates through `x` reaches the bytes at `va`: the page that it holds, or the walk that it may make now,
gives a page of this package that allows the access and is no gather window and no zero-fill page; the bytes stand at `pa`, and where
that is in host memory the host path is open (R292, R306, R307, R362 to R370). -/
def Reaches (s : State) (x : Via) (a : Acc) (asid va pa : Nat) : Prop :=
  va < 2 ^ 57 ∧ ∃ l, walkNow s x a asid va = .leaf l ∧ l.gather = false ∧ l.remote = false ∧ l.zf = false ∧
    (isHost l.frame = true ∨ isHost (l.frame + va % pageBytes l.size) = true → hostPathOpen s = true) ∧ pa = l.frame + va % pageBytes l.size

/-- The value of `n` bytes at `pa`, with the pending deltas of their line (R222, R250). -/
def standing (s : State) (pa n : Nat) : Nat := leNat (mread (foldLine s (pa / 128)).mm.mem pa n)

/-- Bytes were stored at `pa`; where the line had no pending deltas, nothing else of memory has changed. -/
def Stored (s u : State) (pa : Nat) (bs : List Byte) : Prop :=
  mread u.mm.mem pa bs.length = bs ∧
    ((getLine s (pa / 128)).delta = none → ∀ a, a < pa ∨ pa + bs.length ≤ a → mget u.mm.mem a = mget s.mm.mem a)

/-- A request of another package is one that this package performs: it stands on a port that is up, holds no reserved value, its
peer is not frozen, and it has not been performed before (R309, R310, R315, R318). -/
def Received (s : State) (port : Nat) (f : Frame) (op : Nat) : Prop :=
  isRequest s port f op = true ∧ badFrame f = false ∧ (getPeer s f.spkg).frozen = false ∧ tget (getPeer s f.spkg).received f.seq = none

/-- A request that is received reaches `n` bytes at `pa`, within one line: its page is exported to its address space, and
the host path is open where the bytes stand in host memory (R306, R307, R311). -/
def Granted (s : State) (port : Nat) (f : Frame) (op : Nat) (a : Acc) (n pa : Nat) : Prop :=
  Received s port f op ∧ f.addr % 128 + n ≤ 128 ∧ pa % 128 + n ≤ 128 ∧ 0 < n ∧
    ∃ l, walkNow s { die := 0 } a f.asid f.addr = .leaf l ∧ l.gather = false ∧ l.remote = false ∧ l.zf = false ∧
      exported s f.asid f.addr f.spkg f.rasid l = true ∧ (isHost l.frame = true ∨ isHost pa = true → hostPathOpen s = true) ∧
      pa = l.frame + f.addr % pageBytes l.size

/-- A card is at work: started, with accesses still to make (R290). -/
def Works (s : State) (card : Nat) (k : JobKind) (c : Card) : Prop :=
  tget s.en.cards card = some c ∧ c.kind = k ∧ c.started = true ∧ c.frozen = none ∧ c.worked = false ∧ c.finished = false

/-- A node of a graph in flight has fired and may run now (R360). -/
def NodeFires (s : State) (die n kind : Nat) (g : Graph) (x : GNode) : Prop :=
  getNode s die n = some x ∧ tget s.qu.graphs x.graph = some g ∧ nodeKind x.bits = kind ∧ x.complete = false ∧ x.launched = none ∧
    (x.running = true ∨ (0 < x.fired ∧ inReadyQueue s die x = true)) ∧ tget x.buf 0 = none

/-- A grid may complete now: all its teams are freed, its completion word is not under way, and, but for a grid that was ended, no
write of a freed team is in flight (R335, R357). -/
def Finishing (s : State) (grid : Nat) (g : Grid) : Prop :=
  tget s.ex.grids grid = some g ∧ grid < Config.grids ∧ allFreed s grid g = true ∧ ownRequests s (.grid grid) = [] ∧
    (g.ended = true ∨ (lateOf s grid).any (threadOwes s) = false)

/-- Thread `k` is the one of linear index `i` of a team that has just been placed on a core: in its home lane, at ENTRY, READY, with no
register, predicate or operation of an earlier thread (R78, R79, R216, R324, R325). -/
def AtEntry (g : Grid) (team core i k : Nat) (t : Thread) : Prop :=
  coreOf k = core ∧ k % 64 = i % 64 ∧ t.team = team ∧ t.pc = BitVec.ofNat 32 g.entry ∧ t.group = i / g.width ∧ t.glane = i % g.width ∧
    t.hlane = i % 64 ∧ t.st = .ready ∧ t.regs = [] ∧ t.tvalid = [] ∧ t.preds = [] ∧ t.bts = [] ∧ t.ops = [] ∧ t.depth = 0 ∧
    t.pts = (if g.snapFlag then g.stamp + 1 else g.stamp)

/-- One operation of a word is the only one that its word has still to perform on its line, and the thread's earlier ones are
performed (R218, R240). -/
def Alone (s : State) (wid line k : Nat) (t : Thread) (o : Op) (f : Op → Bool) : Prop :=
  wordOps s wid line f = [(k, o)] ∧ getThread s k = some t ∧ findOp t o.id = some o ∧ o.snap = none ∧ o.zf = false ∧ earlierDone t o.id = true ∧
    t.held = none ∧ t.waitOn = .nothing

end Sys2Proof.Machine
end

