-- ==== Sys2Proof/Certificates/Slice0/Obligations.lean ====
section
/-! DEFINITION. Obligations.lean: the statements for the provers. -/

open Sys2Proof Sys2Proof.Machine

/-- O1. Every well-formed instruction is read back from its word (spec/03_encoding.md, R46, R48, R58, R59). For every instruction that is well formed and has a word (every row of the map, all operands at every value), the decoder reads from the word's four bytes, whatever bytes follow, exactly that instruction, and leaves those bytes. -/
def Obligations.DecodingReadsBackEncoding : Prop :=
  ∀ i : Instr, Sys2Proof.Laws.Encodes.Statement i

/-- O2. Words written out from the encoding tables decode to their instructions (spec/03_encoding.md, R48, R61, R62, R63, R64, R65, R66, R67, R68, R69, R70). One word or more of each class, its fields set by hand from the map, with the instruction that it stands for. -/
def Obligations.WordsOfTheMap : Prop :=
  decode (bytesOfWord 0x00218082) = .ok (.instr (.iadd .sati 6 1 2), []) ∧
  decode (bytesOfWord 0x100403F0) = .ok (.instr (.movi 2 0x3F0), []) ∧
  decode (bytesOfWord 0x1B7E0201) = .ok (.instr (.lea64 3 120 4 1), []) ∧
  decode (bytesOfWord 0x20004103) = .ok (.instr (.fadd .rne 1 2 3), []) ∧
  decode (bytesOfWord 0x38214300) = .ok (.instr (.rroot 5 6), []) ∧
  decode (bytesOfWord 0x40604103) = .ok (.instr (.shfl .flip 1 2 3), []) ∧
  decode (bytesOfWord 0x53883C08) = .ok (.instr (.icmp64 .ltN 2 0 120 8), []) ∧
  decode (bytesOfWord 0x5741C308) = .ok (.instr (.pick 2 7 6 8), []) ∧
  decode (bytesOfWord 0x55028000) = .ok (.instr (.pget 10), []) ∧
  decode (bytesOfWord 0x6541047F) = .ok (.instr (.ld64 2 4 8 0x7F), []) ∧
  decode (bytesOfWord 0x73208206) = .ok (.instr (.cas .w64 2 4 6), []) ∧
  decode (bytesOfWord 0x82620818) = .ok (.instr (.mmaSp 3 8 16 24), []) ∧
  decode (bytesOfWord 0x900BFF00) = .ok (.instr (.wait 2 63 15 0), []) ∧
  decode (bytesOfWord 0x92200500) = .ok (.instr (.job .sort 10), []) ∧
  decode (bytesOfWord 0x99000007) = .ok (.instr (.trap 7), []) ∧
  decode (bytesOfWord 0x9A000000) = .ok (.instr (.brkpt), []) ∧
  decode (bytesOfWord 0xA26A0000) = .ok (.instr (.xfer 3 2 true), []) ∧
  decode (bytesOfWord 0xC0208184) = .ok (.instr (.fmac 1 2 3 4), []) ∧
  decode (bytesOfWord 0xE0604104) = .ok (.instr (.imad 3 1 2 4), [])

/-- O3. A step executes the instruction whose bytes stand at the PC, or the event that comes next (spec/03_encoding.md, spec/09_transfer.md, R46, R54, R188, R330, R332, R337, R403, R412). Where the next move is a port's and the package runs: the port's bundle stands at a PC whose page its core holds with X permission, and the four bytes there decode to an instruction; then the step is exec of that instruction, in the state in which the port is issuing it and the core holds the word, under its location; a word of host memory is read by the host path, which is open. Around it the step counts the issued words, ends a single step, and evaluates serial mode once the word is over. With one hint word before it, the same of the word after the hint, with that hint. Where an enabled comparator of the core matches the PC, the bundle's groups stop instead. Where the next move is a happening of the rest of the package and power allows it, the step is exec of it, with no word issuing; otherwise nothing is executed. -/
def Obligations.StepRunsTheDecodedInstruction : Prop :=
  (∀ s rest i, s.agenda = .event i :: rest → let s0 : State := { s with agenda := rest }
    (eventAllowed s i = true → step s = mapNext (settleSerial s0) (exec i { s0 with cur := none })) ∧
    (eventAllowed s i = false → step s = .next (settleSerial s0 s0))) ∧
  ∀ s rest core port ks k t l, s.agenda = .issue core port false :: rest → mayIssue s = true →
    bundle s core port = k :: ks → getThread s k = some t → codeAddr (gridOf s t) t.pc < 2 ^ 57 →
    let s0 : State := { s with agenda := rest }
    (port < 4 → debugHit s (coreOf k) (gridOf s t) t.pc = true → step s = .next (settleSerial s0 (debugMatch s0 (k :: ks)))) ∧
    let va := codeAddr (gridOf s t) t.pc
    let pa := l.frame + va % pageBytes l.size
    debugHit s (coreOf k) (gridOf s t) t.pc = false → xlate s0 k t .fetch (gridOf s t).asid va = .ok l → l.zf = false → linePoison s pa = false →
    (isHost pa = true → hostPathOpen s = true) →
    let held (x : State) (pa : Nat) (pc : Word) : State := holdCode (readHost x pa 4) (coreOf k) (codeLoc (gridOf s t) pc) (codeWord s l pa)
    (∀ i, decode (mread s.mm.mem pa 4) = .ok (.instr i, []) →
      let s1 : State := { held s0 pa t.pc with cur := some { core := core, port := port, hints := [], fpc := t.pc } }
      step s = mapNext (settleSerial s0) (mapNext (afterUnit core port 1 s1) (exec i s1))) ∧
    (∀ h i, decode (mread s.mm.mem pa 4) = .ok (.hint h, []) → codeAddr (gridOf s t) (t.pc + 1) < 2 ^ 57 →
      let va2 := codeAddr (gridOf s t) (t.pc + 1)
      let pa2 := l.frame + va2 % pageBytes l.size
      debugHit s (coreOf k) (gridOf s t) (t.pc + 1) = false → xlate s0 k t .fetch (gridOf s t).asid va2 = .ok l → linePoison s pa2 = false →
      (isHost pa2 = true → hostPathOpen s = true) → decode (mread s.mm.mem pa2 4) = .ok (.instr i, []) →
      let s1 : State := { held (held s0 pa t.pc) pa2 (t.pc + 1) with
          cur := some { core := core, port := port, hints := [h], fpc := t.pc } }
      step s = mapNext (settleSerial s0) (mapNext (afterUnit core port 2 s1) (exec i s1)))

/-- O4. The faults of a word before its effect: ILLEGAL_OP, ILLEGAL_HINT, REG_RANGE, TEMP_UNDEF and FORMAT_SLOT; and which temporaries are defined (spec/03_encoding.md, spec/02_numbers.md, R38, R51, R54, R57, R58, R59). Where the four bytes at the PC of a bundle are no word of the map, the step executes no instruction: every thread of the bundle takes the fault ILLEGAL_OP with FPC at that word, and memory stays. A thread that is alone in the bundle keeps its registers and predicates. Of the words that these clauses name: a hint of a kind that the word does not take, and the want of one that it requires, are ILLEGAL_HINT in every thread of the bundle; a register at or above the thread's count that is no temporary, and an odd register where a pair is named, are REG_RANGE in every thread; in a lane that reads a temporary which nothing has written in its run, TEMP_UNDEF; in a lane whose launch gives the slot no conversion, FORMAT_SLOT; each with FPC at the first word of the hint sequence. A word that writes a temporary defines it and no other, until its run ends, which leaves none defined; a write of another register, and a compare, change none. -/
def Obligations.ReservedWordFaults : Prop :=
  (∀ s rest core port ks k t l e, s.agenda = .issue core port false :: rest → mayIssue s = true → port < 4 →
    bundle s core port = k :: ks → getThread s k = some t → debugHit s (coreOf k) (gridOf s t) t.pc = false → codeAddr (gridOf s t) t.pc < 2 ^ 57 →
    let s0 : State := { s with agenda := rest }
    let va := codeAddr (gridOf s t) t.pc
    let pa := l.frame + va % pageBytes l.size
    xlate s0 k t .fetch (gridOf s t).asid va = .ok l → l.zf = false → linePoison s pa = false → (isHost pa = true → hostPathOpen s = true) →
    decode (mread s.mm.mem pa 4) = .error e →
    ∃ u, step s = .next u ∧ u = settleSerial s0 (faultAll (holdCode (readHost s0 pa 4) (coreOf k) (codeLoc (gridOf s t) t.pc) (codeWord s l pa)) (k :: ks) 0x01 t.pc) ∧
      u.mm = s.mm ∧ (ks = [] → ∃ x, getThread u k = some x ∧ x.fcode = 0x101 ∧ x.fpc = t.pc ∧ x.regs = t.regs ∧ x.preds = t.preds)) ∧
  (∀ m d a b s x, s.cur = some x → (bundle s x.core x.port).filterMap (getThread s) ≠ [] → (∃ h ∈ x.hints, h.kind ≠ 5) →
    exec (.iadd m d a b) s = .next (done (faultAll s (bundle s x.core x.port) 0x02 x.fpc))) ∧
  (∀ d a s x, s.cur = some x → (bundle s x.core x.port).filterMap (getThread s) ≠ [] → (∀ h ∈ x.hints, h.kind ≠ 2) →
    exec (.cld d a) s = .next (done (faultAll s (bundle s x.core x.port) 0x02 x.fpc))) ∧
  (∀ m d a b s x t ts, s.cur = some x → (bundle s x.core x.port).filterMap (getThread s) = t :: ts → x.hints = [] → (gridOf s t).regs ≤ 120 →
    (∃ r ∈ [d, a, b], (gridOf s t).regs ≤ r.toNat ∧ r.toNat < 120) → exec (.iadd m d a b) s = .next (done (faultAll s (bundle s x.core x.port) 0x05 x.fpc))) ∧
  (∀ d a b s x t ts, s.cur = some x → (bundle s x.core x.port).filterMap (getThread s) = t :: ts → x.hints = [] →
    (∃ r ∈ [d, a, b], r.toNat % 2 = 1) → exec (.add64 d a b) s = .next (done (faultAll s (bundle s x.core x.port) 0x05 x.fpc))) ∧
  (∀ m d a b s c ks, prelude (opSpec [sp1 a, sp1 b] [sp1 d]) s = .go c ks → ∃ f : State → Nat → State, exec (.iadd m d a b) s = .next (done (laneLoop f s ks)) ∧
    ∀ u k t, getThread u k = some t → readPred t 0 = true → (∃ r ∈ [a, b], 120 ≤ r.toNat ∧ tget t.tvalid r.toNat ≠ some true ∧ t.bad.any (Bad.covers t r.toNat) = false) →
      f u k = deliver u k 0x03 0 c.fpc) ∧
  (∀ n d a b s c ks, let w : WordSpec := { opSpec [sp1 a, sp1 b] [sp1 d] with hints := [4], slotOk := cvtSlot n }
    prelude w s = .go c ks → ∃ f : State → Nat → State, exec (.cvtn n d a b) s = .next (done (laneLoop f s ks)) ∧
    ∀ u k t, getThread u k = some t → readPred t 0 = true → tempUndef w t = false → cvtSlot n (gridOf u t) = false → f u k = deliver u k 0x10 0 c.fpc) ∧
  (∀ m d a b s c k t, Issues (opSpec [sp1 a, sp1 b] [sp1 d]) c [k] s → getThread s k = some t → ∃ u v, exec (.iadd m d a b) s = .next u ∧ getThread u k = some v ∧
    ∀ n, tget v.tvalid n = if Config.runWords ≤ t.runPos + c.words then none else if n = d.toNat ∧ 120 ≤ n then some true else tget t.tvalid n) ∧
  (∀ e pd pc a b s c k t, Issues (opSpec [sp1 a, sp1 b] []) c [k] s → getThread s k = some t → ∃ u v, exec (.icmp e pd pc a b) s = .next u ∧ getThread u k = some v ∧
    ∀ n, tget v.tvalid n = if Config.runWords ≤ t.runPos + c.words then none else tget t.tvalid n)

/-- O5. The state after cold reset (spec/10_memories.md, spec/21_module.md, R209, R217, R413, R414). Memory reads zero everywhere, host memory too, as the model has it (notes/assumptions/4.md), and every stamp is 0; no thread, team, grid, job, graph, snapshot, translation or request stands; queue 0 exists with ASID 0, empty, not frozen, and its queue pair is open with ASID 0; the clock, the event queue, Boxwood and POSTED are empty; power is on. The ring base, size and key of queue 0, its priority and the flash images are the model's choice (notes/assumptions/6.md), and nothing is said of them. -/
def Obligations.ResetState : Prop :=
  (∀ pa n, leNat (mread State.reset.mm.mem pa n) = 0) ∧ (∀ ln, (getLine State.reset ln).wts = 0 ∧ (getLine State.reset ln).rts = 0) ∧
  State.reset.ex.threads = [] ∧ State.reset.ex.teams = [] ∧ State.reset.ex.grids = [] ∧ State.reset.ex.code = [] ∧ State.reset.en.cards = [] ∧
  State.reset.qu.graphs = [] ∧ State.reset.mm.horizon = [] ∧ State.reset.tr.roots = [] ∧ State.reset.tr.merges = [] ∧ State.reset.fa.requests = [] ∧
  State.reset.qu.slots = [] ∧ State.reset.ex.ageMax = 64 ∧ State.reset.tr.migth = 64 ∧
  (∃ q, State.reset.qu.queues = [(0, q)] ∧ q.asid = 0 ∧ q.ridx = 0 ∧ q.widx = 0 ∧ q.frozen = false) ∧
  (∃ n p, State.reset.fa.qps = [(n, p)] ∧ p.asid = 0 ∧ p.frozen = false) ∧
  State.reset.bd.clock = 0 ∧ State.reset.bd.boxwood = [] ∧ State.reset.bd.posted = 0 ∧ State.reset.bd.evWait = [] ∧ State.reset.halted = false ∧
  State.reset.bd.power = .running

/-- O6. Memory after reset has its canonical form (spec/10_memories.md, R209). The memory of the state after reset has its canonical form: addresses strictly rising, no zero byte listed. -/
def Obligations.ResetMemoryIsCanonical : Prop :=
  MemOk State.reset

/-- O7. Every step keeps the canonical form of memory (spec/10_memories.md, R209, R219). For every state whose memory has its canonical form, addresses strictly rising and no zero byte listed, and every step that answers a next state, whichever instruction or event it executes, the memory of that state has it too. -/
def Obligations.StepKeepsMemoryCanonical : Prop :=
  ∀ s u, MemOk s → step s = .next u → MemOk u

/-- O8. IADD and ISUB write the wrapped or saturated sum or difference (R93). For every MOD, D, A, B: IADD and ISUB end in a next state in which, in every lane, D holds the sum or difference of the two sources modulo 2^32 (MOD 000), clamped to the signed range (001) or, with unsigned sources, to the unsigned range (010). Each word is executed by every lane of its bundle; the frame is that of WritesRegs: D alone is written, and no other register, no predicate, no branch target, no other thread, no memory and no other unit changes. -/
def Obligations.IntegerAddSubtractResults : Prop :=
  (∀ m d a b, WritesRegs (opSpec [sp1 a, sp1 b] [sp1 d]) (.iadd m d a b) fun _ _ t => set1 t d (match m with
    | .wrap => rd t a + rd t b
    | .sati => BitVec.ofInt 32 (max (-(2 ^ 31)) (min (2 ^ 31 - 1) ((rd t a).toInt + (rd t b).toInt)))
    | .satn => BitVec.ofInt 32 (max 0 (min (2 ^ 32 - 1) (((rd t a).toNat : Int) + (rd t b).toNat))))) ∧
  (∀ m d a b, WritesRegs (opSpec [sp1 a, sp1 b] [sp1 d]) (.isub m d a b) fun _ _ t => set1 t d (match m with
    | .wrap => rd t a - rd t b
    | .sati => BitVec.ofInt 32 (max (-(2 ^ 31)) (min (2 ^ 31 - 1) ((rd t a).toInt - (rd t b).toInt)))
    | .satn => BitVec.ofInt 32 (max 0 (min (2 ^ 32 - 1) (((rd t a).toNat : Int) - (rd t b).toNat)))))

/-- O9. IMUL, IMIN, IMAX, IABSD and IMAD (spec/05_integer.md, R94, R95, R109). IMUL gives the low half of the product, or the high half of the exact signed or unsigned product; IMIN and IMAX the smaller and the larger source, IABSD the exact distance, each as signed or unsigned values; IMAD the low 32 bits of a x b + c. Each word is executed by every lane of its bundle; the frame is that of WritesRegs: D alone is written, and no other register, no predicate, no branch target, no other thread, no memory and no other unit changes. -/
def Obligations.MultiplyAndOrderResults : Prop :=
  (∀ m d a b, WritesRegs (opSpec [sp1 a, sp1 b] [sp1 d]) (.imul m d a b) fun _ _ t => set1 t d (match m with
    | .lo => BitVec.ofNat 32 ((rd t a).toNat * (rd t b).toNat)
    | .hiI => BitVec.ofInt 32 ((rd t a).toInt * (rd t b).toInt / 2 ^ 32)
    | .hiN => BitVec.ofNat 32 ((rd t a).toNat * (rd t b).toNat / 2 ^ 32))) ∧
  (∀ m d a b, WritesRegs (opSpec [sp1 a, sp1 b] [sp1 d]) (.imin m d a b) fun _ _ t => set1 t d (match m with
    | .i => BitVec.ofInt 32 (min (rd t a).toInt (rd t b).toInt)
    | .n => BitVec.ofNat 32 (min (rd t a).toNat (rd t b).toNat))) ∧
  (∀ m d a b, WritesRegs (opSpec [sp1 a, sp1 b] [sp1 d]) (.imax m d a b) fun _ _ t => set1 t d (match m with
    | .i => BitVec.ofInt 32 (max (rd t a).toInt (rd t b).toInt)
    | .n => BitVec.ofNat 32 (max (rd t a).toNat (rd t b).toNat))) ∧
  (∀ m d a b, WritesRegs (opSpec [sp1 a, sp1 b] [sp1 d]) (.iabsd m d a b) fun _ _ t => set1 t d (match m with
    | .i => BitVec.ofNat 32 ((rd t a).toInt - (rd t b).toInt).natAbs
    | .n => BitVec.ofNat 32 (((rd t a).toNat : Int) - (rd t b).toNat).natAbs)) ∧
  (∀ d a b c, WritesRegs (opSpec [sp1 a, sp1 b, sp1 c] [sp1 d]) (.imad d a b c) fun _ _ t => set1 t d (BitVec.ofNat 32 ((rd t a).toNat * (rd t b).toNat + (rd t c).toNat)))

/-- O10. AND, OR, XOR and ANDN operate bit by bit, and their MOD must be 000 (R96). Bit by bit, D holds a AND b, a OR b, a XOR b, or a AND NOT b; and a word of these four with a MOD that is not 000 is no instruction. Each word is executed by every lane of its bundle; the frame is that of WritesRegs: D alone is written, and no other register, no predicate, no branch target, no other thread, no memory and no other unit changes. -/
def Obligations.BitwiseLogicResults : Prop :=
  (∀ d a b, ∃ f : Word → Word → Word, (∀ x y (i : Nat), (f x y).getLsbD i = (x.getLsbD i && y.getLsbD i)) ∧
    WritesRegs (opSpec [sp1 a, sp1 b] [sp1 d]) (.and d a b) fun _ _ t => set1 t d (f (rd t a) (rd t b))) ∧
  (∀ d a b, ∃ f : Word → Word → Word, (∀ x y (i : Nat), (f x y).getLsbD i = (x.getLsbD i || y.getLsbD i)) ∧
    WritesRegs (opSpec [sp1 a, sp1 b] [sp1 d]) (.or d a b) fun _ _ t => set1 t d (f (rd t a) (rd t b))) ∧
  (∀ d a b, ∃ f : Word → Word → Word, (∀ x y (i : Nat), (f x y).getLsbD i = (x.getLsbD i ^^ y.getLsbD i)) ∧
    WritesRegs (opSpec [sp1 a, sp1 b] [sp1 d]) (.xor d a b) fun _ _ t => set1 t d (f (rd t a) (rd t b))) ∧
  (∀ d a b, ∃ f : Word → Word → Word, (∀ x y (i : Nat), i < 32 → (f x y).getLsbD i = (x.getLsbD i && !y.getLsbD i)) ∧
    WritesRegs (opSpec [sp1 a, sp1 b] [sp1 d]) (.andn d a b) fun _ _ t => set1 t d (f (rd t a) (rd t b))) ∧
  (∀ w : BitVec 32, fld w 28 4 = 0#4 → 6 ≤ (fld w 24 4).toNat → (fld w 24 4).toNat ≤ 9 → fld w 21 3 ≠ 0#3 →
    decodeWord w = .error .mustBeZero)

/-- O11. Shifts, rotation, bit counts and bit fields (spec/05_integer.md, R97, R98, R99, R100, R103). SHL and SHR take the whole of b as their count and give 0 from 32 on, SHR.a the sign; ROTL takes b[4:0]; SHLI, SHRI and SARI shift by their immediate; BITREV, NOT, BCNT, CLZ and CTZ are as R98 tabulates them; FEXT and FINS move the field of offset b[7:0] and of width b[15:8], at most 32. Each word is executed by every lane of its bundle; the frame is that of WritesRegs: D alone is written, and no other register, no predicate, no branch target, no other thread, no memory and no other unit changes. -/
def Obligations.ShiftAndBitFieldResults : Prop :=
  (∀ d a b, WritesRegs (opSpec [sp1 a, sp1 b] [sp1 d]) (.shl d a b) fun _ _ t => set1 t d (if 32 ≤ (rd t b).toNat then 0 else rd t a <<< (rd t b).toNat)) ∧
  (∀ d a b, WritesRegs (opSpec [sp1 a, sp1 b] [sp1 d]) (.shr .logical d a b) fun _ _ t => set1 t d (if 32 ≤ (rd t b).toNat then 0 else rd t a >>> (rd t b).toNat)) ∧
  (∀ d a b, WritesRegs (opSpec [sp1 a, sp1 b] [sp1 d]) (.shr .arith d a b) fun _ _ t => set1 t d (BitVec.ofInt 32 ((rd t a).toInt / 2 ^ min (rd t b).toNat 31))) ∧
  (∀ d a b, WritesRegs (opSpec [sp1 a, sp1 b] [sp1 d]) (.rotl d a b) fun _ _ t => set1 t d ((rd t a).rotateLeft ((rd t b).toNat % 32))) ∧
  (∀ d a n, WritesRegs (opSpec [sp1 a] [sp1 d]) (.shli d a n) fun _ _ t => set1 t d (rd t a <<< n.toNat)) ∧
  (∀ d a n, WritesRegs (opSpec [sp1 a] [sp1 d]) (.shri d a n) fun _ _ t => set1 t d (rd t a >>> n.toNat)) ∧
  (∀ d a n, WritesRegs (opSpec [sp1 a] [sp1 d]) (.sari d a n) fun _ _ t => set1 t d (BitVec.ofInt 32 ((rd t a).toInt / 2 ^ n.toNat))) ∧
  (∀ d a, WritesRegs (opSpec [sp1 a] [sp1 d]) (.bcnt d a) fun _ _ t => set1 t d (bcntVal (rd t a))) ∧
  (∀ d a, WritesRegs (opSpec [sp1 a] [sp1 d]) (.clz d a) fun _ _ t => set1 t d (clzVal (rd t a))) ∧
  (∀ d a, WritesRegs (opSpec [sp1 a] [sp1 d]) (.ctz d a) fun _ _ t => set1 t d (ctzVal (rd t a))) ∧
  (∀ d a, WritesRegs (opSpec [sp1 a] [sp1 d]) (.bitrev d a) fun _ _ t => set1 t d ((rd t a).reverse)) ∧
  (∀ d a, WritesRegs (opSpec [sp1 a] [sp1 d]) (.not d a) fun _ _ t => set1 t d (~~~(rd t a))) ∧
  (∀ m d a b, WritesRegs (opSpec [sp1 a, sp1 b] [sp1 d]) (.fext m d a b) fun _ _ t => set1 t d (fextVal m (rd t a) (rd t b))) ∧
  (∀ d a b, WritesRegs (opSpecD [sp1 a, sp1 b] [sp1 d]) (.fins d a b) fun _ _ t => set1 t d (finsVal (rd t d) (rd t a) (rd t b))) ∧
  (∀ (m : ExtMode) (x y : Word) (i : Nat), i < 32 → i < fieldLen y → fieldOff y + i < 32 → (fextVal m x y).getLsbD i = x.getLsbD (fieldOff y + i)) ∧
  (∀ (z x y : Word) (j : Nat), j < 32 → (finsVal z x y).getLsbD j =
    if fieldOff y ≤ j ∧ j < fieldOff y + fieldLen y then x.getLsbD (j - fieldOff y) else z.getLsbD j)

/-- O12. MOVI, IADDI, IMULI, ANDI, ORI, XORI and BSEL, DOTB4, ISGNA (spec/05_integer.md, spec/06_float.md, R58, R101, R102, R143, R144, R145). The immediate is the sign extension of IMM10, or the hint's bits above IMM10; each word combines it with a; BSEL, DOTB4 and ISGNA combine a, b and the old D. Each word is executed by every lane of its bundle; the frame is that of WritesRegs: D alone is written, and no other register, no predicate, no branch target, no other thread, no memory and no other unit changes. -/
def Obligations.ImmediateResults : Prop :=
  (∀ d imm, WritesRegs { opSpec [] [sp1 d] with hints := [0] } (.movi d imm) fun c _ t => set1 t d (imm32 c imm)) ∧
  (∀ d a imm, WritesRegs { opSpec [sp1 a] [sp1 d] with hints := [0] } (.iaddi d a imm) fun c _ t => set1 t d (rd t a + imm32 c imm)) ∧
  (∀ d a imm, WritesRegs { opSpec [sp1 a] [sp1 d] with hints := [0] } (.imuli d a imm) fun c _ t => set1 t d (rd t a * imm32 c imm)) ∧
  (∀ d a imm, WritesRegs { opSpec [sp1 a] [sp1 d] with hints := [0] } (.andi d a imm) fun c _ t => set1 t d (rd t a &&& imm32 c imm)) ∧
  (∀ d a imm, WritesRegs { opSpec [sp1 a] [sp1 d] with hints := [0] } (.ori d a imm) fun c _ t => set1 t d (rd t a ||| imm32 c imm)) ∧
  (∀ d a imm, WritesRegs { opSpec [sp1 a] [sp1 d] with hints := [0] } (.xori d a imm) fun c _ t => set1 t d (rd t a ^^^ imm32 c imm)) ∧
  (∀ (c : Ctx) (imm : BitVec 10), imm32 c imm = match c.hint 0 with
    | some h => BitVec.ofNat 22 h ++ imm
    | none => imm.signExtend 32) ∧
  (∀ d a b, WritesRegs (opSpecD [sp1 a, sp1 b] [sp1 d]) (.bsel d a b) fun _ _ t => set1 t d (bselVal (rd t d) (rd t a) (rd t b))) ∧
  (∀ sat ua ub d a b, WritesRegs (opSpecD [sp1 a, sp1 b] [sp1 d]) (.dotb4 sat ua ub d a b) fun _ _ t => set1 t d (dotb4Val sat ua ub (rd t d) (rd t a) (rd t b))) ∧
  (∀ d a b, WritesRegs (opSpecD [sp1 a, sp1 b] [sp1 d]) (.isgna d a b) fun _ _ t => set1 t d (if rd t a = 0 then rd t d else if (rd t a).toInt < 0 then rd t d - rd t b else rd t d + rd t b))

/-- O13. ADD64I, ADD64, SUB64 and LEA64 wrap modulo 2^64, and MOV copies a span (spec/05_integer.md, R104, R105). Each writes the pair of D, low half first, with the exact sum, difference or scaled sum modulo 2^64; MOV copies one, two or four registers. Each word is executed by every lane of its bundle; the frame is that of WritesRegs: D alone is written, and no other register, no predicate, no branch target, no other thread, no memory and no other unit changes. -/
def Obligations.PairArithmeticResults : Prop :=
  (∀ d a imm, WritesRegs { opSpec [sp2 a] [sp2 d] with hints := [0] } (.add64i d a imm) fun c _ t => set2 t d (((rdPair t a : Int) + (imm32 c imm).toInt) % 2 ^ 64 |>.toNat)) ∧
  (∀ d a b, WritesRegs (opSpec [sp2 a, sp2 b] [sp2 d]) (.add64 d a b) fun _ _ t => set2 t d ((rdPair t a + rdPair t b) % 2 ^ 64)) ∧
  (∀ d a b, WritesRegs (opSpec [sp2 a, sp2 b] [sp2 d]) (.sub64 d a b) fun _ _ t => set2 t d (((rdPair t a : Int) - rdPair t b) % 2 ^ 64 |>.toNat)) ∧
  (∀ sh d a b, WritesRegs (opSpec [sp2 a, sp1 b] [sp2 d]) (.lea64 sh d a b) fun _ _ t => set2 t d (((rdPair t a : Int) + (rd t b).toInt * 2 ^ sh.toNat) % 2 ^ 64 |>.toNat)) ∧
  (∀ m d a, WritesRegs (opSpec [(a.toNat, movLen m, movLen m)] [(d.toNat, movLen m, movLen m)]) (.mov m d a) fun _ _ t =>
    setSpan t d (readSpan t a.toNat (movLen m)))

/-- O14. PICK selects by its predicate, and PICK.p0 always selects a (R114). For every predicate field, PICK writes a to D in the lanes where the predicate is true and b where it is false; with p0 it writes a. Each word is executed by every lane of its bundle; the frame is that of WritesRegs: D alone is written, and no other register, no predicate, no branch target, no other thread, no memory and no other unit changes. -/
def Obligations.SelectionByPredicate : Prop :=
  (∀ p d a b, WritesRegs (opSpec [sp1 a, sp1 b] [sp1 d]) (.pick p d a b) fun _ _ t => set1 t d (if readPred t p then rd t a else rd t b)) ∧
  (∀ d a b, WritesRegs (opSpec [sp1 a, sp1 b] [sp1 d]) (.pick 0 d a b) fun _ _ t => set1 t d (rd t a))

/-- O15. ICMP, ICMPI, ICMP64 and FCMP write PD with the condition AND PC (spec/05_integer.md, spec/06_float.md, R50, R110, R111). For every condition, PD, PC and operands: PD reads afterwards as the condition AND PC, unless PD is p0, where nothing is written; no other predicate, no register and nothing else changes. The conditions of the integer compares are written out on the operands. -/
def Obligations.CompareWritesItsPredicate : Prop :=
  (∀ c pd pc a b, WritesPreds (opSpec [sp1 a, sp1 b] []) (.icmp c pd pc a b) fun _ _ t => fun q => if q = pd ∧ pd ≠ 0 then (condHolds c 32 (rd t a).toNat (rd t b).toNat && readPred t pc) else readPred t q) ∧
  (∀ c pd pc a imm, WritesPreds (opSpec [sp1 a] []) (.icmpi c pd pc a imm) fun _ _ t => fun q => if q = pd ∧ pd ≠ 0 then (condHolds c 32 (rd t a).toNat (imm.signExtend 32).toNat && readPred t pc) else readPred t q) ∧
  (∀ c pd pc a b, WritesPreds (opSpec [sp2 a, sp2 b] []) (.icmp64 c pd pc a b) fun _ _ t => fun q => if q = pd ∧ pd ≠ 0 then (condHolds c 64 (rdPair t a) (rdPair t b) && readPred t pc) else readPred t q) ∧
  (∀ c pd pc a b, WritesPreds (opSpec [sp1 a, sp1 b] []) (.fcmp c pd pc a b) fun _ _ t => fun q => if q = pd ∧ pd ≠ 0 then (fcondHolds c (rd t a) (rd t b) && readPred t pc) else readPred t q) ∧
  (∀ (c : Cond) (x y : Word), condHolds c 32 x.toNat y.toNat = match c with
    | .eq => decide (x = y) | .ne => decide (x ≠ y) | .ltI => x.slt y | .leI => x.sle y | .ltN => x.ult y | .leN => x.ule y
    | .gtI => y.slt x | .gtN => y.ult x)

/-- O16. PCOMB, PSET and PGET (spec/05_integer.md, R50, R112, R113). PCOMB writes PD with its function of two predicates AND PC, but for PD = p0; PSET writes p1 to p7 from a[7:1]; PGET writes the eight predicates to D, with bit 0 set and bits [31:8] clear; a PSET of what PGET wrote leaves every predicate as it was. -/
def Obligations.PredicateLogicResults : Prop :=
  (∀ m pd pc pa pb, WritesPreds (opSpec [] []) (.pcomb m pd pc pa pb) fun _ _ t => fun q => if q = pd ∧ pd ≠ 0 then
    (match m with
      | .and => readPred t pa && readPred t pb | .or => readPred t pa || readPred t pb | .xor => readPred t pa ^^ readPred t pb
      | .andn => readPred t pa && !readPred t pb | .not => !readPred t pa) && readPred t pc
    else readPred t q) ∧
  (∀ a, WritesPreds (opSpec [sp1 a] []) (.pset a) fun _ _ t => fun q => if q = 0 then true else (rd t a).getLsbD q.toNat) ∧
  (∀ d, ∃ f : Thread → Word, (∀ t (i : Nat), (f t).getLsbD i = (decide (i < 8) && readPred t (BitVec.ofNat 3 i))) ∧
    WritesRegs (opSpec [] [sp1 d]) (.pget d) fun _ _ t => set1 t d (f t))

/-- O17. The FP32 and packed arithmetic words write the value of their operation (spec/06_float.md, R119, R120, R121, R122, R123, R124, R125, R126, R127, R128, R129). FADD, FSUB, FMUL, FMIN, FMAX, FDIV, FABS, FNEG, FSAT, FFRAC, FROUND, FCOPYS, FLDX, FKIND, PADD, PMUL, PMIN, PMAX, FDP2, FMAC and PMAC end in a next state in which, in every lane, D holds the operation's value of that lane's operands, rounded as MOD or HINT.RND says. Each word is executed by every lane of its bundle; the frame is that of WritesRegs: D alone is written, and no other register, no predicate, no branch target, no other thread, no memory and no other unit changes. -/
def Obligations.FloatArithmeticResults : Prop :=
  (∀ m d a b, WritesRegs (opSpec [sp1 a, sp1 b] [sp1 d]) (.fadd m d a b) fun _ _ t => set1 t d (faddVal m (rd t a) (rd t b))) ∧
  (∀ m d a b, WritesRegs (opSpec [sp1 a, sp1 b] [sp1 d]) (.fsub m d a b) fun _ _ t => set1 t d (fsubVal m (rd t a) (rd t b))) ∧
  (∀ m d a b, WritesRegs (opSpec [sp1 a, sp1 b] [sp1 d]) (.fmul m d a b) fun _ _ t => set1 t d (fmulVal m (rd t a) (rd t b))) ∧
  (∀ m d a b, WritesRegs (opSpec [sp1 a, sp1 b] [sp1 d]) (.fmin m d a b) fun _ _ t => set1 t d (fminmaxVal false m (rd t a) (rd t b))) ∧
  (∀ m d a b, WritesRegs (opSpec [sp1 a, sp1 b] [sp1 d]) (.fmax m d a b) fun _ _ t => set1 t d (fminmaxVal true m (rd t a) (rd t b))) ∧
  (∀ m d a b, WritesRegs (opSpec [sp1 a, sp1 b] [sp1 d]) (.fdiv m d a b) fun _ _ t => set1 t d (fdivVal m (rd t a) (rd t b))) ∧
  (∀ m d a b, WritesRegs (opSpec [sp1 a, sp1 b] [sp1 d]) (.fldx m d a b) fun _ _ t => set1 t d (fldxVal m (rd t a) (rd t b))) ∧
  (∀ m d a b, WritesRegs (opSpec [sp1 a, sp1 b] [sp1 d]) (.pmin m d a b) fun _ _ t => set1 t d (pminmaxVal (pkFmt m) false (rd t a) (rd t b))) ∧
  (∀ m d a b, WritesRegs (opSpec [sp1 a, sp1 b] [sp1 d]) (.pmax m d a b) fun _ _ t => set1 t d (pminmaxVal (pkFmt m) true (rd t a) (rd t b))) ∧
  (∀ d a, WritesRegs (opSpec [sp1 a] [sp1 d]) (.fabs d a) fun _ _ t => set1 t d (fabsVal (rd t a))) ∧
  (∀ d a, WritesRegs (opSpec [sp1 a] [sp1 d]) (.fneg d a) fun _ _ t => set1 t d (fnegVal (rd t a))) ∧
  (∀ d a, WritesRegs (opSpec [sp1 a] [sp1 d]) (.fsat d a) fun _ _ t => set1 t d (fsatVal (rd t a))) ∧
  (∀ d a, WritesRegs (opSpec [sp1 a] [sp1 d]) (.ffrac d a) fun _ _ t => set1 t d (ffracVal (rd t a))) ∧
  (∀ d a, WritesRegs (opSpec [sp1 a] [sp1 d]) (.fkind d a) fun _ _ t => set1 t d (fkindVal (rd t a))) ∧
  (∀ m d a, WritesRegs (opSpec [sp1 a] [sp1 d]) (.fround m d a) fun _ _ t => set1 t d (froundVal m (rd t a))) ∧
  (∀ d a b, WritesRegs (opSpec [sp1 a, sp1 b] [sp1 d]) (.fcopys d a b) fun _ _ t => set1 t d (fcopysVal (rd t a) (rd t b))) ∧
  (∀ m d a b, WritesRegs { opSpec [sp1 a, sp1 b] [sp1 d] with hints := [4] } (.padd m d a b) fun c _ t => set1 t d (paddVal (pkFmt m) (hintRm c) (hintSat c) (rd t a) (rd t b))) ∧
  (∀ m d a b, WritesRegs { opSpec [sp1 a, sp1 b] [sp1 d] with hints := [4] } (.pmul m d a b) fun c _ t => set1 t d (pmulVal (pkFmt m) (hintRm c) (hintSat c) (rd t a) (rd t b))) ∧
  (∀ m d a b, WritesRegs { opSpecD [sp1 a, sp1 b] [sp1 d] with hints := [4] } (.fdp2 m d a b) fun c _ t => set1 t d (fdp2Val (pkFmt m) (hintRm c) (hintSat c) (rd t d) (rd t a) (rd t b))) ∧
  (∀ d a b e, WritesRegs { opSpec [sp1 a, sp1 b, sp1 e] [sp1 d] with hints := [4] } (.fmac d a b e) fun c _ t => set1 t d (fmacVal (hintRm c) (hintSat c) (rd t a) (rd t b) (rd t e))) ∧
  (∀ d a b e, WritesRegs { opSpec [sp1 a, sp1 b, sp1 e] [sp1 d] with hints := [4], rnd7 := true } (.pmac d a b e) fun c _ t => set1 t d (pmacVal (hintF16 c) (hintRm c) (hintSat c) (rd t a) (rd t b) (rd t e)))

/-- O18. The conversion words write the converted value (spec/06_float.md, R130, R131, R132, R133, R134, R135, R136, R137, R138, R139). FCVI, ICVF, ICVI, PACK16, UNPK16, CVTN, CVTW and CBDEC end in a next state in which D holds the converted value of the lane's operands under the lane's format slot; UNPK3 writes five registers, and sets TERNBAD where its .z form meets an illegal byte. Each word is executed by every lane of its bundle; the frame is that of WritesRegs: D alone is written, and no other register, no predicate, no branch target, no other thread, no memory and no other unit changes. -/
def Obligations.ConversionResults : Prop :=
  (∀ m d a, WritesRegs (opSpec [sp1 a] [sp1 d]) (.fcvi m d a) fun _ _ t => set1 t d (fcviVal m (rd t a))) ∧
  (∀ m d a, WritesRegs { opSpec [sp1 a] [sp1 d] with hints := [4] } (.icvf m d a) fun c _ t => set1 t d (icvfVal m (hintRm c) (rd t a))) ∧
  (∀ m d a, WritesRegs (opSpec [sp1 a] [sp1 d]) (.icvi m d a) fun _ _ t => set1 t d (icviVal m (rd t a))) ∧
  (∀ m d a b, WritesRegs (opSpec [sp1 a, sp1 b] [sp1 d]) (.pack16 m d a b) fun _ _ t => set1 t d (pack16Val m (rd t a) (rd t b))) ∧
  (∀ m d a, WritesRegs (opSpec [sp1 a] [sp1 d]) (.unpk16 m d a) fun _ _ t => set1 t d (unpk16Val m (rd t a))) ∧
  (∀ k d a b, WritesRegs { opSpec [sp1 a, sp1 b] [sp1 d] with hints := [4], slotOk := cvtSlot k } (.cvtn k d a b) fun c s t => set1 t d (cvtnVal ((gridOf s t).slot k.toNat) (hintRm c) (hintSat c) (rd t a) (rd t b))) ∧
  (∀ k d a b, WritesRegs { opSpec [sp1 a, sp1 b] [sp1 d] with slotOk := cvtSlot k } (.cvtw k d a b) fun _ s t => set1 t d (cvtwVal ((gridOf s t).slot k.toNat) (rd t a) (rd t b))) ∧
  (∀ k d a, WritesRegs { opSpec [sp1 a] [sp2 d] with slotOk := cbSlot k } (.cbdec k d a) fun _ s t => set2 t d (cbdecVal (gridOf s t) k.toNat (rd t a))) ∧
  (∀ z m d a s c ks, Issues (opSpec [sp1 a] [(d.toNat, 5, 1)]) c ks s →
    (∀ k ∈ ks, ∀ t, getThread s k = some t → z = true ∨ bits (rd t a).toNat (8 * m.toNat + 7) (8 * m.toNat) < 243) →
    ∃ u, exec (.unpk3 z m d a) s = .next u ∧ u.cur = none ∧ OnlyLanes s u ∧ Lanes ks s u fun t v =>
      let x := bits (rd t a).toNat (8 * m.toNat + 7) (8 * m.toNat)
      LaneIs c (if x < 243 then t else { t with ternBad := true }) v
        (setSpan t d (if x < 243 then tritsOf 5 x else [0, 0, 0, 0, 0])) (readPred t) (readBt t))

/-- O19. RECIP, RROOT, SQRT, EXP2, LOG2, TANH, SINT and COST (spec/06_float.md, R141, R142). Each writes D with a value of its operand; where R141 gives a bound and no value, the value is the model's choice under that bound (notes/assumptions/7.md) and nothing is claimed of it here; the special operands give what the table of R141 says. Each word is executed by every lane of its bundle; the frame is that of WritesRegs: D alone is written, and no other register, no predicate, no branch target, no other thread, no memory and no other unit changes. -/
def Obligations.SpecialFunctionResults : Prop :=
  (∀ d a, WritesRegs (opSpec [sp1 a] [sp1 d]) (.recip d a) fun _ _ t => set1 t d (BitVec.ofNat 32 (recipVal (rd t a)))) ∧
  (∀ d a, WritesRegs (opSpec [sp1 a] [sp1 d]) (.rroot d a) fun _ _ t => set1 t d (BitVec.ofNat 32 (rrootVal (rd t a)))) ∧
  (∀ d a, WritesRegs (opSpec [sp1 a] [sp1 d]) (.sqrt d a) fun _ _ t => set1 t d (BitVec.ofNat 32 (sqrtVal (rd t a)))) ∧
  (∀ d a, WritesRegs (opSpec [sp1 a] [sp1 d]) (.exp2 d a) fun _ _ t => set1 t d (BitVec.ofNat 32 (exp2Val (rd t a)))) ∧
  (∀ d a, WritesRegs (opSpec [sp1 a] [sp1 d]) (.log2 d a) fun _ _ t => set1 t d (BitVec.ofNat 32 (log2Val (rd t a)))) ∧
  (∀ d a, WritesRegs (opSpec [sp1 a] [sp1 d]) (.tanh d a) fun _ _ t => set1 t d (BitVec.ofNat 32 (tanhVal (rd t a)))) ∧
  (∀ d a, WritesRegs (opSpec [sp1 a] [sp1 d]) (.sint d a) fun _ _ t => set1 t d (BitVec.ofNat 32 (sintVal (rd t a)))) ∧
  (∀ d a, WritesRegs (opSpec [sp1 a] [sp1 d]) (.cost d a) fun _ _ t => set1 t d (BitVec.ofNat 32 (costVal (rd t a)))) ∧
  [recipVal, rrootVal, sqrtVal, exp2Val, log2Val, tanhVal].map (fun f => f 0x7F800000) = [0, 0, 0x7F800000, 0x7F800000, 0x7F800000, 0x3F800000] ∧
  [recipVal, rrootVal, sqrtVal, exp2Val, log2Val, tanhVal].map (fun f => f 0xFF800000) =
    [0x80000000, 0x7FC00000, 0x7FC00000, 0, 0x7FC00000, 0xBF800000] ∧
  [recipVal, rrootVal, sqrtVal, log2Val, tanhVal].map (fun f => f 0) = [0x7F800000, 0x7F800000, 0, 0xFF800000, 0] ∧
  [recipVal, rrootVal, sqrtVal, log2Val, tanhVal].map (fun f => f 0x80000000) = [0xFF800000, 0xFF800000, 0x80000000, 0xFF800000, 0x80000000] ∧
  (∀ a : Word, 0x7F800000 < a.toNat % 2 ^ 31 → ∀ f ∈ [recipVal, rrootVal, sqrtVal, exp2Val, log2Val, tanhVal, sintVal, costVal], f a = 0x7FC00000)

/-- O20. SPALPHA, SPBLEND, KEYPK and TRIEDGE (spec/08_matrix_splat.md, R175, R176, R177, R178). Each writes the registers of D that its rule names, and no other, with the values of the lane's operands, all of them read before any is written where the spans meet, as the model has it (notes/assumptions/53.md); the value of SPALPHA is the model's choice within the bound of its rule (notes/assumptions/7.md), and nothing is claimed of it here. Each word is executed by every lane of its bundle; the frame is that of WritesRegs: D alone is written, and no other register, no predicate, no branch target, no other thread, no memory and no other unit changes. -/
def Obligations.SplatResults : Prop :=
  (∀ d a b, WritesRegs (opSpec [sp4 a, sp2 b] [sp1 d]) (.spalpha d a b) fun _ _ t => set1 t d (BitVec.ofNat 32 (alphaVal (readReg t a.toNat) (readReg t (a.toNat + 1)) (readReg t (a.toNat + 2)) (readReg t (a.toNat + 3))
      (readReg t b.toNat) (readReg t (b.toNat + 1))))) ∧
  (∀ d a b, WritesRegs (opSpecD [(a.toNat, 3, 1), sp1 b] [sp4 d]) (.spblend d a b) fun _ _ t =>
    setSpan t d ((List.range 4).map fun i => readReg (spblendLane d a b t) (d.toNat + i))) ∧
  (∀ d a b, WritesRegs (opSpec [sp1 a, sp1 b] [sp2 d]) (.keypk d a b) fun _ _ t => setSpan t d [keyDepth (rd t a), rd t b]) ∧
  (∀ d a b, WritesRegs (opSpec [sp4 a, sp2 b] [sp2 d]) (.triedge d a b) fun _ _ t =>
    let r := triedgeVal (regVal t a 0) (regVal t a 1) (regVal t a 2) (regVal t a 3) (regVal t b 0) (regVal t b 1)
    setSpan t d [r.1, r.2])

/-- O21. MOVSR and MOVL (spec/05_integer.md, spec/04_registers.md, R82, R83, R84, R85, R86, R106, R107). MOVSR writes D with the special register it names, and CLOCKLO and PTSLO also capture their high halves; MOVL writes D with a word of the latched launch record. No other register, and no other thread, changes. For each number the value is the thread's, team's, grid's or package's own. -/
def Obligations.SpecialRegisterReads : Prop :=
  (∀ d (n : BitVec 10) s c ks, Issues { opSpec [] [sp1 d] with order := n == 12 } c ks s → n.toNat < 22 →
    ∃ u, exec (.movsr d n) s = .next u ∧ u.cur = none ∧ OnlyLanes s u ∧ Lanes ks s u fun t v =>
      LaneIs c { t with capClk := if n = 10 then BitVec.ofNat 32 (s.bd.clock / 2 ^ 32) else t.capClk
                        capPts := if n = 12 then BitVec.ofNat 32 (t.pts / 2 ^ 32) else t.capPts } v
        (set1 t d (BitVec.ofNat 32 (specialReg s c.core t n.toNat))) (readPred t) (readBt t)) ∧
  (∀ s core t, specialReg s core t 15 = bitsNat [t.snapx, t.derivLost, t.ternBad, t.serialSeen, false, false, false, false, t.snap.isOn, t.tx.active, t.serial]) ∧
  (∀ d n, WritesRegs (opSpec [] [sp1 d]) (.movl d n) fun _ s t => set1 t d (BitVec.ofNat 32 ((gridOf s t).word n.toNat))) ∧
  (∀ s core t, [0, 1, 3, 7, 8, 9, 10, 11, 12, 13, 14, 17, 18, 19, 20, 21].map (specialReg s core t) =
    [t.hlane, t.glane, t.group, core, core / 64, s.fa.pkg, s.bd.clock % 2 ^ 32, t.capClk.toNat, t.pts % 2 ^ 32, t.capPts.toNat, t.depth,
     t.fcode.toNat, t.faddr % 2 ^ 32, t.faddr / 2 ^ 32, t.fpc.toNat, t.txReason]) ∧
  (∀ s core t, [2, 6, 16].map (specialReg s core t) =
    [(gridOf s t).width, min (gridOf s t).teams 0xFFFFFFFF, (if core ∈ s.ex.matNarrow then 1 else 0) + (if t.preempted then 2 else 0)]) ∧
  (∀ s core t tm, tget s.ex.teams t.team = some tm → specialReg s core t 4 = tm.lin % 2 ^ 32 ∧
    specialReg s core t 5 = 16 * (tm.lin / ((gridOf s t).cw * (gridOf s t).ch) % 2 ^ 28) + tm.lin % ((gridOf s t).cw * (gridOf s t).ch))

/-- O22. PREP, PREPR, BLOAD, BCOPY and BINV write their branch-target register (spec/09_transfer.md, R180, R182, R183, R184). PREP prepares bT with the PC of its word plus IMM17, PREPR and BLOAD with the value of A, BCOPY copies bS, BINV makes bT unprepared with target 0; no other branch-target register changes. A prefetch may change the words of code that the core holds, and reads code in host memory by the host path; BLOAD and BINV start none. Each word ends in a next state, reached lane after lane; of the executing lane the whole thread is given, and nothing else changes but what is named. In a bundle of one lane that executes it, each word completes, as the last clauses say of it in full. -/
def Obligations.BranchTargetWords : Prop :=
  (∀ bt imm s, LaneByLane s {} (.prep bt imm) always (fun _ => s) fun c u k t v =>
    ∃ n, Prefetched u n ∧ LaneEnds k n (finish {} c (writeBt t bt { prepared := true, target := c.pc + imm.signExtend 32 })) v) ∧
  (∀ bt imm, Completes {} (.prep bt imm) (fun _ _ _ _ => True)
    fun c u k t v => ∃ n, Prefetched u n ∧ LaneEnds k n (finish {} c (writeBt t bt { prepared := true, target := c.pc + imm.signExtend 32 })) v) ∧
  (∀ bt a s, LaneByLane s (opSpec [sp1 a] []) (.prepr bt a) always (fun _ => s) fun c u k t v =>
    ∃ n, Prefetched u n ∧ LaneEnds k n (finish (opSpec [sp1 a] []) c (writeBt t bt { prepared := true, target := rd t a })) v) ∧
  (∀ bt a, Completes (opSpec [sp1 a] []) (.prepr bt a) (fun _ _ _ _ => True)
    fun c u k t v => ∃ n, Prefetched u n ∧ LaneEnds k n (finish (opSpec [sp1 a] []) c (writeBt t bt { prepared := true, target := rd t a })) v) ∧
  (∀ bt a s, LaneByLane s (opSpec [sp1 a] []) (.bload bt a) always (fun _ => s) fun c u k t v =>
    LaneEnds k u (finish (opSpec [sp1 a] []) c (writeBt t bt { prepared := true, target := rd t a })) v) ∧
  (∀ bt a, Completes (opSpec [sp1 a] []) (.bload bt a) (fun _ _ _ _ => True)
    fun c u k t v => LaneEnds k u (finish (opSpec [sp1 a] []) c (writeBt t bt { prepared := true, target := rd t a })) v) ∧
  (∀ bt bs s, LaneByLane s {} (.bcopy bt bs) always (fun _ => s) fun c u k t v =>
    ∃ n, Prefetched u n ∧ LaneEnds k n (finish {} c (writeBt t bt (readBt t bs))) v) ∧
  (∀ bt bs, Completes {} (.bcopy bt bs) (fun _ _ _ _ => True)
    fun c u k t v => ∃ n, Prefetched u n ∧ LaneEnds k n (finish {} c (writeBt t bt (readBt t bs))) v) ∧
  (∀ bt s, LaneByLane s {} (.binv bt) always (fun _ => s) fun c u k t v =>
    LaneEnds k u (finish {} c (writeBt t bt {})) v) ∧
  (∀ bt, Completes {} (.binv bt) (fun _ _ _ _ => True)
    fun c u k t v => LaneEnds k u (finish {} c (writeBt t bt {})) v) ∧
  (∀ (t : Thread) b c x, readBt (writeBt t b x) c = if c = b then x else readBt t c)

/-- O23. XFER, XFER.CALL, XFER.RET and XDEC transfer, fall through, or fault, and end the run (spec/09_transfer.md, R185, R52). A lane with an unprepared bT takes BT_UNPREPARED and changes nothing; XFER.CALL at DEPTH 255 and XFER.RET at DEPTH 0, where they would transfer, take DEPTH. Otherwise the run ends; the lane stands at the target where its condition holds (for XDEC, where the decremented counter is not 0), at the next word otherwise. A call that transfers holds the next word in b7 and raises DEPTH; a return that transfers lowers DEPTH, outside handler mode. Each word ends in a next state, reached lane after lane; of the executing lane the whole thread is given, and nothing else changes but what is named. In a bundle of one lane that executes it, each word completes, as the last clauses say of it in full. -/
def Obligations.TransferWords : Prop :=
  (∀ bt ps neg s, LaneByLane s {} (.xfer bt ps neg) always (fun _ => s) fun c u k t v =>
    if (readBt t bt).prepared then
      LaneEnds k u (endRun { t with pc := if readPred t ps != neg then (readBt t bt).target else c.pc + 1, grants := [], buf := [] }) v
    else v = deliver u k 0x04 0 c.fpc) ∧
  (∀ bt ps neg s, LaneByLane s {} (.xferCall bt ps neg) always (fun _ => s) fun c u k t v =>
    if (readBt t bt).prepared = false then v = deliver u k 0x04 0 c.fpc
    else if (readPred t ps != neg) = false then LaneEnds k u (endRun { t with pc := c.pc + 1, grants := [], buf := [] }) v
    else if t.depth = 255 then v = deliver u k 0x16 0 c.fpc
    else ∃ n, Prefetched u n ∧ LaneEnds k n (endRun { writeBt t 7 { prepared := true, target := c.pc + 1 } with
      depth := t.depth + 1, pc := (readBt t bt).target, grants := [], buf := [] }) v) ∧
  (∀ bt ps neg s, LaneByLane s {} (.xferRet bt ps neg) always (fun _ => s) fun c u k t v =>
    if (readBt t bt).prepared = false then v = deliver u k 0x04 0 c.fpc
    else if (readPred t ps != neg) = false then LaneEnds k u (endRun { t with pc := c.pc + 1, grants := [], buf := [] }) v
    else if t.depth = 0 then v = deliver u k 0x16 0 c.fpc
    else (∀ f, t.frame = some f → t.depth ≠ f.depth + 1) →
      LaneEnds k u (endRun { t with depth := t.depth - 1, pc := (readBt t bt).target, grants := [], buf := [] }) v) ∧
  (∀ bt a s, LaneByLane s (opSpecD [] [sp1 a]) (.xdec bt a) always (fun _ => s) fun c u k t v =>
    if (readBt t bt).prepared = false then v = deliver u k 0x04 0 c.fpc
    else LaneEnds k u (endRun { writeReg t a.toNat (rd t a - 1) with
      pc := if rd t a = 1 then c.pc + 1 else (readBt t bt).target, grants := [], buf := [] }) v) ∧
  (∀ bt ps neg, Completes {} (.xfer bt ps neg) (fun _ _ _ t => (readBt t bt).prepared = true)
    fun c u k t v => LaneEnds k u (endRun { t with pc := if readPred t ps != neg then (readBt t bt).target else c.pc + 1, grants := [], buf := [] }) v) ∧
  (∀ bt ps neg, Completes {} (.xferCall bt ps neg) (fun _ _ _ t => (readBt t bt).prepared = true ∧ (readPred t ps != neg) = true ∧ t.depth < 255)
    fun c u k t v => ∃ n, Prefetched u n ∧ LaneEnds k n (endRun { writeBt t 7 { prepared := true, target := c.pc + 1 } with
      depth := t.depth + 1, pc := (readBt t bt).target, grants := [], buf := [] }) v) ∧
  (∀ bt ps neg, Completes {} (.xferRet bt ps neg) (fun _ _ _ t => (readBt t bt).prepared = true ∧ (readPred t ps != neg) = true ∧ 0 < t.depth ∧ ∀ f, t.frame = some f → t.depth ≠ f.depth + 1)
    fun _ u k t v => LaneEnds k u (endRun { t with depth := t.depth - 1, pc := (readBt t bt).target, grants := [], buf := [] }) v) ∧
  (∀ bt a, Completes (opSpecD [] [sp1 a]) (.xdec bt a) (fun _ _ _ t => (readBt t bt).prepared = true)
    fun c u k t v => LaneEnds k u (endRun { writeReg t a.toNat (rd t a - 1) with
      pc := if rd t a = 1 then c.pc + 1 else (readBt t bt).target, grants := [], buf := [] }) v)

/-- O24. The XFER.RET that ends handler mode restores the frame (spec/19_faults.md, R381). At DEPTH one above the frame's, an XFER.RET that transfers takes DEPTH and b7 from the frame and discards it; where the target is FPC, the temporaries, their validity, the run position and the bundle tag come from the frame too, so that the run goes on; elsewhere a new run begins. No register beside the temporaries changes. -/
def Obligations.HandlerReturn : Prop :=
(∀ bt ps neg s, LaneByLane s {} (.xferRet bt ps neg) always (fun _ => s) fun _ u k t v =>
    ∀ f, t.frame = some f → t.depth = f.depth + 1 → (readBt t bt).prepared = true → (readPred t ps != neg) = true → f.ts.length = 8 →
      ∃ x, LaneEnds k u x v ∧ x.pc = (readBt t bt).target ∧ x.depth = f.depth ∧ x.frame = none ∧
        (∀ b, readBt x b = if b = 7 then f.b7 else readBt t b) ∧ x.preds = t.preds ∧ x.ops = t.ops ∧ x.pts = t.pts ∧ x.st = t.st ∧
        (if (readBt t bt).target = t.fpc then
          x.runPos = f.runPos ∧ x.btag = f.btag ∧ x.tvalid = f.tvalid ∧
            ∀ n, readReg x n = if 120 ≤ n ∧ n < 128 then (f.ts[n - 120]?).getD 0 else readReg t n
        else x.runPos = 0 ∧ x.btag = Config.noTag ∧ x.tvalid = [] ∧ ∀ n, readReg x n = readReg t n))

/-- O25. A PROGRAM fault is delivered to the user handler (spec/19_faults.md, R86, R380). For every fault code but that of DATA_POISON, address and FPC: where the launch record names a handler, the thread is not in handler mode and its DEPTH is below 255, the thread has FCODE, FADDR and FPC, its frame holds t0 to t7, their validity, the run position, the tag, b7 and DEPTH; b7 is prepared at FPC, or FPC + 1 for TRAP and BRKPT; DEPTH is one higher; the tag is 0x1FFF, RUNPOS is 0, WAITON is 0; PC is HANDLER and the state READY, or STOPPED under a debug stop. Registers, predicates, memory and every other thread stay; the core counts the fault, and what other packages were to return for the word goes to nobody. -/
def Obligations.FaultEntersHandler : Prop :=
  ∀ s k t code addr fpc, getThread s k = some t → code < 0x100 → code ≠ 0x17 → (gridOf s t).handler ≠ 0xFFFFFFFF → t.frame = none → t.depth < 255 →
    ∃ x, LaneEnds k { s with fa := (forgetWord s k).fa, bd := (perf s 0 (coreOf k) 5 1).bd } x (deliver s k code addr fpc) ∧
      x.fcode = BitVec.ofNat 32 (0x100 + code) ∧ x.faddr = addr % 2 ^ 57 ∧ x.fpc = fpc ∧
      (∃ f, x.frame = some f ∧ f.ts = (List.range 8).map (fun i => readReg t (120 + i)) ∧ f.tvalid = t.tvalid ∧ f.runPos = t.runPos ∧
        f.btag = t.btag ∧ f.b7 = readBt t 7 ∧ f.depth = t.depth) ∧
      (∀ b, readBt x b = if b = 7 then { prepared := true, target := if code = 0x14 ∨ code = 0x15 then fpc + 1 else fpc } else readBt t b) ∧
      x.depth = t.depth + 1 ∧ x.btag = 0x1FFF ∧ x.runPos = 0 ∧ x.waitOn = .nothing ∧ x.pc = BitVec.ofNat 32 (gridOf s t).handler ∧
      x.st = (if t.dstop then .stopped else .ready) ∧ x.regs = t.regs ∧ x.preds = t.preds ∧ x.pts = t.pts ∧ x.ops = t.ops

/-- O26. A fault that no handler takes parks the thread, and an event says so (spec/19_faults.md, R86, R382, R404, R405). Where the fault is of class SYSTEM, or there is no handler, or the thread is in handler mode or at DEPTH 255: the thread is PARKED at FPC with its fault registers written and its run position, tag, temporaries, registers and depth as they were, the core counts the fault, what other packages were to return for the word goes to nobody, and one event of code 3 from its core names the thread-table index, FCODE, FPC and the address. -/
def Obligations.FaultGoesToSupervisor : Prop :=
  ∀ s k t code addr fpc, getThread s k = some t →
    (code = 0x17 ∨ (gridOf s t).handler = 0xFFFFFFFF ∨ t.frame ≠ none ∨ 255 ≤ t.depth) →
    ∃ x arg0, LaneEnds k (post { s with fa := (forgetWord s k).fa, bd := (perf s 0 (coreOf k) 5 1).bd } 0 (coreOf k) 3 arg0 (addr % 2 ^ 57)) x (deliver s k code addr fpc) ∧
      arg0 = coreOf k + 256 * (k % 2048) + 2 ^ 20 * (x.fcode.toNat % 1024) + 2 ^ 32 * fpc.toNat ∧
      x.fcode = BitVec.ofNat 32 ((if code = 0x17 then 0x300 else 0x100) + code) ∧ x.faddr = addr % 2 ^ 57 ∧ x.fpc = fpc ∧
      x.st = .parked ∧ x.pc = fpc ∧ x.runPos = t.runPos ∧ x.btag = t.btag ∧ x.tvalid = t.tvalid ∧ x.regs = t.regs ∧ x.preds = t.preds ∧
      x.bts = t.bts ∧ x.depth = t.depth ∧ x.frame = t.frame ∧ x.ops = t.ops

/-- O27. TRAP and BRKPT take their fault with FPC at the word; BRKPT in a DEBUG grid stops the group (spec/19_faults.md, R383, R384, R337). TRAP delivers the PROGRAM fault 0x14 and BRKPT, in a grid without DEBUG, 0x15, with FPC at the word itself, past its hints (the model's reading where R54 and R383 meet, log entry 48); the lane does not complete the word, and a thread that no handler takes is parked before its hints. In a DEBUG grid BRKPT leaves the thread before the word with FCODE 0x315 and FPC at the word, posts event 4 unless the thread is already stopped, and stops its group, whose READY threads become STOPPED. In a bundle of one lane the last clauses give the handler entry of TRAP and of BRKPT, and the debug stop, in full. -/
def Obligations.TrapAndBreakpoint : Prop :=
  (∀ n s, LaneByLane s {} (.trap n) always (fun _ => s) fun c u k t v =>
    v = leaveBundle (modThread (deliver u k 0x14 0 c.pc) k fun x => if x.st = .parked then { x with pc := c.fpc } else x) k) ∧
  (∀ s, LaneByLane s {} (.brkpt) always (fun _ => s) fun c u k t v =>
    if (gridOf u t).debugFlag = false then v = leaveBundle (modThread (deliver u k 0x15 0 c.pc) k fun x => if x.st = .parked then { x with pc := c.fpc } else x) k
    else ∃ x, getThread v k = some x ∧ x.fcode = 0x315 ∧ x.fpc = c.pc ∧ x.pc = t.pc ∧ x.regs = t.regs ∧ x.brk = some (c.fpc, c.words) ∧ v.mm = u.mm ∧
      (t.dstop = false → t.live = true → x.dstop = true ∧ v.bd.posted = u.bd.posted + 1) ∧
      (t.dstop = false → u.ex.threads.Pairwise (fun x y => x.1 < y.1) → ∀ e ∈ groupMates u t.team t.group, e.2.live = true →
        ∃ y, getThread v e.1 = some y ∧ y.dstop = true ∧ (e.2.st = .ready → y.st = .stopped))) ∧
  (∀ n, Completes {} (.trap n) (fun _ u _ t => (gridOf u t).handler ≠ 0xFFFFFFFF ∧ t.frame = none ∧ t.depth < 255)
    fun c u k t v => ∃ x, LaneEnds k { u with fa := (forgetWord u k).fa, bd := (perf u 0 (coreOf k) 5 1).bd } x v ∧ x.fcode = 0x114 ∧ x.fpc = c.pc ∧ x.faddr = 0 ∧
      x.pc = BitVec.ofNat 32 (gridOf u t).handler ∧ readBt x 7 = { prepared := true, target := c.pc + 1 } ∧ x.depth = t.depth + 1 ∧ x.runPos = 0 ∧
      x.st = (if t.dstop then .stopped else .ready) ∧ x.regs = t.regs ∧ x.preds = t.preds ∧ (∃ f, x.frame = some f ∧ f.depth = t.depth ∧ f.runPos = t.runPos)) ∧
  (Completes {} (.brkpt) (fun _ u _ t => (gridOf u t).debugFlag = false ∧ (gridOf u t).handler ≠ 0xFFFFFFFF ∧ t.frame = none ∧ t.depth < 255)
    fun c u k t v => ∃ x, LaneEnds k { u with fa := (forgetWord u k).fa, bd := (perf u 0 (coreOf k) 5 1).bd } x v ∧ x.fcode = 0x115 ∧ x.fpc = c.pc ∧ x.faddr = 0 ∧
      x.pc = BitVec.ofNat 32 (gridOf u t).handler ∧ readBt x 7 = { prepared := true, target := c.pc + 1 } ∧ x.depth = t.depth + 1 ∧ x.runPos = 0 ∧
      x.st = (if t.dstop then .stopped else .ready) ∧ x.regs = t.regs ∧ x.preds = t.preds ∧ (∃ f, x.frame = some f ∧ f.depth = t.depth ∧ f.runPos = t.runPos)) ∧
  (Completes {} (.brkpt) (fun _ u _ t => (gridOf u t).debugFlag = true)
    fun c u k t v => ∃ x, getThread v k = some x ∧ x.fcode = 0x315 ∧ x.fpc = c.pc ∧ x.pc = t.pc ∧ x.regs = t.regs ∧ x.brk = some (c.fpc, c.words) ∧ v.mm = u.mm ∧
      (t.dstop = false → t.live = true → x.dstop = true ∧ v.bd.posted = u.bd.posted + 1) ∧
      (t.dstop = false → u.ex.threads.Pairwise (fun x y => x.1 < y.1) → ∀ e ∈ groupMates u t.team t.group, e.2.live = true →
        ∃ y, getThread v e.1 = some y ∧ y.dstop = true ∧ (e.2.st = .ready → y.st = .stopped)))

/-- O28. STOP, YIELD, IFLUSH, TXABORT and SNAP_CLOSE (spec/09_transfer.md, spec/12_memory_ops.md, spec/16_thread_table.md, R190, R236, R265, R266, R333, R334). STOP with no load outstanding and no poisoned or denied load result ends its thread, which drains, its transaction and snapshot over; with loads outstanding the thread waits at it; a poisoned or denied result gives its fault. YIELD marks the thread as yielded and ends its run; IFLUSH.own moves the fetch epoch of the lane's thread, IFLUSH.core discards the held words of the core and moves the epoch of all its threads, in a bundle with no load outstanding; TXABORT aborts a transaction with EXPLICIT and leaves the nesting depth; SNAP_CLOSE ends the thread's snapshot. Each word ends in a next state, reached lane after lane; of the executing lane the whole thread is given, and nothing else changes but what is named. In a bundle of one lane that executes it, each word completes, as the last clauses say of it in full. -/
def Obligations.YieldFlushAndClear : Prop :=
  (∀ s, LaneByLane s {} (.stop) always (fun _ => s) fun c u k t v =>
    (count t .ld ≠ 0 → LaneEnds k u (waiting c t .stop .stop) v) ∧
    (count t .ld = 0 → ∀ b, t.bad.find? (fun b => b.cnt == .ld) = some b →
      v = leaveBundle (deliver (setThread u k (dropBad t b)) k (badCode b) b.addr c.fpc) k) ∧
    (count t .ld = 0 → (∀ b ∈ t.bad, b.cnt ≠ .ld) → u.ex.threads.Pairwise (fun x y => x.1 < y.1) → v.mm = (closeOwn u t).mm ∧ ∃ x, getThread v k = some x ∧ x.st = .draining ∧ x.waitOn = .nothing ∧
      x.tx = {} ∧ x.snap = .off ∧ x.frame = none ∧ x.regs = t.regs ∧ x.preds = t.preds ∧ x.ops = t.ops ∧ x.pts = t.pts)) ∧
  (Completes {} (.stop) (fun _ u _ t => count t .ld = 0 ∧ (∀ b ∈ t.bad, b.cnt ≠ .ld) ∧ u.ex.threads.Pairwise (fun x y => x.1 < y.1))
    fun _ u k t v => v.mm = (closeOwn u t).mm ∧ ∃ x, getThread v k = some x ∧ x.st = .draining ∧ x.waitOn = .nothing ∧
      x.tx = {} ∧ x.snap = .off ∧ x.frame = none ∧ x.regs = t.regs ∧ x.preds = t.preds ∧ x.ops = t.ops ∧ x.pts = t.pts) ∧
  (∀ s, LaneByLane s { ends := true } (.yield) always (fun _ => s) fun c u k t v =>
    LaneEnds k u (finish { ends := true } c { t with yielded := true }) v) ∧
  (Completes { ends := true } (.yield) (fun _ _ _ _ => True)
    fun c u k t v => LaneEnds k u (finish { ends := true } c { t with yielded := true }) v) ∧
  (∀ s, LaneByLane s {} (.iflush .own) (fun _ ks => ∀ k ∈ ks, ∀ t, getThread s k = some t → count t .ld = 0) (fun _ => s) fun c u k t v =>
    LaneEnds k { u with nextId := u.nextId + 1 } (finish {} c { t with epoch := u.nextId + 1 }) v) ∧
  (Completes {} (.iflush .own) (fun _ _ _ t => count t .ld = 0)
    fun c u k t v => LaneEnds k { u with nextId := u.nextId + 1 } (finish {} c { t with epoch := u.nextId + 1 }) v) ∧
  (∀ s, LaneByLane s {} (.iflush .core) (fun _ ks => ∀ k ∈ ks, ∀ t, getThread s k = some t → count t .ld = 0) (fun _ => s) fun c u k t v =>
    v.mm = u.mm ∧ (∀ x ∈ v.ex.code, x.core ≠ c.core) ∧ (∀ j t', coreOf j = c.core → getThread v j = some t' → u.nextId < t'.epoch) ∧
    ∃ x, getThread v k = some x ∧ x.pc = t.pc + BitVec.ofNat 32 c.words ∧ x.regs = t.regs) ∧
  (Completes {} (.iflush .core) (fun _ _ _ t => count t .ld = 0)
    fun c u k t v => v.mm = u.mm ∧ (∀ x ∈ v.ex.code, x.core ≠ c.core) ∧ (∀ j t', coreOf j = c.core → getThread v j = some t' → u.nextId < t'.epoch) ∧
    ∃ x, getThread v k = some x ∧ x.pc = t.pc + BitVec.ofNat 32 c.words ∧ x.regs = t.regs) ∧
  (∀ s, LaneByLane s {} (.txabort) always (fun _ => s) fun c u k t v =>
    LaneEnds k u (finish {} c (if 0 < t.tx.depth ∧ t.tx.active then { t with txReason := 4, tx := { t.tx with active := false, ws := [], adds := [] } } else t)) v) ∧
  (Completes {} (.txabort) (fun _ _ _ _ => True)
    fun c u k t v => LaneEnds k u (finish {} c (if 0 < t.tx.depth ∧ t.tx.active then { t with txReason := 4, tx := { t.tx with active := false, ws := [], adds := [] } } else t)) v) ∧
  (∀ s, LaneByLane s { order := true } (.snapClose) always (fun _ => s) fun c u k t v =>
    ∃ m, (match t.snap with
      | .own S => m = (closeSnap u S).mm
      | _ => m = u.mm) ∧ LaneEnds k { u with mm := m } (finish { order := true } c { abortTx t 4 with snap := .off }) v) ∧
  (Completes { order := true } (.snapClose) (fun _ _ _ _ => True)
    fun c u k t v => ∃ m, (match t.snap with
      | .own S => m = (closeSnap u S).mm
      | _ => m = u.mm) ∧ LaneEnds k { u with mm := m } (finish { order := true } c { abortTx t 4 with snap := .off }) v)

/-- O29. The global loads issue one operation in each lane (spec/12_memory_ops.md, R228, R233, R234, R238, R239, R240, R243). Each LD form, in each lane: its address is the pair in A plus IMM7 times the size; the faults are PAGE_PROT, MISALIGN and, under a revoked snapshot, SNAP_REVOKED. Outside a transaction the lane completes with one load of that address, size and form outstanding on ld, at the thread's snapshot where it has one and the line has versions; a load of a place that a snapshot excludes is marked, for SNAPX. In a transaction a line of this package is read at once in the transaction's view, not counted for migration where the load prefers the second tier, and one of another place aborts with REMOTE. D is pending until the load returns; nothing else changes. An access in a lane whose guard is false is none: the lane goes on past the word, and nothing of it, of memory or of its counters changes. In a bundle of one lane whose access stands, each word completes, with that effect. -/
def Obligations.GlobalLoadsIssue : Prop :=
  (∀ pg d a imm, GlobalLanes { opSpec [sp2 a] [(d.toNat, 1, 1)] with guard := pg, hints := [3], adds := [(.ld, 1)] } (.ldN8 pg d a imm) .load 1 (fun t => rdPair t a + imm.toInt * 1) fun c wid u k t va l v =>
    LoadIssued c wid u k t va l 1 .n8 d 1 (finish { opSpec [sp2 a] [(d.toNat, 1, 1)] with guard := pg, hints := [3], adds := [(.ld, 1)] } c) v) ∧
  (∀ pg d a imm, GlobalCompletes { opSpec [sp2 a] [(d.toNat, 1, 1)] with guard := pg, hints := [3], adds := [(.ld, 1)] } (.ldN8 pg d a imm) .load 1 (fun t => rdPair t a + imm.toInt * 1) (fun t => revokedNow t = false) fun c wid u k t va l v =>
    LoadIssued c wid u k t va l 1 .n8 d 1 (finish { opSpec [sp2 a] [(d.toNat, 1, 1)] with guard := pg, hints := [3], adds := [(.ld, 1)] } c) v) ∧
  (∀ pg d a imm, GlobalLanes { opSpec [sp2 a] [(d.toNat, 1, 1)] with guard := pg, hints := [3], adds := [(.ld, 1)] } (.ldI8 pg d a imm) .load 1 (fun t => rdPair t a + imm.toInt * 1) fun c wid u k t va l v =>
    LoadIssued c wid u k t va l 1 .i8 d 1 (finish { opSpec [sp2 a] [(d.toNat, 1, 1)] with guard := pg, hints := [3], adds := [(.ld, 1)] } c) v) ∧
  (∀ pg d a imm, GlobalCompletes { opSpec [sp2 a] [(d.toNat, 1, 1)] with guard := pg, hints := [3], adds := [(.ld, 1)] } (.ldI8 pg d a imm) .load 1 (fun t => rdPair t a + imm.toInt * 1) (fun t => revokedNow t = false) fun c wid u k t va l v =>
    LoadIssued c wid u k t va l 1 .i8 d 1 (finish { opSpec [sp2 a] [(d.toNat, 1, 1)] with guard := pg, hints := [3], adds := [(.ld, 1)] } c) v) ∧
  (∀ pg d a imm, GlobalLanes { opSpec [sp2 a] [(d.toNat, 1, 1)] with guard := pg, hints := [3], adds := [(.ld, 1)] } (.ldN16 pg d a imm) .load 2 (fun t => rdPair t a + imm.toInt * 2) fun c wid u k t va l v =>
    LoadIssued c wid u k t va l 2 .n16 d 1 (finish { opSpec [sp2 a] [(d.toNat, 1, 1)] with guard := pg, hints := [3], adds := [(.ld, 1)] } c) v) ∧
  (∀ pg d a imm, GlobalCompletes { opSpec [sp2 a] [(d.toNat, 1, 1)] with guard := pg, hints := [3], adds := [(.ld, 1)] } (.ldN16 pg d a imm) .load 2 (fun t => rdPair t a + imm.toInt * 2) (fun t => revokedNow t = false) fun c wid u k t va l v =>
    LoadIssued c wid u k t va l 2 .n16 d 1 (finish { opSpec [sp2 a] [(d.toNat, 1, 1)] with guard := pg, hints := [3], adds := [(.ld, 1)] } c) v) ∧
  (∀ pg d a imm, GlobalLanes { opSpec [sp2 a] [(d.toNat, 1, 1)] with guard := pg, hints := [3], adds := [(.ld, 1)] } (.ldI16 pg d a imm) .load 2 (fun t => rdPair t a + imm.toInt * 2) fun c wid u k t va l v =>
    LoadIssued c wid u k t va l 2 .i16 d 1 (finish { opSpec [sp2 a] [(d.toNat, 1, 1)] with guard := pg, hints := [3], adds := [(.ld, 1)] } c) v) ∧
  (∀ pg d a imm, GlobalCompletes { opSpec [sp2 a] [(d.toNat, 1, 1)] with guard := pg, hints := [3], adds := [(.ld, 1)] } (.ldI16 pg d a imm) .load 2 (fun t => rdPair t a + imm.toInt * 2) (fun t => revokedNow t = false) fun c wid u k t va l v =>
    LoadIssued c wid u k t va l 2 .i16 d 1 (finish { opSpec [sp2 a] [(d.toNat, 1, 1)] with guard := pg, hints := [3], adds := [(.ld, 1)] } c) v) ∧
  (∀ pg d a imm, GlobalLanes { opSpec [sp2 a] [(d.toNat, 1, 1)] with guard := pg, hints := [3], adds := [(.ld, 1)] } (.ld32 pg d a imm) .load 4 (fun t => rdPair t a + imm.toInt * 4) fun c wid u k t va l v =>
    LoadIssued c wid u k t va l 4 .w32 d 1 (finish { opSpec [sp2 a] [(d.toNat, 1, 1)] with guard := pg, hints := [3], adds := [(.ld, 1)] } c) v) ∧
  (∀ pg d a imm, GlobalCompletes { opSpec [sp2 a] [(d.toNat, 1, 1)] with guard := pg, hints := [3], adds := [(.ld, 1)] } (.ld32 pg d a imm) .load 4 (fun t => rdPair t a + imm.toInt * 4) (fun t => revokedNow t = false) fun c wid u k t va l v =>
    LoadIssued c wid u k t va l 4 .w32 d 1 (finish { opSpec [sp2 a] [(d.toNat, 1, 1)] with guard := pg, hints := [3], adds := [(.ld, 1)] } c) v) ∧
  (∀ pg d a imm, GlobalLanes { opSpec [sp2 a] [(d.toNat, 2, 2)] with guard := pg, hints := [3], adds := [(.ld, 1)] } (.ld64 pg d a imm) .load 8 (fun t => rdPair t a + imm.toInt * 8) fun c wid u k t va l v =>
    LoadIssued c wid u k t va l 8 .w64 d 2 (finish { opSpec [sp2 a] [(d.toNat, 2, 2)] with guard := pg, hints := [3], adds := [(.ld, 1)] } c) v) ∧
  (∀ pg d a imm, GlobalCompletes { opSpec [sp2 a] [(d.toNat, 2, 2)] with guard := pg, hints := [3], adds := [(.ld, 1)] } (.ld64 pg d a imm) .load 8 (fun t => rdPair t a + imm.toInt * 8) (fun t => revokedNow t = false) fun c wid u k t va l v =>
    LoadIssued c wid u k t va l 8 .w64 d 2 (finish { opSpec [sp2 a] [(d.toNat, 2, 2)] with guard := pg, hints := [3], adds := [(.ld, 1)] } c) v) ∧
  (∀ pg d a imm, GlobalLanes { opSpec [sp2 a] [(d.toNat, 4, 4)] with guard := pg, hints := [3], adds := [(.ld, 1)] } (.ld128 pg d a imm) .load 16 (fun t => rdPair t a + imm.toInt * 16) fun c wid u k t va l v =>
    LoadIssued c wid u k t va l 16 .w128 d 4 (finish { opSpec [sp2 a] [(d.toNat, 4, 4)] with guard := pg, hints := [3], adds := [(.ld, 1)] } c) v) ∧
  (∀ pg d a imm, GlobalCompletes { opSpec [sp2 a] [(d.toNat, 4, 4)] with guard := pg, hints := [3], adds := [(.ld, 1)] } (.ld128 pg d a imm) .load 16 (fun t => rdPair t a + imm.toInt * 16) (fun t => revokedNow t = false) fun c wid u k t va l v =>
    LoadIssued c wid u k t va l 16 .w128 d 4 (finish { opSpec [sp2 a] [(d.toNat, 4, 4)] with guard := pg, hints := [3], adds := [(.ld, 1)] } c) v) ∧
  (∀ pg d a imm s c ks, prelude { opSpec [sp2 a] [(d.toNat, 1, 1)] with guard := pg, hints := [3], adds := [(.ld, 1)] } s = .go c ks → missing s { opSpec [sp2 a] [(d.toNat, 1, 1)] with guard := pg, hints := [3], adds := [(.ld, 1)] } .load 1 (fun t => rdPair t a + imm.toInt * 1) ks = [] → ∃ f : State → Nat → State, exec (.ldN8 pg d a imm) s = .next (done (laneLoop f { s with nextId := s.nextId + 1 } ks)) ∧
    ∀ u k t, getThread u k = some t → readPred t pg = false → LaneEnds k u (finish { opSpec [sp2 a] [(d.toNat, 1, 1)] with guard := pg, hints := [3], adds := [(.ld, 1)] } c (schedQuiet u c t)) (f u k)) ∧
  (∀ pg d a imm s c ks, prelude { opSpec [sp2 a] [(d.toNat, 1, 1)] with guard := pg, hints := [3], adds := [(.ld, 1)] } s = .go c ks → missing s { opSpec [sp2 a] [(d.toNat, 1, 1)] with guard := pg, hints := [3], adds := [(.ld, 1)] } .load 1 (fun t => rdPair t a + imm.toInt * 1) ks = [] → ∃ f : State → Nat → State, exec (.ldI8 pg d a imm) s = .next (done (laneLoop f { s with nextId := s.nextId + 1 } ks)) ∧
    ∀ u k t, getThread u k = some t → readPred t pg = false → LaneEnds k u (finish { opSpec [sp2 a] [(d.toNat, 1, 1)] with guard := pg, hints := [3], adds := [(.ld, 1)] } c (schedQuiet u c t)) (f u k)) ∧
  (∀ pg d a imm s c ks, prelude { opSpec [sp2 a] [(d.toNat, 1, 1)] with guard := pg, hints := [3], adds := [(.ld, 1)] } s = .go c ks → missing s { opSpec [sp2 a] [(d.toNat, 1, 1)] with guard := pg, hints := [3], adds := [(.ld, 1)] } .load 2 (fun t => rdPair t a + imm.toInt * 2) ks = [] → ∃ f : State → Nat → State, exec (.ldN16 pg d a imm) s = .next (done (laneLoop f { s with nextId := s.nextId + 1 } ks)) ∧
    ∀ u k t, getThread u k = some t → readPred t pg = false → LaneEnds k u (finish { opSpec [sp2 a] [(d.toNat, 1, 1)] with guard := pg, hints := [3], adds := [(.ld, 1)] } c (schedQuiet u c t)) (f u k)) ∧
  (∀ pg d a imm s c ks, prelude { opSpec [sp2 a] [(d.toNat, 1, 1)] with guard := pg, hints := [3], adds := [(.ld, 1)] } s = .go c ks → missing s { opSpec [sp2 a] [(d.toNat, 1, 1)] with guard := pg, hints := [3], adds := [(.ld, 1)] } .load 2 (fun t => rdPair t a + imm.toInt * 2) ks = [] → ∃ f : State → Nat → State, exec (.ldI16 pg d a imm) s = .next (done (laneLoop f { s with nextId := s.nextId + 1 } ks)) ∧
    ∀ u k t, getThread u k = some t → readPred t pg = false → LaneEnds k u (finish { opSpec [sp2 a] [(d.toNat, 1, 1)] with guard := pg, hints := [3], adds := [(.ld, 1)] } c (schedQuiet u c t)) (f u k)) ∧
  (∀ pg d a imm s c ks, prelude { opSpec [sp2 a] [(d.toNat, 1, 1)] with guard := pg, hints := [3], adds := [(.ld, 1)] } s = .go c ks → missing s { opSpec [sp2 a] [(d.toNat, 1, 1)] with guard := pg, hints := [3], adds := [(.ld, 1)] } .load 4 (fun t => rdPair t a + imm.toInt * 4) ks = [] → ∃ f : State → Nat → State, exec (.ld32 pg d a imm) s = .next (done (laneLoop f { s with nextId := s.nextId + 1 } ks)) ∧
    ∀ u k t, getThread u k = some t → readPred t pg = false → LaneEnds k u (finish { opSpec [sp2 a] [(d.toNat, 1, 1)] with guard := pg, hints := [3], adds := [(.ld, 1)] } c (schedQuiet u c t)) (f u k)) ∧
  (∀ pg d a imm s c ks, prelude { opSpec [sp2 a] [(d.toNat, 2, 2)] with guard := pg, hints := [3], adds := [(.ld, 1)] } s = .go c ks → missing s { opSpec [sp2 a] [(d.toNat, 2, 2)] with guard := pg, hints := [3], adds := [(.ld, 1)] } .load 8 (fun t => rdPair t a + imm.toInt * 8) ks = [] → ∃ f : State → Nat → State, exec (.ld64 pg d a imm) s = .next (done (laneLoop f { s with nextId := s.nextId + 1 } ks)) ∧
    ∀ u k t, getThread u k = some t → readPred t pg = false → LaneEnds k u (finish { opSpec [sp2 a] [(d.toNat, 2, 2)] with guard := pg, hints := [3], adds := [(.ld, 1)] } c (schedQuiet u c t)) (f u k)) ∧
  (∀ pg d a imm s c ks, prelude { opSpec [sp2 a] [(d.toNat, 4, 4)] with guard := pg, hints := [3], adds := [(.ld, 1)] } s = .go c ks → missing s { opSpec [sp2 a] [(d.toNat, 4, 4)] with guard := pg, hints := [3], adds := [(.ld, 1)] } .load 16 (fun t => rdPair t a + imm.toInt * 16) ks = [] → ∃ f : State → Nat → State, exec (.ld128 pg d a imm) s = .next (done (laneLoop f { s with nextId := s.nextId + 1 } ks)) ∧
    ∀ u k t, getThread u k = some t → readPred t pg = false → LaneEnds k u (finish { opSpec [sp2 a] [(d.toNat, 4, 4)] with guard := pg, hints := [3], adds := [(.ld, 1)] } c (schedQuiet u c t)) (f u k))

/-- O30. The global stores issue one operation in each lane (spec/12_memory_ops.md, R234, R238, R239, R240, R244). Each ST form, in each lane: address as for loads; outside a transaction the lane completes with one store outstanding on st, of the low bytes of D's registers, lowest register first; in a transaction the bytes enter the write set where the line is of this package, and the transaction aborts with REMOTE otherwise; it is counted on st there too. No register, and no byte of memory, changes with the issue. An access in a lane whose guard is false is none: the lane goes on past the word, and nothing of it, of memory or of its counters changes. In a bundle of one lane whose access stands, each word completes, with that effect. -/
def Obligations.GlobalStoresIssue : Prop :=
  (∀ pg d a imm, GlobalLanes { opSpec [sp2 a, (d.toNat, 1, 1)] [] with guard := pg, hints := [3], adds := [(.st, 1)] } (.st8 pg d a imm) .store 1 (fun t => rdPair t a + imm.toInt * 1) fun c wid u k t va l v =>
    let x := spanNat ((List.range 1).map fun i => readReg t (d.toNat + i)) % 2 ^ 8
    StoreIssued c wid u k t va l 1 (.store x) (fun pa => enterWs t pa (natLe 1 x)) (finish { opSpec [sp2 a, (d.toNat, 1, 1)] [] with guard := pg, hints := [3], adds := [(.st, 1)] } c) v) ∧
  (∀ pg d a imm, GlobalCompletes { opSpec [sp2 a, (d.toNat, 1, 1)] [] with guard := pg, hints := [3], adds := [(.st, 1)] } (.st8 pg d a imm) .store 1 (fun t => rdPair t a + imm.toInt * 1) (fun _ => True) fun c wid u k t va l v =>
    let x := spanNat ((List.range 1).map fun i => readReg t (d.toNat + i)) % 2 ^ 8
    StoreIssued c wid u k t va l 1 (.store x) (fun pa => enterWs t pa (natLe 1 x)) (finish { opSpec [sp2 a, (d.toNat, 1, 1)] [] with guard := pg, hints := [3], adds := [(.st, 1)] } c) v) ∧
  (∀ pg d a imm, GlobalLanes { opSpec [sp2 a, (d.toNat, 1, 1)] [] with guard := pg, hints := [3], adds := [(.st, 1)] } (.st16 pg d a imm) .store 2 (fun t => rdPair t a + imm.toInt * 2) fun c wid u k t va l v =>
    let x := spanNat ((List.range 1).map fun i => readReg t (d.toNat + i)) % 2 ^ 16
    StoreIssued c wid u k t va l 2 (.store x) (fun pa => enterWs t pa (natLe 2 x)) (finish { opSpec [sp2 a, (d.toNat, 1, 1)] [] with guard := pg, hints := [3], adds := [(.st, 1)] } c) v) ∧
  (∀ pg d a imm, GlobalCompletes { opSpec [sp2 a, (d.toNat, 1, 1)] [] with guard := pg, hints := [3], adds := [(.st, 1)] } (.st16 pg d a imm) .store 2 (fun t => rdPair t a + imm.toInt * 2) (fun _ => True) fun c wid u k t va l v =>
    let x := spanNat ((List.range 1).map fun i => readReg t (d.toNat + i)) % 2 ^ 16
    StoreIssued c wid u k t va l 2 (.store x) (fun pa => enterWs t pa (natLe 2 x)) (finish { opSpec [sp2 a, (d.toNat, 1, 1)] [] with guard := pg, hints := [3], adds := [(.st, 1)] } c) v) ∧
  (∀ pg d a imm, GlobalLanes { opSpec [sp2 a, (d.toNat, 1, 1)] [] with guard := pg, hints := [3], adds := [(.st, 1)] } (.st32 pg d a imm) .store 4 (fun t => rdPair t a + imm.toInt * 4) fun c wid u k t va l v =>
    let x := spanNat ((List.range 1).map fun i => readReg t (d.toNat + i)) % 2 ^ 32
    StoreIssued c wid u k t va l 4 (.store x) (fun pa => enterWs t pa (natLe 4 x)) (finish { opSpec [sp2 a, (d.toNat, 1, 1)] [] with guard := pg, hints := [3], adds := [(.st, 1)] } c) v) ∧
  (∀ pg d a imm, GlobalCompletes { opSpec [sp2 a, (d.toNat, 1, 1)] [] with guard := pg, hints := [3], adds := [(.st, 1)] } (.st32 pg d a imm) .store 4 (fun t => rdPair t a + imm.toInt * 4) (fun _ => True) fun c wid u k t va l v =>
    let x := spanNat ((List.range 1).map fun i => readReg t (d.toNat + i)) % 2 ^ 32
    StoreIssued c wid u k t va l 4 (.store x) (fun pa => enterWs t pa (natLe 4 x)) (finish { opSpec [sp2 a, (d.toNat, 1, 1)] [] with guard := pg, hints := [3], adds := [(.st, 1)] } c) v) ∧
  (∀ pg d a imm, GlobalLanes { opSpec [sp2 a, (d.toNat, 2, 2)] [] with guard := pg, hints := [3], adds := [(.st, 1)] } (.st64 pg d a imm) .store 8 (fun t => rdPair t a + imm.toInt * 8) fun c wid u k t va l v =>
    let x := spanNat ((List.range 2).map fun i => readReg t (d.toNat + i)) % 2 ^ 64
    StoreIssued c wid u k t va l 8 (.store x) (fun pa => enterWs t pa (natLe 8 x)) (finish { opSpec [sp2 a, (d.toNat, 2, 2)] [] with guard := pg, hints := [3], adds := [(.st, 1)] } c) v) ∧
  (∀ pg d a imm, GlobalCompletes { opSpec [sp2 a, (d.toNat, 2, 2)] [] with guard := pg, hints := [3], adds := [(.st, 1)] } (.st64 pg d a imm) .store 8 (fun t => rdPair t a + imm.toInt * 8) (fun _ => True) fun c wid u k t va l v =>
    let x := spanNat ((List.range 2).map fun i => readReg t (d.toNat + i)) % 2 ^ 64
    StoreIssued c wid u k t va l 8 (.store x) (fun pa => enterWs t pa (natLe 8 x)) (finish { opSpec [sp2 a, (d.toNat, 2, 2)] [] with guard := pg, hints := [3], adds := [(.st, 1)] } c) v) ∧
  (∀ pg d a imm, GlobalLanes { opSpec [sp2 a, (d.toNat, 4, 4)] [] with guard := pg, hints := [3], adds := [(.st, 1)] } (.st128 pg d a imm) .store 16 (fun t => rdPair t a + imm.toInt * 16) fun c wid u k t va l v =>
    let x := spanNat ((List.range 4).map fun i => readReg t (d.toNat + i)) % 2 ^ 128
    StoreIssued c wid u k t va l 16 (.store x) (fun pa => enterWs t pa (natLe 16 x)) (finish { opSpec [sp2 a, (d.toNat, 4, 4)] [] with guard := pg, hints := [3], adds := [(.st, 1)] } c) v) ∧
  (∀ pg d a imm, GlobalCompletes { opSpec [sp2 a, (d.toNat, 4, 4)] [] with guard := pg, hints := [3], adds := [(.st, 1)] } (.st128 pg d a imm) .store 16 (fun t => rdPair t a + imm.toInt * 16) (fun _ => True) fun c wid u k t va l v =>
    let x := spanNat ((List.range 4).map fun i => readReg t (d.toNat + i)) % 2 ^ 128
    StoreIssued c wid u k t va l 16 (.store x) (fun pa => enterWs t pa (natLe 16 x)) (finish { opSpec [sp2 a, (d.toNat, 4, 4)] [] with guard := pg, hints := [3], adds := [(.st, 1)] } c) v) ∧
  (∀ pg d a imm s c ks, prelude { opSpec [sp2 a, (d.toNat, 1, 1)] [] with guard := pg, hints := [3], adds := [(.st, 1)] } s = .go c ks → missing s { opSpec [sp2 a, (d.toNat, 1, 1)] [] with guard := pg, hints := [3], adds := [(.st, 1)] } .store 1 (fun t => rdPair t a + imm.toInt * 1) ks = [] → ∃ f : State → Nat → State, exec (.st8 pg d a imm) s = .next (done (laneLoop f { s with nextId := s.nextId + 1 } ks)) ∧
    ∀ u k t, getThread u k = some t → readPred t pg = false → LaneEnds k u (finish { opSpec [sp2 a, (d.toNat, 1, 1)] [] with guard := pg, hints := [3], adds := [(.st, 1)] } c (schedQuiet u c t)) (f u k)) ∧
  (∀ pg d a imm s c ks, prelude { opSpec [sp2 a, (d.toNat, 1, 1)] [] with guard := pg, hints := [3], adds := [(.st, 1)] } s = .go c ks → missing s { opSpec [sp2 a, (d.toNat, 1, 1)] [] with guard := pg, hints := [3], adds := [(.st, 1)] } .store 2 (fun t => rdPair t a + imm.toInt * 2) ks = [] → ∃ f : State → Nat → State, exec (.st16 pg d a imm) s = .next (done (laneLoop f { s with nextId := s.nextId + 1 } ks)) ∧
    ∀ u k t, getThread u k = some t → readPred t pg = false → LaneEnds k u (finish { opSpec [sp2 a, (d.toNat, 1, 1)] [] with guard := pg, hints := [3], adds := [(.st, 1)] } c (schedQuiet u c t)) (f u k)) ∧
  (∀ pg d a imm s c ks, prelude { opSpec [sp2 a, (d.toNat, 1, 1)] [] with guard := pg, hints := [3], adds := [(.st, 1)] } s = .go c ks → missing s { opSpec [sp2 a, (d.toNat, 1, 1)] [] with guard := pg, hints := [3], adds := [(.st, 1)] } .store 4 (fun t => rdPair t a + imm.toInt * 4) ks = [] → ∃ f : State → Nat → State, exec (.st32 pg d a imm) s = .next (done (laneLoop f { s with nextId := s.nextId + 1 } ks)) ∧
    ∀ u k t, getThread u k = some t → readPred t pg = false → LaneEnds k u (finish { opSpec [sp2 a, (d.toNat, 1, 1)] [] with guard := pg, hints := [3], adds := [(.st, 1)] } c (schedQuiet u c t)) (f u k)) ∧
  (∀ pg d a imm s c ks, prelude { opSpec [sp2 a, (d.toNat, 2, 2)] [] with guard := pg, hints := [3], adds := [(.st, 1)] } s = .go c ks → missing s { opSpec [sp2 a, (d.toNat, 2, 2)] [] with guard := pg, hints := [3], adds := [(.st, 1)] } .store 8 (fun t => rdPair t a + imm.toInt * 8) ks = [] → ∃ f : State → Nat → State, exec (.st64 pg d a imm) s = .next (done (laneLoop f { s with nextId := s.nextId + 1 } ks)) ∧
    ∀ u k t, getThread u k = some t → readPred t pg = false → LaneEnds k u (finish { opSpec [sp2 a, (d.toNat, 2, 2)] [] with guard := pg, hints := [3], adds := [(.st, 1)] } c (schedQuiet u c t)) (f u k)) ∧
  (∀ pg d a imm s c ks, prelude { opSpec [sp2 a, (d.toNat, 4, 4)] [] with guard := pg, hints := [3], adds := [(.st, 1)] } s = .go c ks → missing s { opSpec [sp2 a, (d.toNat, 4, 4)] [] with guard := pg, hints := [3], adds := [(.st, 1)] } .store 16 (fun t => rdPair t a + imm.toInt * 16) ks = [] → ∃ f : State → Nat → State, exec (.st128 pg d a imm) s = .next (done (laneLoop f { s with nextId := s.nextId + 1 } ks)) ∧
    ∀ u k t, getThread u k = some t → readPred t pg = false → LaneEnds k u (finish { opSpec [sp2 a, (d.toNat, 4, 4)] [] with guard := pg, hints := [3], adds := [(.st, 1)] } c (schedQuiet u c t)) (f u k))

/-- O31. ATOM, ATOM64, ATOMF and CAS issue one read-modify-write in each lane (spec/12_memory_ops.md, R234, R238, R247, R248, R249). At the address in the pair A, with the operand B and, for CAS, the compare value that D holds: outside a transaction the lane completes with one read-modify-write outstanding on ld, whose old value goes to D when it returns; in a transaction the old value is that of the transaction's view and the new one enters the write set, unless a CAS's comparison fails or the line is poisoned. The new values are those of R247 and R248. In a bundle of one lane whose access stands, each word completes, with that effect. -/
def Obligations.AtomicsIssue : Prop :=
  (∀ m d a b, GlobalLanes { opSpec [sp2 a, sp1 b] [sp1 d] with hints := [3], adds := [(.ld, 1)] } (.atom m d a b) .atomic 4 (fun t => rdPair t a) fun c wid u k t va l v =>
    RmwIssued c wid u k t va l 4 (.atom m) (rd t b).toNat d 1 (finish { opSpec [sp2 a, sp1 b] [sp1 d] with hints := [3], adds := [(.ld, 1)] } c) v) ∧
  (∀ m d a b, GlobalCompletes { opSpec [sp2 a, sp1 b] [sp1 d] with hints := [3], adds := [(.ld, 1)] } (.atom m d a b) .atomic 4 (fun t => rdPair t a) (fun _ => True) fun c wid u k t va l v =>
    RmwIssued c wid u k t va l 4 (.atom m) (rd t b).toNat d 1 (finish { opSpec [sp2 a, sp1 b] [sp1 d] with hints := [3], adds := [(.ld, 1)] } c) v) ∧
  (∀ m d a b, GlobalLanes { opSpec [sp2 a, sp2 b] [sp2 d] with hints := [3], adds := [(.ld, 1)] } (.atom64 m d a b) .atomic 8 (fun t => rdPair t a) fun c wid u k t va l v =>
    RmwIssued c wid u k t va l 8 (.atom64 m) (rdPair t b) d 2 (finish { opSpec [sp2 a, sp2 b] [sp2 d] with hints := [3], adds := [(.ld, 1)] } c) v) ∧
  (∀ m d a b, GlobalCompletes { opSpec [sp2 a, sp2 b] [sp2 d] with hints := [3], adds := [(.ld, 1)] } (.atom64 m d a b) .atomic 8 (fun t => rdPair t a) (fun _ => True) fun c wid u k t va l v =>
    RmwIssued c wid u k t va l 8 (.atom64 m) (rdPair t b) d 2 (finish { opSpec [sp2 a, sp2 b] [sp2 d] with hints := [3], adds := [(.ld, 1)] } c) v) ∧
  (∀ m d a b, GlobalLanes { opSpec [sp2 a, sp1 b] [sp1 d] with hints := [3], adds := [(.ld, 1)] } (.atomf m d a b) .atomic 4 (fun t => rdPair t a) fun c wid u k t va l v =>
    RmwIssued c wid u k t va l 4 (.atomf m) (rd t b).toNat d 1 (finish { opSpec [sp2 a, sp1 b] [sp1 d] with hints := [3], adds := [(.ld, 1)] } c) v) ∧
  (∀ m d a b, GlobalCompletes { opSpec [sp2 a, sp1 b] [sp1 d] with hints := [3], adds := [(.ld, 1)] } (.atomf m d a b) .atomic 4 (fun t => rdPair t a) (fun _ => True) fun c wid u k t va l v =>
    RmwIssued c wid u k t va l 4 (.atomf m) (rd t b).toNat d 1 (finish { opSpec [sp2 a, sp1 b] [sp1 d] with hints := [3], adds := [(.ld, 1)] } c) v) ∧
  (∀ d a b, GlobalLanes { opSpecD [sp2 a, sp1 b] [sp1 d] with hints := [3], adds := [(.ld, 1)] } (.cas .w32 d a b) .atomic 4 (fun t => rdPair t a) fun c wid u k t va l v =>
    RmwIssued c wid u k t va l 4 (.cas .w32 (rd t d).toNat) (rd t b).toNat d 1 (finish { opSpecD [sp2 a, sp1 b] [sp1 d] with hints := [3], adds := [(.ld, 1)] } c) v) ∧
  (∀ d a b, GlobalCompletes { opSpecD [sp2 a, sp1 b] [sp1 d] with hints := [3], adds := [(.ld, 1)] } (.cas .w32 d a b) .atomic 4 (fun t => rdPair t a) (fun _ => True) fun c wid u k t va l v =>
    RmwIssued c wid u k t va l 4 (.cas .w32 (rd t d).toNat) (rd t b).toNat d 1 (finish { opSpecD [sp2 a, sp1 b] [sp1 d] with hints := [3], adds := [(.ld, 1)] } c) v) ∧
  (∀ d a b, GlobalLanes { opSpecD [sp2 a, sp2 b] [sp2 d] with hints := [3], adds := [(.ld, 1)] } (.cas .w64 d a b) .atomic 8 (fun t => rdPair t a) fun c wid u k t va l v =>
    RmwIssued c wid u k t va l 8 (.cas .w64 (rdPair t d)) (rdPair t b) d 2 (finish { opSpecD [sp2 a, sp2 b] [sp2 d] with hints := [3], adds := [(.ld, 1)] } c) v) ∧
  (∀ d a b, GlobalCompletes { opSpecD [sp2 a, sp2 b] [sp2 d] with hints := [3], adds := [(.ld, 1)] } (.cas .w64 d a b) .atomic 8 (fun t => rdPair t a) (fun _ => True) fun c wid u k t va l v =>
    RmwIssued c wid u k t va l 8 (.cas .w64 (rdPair t d)) (rdPair t b) d 2 (finish { opSpecD [sp2 a, sp2 b] [sp2 d] with hints := [3], adds := [(.ld, 1)] } c) v) ∧
  (∀ old x : Word, (Rmw.atom .add).apply old.toNat x.toNat = (old + x).toNat ∧ (Rmw.atom .xchg).apply old.toNat x.toNat = x.toNat ∧
    (Rmw.atom .minI).apply old.toNat x.toNat = (if x.slt old then x else old).toNat ∧
    (Rmw.atom .maxI).apply old.toNat x.toNat = (if old.slt x then x else old).toNat ∧
    (Rmw.atom .minN).apply old.toNat x.toNat = min old.toNat x.toNat ∧ (Rmw.atom .maxN).apply old.toNat x.toNat = max old.toNat x.toNat ∧
    (Rmw.atom .and).apply old.toNat x.toNat = (old &&& x).toNat ∧ (Rmw.atom .or).apply old.toNat x.toNat = (old ||| x).toNat) ∧
  (∀ cmp old x : Nat, ∀ m, (Rmw.cas m cmp).apply old x = (if old = cmp then x else old) ∧ ((Rmw.cas m cmp).writes old = true ↔ old = cmp))

/-- O32. RADD and RFLUSH (spec/12_memory_ops.md, R222, R234, R250, R251, R395). RADD, in each lane, completes with one reduction of one, two or four elements outstanding on st; in a transaction its elements enter the write set with no access to memory, counted on st. RFLUSH folds the deltas of its die's lines, or of all lines: each folded line holds in memory what stood there, its bytes with its deltas, and every other byte is as before; the folded lines have no deltas and are written back, the answers that their deltas owed are due, and every other line is as it was. It completes at once, counted on st until what was before it retires. Each word ends in a next state, reached lane after lane; of the executing lane the whole thread is given, and nothing else changes but what is named. In a bundle of one lane whose access stands, each word completes, with that effect. In a bundle of one lane that executes it, each word completes, as the last clauses say of it in full. -/
def Obligations.ReductionsIssue : Prop :=
  (∀ a b, GlobalLanes { opSpec [sp2 a, (b.toNat, 1, 1)] [] with adds := [(.st, 1)] } (.radd .f32 a b) .radd 4 (fun t => rdPair t a) fun c wid u k t va l v =>
    RaddIssued c wid u k t va l 4 .f32 (spanNat ((List.range 1).map fun i => readReg t (b.toNat + i))) (finish { opSpec [sp2 a, (b.toNat, 1, 1)] [] with adds := [(.st, 1)] } c) v) ∧
  (∀ a b, GlobalCompletes { opSpec [sp2 a, (b.toNat, 1, 1)] [] with adds := [(.st, 1)] } (.radd .f32 a b) .radd 4 (fun t => rdPair t a) (fun _ => True) fun c wid u k t va l v =>
    RaddIssued c wid u k t va l 4 .f32 (spanNat ((List.range 1).map fun i => readReg t (b.toNat + i))) (finish { opSpec [sp2 a, (b.toNat, 1, 1)] [] with adds := [(.st, 1)] } c) v) ∧
  (∀ a b, GlobalLanes { opSpec [sp2 a, (b.toNat, 2, 2)] [] with adds := [(.st, 1)] } (.radd .f32x2 a b) .radd 8 (fun t => rdPair t a) fun c wid u k t va l v =>
    RaddIssued c wid u k t va l 8 .f32x2 (spanNat ((List.range 2).map fun i => readReg t (b.toNat + i))) (finish { opSpec [sp2 a, (b.toNat, 2, 2)] [] with adds := [(.st, 1)] } c) v) ∧
  (∀ a b, GlobalCompletes { opSpec [sp2 a, (b.toNat, 2, 2)] [] with adds := [(.st, 1)] } (.radd .f32x2 a b) .radd 8 (fun t => rdPair t a) (fun _ => True) fun c wid u k t va l v =>
    RaddIssued c wid u k t va l 8 .f32x2 (spanNat ((List.range 2).map fun i => readReg t (b.toNat + i))) (finish { opSpec [sp2 a, (b.toNat, 2, 2)] [] with adds := [(.st, 1)] } c) v) ∧
  (∀ a b, GlobalLanes { opSpec [sp2 a, (b.toNat, 4, 4)] [] with adds := [(.st, 1)] } (.radd .f32x4 a b) .radd 16 (fun t => rdPair t a) fun c wid u k t va l v =>
    RaddIssued c wid u k t va l 16 .f32x4 (spanNat ((List.range 4).map fun i => readReg t (b.toNat + i))) (finish { opSpec [sp2 a, (b.toNat, 4, 4)] [] with adds := [(.st, 1)] } c) v) ∧
  (∀ a b, GlobalCompletes { opSpec [sp2 a, (b.toNat, 4, 4)] [] with adds := [(.st, 1)] } (.radd .f32x4 a b) .radd 16 (fun t => rdPair t a) (fun _ => True) fun c wid u k t va l v =>
    RaddIssued c wid u k t va l 16 .f32x4 (spanNat ((List.range 4).map fun i => readReg t (b.toNat + i))) (finish { opSpec [sp2 a, (b.toNat, 4, 4)] [] with adds := [(.st, 1)] } c) v) ∧
  (∀ a b, GlobalLanes { opSpec [sp2 a, (b.toNat, 1, 1)] [] with adds := [(.st, 1)] } (.radd .i32 a b) .radd 4 (fun t => rdPair t a) fun c wid u k t va l v =>
    RaddIssued c wid u k t va l 4 .i32 (spanNat ((List.range 1).map fun i => readReg t (b.toNat + i))) (finish { opSpec [sp2 a, (b.toNat, 1, 1)] [] with adds := [(.st, 1)] } c) v) ∧
  (∀ a b, GlobalCompletes { opSpec [sp2 a, (b.toNat, 1, 1)] [] with adds := [(.st, 1)] } (.radd .i32 a b) .radd 4 (fun t => rdPair t a) (fun _ => True) fun c wid u k t va l v =>
    RaddIssued c wid u k t va l 4 .i32 (spanNat ((List.range 1).map fun i => readReg t (b.toNat + i))) (finish { opSpec [sp2 a, (b.toNat, 1, 1)] [] with adds := [(.st, 1)] } c) v) ∧
  (∀ m s, LaneByLane s { opSpec [] [] with adds := [(.st, 1)] } (.rflush m) always (fun _ => s) fun c u k t v =>
    let sel : Nat → Bool := (fun ln => match m with
        | .die => homedOn (dieOf c.core) ln
        | .pkg => true)
      let n := flushWhere u sel
      LaneEnds k { n with nextId := u.nextId + 1 } (finish { opSpec [] [] with adds := [(.st, 1)] } c (addDone t u.nextId .st)) v ∧ (LinesOk u → Flushed sel u n)) ∧
  (∀ m, Completes { opSpec [] [] with adds := [(.st, 1)] } (.rflush m) (fun _ _ _ _ => True)
    fun c u k t v => let sel : Nat → Bool := (fun ln => match m with
        | .die => homedOn (dieOf c.core) ln
        | .pkg => true)
      let n := flushWhere u sel
      LaneEnds k { n with nextId := u.nextId + 1 } (finish { opSpec [] [] with adds := [(.st, 1)] } c (addDone t u.nextId .st)) v ∧ (LinesOk u → Flushed sel u n)) ∧
  (∀ k (t : Thread) pa x e, t.tx.active = true → (t.tx.lines.contains (pa / 128) = true ∨ t.tx.lines.length < Config.writeSetLines) → t.tx.adds = [] →
    raddElems k pa x = [e] → (∀ i, i < 4 → tget t.tx.ws (pa / 128 * 128 + 4 * e.1 + i) = none) →
    (enterRadd t pa k x).tx.wordMods (pa / 128 * 32 + e.1) = [.add (raddInt k) e.2] ∧ (enterRadd t pa k x).tx.ws = t.tx.ws ∧ { enterRadd t pa k x with tx := t.tx } = t)

/-- O33. LDS, STS and BARW on the team stash, and ATOMS without a route (spec/12_memory_ops.md, R203, R221, R246, R258, R260, R261, R348, R387, R392). At the byte offset that each computes: MISALIGN, then STASH_RANGE; a store or barrier word in a tile's bytes takes TILE_STATE; a word in error takes DATA_POISON. Otherwise LDS writes D with the bytes, STS writes the bytes, ATOMS writes D with the old word and the stash with the new, counted on ld; BARW.INIT sets the count, BARW.ARRIVE writes D with the old word and counts one arrival, BARW.WAIT completes where the phase differs from its token's and waits otherwise. An access in a lane whose guard is false is none: the lane goes on past the word, and nothing of it, of memory or of its counters changes. Each word ends in a next state, reached lane after lane; of the executing lane the whole thread is given, and nothing else changes but what is named. In a bundle of one lane that executes it, each word completes, as the last clauses say of it in full. -/
def Obligations.StashWords : Prop :=
  (∀ pg d a imm s, LaneByLane s { opSpec [sp1 a] [(d.toNat, 1, 1)] with guard := pg } (.lds32 pg d a imm) always (fun _ => s) fun c u k t v =>
    let tm := getTeam u t.team
    match stashAt tm ((rd t a).toNat + imm.toInt * 4) 4 with
    | .error code => v = deliver u k code 0 c.fpc
    | .ok o => if stashPoison tm o 4 then v = deliver u k 0x17 0 c.fpc
      else LaneEnds k u (finish { opSpec [sp1 a] [(d.toNat, 1, 1)] with guard := pg } c (writeSpan t d.toNat (natSpan 1 (stashRead (getTeam u t.team) o 4)))) v) ∧
  (∀ pg d a imm, Completes { opSpec [sp1 a] [(d.toNat, 1, 1)] with guard := pg } (.lds32 pg d a imm) (fun _ u _ t => ∃ o, stashAt (getTeam u t.team) ((rd t a).toNat + imm.toInt * 4) 4 = .ok o ∧ stashPoison (getTeam u t.team) o 4 = false)
    fun c u k t v => ∃ o, stashAt (getTeam u t.team) ((rd t a).toNat + imm.toInt * 4) 4 = .ok o ∧ LaneEnds k u (finish { opSpec [sp1 a] [(d.toNat, 1, 1)] with guard := pg } c (writeSpan t d.toNat (natSpan 1 (stashRead (getTeam u t.team) o 4)))) v) ∧
  (∀ pg d a imm s, LaneByLane s { opSpec [sp1 a] [(d.toNat, 4, 4)] with guard := pg } (.lds128 pg d a imm) always (fun _ => s) fun c u k t v =>
    let tm := getTeam u t.team
    match stashAt tm ((rd t a).toNat + imm.toInt * 16) 16 with
    | .error code => v = deliver u k code 0 c.fpc
    | .ok o => if stashPoison tm o 16 then v = deliver u k 0x17 0 c.fpc
      else LaneEnds k u (finish { opSpec [sp1 a] [(d.toNat, 4, 4)] with guard := pg } c (writeSpan t d.toNat (natSpan 4 (stashRead (getTeam u t.team) o 16)))) v) ∧
  (∀ pg d a imm, Completes { opSpec [sp1 a] [(d.toNat, 4, 4)] with guard := pg } (.lds128 pg d a imm) (fun _ u _ t => ∃ o, stashAt (getTeam u t.team) ((rd t a).toNat + imm.toInt * 16) 16 = .ok o ∧ stashPoison (getTeam u t.team) o 16 = false)
    fun c u k t v => ∃ o, stashAt (getTeam u t.team) ((rd t a).toNat + imm.toInt * 16) 16 = .ok o ∧ LaneEnds k u (finish { opSpec [sp1 a] [(d.toNat, 4, 4)] with guard := pg } c (writeSpan t d.toNat (natSpan 4 (stashRead (getTeam u t.team) o 16)))) v) ∧
  (∀ pg d a imm s c ks, prelude { opSpec [sp1 a] [(d.toNat, 1, 1)] with guard := pg } s = .go c ks → ∃ f : State → Nat → State, exec (.lds32 pg d a imm) s = .next (done (laneLoop f s ks)) ∧
    ∀ u k t, getThread u k = some t → readPred t pg = false → LaneEnds k u (finish { opSpec [sp1 a] [(d.toNat, 1, 1)] with guard := pg } c (schedQuiet u c t)) (f u k)) ∧
  (∀ pg d a imm s c ks, prelude { opSpec [sp1 a] [(d.toNat, 4, 4)] with guard := pg } s = .go c ks → ∃ f : State → Nat → State, exec (.lds128 pg d a imm) s = .next (done (laneLoop f s ks)) ∧
    ∀ u k t, getThread u k = some t → readPred t pg = false → LaneEnds k u (finish { opSpec [sp1 a] [(d.toNat, 4, 4)] with guard := pg } c (schedQuiet u c t)) (f u k)) ∧
  (∀ pg d a imm s c ks, prelude { opSpec [sp1 a, (d.toNat, 1, 1)] [] with guard := pg } s = .go c ks → ∃ f : State → Nat → State, exec (.sts32 pg d a imm) s = .next (done (laneLoop f s ks)) ∧
    ∀ u k t, getThread u k = some t → readPred t pg = false → LaneEnds k u (finish { opSpec [sp1 a, (d.toNat, 1, 1)] [] with guard := pg } c (schedQuiet u c t)) (f u k)) ∧
  (∀ pg d a imm s c ks, prelude { opSpec [sp1 a, (d.toNat, 4, 4)] [] with guard := pg } s = .go c ks → ∃ f : State → Nat → State, exec (.sts128 pg d a imm) s = .next (done (laneLoop f s ks)) ∧
    ∀ u k t, getThread u k = some t → readPred t pg = false → LaneEnds k u (finish { opSpec [sp1 a, (d.toNat, 4, 4)] [] with guard := pg } c (schedQuiet u c t)) (f u k)) ∧
  (∀ pg d a imm s, LaneByLane s { opSpec [sp1 a, (d.toNat, 1, 1)] [] with guard := pg } (.sts32 pg d a imm) always (fun _ => s) fun c u k t v =>
    let tm := getTeam u t.team
    match stashAt tm ((rd t a).toNat + imm.toInt * 4) 4 with
    | .error code => v = deliver u k code 0 c.fpc
    | .ok o => if inTiles u tm o 4 then v = deliver u k 0x0A 0 c.fpc
      else v = completeLane (stashWrite (setThread u k t) t.team o (natLe 4 (spanNat ((List.range 1).map fun i => readReg t (d.toNat + i)))) t.pts) k c.words false) ∧
  (∀ pg d a imm, Completes { opSpec [sp1 a, (d.toNat, 1, 1)] [] with guard := pg } (.sts32 pg d a imm) (fun _ u _ t => ∃ o, stashAt (getTeam u t.team) ((rd t a).toNat + imm.toInt * 4) 4 = .ok o ∧ inTiles u (getTeam u t.team) o 4 = false)
    fun c u k t v => ∃ o, stashAt (getTeam u t.team) ((rd t a).toNat + imm.toInt * 4) 4 = .ok o ∧ v = done (completeLane (stashWrite (setThread u k t) t.team o (natLe 4 (spanNat ((List.range 1).map fun i => readReg t (d.toNat + i)))) t.pts) k c.words false)) ∧
  (∀ pg d a imm s, LaneByLane s { opSpec [sp1 a, (d.toNat, 4, 4)] [] with guard := pg } (.sts128 pg d a imm) always (fun _ => s) fun c u k t v =>
    let tm := getTeam u t.team
    match stashAt tm ((rd t a).toNat + imm.toInt * 16) 16 with
    | .error code => v = deliver u k code 0 c.fpc
    | .ok o => if inTiles u tm o 16 then v = deliver u k 0x0A 0 c.fpc
      else v = completeLane (stashWrite (setThread u k t) t.team o (natLe 16 (spanNat ((List.range 4).map fun i => readReg t (d.toNat + i)))) t.pts) k c.words false) ∧
  (∀ pg d a imm, Completes { opSpec [sp1 a, (d.toNat, 4, 4)] [] with guard := pg } (.sts128 pg d a imm) (fun _ u _ t => ∃ o, stashAt (getTeam u t.team) ((rd t a).toNat + imm.toInt * 16) 16 = .ok o ∧ inTiles u (getTeam u t.team) o 16 = false)
    fun c u k t v => ∃ o, stashAt (getTeam u t.team) ((rd t a).toNat + imm.toInt * 16) 16 = .ok o ∧ v = done (completeLane (stashWrite (setThread u k t) t.team o (natLe 16 (spanNat ((List.range 4).map fun i => readReg t (d.toNat + i)))) t.pts) k c.words false)) ∧
  (∀ a b s, LaneByLane s (opSpec [sp1 a, sp1 b] []) (.barwInit a b) always (fun _ => s) fun c u k t v =>
    match barwAt u t a with
    | .error code => v = deliver u k code 0 c.fpc
    | .ok o => v = completeLane (stashWrite (setThread u k t) t.team o (natLe 4 (2 ^ 16 * ((rd t b).toNat % 2 ^ 15))) t.pts) k c.words false) ∧
  (∀ a b, Completes (opSpec [sp1 a, sp1 b] []) (.barwInit a b) (fun _ u _ t => ∃ o, barwAt u t a = .ok o)
    fun c u k t v => ∃ o, barwAt u t a = .ok o ∧ v = done (completeLane (stashWrite (setThread u k t) t.team o (natLe 4 (2 ^ 16 * ((rd t b).toNat % 2 ^ 15))) t.pts) k c.words false)) ∧
  (∀ d a s, LaneByLane s { opSpec [sp1 a] [sp1 d] with order := true } (.barwArrive d a) always (fun _ => s) fun c u k t v =>
    match barwAt u t a with
    | .error code => v = deliver u k code 0 c.fpc
    | .ok o => v = completeLane (arrive (setThread u k (writeReg t d.toNat (BitVec.ofNat 32 (stashRead (getTeam u t.team) o 4)))) t.team o t.pts) k c.words false) ∧
  (∀ d a, Completes { opSpec [sp1 a] [sp1 d] with order := true } (.barwArrive d a) (fun _ u _ t => ∃ o, barwAt u t a = .ok o)
    fun c u k t v => ∃ o, barwAt u t a = .ok o ∧ v = done (completeLane (arrive (setThread u k (writeReg t d.toNat (BitVec.ofNat 32 (stashRead (getTeam u t.team) o 4)))) t.team o t.pts) k c.words false)) ∧
  (∀ d a s, LaneByLane s { opSpec [sp1 a] [sp1 d] with order := true } (.barwArriveWait d a) always (fun _ => s) fun c u k t v =>
    match barwAt u t a with
    | .error code => v = deliver u k code 0 c.fpc
    | .ok o => let w := stashRead (getTeam u t.team) o 4
      let u' := arrive (setThread u k (writeReg t d.toNat (BitVec.ofNat 32 w))) t.team o t.pts
      ∀ t', getThread u' k = some t' → t'.team = t.team →
        if stashRead (getTeam u' t.team) o 4 / 2 ^ 31 % 2 ≠ w / 2 ^ 31 % 2 then LaneEnds k u' (finish { opSpec [sp1 a] [sp1 d] with order := true } c { t' with pts := max t'.pts ((tget (getTeam u' t.team).hiddenAt o).getD (getCore u' (coreOf k)).hiddenFloor) }) v
        else ∃ x, LaneEnds k u' x v ∧ x.st = .waiting ∧ x.waitOn = .barw ∧ x.pc = t'.pc) ∧
  (∀ d a, Completes { opSpec [sp1 a] [sp1 d] with order := true } (.barwArriveWait d a) (fun _ u k t => ∃ o, barwAt u t a = .ok o ∧
      let w := stashRead (getTeam u t.team) o 4
      let u' := arrive (setThread u k (writeReg t d.toNat (BitVec.ofNat 32 w))) t.team o t.pts
      stashRead (getTeam u' t.team) o 4 / 2 ^ 31 % 2 ≠ w / 2 ^ 31 % 2)
    fun c u k t v => ∃ o t', barwAt u t a = .ok o ∧
      let w := stashRead (getTeam u t.team) o 4
      let u' := arrive (setThread u k (writeReg t d.toNat (BitVec.ofNat 32 w))) t.team o t.pts
      getThread u' k = some t' ∧ readReg t' d.toNat = BitVec.ofNat 32 w ∧ LaneEnds k u' (finish { opSpec [sp1 a] [sp1 d] with order := true } c { t' with pts := max t'.pts ((tget (getTeam u' t.team).hiddenAt o).getD (getCore u' (coreOf k)).hiddenFloor) }) v) ∧
  (∀ a b s, LaneByLane s (opSpec [sp1 a, sp1 b] []) (.barwWait a b) always (fun _ => s) fun c u k t v =>
    match barwAt u t a with
    | .error code => v = deliver u k code 0 c.fpc
    | .ok o => if stashRead (getTeam u t.team) o 4 / 2 ^ 31 % 2 ≠ (rd t b).toNat / 2 ^ 31 % 2 then LaneEnds k u (finish (opSpec [sp1 a, sp1 b] []) c { t with pts := max t.pts ((tget (getTeam u t.team).hiddenAt o).getD (getCore u (coreOf k)).hiddenFloor) }) v
      else ∃ x, LaneEnds k u x v ∧ x.st = .waiting ∧ x.waitOn = .barw ∧ x.pc = t.pc ∧ x.regs = t.regs) ∧
  (∀ a b, Completes (opSpec [sp1 a, sp1 b] []) (.barwWait a b) (fun _ u _ t => ∃ o, barwAt u t a = .ok o ∧ stashRead (getTeam u t.team) o 4 / 2 ^ 31 % 2 ≠ (rd t b).toNat / 2 ^ 31 % 2)
    fun c u k t v => ∃ o, barwAt u t a = .ok o ∧ LaneEnds k u (finish (opSpec [sp1 a, sp1 b] []) c { t with pts := max t.pts ((tget (getTeam u t.team).hiddenAt o).getD (getCore u (coreOf k)).hiddenFloor) }) v) ∧
  (∀ m d a b s, (∀ x, s.cur = some x → ∀ h ∈ x.hints, h.kind ≠ 2) → s.cur ≠ none →
    LaneByLane s { opSpec [sp1 a, sp1 b] [sp1 d] with hints := [2], adds := [(.ld, 1)] } (.atoms m d a b) always (fun _ => s) fun c u k t v =>
    match barwAt u t a with
    | .error code => v = deliver u k code 0 c.fpc
    | .ok o => let old := stashRead (getTeam u t.team) o 4
      v = completeLane (stashWrite (setThread { u with nextId := u.nextId + 1 } k (addDone (writeReg t d.toNat (BitVec.ofNat 32 old)) u.nextId .ld)) t.team o
        (natLe 4 ((Rmw.atom m).apply old (rd t b).toNat)) t.pts) k c.words false) ∧
  (∀ m d a b, Completes { opSpec [sp1 a, sp1 b] [sp1 d] with hints := [2], adds := [(.ld, 1)] } (.atoms m d a b) (fun _ u _ t => routed u = false ∧ ∃ o, barwAt u t a = .ok o)
    fun c u k t v => ∃ o, barwAt u t a = .ok o ∧
      let old := stashRead (getTeam u t.team) o 4
      v = done (completeLane (stashWrite (setThread { u with nextId := u.nextId + 1 } k (addDone (writeReg t d.toNat (BitVec.ofNat 32 old)) u.nextId .ld)) t.team o
        (natLe 4 ((Rmw.atom m).apply old (rd t b).toNat)) t.pts) k c.words false))

/-- O34. What a stash write and an arrival leave in the stash, and which threads they release (spec/10_memories.md, spec/12_memory_ops.md, R203, R221, R259, R260, R261). After a stash write the bytes of its stretch read as written and every other byte of every team as before (of another team only the hidden stamps of barrier words may change, where the core keeps no more of them); an arrival raises the count, or at the full count inverts the phase and clears the count; memory, and the bundles that ports hold, are untouched. The threads that it releases are those that wait at a barrier word of the stretch whose phase it changes: each completes its word, its pts raised to at least the writer's, its registers as they were; every other thread is untouched. -/
def Obligations.StashBytes : Prop :=
  (∀ s team o bs p tm, tget s.ex.teams team = some tm → tm.stash.Pairwise (fun x y => x.1 < y.1) →
    (stashWrite s team o bs p).mm = s.mm ∧
    (∀ i, i < bs.length → stashRead (getTeam (stashWrite s team o bs p) team) (o + i) 1 = ((bs[i]?).getD 0).toNat) ∧
    (∀ a, a < o ∨ o + bs.length ≤ a → stashRead (getTeam (stashWrite s team o bs p) team) a 1 = stashRead tm a 1) ∧
    (∀ j, j ≠ team → { getTeam (stashWrite s team o bs p) j with hidden := [], hiddenAt := [] } = { getTeam s j with hidden := [], hiddenAt := [] })) ∧
  (∀ s team o bs p tm, tget s.ex.teams team = some tm → tm.stash.Pairwise (fun x y => x.1 < y.1) → s.ex.threads.Pairwise (fun x y => x.1 < y.1) →
    let u := stashWrite s team o bs p
    let flips (w : Nat) : Prop := w ∈ wordsOf o bs.length ∧ bit (stashRead tm w 4) 31 ≠ bit (stashRead (getTeam u team) w 4) 31
    (∀ n, (getCore u n).ports = (getCore s n).ports) ∧
    (∀ k t, getThread s k = some t → (t.team ≠ team ∨ t.waitOn ≠ .barw ∨ ∀ h, t.held = some h → ¬ flips h.off) → getThread u k = some t) ∧
    (∀ k t h, getThread s k = some t → t.team = team → t.waitOn = .barw → t.held = some h → flips h.off →
      ∃ q, t.pts ≤ q ∧ p ≤ q ∧ getThread u k = some (completeWait { t with pts := q } (heldWords t)) ∧ (completeWait { t with pts := q } (heldWords t)).regs = t.regs)) ∧
  (∀ ph n k, ph < 2 → n < 2 ^ 15 → k < 2 ^ 15 → k + 1 < n → arriveWord (ph * 2 ^ 31 + n * 2 ^ 16 + k) = ph * 2 ^ 31 + n * 2 ^ 16 + (k + 1)) ∧
  (∀ ph n k, ph < 2 → n < 2 ^ 15 → k < 2 ^ 15 → n ≤ k + 1 → arriveWord (ph * 2 ^ 31 + n * 2 ^ 16 + k) = (1 - ph) * 2 ^ 31 + n * 2 ^ 16)

/-- O35. CLD, CST and ATOMS with a route issue one access to a stash of the cluster (spec/12_memory_ops.md, R194, R257, R258, R348). By its HINT.ROUTE a lane names a core of its cluster; where no team of the cluster stands there it takes the fault of R257, then MISALIGN, STASH_RANGE, and for a write into a tile TILE_STATE. Otherwise it completes with one access outstanding, to that team's stash at the offset in A. Each word ends in a next state, reached lane after lane; of the executing lane the whole thread is given, and nothing else changes but what is named. In a bundle of one lane that executes it, each word completes, as the last clauses say of it in full. -/
def Obligations.RoutedStashWords : Prop :=
  (∀ d a s, LaneByLane s { opSpec [sp1 a] [sp1 d] with hints := [2], needs := [2], adds := [(.ld, 1)] } (.cld d a) always (fun _ => { s with nextId := s.nextId + 1 }) fun c u k t v =>
    match peerAt u t c a false with
    | .error code => v = deliver u k code 0 c.fpc
    | .ok (team, o) => LaneEnds k { u with nextId := u.nextId + 1 } (finish { opSpec [sp1 a] [sp1 d] with hints := [2], needs := [2], adds := [(.ld, 1)] } c (addOp t
        { newOp c s.nextId u.nextId t .ld (.peerLoad team o) 0 (.here 0) 4 with dest := d.toNat, dlen := 1 })) v) ∧
  (∀ d a, Completes { opSpec [sp1 a] [sp1 d] with hints := [2], needs := [2], adds := [(.ld, 1)] } (.cld d a) (fun c u _ t => ∃ x, peerAt u t c a false = .ok x)
    fun c u k t v => ∃ team o, peerAt u t c a false = .ok (team, o) ∧ LaneEnds k { u with nextId := u.nextId + 2 } (finish { opSpec [sp1 a] [sp1 d] with hints := [2], needs := [2], adds := [(.ld, 1)] } c (addOp t
        { newOp c u.nextId (u.nextId + 1) t .ld (.peerLoad team o) 0 (.here 0) 4 with dest := d.toNat, dlen := 1 })) v) ∧
  (∀ a b s, LaneByLane s { opSpec [sp1 a, sp1 b] [] with hints := [2], needs := [2], adds := [(.st, 1)] } (.cst a b) always (fun _ => { s with nextId := s.nextId + 1 }) fun c u k t v =>
    match peerAt u t c a true with
    | .error code => v = deliver u k code 0 c.fpc
    | .ok (team, o) => LaneEnds k { u with nextId := u.nextId + 1 } (finish { opSpec [sp1 a, sp1 b] [] with hints := [2], needs := [2], adds := [(.st, 1)] } c (addOp t
        { newOp c s.nextId u.nextId t .st (.peerStore team o (rd t b).toNat) 0 (.here 0) 4 with dest := 0, dlen := 0 })) v) ∧
  (∀ a b, Completes { opSpec [sp1 a, sp1 b] [] with hints := [2], needs := [2], adds := [(.st, 1)] } (.cst a b) (fun c u _ t => ∃ x, peerAt u t c a true = .ok x)
    fun c u k t v => ∃ team o, peerAt u t c a true = .ok (team, o) ∧ LaneEnds k { u with nextId := u.nextId + 2 } (finish { opSpec [sp1 a, sp1 b] [] with hints := [2], needs := [2], adds := [(.st, 1)] } c (addOp t
        { newOp c u.nextId (u.nextId + 1) t .st (.peerStore team o (rd t b).toNat) 0 (.here 0) 4 with dest := 0, dlen := 0 })) v) ∧
  (∀ m d a b s, routed s = true → LaneByLane s { opSpec [sp1 a, sp1 b] [sp1 d] with hints := [2], adds := [(.ld, 1)] } (.atoms m d a b) always (fun _ => { s with nextId := s.nextId + 1 }) fun c u k t v =>
    match peerAt u t c a true with
    | .error code => v = deliver u k code 0 c.fpc
    | .ok (team, o) => LaneEnds k { u with nextId := u.nextId + 1 } (finish { opSpec [sp1 a, sp1 b] [sp1 d] with hints := [2], adds := [(.ld, 1)] } c (addOp t
        { newOp c s.nextId u.nextId t .ld (.peerRmw team o m (rd t b).toNat) 0 (.here 0) 4 with dest := d.toNat, dlen := 1 })) v) ∧
  (∀ m d a b, Completes { opSpec [sp1 a, sp1 b] [sp1 d] with hints := [2], adds := [(.ld, 1)] } (.atoms m d a b) (fun c u _ t => routed u = true ∧ ∃ x, peerAt u t c a true = .ok x)
    fun c u k t v => ∃ team o, peerAt u t c a true = .ok (team, o) ∧ LaneEnds k { u with nextId := u.nextId + 2 } (finish { opSpec [sp1 a, sp1 b] [sp1 d] with hints := [2], adds := [(.ld, 1)] } c (addOp t
        { newOp c u.nextId (u.nextId + 1) t .ld (.peerRmw team o m (rd t b).toNat) 0 (.here 0) 4 with dest := d.toNat, dlen := 1 })) v)

/-- O36. CHLD reads its descriptor and sends out its packet (spec/12_memory_ops.md, R252, R253, R254). The descriptor stands in the stash at the offset in B. A base pair that is an undefined temporary, where the steps read name an index step, takes TEMP_UNDEF (before the descriptor's fault, the model's choice, log entry 53); a fault of the descriptor is the lane's, and so is a poisoned base. Otherwise the lane completes with one chain outstanding on ld, from the pointer in A with the base in D where an index step needs it, and with X1 for .add32; D is pending until it returns. Each word ends in a next state, reached lane after lane; of the executing lane the whole thread is given, and nothing else changes but what is named. In a bundle of one lane that executes it, each word completes, as the last clauses say of it in full. -/
def Obligations.ChainIssue : Prop :=
  (∀ d a b s, LaneByLane s { opSpec [sp2 a, sp1 b] [sp2 d] with adds := [(.ld, 1)] } (.chld .ld64 d a b) always (fun _ => s) fun c u k t v =>
    ∀ l e, chainDesc (getTeam u t.team) (rd t b).toNat = (l, e) →
      ((hasIndex l = true ∧ ∃ n ∈ [d.toNat, d.toNat + 1], 120 ≤ n ∧ tget t.tvalid n ≠ some true) → v = deliver u k 0x03 0 c.fpc) ∧
      (¬ (hasIndex l = true ∧ ∃ n ∈ [d.toNat, d.toNat + 1], 120 ≤ n ∧ tget t.tvalid n ≠ some true) → ∀ code, e = some code → v = deliver u k code 0 c.fpc) ∧
      (¬ (hasIndex l = true ∧ ∃ n ∈ [d.toNat, d.toNat + 1], 120 ≤ n ∧ tget t.tvalid n ≠ some true) → e = none → (hasIndex l = true ∧ ∃ n ∈ [d.toNat, d.toNat + 1], n ∈ t.rpoison) → v = deliver u k 0x17 0 c.fpc) ∧
      (¬ (hasIndex l = true ∧ ∃ n ∈ [d.toNat, d.toNat + 1], 120 ≤ n ∧ tget t.tvalid n ≠ some true) → e = none → ¬ (hasIndex l = true ∧ ∃ n ∈ [d.toNat, d.toNat + 1], n ∈ t.rpoison) → LaneEnds k { u with nextId := u.nextId + 1 } (finish { opSpec [sp2 a, sp1 b] [sp2 d] with adds := [(.ld, 1)] } c (addOp t { newOp c u.nextId u.nextId t .ld (.chain { fin := .ld64, steps := l, p := rdPair t a, c := t.pts, base := if hasIndex l then rdPair t d else 0, x1 := (readReg t ((s.cur.map fun x => opxX1 x.hints).getD 0)).toNat }) 0 (.here 0) 8 with dest := d.toNat, dlen := 2 })) v)) ∧
  (∀ d a b, Completes { opSpec [sp2 a, sp1 b] [sp2 d] with adds := [(.ld, 1)] } (.chld .ld64 d a b) (fun _ u _ t => ∃ l, chainDesc (getTeam u t.team) (rd t b).toNat = (l, none) ∧ ¬ (hasIndex l = true ∧ ∃ n ∈ [d.toNat, d.toNat + 1], 120 ≤ n ∧ tget t.tvalid n ≠ some true) ∧ ¬ (hasIndex l = true ∧ ∃ n ∈ [d.toNat, d.toNat + 1], n ∈ t.rpoison))
    fun c u k t v => ∃ l, chainDesc (getTeam u t.team) (rd t b).toNat = (l, none) ∧ 
      LaneEnds k { u with nextId := u.nextId + 1 } (finish { opSpec [sp2 a, sp1 b] [sp2 d] with adds := [(.ld, 1)] } c (addOp t { newOp c u.nextId u.nextId t .ld (.chain { fin := .ld64, steps := l, p := rdPair t a, c := t.pts, base := if hasIndex l then rdPair t d else 0, x1 := (readReg t ((u.cur.map fun x => opxX1 x.hints).getD 0)).toNat }) 0 (.here 0) 8 with dest := d.toNat, dlen := 2 })) v) ∧
  (∀ d a b s, LaneByLane s { opSpec [sp2 a, sp1 b] [sp2 d] with adds := [(.ld, 1)] } (.chld .ld32 d a b) always (fun _ => s) fun c u k t v =>
    ∀ l e, chainDesc (getTeam u t.team) (rd t b).toNat = (l, e) →
      ((hasIndex l = true ∧ ∃ n ∈ [d.toNat, d.toNat + 1], 120 ≤ n ∧ tget t.tvalid n ≠ some true) → v = deliver u k 0x03 0 c.fpc) ∧
      (¬ (hasIndex l = true ∧ ∃ n ∈ [d.toNat, d.toNat + 1], 120 ≤ n ∧ tget t.tvalid n ≠ some true) → ∀ code, e = some code → v = deliver u k code 0 c.fpc) ∧
      (¬ (hasIndex l = true ∧ ∃ n ∈ [d.toNat, d.toNat + 1], 120 ≤ n ∧ tget t.tvalid n ≠ some true) → e = none → (hasIndex l = true ∧ ∃ n ∈ [d.toNat, d.toNat + 1], n ∈ t.rpoison) → v = deliver u k 0x17 0 c.fpc) ∧
      (¬ (hasIndex l = true ∧ ∃ n ∈ [d.toNat, d.toNat + 1], 120 ≤ n ∧ tget t.tvalid n ≠ some true) → e = none → ¬ (hasIndex l = true ∧ ∃ n ∈ [d.toNat, d.toNat + 1], n ∈ t.rpoison) → LaneEnds k { u with nextId := u.nextId + 1 } (finish { opSpec [sp2 a, sp1 b] [sp2 d] with adds := [(.ld, 1)] } c (addOp t { newOp c u.nextId u.nextId t .ld (.chain { fin := .ld32, steps := l, p := rdPair t a, c := t.pts, base := if hasIndex l then rdPair t d else 0, x1 := (readReg t ((s.cur.map fun x => opxX1 x.hints).getD 0)).toNat }) 0 (.here 0) 8 with dest := d.toNat, dlen := 2 })) v)) ∧
  (∀ d a b, Completes { opSpec [sp2 a, sp1 b] [sp2 d] with adds := [(.ld, 1)] } (.chld .ld32 d a b) (fun _ u _ t => ∃ l, chainDesc (getTeam u t.team) (rd t b).toNat = (l, none) ∧ ¬ (hasIndex l = true ∧ ∃ n ∈ [d.toNat, d.toNat + 1], 120 ≤ n ∧ tget t.tvalid n ≠ some true) ∧ ¬ (hasIndex l = true ∧ ∃ n ∈ [d.toNat, d.toNat + 1], n ∈ t.rpoison))
    fun c u k t v => ∃ l, chainDesc (getTeam u t.team) (rd t b).toNat = (l, none) ∧ 
      LaneEnds k { u with nextId := u.nextId + 1 } (finish { opSpec [sp2 a, sp1 b] [sp2 d] with adds := [(.ld, 1)] } c (addOp t { newOp c u.nextId u.nextId t .ld (.chain { fin := .ld32, steps := l, p := rdPair t a, c := t.pts, base := if hasIndex l then rdPair t d else 0, x1 := (readReg t ((u.cur.map fun x => opxX1 x.hints).getD 0)).toNat }) 0 (.here 0) 8 with dest := d.toNat, dlen := 2 })) v) ∧
  (∀ d a b s, LaneByLane s { opSpec [sp2 a, sp1 b] [sp2 d] with adds := [(.ld, 1)] } (.chld .addr d a b) always (fun _ => s) fun c u k t v =>
    ∀ l e, chainDesc (getTeam u t.team) (rd t b).toNat = (l, e) →
      ((hasIndex l = true ∧ ∃ n ∈ [d.toNat, d.toNat + 1], 120 ≤ n ∧ tget t.tvalid n ≠ some true) → v = deliver u k 0x03 0 c.fpc) ∧
      (¬ (hasIndex l = true ∧ ∃ n ∈ [d.toNat, d.toNat + 1], 120 ≤ n ∧ tget t.tvalid n ≠ some true) → ∀ code, e = some code → v = deliver u k code 0 c.fpc) ∧
      (¬ (hasIndex l = true ∧ ∃ n ∈ [d.toNat, d.toNat + 1], 120 ≤ n ∧ tget t.tvalid n ≠ some true) → e = none → (hasIndex l = true ∧ ∃ n ∈ [d.toNat, d.toNat + 1], n ∈ t.rpoison) → v = deliver u k 0x17 0 c.fpc) ∧
      (¬ (hasIndex l = true ∧ ∃ n ∈ [d.toNat, d.toNat + 1], 120 ≤ n ∧ tget t.tvalid n ≠ some true) → e = none → ¬ (hasIndex l = true ∧ ∃ n ∈ [d.toNat, d.toNat + 1], n ∈ t.rpoison) → LaneEnds k { u with nextId := u.nextId + 1 } (finish { opSpec [sp2 a, sp1 b] [sp2 d] with adds := [(.ld, 1)] } c (addOp t { newOp c u.nextId u.nextId t .ld (.chain { fin := .addr, steps := l, p := rdPair t a, c := t.pts, base := if hasIndex l then rdPair t d else 0, x1 := (readReg t ((s.cur.map fun x => opxX1 x.hints).getD 0)).toNat }) 0 (.here 0) 8 with dest := d.toNat, dlen := 2 })) v)) ∧
  (∀ d a b, Completes { opSpec [sp2 a, sp1 b] [sp2 d] with adds := [(.ld, 1)] } (.chld .addr d a b) (fun _ u _ t => ∃ l, chainDesc (getTeam u t.team) (rd t b).toNat = (l, none) ∧ ¬ (hasIndex l = true ∧ ∃ n ∈ [d.toNat, d.toNat + 1], 120 ≤ n ∧ tget t.tvalid n ≠ some true) ∧ ¬ (hasIndex l = true ∧ ∃ n ∈ [d.toNat, d.toNat + 1], n ∈ t.rpoison))
    fun c u k t v => ∃ l, chainDesc (getTeam u t.team) (rd t b).toNat = (l, none) ∧ 
      LaneEnds k { u with nextId := u.nextId + 1 } (finish { opSpec [sp2 a, sp1 b] [sp2 d] with adds := [(.ld, 1)] } c (addOp t { newOp c u.nextId u.nextId t .ld (.chain { fin := .addr, steps := l, p := rdPair t a, c := t.pts, base := if hasIndex l then rdPair t d else 0, x1 := (readReg t ((u.cur.map fun x => opxX1 x.hints).getD 0)).toNat }) 0 (.here 0) 8 with dest := d.toNat, dlen := 2 })) v) ∧
  (∀ d a b s x, s.cur = some x → LaneByLane s { opSpec [sp2 a, sp1 b, (opxX1 x.hints, 1, 1)] [sp2 d] with hints := [1], needs := [1], adds := [(.ld, 1)] } (.chld .add32 d a b) always (fun _ => s) fun c u k t v =>
    ∀ l e, chainDesc (getTeam u t.team) (rd t b).toNat = (l, e) →
      ((hasIndex l = true ∧ ∃ n ∈ [d.toNat, d.toNat + 1], 120 ≤ n ∧ tget t.tvalid n ≠ some true) → v = deliver u k 0x03 0 c.fpc) ∧
      (¬ (hasIndex l = true ∧ ∃ n ∈ [d.toNat, d.toNat + 1], 120 ≤ n ∧ tget t.tvalid n ≠ some true) → ∀ code, e = some code → v = deliver u k code 0 c.fpc) ∧
      (¬ (hasIndex l = true ∧ ∃ n ∈ [d.toNat, d.toNat + 1], 120 ≤ n ∧ tget t.tvalid n ≠ some true) → e = none → (hasIndex l = true ∧ ∃ n ∈ [d.toNat, d.toNat + 1], n ∈ t.rpoison) → v = deliver u k 0x17 0 c.fpc) ∧
      (¬ (hasIndex l = true ∧ ∃ n ∈ [d.toNat, d.toNat + 1], 120 ≤ n ∧ tget t.tvalid n ≠ some true) → e = none → ¬ (hasIndex l = true ∧ ∃ n ∈ [d.toNat, d.toNat + 1], n ∈ t.rpoison) → LaneEnds k { u with nextId := u.nextId + 1 } (finish { opSpec [sp2 a, sp1 b, (opxX1 x.hints, 1, 1)] [sp2 d] with hints := [1], needs := [1], adds := [(.ld, 1)] } c (addOp t { newOp c u.nextId u.nextId t .ld (.chain { fin := .add32, steps := l, p := rdPair t a, c := t.pts, base := if hasIndex l then rdPair t d else 0, x1 := (readReg t (opxX1 x.hints)).toNat }) 0 (.here 0) 8 with dest := d.toNat, dlen := 2 })) v)) ∧
  (∀ d a b s c k t0 x, s.cur = some x → Issues { opSpec [sp2 a, sp1 b, (opxX1 x.hints, 1, 1)] [sp2 d] with hints := [1], needs := [1], adds := [(.ld, 1)] } c [k] s → getThread s k = some t0 →
    let u := s
    let t := schedQuiet s c t0
    (∃ l, chainDesc (getTeam u t.team) (rd t b).toNat = (l, none) ∧ ¬ (hasIndex l = true ∧ ∃ n ∈ [d.toNat, d.toNat + 1], 120 ≤ n ∧ tget t.tvalid n ≠ some true) ∧ ¬ (hasIndex l = true ∧ ∃ n ∈ [d.toNat, d.toNat + 1], n ∈ t.rpoison)) →
    ∃ v, exec (.chld .add32 d a b) s = .next v ∧ v.cur = none ∧ (∃ l, chainDesc (getTeam u t.team) (rd t b).toNat = (l, none) ∧ 
      LaneEnds k { u with nextId := u.nextId + 1 } (finish { opSpec [sp2 a, sp1 b, (opxX1 x.hints, 1, 1)] [sp2 d] with hints := [1], needs := [1], adds := [(.ld, 1)] } c (addOp t { newOp c u.nextId u.nextId t .ld (.chain { fin := .add32, steps := l, p := rdPair t a, c := t.pts, base := if hasIndex l then rdPair t d else 0, x1 := (readReg t (opxX1 x.hints)).toNat }) 0 (.here 0) 8 with dest := d.toNat, dlen := 2 })) v))

/-- O37. WAIT completes where its counters allow, faults on a poisoned value, and waits otherwise (spec/20_counters.md, R225, R396, R398). Where every counter whose field is not all ones stands at or below its field: the lane takes the fault of the first poisoned or denied load that its ld field covers, and otherwise completes, its pts raised to the completion stamps of the jobs that its cp field covers, and forgets them. Where some counter stands above its field the thread waits at the word. Each word ends in a next state, reached lane after lane; of the executing lane the whole thread is given, and nothing else changes but what is named. In a bundle of one lane that executes it, each word completes, as the last clauses say of it in full. -/
def Obligations.WaitCompletes : Prop :=
  (∀ ld st cp tl s, LaneByLane s {} (.wait ld st cp tl) always (fun _ => s) fun c u k t v =>
    let met := (ld = 63 ∨ count t .ld ≤ ld.toNat) ∧ (st = 63 ∨ count t .st ≤ st.toNat) ∧ (cp = 15 ∨ count t .cp ≤ cp.toNat) ∧
      (tl = 15 ∨ count t .tl ≤ tl.toNat)
    (¬ met → ∃ x, LaneEnds k u x v ∧ x.st = .waiting ∧ x.waitOn = .wait ∧ x.pc = t.pc ∧ x.regs = t.regs) ∧
    (met → ∀ b, waitBad t ld = some b → v = deliver (setThread u k (dropBad t b)) k (if b.prot then 0x08 else 0x17) b.addr c.fpc) ∧
    (met → waitBad t ld = none → ∃ x, LaneEnds k u (finish {} c x) v ∧ x = { t with pts := x.pts, retF := x.retF } ∧ t.pts ≤ x.pts ∧
      (cp = 15 → x = t) ∧ (cp ≠ 15 → ∀ e ∈ t.retF, e.1 + cp.toNat ≤ t.cpIssued → e.2 ≤ x.pts ∧ e ∉ x.retF))) ∧
  (∀ ld st cp tl, Completes {} (.wait ld st cp tl) (fun _ _ _ t => (ld = 63 ∨ count t .ld ≤ ld.toNat) ∧ (st = 63 ∨ count t .st ≤ st.toNat) ∧ (cp = 15 ∨ count t .cp ≤ cp.toNat) ∧
      (tl = 15 ∨ count t .tl ≤ tl.toNat) ∧ waitBad t ld = none)
    fun c u k t v => ∃ x, LaneEnds k u (finish {} c x) v ∧ x = { t with pts := x.pts, retF := x.retF } ∧ t.pts ≤ x.pts ∧
      (cp = 15 → x = t) ∧ (cp ≠ 15 → ∀ e ∈ t.retF, e.1 + cp.toNat ≤ t.cpIssued → e.2 ≤ x.pts ∧ e ∉ x.retF))

/-- O38. FENCE completes, and the BAR that completes its barrier releases every thread that waits at it (spec/11_ordering.md, spec/20_counters.md, R221, R223, R267, R399, R400, R401). FENCE.tgt completes in a lane whose accesses are stamped; FENCE.sys does too, once no package owes an answer and the host path can carry the flush of what is written to host memory, with every delta folded and every line written back, which is the choice of log entry 55. At BAR.team a lane waits, its arrival counted; where with it the arrivals and the exited threads are all threads of the team and the accesses of those threads are stamped, every thread that waits at the barrier completes its word with the largest pts of the team, and the count is 0 again; at BAR.cluster the same of the one team of a cluster. In a bundle of one lane that executes it, each word completes, as the last clauses say of it in full. -/
def Obligations.BarrierReleases : Prop :=
  (∀ s, LaneByLane s { order := true } (.fence .tgt) always (fun _ => s) fun c u k t v =>
    LaneEnds k u (finish { order := true } c t) v) ∧
  (Completes { order := true } (.fence .tgt) (fun _ _ _ _ => True)
    fun c u k t v => LaneEnds k u (finish { order := true } c t) v) ∧
  (∀ s, LaneByLane s { order := true } (.fence .sys) (fun _ ks => (∀ k ∈ ks, owes s k = false) ∧ flushWaits s = false) (fun _ => settleAll s) fun c u k t v =>
    LaneEnds k u (finish { order := true } c t) v) ∧
  (Completes { order := true } (.fence .sys) (fun _ u k _ => owes u k = false ∧ flushWaits u = false)
    fun c u k t v => LaneEnds k (settleAll u) (finish { order := true } c t) v) ∧
  (∀ s ln l, (ln, l) ∈ (settleAll s).mm.lines → isHost (ln * 128) = false → s.mm.lines.Pairwise (fun x y => x.1 < y.1) → l.delta = none ∧ l.back = none) ∧
  (∀ s, LaneByLane s { order := true } (.bar .team) always (fun _ => s) fun c u k t v =>
    ∀ tm, tget u.ex.teams t.team = some tm → (∀ cl, tget u.ex.clusters tm.cluster = some cl → cl.barCount = 0) →
      let w := waiting c t .bar (.bar .team)
      let l := teamMates (setThread u k w) t.team
      (tm.barCount + 1 + (l.filter fun e => !e.2.live).length = tm.threads → drainedStamped l = true →
        (∀ tm', tget v.ex.teams t.team = some tm' → tm'.barCount = 0) ∧
        ∀ e ∈ l, u.ex.threads.Pairwise (fun x y => x.1 < y.1) → e.2.waitOn = .bar → (e.2.held.map (·.instr)) = some (.bar .team) →
          getThread v e.1 = some (completeWait { e.2 with pts := l.foldl (fun n e => max n e.2.pts) 0 } (heldWords e.2))) ∧
      ((tm.barCount + 1 + (l.filter fun e => !e.2.live).length ≠ tm.threads ∨ drainedStamped l = false) →
        (∃ tm', tget v.ex.teams t.team = some tm' ∧ tm'.barCount = tm.barCount + 1) ∧ getThread v k = some w)) ∧
  (∀ s, LaneByLane s { order := true } (.bar .cluster) always (fun _ => s) fun c u k t v =>
    ∀ tm cl, tget u.ex.teams t.team = some tm → tget u.ex.clusters tm.cluster = some cl → tm.barCount = 0 → cl.teams = [t.team] → tm.gone = false →
      u.ex.threads.Pairwise (fun x y => x.1 < y.1) → (∀ e ∈ u.ex.threads, e.2.team < 2 ^ 90) →
      let w := waiting c t .bar (.bar .cluster)
      let l := teamMates (setThread u k w) t.team
      cl.barCount + 1 + (l.filter fun e => !e.2.live).length = tm.threads → drainedStamped l = true →
      (∀ cl', tget v.ex.clusters tm.cluster = some cl' → cl'.barCount = 0) ∧
      getThread v k = some (completeWait { w with pts := l.foldl (fun n e => max n e.2.pts) tm.exitPts } c.words)) ∧
  (Completes { order := true } (.bar .team) (fun c u k t => ∃ tm, tget u.ex.teams t.team = some tm ∧ (∀ cl, tget u.ex.clusters tm.cluster = some cl → cl.barCount = 0) ∧ u.ex.threads.Pairwise (fun x y => x.1 < y.1) ∧
      let l := teamMates (setThread u k (waiting c t .bar (.bar .team))) t.team
      tm.barCount + 1 + (l.filter fun e => !e.2.live).length = tm.threads ∧ drainedStamped l = true)
    fun c u k t v => let w := waiting c t .bar (.bar .team)
      let l := teamMates (setThread u k w) t.team
      getThread v k = some (completeWait { w with pts := l.foldl (fun n e => max n e.2.pts) 0 } c.words) ∧ v.mm = u.mm ∧
      (∀ tm', tget v.ex.teams t.team = some tm' → tm'.barCount = 0)) ∧
  (Completes { order := true } (.bar .cluster) (fun c u k t => ∃ tm cl, tget u.ex.teams t.team = some tm ∧ tget u.ex.clusters tm.cluster = some cl ∧ tm.barCount = 0 ∧ cl.teams = [t.team] ∧ tm.gone = false ∧
      u.ex.threads.Pairwise (fun x y => x.1 < y.1) ∧ (∀ e ∈ u.ex.threads, e.2.team < 2 ^ 90) ∧
      let l := teamMates (setThread u k (waiting c t .bar (.bar .cluster))) t.team
      cl.barCount + 1 + (l.filter fun e => !e.2.live).length = tm.threads ∧ drainedStamped l = true)
    fun c u k t v => let w := waiting c t .bar (.bar .cluster)
      let l := teamMates (setThread u k w) t.team
      ∃ p, getThread v k = some (completeWait { w with pts := p } c.words) ∧ v.mm = u.mm ∧ ∀ e ∈ l, e.2.pts ≤ p)

/-- O39. TXBEGIN, TXCOMMIT and SNAP_OPEN (spec/12_memory_ops.md, R227, R229, R234, R235, R236, R263, R264, R265, R266). TXBEGIN outside a transaction opens a snapshot at S, the larger of the thread's pts and the floor of openings, raises pts above S and starts a transaction at depth 1; inside one it deepens it, at depth 255 it aborts it; with the horizon table full the thread waits. TXCOMMIT at depth 0 writes PD with false; nested, it lowers the depth and PD holds whether the transaction is active; outermost, it commits where it is active and no line of its write set is newer than S, and PD says whether it did; each is counted on st. SNAP_OPEN aborts an active transaction, closes the thread's own snapshot and opens a new one, or waits for room. Each word ends in a next state, reached lane after lane; of the executing lane the whole thread is given, and nothing else changes but what is named. In a bundle of one lane that executes it, each word completes, as the last clauses say of it in full. -/
def Obligations.TransactionWords : Prop :=
  (∀ s, LaneByLane s { order := true } (.txbegin) always (fun _ => s) fun c u k t v =>
    let S := max t.pts (openFloor u)
    (t.tx.depth = 0 → horizonRoom u S = true → LaneEnds k (openSnap u S) (finish { order := true } c
      { t with pts := max t.pts (S + 1), tx := { depth := 1, active := true, s := S, held := true } }) v) ∧
    (t.tx.depth = 0 → horizonRoom u S = false → ∃ x, LaneEnds k (post u 6 0 8 t.pts 0) x v ∧ x.st = .waiting ∧ x.waitOn = .table ∧ x.pc = t.pc) ∧
    (0 < t.tx.depth → t.tx.depth < 255 → LaneEnds k u (finish { order := true } c { t with tx := { t.tx with depth := t.tx.depth + 1 } }) v) ∧
    (t.tx.depth = 255 → LaneEnds k u (finish { order := true } c (abortTx t 2)) v)) ∧
  (Completes { order := true } (.txbegin) (fun _ u _ t => t.tx.depth = 0 ∧ horizonRoom u (max t.pts (openFloor u)) = true)
    fun c u k t v => let S := max t.pts (openFloor u)
      LaneEnds k (openSnap u S) (finish { order := true } c { t with pts := max t.pts (S + 1), tx := { depth := 1, active := true, s := S, held := true } }) v) ∧
  (∀ pd s, LaneByLane s { order := true, adds := [(.st, 1)] } (.txcommit pd) always (fun _ => s) fun c u k t v =>
    let w : WordSpec := { order := true, adds := [(.st, 1)] }
    let n : State := { u with nextId := u.nextId + 1 }
    let t1 := addDone t u.nextId .st
    (t.tx.depth = 0 → LaneEnds k n (finish w c (writePred t1 pd false)) v) ∧
    (1 < t.tx.depth → LaneEnds k n (finish w c (writePred { t1 with tx := { t.tx with depth := t.tx.depth - 1 } } pd t.tx.active)) v) ∧
    (t.tx.depth = 1 → (t.tx.active = false ∨ conflicts u t.tx.s t.tx.lines = true) →
      LaneEnds k (if t.tx.held then closeSnap n t.tx.s else n) (finish w c (writePred { abortTx t1 1 with tx := {} } pd false)) v) ∧
    (t.tx.depth = 1 → t.tx.active = true → conflicts u t.tx.s t.tx.lines = false →
      let n1 := setThread { u with nextId := u.nextId + 1 } k (addDone t u.nextId .st)
      let C := commitStamp u t.pts t.tx.lines
      let z := t.tx.lines.foldl (commitLine t.tx C) n1
      ∃ y, getThread z k = some y ∧ y = { addDone t u.nextId .st with ops := y.ops, snap := y.snap, revoked := y.revoked, txReason := y.txReason, tx := y.tx } ∧
        LaneEnds k (if y.tx.held then closeSnap z t.tx.s else z)
          (finish { order := true, adds := [(.st, 1)] } c (writePred { y with pts := max t.pts C, txReason := 0, tx := {} } pd true)) v)) ∧
  (∀ pd, Completes { order := true, adds := [(.st, 1)] } (.txcommit pd) (fun _ u _ t => t.tx.depth = 1 ∧ t.tx.active = true ∧ conflicts u t.tx.s t.tx.lines = false)
    fun c u k t v => let n1 := setThread { u with nextId := u.nextId + 1 } k (addDone t u.nextId .st)
      let C := commitStamp u t.pts t.tx.lines
      let z := t.tx.lines.foldl (commitLine t.tx C) n1
      ∃ y, getThread z k = some y ∧ y = { addDone t u.nextId .st with ops := y.ops, snap := y.snap, revoked := y.revoked, txReason := y.txReason, tx := y.tx } ∧
        LaneEnds k (if y.tx.held then closeSnap z t.tx.s else z)
          (finish { order := true, adds := [(.st, 1)] } c (writePred { y with pts := max t.pts C, txReason := 0, tx := {} } pd true)) v) ∧
  (∀ s, LaneByLane s { order := true } (.snapOpen) always (fun _ => s) fun c u k t v =>
    let u1 := match t.snap with
      | .own m => closeSnap u m
      | _ => u
    let S := max t.pts (openFloor u1)
    (horizonRoom u1 S = true → LaneEnds k (openSnap u1 S) (finish { order := true } c { abortTx t 4 with pts := max t.pts (S + 1), snap := .own S, revoked := false }) v) ∧
    (horizonRoom u1 S = false → ∃ x, LaneEnds k (post u1 6 0 8 t.pts 0) x v ∧ x.st = .waiting ∧ x.waitOn = .table ∧ x.pc = t.pc ∧ x.snap = .off)) ∧
  (Completes { order := true } (.snapOpen) (fun _ u _ t => ∀ u1, (u1 = match t.snap with
      | .own m => closeSnap u m
      | _ => u) → horizonRoom u1 (max t.pts (openFloor u1)) = true)
    fun c u k t v => let u1 := match t.snap with
      | .own m => closeSnap u m
      | _ => u
    let S := max t.pts (openFloor u1)
    LaneEnds k (openSnap u1 S) (finish { order := true } c { abortTx t 4 with pts := max t.pts (S + 1), snap := .own S, revoked := false }) v)

/-- O40. A commit writes the bytes of the write set, at one stamp, and no other byte (spec/11_ordering.md, spec/19_faults.md, R235, R387). Where the lines of a write set hold no pending deltas and no records, none of them is in host memory and no live snapshot can read the versions replaced, and they are committed at C: where the set has stores alone, every byte of it reads as the set has it; a word on which the set has RADDs reads as they make it of the word that stood, or that the set stored, there; every other byte of memory as before; each line of the set has C as its wts and rts, a line of which the set holds all 128 bytes is poisoned no longer, and no thread, team or port changes. -/
def Obligations.CommitWritesItsLines : Prop :=
  ∀ s (x : Tx) C, x.ws.Pairwise (fun a b => a.1 < b.1) → x.adds.Pairwise (fun a b => a.1 < b.1) → MemOk s →
    (∀ ln ∈ x.lines, (getLine s ln).delta = none ∧ (getLine s ln).recs = [] ∧ isHost (ln * 128) = false ∧ ln ≠ 0xFFFFFFFFFF ∧ readable s (getLine s ln).wts C = false) →
    let u := x.lines.foldl (commitLine x C) s
    (∀ a b, tget x.ws a = some b → tget x.adds (a / 4) = none → leNat (mread u.mm.mem a 1) = b.toNat) ∧
    (∀ w ms, tget x.adds w = some ms → mread u.mm.mem (4 * w) 4 = natLe 4 (ms.foldl TxMod.apply (leNat (overlay x.ws (4 * w) (mread s.mm.mem (4 * w) 4))))) ∧
    (∀ a, tget x.ws a = none → tget x.adds (a / 4) = none → mread u.mm.mem a 1 = mread s.mm.mem a 1) ∧
    (∀ ln ∈ x.lines, (getLine u ln).wts = C ∧ (getLine u ln).rts = C ∧
      ((getLine u ln).poison = true ↔ (getLine s ln).poison = true ∧ ∃ i < 128, x.holds (ln * 128 + i) = false)) ∧ u.ex = s.ex

/-- O41. A collective word executes once, for every participant, when the last one arrives (spec/07_group.md, R146, R147, R148, R149, R159, R161). Each lane that reaches SHFL, GPOLL, IRED, FRED, ISCAN, FSCAN, PEERS, BCAST, LEADER or COMPACT waits there. Where with it every participant of the group waits at that word at one PC, every one of them writes D with its result of the values of all, and completes the word; COMPACT whose slot overflows its field is FIELD_OVF in all of them, with FPC at the word, and writes no register (CollectiveValues gives the results). GJOIN releases every participant whatever its PC. The threads are listed by number. The clauses of a bundle of one lane that is the last to arrive say in full that the word completes in every participant. -/
def Obligations.CollectiveWordsJoin : Prop :=
  (∀ m d a b s, LaneByLane s (opSpec [sp1 a, sp1 b] [sp1 d]) (.shfl m d a b) always (fun _ => s) fun c u k t v =>
    JoinReached c u k t v (.shfl m d a b) fun e ps p => ∀ r, joinWrites (.shfl m d a b) (gridOf u t).width ps = some r → JoinsWith e v (writeSpan e.2 d.toNat (r.2 p))) ∧
  (∀ m d a b, Completes (opSpec [sp1 a, sp1 b] [sp1 d]) (.shfl m d a b) (fun c u k t => AllAtWord c u k t (.shfl m d a b) (joining c u k t (.shfl m d a b)))
    fun c u k t v => let ps := partsOf (.shfl m d a b) (joining c u k t (.shfl m d a b))
      ∃ r, joinWrites (.shfl m d a b) (gridOf u t).width ps = some r ∧ v.mm = u.mm ∧
        ∀ e ∈ joining c u k t (.shfl m d a b), ∃ p ∈ ps, p.g = e.2.glane ∧ JoinsWith e v (writeSpan e.2 d.toNat (r.2 p))) ∧
  (∀ m d a s, LaneByLane s (opSpec [sp1 a] [gpollD m d]) (.gpoll m d a) always (fun _ => s) fun c u k t v =>
    JoinReached c u k t v (.gpoll m d a) fun e ps p => ∀ r, joinWrites (.gpoll m d a) (gridOf u t).width ps = some r → JoinsWith e v (writeSpan e.2 d.toNat (r.2 p))) ∧
  (∀ m d a, Completes (opSpec [sp1 a] [gpollD m d]) (.gpoll m d a) (fun c u k t => AllAtWord c u k t (.gpoll m d a) (joining c u k t (.gpoll m d a)))
    fun c u k t v => let ps := partsOf (.gpoll m d a) (joining c u k t (.gpoll m d a))
      ∃ r, joinWrites (.gpoll m d a) (gridOf u t).width ps = some r ∧ v.mm = u.mm ∧
        ∀ e ∈ joining c u k t (.gpoll m d a), ∃ p ∈ ps, p.g = e.2.glane ∧ JoinsWith e v (writeSpan e.2 d.toNat (r.2 p))) ∧
  (∀ m d a s, LaneByLane s (opSpec [sp1 a] [sp1 d]) (.ired m d a) always (fun _ => s) fun c u k t v =>
    JoinReached c u k t v (.ired m d a) fun e ps p => ∀ r, joinWrites (.ired m d a) (gridOf u t).width ps = some r → JoinsWith e v (writeSpan e.2 d.toNat (r.2 p))) ∧
  (∀ m d a, Completes (opSpec [sp1 a] [sp1 d]) (.ired m d a) (fun c u k t => AllAtWord c u k t (.ired m d a) (joining c u k t (.ired m d a)))
    fun c u k t v => let ps := partsOf (.ired m d a) (joining c u k t (.ired m d a))
      ∃ r, joinWrites (.ired m d a) (gridOf u t).width ps = some r ∧ v.mm = u.mm ∧
        ∀ e ∈ joining c u k t (.ired m d a), ∃ p ∈ ps, p.g = e.2.glane ∧ JoinsWith e v (writeSpan e.2 d.toNat (r.2 p))) ∧
  (∀ m d a s, LaneByLane s (opSpec [sp1 a] [sp1 d]) (.fred m d a) always (fun _ => s) fun c u k t v =>
    JoinReached c u k t v (.fred m d a) fun e ps p => ∀ r, joinWrites (.fred m d a) (gridOf u t).width ps = some r → JoinsWith e v (writeSpan e.2 d.toNat (r.2 p))) ∧
  (∀ m d a, Completes (opSpec [sp1 a] [sp1 d]) (.fred m d a) (fun c u k t => AllAtWord c u k t (.fred m d a) (joining c u k t (.fred m d a)))
    fun c u k t v => let ps := partsOf (.fred m d a) (joining c u k t (.fred m d a))
      ∃ r, joinWrites (.fred m d a) (gridOf u t).width ps = some r ∧ v.mm = u.mm ∧
        ∀ e ∈ joining c u k t (.fred m d a), ∃ p ∈ ps, p.g = e.2.glane ∧ JoinsWith e v (writeSpan e.2 d.toNat (r.2 p))) ∧
  (∀ ex m d a s, LaneByLane s (opSpec [sp1 a] [sp1 d]) (.iscan ex m d a) always (fun _ => s) fun c u k t v =>
    JoinReached c u k t v (.iscan ex m d a) fun e ps p => ∀ r, joinWrites (.iscan ex m d a) (gridOf u t).width ps = some r → JoinsWith e v (writeSpan e.2 d.toNat (r.2 p))) ∧
  (∀ ex m d a, Completes (opSpec [sp1 a] [sp1 d]) (.iscan ex m d a) (fun c u k t => AllAtWord c u k t (.iscan ex m d a) (joining c u k t (.iscan ex m d a)))
    fun c u k t v => let ps := partsOf (.iscan ex m d a) (joining c u k t (.iscan ex m d a))
      ∃ r, joinWrites (.iscan ex m d a) (gridOf u t).width ps = some r ∧ v.mm = u.mm ∧
        ∀ e ∈ joining c u k t (.iscan ex m d a), ∃ p ∈ ps, p.g = e.2.glane ∧ JoinsWith e v (writeSpan e.2 d.toNat (r.2 p))) ∧
  (∀ ex m d a s, LaneByLane s (opSpec [sp1 a] [sp1 d]) (.fscan ex m d a) always (fun _ => s) fun c u k t v =>
    JoinReached c u k t v (.fscan ex m d a) fun e ps p => ∀ r, joinWrites (.fscan ex m d a) (gridOf u t).width ps = some r → JoinsWith e v (writeSpan e.2 d.toNat (r.2 p))) ∧
  (∀ ex m d a, Completes (opSpec [sp1 a] [sp1 d]) (.fscan ex m d a) (fun c u k t => AllAtWord c u k t (.fscan ex m d a) (joining c u k t (.fscan ex m d a)))
    fun c u k t v => let ps := partsOf (.fscan ex m d a) (joining c u k t (.fscan ex m d a))
      ∃ r, joinWrites (.fscan ex m d a) (gridOf u t).width ps = some r ∧ v.mm = u.mm ∧
        ∀ e ∈ joining c u k t (.fscan ex m d a), ∃ p ∈ ps, p.g = e.2.glane ∧ JoinsWith e v (writeSpan e.2 d.toNat (r.2 p))) ∧
  (∀ d a s, LaneByLane s (opSpec [sp1 a] [sp2 d]) (.peers d a) always (fun _ => s) fun c u k t v =>
    JoinReached c u k t v (.peers d a) fun e ps p => ∀ r, joinWrites (.peers d a) (gridOf u t).width ps = some r → JoinsWith e v (writeSpan e.2 d.toNat (r.2 p))) ∧
  (∀ d a, Completes (opSpec [sp1 a] [sp2 d]) (.peers d a) (fun c u k t => AllAtWord c u k t (.peers d a) (joining c u k t (.peers d a)))
    fun c u k t v => let ps := partsOf (.peers d a) (joining c u k t (.peers d a))
      ∃ r, joinWrites (.peers d a) (gridOf u t).width ps = some r ∧ v.mm = u.mm ∧
        ∀ e ∈ joining c u k t (.peers d a), ∃ p ∈ ps, p.g = e.2.glane ∧ JoinsWith e v (writeSpan e.2 d.toNat (r.2 p))) ∧
  (∀ d a b s, LaneByLane s (opSpec [sp1 a, sp1 b] [sp1 d]) (.bcast d a b) always (fun _ => s) fun c u k t v =>
    JoinReached c u k t v (.bcast d a b) fun e ps p => ∀ r, joinWrites (.bcast d a b) (gridOf u t).width ps = some r → JoinsWith e v (writeSpan e.2 d.toNat (r.2 p))) ∧
  (∀ d a b, Completes (opSpec [sp1 a, sp1 b] [sp1 d]) (.bcast d a b) (fun c u k t => AllAtWord c u k t (.bcast d a b) (joining c u k t (.bcast d a b)))
    fun c u k t v => let ps := partsOf (.bcast d a b) (joining c u k t (.bcast d a b))
      ∃ r, joinWrites (.bcast d a b) (gridOf u t).width ps = some r ∧ v.mm = u.mm ∧
        ∀ e ∈ joining c u k t (.bcast d a b), ∃ p ∈ ps, p.g = e.2.glane ∧ JoinsWith e v (writeSpan e.2 d.toNat (r.2 p))) ∧
  (∀ d s, LaneByLane s (opSpec [] [sp1 d]) (.leader d) always (fun _ => s) fun c u k t v =>
    JoinReached c u k t v (.leader d) fun e ps p => ∀ r, joinWrites (.leader d) (gridOf u t).width ps = some r → JoinsWith e v (writeSpan e.2 d.toNat (r.2 p))) ∧
  (∀ d, Completes (opSpec [] [sp1 d]) (.leader d) (fun c u k t => AllAtWord c u k t (.leader d) (joining c u k t (.leader d)))
    fun c u k t v => let ps := partsOf (.leader d) (joining c u k t (.leader d))
      ∃ r, joinWrites (.leader d) (gridOf u t).width ps = some r ∧ v.mm = u.mm ∧
        ∀ e ∈ joining c u k t (.leader d), ∃ p ∈ ps, p.g = e.2.glane ∧ JoinsWith e v (writeSpan e.2 d.toNat (r.2 p))) ∧
  (∀ m d a b s, LaneByLane s (opSpec [sp1 a, sp1 b] [sp1 d]) (.compact m d a b) always (fun _ => s) fun c u k t v =>
    JoinReached c u k t v (.compact m d a b) fun e ps p => ∀ r, joinWrites (.compact m d a b) (gridOf u t).width ps = some r → compactOvf m ps = false → JoinsWith e v (writeSpan e.2 d.toNat (r.2 p))) ∧
  (∀ m d a b, Completes (opSpec [sp1 a, sp1 b] [sp1 d]) (.compact m d a b) (fun c u k t => AllAtWord c u k t (.compact m d a b) (joining c u k t (.compact m d a b)) ∧ compactOvf m (partsOf (.compact m d a b) (joining c u k t (.compact m d a b))) = false)
    fun c u k t v => let ps := partsOf (.compact m d a b) (joining c u k t (.compact m d a b))
      ∃ r, joinWrites (.compact m d a b) (gridOf u t).width ps = some r ∧ v.mm = u.mm ∧
        ∀ e ∈ joining c u k t (.compact m d a b), ∃ p ∈ ps, p.g = e.2.glane ∧ JoinsWith e v (writeSpan e.2 d.toNat (r.2 p))) ∧
  (∀ m d a b s, LaneByLane s (opSpec [sp1 a, sp1 b] [sp1 d]) (.compact m d a b) always (fun _ => s) fun c u k t v =>
    let l := joining c u k t (.compact m d a b)
    AllAtWord c u k t (.compact m d a b) l → compactOvf m (partsOf (.compact m d a b) l) = true →
      v = l.foldl (fun s e => deliver s e.1 0x0F 0 e.2.pc) (leaveBundle (setThread u k (waiting c t .join (.compact m d a b))) k)) ∧
  (∀ s, LaneByLane s (opSpec [] []) (.gjoin) always (fun _ => s) fun c u k t v =>
    let w := waiting c t .gjoin .gjoin
    let l := participants (setThread u k w) t.team t.group
    (∀ e ∈ l, e.2.st = .waiting ∧ e.2.waitOn = .gjoin ∧ e.2.dstop = false) → u.ex.threads.Pairwise (fun x y => x.1 < y.1) →
      ∀ e ∈ l, JoinsWith e v e.2) ∧
  (Completes (opSpec [] []) (.gjoin) (fun c u k t => let l := participants (setThread u k (waiting c t .gjoin .gjoin)) t.team t.group
    (k, waiting c t .gjoin .gjoin) ∈ l ∧ u.ex.threads.Pairwise (fun x y => x.1 < y.1) ∧ ∀ e ∈ l, e.2.st = .waiting ∧ e.2.waitOn = .gjoin ∧ e.2.dstop = false)
    fun c u k t v => v.mm = u.mm ∧ ∀ e ∈ participants (setThread u k (waiting c t .gjoin .gjoin)) t.team t.group, JoinsWith e v e.2) ∧
  (∀ m d a, Completes (opSpec [sp1 a] [sp1 d]) (.ddx m d a) (fun c u k t => (∀ e ∈ joining c u k t (.ddx m d a), e.2.waitOn = .join → e.2.waitPc = (waiting c t .join (.ddx m d a)).waitPc → e.2.held.map (·.instr) = some (.ddx m d a)) ∧
      AllAtWord c u k t (.ddx m d a) ((joining c u k t (.ddx m d a)).filter fun e => e.2.glane / 4 == t.glane / 4))
    fun c u k t v => let l := (joining c u k t (.ddx m d a)).filter fun e => e.2.glane / 4 == t.glane / 4
      v.mm = u.mm ∧ ∀ e ∈ l, ∃ p ∈ partsOf (.ddx m d a) l, p.g = e.2.glane ∧ JoinsWith e v { writeReg e.2 d.toNat (ddxVal m (partsOf (.ddx m d a) l) p).1 with
          derivLost := e.2.derivLost || (ddxVal m (partsOf (.ddx m d a) l) p).2 }) ∧
  (∀ m d a s, LaneByLane s (opSpec [sp1 a] [sp1 d]) (.ddx m d a) always (fun _ => s) fun c u k t v =>
    let w := waiting c t .join (.ddx m d a)
    let l := (participants (setThread u k w) t.team t.group).filter fun e => e.2.glane / 4 == t.glane / 4
    (∀ e ∈ l, e.2.st = .waiting ∧ e.2.waitOn = .join ∧ e.2.dstop = false ∧ e.2.waitPc = w.waitPc ∧ e.2.held.map (·.instr) = some (.ddx m d a)) →
      (∀ e ∈ joining c u k t (.ddx m d a), e.2.waitOn = .join → e.2.waitPc = (waiting c t .join (.ddx m d a)).waitPc → e.2.held.map (·.instr) = some (.ddx m d a)) →
      u.ex.threads.Pairwise (fun x y => x.1 < y.1) → t.glane < 64 →
      ∀ e ∈ l, ∀ p ∈ partsOf (.ddx m d a) l, p.g = e.2.glane →
        JoinsWith e v { writeReg e.2 d.toNat (ddxVal m (partsOf (.ddx m d a) l) p).1 with
          derivLost := e.2.derivLost || (ddxVal m (partsOf (.ddx m d a) l) p).2 })

/-- O42. What the collective words compute from the values of the participants (spec/07_group.md, R153, R154, R155, R156, R157, R158, R159). For participants in ascending group lane, whatever D is: SHFL takes the value of the lane that MOD and B name, and the lane's own where that lane is beyond the group or absent; BCAST that of the lane that the lowest participant's B names, or the lane's own; GPOLL and PEERS say which lanes meet their condition; IRED is the wrapped sum, the bitwise and, or and exclusive or, and the signed or unsigned minimum and maximum; ISCAN that of the lanes up to, or before, the lane, with the identity where there is none; FRED combines the pairs of neighbours, then of pairs, and so on, where an absent half leaves the other as it is, and FSCAN one lane after another, both with canonical NaNs; LEADER is 1 in the lowest participant alone; COMPACT counts the lower lanes with a value not 0 from the lowest lane's B, and overflows where some participant's count exceeds its field. -/
def Obligations.CollectiveValues : Prop :=
  (∀ w l, (∀ m d a b, joinWrites (.shfl m d a b) w l = some (d, fun p => [shflVal m w l p])) ∧ (∀ m d a, joinWrites (.gpoll m d a) w l = some (d, gpollVal m l)) ∧
    (∀ m d a, joinWrites (.ired m d a) w l = some (d, fun _ => [iredVal m l])) ∧ (∀ m d a, joinWrites (.fred m d a) w l = some (d, fun _ => [fredVal m w l])) ∧
    (∀ e m d a, joinWrites (.iscan e m d a) w l = some (d, fun p => [iscanVal e m l p])) ∧ (∀ e m d a, joinWrites (.fscan e m d a) w l = some (d, fun p => [fscanVal e m l p])) ∧
    (∀ d a b, joinWrites (.bcast d a b) w l = some (d, fun p => [bcastVal w l p])) ∧
    (∀ m d a b, joinWrites (.compact m d a b) w l = some (d, fun p => [BitVec.ofNat 32 (compactVal l p)]))) ∧
  (∀ w l p q, (q ∈ l ∧ l.Pairwise (fun x y => x.g < y.g)) →
    (q.g = p.y.toNat % w → shflVal .lane w l p = q.x) ∧ (q.g + p.y.toNat = p.g → shflVal .below w l p = q.x) ∧
    (q.g = p.g + p.y.toNat → q.g < w → shflVal .above w l p = q.x) ∧ (q.g = p.g ^^^ (p.y.toNat % w) → shflVal .flip w l p = q.x) ∧
    (∀ f, l.head? = some f → q.g = f.y.toNat % w → bcastVal w l p = q.x)) ∧
  (∀ w l p, ((∀ q ∈ l, q.g ≠ p.y.toNat % w) → shflVal .lane w l p = p.x) ∧ ((∀ q ∈ l, q.g + p.y.toNat ≠ p.g) → shflVal .below w l p = p.x) ∧
    ((∀ q ∈ l, q.g = p.g + p.y.toNat → w ≤ q.g) → shflVal .above w l p = p.x) ∧ ((∀ q ∈ l, q.g ≠ p.g ^^^ (p.y.toNat % w)) → shflVal .flip w l p = p.x) ∧
    (∀ f, l.head? = some f → (∀ q ∈ l, q.g ≠ f.y.toNat % w) → bcastVal w l p = p.x)) ∧
  (∀ l : List Part, iredVal .add l = (l.map (·.x)).sum ∧ (∀ i, (iredVal .and l).getLsbD i = (decide (i < 32) && l.all fun p => p.x.getLsbD i)) ∧
    (∀ i, (iredVal .or l).getLsbD i = l.any fun p => p.x.getLsbD i) ∧ (∀ i, (iredVal .xor l).getLsbD i = decide ((l.filter fun p => p.x.getLsbD i).length % 2 = 1)) ∧
    (l ≠ [] → (iredVal .minN l).toNat ∈ l.map (·.x.toNat) ∧ (∀ p ∈ l, (iredVal .minN l).toNat ≤ p.x.toNat)) ∧
    (l ≠ [] → (iredVal .maxN l).toNat ∈ l.map (·.x.toNat) ∧ (∀ p ∈ l, p.x.toNat ≤ (iredVal .maxN l).toNat)) ∧
    (l ≠ [] → (iredVal .minI l).toInt ∈ l.map (·.x.toInt) ∧ (∀ p ∈ l, (iredVal .minI l).toInt ≤ p.x.toInt)) ∧
    (l ≠ [] → (iredVal .maxI l).toInt ∈ l.map (·.x.toInt) ∧ (∀ p ∈ l, p.x.toInt ≤ (iredVal .maxI l).toInt))) ∧
  (∀ m l p, iscanVal false m l p = iredVal (iscanOp m) (l.filter fun q => q.g ≤ p.g) ∧ iscanVal true m l p = iredVal (iscanOp m) (l.filter fun q => q.g < p.g) ∧
    ((∀ q ∈ l, p.g ≤ q.g) → iscanVal true .add l p = 0 ∧ iscanVal true .or l p = 0 ∧ iscanVal true .maxI l p = 0x80000000 ∧ iscanVal true .minI l p = 0x7FFFFFFF)) ∧
  (∀ l f p i, (∀ q ∈ l, q.g < 64) → l.Pairwise (fun x y => x.g < y.g) → p ∈ l → i < 64 →
    (((spanNat (maskOf l f)).testBit i = true ↔ ∃ q ∈ l, q.g = i ∧ f q = true) ∧ gpollVal .mask l p = maskOf l (fun q => q.x != 0) ∧
     (gpollVal .some l p = [1] ↔ ∃ q ∈ l, q.x ≠ 0) ∧ (gpollVal .every l p = [1] ↔ ∀ q ∈ l, q.x ≠ 0) ∧ (gpollVal .same l p = [1] ↔ ∀ q ∈ l, q.x = p.x))) ∧
  (∀ w l p d a i, (∀ q ∈ l, q.g < 64) → l.Pairwise (fun x y => x.g < y.g) → p ∈ l → i < 64 →
    (∃ f, joinWrites (.peers d a) w l = some (d, f) ∧ (f p).length = 2 ∧ ((spanNat (f p)).testBit i = true ↔ ∃ q ∈ l, q.g = i ∧ q.x = p.x)) ∧
    ∃ f, joinWrites (.leader d) w l = some (d, f) ∧ ((∀ q ∈ l, p.g ≤ q.g) → f p = [1]) ∧ ((∃ q ∈ l, q.g < p.g) → f p = [0])) ∧
  (∀ m w l p, l.Pairwise (fun x y => x.g < y.g) → p ∈ l → (∀ q ∈ l, q.g < w) →
    (w = 1 → fredVal m w l = if isNaN .fp32 p.x.toNat then 0x7FC00000 else p.x) ∧
    ∀ n, w = 2 ^ n → ∃ x, fredTree m (partX l) n 0 = some x ∧ fredVal m w l = if isNaN .fp32 x.toNat then 0x7FC00000 else x) ∧
  (∀ m l g, (∀ q ∈ l, q.g = g → l.Pairwise (fun x y => x.g < y.g) → fredTree m (partX l) 0 g = some q.x) ∧ ((∀ q ∈ l, q.g ≠ g) → fredTree m (partX l) 0 g = none) ∧
    ∀ n, let x := fredTree m (partX l) n g
      let y := fredTree m (partX l) n (g + 2 ^ n)
      let z := fredTree m (partX l) (n + 1) g
      (y = none → z = x) ∧ (x = none → z = y) ∧ ∀ a b, x = some a → y = some b →
        z = some (match m with
          | .add => fadd32 a b
          | .min => fminmaxVal false .number a b
          | .max => fminmaxVal true .number a b)) ∧
  (∀ ex m l p, let q := l.filter fun q => if ex then decide (q.g < p.g) else decide (q.g ≤ p.g)
    let f : Word → Word → Word := match m with
      | .add => fadd32
      | .min => fminmaxVal false .number
      | .max => fminmaxVal true .number
    (q = [] → fscanVal ex m l p = match m with
      | .add => 0
      | .min => 0x7F800000
      | .max => 0xFF800000) ∧
    ∀ a r, q = a :: r → fscanVal ex m l p = let x := (r.map (·.x)).foldl f a.x
      if isNaN .fp32 x.toNat then 0x7FC00000 else x) ∧
  (∀ l p f, l.head? = some f → compactVal l p = f.y.toNat + (l.filter fun q => decide (q.g < p.g) && decide (q.x ≠ 0)).length) ∧
  (∀ l m, compactOvf m l = true ↔ ∃ p ∈ l, 2 ^ (match m with
    | .w8 => 8
    | .w16 => 16
    | .w24 => 24
    | .w32 => 32) ≤ compactVal l p)

/-- O43. MMA, MMA.U, MMA.SP and MMA.SP.U join the group and start one matrix operation (spec/08_matrix_splat.md, R146, R147, R162, R166, R167, R168, R169, R171, R172). Each lane waits at the word; where with it every participant waits there, one matrix operation enters its engine, and, where it is the oldest there, starts, in the mode that MATNARROW then has, with the A and B spans, the metadata and, unless it is chained, the D spans of all participants, read at that moment; every participant completes the word, with its D span pending. With sparse metadata that is not valid no operation starts. The clauses of a bundle of one lane that is the last to arrive say in full that each word completes in every participant. -/
def Obligations.MatrixWordsIssue : Prop :=
  (∀ k d a b s, LaneByLane s (mmaSpec k d a b false s) (.mma k d a b) always (fun _ => s) fun c u j t v =>
    MatrixJoin c u j t v (.mma k d a b) (k, d, a, b, false, false)) ∧
  (∀ k d a b s c j t, Issues (mmaSpec k d a b false s) c [j] s → getThread s j = some t →
    let l := joining c s j (schedQuiet s c t) (.mma k d a b)
    AllAtWord c s j (schedQuiet s c t) (.mma k d a b) l → (∀ e ∈ l, MetaValid s t l (k, d, a, b, false, false) e) →
    ∃ v, exec (.mma k d a b) s = .next v ∧ v.cur = none ∧ MatrixStarts s t l (k, d, a, b, false, false) v) ∧
  (∀ k d a b s, LaneByLane s (mmaSpec k d a b false s) (.mmaU k d a b) always (fun _ => s) fun c u j t v =>
    MatrixJoin c u j t v (.mmaU k d a b) (k, d, a, b, false, true)) ∧
  (∀ k d a b s c j t, Issues (mmaSpec k d a b false s) c [j] s → getThread s j = some t →
    let l := joining c s j (schedQuiet s c t) (.mmaU k d a b)
    AllAtWord c s j (schedQuiet s c t) (.mmaU k d a b) l → (∀ e ∈ l, MetaValid s t l (k, d, a, b, false, true) e) →
    ∃ v, exec (.mmaU k d a b) s = .next v ∧ v.cur = none ∧ MatrixStarts s t l (k, d, a, b, false, true) v) ∧
  (∀ k d a b s, LaneByLane s (mmaSpec k d a b true s) (.mmaSp k d a b) always (fun _ => s) fun c u j t v =>
    MatrixJoin c u j t v (.mmaSp k d a b) (k, d, a, b, true, false)) ∧
  (∀ k d a b s c j t, Issues (mmaSpec k d a b true s) c [j] s → getThread s j = some t →
    let l := joining c s j (schedQuiet s c t) (.mmaSp k d a b)
    AllAtWord c s j (schedQuiet s c t) (.mmaSp k d a b) l → (∀ e ∈ l, MetaValid s t l (k, d, a, b, true, false) e) →
    ∃ v, exec (.mmaSp k d a b) s = .next v ∧ v.cur = none ∧ MatrixStarts s t l (k, d, a, b, true, false) v) ∧
  (∀ k d a b s, LaneByLane s (mmaSpec k d a b true s) (.mmaSpU k d a b) always (fun _ => s) fun c u j t v =>
    MatrixJoin c u j t v (.mmaSpU k d a b) (k, d, a, b, true, true)) ∧
  (∀ k d a b s c j t, Issues (mmaSpec k d a b true s) c [j] s → getThread s j = some t →
    let l := joining c s j (schedQuiet s c t) (.mmaSpU k d a b)
    AllAtWord c s j (schedQuiet s c t) (.mmaSpU k d a b) l → (∀ e ∈ l, MetaValid s t l (k, d, a, b, true, true) e) →
    ∃ v, exec (.mmaSpU k d a b) s = .next v ∧ v.cur = none ∧ MatrixStarts s t l (k, d, a, b, true, true) v) ∧
  (∀ s core e id o l, engineOps s core e = (id, o) :: l → s.ex.matOps.Pairwise (fun x y => x.1 < y.1) →
    tget (startEngine s core e).ex.matOps id = some (if o.narrow.isSome then o else { o with narrow := some (s.ex.matNarrow.contains core) }) ∧
    (∀ j, j ≠ id → tget (startEngine s core e).ex.matOps j = tget s.ex.matOps j))

/-- O44. MATRIX_OPERATION writes the D span of every participant, once (spec/08_matrix_splat.md, R42, R166, R168). The oldest operation of its engine ends: in every thread that it concerns, D holds the new row, of the C that stood at the join, or in D now where the operation is chained, and D is no longer pending by it; every other register, every other thread and memory stay as they were, and the operation is gone. Under INT32 accumulation an element of the row is the wrapped sum of C and the exact products. -/
def Obligations.MatrixOperationWrites : Prop :=
  (∀ s id op, tget s.ex.matOps id = some op → (∀ o ∈ s.ex.matOps, o.2.core = op.core → o.2.engine = op.engine → id ≤ o.1) →
    s.ex.matOps.Pairwise (fun x y => x.1 < y.1) → (∀ e ∈ s.ex.threads, e.2.frame = none) →
    ∃ u, exec (.matrixOperation id) s = .next u ∧ u.mm = s.mm ∧ tget u.ex.matOps id = none ∧
      (∀ j t, getThread s j = some t → (∀ o ∈ t.ops, o.kind ≠ .matrix id) → getThread u j = some t) ∧
      ∀ j t, getThread s j = some t → (∃ o ∈ t.ops, o.kind = .matrix id) → ∃ x, getThread u j = some x ∧ x.pc = t.pc ∧ x.preds = t.preds ∧ x.pts = t.pts ∧
        (∀ o ∈ t.ops, o.kind = .matrix id → o.cnt = .uncounted → ∀ y ∈ x.ops, y.id ≠ o.id) ∧
        let gr := gridOf s { team := op.team, pc := 0 }
        let c := if op.chained then readSpan t op.dstart 8 else (tget op.c t.glane).getD []
        ∀ n, readReg x n = if op.dstart ≤ n ∧ n < op.dstart + 8 then ((matRow gr op t.glane c)[n - op.dstart]?).getD 0 else readReg t n) ∧
  (∀ g k x aw mask bw c, slotAcc x = 1 → macElem g k x false aw mask bw c =
    BitVec.ofInt 32 (c.toInt + ((List.range (kExtent x)).map fun i => sext (elemAt aw 8 i) 8 * sext (elemAt bw 8 i) 8).sum))

/-- O45. CMPRS writes the kept elements and their mask (spec/08_matrix_splat.md, R171, R173). For every slot, D, A and HINT.OPX: D's eight registers hold the kept elements of the row in A, lowest position first, and the registers that X1 names the mask; in a group of M positions exactly M/2 are kept. Each word ends in a next state, reached lane after lane; of the executing lane the whole thread is given, and nothing else changes but what is named. In a bundle of one lane that executes it, each word completes, as the last clauses say of it in full. -/
def Obligations.CompressResult : Prop :=
  (∀ k d a s y, s.cur = some y → let x := (curGrid s).slot k.toNat
    let x1 := opxX1 y.hints
    let ml := if cmprsSlot k (curGrid s) then metaWords x else 1
    let w : WordSpec := { opSpec [(a.toNat, 16, 4)] [(d.toNat, 8, 4), (x1, ml, ml)] with hints := [1], needs := [1], slotOk := cmprsSlot k }
    LaneByLane s w (.cmprs k d a) always (fun _ => s) fun c u j t v => LaneEnds j u (finish w c (writeSpan (writeSpan t d.toNat (cmprsVal x (readSpan t a.toNat 16)).1) x1 (cmprsVal x (readSpan t a.toNat 16)).2)) v) ∧
  (∀ k d a s y c j t0, s.cur = some y → let x := (curGrid s).slot k.toNat
    let x1 := opxX1 y.hints
    let ml := if cmprsSlot k (curGrid s) then metaWords x else 1
    let w : WordSpec := { opSpec [(a.toNat, 16, 4)] [(d.toNat, 8, 4), (x1, ml, ml)] with hints := [1], needs := [1], slotOk := cmprsSlot k }
    Issues w c [j] s → getThread s j = some t0 → let t := schedQuiet s c t0
    ∃ v, exec (.cmprs k d a) s = .next v ∧ v.cur = none ∧ LaneEnds j s (finish w c (writeSpan (writeSpan t d.toNat (cmprsVal x (readSpan t a.toNat 16)).1) x1 (cmprsVal x (readSpan t a.toNat 16)).2)) v) ∧
  (∀ f m groups v q, (m = 4 ∨ m = 8 ∨ m = 12) → q < groups → (∀ p, isNaN f (v p) = false) →
    ((cmprsKept f m groups v).filter fun p => decide (p / m = q)).length = m / 2)

/-- O46. TLD and TLDF read elements of a READY tile (spec/17_tiles_launch.md, R341, R345, R346, R350, R351, R352, R395). Where the tile is mapped, its element size is the word's, it is READY, its blocks are current and the ld counter has room for the elements: each lane whose elements lie clear of words in error and of poisoned elements completes with D holding them, the fill value for an element outside the window; its pts joins the stamps of the blocks, but under a snapshot; no other register changes. An entry that is not mapped, and a tile of another element size, are the fault TILE_STATE. In a bundle of one lane that executes it, each word completes, as the last clauses say of it in full. -/
def Obligations.TileReads : Prop :=
  (∀ m d a k s, LaneByLane s { opSpec [sp1 a] [sp1 d] with order := true, adds := [(.ld, 1)] } (.tld m d a k) (fun _ ks => ∃ x, getTile s (teamOf s ks) k.toNat = some x ∧ tileEs x.desc = esOf m ∧ x.st = .ready ∧
      tileFull s { opSpec [sp1 a] [sp1 d] with order := true, adds := [(.ld, 1)] } .ld 1 x.desc ((fun _ => oneElem a) x.desc) ks = false ∧ renewAll { opSpec [sp1 a] [sp1 d] with order := true, adds := [(.ld, 1)] } (teamOf s ks) k.toNat x.desc ((fun _ => oneElem a) x.desc) ks s = (true, s))
      (fun ks => modTile s (teamOf s ks) k.toNat fun y => { y with waiters := y.waiters.filter fun j => !ks.contains j }) fun c u j t v =>
    ReadsTile c u j t v { opSpec [sp1 a] [sp1 d] with order := true, adds := [(.ld, 1)] } k.toNat d.toNat (oneElem a t) fun tm x => [BitVec.ofNat 32 (elemValue tm x (coordsOf (rd t a)))]) ∧
  (∀ m d a k s, LaneByLane s { opSpec [sp1 a] [(d.toNat, 8, 4)] with order := true } (.tldf m d a k) (fun _ ks => ∃ x, getTile s (teamOf s ks) k.toNat = some x ∧ fragOk m x.desc = true ∧ x.st = .ready ∧
      tileFull s { opSpec [sp1 a] [(d.toNat, 8, 4)] with order := true } .ld 0 x.desc ((fragElems m a) x.desc) ks = false ∧ renewAll { opSpec [sp1 a] [(d.toNat, 8, 4)] with order := true } (teamOf s ks) k.toNat x.desc ((fragElems m a) x.desc) ks s = (true, s))
      (fun ks => modTile s (teamOf s ks) k.toNat fun y => { y with waiters := y.waiters.filter fun j => !ks.contains j }) fun c u j t v =>
    ∀ x, getTile s (teamOf s (bundle s c.core c.port)) k.toNat = some x → ReadsTile c u j t v { opSpec [sp1 a] [(d.toNat, 8, 4)] with order := true } k.toNat d.toNat (fragElems m a x.desc t) fun tm z =>
      packFrag (tileEs z.desc) ((fragElems m a x.desc t).map (elemValue tm z))) ∧
  (∀ m d a k s c j t0, Issues { opSpec [sp1 a] [sp1 d] with order := true, adds := [(.ld, 1)] } c [j] s → getThread s j = some t0 → let t := schedQuiet s c t0
    let tm := getTeam s t.team
    ∀ x, tget tm.tiles k.toNat = some x → tileEs x.desc = esOf m → x.st = .ready → count t .ld + tileCounts 1 x.desc ((fun _ => oneElem a) x.desc t) ≤ 255 →
      staleBlocks x t.pts (laneBlocks x.desc ((fun _ => oneElem a) x.desc t)) = [] → TileClean tm x (offsOf x ((fun _ => oneElem a) x.desc t)) →
      ∃ v, exec (.tld m d a k) s = .next v ∧ v.cur = none ∧
        TileLoaded c (modTile s t.team k.toNat fun y => { y with waiters := y.waiters.filter (· != j) }) j t v { opSpec [sp1 a] [sp1 d] with order := true, adds := [(.ld, 1)] } d.toNat x (offsOf x ((fun _ => oneElem a) x.desc t)) ([BitVec.ofNat 32 (elemValue tm x (coordsOf (rd t a)))])) ∧
  (∀ m d a k s c j t0, Issues { opSpec [sp1 a] [(d.toNat, 8, 4)] with order := true } c [j] s → getThread s j = some t0 → let t := schedQuiet s c t0
    let tm := getTeam s t.team
    ∀ x, tget tm.tiles k.toNat = some x → fragOk m x.desc = true → x.st = .ready → count t .ld + tileCounts 0 x.desc ((fragElems m a) x.desc t) ≤ 255 →
      staleBlocks x t.pts (laneBlocks x.desc ((fragElems m a) x.desc t)) = [] → TileClean tm x (offsOf x ((fragElems m a) x.desc t)) →
      ∃ v, exec (.tldf m d a k) s = .next v ∧ v.cur = none ∧
        TileLoaded c (modTile s t.team k.toNat fun y => { y with waiters := y.waiters.filter (· != j) }) j t v { opSpec [sp1 a] [(d.toNat, 8, 4)] with order := true } d.toNat x (offsOf x ((fragElems m a) x.desc t)) (packFrag (tileEs x.desc) ((fragElems m a x.desc t).map (elemValue tm x)))) ∧
  (∀ m d a k s c ks, prelude { opSpec [sp1 a] [sp1 d] with order := true, adds := [(.ld, 1)] } s = .go c ks → (getTile s (teamOf s ks) k.toNat = none ∨ ∃ x, getTile s (teamOf s ks) k.toNat = some x ∧ tileEs x.desc ≠ esOf m) →
    ∃ f : State → Nat → State, exec (.tld m d a k) s = .next (done (laneLoop f s ks)) ∧
      ∀ u j t, getThread u j = some t → ready u { opSpec [sp1 a] [sp1 d] with order := true, adds := [(.ld, 1)] } t = true → f u j = deliver u j 0x0A 0 c.fpc) ∧
  (∀ m d a k s c ks, prelude { opSpec [sp1 a] [(d.toNat, 8, 4)] with order := true } s = .go c ks → (getTile s (teamOf s ks) k.toNat = none ∨ ∃ x, getTile s (teamOf s ks) k.toNat = some x ∧ fragOk m x.desc = false) →
    ∃ f : State → Nat → State, exec (.tldf m d a k) s = .next (done (laneLoop f s ks)) ∧
      ∀ u j t, getThread u j = some t → ready u { opSpec [sp1 a] [(d.toNat, 8, 4)] with order := true } t = true → f u j = deliver u j 0x0A 0 c.fpc) ∧
  (∀ tm x i, elemValue tm x i = if ∀ d < 4, 0 ≤ at4 i d ∧ at4 i d < tileExt x.desc d then
      stashRead tm (x.doff + elemIndex x.desc i * tileEs x.desc) (tileEs x.desc) else tileFillValue x.desc)

/-- O47. TST and TSTF store elements of a READY tile (spec/17_tiles_launch.md, R341, R347, R348, R350, R351, R352, R395). Where the tile is mapped, writable, READY and of the word's element size, every lane has its translations and the st counter has room for the elements: a lane completes with one store outstanding on st for each of its elements in the window, at the element's address and of the element's size, outside any transaction; an element without W permission is the fault PAGE_PROT at its address. No register and no byte of memory or of a stash changes. An entry that is not mapped, a tile of another element size and one that is not writable are the fault TILE_STATE. In a bundle of one lane that executes it, each word completes, as the last clauses say of it in full. -/
def Obligations.TileStores : Prop :=
  (∀ m d a k s, LaneByLane s { opSpec [sp1 a, sp1 d] [] with adds := [(.st, 1)] } (.tst m d a k) (fun _ ks => ∃ x, getTile s (teamOf s ks) k.toNat = some x ∧ tileEs x.desc = esOf m ∧ tileWr x.desc = true ∧ x.st = .ready ∧
      tileFull s { opSpec [sp1 a, sp1 d] [] with adds := [(.st, 1)] } .st 0 x.desc ((fun _ => oneElem a) x.desc) ks = false ∧ storeMisses { opSpec [sp1 a, sp1 d] [] with adds := [(.st, 1)] } x.desc ((fun _ => oneElem a) x.desc) ks s = [])
      (fun ks => modTile { s with nextId := s.nextId + 1 } (teamOf s ks) k.toNat fun y => { y with waiters := y.waiters.filter fun j => !ks.contains j }) fun c u j t v =>
    ∀ x, getTile s t.team k.toNat = some x → teamOf s (bundle s c.core c.port) = t.team → TileStored c u j t v { opSpec [sp1 a, sp1 d] [] with adds := [(.st, 1)] } k.toNat x ((fun _ => oneElem a) x.desc t) ([(rd t d).toNat])) ∧
  (∀ d a k s, LaneByLane s (opSpec [sp1 a, (d.toNat, 8, 4)] []) (.tstf d a k) (fun _ ks => ∃ x, getTile s (teamOf s ks) k.toNat = some x ∧ fragOk .d x.desc = true ∧ tileWr x.desc = true ∧ x.st = .ready ∧
      tileFull s (opSpec [sp1 a, (d.toNat, 8, 4)] []) .st 0 x.desc ((fragElems .d a) x.desc) ks = false ∧ storeMisses (opSpec [sp1 a, (d.toNat, 8, 4)] []) x.desc ((fragElems .d a) x.desc) ks s = [])
      (fun ks => modTile { s with nextId := s.nextId + 1 } (teamOf s ks) k.toNat fun y => { y with waiters := y.waiters.filter fun j => !ks.contains j }) fun c u j t v =>
    ∀ x, getTile s t.team k.toNat = some x → teamOf s (bundle s c.core c.port) = t.team → TileStored c u j t v (opSpec [sp1 a, (d.toNat, 8, 4)] []) k.toNat x ((fragElems .d a) x.desc t) ((readSpan t d.toNat 8).map (·.toNat))) ∧
  (∀ m d a k s c j t0, Issues { opSpec [sp1 a, sp1 d] [] with adds := [(.st, 1)] } c [j] s → getThread s j = some t0 → let t := schedQuiet s c t0
    ∀ x, getTile s t.team k.toNat = some x → tileEs x.desc = esOf m → tileWr x.desc = true → x.st = .ready → count t .st + tileCounts 0 x.desc ((fun _ => oneElem a) x.desc t) ≤ 255 →
      StoresReach s j t x (elemStores x.desc ((fun _ => oneElem a) x.desc t) ([(rd t d).toNat])) →
      ∃ v, exec (.tst m d a k) s = .next v ∧ v.cur = none ∧
        TileIssued c s j t v { opSpec [sp1 a, sp1 d] [] with adds := [(.st, 1)] } k.toNat x (elemStores x.desc ((fun _ => oneElem a) x.desc t) ([(rd t d).toNat]))) ∧
  (∀ d a k s c j t0, Issues (opSpec [sp1 a, (d.toNat, 8, 4)] []) c [j] s → getThread s j = some t0 → let t := schedQuiet s c t0
    ∀ x, getTile s t.team k.toNat = some x → fragOk .d x.desc = true → tileWr x.desc = true → x.st = .ready → count t .st + tileCounts 0 x.desc ((fragElems .d a) x.desc t) ≤ 255 →
      StoresReach s j t x (elemStores x.desc ((fragElems .d a) x.desc t) ((readSpan t d.toNat 8).map (·.toNat))) →
      ∃ v, exec (.tstf d a k) s = .next v ∧ v.cur = none ∧
        TileIssued c s j t v (opSpec [sp1 a, (d.toNat, 8, 4)] []) k.toNat x (elemStores x.desc ((fragElems .d a) x.desc t) ((readSpan t d.toNat 8).map (·.toNat)))) ∧
  (∀ m d a k s c ks, prelude { opSpec [sp1 a, sp1 d] [] with adds := [(.st, 1)] } s = .go c ks → (getTile s (teamOf s ks) k.toNat = none ∨ ∃ x, getTile s (teamOf s ks) k.toNat = some x ∧ (tileEs x.desc ≠ esOf m ∨ tileWr x.desc = false)) →
    ∃ f : State → Nat → State, exec (.tst m d a k) s = .next (done (laneLoop f s ks)) ∧
      ∀ u j t, getThread u j = some t → ready u { opSpec [sp1 a, sp1 d] [] with adds := [(.st, 1)] } t = true → f u j = deliver u j 0x0A 0 c.fpc) ∧
  (∀ d a k s c ks, prelude (opSpec [sp1 a, (d.toNat, 8, 4)] []) s = .go c ks → (getTile s (teamOf s ks) k.toNat = none ∨ ∃ x, getTile s (teamOf s ks) k.toNat = some x ∧ (fragOk .d x.desc = false ∨ tileWr x.desc = false)) →
    ∃ f : State → Nat → State, exec (.tstf d a k) s = .next (done (laneLoop f s ks)) ∧
      ∀ u j t, getThread u j = some t → ready u (opSpec [sp1 a, (d.toNat, 8, 4)] []) t = true → f u j = deliver u j 0x0A 0 c.fpc)

/-- O48. TCTL.MAP, FILL, DRAIN, FREE and QUERY (spec/17_tiles_launch.md, R340, R342, R343, R344, R353). MAP checks the descriptor in A, takes the lowest free entry and the lowest data area that fits, writes the descriptor to the stash, and D holds the entry, or 0x80000001 to 0x80000003; FILL starts the fill of an EMPTY tile and is complete at once on a READY one; DRAIN and FREE start the drain of a READY tile, and leave one that is EMPTY or FILLING empty, or unmapped; QUERY writes D with the entry's word, 0 where it is not mapped. FILL, DRAIN and FREE add one operation on tl, which, where its tile is in the state that it asks for, counts until the operations on tl before it have retired; an entry that is not mapped, or for FREE and QUERY beyond the count, is TILE_STATE. In a bundle of one lane that executes it, each word completes, as the last clauses say of it in full. -/
def Obligations.TileControlWords : Prop :=
  (∀ d a s, LaneByLane s (opSpec [(a.toNat, 8, 4)] [sp1 d]) (.tctlMap d a) always (fun _ => s) fun c u k t v =>
    let desc := readSpan t a.toNat 8
    let tm := getTeam u t.team
    let w : WordSpec := opSpec [(a.toNat, 8, 4)] [sp1 d]
    (descOk desc = false → LaneEnds k u (finish w c (writeReg t d.toNat 0x80000003)) v) ∧
    (descOk desc = true → (∀ j, j < tm.tileCount → (tget tm.tiles j).isSome = true) → LaneEnds k u (finish w c (writeReg t d.toNat 0x80000001)) v) ∧
    (∀ j, descOk desc = true → j < tm.tileCount ∧ tget tm.tiles j = none ∧ (∀ i, i < j → (tget tm.tiles i).isSome = true) →
      match findArea u tm (tileArea desc) with
      | none => LaneEnds k u (finish w c (writeReg t d.toNat 0x80000002)) v
      | some o => LaneEnds k (modTeam u t.team fun x => { stashPut x (tileBase u tm + 32 * j) (natLe 32 (spanNat desc)) with
          tiles := tset x.tiles j { desc := desc, doff := o } }) (finish (opSpec [(a.toNat, 8, 4)] [sp1 d]) c (writeReg t d.toNat (BitVec.ofNat 32 j))) v)) ∧
  (∀ d a, Completes (opSpec [(a.toNat, 8, 4)] [sp1 d]) (.tctlMap d a) (fun _ u _ t => let desc := readSpan t a.toNat 8
    let tm := getTeam u t.team
    descOk desc = true ∧ (findArea u tm (tileArea desc)).isSome = true ∧ ∃ j, j < tm.tileCount ∧ tget tm.tiles j = none ∧ (∀ i, i < j → (tget tm.tiles i).isSome = true))
    fun c u k t v => let desc := readSpan t a.toNat 8
      let tm := getTeam u t.team
      ∃ j o, j < tm.tileCount ∧ tget tm.tiles j = none ∧ (∀ i, i < j → (tget tm.tiles i).isSome = true) ∧ findArea u tm (tileArea desc) = some o ∧ LaneEnds k (modTeam u t.team fun x => { stashPut x (tileBase u tm + 32 * j) (natLe 32 (spanNat desc)) with
          tiles := tset x.tiles j { desc := desc, doff := o } }) (finish (opSpec [(a.toNat, 8, 4)] [sp1 d]) c (writeReg t d.toNat (BitVec.ofNat 32 j))) v) ∧
  (∀ n s, LaneByLane s { order := true, adds := [(.tl, 1)] } (.tctlFill n) (fun _ ks => (getTile s (teamOf s ks) n.toNat).map (·.st) ≠ some .draining) (fun _ => s) fun c u k t v =>
    ∀ ks, bundle s c.core c.port = ks → t.team = teamOf s ks → match getTile u t.team n.toNat with
      | none => v = deliver u k 0x0A 0 c.fpc
      | some x => ∃ y, LaneEnds k { u with nextId := u.nextId + 1, ex := { u.ex with teams := v.ex.teams } } (finish { order := true, adds := [(.tl, 1)] } c y) v ∧ y.regs = t.regs ∧ y.preds = t.preds ∧ y.pts = t.pts ∧
        (x.st = .empty → (∃ z, getTile v t.team n.toNat = some z ∧ z.st = .filling ∧ z.desc = x.desc) ∧ ((∀ o ∈ t.ops, o.id < u.nextId) → ∃ o ∈ y.ops, o.id = u.nextId ∧ o.cnt = .tl ∧ o.kind = .tile n.toNat true)) ∧
        (x.st = .ready → getTile v t.team n.toNat = some x ∧
          y = retire (addOp t { id := u.nextId, wid := u.nextId, cnt := .tl, kind := .tile n.toNat true, performed := true, visible := true, complete := true }))) ∧
  (∀ n, Completes { order := true, adds := [(.tl, 1)] } (.tctlFill n) (fun _ u _ t => ∃ x, getTile u t.team n.toNat = some x ∧ x.st ≠ .draining)
    fun c u k t v => ∃ x, getTile u t.team n.toNat = some x ∧ ∃ y, LaneEnds k { u with nextId := u.nextId + 1, ex := { u.ex with teams := v.ex.teams } } (finish { order := true, adds := [(.tl, 1)] } c y) v ∧ y.regs = t.regs ∧ y.preds = t.preds ∧ y.pts = t.pts ∧
        (x.st = .empty → (∃ z, getTile v t.team n.toNat = some z ∧ z.st = .filling ∧ z.desc = x.desc) ∧ ((∀ o ∈ t.ops, o.id < u.nextId) → ∃ o ∈ y.ops, o.id = u.nextId ∧ o.cnt = .tl ∧ o.kind = .tile n.toNat true)) ∧
        (x.st = .ready → getTile v t.team n.toNat = some x ∧
          y = retire (addOp t { id := u.nextId, wid := u.nextId, cnt := .tl, kind := .tile n.toNat true, performed := true, visible := true, complete := true }))) ∧
  (∀ n s, LaneByLane s { adds := [(.tl, 1)] } (.tctlDrain n) always (fun _ => s) fun c u k t v =>
    match getTile u t.team n.toNat with
    | none => v = deliver u k 0x0A 0 c.fpc
    | some x => (x.st = .ready ∨ x.st = .draining → ∃ y z, LaneEnds k { u with nextId := u.nextId + 1, ex := { u.ex with teams := v.ex.teams } } (finish { adds := [(.tl, 1)] } c y) v ∧ y.regs = t.regs ∧ y.preds = t.preds ∧ y.pts = t.pts ∧ ((∀ o ∈ t.ops, o.id < u.nextId) → ∃ o ∈ y.ops, o.id = u.nextId ∧ o.cnt = .tl ∧ o.kind = .tile n.toNat false) ∧
        getTile v t.team n.toNat = some z ∧ z.st = .draining ∧ z.desc = x.desc) ∧
      (x.st = .empty ∨ x.st = .filling → x.freeing = false → ((∀ e ∈ teamMates u t.team, e.2.st ≠ .waiting) ∧ t.waitOn = .nothing) → v.mm = u.mm ∧ (∃ z, getTile v t.team n.toNat = some z ∧ z.st = .empty ∧ z.desc = x.desc ∧ z.doff = x.doff) ∧
        ∃ y, getThread v k = some y ∧ y.pc = t.pc + BitVec.ofNat 32 c.words ∧ y.regs = t.regs ∧ y.preds = t.preds ∧ ((∀ o ∈ t.ops, o.id < u.nextId) → (t.ops.map (·.id)).Nodup →
          ((∃ o ∈ y.ops, o.id = u.nextId ∧ o.cnt = .tl) ↔ ∃ o ∈ t.ops, o.cnt = .tl ∧ o.complete = false ∧ ∀ b, o.kind ≠ .tile n.toNat b)))) ∧
  (∀ n, Completes { adds := [(.tl, 1)] } (.tctlDrain n) (fun _ u _ t => ∃ x, getTile u t.team n.toNat = some x ∧ (x.st = .ready ∨ x.st = .draining))
    fun c u k t v => ∃ x, getTile u t.team n.toNat = some x ∧ ∃ y z, LaneEnds k { u with nextId := u.nextId + 1, ex := { u.ex with teams := v.ex.teams } } (finish { adds := [(.tl, 1)] } c y) v ∧ y.regs = t.regs ∧ y.preds = t.preds ∧ y.pts = t.pts ∧ ((∀ o ∈ t.ops, o.id < u.nextId) → ∃ o ∈ y.ops, o.id = u.nextId ∧ o.cnt = .tl ∧ o.kind = .tile n.toNat false) ∧
        getTile v t.team n.toNat = some z ∧ z.st = .draining ∧ z.desc = x.desc) ∧
  (∀ n, Completes { adds := [(.tl, 1)] } (.tctlDrain n) (fun _ u _ t => ∃ x, getTile u t.team n.toNat = some x ∧ (x.st = .empty ∨ x.st = .filling) ∧ x.freeing = false ∧ ((∀ e ∈ teamMates u t.team, e.2.st ≠ .waiting) ∧ t.waitOn = .nothing))
    fun c u k t v => ∃ x, getTile u t.team n.toNat = some x ∧ v.mm = u.mm ∧ (∃ z, getTile v t.team n.toNat = some z ∧ z.st = .empty ∧ z.desc = x.desc ∧ z.doff = x.doff) ∧
        ∃ y, getThread v k = some y ∧ y.pc = t.pc + BitVec.ofNat 32 c.words ∧ y.regs = t.regs ∧ y.preds = t.preds ∧ ((∀ o ∈ t.ops, o.id < u.nextId) → (t.ops.map (·.id)).Nodup →
          ((∃ o ∈ y.ops, o.id = u.nextId ∧ o.cnt = .tl) ↔ ∃ o ∈ t.ops, o.cnt = .tl ∧ o.complete = false ∧ ∀ b, o.kind ≠ .tile n.toNat b))) ∧
  (∀ n s, LaneByLane s { adds := [(.tl, 1)] } (.tctlFree n) always (fun _ => s) fun c u k t v =>
    if (getTeam u t.team).tileCount ≤ n.toNat then v = deliver u k 0x0A 0 c.fpc else
    match getTile u t.team n.toNat with
    | none => ∃ y, LaneEnds k { u with nextId := u.nextId + 1 } (finish { adds := [(.tl, 1)] } c y) v ∧ y.regs = t.regs ∧ y.preds = t.preds ∧ y.pts = t.pts
    | some x => (x.st = .ready ∨ x.st = .draining → ∃ y z, LaneEnds k { u with nextId := u.nextId + 1, ex := { u.ex with teams := v.ex.teams } } (finish { adds := [(.tl, 1)] } c y) v ∧ y.regs = t.regs ∧ y.preds = t.preds ∧ y.pts = t.pts ∧ ((∀ o ∈ t.ops, o.id < u.nextId) → ∃ o ∈ y.ops, o.id = u.nextId ∧ o.cnt = .tl ∧ o.kind = .tile n.toNat false) ∧
        getTile v t.team n.toNat = some z ∧ z.st = .draining ∧ z.desc = x.desc ∧ z.freeing = true) ∧
      (x.st = .empty ∨ x.st = .filling → (getTeam u t.team).tiles.Pairwise (fun a b => a.1 < b.1) → ((∀ e ∈ teamMates u t.team, e.2.st ≠ .waiting) ∧ t.waitOn = .nothing) → v.mm = u.mm ∧ getTile v t.team n.toNat = none ∧
        ∃ y, getThread v k = some y ∧ y.pc = t.pc + BitVec.ofNat 32 c.words ∧ y.regs = t.regs ∧ y.preds = t.preds ∧ ((∀ o ∈ t.ops, o.id < u.nextId) → (t.ops.map (·.id)).Nodup →
          ((∃ o ∈ y.ops, o.id = u.nextId ∧ o.cnt = .tl) ↔ ∃ o ∈ t.ops, o.cnt = .tl ∧ o.complete = false ∧ ∀ b, o.kind ≠ .tile n.toNat b)))) ∧
  (∀ n, Completes { adds := [(.tl, 1)] } (.tctlFree n) (fun _ u _ t => n.toNat < (getTeam u t.team).tileCount ∧ getTile u t.team n.toNat = none)
    fun c u k t v => ∃ y, LaneEnds k { u with nextId := u.nextId + 1 } (finish { adds := [(.tl, 1)] } c y) v ∧ y.regs = t.regs ∧ y.preds = t.preds ∧ y.pts = t.pts) ∧
  (∀ n, Completes { adds := [(.tl, 1)] } (.tctlFree n) (fun _ u _ t => n.toNat < (getTeam u t.team).tileCount ∧ ∃ x, getTile u t.team n.toNat = some x ∧ (x.st = .ready ∨ x.st = .draining))
    fun c u k t v => ∃ x, getTile u t.team n.toNat = some x ∧ ∃ y z, LaneEnds k { u with nextId := u.nextId + 1, ex := { u.ex with teams := v.ex.teams } } (finish { adds := [(.tl, 1)] } c y) v ∧ y.regs = t.regs ∧ y.preds = t.preds ∧ y.pts = t.pts ∧ ((∀ o ∈ t.ops, o.id < u.nextId) → ∃ o ∈ y.ops, o.id = u.nextId ∧ o.cnt = .tl ∧ o.kind = .tile n.toNat false) ∧
        getTile v t.team n.toNat = some z ∧ z.st = .draining ∧ z.desc = x.desc ∧ z.freeing = true) ∧
  (∀ n, Completes { adds := [(.tl, 1)] } (.tctlFree n) (fun _ u _ t => n.toNat < (getTeam u t.team).tileCount ∧ (∃ x, getTile u t.team n.toNat = some x ∧ (x.st = .empty ∨ x.st = .filling)) ∧ (getTeam u t.team).tiles.Pairwise (fun a b => a.1 < b.1) ∧ ((∀ e ∈ teamMates u t.team, e.2.st ≠ .waiting) ∧ t.waitOn = .nothing))
    fun c u k t v => v.mm = u.mm ∧ getTile v t.team n.toNat = none ∧
        ∃ y, getThread v k = some y ∧ y.pc = t.pc + BitVec.ofNat 32 c.words ∧ y.regs = t.regs ∧ y.preds = t.preds ∧ ((∀ o ∈ t.ops, o.id < u.nextId) → (t.ops.map (·.id)).Nodup →
          ((∃ o ∈ y.ops, o.id = u.nextId ∧ o.cnt = .tl) ↔ ∃ o ∈ t.ops, o.cnt = .tl ∧ o.complete = false ∧ ∀ b, o.kind ≠ .tile n.toNat b))) ∧
  (∀ d n s, LaneByLane s (opSpec [] [sp1 d]) (.tctlQuery d n) always (fun _ => s) fun c u k t v =>
    if (getTeam u t.team).tileCount ≤ n.toNat then v = deliver u k 0x0A 0 c.fpc
    else LaneEnds k u (finish (opSpec [] [sp1 d]) c (writeReg t d.toNat (match getTile u t.team n.toNat with
      | some x => BitVec.ofNat 32 (x.doff / 128 * 2 ^ 20 + 8 + (match x.st with | .empty => 0 | .filling => 1 | .ready => 2 | .draining => 3))
      | none => 0))) v) ∧
  (∀ d n, Completes (opSpec [] [sp1 d]) (.tctlQuery d n) (fun _ u _ t => n.toNat < (getTeam u t.team).tileCount)
    fun c u k t v => LaneEnds k u (finish (opSpec [] [sp1 d]) c (writeReg t d.toNat (match getTile u t.team n.toNat with
      | some x => BitVec.ofNat 32 (x.doff / 128 * 2 ^ 20 + 8 + (match x.st with | .empty => 0 | .filling => 1 | .ready => 2 | .draining => 3))
      | none => 0))) v)

/-- O49. TILE_FILL_COMPLETE and TILE_DRAIN_COMPLETE (spec/17_tiles_launch.md, R232, R344, R346, R353). A FILLING tile whose blocks can all be read, and whose threads' snapshot stands, becomes READY, with the stash as the filling of its blocks left it; a DRAINING tile whose stores are all accepted becomes EMPTY, or is unmapped where it is being freed; stated where no thread of the team waits. -/
def Obligations.TileEvents : Prop :=
  (∀ s team tile x u, getTile s team tile = some x → x.st = .filling → tileBlocked s team tile = false → (∀ j ∈ x.fillThr :: x.waiters, tileRevoked s j = false) →
    fillTile s team tile x.fillThr x x.fillPts (List.range (tileArea x.desc / 128)) = (true, u) →
    (∃ y, getTile u team tile = some y ∧ y.desc = x.desc) → (∀ e ∈ teamMates u team, e.2.st ≠ .waiting) →
    ∃ v, exec (.tileFillComplete team tile) s = .next v ∧ v.mm = u.mm ∧ (∃ y, getTile v team tile = some y ∧ y.st = .ready ∧ y.desc = x.desc ∧ y.waiters = []) ∧
      (getTeam v team).stash = (getTeam u team).stash) ∧
  (∀ s team tile x, getTile s team tile = some x → x.st = .draining → tileStores s team tile = 0 → (getTeam s team).tiles.Pairwise (fun a b => a.1 < b.1) →
    (∀ e ∈ teamMates s team, e.2.st ≠ .waiting) →
    ∃ v, exec (.tileDrainComplete team tile) s = .next v ∧ v.mm = s.mm ∧
      if x.freeing then getTile v team tile = none else ∃ y, getTile v team tile = some y ∧ y.st = .empty ∧ y.desc = x.desc ∧ y.doff = x.doff)

/-- O50. The SYSOPs that set values: AGEMAX, LAURELSZ, MIGTH, FRAMEADD, ROOT, PKGSET, EXPORT, RETIRE, DBGMATCH, TEAMSTOP, QPOPEN, RINGSET and CGROUP (spec/19_faults.md, R205, R269, R280, R283, R303, R307, R311, R317, R329, R337, R386). Each checks its arguments, gives ARG or STATE and changes nothing where they do not stand, and else OK with its one setting changed and nothing else: AGE_MAX, the Laurel size with every delta folded and the folded lines written back, and where the size grows the displaced dirty lines (log entry 11 leaves free which) written back, MIGTH, a frame list, an ASID's root, PKG, an export, the retired units with their flash copy, the flows of a retired port moving to another, a comparator, TEAMSTOP, a queue pair, where a closed pair that is frozen stays so, a ring, a collective group, whose member table is a bit mask by log entry 36, and which waits while a page of it waits (log entry 45). A lane of a grid whose ASID is not 0 takes PRIV; otherwise D holds the status. In a bundle of one lane whose arguments stand as the last clause of each says, the word completes with OK and its effect, its thread still there. -/
def Obligations.SupervisorSettings : Prop :=
  (∀ a d, let post (u : State) (_ : Nat) (x : Args) (st : Nat) (v : State) : Prop :=
    (if 1 ≤ x 0 ∧ x 0 ≤ 255 then st = 0 ∧ v = { u with ex := { u.ex with ageMax := x 0 } } else st = 1 ∧ v = u)
    SysopLanes (sysSpec a d) (.agemax a d) a d post ∧ SysopCompletes (sysSpec a d) (.agemax a d) a d (fun _ _ x => 1 ≤ x 0 ∧ x 0 ≤ 255) post) ∧
  (∀ a d, let post (u : State) (_ : Nat) (x : Args) (st : Nat) (v : State) : Prop :=
    (if x 0 ≤ 2 then st = 0 ∧ v.mm.laurel = x 0 ∧ v.ex = u.ex ∧ (LinesOk u → ∃ w, Flushed (fun _ => true) u w ∧
        v = { w with nextId := u.nextId + 1, mm := { w.mm with lines := v.mm.lines, laurel := x 0 }, bd := { w.bd with perf := v.bd.perf } } ∧
        ∀ ln, getLine v ln = if u.mm.laurel < x 0 ∧ Config.displaced u.nextId ln = true then { getLine w ln with back := none } else getLine w ln)
    else st = 1 ∧ v = u)
    SysopLanes (sysSpec a d) (.laurelsz a d) a d post ∧ SysopCompletes (sysSpec a d) (.laurelsz a d) a d (fun _ _ x => x 0 ≤ 2) post) ∧
  (∀ a d, let post (u : State) (_ : Nat) (x : Args) (st : Nat) (v : State) : Prop :=
    (if x 0 < 1024 then st = 0 ∧ v = { u with tr := { u.tr with migth := x 0 } } else st = 1 ∧ v = u)
    SysopLanes (sysSpec a d) (.migth a d) a d post ∧ SysopCompletes (sysSpec a d) (.migth a d) a d (fun _ _ x => x 0 < 1024) post) ∧
  (∀ a d, let post (u : State) (_ : Nat) (x : Args) (st : Nat) (v : State) : Prop :=
    (let pa := x 2 + 2 ^ 32 * x 3
    let l := (tget u.tr.frames (x 0 * 3 + x 1)).getD []
    (x 0 < 4 → x 1 < 3 → pa % 65536 = 0 → frameOk u pa 65536 = true → memList pa = x 1 →
      if l.length < Config.framesPerList then st = 0 ∧ v = { u with tr := { u.tr with frames := tset u.tr.frames (x 0 * 3 + x 1) (l ++ [pa]) } }
      else st = 2 ∧ v = u) ∧
    (4 ≤ x 0 ∨ 3 ≤ x 1 ∨ pa % 65536 ≠ 0 ∨ frameOk u pa 65536 = false ∨ memList pa ≠ x 1 → st = 1 ∧ v = u))
    SysopLanes (sysSpec a d) (.frameadd a d) a d post ∧ SysopCompletes (sysSpec a d) (.frameadd a d) a d (fun u _ x => let pa := x 2 + 2 ^ 32 * x 3
    x 0 < 4 ∧ x 1 < 3 ∧ pa % 65536 = 0 ∧ frameOk u pa 65536 = true ∧ memList pa = x 1 ∧ ((tget u.tr.frames (x 0 * 3 + x 1)).getD []).length < Config.framesPerList) post) ∧
  (∀ a d, let post (u : State) (_ : Nat) (x : Args) (st : Nat) (v : State) : Prop :=
    (let pa := x 1 + 2 ^ 32 * x 2
    if pa % 4096 = 0 ∧ mapped pa = true then st = 0 ∧ v = { u with tr := { u.tr with roots := v.tr.roots } } ∧
      (∀ n, tget v.tr.roots n = if n = x 0 % 2 ^ 12 then (if x 0 / 2 ^ 12 % 2 = 1 then some pa else none) else tget u.tr.roots n)
    else st = 1 ∧ v = u)
    SysopLanes (sysSpec a d) (.root a d) a d post ∧ SysopCompletes (sysSpec a d) (.root a d) a d (fun _ _ x => (x 1 + 2 ^ 32 * x 2) % 4096 = 0 ∧ mapped (x 1 + 2 ^ 32 * x 2) = true) post) ∧
  (∀ a d, let post (u : State) (_ : Nat) (x : Args) (st : Nat) (v : State) : Prop :=
    (if x 0 < 8192 then st = 0 ∧ v = { u with fa := { u.fa with pkg := x 0 } } else st = 1 ∧ v = u)
    SysopLanes (sysSpec a d) (.pkgset a d) a d post ∧ SysopCompletes (sysSpec a d) (.pkgset a d) a d (fun _ _ x => x 0 < 8192) post) ∧
  (∀ a d, let post (u : State) (_ : Nat) (x : Args) (st : Nat) (v : State) : Prop :=
    (let va := x 1 + 2 ^ 32 * x 2
    let e : Export := { asid := x 0, vpn := va / 65536, pkg := x 3 % 2 ^ 13, rasid := x 3 / 2 ^ 13 % 2 ^ 12 }
    if x 0 < 4096 ∧ va < 2 ^ 57 then st = 0 ∧ v = { u with fa := { u.fa with exports := v.fa.exports } } ∧
      ∀ y, y ∈ v.fa.exports ↔ (if y = e then x 3 / 2 ^ 25 % 2 = 0 else y ∈ u.fa.exports)
    else st = 1 ∧ v = u)
    SysopLanes (sysSpec a d) (.exportPage a d) a d post ∧ SysopCompletes (sysSpec a d) (.exportPage a d) a d (fun _ _ x => x 0 < 4096 ∧ x 1 + 2 ^ 32 * x 2 < 2 ^ 57) post) ∧
  (∀ a d, let post (u : State) (_ : Nat) (x : Args) (st : Nat) (v : State) : Prop :=
    (let n := x 0 % 2 ^ 8
    if x 0 / 2 ^ 8 % 2 = 1 then
      (if n < 32 then st = 0 ∧ ∃ l, (∀ p, p ∈ l ↔ p = n ∨ p ∈ u.fa.badPorts) ∧
          v = moveFlows { u with fa := { u.fa with badPorts := l }, bd := { u.bd with flashCores := u.bd.badCores, flashPorts := l } } n
       else st = 1 ∧ v = u)
    else if ∃ e ∈ coreTeams u n, e.2.gone = false ∨ 0 < e.2.size then st = 2 ∧ v = u
    else st = 0 ∧ ∃ l, (∀ p, p ∈ l ↔ p = n ∨ p ∈ u.bd.badCores) ∧ v = { u with bd := { u.bd with badCores := l, flashCores := l, flashPorts := u.fa.badPorts } })
    SysopLanes (sysSpec a d) (.retire a d) a d post ∧ SysopCompletes (sysSpec a d) (.retire a d) a d (fun u _ x => if x 0 / 2 ^ 8 % 2 = 1 then x 0 % 2 ^ 8 < 32
    else ∀ e ∈ coreTeams u (x 0 % 2 ^ 8), e.2.gone = true ∧ e.2.size = 0) post) ∧
  (∀ a d, let post (u : State) (_ : Nat) (x : Args) (st : Nat) (v : State) : Prop :=
    (st = 0 ∧ v = { u with ex := { u.ex with cores := v.ex.cores } } ∧ ∀ n, getCore v n = { getCore u n with comparators := (getCore v n).comparators } ∧
      ∀ i, tget (getCore v n).comparators i =
        if n = x 0 % 2 ^ 8 ∧ i = x 0 / 2 ^ 8 % 2 ^ 3 then (if x 0 / 2 ^ 11 % 2 = 1 then some (x 1 + 2 ^ 32 * x 2) else none) else tget (getCore u n).comparators i)
    SysopLanes (sysSpec a d) (.dbgmatch a d) a d post ∧ SysopCompletes (sysSpec a d) (.dbgmatch a d) a d (fun _ _ _ => True) post) ∧
  (∀ a d, let post (u : State) (_ : Nat) (x : Args) (st : Nat) (v : State) : Prop :=
    (match tget u.ex.teams (x 0 % 2 ^ 8 * 2048 + x 0 / 2 ^ 8 % 2 ^ 11) with
    | none => st = 2 ∧ v = u
    | some tm => st = 0 ∧ v = { u with ex := { u.ex with teams := v.ex.teams } } ∧
      ∀ n, tget v.ex.teams n = if n = (x 0 % 2 ^ 8 * 2048 + x 0 / 2 ^ 8 % 2 ^ 11) then some { tm with teamStop := decide (x 1 % 2 = 1) } else tget u.ex.teams n)
    SysopLanes (sysSpec a d) (.teamstop a d) a d post ∧ SysopCompletes (sysSpec a d) (.teamstop a d) a d (fun u _ x => (tget u.ex.teams (x 0 % 2 ^ 8 * 2048 + x 0 / 2 ^ 8 % 2 ^ 11)).isSome = true) post) ∧
  (∀ a d, let post (u : State) (_ : Nat) (x : Args) (st : Nat) (v : State) : Prop :=
    (let l := u.fa.qps.filter fun e => e.1 != x 0 && e.2.mode != 0
    if 2 ^ 24 ≤ x 0 ∨ 3 < x 3 then st = 1 ∧ v = u
    else if x 3 = 0 then st = 0 ∧ v = { u with fa := { u.fa with qps := v.fa.qps } } ∧
      ∀ n, tget v.fa.qps n = if n = x 0 then (tget u.fa.qps n).bind (fun q => if q.frozen then some { q with mode := 0 } else none) else tget u.fa.qps n
    else if Config.queuePairs ≤ l.length ∨ (x 3 ≠ 1 ∧ ∃ e ∈ l, e.2.mode = x 3) then st = 2 ∧ v = u
    else st = 0 ∧ v = { u with fa := { u.fa with qps := tset u.fa.qps (x 0) { (tget u.fa.qps (x 0)).getD { asid := 0, key := 0, mode := 0 } with
      asid := x 1 % 2 ^ 12, key := x 2, mode := x 3 } } })
    SysopLanes (sysSpec a d) (.qpopen a d) a d post ∧ SysopCompletes (sysSpec a d) (.qpopen a d) a d (fun u _ x => x 0 < 2 ^ 24 ∧ x 3 ≤ 3 ∧ (x 3 = 0 ∨ let l := u.fa.qps.filter fun e => e.1 != x 0 && e.2.mode != 0
      l.length < Config.queuePairs ∧ (x 3 = 1 ∨ ∀ e ∈ l, e.2.mode ≠ x 3))) post) ∧
  (∀ a d, let post (u : State) (_ : Nat) (x : Args) (st : Nat) (v : State) : Prop :=
    (let base := x 1 + 2 ^ 32 * x 2
    (base % 4096 ≠ 0 ∨ 2 ≤ x 0 % 4 → st = 1 ∧ v = u) ∧
    (x 0 % 4 = 1 → hostMay u .engineWrite 0 base (262144 + 8) = false ∨ beyond u.bd.eventQ.count (x 3) = true → st = 1 ∧ v = u) ∧
    (base % 4096 = 0 → x 0 % 4 = 1 → hostMay u .engineWrite 0 base (262144 + 8) = true → beyond u.bd.eventQ.count (x 3) = false →
      st = 0 ∧ v = { u with bd := { u.bd with eventQ := { u.bd.eventQ with base := some base, readIx := x 3 } } }) ∧
    (x 0 % 4 = 0 → ∀ q, q = (tget u.tr.faultQs (x 0 / 4 % 4)).getD {} →
      (hostMay u .engineWrite 0 base (131072 + 8) = false ∨ beyond q.seq (x 3) = true → st = 1 ∧ v = u) ∧
      (base % 4096 = 0 → hostMay u .engineWrite 0 base (131072 + 8) = true → beyond q.seq (x 3) = false →
        st = 0 ∧ v = { u with tr := { u.tr with faultQs := tset u.tr.faultQs (x 0 / 4 % 4) { q with base := some base, readIx := x 3 } } })))
    SysopLanes (sysSpec a d) (.ringset a d) a d post ∧ SysopCompletes (sysSpec a d) (.ringset a d) a d (fun u _ x => let base := x 1 + 2 ^ 32 * x 2
    base % 4096 = 0 ∧ (x 0 % 4 = 1 ∧ hostMay u .engineWrite 0 base (262144 + 8) = true ∧ beyond u.bd.eventQ.count (x 3) = false ∨
      x 0 % 4 = 0 ∧ hostMay u .engineWrite 0 base (131072 + 8) = true ∧ beyond ((tget u.tr.faultQs (x 0 / 4 % 4)).getD {}).seq (x 3) = false)) post) ∧
  (∀ a d, let post (u : State) (k : Nat) (x : Args) (st : Nat) (v : State) : Prop :=
    (let va := x 1 + 2 ^ 32 * x 2
    (4096 ≤ x 0 ∨ va % 8 ≠ 0 ∨ hostMay u .engineRead 0 va 1024 = false → st = 1 ∧ v = u) ∧
    (x 0 < 4096 → va % 8 = 0 → hostMay u .engineRead 0 va 1024 = true → ∀ p bs b w, hostRead u (((getThread u k).map (·.pts)).getD 0) 0 va 1024 = ((p, bs, b), w) →
      let z := modThread w k fun t => { t with pts := max t.pts p }
      let l := (List.range 8192).filter fun i => (leNat bs).testBit i
      w.ex.threads = u.ex.threads ∧ w.en = u.en ∧
        if b = false ∧ l.length = x 3 ∧ 0 < x 3 then st = 0 ∧ v = { z with en := { z.en with groups := tset z.en.groups (x 0) l } } else st = 1 ∧ v = z))
    SysopLanes { sysSpec a d with order := true } (.cgroup a d) a d post (waits := cgroupWaits) ∧ SysopCompletes { sysSpec a d with order := true } (.cgroup a d) a d (fun u k x => let va := x 1 + 2 ^ 32 * x 2
    x 0 < 4096 ∧ va % 8 = 0 ∧ hostMay u .engineRead 0 va 1024 = true ∧
      ∃ p bs w, hostRead u (((getThread u k).map (·.pts)).getD 0) 0 va 1024 = ((p, bs, false), w) ∧
        ((List.range 8192).filter fun i => (leNat bs).testBit i).length = x 3 ∧ 0 < x 3) post (waits := cgroupWaits))

/-- O51. The SYSOPs on queues, threads and grids: QUEUE, RELEASE, THRCLR, THREAD, GRIDEND, DEBUG, REPLAY, BOXREAD, RESTORE (spec/19_faults.md, R269, R282, R293, R318, R335, R337, R338, R370, R382, R386, R393). QUEUE creates, changes and destroys queues; RELEASE thaws a frozen queue, stream, peer or queue pair; THRCLR clears status bits of a thread; THREAD resumes a parked thread at FPC or elsewhere, or ends it; GRIDEND ends a grid: its placed teams are gone with their threads, its saved ones dropped, and every other thread stands as it stood; DEBUG stops, continues or steps; REPLAY walks an absent page again, or fails its waiters; BOXREAD writes Boxwood's entries to memory; RESTORE puts a saved set back on its new cores. Each changes that and nothing else of the state, as its clauses say; the thread of the lane itself is gone where GRIDEND ends its own grid, and only there. The argument bits that no operation names are ignored, and the forms of the saved context are log entries 38 and 37; a RELEASE that reads a write-index word and a BOXREAD wait while a page waits (log entry 45). A lane of a grid whose ASID is not 0 takes PRIV; otherwise D holds the status. In a bundle of one lane whose arguments stand as the last clause of each says, the word completes with OK and its effect, its thread still there. -/
def Obligations.SupervisorQueuesAndThreads : Prop :=
  (∀ a d, let post (u : State) (_ : Nat) (x : Args) (st : Nat) (v : State) : Prop :=
    (let n := x 0 % 2 ^ 12
    let r := queueArgs x
    let good : Prop := x 1 / 2 ^ 25 % 2 ^ 7 = 0 ∧ x 3 / 2 ^ 25 % 2 ^ 7 = 0
    let only (y : Option Queue) : Prop := v = { u with qu := { u.qu with queues := v.qu.queues } } ∧ ∀ j, tget v.qu.queues j = if j = n then y else tget u.qu.queues j
    (¬ good → st = 1 ∧ v = u) ∧ (good → x 0 / 2 ^ 31 % 2 = 1 → 
      (tget u.qu.queues n = none → if ringArgs u r = true then st = 0 ∧ only (some { r with waitingSince := u.bd.clock }) else st = 1 ∧ v = u) ∧
      ∀ q, tget u.qu.queues n = some q →
        if q.logn = r.logn ∧ q.ringBase = r.ringBase then st = 0 ∧ only (some { q with asid := r.asid, prio := r.prio, qpn := r.qpn, push := r.push })
        else if q.ridx ≠ q.widx then st = 2 ∧ v = u
        else if ringArgs u r = true then st = 0 ∧ only (some { q with asid := r.asid, prio := r.prio, qpn := r.qpn, push := r.push, logn := r.logn, ringBase := r.ringBase })
        else st = 1 ∧ v = u) ∧
    (good → x 0 / 2 ^ 31 % 2 = 0 → (tget u.qu.queues n = none → st = 0 ∧ v = u) ∧ ∀ q, tget u.qu.queues n = some q →
      if (q.ridx = q.widx ∨ q.frozen = true) ∧ slotOf u n = none then
        st = 0 ∧ v = { u with ex := { u.ex with grids := v.ex.grids }, qu := { u.qu with queues := v.qu.queues, pendings := v.qu.pendings, graphs := v.qu.graphs }, fa := { u.fa with requests := v.fa.requests, unsent := v.fa.unsent } } ∧
          (∀ j, tget v.qu.queues j = if j = n then none else tget u.qu.queues j) ∧ (∀ p, p ∈ v.qu.pendings ↔ p ∈ u.qu.pendings ∧ p.queue ≠ n) ∧
          (∀ e ∈ v.ex.grids, e.2.queue ≠ n) ∧ v.ex.grids.map (fun e => (e.1, e.2.record)) = u.ex.grids.map (fun e => (e.1, e.2.record))
      else st = 2 ∧ v = u))
    SysopLanes (sysSpec a d) (.queue a d) a d post ∧ SysopCompletes (sysSpec a d) (.queue a d) a d (fun u _ x => x 1 / 2 ^ 25 % 2 ^ 7 = 0 ∧ x 3 / 2 ^ 25 % 2 ^ 7 = 0 ∧
      (x 0 / 2 ^ 31 % 2 = 1 ∧ tget u.qu.queues (x 0 % 2 ^ 12) = none ∧ ringArgs u (queueArgs x) = true ∨
       x 0 / 2 ^ 31 % 2 = 0 ∧ (∃ q, tget u.qu.queues (x 0 % 2 ^ 12) = some q ∧ (q.ridx = q.widx ∨ q.frozen = true)) ∧ slotOf u (x 0 % 2 ^ 12) = none ∨
       x 0 / 2 ^ 31 % 2 = 1 ∧ ∃ q, tget u.qu.queues (x 0 % 2 ^ 12) = some q ∧ q.logn = (queueArgs x).logn ∧ q.ringBase = (queueArgs x).ringBase)) post) ∧
  (∀ a d, let post (u : State) (_ : Nat) (x : Args) (st : Nat) (v : State) : Prop :=
    ((2 < x 2 → st = 1 ∧ v = u) ∧
    (x 2 ≤ 2 → x 0 % 4 = 3 → (∀ q, tget u.fa.qps (x 1) = some q → q.frozen = false) → st = 2 ∧ v = u) ∧
    (x 2 ≤ 2 → x 0 % 4 = 3 → ∀ q, tget u.fa.qps (x 1) = some q → q.frozen = true → st = 0 ∧ v = { u with fa := { u.fa with qps := v.fa.qps } } ∧
      ∀ n, tget v.fa.qps n = if n = x 1 then (if q.mode = 0 then none else some { q with frozen := false }) else tget u.fa.qps n) ∧
    (x 2 ≤ 2 → x 0 % 4 = 2 → (x 2 = 1 → st = 1 ∧ v = u) ∧ (x 2 ≠ 1 → (getPeer u (x 1)).frozen = false → st = 2 ∧ v = u) ∧
      (x 2 ≠ 1 → (getPeer u (x 1)).frozen = true → st = 0 ∧
        let z : State := { u with fa := { u.fa with peers := tset u.fa.peers (x 1) { getPeer u (x 1) with frozen := false, owed := [] } } }
        v = if x 2 = 0 then (getPeer u (x 1)).owed.foldl sendFrame z else z)) ∧
    (x 2 ≤ 2 → x 0 % 4 = 0 → (∀ q, tget u.qu.queues (x 1) = some q → q.frozen = false) → st = 2 ∧ v = u) ∧
    (x 2 ≤ 2 → x 0 % 4 = 0 → ∀ q, tget u.qu.queues (x 1) = some q → q.frozen = true → (q.sigFrozen = none ∨ x 2 = 0) → st = 0 ∧
      ∃ z : State, z = { u with qu := { u.qu with queues := z.qu.queues } } ∧
        (∀ j, tget z.qu.queues j = if j = x 1 then some { q with
            frozen := false, freason := 0, detail := 0, sigFrozen := none, waitingSince := u.bd.clock
            ridx := if x 2 = 0 then q.ridx else if x 2 = 1 then min q.widx (q.ridx + 1) else q.widx } else tget u.qu.queues j) ∧
        (q.push = true → v = z) ∧
        (q.push = false → v.ex.threads = u.ex.threads ∧ ∀ a r w, plainRead z { via := baseVia, asid := q.asid, p := q.bell } q.ctl 8 = (some a, r, w) →
          v = if a.poison then freezeQueue w (x 1) 8 0 else presentBell w (x 1) a.value a.ts)) ∧
    (x 2 ≤ 2 → x 0 % 4 = 1 → let mine (c : Card) : Prop := c.instance_ = x 1 % 2 ^ 8 ∧ c.asid = x 1 / 2 ^ 8 % 2 ^ 12
      ((∀ e ∈ u.en.cards, mine e.2 → e.2.frozen = none) → st = 2 ∧ v = u) ∧
      ((∃ e ∈ u.en.cards, mine e.2 ∧ e.2.frozen.isSome = true) → st = 0 ∧ v = { u with en := { u.en with cards := v.en.cards }, fa := { u.fa with requests := v.fa.requests, unsent := v.fa.unsent } } ∧
        (u.en.cards.Pairwise (fun a b => a.1 < b.1) → ∀ e ∈ u.en.cards,
          (¬ mine e.2 → tget v.en.cards e.1 = some e.2) ∧ (mine e.2 → e.2.frozen = none → (x 2 ≠ 2 ∨ e.2.finished = true) → tget v.en.cards e.1 = some e.2) ∧
          (mine e.2 → e.2.frozen.isSome = true → x 2 = 0 → e.2.finished = true → tget v.en.cards e.1 = some { e.2 with frozen := none }) ∧
          (mine e.2 → e.2.frozen.isSome = true → x 2 = 0 → e.2.finished = false → ∃ y, tget v.en.cards e.1 = some y ∧
            y = { e.2 with frozen := none, started := false, pieces := [], ahead := [], worked := false, buf := [], status := y.status }) ∧
          (mine e.2 → e.2.frozen.isSome = true → x 2 ≠ 0 → e.2.finished = true → tget v.en.cards e.1 = none) ∧
          (mine e.2 → e.2.finished = false → (e.2.frozen.isSome = true ∧ x 2 ≠ 0 ∨ x 2 = 2) →
            tget v.en.cards e.1 = some { e.2 with frozen := none, started := true, worked := true, deps := [], status := x 2 })))))
    SysopLanes (sysSpec a d) (.release a d) a d post (waits := releaseWaits) ∧ SysopCompletes (sysSpec a d) (.release a d) a d (fun u _ x => x 2 ≤ 2 ∧ x 0 % 4 = 3 ∧ (∃ q, tget u.fa.qps (x 1) = some q ∧ q.frozen = true) ∨
      x 2 ≤ 2 ∧ x 2 ≠ 1 ∧ x 0 % 4 = 2 ∧ (getPeer u (x 1)).frozen = true ∨
      x 2 ≤ 2 ∧ x 0 % 4 = 0 ∧ (∃ q, tget u.qu.queues (x 1) = some q ∧ q.frozen = true ∧ (q.sigFrozen = none ∨ x 2 = 0)) ∨
      x 2 ≤ 2 ∧ x 0 % 4 = 1 ∧ ∃ e ∈ u.en.cards, e.2.instance_ = x 1 % 2 ^ 8 ∧ e.2.asid = x 1 / 2 ^ 8 % 2 ^ 12 ∧ e.2.frozen.isSome = true) post (waits := releaseWaits)) ∧
  (∀ a d, let post (u : State) (_ : Nat) (x : Args) (st : Nat) (v : State) : Prop :=
    (match getThread u (x 0 % 2 ^ 8 * 2048 + x 0 / 2 ^ 8 % 2 ^ 11) with
    | none => st = 1 ∧ v = u
    | some y => st = 0 ∧ v = setThread u (x 0 % 2 ^ 8 * 2048 + x 0 / 2 ^ 8 % 2 ^ 11) { y with
        snapx := y.snapx && decide (x 1 % 2 = 0), derivLost := y.derivLost && decide (x 1 / 2 % 2 = 0), ternBad := y.ternBad && decide (x 1 / 4 % 2 = 0)
        serialSeen := y.serialSeen && decide (x 1 / 8 % 2 = 0), preempted := y.preempted && decide (x 1 / 16 % 2 = 0) })
    SysopLanes (sysSpec a d) (.thrclr a d) a d post ∧ SysopCompletes (sysSpec a d) (.thrclr a d) a d (fun u _ x => (getThread u (x 0 % 2 ^ 8 * 2048 + x 0 / 2 ^ 8 % 2 ^ 11)).isSome = true) post) ∧
  (∀ a d, let post (u : State) (_ : Nat) (x : Args) (st : Nat) (v : State) : Prop :=
    ((2 < x 1 → st = 1 ∧ v = u) ∧ (x 1 ≤ 2 → (∀ y, getThread u (x 0 % 2 ^ 8 * 2048 + x 0 / 2 ^ 8 % 2 ^ 11) = some y → y.st ≠ .parked) → st = 2 ∧ v = u) ∧
    ∀ y, getThread u (x 0 % 2 ^ 8 * 2048 + x 0 / 2 ^ 8 % 2 ^ 11) = some y → y.st = .parked →
      let alone : Prop := ∀ e ∈ groupMates u y.team y.group, e.2.st ≠ .waiting
      (x 1 = 0 → st = 0 ∧ (∃ z, getThread v (x 0 % 2 ^ 8 * 2048 + x 0 / 2 ^ 8 % 2 ^ 11) = some z) ∧
        (alone → waitsOn y = false → v = setThread (dropWaiters u fun j => j == (x 0 % 2 ^ 8 * 2048 + x 0 / 2 ^ 8 % 2 ^ 11)) (x 0 % 2 ^ 8 * 2048 + x 0 / 2 ^ 8 % 2 ^ 11) { y with frame := none, waitOn := .nothing, held := none, pc := y.fpc, st := if y.dstop then .stopped else .ready }) ∧
        (alone → waitsOn y = true → y.waitOn ≠ .join → y.waitOn ≠ .gjoin → v = setThread (dropWaiters u fun j => j == (x 0 % 2 ^ 8 * 2048 + x 0 / 2 ^ 8 % 2 ^ 11)) (x 0 % 2 ^ 8 * 2048 + x 0 / 2 ^ 8 % 2 ^ 11) { y with frame := none, pc := y.fpc, st := .waiting }) ∧
        ((y.waitOn = .join ∨ y.waitOn = .gjoin) → v = checkJoins (setThread (dropWaiters u fun j => j == (x 0 % 2 ^ 8 * 2048 + x 0 / 2 ^ 8 % 2 ^ 11)) (x 0 % 2 ^ 8 * 2048 + x 0 / 2 ^ 8 % 2 ^ 11) { y with frame := none, pc := y.fpc, st := .waiting }) (x 0 % 2 ^ 8 * 2048 + x 0 / 2 ^ 8 % 2 ^ 11))) ∧
      (x 1 = 1 → st = 0 ∧ v = setThread (dropWaiters u fun j => j == (x 0 % 2 ^ 8 * 2048 + x 0 / 2 ^ 8 % 2 ^ 11)) (x 0 % 2 ^ 8 * 2048 + x 0 / 2 ^ 8 % 2 ^ 11) (endRun { y with frame := none, waitOn := .nothing, held := none, pc := BitVec.ofNat 32 (x 2), st := if y.dstop then .stopped else .ready })) ∧
      (x 1 = 2 → st = 0 ∧
        (count y .ld ≠ 0 → ∃ z, v = setThread (dropWaiters u fun j => j == (x 0 % 2 ^ 8 * 2048 + x 0 / 2 ^ 8 % 2 ^ 11)) (x 0 % 2 ^ 8 * 2048 + x 0 / 2 ^ 8 % 2 ^ 11) z ∧ z.st = .waiting ∧ z.waitOn = .stop ∧ z.frame = none ∧ z.bad = [] ∧ z.regs = y.regs ∧ z.ops = y.ops) ∧
        (count y .ld = 0 → (∃ z, getThread v (x 0 % 2 ^ 8 * 2048 + x 0 / 2 ^ 8 % 2 ^ 11) = some z ∧ z.st = .draining ∧ z.snap = .off ∧ z.tx = {}) ∧ v.mm.mem = u.mm.mem ∧
          ((∀ e ∈ teamMates u y.team, e.1 ≠ (x 0 % 2 ^ 8 * 2048 + x 0 / 2 ^ 8 % 2 ^ 11) → e.2.st ≠ .waiting) → (∀ tm, tget u.ex.teams y.team = some tm → tm.barCount = 0 ∧ tm.tiles = [] ∧ ∀ cl, tget u.ex.clusters tm.cluster = some cl → cl.barCount = 0) →
            ∀ j, j ≠ (x 0 % 2 ^ 8 * 2048 + x 0 / 2 ^ 8 % 2 ^ 11) → getThread v j = getThread u j))))
    SysopLanes (sysSpec a d) (.thread a d) a d post ∧ SysopCompletes (sysSpec a d) (.thread a d) a d (fun u _ x => x 1 ≤ 2 ∧ ∃ y, getThread u (x 0 % 2 ^ 8 * 2048 + x 0 / 2 ^ 8 % 2 ^ 11) = some y ∧ y.st = .parked) post) ∧
  (∀ a d, let post (u : State) (_ : Nat) (x : Args) (st : Nat) (v : State) : Prop :=
    ((1 < x 1 → st = 1 ∧ v = u) ∧ (x 1 ≤ 1 → (∀ g, (if x 1 = 0 then some (x 0) else refGrid u (x 0 % 2 ^ 8 * 2048 + x 0 / 2 ^ 8 % 2 ^ 11)) = some g → tget u.ex.grids g = none) → st = 1 ∧ v = u) ∧
    (x 1 ≤ 1 → ∀ g h0, (if x 1 = 0 then some (x 0) else refGrid u (x 0 % 2 ^ 8 * 2048 + x 0 / 2 ^ 8 % 2 ^ 11)) = some g → tget u.ex.grids g = some h0 → st = 0 ∧ (∃ h, tget v.ex.grids g = some h ∧ h.ended = true ∧ h.record = h0.record) ∧ v.mm.mem = u.mm.mem ∧
      (u.ex.teams.Pairwise (fun a b => a.1 < b.1) → let ends := (fun (t0 : Thread) => ∃ tm, tget u.ex.teams t0.team = some tm ∧ tm.grid = g ∧ tm.gone = false)
        (∀ j t0, j < 2 ^ 90 → getThread u j = some t0 → ends t0 → getThread v j = none) ∧ (∀ j t0, j < 2 ^ 90 → getThread u j = some t0 → ¬ ends t0 → getThread v j = some t0) ∧
        (∀ j, j < 2 ^ 90 → getThread u j = none → getThread v j = none) ∧
        (∀ j tm, tget u.ex.teams j = some tm → tm.grid = g → tm.gone = false → ∀ y, tget v.ex.teams j = some y → y.gone = true ∧ y.tiles = [] ∧ y.tileCount = 0) ∧
        (∀ j tm, tget u.ex.teams j = some tm → j < 2 ^ 90 → tm.grid ≠ g → tm.gone = false → tget v.ex.teams j = some tm) ∧ ∀ e ∈ v.ex.saved, ∀ y ∈ e.teams, y.2.grid ≠ g)))
    SysopLanes (sysSpec a d) (.gridend a d) a d post (fun u k x => x 1 ≤ 1 ∧ ∃ y tm, getThread u k = some y ∧ tget u.ex.teams y.team = some tm ∧ (if x 1 = 0 then some (x 0) else refGrid u (x 0 % 2 ^ 8 * 2048 + x 0 / 2 ^ 8 % 2 ^ 11)) = some tm.grid) ∧ SysopCompletes (sysSpec a d) (.gridend a d) a d (fun u k x => x 1 = 0 ∧ (tget u.ex.grids (x 0)).isSome = true ∧ u.ex.teams.Pairwise (fun a b => a.1 < b.1) ∧
      ∃ y tm, getThread u k = some y ∧ tget u.ex.teams y.team = some tm ∧ tm.grid ≠ x 0) post) ∧
  (∀ a d, let post (u : State) (_ : Nat) (x : Args) (st : Nat) (v : State) : Prop :=
    ((2 < x 1 % 16 → st = 1 ∧ v = u) ∧ ∀ y, getThread u (x 0 % 2 ^ 8 * 2048 + x 0 / 2 ^ 8 % 2 ^ 11) = some y →
      (x 1 % 16 = 2 → y.live = false → st = 2 ∧ v = u) ∧
      (x 1 % 16 = 2 → y.live = true → st = 0 ∧ v = { u with ex := { u.ex with threads := v.ex.threads, cores := v.ex.cores } } ∧ (∃ z, getThread v (x 0 % 2 ^ 8 * 2048 + x 0 / 2 ^ 8 % 2 ^ 11) = some z ∧ z.dstop = true ∧ (y.st = .ready → underWay u (x 0 % 2 ^ 8 * 2048 + x 0 / 2 ^ 8 % 2 ^ 11) y = false → z.st = .stopped)) ∧
        (u.ex.threads.Pairwise (fun a b => a.1 < b.1) → ∀ j t0, getThread u j = some t0 →
          ((j, t0) ∉ debugSet u y → getThread v j = some t0) ∧ ((j, t0) ∈ debugSet u y → getThread v j = some { t0 with dstop := true, st := if t0.st = .ready ∧ underWay u j t0 = false then .stopped else t0.st }))) ∧
      (x 1 % 16 < 2 → y.st ≠ .stopped → st = 2 ∧ v = u) ∧
      (x 1 % 32 = 1 → y.st = .stopped → y.held = none → y.waitOn = .nothing → st = 0 ∧ (∃ z, getThread v (x 0 % 2 ^ 8 * 2048 + x 0 / 2 ^ 8 % 2 ^ 11) = some z ∧ z.dstop = false ∧ z.st = .ready ∧ z.pc = y.pc ∧ z.regs = y.regs) ∧
        ((∀ e ∈ debugSet u y, e.2.held = none ∧ e.2.waitOn = .nothing ∧ e.2.st = .stopped) → u.ex.threads.Pairwise (fun a b => a.1 < b.1) → v.mm = u.mm ∧
          ∀ j t0, getThread u j = some t0 → ((j, t0) ∉ debugSet u y → getThread v j = some t0) ∧
            ((j, t0) ∈ debugSet u y → ∃ z, getThread v j = some z ∧ z.dstop = false ∧ z.stepping = false ∧ z.st = .ready ∧ z.pc = t0.pc ∧ z.regs = t0.regs))) ∧
      (x 1 % 32 = 0 → y.st = .stopped → (tget (getCore u (coreOf (x 0 % 2 ^ 8 * 2048 + x 0 / 2 ^ 8 % 2 ^ 11))).ports 4).isSome = true → st = 2 ∧ v = u) ∧
      (x 1 % 32 = 0 → y.st = .stopped → (tget (getCore u (coreOf (x 0 % 2 ^ 8 * 2048 + x 0 / 2 ^ 8 % 2 ^ 11))).ports 4).isNone = true → y.serial = true → y.runPos = 0 → y.hlane < 64 →
        st = 0 ∧ v = { u with ex := { u.ex with threads := v.ex.threads, cores := v.ex.cores } } ∧ (∃ z, getThread v (x 0 % 2 ^ 8 * 2048 + x 0 / 2 ^ 8 % 2 ^ 11) = some z ∧ z.stepping = true ∧ z.pc = y.pc ∧ z.regs = y.regs) ∧
        (∀ j, j ≠ (x 0 % 2 ^ 8 * 2048 + x 0 / 2 ^ 8 % 2 ^ 11) → getThread v j = getThread u j) ∧ tget (getCore v (coreOf (x 0 % 2 ^ 8 * 2048 + x 0 / 2 ^ 8 % 2 ^ 11))).ports 4 = some [(x 0 % 2 ^ 8 * 2048 + x 0 / 2 ^ 8 % 2 ^ 11)]) ∧
      (x 1 % 32 = 17 → ∀ n, y.st = .stopped → y.brk = some (y.pc, n) →
        st = 0 ∧ ∃ z, getThread v (x 0 % 2 ^ 8 * 2048 + x 0 / 2 ^ 8 % 2 ^ 11) = some z ∧ z.dstop = false ∧ z.st = .ready ∧ z.pc = y.pc + BitVec.ofNat 32 n ∧ z.brk = none))
    SysopLanes (sysSpec a d) (.debug a d) a d post ∧ SysopCompletes (sysSpec a d) (.debug a d) a d (fun u _ x => ∃ y, getThread u (x 0 % 2 ^ 8 * 2048 + x 0 / 2 ^ 8 % 2 ^ 11) = some y ∧ (x 1 % 16 = 2 ∧ y.live = true ∨
      x 1 % 32 = 1 ∧ y.st = .stopped ∧ y.held = none ∧ y.waitOn = .nothing ∨
      x 1 % 32 = 0 ∧ y.st = .stopped ∧ (tget (getCore u (coreOf (x 0 % 2 ^ 8 * 2048 + x 0 / 2 ^ 8 % 2 ^ 11))).ports 4).isNone = true ∧ y.serial = true ∧ y.runPos = 0 ∧ y.hlane < 64)) post) ∧
  (∀ a d, let post (u : State) (_ : Nat) (x : Args) (st : Nat) (v : State) : Prop :=
    ((4 ≤ x 0 ∨ 1024 ≤ x 1 ∨ 2 ≤ x 2 → st = 1 ∧ v = u) ∧ (x 0 < 4 → x 1 < 1024 → x 2 < 2 → tget u.tr.merges (x 0 * 1024 + x 1) = none → st = 2 ∧ v = u) ∧
    ∀ m, x 0 < 4 → x 1 < 1024 → x 2 < 2 → tget u.tr.merges (x 0 * 1024 + x 1) = some m → 
      (m.phase ≠ .absent → st = 2 ∧ v = u) ∧
      (m.phase = .absent → x 2 = 0 → st = 0 ∧ v.mm = u.mm ∧ v.ex = u.ex ∧ v.qu = u.qu ∧ v.en = u.en ∧ v.fa = u.fa ∧ ∃ m', tget v.tr.merges (x 0 * 1024 + x 1) = some m' ∧ m' = { m with phase := m'.phase, since := m'.since } ∧
        (m'.phase = .walking ∨ m'.phase = .queued) ∧ (u.tr.merges.Pairwise (fun a b => a.1 < b.1) → m'.phase = .queued → Config.walksPerDie ≤ walksOf v (x 0) ∨ walksOf u (x 0) < walksOf v (x 0))) ∧
      (m.phase = .absent → x 2 = 1 → st = 0 ∧
        v = m.waiters.foldl (failWaiter 0x08) { u with tr := { u.tr with merges := tdel u.tr.merges (x 0 * 1024 + x 1) } }))
    SysopLanes (sysSpec a d) (.replay a d) a d post ∧ SysopCompletes (sysSpec a d) (.replay a d) a d (fun u _ x => x 0 < 4 ∧ x 1 < 1024 ∧ x 2 = 0 ∧ ∃ m, tget u.tr.merges (x 0 * 1024 + x 1) = some m ∧ m.phase = .absent) post) ∧
  (∀ a d, let post (u : State) (k : Nat) (x : Args) (st : Nat) (v : State) : Prop :=
    (let dst := x 2 + 2 ^ 32 * x 3
    (x 1 = 0 ∨ Config.boxwoodEvents < x 0 + x 1 ∨ dst % 32 ≠ 0 ∨ hostMay u .store 0 dst (32 * x 1) = false → st = 1 ∧ v = u) ∧
    (0 < x 1 → x 0 + x 1 ≤ Config.boxwoodEvents → dst % 32 = 0 → hostMay u .store 0 dst (32 * x 1) = true →
      st = 0 ∧ ∀ p w, hostWrite u (((getThread u k).map (·.pts)).getD 0) 0 dst ((List.range (x 1)).flatMap fun i =>
        natLe 32 (((u.bd.boxwood[x 0 + i]?).map eventValue).getD 0)) = (p, w) →
        (∀ j t0, getThread u j = some t0 → ∃ t1, getThread w j = some t1 ∧ t1.regs = t0.regs ∧ t1.pc = t0.pc ∧ t1.st = t0.st) ∧ v = modThread w k fun t => { t with pts := max t.pts p }))
    SysopLanes { sysSpec a d with order := true } (.boxread a d) a d post (waits := boxWaits) ∧ SysopCompletes { sysSpec a d with order := true } (.boxread a d) a d (fun u _ x => let dst := x 2 + 2 ^ 32 * x 3
    0 < x 1 ∧ x 0 + x 1 ≤ Config.boxwoodEvents ∧ dst % 32 = 0 ∧ hostMay u .store 0 dst (32 * x 1) = true) post (waits := boxWaits)) ∧
  (∀ a d, let post (u : State) (_ : Nat) (x : Args) (st : Nat) (v : State) : Prop :=
    (let set := u.ex.saved.find? fun y => y.base == x 1 + 2 ^ 32 * x 2 && y.written
    (set = none → st = 1 ∧ v = u) ∧
    (∀ y, set = some y → (x 3 ≠ y.cores.length → st = 1 ∧ v = u) ∧ (x 3 = y.cores.length → targets y (x 0 % 2 ^ 8) = none → st = 4 ∧ v = u) ∧
      ∀ m, x 3 = y.cores.length → targets y (x 0 % 2 ^ 8) = some m →
        ((∃ e ∈ m, e.2 ∈ u.bd.badCores ∨ halting u e.2 = true ∨ ∃ tm ∈ coreTeams u e.2, tm.2.gone = false ∨ 0 < tm.2.size) → st = 4 ∧ v = u) ∧
        ((∀ e ∈ m, e.2 ∉ u.bd.badCores ∧ halting u e.2 = false ∧ ∀ tm ∈ coreTeams u e.2, tm.2.gone = true ∧ tm.2.size = 0) →
        (setPoisoned u y = true → st = 6 ∧ v = u) ∧
        (setPoisoned u y = false → (readThreads u y = none ∨ readTiles u y = none) → st = 5 ∧ v = u) ∧
        ∀ ts tiles, setPoisoned u y = false → readThreads u y = some ts → readTiles u y = some tiles → st = 0 ∧ (y.debugReqs = [] →
          (∀ e ∈ v.ex.saved, e.base ≠ y.base) ∧ ((∀ e ∈ ts, e.2.waitOn ≠ .stop) → (∀ e ∈ u.ex.threads, e.2.waitOn ≠ .stop) → v.mm = u.mm) ∧
          (∀ j t0, getThread u j = some t0 → (∀ e ∈ u.ex.threads, e.2.st ≠ .waiting) → (∀ e ∈ ts, moveKey m e.1 ≠ j ∧ e.2.waitOn = .nothing) → getThread v j = some t0) ∧
          (u.ex.threads.Pairwise (fun a b => a.1 < b.1) → ts.Pairwise (fun a b => moveKey m a.1 ≠ moveKey m b.1) → ∀ e ∈ ts, e.2.waitOn = .nothing →
            ∃ z, getThread v (moveKey m e.1) = some z ∧ z.regs = e.2.regs ∧ z.pc = e.2.pc ∧ z.preempted = true)))))
    SysopLanes (sysSpec a d) (.restore a d) a d post ∧ SysopCompletes (sysSpec a d) (.restore a d) a d (fun u k x => ∃ y m, u.ex.saved.find? (fun y => y.base == x 1 + 2 ^ 32 * x 2 && y.written) = some y ∧ x 3 = y.cores.length ∧ targets y (x 0 % 2 ^ 8) = some m ∧
      (∀ e ∈ m, e.2 ∉ u.bd.badCores ∧ halting u e.2 = false ∧ coreTeams u e.2 = [] ∧ e.2 ≠ coreOf k) ∧ setPoisoned u y = false ∧
      (readThreads u y).isSome = true ∧ (readTiles u y).isSome = true) post)

/-- O52. PREEMPT, MIGRATE and INVAL, and PREEMPT_COMPLETE (spec/19_faults.md, spec/18_translation.md, R371, R374, R376, R385, R386, R389, R390). PREEMPT checks its arguments and asks for the halt of its core's pre-emption set, its status pending on ld until PREEMPT_COMPLETE has written every area and emptied the cores. MIGRATE locks a page that may move and gives OK, or STATE where it may not; where the page is locked it stays in progress, its status pending. INVAL removes the translations of its scope, and no others, and gives OK at once, or stays in progress while an access in flight uses them, for a page those to the largest page whose translation it removes. Which pages may not move, from which list the frame comes and that D stays pending on a locked page are log entry 24, and what INVAL waits for log entry 38. In a bundle of one lane whose arguments stand, each completes: PREEMPT with its status pending, MIGRATE and INVAL with their status, or with it pending. A lane of a grid whose ASID is not 0 takes PRIV; otherwise D holds the status. -/
def Obligations.PreemptMigrateInvalidate : Prop :=
  (∀ a d s, LaneByLane s (sysSpec a d) (.preempt a d) always (fun _ => s) fun c u k t v =>
    let x := argsOf t a
    let n : State := { u with nextId := u.nextId + 1 }
    let stays (kind : OpKind) (z : State) : Prop := ∃ y, LaneEnds k z (finish (sysSpec a d) c y) v ∧ y.regs = t.regs ∧ y.pts = t.pts ∧
      ∃ o ∈ y.ops, o.id = u.nextId ∧ o.cnt = .ld ∧ o.kind = kind ∧ o.complete = false ∧ o.dest = d.toNat ∧ o.dlen = 1
    ((gridOf u t).asid ≠ 0 → v = deliver u k 0x13 0 c.fpc) ∧ ((gridOf u t).asid = 0 →
      let base := x 1 + 2 ^ 32 * x 2
      let cores := preemptSet u (x 0 % 2 ^ 8)
      let fails (st : Nat) : Prop := LaneEnds k n (finish (sysSpec a d) c (addDone (writeReg t d.toNat (BitVec.ofNat 32 st)) u.nextId .ld)) v
      (base % Config.areaBytes ≠ 0 ∨ frameOk u base (cores.length * Config.areaBytes) = false → fails 1) ∧
      (base % Config.areaBytes = 0 → frameOk u base (cores.length * Config.areaBytes) = true →
        (x 3 < cores.length → fails 3) ∧ (cores.length ≤ x 3 → areaHeld u base cores.length = true → fails 2) ∧
        (cores.length ≤ x 3 → areaHeld u base cores.length = false → stays (.sysop base) { n with ex := { n.ex with
          saved := { base := base, cores := cores, thr := k, op := u.nextId } :: n.ex.saved } })))) ∧
  (∀ a d, Completes (sysSpec a d) (.preempt a d) (fun _ u _ t => (gridOf u t).asid = 0 ∧ let x := argsOf t a
      let base := x 1 + 2 ^ 32 * x 2
      let cores := preemptSet u (x 0 % 2 ^ 8)
      base % Config.areaBytes = 0 ∧ frameOk u base (cores.length * Config.areaBytes) = true ∧ cores.length ≤ x 3 ∧ areaHeld u base cores.length = false)
    fun c u k t v => let x := argsOf t a
      let base := x 1 + 2 ^ 32 * x 2
      let n : State := { u with nextId := u.nextId + 1 }
      ∃ y, LaneEnds k { n with ex := { n.ex with saved := { base := base, cores := preemptSet u (x 0 % 2 ^ 8), thr := k, op := u.nextId } :: n.ex.saved } } (finish (sysSpec a d) c y) v ∧ y.regs = t.regs ∧ y.pts = t.pts ∧
        ∃ o ∈ y.ops, o.id = u.nextId ∧ o.cnt = .ld ∧ o.kind = .sysop base ∧ o.complete = false ∧ o.dest = d.toNat ∧ o.dlen = 1) ∧
  (∀ a d s, LaneByLane s (sysSpec a d) (.migrate a d) always (fun _ => s) fun c u k t v =>
    let x := argsOf t a
    let n : State := { u with nextId := u.nextId + 1 }
    let ends (st : Nat) (z : State) : Prop := ∃ y, getThread z k = some y ∧ LaneEnds k z (finish (sysSpec a d) c (addDone (writeReg y d.toNat (BitVec.ofNat 32 st)) u.nextId .ld)) v
    let stays (kind : OpKind) (z : State) : Prop := ∃ y, LaneEnds k z (finish (sysSpec a d) c y) v ∧ y.regs = t.regs ∧ y.pts = t.pts ∧
      ∃ o ∈ y.ops, o.id = u.nextId ∧ o.cnt = .ld ∧ o.kind = kind ∧ o.complete = false ∧ o.dest = d.toNat ∧ o.dlen = 1
    ((gridOf u t).asid ≠ 0 → v = deliver u k 0x13 0 c.fpc) ∧ ((gridOf u t).asid = 0 →
      let va := x 1 + 2 ^ 32 * x 2
      (4096 ≤ x 0 ∨ 2 ^ 57 ≤ va ∨ 3 ≤ x 3 → ends 1 (setThread n k t)) ∧
      (x 0 < 4096 → va < 2 ^ 57 → x 3 < 3 → migrateWaits u (x 0) va = true → stays (.migrate (x 0) va (x 3)) n) ∧
      (x 0 < 4096 → va < 2 ^ 57 → x 3 < 3 → migrateWaits u (x 0) va = false →
        let r := migrateNow (setThread n k t) (x 0) va (x 3)
        ends r.1 r.2))) ∧
  (∀ a d, Completes (sysSpec a d) (.migrate a d) (fun _ u _ t => (gridOf u t).asid = 0 ∧ let x := argsOf t a
      x 0 < 4096 ∧ x 1 + 2 ^ 32 * x 2 < 2 ^ 57 ∧ x 3 < 3 ∧ migrateWaits u (x 0) (x 1 + 2 ^ 32 * x 2) = false)
    fun c u k t v => let x := argsOf t a
      let r := migrateNow (setThread { u with nextId := u.nextId + 1 } k t) (x 0) (x 1 + 2 ^ 32 * x 2) (x 3)
      ∃ y, getThread r.2 k = some y ∧ y.regs = t.regs ∧ LaneEnds k r.2 (finish (sysSpec a d) c (addDone (writeReg y d.toNat (BitVec.ofNat 32 r.1)) u.nextId .ld)) v) ∧
  (∀ s asid va dest l, walk s asid va = .leaf l → (lockOf s asid (pageStart va l.size)).isNone = true →
    ((l.gather || l.remote || (l.zf && destList dest == 2)) = true → migrateNow s asid va dest = (2, s)) ∧
    ((l.gather || l.remote || (l.zf && destList dest == 2)) = false →
      ((migrateNow s asid va dest).1 = 0 ∧ (lockOf (migrateNow s asid va dest).2 asid (pageStart va l.size)).isSome = true ∧ (migrateNow s asid va dest).2.mm.lines = s.mm.lines) ∨
      ((migrateNow s asid va dest).1 = 2 ∧ (migrateNow s asid va dest).2 = post s 6 0 0x0E asid (pageStart va l.size)))) ∧
  (∀ a d s, LaneByLane s (sysSpec a d) (.inval a d) always (fun _ => s) fun c u k t v =>
    let x := argsOf t a
    let n : State := { u with nextId := u.nextId + 1 }
    let ends (st : Nat) (z : State) : Prop := ∃ y, getThread z k = some y ∧ LaneEnds k z (finish (sysSpec a d) c (addDone (writeReg y d.toNat (BitVec.ofNat 32 st)) u.nextId .ld)) v
    let stays (kind : OpKind) (z : State) : Prop := ∃ y, LaneEnds k z (finish (sysSpec a d) c y) v ∧ y.regs = t.regs ∧ y.pts = t.pts ∧
      ∃ o ∈ y.ops, o.id = u.nextId ∧ o.cnt = .ld ∧ o.kind = kind ∧ o.complete = false ∧ o.dest = d.toNat ∧ o.dlen = 1
    ((gridOf u t).asid ≠ 0 → v = deliver u k 0x13 0 c.fpc) ∧ ((gridOf u t).asid = 0 →
      let va := x 1 + 2 ^ 32 * x 2
      let asid := x 0 / 2 ^ 4 % 2 ^ 12
      let z := dropScope (setThread n k t) (x 0 % 4) asid va (x 0 / 4 % 4)
      let all := if x 0 % 4 = 0 then scopeSize (setThread n k t) asid va (x 0 / 4 % 4) else x 0 / 4 % 4
      (x 0 % 4 = 3 ∨ (x 0 % 4 = 0 ∧ x 0 / 4 % 4 = 3) → ends 1 (setThread n k t)) ∧
      (x 0 % 4 ≠ 3 → (x 0 % 4 = 0 → x 0 / 4 % 4 ≠ 3) →
        (invalWaits z z.nextId (x 0 % 4) asid va all = false → ends 0 z) ∧
        (invalWaits z z.nextId (x 0 % 4) asid va all = true → stays (.inval (x 0 % 4) asid va all) z)))) ∧
  (∀ a d, Completes (sysSpec a d) (.inval a d) (fun _ u k t => (gridOf u t).asid = 0 ∧ let x := argsOf t a
      let z := dropScope (setThread { u with nextId := u.nextId + 1 } k t) (x 0 % 4) (x 0 / 2 ^ 4 % 2 ^ 12) (x 1 + 2 ^ 32 * x 2) (x 0 / 4 % 4)
      x 0 % 4 ≠ 3 ∧ (x 0 % 4 = 0 → x 0 / 4 % 4 ≠ 3) ∧ invalWaits z z.nextId (x 0 % 4) (x 0 / 2 ^ 4 % 2 ^ 12) (x 1 + 2 ^ 32 * x 2)
        (if x 0 % 4 = 0 then scopeSize (setThread { u with nextId := u.nextId + 1 } k t) (x 0 / 2 ^ 4 % 2 ^ 12) (x 1 + 2 ^ 32 * x 2) (x 0 / 4 % 4) else x 0 / 4 % 4) = false)
    fun c u k t v => let x := argsOf t a
      let z := dropScope (setThread { u with nextId := u.nextId + 1 } k t) (x 0 % 4) (x 0 / 2 ^ 4 % 2 ^ 12) (x 1 + 2 ^ 32 * x 2) (x 0 / 4 % 4)
      ∃ y, getThread z k = some y ∧ y.regs = t.regs ∧ LaneEnds k z (finish (sysSpec a d) c (addDone (writeReg y d.toNat 0) u.nextId .ld)) v) ∧
  (∀ s asid va size, size ≤ scopeSize s asid va size ∧ ∀ n e, e ∈ (getCore s n).tlb → (n, getCore s n) ∈ s.ex.cores → covers e asid va = true → e.leaf.size ≤ scopeSize s asid va size) ∧
  (∀ s scope asid va size, let u := dropScope s scope asid va size
    let inIt (e : TlbEntry) : Prop := scope = 2 ∨ (e.asid = asid ∧ (scope = 1 ∨ pageScope asid va size e = true))
    u.mm = s.mm ∧ u.ex.teams = s.ex.teams ∧
      ∀ n, (∀ e, e ∈ (getCore u n).tlb ↔ e ∈ (getCore s n).tlb ∧ ¬ inIt e) ∧ (∀ e, e ∈ (getCore u n).lastPage ↔ e ∈ (getCore s n).lastPage ∧ ¬ inIt e.2)) ∧
  (∀ s base x, s.ex.saved.find? (fun x => x.base == base && !x.written) = some x → canHalt s x.cores = true → s.ex.saved.Pairwise (fun a b => a.base ≠ b.base) →
    ∃ u, exec (.preemptComplete base) s = .next u ∧ (∀ e ∈ u.ex.threads, coreOf e.1 ∉ x.cores) ∧
      (∃ y ∈ u.ex.saved, y.base = base ∧ y.written = true ∧ y.cores = x.cores ∧ (s.ex.threads.Pairwise (fun a b => a.1 < b.1) → y.threads.map (·.1) = (s.ex.threads.filter fun e => x.cores.contains (coreOf e.1)).map (·.1))))

/-- O53. JOB hands its card to an engine, QPUSH appends to its queue, and JOB_APPEND (spec/14_engines.md, spec/13_queues.md, R278, R284, R285, R286, R287). JOB with room for its card: the card read at the address in A is held by the footprint tracker with the thread's ASID and pts, its kind and its instance, and the lane completes with one operation outstanding on cp; without room the thread waits at the word with its card, nothing appended, and JOB_APPEND appends once there is room and until then changes nothing, which is the choice of log entry 41. QPUSH to a queue that may be pushed and has room: the entry's 64 bytes are written to the ring at the write index, which rises by one and is written to its word, and D holds the old one; D holds 0x80000000 where the ring is full and 0x80000001 where the queue is frozen. -/
def Obligations.JobAndQueueWords : Prop :=
  (∀ kind (a : Reg) s c k t va l e w, prelude { opSpec [(a.toNat, 2, 2)] [] with order := true, adds := [(.cp, 1)] } s = .go c [k] → getThread s k = some t →
    ready s { opSpec [(a.toNat, 2, 2)] [] with order := true, adds := [(.cp, 1)] } t = true → s.ex.threads.Pairwise (fun x y => x.1 < y.1) →
    (∀ e ∈ s.ex.threads, ∀ h, e.2.held = some h → h.token ≠ s.nextId) → rdPair t a = va → va % 128 = 0 → va < 2 ^ 57 →
    xlate s k t .load (gridOf s t).asid va = .ok l → l.gather = false → l.remote = false → (isHost (l.frame + va % pageBytes l.size) = true → hostPathOpen s = true) →
    t.tx.depth = 0 → t.snap = .off → t.revoked = false →
    readAt (touchPage { s with nextId := s.nextId + 1 } k (schedQuiet s c t) (gridOf s t).asid va) l.zf none t.pts (l.frame + va % pageBytes l.size) 128 = (e, w) → e.poison = false →
    t.dstop = false → count t .cp < 63 → (heldCards s).length < Config.trackerCards → (∀ i, queuedAt s i < Config.cardsPerInstance) →
    ∃ u id card y, exec (.job kind a) s = .next u ∧ u.cur = none ∧ u.mm = w.mm ∧ tget u.en.cards id = some card ∧ card.kind = kind ∧
      card.bits = leNat (natLe 128 e.value) ∧ card.asid = (gridOf s t).asid ∧ card.stamp = max t.pts e.ts ∧ card.team = some t.team ∧ card.started = false ∧
      getThread u k = some y ∧ y.pc = t.pc + BitVec.ofNat 32 c.words ∧ y.regs = t.regs ∧ ∃ o ∈ y.ops, o.cnt = .cp ∧ o.kind = .job id) ∧
  (∀ kind (a : Reg) s c k t va l e w, prelude { opSpec [(a.toNat, 2, 2)] [] with order := true, adds := [(.cp, 1)] } s = .go c [k] → getThread s k = some t →
    ready s { opSpec [(a.toNat, 2, 2)] [] with order := true, adds := [(.cp, 1)] } t = true → s.ex.threads.Pairwise (fun x y => x.1 < y.1) →
    (∀ e ∈ s.ex.threads, ∀ h, e.2.held = some h → h.token ≠ s.nextId) → rdPair t a = va → va % 128 = 0 → va < 2 ^ 57 →
    xlate s k t .load (gridOf s t).asid va = .ok l → l.gather = false → l.remote = false → (isHost (l.frame + va % pageBytes l.size) = true → hostPathOpen s = true) →
    t.tx.depth = 0 → t.snap = .off → t.revoked = false →
    readAt (touchPage { s with nextId := s.nextId + 1 } k (schedQuiet s c t) (gridOf s t).asid va) l.zf none t.pts (l.frame + va % pageBytes l.size) 128 = (e, w) → e.poison = false →
    (Config.trackerCards ≤ (heldCards s).length ∨ Config.cardsPerInstance ≤ queuedAt s (instanceFor s (coreOf k / Config.coresPerDie) kind [])) →
    ∃ u y, exec (.job kind a) s = .next u ∧ u.cur = none ∧ u.mm = w.mm ∧ u.en.cards = s.en.cards ∧ getThread u k = some y ∧ y.st = .waiting ∧ y.waitOn = .table ∧
      y.held.map (·.instr) = some (.job kind a) ∧ (tget y.buf 0).map (natLe 128) = some (natLe 128 e.value) ∧ y.pc = t.pc ∧ y.regs = t.regs ∧ y.ops = t.ops) ∧
  (∀ wid s, jobsFit s (jobWaiters s wid) (planJobs s (jobWaiters s wid) []) = false → exec (.jobAppend wid) s = .next s) ∧
  (∀ wid s k t kind, jobWaiters s wid = [(k, t, kind)] → getThread s k = some t → t.dstop = false → jobsFit s (jobWaiters s wid) (planJobs s (jobWaiters s wid) []) = true →
    ∃ u id card y, exec (.jobAppend wid) s = .next u ∧ tget u.en.cards id = some card ∧ card.kind = kind ∧ some card.bits = some ((tget t.buf 0).getD 0) ∧
      getThread u k = some y ∧ y.st = .ready ∧ y.pc = t.pc + BitVec.ofNat 32 (heldWords t) ∧ ∃ o ∈ y.ops, o.cnt = .cp ∧ o.kind = .job id) ∧
  (∀ s n p e q, tget s.qu.queues n = some q →
    (q.frozen = true → pushEntry s n p e = (0x80000001, p, s)) ∧
    (q.frozen = false → q.widx - q.ridx = q.size → pushEntry s n p e = (0x80000000, p, s)) ∧
    (q.frozen = false → q.widx - q.ridx ≠ q.size → hostMay s .engineWrite q.asid (q.at_ q.widx) 64 = true → hostMay s .engineWrite q.asid q.ctl 8 = true →
      (pushEntry s n p e).1 = q.widx % 2 ^ 31 ∧ (∃ y, tget (pushEntry s n p e).2.2.qu.queues n = some y ∧ y.widx = q.widx + 1 ∧ y.ridx = q.ridx ∧ y.frozen = false) ∧
      ∀ pa pc, q.ringBase % 64 = 0 → Reaches s baseVia .engineWrite q.asid (q.at_ q.widx) pa →
        let s1 := (hostWrite s p q.asid (q.at_ q.widx) (natLe 64 e)).2
        Stored s s1 pa (natLe 64 e) ∧ (Reaches s1 baseVia .engineWrite q.asid q.ctl pc → Stored s1 (pushEntry s n p e).2.2 pc (natLe 8 (q.widx + 1))))) ∧
  (∀ d a b s c k t va l e w, let sp : WordSpec := { opSpec [(a.toNat, 2, 2), sp1 b] [sp1 d] with order := true, adds := [(.ld, 1)] }
    prelude sp s = .go c [k] → getThread s k = some t → ready s sp t = true →
    (pushOk s t b = false → exec (.qpush d a b) s = .next (done (deliver s k 0x13 0 c.fpc))) ∧
    (pushOk s t b = true → rdPair t a = va → va % 64 = 0 → va < 2 ^ 57 → xlate s k t .load (gridOf s t).asid va = .ok l → l.gather = false → l.remote = false → (isHost (l.frame + va % pageBytes l.size) = true → hostPathOpen s = true) → pushWaits s 1 t b = false →
      readAt (touchPage s k (schedQuiet s c t) (gridOf s t).asid va) l.zf none t.pts (l.frame + va % pageBytes l.size) 64 = (e, w) → e.poison = false →
      let r := pushEntry (setThread w k (schedQuiet s c t)) (rd t b).toNat (max t.pts e.ts) (leNat (natLe 64 e.value))
      ∃ u y, exec (.qpush d a b) s = .next u ∧ u.cur = none ∧ u.mm = r.2.2.mm ∧ u.qu = r.2.2.qu ∧ getThread u k = some y ∧ readReg y d.toNat = BitVec.ofNat 32 r.1 ∧
        y.pc = t.pc + BitVec.ofNat 32 c.words ∧ y.pts = max t.pts r.2.1))

/-- O54. FORM_BUNDLE, TEAM_PLACEMENT, CLUSTER_PLACEMENT, GRID_RESERVING, TEAM_FREE and GRID_COMPLETION (spec/16_thread_table.md, spec/17_tiles_launch.md, R19, R320, R322, R323, R324, R328, R329, R335, R357). A port that holds no bundle takes the aged candidate, or the first in candidate order, and the others age; with no candidate it stays idle. A team, or every team of a cluster, is placed on the cores that the distributor has chosen: each of its threads stands in a free entry of its home lane at ENTRY, and no other thread changes; a grid that has waited 256 us becomes reserving. A team whose threads have exited is freed, its stash range with its cluster. A grid whose teams are freed completes with a stamp above its threads', with its completion word where one is named; every delta and every dirty line of the package has gone to memory by then, which is the choice of log entry 55. Where the conditions named in a clause hold, the event ends in a next state; what a clause does not name it does not claim. -/
def Obligations.PlacementAndCompletion : Prop :=
  (∀ core port s x, port < 4 → core < Config.cores → s.halted = false → halting s core = false → tget (getCore s core).ports port = none →
    s.ex.threads.Pairwise (fun a b => a.1 < b.1) → x ∈ candidates s core →
    (agedChoice s core (candidates s core) = some x ∨ (agedChoice s core (candidates s core) = none ∧
      ∀ y ∈ candidates s core, y ≠ x → candBefore s core x y = true ∧ candBefore s core y x = false)) →
    let b := if x.kind = 2 then onePerLane x else x.ts
    ∃ u, exec (.formBundle core port) s = .next u ∧ u.mm = s.mm ∧
      tget (getCore u core).ports port = some ((List.range 64).flatMap fun h => (b.filter fun e => e.2.hlane == h).map (·.1)) ∧
      (agedChoice s core (candidates s core) = some x → (getCore u core).pointer = (x.pos + 1) % 2048) ∧
      ∀ y ∈ candidates s core, ∀ e ∈ y.ts, ∃ t, getThread u e.1 = some t ∧ t.pc = e.2.pc ∧ t.regs = e.2.regs ∧ t.st = e.2.st ∧
        t.age = if e.1 ∈ b.map (·.1) then 0 else min 255 (e.2.age + 1)) ∧
  (∀ core port s, port < 4 → core < Config.cores → s.halted = false → halting s core = false → tget (getCore s core).ports port = none → candidates s core = [] →
    ∃ u, exec (.formBundle core port) s = .next u ∧ u.mm = s.mm ∧ u.ex.cores = s.ex.cores ∧
      ∀ k t, getThread s k = some t → ∃ v, getThread u k = some v ∧ { v with yielded := t.yielded } = t) ∧
  (∀ s gi g core, chooseGrid s = some (gi, g, [core]) → s.halted = false → g.cw * g.ch = 1 → tget s.ex.grids gi = some g → fits s g core = true →
    ∃ u key, exec .teamPlacement s = .next u ∧ u.mm = s.mm ∧ coreOf key = core ∧ tget s.ex.teams key = none ∧ (∀ n, n ≠ key → tget u.ex.teams n = tget s.ex.teams n) ∧
      (∃ tm, tget u.ex.teams key = some tm ∧ tm.grid = gi ∧ tm.lin = g.next ∧ tm.rank = 0 ∧ tm.threads = g.teamThreads ∧ tm.size = g.stash ∧ tm.base % 1024 = 0 ∧
        tm.base + tm.size ≤ Config.stashBytes ∧ tm.tileCount = g.tiles ∧ tm.stash = []) ∧
      (∃ h, tget u.ex.grids gi = some h ∧ h.record = g.record ∧ h.next = g.next + 1 ∧ h.rr = (core + 1) % Config.cores ∧ h.waitSince = s.bd.clock ∧ h.reserving = none) ∧
      (∀ i, i < g.teamThreads → ∃ k t, getThread s k = none ∧ getThread u k = some t ∧ AtEntry g key core i k t) ∧
      ∀ k, getThread u k = getThread s k ∨ ∃ i t, i < g.teamThreads ∧ getThread s k = none ∧ getThread u k = some t ∧ AtEntry g key core i k t) ∧
  (∀ s gi g l, chooseGrid s = some (gi, g, l) → s.halted = false → 1 < g.cw * g.ch → tget s.ex.grids gi = some g → l ≠ [] → l.Nodup → (∀ c ∈ l, fits s g c = true) →
    ∃ u ks, exec .clusterPlacement s = .next u ∧ u.mm = s.mm ∧ ks.length = l.length ∧
      (∃ h, tget u.ex.grids gi = some h ∧ h.record = g.record ∧ h.next = g.next + l.length ∧ h.waitSince = s.bd.clock ∧ h.reserving = none) ∧
      (∃ c, tget u.ex.clusters (ks.headD 0) = some c ∧ c.grid = gi ∧ c.teams = ks) ∧
      (∀ r (h : r < ks.length), coreOf ks[r] = l[r]?.getD 0 ∧ (∃ tm, tget u.ex.teams ks[r] = some tm ∧ tm.grid = gi ∧ tm.lin = g.next + r ∧ tm.rank = r ∧
        tm.cluster = ks.headD 0 ∧ tm.threads = g.teamThreads ∧ tm.stash = []) ∧
        ∀ i, i < g.teamThreads → ∃ k t, getThread s k = none ∧ getThread u k = some t ∧ AtEntry g ks[r] (coreOf ks[r]) i k t) ∧
      ∀ k, getThread u k = getThread s k ∨ ∃ c i t, c ∈ ks ∧ i < g.teamThreads ∧ getThread s k = none ∧ getThread u k = some t ∧ AtEntry g c (coreOf c) i k t) ∧
  (∀ grid s g, tget s.ex.grids grid = some g → waitsPlacement g = true → g.reserving = none → g.waitSince + Config.cycles256us ≤ s.bd.clock →
    ∃ u, exec (.gridReserving grid) s = .next u ∧ tget u.ex.grids grid = some { g with reserving := some s.nextId } ∧
      (∀ n, n ≠ grid → tget u.ex.grids n = tget s.ex.grids n) ∧ u.ex.threads = s.ex.threads ∧ u.ex.teams = s.ex.teams ∧ u.mm = s.mm) ∧
  (∀ team s tm, tget s.ex.teams team = some tm → tm.gone = false → (∀ e ∈ teamMates s team, e.2.live = false ∧ peerOwed e.2 = false) → copyHolds s team = false →
    tm.tiles = [] → ∃ u, exec (.teamFree team) s = .next u ∧ u.mm.mem = s.mm.mem ∧ (∀ e ∈ u.ex.threads, e.2.team ≠ team) ∧
      ((∀ e ∈ teamMates s team, threadOwes s e = false) → (∀ e, e ∈ u.ex.threads ↔ e ∈ s.ex.threads ∧ e.2.team ≠ team) ∧
        let mates := ((tget s.ex.clusters tm.cluster).map (·.teams)).getD [team]
        ((∃ k ∈ mates, k ≠ team ∧ (getTeam s k).gone = false) → ∃ p, tget u.ex.teams team = some { tm with gone := true, tileCount := 0, exitPts := p }) ∧
        (team ∈ mates → (∀ k ∈ mates, k ≠ team → (getTeam s k).gone = true) → ∀ k ∈ mates, tget u.ex.teams k = none))) ∧
  (∀ grid s g q i, Finishing s grid g → (g.word 14 + 2 ^ 32 * g.word 15 = 0 ∨ g.ended = true) → g.launcher = .slot q i →
    ∃ u, exec (.gridCompletion grid) s = .next u ∧ tget u.ex.grids grid = none ∧ max g.stamp g.maxStamp < gridStamp s grid g ∧
      (g.ended = false → ∀ ln, (getLine u ln).delta = none ∧ (getLine u ln).back = none) ∧
      launcherPts u g = max (launcherPts s g) (gridStamp s grid g) ∧
      (∀ p ∈ u.qu.pendings, p.queue = q → p.index = i → p.fin = some (gridStamp s grid g)) ∧
      ∀ y, tget s.qu.queues q = some y → ∃ z, tget u.qu.queues q = some z ∧ z.doneStamp = max y.doneStamp (gridStamp s grid g)) ∧
  (∀ grid s g d n x, Finishing s grid g → (g.word 14 + 2 ^ 32 * g.word 15 = 0 ∨ g.ended = true) → g.launcher = .node d n →
    getNode s d n = some x → ∃ u, exec (.gridCompletion grid) s = .next u ∧ tget u.ex.grids grid = none ∧
      getNode u d n = some { x with finished := some (gridStamp s grid g) }) ∧
  (∀ grid s g q i pa, Finishing s grid g → 0 < g.word 14 + 2 ^ 32 * g.word 15 → g.ended = false → g.launcher = .slot q i →
    Reaches (settleAll s) baseVia .engineWrite g.asid (g.word 14 + 2 ^ 32 * g.word 15) pa →
    ∃ u, exec (.gridCompletion grid) s = .next u ∧ tget u.ex.grids grid = none ∧ Stored (settleAll s) u pa (natLe 8 (g.word 16 + 2 ^ 32 * g.word 17)) ∧
      gridStamp s grid g ≤ (getLine u (pa / 128)).wts ∧ launcherPts s g ≤ (getLine u (pa / 128)).wts ∧
      ∀ p ∈ u.qu.pendings, p.queue = q → p.index = i → p.fin = some (getLine u (pa / 128)).wts) ∧
  (∀ grid s g d n x pa, Finishing s grid g → 0 < g.word 14 + 2 ^ 32 * g.word 15 → g.ended = false → g.launcher = .node d n →
    getNode s d n = some x → tget x.buf 0 = none → Reaches (settleAll s) (nodeVia s d) .engineWrite g.asid (g.word 14 + 2 ^ 32 * g.word 15) pa →
    ∃ u, exec (.gridCompletion grid) s = .next u ∧ tget u.ex.grids grid = none ∧ Stored (settleAll s) u pa (natLe 8 (g.word 16 + 2 ^ 32 * g.word 17)) ∧
      gridStamp s grid g ≤ (getLine u (pa / 128)).wts ∧ getNode u d n = some { x with finished := some (getLine u (pa / 128)).wts })

/-- O55. HOME_ACCESS, HOST_PATH_RESPONSE, RADD_ARRIVAL, PEER_STASH_ACCESS, CHAIN_STEP, LOAD_RETURN and HORIZON_ENTRY_FREED (spec/10_memories.md, spec/11_ordering.md, R219, R222, R229, R240, R243, R247, R250, R254, R258, R308). A load, store, atomic or RADD that is the only access of its word to its line is performed at its home: a load has the bytes that stand there, a store's bytes are in memory, an atomic has the old value and its new one is stored, and pts rises to the stamp of the access; a load of another package's line sends its request. An access on the host path goes out with its bus address, and memory that the host has changed reads so. A routed load reads its target's stash, or takes DATA_POISON at a word in error. A packet's .addr ends with its address and counts; a step moves its pointer. A returned load writes D, and the temporaries of D become defined, or leaves D and what is defined as they are and notes the poisoned value. A freed horizon entry lets a grid's, a transaction's or a snapshot's opening proceed. Where the conditions named in a clause hold, the event ends in a next state; what a clause does not name it does not claim. -/
def Obligations.AccessesPerformAndReturn : Prop :=
  (∀ wid line s k t o f pa, Alone s wid line k t o atHomeOp → o.kind = .load f → o.loc = .here pa → ∃ u v p, exec (.homeAccess wid line false) s = .next u ∧
    getThread u k = some v ∧ v.pts = max t.pts (getLine s (pa / 128)).wts ∧ v.regs = t.regs ∧ findOp v o.id = some p ∧ p.performed = true ∧
    p.value = standing s pa o.size ∧ p.poisoned = (getLine s (pa / 128)).poison) ∧
  (∀ wid line viaL1 s k t o x pa, Alone s wid line k t o atHomeOp → o.kind = .store x → o.loc = .here pa → ∃ u v, exec (.homeAccess wid line viaL1) s = .next u ∧
    getThread u k = some v ∧ Stored s u pa (natLe o.size x) ∧ v.pts = max t.pts (getLine u (pa / 128)).wts ∧
    (getLine s (pa / 128)).rts < (getLine u (pa / 128)).wts ∧ ∀ p ∈ v.ops, p.id = o.id → p.complete = true) ∧
  (∀ wid line viaL1 s k t o f x pa, Alone s wid line k t o atHomeOp → o.kind = .rmw f x → o.loc = .here pa → (getLine s (pa / 128)).poison = false →
    f.writes (standing s pa o.size) = true → ∃ u v p, exec (.homeAccess wid line viaL1) s = .next u ∧ getThread u k = some v ∧ findOp v o.id = some p ∧
    p.performed = true ∧ p.value = standing s pa o.size ∧ Stored s u pa (natLe o.size (f.apply (standing s pa o.size) x))) ∧
  (∀ wid line viaL1 s k t o f pkg asid va tag, Alone s wid line k t o atHomeOp → o.kind = .load f → o.loc = .remote pkg asid va → o.sent = false →
    tfree s.fa.requests 65536 0 = some tag → ∃ u r, exec (.homeAccess wid line viaL1) s = .next u ∧ tget u.fa.requests tag = some r ∧ r.frame.op = 1 ∧
    r.frame.dpkg = pkg ∧ r.frame.asid = asid ∧ r.frame.addr = va ∧ r.frame.stamp = t.pts ∧ r.owner = .op k o.id ∧ u.mm = s.mm) ∧
  (∀ wid line s k t o f pa, Alone s wid line k t o onHostPath → o.kind = .load f → o.loc = .host pa → isHost pa = true → hostPathOpen s = true →
    ∃ u v p, exec (.hostPathResponse wid line []) s = .next u ∧ getThread u k = some v ∧ findOp v o.id = some p ∧ p.performed = true ∧
    p.value = standing s pa o.size ∧ u.fa.path = (0, pa - 0x800000000000, natLe 2 o.size) :: s.fa.path) ∧
  (∀ wid line s k t o x pa, Alone s wid line k t o onHostPath → o.kind = .store x → o.loc = .host pa → isHost pa = true → hostPathOpen s = true →
    ∃ u v, exec (.hostPathResponse wid line []) s = .next u ∧ getThread u k = some v ∧ Stored s u pa (natLe o.size x) ∧
    u.fa.path = (1, pa - 0x800000000000, natLe o.size x) :: s.fa.path ∧ ∀ p ∈ v.ops, p.id = o.id → p.complete = true) ∧
  (∀ wid line s a b, isHost a = true → mapped a = true → wordOps s wid line onHostPath = [] → ∃ u, exec (.hostPathResponse wid line [(a, b)]) s = .next u ∧
    ∀ n, mget u.mm.mem n = if n = a then b else mget s.mm.mem n) ∧
  (∀ wid line s k t o r x pa, Alone s wid line k t o raddHere → o.kind = .radd r x → o.loc = .here pa → ∃ u v, exec (.raddArrival wid line) s = .next u ∧
    getThread u k = some v ∧ u.mm = (raddAt s t.pts pa r x).2.mm ∧ v.pts = max t.pts (raddAt s t.pts pa r x).1 ∧ ∀ p ∈ v.ops, p.id = o.id → p.complete = true) ∧
  (∀ wid s k t o team off, s.ex.threads = [(k, t)] → t.ops = [o] → o.wid = wid → o.performed = false → o.kind = .peerLoad team off →
    (stashPoison (getTeam s team) off 4 = true → exec (.peerStashAccess wid) s = .next (faultOp s k o 0x17 0)) ∧
    (stashPoison (getTeam s team) off 4 = false → ∃ u v p, exec (.peerStashAccess wid) s = .next u ∧ getThread u k = some v ∧ findOp v o.id = some p ∧
      p.performed = true ∧ p.value = stashRead (getTeam s team) off 4 ∧ v.pts = t.pts ∧ u.mm = s.mm)) ∧
  (∀ k id s t o ch, getThread s k = some t → findOp t id = some o → o.kind = .chain ch → o.performed = false → o.sent = false → earlierDone t id = true → chainNext ch = none →
    0 ≤ ch.p → ch.p < 2 ^ 57 → ∃ u v p, exec (.chainStep k id) s = .next u ∧ getThread u k = some v ∧ findOp v id = some p ∧ p.performed = true ∧
      p.value = ch.p.toNat + ch.self.toNat * 2 ^ 63 + ch.n * 2 ^ 57 ∧ v.regs = t.regs) ∧
  (∀ k id s t o ch x ea w (va : Nat) l pa, getThread s k = some t → findOp t id = some o → o.kind = .chain ch → o.performed = false → o.sent = false → earlierDone t id = true →
    chainNext ch = some (ea, w, .chain) → chainFinal ch = false → ch.steps[ch.k]? = some x → ea = va → va < 2 ^ 57 → va % w = 0 →
    blockedOn s (.chain k id va) = false → xlate s k t .chain (gridOf s t).asid va = .ok l → locOf l (gridOf s t).asid va = .here pa → l.zf = false →
    t.tx.depth = 0 → t.snap = .off → t.revoked = false → (getLine s (pa / 128)).poison = false →
    ∃ u v p, exec (.chainStep k id) s = .next u ∧ getThread u k = some v ∧ findOp v id = some p ∧ v.pts = t.pts ∧ p.performed = false ∧
      p.kind = .chain { chainAdvance ch x (standing s pa w) with c := max (if ch.k = 0 then max ch.c t.pts else ch.c) (getLine s (pa / 128)).wts }) ∧
  (∀ k id s t o, getThread s k = some t → findOp t id = some o → isReturning o = true → o.performed = true → o.complete = false → t.frame = none → t.held = none →
    t.waitOn = .nothing → ∃ u v, exec (.loadReturn k id) s = .next u ∧ getThread u k = some v ∧ u.mm = s.mm ∧ v.pc = t.pc ∧ v.preds = t.preds ∧
      (o.poisoned = false → o.prot = false → ∀ n, readReg v n = (if o.dest ≤ n ∧ n < o.dest + (resultSpan o).length then ((resultSpan o)[n - o.dest]?).getD 0 else readReg t n) ∧
        (tget v.tvalid n).getD false = ((tget t.tvalid n).getD false || (decide (120 ≤ n) && decide (o.dest ≤ n) && decide (n < o.dest + (resultSpan o).length)))) ∧
      ((o.poisoned = true ∨ o.prot = true) → v.regs = t.regs ∧ v.tvalid = t.tvalid ∧ ∃ b ∈ v.bad, b.id = o.id ∧ b.addr = o.va ∧ b.prot = o.prot)) ∧
  (∀ n s g, tget s.ex.grids n = some g → g.waitsHorizon = true → horizonRoom s (openAt s g.stamp) = true → ∃ u, exec (.horizonEntryFreed true n) s = .next u ∧
    tget u.ex.grids n = some { g with snap := some (openAt s g.stamp), stamp := max g.stamp (openAt s g.stamp), waitsHorizon := false } ∧
    (∃ h ∈ u.mm.horizon, h.s = openAt s g.stamp ∧ 0 < h.holders) ∧ u.mm.mem = s.mm.mem ∧ launcherPts u g = max (launcherPts s g) (openAt s g.stamp)) ∧
  (∀ k s t h, getThread s k = some t → t.st = .waiting → t.waitOn = .table → t.held = some h → horizonRoom s (openAt s t.pts) = true →
    (h.instr = .txbegin → ∃ u v, exec (.horizonEntryFreed false k) s = .next u ∧ getThread u k = some v ∧ v.tx.active = true ∧ v.tx.s = openAt s t.pts ∧
      v.pts = max t.pts (openAt s t.pts + 1) ∧ v.pc = t.pc + BitVec.ofNat 32 (h.hints.length + 1) ∧ v.waitOn = .nothing) ∧
    (h.instr = .snapOpen → ∃ u v, exec (.horizonEntryFreed false k) s = .next u ∧ getThread u k = some v ∧ v.snap = .own (openAt s t.pts) ∧
      v.pts = max t.pts (openAt s t.pts + 1) ∧ v.pc = t.pc + BitVec.ofNat 32 (h.hints.length + 1) ∧ v.waitOn = .nothing))

/-- O56. SLOT_BIND, SLOT_UNBIND, ENTRY_TAKE, ENTRY_WAIT_POLL, ENTRY_HAND_ON, ENTRY_SIGNAL_WRITE and FAULT_RECORD_WRITE (spec/13_queues.md, R268, R270, R271, R272, R273, R274, R275, R279, R280, R281). A free slot binds the waiting queue of the greatest effective priority, the longest waiting and lowest of its equals; a slot is freed with its stamp. The head entry is read: one that is not well formed freezes the queue with reason 4, any other is taken. The wait word is polled; a SIGNAL or a LAUNCH that launches is handed on, with the read index raised, in memory too. A finished entry's signal is written above its stamp. A fault record and the write count are written, or refused where the queue is full. Where the conditions named in a clause hold, the event ends in a next state; what a clause does not name it does not claim. -/
def Obligations.QueueUnitWorks : Prop :=
  (∀ slot s n q, slot < Config.slots → tget s.qu.slots slot = none → (n, q) ∈ s.qu.queues → isWaiting s n q = true →
    (∀ e ∈ s.qu.queues, isWaiting s e.1 e.2 = true → e ≠ (n, q) → effPrio s e.2 < effPrio s q ∨ (effPrio s e.2 = effPrio s q ∧
      (q.waitingSince < e.2.waitingSince ∨ (q.waitingSince = e.2.waitingSince ∧ n < e.1)))) →
    ∃ u x, exec (.slotBind slot) s = .next u ∧ tget u.qu.slots slot = some x ∧ x.queue = n ∧ x.entry = none ∧ x.boundAt = s.bd.clock ∧
      (∀ m, m ≠ slot → tget u.qu.slots m = tget s.qu.slots m) ∧ u.qu.queues = s.qu.queues ∧ u.mm = s.mm ∧ u.ex = s.ex) ∧
  (∀ slot s x q, tget s.qu.slots slot = some x → tget s.qu.queues x.queue = some q → unbinds s x q = true → slotOf s x.queue = some slot →
    ∃ u, exec (.slotUnbind slot) s = .next u ∧ tget u.qu.slots slot = none ∧ tget u.qu.slotPts slot = some (max ((tget s.qu.slotPts slot).getD 0) x.pts) ∧
      tget u.qu.queues x.queue = some { q with waitingSince := s.bd.clock } ∧ u.mm = s.mm) ∧
  (∀ slot s x q pa, tget s.qu.slots slot = some x → tget s.qu.queues x.queue = some q → x.entry = none → q.frozen = false → q.ridx < q.widx → x.buf = [] →
    Reaches s baseVia .engineRead q.asid (q.at_ q.ridx) pa → (getLine s (pa / 128)).poison = false →
    let e := standing s pa 64
    ∃ u, exec (.entryTake slot) s = .next u ∧ (∃ y, tget u.qu.queues x.queue = some y ∧ y.ridx = q.ridx ∧ y.widx = q.widx ∧
        (entryOk e = false → y.frozen = true ∧ y.freason = 4) ∧ (entryOk e = true → entryAddrs e = false → y.frozen = true ∧ y.freason = 5)) ∧
      (entryOk e = true → entryAddrs e = true → ∃ y, tget u.qu.slots slot = some y ∧ y.entry = some e ∧ y.waitMet = !bit e 8 ∧ y.blockedAt = none ∧
        y.pts = max (max x.pts q.bell) (getLine s (pa / 128)).wts)) ∧
  (∀ slot s x q e pa, tget s.qu.slots slot = some x → tget s.qu.queues x.queue = some q → x.entry = some e → x.waitMet = false → x.buf = [] →
    Reaches s baseVia .engineRead q.asid (bits e 319 256) pa → (getLine s (pa / 128)).poison = false →
    ∃ u y, exec (.entryWaitPoll slot) s = .next u ∧ tget u.qu.slots slot = some y ∧ y.entry = some e ∧ y.pts = max x.pts (getLine s (pa / 128)).wts ∧
      y.waitMet = (if bit e 11 then decide (bits e 383 320 ≤ standing s pa 8) else decide (standing s pa 8 = bits e 383 320)) ∧
      (y.waitMet = false → y.blockedAt = some (x.blockedAt.getD s.bd.clock))) ∧
  (∀ slot s x q e pa, tget s.qu.slots slot = some x → tget s.qu.queues x.queue = some q → x.entry = some e → x.waitMet = true → entryType e = 3 →
    indexWaits s q = false → Reaches s baseVia .engineWrite q.asid (q.ctl + 64) pa → ∃ u y z, exec (.entryHandOn slot) s = .next u ∧ tget u.qu.queues x.queue = some y ∧
      y.ridx = q.ridx + 1 ∧ y.widx = q.widx ∧ y.frozen = q.frozen ∧ Stored s u pa (natLe 8 (q.ridx + 1)) ∧ tget u.qu.slots slot = some z ∧ z.entry = none ∧
      z.queue = x.queue) ∧
  (∀ slot s x q e gi r w, tget s.qu.slots slot = some x → tget s.qu.queues x.queue = some q → x.entry = some e → x.waitMet = true → entryType e = 1 →
    indexWaits s q = false → bits e 127 64 % 256 = 0 → bits e 127 64 + 256 ≤ 2 ^ 57 → tget x.buf 0 = none →
    launch s (slotReader x q) (bits e 127 64) (entryOverride e) q.prio x.queue (.slot x.queue q.ridx) slot = .ok gi r w →
    ∃ u y, exec (.entryHandOn slot) s = .next u ∧ tget u.qu.queues x.queue = some y ∧ y.ridx = q.ridx + 1 ∧
      (tget u.ex.grids gi).map (·.record) = (tget w.ex.grids gi).map (·.record) ∧ (tget u.ex.grids gi).isSome = true) ∧
  (∀ n i s p f va q pa, s.qu.pendings.find? (fun p => p.queue == n && p.index == i) = some p → p.fin = some f → p.sigAddr = some va → tget s.qu.queues n = some q →
    (q.frozen = false ∨ q.sigFrozen ≠ some i) → ownRequests s (.signal n i) = [] → Reaches s baseVia .engineWrite q.asid va pa →
    ∃ u, exec (.entrySignalWrite n i) s = .next u ∧ Stored s u pa (natLe 8 p.sigVal) ∧ f < (getLine u (pa / 128)).wts ∧
      ∀ y ∈ u.qu.pendings, y.queue ≠ n ∨ y.index ≠ i) ∧
  (∀ die s q r rest b ts w, tget s.tr.faultQs die = some q → q.waiting = r :: rest → (q.seq + 2 ^ 32 - q.readIx % 2 ^ 32) % 2 ^ 32 < 4096 → q.base = some b →
    writeCounted s { die := die } q.pts (b + 32 * (q.seq % 4096)) (b + 131072) (natLe 32 (recordValue r (q.seq + 1))) (q.seq + 1) = .ok ts w →
    ∃ u, exec (.faultRecordWrite die) s = .next u ∧ u.mm = w.mm ∧ tget u.tr.faultQs die = some { q with seq := q.seq + 1, pts := ts, waiting := rest, full := false }) ∧
  (∀ die s q r rest, tget s.tr.faultQs die = some q → q.waiting = r :: rest → 4096 ≤ (q.seq + 2 ^ 32 - q.readIx % 2 ^ 32) % 2 ^ 32 → q.full = false →
    ∃ u, exec (.faultRecordWrite die) s = .next u ∧ u.mm = s.mm ∧ tget u.tr.faultQs die = some { q with full := true } ∧ u.bd.posted = s.bd.posted + 1)

/-- O57. JOB_START, COPY_PIECE, SORT_JOB, GATHERBIND_JOB, UNBIND_JOB, COLL_JOB, OCOMP_JOB and JOB_COMPLETION (spec/14_engines.md, R224, R289, R291, R295, R298, R299, R302, R303, R304, R305). A card whose dependences are met starts, or freezes its stream with reason 1 where it does not stand. A piece of a copy is stored: from its source, or the fill pattern; or into the stash. A sort writes what its rules give, of a list that is sorted, stable and a permutation. A gather window is bound, or NOROOM or WINBUSY is its status; it is unbound, or NOWIN is. A collective presents its operand, and ends with the combination of all members, or with status 8 where a member's does not match or a package that is no member of its group takes part. A card that has worked completes for its issuer, its node and its dependents, and its completion word is written. Where the conditions named in a clause hold, the event ends in a next state; what a clause does not name it does not claim. -/
def Obligations.EnginesWork : Prop :=
  (∀ card s c, tget s.en.cards card = some c → c.started = false → c.finished = false → c.deps = [] → streamFrozen s c = false → c.status ≠ 3 →
    ∃ u, exec (.jobStart card) s = .next u ∧ u.mm = s.mm ∧ (cardOk s c = true → tget u.en.cards card = some { c with started := true }) ∧
      (cardOk s c = false → tget u.en.cards card = some { c with frozen := some 1 } ∧ u.bd.posted = s.bd.posted + 1 + (badPages s c).length)) ∧
  (∀ card row dst s c pa, Works s card .copy c → isPiece c row dst = true → copyMode c.body = 3 →
    let n := pieceLen c.body (copyDst c.body row).toNat dst
    let bs : List Byte := (List.range n).map fun i => BitVec.ofNat 8 (bits c.body 255 192 / 2 ^ (8 * ((dst - (copyDst c.body row).toNat + i) % 8)))
    tget c.buf (wroteKey dst) = none → inFootprint c dst n true = true → Reaches s (cardVia s c) .engineWrite c.asid dst pa →
    ∃ u y, exec (.copyPiece card row dst) s = .next u ∧ Stored s u pa bs ∧ tget u.en.cards card = some y ∧ (row, dst) ∈ y.pieces ∧ y.bits = c.bits) ∧
  (∀ card row dst s c c' pa bs w, Works s card .copy c → isPiece c row dst = true → copyMode c.body = 0 →
    let j := dst - (copyDst c.body row).toNat
    let n := pieceLen c.body (copyDst c.body row).toNat dst
    cardReadSpan s card (pieceTag row dst) ((copySrc c.body row).toNat + j) n = (some bs, w) → bs.length = n → tget w.en.cards card = some c' →
    c'.frozen = none → tget c'.buf (wroteKey dst) = none → inFootprint c' dst n true = true → Reaches w (cardVia w c') .engineWrite c'.asid dst pa →
    ∃ u y, exec (.copyPiece card row dst) s = .next u ∧ Stored w u pa bs ∧ tget u.en.cards card = some y ∧ (row, dst) ∈ y.pieces) ∧
  (∀ card row dst s c c' bs w k, Works s card .copy c → isPiece c row dst = true → copyMode c.body = 1 → c.team = some k → (tget s.ex.teams k).isSome = true →
    let j := dst - (copyDst c.body row).toNat
    let n := pieceLen c.body (copyDst c.body row).toNat dst
    cardReadSpan s card (pieceTag row dst) ((copySrc c.body row).toNat + j) n = (some bs, w) → bs.length = n → (tget w.ex.teams k).isSome = true →
    inTiles w (getTeam w k) dst n = false → tget (pieceAhead w card row dst).en.cards card = some c' → c'.team = some k →
    (changesPhase (getTeam w k) dst bs = false ∨ pieceSum c'.body (c'.ahead ++ c'.pieces) = copyRows c'.body * copyLen c'.body) →
    ∃ u y, exec (.copyPiece card row dst) s = .next u ∧ stashRead (getTeam u k) dst n = leNat bs ∧ tget u.en.cards card = some y ∧ (row, dst) ∈ y.pieces) ∧
  (∀ card s c ks ps w1 w2 w3, Works s card .sort c → cardReadSpan s card 0 (bits c.body 63 0) (8 * sortN c.body) = (some ks, w1) →
    cardReadSpan w1 card 0 (bits c.body 127 64) (4 * sortN c.body) = (some ps, w2) →
    cardWriteSpans w2 card (sortWrites card c.body (stableSort (sortField c.body) ((elemsOf 8 (sortN c.body) ks).zip (elemsOf 4 (sortN c.body) ps)))) = (true, w3) →
    ∃ u y, exec (.sortJob card) s = .next u ∧ u.mm = w3.mm ∧ tget u.en.cards card = some y ∧ y.worked = true ∧ y.status = 0) ∧
  (∀ (f : Nat → Nat) (l : List (Nat × Nat)), (stableSort f l).Pairwise (fun x y => f x.1 ≤ f y.1) ∧ (stableSort f l).Perm l ∧
    ∀ v, (stableSort f l).filter (fun x => f x.1 == v) = l.filter fun x => f x.1 == v) ∧
  (∀ card s c, Works s card .gatherbind c →
    let w := windowOf c.asid c.body
    ∃ u y, exec (.gatherbindJob card) s = .next u ∧ tget u.en.cards card = some y ∧ y.worked = true ∧
      (Config.windows ≤ s.en.windows.length → y.status = 6 ∧ u.en.windows = s.en.windows) ∧
      (s.en.windows.length < Config.windows → (∃ x ∈ s.en.windows, windowsMeet w x = true) → y.status = 7 ∧ u.en.windows = s.en.windows) ∧
      (s.en.windows.length < Config.windows → (∀ x ∈ s.en.windows, windowsMeet w x = false) → y.status = 0 ∧ u.en.windows = s.en.windows ++ [w])) ∧
  (∀ card s c, Works s card .unbind c →
    ((∀ w ∈ s.en.windows, w.asid ≠ c.asid ∨ w.wbase ≠ bits c.body 63 0) → ∃ u y, exec (.unbindJob card) s = .next u ∧ tget u.en.cards card = some y ∧
      y.worked = true ∧ y.status = 4) ∧
    ∀ w, s.en.windows.find? (fun w => w.asid == c.asid && w.wbase == bits c.body 63 0) = some w → windowBusy s w = false →
      ∃ u y, exec (.unbindJob card) s = .next u ∧ tget u.en.cards card = some y ∧ y.worked = true ∧ y.status = 0 ∧
        ∀ x, x ∈ u.en.windows ↔ x ∈ s.en.windows ∧ x ≠ w) ∧
  (∀ card s c v w, (Works s card .coll c ∨ Works s card .ocomp c) → tget c.buf 1 = none → collOperand s card c = (some v, w) → (tget w.en.cards card).isSome = true →
    ∃ u y, exec (if c.kind = .coll then .collJob card else .ocompJob card) s = .next u ∧ tget u.en.cards card = some y ∧ y.buf = [(1, leNat v)]) ∧
  (∀ card s c own, Works s card .coll c → tget c.buf 1 = some own → c.status = 0 → strangers s c = [] →
    let ps := presented s c (natLe (collBytes c) own)
    ps.length = (collMembers s c.body).length → ps ≠ [] →
    ((∀ p ∈ ps, p.head = collHead s c.kind c.body) → ∀ w, cardWriteSpans s card (collResult c.body ps) = (true, w) →
      ∃ u y, exec (.collJob card) s = .next u ∧ u.mm = w.mm ∧ tget u.en.cards card = some y ∧ y.worked = true ∧ y.status = 0) ∧
    ((∃ p ∈ ps, p.head ≠ collHead s c.kind c.body) →
      ∃ u y, exec (.collJob card) s = .next u ∧ u.mm = s.mm ∧ tget u.en.cards card = some y ∧ y.worked = true ∧ y.status = 8)) ∧
  (∀ card s c own w, Works s card .ocomp c → tget c.buf 1 = some own → c.status = 0 → strangers s c = [] →
    let ps := presented s c (natLe (collBytes c) own)
    ps.length = (collMembers s c.body).length → ps ≠ [] → (∀ p ∈ ps, p.head = collHead s c.kind c.body) → bits c.body 191 128 ≠ 0 →
    cardWriteSpans s card [(bits c.body 191 128, ocompImage (bits c.body 223 192) ps)] = (true, w) →
    ∃ u y, exec (.ocompJob card) s = .next u ∧ u.mm = w.mm ∧ tget u.en.cards card = some y ∧ y.worked = true ∧ y.status = 0) ∧
  (∀ card s c own, (Works s card .coll c ∨ Works s card .ocomp c) → tget c.buf 1 = some own → c.status = 0 → strangers s c ≠ [] →
    ∃ u y, exec (if c.kind = .coll then .collJob card else .ocompJob card) s = .next u ∧ u.mm = s.mm ∧ tget u.en.cards card = some y ∧ y.worked = true ∧ y.status = 8) ∧
  (∀ card s c d n x, tget s.en.cards card = some c → c.frozen = none → c.worked = true → (∀ r ∈ ownRequests s (.card card), r.accepted = true) → c.finished = false → bits c.bits 120 64 = 0 → c.thr = none →
    c.node = some (d, n) → getNode s d n = some x → ∃ u, exec (.jobCompletion card) s = .next u ∧ u.mm = s.mm ∧ tget u.en.cards card = none ∧
      getNode u d n = some { x with finished := some c.finish } ∧
      ∀ m y, m ≠ card → tget s.en.cards m = some y → tget u.en.cards m = some (if card ∈ y.deps
        then { y with deps := y.deps.filter (· != card), pts := max y.pts c.finish } else y)) ∧
  (∀ card s c k id t o pa, tget s.en.cards card = some c → c.frozen = none → c.worked = true → ownRequests s (.card card) = [] → ownRequests s (.completion card) = [] → c.finished = false → bits c.bits 120 64 ≠ 0 →
    c.thr = some (k, id) → c.node = none → getThread s k = some t → findOp t id = some o → t.held = none → t.waitOn = .nothing →
    let w := settleAll (finishCard s card c)
    Reaches w (cardVia s c) .engineWrite c.asid (bits c.bits 120 64) pa → ∃ u v, exec (.jobCompletion card) s = .next u ∧ tget u.en.cards card = none ∧
      Stored w u pa (natLe 8 (bits c.bits 63 32 + 2 ^ 32 * c.status)) ∧ c.finish < (getLine u (pa / 128)).wts ∧ getThread u k = some v ∧ v.regs = t.regs ∧
      ∀ p ∈ v.ops, p.id = id → p.complete = true ∧ p.finish = c.finish)

/-- O58. WALK_COMPLETE, ZERO_FILL_FIRST_WRITE, the migration events, GRAPH_START and the node events (spec/18_translation.md, spec/17_tiles_launch.md, R358, R360, R361, R365, R368, R369, R370, R372, R374, R377). A walk that ends at a leaf fills the waiter's TLB and frees its entry; at an absent entry it notes a record and parks the lane; a malformed entry is posted. A first write zeroes its frame and clears ZF. A page that is hot is locked for HBM4, or the lack of a frame posted; a locked page's bytes move and its leaf names the new frame; where a supervisor has changed the leaf, the migration is abandoned and the frame goes back to its list. A graph is copied and its entry handed on. A KERNEL node launches, a JOB node appends its card, COND and WHILE choose by their word, which WHILE counts down, SIGNAL stores, WAIT tests. A completed node fires its successor, or ends its graph. Where the conditions named in a clause hold, the event ends in a next state; what a clause does not name it does not claim. -/
def Obligations.WalksMigrationsAndGraphs : Prop :=
  (∀ die n kept s m l k va fpc t, tget s.tr.merges (die * 1024 + n) = some m → n < 1024 → m.phase = .walking →
    walkOver s (if kept then keptPointers s die m.asid else []) m.asid (m.vpn * 65536) = .leaf l →
    m.waiters = [.lane k va fpc] → getThread s k = some t → t.st ≠ .parked → holdable l = true →
    ∃ u, exec (.walkComplete die ⟨n, kept⟩) s = .next u ∧ tget u.tr.merges (die * 1024 + n) = none ∧ u.mm = s.mm ∧ getThread u k = some t ∧
      (getCore u (coreOf k)).tlb.head? = some { asid := m.asid, vpn := m.vpn, leaf := l } ∧
      tget (getCore u (coreOf k)).lastPage t.hlane = some { asid := m.asid, vpn := m.vpn, leaf := l }) ∧
  (∀ die n kept s m k va fpc t, tget s.tr.merges (die * 1024 + n) = some m → n < 1024 → m.phase = .walking →
    walkOver s (if kept then keptPointers s die m.asid else []) m.asid (m.vpn * 65536) = .absent →
    m.waiters = [.lane k va fpc] → getThread s k = some t → t.live = true →
    ∃ u v q, exec (.walkComplete die ⟨n, kept⟩) s = .next u ∧ tget u.tr.merges (die * 1024 + n) = some { m with phase := .absent } ∧ u.mm = s.mm ∧
      getThread u k = some v ∧ v.st = .parked ∧ v.pc = t.pc ∧ tget u.tr.faultQs die = some q ∧
      q.waiting.getLast? = some { merge := n, srcKind := m.srcKind, srcId := m.srcId, asid := m.asid, acc := m.acc, va := m.va }) ∧
  (∀ die n kept s m, tget s.tr.merges (die * 1024 + n) = some m → n < 1024 → m.phase = .walking →
    walkOver s (if kept then keptPointers s die m.asid else []) m.asid (m.vpn * 65536) = .bad → m.waiters = [] →
    ∃ u, exec (.walkComplete die ⟨n, kept⟩) s = .next u ∧ tget u.tr.merges (die * 1024 + n) = none ∧ u.mm = s.mm ∧ u.bd.boxwood.head?.map (fun e => (e.code, e.arg1)) = some (0x0B, m.va)) ∧
  (∀ die n s m l₀ l, tget s.tr.merges (die * 1024 + n) = some m → m.phase = .zero l₀ → walk s m.asid (m.vpn * 65536) = .leaf l → l.zf = true →
    (l.entry + 8 ≤ l.frame ∨ l.frame + pageBytes l.size ≤ l.entry) → bit (leNat (mread s.mm.mem l.entry 8)) 57 = true →
    ∃ u y, exec (.zeroFillFirstWrite die n) s = .next u ∧ (∀ a, l.frame ≤ a → a < l.frame + pageBytes l.size → mget u.mm.mem a = 0) ∧
      leNat (mread u.mm.mem l.entry 8) = leNat (mread s.mm.mem l.entry 8) - 2 ^ 57 ∧ tget u.tr.merges (die * 1024 + n) = some y ∧ (y.phase = .walking ∨ y.phase = .queued) ∧
      ∀ c, ∀ e ∈ (getCore u c).tlb, pageScope m.asid (m.vpn * 65536) l.size e = false) ∧
  (∀ die asid va s l f, walk s asid va = .leaf l → die < Config.dies → l.pin = false → l.gather = false → l.zf = false → l.remote = false → l.size ≠ 2 →
    (isHost l.frame || isTier2 l.frame) = true → s.tr.migth ≠ 0 →
    let pg := pageStart va l.size
    isHot s die asid pg l = true → lockOf s asid pg = none → isRecent s asid pg false false = false →
    let fs := (tget s.tr.frames (die * 3)).getD []
    (f ∈ fs → f % pageBytes l.size = 0 → frameOk s f (pageBytes l.size) = true → ∃ u, exec (.migrationDeviceRequest die asid va) s = .next u ∧
      (lockOf u asid pg).isSome = true ∧ bits (leNat (mread u.mm.mem l.entry 8)) 54 53 = 1) ∧
    (fs = [] → ∃ u, exec (.migrationDeviceRequest die asid va) s = .next u ∧ u.mm.mem = s.mm.mem ∧ u.mm.lines = s.mm.lines ∧ lockOf u asid pg = none ∧
      u.bd.boxwood.head?.map (·.code) = some 0x0E)) ∧
  (∀ asid va s m, lockOf s asid va = some m → m.side = .device → leNat (mread s.mm.mem m.entry 8) = m.leaf →
    let old := bits m.leaf 47 16 * 65536
    let n := pageBytes m.size
    (isHost m.frame = true ∨ isHost old = true → hostPathOpen s = true) →
    m.frame % 128 = 0 → (old + n ≤ m.frame ∨ m.frame + n ≤ old) → (m.entry + 8 ≤ m.frame ∨ m.frame + n ≤ m.entry) →
    (∀ ln, old / 128 ≤ ln → ln < old / 128 + n / 128 → (getLine s ln).delta = none) →
    ∃ u, exec (.migration asid va) s = .next u ∧ m ∉ u.tr.locks ∧ (∀ j, j < n → mget u.mm.mem (m.frame + j) = mget s.mm.mem (old + j)) ∧
      leNat (mread u.mm.mem m.entry 8) = (m.leaf - bits m.leaf 54 53 * 2 ^ 53 - old + m.frame) % 2 ^ 64 ∧
      u.bd.boxwood.head?.map (·.code) = some 0x0C) ∧
  (∀ asid va s m, lockOf s asid va = some m → hostPathOpen s = true → leNat (mread s.mm.mem m.entry 8) ≠ m.leaf → ∃ u, exec (.migration asid va) s = .next u ∧ u.mm = s.mm ∧
    m ∉ u.tr.locks ∧ m.frame ∈ (tget u.tr.frames m.list).getD [] ∧ u.bd.boxwood.head?.map (·.code) = some 0x0D) ∧
  (∀ slot s x q e v r w v2 r2 w2, tget s.qu.slots slot = some x → x.entry = some e → tget s.qu.queues x.queue = some q → entryType e = 2 → x.waitMet = true → indexWaits s q = false →
    bits e 127 64 % 16 = 0 → tget x.buf 0 = none → readArray 16 1 (bits e 127 64) s (slotReader x q) = (some (v, false), r, w) → descriptorOk v = true →
    bits v 56 0 % 64 = 0 → readArray 64 (bits v 76 64) (bits v 56 0) w r = (some (v2, false), r2, w2) →
    let xs := (List.range (bits v 76 64)).map fun i => v2 / 2 ^ (512 * i) % 2 ^ 512
    (∀ z ∈ xs.zipIdx, nodeOk (bits v 76 64) z.2 z.1 = true) → (∀ z ∈ xs, nodeAligned z = true) → bits v 76 64 ≤ (freeNodes w2 (bits v 81 80) (bits v 76 64)).length →
    ∃ u g y n, exec (.graphStart slot) s = .next u ∧ tget u.qu.graphs n = some g ∧ g.die = bits v 81 80 ∧ g.queue = x.queue ∧ g.index = q.ridx ∧ g.asid = q.asid ∧
      g.count = bits v 76 64 ∧ tget u.qu.queues x.queue = some y ∧ y.ridx = q.ridx + 1) ∧
  (∀ die n s g x gi r w, NodeFires s die n 1 g x → x.running = false →
    launch (modNode s die n fun x => { x with running := true, fired := x.fired - 1 }) (nodeReader s die g x) (nodeAddr x.bits)
      (if bit x.bits 9 then some (bits x.bits 287 192) else none) (((tget s.qu.queues g.queue).map (·.prio)).getD 0) g.queue (.node die n) 0 = .ok gi r w →
    ∃ u y, exec (.kernelNode die n) s = .next u ∧ getNode u die n = some y ∧ y.launched = some gi ∧ y.running = true ∧ y.fired = x.fired - 1 ∧ u.mm = w.mm) ∧
  (∀ die n s g x k pa, NodeFires s die n 2 g x → x.buf = [] → kindOf (bits x.bits 12 10) = some k → Reaches s (nodeVia s die) .engineRead g.asid (nodeAddr x.bits) pa →
    (getLine s (pa / 128)).poison = false → (heldCards s).length < Config.trackerCards → queuedAt s (instanceFor s die k []) < Config.cardsPerInstance →
    ∃ u y card c, exec (.jobNode die n) s = .next u ∧ getNode u die n = some y ∧ y.launched = some card ∧ y.running = true ∧ tget u.en.cards card = some c ∧
      c.bits = standing s pa 128 ∧ c.kind = k ∧ c.asid = g.asid ∧ c.node = some (die, n) ∧ c.instance_ = instanceFor s die k []) ∧
  (∀ die n s g x pa, NodeFires s die n 3 g x → x.buf = [] → Reaches s (nodeVia s die) .engineRead g.asid (nodeAddr x.bits) pa → (getLine s (pa / 128)).poison = false →
    ∃ u y, exec (.condNode die n) s = .next u ∧ getNode u die n = some y ∧ y.complete = true ∧ y.choice = decide (standing s pa 8 ≠ 0)) ∧
  (∀ die n s g x pa, NodeFires s die n 4 g x → x.buf = [] → (∀ r ∈ ownRequests s (.node die n), r.accepted = true) → Reaches s (nodeVia s die) .atomic g.asid (nodeAddr x.bits) pa → (getLine s (pa / 128)).poison = false →
    ∃ u y, exec (.whileNode die n) s = .next u ∧ getNode u die n = some y ∧ y.complete = true ∧ y.choice = decide (standing s pa 8 ≠ 0) ∧
      Stored s u pa (natLe 8 (standing s pa 8 - 1))) ∧
  (∀ die n s g x pa, NodeFires s die n 5 g x → x.buf = [] → Reaches s (nodeVia s die) .engineWrite g.asid (nodeAddr x.bits) pa →
    ∃ u y, exec (.signalNode die n) s = .next u ∧ getNode u die n = some y ∧ y.complete = true ∧ Stored s u pa (natLe 8 (nodeVal x.bits))) ∧
  (∀ die n s g x pa, NodeFires s die n 6 g x → x.buf = [] → Reaches s (nodeVia s die) .engineRead g.asid (nodeAddr x.bits) pa → (getLine s (pa / 128)).poison = false →
    ∃ u y, exec (.waitNode die n) s = .next u ∧ getNode u die n = some y ∧
      y.complete = if bit x.bits 8 then decide (nodeVal x.bits ≤ standing s pa 8) else decide (standing s pa 8 = nodeVal x.bits)) ∧
  (∀ die n s x g i j z, getNode s die n = some x → x.running = true → (∀ r ∈ ownRequests s (.node die n), r.accepted = true) → (x.complete = true ∨ x.finished.isSome = true) → tget x.buf 0 = none →
    tget s.qu.graphs x.graph = some g → g.failure = none → successors x = [i] → j ≠ die * 4096 + n → tget s.qu.nodes j = some z → z.graph = x.graph → z.place = i →
    nodeKind z.bits ≠ 3 → nodeKind z.bits ≠ 4 → bits z.bits 60 48 ≤ z.arrivals + 1 →
    ∃ u y now, exec (.nodeComplete die n) s = .next u ∧ tget u.qu.nodes j = some { fire now z with arrivals := 0 } ∧ getNode u die n = some y ∧
      y.running = false ∧ y.complete = false ∧ tget u.qu.graphs x.graph = some g) ∧
  (∀ die n s x g, getNode s die n = some x → x.running = true → (∀ r ∈ ownRequests s (.node die n), r.accepted = true) → (x.complete = true ∨ x.finished.isSome = true) → tget x.buf 0 = none →
    tget s.qu.graphs x.graph = some g → g.failure = none → successors x = [] → x.fired = 0 → s.qu.nodes.Pairwise (fun a b => a.1 < b.1) →
    (∀ e ∈ s.qu.nodes, e.1 ≠ die * 4096 + n → e.2.graph = x.graph → e.2.running = false ∧ e.2.fired = 0) →
    ∃ u, exec (.nodeComplete die n) s = .next u ∧ tget u.qu.graphs x.graph = none ∧ (∀ e ∈ u.qu.nodes, e.2.graph ≠ x.graph) ∧
      ∀ p ∈ u.qu.pendings, p.queue = g.queue → p.index = g.index → p.fin.isSome = true)

/-- O59. The module: clock, memory-channel slots, counters, power, resets, boot and flow control (spec/21_module.md, R209, R231, R306, R402, R403, R408, R409, R411, R412, R413, R414). The clock counts modulo 2^64. Privet frees a record that no live snapshot can read. Scrubbing counts a corrected line and poisons an uncorrectable one, and posts both. Refresh, telemetry and samples are kept. Readings above a limit set the alarm and narrow the matrix engines; 10 ms below the clear limits clear it. A trip leaves the module without power and its memories empty, but for host memory, which is none of the module; power-on asks for a cold reset. A cold reset gives the hand-off state, with the device memories zero, or the management core alone; a warm one discards the work, and keeps memory, clock and Boxwood, to which the ports that are down add an event each. A boot takes the image, the retired units and the region sizes that the flash holds. Redfish asks for a reset, writes a flash slot or the region sizes (through slot 3, the model's place for them, log entry 9), or reads a value. Which cores fail self-test and which ports training, which image fails to boot, and the slots are log entry 6's; what a warm reset keeps is log entry 39's; the bytes of a read are log entry 29's; the length of a pause quantum is log entry 40's. Where the conditions named in a clause hold, the event ends in a next state; what a clause does not name it does not claim. -/
def Obligations.ModuleAndResets : Prop :=
  (∀ s, ∃ u, exec .cycleCounter s = .next u ∧ u = { s with bd := { s.bd with clock := (s.bd.clock + 1) % 2 ^ 64 } }) ∧
  (∀ s ln w i, (getLine s ln).recs.findIdx? (fun r => r.wts == w) = some i → ∃ u, exec (.privetSlot [(ln, w)]) s = .next u ∧ u.mm.mem = s.mm.mem ∧
    (readable s w (successor (getLine s ln) i) = true → u.mm = s.mm ∧ u.ex = s.ex) ∧
    (readable s w (successor (getLine s ln) i) = false → (getLine u ln).recs = (getLine s ln).recs.eraseIdx i ∧ (getLine u ln).wts = (getLine s ln).wts ∧
      u.mm.floor = max s.mm.floor (successor (getLine s ln) i))) ∧
  (∀ s line, line * 128 < 0x9000000000 → (∃ u, exec (.scrubSlot line .clean) s = .next u ∧ u.mm = s.mm ∧ u.bd.posted = s.bd.posted) ∧
    (∃ u, exec (.scrubSlot line .corrected) s = .next u ∧ u.mm = s.mm ∧ tget u.bd.corrected rowHbm4 = some (min (2 ^ 32 - 1) ((tget s.bd.corrected rowHbm4).getD 0 + 1)) ∧ u.bd.boxwood.head?.map (fun e => (e.srcKind, e.code)) = some (6, 9)) ∧
    ∃ u, exec (.scrubSlot line .uncorrectable) s = .next u ∧ u.mm.mem = s.mm.mem ∧ (getLine u line).poison = true ∧ (getLine u line).wts = (getLine s line).wts ∧
      u.bd.boxwood.head?.map (fun e => (e.srcKind, e.code)) = some (6, 0xA)) ∧
  (∀ s ch, ch < 384 → ∃ u, exec (.refreshSlot ch) s = .next u ∧ tget u.bd.refreshed ch = some ((tget s.bd.refreshed ch).getD 0 + 1) ∧ u.mm = s.mm ∧ u.ex = s.ex) ∧
  (∀ s ch, ch < 96 → ∃ u, exec (.perBankRefresh ch) s = .next u ∧ tget u.bd.refreshed (384 + ch) = some ((tget s.bd.refreshed (384 + ch)).getD 0 + 1) ∧ u.mm = s.mm) ∧
  (∀ s ch temp errs, ch < 384 → ∃ u, exec (.telemetrySlot ch temp errs) s = .next u ∧ tget u.bd.telemetry ch = some (temp, errs) ∧ u.mm = s.mm ∧ u.ex = s.ex) ∧
  (∀ s, ∃ u, exec .counterSample s = .next u ∧ u = { s with bd := { s.bd with samples := s.bd.perf } }) ∧
  (∀ s m p j, (3200 < m ∨ 2800 < p ∨ 95 < j) → s.bd.alarm = false → ∃ u, exec (.powerAlarm m p j) s = .next u ∧ u.bd.alarm = true ∧
    u.ex.matNarrow = List.range Config.cores ∧ u.ex.threads = s.ex.threads ∧ u.mm = s.mm ∧ u.bd.boxwood.head?.map (fun e => (e.srcKind, e.code)) = some (0xB, 0x11)) ∧
  (∀ s m p j c, m < 3040 → p < 2660 → j < 90 → s.bd.quietSince = some c → s.bd.alarm = true → c + 12500000 ≤ s.bd.clock →
    ∃ u, exec (.powerAlarmClear m p j) s = .next u ∧ u.bd.alarm = false ∧ u.ex.matNarrow = [] ∧ u.mm = s.mm ∧ u.bd.boxwood.head?.map (fun e => (e.srcKind, e.code)) = some (0xB, 0x11)) ∧
  (∀ s cause x, ((cause = 1 ∧ 110 < x) ∨ (cause = 2 ∧ x < 1000)) → ∃ u, exec (.trip cause x) s = .next u ∧ u.bd.power = .tripped ∧ u.ex.threads = [] ∧
    u.mm.mem = s.mm.mem.filter (fun c => isHost c.1) ∧ u.mm.lines = [] ∧ u.bd.boxwood.head?.map (fun e => (e.srcKind, e.code)) = some (0xB, 0x14)) ∧
  (∀ s, ∃ u, exec .powerOn s = .next u ∧ u.bd.boxwood = [] ∧ u.bd.posted = 0 ∧ u.bd.power = .standby ∧ u.bd.resetPending = some true ∧ u.bd.images = s.bd.images) ∧
  (∀ s, s.bd.resetPending = some true → (bootImage s).isSome = true → ∃ u, exec (.coldReset [] []) s = .next u ∧ u.bd.power = .running ∧ u.bd.clock = 0 ∧
    u.mm.mem = s.mm.mem.filter (fun c => isHost c.1) ∧ u.mm.lines = [] ∧ u.ex.threads = [] ∧ u.ex.grids = [] ∧ u.bd.boxwood = s.bd.boxwood ∧ u.bd.posted = s.bd.posted ∧ u.bd.resetPending = none ∧
    (tget u.qu.queues 0).map (·.asid) = some 0 ∧ u.bd.badCores = s.bd.flashCores ∧ u.fa.badPorts = s.bd.flashPorts ∧
    u.bd.image = bootImage s ∧ u.mm.versionGiB = s.bd.flashVersion ∧ u.mm.spillGiB = s.bd.flashSpill) ∧
  (∀ s bad down, s.bd.resetPending = some true → bootImage s = none → ∃ u, exec (.coldReset bad down) s = .next u ∧ u.bd.power = .managementOnly ∧
    u.ex.threads = []) ∧
  (∀ s i, s.bd.resetPending = some false → managed s = true → (∀ e ∈ s.mm.lines, e.2.back = none) → bootImage s = some i → ∃ w u, exec .warmReset s = .next u ∧
    u = postDown w ∧ u.mm.mem = s.mm.mem ∧ u.bd.power = .running ∧ u.bd.image = some i ∧ u.bd.eventQ = { count := s.bd.eventQ.count } ∧
    u.bd.badCores = ((Config.selfTestFails s.nextId).filter fun c => decide (c < Config.cores)).foldl addUnit s.bd.flashCores ∧
    u.fa.downPorts = ((Config.trainingFails s.nextId).filter fun p => decide (p ≤ 32)).dedup ∧ w.fa.downPorts = u.fa.downPorts ∧
    u.ex.threads = [] ∧ u.ex.grids = [] ∧ u.qu = State.reset.qu ∧ u.en = State.reset.en ∧ u.bd.clock = s.bd.clock ∧ w.bd.boxwood = s.bd.boxwood ∧
    w.bd.posted = s.bd.posted ∧ u.mm.horizon = [] ∧ u.bd.resetPending = none) ∧
  (∀ s, s.bd.resetPending = some false → managed s = true → (∀ e ∈ s.mm.lines, e.2.back = none) → bootImage s = none → ∃ u, exec .warmReset s = .next u ∧
    u.mm.mem = s.mm.mem ∧ u.bd.power = .managementOnly ∧ u.bd.image = none ∧ u.ex.threads = [] ∧ u.ex.grids = [] ∧ u.qu.queues = [] ∧ u.en.cards = [] ∧
    u.fa.downPorts = s.fa.downPorts ∧ u.bd.clock = s.bd.clock ∧ u.bd.boxwood = s.bd.boxwood ∧ u.bd.posted = s.bd.posted ∧ u.mm.horizon = [] ∧
    u.bd.resetPending = none) ∧
  (∀ s cold, cold = true ∨ managed s = true → ∃ u, exec (.redfishReset cold) s = .next u ∧ u.mm = s.mm ∧ u.ex = s.ex ∧
    u.bd.resetPending = some (cold || decide (s.bd.resetPending = some true))) ∧
  (∀ s slot v ok l, slot < s.bd.images.length → slot < 2 → ∃ u, exec (.redfishUpdate slot v ok l) s = .next u ∧ u.bd.images[slot]? = some { version := v, valid := ok, fails := !l.isEmpty } ∧
    u.mm = s.mm ∧ u.ex = s.ex) ∧
  (∀ s v n ok, versionOk v = true → n ≤ 1024 → ∃ u, exec (.redfishUpdate 3 v ok [n]) s = .next u ∧ u.bd.flashVersion = v ∧ u.bd.flashSpill = n ∧
    u.mm = s.mm ∧ u.ex = s.ex) ∧
  (∀ s r a n, exec (.redfishRead ⟨r, a, n⟩) s = .next { s with bd := { s.bd with redfish := redfishValue s r a n } }) ∧
  (∀ s prio quanta, (prio = 3 ∨ prio = 4) → ∃ u, exec (.priorityFlowControl 0 prio quanta) s = .next u ∧ u.mm = s.mm ∧
    tget u.fa.pauses prio = if quanta = 0 then none else some (s.bd.clock + (2 * quanta + 4) / 5))

/-- O60. The host port and the fabric: DOORBELL, the RDMA requests, the Koloz requests and answers, and link failures (spec/15_links.md, R270, R271, R306, R307, R310, R311, R313, R314, R317, R318, R375). A doorbell in good form stores and moves the write index; RDMA writes store, reads answer with the bytes or refuse poisoned ones, a flush is acknowledged or, without permission, refused with its pair frozen, an unsupported request refused; a mailbox request is answered, and a malformed one's result is 3. A Koloz READ, WRITE, ATOMIC, RADD, CHAIN or RFLUSH to an exported page is performed and answered; a CHAIN packet that is not at its end goes on to its next line's owner; a COLL frame waits; a management frame from elsewhere ends at the management core, and the package's own is sent. DATA and ACK settle their request, and a visible answer that comes first accepts it; REFUSED faults or freezes its owner. A discarded frame counts against its peer; a request is sent again after 200 us, by another port where one is up, three times, and then its package is lost; a failed port goes down, and what stood on it is sent again by another. A RADD of another package adds to the line's deltas, and its second answer waits for their fold; an RFLUSH folds and writes back every line of the package. Which port a flow takes is log entry 30's; SUBOP, the places of operands and partial states, and the ACK of a COLL frame are log entry 31's; the queue pairs of the host and the port's number are log entries 32 and 50's. Where the conditions named in a clause hold, the event ends in a next state; what a clause does not name it does not claim. -/
def Obligations.HostPortAndFabric : Prop :=
  (∀ qp key data s x n q pa, tget s.fa.qps qp = some x → hostDown s = false → x.frozen = false → x.mode ≠ 3 → x.key = key → rung s x.asid q.ctl 8 = [(n, q)] → tget s.qu.queues n = some q → data.length = 8 → q.qpn = qp → q.push = false →
    q.frozen = false → q.ctl % 128 + 8 ≤ 128 → hostMay s .engineWrite x.asid q.ctl 8 = true →
    hostWaits s .engineWrite x.asid q.ctl 8 = false → Reaches s baseVia .engineWrite x.asid q.ctl pa →
    q.widx < leNat data → leNat data ≤ q.ridx + q.size →
    ∃ u y, exec (.doorbell qp key q.ctl data) s = .next u ∧ Stored s u pa data ∧ tget u.qu.queues n = some y ∧ y.widx = leNat data ∧ y.ridx = q.ridx ∧
      (getLine u (pa / 128)).wts ≤ y.bell ∧ u.fa.answers = (qp, 0, []) :: s.fa.answers) ∧
  (∀ qp key va data s x pa, tget s.fa.qps qp = some x → hostDown s = false → x.frozen = false → x.mode ≠ 3 → x.key = key → rung s x.asid va data.length = [] → 0 < data.length → va % 128 + data.length ≤ 128 →
    hostMay s .engineWrite x.asid va data.length = true → hostWaits s .engineWrite x.asid va data.length = false → Reaches s baseVia .engineWrite x.asid va pa →
    ∃ u, exec (.hostRdmaWrite qp key va data) s = .next u ∧ Stored s u pa data ∧ u.fa.answers = (qp, 0, []) :: s.fa.answers) ∧
  (∀ qp key va n s x pa, tget s.fa.qps qp = some x → hostDown s = false → x.frozen = false → x.key = key → 0 < n → va % 128 + n ≤ 128 → hostMay s .engineRead x.asid va n = true →
    hostWaits s .engineRead x.asid va n = false → Reaches s baseVia .engineRead x.asid va pa →
    ∃ u, exec (.hostRdmaRead qp key va n) s = .next u ∧
      u.fa.answers = (if (getLine s (pa / 128)).poison then (qp, 2, []) else (qp, 0, natLe n (standing s pa n))) :: s.fa.answers) ∧
  (∀ qp key va n s x, tget s.fa.qps qp = some x → hostDown s = false → x.frozen = false → x.key = key →
    (hostMay s .engineRead x.asid va n = true → hostWaits s .engineRead x.asid va n = false → ∃ u, exec (.hostRdmaFlush ⟨qp, key, va, n⟩) s = .next u ∧
      u.fa.answers = (qp, 0, []) :: s.fa.answers ∧ u.mm = s.mm) ∧
    (hostMay s .engineRead x.asid va n = false → ∃ u, exec (.hostRdmaFlush ⟨qp, key, va, n⟩) s = .next u ∧ u.fa.answers = (qp, 2, []) :: s.fa.answers ∧
      tget u.fa.qps qp = some { x with frozen := true } ∧ u.mm = s.mm)) ∧
  (∀ qp s x, tget s.fa.qps qp = some x → hostDown s = false → x.frozen = false → ∃ u, exec (.hostUnsupportedRequest qp) s = .next u ∧ u.fa.answers = (qp, 1, []) :: s.fa.answers ∧
    u.mm = s.mm) ∧
  (∀ qp key va data s x, tget s.fa.qps qp = some x → hostDown s = false → x.frozen = false → x.mode = 3 → x.key = key → data.length = 32 → hostPathOpen s = true → ∃ u, exec (.hostMigrationRequest qp key va data) s = .next u ∧
    u.fa.answers = (qp, 0, []) :: s.fa.answers ∧ (mailRequest (leNat data) = none → bits (leNat data) 255 192 % 8 = 0 →
      mapped (0x800000000000 + bits (leNat data) 255 192) = true → Stored s u (0x800000000000 + bits (leNat data) 255 192) (natLe 8 3))) ∧
  (∀ port f s p pa, Granted s port f 1 .load (leNat f.data) pa → upPort s = some p → ∃ u g, exec (.kolozRead port f) s = .next u ∧
    u.fa.sent = (p, g) :: s.fa.sent ∧ g.op = 0x81 ∧ g.cls = 1 ∧ g.dpkg = f.spkg ∧ g.tag = f.tag ∧ g.data = natLe (leNat f.data) (standing s pa (leNat f.data)) ∧
    g.stamp = max f.stamp (getLine s (pa / 128)).wts ∧ g.subop = if (getLine s (pa / 128)).poison then 1 else 0) ∧
  (∀ port f s p pa, Granted s port f 2 .store f.data.length pa → upPort s = some p → ∃ u g h, exec (.kolozWrite port f) s = .next u ∧
    Stored s u pa f.data ∧ u.fa.sent = (p, h) :: (p, g) :: s.fa.sent ∧ g.op = 0x82 ∧ g.cls = 1 ∧ g.dpkg = f.spkg ∧ g.tag = f.tag ∧ g.ack = 1 ∧ h.op = 0x82 ∧ h.tag = f.tag ∧ h.ack = 2 ∧
    f.stamp ≤ g.stamp ∧ (getLine s (pa / 128)).rts < g.stamp) ∧
  (∀ port f s p pa r n, rmwOf f.subop (leNat (f.data.drop (if f.subop / 8 = 1 ∨ 25 ≤ f.subop then 8 else 4))) = some (r, n) →
    Granted s port f 3 .atomic n pa → upPort s = some p → (getLine s (pa / 128)).poison = false → r.writes (standing s pa n) = true →
    ∃ u g h, exec (.kolozAtomic port f) s = .next u ∧ u.fa.sent = (p, h) :: (p, g) :: s.fa.sent ∧ g.op = 0x81 ∧ g.cls = 1 ∧ g.dpkg = f.spkg ∧ g.tag = f.tag ∧ g.ack = 1 ∧ g.data = natLe n (standing s pa n) ∧
      h.op = 0x82 ∧ h.ack = 2 ∧ Stored s u pa (natLe n (r.apply (standing s pa n) (leNat (f.data.take n))))) ∧
  (∀ port f s p pa r, raddOf f.subop = some r → Granted s port f 4 .radd (4 * raddCount r) pa → upPort s = some p →
    ∃ s0 u g h, s0 = { s with fa := s0.fa, bd := s0.bd } ∧ exec (.kolozRadd port f) s = .next u ∧
      let x := if isHost pa then raddHost s0 f.stamp pa r (leNat f.data) else raddAt s0 f.stamp pa r (leNat f.data)
      g.op = 0x82 ∧ g.cls = 1 ∧ g.dpkg = f.spkg ∧ g.tag = f.tag ∧ g.ack = 1 ∧ g.stamp = x.1 ∧ h.op = 0x82 ∧ h.tag = f.tag ∧ h.ack = 2 ∧ h.stamp = x.1 ∧ u.ex.threads = x.2.ex.threads ∧
      (∀ d, (getLine x.2 (pa / 128)).delta = some d → u.fa.sent = (p, g) :: s.fa.sent ∧
        u.mm = (setLine x.2 (pa / 128) { getLine x.2 (pa / 128) with delta := some { d with owe := d.owe ++ [h] } }).mm) ∧
      ((getLine x.2 (pa / 128)).delta = none → u.fa.sent = (p, h) :: (p, g) :: s.fa.sent ∧ u.mm = x.2.mm)) ∧
  (∀ port f s p pa x ea w, packetOf f.stamp f.data = some x → chainNext x.chain = some (ea, w, .chain) → Granted s port f 5 .chain w pa → upPort s = some p →
    (getLine s (pa / 128)).poison = false →
    let c := max x.chain.c (getLine s (pa / 128)).wts
    (chainFinal x.chain = true → ∃ u g, exec (.kolozChain port f) s = .next u ∧ u.fa.sent = (p, g) :: s.fa.sent ∧ g.op = 0x81 ∧ g.cls = 1 ∧ g.dpkg = f.spkg ∧ g.tag = f.tag ∧ g.subop = 0 ∧
      g.data = natLe 8 (standing s pa w) ∧ g.stamp = c) ∧
    (chainFinal x.chain = false → x.one = false → ∀ st, x.chain.steps[x.chain.k]? = some st → ∃ u, exec (.kolozChain port f) s = .next u ∧
      u.fa.visitors = s.fa.visitors ++ [{ f with stamp := c, data := packetBytes { x with chain := chainAdvance { x.chain with c := c } st (standing s pa w) } }])) ∧
  (∀ port f s p, Received s port f 6 → upPort s = some p → ∃ u g h, exec (.kolozRflush port f) s = .next u ∧
    (∀ ln, (getLine u ln).delta = none) ∧ (LinesOk s → Flushed (fun _ => true) s { s with mm := u.mm, fa := { s.fa with due := u.fa.due } }) ∧ u.ex = s.ex ∧
    u.fa.sent = (p, h) :: (p, g) :: s.fa.sent ∧ g.op = 0x82 ∧ g.cls = 1 ∧ g.dpkg = f.spkg ∧ g.tag = f.tag ∧ g.ack = 1 ∧ h.op = 0x82 ∧ h.tag = f.tag ∧ h.ack = 2) ∧
  (∀ port f s, Received s port f 7 → ∃ u, exec (.kolozColl port f) s = .next u ∧ u.en.inbox = s.en.inbox ++ [f] ∧ u.mm = s.mm ∧ u.ex = s.ex ∧
    ∀ p, upPort s = some p → ∃ g, u.fa.sent = (p, g) :: s.fa.sent ∧ g.op = 0x82 ∧ g.cls = 1 ∧ g.dpkg = f.spkg ∧ g.tag = f.tag ∧ g.ack = 1) ∧
  (∀ port f s, portUp s port = true → f.op = 8 → f.cls = 2 →
    (f.spkg ≠ s.fa.pkg → f.dpkg = s.fa.pkg → badFrame f = false → ∃ u, exec (.kolozMgmt port f) s = .next u ∧ u.mm = s.mm ∧ u.ex = s.ex ∧ u.fa = s.fa) ∧
    (f.spkg = s.fa.pkg → ∃ u, exec (.kolozMgmt port f) s = .next u ∧ u.mm = s.mm ∧ u.ex = s.ex ∧ u.fa = { s.fa with sent := (port, f) :: s.fa.sent })) ∧
  (∀ port f s r k id t o, f.op = 0x81 → portUp s port = true → badFrame f = false → s.fa.unsent = [] → requestFor s f = some r → r.owner = .op k id → r.slot = none → r.parts = [] → r.frame.op = 1 → getThread s k = some t →
    findOp t id = some o → ∃ u v p, exec (.kolozData port f) s = .next u ∧ tget u.fa.requests f.tag = none ∧ getThread u k = some v ∧ v.pts = max t.pts f.stamp ∧
      findOp v id = some p ∧ p.performed = true ∧ p.value = leNat f.data ∧ p.poisoned = decide (f.subop = 1)) ∧
  (∀ port f s r, f.op = 0x82 → portUp s port = true → badFrame f = false → s.fa.unsent = [] → requestFor s f = some r → ((r.frame.op = 7 ∨ f.ack = 2 ∧ r.accepted = true) → ∃ u, exec (.kolozAck port f) s = .next u ∧
      tget u.fa.requests f.tag = none ∧ u.ex = s.ex) ∧
    (f.ack = 2 → r.accepted = false → r.frame.op = 3 → ∃ u, exec (.kolozAck port f) s = .next u ∧ tget u.fa.requests f.tag = some { r with visible := true } ∧
      u.ex = s.ex) ∧
    ∀ k id t o, (f.ack = 1 ∨ f.ack = 2) → r.accepted = false → r.frame.op ≠ 3 → r.frame.op ≠ 7 → r.owner = .op k id → r.slot = none → r.parts = [] → getThread s k = some t → findOp t id = some o → isWrite o = true →
      t.held = none → t.waitOn = .nothing → ∃ u v, exec (.kolozAck port f) s = .next u ∧ (tget u.fa.requests f.tag).isSome = decide (f.ack = 1) ∧ getThread u k = some v ∧
        v.pts = max t.pts f.stamp ∧ ∀ p ∈ v.ops, p.id = id → p.complete = true) ∧
  (∀ port f s r, f.op = 0x83 → portUp s port = true → badFrame f = false → s.fa.unsent = [] → requestFor s f = some r → r.accepted = false → (∀ k t, r.owner = .word k → getThread s k = some t → t.st = .ready →
      exec (.kolozRefused port f) s = .next (deliver (dropRequest (perf s 4 port 1 1) f.tag) k 0x08 f.addr t.pc)) ∧
    (∀ k id t o, r.owner = .op k id → r.slot = none → r.parts = [] → getThread s k = some t → findOp t id = some o →
      exec (.kolozRefused port f) s = .next (faultOp (dropRequest (perf s 4 port 1 1) f.tag) k o 0x08 f.addr)) ∧
    ∀ c y, r.owner = .card c → tget s.en.cards c = some y → y.frozen = none → ∃ u, exec (.kolozRefused port f) s = .next u ∧ tget u.fa.requests f.tag = none ∧
      tget u.en.cards c = some { y with frozen := some 3 }) ∧
  (∀ port s, ∃ u, exec (.frameFcsReplay port) s = .next u ∧ u.mm = s.mm ∧ u.ex = s.ex ∧ u.fa = s.fa) ∧
  (∀ port f mis s, portUp s port = true → (badFrame f || mis) = true → ∃ u, exec (.frameDiscard port ⟨f, mis⟩) s = .next u ∧ u.mm = s.mm ∧ u.ex = s.ex ∧
    let l := (getPeer s f.spkg).strikes.filter fun c => decide (s.bd.clock < c + Config.cyclesSecond)
    (l.length < 2 → (getPeer u f.spkg).strikes = s.bd.clock :: l ∧ (getPeer u f.spkg).frozen = (getPeer s f.spkg).frozen) ∧
    (2 ≤ l.length → (getPeer u f.spkg).frozen = true)) ∧
  (∀ tag s r, tget s.fa.requests tag = some r → r.accepted = false → r.since + Config.cycles200us ≤ s.bd.clock → (getPeer s r.frame.dpkg).lost = false →
    (r.tries < 3 → ∀ p, otherPort s r.port = some p → ∃ u, exec (.retransmitTimeout tag) s = .next u ∧ u.fa.sent = (p, r.frame) :: s.fa.sent ∧
      tget u.fa.requests tag = some { r with since := s.bd.clock, tries := r.tries + 1, port := some p } ∧ u.mm = s.mm ∧ u.ex = s.ex) ∧
    (3 ≤ r.tries → ∃ u, exec (.retransmitTimeout tag) s = .next u ∧ (getPeer u r.frame.dpkg).lost = true)) ∧
  (∀ port s, port ≤ 32 → port ∉ s.fa.downPorts → ∃ u, exec (.portFailure port) s = .next u ∧ u.fa.downPorts = port :: s.fa.downPorts ∧ u.mm = s.mm ∧
    u.bd.boxwood.head?.map (fun e => (e.srcKind, e.srcId, e.code)) = some (if port = 32 then (9, 0, 0x0F) else (0xA, port, 0x0F)) ∧
    ∀ q, upPort u = some q → ∀ e ∈ s.fa.requests, e.2.port = some port → e.2.accepted = false → (q, e.2.frame) ∈ u.fa.sent)
end

