-- ==== Sys2Proof/Laws/Tables.lean ====
section
/-! SUPPORT. Tables.lean: reading a table or a memory after a write, and that every memory operation keeps the canonical
form. -/

namespace Sys2Proof.Machine

@[simp] theorem tget_nil {α : Type} (n : Nat) : tget ([] : Tab α) n = none := rfl

@[simp] theorem tget_tset_self {α : Type} (t : Tab α) (n : Nat) (v : α) : tget (tset t n v) n = some v := by
  induction t with
  | nil => simp [tset, tget]
  | cons e t ih =>
    obtain ⟨k, w⟩ := e
    simp only [tset]
    split
    · simp [tget]
    · split
      · simp [tget]
      · simp [tget, *]

theorem tget_tset_ne {α : Type} (t : Tab α) {n m : Nat} (v : α) (h : m ≠ n) : tget (tset t n v) m = tget t m := by
  induction t with
  | nil => simp [tset, tget, h]
  | cons e t ih =>
    obtain ⟨k, w⟩ := e
    simp only [tset]
    split
    · subst_vars; simp [tget, h]
    · split
      · simp [tget, h]
      · simp [tget, ih]

theorem tget_tset {α : Type} (t : Tab α) (n m : Nat) (v : α) : tget (tset t n v) m = if m = n then some v else tget t m := by
  split
  · subst_vars; simp
  · exact tget_tset_ne t v ‹_›

@[simp] theorem tget_tdel_self {α : Type} (t : Tab α) (n : Nat) : tget (tdel t n) n = none := by
  induction t with
  | nil => rfl
  | cons e t ih =>
    obtain ⟨k, w⟩ := e
    simp only [tdel, List.filter_cons] at ih ⊢
    split
    · rename_i h; simp only [bne_iff_ne, ne_eq] at h; simp [tget, Ne.symm h, ih]
    · exact ih

theorem tget_tdel_ne {α : Type} (t : Tab α) {n m : Nat} (h : m ≠ n) : tget (tdel t n) m = tget t m := by
  induction t with
  | nil => rfl
  | cons e t ih =>
    obtain ⟨k, w⟩ := e
    simp only [tdel, List.filter_cons] at ih ⊢
    split
    · simp [tget, ih]
    · rename_i hk
      simp only [bne_iff_ne, ne_eq, not_not] at hk
      subst hk
      simp [tget, h, ih]

theorem tget_tdel {α : Type} (t : Tab α) (n m : Nat) : tget (tdel t n) m = if m = n then none else tget t m := by
  split
  · subst_vars; simp
  · exact tget_tdel_ne t ‹_›

theorem tget_tmod {α : Type} (t : Tab α) (n m : Nat) (f : α → α) :
    tget (tmod t n f) m = if m = n then (tget t n).map f else tget t m := by
  unfold tmod
  split
  · rw [tget_tset]; split <;> simp_all
  · split <;> simp_all

/-- A table's entry with every value changed. -/
theorem tget_map {α β : Type} (t : Tab α) (f : α → β) (n : Nat) :
    tget (t.map fun e => (e.1, f e.2)) n = (tget t n).map f := by
  induction t with
  | nil => rfl
  | cons e t ih => obtain ⟨k, w⟩ := e; simp only [List.map_cons, tget]; split <;> simp [ih]

theorem mget_tset (m : Mem) (a b : Nat) (x : Byte) : mget (tset m a x) b = if b = a then x else mget m b := by
  induction m with
  | nil => simp [tset, mget]
  | cons e t ih =>
    obtain ⟨k, w⟩ := e
    simp only [tset]
    split
    · subst_vars; simp [mget]; split <;> simp_all
    · split
      · simp [mget]
      · simp only [mget, ih]; split <;> split <;> simp_all

theorem mget_tdel (m : Mem) (a b : Nat) : mget (tdel m a) b = if b = a then 0 else mget m b := by
  induction m with
  | nil => simp [tdel, mget]
  | cons e t ih =>
    obtain ⟨k, w⟩ := e
    simp only [tdel, List.filter_cons] at ih ⊢
    split
    · rename_i h; simp only [bne_iff_ne, ne_eq] at h
      simp only [mget, ih]; split <;> split <;> simp_all
    · rename_i h; simp only [bne_iff_ne, ne_eq, not_not] at h
      subst h; rw [ih]; simp only [mget]; split <;> simp_all

/-- A byte read after a byte is written. -/
theorem mget_mset (m : Mem) (a b : Nat) (x : Byte) : mget (mset m a x) b = if b = a then x else mget m b := by
  unfold mset
  split
  · subst_vars; exact mget_tdel m a b
  · exact mget_tset m a b x

/-- A byte read after bytes are written. -/
theorem mget_mwrite (bs : List Byte) (m : Mem) (a b : Nat) :
    mget (mwrite m a bs) b = if a ≤ b ∧ b < a + bs.length then bs[b - a]?.getD 0 else mget m b := by
  induction bs generalizing m a with
  | nil => simp only [mwrite, List.length_nil, Nat.add_zero]; split
           · omega
           · rfl
  | cons x bs ih =>
    simp only [mwrite, ih, mget_mset, List.length_cons]
    by_cases hab : b = a
    · subst hab
      simp
    · by_cases h : a + 1 ≤ b ∧ b < a + 1 + bs.length
      · have h1 : a ≤ b ∧ b < a + (bs.length + 1) := by omega
        have h2 : b - a = (b - (a + 1)) + 1 := by omega
        simp only [h, h1, and_self, if_true, h2, List.getElem?_cons_succ]
      · have h1 : ¬ (a ≤ b ∧ b < a + (bs.length + 1)) := by omega
        simp only [h, h1, if_false, hab]

/-- A byte outside the bytes written. -/
theorem mget_mwrite_outside {bs : List Byte} {m : Mem} {a b : Nat} (h : b < a ∨ a + bs.length ≤ b) :
    mget (mwrite m a bs) b = mget m b := by
  rw [mget_mwrite]; split
  · omega
  · rfl

@[simp] theorem natLe_length (n x : Nat) : (natLe n x).length = n := by
  induction n generalizing x with
  | zero => rfl
  | succ n ih => simp [natLe, ih]

theorem leNat_natLe (n x : Nat) : leNat (natLe n x) = x % 256 ^ n := by
  induction n generalizing x with
  | zero => simp [natLe, leNat, Nat.mod_one]
  | succ n ih =>
    simp only [natLe, leNat, ih, BitVec.toNat_ofNat, Nat.reducePow]
    rw [Nat.pow_succ, Nat.mul_comm (256 ^ n) 256, Nat.mod_mul]

theorem mread_mwrite (m : Mem) (a : Nat) (bs : List Byte) : mread (mwrite m a bs) a bs.length = bs := by
  apply List.ext_getElem
  · simp [mread]
  · intro i h1 h2
    simp only [mread, List.getElem_map, List.getElem_range, mget_mwrite]
    have : a ≤ a + i ∧ a + i < a + bs.length := by omega
    simp [this, h2]

theorem tset_mem {α : Type} {t : Tab α} {n : Nat} {v : α} {x : Nat × α} (hx : x ∈ tset t n v) : x = (n, v) ∨ x ∈ t := by
  induction t with
  | nil => simp [tset] at hx; exact .inl hx
  | cons e l ih =>
    obtain ⟨k, w⟩ := e
    simp only [tset] at hx
    split at hx
    · rcases List.mem_cons.mp hx with h | h
      · exact .inl h
      · exact .inr (List.mem_cons_of_mem _ h)
    · split at hx
      · rcases List.mem_cons.mp hx with h | h
        · exact .inl h
        · exact .inr h
      · rcases List.mem_cons.mp hx with h | h
        · exact .inr (by simp [h])
        · rcases ih h with h | h
          · exact .inl h
          · exact .inr (List.mem_cons_of_mem _ h)

/-- The rows of a table whose keys rise strictly. -/
theorem tset_pairwise {α : Type} {t : Tab α} (h : t.Pairwise fun x y => x.1 < y.1) (n : Nat) (v : α) :
    (tset t n v).Pairwise fun x y => x.1 < y.1 := by
  induction t with
  | nil => simp [tset]
  | cons e t ih =>
    obtain ⟨k, w⟩ := e
    rw [List.pairwise_cons] at h
    simp only [tset]
    split
    · subst_vars; exact List.pairwise_cons.mpr ⟨h.1, h.2⟩
    · split
      · rename_i h1 h2
        refine List.pairwise_cons.mpr ⟨?_, List.pairwise_cons.mpr ⟨h.1, h.2⟩⟩
        intro x hx
        rcases List.mem_cons.mp hx with rfl | hx
        · exact h2
        · exact Nat.lt_trans h2 (h.1 x hx)
      · rename_i h1 h2
        refine List.pairwise_cons.mpr ⟨?_, ih h.2⟩
        intro x hx
        rcases tset_mem hx with rfl | hx
        · simp only; omega
        · exact h.1 x hx

/-- A byte written keeps the canonical form. -/
theorem mset_wf {m : Mem} (h : Memory.wf m = true) (a : Nat) (x : Byte) : Memory.wf (mset m a x) = true := by
  simp only [Memory.wf, Bool.and_eq_true, decide_eq_true_eq, List.all_eq_true] at h ⊢
  unfold mset
  split
  · exact ⟨h.1.filter _, fun c hc => h.2 c (List.mem_of_mem_filter hc)⟩
  · rename_i hx
    refine ⟨tset_pairwise h.1 a x, fun c hc => ?_⟩
    rcases tset_mem hc with rfl | hc
    · simpa using hx
    · exact h.2 c hc

/-- Bytes written keep the canonical form. -/
theorem mwrite_wf (bs : List Byte) {m : Mem} (h : Memory.wf m = true) (a : Nat) : Memory.wf (mwrite m a bs) = true := by
  induction bs generalizing m a with
  | nil => exact h
  | cons x bs ih => exact ih (mset_wf h a x) (a + 1)

@[simp] theorem nil_wf : Memory.wf [] = true := by decide

end Sys2Proof.Machine
end

