-- ==== Sys2Proof/Laws/State.lean ====
section
/-! SUPPORT. State.lean: what each update of the state, and of a thread, leaves unchanged: one lemma per field. -/

namespace Sys2Proof.Machine

@[simp] theorem setThread_mm (s : State) (k : Nat) (t : Thread) : (setThread s k t).mm = s.mm := rfl
@[simp] theorem setThread_tr (s : State) (k : Nat) (t : Thread) : (setThread s k t).tr = s.tr := rfl
@[simp] theorem setThread_qu (s : State) (k : Nat) (t : Thread) : (setThread s k t).qu = s.qu := rfl
@[simp] theorem setThread_en (s : State) (k : Nat) (t : Thread) : (setThread s k t).en = s.en := rfl
@[simp] theorem setThread_fa (s : State) (k : Nat) (t : Thread) : (setThread s k t).fa = s.fa := rfl
@[simp] theorem setThread_bd (s : State) (k : Nat) (t : Thread) : (setThread s k t).bd = s.bd := rfl
@[simp] theorem setThread_halted (s : State) (k : Nat) (t : Thread) : (setThread s k t).halted = s.halted := rfl
@[simp] theorem setThread_cur (s : State) (k : Nat) (t : Thread) : (setThread s k t).cur = s.cur := rfl
@[simp] theorem setThread_agenda (s : State) (k : Nat) (t : Thread) : (setThread s k t).agenda = s.agenda := rfl
@[simp] theorem setThread_nextId (s : State) (k : Nat) (t : Thread) : (setThread s k t).nextId = s.nextId := rfl

@[simp] theorem modThread_mm (s : State) (k : Nat) (f : Thread → Thread) : (modThread s k f).mm = s.mm := rfl
@[simp] theorem modThread_tr (s : State) (k : Nat) (f : Thread → Thread) : (modThread s k f).tr = s.tr := rfl
@[simp] theorem modThread_qu (s : State) (k : Nat) (f : Thread → Thread) : (modThread s k f).qu = s.qu := rfl
@[simp] theorem modThread_en (s : State) (k : Nat) (f : Thread → Thread) : (modThread s k f).en = s.en := rfl
@[simp] theorem modThread_fa (s : State) (k : Nat) (f : Thread → Thread) : (modThread s k f).fa = s.fa := rfl
@[simp] theorem modThread_bd (s : State) (k : Nat) (f : Thread → Thread) : (modThread s k f).bd = s.bd := rfl
@[simp] theorem modThread_halted (s : State) (k : Nat) (f : Thread → Thread) : (modThread s k f).halted = s.halted := rfl
@[simp] theorem modThread_cur (s : State) (k : Nat) (f : Thread → Thread) : (modThread s k f).cur = s.cur := rfl
@[simp] theorem modThread_agenda (s : State) (k : Nat) (f : Thread → Thread) : (modThread s k f).agenda = s.agenda := rfl
@[simp] theorem modThread_nextId (s : State) (k : Nat) (f : Thread → Thread) : (modThread s k f).nextId = s.nextId := rfl

@[simp] theorem mapThreads_mm (s : State) (f : Thread → Thread) : (mapThreads s f).mm = s.mm := rfl
@[simp] theorem mapThreads_tr (s : State) (f : Thread → Thread) : (mapThreads s f).tr = s.tr := rfl
@[simp] theorem mapThreads_qu (s : State) (f : Thread → Thread) : (mapThreads s f).qu = s.qu := rfl
@[simp] theorem mapThreads_en (s : State) (f : Thread → Thread) : (mapThreads s f).en = s.en := rfl
@[simp] theorem mapThreads_fa (s : State) (f : Thread → Thread) : (mapThreads s f).fa = s.fa := rfl
@[simp] theorem mapThreads_bd (s : State) (f : Thread → Thread) : (mapThreads s f).bd = s.bd := rfl
@[simp] theorem mapThreads_halted (s : State) (f : Thread → Thread) : (mapThreads s f).halted = s.halted := rfl
@[simp] theorem mapThreads_cur (s : State) (f : Thread → Thread) : (mapThreads s f).cur = s.cur := rfl
@[simp] theorem mapThreads_agenda (s : State) (f : Thread → Thread) : (mapThreads s f).agenda = s.agenda := rfl
@[simp] theorem mapThreads_nextId (s : State) (f : Thread → Thread) : (mapThreads s f).nextId = s.nextId := rfl

@[simp] theorem modTeam_mm (s : State) (k : Nat) (f : Team → Team) : (modTeam s k f).mm = s.mm := rfl
@[simp] theorem modTeam_tr (s : State) (k : Nat) (f : Team → Team) : (modTeam s k f).tr = s.tr := rfl
@[simp] theorem modTeam_qu (s : State) (k : Nat) (f : Team → Team) : (modTeam s k f).qu = s.qu := rfl
@[simp] theorem modTeam_en (s : State) (k : Nat) (f : Team → Team) : (modTeam s k f).en = s.en := rfl
@[simp] theorem modTeam_fa (s : State) (k : Nat) (f : Team → Team) : (modTeam s k f).fa = s.fa := rfl
@[simp] theorem modTeam_bd (s : State) (k : Nat) (f : Team → Team) : (modTeam s k f).bd = s.bd := rfl
@[simp] theorem modTeam_halted (s : State) (k : Nat) (f : Team → Team) : (modTeam s k f).halted = s.halted := rfl
@[simp] theorem modTeam_cur (s : State) (k : Nat) (f : Team → Team) : (modTeam s k f).cur = s.cur := rfl
@[simp] theorem modTeam_agenda (s : State) (k : Nat) (f : Team → Team) : (modTeam s k f).agenda = s.agenda := rfl
@[simp] theorem modTeam_nextId (s : State) (k : Nat) (f : Team → Team) : (modTeam s k f).nextId = s.nextId := rfl

@[simp] theorem modCore_mm (s : State) (k : Nat) (f : Core → Core) : (modCore s k f).mm = s.mm := rfl
@[simp] theorem modCore_tr (s : State) (k : Nat) (f : Core → Core) : (modCore s k f).tr = s.tr := rfl
@[simp] theorem modCore_qu (s : State) (k : Nat) (f : Core → Core) : (modCore s k f).qu = s.qu := rfl
@[simp] theorem modCore_en (s : State) (k : Nat) (f : Core → Core) : (modCore s k f).en = s.en := rfl
@[simp] theorem modCore_fa (s : State) (k : Nat) (f : Core → Core) : (modCore s k f).fa = s.fa := rfl
@[simp] theorem modCore_bd (s : State) (k : Nat) (f : Core → Core) : (modCore s k f).bd = s.bd := rfl
@[simp] theorem modCore_halted (s : State) (k : Nat) (f : Core → Core) : (modCore s k f).halted = s.halted := rfl
@[simp] theorem modCore_cur (s : State) (k : Nat) (f : Core → Core) : (modCore s k f).cur = s.cur := rfl
@[simp] theorem modCore_agenda (s : State) (k : Nat) (f : Core → Core) : (modCore s k f).agenda = s.agenda := rfl
@[simp] theorem modCore_nextId (s : State) (k : Nat) (f : Core → Core) : (modCore s k f).nextId = s.nextId := rfl

@[simp] theorem modGrid_mm (s : State) (k : Nat) (f : Grid → Grid) : (modGrid s k f).mm = s.mm := rfl
@[simp] theorem modGrid_tr (s : State) (k : Nat) (f : Grid → Grid) : (modGrid s k f).tr = s.tr := rfl
@[simp] theorem modGrid_qu (s : State) (k : Nat) (f : Grid → Grid) : (modGrid s k f).qu = s.qu := rfl
@[simp] theorem modGrid_en (s : State) (k : Nat) (f : Grid → Grid) : (modGrid s k f).en = s.en := rfl
@[simp] theorem modGrid_fa (s : State) (k : Nat) (f : Grid → Grid) : (modGrid s k f).fa = s.fa := rfl
@[simp] theorem modGrid_bd (s : State) (k : Nat) (f : Grid → Grid) : (modGrid s k f).bd = s.bd := rfl
@[simp] theorem modGrid_halted (s : State) (k : Nat) (f : Grid → Grid) : (modGrid s k f).halted = s.halted := rfl
@[simp] theorem modGrid_cur (s : State) (k : Nat) (f : Grid → Grid) : (modGrid s k f).cur = s.cur := rfl
@[simp] theorem modGrid_agenda (s : State) (k : Nat) (f : Grid → Grid) : (modGrid s k f).agenda = s.agenda := rfl
@[simp] theorem modGrid_nextId (s : State) (k : Nat) (f : Grid → Grid) : (modGrid s k f).nextId = s.nextId := rfl

@[simp] theorem modQueue_mm (s : State) (k : Nat) (f : Queue → Queue) : (modQueue s k f).mm = s.mm := rfl
@[simp] theorem modQueue_ex (s : State) (k : Nat) (f : Queue → Queue) : (modQueue s k f).ex = s.ex := rfl
@[simp] theorem modQueue_tr (s : State) (k : Nat) (f : Queue → Queue) : (modQueue s k f).tr = s.tr := rfl
@[simp] theorem modQueue_en (s : State) (k : Nat) (f : Queue → Queue) : (modQueue s k f).en = s.en := rfl
@[simp] theorem modQueue_fa (s : State) (k : Nat) (f : Queue → Queue) : (modQueue s k f).fa = s.fa := rfl
@[simp] theorem modQueue_bd (s : State) (k : Nat) (f : Queue → Queue) : (modQueue s k f).bd = s.bd := rfl
@[simp] theorem modQueue_halted (s : State) (k : Nat) (f : Queue → Queue) : (modQueue s k f).halted = s.halted := rfl
@[simp] theorem modQueue_cur (s : State) (k : Nat) (f : Queue → Queue) : (modQueue s k f).cur = s.cur := rfl
@[simp] theorem modQueue_agenda (s : State) (k : Nat) (f : Queue → Queue) : (modQueue s k f).agenda = s.agenda := rfl
@[simp] theorem modQueue_nextId (s : State) (k : Nat) (f : Queue → Queue) : (modQueue s k f).nextId = s.nextId := rfl

@[simp] theorem modSlot_mm (s : State) (k : Nat) (f : Slot → Slot) : (modSlot s k f).mm = s.mm := rfl
@[simp] theorem modSlot_ex (s : State) (k : Nat) (f : Slot → Slot) : (modSlot s k f).ex = s.ex := rfl
@[simp] theorem modSlot_tr (s : State) (k : Nat) (f : Slot → Slot) : (modSlot s k f).tr = s.tr := rfl
@[simp] theorem modSlot_en (s : State) (k : Nat) (f : Slot → Slot) : (modSlot s k f).en = s.en := rfl
@[simp] theorem modSlot_fa (s : State) (k : Nat) (f : Slot → Slot) : (modSlot s k f).fa = s.fa := rfl
@[simp] theorem modSlot_bd (s : State) (k : Nat) (f : Slot → Slot) : (modSlot s k f).bd = s.bd := rfl
@[simp] theorem modSlot_halted (s : State) (k : Nat) (f : Slot → Slot) : (modSlot s k f).halted = s.halted := rfl
@[simp] theorem modSlot_cur (s : State) (k : Nat) (f : Slot → Slot) : (modSlot s k f).cur = s.cur := rfl
@[simp] theorem modSlot_agenda (s : State) (k : Nat) (f : Slot → Slot) : (modSlot s k f).agenda = s.agenda := rfl
@[simp] theorem modSlot_nextId (s : State) (k : Nat) (f : Slot → Slot) : (modSlot s k f).nextId = s.nextId := rfl

@[simp] theorem modCard_mm (s : State) (k : Nat) (f : Card → Card) : (modCard s k f).mm = s.mm := rfl
@[simp] theorem modCard_ex (s : State) (k : Nat) (f : Card → Card) : (modCard s k f).ex = s.ex := rfl
@[simp] theorem modCard_tr (s : State) (k : Nat) (f : Card → Card) : (modCard s k f).tr = s.tr := rfl
@[simp] theorem modCard_qu (s : State) (k : Nat) (f : Card → Card) : (modCard s k f).qu = s.qu := rfl
@[simp] theorem modCard_fa (s : State) (k : Nat) (f : Card → Card) : (modCard s k f).fa = s.fa := rfl
@[simp] theorem modCard_bd (s : State) (k : Nat) (f : Card → Card) : (modCard s k f).bd = s.bd := rfl
@[simp] theorem modCard_halted (s : State) (k : Nat) (f : Card → Card) : (modCard s k f).halted = s.halted := rfl
@[simp] theorem modCard_cur (s : State) (k : Nat) (f : Card → Card) : (modCard s k f).cur = s.cur := rfl
@[simp] theorem modCard_agenda (s : State) (k : Nat) (f : Card → Card) : (modCard s k f).agenda = s.agenda := rfl
@[simp] theorem modCard_nextId (s : State) (k : Nat) (f : Card → Card) : (modCard s k f).nextId = s.nextId := rfl

@[simp] theorem setMem_ex (s : State) (m : Mem) : (setMem s m).ex = s.ex := rfl
@[simp] theorem setMem_tr (s : State) (m : Mem) : (setMem s m).tr = s.tr := rfl
@[simp] theorem setMem_qu (s : State) (m : Mem) : (setMem s m).qu = s.qu := rfl
@[simp] theorem setMem_en (s : State) (m : Mem) : (setMem s m).en = s.en := rfl
@[simp] theorem setMem_fa (s : State) (m : Mem) : (setMem s m).fa = s.fa := rfl
@[simp] theorem setMem_bd (s : State) (m : Mem) : (setMem s m).bd = s.bd := rfl
@[simp] theorem setMem_halted (s : State) (m : Mem) : (setMem s m).halted = s.halted := rfl
@[simp] theorem setMem_cur (s : State) (m : Mem) : (setMem s m).cur = s.cur := rfl
@[simp] theorem setMem_agenda (s : State) (m : Mem) : (setMem s m).agenda = s.agenda := rfl
@[simp] theorem setMem_nextId (s : State) (m : Mem) : (setMem s m).nextId = s.nextId := rfl

@[simp] theorem setLine_ex (s : State) (n : Nat) (l : Line) : (setLine s n l).ex = s.ex := rfl
@[simp] theorem setLine_tr (s : State) (n : Nat) (l : Line) : (setLine s n l).tr = s.tr := rfl
@[simp] theorem setLine_qu (s : State) (n : Nat) (l : Line) : (setLine s n l).qu = s.qu := rfl
@[simp] theorem setLine_en (s : State) (n : Nat) (l : Line) : (setLine s n l).en = s.en := rfl
@[simp] theorem setLine_fa (s : State) (n : Nat) (l : Line) : (setLine s n l).fa = s.fa := rfl
@[simp] theorem setLine_bd (s : State) (n : Nat) (l : Line) : (setLine s n l).bd = s.bd := rfl
@[simp] theorem setLine_halted (s : State) (n : Nat) (l : Line) : (setLine s n l).halted = s.halted := rfl
@[simp] theorem setLine_cur (s : State) (n : Nat) (l : Line) : (setLine s n l).cur = s.cur := rfl
@[simp] theorem setLine_agenda (s : State) (n : Nat) (l : Line) : (setLine s n l).agenda = s.agenda := rfl
@[simp] theorem setLine_nextId (s : State) (n : Nat) (l : Line) : (setLine s n l).nextId = s.nextId := rfl

@[simp] theorem perf_mm (s : State) (u n c b : Nat) : (perf s u n c b).mm = s.mm := rfl
@[simp] theorem perf_ex (s : State) (u n c b : Nat) : (perf s u n c b).ex = s.ex := rfl
@[simp] theorem perf_tr (s : State) (u n c b : Nat) : (perf s u n c b).tr = s.tr := rfl
@[simp] theorem perf_qu (s : State) (u n c b : Nat) : (perf s u n c b).qu = s.qu := rfl
@[simp] theorem perf_en (s : State) (u n c b : Nat) : (perf s u n c b).en = s.en := rfl
@[simp] theorem perf_fa (s : State) (u n c b : Nat) : (perf s u n c b).fa = s.fa := rfl
@[simp] theorem perf_halted (s : State) (u n c b : Nat) : (perf s u n c b).halted = s.halted := rfl
@[simp] theorem perf_cur (s : State) (u n c b : Nat) : (perf s u n c b).cur = s.cur := rfl
@[simp] theorem perf_agenda (s : State) (u n c b : Nat) : (perf s u n c b).agenda = s.agenda := rfl
@[simp] theorem perf_nextId (s : State) (u n c b : Nat) : (perf s u n c b).nextId = s.nextId := rfl

@[simp] theorem post_mm (s : State) (a b c d e : Nat) : (post s a b c d e).mm = s.mm := rfl
@[simp] theorem post_ex (s : State) (a b c d e : Nat) : (post s a b c d e).ex = s.ex := rfl
@[simp] theorem post_tr (s : State) (a b c d e : Nat) : (post s a b c d e).tr = s.tr := rfl
@[simp] theorem post_qu (s : State) (a b c d e : Nat) : (post s a b c d e).qu = s.qu := rfl
@[simp] theorem post_en (s : State) (a b c d e : Nat) : (post s a b c d e).en = s.en := rfl
@[simp] theorem post_fa (s : State) (a b c d e : Nat) : (post s a b c d e).fa = s.fa := rfl
@[simp] theorem post_halted (s : State) (a b c d e : Nat) : (post s a b c d e).halted = s.halted := rfl
@[simp] theorem post_cur (s : State) (a b c d e : Nat) : (post s a b c d e).cur = s.cur := rfl
@[simp] theorem post_agenda (s : State) (a b c d e : Nat) : (post s a b c d e).agenda = s.agenda := rfl
@[simp] theorem post_nextId (s : State) (a b c d e : Nat) : (post s a b c d e).nextId = s.nextId := rfl

@[simp] theorem done_mm (s : State) : (done s).mm = s.mm := rfl
@[simp] theorem done_ex (s : State) : (done s).ex = s.ex := rfl
@[simp] theorem done_tr (s : State) : (done s).tr = s.tr := rfl
@[simp] theorem done_qu (s : State) : (done s).qu = s.qu := rfl
@[simp] theorem done_en (s : State) : (done s).en = s.en := rfl
@[simp] theorem done_fa (s : State) : (done s).fa = s.fa := rfl
@[simp] theorem done_bd (s : State) : (done s).bd = s.bd := rfl
@[simp] theorem done_halted (s : State) : (done s).halted = s.halted := rfl
@[simp] theorem done_agenda (s : State) : (done s).agenda = s.agenda := rfl
@[simp] theorem done_nextId (s : State) : (done s).nextId = s.nextId := rfl

@[simp] theorem leaveBundle_mm (s : State) (k : Nat) : (leaveBundle s k).mm = s.mm := rfl
@[simp] theorem leaveBundle_tr (s : State) (k : Nat) : (leaveBundle s k).tr = s.tr := rfl
@[simp] theorem leaveBundle_qu (s : State) (k : Nat) : (leaveBundle s k).qu = s.qu := rfl
@[simp] theorem leaveBundle_en (s : State) (k : Nat) : (leaveBundle s k).en = s.en := rfl
@[simp] theorem leaveBundle_fa (s : State) (k : Nat) : (leaveBundle s k).fa = s.fa := rfl
@[simp] theorem leaveBundle_bd (s : State) (k : Nat) : (leaveBundle s k).bd = s.bd := rfl
@[simp] theorem leaveBundle_halted (s : State) (k : Nat) : (leaveBundle s k).halted = s.halted := rfl
@[simp] theorem leaveBundle_cur (s : State) (k : Nat) : (leaveBundle s k).cur = s.cur := rfl
@[simp] theorem leaveBundle_agenda (s : State) (k : Nat) : (leaveBundle s k).agenda = s.agenda := rfl
@[simp] theorem leaveBundle_nextId (s : State) (k : Nat) : (leaveBundle s k).nextId = s.nextId := rfl

@[simp] theorem setThread_ex_cores (s : State) (k : Nat) (t : Thread) : (setThread s k t).ex.cores = s.ex.cores := rfl
@[simp] theorem setThread_ex_teams (s : State) (k : Nat) (t : Thread) : (setThread s k t).ex.teams = s.ex.teams := rfl
@[simp] theorem setThread_ex_clusters (s : State) (k : Nat) (t : Thread) : (setThread s k t).ex.clusters = s.ex.clusters := rfl
@[simp] theorem setThread_ex_grids (s : State) (k : Nat) (t : Thread) : (setThread s k t).ex.grids = s.ex.grids := rfl
@[simp] theorem setThread_ex_matOps (s : State) (k : Nat) (t : Thread) : (setThread s k t).ex.matOps = s.ex.matOps := rfl
@[simp] theorem setThread_ex_code (s : State) (k : Nat) (t : Thread) : (setThread s k t).ex.code = s.ex.code := rfl
@[simp] theorem setThread_ex_ageMax (s : State) (k : Nat) (t : Thread) : (setThread s k t).ex.ageMax = s.ex.ageMax := rfl
@[simp] theorem setThread_ex_matNarrow (s : State) (k : Nat) (t : Thread) : (setThread s k t).ex.matNarrow = s.ex.matNarrow := rfl
@[simp] theorem setThread_ex_saved (s : State) (k : Nat) (t : Thread) : (setThread s k t).ex.saved = s.ex.saved := rfl

@[simp] theorem modThread_ex_cores (s : State) (k : Nat) (f : Thread → Thread) : (modThread s k f).ex.cores = s.ex.cores := rfl
@[simp] theorem modThread_ex_teams (s : State) (k : Nat) (f : Thread → Thread) : (modThread s k f).ex.teams = s.ex.teams := rfl
@[simp] theorem modThread_ex_clusters (s : State) (k : Nat) (f : Thread → Thread) : (modThread s k f).ex.clusters = s.ex.clusters := rfl
@[simp] theorem modThread_ex_grids (s : State) (k : Nat) (f : Thread → Thread) : (modThread s k f).ex.grids = s.ex.grids := rfl
@[simp] theorem modThread_ex_matOps (s : State) (k : Nat) (f : Thread → Thread) : (modThread s k f).ex.matOps = s.ex.matOps := rfl
@[simp] theorem modThread_ex_code (s : State) (k : Nat) (f : Thread → Thread) : (modThread s k f).ex.code = s.ex.code := rfl
@[simp] theorem modThread_ex_ageMax (s : State) (k : Nat) (f : Thread → Thread) : (modThread s k f).ex.ageMax = s.ex.ageMax := rfl
@[simp] theorem modThread_ex_matNarrow (s : State) (k : Nat) (f : Thread → Thread) : (modThread s k f).ex.matNarrow = s.ex.matNarrow := rfl
@[simp] theorem modThread_ex_saved (s : State) (k : Nat) (f : Thread → Thread) : (modThread s k f).ex.saved = s.ex.saved := rfl

@[simp] theorem modTeam_ex_cores (s : State) (k : Nat) (f : Team → Team) : (modTeam s k f).ex.cores = s.ex.cores := rfl
@[simp] theorem modTeam_ex_threads (s : State) (k : Nat) (f : Team → Team) : (modTeam s k f).ex.threads = s.ex.threads := rfl
@[simp] theorem modTeam_ex_clusters (s : State) (k : Nat) (f : Team → Team) : (modTeam s k f).ex.clusters = s.ex.clusters := rfl
@[simp] theorem modTeam_ex_grids (s : State) (k : Nat) (f : Team → Team) : (modTeam s k f).ex.grids = s.ex.grids := rfl
@[simp] theorem modTeam_ex_matOps (s : State) (k : Nat) (f : Team → Team) : (modTeam s k f).ex.matOps = s.ex.matOps := rfl
@[simp] theorem modTeam_ex_code (s : State) (k : Nat) (f : Team → Team) : (modTeam s k f).ex.code = s.ex.code := rfl
@[simp] theorem modTeam_ex_ageMax (s : State) (k : Nat) (f : Team → Team) : (modTeam s k f).ex.ageMax = s.ex.ageMax := rfl
@[simp] theorem modTeam_ex_matNarrow (s : State) (k : Nat) (f : Team → Team) : (modTeam s k f).ex.matNarrow = s.ex.matNarrow := rfl
@[simp] theorem modTeam_ex_saved (s : State) (k : Nat) (f : Team → Team) : (modTeam s k f).ex.saved = s.ex.saved := rfl

@[simp] theorem modCore_ex_threads (s : State) (k : Nat) (f : Core → Core) : (modCore s k f).ex.threads = s.ex.threads := rfl
@[simp] theorem modCore_ex_teams (s : State) (k : Nat) (f : Core → Core) : (modCore s k f).ex.teams = s.ex.teams := rfl
@[simp] theorem modCore_ex_clusters (s : State) (k : Nat) (f : Core → Core) : (modCore s k f).ex.clusters = s.ex.clusters := rfl
@[simp] theorem modCore_ex_grids (s : State) (k : Nat) (f : Core → Core) : (modCore s k f).ex.grids = s.ex.grids := rfl
@[simp] theorem modCore_ex_matOps (s : State) (k : Nat) (f : Core → Core) : (modCore s k f).ex.matOps = s.ex.matOps := rfl
@[simp] theorem modCore_ex_code (s : State) (k : Nat) (f : Core → Core) : (modCore s k f).ex.code = s.ex.code := rfl
@[simp] theorem modCore_ex_ageMax (s : State) (k : Nat) (f : Core → Core) : (modCore s k f).ex.ageMax = s.ex.ageMax := rfl
@[simp] theorem modCore_ex_matNarrow (s : State) (k : Nat) (f : Core → Core) : (modCore s k f).ex.matNarrow = s.ex.matNarrow := rfl
@[simp] theorem modCore_ex_saved (s : State) (k : Nat) (f : Core → Core) : (modCore s k f).ex.saved = s.ex.saved := rfl

@[simp] theorem modGrid_ex_cores (s : State) (k : Nat) (f : Grid → Grid) : (modGrid s k f).ex.cores = s.ex.cores := rfl
@[simp] theorem modGrid_ex_threads (s : State) (k : Nat) (f : Grid → Grid) : (modGrid s k f).ex.threads = s.ex.threads := rfl
@[simp] theorem modGrid_ex_teams (s : State) (k : Nat) (f : Grid → Grid) : (modGrid s k f).ex.teams = s.ex.teams := rfl
@[simp] theorem modGrid_ex_clusters (s : State) (k : Nat) (f : Grid → Grid) : (modGrid s k f).ex.clusters = s.ex.clusters := rfl
@[simp] theorem modGrid_ex_matOps (s : State) (k : Nat) (f : Grid → Grid) : (modGrid s k f).ex.matOps = s.ex.matOps := rfl
@[simp] theorem modGrid_ex_code (s : State) (k : Nat) (f : Grid → Grid) : (modGrid s k f).ex.code = s.ex.code := rfl
@[simp] theorem modGrid_ex_ageMax (s : State) (k : Nat) (f : Grid → Grid) : (modGrid s k f).ex.ageMax = s.ex.ageMax := rfl
@[simp] theorem modGrid_ex_matNarrow (s : State) (k : Nat) (f : Grid → Grid) : (modGrid s k f).ex.matNarrow = s.ex.matNarrow := rfl
@[simp] theorem modGrid_ex_saved (s : State) (k : Nat) (f : Grid → Grid) : (modGrid s k f).ex.saved = s.ex.saved := rfl

@[simp] theorem leaveBundle_ex_threads (s : State) (k : Nat) : (leaveBundle s k).ex.threads = s.ex.threads := rfl
@[simp] theorem leaveBundle_ex_teams (s : State) (k : Nat) : (leaveBundle s k).ex.teams = s.ex.teams := rfl
@[simp] theorem leaveBundle_ex_clusters (s : State) (k : Nat) : (leaveBundle s k).ex.clusters = s.ex.clusters := rfl
@[simp] theorem leaveBundle_ex_grids (s : State) (k : Nat) : (leaveBundle s k).ex.grids = s.ex.grids := rfl
@[simp] theorem leaveBundle_ex_matOps (s : State) (k : Nat) : (leaveBundle s k).ex.matOps = s.ex.matOps := rfl
@[simp] theorem leaveBundle_ex_code (s : State) (k : Nat) : (leaveBundle s k).ex.code = s.ex.code := rfl
@[simp] theorem leaveBundle_ex_ageMax (s : State) (k : Nat) : (leaveBundle s k).ex.ageMax = s.ex.ageMax := rfl
@[simp] theorem leaveBundle_ex_matNarrow (s : State) (k : Nat) : (leaveBundle s k).ex.matNarrow = s.ex.matNarrow := rfl
@[simp] theorem leaveBundle_ex_saved (s : State) (k : Nat) : (leaveBundle s k).ex.saved = s.ex.saved := rfl

@[simp] theorem setMem_mm_lines (s : State) (m : Mem) : (setMem s m).mm.lines = s.mm.lines := rfl
@[simp] theorem setMem_mm_memStamp (s : State) (m : Mem) : (setMem s m).mm.memStamp = s.mm.memStamp := rfl
@[simp] theorem setMem_mm_l1 (s : State) (m : Mem) : (setMem s m).mm.l1 = s.mm.l1 := rfl
@[simp] theorem setMem_mm_laurel (s : State) (m : Mem) : (setMem s m).mm.laurel = s.mm.laurel := rfl
@[simp] theorem setMem_mm_horizon (s : State) (m : Mem) : (setMem s m).mm.horizon = s.mm.horizon := rfl
@[simp] theorem setMem_mm_floor (s : State) (m : Mem) : (setMem s m).mm.floor = s.mm.floor := rfl
@[simp] theorem setMem_mm_maxWrite (s : State) (m : Mem) : (setMem s m).mm.maxWrite = s.mm.maxWrite := rfl
@[simp] theorem setMem_mm_openings (s : State) (m : Mem) : (setMem s m).mm.openings = s.mm.openings := rfl
@[simp] theorem setMem_mm_fills (s : State) (m : Mem) : (setMem s m).mm.fills = s.mm.fills := rfl
@[simp] theorem setMem_mm_versionGiB (s : State) (m : Mem) : (setMem s m).mm.versionGiB = s.mm.versionGiB := rfl
@[simp] theorem setMem_mm_spillGiB (s : State) (m : Mem) : (setMem s m).mm.spillGiB = s.mm.spillGiB := rfl

@[simp] theorem setLine_mm_mem (s : State) (n : Nat) (l : Line) : (setLine s n l).mm.mem = s.mm.mem := rfl
@[simp] theorem setLine_mm_memStamp (s : State) (n : Nat) (l : Line) : (setLine s n l).mm.memStamp = s.mm.memStamp := rfl
@[simp] theorem setLine_mm_l1 (s : State) (n : Nat) (l : Line) : (setLine s n l).mm.l1 = s.mm.l1 := rfl
@[simp] theorem setLine_mm_laurel (s : State) (n : Nat) (l : Line) : (setLine s n l).mm.laurel = s.mm.laurel := rfl
@[simp] theorem setLine_mm_horizon (s : State) (n : Nat) (l : Line) : (setLine s n l).mm.horizon = s.mm.horizon := rfl
@[simp] theorem setLine_mm_floor (s : State) (n : Nat) (l : Line) : (setLine s n l).mm.floor = s.mm.floor := rfl
@[simp] theorem setLine_mm_maxWrite (s : State) (n : Nat) (l : Line) : (setLine s n l).mm.maxWrite = s.mm.maxWrite := rfl
@[simp] theorem setLine_mm_openings (s : State) (n : Nat) (l : Line) : (setLine s n l).mm.openings = s.mm.openings := rfl
@[simp] theorem setLine_mm_fills (s : State) (n : Nat) (l : Line) : (setLine s n l).mm.fills = s.mm.fills := rfl
@[simp] theorem setLine_mm_versionGiB (s : State) (n : Nat) (l : Line) : (setLine s n l).mm.versionGiB = s.mm.versionGiB := rfl
@[simp] theorem setLine_mm_spillGiB (s : State) (n : Nat) (l : Line) : (setLine s n l).mm.spillGiB = s.mm.spillGiB := rfl

@[simp] theorem setMem_mem (s : State) (m : Mem) : (setMem s m).mm.mem = m := rfl
@[simp] theorem done_cur (s : State) : (done s).cur = none := rfl
@[simp] theorem perf_bd_clock (s : State) (u n c b : Nat) : (perf s u n c b).bd.clock = s.bd.clock := rfl
@[simp] theorem perf_bd_alarm (s : State) (u n c b : Nat) : (perf s u n c b).bd.alarm = s.bd.alarm := rfl
@[simp] theorem perf_bd_quietSince (s : State) (u n c b : Nat) : (perf s u n c b).bd.quietSince = s.bd.quietSince := rfl
@[simp] theorem perf_bd_eventQ (s : State) (u n c b : Nat) : (perf s u n c b).bd.eventQ = s.bd.eventQ := rfl
@[simp] theorem perf_bd_evWait (s : State) (u n c b : Nat) : (perf s u n c b).bd.evWait = s.bd.evWait := rfl
@[simp] theorem perf_bd_boxwood (s : State) (u n c b : Nat) : (perf s u n c b).bd.boxwood = s.bd.boxwood := rfl
@[simp] theorem perf_bd_posted (s : State) (u n c b : Nat) : (perf s u n c b).bd.posted = s.bd.posted := rfl
@[simp] theorem perf_bd_seqs (s : State) (u n c b : Nat) : (perf s u n c b).bd.seqs = s.bd.seqs := rfl
@[simp] theorem perf_bd_samples (s : State) (u n c b : Nat) : (perf s u n c b).bd.samples = s.bd.samples := rfl
@[simp] theorem perf_bd_corrected (s : State) (u n c b : Nat) : (perf s u n c b).bd.corrected = s.bd.corrected := rfl
@[simp] theorem perf_bd_refreshed (s : State) (u n c b : Nat) : (perf s u n c b).bd.refreshed = s.bd.refreshed := rfl
@[simp] theorem perf_bd_telemetry (s : State) (u n c b : Nat) : (perf s u n c b).bd.telemetry = s.bd.telemetry := rfl
@[simp] theorem perf_bd_badCores (s : State) (u n c b : Nat) : (perf s u n c b).bd.badCores = s.bd.badCores := rfl
@[simp] theorem perf_bd_mgmtPts (s : State) (u n c b : Nat) : (perf s u n c b).bd.mgmtPts = s.bd.mgmtPts := rfl
@[simp] theorem perf_bd_power (s : State) (u n c b : Nat) : (perf s u n c b).bd.power = s.bd.power := rfl
@[simp] theorem perf_bd_resetPending (s : State) (u n c b : Nat) : (perf s u n c b).bd.resetPending = s.bd.resetPending := rfl
@[simp] theorem perf_bd_images (s : State) (u n c b : Nat) : (perf s u n c b).bd.images = s.bd.images := rfl
@[simp] theorem perf_bd_flashCores (s : State) (u n c b : Nat) : (perf s u n c b).bd.flashCores = s.bd.flashCores := rfl
@[simp] theorem perf_bd_flashPorts (s : State) (u n c b : Nat) : (perf s u n c b).bd.flashPorts = s.bd.flashPorts := rfl
@[simp] theorem perf_bd_image (s : State) (u n c b : Nat) : (perf s u n c b).bd.image = s.bd.image := rfl
@[simp] theorem perf_bd_flashVersion (s : State) (u n c b : Nat) : (perf s u n c b).bd.flashVersion = s.bd.flashVersion := rfl
@[simp] theorem perf_bd_flashSpill (s : State) (u n c b : Nat) : (perf s u n c b).bd.flashSpill = s.bd.flashSpill := rfl
@[simp] theorem perf_bd_redfish (s : State) (u n c b : Nat) : (perf s u n c b).bd.redfish = s.bd.redfish := rfl

@[simp] theorem post_bd_clock (s : State) (a b c d e : Nat) : (post s a b c d e).bd.clock = s.bd.clock := rfl
@[simp] theorem post_bd_alarm (s : State) (a b c d e : Nat) : (post s a b c d e).bd.alarm = s.bd.alarm := rfl
@[simp] theorem post_bd_quietSince (s : State) (a b c d e : Nat) : (post s a b c d e).bd.quietSince = s.bd.quietSince := rfl
@[simp] theorem post_bd_eventQ (s : State) (a b c d e : Nat) : (post s a b c d e).bd.eventQ = s.bd.eventQ := rfl
@[simp] theorem post_bd_perf (s : State) (a b c d e : Nat) : (post s a b c d e).bd.perf = s.bd.perf := rfl
@[simp] theorem post_bd_samples (s : State) (a b c d e : Nat) : (post s a b c d e).bd.samples = s.bd.samples := rfl
@[simp] theorem post_bd_corrected (s : State) (a b c d e : Nat) : (post s a b c d e).bd.corrected = s.bd.corrected := rfl
@[simp] theorem post_bd_refreshed (s : State) (a b c d e : Nat) : (post s a b c d e).bd.refreshed = s.bd.refreshed := rfl
@[simp] theorem post_bd_telemetry (s : State) (a b c d e : Nat) : (post s a b c d e).bd.telemetry = s.bd.telemetry := rfl
@[simp] theorem post_bd_badCores (s : State) (a b c d e : Nat) : (post s a b c d e).bd.badCores = s.bd.badCores := rfl
@[simp] theorem post_bd_mgmtPts (s : State) (a b c d e : Nat) : (post s a b c d e).bd.mgmtPts = s.bd.mgmtPts := rfl
@[simp] theorem post_bd_power (s : State) (a b c d e : Nat) : (post s a b c d e).bd.power = s.bd.power := rfl
@[simp] theorem post_bd_resetPending (s : State) (a b c d e : Nat) : (post s a b c d e).bd.resetPending = s.bd.resetPending := rfl
@[simp] theorem post_bd_images (s : State) (a b c d e : Nat) : (post s a b c d e).bd.images = s.bd.images := rfl
@[simp] theorem post_bd_flashCores (s : State) (a b c d e : Nat) : (post s a b c d e).bd.flashCores = s.bd.flashCores := rfl
@[simp] theorem post_bd_flashPorts (s : State) (a b c d e : Nat) : (post s a b c d e).bd.flashPorts = s.bd.flashPorts := rfl
@[simp] theorem post_bd_image (s : State) (a b c d e : Nat) : (post s a b c d e).bd.image = s.bd.image := rfl
@[simp] theorem post_bd_flashVersion (s : State) (a b c d e : Nat) : (post s a b c d e).bd.flashVersion = s.bd.flashVersion := rfl
@[simp] theorem post_bd_flashSpill (s : State) (a b c d e : Nat) : (post s a b c d e).bd.flashSpill = s.bd.flashSpill := rfl
@[simp] theorem post_bd_redfish (s : State) (a b c d e : Nat) : (post s a b c d e).bd.redfish = s.bd.redfish := rfl

@[simp] theorem writeReg_team (t : Thread) (n : Nat) (x : Word) : (writeReg t n x).team = t.team := rfl
@[simp] theorem writeReg_pc (t : Thread) (n : Nat) (x : Word) : (writeReg t n x).pc = t.pc := rfl
@[simp] theorem writeReg_depth (t : Thread) (n : Nat) (x : Word) : (writeReg t n x).depth = t.depth := rfl
@[simp] theorem writeReg_age (t : Thread) (n : Nat) (x : Word) : (writeReg t n x).age = t.age := rfl
@[simp] theorem writeReg_group (t : Thread) (n : Nat) (x : Word) : (writeReg t n x).group = t.group := rfl
@[simp] theorem writeReg_glane (t : Thread) (n : Nat) (x : Word) : (writeReg t n x).glane = t.glane := rfl
@[simp] theorem writeReg_hlane (t : Thread) (n : Nat) (x : Word) : (writeReg t n x).hlane = t.hlane := rfl
@[simp] theorem writeReg_btag (t : Thread) (n : Nat) (x : Word) : (writeReg t n x).btag = t.btag := rfl
@[simp] theorem writeReg_runPos (t : Thread) (n : Nat) (x : Word) : (writeReg t n x).runPos = t.runPos := rfl
@[simp] theorem writeReg_st (t : Thread) (n : Nat) (x : Word) : (writeReg t n x).st = t.st := rfl
@[simp] theorem writeReg_waitOn (t : Thread) (n : Nat) (x : Word) : (writeReg t n x).waitOn = t.waitOn := rfl
@[simp] theorem writeReg_serial (t : Thread) (n : Nat) (x : Word) : (writeReg t n x).serial = t.serial := rfl
@[simp] theorem writeReg_dstop (t : Thread) (n : Nat) (x : Word) : (writeReg t n x).dstop = t.dstop := rfl
@[simp] theorem writeReg_yielded (t : Thread) (n : Nat) (x : Word) : (writeReg t n x).yielded = t.yielded := rfl
@[simp] theorem writeReg_stepping (t : Thread) (n : Nat) (x : Word) : (writeReg t n x).stepping = t.stepping := rfl
@[simp] theorem writeReg_preds (t : Thread) (n : Nat) (x : Word) : (writeReg t n x).preds = t.preds := rfl
@[simp] theorem writeReg_bts (t : Thread) (n : Nat) (x : Word) : (writeReg t n x).bts = t.bts := rfl
@[simp] theorem writeReg_capClk (t : Thread) (n : Nat) (x : Word) : (writeReg t n x).capClk = t.capClk := rfl
@[simp] theorem writeReg_capPts (t : Thread) (n : Nat) (x : Word) : (writeReg t n x).capPts = t.capPts := rfl
@[simp] theorem writeReg_fcode (t : Thread) (n : Nat) (x : Word) : (writeReg t n x).fcode = t.fcode := rfl
@[simp] theorem writeReg_faddr (t : Thread) (n : Nat) (x : Word) : (writeReg t n x).faddr = t.faddr := rfl
@[simp] theorem writeReg_fpc (t : Thread) (n : Nat) (x : Word) : (writeReg t n x).fpc = t.fpc := rfl
@[simp] theorem writeReg_serialSeen (t : Thread) (n : Nat) (x : Word) : (writeReg t n x).serialSeen = t.serialSeen := rfl
@[simp] theorem writeReg_ternBad (t : Thread) (n : Nat) (x : Word) : (writeReg t n x).ternBad = t.ternBad := rfl
@[simp] theorem writeReg_derivLost (t : Thread) (n : Nat) (x : Word) : (writeReg t n x).derivLost = t.derivLost := rfl
@[simp] theorem writeReg_snapx (t : Thread) (n : Nat) (x : Word) : (writeReg t n x).snapx = t.snapx := rfl
@[simp] theorem writeReg_preempted (t : Thread) (n : Nat) (x : Word) : (writeReg t n x).preempted = t.preempted := rfl
@[simp] theorem writeReg_txReason (t : Thread) (n : Nat) (x : Word) : (writeReg t n x).txReason = t.txReason := rfl
@[simp] theorem writeReg_pts (t : Thread) (n : Nat) (x : Word) : (writeReg t n x).pts = t.pts := rfl
@[simp] theorem writeReg_ops (t : Thread) (n : Nat) (x : Word) : (writeReg t n x).ops = t.ops := rfl
@[simp] theorem writeReg_bad (t : Thread) (n : Nat) (x : Word) : (writeReg t n x).bad = t.bad := rfl
@[simp] theorem writeReg_ldIssued (t : Thread) (n : Nat) (x : Word) : (writeReg t n x).ldIssued = t.ldIssued := rfl
@[simp] theorem writeReg_cpIssued (t : Thread) (n : Nat) (x : Word) : (writeReg t n x).cpIssued = t.cpIssued := rfl
@[simp] theorem writeReg_retF (t : Thread) (n : Nat) (x : Word) : (writeReg t n x).retF = t.retF := rfl
@[simp] theorem writeReg_tx (t : Thread) (n : Nat) (x : Word) : (writeReg t n x).tx = t.tx := rfl
@[simp] theorem writeReg_snap (t : Thread) (n : Nat) (x : Word) : (writeReg t n x).snap = t.snap := rfl
@[simp] theorem writeReg_revoked (t : Thread) (n : Nat) (x : Word) : (writeReg t n x).revoked = t.revoked := rfl
@[simp] theorem writeReg_frame (t : Thread) (n : Nat) (x : Word) : (writeReg t n x).frame = t.frame := rfl
@[simp] theorem writeReg_held (t : Thread) (n : Nat) (x : Word) : (writeReg t n x).held = t.held := rfl
@[simp] theorem writeReg_epoch (t : Thread) (n : Nat) (x : Word) : (writeReg t n x).epoch = t.epoch := rfl
@[simp] theorem writeReg_runEpoch (t : Thread) (n : Nat) (x : Word) : (writeReg t n x).runEpoch = t.runEpoch := rfl
@[simp] theorem writeReg_quiet (t : Thread) (n : Nat) (x : Word) : (writeReg t n x).quiet = t.quiet := rfl
@[simp] theorem writeReg_grants (t : Thread) (n : Nat) (x : Word) : (writeReg t n x).grants = t.grants := rfl
@[simp] theorem writeReg_buf (t : Thread) (n : Nat) (x : Word) : (writeReg t n x).buf = t.buf := rfl
@[simp] theorem writeReg_brk (t : Thread) (n : Nat) (x : Word) : (writeReg t n x).brk = t.brk := rfl

@[simp] theorem advance_team (t : Thread) (n : Nat) : (advance t n).team = t.team := rfl
@[simp] theorem advance_depth (t : Thread) (n : Nat) : (advance t n).depth = t.depth := rfl
@[simp] theorem advance_age (t : Thread) (n : Nat) : (advance t n).age = t.age := rfl
@[simp] theorem advance_group (t : Thread) (n : Nat) : (advance t n).group = t.group := rfl
@[simp] theorem advance_glane (t : Thread) (n : Nat) : (advance t n).glane = t.glane := rfl
@[simp] theorem advance_hlane (t : Thread) (n : Nat) : (advance t n).hlane = t.hlane := rfl
@[simp] theorem advance_btag (t : Thread) (n : Nat) : (advance t n).btag = t.btag := rfl
@[simp] theorem advance_st (t : Thread) (n : Nat) : (advance t n).st = t.st := rfl
@[simp] theorem advance_waitOn (t : Thread) (n : Nat) : (advance t n).waitOn = t.waitOn := rfl
@[simp] theorem advance_serial (t : Thread) (n : Nat) : (advance t n).serial = t.serial := rfl
@[simp] theorem advance_dstop (t : Thread) (n : Nat) : (advance t n).dstop = t.dstop := rfl
@[simp] theorem advance_yielded (t : Thread) (n : Nat) : (advance t n).yielded = t.yielded := rfl
@[simp] theorem advance_stepping (t : Thread) (n : Nat) : (advance t n).stepping = t.stepping := rfl
@[simp] theorem advance_regs (t : Thread) (n : Nat) : (advance t n).regs = t.regs := rfl
@[simp] theorem advance_tvalid (t : Thread) (n : Nat) : (advance t n).tvalid = t.tvalid := rfl
@[simp] theorem advance_preds (t : Thread) (n : Nat) : (advance t n).preds = t.preds := rfl
@[simp] theorem advance_bts (t : Thread) (n : Nat) : (advance t n).bts = t.bts := rfl
@[simp] theorem advance_capClk (t : Thread) (n : Nat) : (advance t n).capClk = t.capClk := rfl
@[simp] theorem advance_capPts (t : Thread) (n : Nat) : (advance t n).capPts = t.capPts := rfl
@[simp] theorem advance_fcode (t : Thread) (n : Nat) : (advance t n).fcode = t.fcode := rfl
@[simp] theorem advance_faddr (t : Thread) (n : Nat) : (advance t n).faddr = t.faddr := rfl
@[simp] theorem advance_fpc (t : Thread) (n : Nat) : (advance t n).fpc = t.fpc := rfl
@[simp] theorem advance_serialSeen (t : Thread) (n : Nat) : (advance t n).serialSeen = t.serialSeen := rfl
@[simp] theorem advance_ternBad (t : Thread) (n : Nat) : (advance t n).ternBad = t.ternBad := rfl
@[simp] theorem advance_derivLost (t : Thread) (n : Nat) : (advance t n).derivLost = t.derivLost := rfl
@[simp] theorem advance_snapx (t : Thread) (n : Nat) : (advance t n).snapx = t.snapx := rfl
@[simp] theorem advance_preempted (t : Thread) (n : Nat) : (advance t n).preempted = t.preempted := rfl
@[simp] theorem advance_txReason (t : Thread) (n : Nat) : (advance t n).txReason = t.txReason := rfl
@[simp] theorem advance_pts (t : Thread) (n : Nat) : (advance t n).pts = t.pts := rfl
@[simp] theorem advance_ops (t : Thread) (n : Nat) : (advance t n).ops = t.ops := rfl
@[simp] theorem advance_bad (t : Thread) (n : Nat) : (advance t n).bad = t.bad := rfl
@[simp] theorem advance_ldIssued (t : Thread) (n : Nat) : (advance t n).ldIssued = t.ldIssued := rfl
@[simp] theorem advance_cpIssued (t : Thread) (n : Nat) : (advance t n).cpIssued = t.cpIssued := rfl
@[simp] theorem advance_retF (t : Thread) (n : Nat) : (advance t n).retF = t.retF := rfl
@[simp] theorem advance_tx (t : Thread) (n : Nat) : (advance t n).tx = t.tx := rfl
@[simp] theorem advance_snap (t : Thread) (n : Nat) : (advance t n).snap = t.snap := rfl
@[simp] theorem advance_revoked (t : Thread) (n : Nat) : (advance t n).revoked = t.revoked := rfl
@[simp] theorem advance_frame (t : Thread) (n : Nat) : (advance t n).frame = t.frame := rfl
@[simp] theorem advance_held (t : Thread) (n : Nat) : (advance t n).held = t.held := rfl
@[simp] theorem advance_epoch (t : Thread) (n : Nat) : (advance t n).epoch = t.epoch := rfl
@[simp] theorem advance_runEpoch (t : Thread) (n : Nat) : (advance t n).runEpoch = t.runEpoch := rfl
@[simp] theorem advance_quiet (t : Thread) (n : Nat) : (advance t n).quiet = t.quiet := rfl
@[simp] theorem advance_grants (t : Thread) (n : Nat) : (advance t n).grants = t.grants := rfl
@[simp] theorem advance_buf (t : Thread) (n : Nat) : (advance t n).buf = t.buf := rfl
@[simp] theorem advance_rpoison (t : Thread) (n : Nat) : (advance t n).rpoison = t.rpoison := rfl
@[simp] theorem advance_brk (t : Thread) (n : Nat) : (advance t n).brk = t.brk := rfl

@[simp] theorem endRun_team (t : Thread) : (endRun t).team = t.team := rfl
@[simp] theorem endRun_pc (t : Thread) : (endRun t).pc = t.pc := rfl
@[simp] theorem endRun_depth (t : Thread) : (endRun t).depth = t.depth := rfl
@[simp] theorem endRun_age (t : Thread) : (endRun t).age = t.age := rfl
@[simp] theorem endRun_group (t : Thread) : (endRun t).group = t.group := rfl
@[simp] theorem endRun_glane (t : Thread) : (endRun t).glane = t.glane := rfl
@[simp] theorem endRun_hlane (t : Thread) : (endRun t).hlane = t.hlane := rfl
@[simp] theorem endRun_st (t : Thread) : (endRun t).st = t.st := rfl
@[simp] theorem endRun_waitOn (t : Thread) : (endRun t).waitOn = t.waitOn := rfl
@[simp] theorem endRun_serial (t : Thread) : (endRun t).serial = t.serial := rfl
@[simp] theorem endRun_dstop (t : Thread) : (endRun t).dstop = t.dstop := rfl
@[simp] theorem endRun_yielded (t : Thread) : (endRun t).yielded = t.yielded := rfl
@[simp] theorem endRun_stepping (t : Thread) : (endRun t).stepping = t.stepping := rfl
@[simp] theorem endRun_regs (t : Thread) : (endRun t).regs = t.regs := rfl
@[simp] theorem endRun_preds (t : Thread) : (endRun t).preds = t.preds := rfl
@[simp] theorem endRun_bts (t : Thread) : (endRun t).bts = t.bts := rfl
@[simp] theorem endRun_capClk (t : Thread) : (endRun t).capClk = t.capClk := rfl
@[simp] theorem endRun_capPts (t : Thread) : (endRun t).capPts = t.capPts := rfl
@[simp] theorem endRun_fcode (t : Thread) : (endRun t).fcode = t.fcode := rfl
@[simp] theorem endRun_faddr (t : Thread) : (endRun t).faddr = t.faddr := rfl
@[simp] theorem endRun_fpc (t : Thread) : (endRun t).fpc = t.fpc := rfl
@[simp] theorem endRun_serialSeen (t : Thread) : (endRun t).serialSeen = t.serialSeen := rfl
@[simp] theorem endRun_ternBad (t : Thread) : (endRun t).ternBad = t.ternBad := rfl
@[simp] theorem endRun_derivLost (t : Thread) : (endRun t).derivLost = t.derivLost := rfl
@[simp] theorem endRun_snapx (t : Thread) : (endRun t).snapx = t.snapx := rfl
@[simp] theorem endRun_preempted (t : Thread) : (endRun t).preempted = t.preempted := rfl
@[simp] theorem endRun_txReason (t : Thread) : (endRun t).txReason = t.txReason := rfl
@[simp] theorem endRun_pts (t : Thread) : (endRun t).pts = t.pts := rfl
@[simp] theorem endRun_ops (t : Thread) : (endRun t).ops = t.ops := rfl
@[simp] theorem endRun_bad (t : Thread) : (endRun t).bad = t.bad := rfl
@[simp] theorem endRun_ldIssued (t : Thread) : (endRun t).ldIssued = t.ldIssued := rfl
@[simp] theorem endRun_cpIssued (t : Thread) : (endRun t).cpIssued = t.cpIssued := rfl
@[simp] theorem endRun_retF (t : Thread) : (endRun t).retF = t.retF := rfl
@[simp] theorem endRun_tx (t : Thread) : (endRun t).tx = t.tx := rfl
@[simp] theorem endRun_snap (t : Thread) : (endRun t).snap = t.snap := rfl
@[simp] theorem endRun_revoked (t : Thread) : (endRun t).revoked = t.revoked := rfl
@[simp] theorem endRun_frame (t : Thread) : (endRun t).frame = t.frame := rfl
@[simp] theorem endRun_held (t : Thread) : (endRun t).held = t.held := rfl
@[simp] theorem endRun_epoch (t : Thread) : (endRun t).epoch = t.epoch := rfl
@[simp] theorem endRun_quiet (t : Thread) : (endRun t).quiet = t.quiet := rfl
@[simp] theorem endRun_grants (t : Thread) : (endRun t).grants = t.grants := rfl
@[simp] theorem endRun_buf (t : Thread) : (endRun t).buf = t.buf := rfl
@[simp] theorem endRun_rpoison (t : Thread) : (endRun t).rpoison = t.rpoison := rfl
@[simp] theorem endRun_brk (t : Thread) : (endRun t).brk = t.brk := rfl

@[simp] theorem writeBt_team (t : Thread) (b : BtIx) (x : Bt) : (writeBt t b x).team = t.team := rfl
@[simp] theorem writeBt_pc (t : Thread) (b : BtIx) (x : Bt) : (writeBt t b x).pc = t.pc := rfl
@[simp] theorem writeBt_depth (t : Thread) (b : BtIx) (x : Bt) : (writeBt t b x).depth = t.depth := rfl
@[simp] theorem writeBt_age (t : Thread) (b : BtIx) (x : Bt) : (writeBt t b x).age = t.age := rfl
@[simp] theorem writeBt_group (t : Thread) (b : BtIx) (x : Bt) : (writeBt t b x).group = t.group := rfl
@[simp] theorem writeBt_glane (t : Thread) (b : BtIx) (x : Bt) : (writeBt t b x).glane = t.glane := rfl
@[simp] theorem writeBt_hlane (t : Thread) (b : BtIx) (x : Bt) : (writeBt t b x).hlane = t.hlane := rfl
@[simp] theorem writeBt_btag (t : Thread) (b : BtIx) (x : Bt) : (writeBt t b x).btag = t.btag := rfl
@[simp] theorem writeBt_runPos (t : Thread) (b : BtIx) (x : Bt) : (writeBt t b x).runPos = t.runPos := rfl
@[simp] theorem writeBt_st (t : Thread) (b : BtIx) (x : Bt) : (writeBt t b x).st = t.st := rfl
@[simp] theorem writeBt_waitOn (t : Thread) (b : BtIx) (x : Bt) : (writeBt t b x).waitOn = t.waitOn := rfl
@[simp] theorem writeBt_serial (t : Thread) (b : BtIx) (x : Bt) : (writeBt t b x).serial = t.serial := rfl
@[simp] theorem writeBt_dstop (t : Thread) (b : BtIx) (x : Bt) : (writeBt t b x).dstop = t.dstop := rfl
@[simp] theorem writeBt_yielded (t : Thread) (b : BtIx) (x : Bt) : (writeBt t b x).yielded = t.yielded := rfl
@[simp] theorem writeBt_stepping (t : Thread) (b : BtIx) (x : Bt) : (writeBt t b x).stepping = t.stepping := rfl
@[simp] theorem writeBt_regs (t : Thread) (b : BtIx) (x : Bt) : (writeBt t b x).regs = t.regs := rfl
@[simp] theorem writeBt_tvalid (t : Thread) (b : BtIx) (x : Bt) : (writeBt t b x).tvalid = t.tvalid := rfl
@[simp] theorem writeBt_preds (t : Thread) (b : BtIx) (x : Bt) : (writeBt t b x).preds = t.preds := rfl
@[simp] theorem writeBt_capClk (t : Thread) (b : BtIx) (x : Bt) : (writeBt t b x).capClk = t.capClk := rfl
@[simp] theorem writeBt_capPts (t : Thread) (b : BtIx) (x : Bt) : (writeBt t b x).capPts = t.capPts := rfl
@[simp] theorem writeBt_fcode (t : Thread) (b : BtIx) (x : Bt) : (writeBt t b x).fcode = t.fcode := rfl
@[simp] theorem writeBt_faddr (t : Thread) (b : BtIx) (x : Bt) : (writeBt t b x).faddr = t.faddr := rfl
@[simp] theorem writeBt_fpc (t : Thread) (b : BtIx) (x : Bt) : (writeBt t b x).fpc = t.fpc := rfl
@[simp] theorem writeBt_serialSeen (t : Thread) (b : BtIx) (x : Bt) : (writeBt t b x).serialSeen = t.serialSeen := rfl
@[simp] theorem writeBt_ternBad (t : Thread) (b : BtIx) (x : Bt) : (writeBt t b x).ternBad = t.ternBad := rfl
@[simp] theorem writeBt_derivLost (t : Thread) (b : BtIx) (x : Bt) : (writeBt t b x).derivLost = t.derivLost := rfl
@[simp] theorem writeBt_snapx (t : Thread) (b : BtIx) (x : Bt) : (writeBt t b x).snapx = t.snapx := rfl
@[simp] theorem writeBt_preempted (t : Thread) (b : BtIx) (x : Bt) : (writeBt t b x).preempted = t.preempted := rfl
@[simp] theorem writeBt_txReason (t : Thread) (b : BtIx) (x : Bt) : (writeBt t b x).txReason = t.txReason := rfl
@[simp] theorem writeBt_pts (t : Thread) (b : BtIx) (x : Bt) : (writeBt t b x).pts = t.pts := rfl
@[simp] theorem writeBt_ops (t : Thread) (b : BtIx) (x : Bt) : (writeBt t b x).ops = t.ops := rfl
@[simp] theorem writeBt_bad (t : Thread) (b : BtIx) (x : Bt) : (writeBt t b x).bad = t.bad := rfl
@[simp] theorem writeBt_ldIssued (t : Thread) (b : BtIx) (x : Bt) : (writeBt t b x).ldIssued = t.ldIssued := rfl
@[simp] theorem writeBt_cpIssued (t : Thread) (b : BtIx) (x : Bt) : (writeBt t b x).cpIssued = t.cpIssued := rfl
@[simp] theorem writeBt_retF (t : Thread) (b : BtIx) (x : Bt) : (writeBt t b x).retF = t.retF := rfl
@[simp] theorem writeBt_tx (t : Thread) (b : BtIx) (x : Bt) : (writeBt t b x).tx = t.tx := rfl
@[simp] theorem writeBt_snap (t : Thread) (b : BtIx) (x : Bt) : (writeBt t b x).snap = t.snap := rfl
@[simp] theorem writeBt_revoked (t : Thread) (b : BtIx) (x : Bt) : (writeBt t b x).revoked = t.revoked := rfl
@[simp] theorem writeBt_frame (t : Thread) (b : BtIx) (x : Bt) : (writeBt t b x).frame = t.frame := rfl
@[simp] theorem writeBt_held (t : Thread) (b : BtIx) (x : Bt) : (writeBt t b x).held = t.held := rfl
@[simp] theorem writeBt_epoch (t : Thread) (b : BtIx) (x : Bt) : (writeBt t b x).epoch = t.epoch := rfl
@[simp] theorem writeBt_runEpoch (t : Thread) (b : BtIx) (x : Bt) : (writeBt t b x).runEpoch = t.runEpoch := rfl
@[simp] theorem writeBt_quiet (t : Thread) (b : BtIx) (x : Bt) : (writeBt t b x).quiet = t.quiet := rfl
@[simp] theorem writeBt_grants (t : Thread) (b : BtIx) (x : Bt) : (writeBt t b x).grants = t.grants := rfl
@[simp] theorem writeBt_buf (t : Thread) (b : BtIx) (x : Bt) : (writeBt t b x).buf = t.buf := rfl
@[simp] theorem writeBt_rpoison (t : Thread) (b : BtIx) (x : Bt) : (writeBt t b x).rpoison = t.rpoison := rfl
@[simp] theorem writeBt_brk (t : Thread) (b : BtIx) (x : Bt) : (writeBt t b x).brk = t.brk := rfl

@[simp] theorem writePred_team (t : Thread) (p : PredIx) (b : Bool) : (writePred t p b).team = t.team := by unfold writePred; split <;> rfl
@[simp] theorem writePred_pc (t : Thread) (p : PredIx) (b : Bool) : (writePred t p b).pc = t.pc := by unfold writePred; split <;> rfl
@[simp] theorem writePred_depth (t : Thread) (p : PredIx) (b : Bool) : (writePred t p b).depth = t.depth := by unfold writePred; split <;> rfl
@[simp] theorem writePred_age (t : Thread) (p : PredIx) (b : Bool) : (writePred t p b).age = t.age := by unfold writePred; split <;> rfl
@[simp] theorem writePred_group (t : Thread) (p : PredIx) (b : Bool) : (writePred t p b).group = t.group := by unfold writePred; split <;> rfl
@[simp] theorem writePred_glane (t : Thread) (p : PredIx) (b : Bool) : (writePred t p b).glane = t.glane := by unfold writePred; split <;> rfl
@[simp] theorem writePred_hlane (t : Thread) (p : PredIx) (b : Bool) : (writePred t p b).hlane = t.hlane := by unfold writePred; split <;> rfl
@[simp] theorem writePred_btag (t : Thread) (p : PredIx) (b : Bool) : (writePred t p b).btag = t.btag := by unfold writePred; split <;> rfl
@[simp] theorem writePred_runPos (t : Thread) (p : PredIx) (b : Bool) : (writePred t p b).runPos = t.runPos := by unfold writePred; split <;> rfl
@[simp] theorem writePred_st (t : Thread) (p : PredIx) (b : Bool) : (writePred t p b).st = t.st := by unfold writePred; split <;> rfl
@[simp] theorem writePred_waitOn (t : Thread) (p : PredIx) (b : Bool) : (writePred t p b).waitOn = t.waitOn := by unfold writePred; split <;> rfl
@[simp] theorem writePred_serial (t : Thread) (p : PredIx) (b : Bool) : (writePred t p b).serial = t.serial := by unfold writePred; split <;> rfl
@[simp] theorem writePred_dstop (t : Thread) (p : PredIx) (b : Bool) : (writePred t p b).dstop = t.dstop := by unfold writePred; split <;> rfl
@[simp] theorem writePred_yielded (t : Thread) (p : PredIx) (b : Bool) : (writePred t p b).yielded = t.yielded := by unfold writePred; split <;> rfl
@[simp] theorem writePred_stepping (t : Thread) (p : PredIx) (b : Bool) : (writePred t p b).stepping = t.stepping := by unfold writePred; split <;> rfl
@[simp] theorem writePred_regs (t : Thread) (p : PredIx) (b : Bool) : (writePred t p b).regs = t.regs := by unfold writePred; split <;> rfl
@[simp] theorem writePred_tvalid (t : Thread) (p : PredIx) (b : Bool) : (writePred t p b).tvalid = t.tvalid := by unfold writePred; split <;> rfl
@[simp] theorem writePred_bts (t : Thread) (p : PredIx) (b : Bool) : (writePred t p b).bts = t.bts := by unfold writePred; split <;> rfl
@[simp] theorem writePred_capClk (t : Thread) (p : PredIx) (b : Bool) : (writePred t p b).capClk = t.capClk := by unfold writePred; split <;> rfl
@[simp] theorem writePred_capPts (t : Thread) (p : PredIx) (b : Bool) : (writePred t p b).capPts = t.capPts := by unfold writePred; split <;> rfl
@[simp] theorem writePred_fcode (t : Thread) (p : PredIx) (b : Bool) : (writePred t p b).fcode = t.fcode := by unfold writePred; split <;> rfl
@[simp] theorem writePred_faddr (t : Thread) (p : PredIx) (b : Bool) : (writePred t p b).faddr = t.faddr := by unfold writePred; split <;> rfl
@[simp] theorem writePred_fpc (t : Thread) (p : PredIx) (b : Bool) : (writePred t p b).fpc = t.fpc := by unfold writePred; split <;> rfl
@[simp] theorem writePred_serialSeen (t : Thread) (p : PredIx) (b : Bool) : (writePred t p b).serialSeen = t.serialSeen := by unfold writePred; split <;> rfl
@[simp] theorem writePred_ternBad (t : Thread) (p : PredIx) (b : Bool) : (writePred t p b).ternBad = t.ternBad := by unfold writePred; split <;> rfl
@[simp] theorem writePred_derivLost (t : Thread) (p : PredIx) (b : Bool) : (writePred t p b).derivLost = t.derivLost := by unfold writePred; split <;> rfl
@[simp] theorem writePred_snapx (t : Thread) (p : PredIx) (b : Bool) : (writePred t p b).snapx = t.snapx := by unfold writePred; split <;> rfl
@[simp] theorem writePred_preempted (t : Thread) (p : PredIx) (b : Bool) : (writePred t p b).preempted = t.preempted := by unfold writePred; split <;> rfl
@[simp] theorem writePred_txReason (t : Thread) (p : PredIx) (b : Bool) : (writePred t p b).txReason = t.txReason := by unfold writePred; split <;> rfl
@[simp] theorem writePred_pts (t : Thread) (p : PredIx) (b : Bool) : (writePred t p b).pts = t.pts := by unfold writePred; split <;> rfl
@[simp] theorem writePred_ops (t : Thread) (p : PredIx) (b : Bool) : (writePred t p b).ops = t.ops := by unfold writePred; split <;> rfl
@[simp] theorem writePred_bad (t : Thread) (p : PredIx) (b : Bool) : (writePred t p b).bad = t.bad := by unfold writePred; split <;> rfl
@[simp] theorem writePred_ldIssued (t : Thread) (p : PredIx) (b : Bool) : (writePred t p b).ldIssued = t.ldIssued := by unfold writePred; split <;> rfl
@[simp] theorem writePred_cpIssued (t : Thread) (p : PredIx) (b : Bool) : (writePred t p b).cpIssued = t.cpIssued := by unfold writePred; split <;> rfl
@[simp] theorem writePred_retF (t : Thread) (p : PredIx) (b : Bool) : (writePred t p b).retF = t.retF := by unfold writePred; split <;> rfl
@[simp] theorem writePred_tx (t : Thread) (p : PredIx) (b : Bool) : (writePred t p b).tx = t.tx := by unfold writePred; split <;> rfl
@[simp] theorem writePred_snap (t : Thread) (p : PredIx) (b : Bool) : (writePred t p b).snap = t.snap := by unfold writePred; split <;> rfl
@[simp] theorem writePred_revoked (t : Thread) (p : PredIx) (b : Bool) : (writePred t p b).revoked = t.revoked := by unfold writePred; split <;> rfl
@[simp] theorem writePred_frame (t : Thread) (p : PredIx) (b : Bool) : (writePred t p b).frame = t.frame := by unfold writePred; split <;> rfl
@[simp] theorem writePred_held (t : Thread) (p : PredIx) (b : Bool) : (writePred t p b).held = t.held := by unfold writePred; split <;> rfl
@[simp] theorem writePred_epoch (t : Thread) (p : PredIx) (b : Bool) : (writePred t p b).epoch = t.epoch := by unfold writePred; split <;> rfl
@[simp] theorem writePred_runEpoch (t : Thread) (p : PredIx) (b : Bool) : (writePred t p b).runEpoch = t.runEpoch := by unfold writePred; split <;> rfl
@[simp] theorem writePred_quiet (t : Thread) (p : PredIx) (b : Bool) : (writePred t p b).quiet = t.quiet := by unfold writePred; split <;> rfl
@[simp] theorem writePred_brk (t : Thread) (p : PredIx) (b : Bool) : (writePred t p b).brk = t.brk := by unfold writePred; split <;> rfl
@[simp] theorem writePred_grants (t : Thread) (p : PredIx) (b : Bool) : (writePred t p b).grants = t.grants := by unfold writePred; split <;> rfl
@[simp] theorem writePred_buf (t : Thread) (p : PredIx) (b : Bool) : (writePred t p b).buf = t.buf := by unfold writePred; split <;> rfl
@[simp] theorem writePred_rpoison (t : Thread) (p : PredIx) (b : Bool) : (writePred t p b).rpoison = t.rpoison := by unfold writePred; split <;> rfl

/-! Threads of the state. -/

@[simp] theorem getThread_setThread (s : State) (k j : Nat) (t : Thread) :
    getThread (setThread s k t) j = if j = k then some t else getThread s j := tget_tset _ _ _ _

@[simp] theorem getThread_modThread (s : State) (k j : Nat) (f : Thread → Thread) :
    getThread (modThread s k f) j = if j = k then (getThread s k).map f else getThread s j := tget_tmod _ _ _ _

theorem getThread_of_threads {s u : State} (h : u.ex.threads = s.ex.threads) (k : Nat) : getThread u k = getThread s k := by
  simp [getThread, h]

@[simp] theorem getThread_leaveBundle (s : State) (k j : Nat) : getThread (leaveBundle s k) j = getThread s j := rfl
@[simp] theorem getThread_perf (s : State) (a b c d j : Nat) : getThread (perf s a b c d) j = getThread s j := rfl
@[simp] theorem getThread_post (s : State) (a b c d e j : Nat) : getThread (post s a b c d e) j = getThread s j := rfl
@[simp] theorem getThread_done (s : State) (j : Nat) : getThread (done s) j = getThread s j := rfl
@[simp] theorem getThread_modCore (s : State) (c j : Nat) (f : Core → Core) : getThread (modCore s c f) j = getThread s j := rfl

/-! Registers and predicates of a thread. -/

/-- A register read after a register is written. -/
@[simp] theorem readReg_writeReg (t : Thread) (n m : Nat) (x : Word) :
    readReg (writeReg t n x) m = if m = n then x else readReg t m := by
  simp only [readReg, writeReg, tget_tset]
  split <;> rfl

/-- A register read after a pair is written. -/
theorem readReg_writePair (t : Thread) (n x m : Nat) :
    readReg (writePair t n x) m =
      if m = n + 1 then BitVec.ofNat 32 (x / 2 ^ 32) else if m = n then BitVec.ofNat 32 x else readReg t m := by
  simp only [writePair, readReg_writeReg]

/-- A register read after a span is written. -/
theorem readReg_writeSpan (xs : List Word) (t : Thread) (n m : Nat) :
    readReg (writeSpan t n xs) m = if n ≤ m ∧ m < n + xs.length then xs[m - n]?.getD 0 else readReg t m := by
  induction xs generalizing t n with
  | nil => simp only [writeSpan, List.length_nil, Nat.add_zero]; split
           · omega
           · rfl
  | cons x xs ih =>
    simp only [writeSpan, ih, readReg_writeReg, List.length_cons]
    by_cases hm : m = n
    · subst hm; simp
    · by_cases h : n + 1 ≤ m ∧ m < n + 1 + xs.length
      · have h1 : n ≤ m ∧ m < n + (xs.length + 1) := by omega
        have h2 : m - n = (m - (n + 1)) + 1 := by omega
        simp only [h, h1, and_self, if_true, h2, List.getElem?_cons_succ]
      · have h1 : ¬ (n ≤ m ∧ m < n + (xs.length + 1)) := by omega
        simp only [h, h1, if_false, hm]

@[simp] theorem readPred_writeReg (t : Thread) (n : Nat) (x : Word) (p : PredIx) : readPred (writeReg t n x) p = readPred t p := rfl

@[simp] theorem readReg_writePred (t : Thread) (p : PredIx) (b : Bool) (n : Nat) : readReg (writePred t p b) n = readReg t n := by
  unfold writePred; split <;> rfl

/-- p0 reads true (R50). -/
@[simp] theorem readPred_zero (t : Thread) : readPred t 0 = true := rfl

/-- A predicate read after a predicate is written; a write to p0 is ignored (R50, R58). -/
theorem readPred_writePred (t : Thread) (p q : PredIx) (b : Bool) :
    readPred (writePred t p b) q = if q = p ∧ p ≠ 0 then b else readPred t q := by
  unfold writePred
  by_cases hp : p = 0
  · simp [hp]
  · simp only [hp, if_false, readPred, tget_tset, BitVec.toNat_inj, ne_eq, not_false_eq_true, and_true]
    by_cases hq : q = p
    · subst hq; simp; intro h; exact absurd h hp
    · simp [hq]

/-- A branch-target register read after one is written. -/
theorem readBt_writeBt (t : Thread) (b c : BtIx) (x : Bt) : readBt (writeBt t b x) c = if c = b then x else readBt t c := by
  simp only [readBt, writeBt, tget_tset, BitVec.toNat_inj]
  split <;> rfl

/-- A core read after one is changed. -/
theorem getCore_modCore (s : State) (k n : Nat) (f : Core → Core) : getCore (modCore s k f) n = if n = k then f (getCore s k) else getCore s n := by
  simp only [getCore, modCore, tget_tset]
  split <;> rfl

end Sys2Proof.Machine
end

