-- ==== Sys2Proof/Laws/Words.lean ====
section
/-! SUPPORT. Words.lean: what an instruction word whose lanes all execute it leaves: the frame of every register word, once. -/

namespace Sys2Proof.Machine

theorem OnlyLanes.rfl' (s : State) : OnlyLanes s s :=
  ⟨rfl, rfl, rfl, rfl, rfl, rfl, rfl, rfl, rfl, rfl, rfl, rfl, rfl, rfl, rfl, rfl, rfl, fun _ => rfl⟩

theorem OnlyLanes.trans {s u v : State} (h : OnlyLanes s u) (g : OnlyLanes u v) : OnlyLanes s v where
  mm := g.mm.trans h.mm
  tr := g.tr.trans h.tr
  qu := g.qu.trans h.qu
  en := g.en.trans h.en
  fa := g.fa.trans h.fa
  bd := g.bd.trans h.bd
  halted := g.halted.trans h.halted
  agenda := g.agenda.trans h.agenda
  nextId := g.nextId.trans h.nextId
  teams := g.teams.trans h.teams
  clusters := g.clusters.trans h.clusters
  grids := g.grids.trans h.grids
  matOps := g.matOps.trans h.matOps
  code := g.code.trans h.code
  ageMax := g.ageMax.trans h.ageMax
  matNarrow := g.matNarrow.trans h.matNarrow
  saved := g.saved.trans h.saved
  cores n := (g.cores n).trans (h.cores n)

theorem OnlyLanes.setThread (s : State) (k : Nat) (t : Thread) : OnlyLanes s (setThread s k t) :=
  ⟨rfl, rfl, rfl, rfl, rfl, rfl, rfl, rfl, rfl, rfl, rfl, rfl, rfl, rfl, rfl, rfl, rfl, fun _ => rfl⟩

theorem OnlyLanes.leaveBundle (s : State) (k : Nat) : OnlyLanes s (leaveBundle s k) :=
  ⟨rfl, rfl, rfl, rfl, rfl, rfl, rfl, rfl, rfl, rfl, rfl, rfl, rfl, rfl, rfl, rfl, rfl, fun n => by simp only [Machine.leaveBundle, getCore_modCore]; split <;> simp_all⟩

theorem OnlyLanes.done (s : State) : OnlyLanes s (done s) :=
  ⟨rfl, rfl, rfl, rfl, rfl, rfl, rfl, rfl, rfl, rfl, rfl, rfl, rfl, rfl, rfl, rfl, rfl, fun _ => rfl⟩

/-- What the checks of a word look at in the state stays. -/
theorem ready_of_only {s u : State} {w : WordSpec} {t : Thread} (h : OnlyLanes s u) : ready u w t = ready s w t := by
  have hg : gridOf u t = gridOf s t := by simp only [gridOf, h.teams, h.grids]
  simp only [ready, hg]

theorem OnlyLanes.completeLane (s : State) (k n : Nat) (b : Bool) : OnlyLanes s (completeLane s k n b) := by
  unfold Machine.completeLane
  split
  · exact OnlyLanes.rfl' s
  · split
    · exact (OnlyLanes.setThread _ _ _).trans (OnlyLanes.leaveBundle _ _)
    · exact OnlyLanes.setThread _ _ _

theorem getThread_completeLane {s : State} {k : Nat} {t : Thread} (w : WordSpec) (c : Ctx) (h : getThread s k = some t) (j : Nat) :
    getThread (completeLane s k c.words w.ends) j = if j = k then some (finish w c t) else getThread s j := by
  unfold completeLane finish
  simp only [h]
  split
  · simp only [getThread_leaveBundle, getThread_setThread]
  · simp only [getThread_setThread]

/-- One lane that executes a word. -/
theorem laneStep_ok {w : WordSpec} {c : Ctx} {body : State → Nat → Thread → LaneOut} {s : State} {k : Nat} {t u : Thread}
    (h : getThread s k = some t) (hr : ready s w t = true) (hb : body s k (schedQuiet s c t) = .ok (setThread s k u)) :
    OnlyLanes s (laneStep w c body s k) ∧
      ∀ j, getThread (laneStep w c body s k) j = if j = k then some (finish w c u) else getThread s j := by
  have hs : laneStep w c body s k = completeLane (setThread s k u) k c.words w.ends := by
    simp only [ready, Bool.and_eq_true, Bool.not_eq_true', Option.isNone_iff_eq_none] at hr
    obtain ⟨⟨⟨⟨h1, h2⟩, h3⟩, h4⟩, h5⟩ := hr
    simp [laneStep, h, h1, h2, h3, h4, h5, hb]
  rw [hs]
  refine ⟨(OnlyLanes.setThread _ _ _).trans (OnlyLanes.completeLane _ _ _ _), fun j => ?_⟩
  rw [getThread_completeLane w c (t := u) (by simp), getThread_setThread]
  split <;> rfl

/-- A bundle whose every lane executes a register word. -/
theorem laneLoop_ok {w : WordSpec} {c : Ctx} {body : State → Nat → Thread → LaneOut} {g : Thread → Thread} {s₀ : State}
    (P : Nat → Thread → Prop)
    (hb : ∀ k t s, P k t → getThread s k = some t → OnlyLanes s₀ s → body s k (schedQuiet s c t) = .ok (setThread s k (g t))) :
    ∀ (ks : List Nat) (s : State), ks.Nodup → OnlyLanes s₀ s → (∀ k ∈ ks, ∃ t, P k t ∧ getThread s k = some t ∧ ready s₀ w t = true) →
      OnlyLanes s₀ (laneLoop (laneStep w c body) s ks) ∧
        (∀ k ∈ ks, ∀ t, getThread s k = some t → getThread (laneLoop (laneStep w c body) s ks) k = some (finish w c (g t))) ∧
        ∀ k, k ∉ ks → getThread (laneLoop (laneStep w c body) s ks) k = getThread s k := by
  intro ks
  induction ks with
  | nil => intro s _ h _; exact ⟨h, fun k hk => absurd hk List.not_mem_nil, fun _ _ => rfl⟩
  | cons k ks ih =>
    intro s hn hs hl
    obtain ⟨hk, hn⟩ := List.nodup_cons.mp hn
    obtain ⟨t, hp, ht, hr⟩ := hl k List.mem_cons_self
    obtain ⟨h1, h2⟩ := laneStep_ok ht ((ready_of_only hs).trans hr) (hb k t s hp ht hs)
    have hother (j : Nat) (hj : j ≠ k) : getThread (laneStep w c body s k) j = getThread s j := by rw [h2 j, if_neg hj]
    have hne (j : Nat) (hj : j ∈ ks) : j ≠ k := fun e => hk (e ▸ hj)
    obtain ⟨i1, i2, i3⟩ := ih (laneStep w c body s k) hn (hs.trans h1) fun j hj => by
      rw [hother j (hne j hj)]; exact hl j (List.mem_cons_of_mem _ hj)
    refine ⟨i1, fun j hj tj hjt => ?_, fun j hj => ?_⟩
    · rcases List.mem_cons.mp hj with rfl | hj
      · simp only [laneLoop]
        rw [i3 j hk, h2 j, if_pos rfl]
        rw [ht] at hjt; rw [Option.some.inj hjt]
      · exact i2 j hj tj (by rw [hother j (hne j hj), hjt])
    · simp only [laneLoop]
      rw [i3 j fun h => hj (List.mem_cons_of_mem _ h), hother j fun e => hj (e ▸ List.mem_cons_self)]

/-- What a register word does where every lane of its bundle executes it: the next state, in which nothing but the lanes
has changed and each of them is what `g` makes of it. -/
theorem regWord_runs {w : WordSpec} {f : LaneFn} {s : State} {c : Ctx} {ks : List Nat} (g : Thread → Thread) (h : Issues w c ks s)
    (hf : ∀ t s', OnlyLanes s s' → f c s' (schedQuiet s' c t) = .ok (g t)) :
    ∃ u, regWord w f s = .next u ∧ u.cur = none ∧ OnlyLanes s u ∧
      (∀ k ∈ ks, ∀ t, getThread s k = some t → getThread u k = some (finish w c (g t))) ∧
      ∀ k, k ∉ ks → getThread u k = getThread s k := by
  obtain ⟨h1, h2, h3⟩ := laneLoop_ok (w := w) (g := g) (body := fun s k t => match f c s t with
      | .ok t' => .ok (setThread s k t')
      | .error code => .fault code 0) (fun _ _ => True)
    (fun k t s' _ _ ho => (congrArg (fun x : Except Nat Thread => match x with
      | .ok t' => LaneOut.ok (setThread s' k t')
      | .error code => .fault code 0) (hf t s' ho) :)) ks s h.nodup (OnlyLanes.rfl' s)
    fun k hk => (h.lanes k hk).imp fun _ p => ⟨trivial, p⟩
  refine ⟨_, ?_, rfl, h1.trans (OnlyLanes.done _), h2, h3⟩
  simp only [regWord, issueWord, issueGo, h.go]
  all_goals rfl

/-- The lanes of a register word, from what `g` makes of a thread. -/
theorem laneIs_finish {w : WordSpec} {c : Ctx} {t g : Thread} (hp : g.preds = t.preds) (hb : g.bts = t.bts)
    (hpc : g.pc = t.pc) (hr : g.rest = t.rest) : LaneIs c t (finish w c g) (readReg g) (readPred t) (readBt t) := by
  have h5 : (finish w c g).rest = g.rest := by unfold finish; simp only []; split <;> rfl
  refine ⟨fun n => ?_, fun q => ?_, fun q => ?_, ?_, h5.trans hr⟩
  · unfold finish; simp only []; split <;> rfl
  · simp only [readPred, ← hp]; unfold finish; simp only []; split <;> rfl
  · simp only [readBt, ← hb]; unfold finish; simp only []; split <;> rfl
  · rw [← hpc]; unfold finish; simp only []; split <;> rfl

/-- QUIET is all that HINT.SCHED sets in a thread (R196). -/
theorem schedQuiet_eq (s : State) (c : Ctx) (t : Thread) : schedQuiet s c t = { t with quiet := (schedQuiet s c t).quiet } := by
  unfold schedQuiet; split <;> rfl

/-- A register word that puts one value into one register. -/
theorem writesRegs_put {w : WordSpec} {i : Instr} {f : LaneFn} {d : Reg} {x : Ctx → State → Thread → Word}
    (he : ∀ s, exec i s = regWord w f s)
    (hf : ∀ c s s' t, OnlyLanes s s' → f c s' (schedQuiet s' c t) = .ok (writeReg (schedQuiet s' c t) d.toNat (x c s t))) :
    WritesRegs w i fun c s t => set1 t d (x c s t) := by
  intro s c ks h
  have hq (t : Thread) (s' : State) (ho : OnlyLanes s s') : schedQuiet s' c t = schedQuiet s c t := by
    simp only [schedQuiet, ho.bd]
  obtain ⟨u, h1, h2, h3, h4, h5⟩ := regWord_runs (f := f) (fun t => writeReg (schedQuiet s c t) d.toNat (x c s t)) h
    fun t s' ho => by rw [hf c s s' t ho, hq t s' ho]
  refine ⟨u, (he s).trans h1, h2, h3, fun k hk t ht => ⟨_, h4 k hk t ht, ?_⟩, h5⟩
  have e := schedQuiet_eq s c t
  have := laneIs_finish (w := w) (c := c) (t := t) (g := writeReg (schedQuiet s c t) d.toNat (x c s t)) (by rw [e]; rfl) (by rw [e]; rfl)
    (by rw [e]; rfl) (by rw [e]; rfl)
  refine ⟨fun n => ?_, this.preds, this.bts, this.pc, this.rest⟩
  rw [this.regs n, readReg_writeReg, e]
  simp only [set1, Function.update_apply]
  rfl

/-- A word of two sources and one destination. -/
theorem writesRegs_bin {i : Instr} {d a b : Reg} {f : Word → Word → Word} (he : ∀ s, exec i s = bin d a b f s) :
    WritesRegs (opSpec [sp1 a, sp1 b] [sp1 d]) i fun _ _ t => set1 t d (f (rd t a) (rd t b)) :=
  writesRegs_put he fun c s s' t _ => by rw [schedQuiet_eq]; rfl

/-- A word of one source and one destination. -/
theorem writesRegs_un {i : Instr} {d a : Reg} {f : Word → Word} (he : ∀ s, exec i s = un d a f s) :
    WritesRegs (opSpec [sp1 a] [sp1 d]) i fun _ _ t => set1 t d (f (rd t a)) :=
  writesRegs_put he fun c s s' t _ => by rw [schedQuiet_eq]; rfl

/-- A lane that executes a word does what the word's body says (R57). -/
theorem laneStep_ready {w : WordSpec} {c : Ctx} {body : State → Nat → Thread → LaneOut} {s : State} {k : Nat} {t : Thread}
    (h : getThread s k = some t) (hr : ready s w t = true) :
    laneStep w c body s k = match body s k (schedQuiet s c t) with
      | .fault code addr => deliver s k code addr c.fpc
      | .faultIn s code addr => deliver s k code addr c.fpc
      | .ok s => completeLane s k c.words w.ends
      | .wait s => leaveBundle s k := by
  simp only [ready, Bool.and_eq_true, Bool.not_eq_true', Option.isNone_iff_eq_none] at hr
  obtain ⟨⟨⟨⟨h1, h2⟩, h3⟩, h4⟩, h5⟩ := hr
  simp [laneStep, h, h1, h2, h3, h4, h5]
  all_goals (cases body s k (schedQuiet s c t) <;> rfl)

theorem LaneEnds.setThread (s : State) (k : Nat) (t : Thread) : LaneEnds k s t (setThread s k t) :=
  ⟨OnlyLanes.setThread s k t, by simp, fun j h => by simp [h]⟩

theorem LaneEnds.leaveBundle {k : Nat} {s u : State} {v : Thread} (h : LaneEnds k s v u) : LaneEnds k s v (leaveBundle u k) :=
  ⟨h.only.trans (OnlyLanes.leaveBundle u k), by simpa using h.mine, fun j hj => by simpa using h.others j hj⟩

theorem LaneEnds.done {k : Nat} {s u : State} {v : Thread} (h : LaneEnds k s v u) : LaneEnds k s v (done u) :=
  ⟨h.only.trans (OnlyLanes.done u), h.mine, h.others⟩

/-- A lane that completes its word. -/
theorem LaneEnds.completeLane (w : WordSpec) (c : Ctx) (s : State) (k : Nat) (t : Thread) :
    LaneEnds k s (finish w c t) (completeLane (Machine.setThread s k t) k c.words w.ends) := by
  refine ⟨(OnlyLanes.setThread s k t).trans (OnlyLanes.completeLane _ _ _ _), ?_, fun j hj => ?_⟩
  · rw [getThread_completeLane w c (t := t) (by simp), if_pos rfl]
  · rw [getThread_completeLane w c (t := t) (by simp), if_neg hj]; simp [hj]

/-- A lane that completes its word, from what its body made of the state and the thread. -/
theorem laneStep_completes {w : WordSpec} {c : Ctx} {body : State → Nat → Thread → LaneOut} {s s' : State} {k : Nat} {t t' : Thread}
    (h : getThread s k = some t) (hr : ready s w t = true) (hb : body s k (schedQuiet s c t) = .ok (setThread s' k t')) :
    LaneEnds k s' (finish w c t') (laneStep w c body s k) := by
  rw [laneStep_ready h hr, hb]
  exact LaneEnds.completeLane w c s' k t'

/-- A lane that stands at its word. -/
theorem laneStep_waits {w : WordSpec} {c : Ctx} {body : State → Nat → Thread → LaneOut} {s s' : State} {k : Nat} {t t' : Thread}
    (h : getThread s k = some t) (hr : ready s w t = true) (hb : body s k (schedQuiet s c t) = .wait (setThread s' k t')) :
    LaneEnds k s' t' (laneStep w c body s k) := by
  rw [laneStep_ready h hr, hb]
  exact (LaneEnds.setThread s' k t').leaveBundle

/-- A word with an effect in each lane is one that acts lane by lane. -/
theorem issueWord_lanes {w : WordSpec} {i : Instr} {body : Ctx → State → Nat → Thread → LaneOut} {s : State}
    {post : Ctx → State → Nat → Thread → State → Prop} (he : exec i s = issueWord w body s)
    (hp : ∀ c u k t, getThread u k = some t → ready u w t = true → post c u k (schedQuiet u c t) (laneStep w c (body c) u k)) :
    LaneByLane s w i always (fun _ => s) post := by
  intro c ks hg _
  refine ⟨laneStep w c (body c), ?_, hp c⟩
  rw [he]
  simp only [issueWord, issueGo, hg]

/-- A register word acts lane by lane. -/
theorem regWord_lanes {w : WordSpec} {i : Instr} {f : LaneFn} {s : State}
    {post : Ctx → State → Nat → Thread → State → Prop} (he : exec i s = regWord w f s)
    (hp : ∀ c u k t, getThread u k = some t → ready u w t = true → post c u k (schedQuiet u c t) (laneStep w c (fun s k t => match f c s t with
      | .ok t' => .ok (setThread s k t')
      | .error code => .fault code 0) u k)) :
    LaneByLane s w i always (fun _ => s) post := issueWord_lanes he hp

end Sys2Proof.Machine
end

