-- ==== Sys2Proof/Laws/Agents.lean ====
section
/-! SUPPORT. Agents.lean: everything that an access at a home can change, and what an agent's read and write come to where the
agent reaches its bytes. -/

namespace Sys2Proof.Machine

/-- A thread but for its snapshots: what a revocation leaves of it (R232). -/
structure Kept (t v : Thread) : Prop where
  same : v = { t with ops := v.ops, snap := v.snap, revoked := v.revoked, txReason := v.txReason, tx := v.tx }
  ops : ∃ g : Op → Op, v.ops = t.ops.map g ∧ ∀ o, (g o).id = o.id ∧ (g o).complete = o.complete ∧ (g o).cnt = o.cnt ∧
    (g o).finish = o.finish ∧ (o.snap = none → g o = o)

theorem Kept.refl (t : Thread) : Kept t t := ⟨rfl, id, by simp, by simp⟩

theorem Kept.trans {t u v : Thread} (h : Kept t u) (k : Kept u v) : Kept t v := by
  obtain ⟨h1, g, hg, hp⟩ := h
  obtain ⟨k1, f, hf, hq⟩ := k
  refine ⟨?_, f ∘ g, by rw [hf, hg, List.map_map], fun o => ?_⟩
  · rw [h1] at k1; exact k1
  · obtain ⟨a, b, c, d, e⟩ := hp o
    obtain ⟨a', b', c', d', e'⟩ := hq (g o)
    refine ⟨a'.trans a, b'.trans b, c'.trans c, d'.trans d, fun hs => ?_⟩
    have := e hs
    simp only [Function.comp_apply, this]
    rw [this] at e'; exact e' hs

/-- What an access at a home leaves as it was: everything but memory, the snapshots of threads and grids, and what is
counted, posted and owed. -/
structure HomeFrame (s u : State) : Prop where
  tr : u.tr = s.tr
  qu : u.qu = s.qu
  en : u.en = s.en
  fa : { u.fa with due := s.fa.due, path := s.fa.path } = s.fa
  clock : u.bd.clock = s.bd.clock
  power : u.bd.power = s.bd.power
  cores : u.ex.cores = s.ex.cores
  teams : u.ex.teams = s.ex.teams
  clusters : u.ex.clusters = s.ex.clusters
  matOps : u.ex.matOps = s.ex.matOps
  code : u.ex.code = s.ex.code
  cur : u.cur = s.cur
  agenda : u.agenda = s.agenda
  grids : ∀ n, (tget u.ex.grids n).map (fun g => { g with snapRevoked := false }) = (tget s.ex.grids n).map fun g => { g with snapRevoked := false }
  threads : ∀ k t, getThread s k = some t → ∃ v, getThread u k = some v ∧ Kept t v
  absent : ∀ k, getThread s k = none → getThread u k = none

theorem HomeFrame.refl (s : State) : HomeFrame s s :=
  ⟨rfl, rfl, rfl, rfl, rfl, rfl, rfl, rfl, rfl, rfl, rfl, rfl, rfl, fun _ => rfl, fun _ t h => ⟨t, h, Kept.refl t⟩, fun _ h => h⟩

theorem HomeFrame.trans {s u v : State} (h : HomeFrame s u) (k : HomeFrame u v) : HomeFrame s v where
  tr := k.tr.trans h.tr
  qu := k.qu.trans h.qu
  en := k.en.trans h.en
  fa := by have a := h.fa; have b := k.fa; rw [← a, ← b]
  clock := k.clock.trans h.clock
  power := k.power.trans h.power
  cores := k.cores.trans h.cores
  teams := k.teams.trans h.teams
  clusters := k.clusters.trans h.clusters
  matOps := k.matOps.trans h.matOps
  code := k.code.trans h.code
  cur := k.cur.trans h.cur
  agenda := k.agenda.trans h.agenda
  grids n := (k.grids n).trans (h.grids n)
  threads n t e := by
    obtain ⟨x, hx, a⟩ := h.threads n t e
    obtain ⟨y, hy, b⟩ := k.threads n x hx
    exact ⟨y, hy, a.trans b⟩
  absent n e := k.absent n (h.absent n e)

/-- A change of memory and of what its homes keep, alone. -/
theorem HomeFrame.ofMm (s : State) (m : MemSys) : HomeFrame s { s with mm := m } :=
  ⟨rfl, rfl, rfl, rfl, rfl, rfl, rfl, rfl, rfl, rfl, rfl, rfl, rfl, fun _ => rfl, fun _ t h => ⟨t, h, Kept.refl t⟩, fun _ h => h⟩

theorem HomeFrame.setLine (s : State) (ln : Nat) (l : Line) : HomeFrame s (setLine s ln l) := HomeFrame.ofMm s _
theorem HomeFrame.setMem (s : State) (m : Mem) : HomeFrame s (setMem s m) := HomeFrame.ofMm s _
theorem HomeFrame.raiseFloor (s : State) (w : Nat) : HomeFrame s (raiseFloor s w) := HomeFrame.ofMm s _

/-- A change of what is counted, posted, or made ready to send, alone. -/
theorem HomeFrame.ofSide (s : State) (m : MemSys) (p : Tab Nat) (d : List Frame) (n : Nat) :
    HomeFrame s { s with mm := m, bd := { s.bd with perf := p }, fa := { s.fa with due := d }, nextId := n } :=
  ⟨rfl, rfl, rfl, rfl, rfl, rfl, rfl, rfl, rfl, rfl, rfl, rfl, rfl, fun _ => rfl, fun _ t h => ⟨t, h, Kept.refl t⟩, fun _ h => h⟩

theorem HomeFrame.perf (s : State) (a b c d : Nat) : HomeFrame s (perf s a b c d) := HomeFrame.ofSide s s.mm _ s.fa.due s.nextId
theorem HomeFrame.post (s : State) (a b c d e : Nat) : HomeFrame s (post s a b c d e) :=
  ⟨rfl, rfl, rfl, rfl, rfl, rfl, rfl, rfl, rfl, rfl, rfl, rfl, rfl, fun _ => rfl, fun _ t h => ⟨t, h, Kept.refl t⟩, fun _ h => h⟩

/-- A state reached by steps that each keep the frame. -/
theorem HomeFrame.foldl {α : Type} {f : State → α → State} (hf : ∀ s x, HomeFrame s (f s x)) (l : List α) (s : State) : HomeFrame s (l.foldl f s) := by
  induction l generalizing s with
  | nil => exact HomeFrame.refl s
  | cons x l ih => exact (hf s x).trans (ih _)

/-- A request of the host path. -/
theorem HomeFrame.hostPath (s : State) (k pa : Nat) (bs : List Byte) : HomeFrame s (hostPath s k pa bs) :=
  ⟨rfl, rfl, rfl, rfl, rfl, rfl, rfl, rfl, rfl, rfl, rfl, rfl, rfl, fun _ => rfl, fun _ t h => ⟨t, h, Kept.refl t⟩, fun _ h => h⟩

theorem HomeFrame.readHost (s : State) (pa n : Nat) : HomeFrame s (readHost s pa n) := by
  unfold Machine.readHost; split
  · exact HomeFrame.hostPath s _ _ _
  · exact HomeFrame.refl s

theorem HomeFrame.writeHost (s : State) (pa : Nat) (bs : List Byte) : HomeFrame s (writeHost s pa bs) := by
  unfold Machine.writeHost; split
  · exact HomeFrame.hostPath s _ _ _
  · exact HomeFrame.refl s

@[simp] theorem readHost_mm (s : State) (pa n : Nat) : (readHost s pa n).mm = s.mm := by unfold readHost; split <;> rfl
@[simp] theorem writeHost_mm (s : State) (pa : Nat) (bs : List Byte) : (writeHost s pa bs).mm = s.mm := by unfold writeHost; split <;> rfl

theorem HomeFrame.noteStamp (s : State) (ln ts : Nat) : HomeFrame s (noteStamp s ln ts) := by
  unfold Machine.noteStamp
  split
  · exact (HomeFrame.post s _ _ _ _ _).trans
      ⟨rfl, rfl, rfl, rfl, rfl, rfl, rfl, rfl, rfl, rfl, rfl, rfl, rfl, fun _ => rfl, fun _ t h => ⟨t, h, Kept.refl t⟩, fun _ h => h⟩
  · exact HomeFrame.refl s

@[simp] theorem noteStamp_mm (s : State) (ln ts : Nat) : (noteStamp s ln ts).mm = s.mm := by
  unfold noteStamp; split <;> rfl

theorem HomeFrame.noteFill (s : State) (ln : Nat) : HomeFrame s (noteFill s ln) := by
  unfold Machine.noteFill; simp only []; split
  · exact HomeFrame.ofMm s _
  · exact HomeFrame.refl s

theorem HomeFrame.touchLine (s : State) (ln : Nat) : HomeFrame s (touchLine s ln) := by
  unfold Machine.touchLine; split
  · exact HomeFrame.noteFill s ln
  · split
    · exact HomeFrame.perf s _ _ _ _
    · exact (HomeFrame.noteFill s ln).trans ((HomeFrame.perf _ _ _ _ _).trans (HomeFrame.perf _ _ _ _ _))

theorem HomeFrame.dirty (s : State) (ln : Nat) : HomeFrame s (dirty s ln) := by
  unfold Machine.dirty; split
  · exact HomeFrame.refl s
  · exact HomeFrame.setLine s _ _

theorem HomeFrame.foldLine (s : State) (ln : Nat) : HomeFrame s (foldLine s ln) := by
  unfold Machine.foldLine
  split
  · exact HomeFrame.refl s
  · exact (HomeFrame.dirty s ln).trans (HomeFrame.ofSide _ _ _ _ _)

theorem Kept.settle (s : State) (S : Nat) (t : Thread) : Kept t (settleThread s S t) := by
  refine ⟨rfl, _, rfl, fun o => ?_⟩
  split
  · split
    · refine ⟨rfl, rfl, rfl, rfl, fun h => ?_⟩
      simp_all
    · exact ⟨rfl, rfl, rfl, rfl, fun _ => rfl⟩
  · exact ⟨rfl, rfl, rfl, rfl, fun _ => rfl⟩

theorem Kept.revoke (s : State) (S : Nat) (t : Thread) : Kept t (revokeThread s S t) := by
  refine (Kept.settle s S t).trans ?_
  unfold revokeThread
  simp only []
  repeat' split
  all_goals exact ⟨rfl, id, by simp, by simp⟩

theorem HomeFrame.mapThreads (s : State) {f : Thread → Thread} (h : ∀ t, Kept t (f t)) : HomeFrame s (mapThreads s f) := by
  refine ⟨rfl, rfl, rfl, rfl, rfl, rfl, rfl, rfl, rfl, rfl, rfl, rfl, rfl, fun _ => rfl, fun k t e => ⟨f t, ?_, h t⟩, fun k e => ?_⟩
  · exact (tget_map s.ex.threads f k).trans (by rw [show tget s.ex.threads k = some t from e]; rfl)
  · exact (tget_map s.ex.threads f k).trans (by rw [show tget s.ex.threads k = none from e]; rfl)

theorem HomeFrame.leaseAll (s : State) (S : Nat) (l : List Nat) : HomeFrame s (leaseAll s S l) := HomeFrame.foldl (fun s _ => HomeFrame.setLine s _ _) l s

theorem HomeFrame.freeRecords (s : State) (sel : Nat → Version → Bool) : HomeFrame s (freeRecords s sel) := HomeFrame.ofMm s _

theorem HomeFrame.dropSnap (s : State) (S : Nat) : HomeFrame s (dropSnap s S) := by
  refine ⟨rfl, rfl, rfl, rfl, rfl, rfl, rfl, rfl, rfl, rfl, rfl, rfl, rfl, fun n => ?_, fun _ t h => ⟨t, h, Kept.refl t⟩, fun _ h => h⟩
  have h := tget_map s.ex.grids (fun g : Grid => if g.snap = some S then { g with snapRevoked := true } else g) n
  refine (congrArg (Option.map fun g : Grid => { g with snapRevoked := false }) h).trans ?_
  rw [Option.map_map]
  congr 1
  funext g
  simp only [Function.comp_apply]
  split <;> rfl

theorem HomeFrame.revoke (s : State) (S : Nat) : HomeFrame s (revoke s S) :=
  (HomeFrame.leaseAll s S _).trans ((HomeFrame.dropSnap _ S).trans ((HomeFrame.mapThreads _ (Kept.revoke _ S)).trans
    ((HomeFrame.freeRecords _ _).trans (HomeFrame.post _ _ _ _ _ _))))

theorem HomeFrame.revokeReaders (n : Nat) (s : State) (a b : Nat) : HomeFrame s (revokeReaders n s a b) := by
  induction n generalizing s with
  | zero => exact HomeFrame.refl s
  | succ n ih =>
    unfold Machine.revokeReaders
    split
    · exact (HomeFrame.revoke s _).trans (ih _)
    · exact HomeFrame.refl s

theorem HomeFrame.dropOldest (s : State) (ln : Nat) : HomeFrame s (dropOldest s ln) := by
  unfold Machine.dropOldest
  simp only []
  split
  · exact HomeFrame.refl s
  · exact (HomeFrame.revokeReaders _ s _ _).trans ((HomeFrame.setLine _ _ _).trans (HomeFrame.raiseFloor _ _))

theorem HomeFrame.moveOldest (s : State) (d : Nat) : HomeFrame s (moveOldest s d) := by
  unfold Machine.moveOldest; split
  · exact HomeFrame.refl s
  · exact (HomeFrame.foldl (fun _ _ => (HomeFrame.perf _ _ _ _ _).trans (HomeFrame.perf _ _ _ _ _)) _ s).trans (HomeFrame.ofMm _ _)

theorem HomeFrame.makeRoom (n : Nat) (s : State) (d : Nat) : HomeFrame s (makeRoom n s d) := by
  induction n generalizing s with
  | zero => exact HomeFrame.refl s
  | succ n ih =>
    unfold Machine.makeRoom
    split
    · exact HomeFrame.refl s
    · split
      · exact HomeFrame.moveOldest s d
      · split
        · exact (HomeFrame.revoke s _).trans ((HomeFrame.freeRecords _ _).trans (ih _))
        · exact HomeFrame.refl s

theorem HomeFrame.keepVersion (s : State) (ln : Nat) : HomeFrame s (keepVersion s ln) :=
  (HomeFrame.perf s _ _ _ _).trans ((HomeFrame.setLine _ _ _).trans (HomeFrame.ofSide _ _ _ _ _))

theorem HomeFrame.placeFor (s : State) (ln ts : Nat) : HomeFrame s (placeFor s ln ts) := by
  have drop (s : State) : HomeFrame s (if needed s ln ts = true ∧ Config.recordsPerLine ≤ (getLine s ln).recs.length then Machine.dropOldest s ln else s) := by
    split
    · exact HomeFrame.dropOldest s ln
    · exact HomeFrame.refl s
  refine HomeFrame.trans ?_ (drop _)
  split
  · exact HomeFrame.makeRoom _ s _
  · exact HomeFrame.refl s

theorem HomeFrame.supersede (s : State) (ln ts : Nat) : HomeFrame s (supersede s ln ts) := by
  unfold Machine.supersede
  split
  · exact HomeFrame.refl s
  · refine (HomeFrame.placeFor s ln ts).trans ?_
    simp only []
    split
    · exact HomeFrame.keepVersion _ ln
    · exact HomeFrame.raiseFloor _ ts

/-- A write at a home. -/
theorem HomeFrame.writeWith (s : State) (p pa : Nat) (whole : Bool) (f : Mem → Mem) : HomeFrame s (writeWith s p pa whole f).2 :=
  (HomeFrame.touchLine s _).trans ((HomeFrame.foldLine _ _).trans ((HomeFrame.supersede _ _ _).trans ((HomeFrame.dirty _ _).trans
    ((HomeFrame.setMem _ _).trans ((HomeFrame.setLine _ _ _).trans ((HomeFrame.ofMm _ _).trans (HomeFrame.noteStamp _ _ _)))))))

/-- A store at a home. -/
theorem HomeFrame.writeAt (s : State) (p pa : Nat) (bs : List Byte) (c : Bool) : HomeFrame s (writeAt s p pa bs c).2 :=
  (HomeFrame.writeHost s pa bs).trans (HomeFrame.writeWith _ p pa _ _)

/-- A load at a home. -/
theorem HomeFrame.loadAt (s : State) (p pa n : Nat) : HomeFrame s (loadAt s p pa n).2 :=
  (HomeFrame.readHost s pa n).trans ((HomeFrame.touchLine _ _).trans ((HomeFrame.foldLine _ _).trans ((HomeFrame.setLine _ _ _).trans (HomeFrame.noteStamp _ _ _))))

/-- An atomic at a home. -/
theorem HomeFrame.rmwAt (s : State) (p pa n : Nat) (f : Rmw) (x : Nat) : HomeFrame s (rmwAt s p pa n f x).2 := by
  unfold Machine.rmwAt
  simp only []
  split
  · exact (HomeFrame.readHost s pa n).trans (HomeFrame.foldLine _ _)
  · split
    · exact (HomeFrame.readHost s pa n).trans ((HomeFrame.foldLine _ _).trans (HomeFrame.writeAt _ _ _ _ _))
    · refine (HomeFrame.readHost s pa n).trans ((HomeFrame.foldLine _ (pa / 128)).trans ?_)
      exact (HomeFrame.touchLine _ _).trans ((HomeFrame.setLine _ _ _).trans ((HomeFrame.noteStamp _ _ _).trans (HomeFrame.writeHost _ _ _)))

/-! Memory. -/

/-- A line read after it is set: a host line has its stamps at the host port, its poison and its records under its own number, no
deltas and no older bytes in a slice (R202, R308). -/
@[simp] theorem getLine_setLine (s : State) (ln : Nat) (l : Line) :
    getLine (setLine s ln l) ln = if isHost (ln * 128) then { l with delta := none, back := none } else l := by
  unfold getLine setLine
  cases h : isHost (ln * 128)
  · simp
  · have hk : ln ≠ 0xFFFFFFFFFF := fun e => by subst e; exact absurd h (by decide)
    obtain ⟨w, r, p, recs, dl, bk, own⟩ := l
    by_cases hc : p = true ∨ recs ≠ [] ∨ own.isSome = true
    · simp [putHostLine, lineKey, h, tget_tset, Ne.symm hk, hc]
    · simp only [not_or, Bool.not_eq_true, not_not, Option.isSome_eq_false_iff, Option.isNone_iff_eq_none] at hc
      obtain ⟨rfl, rfl, rfl⟩ := hc
      simp [putHostLine, lineKey, h, tget_tdel, Ne.symm hk]

@[simp] theorem getLine_setLine_wts (s : State) (ln : Nat) (l : Line) : (getLine (setLine s ln l) ln).wts = l.wts := by
  rw [getLine_setLine]; split <;> rfl
@[simp] theorem getLine_setLine_rts (s : State) (ln : Nat) (l : Line) : (getLine (setLine s ln l) ln).rts = l.rts := by
  rw [getLine_setLine]; split <;> rfl
@[simp] theorem getLine_setLine_poison (s : State) (ln : Nat) (l : Line) : (getLine (setLine s ln l) ln).poison = l.poison := by
  rw [getLine_setLine]; split <;> rfl
@[simp] theorem getLine_setLine_recs (s : State) (ln : Nat) (l : Line) : (getLine (setLine s ln l) ln).recs = l.recs := by
  rw [getLine_setLine]; split <;> rfl

@[simp] theorem touchLine_mem (s : State) (ln : Nat) : (touchLine s ln).mm.mem = s.mm.mem := by
  unfold touchLine noteFill; simp only []; repeat' split
  all_goals rfl

@[simp] theorem touchLine_lines (s : State) (ln : Nat) : (touchLine s ln).mm.lines = s.mm.lines := by
  unfold touchLine noteFill; simp only []; repeat' split
  all_goals rfl

@[simp] theorem touchLine_memStamp (s : State) (ln : Nat) : (touchLine s ln).mm.memStamp = s.mm.memStamp := by
  unfold touchLine noteFill; simp only []; repeat' split
  all_goals rfl

/-- Reading a line looks at the lines and the memory stamps alone. -/
theorem getLine_congr {s u : State} (h1 : u.mm.lines = s.mm.lines) (h2 : u.mm.memStamp = s.mm.memStamp) (ln : Nat) : getLine u ln = getLine s ln := by
  simp only [getLine, h1, h2]

@[simp] theorem getLine_touchLine (s : State) (ln n : Nat) : getLine (touchLine s ln) n = getLine s n := getLine_congr (by simp) (by simp) n

theorem getLine_dirty (s : State) (ln : Nat) : ∃ b, getLine (dirty s ln) ln = { getLine s ln with back := b } := by
  unfold dirty
  split
  · exact ⟨_, rfl⟩
  · rename_i h
    simp only [Bool.or_eq_true, not_or, Bool.not_eq_true] at h
    simp only [getLine_setLine, h.1]; exact ⟨_, rfl⟩

/-- A fold leaves a line's stamps, records and poison, and no delta (R222). -/
theorem getLine_foldLine (s : State) (ln : Nat) : ∃ b, getLine (foldLine s ln) ln = { getLine s ln with delta := none, back := b } := by
  unfold foldLine
  split
  · rename_i h; exact ⟨_, by rw [← h]⟩
  · obtain ⟨b, hb⟩ := getLine_dirty s ln
    have hc (d : Delta) : getLine { setMem (dirty s ln) (d.elems.foldl (fun m e => foldElem m ln e) (dirty s ln).mm.mem) with
        fa := { (dirty s ln).fa with due := (dirty s ln).fa.due ++ d.owe } } ln = { getLine s ln with back := b } := hb
    refine ⟨if isHost (ln * 128) then none else b, ?_⟩
    refine (getLine_setLine _ ln _).trans ?_
    split
    · exact congrArg (fun l : Line => { l with delta := none, back := none }) (hc _)
    · exact congrArg (fun l : Line => { l with delta := none }) (hc _)

theorem foldLine_none {s : State} {ln : Nat} (h : (getLine s ln).delta = none) : foldLine s ln = s := by
  unfold foldLine; rw [h]

@[simp] theorem dirty_mem (s : State) (ln : Nat) : (dirty s ln).mm.mem = s.mm.mem := by
  unfold dirty; split <;> rfl

@[simp] theorem leaseAll_mem (s : State) (S : Nat) (l : List Nat) : (leaseAll s S l).mm.mem = s.mm.mem := by
  unfold leaseAll
  induction l generalizing s with
  | nil => rfl
  | cons x l ih => exact (ih _).trans rfl

@[simp] theorem revoke_mem (s : State) (S : Nat) : (revoke s S).mm.mem = s.mm.mem := leaseAll_mem s S _

@[simp] theorem revokeReaders_mem (n : Nat) (s : State) (a b : Nat) : (revokeReaders n s a b).mm.mem = s.mm.mem := by
  induction n generalizing s with
  | zero => rfl
  | succ n ih => unfold revokeReaders; split <;> simp [ih]

theorem foldPerf_mm {α : Type} (f : State → α → State) (hf : ∀ s x, (f s x).mm = s.mm) (l : List α) (s : State) : (l.foldl f s).mm = s.mm := by
  induction l generalizing s with
  | nil => rfl
  | cons x l ih => exact (ih _).trans (hf s x)

@[simp] theorem moveOldest_mem (s : State) (d : Nat) : (moveOldest s d).mm.mem = s.mm.mem := by
  unfold moveOldest; split
  · rfl
  · rename_i b _
    have h (l : List (Nat × Version)) (g : State → Nat × Version → State) (hg : ∀ s x, (g s x).mm = s.mm) :
        (l.foldl g s).mm.mem = s.mm.mem := congrArg MemSys.mem (foldPerf_mm g hg l s)
    exact h _ _ fun _ _ => rfl

@[simp] theorem makeRoom_mem (n : Nat) (s : State) (d : Nat) : (makeRoom n s d).mm.mem = s.mm.mem := by
  induction n generalizing s with
  | zero => rfl
  | succ n ih =>
    unfold makeRoom; split
    · rfl
    · split
      · exact moveOldest_mem s d
      · split
        · rw [ih]; exact revoke_mem s _
        · rfl

@[simp] theorem dropOldest_mem (s : State) (ln : Nat) : (dropOldest s ln).mm.mem = s.mm.mem := by
  unfold dropOldest
  simp only []
  split
  · rfl
  · exact revokeReaders_mem _ s _ _

@[simp] theorem placeFor_mem (s : State) (ln ts : Nat) : (placeFor s ln ts).mm.mem = s.mm.mem := by
  have room : (if needed s ln ts = true then makeRoom (s.mm.horizon.length + 1) s (homeDie (ln * 128)) else s).mm.mem = s.mm.mem := by
    split <;> simp
  have drop (s : State) :
      (if needed s ln ts = true ∧ Config.recordsPerLine ≤ (getLine s ln).recs.length then dropOldest s ln else s).mm.mem = s.mm.mem := by
    split <;> simp
  exact (drop _).trans room

@[simp] theorem supersede_mem (s : State) (ln ts : Nat) : (supersede s ln ts).mm.mem = s.mm.mem := by
  unfold supersede
  simp only []
  repeat' split
  · rfl
  · exact placeFor_mem s ln ts
  · exact placeFor_mem s ln ts

/-- What a fold does to memory depends on memory and its homes alone. -/
theorem foldLine_mem_congr {s u : State} (h : u.mm = s.mm) (n : Nat) : (foldLine u n).mm.mem = (foldLine s n).mm.mem := by
  have hg : getLine u n = getLine s n := getLine_congr (by rw [h]) (by rw [h]) n
  unfold foldLine
  rw [hg]
  split
  · rw [h]
  · simp only [perf_mm, setLine_mm_mem, setMem_mem, dirty_mem, h]

/-- A fold after an access has reached the line leaves the memory that the fold alone leaves. -/
theorem foldLine_touchLine_mem (s : State) (ln n : Nat) : (foldLine (touchLine s ln) n).mm.mem = (foldLine s n).mm.mem := by
  unfold foldLine
  rw [getLine_touchLine]
  split
  · exact touchLine_mem s ln
  · simp only [perf_mm, setLine_mm_mem, setMem_mem, dirty_mem, touchLine_mem]

/-- Memory after a store at a home (R219). -/
theorem writeAt_mem (s : State) (p pa : Nat) (bs : List Byte) (c : Bool) :
    (writeAt s p pa bs c).2.mm.mem = mwrite (foldLine s (pa / 128)).mm.mem pa bs := by
  simp only [writeAt, writeWith, noteStamp_mm, setLine_mm_mem, setMem_mem, dirty_mem, supersede_mem, foldLine_touchLine_mem]
  rw [foldLine_mem_congr (u := writeHost s pa bs) (s := s) (by simp)]

/-- A store at a home has been stored, and its stamp is above every read of the line (R219). -/
theorem writeAt_stored (s : State) (p pa : Nat) (bs : List Byte) (c : Bool) :
    Stored s (writeAt s p pa bs c).2 pa bs ∧ (getLine (writeAt s p pa bs c).2 (pa / 128)).wts = (writeAt s p pa bs c).1 ∧
      (writeAt s p pa bs c).1 = max p ((getLine s (pa / 128)).rts + 1) := by
  refine ⟨⟨?_, fun h a ha => ?_⟩, ?_, ?_⟩
  · rw [writeAt_mem, mread_mwrite]
  · rw [writeAt_mem, foldLine_none h, mget_mwrite_outside (by omega)]
  · have hn (s : State) (ln ts n : Nat) : getLine (noteStamp s ln ts) n = getLine s n := getLine_congr (by simp) (by simp) n
    simp only [writeAt, writeWith, hn]
    exact getLine_setLine_wts _ _ _
  · obtain ⟨b, hb⟩ := getLine_foldLine (touchLine (writeHost s pa bs) (pa / 128)) (pa / 128)
    have hw : getLine (writeHost s pa bs) (pa / 128) = getLine s (pa / 128) := getLine_congr (by simp) (by simp) _
    simp [writeAt, writeWith, writeStamp, hb, hw]

/-- A load at a home: the bytes that stand there, the stamp and the poison (R219). -/
theorem loadAt_ack (s : State) (p pa n : Nat) :
    (loadAt s p pa n).1 = { ts := max p (getLine s (pa / 128)).wts, value := standing s pa n, poison := (getLine s (pa / 128)).poison } := by
  obtain ⟨b, hb⟩ := getLine_foldLine (touchLine (readHost s pa n) (pa / 128)) (pa / 128)
  have hw : getLine (readHost s pa n) (pa / 128) = getLine s (pa / 128) := getLine_congr (by simp) (by simp) _
  have hm : (foldLine (readHost s pa n) (pa / 128)).mm.mem = (foldLine s (pa / 128)).mm.mem := foldLine_mem_congr (by simp) _
  simp [loadAt, loadStamp, standing, hb, hw, foldLine_touchLine_mem, hm]

theorem leNat_lt (bs : List Byte) : leNat bs < 256 ^ bs.length := by
  induction bs with
  | nil => simp [leNat]
  | cons b bs ih =>
    have := b.isLt
    simp only [leNat, List.length_cons, pow_succ]
    omega

theorem standing_lt (s : State) (pa n : Nat) : standing s pa n < 256 ^ n := by
  have := leNat_lt (mread (foldLine s (pa / 128)).mm.mem pa n)
  simpa [standing, mread] using this

theorem overlay_nil (pa : Nat) (bs : List Byte) : overlay [] pa bs = bs := by
  apply List.ext_getElem <;> simp [overlay]

/-- The count of a walk touches neither memory nor the host path. -/
@[simp] theorem noteWalk_mm (s : State) (u : Via) (asid va : Nat) : (noteWalk s u asid va).mm = s.mm := by
  unfold noteWalk; split <;> rfl
@[simp] theorem noteWalk_hostPathOpen (s : State) (u : Via) (asid va : Nat) : hostPathOpen (noteWalk s u asid va) = hostPathOpen s := by
  unfold noteWalk; split <;> rfl
@[simp] theorem getLine_noteWalk (s : State) (u : Via) (asid va n : Nat) : getLine (noteWalk s u asid va) n = getLine s n := getLine_congr (by simp) (by simp) n
@[simp] theorem standing_noteWalk (s : State) (u : Via) (asid va pa n : Nat) : standing (noteWalk s u asid va) pa n = standing s pa n := by
  unfold standing; rw [foldLine_mem_congr (noteWalk_mm s u asid va)]

/-- A read of an agent that reaches its bytes, outside any snapshot or transaction, and has not yet read them (R292). -/
theorem agentRead_reaches {s : State} {r : Reader} {va n pa : Nat} (h : Reaches s r.via .engineRead r.asid va pa)
    (hb : tget r.buf (readKey va n) = none) (hs : r.snap = none) (hw : r.tx = none) :
    let a : Ack := { ts := max r.p (getLine s (pa / 128)).wts, value := standing s pa n, poison := (getLine s (pa / 128)).poison }
    agentRead s r va n = (some a, { r.took va n a with excl := r.excl || (r.view && isHost pa) }, (loadAt (noteWalk s r.via r.asid va) r.p pa n).2) := by
  obtain ⟨hv, l, hl, hg, hr, hz, hp, rfl⟩ := h
  have ha := loadAt_ack (noteWalk s r.via r.asid va) r.p (l.frame + va % pageBytes l.size) n
  have hv' : ¬ 2 ^ 57 ≤ va := by omega
  have hp' : (isHost (l.frame + va % pageBytes l.size) && !hostPathOpen s) = false := by
    cases h : isHost (l.frame + va % pageBytes l.size)
    · rfl
    · simp [hp (.inr h)]
  simp only [getLine_noteWalk, standing_noteWalk] at ha
  simp only [agentRead, windowFor, hl, hg, plainRead, hb, hv', hr, hz, hs, hw, readAt, noteWalk_hostPathOpen, hp', Bool.false_eq_true, if_false, ite_self, ha]

/-- A write of an agent that reaches its bytes (R292). -/
theorem agentWrite_reaches {s : State} {x : Via} {asid va pa : Nat} {bs : List Byte} (h : Reaches s x .engineWrite asid va pa) (p : Nat) (c : Bool) :
    agentWrite s x p asid va bs c = .ok (writeAt (noteWalk s x asid va) p pa bs c).1 (writeAt (noteWalk s x asid va) p pa bs c).2 := by
  obtain ⟨hv, l, hl, hg, hr, hz, hp, rfl⟩ := h
  have hv' : ¬ 2 ^ 57 ≤ va := by omega
  have hw : portWaits s x .engineWrite asid va = false := by
    simp only [portWaits, hl, hr, hg]
    cases h : isHost l.frame
    · rfl
    · simp [hp (.inl h)]
  simp only [agentWrite, agentPa, hl, hz, hr, hv', hw, Bool.false_and, Bool.false_eq_true, if_false]

/-- A thread that waits at nothing is not woken (R398). -/
theorem recheck_idle {s : State} {k : Nat} {t : Thread} (h : getThread s k = some t) (hl : t.live = true) (hh : t.held = none)
    (hw : t.waitOn = .nothing) : recheck s k = s := by
  have h1 : checkWait s k = s := by simp [checkWait, h, hh]
  simp [recheck, h1, checkStop, checkDrained, h, hw, hl]

/-- A walk reads only memory, the poison of lines, the roots, the sizes of the regions and the package's number. -/
theorem walk_congr {s u : State} (h1 : u.mm.mem = s.mm.mem) (h2 : u.mm.lines = s.mm.lines) (h3 : u.tr.roots = s.tr.roots)
    (h4 : u.fa.pkg = s.fa.pkg) (h5 : u.mm.versionGiB = s.mm.versionGiB) (h6 : u.mm.spillGiB = s.mm.spillGiB) (asid va : Nat) :
    walk u asid va = walk s asid va := by
  have hl (level x pte : Nat) : leafOf u level x pte = leafOf s level x pte := by
    have hf (pa n : Nat) : frameOk u pa n = frameOk s pa n := by unfold frameOk versionBase spillBase; rw [h5, h6]
    simp only [leafOf, h4, hf]
  have hf (fuel : Nat) : ∀ level table, walkFrom u [] va fuel level table = walkFrom s [] va fuel level table := by
    induction fuel with
    | zero => intros; rfl
    | succ n ih => intro level table; simp only [walkFrom, h1, linePoison, h2, hl, ih]
  simp only [walk, walkOver, h3, hf]

end Sys2Proof.Machine
end

