-- ==== Sys2Proof/Laws/Flush.lean ====
section
/-! SUPPORT. Flush.lean: everything that a fold of chosen lines and their write-back does (R222, R250, R251). -/

namespace Sys2Proof.Machine

/-! One line's bytes. -/

/-- Two memories hold the same bytes of a line. -/
def SameLine (m n : Mem) (ln : Nat) : Prop := ∀ i, i < 128 → mget m (ln * 128 + i) = mget n (ln * 128 + i)

theorem SameLine.rfl' (m : Mem) (ln : Nat) : SameLine m m ln := fun _ _ => rfl
theorem SameLine.trans {m n o : Mem} {ln : Nat} (h : SameLine m n ln) (k : SameLine n o ln) : SameLine m o ln := fun i hi => (h i hi).trans (k i hi)
theorem SameLine.symm {m n : Mem} {ln : Nat} (h : SameLine m n ln) : SameLine n m ln := fun i hi => (h i hi).symm

theorem SameLine.mread {m n : Mem} {ln : Nat} (h : SameLine m n ln) {i k : Nat} (hi : i + k ≤ 128) :
    mread m (ln * 128 + i) k = mread n (ln * 128 + i) k := by
  unfold Machine.mread
  refine List.map_congr_left fun j hj => ?_
  have := h (i + j) (by have := List.mem_range.1 hj; omega)
  rw [Nat.add_assoc]; exact this

theorem foldElem_other {m : Mem} {ln n : Nat} {e : Nat × (Bool × Word)} (he : e.1 < 32) (hn : n ≠ ln) : SameLine (foldElem m ln e) m n := by
  intro i hi
  unfold foldElem
  exact mget_mwrite_outside (by rw [natLe_length]; omega)

theorem foldElem_same {m n : Mem} {ln : Nat} {e : Nat × (Bool × Word)} (he : e.1 < 32) (h : SameLine m n ln) :
    SameLine (foldElem m ln e) (foldElem n ln e) ln := by
  intro i hi
  unfold foldElem
  dsimp only
  rw [h.mread (i := 4 * e.1) (k := 4) (by omega)]
  simp only [mget_mwrite, h i hi]

theorem foldElems_other {ln n : Nat} (hn : n ≠ ln) (l : List (Nat × (Bool × Word))) (hl : ∀ e ∈ l, e.1 < 32) (m : Mem) :
    SameLine (l.foldl (fun m e => foldElem m ln e) m) m n := by
  induction l generalizing m with
  | nil => exact .rfl' m n
  | cons e l ih =>
    exact (ih (fun x hx => hl x (List.mem_cons_of_mem _ hx)) _).trans (foldElem_other (hl e List.mem_cons_self) hn)

theorem foldElems_same {ln : Nat} (l : List (Nat × (Bool × Word))) (hl : ∀ e ∈ l, e.1 < 32) {m n : Mem} (h : SameLine m n ln) :
    SameLine (l.foldl (fun m e => foldElem m ln e) m) (l.foldl (fun m e => foldElem m ln e) n) ln := by
  induction l generalizing m n with
  | nil => exact h
  | cons e l ih => exact ih (fun x hx => hl x (List.mem_cons_of_mem _ hx)) (foldElem_same (hl e List.mem_cons_self) h)

/-! One line. -/

/-- Another line read after a line is set that is no host line's. -/
theorem getLine_setLine_other {s : State} {ln n : Nat} {l : Line} (hh : isHost (ln * 128) = false) (hk : ln ≠ 0xFFFFFFFFFF) (hn : n ≠ ln) :
    getLine (setLine s ln l) n = getLine s n := by
  have hl : lineKey n ≠ ln := by unfold lineKey; split <;> first | exact Ne.symm hk | exact hn
  simp only [getLine, setLine, hh, Bool.false_eq_true, if_false, tget_tset_ne _ _ hn, tget_tset_ne _ _ hl]

/-- Everything that a fold of one line does, where the line is no host line. -/
theorem foldLine_some {s : State} {ln : Nat} {d : Delta} (h : (getLine s ln).delta = some d) (hh : isHost (ln * 128) = false) (hk : ln ≠ 0xFFFFFFFFFF) :
    (foldLine s ln).mm.mem = d.elems.foldl (fun m e => foldElem m ln e) s.mm.mem ∧
    (∀ n, n ≠ ln → getLine (foldLine s ln) n = getLine s n) ∧
    (foldLine s ln).fa.due = s.fa.due ++ d.owe ∧
    foldLine s ln = { s with mm := (foldLine s ln).mm, fa := { s.fa with due := (foldLine s ln).fa.due }, bd := { s.bd with perf := (foldLine s ln).bd.perf } } ∧
    (foldLine s ln).mm = { s.mm with mem := (foldLine s ln).mm.mem, lines := (foldLine s ln).mm.lines } := by
  have hd : dirty s ln = s ∨ ∃ l, dirty s ln = setLine s ln l := by
    unfold dirty; split
    · exact .inl rfl
    · exact .inr ⟨_, rfl⟩
  have hg (n : Nat) (hn : n ≠ ln) : getLine (dirty s ln) n = getLine s n := by
    rcases hd with e | ⟨l, e⟩ <;> rw [e]
    exact getLine_setLine_other hh hk hn
  unfold foldLine
  rw [h]
  dsimp only
  refine ⟨by simp, fun n hn => ?_, ?_, ?_, ?_⟩
  · refine (getLine_congr rfl rfl n).trans ((getLine_setLine_other hh hk hn).trans ?_)
    exact (getLine_congr rfl rfl n).trans (hg n hn)
  · rcases hd with e | ⟨l, e⟩ <;> rw [e] <;> rfl
  · rcases hd with e | ⟨l, e⟩ <;> rw [e] <;> rfl
  · rcases hd with e | ⟨l, e⟩ <;> rw [e] <;> rfl

/-! Many lines. -/

/-- The lines of `l` that `f` selects are folded in `u`, one after another from `s`. -/
structure Folded (l : List Nat) (f : Nat → Bool) (s u : State) : Prop where
  bytes : ∀ n, SameLine u.mm.mem (if n ∈ l ∧ f n = true then (foldLine s n).mm.mem else s.mm.mem) n
  lines : ∀ n, ∃ b, getLine u n = if n ∈ l ∧ f n = true ∧ (getLine s n).delta.isSome = true then { getLine s n with delta := none, back := b } else getLine s n
  due : ∀ x, x ∈ u.fa.due ↔ x ∈ s.fa.due ∨ ∃ n ∈ l, f n = true ∧ ∃ d, (getLine s n).delta = some d ∧ x ∈ d.owe
  rest : u = { s with mm := u.mm, fa := { s.fa with due := u.fa.due }, bd := { s.bd with perf := u.bd.perf } }
  others : u.mm = { s.mm with mem := u.mm.mem, lines := u.mm.lines }

/-- The deltas of a line are its own, and it is no host line. -/
def DeltaOk (s : State) (n : Nat) : Prop :=
  ∀ d, (getLine s n).delta = some d → isHost (n * 128) = false ∧ n ≠ 0xFFFFFFFFFF ∧ ∀ e ∈ d.elems, e.1 < 32

/-- The fold of a line reads that line alone. -/
theorem foldLine_same {s u : State} {n : Nat} (hd : (getLine u n).delta = (getLine s n).delta) (hs : DeltaOk s n) (hm : SameLine u.mm.mem s.mm.mem n) :
    SameLine (foldLine u n).mm.mem (foldLine s n).mm.mem n := by
  cases h : (getLine s n).delta with
  | none => rw [foldLine_none h, foldLine_none (hd.trans h)]; exact hm
  | some d =>
    obtain ⟨hh, hk, he⟩ := hs d h
    rw [(foldLine_some h hh hk).1, (foldLine_some (hd.trans h) hh hk).1]
    exact foldElems_same d.elems he hm

theorem folded_nil (f : Nat → Bool) (s : State) : Folded [] f s s :=
  ⟨fun n => by simpa using SameLine.rfl' _ _, fun n => ⟨none, by simp⟩, by simp, rfl, rfl⟩

/-- A fold of one line. -/
theorem folded_one (f : Nat → Bool) (s : State) (n : Nat) (hs : DeltaOk s n) : Folded [n] f s (if f n then foldLine s n else s) := by
  cases hf : f n with
  | false =>
    simp only [Bool.false_eq_true, if_false]
    refine ⟨fun m => ?_, fun m => ⟨none, ?_⟩, fun x => ?_, rfl, rfl⟩
    · rw [if_neg (by rintro ⟨h, k⟩; simp_all)]; exact .rfl' _ _
    · rw [if_neg (by rintro ⟨h, k, _⟩; simp_all)]
    · simp [hf]
  | true =>
    simp only [if_true]
    cases h : (getLine s n).delta with
    | none =>
      rw [foldLine_none h]
      refine ⟨fun m => ?_, fun m => ⟨none, ?_⟩, fun x => ?_, rfl, rfl⟩
      · split
        · rename_i e; obtain rfl := List.mem_singleton.1 e.1; rw [foldLine_none h]; exact .rfl' _ _
        · exact .rfl' _ _
      · rw [if_neg]; rintro ⟨e, _, k⟩; obtain rfl := List.mem_singleton.1 e; rw [h] at k; cases k
      · simp [h]
    | some d =>
      obtain ⟨hh, hk, he⟩ := hs d h
      obtain ⟨hm, hg, hd, hr, ho⟩ := foldLine_some h hh hk
      refine ⟨fun m => ?_, fun m => ?_, fun x => ?_, hr, ho⟩
      · split
        · rename_i e; obtain rfl := List.mem_singleton.1 e.1; exact .rfl' _ _
        · rename_i e
          rw [hm]; exact foldElems_other (by rintro rfl; exact e ⟨by simp, hf⟩) _ he _
      · by_cases e : m = n
        · subst e
          obtain ⟨b, hb⟩ := getLine_foldLine s m
          exact ⟨b, by rw [hb, if_pos ⟨by simp, hf, by rw [h]; rfl⟩]⟩
        · exact ⟨none, by rw [hg m e, if_neg]; rintro ⟨k, _⟩; exact e (List.mem_singleton.1 k)⟩
      · rw [hd]; simp [hf, h]

theorem folded_cons {n : Nat} {l : List Nat} {f : Nat → Bool} {s u v : State} (hn : n ∉ l) (hs : ∀ m ∈ l, DeltaOk s m)
    (h : Folded [n] f s u) (k : Folded l f u v) : Folded (n :: l) f s v where
  bytes m := by
    by_cases hm : m ∈ l
    · have hne : m ≠ n := fun e => hn (e ▸ hm)
      have hu : SameLine u.mm.mem s.mm.mem m := by
        have := h.bytes m
        rwa [if_neg (fun e => hne (List.mem_singleton.1 e.1))] at this
      have hd : (getLine u m).delta = (getLine s m).delta := by
        obtain ⟨b, hb⟩ := h.lines m
        rw [hb, if_neg (fun e => hne (List.mem_singleton.1 e.1))]
      refine (k.bytes m).trans ?_
      by_cases hf : f m = true
      · rw [if_pos ⟨hm, hf⟩, if_pos ⟨List.mem_cons_of_mem _ hm, hf⟩]
        exact foldLine_same hd (hs m hm) hu
      · rw [if_neg (fun e => hf e.2), if_neg (fun e => hf e.2)]; exact hu
    · refine (k.bytes m).trans ?_
      rw [if_neg (fun e => hm e.1)]
      have := h.bytes m
      simpa [hm] using this
  lines m := by
    obtain ⟨b, hb⟩ := h.lines m
    obtain ⟨c, hc⟩ := k.lines m
    by_cases hm : m ∈ l
    · have hne : m ≠ n := fun e => hn (e ▸ hm)
      rw [if_neg (fun e => hne (List.mem_singleton.1 e.1))] at hb
      exact ⟨c, by rw [hc, hb]; simp [hm]⟩
    · rw [if_neg (fun e => hm e.1)] at hc
      exact ⟨b, by rw [hc, hb]; simp [hm]⟩
  due x := by
    rw [k.due, h.due]
    constructor
    · rintro ((a | ⟨m, a, b, c⟩) | ⟨m, a, b, d, c, e⟩)
      · exact .inl a
      · exact .inr ⟨m, by simp_all, b, c⟩
      · have hne : m ≠ n := fun e => hn (e ▸ a)
        obtain ⟨y, hy⟩ := h.lines m
        rw [if_neg (fun e => hne (List.mem_singleton.1 e.1))] at hy
        exact .inr ⟨m, List.mem_cons_of_mem _ a, b, d, hy ▸ c, e⟩
    · rintro (a | ⟨m, a, b, d, c, e⟩)
      · exact .inl (.inl a)
      · rcases List.mem_cons.1 a with rfl | a
        · exact .inl (.inr ⟨m, by simp, b, d, c, e⟩)
        · have hne : m ≠ n := fun e => hn (e ▸ a)
          obtain ⟨y, hy⟩ := h.lines m
          rw [if_neg (fun e => hne (List.mem_singleton.1 e.1))] at hy
          exact .inr ⟨m, a, b, d, by rw [hy]; exact c, e⟩
  rest := by have a := h.rest; have b := k.rest; rw [a] at b; exact b
  others := by have a := h.others; have b := k.others; rw [a] at b; exact b

theorem folded_list (f : Nat → Bool) (l : List Nat) (s : State) (hl : l.Nodup) (hs : ∀ n ∈ l, DeltaOk s n) :
    Folded l f s (l.foldl (fun s n => if f n then foldLine s n else s) s) := by
  induction l generalizing s with
  | nil => exact folded_nil f s
  | cons n l ih =>
    obtain ⟨hn, hl⟩ := List.nodup_cons.1 hl
    have h1 := folded_one f s n (hs n List.mem_cons_self)
    refine folded_cons hn (fun m hm => hs m (List.mem_cons_of_mem _ hm)) h1 (ih _ hl fun m hm d hd => ?_)
    obtain ⟨b, hb⟩ := h1.lines m
    have hne : m ≠ n := fun e => hn (e ▸ hm)
    simp only [List.mem_singleton, hne, false_and, if_false] at hb
    rw [hb] at hd
    exact hs m (List.mem_cons_of_mem _ hm) d hd

/-! The write-back. -/

theorem tget_of_mem {α : Type} {t : Tab α} (h : t.Pairwise fun a b => a.1 < b.1) {e : Nat × α} (he : e ∈ t) : tget t e.1 = some e.2 := by
  induction t with
  | nil => cases he
  | cons x t ih =>
    obtain ⟨hx, ht⟩ := List.pairwise_cons.1 h
    unfold tget
    rcases List.mem_cons.1 he with rfl | he
    · simp
    · rw [if_neg (by have := hx e he; omega)]; exact ih ht he

theorem mem_of_tget {α : Type} {t : Tab α} {n : Nat} {v : α} (h : tget t n = some v) : (n, v) ∈ t := by
  induction t with
  | nil => cases h
  | cons x t ih =>
    obtain ⟨k, w⟩ := x
    unfold tget at h
    split at h
    · rename_i e; cases h; subst e; exact List.mem_cons_self
    · exact List.mem_cons_of_mem _ (ih h)

theorem tget_mapKey {α β : Type} (t : Tab α) (g : Nat → α → β) (n : Nat) : tget (t.map fun e => (e.1, g e.1 e.2)) n = (tget t n).map (g n) := by
  induction t with
  | nil => rfl
  | cons e t ih => obtain ⟨k, w⟩ := e; simp only [List.map_cons, tget]; split <;> simp_all

/-- What a write-back changes beside the counters: the chosen lines are no longer dirty. -/
theorem writeBackWhere_eq (s : State) (g : Nat → Bool) : ∃ p, writeBackWhere s g =
    { s with mm := { s.mm with lines := s.mm.lines.map fun e => (e.1, if g e.1 then { e.2 with back := none } else e.2) }, bd := { s.bd with perf := p } } := by
  unfold writeBackWhere
  dsimp only
  generalize s.mm.lines.filter _ = l
  have h (v : State) : ∃ p, l.foldl (fun s e => Machine.perf (Machine.perf s 1 (homeSlice (e.1 * 128)) 2 1) 2 (channelOf (e.1 * 128)) 1 1) v =
      { v with bd := { v.bd with perf := p } } := by
    induction l generalizing v with
    | nil => exact ⟨_, rfl⟩
    | cons e l ih => obtain ⟨p, hp⟩ := ih (Machine.perf (Machine.perf v 1 (homeSlice (e.1 * 128)) 2 1) 2 (channelOf (e.1 * 128)) 1 1); exact ⟨p, hp⟩
  exact h _

/-- A line read after a write-back of lines that are no host lines. -/
theorem getLine_writeBackWhere {s : State} {g : Nat → Bool} (hg : ∀ n, g n = true → isHost (n * 128) = false ∧ n ≠ 0xFFFFFFFFFF) (n : Nat) :
    getLine (writeBackWhere s g) n = if g n = true then { getLine s n with back := none } else getLine s n := by
  obtain ⟨p, hp⟩ := writeBackWhere_eq s g
  rw [hp]
  have ht (m : Nat) : tget (s.mm.lines.map fun e => (e.1, if g e.1 then { e.2 with back := none } else e.2)) m =
      (tget s.mm.lines m).map fun l => if g m then { l with back := none } else l :=
    tget_mapKey s.mm.lines (fun m (l : Line) => if g m then { l with back := none } else l) m
  have hk : g 0xFFFFFFFFFF = false := by
    cases h : g 0xFFFFFFFFFF with
    | false => rfl
    | true => exact absurd rfl (hg _ h).2
  unfold getLine
  dsimp only
  rw [ht, ht]
  cases hh : isHost (n * 128) with
  | true =>
    have hn : g n = false := by
      cases h : g n with
      | false => rfl
      | true => rw [(hg _ h).1] at hh; cases hh
    have hl : lineKey n = 0xFFFFFFFFFF := by unfold lineKey; rw [hh]; rfl
    simp [hn, hl, hk]
  | false =>
    cases h : g n with
    | false => simp
    | true => cases hx : tget s.mm.lines n <;> simp

/-- A line's deltas stand in its own entry, which is none of host memory's. -/
theorem delta_listed {s : State} (h : LinesOk s) {n : Nat} {d : Delta} (hd : (getLine s n).delta = some d) :
    isHost (n * 128) = false ∧ n ≠ 0xFFFFFFFFFF ∧ ∃ l, tget s.mm.lines n = some l ∧ l.delta = some d := by
  have hnone {m : Nat} {l : Line} (hl : tget s.mm.lines m = some l) (hm : isHost (m * 128) = true ∨ m = 0xFFFFFFFFFF) : l.delta = none :=
    h.host (m, l) (mem_of_tget hl) hm
  unfold getLine at hd
  cases hh : isHost (n * 128) with
  | true =>
    have hl : lineKey n = 0xFFFFFFFFFF := by unfold lineKey; rw [hh]; rfl
    rw [hh, hl] at hd
    cases hx : tget s.mm.lines 0xFFFFFFFFFF with
    | none => rw [hx] at hd; cases hd
    | some x => rw [hx] at hd; exact absurd (hnone hx (.inr rfl)) (by simp only [if_true, Option.getD_some] at hd; rw [hd]; simp)
  | false =>
    rw [hh] at hd
    cases hx : tget s.mm.lines n with
    | none => rw [hx] at hd; cases hd
    | some x =>
      rw [hx] at hd
      simp only [Bool.false_eq_true, if_false] at hd
      exact ⟨rfl, fun e => absurd (hnone hx (.inr e)) (by rw [hd]; simp), x, rfl, hd⟩

theorem deltaOk_of_linesOk {s : State} (h : LinesOk s) (n : Nat) : DeltaOk s n := by
  intro d hd
  obtain ⟨a, b, l, hl, hd⟩ := delta_listed h hd
  exact ⟨a, b, h.elems (n, l) (mem_of_tget hl) d hd⟩

/-- Of an entry with deltas, the line that it is of reads as the entry. -/
theorem getLine_of_delta {s : State} (h : LinesOk s) {e : Nat × Line} (he : e ∈ s.mm.lines) {d : Delta} (hd : e.2.delta = some d) : getLine s e.1 = e.2 := by
  have hh : isHost (e.1 * 128) = false := by
    cases hx : isHost (e.1 * 128) with
    | false => rfl
    | true => rw [h.host e he (.inl hx)] at hd; cases hd
  unfold getLine
  rw [hh, tget_of_mem h.sorted he]
  rfl

/-- Everything that a flush of chosen lines does (R222, R250, R251). -/
theorem flushWhere_flushed {s : State} (h : LinesOk s) (f : Nat → Bool) : Flushed f s (flushWhere s f) := by
  have hk : (s.mm.lines.map (·.1)).Nodup := by
    refine List.Pairwise.map _ (fun a b hab => ?_) h.sorted
    exact Nat.ne_of_lt hab
  have hf := folded_list f (s.mm.lines.map (·.1)) s hk (fun n _ => deltaOk_of_linesOk h n)
  change Folded _ f s (foldWhere s f) at hf
  have hmem (n : Nat) (d : Delta) (hd : (getLine s n).delta = some d) : n ∈ s.mm.lines.map (·.1) := by
    obtain ⟨_, _, l, hl, _⟩ := delta_listed h hd
    exact List.mem_map.2 ⟨(n, l), mem_of_tget hl, rfl⟩
  let g : Nat → Bool := fun ln => ((s.mm.lines.filter fun e => f e.1 && e.2.delta.isSome).map (·.1)).contains ln
  have hg (n : Nat) : g n = true ↔ f n = true ∧ (getLine s n).delta.isSome = true := by
    simp only [g, List.contains_iff_mem, List.mem_map, List.mem_filter, Bool.and_eq_true]
    constructor
    · rintro ⟨e, ⟨he, hf, hd⟩, rfl⟩
      obtain ⟨d, hd⟩ := Option.isSome_iff_exists.1 hd
      rw [getLine_of_delta h he hd, hd]; exact ⟨hf, rfl⟩
    · rintro ⟨hf, hd⟩
      obtain ⟨d, hd⟩ := Option.isSome_iff_exists.1 hd
      obtain ⟨_, _, l, hl, hd⟩ := delta_listed h hd
      exact ⟨(n, l), ⟨mem_of_tget hl, hf, by rw [hd]; rfl⟩, rfl⟩
  have hgood (n : Nat) (hn : g n = true) : isHost (n * 128) = false ∧ n ≠ 0xFFFFFFFFFF := by
    obtain ⟨d, hd⟩ := Option.isSome_iff_exists.1 ((hg n).1 hn).2
    exact ⟨(delta_listed h hd).1, (delta_listed h hd).2.1⟩
  obtain ⟨p, hp⟩ := writeBackWhere_eq (foldWhere s f) g
  have hu : flushWhere s f = writeBackWhere (foldWhere s f) g := rfl
  refine ⟨fun n => ?_, fun n => ?_, fun x => ?_, ?_, ?_⟩
  · have hb := hf.bytes n
    rw [hu, hp]
    refine (hb.mread (i := 0) (k := 128) (by omega)).trans ?_
    by_cases hn : f n = true
    · cases hd : (getLine s n).delta with
      | none => rw [foldLine_none hd]; simp
      | some d => rw [if_pos ⟨hmem n d hd, hn⟩, if_pos hn]; rfl
    · rw [if_neg (fun e => hn e.2), if_neg hn]; rfl
  · rw [hu, getLine_writeBackWhere hgood]
    obtain ⟨b, hb⟩ := hf.lines n
    by_cases hn : f n = true ∧ (getLine s n).delta.isSome = true
    · obtain ⟨d, hd⟩ := Option.isSome_iff_exists.1 hn.2
      rw [if_pos ((hg n).2 hn), hb, if_pos ⟨hmem n d hd, hn⟩, if_pos hn]
    · rw [if_neg (fun e => hn ((hg n).1 e)), hb, if_neg (fun e => hn e.2), if_neg hn]
  · rw [hu, hp]
    refine (hf.due x).trans (or_congr Iff.rfl ?_)
    constructor
    · rintro ⟨n, _, hn, d, hd, hx⟩
      obtain ⟨_, _, l, hl, hd⟩ := delta_listed h hd
      exact ⟨(n, l), mem_of_tget hl, hn, d, hd, hx⟩
    · rintro ⟨e, he, hn, d, hd, hx⟩
      exact ⟨e.1, List.mem_map.2 ⟨e, he, rfl⟩, hn, d, by rw [getLine_of_delta h he hd, hd], hx⟩
  · have := hf.rest
    rw [hu, hp]
    dsimp only
    rw [this]
  · have := hf.others
    rw [hu, hp]
    dsimp only
    rw [this]

end Sys2Proof.Machine
end

