-- ==== Sys2Proof/Tests/Slice0.lean ====
section
/-! SUPPORT. Slice0.lean: the tests of the model: ill-formed instructions that WellFormed refuses, words written out from the
encoding tables, single steps on a small state with results worked out from the rules, and for every obligation with
hypotheses a state that meets them. -/

namespace Sys2Proof.Tests

open Sys2Proof Sys2Proof.Machine

-- Each test evaluates in the kernel; one at a time, so that their threads do not exhaust memory.
set_option Elab.async false

/-! The small states. -/

/-- Bytes placed in memory. -/
def put8 (a x : Nat) (s : State) : State := { s with mm := { s.mm with mem := mwrite s.mm.mem a (natLe 8 x) } }

/-- The state after reset with page tables at 0x1000, 0x2000 and 0x3000: in address space 0, the first GiB maps onto itself with
R, W and X (R362 to R364). -/
def paged : State :=
  { put8 0x1000 0x8000000000002000 (put8 0x2000 0x8000000000003000 (put8 0x3000 0xBC00000000000000 State.reset)) with
    tr := { roots := [(0, 0x1000)] } }

/-- The leaf of that GiB. -/
def gib : Leaf := { size := 2, r := true, w := true, x := true, frame := 0, entry := 0x3000 }

/-- A hint word. -/
def hint (k : BitVec 4) (p : Nat) : Hint := { kind := k, payload := BitVec.ofNat _ p }

/-- Format slots: 0 a dense INT8 matrix slot, 1 the same with M = 4, 2 an E4M3 matrix slot with k-blocks of 16, 3 and 4 conversion
slots of HS4 and E2M1 with E8M0 scales, 5 a CB2 conversion slot. -/
def slots : List Word :=
  [0x1881, 0, 0, 0, 0x101881, 0, 0, 0, 0x331, 0, 0, 0, 0x4062, 0, 0, 0, 0x4052, 0, 0, 0, 0x8072, 0, 0x12000, 0]

/-- The grid of the small states: its slots, and the codebook of slot 5 with the entry 27 of 02_numbers.md. -/
def smallGrid : Grid :=
  { placedGrid with record := placedRecord.take 32 ++ slots ++ List.replicate 8 0, codebooks := [(5, List.replicate 27 0 ++ [0x7061])] }

/-- Port 0 of core 0 is issuing the word at PC 0, with the hints `hs`, for the thread 0, which `f` has prepared; the code page and
the GiB are in the TLB. -/
def issuing (hs : List Hint) (f : Thread → Thread) : State :=
  let s := placeWord paged 0
  let s := modCore s 0 fun c => { c with tlb := { asid := 0, vpn := 0, leaf := gib } :: c.tlb }
  { s with
    ex := { s.ex with threads := [(0, f placedThread)]
                      grids := [(0, smallGrid)] }
    cur := some { core := 0, port := 0, hints := hs, fpc := 0 }
    agenda := [] }

/-- The same with threads 0 to 7 but thread 5, one in each group lane, all in the bundle. -/
def group (f : Nat → Thread → Thread) : State :=
  let s := issuing [] id
  let l := [0, 1, 2, 3, 4, 6, 7]
  let s := modCore s 0 fun c => { c with ports := [(0, l)] }
  { s with ex := { s.ex with threads := l.map fun k => (k, f k { placedThread with glane := k, hlane := k }) } }

/-- Its thread with registers set. -/
def regs (l : List (Nat × Nat)) (t : Thread) : Thread := l.foldl (fun t e => writeReg t e.1 (BitVec.ofNat 32 e.2)) t

/-- The thread after a step that goes on. -/
def after (o : Host.Outcome State Fault Refusal) (k : Nat) : Option Thread := match o with
  | .next s => getThread s k
  | _ => none

/-- A register of a thread after a step. -/
def regAfter (o : Host.Outcome State Fault Refusal) (n : Nat) : Option Word := (after o 0).map fun t => readReg t n

/-- The state after a step that goes on, or the state after reset. -/
def nextOf (o : Host.Outcome State Fault Refusal) : State := match o with
  | .next s => s
  | _ => State.reset

/-- A word stands before its bundle, whose one lane is thread 0 and has no fault before it: Issues, as a computation. -/
def goes (w : WordSpec) (s : State) : Bool := match prelude w s with
  | .go _ ks => ks == [0] && ((getThread s 0).map fun t => ready s w t).getD false
  | _ => false

theorem issues_of_goes {w : WordSpec} {s : State} (h : goes w s = true) : ∃ c, Issues w c [0] s := by
  unfold goes at h
  split at h
  · rename_i c ks hp
    simp only [Bool.and_eq_true, beq_iff_eq] at h
    obtain ⟨rfl, h⟩ := h
    refine ⟨c, hp, by simp, fun k hk => ?_⟩
    obtain rfl := List.mem_singleton.1 hk
    cases hg : getThread s 0 with
    | none => simp [hg] at h
    | some t => exact ⟨t, rfl, by simpa [hg] using h⟩
  · simp at h

/-- Reaches, as a computation. -/
def reaches (s : State) (x : Via) (a : Acc) (asid va pa : Nat) : Bool := decide (va < 2 ^ 57) && match walkNow s x a asid va with
  | .leaf l => !l.gather && !l.remote && !l.zf && (!(isHost l.frame || isHost (l.frame + va % pageBytes l.size)) || hostPathOpen s) &&
      decide (pa = l.frame + va % pageBytes l.size)
  | _ => false

theorem reaches_of {s : State} {x : Via} {a : Acc} {asid va pa : Nat} (h : reaches s x a asid va pa = true) : Reaches s x a asid va pa := by
  unfold reaches at h
  simp only [Bool.and_eq_true, decide_eq_true_eq] at h
  refine ⟨h.1, ?_⟩
  split at h
  · rename_i l hl
    simp only [Bool.and_eq_true, decide_eq_true_eq, Bool.not_eq_true'] at h
    obtain ⟨hv, ⟨⟨⟨hg, hr⟩, hz⟩, hp⟩, he⟩ := h
    refine ⟨l, hl, hg, hr, hz, fun hh => ?_, he⟩
    obtain hh | hh := hh <;> simpa [hh] using hp
  · simp at h

/-! Ill-formed instructions are refused (R59, R62, R112, R182). -/

theorem test_movsr_number : ¬ (Instr.movsr 0 22).WellFormed := by simp only [Instr.WellFormed]; decide
theorem test_pcomb_not_pb : ¬ (Instr.pcomb .not 1 2 0 3).WellFormed := by simp only [Instr.WellFormed]; decide
theorem test_xfer_not_p0 : ¬ (Instr.xfer 0 0 true).WellFormed := by simp only [Instr.WellFormed]; decide
theorem test_xfer_call_not_p0 : ¬ (Instr.xferCall 0 0 true).WellFormed := by simp only [Instr.WellFormed]; decide
theorem test_xfer_ret_not_p0 : ¬ (Instr.xferRet 0 0 true).WellFormed := by simp only [Instr.WellFormed]; decide
theorem test_form_bundle_port : ¬ (Instr.formBundle 0 4).WellFormed := by simp only [Instr.WellFormed]; decide
theorem test_slot_number : ¬ (Instr.slotBind 128).WellFormed ∧ ¬ (Instr.slotUnbind 128).WellFormed ∧ ¬ (Instr.entryTake 128).WellFormed ∧
    ¬ (Instr.entryWaitPoll 128).WellFormed ∧ ¬ (Instr.entryHandOn 128).WellFormed ∧ ¬ (Instr.graphStart 128).WellFormed := by simp only [Instr.WellFormed]; decide
theorem test_die_number : ¬ (Instr.faultRecordWrite 4).WellFormed ∧ ¬ (Instr.walkComplete 0 { entry := 1024 }).WellFormed ∧
    ¬ (Instr.zeroFillFirstWrite 4 0).WellFormed := by simp only [Instr.WellFormed]; decide
theorem test_privet_records : ¬ (Instr.privetSlot [(0, 0), (1, 0), (2, 0), (3, 0), (4, 0)]).WellFormed := by simp only [Instr.WellFormed]; decide
/-- A frame in good form, and one whose DPKG has 14 bits. -/
def frame0 : Frame := { dpkg := 0, spkg := 1, cls := 0, entropy := 0, stamp := 5, addr := 0x20000, asid := 0, tag := 7, ack := 0, op := 1, subop := 0, len := 8, data := natLe 8 8 }
theorem test_frame_fields : frame0.WellFormed ∧ ¬ Frame.WellFormed { frame0 with dpkg := 2 ^ 13 } := by
  unfold Frame.WellFormed; decide
theorem test_frame_port : ¬ (Instr.kolozRead 32 frame0).WellFormed ∧ (Instr.kolozRead 31 frame0).WellFormed := by
  simp only [Instr.WellFormed, Frame.WellFormed]; decide

/-! A word of every row of the opcode map, from its fixed bits and its fields (R48, R60 to R71), and the instruction that it
stands for. -/

/-- Class 0. -/
def words0 : List (BitVec 32 × Instr) := [
  (0x00230C24, .iadd .sati 12 24 36),
  (0x01230C24, .isub .sati 12 24 36),
  (0x02230C24, .imul .hiI 12 24 36),
  (0x03230C24, .imin .n 12 24 36),
  (0x04230C24, .imax .n 12 24 36),
  (0x05230C24, .iabsd .n 12 24 36),
  (0x06030C24, .and 12 24 36),
  (0x07030C24, .or 12 24 36),
  (0x08030C24, .xor 12 24 36),
  (0x09030C24, .andn 12 24 36),
  (0x0A030C24, .shl 12 24 36),
  (0x0B230C24, .shr .arith 12 24 36),
  (0x0C030C24, .rotl 12 24 36),
  (0x0D030C00, .bcnt 12 24),
  (0x0D230C00, .clz 12 24),
  (0x0D430C00, .ctz 12 24),
  (0x0D630C00, .bitrev 12 24),
  (0x0D830C00, .not 12 24),
  (0x0E230C24, .fext .i 12 24 36),
  (0x0F030C24, .fins 12 24 36)]
theorem test_words_class_0 : ∀ e ∈ words0, decodeWord e.1 = .ok (.instr e.2) := by decide +kernel

/-- Class 1. -/
def words1 : List (BitVec 32 × Instr) := [
  (0x10180155, .movi 12 341),
  (0x11186155, .iaddi 12 24 341),
  (0x12186155, .imuli 12 24 341),
  (0x13186155, .andi 12 24 341),
  (0x14186155, .ori 12 24 341),
  (0x15186155, .xori 12 24 341),
  (0x16186015, .shli 12 24 21),
  (0x17186015, .shri 12 24 21),
  (0x18186015, .sari 12 24 21),
  (0x19186155, .add64i 12 24 341),
  (0x1A030C24, .add64 12 24 36),
  (0x1B630C24, .lea64 3 12 24 36),
  (0x1C030C24, .sub64 12 24 36),
  (0x1D230C00, .mov .w2 12 24),
  (0x1E180015, .movsr 12 21),
  (0x1F180015, .movl 12 21)]
theorem test_words_class_1 : ∀ e ∈ words1, decodeWord e.1 = .ok (.instr e.2) := by decide +kernel

/-- Class 2. -/
def words2 : List (BitVec 32 × Instr) := [
  (0x20230C24, .fadd .rz 12 24 36),
  (0x21230C24, .fsub .rz 12 24 36),
  (0x22230C24, .fmul .rz 12 24 36),
  (0x23230C24, .fmin .nan 12 24 36),
  (0x24230C24, .fmax .nan 12 24 36),
  (0x25230C24, .fdiv .rz 12 24 36),
  (0x26030C00, .fabs 12 24),
  (0x26230C00, .fneg 12 24),
  (0x26430C00, .fsat 12 24),
  (0x26630C00, .ffrac 12 24),
  (0x26A30C00, .fround .rz 12 24),
  (0x27030C24, .fcopys 12 24 36),
  (0x28230C24, .fldx .rz 12 24 36),
  (0x29030C00, .fkind 12 24),
  (0x2A230C24, .padd .f16 12 24 36),
  (0x2B230C24, .pmul .f16 12 24 36),
  (0x2C230C24, .pmin .f16 12 24 36),
  (0x2D230C24, .pmax .f16 12 24 36),
  (0x2E230C24, .fdp2 .f16 12 24 36)]
theorem test_words_class_2 : ∀ e ∈ words2, decodeWord e.1 = .ok (.instr e.2) := by decide +kernel

/-- Class 3. -/
def words3 : List (BitVec 32 × Instr) := [
  (0x30230C00, .fcvi .rzI 12 24),
  (0x31230C00, .icvf .n 12 24),
  (0x32230C24, .pack16 .f16 12 24 36),
  (0x33230C00, .unpk16 .bf16Hi 12 24),
  (0x34630C24, .cvtn 3 12 24 36),
  (0x35630C24, .cvtw 3 12 24 36),
  (0x37630C00, .cbdec 3 12 24),
  (0x38030C00, .recip 12 24),
  (0x38230C00, .rroot 12 24),
  (0x38430C00, .sqrt 12 24),
  (0x38630C00, .exp2 12 24),
  (0x38830C00, .log2 12 24),
  (0x38A30C00, .tanh 12 24),
  (0x39030C00, .sint 12 24),
  (0x39230C00, .cost 12 24),
  (0x3A230C00, .icvi .n8 12 24),
  (0x3B030C24, .bsel 12 24 36),
  (0x3D030C24, .isgna 12 24 36)]
theorem test_words_class_3 : ∀ e ∈ words3, decodeWord e.1 = .ok (.instr e.2) := by decide +kernel

/-- Class 4. -/
def words4 : List (BitVec 32 × Instr) := [
  (0x40230C24, .shfl .below 12 24 36),
  (0x41230C00, .gpoll .every 12 24),
  (0x42230C00, .ired .minI 12 24),
  (0x43230C00, .fred .min 12 24),
  (0x46030C00, .peers 12 24),
  (0x47030C24, .bcast 12 24 36),
  (0x48030000, .leader 12),
  (0x49230C00, .ddx .cy 12 24),
  (0x4A000000, .gjoin),
  (0x4B230C24, .compact .w16 12 24 36)]
theorem test_words_class_4 : ∀ e ∈ words4, decodeWord e.1 = .ok (.instr e.2) := by decide +kernel

/-- Class 5. -/
def words5 : List (BitVec 32 × Instr) := [
  (0x502CCC24, .icmp .ne 3 3 24 36),
  (0x512CCC55, .icmpi .ne 3 3 24 85),
  (0x522CCC24, .fcmp .ne 3 3 24 36),
  (0x532CCC24, .icmp64 .ne 3 3 24 36),
  (0x542CC183, .pcomb .or 3 3 3 3),
  (0x55030000, .pget 12),
  (0x56000C00, .pset 24),
  (0x57630C24, .pick 3 12 24 36)]
theorem test_words_class_5 : ∀ e ∈ words5, decodeWord e.1 = .ok (.instr e.2) := by decide +kernel

/-- Class 6. -/
def words6 : List (BitVec 32 × Instr) := [
  (0x60630C55, .ldN8 3 12 24 85),
  (0x61630C55, .ldI8 3 12 24 85),
  (0x62630C55, .ldN16 3 12 24 85),
  (0x63630C55, .ldI16 3 12 24 85),
  (0x64630C55, .ld32 3 12 24 85),
  (0x65630C55, .ld64 3 12 24 85),
  (0x66630C55, .ld128 3 12 24 85),
  (0x67630C55, .st8 3 12 24 85),
  (0x68630C55, .st16 3 12 24 85),
  (0x69630C55, .st32 3 12 24 85),
  (0x6A630C55, .st64 3 12 24 85),
  (0x6B630C55, .st128 3 12 24 85),
  (0x6C630C55, .lds32 3 12 24 85),
  (0x6D630C55, .sts32 3 12 24 85),
  (0x6E630C55, .lds128 3 12 24 85),
  (0x6F630C55, .sts128 3 12 24 85)]
theorem test_words_class_6 : ∀ e ∈ words6, decodeWord e.1 = .ok (.instr e.2) := by decide +kernel

/-- Class 7. -/
def words7 : List (BitVec 32 × Instr) := [
  (0x70230C24, .atom .minI 12 24 36),
  (0x71230C24, .atom64 .minN 12 24 36),
  (0x72230C24, .atomf .min 12 24 36),
  (0x73230C24, .cas .w64 12 24 36),
  (0x74200C24, .radd .f32x2 24 36),
  (0x75200000, .rflush .pkg),
  (0x76230C24, .chld .ld32 12 24 36),
  (0x77030C00, .cld 12 24),
  (0x78000C24, .cst 24 36),
  (0x7E230C24, .atoms .minI 12 24 36),
  (0x79230C15, .tld .b16 12 24 21),
  (0x7A230C15, .tst .b16 12 24 21),
  (0x7B230C15, .tldf .b 12 24 21),
  (0x7C430C15, .tstf 12 24 21),
  (0x7D030C00, .tctlMap 12 24),
  (0x7D200015, .tctlFill 21),
  (0x7D400015, .tctlDrain 21),
  (0x7D600015, .tctlFree 21),
  (0x7D830015, .tctlQuery 12 21),
  (0x7F030C00, .barwArrive 12 24),
  (0x7F200C24, .barwWait 24 36),
  (0x7F430C00, .barwArriveWait 12 24),
  (0x7F600C24, .barwInit 24 36)]
theorem test_words_class_7 : ∀ e ∈ words7, decodeWord e.1 = .ok (.instr e.2) := by decide +kernel

/-- Class 8. -/
def words8 : List (BitVec 32 × Instr) := [
  (0x80630C24, .mma 3 12 24 36),
  (0x81630C24, .mmaU 3 12 24 36),
  (0x82630C24, .mmaSp 3 12 24 36),
  (0x83630C24, .mmaSpU 3 12 24 36),
  (0x84630C00, .cmprs 3 12 24),
  (0x85030C24, .spalpha 12 24 36),
  (0x86030C24, .spblend 12 24 36),
  (0x87030C24, .keypk 12 24 36),
  (0x88030C24, .triedge 12 24 36)]
theorem test_words_class_8 : ∀ e ∈ words8, decodeWord e.1 = .ok (.instr e.2) := by decide +kernel

/-- Class 9. -/
def words9 : List (BitVec 32 × Instr) := [
  (0x90555550, .wait 21 21 5 5),
  (0x91400000, .bar .cluster),
  (0x92200C00, .job .sort 24),
  (0x93030C24, .qpush 12 24 36),
  (0x94000000, .txbegin),
  (0x950C0000, .txcommit 3),
  (0x96000000, .txabort),
  (0x97000000, .snapOpen),
  (0x97800000, .snapClose),
  (0x98200000, .fence .sys),
  (0x99000155, .trap 341),
  (0x9A000000, .brkpt),
  (0x9B000000, .yield),
  (0x9C000000, .stop),
  (0x9D800000, .iflush .core),
  (0x9E010C0C, .thrclr 24 12),
  (0x9E020C0C, .thread 24 12),
  (0x9E030C0C, .gridend 24 12),
  (0x9E040C0C, .agemax 24 12),
  (0x9E050C0C, .laurelsz 24 12),
  (0x9E060C0C, .migth 24 12),
  (0x9E070C0C, .frameadd 24 12),
  (0x9E080C0C, .migrate 24 12),
  (0x9E090C0C, .root 24 12),
  (0x9E0A0C0C, .inval 24 12),
  (0x9E0B0C0C, .replay 24 12),
  (0x9E0C0C0C, .ringset 24 12),
  (0x9E0D0C0C, .queue 24 12),
  (0x9E0E0C0C, .release 24 12),
  (0x9E0F0C0C, .qpopen 24 12),
  (0x9E100C0C, .cgroup 24 12),
  (0x9E110C0C, .pkgset 24 12),
  (0x9E120C0C, .exportPage 24 12),
  (0x9E130C0C, .retire 24 12),
  (0x9E140C0C, .dbgmatch 24 12),
  (0x9E150C0C, .teamstop 24 12),
  (0x9E160C0C, .debug 24 12),
  (0x9E170C0C, .preempt 24 12),
  (0x9E180C0C, .restore 24 12),
  (0x9E190C0C, .boxread 24 12)]
theorem test_words_class_9 : ∀ e ∈ words9, decodeWord e.1 = .ok (.instr e.2) := by decide +kernel

/-- Class A. -/
def wordsA : List (BitVec 32 × Instr) := [
  (0xA0600155, .prep 3 341),
  (0xA1606000, .prepr 3 24),
  (0xA26E0000, .xfer 3 3 true),
  (0xA36E0000, .xferCall 3 3 true),
  (0xA46E0000, .xferRet 3 3 true),
  (0xA5600C00, .bcopy 3 3),
  (0xA6606000, .bload 3 24),
  (0xA7600000, .binv 3),
  (0xA8606000, .xdec 3 24)]
theorem test_words_class_A : ∀ e ∈ wordsA, decodeWord e.1 = .ok (.instr e.2) := by decide +kernel

/-- Class C. -/
def wordsC : List (BitVec 32 × Instr) := [
  (0xC186122C, .fmac 12 24 36 44)]
theorem test_words_class_C : ∀ e ∈ wordsC, decodeWord e.1 = .ok (.instr e.2) := by decide +kernel

/-- Class D. -/
def wordsD : List (BitVec 32 × Instr) := [
  (0xD186122C, .pmac 12 24 36 44)]
theorem test_words_class_D : ∀ e ∈ wordsD, decodeWord e.1 = .ok (.instr e.2) := by decide +kernel

/-- Class E. -/
def wordsE : List (BitVec 32 × Instr) := [
  (0xE186122C, .imad 12 24 36 44)]
theorem test_words_class_E : ∀ e ∈ wordsE, decodeWord e.1 = .ok (.instr e.2) := by decide +kernel

/-- The rows whose MOD has parts (R63, R66); UNPK3's word is the source's own. -/
theorem test_words_mod : decodeWord 0x36C20180 = .ok (.instr (.unpk3 true 2 8 3)) ∧
    decodeWord 0x3C230C24 = .ok (.instr (.dotb4 false false true 12 24 36)) ∧
    decodeWord 0x3C830C24 = .ok (.instr (.dotb4 true false false 12 24 36)) ∧
    decodeWord 0x44A30C00 = .ok (.instr (.iscan true .maxI 12 24)) ∧
    decodeWord 0x45430C00 = .ok (.instr (.fscan false .max 12 24)) := by decide +kernel

/-- Words that the source prints beside their text, and words that the map does not list (R59). -/
theorem test_words_printed : decodeWord 0x34614082 = .ok (.instr (.cvtn 3 5 1 2)) ∧
    decodeWord 0xC0604104 = .ok (.instr (.fmac 3 1 2 4)) ∧ decodeWord 0xD0604104 = .ok (.instr (.pmac 3 1 2 4)) ∧
    decodeWord 0x84221800 = .ok (.instr (.cmprs 1 8 48)) ∧ decodeWord 0x83200410 = .ok (.instr (.mmaSpU 1 0 8 16)) ∧
    decodeWord 0x6D020101 = .ok (.instr (.sts32 0 8 2 1)) ∧ decodeWord 0x51040087 = .ok (.instr (.icmpi .eq 1 0 1 7)) ∧
    decodeWord 0x1D230200 = .ok (.instr (.mov .w2 12 4)) ∧ decodeWord 0x76430503 = .ok (.instr (.chld .addr 12 10 3)) ∧
    decodeWord 0x6A033C00 = .ok (.instr (.st64 0 12 120 0)) ∧ decodeWord 0x92000500 = .ok (.instr (.job .copy 10)) ∧
    decodeWord 0x9007FFF0 = .ok (.instr (.wait 1 63 15 15)) := by decide +kernel
theorem test_words_reserved : [(0x00600000 : BitVec 32), 0x45600000, 0x91600000, 0x91200001, 0xA2020000, 0xF0000000].all
    (fun w => !(decodeWord w).isOk) = true := by decide +kernel
theorem test_bar_words : decodeWord 0x91200000 = .ok (.instr (.bar .team)) ∧ decodeWord 0x91400000 = .ok (.instr (.bar .cluster)) := by decide +kernel
theorem test_hint_words : decodeWord 0xB4000008 = .ok (.hint (hint 4 8)) ∧ decodeWord 0xB1500000 = .ok (.hint (hint 1 0x500000)) ∧
    decodeWord 0xB20000D2 = .ok (.hint (hint 2 0xD2)) := by decide +kernel

/-! Results that the source works out (R93 to R145, R173, R175 to R178), one step each on one lane: instruction, hints, registers
before, registers after. -/

/-- Does the step leave the registers as listed? -/
def runs (e : Instr × List Hint × List (Nat × Nat) × List (Nat × Nat)) : Bool :=
  e.2.2.2.all fun r => regAfter (exec e.1 (issuing e.2.1 (regs e.2.2.1))) r.1 == some (BitVec.ofNat 32 r.2)

/-- The sample results of 05_integer.md. -/
def integerSamples : List (Instr × List Hint × List (Nat × Nat) × List (Nat × Nat)) := [
  (.iadd .sati 5 0 1, [], [(0, 0x80000000), (1, 0xFFFFFFFF)], [(5, 0x80000000)]),
  (.isub .satn 5 0 1, [], [(0, 3), (1, 5)], [(5, 0)]),
  (.imul .lo 5 0 1, [], [(0, 0xFFFFFFFF), (1, 2)], [(5, 0xFFFFFFFE)]),
  (.imul .hiI 5 0 1, [], [(0, 0xFFFFFFFF), (1, 2)], [(5, 0xFFFFFFFF)]),
  (.imul .hiN 5 0 1, [], [(0, 0xFFFFFFFF), (1, 2)], [(5, 1)]),
  (.iabsd .n 5 0 1, [], [(0, 0x80000000), (1, 0x7FFFFFFF)], [(5, 1)]),
  (.shl 5 0 1, [], [(0, 1), (1, 0x20)], [(5, 0)]),
  (.shr .arith 5 0 1, [], [(0, 0x80000000), (1, 0x28)], [(5, 0xFFFFFFFF)]),
  (.rotl 5 0 1, [], [(0, 0x80000001), (1, 0x21)], [(5, 3)]),
  (.bcnt 5 0, [], [(0, 0x1234)], [(5, 5)]),
  (.clz 5 0, [], [(0, 0x1234)], [(5, 19)]),
  (.ctz 5 0, [], [(0, 0x1234)], [(5, 2)]),
  (.fext .n 5 0 1, [], [(0, 0xF0F01234), (1, 0x0804)], [(5, 0x23)]),
  (.fext .n 5 0 1, [], [(0, 0xF0F01234), (1, 0x081C)], [(5, 0xF)]),
  (.fext .i 5 0 1, [], [(0, 0xF0F01234), (1, 0x081C)], [(5, 0xFFFFFFFF)]),
  (.fins 5 0 1, [], [(0, 0xAB), (1, 0x081C)], [(5, 0xB0000000)])]
theorem test_integer_samples : integerSamples.all runs = true := by decide +kernel

/-- Immediates, pairs and moves (R101 to R107): ranges, the carry into a pair's high half, and R58's HINT.IMM. -/
def immediateSamples : List (Instr × List Hint × List (Nat × Nat) × List (Nat × Nat)) := [
  (.movi 5 0x200, [], [], [(5, 0xFFFFFE00)]),
  (.movi 5 0x000, [hint 0 0x490], [], [(5, 0x124000)]),
  (.iaddi 5 0 0x3FF, [], [(0, 0)], [(5, 0xFFFFFFFF)]),
  (.imuli 5 0 3, [], [(0, 0x55555556)], [(5, 2)]),
  (.andi 5 0 0x3F0, [], [(0, 0xFFFF)], [(5, 0xFFF0)]),
  (.shli 5 0 31, [], [(0, 3)], [(5, 0x80000000)]),
  (.sari 5 0 31, [], [(0, 0x80000000)], [(5, 0xFFFFFFFF)]),
  (.add64i 4 0 1, [], [(0, 0xFFFFFFFF), (1, 0xFFFFFFFF)], [(4, 0), (5, 0)]),
  (.add64 4 0 2, [], [(0, 0xFFFFFFFF), (1, 0), (2, 1), (3, 0)], [(4, 0), (5, 1)]),
  (.sub64 4 0 2, [], [(0, 0), (1, 1), (2, 1), (3, 0)], [(4, 0xFFFFFFFF), (5, 0)]),
  (.lea64 3 4 0 2, [], [(0, 8), (1, 0), (2, 0x20000000)], [(4, 8), (5, 1)]),
  (.mov .w4 4 0, [], [(0, 1), (1, 2), (2, 3), (3, 4)], [(4, 1), (5, 2), (6, 3), (7, 4)]),
  (.imad 5 0 1 2, [], [(0, 0xFFFFFFFF), (1, 2), (2, 3)], [(5, 1)]),
  (.movl 5 5, [], [], [(5, 1024)]),
  (.movsr 5 16, [], [], [(5, 0)])]
theorem test_immediate_samples : immediateSamples.all runs = true := by decide +kernel

/-- The sample results of 06_float.md. -/
def floatSamples : List (Instr × List Hint × List (Nat × Nat) × List (Nat × Nat)) := [
  (.fadd .rne 5 0 1, [], [(0, 0x3F800000), (1, 0x33800000)], [(5, 0x3F800000)]),
  (.fadd .ru 5 0 1, [], [(0, 0x3F800000), (1, 0x33800000)], [(5, 0x3F800001)]),
  (.fadd .rna 5 0 1, [], [(0, 0x3F800000), (1, 0x33800000)], [(5, 0x3F800001)]),
  (.fmul .rz 5 0 1, [], [(0, 0x7F7FFFFF), (1, 0x40000000)], [(5, 0x7F7FFFFF)]),
  (.fmul .rne 5 0 1, [], [(0, 0x7F7FFFFF), (1, 0x40000000)], [(5, 0x7F800000)]),
  (.fmin .number 5 0 1, [], [(0, 0x7FC00001), (1, 0x3F800000)], [(5, 0x3F800000)]),
  (.fmin .nan 5 0 1, [], [(0, 0x7FC00001), (1, 0x3F800000)], [(5, 0x7FC00000)]),
  (.fmin .number 5 0 1, [], [(0, 0x80000000), (1, 0)], [(5, 0x80000000)]),
  (.fdiv .rne 5 0 1, [], [(0, 0x3F800000), (1, 0x40400000)], [(5, 0x3EAAAAAB)]),
  (.fdiv .rz 5 0 1, [], [(0, 0x3F800000), (1, 0x40400000)], [(5, 0x3EAAAAAA)]),
  (.fkind 5 0, [], [(0, 1)], [(5, 0x80)]),
  (.icvf .n 5 0, [], [(0, 0xFFFFFFFF)], [(5, 0x4F800000)]),
  (.icvf .n 5 0, [hint 4 1], [(0, 0xFFFFFFFF)], [(5, 0x4F7FFFFF)]),
  (.pack16 .bf16 5 0 1, [], [(0, 0x3F808000), (1, 0x3F818000)], [(5, 0x3F823F80)]),
  (.dotb4 false false false 5 0 1, [], [(0, 0x010203FF), (1, 0x04040404), (5, 10)], [(5, 30)]),
  (.dotb4 false true true 5 0 1, [], [(0, 0x010203FF), (1, 0x04040404), (5, 10)], [(5, 1054)]),
  (.isgna 5 0 1, [], [(0, 0xFFFFFFFB), (1, 7), (5, 100)], [(5, 93)]),
  (.bsel 5 0 1, [], [(0, 0x44332211), (1, 0x88776655), (5, 0x4567)], [(5, 0x55667788)]),
  (.bsel 5 0 1, [], [(0, 0x44332211), (1, 0x88776655), (5, 0xF)], [(5, 0x111111FF)]),
  (.fdp2 .bf16 5 0 1, [], [(0, 0x39803980), (1, 0x39803980), (5, 0x3F800000)], [(5, 0x3F800001)]),
  (.fmac 5 0 0 2, [], [(0, 0x3F800800), (2, 0xBF800000)], [(5, 0x3A000400)]),
  (.fmac 5 0 1 2, [hint 4 8], [(0, 0x7F7FFFFF), (1, 0x40000000)], [(5, 0x7F7FFFFF)]),
  (.fmac 5 0 1 2, [], [(0, 0x7F7FFFFF), (1, 0x40000000)], [(5, 0x7F800000)]),
  (.unpk3 true 1 8 3, [], [(3, 0xF5B47900)], [(8, 0), (12, 0)]),
  (.unpk3 true 2 8 3, [], [(3, 0xF5B47900)], [(8, 0xFFFFFFFF), (9, 0xFFFFFFFF), (10, 1), (11, 0xFFFFFFFF), (12, 1)])]
theorem test_float_samples : floatSamples.all runs = true := by decide +kernel

/-- The conversions of 06_float.md under slots 3 and 4, and the codebook index of 02_numbers.md. -/
def slotSamples : List (Instr × List Hint × List (Nat × Nat) × List (Nat × Nat)) := [
  (.cvtn 3 5 0 1, [], [(0, 0x40A00000), (1, 0x80)], [(5, 2)]),
  (.cvtn 3 5 0 1, [], [(0, 0xC1A00000), (1, 0x80)], [(5, 8)]),
  (.cvtw 3 5 0 1, [], [(0, 8), (1, 0x80)], [(5, 0xC1700000)]),
  (.cvtn 4 5 0 1, [], [(0, 0x40A00000), (1, 0x7F)], [(5, 6)]),
  (.cvtn 4 5 0 1, [], [(0, 0x40E00000), (1, 0x7F)], [(5, 7)]),
  (.cbdec 5 6 0, [], [(0, 0x8D85)], [(6, 0x03FB01FD), (7, 0x03070101)]),
  (.fcvi .rneI 5 0, [], [(0, 0x40200000)], [(5, 2)]),
  (.fcvi .rdI 5 0, [], [(0, 0xC0200000)], [(5, 0xFFFFFFFD)]),
  (.fcvi .rzN 5 0, [], [(0, 0xBFC00000)], [(5, 0)])]
theorem test_slot_samples : slotSamples.all runs = true := by decide +kernel

/-- The splats and the edges of 08_matrix_splat.md, and the pruned row. -/
def splatSamples : List (Instr × List Hint × List (Nat × Nat) × List (Nat × Nat)) := [
  (.spalpha 20 24 28, [], [(27, 0x3F000000)], [(20, 0x3F000000)]),
  (.spalpha 20 24 28, [], [(27, 0x3F800000)], [(20, 0x3F7F0000)]),
  (.spblend 32 36 20, [], [(35, 0x3E800000), (32, 0x3F000000), (36, 0x3F000000), (20, 0x3F400000)], [(32, 0x3F180000), (35, 0x3D800000)]),
  (.spblend 32 36 20, [], [(35, 0x38800000), (32, 7), (36, 0x3F000000), (20, 0x3F400000)], [(32, 7), (35, 0x38800000)]),
  (.keypk 4 0 1, [], [(0, 0x3F000000), (1, 1)], [(4, 0x3F000000), (5, 1)]),
  (.keypk 4 0 1, [], [(0, 0xBF000000), (1, 9)], [(4, 0), (5, 9)]),
  (.triedge 4 8 12, [], [(11, 0x40800000), (12, 0x3F800000), (13, 0x3F800000)], [(4, 0x40800000), (5, 1)]),
  (.triedge 4 8 12, [], [(11, 0x40800000), (13, 0x40000000)], [(4, 0), (5, 1)]),
  (.triedge 4 8 12, [], [(11, 0x40800000), (12, 0xBF800000), (13, 0x40000000)], [(4, 0xC0800000), (5, 0)]),
  (.cmprs 1 8 48, [hint 1 0x500000], [(48, 0x0107F903), (49, 0x0502FE00)], [(40, 0x333333A6), (41, 0x33333333), (8, 0x05FE07F9), (9, 0)])]
theorem test_splat_samples : splatSamples.all runs = true := by decide +kernel

/-- One rounding for each k-block (02_numbers.md), and the sparse row of 08_matrix_splat.md: 100 - 14 + 21 - 12 + 40 = 135. -/
theorem test_matrix_elements :
    macElem smallGrid 2 0x331 false [0x1818F878, 0x18] [] [0x18187878, 0x18] 0x48000000 = 0x48000001 ∧
    macElem smallGrid 1 0x101881 true [0x05FE07F9] [0x333333A6, 0x33333333] [0x04030201, 0x08070605] 100 = 135 ∧
    metaOk 0x101881 [0x333333A7, 0x33333333] = false := by decide +kernel

/-- The sort of 14_engines.md: payloads by key, by tile alone, and the range words. -/
theorem test_sort :
    let l : List (Nat × Nat) := [(0x140000000, 0), (0x40400000, 1), (0x13F000000, 2), (0x40400000, 3), (0x53F800000, 4), (0x3F800000, 5)]
    (stableSort (fun k => k % 2 ^ 48) l).map (·.2) = [5, 1, 3, 2, 0, 4] ∧
    (stableSort (fun k => k / 2 ^ 32 % 2 ^ 16) l).map (·.2) = [1, 3, 5, 0, 2, 4] ∧
    (List.range 3).map (rangeWord (32 * 2 ^ 312 + 16 * 2 ^ 304) ((stableSort (fun k => k % 2 ^ 48) l).map (·.1))) =
      [0x300000000, 0x500000003, 0x500000005] := by decide +kernel

/-- The group of 07_group.md, thread 5 having exited: v4, v3 as its table has them, v1 = 1, v2 = 10. -/
def rounds : State := group fun k => regs [(4, if k = 0 then 0x4B800000 else 0x3F800000), (3, if k = 1 ∨ k = 3 ∨ k = 4 ∨ k = 7 then 1 else 0), (1, 1), (2, 10)]
/-- A register of every participant after a step. -/
def groupAfter (i : Instr) (n : Nat) : List (Option Nat) :=
  [0, 1, 2, 3, 4, 6, 7].map fun k => (after (exec i rounds) k).map fun t => (readReg t n).toNat
theorem test_group_samples :
    groupAfter (.shfl .flip 6 4 1) 6 = [0x3F800000, 0x4B800000, 0x3F800000, 0x3F800000, 0x3F800000, 0x3F800000, 0x3F800000].map some ∧
    groupAfter (.fred .add 8 4) 8 = (List.replicate 7 0x4B800002).map some ∧
    groupAfter (.compact .w8 9 3 2) 9 = [10, 10, 11, 11, 12, 13, 13].map some := by decide +kernel

/-- A lane whose value stands in the first register alone waits at SHFL while another thread of its group is elsewhere (R147). -/
theorem test_join_waits : (after (exec (.leader 5) { rounds with ex := { rounds.ex with threads := (8, { placedThread with glane := 5, hlane := 5, pc := 9 }) :: rounds.ex.threads } }) 0).map
    (fun t => (t.st, t.waitOn, t.pc)) = some (.waiting, .join, 0) := by decide +kernel

/-! Single steps. -/

/-- IADD.sati v6, v1, v2 placed and fetched: the PC moves past it. -/
theorem test_step_fetches : (after (step (State.reset.withFetchWord 32 0x00218082)) 0).map (fun t => (t.pc, readReg t 6)) = some (1, 0) := by decide +kernel
/-- A word that the map does not list: ILLEGAL_OP, parked with no handler (R57, R59, R382). -/
theorem test_step_illegal : (after (step (State.reset.withFetchWord 32 0x00600000)) 0).map (fun t => (t.pc, t.st, t.fcode, t.fpc)) =
    some (0, .parked, 0x101, 0) := by decide +kernel
/-- A HINT.IMM before ADD is a hint that the target does not accept: ILLEGAL_HINT (R56, R57). -/
theorem test_wrong_hint : (after (exec (.iadd .wrap 5 0 1) (issuing [hint 0 1] id)) 0).map (fun t => t.fcode) = some 0x102 := by decide +kernel
/-- A span past RegCount and a temporary never written in the run: REG_RANGE, TEMP_UNDEF (R49, R51). -/
theorem test_operand_faults : (after (exec (.mov .w4 118 0) (issuing [] id)) 0).map (fun t => t.fcode) = some 0x105 ∧
    (after (exec (.iadd .wrap 5 120 1) (issuing [] id)) 0).map (fun t => t.fcode) = some 0x103 := by decide +kernel
/-- The calls of 09_transfer.md: PREP b1, 7 at PC 0; XFER.CALL and XFER.RET; XFER.RET at DEPTH 0. -/
theorem test_prep : (after (exec (.prep 1 7) (issuing [] id)) 0).map (fun t => readBt t 1) = some { prepared := true, target := 7 } := by decide +kernel
theorem test_xfer_call : (after (exec (.xferCall 2 0 false) (issuing [] fun t => writeBt t 2 { prepared := true, target := 14 })) 0).map
    (fun t => (t.pc, t.depth, readBt t 7)) = some (14, 1, { prepared := true, target := 1 }) := by decide +kernel
theorem test_xfer_ret : (after (exec (.xferRet 7 0 false) (issuing [] fun t => { writeBt t 7 { prepared := true, target := 12 } with depth := 2 })) 0).map
    (fun t => (t.pc, t.depth)) = some (12, 1) ∧
    (after (exec (.xferRet 7 0 false) (issuing [] fun t => writeBt t 7 { prepared := true, target := 12 })) 0).map (fun t => t.fcode) = some 0x116 := by decide +kernel
theorem test_xdec : (after (exec (.xdec 1 4) (issuing [] fun t => regs [(4, 1)] (writeBt t 1 { prepared := true, target := 9 }))) 0).map
    (fun t => (t.pc, readReg t 4)) = some (1, 0) ∧ (after (exec (.xfer 1 0 false) (issuing [] id)) 0).map (fun t => t.fcode) = some 0x104 := by decide +kernel
/-- The state with the record's HANDLER at word 11. -/
def handled (f : Thread → Thread) : State :=
  let s := issuing [] f
  { s with ex := { s.ex with grids := [(0, { smallGrid with record := smallGrid.record.set 3 11 })] } }
/-- The misaligned store of 19_faults.md, lane 3: FCODE 0x106, FADDR at 0xE, b7 at the word, DEPTH 1, the handler's PC; and the return
that restores the frame. -/
theorem test_misaligned_store : (after (exec (.st32 0 120 10 0) (handled fun t => { regs [(10, 0x1000E), (120, 103)] t with runPos := 8 })) 0).map
    (fun t => (t.fcode, t.faddr, t.depth, t.pc, readBt t 7, t.runPos)) = some (0x106, 0x1000E, 1, 11, { prepared := true, target := 0 }, 0) := by decide +kernel
theorem test_handler_return :
    let s := nextOf (exec (.st32 0 120 10 0) (handled fun t => { regs [(10, 0x1000E), (120, 103)] t with runPos := 8 }))
    let s := modCore { s with cur := some { core := 0, port := 0, fpc := 12 } } 0 fun c => { c with ports := [(0, [0])] }
    (after (exec (.xferRet 7 0 false) s) 0).map (fun t => (t.pc, t.depth, t.runPos, readReg t 120, t.frame)) = some (0, 0, 8, 103, none) := by decide +kernel
/-- TRAP goes to the word after it; its number is no argument of the fault (R383). -/
theorem test_trap : (after (exec (.trap 7) (handled id)) 0).map (fun t => (t.fcode, t.fpc, t.pc, readBt t 7)) =
    some (0x114, 0, 11, { prepared := true, target := 1 }) := by decide +kernel
/-- SYSOP: PRIV outside ASID 0; AGEMAX in it, with ARG for 0 (R385, R386, R329). -/
theorem test_sysop : (after (exec (.agemax 4 8) { issuing [] id with ex := { (issuing [] id).ex with grids := [(0, { smallGrid with record := smallGrid.record.set 18 5 })] } }) 0).map
    (fun t => t.fcode) = some 0x113 ∧
    (nextOf (exec (.agemax 4 8) (issuing [] (regs [(4, 200)])))).ex.ageMax = 200 ∧ regAfter (exec (.agemax 4 8) (issuing [] id)) 8 = some 1 := by decide +kernel
/-- A load and a store are outstanding until their homes have performed them (R219, R243, R244, R394). -/
theorem test_store_and_load :
    let s := nextOf (exec (.st32 0 2 0 0) (issuing [] (regs [(0, 0x20000), (2, 0x12345678)])))
    let u := nextOf (exec (.homeAccess 0 (0x20000 / 128) true) s)
    (getThread s 0).map (fun t => count t .st) = some 1 ∧ mread s.mm.mem 0x20000 4 = [0, 0, 0, 0] ∧
    mread u.mm.mem 0x20000 4 = [0x78, 0x56, 0x34, 0x12] ∧ (getThread u 0).map (fun t => count t .st) = some 0 ∧
    (getLine u (0x20000 / 128)).wts = 1 ∧ (getLine u (0x20000 / 128)).rts = 1 := by decide +kernel
theorem test_load_returns :
    let s := nextOf (exec (.ldI8 0 2 0 0x7F) (put8 0x20000 0x80 (issuing [] (regs [(0, 0x20001)]))))
    let u := nextOf (exec (.homeAccess 0 (0x20000 / 128) true) s)
    let v := nextOf (exec (.loadReturn 0 1) u)
    (getThread s 0).map (fun t => pendingReg t 2) = some true ∧ (getThread v 0).map (fun t => (readReg t 2, count t .ld)) = some (0xFFFFFF80, 0) := by decide +kernel
/-- ATOM.max.i returns the old word and leaves the greater (R247). -/
theorem test_atom :
    let s := nextOf (exec (.atom .maxI 2 0 4) (put8 0x20000 0xFFFFFFFF (issuing [] (regs [(0, 0x20000), (4, 3)]))))
    let u := nextOf (exec (.homeAccess 0 (0x20000 / 128) true) s)
    mread u.mm.mem 0x20000 4 = [3, 0, 0, 0] ∧ regAfter (exec (.loadReturn 0 1) u) 2 = some 0xFFFFFFFF := by decide +kernel
/-- BARW: the arrival that completes a phase of two inverts bit 31 and clears the count (R260). -/
theorem test_barw : arriveWord 0x00020001 = 0x80020000 ∧ arriveWord 0x80020000 = 0x80020001 ∧
    regAfter (exec (.barwArrive 5 0) (issuing [] (regs [(0, 8)]))) 5 = some 0 := by decide +kernel
/-- STS and LDS on the team's stash, and its end at 1024 bytes (R203, R246). -/
theorem test_stash : stashRead (getTeam (nextOf (exec (.sts32 0 2 0 1) (issuing [] (regs [(0, 8), (2, 77)])))) 0) 12 4 = 77 ∧
    (after (exec (.lds32 0 5 0 0) (issuing [] (regs [(0, 1024)]))) 0).map (fun t => t.fcode) = some 0x109 := by decide +kernel
/-- WAIT stands while a counter is above its field, and goes on where it is not (R398). -/
theorem test_wait : (after (exec (.wait 0 63 15 15) (issuing [] fun t => addOp t { id := 9, wid := 9, cnt := .ld, kind := .load .w32 })) 0).map (fun t => (t.st, t.pc)) =
    some (.waiting, 0) ∧
    (after (exec (.wait 1 63 15 15) (issuing [] fun t => addOp t { id := 9, wid := 9, cnt := .ld, kind := .load .w32 })) 0).map (fun t => (t.st, t.pc)) =
    some (.ready, 1) := by decide +kernel
/-- STOP with nothing outstanding ends the thread (R333). -/
theorem test_stop : (after (exec .stop (issuing [] id)) 0).map (fun t => t.st) = some .draining := by decide +kernel
/-- The tile of 17_tiles_launch.md: mapped as entry 0 with DOFF 25. -/
def tileRegs : Thread → Thread := regs [(16, 0x108), (17, 0x0C002000), (18, 10), (21, 0x303), (22, 0xFFFFFFFF)]
def tiled (f : Thread → Thread) : State :=
  let s := issuing [] fun t => f (tileRegs t)
  { s with ex := { s.ex with teams := [(0, { placedTeam with size := 4096, tileCount := 1 })]
                             grids := [(0, { smallGrid with record := (smallGrid.record.set 5 4096).set 11 0x10001 })] } }
theorem test_tctl_map :
    let s := nextOf (exec (.tctlMap 1 16) (tiled id))
    (getThread s 0).map (fun t => readReg t 1) = some 0 ∧ stashRead (getTeam s 0) 3072 4 = 0x108 ∧ (getTile s 0 0).map (·.doff) = some 3200 := by decide +kernel
/-- Its query: DOFF 25, MAPPED, READY; and an element outside the window reads as the fill value. -/
def readyTile : State :=
  let s := nextOf (exec (.tctlMap 1 16) (tiled id))
  let s := modTile s 0 0 fun x => { x with st := .ready, blocks := [(0, (0, 100)), (1, (0, 100))] }
  modCore { s with cur := some { core := 0, port := 0, fpc := 1 } } 0 fun c => { c with ports := [(0, [0])] }
theorem test_tile_ready : regAfter (exec (.tctlQuery 6 0) readyTile) 6 = some 0x0190000A ∧
    regAfter (exec (.tld .b32 5 2 0) (modThread readyTile 0 (regs [(2, 0x104)]))) 5 = some 0xFFFFFFFF ∧
    regAfter (exec (.tld .b32 5 2 0) (modThread readyTile 0 (regs [(2, 0x1FF)]))) 5 = some 0xFFFFFFFF := by decide +kernel
/-- The clock counts modulo 2^64 (R402). -/
theorem test_clock : (nextOf (exec .cycleCounter { State.reset with bd := { State.reset.bd with clock := 2 ^ 64 - 1 } })).bd.clock = 0 := by decide +kernel
/-- A page that no table maps parks the lane only when its walk has ended; a malformed leaf is posted (R365, R370). -/
theorem test_walk : walk paged 0 0x12345678 = .leaf gib ∧ walk paged 1 0 = .absent ∧ walk paged 0 0x8000000000 = .absent ∧
    walk (put8 0x3000 0xBC00000000010000 paged) 0 0 = .bad := by decide +kernel
/-- The indices of the walk of 18_translation.md. -/
theorem test_levels : [4, 3, 2, 1, 0].map (fun l => 0x200000013880 / 2 ^ levelShift l % (if l = 0 then 32 else 512)) = [0, 64, 0, 0, 1] := by decide +kernel

/-! For every obligation about words: words of each of its shapes issue in a state of these. -/

theorem issues_of_all {l : List WordSpec} {s : State} (h : l.all (goes · s) = true) : ∀ w ∈ l, ∃ c, Issues w c [0] s :=
  fun _ hw => issues_of_goes (List.all_eq_true.1 h _ hw)

theorem witness_IntegerAddSubtractResults_words : ∀ w ∈ [
    opSpec [sp1 8, sp1 12] [sp1 20]],
    ∃ c, Issues w c [0] (issuing [] id) := issues_of_all (by decide +kernel)
theorem witness_MultiplyAndOrderResults_words : ∀ w ∈ [
    opSpec [sp1 8, sp1 12] [sp1 20],
    opSpec [sp1 8, sp1 12, sp1 16] [sp1 20]],
    ∃ c, Issues w c [0] (issuing [] id) := issues_of_all (by decide +kernel)
theorem witness_BitwiseLogicResults_words : ∀ w ∈ [
    opSpec [sp1 8, sp1 12] [sp1 20]],
    ∃ c, Issues w c [0] (issuing [] id) := issues_of_all (by decide +kernel)
theorem witness_ShiftAndBitFieldResults_words : ∀ w ∈ [
    opSpec [sp1 8, sp1 12] [sp1 20],
    opSpec [sp1 8] [sp1 20],
    opSpecD [sp1 8, sp1 12] [sp1 20]],
    ∃ c, Issues w c [0] (issuing [] id) := issues_of_all (by decide +kernel)
theorem witness_ImmediateResults_words : ∀ w ∈ [
    ({ opSpec [] [sp1 20] with hints := [0] } : WordSpec),
    ({ opSpec [sp1 8] [sp1 20] with hints := [0] } : WordSpec),
    opSpecD [sp1 8, sp1 12] [sp1 20]],
    ∃ c, Issues w c [0] (issuing [] id) := issues_of_all (by decide +kernel)
theorem witness_PairArithmeticResults_words : ∀ w ∈ [
    ({ opSpec [sp2 8] [sp2 20] with hints := [0] } : WordSpec),
    opSpec [sp2 8, sp2 12] [sp2 20],
    opSpec [sp2 8, sp1 12] [sp2 20],
    opSpec [(8, movLen .w4, movLen .w4)] [(20, movLen .w4, movLen .w4)]],
    ∃ c, Issues w c [0] (issuing [] id) := issues_of_all (by decide +kernel)
theorem witness_SelectionByPredicate_words : ∀ w ∈ [
    opSpec [sp1 8, sp1 12] [sp1 20]],
    ∃ c, Issues w c [0] (issuing [] id) := issues_of_all (by decide +kernel)
theorem witness_CompareWritesItsPredicate_words : ∀ w ∈ [
    opSpec [sp1 8, sp1 12] [],
    opSpec [sp1 8] [],
    opSpec [sp2 8, sp2 12] []],
    ∃ c, Issues w c [0] (issuing [] id) := issues_of_all (by decide +kernel)
theorem witness_PredicateLogicResults_words : ∀ w ∈ [
    opSpec [] [],
    opSpec [sp1 8] [],
    opSpec [] [sp1 20]],
    ∃ c, Issues w c [0] (issuing [] id) := issues_of_all (by decide +kernel)
theorem witness_FloatArithmeticResults_words : ∀ w ∈ [
    opSpec [sp1 8, sp1 12] [sp1 20],
    opSpec [sp1 8] [sp1 20],
    ({ opSpec [sp1 8, sp1 12] [sp1 20] with hints := [4] } : WordSpec),
    ({ opSpecD [sp1 8, sp1 12] [sp1 20] with hints := [4] } : WordSpec),
    ({ opSpec [sp1 8, sp1 12, sp1 24] [sp1 20] with hints := [4] } : WordSpec),
    ({ opSpec [sp1 8, sp1 12, sp1 24] [sp1 20] with hints := [4], rnd7 := true } : WordSpec)],
    ∃ c, Issues w c [0] (issuing [] id) := issues_of_all (by decide +kernel)
theorem witness_ConversionResults_words : ∀ w ∈ [
    opSpec [sp1 8] [sp1 20],
    ({ opSpec [sp1 8] [sp1 20] with hints := [4] } : WordSpec),
    opSpec [sp1 8, sp1 12] [sp1 20],
    ({ opSpec [sp1 8, sp1 12] [sp1 20] with hints := [4], slotOk := cvtSlot 3 } : WordSpec),
    ({ opSpec [sp1 8, sp1 12] [sp1 20] with slotOk := cvtSlot 3 } : WordSpec),
    ({ opSpec [sp1 8] [sp2 20] with slotOk := cbSlot 5 } : WordSpec),
    opSpec [sp1 8] [(20, 5, 1)]],
    ∃ c, Issues w c [0] (issuing [] id) := issues_of_all (by decide +kernel)
theorem witness_SpecialFunctionResults_words : ∀ w ∈ [
    opSpec [sp1 8] [sp1 20]],
    ∃ c, Issues w c [0] (issuing [] id) := issues_of_all (by decide +kernel)
theorem witness_SplatResults_words : ∀ w ∈ [
    opSpec [sp4 8, sp2 12] [sp1 20],
    opSpecD [(8, 3, 1), sp1 12] [sp4 20],
    opSpec [sp1 8, sp1 12] [sp2 20],
    opSpec [sp4 8, sp2 12] [sp2 20]],
    ∃ c, Issues w c [0] (issuing [] id) := issues_of_all (by decide +kernel)
theorem witness_SpecialRegisterReads_words : ∀ w ∈ [
    ({ opSpec [] [sp1 20] with order := true } : WordSpec),
    opSpec [] [sp1 20]],
    ∃ c, Issues w c [0] (issuing [] id) := issues_of_all (by decide +kernel)
theorem witness_BranchTargetWords_words : ∀ w ∈ [
    ({} : WordSpec),
    opSpec [sp1 8] []],
    ∃ c, Issues w c [0] (issuing [] id) := issues_of_all (by decide +kernel)
theorem witness_TransferWords_words : ∀ w ∈ [
    ({} : WordSpec),
    opSpecD [] [sp1 8]],
    ∃ c, Issues w c [0] (issuing [] id) := issues_of_all (by decide +kernel)
theorem witness_HandlerReturn_words : ∀ w ∈ [
    ({} : WordSpec)],
    ∃ c, Issues w c [0] (issuing [] id) := issues_of_all (by decide +kernel)
theorem witness_TrapAndBreakpoint_words : ∀ w ∈ [
    ({} : WordSpec)],
    ∃ c, Issues w c [0] (issuing [] id) := issues_of_all (by decide +kernel)
theorem witness_YieldFlushAndClear_words : ∀ w ∈ [
    ({ ends := true } : WordSpec),
    ({} : WordSpec),
    ({ order := true } : WordSpec)],
    ∃ c, Issues w c [0] (issuing [] id) := issues_of_all (by decide +kernel)
theorem witness_GlobalLoadsIssue_words : ∀ w ∈ [
    ({ opSpec [sp2 8] [(20, 1, 1)] with guard := 0, hints := [3], adds := [(.ld, 1)] } : WordSpec),
    ({ opSpec [sp2 8] [(20, 2, 2)] with guard := 0, hints := [3], adds := [(.ld, 1)] } : WordSpec),
    ({ opSpec [sp2 8] [(20, 4, 4)] with guard := 0, hints := [3], adds := [(.ld, 1)] } : WordSpec)],
    ∃ c, Issues w c [0] (issuing [] id) := issues_of_all (by decide +kernel)
theorem witness_GlobalStoresIssue_words : ∀ w ∈ [
    ({ opSpec [sp2 8, (20, 1, 1)] [] with guard := 0, hints := [3], adds := [(.st, 1)] } : WordSpec),
    ({ opSpec [sp2 8, (20, 2, 2)] [] with guard := 0, hints := [3], adds := [(.st, 1)] } : WordSpec),
    ({ opSpec [sp2 8, (20, 4, 4)] [] with guard := 0, hints := [3], adds := [(.st, 1)] } : WordSpec)],
    ∃ c, Issues w c [0] (issuing [] id) := issues_of_all (by decide +kernel)
theorem witness_AtomicsIssue_words : ∀ w ∈ [
    ({ opSpec [sp2 8, sp1 12] [sp1 20] with hints := [3], adds := [(.ld, 1)] } : WordSpec),
    ({ opSpec [sp2 8, sp2 12] [sp2 20] with hints := [3], adds := [(.ld, 1)] } : WordSpec),
    ({ opSpecD [sp2 8, sp1 12] [sp1 20] with hints := [3], adds := [(.ld, 1)] } : WordSpec),
    ({ opSpecD [sp2 8, sp2 12] [sp2 20] with hints := [3], adds := [(.ld, 1)] } : WordSpec)],
    ∃ c, Issues w c [0] (issuing [] id) := issues_of_all (by decide +kernel)
theorem witness_ReductionsIssue_words : ∀ w ∈ [
    ({ opSpec [sp2 8, (12, 1, 1)] [] with adds := [(.st, 1)] } : WordSpec),
    ({ opSpec [sp2 8, (12, 2, 2)] [] with adds := [(.st, 1)] } : WordSpec),
    ({ opSpec [sp2 8, (12, 4, 4)] [] with adds := [(.st, 1)] } : WordSpec),
    ({ opSpec [] [] with adds := [(.st, 1)] } : WordSpec)],
    ∃ c, Issues w c [0] (issuing [] id) := issues_of_all (by decide +kernel)
theorem witness_StashWords_words : ∀ w ∈ [
    ({ opSpec [sp1 8] [(20, 1, 1)] with guard := 0 } : WordSpec),
    ({ opSpec [sp1 8] [(20, 4, 4)] with guard := 0 } : WordSpec),
    ({ opSpec [sp1 8, (20, 1, 1)] [] with guard := 0 } : WordSpec),
    ({ opSpec [sp1 8, (20, 4, 4)] [] with guard := 0 } : WordSpec),
    opSpec [sp1 8, sp1 12] [],
    ({ opSpec [sp1 8] [sp1 20] with order := true } : WordSpec),
    ({ opSpec [sp1 8, sp1 12] [sp1 20] with hints := [2], adds := [(.ld, 1)] } : WordSpec)],
    ∃ c, Issues w c [0] (issuing [] id) := issues_of_all (by decide +kernel)
theorem witness_RoutedStashWords_words : ∀ w ∈ [
    ({ opSpec [sp1 8] [sp1 20] with hints := [2], needs := [2], adds := [(.ld, 1)] } : WordSpec),
    ({ opSpec [sp1 8, sp1 12] [] with hints := [2], needs := [2], adds := [(.st, 1)] } : WordSpec)],
    ∃ c, Issues w c [0] (issuing [hint 2 1] id) := issues_of_all (by decide +kernel)
theorem witness_RoutedStashWords_words2 : ∀ w ∈ [
    ({ opSpec [sp1 8, sp1 12] [sp1 20] with hints := [2], adds := [(.ld, 1)] } : WordSpec)],
    ∃ c, Issues w c [0] (issuing [] id) := issues_of_all (by decide +kernel)
theorem witness_ChainIssue_words : ∀ w ∈ [
    ({ opSpec [sp2 8, sp1 12] [sp2 20] with adds := [(.ld, 1)] } : WordSpec)],
    ∃ c, Issues w c [0] (issuing [] id) := issues_of_all (by decide +kernel)
theorem witness_WaitCompletes_words : ∀ w ∈ [
    ({} : WordSpec)],
    ∃ c, Issues w c [0] (issuing [] id) := issues_of_all (by decide +kernel)
theorem witness_BarrierReleases_words : ∀ w ∈ [
    ({ order := true } : WordSpec)],
    ∃ c, Issues w c [0] (issuing [] id) := issues_of_all (by decide +kernel)
theorem witness_TransactionWords_words : ∀ w ∈ [
    ({ order := true } : WordSpec),
    ({ order := true, adds := [(.st, 1)] } : WordSpec)],
    ∃ c, Issues w c [0] (issuing [] id) := issues_of_all (by decide +kernel)
theorem witness_CollectiveWordsJoin_words : ∀ w ∈ [
    opSpec [sp1 8, sp1 12] [sp1 20],
    opSpec [sp1 8] [gpollD .mask 20],
    opSpec [sp1 8] [sp1 20],
    opSpec [sp1 8] [sp2 20],
    opSpec [] [sp1 20],
    opSpec [] []],
    ∃ c, Issues w c [0] (issuing [] id) := issues_of_all (by decide +kernel)
theorem witness_MatrixWordsIssue_words : ∀ w ∈ [
    mmaSpec 0 16 24 32 false (issuing [] id)],
    ∃ c, Issues w c [0] (issuing [] id) := issues_of_all (by decide +kernel)
theorem witness_MatrixWordsIssue_words2 : ∀ w ∈ [
    mmaSpec 1 16 24 32 true (issuing [hint 1 0x500000] id)],
    ∃ c, Issues w c [0] (issuing [hint 1 0x500000] id) := issues_of_all (by decide +kernel)
theorem witness_TileReads_words : ∀ w ∈ [
    ({ opSpec [sp1 8] [sp1 20] with order := true, adds := [(.ld, 1)] } : WordSpec),
    ({ opSpec [sp1 8] [(20, 8, 4)] with order := true, adds := [(.ld, 32)] } : WordSpec)],
    ∃ c, Issues w c [0] (issuing [] id) := issues_of_all (by decide +kernel)
theorem witness_TileStores_words : ∀ w ∈ [
    ({ opSpec [sp1 8, sp1 20] [] with adds := [(.st, 1)] } : WordSpec),
    ({ opSpec [sp1 8, (20, 8, 4)] [] with adds := [(.st, 8)] } : WordSpec)],
    ∃ c, Issues w c [0] (issuing [] id) := issues_of_all (by decide +kernel)
theorem witness_TileControlWords_words : ∀ w ∈ [
    opSpec [(8, 8, 4)] [sp1 20],
    ({ order := true, adds := [(.tl, 1)] } : WordSpec),
    ({ adds := [(.tl, 1)] } : WordSpec),
    opSpec [] [sp1 20],
    opSpec [(8, 8, 4)] [sp1 20]],
    ∃ c, Issues w c [0] (issuing [] id) := issues_of_all (by decide +kernel)
theorem witness_SupervisorSettings_words : ∀ w ∈ [
    sysSpec 8 20,
    ({ sysSpec 8 20 with order := true } : WordSpec)],
    ∃ c, Issues w c [0] (issuing [] id) := issues_of_all (by decide +kernel)
theorem witness_SupervisorQueuesAndThreads_words : ∀ w ∈ [
    sysSpec 8 20,
    ({ sysSpec 8 20 with order := true } : WordSpec)],
    ∃ c, Issues w c [0] (issuing [] id) := issues_of_all (by decide +kernel)
theorem witness_PreemptMigrateInvalidate_words : ∀ w ∈ [
    sysSpec 8 20],
    ∃ c, Issues w c [0] (issuing [] id) := issues_of_all (by decide +kernel)
theorem witness_JobAndQueueWords_words : ∀ w ∈ [
    ({ opSpec [(8, 2, 2)] [] with order := true } : WordSpec),
    ({ opSpec [(8, 2, 2), sp1 12] [sp1 20] with order := true, adds := [(.ld, 1)] } : WordSpec)],
    ∃ c, Issues w c [0] (issuing [] id) := issues_of_all (by decide +kernel)

/-! For every obligation with hypotheses beside those: states that meet them, clause by clause. -/

/-- A state with a grid's record word replaced. -/
def withRecord (i : Nat) (w : Word) (s : State) : State := { s with ex := { s.ex with grids := [(0, { smallGrid with record := smallGrid.record.set i w })] } }
/-- A state that fetches: `placeWord`, with another word behind the first. -/
def fetching (w w2 : Nat) : State :=
  let s := State.reset.withFetchWord 32 w
  { s with mm := { s.mm with mem := mwrite s.mm.mem 0x10004 (natLe 4 w2) } }

theorem witness_DecodingReadsBackEncoding : (Instr.movsr 127 21).WellFormed ∧ encode (.movsr 127 21) = some 0x1EFE0015 ∧
    (Instr.xfer 7 7 true).WellFormed ∧ encode (.xfer 7 7 true) = some 0xA2FE0000 := by
  simp only [Instr.WellFormed]; decide +kernel
theorem witness_StepRunsTheDecodedInstruction :
    let s := fetching 0x00218082 0
    let h := fetching 0xB0000490 0x10040000
    let r (s : State) : State := { s with agenda := [] }
    (s.agenda = .issue 0 0 false :: [] ∧ mayIssue s = true ∧ bundle s 0 0 = [0] ∧ getThread s 0 = some placedThread ∧
      (gridOf s placedThread).debugFlag = false ∧ codeAddr (gridOf s placedThread) 0 = 0x10000 ∧
      xlate (r s) 0 placedThread .fetch (gridOf s placedThread).asid 0x10000 = .ok placedEntry.leaf ∧ linePoison s 0x10000 = false ∧
      decode (mread s.mm.mem 0x10000 4) = .ok (.instr (.iadd .sati 6 1 2), [])) ∧
    (decode (mread h.mm.mem 0x10000 4) = .ok (.hint (hint 0 0x490), []) ∧ codeAddr (gridOf h placedThread) 1 = 0x10004 ∧
      xlate (r h) 0 placedThread .fetch (gridOf h placedThread).asid 0x10004 = .ok placedEntry.leaf ∧ linePoison h 0x10004 = false ∧
      decode (mread h.mm.mem 0x10004 4) = .ok (.instr (.movi 2 0), [])) ∧
    (debugHit s 0 (gridOf s placedThread) 0 = false ∧ debugHit h 0 (gridOf h placedThread) 1 = false ∧
      (let g := withRecord 4 0x47800 s; debugHit (modCore g 0 fun c => { c with comparators := [(2, codeAddr (gridOf g placedThread) 0)] }) 0 (gridOf g placedThread) 0 = true)) ∧
    eventAllowed s .cycleCounter = true ∧ eventAllowed { s with bd := { s.bd with power := .tripped } } .cycleCounter = false := by decide +kernel
theorem witness_ReservedWordFaults :
    let s := fetching 0x00600000 0
    s.agenda = .issue 0 0 false :: [] ∧ mayIssue s = true ∧ bundle s 0 0 = [0] ∧ getThread s 0 = some placedThread ∧ debugHit s 0 (gridOf s placedThread) 0 = false ∧
    xlate { s with agenda := [] } 0 placedThread .fetch (gridOf s placedThread).asid 0x10000 = .ok placedEntry.leaf ∧ linePoison s 0x10000 = false ∧
    decode (mread s.mm.mem 0x10000 4) = .error .reservedMod := by decide +kernel
theorem witness_StepKeepsMemoryCanonical : Memory.wf (fetching 0x00218082 0).mm.mem = true ∧ (after (step (fetching 0x00218082 0)) 0).isSome = true := by decide +kernel
theorem witness_SpecialRegisterReads : (21 : BitVec 10).toNat < 22 := by decide
theorem witness_ConversionResults : bits (rd (regs [(3, 0xF5B4F279)] placedThread) 3).toNat 15 8 = 242 := by decide +kernel
theorem witness_SpecialFunctionResults : 0x7F800000 < (0x7F800001 : Word).toNat % 2 ^ 31 := by decide
/-- Transfers: prepared and not, at DEPTH 255 and 0, and the counter at 1. -/
theorem witness_TransferWords :
    let t (d : Nat) : Thread := { writeBt placedThread 1 { prepared := true, target := 14 } with depth := d }
    ([0, 254, 255].all fun d => ready (issuing [] fun _ => t d) {} (t d)) = true ∧ (readBt (t 0) 1).prepared = true ∧ (readBt (t 0) 2).prepared = false ∧
    (readPred (t 0) 0 != false) = true ∧ (readPred (t 0) 3 != false) = false ∧ (t 0).frame = none ∧
    ready (issuing [] fun _ => t 0) (opSpecD [] [sp1 4]) (t 0) = true := by decide +kernel
/-- A thread in handler mode at the frame's depth + 1, returning to FPC and elsewhere. -/
theorem witness_HandlerReturn :
    let s := nextOf (exec (.st32 0 120 10 0) (handled fun t => { regs [(10, 0x1000E), (120, 103)] t with runPos := 8 }))
    (getThread s 0).map (fun t => (t.frame.map (fun f => (f.depth, f.ts.length)), t.depth, (readBt t 7).prepared, (readBt t 7).target == t.fpc, readPred t 0 != false)) =
      some (some (0, 8), 1, true, true, true) ∧
    (getThread (modThread s 0 fun t => writeBt t 7 { prepared := true, target := 40 }) 0).map (fun t => (readBt t 7).target == t.fpc) = some false := by decide +kernel
theorem witness_FaultEntersHandler : getThread (handled fun t => { t with depth := 254 }) 0 = some { placedThread with depth := 254 } ∧
    (gridOf (handled id) placedThread).handler ≠ 0xFFFFFFFF ∧ placedThread.frame = none := by decide +kernel
/-- A fault of class SYSTEM, no handler, handler mode, and DEPTH 255. -/
theorem witness_FaultGoesToSupervisor : getThread (issuing [] id) 0 = some placedThread ∧ (gridOf (issuing [] id) placedThread).handler = 0xFFFFFFFF ∧
    getThread (handled fun t => { t with depth := 255 }) 0 = some { placedThread with depth := 255 } ∧
    ((getThread (nextOf (exec (.trap 7) (handled id))) 0).bind (·.frame)).isSome = true := by decide +kernel
theorem witness_TrapAndBreakpoint : (gridOf (issuing [] id) placedThread).debugFlag = false ∧
    (gridOf (withRecord 5 0x40400 (issuing [] id)) placedThread).debugFlag = false ∧
    (gridOf (withRecord 4 0x47800 (issuing [] id)) placedThread).debugFlag = true ∧ placedThread.dstop = false ∧ placedThread.live = true ∧
    goes {} (withRecord 4 0x47800 (issuing [] id)) = true := by decide +kernel
theorem witness_YieldFlushAndClear : count placedThread .ld = 0 ∧ placedThread.bad = [] ∧ ((issuing [] id).ex.threads.Pairwise fun x y => x.1 < y.1) ∧
    count (addOp placedThread { id := 9, wid := 9, cnt := .ld, kind := .load .w32 }) .ld = 1 ∧ goes {} (issuing [] id) = true ∧
    (let b : Bad := { id := 3, seq := 1, cnt := .ld, dest := 5, dlen := 1, addr := 0x20000, prot := false }
     [b].find? (fun b => b.cnt == .ld) = some b ∧ goes {} (issuing [] fun t => { t with bad := [b] }) = true) ∧ getThread (issuing [] id) 0 = some placedThread ∧
    goes {} (issuing [] fun t => { t with tx := { depth := 1, active := true } }) = true ∧
    goes { order := true } (issuing [] fun t => { t with snap := .own 3 }) = true ∧ coreOf 0 = 0 := by decide +kernel

/-- A state whose TLB also holds pages at 0x80000000 (host memory), 0x80010000 (a gather page with a window of 16 words),
0x80020000 (another package's) and 0x80030000 (read only). -/
def places (f : Thread → Thread) : State :=
  let s := issuing [] f
  let s := modCore s 0 fun c => { c with tlb := [
    { asid := 0, vpn := 0x8000, leaf := { size := 0, r := true, w := true, x := false, frame := 0x800000000000 } },
    { asid := 0, vpn := 0x8001, leaf := { size := 0, r := true, w := false, x := false, gather := true, frame := 0 } },
    { asid := 0, vpn := 0x8002, leaf := { size := 0, r := true, w := true, x := false, remote := true, frame := 5 * 4096 + 1 } },
    { asid := 0, vpn := 0x8003, leaf := { size := 0, r := true, w := false, x := false, frame := 0x40000 } }] ++ c.tlb }
  { s with en := { s.en with windows := [{ asid := 0, wbase := 0x80010000, n := 16, es := 4, tbase := 0x30000, tn := 16, idx := 0x31000, fill := 0 }] } }
/-- Where an access of the thread goes, or none where its translation is missing or denied. -/
def placeOf (s : State) (a : Acc) (va _n : Nat) : Option Loc := match xlate s 0 placedThread a (gridOf s placedThread).asid va with
  | .ok l => some (locOf l (gridOf s placedThread).asid va)
  | _ => none
/-- A thread in a transaction at depth 1 with snapshot 3, and its state. -/
def inTx (t : Thread) : Thread := { t with tx := { depth := 1, active := true, s := 3, held := true } }

theorem witness_GlobalLoadsIssue :
    let w : WordSpec := { opSpec [sp2 8] [(20, 1, 1)] with hints := [3], adds := [(.ld, 1)] }
    let ea : Thread → Int := fun t => rdPair t 8 + (0x7F : BitVec 7).toInt * 1
    (missing (places (regs [(8, 0x20001)])) w .load 1 ea [0] = []) ∧
    (ea placedThread < 0) ∧ (0 ≤ ea (regs [(9, 0x2000000)] placedThread)) ∧ (2 ^ 57 ≤ (rdPair (regs [(9, 0x2000000)] placedThread) 8 : Int)) ∧
    ((rdPair (regs [(8, 0x20002)] placedThread) 8 : Int) % 4 ≠ 0) ∧
    placeOf (places id) .load 0x20000 4 = some (.here 0x20000) ∧ placeOf (places id) .load 0x80000000 4 = some (.host 0x800000000000) ∧
    placeOf (places id) .load 0x80010000 4 = some (.window 0 0x80010000) ∧ placeOf (places id) .load 0x80020000 4 = some (.remote 5 1 0x80020000) ∧
    xlate (places id) 0 placedThread .store 0 0x80030000 = .prot ∧ xlate (places id) 0 placedThread .load 0 0x80010040 = .prot ∧
    revokedNow placedThread = false ∧ revokedNow { placedThread with revoked := true } = true ∧ placedThread.tx.depth = 0 ∧
    ([regs [(8, 0x20000)], inTx, fun t => { t with revoked := true }, fun t => { t with snap := .own 3 }].all fun f => goes w (places f)) = true := by decide +kernel
theorem witness_GlobalStoresIssue :
    let w : WordSpec := { opSpec [sp2 8, (20, 4, 4)] [] with hints := [3], adds := [(.st, 1)] }
    missing (places (regs [(8, 0x20010)])) w .store 16 (fun t => rdPair t 8 + (0x7F : BitVec 7).toInt * 16) [0] = [] ∧
    placeOf (places id) .store 0x20000 16 = some (.here 0x20000) ∧ placeOf (places id) .store 0x80000000 16 = some (.host 0x800000000000) ∧
    goes w (places inTx) = true := by decide +kernel
theorem witness_AtomicsIssue :
    let w : WordSpec := { opSpecD [sp2 8, sp2 12] [sp2 20] with hints := [3], adds := [(.ld, 1)] }
    missing (places (regs [(8, 0x20008)])) w .atomic 8 (fun t => rdPair t 8) [0] = [] ∧ placeOf (places id) .atomic 0x20008 8 = some (.here 0x20008) ∧
    placeOf (places id) .atomic 0x80020000 8 = some (.remote 5 1 0x80020000) ∧ xlate (places id) 0 placedThread .atomic 0 0x80030000 = .prot ∧
    goes w (places inTx) = true := by decide +kernel
theorem witness_ReductionsIssue :
    let w : WordSpec := { opSpec [sp2 8, (12, 4, 4)] [] with adds := [(.st, 1)] }
    missing (places (regs [(8, 0x20010)])) w .radd 16 (fun t => rdPair t 8) [0] = [] ∧ placedThread.tx.depth = 0 ∧
    placeOf (places id) .radd 0x20010 16 = some (.here 0x20010) ∧ (paged.mm.lines.Pairwise fun x y => x.1 < y.1) := by decide +kernel

/-- A state with the team's stash bytes set. -/
def stashed (o : Nat) (bs : List Byte) (s : State) : State := modTeam s 0 fun tm => stashPut tm o bs
theorem witness_StashWords :
    let s := stashed 16 (natLe 4 0x00020001) (issuing [] (regs [(8, 16), (12, 2)]))
    let tm := getTeam s 0
    stashAt tm 16 4 = .ok 16 ∧ stashAt tm 18 4 = .error 0x06 ∧ stashAt tm 1022 4 = .error 0x06 ∧ stashAt tm 1020 4 = .ok 1020 ∧ stashAt tm 1024 4 = .error 0x09 ∧
    stashAt tm (-4) 4 = .error 0x09 ∧ stashAt tm 1008 16 = .ok 1008 ∧ stashPoison { tm with spoison := [4] } 16 4 = true ∧ stashPoison tm 16 4 = false ∧
    inTiles (nextOf (exec (.tctlMap 1 16) (tiled id))) (getTeam (nextOf (exec (.tctlMap 1 16) (tiled id))) 0) 3072 4 = true ∧ inTiles s tm 16 4 = false ∧
    (getThread s 0).map (fun t => barwAt s t 8) = some (.ok 16) ∧ stashRead tm 16 4 / 2 ^ 31 % 2 = 0 ∧
    stashRead (getTeam (arrive s 0 16 0) 0) 16 4 / 2 ^ 31 % 2 = 1 ∧ stashRead (getTeam (arrive (stashed 16 (natLe 4 0x00030000) s) 0 16 0) 0) 16 4 / 2 ^ 31 % 2 = 0 ∧
    goes { opSpec [sp1 8] [sp1 20] with order := true } s = true ∧ goes (opSpec [sp1 8, sp1 12] []) s = true ∧
    goes { opSpec [sp1 8, sp1 12] [sp1 20] with hints := [2], adds := [(.ld, 1)] } s = true ∧ routed s = false := by decide +kernel
theorem witness_StashBytes : tget (issuing [] id).ex.teams 0 = some placedTeam ∧ (placedTeam.stash.Pairwise fun x y => x.1 < y.1) ∧
    (0 < 2 ∧ 2 < 2 ^ 15 ∧ 0 + 1 < 2) ∧ (1 < 2 ∧ 2 ^ 15 - 1 < 2 ^ 15 ∧ 2 ^ 15 - 1 ≤ 2 ^ 15 - 2 + 1) := by decide +kernel
/-- Two teams of a cluster two cores wide: thread 0 on core 0 routes one core east. -/
def neighbours (hs : List Hint) : State :=
  let s := issuing hs (regs [(8, 16)])
  { s with ex := { s.ex with teams := [(0, placedTeam), (2048, { placedTeam with rank := 1, lin := 1 })]
                             clusters := [(0, { grid := 0, teams := [0, 2048] })]
                             grids := [(0, { smallGrid with record := smallGrid.record.set 7 0x01020001 })] } }
theorem witness_RoutedStashWords :
    let c (p : Nat) : Ctx := { core := 0, port := 0, hints := [hint 2 p], fpc := 0 }
    (getThread (neighbours [hint 2 2]) 0).map (fun t => (peerAt (neighbours [hint 2 2]) t (c 2) 8 false, peerAt (neighbours [hint 2 2]) t (c 3) 8 false)) =
      some (.ok (2048, 16), .error 0x12) ∧
    goes { opSpec [sp1 8] [sp1 20] with hints := [2], needs := [2], adds := [(.ld, 1)] } (neighbours [hint 2 2]) = true ∧ routed (neighbours [hint 2 2]) = true := by decide +kernel
/-- The descriptor of 12_memory_ops.md: a step that is the last, in the stash at 0. -/
def chained (f : Thread → Thread) (hs : List Hint) : State := stashed 0 (natLe 8 0x0032400000000000) (issuing hs f)
theorem witness_ChainIssue :
    chainDesc (getTeam (chained id []) 0) 0 = ([0x0032400000000000], none) ∧ hasIndex [0x0032400000000000] = true ∧ chainDesc (getTeam (chained id []) 0) 4 = ([], some 0x06) ∧
    chainDesc (getTeam (stashed 0 (natLe 8 0x0032C00000000000) (chained id [])) 0) 0 = ([0x0032C00000000000], some 0x0C) ∧
    tget placedThread.tvalid 120 ≠ some true ∧ placedThread.rpoison = [] ∧ 20 ∈ ({ placedThread with rpoison := [20] } : Thread).rpoison ∧
    goes { opSpec [sp2 8, sp1 12] [sp2 20] with adds := [(.ld, 1)] } (chained id []) = true ∧
    goes { opSpec [sp2 8, sp1 12, (40, 1, 1)] [sp2 20] with hints := [1], needs := [1], adds := [(.ld, 1)] } (chained id [hint 1 0x500000]) = true ∧
    prelude { opSpec [sp2 8, sp1 12] [sp2 20] with adds := [(.ld, 1)] } (chained id []) = .go { core := 0, port := 0, hints := [], fpc := 0 } [0] ∧
    getThread (chained id []) 0 = some placedThread ∧
    prelude { opSpec [sp2 8, sp1 12, (40, 1, 1)] [sp2 20] with hints := [1], needs := [1], adds := [(.ld, 1)] } (chained id [hint 1 0x500000]) =
      .go { core := 0, port := 0, hints := [hint 1 0x500000], fpc := 0 } [0] := by decide +kernel

/-- A thread with one load of its first place outstanding, and one with a poisoned value noted. -/
def loading (t : Thread) : Thread := addOp t { id := 9, wid := 9, cnt := .ld, kind := .load .w32 }
def badValue : Bad := { id := 3, seq := 1, cnt := .ld, dest := 5, dlen := 1, addr := 0x20000, prot := false }
theorem witness_WaitCompletes :
    let met (t : Thread) (ld : BitVec 6) : Bool := ld == 63 || decide (count t .ld ≤ ld.toNat)
    met (loading placedThread) 0 = false ∧ met (loading placedThread) 1 = true ∧ met (loading placedThread) 63 = true ∧
    waitBad { placedThread with bad := [badValue], ldIssued := 1 } 0 = some badValue ∧ waitBad { placedThread with bad := [badValue], ldIssued := 1 } 1 = none ∧
    waitBad placedThread 0 = none ∧ ([loading, fun t => { t with bad := [badValue], ldIssued := 1 }, fun t => { t with retF := [(1, 50)], cpIssued := 1 }].all fun f => goes {} (issuing [] f)) = true ∧
    (let t := { placedThread with retF := [(1, 50)], cpIssued := 1 }; ∃ e ∈ t.retF, e.1 + (0 : BitVec 4).toNat ≤ t.cpIssued) := by decide +kernel
/-- A team of one thread, alone or with another that has not arrived; its cluster of one. -/
def paired : State :=
  let s := issuing [] id
  { s with ex := { s.ex with teams := [(0, { placedTeam with threads := 2 })], threads := [(0, placedThread), (1, { placedThread with glane := 1, hlane := 1 })], clusters := [] } }
theorem witness_BarrierReleases :
    let s := issuing [] id
    let c : Ctx := { core := 0, port := 0, hints := [], fpc := 0 }
    let l (s : State) := teamMates (setThread s 0 (waiting c placedThread .bar (.bar .team))) 0
    owes s 0 = false ∧ goes { order := true } s = true ∧ (s.mm.lines.Pairwise fun x y => x.1 < y.1) ∧
    ((settleAll { s with mm := { s.mm with lines := [(5, { wts := 1, rts := 1, back := some [] })] } }).mm.lines.map (·.1)) = [5] ∧
    (tget s.ex.teams 0 = some placedTeam ∧ tget s.ex.clusters 0 = some { grid := 0, teams := [0] } ∧ placedTeam.barCount = 0 ∧ placedTeam.gone = false) ∧
    (0 + 1 + ((l s).filter fun e => !e.2.live).length = placedTeam.threads) ∧ (s.ex.threads.Pairwise fun x y => x.1 < y.1) ∧
    ((l s).all fun e => e.2.waitOn == .bar && e.2.held.map (·.instr) == some (.bar .team)) = true ∧
    (tget paired.ex.teams 0 = some { placedTeam with threads := 2 } ∧ (tget paired.ex.clusters 0).isNone = true ∧
      0 + 1 + ((l paired).filter fun e => !e.2.live).length ≠ 2 ∧ goes { order := true } paired = true) ∧
    (let p := { paired with ex := { paired.ex with threads := [(0, placedThread), (1, { placedThread with glane := 1, hlane := 1, st := .draining })] } }
     0 + 1 + ((l p).filter fun e => !e.2.live).length = 2 ∧ drainedStamped (l p) = true) ∧
    (let p := { paired with ex := { paired.ex with threads := [(0, placedThread), (1, { (addOp placedThread { id := 9, wid := 9, cnt := .st, kind := .store 7 }) with glane := 1, hlane := 1, st := .draining })] } }
     drainedStamped (l p) = false) ∧
    drainedStamped (l s) = true ∧ (s.ex.threads.all fun e => decide (e.2.team < 2 ^ 90)) = true := by decide +kernel
/-- The horizon table with 4096 entries. -/
def fullHorizon : State :=
  let s := issuing [] id
  { s with mm := { s.mm with horizon := (List.range 4096).map fun i => { s := 2 ^ 60 + i, holders := 1 } } }
theorem witness_TransactionWords :
    let s := issuing [] id
    placedThread.tx.depth = 0 ∧ horizonRoom s 5 = true ∧ horizonRoom fullHorizon 5 = false ∧ goes { order := true } fullHorizon = true ∧
    ([1, 2, 254, 255].all fun d => goes { order := true, adds := [(.st, 1)] } (issuing [] fun t => { inTx t with tx := { (inTx t).tx with depth := d } })) = true ∧
    (inTx placedThread).tx.held = true ∧ (inTx placedThread).tx.active = true ∧
    (let x : Tx := { ws := [(0x20000, 7)] }
     conflicts s 3 x.lines = false ∧ conflicts { s with mm := { s.mm with lines := [(0x400, { wts := 4, rts := 4 })] } } 3 x.lines = true) ∧
    placedThread.snap = .off ∧ goes { order := true } s = true := by decide +kernel
theorem witness_CommitWritesItsLines :
    let x : Tx := { ws := [(0x2007F, 7), (0x20080, 0)], adds := [(0x8020, [.add true 5])] }
    (x.ws.Pairwise fun x y => x.1 < y.1) ∧ (x.adds.Pairwise fun x y => x.1 < y.1) ∧ Memory.wf paged.mm.mem = true ∧ x.lines = [0x400, 0x401] ∧
    (tget x.ws 0x2007F = some 7 ∧ (tget x.adds (0x2007F / 4)).isNone = true) ∧ (tget x.adds 0x8020).isSome = true ∧ (tget x.ws 0x20084).isNone = true ∧
    (x.lines.all fun ln => (getLine paged ln).delta == none && (getLine paged ln).recs == [] && !isHost (ln * 128) && ln != 0xFFFFFFFFFF && !readable paged (getLine paged ln).wts 9) = true := by decide +kernel
/-- The group of seven at a collective word, and at words that differ. -/
theorem witness_CollectiveWordsJoin :
    let i : Instr := .shfl .flip 6 4 1
    let c : Ctx := { core := 0, port := 0, hints := [], fpc := 0 }
    let at_ (i : Instr) (on : WaitOn) (s : State) : State := { s with ex := { s.ex with threads := s.ex.threads.map fun e => (e.1, if e.1 = 0 then e.2 else waiting c e.2 on i) } }
    let l (i : Instr) (on : WaitOn) (s : State) := participants (setThread (at_ i on s) 0 (waiting c ((getThread s 0).getD placedThread) on i)) 0 0
    (rounds.ex.threads.Pairwise fun x y => x.1 < y.1) ∧ (rounds.ex.threads.all fun e => decide (e.2.glane < 64)) = true ∧
    ((l i .join rounds).all fun e => e.2.st == .waiting && e.2.waitOn == .join && !e.2.dstop && e.2.pc == 0 && e.2.held.map (·.instr) == some i) = true ∧
    ((partsOf i (l i .join rounds)).map (·.g)) = [0, 1, 2, 3, 4, 6, 7] ∧ (joinWrites i 8 (partsOf i (l i .join rounds))).isSome = true ∧
    compactOvf .w8 (partsOf (.compact .w8 9 3 2) (l (.compact .w8 9 3 2) .join rounds)) = false ∧
    ((l .gjoin .gjoin rounds).all fun e => e.2.st == .waiting && e.2.waitOn == .gjoin && !e.2.dstop) = true ∧
    ((participants (setThread rounds 0 (waiting c ((getThread rounds 0).getD placedThread) .join i)) 0 0).any fun e => e.2.st != .waiting && e.2.waitOn != .gjoin) = true ∧
    (((l (.ddx .fx 5 4) .join rounds).filter fun e => e.2.glane / 4 == 0).map (·.1)) = [0, 1, 2, 3] ∧
    (let j : Instr := .ddx .fx 5 4
     (l j .join rounds).all fun e => (e.2.waitOn != .join || e.2.pc != 0 || e.2.held.map (·.instr) == some j) && e.2.st == .waiting && !e.2.dstop) = true ∧
    ([(0, waiting c ((getThread rounds 0).getD placedThread) .join i)].all fun e => (l i .join rounds).contains e) = true := by decide +kernel
/-- Participants 0, 1 and 5 with their values. -/
def parts3 : List Part := (partsOf (.shfl .flip 6 4 1) [(0, regs [(4, 9), (1, 1)] placedThread), (1, { regs [(4, 0), (1, 1)] placedThread with glane := 1 }), (5, { regs [(4, 7), (1, 4)] placedThread with glane := 5 })])
theorem witness_CollectiveValues :
    parts3.map (fun p => (p.g, p.x, p.y)) = [(0, 9, 1), (1, 0, 1), (5, 7, 4)] ∧ (parts3.Pairwise fun x y => x.g < y.g) ∧
    (1 = (1 : Word).toNat % 8) ∧ (1 + (4 : Word).toNat = 5) ∧ (5 = 1 + (4 : Word).toNat ∧ 5 < 8) ∧ (1 = 0 ^^^ ((1 : Word).toNat % 8)) ∧
    (parts3.head?.map fun f => f.y.toNat % 8) = some 1 ∧ (parts3.all fun q => decide (q.g ≠ (4 : Word).toNat % 8)) = true ∧ parts3 ≠ [] ∧
    (parts3.all fun q => decide (q.g < 64)) = true := by decide +kernel
theorem witness_MatrixWordsIssue :
    let c : Ctx := { core := 0, port := 0, hints := [], fpc := 0 }
    let i : Instr := .mma 0 16 24 32
    let s := issuing [] id
    let l := participants (setThread s 0 (waiting c placedThread .join i)) 0 0
    (s.ex.threads.Pairwise fun x y => x.1 < y.1) ∧ l ≠ [] ∧ (l.all fun e => e.2.st == .waiting && e.2.waitOn == .join && !e.2.dstop && e.2.pc == 0 && e.2.held.map (·.instr) == some i) = true ∧
    (let x := slots[4]!.toNat
     let m (v : Nat) : List Word := (tget (matOpOf s (l.map fun e => (e.1, { (regs [(40, v), (41, 0x33333333)] e.2) with held := some { instr := .mmaSp 1 16 24 32, hints := [hint 1 0x500000] } })) 0 0 0 x (1, 16, 24, 32, true, false)).mask 0).getD []
     metaOk x (m 0x333333A6) = true ∧ metaOk x (m 0x333333A7) = false) := by decide +kernel
/-- The state after the one lane has joined at MMA. -/
def multiplied : State := nextOf (exec (.mma 0 16 24 32) (issuing [] id))
theorem witness_MatrixOperationWrites :
    multiplied.ex.matOps.map (fun e => (e.1, e.2.dstart)) = [(0, 16)] ∧ (multiplied.ex.matOps.Pairwise fun x y => x.1 < y.1) ∧
    (multiplied.ex.threads.all fun e => e.2.frame.isNone) = true ∧
    ((getThread multiplied 0).map fun t => t.ops.map fun o => (o.kind, o.cnt)) = some [(.matrix 0, .uncounted)] ∧ slotAcc 0x1881 = 1 := by decide +kernel
theorem witness_CompressResult :
    let s := issuing [hint 1 0x500000] id
    (s.cur.map fun y => opxX1 y.hints) = some 40 ∧ cmprsSlot 1 (curGrid s) = true ∧ metaWords 0x101881 = 2 ∧
    goes { opSpec [(48, 16, 4)] [(8, 8, 4), (40, 2, 2)] with hints := [1], needs := [1], slotOk := cmprsSlot 1 } s = true ∧
    isNaN .int8 0 = false ∧ 0 < 16 := by decide +kernel

/-- Four argument words. -/
def args (l : List Nat) : Args := fun i => l[i]?.getD 0
/-- The small state with a fault queue, an exported page, a parked thread 1, a stopped thread 2 and a merge entry whose walk has ended. -/
def supervised : State :=
  let s := issuing [] id
  { s with ex := { s.ex with threads := [(0, placedThread), (1, { placedThread with glane := 1, hlane := 1, st := .parked }),
                             (2, { placedThread with glane := 2, hlane := 2, st := .stopped, dstop := true, serial := true })] }
           tr := { s.tr with merges := [(7, { asid := 0, vpn := 9, acc := 0, phase := .absent })] }
           fa := { s.fa with qps := [(0, { asid := 0, key := 0, mode := 1, frozen := true })], peers := [(5, { frozen := true, owed := [frame0] })] }
           qu := { s.qu with queues := [(3, { frozen := true, push := true, freason := 4, logn := 4, ringBase := 0x40000, ridx := 1, widx := 2 })] }
           en := { s.en with cards := [(11, { instance_ := 8, asid := 0, kind := .sort, bits := 0, stamp := 0, frozen := some 1 })] } }
theorem witness_SupervisorSettings :
    let s := issuing [] id
    goes (sysSpec 8 20) s = true ∧ goes { sysSpec 8 20 with order := true } s = true ∧ (gridOf s placedThread).asid = 0 ∧
    (1 ≤ args [255] 0 ∧ args [255] 0 ≤ 255) ∧ (args [2] 0 ≤ 2) ∧ (args [1023] 0 < 1024) ∧
    (args [3, 2, 0, 0xFFFF] 0 < 4 ∧ 2 < 3 ∧ (0 + 2 ^ 32 * 0xFFFF) % 65536 = 0 ∧ frameOk s (2 ^ 32 * 0xFFFF) 65536 = true ∧ memList (2 ^ 32 * 0xFFFF) = 2) ∧
    (memList 0x40000 ≠ 1 ∧ frameOk s 0x70000000000 65536 = false) ∧ (s.mm.lines.Pairwise fun a b => a.1 < b.1) ∧
    mapped 0x8FFFFFF000 = true ∧ mapped 0x9000000000 = false ∧ (8191 < 8192 ∧ 2 ^ 57 - 1 < 2 ^ 57) ∧
    (coreTeams s 0).any (fun e => e.2.gone == false) = true ∧ coreTeams s 1 = [] ∧ tget s.ex.teams 0 = some placedTeam ∧ tget s.ex.teams 1 = none ∧
    (s.fa.qps.filter fun e => e.1 != 9).length < Config.queuePairs ∧ (s.fa.qps.any fun e => e.2.mode == 2) = false ∧
    beyond 5 4 = false ∧ beyond 4 5 = true ∧ (tget s.tr.faultQs 0).getD {} = {} := by decide +kernel
/-- The group of 1024 bytes at 0x50000 that names packages 0 and 9. -/
theorem witness_SupervisorSettings_group :
    let s := put8 0x50000 0x201 paged
    hostMay s .engineRead 0 0x50000 1024 = true ∧ (let r := hostRead s 0 0 0x50000 1024; r.1.2.2 = false ∧ maskMembers (leNat r.1.2.1) = [0, 9]) := by decide +kernel
theorem witness_SupervisorQueuesAndThreads :
    let s := supervised
    let q : Queue := { frozen := true, push := true, freason := 4, logn := 4, ringBase := 0x40000, ridx := 1, widx := 2 }
    goes (sysSpec 8 20) s = true ∧
    (let x := args [2 ^ 31 + 4 * 2 ^ 27 + 4, 0, 0x40000, 0]; x 1 / 2 ^ 25 % 2 ^ 7 = 0 ∧ x 3 / 2 ^ 25 % 2 ^ 7 = 0 ∧ x 0 / 2 ^ 31 % 2 = 1 ∧ tget s.qu.queues (x 0 % 2 ^ 12) = none ∧
      ringArgs s (queueArgs x) = true) ∧
    (tget s.qu.queues 3 = some q ∧ slotOf s 3 = none ∧ (let x := args [2 ^ 31 + 4 * 2 ^ 27 + 3, 0, 0x40000, 0]; q.logn = (queueArgs x).logn ∧ q.ringBase = (queueArgs x).ringBase)) ∧
    (tget s.fa.qps 0).map (·.frozen) = some true ∧ (getPeer s 5).frozen = true ∧ q.sigFrozen = none ∧
    (s.en.cards.map fun e => (e.2.instance_, e.2.asid, e.2.frozen, e.2.finished)) = [(8, 0, some 1, false)] ∧ (s.en.cards.Pairwise fun a b => a.1 < b.1) := by decide +kernel
theorem witness_SupervisorQueuesAndThreads_threads :
    let s := supervised
    (getThread s 0).map (·.st) = some .ready ∧ (getThread s 1).map (fun t => (t.st, count t .ld)) = some (.parked, 0) ∧
    (getThread (modThread s 1 loading) 1).map (fun t => count t .ld) = some 1 ∧ getThread s 3 = none ∧
    (tget s.ex.grids 0).isSome = true ∧ tget s.ex.grids 1 = none ∧
    (getThread s 2).map (fun t => (t.st, t.held.isNone, t.waitOn, t.serial, t.runPos, t.live)) = some (.stopped, true, .nothing, true, 0, true) ∧
    (tget (getCore s 0).ports 4).isNone = true ∧ (tget s.tr.merges (0 * 1024 + 7)).map (fun m => (m.phase, m.waiters)) = some (.absent, []) ∧
    (16383 + 1 ≤ Config.boxwoodEvents) ∧ hostMay s .store 0 0x50000 32 = true := by decide +kernel
/-- A set of core 0 that PREEMPT has asked for, with its base at 0x400000. -/
def askedToHalt : State :=
  let s := issuing [] fun t => { t with ops := [{ id := 0, wid := 0, kind := .sysop 0x400000, cnt := .ld, dest := 20, dlen := 1, performed := true, visible := true }] }
  { s with ex := { s.ex with saved := [{ base := 0x400000, cores := [0], thr := 0, op := 0 }] } }
theorem witness_PreemptMigrateInvalidate :
    let s := issuing [] id
    preemptSet s 0 = [0] ∧ (0x400000 % Config.areaBytes = 0) ∧ frameOk s 0x400000 (1 * Config.areaBytes) = true ∧ frameOk s 0x8FFFFFF000 Config.areaBytes = false ∧
    areaHeld s 0x400000 1 = false ∧ areaHeld askedToHalt 0x400000 1 = true ∧ goes (sysSpec 8 20) s = true ∧ goes (sysSpec 8 20) (modCore askedToHalt 0 id) = false ∧
    walk s 0 0x20000 = .leaf gib ∧ (lockOf s 0 (pageStart 0x20000 2)).isNone = true ∧ (gib.pin || gib.gather || gib.zf || gib.remote) = false ∧
    migrateWaits s 0 0x20000 = false ∧
    migrateWaits { s with tr := { s.tr with locks := [{ asid := 0, va := 0, dest := 1, side := .device, size := 2, list := 0, frame := 0x40000000, entry := 0x3000, leaf := 0 }] } } 0 0x20000 = true ∧
    (args [2] 0 % 4 ≠ 3 ∧ args [2] 0 / 4 % 4 ≠ 3) ∧
    (let z := dropScope s 2 0 0 0; invalWaits z z.nextId 2 0 0 0 = false) ∧
    (let z := dropScope { issuing [] loading with nextId := 10 } 2 0 0 0; invalWaits z z.nextId 2 0 0 0 = true) ∧
    (askedToHalt.ex.saved.find? fun x => x.base == 0x400000 && !x.written).isSome = true ∧ canHalt askedToHalt [0] = true ∧
    (askedToHalt.ex.saved.Pairwise fun a b => a.base ≠ b.base) := by decide +kernel
/-- A saved set of core 0 whose thread record stands in its area, and core 0 at work again. -/
def savedAway : State :=
  let s := issuing [] id
  { s with mm := { s.mm with mem := mwrite s.mm.mem 0x500000 (threadRecord placedThread) }
           ex := { s.ex with saved := [{ base := 0x400000, cores := [0], written := true, thr := 0, op := 0, threads := [(0, placedThread)], teams := [(0, placedTeam)] }] } }
theorem witness_SupervisorQueuesAndThreads_restore :
    (savedAway.ex.saved.all fun y => y.base == 0x400000 && y.written && y.cores == [0] && targets y 1 == some [(0, 1)] && y.debugReqs == [] && !setPoisoned savedAway y) = true ∧
    halting savedAway 1 = false ∧ coreTeams savedAway 1 = [] ∧ savedAway.bd.badCores = [] ∧ goes (sysSpec 8 20) savedAway = true ∧ coreOf 0 ≠ 1 ∧
    (savedAway.ex.saved.all fun y => (readTiles savedAway y).isSome && ((readThread savedAway y 0 0).map fun o => o.map fun e => (e.1, e.2.waitOn, e.2.pc)) == some (some (0, .nothing, 0))) = true := by decide +kernel

theorem mapM_isSome {α β : Type} (f : α → Option β) : ∀ l : List α, (∀ x ∈ l, (f x).isSome = true) → (l.mapM f).isSome = true
  | [], _ => rfl
  | x :: l, h => by
    obtain ⟨y, hy⟩ := Option.isSome_iff_exists.1 (h x List.mem_cons_self)
    obtain ⟨z, hz⟩ := Option.isSome_iff_exists.1 (mapM_isSome f l fun x hx => h x (List.mem_cons_of_mem _ hx))
    simp [List.mapM_cons, hy, hz]

theorem mread_blank (m : Mem) (a n : Nat) (h : ∀ c ∈ m, c.1 < a) : leNat (mread m a n) = 0 := by
  have hg : ∀ b, a ≤ b → mget m b = 0 := by
    intro b hb
    induction m with
    | nil => rfl
    | cons c m ih =>
      have := h c List.mem_cons_self
      rw [mget, if_neg (by omega), ih fun c hc => h c (List.mem_cons_of_mem _ hc)]
  have : ∀ l : List Nat, leNat (l.map fun i => mget m (a + i)) = 0 := by
    intro l
    induction l with
    | nil => rfl
    | cons i l ih => simp [leNat, ih, hg (a + i) (Nat.le_add_right a i)]
  exact this _

/-- Every record of the set is in form: the thread's own, and those of the FREE entries. -/
theorem witness_SupervisorQueuesAndThreads_records : ∀ y ∈ savedAway.ex.saved, (readThreads savedAway y).isSome = true := by
  intro y hy
  have hb : y.base = 0x400000 ∧ y.cores = [0] := by
    obtain rfl := List.mem_singleton.1 hy
    exact ⟨rfl, rfl⟩
  have h0 : ((savedAway.ex.saved.all fun y => (readThread savedAway y 0 0).isSome) = true) := by decide +kernel
  have hm : ∀ c ∈ savedAway.mm.mem, c.1 < 0x500100 := by decide +kernel
  have hr : ∀ i, (readThread savedAway y 0 i).isSome = true := by
    intro i
    obtain rfl | hi := Nat.eq_zero_or_pos i
    · exact List.all_eq_true.1 h0 y hy
    · have hz : areaNat savedAway y (areaIndex y 0) (0x100000 + 256 * i) 256 = 0 :=
        mread_blank _ _ _ fun c hc => lt_of_lt_of_le (hm c hc) (by simp only [areaIndex, hb.1, hb.2]; simp; omega)
      have hf : ∀ core g t, recordThread core g t 0 = some none := by
        intro core g t
        simp [recordThread, show reservedOk 0 = true by decide +kernel, bits, stateOf, waitOf]
      simp [readThread, hz, hf]
  have := mapM_isSome (fun c => (List.range 2048).mapM fun i => readThread savedAway y c i) y.cores fun c hc => by
    rw [hb.2] at hc
    obtain rfl := List.mem_singleton.1 hc
    exact mapM_isSome _ _ fun i _ => hr i
  simpa [readThreads] using this

/-- A BF16-sized and an INT32 window, READY: the descriptor of 17_tiles_launch.md with base 0x20000 and the element size in v17. -/
def mappedTile (es : Nat) (f : Tile → Tile) (g : Thread → Thread) : State :=
  let s := nextOf (exec (.tctlMap 1 16) (tiled (regs [(16, 0x20000), (17, 0x08000000 + es * 2 ^ 25)])))
  let s := modTile s 0 0 fun x => f { x with st := .ready, blocks := (List.range 4).map fun b => (b, (0, 100)) }
  modThread (modCore { s with cur := some { core := 0, port := 0, fpc := 1 } } 0 fun c => { c with ports := [(0, [0])] }) 0 g
theorem witness_TileReads :
    let s := mappedTile 2 id (regs [(8, 0x0102)])
    let h := mappedTile 1 id (regs [(8, 0x0102)])
    let w : WordSpec := { opSpec [sp1 8] [sp1 20] with order := true, adds := [(.ld, 1)] }
    let wf : WordSpec := { opSpec [sp1 8] [(24, 8, 4)] with order := true }
    goes w s = true ∧ goes wf h = true ∧ (getTile s 0 0).map (fun x => (tileEs x.desc, x.st, x.poisoned)) = some (4, .ready, []) ∧ (getTile h 0 0).map (fun x => fragOk .a x.desc) = some true ∧
    (getTile s 0 0).map (fun x => renewAll w 0 0 x.desc (fun _ => oneElem 8 (regs [(8, 0x0102)] placedThread)) [0] s == (true, s)) = some true ∧
    (getTile h 0 0).map (fun x => renewAll wf 0 0 x.desc (fragElems .a 8 x.desc) [0] h == (true, h)) = some true ∧
    (getTile s 0 0).map (fun x => tileFull s w .ld 1 x.desc (oneElem 8) [0]) = some false ∧ (getTile h 0 0).map (fun x => tileFull h wf .ld 0 x.desc (fragElems .a 8 x.desc) [0]) = some false ∧
    ((getThread s 0).bind fun t => (getTile s 0 0).map fun x => (decide (count t .ld + tileCounts 1 x.desc (oneElem 8 t) ≤ 255), staleBlocks x t.pts (laneBlocks x.desc (oneElem 8 t)), (getTeam s 0).spoison)) = some (true, [], []) ∧
    ((getThread h 0).bind fun t => (getTile h 0 0).map fun x => (decide (count t .ld + tileCounts 0 x.desc (fragElems .a 8 x.desc t) ≤ 255), staleBlocks x t.pts (laneBlocks x.desc (fragElems .a 8 x.desc t)))) = some (true, []) ∧
    (getTile h 0 0).map (fun x => (x.poisoned, x.st)) = some ([], .ready) ∧
    getTile s 0 1 = none ∧ (getTile s 0 0).map (fun x => inWindow x.desc [2, 1, 0, 0]) = some true := by decide +kernel
theorem witness_TileStores :
    let s := mappedTile 2 id (regs [(8, 0x0102)])
    let w : WordSpec := { opSpec [sp1 8, sp1 20] [] with adds := [(.st, 1)] }
    let wf : WordSpec := opSpec [sp1 8, (24, 8, 4)] []
    goes w s = true ∧ goes wf s = true ∧
    (getTile s 0 0).map (fun x => (tileEs x.desc, tileWr x.desc, x.st, fragOk .d x.desc)) = some (4, true, .ready, true) ∧
    (getTile s 0 0).map (fun x => ((storeMisses w x.desc (oneElem 8) [0] s).isEmpty, (storeMisses wf x.desc (fragElems .d 8 x.desc) [0] s).isEmpty,
      tileFull s w .st 0 x.desc (oneElem 8) [0], tileFull s wf .st 0 x.desc (fragElems .d 8 x.desc) [0])) = some (true, true, false, false) ∧
    teamOf s (bundle s 0 0) = 0 ∧ (getThread s 0).map (fun t => xlate s 0 t .tileStore 0 (0x20000 + 4 * 12)) = some (.ok gib) := by decide +kernel
theorem witness_TileControlWords :
    let s := mappedTile 2 id id
    let wm := opSpec [(16, 8, 4)] [sp1 1]
    let d := (getThread (tiled id) 0).map fun t => readSpan t 16 8
    goes wm (tiled id) = true ∧ d.map descOk = some true ∧ (tget (getTeam (tiled id) 0).tiles 0) = none ∧ (0 < (getTeam (tiled id) 0).tileCount) ∧
    ((getThread (tiled (regs [(23, 1)])) 0).map fun t => descOk (readSpan t 16 8)) = some false ∧
    (∀ j, j < (getTeam s 0).tileCount → (tget (getTeam s 0).tiles j).isSome = true) ∧ (d.map fun d => findArea (tiled id) (getTeam (tiled id) 0) (tileArea d)) = some (some 3200) ∧
    (getTile s 0 0).map (·.st) = some .ready ∧ (getTile (mappedTile 2 (fun x => { x with st := .empty }) id) 0 0).map (·.st) = some .empty ∧
    getTile s 0 1 = none ∧ (getTeam s 0).tileCount ≤ 1 ∧ teamOf s (bundle s 0 0) = 0 ∧ ((getThread s 0).map fun t => t.ops.all fun o => decide (o.id < s.nextId)) = some true ∧
    goes { order := true, adds := [(.tl, 1)] } s = true ∧ goes { adds := [(.tl, 1)] } s = true := by decide +kernel
/-- The tile filling from the paged memory, and draining. -/
theorem witness_TileEvents :
    let f := mappedTile 2 (fun x => { x with st := .filling, blocks := [] }) id
    let d := mappedTile 2 (fun x => { x with st := .draining, freeing := true }) id
    tileBlocked f 0 0 = false ∧ (getTile f 0 0).map (fun x => let r := fillTile f 0 0 x.fillThr x x.fillPts (List.range (tileArea x.desc / 128))
      r.1 && (getTile r.2 0 0).map (·.desc) == some x.desc && ((teamMates r.2 0).all fun e => e.2.st != .waiting) && (x.fillThr :: x.waiters).all fun j => !tileRevoked f j) = some true ∧
    (getTile d 0 0).map (·.st) = some .draining ∧ tileStores d 0 0 = 0 ∧ ((getTeam d 0).tiles.Pairwise fun a b => a.1 < b.1) ∧
    ((teamMates d 0).all fun e => e.2.st != .waiting) = true := by decide +kernel
/-- A thread with one outstanding operation. -/
def owing (o : Op) : State := issuing [] fun t => { t with ops := [o] }
/-- Alone, as a computation. -/
def alone (s : State) (wid line : Nat) (o : Op) (f : Op → Bool) : Bool :=
  wordOps s wid line f == [(0, o)] && ((getThread s 0).map fun t => findOp t o.id == some o && earlierDone t o.id && t.held.isNone && t.waitOn == .nothing) == some true &&
    o.snap.isNone && !o.zf
/-- An operation of 8 bytes at a location. -/
def opAt (k : OpKind) (l : Loc) : Op := { id := 5, wid := 9, cnt := .ld, kind := k, va := 0x60000, loc := l, size := 8, dest := 6, dlen := 2 }
theorem witness_AccessesPerformAndReturn_home :
    (let o := opAt (.load .w64) (.here 0x60000); alone (owing o) 9 0xC00 o atHomeOp) = true ∧
    (let o := opAt (.store 7) (.here 0x60000); alone (owing o) 9 0xC00 o atHomeOp) = true ∧
    (let o := opAt (.rmw (.atom64 .add) 7) (.here 0x60000)
     alone (owing o) 9 0xC00 o atHomeOp && !(getLine (owing o) 0xC00).poison && (Rmw.atom64 .add).writes (standing (owing o) 0x60000 8)) = true ∧
    (let o := opAt (.load .w64) (.remote 3 1 0x60000)
     alone (owing o) 9 (2 ^ 51 + 0xC00) o atHomeOp && !o.sent && (tfree (owing o).fa.requests 65536 0).isSome) = true ∧
    (let o := opAt (.load .w64) (.host 0x800000060000); alone (owing o) 9 0x10000000C00 o onHostPath) = true ∧
    (let o := opAt (.store 7) (.host 0x800000060000); alone (owing o) 9 0x10000000C00 o onHostPath) = true ∧
    isHost 0x800000000000 = true ∧ mapped 0xFFFFFFFFFFFF = true ∧ isHost 0x1000000000000 = true ∧ mapped 0x1000000000000 = false ∧ wordOps paged 9 0 onHostPath = [] ∧
    (let o := opAt (.radd .f32 7) (.here 0x60000); alone (owing o) 9 0xC00 o raddHere) = true := by decide +kernel
/-- A packet whose first step is an add of 16 to the pointer, and one that has ended. -/
def packet (steps : List Nat) (fin : ChldFin) : Op := opAt (.chain { fin := fin, steps := steps, p := 0x60000, c := 0 }) (.here 0)
theorem witness_AccessesPerformAndReturn_rest :
    (let o := opAt (.peerLoad 0 16) (.here 0); (owing o).ex.threads.map (fun e => e.2.ops == [o]) = [true] ∧ o.wid = 9 ∧ o.performed = false) ∧
    (let o := packet [] .addr; (findOp { placedThread with ops := [o] } 5 = some o ∧ (chainNext { fin := .addr, steps := [], p := 0x60000, c := 0 }).isNone = true ∧
      earlierDone { placedThread with ops := [o] } 5 = true)) ∧
    (let o := packet [16] .ld64; let ch : Chain := { fin := .ld64, steps := [16], p := 0x60000, c := 0 }
     chainNext ch = some (0x60010, 8, .chain) ∧ chainFinal ch = false ∧ ch.steps[ch.k]? = some 16 ∧ 0x60010 % 8 = 0 ∧ blockedOn (owing o) (.chain 0 5 0x60010) = false ∧
      (match xlate (owing o) 0 { placedThread with ops := [o] } .chain 0 0x60010 with
        | .ok l => !l.zf && locOf l 0 0x60010 == .here 0x60010
        | _ => false) = true ∧ (getLine (owing o) 0xC00).poison = false ∧ placedThread.tx.depth = 0 ∧ placedThread.snap = .off ∧ placedThread.revoked = false) := by decide +kernel
theorem witness_AccessesPerformAndReturn_return :
    (let o : Op := { opAt (.load .w64) (.here 0x60000) with performed := true }
     isReturning o = true ∧ o.complete = false ∧ o.poisoned = false ∧ o.prot = false ∧ { o with poisoned := true }.poisoned = true ∧ placedThread.frame.isNone = true ∧ placedThread.held.isNone = true) ∧
    horizonRoom paged (openAt paged 3) = true ∧ ({ smallGrid with waitsHorizon := true }).waitsHorizon = true ∧
    (let t : Thread := { placedThread with st := .waiting, waitOn := .table, held := some { instr := .txbegin, hints := [] } }
     t.st = .waiting ∧ t.waitOn = .table ∧ t.held.map (·.instr) = some .txbegin) := by decide +kernel

/-! Witnesses for the job words and the events. -/

/-- `n` bytes of a number placed in memory. -/
def putN (a n x : Nat) (s : State) : State := { s with mm := { s.mm with mem := mwrite s.mm.mem a (natLe n x) } }
/-- Sources and destination of a small fill: 64 bytes of 0xAB at 0x61000, its completion word at 0x62000 (R288, R294). -/
def fillCard : Nat := 0x62000 * 2 ^ 64 + 2 ^ 512 * (3 + 2 ^ 128 * 0x61000 + 2 ^ 192 * 0xABABABABABABABAB + 2 ^ 256 * 64 + 2 ^ 288)
/-- A queue of address space 0 with its ring at 0x40000, empty. -/
def ring : Queue := { logn := 4, ringBase := 0x40000, push := true }
/-- A thread that has read its card and waits for room for it. -/
def jobWaits : State := issuing [] fun t => { t with st := .waiting, waitOn := .table, held := some { instr := .job .copy 8, hints := [], token := 5 }, buf := [(0, fillCard)] }
theorem witness_JobAndQueueWords_job :
    let s := issuing [] (regs [(8, 0x60000)])
    let sp : WordSpec := { opSpec [(8, 2, 2)] [] with order := true, adds := [(.cp, 1)] }
    goes sp s = true ∧ rdPair ((getThread s 0).getD placedThread) 8 = 0x60000 ∧ 0x60000 % 128 = 0 ∧ (s.ex.threads.Pairwise fun x y => x.1 < y.1) ∧
    (s.ex.threads.all fun e => e.2.held.isNone && e.2.tx.depth == 0 && e.2.snap == .off && !e.2.revoked && !e.2.dstop && decide (count e.2 .cp < 63)) = true ∧
    (match xlate s 0 placedThread .load 0 0x60000 with
      | .ok l => !l.gather && !l.remote && decide (l.frame + 0x60000 % pageBytes l.size = 0x60000) && !(readAt s l.zf none 0 0x60000 128).1.poison
      | _ => false) = true ∧ (heldCards s).length < Config.trackerCards ∧ s.en.cards = [] := by decide +kernel
theorem witness_JobAndQueueWords_append :
    (jobWaiters jobWaits 5).map (fun e => (e.1, e.2.2)) = [(0, .copy)] ∧ jobsFit jobWaits (jobWaiters jobWaits 5) (planJobs jobWaits (jobWaiters jobWaits 5) []) = true ∧
    (let s := modThread jobWaits 0 fun t => { t with ops := List.replicate 63 { id := 0, wid := 0, cnt := .cp, kind := .job 9 } }
     jobsFit s (jobWaiters s 5) (planJobs s (jobWaiters s 5) []) = false) := by decide +kernel
theorem witness_JobAndQueueWords_push :
    let s (q : Queue) : State := { issuing [] (regs [(8, 0x60000), (10, 3)]) with qu := { State.reset.qu with queues := [(3, q)] } }
    let t := (getThread (s ring) 0).getD placedThread
    let sp : WordSpec := { opSpec [(8, 2, 2), sp1 10] [sp1 12] with order := true, adds := [(.ld, 1)] }
    ({ ring with frozen := true }).frozen = true ∧ ({ ring with widx := 16 }).widx - 0 = ring.size ∧ ring.widx - ring.ridx ≠ ring.size ∧
    hostMay (s ring) .engineWrite 0 (ring.at_ 0) 64 = true ∧ hostMay (s ring) .engineWrite 0 ring.ctl 8 = true ∧
    goes sp (s ring) = true ∧ pushOk (s ring) t 10 = true ∧ pushOk (s { ring with push := false }) t 10 = false ∧
    rdPair t 8 = 0x60000 ∧ 0x60000 % 64 = 0 ∧
    (match xlate (s ring) 0 t .load 0 0x60000 with
      | .ok l => !l.gather && !l.remote && !(readAt (s ring) l.zf none 0 0x60000 64).1.poison
      | _ => false) = true := by decide +kernel

/-- A core with two threads that may be bundled. -/
def twoReady : State :=
  let s := modCore (issuing [] id) 0 fun c => { c with ports := [] }
  { s with ex := { s.ex with threads := [(0, placedThread), (1, { placedThread with glane := 1, hlane := 1, pc := 8, age := 70 })] } }
theorem witness_PlacementAndCompletion_bundle :
    let s := twoReady
    let s₂ := { s with ex := { s.ex with ageMax := 255 } }
    let s₃ : State := { s with ex := { s.ex with threads := [] } }
    s.halted = false ∧ halting s 0 = false ∧ tget (getCore s 0).ports 3 = none ∧ (s.ex.threads.Pairwise fun a b => a.1 < b.1) ∧
    (candidates s 0).length = 2 ∧ ((agedChoice s 0 (candidates s 0)).map fun x => x.ts.map (·.1)) = some [1] ∧ ((agedChoice s 0 (candidates s 0)).all fun x => (candidates s 0).contains x) = true ∧
    (agedChoice s₂ 0 (candidates s₂ 0)).isNone = true ∧
    ((candidates s₂ 0).any fun x => (candidates s₂ 0).all fun y => y == x || (candBefore s₂ 0 x y && !candBefore s₂ 0 y x)) = true ∧
    (candidates s₃ 0).isEmpty = true ∧ 3 < 4 ∧ 0 < Config.cores := by decide +kernel
/-- A grid of one team, and one of a cluster of 2 x 1 teams, still to be placed. -/
def unplaced (cw : Nat) : State :=
  let s := nextOf (exec (.teamFree 0) (let s := issuing [] fun t => { t with st := .draining }
    { s with cur := none }))
  let w := 0x01000001 + cw * 65536
  { s with ex := { s.ex with grids := [(0, { placedGrid with next := 0, record := placedRecord.set 7 (BitVec.ofNat 32 w) |>.set 8 (BitVec.ofNat 32 cw) })] } }
theorem witness_PlacementAndCompletion_team :
    (unplaced 1).ex.teams = [] ∧ ((chooseGrid (unplaced 1)).map fun e => (e.1, e.2.2)) = some (0, [0]) ∧ (unplaced 1).halted = false ∧
    ((unplaced 1).ex.grids.map fun e => (e.1, e.2.cw * e.2.ch, fits (unplaced 1) e.2 0, waitsPlacement e.2, e.2.reserving.isNone, decide (e.2.waitSince + Config.cycles256us ≤ 400000))) = [(0, 1, true, true, true, true)] ∧
    ((chooseGrid (unplaced 1)).all fun e => some e.2.1 == tget (unplaced 1).ex.grids 0) = true := by decide +kernel
theorem witness_PlacementAndCompletion_cluster :
    ((chooseGrid (unplaced 2)).map fun e => (e.1, e.2.2)) = some (0, [0, 1]) ∧ ((unplaced 2).ex.grids.map fun e => (e.2.cw * e.2.ch, fits (unplaced 2) e.2 0, fits (unplaced 2) e.2 1)) = [(2, true, true)] ∧
    ([0, 1] : List Nat).Nodup ∧ ((chooseGrid (unplaced 2)).all fun e => some e.2.1 == tget (unplaced 2).ex.grids 0) = true := by decide +kernel
/-- The team of the small state, whose thread has exited; a cluster of two teams; and its grid with all teams freed. -/
theorem witness_PlacementAndCompletion_end :
    let s := issuing [] fun t => { t with st := .draining }
    let s₂ : State := { s with ex := { s.ex with teams := [(0, placedTeam), (1, { placedTeam with gone := true })], clusters := [(0, { grid := 0, teams := [0, 1] })] } }
    let g (a : Nat) (l : Launcher) : Grid := { smallGrid with record := smallGrid.record.set 14 (BitVec.ofNat 32 a), launcher := l }
    let f (a : Nat) (l : Launcher) : State := { unplaced 1 with ex := { (unplaced 1).ex with grids := [(0, g a l)] }, qu := { State.reset.qu with nodes := [(2, { graph := 0, place := 0, bits := 1 })] } }
    ((teamMates s 0).all fun e => !e.2.live && !threadOwes s e) = true ∧ copyHolds s 0 = false ∧ tget s.ex.teams 0 = some placedTeam ∧ placedTeam.gone = false ∧ placedTeam.tiles.isEmpty = true ∧
    ((tget s.ex.clusters placedTeam.cluster).map (·.teams)) = some [0] ∧ (getTeam s₂ 1).gone = true ∧ (getTeam s₂ 0).gone = false ∧ ((tget s₂.ex.clusters 0).map (·.teams)) = some [0, 1] ∧
    allFreed (f 0 (.slot 0 0)) 0 (g 0 (.slot 0 0)) = true ∧ (g 0 (.slot 0 0)).word 14 = 0 ∧ (g 0 (.slot 0 0)).word 15 = 0 ∧ (tget (f 0 (.slot 0 0)).qu.queues 0).isSome = true ∧
    ((teamMates s 0).all fun e => !peerOwed e.2) = true ∧ ownRequests (f 0 (.slot 0 0)) (.grid 0) = [] ∧ ((lateOf (f 0 (.slot 0 0)) 0).any (threadOwes (f 0 (.slot 0 0)))) = false ∧
    allFreed (f 0 (.node 0 2)) 0 (g 0 (.node 0 2)) = true ∧ (getNode (f 0 (.node 0 2)) 0 2).isSome = true ∧
    allFreed (f 0x62000 (.slot 0 0)) 0 (g 0x62000 (.slot 0 0)) = true ∧ (g 0x62000 (.slot 0 0)).word 14 = 0x62000 ∧
    reaches (settleAll (f 0x62000 (.slot 0 0))) baseVia .engineWrite 0 0x62000 0x62000 = true := by decide +kernel
/-- Slot 0 bound to queue 3, whose entry 0 is `e`; `f` prepares the slot. -/
def bound (e : Nat) (f : Slot → Slot) : State :=
  let s := putN 0x40000 64 e paged
  { s with qu := { s.qu with queues := [(3, { ring with push := false, widx := 1 })], slots := [(0, f { queue := 3 })] } }
/-- A SIGNAL entry that waits for the value 5 at 0x60000 and writes 1 at 0x60008 (R273). -/
def signalEntry : Nat := 0x303 + 2 ^ 256 * 0x60000 + 2 ^ 320 * 5 + 2 ^ 384 * 0x60008 + 2 ^ 448
/-- A LAUNCH entry of the record at 0x50000, and a GRAPH entry of the descriptor there. -/
def launchEntry : Nat := 1 + 2 ^ 64 * 0x50000
theorem witness_QueueUnitWorks_slots :
    let s := { bound signalEntry id with qu := { (bound signalEntry id).qu with slots := [] } }
    let q : Queue := { ring with push := false, widx := 1 }
    tget s.qu.slots 127 = none ∧ s.qu.queues = [(3, q)] ∧ isWaiting s 3 q = true ∧ 127 < Config.slots ∧
    (let q : Queue := { ring with frozen := true, widx := 1 }
     let s : State := { bound 0 id with qu := { (bound 0 id).qu with queues := [(3, q)] } }
     tget s.qu.slots 0 = some { queue := 3 } ∧ unbinds s { queue := 3 } q = true ∧ slotOf s 3 = some 0) := by decide +kernel
theorem witness_QueueUnitWorks_entries :
    (let s := bound signalEntry id
     reaches s baseVia .engineRead 0 (ring.at_ 0) 0x40000 = true ∧ (getLine s (0x40000 / 128)).poison = false ∧ standing s 0x40000 64 = signalEntry ∧
       entryOk signalEntry = true ∧ entryAddrs signalEntry = true ∧ entryOk (signalEntry - 0x200) = false ∧ entryOk (signalEntry + 2 ^ 384) = true ∧ entryAddrs (signalEntry + 2 ^ 384) = false) ∧
    (let s := bound signalEntry fun x => { x with entry := some signalEntry }
     tget s.qu.slots 0 = some { queue := 3, entry := some signalEntry } ∧ reaches s baseVia .engineRead 0 (bits signalEntry 319 256) 0x60000 = true ∧ (getLine s (0x60000 / 128)).poison = false) ∧
    (let s := bound signalEntry fun x => { x with entry := some signalEntry, waitMet := true }
     entryType signalEntry = 3 ∧ indexWaits s { ring with push := false, widx := 1 } = false ∧ reaches s baseVia .engineWrite 0 (ring.ctl + 64) 0x40440 = true) ∧
    (let s := putN 0x50000 256 (leNat (placedRecord.flatMap fun w => natLe 4 w.toNat)) (bound launchEntry fun x => { x with entry := some launchEntry, waitMet := true })
     entryType launchEntry = 1 ∧ bits launchEntry 127 64 % 256 = 0 ∧ indexWaits s { ring with push := false, widx := 1 } = false ∧
       (match launch s (slotReader { queue := 3 } ring) 0x50000 (entryOverride launchEntry) 0 3 (.slot 3 0) 0 with
       | .ok gi _ w => gi == 0 && (tget w.ex.grids 0).isSome
       | _ => false) = true) := by decide +kernel
theorem witness_QueueUnitWorks_records :
    let p : Pending := { queue := 3, index := 0, sigAddr := some 0x60008, sigVal := 1, fin := some 9 }
    let s : State := { bound 0 id with qu := { (bound 0 id).qu with pendings := [p] } }
    let r : FaultRec := { merge := 0, srcKind := 0, srcId := 0, asid := 1, acc := 0, va := 0x70000 }
    let q : FaultQueue := { base := some 0x80000, waiting := [r] }
    s.qu.pendings.find? (fun p => p.queue == 3 && p.index == 0) = some p ∧ ownRequests s (.signal 3 0) = [] ∧ reaches s baseVia .engineWrite 0 0x60008 0x60008 = true ∧
    (q.seq + 2 ^ 32 - q.readIx % 2 ^ 32) % 2 ^ 32 < 4096 ∧ (match writeCounted { s with tr := { s.tr with faultQs := [(0, q)] } } { die := 0 } 0 0x80000 (0x80000 + 131072) (natLe 32 (recordValue r 1)) 1 with
      | .ok .. => true
      | _ => false) = true ∧
    (let q : FaultQueue := { q with seq := 4096 }; 4096 ≤ (q.seq + 2 ^ 32 - q.readIx % 2 ^ 32) % 2 ^ 32 ∧ q.full = false) := by decide +kernel

/-- One card at work. -/
def atWork_ (k : JobKind) (bits : Nat) (buf : Tab Nat) : State :=
  let s := issuing [] id
  { s with en := { s.en with cards := [(4, { instance_ := 0, asid := 0, kind := k, bits := bits, stamp := 0, team := some 0, started := true, buf := buf })] } }
/-- Works, as a computation. -/
def works (s : State) (k : JobKind) : Bool := match tget s.en.cards 4 with
  | some c => c.kind == k && c.started && c.frozen.isNone && !c.worked && !c.finished
  | none => false
/-- The card. -/
def card4 (s : State) : Card := (tget s.en.cards 4).getD { instance_ := 0, asid := 0, kind := .copy, bits := 0, stamp := 0 }
/-- A card's header with one read-write footprint of 1 MiB at 0x60000 and a body (R288, R289). -/
def cardOf (type_ body : Nat) : Nat := type_ + 2 ^ 128 * (0x60000 + 2 ^ 57 + 2 ^ 64 * 0x100000) + 2 ^ 512 * body
/-- A read or write of a job ends well, the card still held. -/
def did (n : Nat) : Option (List Byte) × State → Bool
  | (some bs, w) => bs.length == n && (tget w.en.cards 4).isSome
  | _ => false
/-- Its writes are all made. -/
def wrote (r : Bool × State) : Bool := r.1 && (tget r.2.en.cards 4).isSome
/-- Copies of 64 bytes to 0x61000: from 0x60000, to the stash's start, and a fill (R294). -/
def copyBody (mode src dst : Nat) : Nat := mode + 2 ^ 64 * src + 2 ^ 128 * dst + 2 ^ 256 * 64 + 2 ^ 288
theorem witness_EnginesWork_copies :
    (let s := atWork_ .copy (cardOf 1 (copyBody 3 0 0x61000)) []
     let s₀ : State := { s with en := { s.en with cards := [(4, { card4 s with started := false })] } }
     works s .copy = true ∧ isPiece (card4 s) 0 0x61000 = true ∧ copyMode (card4 s).body = 3 ∧ pieceLen (card4 s).body 0x61000 0x61000 = 64 ∧
       inFootprint (card4 s) 0x61000 64 true = true ∧ tget (card4 s).buf (wroteKey 0x61000) = none ∧ (card4 s₀).deps = [] ∧ (card4 s₀).status ≠ 3 ∧ reaches s (cardVia s (card4 s)) .engineWrite 0 0x61000 0x61000 = true ∧
       streamFrozen s₀ (card4 s₀) = false ∧ teamAway s₀ (card4 s₀) = false ∧ cardOk s₀ (card4 s₀) = true ∧ cardOk s₀ { card4 s₀ with kind := .sort } = false) ∧
    (let s := atWork_ .copy (cardOf 1 (copyBody 0 0x60000 0x61000)) []
     works s .copy = true ∧ isPiece (card4 s) 0 0x61000 = true ∧ copyMode (card4 s).body = 0 ∧ copyDst (card4 s).body 0 = 0x61000 ∧ copySrc (card4 s).body 0 = 0x60000 ∧
       did 64 (cardReadSpan s 4 (pieceTag 0 0x61000) 0x60000 64) = true ∧ (match cardReadSpan s 4 (pieceTag 0 0x61000) 0x60000 64 with
         | (some _, w) => reaches w (cardVia w (card4 w)) .engineWrite 0 0x61000 0x61000 && (card4 w).frozen.isNone && (tget (card4 w).buf (wroteKey 0x61000)).isNone &&
             inFootprint (card4 w) 0x61000 64 true
         | _ => false) = true) ∧
    (let s := atWork_ .copy (cardOf 1 (copyBody 1 0x60000 0)) []
     works s .copy = true ∧ isPiece (card4 s) 0 0 = true ∧ copyMode (card4 s).body = 1 ∧ (card4 s).team = some 0 ∧ (match cardReadSpan s 4 (pieceTag 0 0) 0x60000 64 with
         | (some bs, w) => bs.length == 64 && (tget w.ex.teams 0).isSome && !inTiles w (getTeam w 0) 0 64 && (tget (pieceAhead w 4 0 0).en.cards 4).isSome &&
             !changesPhase (getTeam w 0) 0 bs
         | _ => false) = true ∧
       changesPhase (getTeam s 0) 0 (natLe 64 (2 ^ 31)) = true ∧ (let c := card4 (pieceAhead s 4 0 0); pieceSum c.body (c.ahead ++ c.pieces) = copyRows c.body * copyLen c.body)) := by decide +kernel
/-- A sort of one key at 0x60000 with its payload at 0x60100 and scratch at 0x60200 (R297). -/
def sortBody : Nat := 0x60000 + 2 ^ 64 * 0x60100 + 2 ^ 128 * 0x60200 + 2 ^ 288 * 64 + 2 ^ 320
theorem witness_EnginesWork_sort :
    let s := atWork_ .sort (cardOf 2 sortBody) []
    works s .sort = true ∧ sortOk sortBody = true ∧ (card4 s).body = sortBody ∧ (match cardReadSpan s 4 0 0x60000 8 with
      | (some ks, w) => match cardReadSpan w 4 0 0x60100 4 with
        | (some ps, w) => wrote (cardWriteSpans w 4 (sortWrites 4 sortBody (stableSort (sortField sortBody) ((elemsOf 8 1 ks).zip (elemsOf 4 1 ps)))))
        | _ => false
      | _ => false) = true := by decide +kernel
theorem witness_EnginesWork_windows :
    let b := 0x70000 + 2 ^ 64 * 0x60000 + 2 ^ 128 * 0x60100 + 2 ^ 320 * 4 + 2 ^ 352 * 4
    let s := atWork_ .gatherbind (cardOf 3 b) []
    let w := windowOf 0 b
    works s .gatherbind = true ∧ s.en.windows.length < Config.windows ∧ windowsMeet w w = true ∧ windowsMeet w { w with wbase := 0x80000 } = false ∧
    Config.windows ≤ (List.replicate Config.windows w).length ∧
    (let s : State := { atWork_ .unbind (cardOf 4 0x70000) [] with en := { (atWork_ .unbind (cardOf 4 0x70000) []).en with windows := [w] } }
     works s .unbind = true ∧ s.en.windows.find? (fun w => w.asid == 0 && w.wbase == bits (card4 s).body 63 0) = some w ∧ windowBusy s w = false) := by decide +kernel
/-- A group of this package alone, and a COLL card and an OCOMP card of it (R303, R305). -/
def grouped (k : JobKind) (type_ body : Nat) (buf : Tab Nat) : State :=
  let s := atWork_ k (cardOf type_ body) buf
  { s with en := { s.en with groups := [(2, [s.fa.pkg])] } }
def collBody : Nat := 0x60000 + 2 ^ 64 * 0x61000 + 2 ^ 192 * 1 + 2 ^ 256 * 2
def ocompBody : Nat := 0x60000 + 2 ^ 64 * 0x68000 + 2 ^ 128 * 0x70000 + 2 ^ 192 + 2 ^ 256 * 2
theorem witness_EnginesWork_collectives :
    (let s := grouped .coll 5 collBody []
     works s .coll = true ∧ did 4 (collOperand s 4 (card4 s)) = true) ∧
    (let s := grouped .ocomp 6 ocompBody []
     works s .ocomp = true ∧ did 1028 (collOperand s 4 (card4 s)) = true) ∧
    (let s := grouped .coll 5 collBody [(1, 7)]
     let ps := presented s (card4 s) (natLe (collBytes (card4 s)) 7)
     works s .coll = true ∧ tget (card4 s).buf 1 = some 7 ∧ ps.length = 1 ∧ (collMembers s (card4 s).body).length = 1 ∧ (ps.all fun p => p.head == collHead s .coll (card4 s).body) = true ∧ (card4 s).status = 0 ∧
       wrote (cardWriteSpans s 4 (collResult (card4 s).body ps)) = true) := by decide +kernel
theorem witness_EnginesWork_ocomp :
    let s := grouped .ocomp 6 ocompBody [(1, 7)]
    let ps := presented s (card4 s) (natLe (collBytes (card4 s)) 7)
    works s .ocomp = true ∧ ps.length = (collMembers s (card4 s).body).length ∧ ps.isEmpty = false ∧ (ps.all fun p => p.head == collHead s .ocomp (card4 s).body) = true ∧
      bits (card4 s).body 191 128 = 0x70000 ∧ wrote (cardWriteSpans s 4 [(0x70000, ocompImage 1 ps)]) = true := by decide +kernel
theorem witness_EnginesWork_completion :
    let c : Card := { instance_ := 0, asid := 0, kind := .sort, bits := cardOf 2 sortBody + 2 ^ 64 * 0x62000, stamp := 0, started := true, worked := true, thr := some (0, 5) }
    let o : Op := { id := 5, wid := 5, cnt := .cp, kind := .job 4, performed := true }
    let s : State := { owing o with en := { (owing o).en with cards := [(4, c)] } }
    let d : Card := { c with bits := cardOf 2 sortBody, thr := none, node := some (0, 2) }
    ownRequests s (.card 4) = [] ∧ ownRequests s (.completion 4) = [] ∧ c.frozen.isNone = true ∧ c.finished = false ∧ bits c.bits 120 64 = 0x62000 ∧
    reaches (settleAll (finishCard s 4 c)) (cardVia s c) .engineWrite 0 0x62000 0x62000 = true ∧ (findOp ((getThread s 0).getD placedThread) 5).isSome = true ∧ bits d.bits 120 64 = 0 := by decide +kernel
/-- A COLL card whose other member, package 1, names another operation (R303, R304). -/
theorem witness_EnginesWork_mismatch :
    let s := grouped .coll 5 collBody [(1, 7)]
    let f : Frame := { dpkg := 0, spkg := 1, cls := 0, stamp := 0, addr := 0, asid := 2, tag := 0, op := 7, data := natLe 4 0 ++ natLe 4 9 ++ natLe 4 1 ++ natLe 2 1 ++ natLe 1 3 ++ natLe 4 7 }
    let s : State := { s with en := { s.en with groups := [(2, [0, 1])], inbox := [f] } }
    let ps := presented s (card4 s) (natLe (collBytes (card4 s)) 7)
    works s .coll = true ∧ (collMembers s (card4 s).body).length = 2 ∧ ps.length = 2 ∧ (ps.any fun p => p.head != collHead s .coll (card4 s).body) = true := by decide +kernel
/-- The small paged state with four 64 KiB pages at VA 0x40000000: zero-fill, plain, malformed (TYPE 3) and invalid (R363, R364). -/
def small : State :=
  let s := put8 0x3008 0x8000000000004000 (put8 0x4000 0x8000000000005000 (put8 0x5000 0xBE00000000100000 (put8 0x5008 0xBC00000000200000 (put8 0x5010 0xE000000000000000 (issuing [] id)))))
  s
/-- The leaf of the second page. -/
def page1 : Leaf := { size := 0, r := true, w := true, x := true, frame := 0x200000, entry := 0x5008 }
/-- A merge entry of die 0 on one of those pages. -/
def merging (n : Nat) (f : Merge → Merge) : State := { small with tr := { small.tr with merges := [(7, f { asid := 0, vpn := 0x4000 + n, acc := 0 })] } }
theorem witness_WalksMigrationsAndGraphs_walks :
    (let s := merging 1 fun m => { m with waiters := [.lane 0 0x40010000 0] }
     walkOver s [] 0 (0x4001 * 65536) = .leaf page1 ∧ (tget s.tr.merges (0 * 1024 + 7)).map (fun m => (m.phase, m.waiters)) = some (.walking, [.lane 0 0x40010000 0]) ∧
       holdable page1 = true ∧ placedThread.st ≠ .parked ∧ placedThread.live = true) ∧
    (let s : State := { merging 1 id with tr := { (merging 1 id).tr with pointers := [{ die := 0, asid := 0, level := 2, index := 0x40010000 / 2 ^ levelShift 2, value := 0x8000000000004000 }] } }
     keptPointers s 0 0 ≠ [] ∧ walkOver s (keptPointers s 0 0) 0 (0x4001 * 65536) = .leaf page1) ∧
    walkOver (merging 3 id) [] 0 (0x4003 * 65536) = .absent ∧ walkOver (merging 2 id) [] 0 (0x4002 * 65536) = .bad ∧ 7 < 1024 ∧
    (let l : Leaf := { page1 with zf := true, frame := 0x100000, entry := 0x5000 }
     let s := merging 0 fun m => { m with phase := .zero l }
     walk s 0 (0x4000 * 65536) = .leaf l ∧ l.entry + 8 ≤ l.frame ∧ bit (leNat (mread s.mm.mem l.entry 8)) 57 = true) := by decide +kernel
theorem witness_WalksMigrationsAndGraphs_migration :
    (let hostPage := { page1 with frame := 0x800000200000 }
     let s (fs : List Nat) : State :=
       let s := put8 0x5008 0xBC00800000200000 small
       { s with tr := { s.tr with frames := [(0, fs)] }, mm := { s.mm with fills := List.replicate 64 { slice := 5, unit := 0x80000020, clock := 0 } } }
     walk (s [0x300000]) 0 0x40010000 = .leaf hostPage ∧ (s []).tr.migth = 64 ∧ pageStart 0x40010000 0 = 0x40010000 ∧ isHot (s [0x300000]) 0 0 0x40010000 hostPage = true ∧ isHot (s []) 0 0 0x40010000 hostPage = true ∧
       isHost hostPage.frame = true ∧ (lockOf (s []) 0 0x40010000).isNone = true ∧ isRecent (s []) 0 0x40010000 false false = false ∧ 0x300000 % pageBytes 0 = 0 ∧ frameOk (s []) 0x300000 (pageBytes 0) = true) ∧
    (let m : MigLock := { asid := 0, va := 0x40010000, dest := 1, side := .device, size := 0, list := 0, frame := 0x300000, entry := 0x5008, leaf := 0xBC20000000200000 }
     let s₀ := put8 0x5008 0xBC20000000200000 small
     let s : State := { s₀ with tr := { s₀.tr with locks := [m] } }
     lockOf s 0 0x40010000 = some m ∧ (lockOf { s with mm := { s.mm with mem := mwrite s.mm.mem 0x5008 (natLe 8 0xBC00000000200000) } } 0 0x40010000 = some m ∧ 0xBC00000000200000 ≠ m.leaf) ∧ walk s 0 0x40010000 = .leaf { page1 with mig := true } ∧ leNat (mread s.mm.mem m.entry 8) = m.leaf ∧ m.frame % 128 = 0 ∧
       bits m.leaf 47 16 * 65536 = 0x200000 ∧ 0x200000 + pageBytes 0 ≤ m.frame ∧ m.entry + 8 ≤ m.frame ∧ s.mm.lines.all (fun e => e.2.delta.isNone) = true) := by decide +kernel
/-- A GRAPH entry of the descriptor at 0x50000, whose one node, at 0x50040, writes 9 at 0x60000 (R358, R359). -/
def graphEntry : Nat := 2 + 2 ^ 64 * 0x50000
def graphed : State := putN 0x50000 16 (0x50040 + 2 ^ 64) (putN 0x50040 64 (5 + 2 ^ 16 * 0x1FFF + 2 ^ 32 * 0x1FFF + 2 ^ 64 * 0x60000 + 2 ^ 128 * 9) (bound graphEntry fun x => { x with entry := some graphEntry, waitMet := true }))
theorem witness_WalksMigrationsAndGraphs_graph :
    entryType graphEntry = 2 ∧ bits graphEntry 127 64 % 16 = 0 ∧ indexWaits graphed { ring with push := false, widx := 1 } = false ∧
    (match readArray 16 1 0x50000 graphed (slotReader { queue := 3 } ring) with
      | (some (v, false), r, w) => descriptorOk v && decide (bits v 56 0 % 64 = 0) && (match readArray 64 (bits v 76 64) (bits v 56 0) w r with
        | (some (v2, false), _, w2) => nodeOk 1 0 v2 && nodeAligned v2 && decide (1 ≤ (freeNodes w2 0 1).length)
        | _ => false)
      | _ => false) = true := by decide +kernel
/-- A graph in flight on die 0 whose node 2 has fired, and whose node 3 is its successor. -/
def firing (bits : Nat) (f : GNode → GNode) : State :=
  let s := issuing [] id
  { s with qu := { s.qu with graphs := [(0, { die := 0, queue := 0, index := 0, asid := 0, count := 2 })],
                             nodes := [(2, f { graph := 0, place := 0, bits := bits, fired := 1 }), (3, { graph := 0, place := 1, bits := 5 + 2 ^ 48 })] } }
/-- A node of a kind with ADDR 0x60000 and no successors (S0 where `s0` says). -/
def nodeOf (kind s0 : Nat) : Nat := kind + 2 ^ 16 * s0 + 2 ^ 32 * 0x1FFF + 2 ^ 64 * 0x60000
/-- NodeFires, as a computation. -/
def fires (s : State) (kind : Nat) : Bool := match getNode s 0 2 with
  | some x => (tget s.qu.graphs x.graph).isSome && nodeKind x.bits == kind && !x.complete && x.launched.isNone && decide (0 < x.fired) && inReadyQueue s 0 x && !x.running && x.buf.isEmpty && nodeAddr x.bits == 0x60000
  | none => false
theorem witness_WalksMigrationsAndGraphs_nodes :
    fires (firing (nodeOf 3 0x1FFF) id) 3 = true ∧ fires (firing (nodeOf 4 0x1FFF) id) 4 = true ∧ fires (firing (nodeOf 5 0x1FFF) id) 5 = true ∧ fires (firing (nodeOf 6 0x1FFF) id) 6 = true ∧
    (let s := firing (nodeOf 2 0x1FFF) id
     fires s 2 = true ∧ ownRequests s (.node 0 2) = [] ∧ kindOf (bits (nodeOf 2 0x1FFF) 12 10) = some .copy ∧ reaches s { die := 0 } .engineRead 0 0x60000 0x60000 = true ∧ (heldCards s).length < Config.trackerCards ∧
       queuedAt s (instanceFor s 0 .copy []) < Config.cardsPerInstance ∧ reaches s { die := 0 } .engineRead 0 0x60000 0x60000 = true ∧ reaches s { die := 0 } .atomic 0 0x60000 0x60000 = true ∧
       reaches s { die := 0 } .engineWrite 0 0x60000 0x60000 = true ∧ (getLine s (0x60000 / 128)).poison = false) ∧
    (let s := putN 0x60000 256 (leNat (placedRecord.flatMap fun w => natLe 4 w.toNat)) (firing (nodeOf 1 0x1FFF) id)
     fires s 1 = true ∧ (match launch (modNode s 0 2 fun x => { x with running := true, fired := x.fired - 1 }) (nodeReader s 0 { die := 0, queue := 0, index := 0, asid := 0, count := 2 } { graph := 0, place := 0, bits := nodeOf 1 0x1FFF, fired := 1 }) 0x60000 none 0 0 (.node 0 2) 0 with
       | .ok .. => true
       | _ => false) = true) := by decide +kernel
theorem witness_WalksMigrationsAndGraphs_done :
    let s (s0 : Nat) := firing (nodeOf 5 s0) fun x => { x with running := true, complete := true, fired := 0 }
    (getNode (s 1) 0 2).map successors = some [1] ∧ (getNode (s 0x1FFF) 0 2).map successors = some [] ∧
    ((getNode (s 1) 0 2).all fun x => x.running && x.complete && (ownRequests (s 1) (.node 0 2)).isEmpty && (tget x.buf 0).isNone && x.fired == 0) = true ∧
    ((tget (s 1).qu.nodes 3).all fun z => z.graph == 0 && z.place == 1 && nodeKind z.bits == 5 && decide (bits z.bits 60 48 ≤ z.arrivals + 1) && !z.running && z.fired == 0) = true ∧
    ((s 1).qu.nodes.Pairwise fun a b => a.1 < b.1) ∧ ((s 1).qu.graphs.all fun g => g.2.failure.isNone) = true := by decide +kernel
theorem witness_ModuleAndResets :
    let v : Version := { wts := 5, data := [] }
    let s (h : List Horizon) : State := { paged with mm := { paged.mm with lines := [(0xC00, { wts := 9, rts := 9, recs := [v] })], horizon := h } }
    (getLine (s []) 0xC00).recs.findIdx? (fun r => r.wts == 5) = some 0 ∧ readable (s []) 5 (successor (getLine (s []) 0xC00) 0) = false ∧
    readable (s [{ s := 7, holders := 1 }]) 5 (successor (getLine (s []) 0xC00) 0) = true ∧
    0xC00 * 128 < 0x9000000000 ∧ 383 < 384 ∧ 95 < 96 ∧ (3200 < 3201 ∧ paged.bd.alarm = false) ∧
    (let s : State := { paged with bd := { paged.bd with alarm := true, quietSince := some 0, clock := 12500000 } }
     s.bd.alarm = true ∧ s.bd.quietSince = some 0 ∧ 0 + 12500000 ≤ s.bd.clock ∧ 3039 < 3040 ∧ 2659 < 2660 ∧ 89 < 90) ∧
    (110 < 111 ∧ 999 < 1000) := by decide +kernel
theorem witness_ModuleAndResets_resets :
    let s (p : Option Bool) (ok : Bool) : State := { paged with bd := { paged.bd with resetPending := p, images := [{ version := 1, valid := ok }, { version := 1, valid := ok }] } }
    (s (some true) true).bd.resetPending = some true ∧ (s (some true) true).bd.images.any (·.valid) = true ∧ (s (some true) false).bd.images.any (·.valid) = false ∧
    (s (some false) true).bd.resetPending = some false ∧ (s (some false) true).bd.power = .running ∧ (s (some false) true).mm.lines.all (fun e => e.2.back.isNone) = true ∧
    managed (s (some false) true) = true ∧ managed { paged with bd := { paged.bd with power := .managementOnly } } = true ∧ managed { paged with bd := { paged.bd with power := .tripped } } = false ∧
    versionOk 8 = true ∧ versionOk 2 = false ∧ bootImage (s none true) = some 0 ∧ 1 < paged.bd.images.length ∧ 1 < 2 := by decide +kernel

/-- The state with queue pair 9 and queue 3, which it may ring, and packages' page exported. -/
def fabric : State :=
  let s := issuing [] id
  { s with fa := { s.fa with qps := [(9, { asid := 0, key := 1, mode := 1 })], exports := [{ asid := 0, vpn := 2, pkg := 1, rasid := 0 }] }
           qu := { s.qu with queues := [(3, { ring with push := false, qpn := 9 })] } }
/-- Granted, as a computation. -/
def granted (s : State) (a : Acc) (f : Frame) (n pa : Nat) : Bool :=
  isRequest s 31 f f.op && !badFrame f && (tget (getPeer s f.spkg).received f.seq).isNone && !(getPeer s f.spkg).frozen && decide (f.addr % 128 + n ≤ 128) && decide (pa % 128 + n ≤ 128) && decide (0 < n) && match walkNow s { die := 0 } a f.asid f.addr with
    | .leaf l => !l.gather && !l.remote && !l.zf && exported s f.asid f.addr f.spkg f.rasid l && decide (pa = l.frame + f.addr % pageBytes l.size)
    | _ => false
theorem witness_HostPortAndFabric_host :
    tget fabric.fa.qps 9 = some { asid := 0, key := 1, mode := 1 } ∧ hostDown fabric = false ∧ hostWaits fabric .engineWrite 0 ring.ctl 8 = false ∧
    hostWaits fabric .engineWrite 0 0x60000 8 = false ∧ hostWaits fabric .engineRead 0 0x60000 8 = false ∧ hostMay fabric .engineRead 0 0x40000000 8 = false ∧ (rung fabric 0 ring.ctl 8).map (·.1) = [3] ∧ (natLe 8 1).length = 8 ∧ ring.ctl % 128 + 8 ≤ 128 ∧
    hostMay fabric .engineWrite 0 ring.ctl 8 = true ∧ reaches fabric baseVia .engineWrite 0 ring.ctl 0x40400 = true ∧ 0 < leNat (natLe 8 1) ∧ leNat (natLe 8 1) ≤ ring.ridx + ring.size ∧
    rung fabric 0 0x60000 8 = [] ∧ hostMay fabric .engineWrite 0 0x60000 8 = true ∧ reaches fabric baseVia .engineWrite 0 0x60000 0x60000 = true ∧
    hostMay fabric .engineRead 0 0x60000 8 = true ∧ reaches fabric baseVia .engineRead 0 0x60000 0x60000 = true ∧ (getLine fabric (0x60000 / 128)).poison = false ∧
    (getLine { fabric with mm := { fabric.mm with lines := [(0xC00, { wts := 0, rts := 0, poison := true })] } } (0x60000 / 128)).poison = true ∧
    (mailRequest (2 ^ 57)).isNone = true ∧ bits (2 ^ 57) 255 192 % 8 = 0 ∧ mapped 0x800000000000 = true ∧ (natLe 32 (2 ^ 57)).length = 32 := by decide +kernel
/-- frame0 as a request of package 1 with an operation and data. -/
def req (op subop : Nat) (data : List Byte) : Frame := { frame0 with op := op, subop := subop, data := data, len := 0 }
theorem witness_HostPortAndFabric_requests :
    upPort fabric = some 0 ∧ portUp fabric 31 = true ∧ ([6, 7].all fun i => isRequest fabric 31 (req i 0 []) i && !badFrame (req i 0 [])) = true ∧
    granted fabric .load frame0 (leNat frame0.data) 0x20000 = true ∧ granted fabric .store (req 2 0 (natLe 8 5)) 8 0x20000 = true ∧
    (rmwOf 8 0).map (·.2) = some 8 ∧ (rmwOf 25 0).map (·.2) = some 8 ∧ (rmwOf 0 0).map (·.2) = some 4 ∧ granted fabric .atomic (req 3 8 (natLe 8 5)) 8 0x20000 = true ∧
    (Rmw.atom64 .add).writes (standing fabric 0x20000 8) = true ∧ (raddOf 3).map raddCount = some 1 ∧ granted fabric .radd (req 4 3 (natLe 4 5)) 4 0x20000 = true ∧
    (getPeer fabric 1).frozen = false ∧
    (getLine fabric (0x20000 / 128)).poison = false := by decide +kernel
theorem witness_HostPortAndFabric_chain :
    (let p (steps : List Nat) (fin : ChldFin) : Packet := { chain := { fin := fin, steps := steps, p := 0x20000, c := 0 } }
     let f (x : Packet) : Frame := req 5 (finCode x.chain.fin) (packetBytes x)
     let ended : Packet := { p [0x0032400000000000] .ld64 with chain := { (p [0x0032400000000000] .ld64).chain with k := 1 } }
     let mid := p [16, 16] .ld64
     granted fabric .chain (f ended) 8 0x20000 = true ∧ (packetOf 5 (packetBytes ended)).map (fun x => (chainNext x.chain, chainFinal x.chain)) = some (some (0x20000, 8, .chain), true) ∧
     granted fabric .chain { f mid with addr := 0x20010 } 8 0x20010 = true ∧
     (packetOf 5 (packetBytes mid)).map (fun x => (chainNext x.chain, chainFinal x.chain, x.one, x.chain.steps[x.chain.k]?)) = some (some (0x20010, 8, .chain), false, false, some 16)) := by decide +kernel
/-- An answer of package 1 to the request with tag 7 that an owner sent. -/
def asked (o : Owner) (op : Nat) : State :=
  let s := owing (opAt (if op = 1 then .load .w64 else .store 7) (.remote 1 0 0x20000))
  { s with fa := { s.fa with requests := [(7, { frame := { frame0 with dpkg := 1, spkg := 0, op := op }, since := 0, owner := o })] } }
theorem witness_HostPortAndFabric_answers :
    let f : Frame := { frame0 with cls := 1, op := 0x81 }
    ((asked (.op 0 5) 1).fa.unsent = [] ∧ portUp (asked (.op 0 5) 1) 31 = true ∧ badFrame f = false ∧ badFrame { f with op := 0x82, ack := 2 } = false ∧ badFrame { f with op := 0x83 } = false ∧
      (requestFor (asked (.op 0 5) 3) { f with op := 0x82, ack := 2 }).map (fun r => (r.accepted, r.frame.op)) = some (false, 3) ∧
      (let s := asked (.op 0 5) 2; let s : State := { s with fa := { s.fa with requests := s.fa.requests.map fun e => (e.1, { e.2 with accepted := true }) } }
       (requestFor s { f with op := 0x82, ack := 2 }).map (·.accepted) = some true)) ∧
    (requestFor (asked (.op 0 5) 1) f).map (fun r => (r.owner, r.slot.isNone, r.parts.isEmpty, r.frame.op)) = some (.op 0 5, true, true, 1) ∧
    (getThread (asked (.op 0 5) 1) 0).map (fun t => (findOp t 5).isSome) = some true ∧
    (requestFor (asked (.op 0 5) 2) { f with op := 0x82, ack := 1 }).isSome = true ∧ (requestFor (asked (.op 0 5) 2) { f with op := 0x82, ack := 2 }).isSome = true ∧
    (getThread (asked (.op 0 5) 2) 0).map (fun t => (t.ops.map isWrite, t.held.isNone, t.waitOn)) = some ([true], true, .nothing) ∧
    (requestFor (asked (.word 0) 1) { f with op := 0x83 }).map (·.owner) = some (.word 0) ∧
    (requestFor (asked (.card 4) 1) { f with op := 0x83 }).map (·.owner) = some (.card 4) ∧
    (let s : State := { asked (.card 4) 1 with en := (atWork_ .copy 0 []).en }; (tget s.en.cards 4).map (·.frozen) = some none) ∧
    (frame0.dpkg = fabric.fa.pkg ∧ ({ frame0 with op := 8, cls := 2 } : Frame).cls = 2 ∧ badFrame { frame0 with op := 8, cls := 2 } = false ∧ frame0.spkg ≠ fabric.fa.pkg) := by decide +kernel
theorem witness_HostPortAndFabric_links :
    let s (n tries : Nat) : State := { asked (.op 0 5) 1 with
      fa := { (asked (.op 0 5) 1).fa with peers := [(1, { strikes := List.replicate n 0 })], requests := (asked (.op 0 5) 1).fa.requests.map fun e => (e.1, { e.2 with tries := tries }) },
      bd := { fabric.bd with clock := Config.cycles200us } }
    (((getPeer (s 1 0) 1).strikes.filter fun c => decide ((s 1 0).bd.clock < c + Config.cyclesSecond)).length < 2) ∧
    2 ≤ ((getPeer (s 2 0) 1).strikes.filter fun c => decide ((s 2 0).bd.clock < c + Config.cyclesSecond)).length ∧
    (tget (s 0 2).fa.requests 7).map (fun r => (decide (r.since + Config.cycles200us ≤ (s 0 2).bd.clock), r.tries)) = some (true, 2) ∧
    (tget (s 0 3).fa.requests 7).map (·.tries) = some 3 ∧ otherPort (s 0 0) none = some 0 ∧ (getPeer (s 0 0) 1).lost = false ∧ badFrame { frame0 with rsv := 1 } = true ∧ badFrame frame0 = false ∧ portUp (s 0 0) 31 = true ∧
    32 ∉ (s 0 0).fa.downPorts ∧ 31 ∉ (s 0 0).fa.downPorts := by decide +kernel
/-- R309's example: a request from package 2 to package 5 with ENTROPY 0x3C has the header 0x0028_0083_C000, most significant byte first. -/
theorem test_frame_header :
    let f : Frame := { frame0 with dpkg := 5, spkg := 2, cls := 0, entropy := 0x3C, rsv := 0 }
    frameHeader f = 0x00280083C000 ∧ (frameBytes f).take 8 = [0x00, 0x28, 0x00, 0x83, 0xC0, 0x00, 0x88, 0xB5] := by decide +kernel

/-! For the clauses of the statements beside those: states that meet their hypotheses. -/

/-- The host path of the small state is open: queue pair 2 is the host path's (R307). -/
def pathed (s : State) : State := { s with fa := { s.fa with qps := [(2, { asid := 0, key := 0, mode := 2 })] } }

/-- O4: a hint that IADD does not take, the want of a route, a register past the count, an odd pair, a temporary that nothing has
written and one of a denied load, a slot with no conversion, and a state that issues. -/
theorem witness_ReservedWordFaults_words :
    let s (hs : List Hint) := issuing hs id
    let w : WordSpec := opSpec [sp1 8, sp1 12] [sp1 121]
    let wc : WordSpec := { opSpec [sp1 8, sp1 12] [sp1 20] with hints := [4], slotOk := cvtSlot 0 }
    ((bundle (s []) 0 0).filterMap (getThread (s []))) = [placedThread] ∧ ((s [hint 0 1]).cur.any fun x => x.hints.any fun h => h.kind != 5) = true ∧
    ((s []).cur.all fun x => x.hints.all fun h => h.kind != 2) = true ∧ (gridOf (s []) placedThread).regs ≤ 120 ∧
    (gridOf (withRecord 4 0x44000 (s [])) placedThread).regs = 64 ∧ (64 ≤ (119 : Reg).toNat ∧ (119 : Reg).toNat < 120) ∧ ((121 : Reg).toNat % 2 = 1) ∧
    tget placedThread.tvalid 120 ≠ some true ∧ readPred placedThread 0 = true ∧ goes (opSpec [sp1 120, sp1 12] [sp1 20]) (issuing [] fun t => writeReg t 120 1) = true ∧
    (match prelude (opSpec [sp1 120, sp1 12] [sp1 20]) (s []) with | .go _ ks => ks == [0] | _ => false) = true ∧
    (match prelude wc (s []) with | .go _ ks => ks == [0] && !tempUndef wc placedThread && !cvtSlot 0 (gridOf (s []) placedThread) | _ => false) = true ∧
    goes w (s []) = true ∧ goes w (issuing [] fun t => { t with runPos := Config.runWords - 1 }) = true := by decide +kernel
/-- O3 and O4: code in host memory, with the host path open. -/
theorem witness_StepRunsTheDecodedInstruction_host : isHost 0x800000010000 = true ∧ hostPathOpen (pathed (issuing [] id)) = true ∧
    hostPathOpen (issuing [] id) = false := by decide +kernel

/-! Memory words. -/

/-- O29, O30, O33: a word whose guard is false in its lane: the prelude goes on, no translation is missing. -/
theorem witness_guard_false :
    let s := issuing [] (regs [(8, 0x20000)])
    let wl : WordSpec := { opSpec [sp2 8] [(20, 1, 1)] with guard := 3, hints := [3], adds := [(.ld, 1)] }
    let ws : WordSpec := { opSpec [sp2 8, (20, 1, 1)] [] with guard := 3, hints := [3], adds := [(.st, 1)] }
    let wd : WordSpec := { opSpec [sp1 8] [(20, 1, 1)] with guard := 3 }
    ([wl, ws, wd].all fun w => match prelude w s with | .go _ ks => ks == [0] | _ => false) = true ∧ readPred placedThread 3 = false ∧
    missing s wl .load 1 (fun t => rdPair t 8 + (0 : BitVec 7).toInt * 1) [0] = [] ∧ missing s ws .store 1 (fun t => rdPair t 8 + (0 : BitVec 7).toInt * 1) [0] = [] := by decide +kernel
/-- LinesOk, as a computation. -/
def linesOk (s : State) : Bool := s.mm.lines.all (fun e => (e.2.delta.all fun d => d.elems.all fun x => decide (x.1 < 32)) &&
  (!(isHost (e.1 * 128) || e.1 == 0xFFFFFFFFFF) || e.2.delta.isNone))
theorem linesOk_of {s : State} (h : linesOk s = true) (hs : s.mm.lines.Pairwise fun a b => a.1 < b.1) : LinesOk s := by
  simp only [linesOk, List.all_eq_true, Bool.and_eq_true, Bool.or_eq_true, Bool.not_eq_true', Bool.or_eq_false_iff, beq_eq_false_iff_ne, ne_eq, Option.all_eq_true,
    decide_eq_true_eq, Option.isNone_iff_eq_none] at h
  refine ⟨hs, fun e he d hd x hx => (h e he).1 d hd x hx, fun e he hh => ?_⟩
  obtain hn | hn := (h e he).2
  · obtain hh | hh := hh
    · exact absurd hh (by simp [hn.1])
    · exact absurd hh hn.2
  · exact hn
/-- A line of 0x20000 with a delta of 5 on its element 31, and a dirty one. -/
def deltas : State := { issuing [] id with mm := { (issuing [] id).mm with lines := [(0x400, { wts := 1, rts := 1, delta := some { elems := [(31, (true, 5))], d := 2, since := 0, owe := [frame0] } }), (0x401, { wts := 1, rts := 1, back := some [] })] } }
/-- O32, O50, O60: lines with a delta. -/
theorem witness_ReductionsIssue_lines : LinesOk deltas ∧ (getLine deltas 0x400).delta.isSome = true ∧ goes { opSpec [] [] with adds := [(.st, 1)] } deltas = true :=
  ⟨linesOk_of (by decide +kernel) (by decide +kernel), by decide +kernel, by decide +kernel⟩
/-- O32: a RADD of one element in a transaction that holds none of its line, and one whose line is held while the set is full. -/
theorem witness_ReductionsIssue_body :
    let t := inTx placedThread
    t.tx.active = true ∧ t.tx.lines.length < Config.writeSetLines ∧ t.tx.adds = [] ∧ raddElems .i32 0x2007C 5 = [(31, 5)] ∧ raddElems .f32 0x20000 5 = [(0, 5)] ∧
    ((List.range 4).all fun i => (tget t.tx.ws (0x2007C / 128 * 128 + 4 * 31 + i)).isNone) = true ∧
    (let x : Tx := { t.tx with ws := [(0x20000, 7)] }; x.lines.contains (0x2007C / 128) = true) := by decide +kernel
/-- O34: a thread of the team waits at the barrier word 16, whose phase the write of 4 bytes changes; others wait at no word of it. -/
theorem witness_StashBytes_release :
    let w : Thread := { placedThread with st := .waiting, waitOn := .barw, held := some { instr := .barwWait 8 12, hints := [], off := 16 } }
    let s := { issuing [] id with ex := { (issuing [] id).ex with threads := [(0, w), (1, { w with held := some { instr := .barwWait 8 12, hints := [], off := 24 } }), (2, placedThread), (3, { w with team := 5 })] } }
    let u := stashWrite s 0 16 (natLe 4 0x80020000) 9
    (tget s.ex.teams 0 = some placedTeam ∧ (placedTeam.stash.Pairwise fun x y => x.1 < y.1) ∧ (s.ex.threads.Pairwise fun x y => x.1 < y.1)) ∧
    (getThread s 0 = some w ∧ w.team = 0 ∧ w.waitOn = .barw ∧ (w.held.map (·.off)) = some 16) ∧
    (16 ∈ wordsOf 16 4 ∧ bit (stashRead placedTeam 16 4) 31 ≠ bit (stashRead (getTeam u 0) 16 4) 31) ∧ 24 ∉ wordsOf 16 4 := by decide +kernel
/-- O38: FENCE.sys while the host path carries the flush, and a write to host memory that a closed path keeps back. -/
theorem witness_BarrierReleases_host :
    let f (s : State) : State := { s with fa := { s.fa with path := [(1, 0, [])] } }
    flushWaits (issuing [] id) = false ∧ flushWaits (f (pathed (issuing [] id))) = false ∧ flushWaits (f (issuing [] id)) = true ∧
    ((settleAll deltas).mm.lines.map fun e => (e.1, isHost (e.1 * 128))) = [(0x400, false), (0x401, false)] := by decide +kernel

/-! Groups. -/

/-- AllAtWord, as a computation. -/
def allAtWord (c : Ctx) (s : State) (k : Nat) (t : Thread) (i : Instr) (l : List (Nat × Thread)) : Bool :=
  l.contains (k, waiting c t .join i) && decide (s.ex.threads.Pairwise fun x y => x.1 < y.1) &&
    l.all fun e => e.2.st == .waiting && e.2.waitOn == .join && !e.2.dstop && e.2.waitPc == (waiting c t .join i).waitPc && e.2.held.map (·.instr) == some i
theorem allAtWord_of {c : Ctx} {s : State} {k : Nat} {t : Thread} {i : Instr} {l : List (Nat × Thread)} (h : allAtWord c s k t i l = true) : AllAtWord c s k t i l := by
  simp only [allAtWord, Bool.and_eq_true, List.contains_iff_mem, decide_eq_true_eq, List.all_eq_true, beq_iff_eq, Bool.not_eq_true'] at h
  exact ⟨h.1.1, h.1.2, fun e he => ⟨(h.2 e he).1.1.1.1, (h.2 e he).1.1.1.2, (h.2 e he).1.1.2, (h.2 e he).1.2, (h.2 e he).2⟩⟩
/-- The group of seven, the others of which wait at a word already; lane 0 is about to. -/
def atWord (i : Instr) : State :=
  let c : Ctx := { core := 0, port := 0, hints := [], fpc := 0 }
  let s := group fun k => regs [(4, if k = 0 then 0x4B800000 else 0x3F800000), (3, if k = 1 ∨ k = 3 ∨ k = 4 ∨ k = 7 then 1 else 0), (1, 1), (2, if k = 0 then 254 else 10)]
  let s := modCore s 0 fun c => { c with ports := [(0, [0])] }
  { s with ex := { s.ex with threads := s.ex.threads.map fun e => (e.1, if e.1 = 0 then e.2 else waiting c e.2 .join i) } }
/-- Lane 0 is the last to reach the word. -/
def last (i : Instr) : Bool :=
  let c : Ctx := { core := 0, port := 0, hints := [], fpc := 0 }
  let t := (getThread (atWord i) 0).getD placedThread
  allAtWord c (atWord i) 0 t i (joining c (atWord i) 0 t i)
/-- O41 and O43: each collective word, and each word of the MMA family, completes in a bundle of the one lane that is the last. -/
theorem witness_CollectiveWordsJoin_last :
    ([.shfl .flip 6 4 1, .gpoll .mask 6 4, .ired .add 6 4, .fred .add 8 4, .iscan false .add 6 4, .fscan true .add 6 4, .peers 6 4, .bcast 6 4 1, .leader 6, .compact .w8 9 3 1, .mma 0 16 24 32, .mmaU 0 16 24 32].all last) = true ∧
    goes (opSpec [sp1 3, sp1 1] [sp1 9]) (atWord (.compact .w8 9 3 1)) = true := by decide +kernel
/-- O41: the count of the highest lane overflows its 8 bits; and the quad of lanes 0 to 3 alone at a word of derivatives. -/
theorem witness_CollectiveWordsJoin_rest :
    let c : Ctx := { core := 0, port := 0, hints := [], fpc := 0 }
    let t := (getThread (atWord (.leader 6)) 0).getD placedThread
    let o : Instr := .compact .w8 9 3 2
    let d : Instr := .ddx .fx 5 4
    last o = true ∧ compactOvf .w8 (partsOf o (joining c (atWord o) 0 t o)) = true ∧ compactOvf .w16 (partsOf o (joining c (atWord o) 0 t o)) = false ∧
    allAtWord c (atWord d) 0 t d ((joining c (atWord d) 0 t d).filter fun e => e.2.glane / 4 == t.glane / 4) = true ∧
    ((joining c (atWord d) 0 t d).all fun e => e.2.held.map (·.instr) == some d) = true := by decide +kernel
/-- O42: participants 0, 1 and 5: who has no lane, a group of one, a power of two; no lane before the first; and counts at the fields' ends. -/
theorem witness_CollectiveValues_rest :
    let p (g x y : Nat) : Part := { g := g, x := BitVec.ofNat 32 x, y := BitVec.ofNat 32 y }
    (parts3.all fun q => decide (q.g ≠ (2 : Word).toNat % 8) && decide (q.g + (3 : Word).toNat ≠ 5)) = true ∧ (parts3.all fun q => decide (q.g = 5 + (3 : Word).toNat → 8 ≤ q.g)) = true ∧
    (parts3.all fun q => decide (0 ≤ q.g)) = true ∧ ((parts3.map (·.g)).all fun g => decide (g < 8)) = true ∧ 8 = 2 ^ 3 ∧
    fredTree .add (partX parts3) 0 3 = none ∧ (parts3.filter fun q => decide (q.g < 0)) = [] ∧ (parts3.filter fun q => decide (q.g ≤ 0)).length = 1 ∧
    compactVal [p 0 1 255, p 1 0 0] (p 1 0 0) = 256 ∧ compactVal [p 0 0 255, p 1 0 0] (p 1 0 0) = 255 := by decide +kernel
/-- FSCAN and FRED: 1 + 2^24 - 2^24, in the order of the lanes and in that of the tree; a canonical NaN (R157, R158). -/
theorem test_float_collectives :
    let p (g x : Nat) : Part := { g := g, x := BitVec.ofNat 32 x, y := 0 }
    let l := [p 0 0x3F800000, p 1 0x4B800000, p 2 0xCB800000]
    fscanVal false .add l (p 2 0) = 0 ∧ fredVal .add 4 l = 0 ∧ fredVal .add 4 [p 0 0x3F800000, p 2 0x4B800000, p 3 0xCB800000] = 0x3F800000 ∧
    fredVal .add 1 [p 0 0x7F800001] = 0x7FC00000 := by decide +kernel

/-! Matrix engines and tiles. -/

/-- O43: an engine with an operation. -/
theorem witness_MatrixWordsIssue_engine : (multiplied.ex.matOps.all fun e => (engineOps multiplied e.2.core e.2.engine).map (·.1) == [0]) = true ∧
    (multiplied.ex.matOps.Pairwise fun x y => x.1 < y.1) ∧ goes (mmaSpec 0 16 24 32 false (atWord (.mma 0 16 24 32))) (atWord (.mma 0 16 24 32)) = true := by decide +kernel
/-- O48: an entry that is free for FREE, an EMPTY tile for FILL, DRAIN and FREE, and one that drains. -/
theorem witness_TileControlWords_states :
    let e := mappedTile 2 (fun x => { x with st := .empty }) id
    let d := mappedTile 2 (fun x => { x with st := .draining }) id
    goes { adds := [(.tl, 1)] } (tiled id) = true ∧ (0 < (getTeam (tiled id) 0).tileCount ∧ getTile (tiled id) 0 0 = none) ∧
    goes { adds := [(.tl, 1)] } e = true ∧ goes { order := true, adds := [(.tl, 1)] } e = true ∧ (getTile e 0 0).map (fun x => (x.st, x.freeing)) = some (.empty, false) ∧
    ((teamMates e 0).all fun x => x.2.st != .waiting) = true ∧ (getThread e 0).map (fun t => (t.waitOn, t.ops.map (·.id))) = some (.nothing, []) ∧
    ((getTeam e 0).tiles.Pairwise fun a b => a.1 < b.1) ∧ goes { adds := [(.tl, 1)] } d = true ∧ (getTile d 0 0).map (·.st) = some .draining := by decide +kernel

/-! SYSOPs. -/

/-- O50: the arguments of the last clauses, and the pages at hand. -/
theorem witness_SupervisorSettings_args :
    let s := issuing [] id
    deltas.mm.laurel < 2 ∧ linesOk deltas = true ∧
    (args [2 ^ 8 + 31] 0 / 2 ^ 8 % 2 = 1 ∧ args [2 ^ 8 + 31] 0 % 2 ^ 8 < 32) ∧ (args [255] 0 / 2 ^ 8 % 2 = 0 ∧ (coreTeams s 255).isEmpty = true) ∧
    (tget s.ex.teams (args [0] 0 % 2 ^ 8 * 2048 + args [0] 0 / 2 ^ 8 % 2 ^ 11)).isSome = true ∧
    (0xFFFFFF < 2 ^ 24 ∧ args [0xFFFFFF, 0, 0, 2] 3 ≤ 3 ∧ args [9, 0, 0, 0] 3 = 0) ∧ ((s.fa.qps.filter fun e => e.1 != 0xFFFFFF && e.2.mode != 0).all fun e => e.2.mode != 2) = true := by decide +kernel
/-- A walk that ends in the first 1 GiB page ends there for every address of it. -/
theorem walkFrom_firstGiB {s : State} {va : Nat} (hv : va < 2 ^ 30) {l : Leaf} (fuel : Nat) : ∀ level table, fuel < level →
    walkFrom s [] 0 fuel level table = .leaf l → walkFrom s [] va (fuel + 2) level table = .leaf l := by
  induction fuel with
  | zero => intro _ _ _ h; simp [walkFrom] at h
  | succ n ih =>
    intro level table hl h
    have e : va / 2 ^ levelShift level = 0 := by
      refine Nat.div_eq_of_lt (lt_of_lt_of_le hv (Nat.pow_le_pow_right (by decide) ?_))
      unfold levelShift; split <;> omega
    rw [show n + 1 + 2 = n + 2 + 1 from rfl]
    unfold walkFrom at h ⊢
    rw [e]
    rw [Nat.zero_div] at h
    dsimp only at h ⊢
    split_ifs at h ⊢ <;> first | exact h | exact ih _ _ (by omega) h
theorem spanBy_within (u : Nat) : ∀ fuel a n, ∀ x ∈ spanBy u fuel a n, x.1 < a + n := by
  intro fuel
  induction fuel with
  | zero => intro a n x h; simp [spanBy] at h
  | succ f ih =>
    intro a n x h
    unfold spanBy at h
    split at h
    · simp at h
    · rcases List.mem_cons.1 h with rfl | h
      · dsimp only; omega
      · have := ih _ _ _ h
        omega
theorem firstGiB : tget (issuing [] id).tr.roots 0 = some 0x1000 ∧ walkFrom (issuing [] id) [] 0 3 4 0x1000 = .leaf gib := by decide +kernel
/-- A range of the first GiB may be written by the host. -/
theorem hostMay_firstGiB (va n : Nat) (h : va + n ≤ 2 ^ 30) : hostMay (issuing [] id) .engineWrite 0 va n = true := by
  unfold hostMay
  refine Bool.and_eq_true_iff.2 ⟨decide_eq_true (h.trans (by decide)), List.all_eq_true.2 fun x hx => ?_⟩
  have hv : x.1 < 2 ^ 30 := (spanBy_within _ _ _ _ x hx).trans_le h
  unfold hostPage walk walkOver
  rw [firstGiB.1]
  dsimp only
  rw [walkFrom_firstGiB hv 3 4 _ (by decide) firstGiB.2]
  decide
/-- O50: the two rings of R283 and R370 at 0x100000, and the member table of a group. -/
theorem witness_SupervisorSettings_rings : hostMay (issuing [] id) .engineWrite 0 0x100000 262152 = true ∧ hostMay (issuing [] id) .engineWrite 0 0x100000 131080 = true ∧
    (beyond 4 5 = true ∧ beyond 0 0 = false) ∧ cgroupWaits (issuing [] id) (args [4095, 0x50000, 0, 2]) = false ∧
    ((issuing [] id).bd.eventQ.count = 0 ∧ ((tget (issuing [] id).tr.faultQs 3).getD {}).seq = 0) :=
  ⟨hostMay_firstGiB _ _ (by decide), hostMay_firstGiB _ _ (by decide), by decide +kernel⟩
/-- O51: nothing waits; grid 1 is not the lane's own, grid 0 is; a team of another grid; a thread stopped at BRKPT. -/
theorem witness_SupervisorQueuesAndThreads_args :
    let s := supervised
    releaseWaits s (args [0, 3, 0]) = false ∧ boxWaits s (args [0, 1, 0x50000, 0]) = false ∧
    ((s.ex.teams.Pairwise fun a b => a.1 < b.1) ∧ (getThread s 0).map (·.team) = some 0 ∧ (tget s.ex.teams 0).map (·.grid) = some 0) ∧
    (refGrid s 0 = some 0 ∧ args [0, 1] 1 ≤ 1) ∧
    ((getThread s 1).map fun t => (waitsOn t, underWay s 1 t)) = some (false, false) ∧
    ((groupMates s 0 0).all fun e => e.2.st != .waiting) = true ∧ (tget s.ex.teams 0).map (fun tm => (tm.barCount, tm.tiles.isEmpty)) = some (0, true) := by decide +kernel
/-- O51: a grid that is not the lane's own, and a thread stopped at BRKPT. -/
theorem witness_SupervisorQueuesAndThreads_other :
    let s (f : Thread → Thread) : State := { supervised with ex := { supervised.ex with grids := supervised.ex.grids ++ [(1, smallGrid)], threads := supervised.ex.threads.map fun e => (e.1, if e.1 = 2 then f e.2 else e.2) } }
    (tget (s id).ex.grids (args [1, 0] 0)).isSome = true ∧ 0 ≠ args [1, 0] 0 ∧
    (getThread (s fun t => { t with brk := some (0, 1) }) 2).map (fun t => (t.st, t.brk, t.pc)) = some (.stopped, some (0, 1), 0) ∧ args [2 * 256, 17] 1 % 32 = 17 ∧
    args [2 * 256, 17] 0 % 2 ^ 8 * 2048 + args [2 * 256, 17] 0 / 2 ^ 8 % 2 ^ 11 = 2 := by decide +kernel
/-- O52: a ZF page asked for the host, a page held by a core, and ones in no scope. -/
theorem witness_PreemptMigrateInvalidate_pages :
    (match walk small 0 0x40000000 with | .leaf l => l.zf && (lockOf small 0 (pageStart 0x40000000 l.size)).isNone && (l.zf && destList 0 == 2) | _ => false) = true ∧
    ((getCore (issuing [] id) 0).tlb.any fun e => covers e 0 0x20000 && e.leaf.size == 2) = true ∧ ((issuing [] id).ex.cores.any fun e => e.1 == 0) = true ∧ scopeSize (issuing [] id) 0 0x20000 0 = 2 ∧
    (args [7] 0 % 4 = 3 ∧ args [12] 0 % 4 = 0 ∧ args [12] 0 / 4 % 4 = 3) := by decide +kernel
/-- O53: the ring's entry and its write index are reached, nothing waits; the footprint tracker is full; the instance is. -/
theorem witness_JobAndQueueWords_room :
    let s : State := { issuing [] (regs [(8, 0x60000), (10, 3)]) with qu := { State.reset.qu with queues := [(3, ring)] } }
    let c : Card := { instance_ := 0, asid := 0, kind := .copy, bits := 0, stamp := 0 }
    let f (n m : Nat) : State := { s with en := { s.en with cards := (List.range n).map fun i => (i, { c with instance_ := i % m }) } }
    ring.ringBase % 64 = 0 ∧ reaches s baseVia .engineWrite 0 (ring.at_ 0) 0x40000 = true ∧ reaches (hostWrite s 0 0 (ring.at_ 0) (natLe 64 5)).2 baseVia .engineWrite 0 ring.ctl 0x40400 = true ∧
    pushWaits s 1 ((getThread s 0).getD placedThread) 10 = false ∧
    Config.trackerCards ≤ (heldCards (f Config.trackerCards 8)).length ∧
    Config.cardsPerInstance ≤ queuedAt (f (8 * Config.cardsPerInstance) 8) (instanceFor (f (8 * Config.cardsPerInstance) 8) (coreOf 0 / Config.coresPerDie) .copy []) := by decide +kernel

/-! Events. -/

/-- O54: a team of one thread to place; a node's grid with a completion word. -/
theorem witness_PlacementAndCompletion_node :
    let g : Grid := { smallGrid with record := smallGrid.record.set 14 0x62000, launcher := .node 0 2 }
    let f : State := { unplaced 1 with ex := { (unplaced 1).ex with grids := [(0, g)] }, qu := { State.reset.qu with nodes := [(2, { graph := 0, place := 0, bits := 1 })] } }
    ((chooseGrid (unplaced 1)).all fun e => decide (0 < e.2.1.teamThreads)) = true ∧ ((chooseGrid (unplaced 2)).all fun e => decide (0 < e.2.1.teamThreads)) = true ∧
    (allFreed f 0 g = true ∧ ownRequests f (.grid 0) = [] ∧ ((lateOf f 0).any (threadOwes f)) = false ∧ g.ended = false ∧ g.word 14 + 2 ^ 32 * g.word 15 = 0x62000) ∧
    ((getNode f 0 2).map fun x => tget x.buf 0) = some none ∧ reaches (settleAll f) (nodeVia (settleAll f) 0) .engineWrite 0 0x62000 0x62000 = true ∧
    reaches (settleAll f) (nodeVia f 0) .engineWrite 0 0x62000 0x62000 = true := by decide +kernel
/-- O55: the host path is open to a load and a store; a temporary is loaded, and a denied load. -/
theorem witness_AccessesPerformAndReturn_path :
    (let o := opAt (.load .w64) (.host 0x800000060000)
     alone (pathed (owing o)) 9 0x10000000C00 o onHostPath = true ∧ isHost 0x800000060000 = true ∧ hostPathOpen (pathed (owing o)) = true) ∧
    (let o : Op := { opAt (.load .w64) (.here 0x60000) with performed := true, dest := 120 }
     isReturning o = true ∧ (resultSpan o).length = 2 ∧ ({ o with prot := true } : Op).prot = true ∧ o.complete = false) := by decide +kernel
/-- O57: a card whose table has a malformed page; a member that names a group without this one's members; a MODE 1 copy that keeps its team. -/
theorem witness_EnginesWork_rest :
    let f : Frame := { dpkg := 0, spkg := 7, cls := 0, stamp := 0, addr := 0, asid := 2, tag := 0, op := 7, data := natLe 4 0 ++ natLe 4 9 ++ natLe 4 1 ++ natLe 2 1 ++ natLe 1 3 ++ natLe 4 7 }
    (let s := grouped .coll 5 collBody [(1, 7)]
     strangers s (card4 s) = [] ∧ (let z : State := { s with en := { s.en with inbox := [f] } }
       works z .coll = true ∧ (card4 z).status = 0 ∧ strangers z (card4 z) = [7])) ∧
    (let s := grouped .ocomp 6 ocompBody [(1, 7)]; strangers s (card4 s) = [] ∧ (card4 s).status = 0) ∧
    (let s := atWork_ .copy (cardOf 1 (copyBody 1 0x60000 0)) []
     (match cardReadSpan s 4 (pieceTag 0 0) 0x60000 64 with
       | (some _, w) => (tget (pieceAhead w 4 0 0).en.cards 4).map (·.team) == some (some 0)
       | _ => false) = true) := by decide +kernel
/-- O58: a page in host memory moves while the host path is open. -/
theorem witness_WalksMigrationsAndGraphs_host :
    let m : MigLock := { asid := 0, va := 0x40010000, dest := 1, side := .device, size := 0, list := 0, frame := 0x300000, entry := 0x5008, leaf := 0xBC20800000200000 }
    let s₀ := pathed (put8 0x5008 0xBC20800000200000 small)
    let s : State := { s₀ with tr := { s₀.tr with locks := [m] } }
    lockOf s 0 0x40010000 = some m ∧ isHost (bits m.leaf 47 16 * 65536) = true ∧ hostPathOpen s = true ∧ leNat (mread s.mm.mem m.entry 8) = m.leaf ∧
    (let z := firing (nodeOf 5 0x1FFF) id; reaches z (nodeVia z 0) .engineRead 0 0x60000 0x60000 = true ∧ reaches z (nodeVia z 0) .atomic 0 0x60000 0x60000 = true ∧ reaches z (nodeVia z 0) .engineWrite 0 0x60000 0x60000 = true ∧
      ownRequests z (.node 0 2) = []) := by decide +kernel
/-- O59: an image that boots, none that does, and what the fuses of the module leave. -/
theorem witness_ModuleAndResets_images :
    let s (p : Option Bool) (l : List Image) : State := { paged with bd := { paged.bd with resetPending := p, images := l } }
    let a : Image := { version := 1, valid := true }
    let b : Image := { version := 2, valid := true, fails := true }
    let c : Image := { version := 3, valid := false }
    bootImage (s none [a, b]) = some 0 ∧ bootImage (s none [b, c]) = none ∧ bootImage (s none [c, a]) = some 1 ∧ bootImage (s none [a, { a with version := 2 }]) = some 1 ∧
    (s (some true) [b, c]).bd.resetPending = some true ∧ (s (some false) [b, c]).bd.resetPending = some false ∧ managed (s (some false) [b, c]) = true ∧
    ((s (some false) [b, c]).mm.lines.all fun e => e.2.back.isNone) = true := by decide +kernel
/-- O60: a RADD and an RFLUSH of package 1; the mailbox with the host path open; a migration pair; an ATOMIC whose answers come in either order. -/
theorem witness_HostPortAndFabric_rest :
    (let s : State := { fabric with mm := deltas.mm }
     linesOk s = true ∧ isRequest s 31 (req 6 0 []) 6 = true ∧ badFrame (req 6 0 []) = false ∧ (getPeer s 1).frozen = false ∧ (tget (getPeer s 1).received frame0.seq).isNone = true ∧
       (raddAt fabric 5 0x20000 .i32 5).2.mm.lines.map (fun e => e.2.delta.isSome) = [true]) ∧
    (let s : State := { fabric with fa := { fabric.fa with qps := [(2, { asid := 0, key := 0, mode := 2 }), (9, { asid := 0, key := 1, mode := 3 })] } }
     hostPathOpen s = true ∧ (tget s.fa.qps 9).map (fun x => (x.mode, x.key, x.frozen)) = some (3, 1, false) ∧ hostDown s = false) ∧
    (let s := asked (.op 0 5) 3; (requestFor s { frame0 with cls := 1, op := 0x82, ack := 2 }).map (fun r => (r.accepted, r.frame.op)) = some (false, 3)) ∧
    (let s := asked (.op 0 5) 7; (requestFor s { frame0 with cls := 1, op := 0x82, ack := 1 }).map (fun r => r.frame.op) = some 7) := by decide +kernel
/-- The FCS of R309 is the standard one: the check value of CRC-32. -/
theorem test_fcs : fcs ([0x31, 0x32, 0x33, 0x34, 0x35, 0x36, 0x37, 0x38, 0x39].map fun n => BitVec.ofNat 8 n) = natLe 4 0xCBF43926 := by decide +kernel

end Sys2Proof.Tests
end

/-! O54: the forming of bundles, placement, the freeing of teams and the completion of grids (spec/16_thread_table.md,
spec/17_tiles_launch.md). -/

namespace Sys2Proof.Machine

/-! Lists and tables. -/

theorem firstBy_mem {α : Type} {before : α → α → Bool} {l : List α} {y : α} (h : firstBy before l = some y) : y ∈ l := by
  induction l generalizing y with
  | nil => cases h
  | cons a l ih =>
    cases hl : firstBy before l with
    | none => simp_all [firstBy]
    | some z =>
      simp only [firstBy, hl] at h
      split at h
      · exact List.mem_cons_of_mem _ (Option.some.inj h ▸ ih hl)
      · exact Option.some.inj h ▸ List.mem_cons_self

/-- The member that stands before every other is the first. -/
theorem firstBy_eq_some {α : Type} {before : α → α → Bool} {l : List α} {x : α} (hx : x ∈ l)
    (h : ∀ y ∈ l, y ≠ x → before x y = true ∧ before y x = false) : firstBy before l = some x := by
  induction l with
  | nil => cases hx
  | cons a l ih =>
    by_cases hxl : x ∈ l
    · rw [firstBy, ih hxl fun y hy => h y (List.mem_cons_of_mem _ hy)]
      by_cases ha : a = x
      · simp [ha]
      · simp [(h a List.mem_cons_self ha).1]
    · obtain rfl : x = a := (List.mem_cons.1 hx).resolve_right hxl
      cases hl : firstBy before l with
      | none => simp [firstBy, hl]
      | some y =>
        have hy := firstBy_mem hl
        simp [firstBy, hl, (h y (List.mem_cons_of_mem _ hy) fun e => hxl (e ▸ hy)).2]

/-! Changes of the threads alone. -/

/-- Nothing but the entries of the thread tables differs. -/
def OnlyThreads (s u : State) : Prop := u = { s with ex := { s.ex with threads := u.ex.threads } }

theorem OnlyThreads.refl (s : State) : OnlyThreads s s := rfl

theorem OnlyThreads.trans {s u v : State} (h : OnlyThreads s u) (k : OnlyThreads u v) : OnlyThreads s v := by
  unfold OnlyThreads at h k; rw [h] at k; exact k

theorem OnlyThreads.modThread (s : State) (k : Nat) (f : Thread → Thread) : OnlyThreads s (modThread s k f) := rfl
theorem OnlyThreads.setThread (s : State) (k : Nat) (t : Thread) : OnlyThreads s (setThread s k t) := rfl

theorem OnlyThreads.foldl {α : Type} {f : State → α → State} (hf : ∀ s x, OnlyThreads s (f s x)) (l : List α) (s : State) :
    OnlyThreads s (l.foldl f s) := by
  induction l generalizing s with
  | nil => exact .refl s
  | cons x l ih => exact (hf s x).trans (ih _)

theorem OnlyThreads.getCore {s u : State} (h : OnlyThreads s u) (c : Nat) : getCore u c = getCore s c := by
  unfold OnlyThreads at h; rw [h]; rfl

theorem OnlyThreads.mm {s u : State} (h : OnlyThreads s u) : u.mm = s.mm := by
  unfold OnlyThreads at h; rw [h]

/-- Threads that are all changed in one way: each once, or in a way that changes nothing a second time. -/
theorem getThread_foldl_modThread {f : Thread → Thread} {ks : List Nat} (hf : ks.Nodup ∨ ∀ t, f (f t) = f t) (s : State) (k : Nat) :
    getThread (ks.foldl (fun s k => modThread s k f) s) k = if k ∈ ks then (getThread s k).map f else getThread s k := by
  induction ks generalizing s with
  | nil => simp
  | cons a ks ih =>
    rw [List.foldl_cons, ih (hf.imp_left fun h => (List.nodup_cons.1 h).2), getThread_modThread]
    by_cases hka : k = a
    · subst hka
      by_cases hk : k ∈ ks
      · have hi : f ∘ f = f := funext (hf.resolve_left fun h => (List.nodup_cons.1 h).1 hk)
        simp [hk, hi]
      · simp [hk]
    · simp [hka]

/-! FORM_BUNDLE (R328, R329). -/

theorem OnlyThreads.clearYield (s : State) (core : Nat) : OnlyThreads s (clearYield s core) :=
  .foldl (fun s e => by split; exacts [.modThread s _ _, .refl s]) _ s

theorem getThread_clearYield {s : State} {k : Nat} {t : Thread} (core : Nat) (h : getThread s k = some t) :
    ∃ y, getThread (clearYield s core) k = some { t with yielded := y } := by
  unfold clearYield
  generalize idleThreads s core = l
  induction l generalizing s t with
  | nil => exact ⟨t.yielded, h⟩
  | cons e l ih =>
    have : ∃ y, getThread (if e.2.yielded = true then modThread s e.1 fun t => { t with yielded := false } else s) k =
        some { t with yielded := y } := by
      split
      · rw [getThread_modThread]
        split
        · rename_i hk; exact ⟨false, by rw [← hk, h]; rfl⟩
        · exact ⟨t.yielded, h⟩
      · exact ⟨t.yielded, h⟩
    obtain ⟨y, hy⟩ := this
    exact ih (t := { t with yielded := y }) hy

/-- The threads of the candidates of a core, each candidate's in turn. -/
def candThreads (l : List Cand) : List Nat := l.flatMap fun x => x.ts.map (·.1)

theorem mem_candThreads {l : List Cand} {x : Cand} {e : Nat × Thread} (hx : x ∈ l) (he : e ∈ x.ts) : e.1 ∈ candThreads l :=
  List.mem_flatMap.2 ⟨x, hx, List.mem_map_of_mem he⟩

/-- A thread of a candidate stands in the thread table, and its key is the candidate's. -/
theorem mem_candidates {s : State} {core : Nat} {x : Cand} (hx : x ∈ candidates s core) : ∃ key, ∀ e ∈ x.ts, e ∈ s.ex.threads ∧ candKey e = key := by
  obtain ⟨key, -, rfl⟩ := List.mem_map.1 hx
  refine ⟨key, fun e he => ?_⟩
  simp only [idleThreads, List.mem_filter, beq_iff_eq] at he
  exact ⟨he.1.1.1, he.2⟩

/-- No thread belongs to two candidates. -/
theorem candThreads_nodup {s : State} (h : s.ex.threads.Pairwise fun a b => a.1 < b.1) (core : Nat) : (candThreads (candidates s core)).Nodup := by
  have same {e f : Nat × Thread} (he : e ∈ s.ex.threads) (hf : f ∈ s.ex.threads) (hk : e.1 = f.1) : e = f :=
    Prod.ext hk (Option.some.inj (by rw [← tget_of_mem h he, ← tget_of_mem h hf, hk]))
  unfold candThreads candidates
  rw [List.nodup_flatMap, List.pairwise_map]
  refine ⟨fun x hx => ?_, (List.nodup_dedup _).imp fun {a b} hab => ?_⟩
  · obtain ⟨key, -, rfl⟩ := List.mem_map.1 hx
    exact List.pairwise_map.2 ((((h.filter _).filter _).filter _).imp Nat.ne_of_lt)
  · refine List.disjoint_left.2 fun k ha hb => hab ?_
    simp only [idleThreads, List.mem_map, List.mem_filter, beq_iff_eq] at ha hb
    obtain ⟨e, ⟨⟨⟨he, -⟩, -⟩, rfl⟩, hek⟩ := ha
    obtain ⟨f, ⟨⟨⟨hf, -⟩, -⟩, rfl⟩, hfk⟩ := hb
    rw [same he hf (hek.trans hfk.symm)]

/-- A thread passed over by one bundle. -/
def aged (t : Thread) : Thread := { t with age := min 255 (t.age + 1) }

theorem ageAll_eq (s : State) (l : List Cand) : ageAll s l = (candThreads l).foldl (fun s k => modThread s k aged) s := by
  simp only [ageAll, candThreads, List.foldl_flatMap, List.foldl_map]
  rfl

theorem OnlyThreads.ageAll (s : State) (l : List Cand) : OnlyThreads s (ageAll s l) := by
  rw [ageAll_eq]; exact .foldl (fun s k => .modThread s k _) _ s

/-- The threads of a candidate that its bundle takes (R329). -/
def Cand.taken (x : Cand) : List (Nat × Thread) := if x.kind = 2 then onePerLane x else x.ts

/-- A thread that a bundle takes. -/
def takenBy (x : Cand) (tag : Nat) (t : Thread) : Thread := { (if x.kind = 0 then t else startRun tag t) with age := 0 }

theorem takenBy_idem (x : Cand) (tag : Nat) (t : Thread) : takenBy x tag (takenBy x tag t) = takenBy x tag t := by
  unfold takenBy; split <;> rfl

@[simp] theorem getCore_perf (s : State) (a b c d n : Nat) : getCore (perf s a b c d) n = getCore s n := rfl

/-- The threads that a bundle takes, taken. -/
def takeThreads (s : State) (core : Nat) (x : Cand) : State := (x.taken.map (·.1)).foldl (fun v k => modThread v k (takenBy x (freeTag s core))) s

theorem OnlyThreads.takeThreads (s : State) (core : Nat) (x : Cand) : OnlyThreads s (takeThreads s core x) := .foldl (fun s k => .modThread s k _) _ s

theorem giveBundle_eq (s : State) (core port : Nat) (x : Cand) :
    giveBundle s core port x = perf (perf (modCore (fresh (takeThreads s core x)).2 core fun c => { c with
      ports := tset c.ports port ((List.range 64).flatMap fun h => (x.taken.filter fun e => e.2.hlane == h).map (·.1))
      formed := tset c.formed (x.first.team % 2048) ((takeThreads s core x).nextId + 1) }) 0 core 1 1) 0 core 2 x.taken.length := by
  simp only [giveBundle, takeThreads, List.foldl_map]
  rfl

theorem giveBundle_mm (s : State) (core port : Nat) (x : Cand) : (giveBundle s core port x).mm = s.mm := by
  rw [giveBundle_eq]; exact (OnlyThreads.takeThreads s core x).mm

theorem getThread_giveBundle (s : State) (core port : Nat) (x : Cand) (k : Nat) : getThread (giveBundle s core port x) k =
    if k ∈ x.taken.map (·.1) then (getThread s k).map (takenBy x (freeTag s core)) else getThread s k := by
  rw [giveBundle_eq]
  exact getThread_foldl_modThread (.inr (takenBy_idem x _)) s k

theorem getCore_giveBundle (s : State) (core port : Nat) (x : Cand) : ∃ n, getCore (giveBundle s core port x) core =
    { getCore s core with
      ports := tset (getCore s core).ports port ((List.range 64).flatMap fun h => (x.taken.filter fun e => e.2.hlane == h).map (·.1))
      formed := tset (getCore s core).formed (x.first.team % 2048) n } := by
  refine ⟨(takeThreads s core x).nextId + 1, ?_⟩
  rw [giveBundle_eq, ← (OnlyThreads.takeThreads s core x).getCore]
  rw [getCore_perf, getCore_perf, getCore_modCore, if_pos rfl]
  rfl

/-- The choice of a bundle does not look at the threads. -/
theorem OnlyThreads.agedChoice {s u : State} (h : OnlyThreads s u) (core : Nat) (l : List Cand) : agedChoice u core l = agedChoice s core l := by
  unfold OnlyThreads at h; rw [h]; rfl

theorem OnlyThreads.candBefore {s u : State} (h : OnlyThreads s u) (core : Nat) : candBefore u core = candBefore s core := by
  unfold OnlyThreads at h; rw [h]; rfl

/-- An idle port of a core that runs may take a bundle (R328). -/
theorem formBundle_open {core port : Nat} {s : State} (hp : port < 4) (hc : core < Config.cores) (hh : s.halted = false)
    (hl : halting s core = false) (hi : tget (getCore s core).ports port = none) :
    ¬ (4 ≤ port ∨ Config.cores ≤ core ∨ s.halted = true ∨ halting s core = true ∨ (tget (getCore s core).ports port).isSome = true) := by
  simp [hh, hl, hi]; omega

/-- A port that may take a bundle takes the aged candidate, or the first in candidate order (R328, R329). -/
theorem formBundle_takes {core port : Nat} {s : State} {x : Cand} (hp : port < 4) (hc : core < Config.cores) (hh : s.halted = false)
    (hl : halting s core = false) (hi : tget (getCore s core).ports port = none) (hx : x ∈ candidates s core)
    (ho : agedChoice s core (candidates s core) = some x ∨ (agedChoice s core (candidates s core) = none ∧
      ∀ y ∈ candidates s core, y ≠ x → candBefore s core x y = true ∧ candBefore s core y x = false)) :
    ∃ v, execFormBundle core port s = .next (giveBundle (ageAll v (candidates s core)) core port x) ∧ v.mm = s.mm ∧
      (∀ k, getThread v k = getThread (clearYield s core) k) ∧
      (agedChoice s core (candidates s core) = some x → (getCore v core).pointer = (x.pos + 1) % 2048) := by
  have hy := OnlyThreads.clearYield s core
  obtain ⟨c, cs, hcs⟩ := List.exists_cons_of_ne_nil (List.ne_nil_of_mem hx)
  simp only [execFormBundle, if_neg (formBundle_open hp hc hh hl hi), hcs, hy.agedChoice, hy.candBefore]
  rw [← hcs]
  rcases ho with ha | ⟨ha, hb⟩
  · refine ⟨modCore (clearYield s core) core fun c => { c with pointer := (x.pos + 1) % 2048 }, ?_, hy.mm, fun _ => rfl, fun _ => ?_⟩
    · simp only [ha]
    · rw [getCore_modCore, if_pos rfl]
  · refine ⟨clearYield s core, ?_, hy.mm, fun _ => rfl, fun h => ?_⟩
    · simp only [ha, firstBy_eq_some hx hb]
    · rw [ha] at h; cases h

/-- A thread of a candidate, once its port has its bundle: taken at age 0, or one older. -/
theorem candidate_aged {s v : State} {core : Nat} {x y : Cand} {e : Nat × Thread} (h : s.ex.threads.Pairwise fun a b => a.1 < b.1)
    (hv : ∀ k, getThread v k = getThread (clearYield s core) k) (hy : y ∈ candidates s core) (he : e ∈ y.ts) (port : Nat) :
    ∃ t, getThread (giveBundle (ageAll v (candidates s core)) core port x) e.1 = some t ∧ t.pc = e.2.pc ∧ t.regs = e.2.regs ∧ t.st = e.2.st ∧
      t.age = if e.1 ∈ x.taken.map (·.1) then 0 else min 255 (e.2.age + 1) := by
  obtain ⟨key, hk⟩ := mem_candidates hy
  have hs : getThread s e.1 = some e.2 := tget_of_mem h (hk e he).1
  obtain ⟨b, hb⟩ := getThread_clearYield core hs
  have ha : getThread (ageAll v (candidates s core)) e.1 = some (aged { e.2 with yielded := b }) := by
    rw [ageAll_eq, getThread_foldl_modThread (.inl (candThreads_nodup h core)), if_pos (mem_candThreads hy he), hv, hb]; rfl
  rw [getThread_giveBundle, ha]
  split
  · refine ⟨_, rfl, ?_⟩
    unfold takenBy; split <;> exact ⟨rfl, rfl, rfl, rfl⟩
  · exact ⟨_, rfl, rfl, rfl, rfl, rfl⟩

/-- FORM_BUNDLE where the core has a candidate (R328, R329). -/
theorem formBundle_bundle {core port : Nat} {s : State} {x : Cand} (hp : port < 4) (hc : core < Config.cores) (hh : s.halted = false)
    (hl : halting s core = false) (hi : tget (getCore s core).ports port = none) (h : s.ex.threads.Pairwise fun a b => a.1 < b.1)
    (hx : x ∈ candidates s core)
    (ho : agedChoice s core (candidates s core) = some x ∨ (agedChoice s core (candidates s core) = none ∧
      ∀ y ∈ candidates s core, y ≠ x → candBefore s core x y = true ∧ candBefore s core y x = false)) :
    ∃ u, exec (.formBundle core port) s = .next u ∧ u.mm = s.mm ∧
      tget (getCore u core).ports port = some ((List.range 64).flatMap fun h => (x.taken.filter fun e => e.2.hlane == h).map (·.1)) ∧
      (agedChoice s core (candidates s core) = some x → (getCore u core).pointer = (x.pos + 1) % 2048) ∧
      ∀ y ∈ candidates s core, ∀ e ∈ y.ts, ∃ t, getThread u e.1 = some t ∧ t.pc = e.2.pc ∧ t.regs = e.2.regs ∧ t.st = e.2.st ∧
        t.age = if e.1 ∈ x.taken.map (·.1) then 0 else min 255 (e.2.age + 1) := by
  obtain ⟨v, hv, hmm, ht, hpt⟩ := formBundle_takes hp hc hh hl hi hx ho
  obtain ⟨n, hn⟩ := getCore_giveBundle (ageAll v (candidates s core)) core port x
  have hage := OnlyThreads.ageAll v (candidates s core)
  refine ⟨_, hv, (giveBundle_mm _ _ _ _).trans (hage.mm.trans hmm), ?_, fun ha => ?_, fun y hy e he => candidate_aged h ht hy he port⟩
  · rw [hn, tget_tset_self]
  · rw [hn, hage.getCore]; exact hpt ha

/-- FORM_BUNDLE where the core has no candidate: the port stays idle (R329). -/
theorem formBundle_idle {core port : Nat} {s : State} (hp : port < 4) (hc : core < Config.cores) (hh : s.halted = false)
    (hl : halting s core = false) (hi : tget (getCore s core).ports port = none) (he : candidates s core = []) :
    ∃ u, exec (.formBundle core port) s = .next u ∧ u.mm = s.mm ∧ u.ex.cores = s.ex.cores ∧
      ∀ k t, getThread s k = some t → ∃ v, getThread u k = some v ∧ { v with yielded := t.yielded } = t := by
  have hy := OnlyThreads.clearYield s core
  refine ⟨perf (clearYield s core) 0 core 3 1, ?_, hy.mm, ?_, fun k t ht => ?_⟩
  · change execFormBundle core port s = _
    simp only [execFormBundle, if_neg (formBundle_open hp hc hh hl hi), he]
  · unfold OnlyThreads at hy; rw [perf_ex, hy]
  · obtain ⟨y, hk⟩ := getThread_clearYield core ht
    exact ⟨_, hk, rfl⟩

end Sys2Proof.Machine

namespace Sys2Proof.Machine

/-! Placement (R19, R320 to R324). -/

theorem tfree_some {α : Type} {t : Tab α} {fuel n k : Nat} (h : tfree t fuel n = some k) : n ≤ k ∧ k < n + fuel ∧ tget t k = none := by
  induction fuel generalizing n with
  | zero => cases h
  | succ fuel ih =>
    unfold tfree at h
    split at h
    · rename_i hn
      obtain rfl := Option.some.inj h
      exact ⟨le_rfl, by omega, Option.isNone_iff_eq_none.1 hn⟩
    · obtain ⟨h1, h2, h3⟩ := ih h
      exact ⟨by omega, by omega, h3⟩

/-- The search for a free key looks at the keys of its range alone. -/
theorem tfree_congr {α : Type} {t t' : Tab α} {fuel n : Nat} (h : ∀ k, n ≤ k → k < n + fuel → tget t' k = tget t k) : tfree t' fuel n = tfree t fuel n := by
  induction fuel generalizing n with
  | zero => rfl
  | succ fuel ih =>
    unfold tfree
    rw [h n le_rfl (by omega), ih fun k h1 h2 => h k (by omega) (by omega)]

/-- An entry set whose key a filter on keys rejects is not seen through that filter. -/
theorem tset_filter_key {α : Type} (t : Tab α) {n : Nat} (v : α) {p : Nat → Bool} (h : p n = false) :
    (tset t n v).filter (fun e => p e.1) = t.filter fun e => p e.1 := by
  induction t with
  | nil => simp [tset, h]
  | cons e t ih =>
    obtain ⟨k, w⟩ := e
    simp only [tset]
    split
    · rename_i hk; subst hk; simp [h]
    · split
      · simp [h]
      · simp only [List.filter_cons, ih]

/-- A free team slot of a core. -/
theorem freeTeam_core {s : State} {core k : Nat} (h : tfree s.ex.teams Config.threadsPerCore (core * 2048) = some k) :
    coreOf k = core ∧ tget s.ex.teams k = none := by
  obtain ⟨h1, h2, h3⟩ := tfree_some h
  unfold Config.threadsPerCore at h2
  exact ⟨by unfold coreOf; omega, h3⟩

theorem freeRange_some {s : State} {core n b : Nat} (h : freeRange s core n = some b) : b % 1024 = 0 ∧ b + n ≤ Config.stashBytes := by
  have hm := List.mem_of_find?_eq_some h
  have hp := List.find?_some h
  obtain ⟨i, -, rfl⟩ := List.mem_map.1 hm
  simp only [Bool.and_eq_true, decide_eq_true_eq] at hp
  exact ⟨Nat.mul_mod_right _ _, hp.1⟩

/-! Threads in free entries. -/

/-- Threads enter: of each team `c` and index `i` that `I` names, one stands in an entry that was free, and no other entry changes. -/
structure Enters (g : Grid) (I : Nat → Nat → Prop) (s u : State) : Prop where
  every : ∀ c i, I c i → ∃ k t, getThread s k = none ∧ getThread u k = some t ∧ AtEntry g c (coreOf c) i k t
  only : ∀ k, getThread u k = getThread s k ∨ ∃ c i t, I c i ∧ getThread s k = none ∧ getThread u k = some t ∧ AtEntry g c (coreOf c) i k t

theorem Enters.nobody (g : Grid) {s u : State} (h : ∀ k, getThread u k = getThread s k) : Enters g (fun _ _ => False) s u :=
  ⟨fun _ _ => False.elim, fun k => .inl (h k)⟩

theorem Enters.of_same {g : Grid} {I : Nat → Nat → Prop} {s u v : State} (h : Enters g I u v) (hs : ∀ k, getThread u k = getThread s k) : Enters g I s v :=
  ⟨fun c i hi => (h.every c i hi).imp fun k hk => hs k ▸ hk, fun k => hs k ▸ h.only k⟩

theorem Enters.congr {g : Grid} {I J : Nat → Nat → Prop} {s u : State} (h : Enters g I s u) (hi : ∀ c i, I c i ↔ J c i) : Enters g J s u := by
  have : I = J := funext fun c => funext fun i => propext (hi c i)
  exact this ▸ h

theorem Enters.trans {g : Grid} {I J : Nat → Nat → Prop} {s u v : State} (h : Enters g I s u) (k : Enters g J u v) :
    Enters g (fun c i => I c i ∨ J c i) s v where
  every c i := by
    rintro (hi | hj)
    · obtain ⟨n, t, hs, hu, ht⟩ := h.every c i hi
      rcases k.only n with e | ⟨_, _, _, _, e, _⟩
      · exact ⟨n, t, hs, e.trans hu, ht⟩
      · rw [hu] at e; cases e
    · obtain ⟨n, t, hu, hv, ht⟩ := k.every c i hj
      rcases h.only n with e | ⟨_, _, _, _, _, e, _⟩
      · exact ⟨n, t, e.symm.trans hu, hv, ht⟩
      · rw [hu] at e; cases e
  only n := by
    rcases k.only n with e | ⟨c, i, t, hj, hu, hv, ht⟩
    · rcases h.only n with e' | ⟨c, i, t, hi, hs, hu, ht⟩
      · exact .inl (e.trans e')
      · exact .inr ⟨c, i, t, .inl hi, hs, e.trans hu, ht⟩
    · rcases h.only n with e | ⟨_, _, _, _, _, e, _⟩
      · exact .inr ⟨c, i, t, .inr hj, e.symm.trans hu, hv, ht⟩
      · rw [hu] at e; cases e

/-- The entry of a core's home lane with a number within the lane (R14, R324). -/
def laneEntry (core l n : Nat) : Nat := core * 2048 + 64 * n + l

theorem Enters.newThread {s : State} {g : Grid} {team i n : Nat} (e : Nat) (hn : n < 32) (h : getThread s (laneEntry (coreOf team) (i % 64) n) = none) :
    Enters g (fun c j => c = team ∧ j = i) s (setThread s (laneEntry (coreOf team) (i % 64) n) (newThread e g team i)) := by
  have hk : AtEntry g team (coreOf team) i (laneEntry (coreOf team) (i % 64) n) (Machine.newThread e g team i) := by
    refine ⟨?_, ?_, rfl, rfl, rfl, rfl, rfl, rfl, rfl, rfl, rfl, rfl, rfl, rfl, rfl⟩
    · generalize coreOf team = c; simp only [laneEntry, coreOf]; omega
    · simp only [laneEntry]; omega
  refine ⟨?_, fun k => ?_⟩
  · rintro _ _ ⟨rfl, rfl⟩
    exact ⟨_, _, h, by rw [getThread_setThread, if_pos rfl], hk⟩
  · by_cases he : k = laneEntry (coreOf team) (i % 64) n
    · subst he
      exact .inr ⟨_, _, _, ⟨rfl, rfl⟩, h, by rw [getThread_setThread, if_pos rfl], hk⟩
    · exact .inl (by rw [getThread_setThread, if_neg he])

/-- The entries of a core's home lane that hold a thread. -/
def usedEntries (s : State) (core l : Nat) : Finset Nat := (Finset.range 32).filter fun n => (getThread s (laneEntry core l n)).isSome = true

/-- A core's home lanes have room for the threads of a team of `T` from linear index `i` on (R20, R321). -/
def LaneRoom (s : State) (core T i : Nat) : Prop := ∀ l, l < 64 → (usedEntries s core l).card + laneCount T l ≤ 32 + laneCount i l

theorem usedEntries_card_le (s : State) (core : Nat) {l : Nat} (hl : l < 64) : (usedEntries s core l).card ≤ (laneThreads s core l).length := by
  have hsub : (usedEntries s core l).image (laneEntry core l) ⊆ ((laneThreads s core l).map (·.1)).toFinset := by
    intro k hk
    obtain ⟨n, hn, rfl⟩ := Finset.mem_image.1 hk
    obtain ⟨hr, hs⟩ := Finset.mem_filter.1 hn
    obtain ⟨t, ht⟩ := Option.isSome_iff_exists.1 hs
    have hr := Finset.mem_range.1 hr
    refine List.mem_toFinset.2 (List.mem_map.2 ⟨_, List.mem_filter.2 ⟨mem_of_tget ht, ?_⟩, rfl⟩)
    simp only [coreOf, laneEntry, Bool.and_eq_true, beq_iff_eq]
    omega
  have hinj : Function.Injective (laneEntry core l) := fun a b h => by simp only [laneEntry] at h; omega
  calc (usedEntries s core l).card = ((usedEntries s core l).image (laneEntry core l)).card := (Finset.card_image_of_injective _ hinj).symm
    _ ≤ ((laneThreads s core l).map (·.1)).toFinset.card := Finset.card_le_card hsub
    _ ≤ ((laneThreads s core l).map (·.1)).length := List.toFinset_card_le _
    _ = (laneThreads s core l).length := List.length_map ..

/-- The next thread of a team finds a free entry of its home lane. -/
theorem LaneRoom.free {s : State} {core T i : Nat} (h : LaneRoom s core T i) (hi : i < T) :
    ∃ n, n < 32 ∧ getThread s (laneEntry core (i % 64) n) = none ∧
      ((List.range 32).find? fun n => (getThread s (laneEntry core (i % 64) n)).isNone) = some n := by
  have hc : (usedEntries s core (i % 64)).card < (Finset.range 32).card := by
    have := h (i % 64) (by omega)
    simp only [laneCount] at this
    rw [Finset.card_range]
    omega
  obtain ⟨m, hm, hu⟩ := Finset.exists_mem_notMem_of_card_lt_card hc
  have hs : ((List.range 32).find? fun n => (getThread s (laneEntry core (i % 64) n)).isNone).isSome = true := by
    refine List.find?_isSome.2 ⟨m, List.mem_range.2 (Finset.mem_range.1 hm), ?_⟩
    simpa [usedEntries, Finset.mem_range.1 hm] using hu
  obtain ⟨n, hn⟩ := Option.isSome_iff_exists.1 hs
  exact ⟨n, List.mem_range.1 (List.mem_of_find?_eq_some hn), Option.isNone_iff_eq_none.1 (List.find?_some hn :), hn⟩

/-- Once its next thread is placed, the rest of a team has room. -/
theorem LaneRoom.next {s : State} {core T i n : Nat} (h : LaneRoom s core T i) (t : Thread) :
    LaneRoom (setThread s (laneEntry core (i % 64) n) t) core T (i + 1) := by
  intro l hl
  have hu : usedEntries (setThread s (laneEntry core (i % 64) n) t) core l ⊆ if l = i % 64 then insert n (usedEntries s core l) else usedEntries s core l := by
    intro m hm
    obtain ⟨hr, hs⟩ := Finset.mem_filter.1 hm
    rw [getThread_setThread] at hs
    split at hs
    · rename_i he
      simp only [laneEntry] at he
      have hr := Finset.mem_range.1 hr
      obtain rfl : l = i % 64 := by omega
      obtain rfl : m = n := by omega
      simp
    · have : m ∈ usedEntries s core l := Finset.mem_filter.2 ⟨hr, hs⟩
      split <;> simp [this]
  have hc := Finset.card_le_card hu
  have := h l hl
  simp only [laneCount] at this ⊢
  split at hc
  · have := Finset.card_insert_le n (usedEntries s core l)
    omega
  · omega

/-- The threads of a team stand in free entries of their home lanes (R324). -/
theorem placeThreads_enters (e : Nat) (g : Grid) (team : Nat) : ∀ (n i : Nat) (s : State), LaneRoom s (coreOf team) (i + n) i →
    Enters g (fun c j => c = team ∧ i ≤ j ∧ j < i + n) s (placeThreads e g (coreOf team) team n i s) := by
  intro n
  induction n with
  | zero => exact fun i s _ => (Enters.nobody g fun _ => rfl).congr fun c j => ⟨False.elim, fun ⟨_, _, _⟩ => by omega⟩
  | succ n ih =>
    intro i s h
    obtain ⟨m, hm, hf, hfind⟩ := h.free (by omega)
    have hr := h.next (n := m) (newThread e g team i)
    rw [show i + (n + 1) = i + 1 + n by omega] at hr
    have hp : placeThreads e g (coreOf team) team (n + 1) i s =
        placeThreads e g (coreOf team) team n (i + 1) (setThread s (laneEntry (coreOf team) (i % 64) m) (newThread e g team i)) := by
      unfold laneEntry at hfind ⊢
      rw [placeThreads, hfind]; rfl
    rw [hp]
    refine ((Enters.newThread e hm hf).trans (ih (i + 1) _ hr)).congr fun c j => ?_
    omega

theorem OnlyThreads.placeThreads (e : Nat) (g : Grid) (core team : Nat) : ∀ (n i : Nat) (s : State), OnlyThreads s (placeThreads e g core team n i s)
  | 0, _, s => .refl s
  | n + 1, i, s => (OnlyThreads.setThread s _ _).trans (OnlyThreads.placeThreads e g core team n (i + 1) _)

/-! Teams. -/

/-- A core takes a team of a grid now: a range of its stash, a team slot and entries of its home lanes are free (R321). -/
structure Takes (s : State) (g : Grid) (core : Nat) : Prop where
  range : (freeRange s core g.stash).isSome = true
  slot : (tfree s.ex.teams Config.threadsPerCore (core * 2048)).isSome = true
  lanes : LaneRoom s core g.teamThreads 0

theorem takes_of_fits {s : State} {g : Grid} {core : Nat} (h : fits s g core = true) : Takes s g core := by
  simp only [fits, Bool.and_eq_true, List.all_eq_true, decide_eq_true_eq] at h
  obtain ⟨⟨⟨⟨-, hl⟩, hr⟩, -⟩, hs⟩ := h
  refine ⟨hr, hs, fun l hl64 => ?_⟩
  have h1 := (hl l (List.mem_range.2 hl64)).1
  have h2 := usedEntries_card_le s core hl64
  unfold Config.entriesPerLane at h1
  omega

/-- A team of a grid as it is placed (R18, R203, R324). -/
structure NewTeam (gi : Nat) (g : Grid) (lin cluster rank : Nat) (tm : Team) : Prop where
  grid : tm.grid = gi
  lin : tm.lin = lin
  cluster : tm.cluster = cluster
  rank : tm.rank = rank
  threads : tm.threads = g.teamThreads
  size : tm.size = g.stash
  base : tm.base % 1024 = 0
  fits : tm.base + tm.size ≤ Config.stashBytes
  tiles : tm.tileCount = g.tiles
  stash : tm.stash = []

/-- Nothing but threads, teams and what cores note of them differs. -/
def OnlyPlaced (s u : State) : Prop :=
  u = { s with nextId := u.nextId, ex := { s.ex with threads := u.ex.threads, teams := u.ex.teams, cores := u.ex.cores } }

theorem OnlyPlaced.trans {s u v : State} (h : OnlyPlaced s u) (k : OnlyPlaced u v) : OnlyPlaced s v := by
  unfold OnlyPlaced at h k; rw [h] at k; exact k

theorem OnlyPlaced.placeTeam (s : State) (gi : Nat) (g : Grid) (core lin cluster rank : Nat) : OnlyPlaced s (placeTeam s gi g core lin cluster rank) := by
  unfold Machine.placeTeam
  split
  · have h := OnlyThreads.placeThreads
    unfold OnlyThreads at h
    dsimp only
    rw [h]
    rfl
  · rfl

theorem OnlyPlaced.placeRanks (gi : Nat) (g : Grid) (cluster : Nat) : ∀ (l : List Nat) (r : Nat) (s : State) (ks : List Nat),
    OnlyPlaced s (placeRanks gi g cluster l r s ks).1
  | [], _, _, _ => rfl
  | _ :: l, _, _, _ => (OnlyPlaced.placeTeam ..).trans (OnlyPlaced.placeRanks gi g cluster l _ _ _)

/-- One team placed on a core that takes it: it has a free slot of the core and a range of its stash, and its threads enter. -/
theorem placeTeam_places {s : State} {gi : Nat} {g : Grid} {core : Nat} (h : Takes s g core) (lin cluster rank : Nat) :
    ∃ key tm, tfree s.ex.teams Config.threadsPerCore (core * 2048) = some key ∧ NewTeam gi g lin cluster rank tm ∧
      (placeTeam s gi g core lin cluster rank).ex.teams = tset s.ex.teams key tm ∧
      Enters g (fun c i => c = key ∧ i < g.teamThreads) s (placeTeam s gi g core lin cluster rank) := by
  obtain ⟨key, hk⟩ := Option.isSome_iff_exists.1 h.slot
  obtain ⟨base, hb⟩ := Option.isSome_iff_exists.1 h.range
  obtain rfl := (freeTeam_core hk).1
  obtain ⟨hb1, hb2⟩ := freeRange_some hb
  simp only [placeTeam, hk, hb]
  refine ⟨key, { grid := gi, lin := lin, cluster := cluster, rank := rank, prio := gridPrio s g, threads := g.teamThreads, base := base
                 size := g.stash, tileCount := g.tiles }, rfl, ⟨rfl, rfl, rfl, rfl, rfl, rfl, hb1, hb2, rfl, rfl⟩, ?_, ?_⟩
  · have ht := OnlyThreads.placeThreads
    unfold OnlyThreads at ht
    rw [ht]
    rfl
  · refine ((placeThreads_enters _ g key g.teamThreads 0 _ ?_).congr fun c i => ?_).of_same fun _ => rfl
    · rw [Nat.zero_add]; exact h.lanes
    · simp

/-- A core still takes a team when one has been placed on another core. -/
theorem Takes.other {s u : State} {g : Grid} {core key : Nat} {tm : Team} {n : Nat} (h : Takes s g core) (hc : coreOf key ≠ core)
    (ht : u.ex.teams = tset s.ex.teams key tm) (he : Enters g (fun c i => c = key ∧ i < n) s u) : Takes u g core where
  range := by
    have : coreTeams u core = coreTeams s core := by
      simp only [coreTeams, ht]
      exact tset_filter_key _ tm (p := fun k => coreOf k == core) (by simpa using hc)
    unfold freeRange
    rw [this]
    exact h.range
  slot := by
    rw [ht, tfree_congr (t := s.ex.teams) fun k h1 h2 => tget_tset_ne _ _ fun e => hc ?_]
    · exact h.slot
    · subst e; unfold Config.threadsPerCore at h2; unfold coreOf; omega
  lanes := by
    have hg (l m : Nat) (hl : l < 64) (hm : m < 32) : getThread u (laneEntry core l m) = getThread s (laneEntry core l m) := by
      refine (he.only _).resolve_right ?_
      rintro ⟨_, _, _, ⟨rfl, -⟩, -, -, hk, -⟩
      refine hc (hk.symm.trans ?_)
      simp only [coreOf, laneEntry]
      omega
    intro l hl
    have : usedEntries u core l = usedEntries s core l :=
      Finset.filter_congr fun m hm => by rw [hg l m hl (Finset.mem_range.1 hm)]
    rw [this]
    exact h.lanes l hl

/-- Teams placed by rank, from rank `r` on, one on each core of `l`: their keys are `ks`. -/
structure RanksPlaced (gi : Nat) (g : Grid) (cluster r : Nat) (l : List Nat) (s u : State) (ks : List Nat) : Prop where
  cores : ks.map coreOf = l
  absent : ∀ k ∈ ks, tget s.ex.teams k = none
  teams : ∀ i (h : i < ks.length), ∃ tm, tget u.ex.teams ks[i] = some tm ∧ NewTeam gi g (g.next + (r + i)) cluster (r + i) tm
  others : ∀ n, n ∉ ks → tget u.ex.teams n = tget s.ex.teams n
  enters : Enters g (fun c i => c ∈ ks ∧ i < g.teamThreads) s u

theorem placeRanks_places (gi : Nat) (g : Grid) (cluster : Nat) : ∀ (l : List Nat) (r : Nat) (s : State) (ks : List Nat), l.Nodup → (∀ c ∈ l, Takes s g c) →
    ∃ new, (placeRanks gi g cluster l r s ks).2 = ks ++ new ∧ RanksPlaced gi g cluster r l s (placeRanks gi g cluster l r s ks).1 new ∧
      (l ≠ [] → new.headD 0 = (tfree s.ex.teams Config.threadsPerCore (l.headD 0 * 2048)).getD 0) := by
  intro l
  induction l with
  | nil =>
    intro r s ks _ _
    refine ⟨[], (List.append_nil _).symm, ⟨rfl, by simp, by simp, fun _ _ => rfl, ?_⟩, fun h => absurd rfl h⟩
    exact (Enters.nobody g fun _ => rfl).congr fun c i => by simp
  | cons core l ih =>
    intro r s ks hn hl
    obtain ⟨hcl, hn⟩ := List.nodup_cons.1 hn
    obtain ⟨key, tm, hk, htm, ht, he⟩ := placeTeam_places (gi := gi) (hl core List.mem_cons_self) (g.next + r) cluster r
    obtain ⟨hc, habs⟩ := freeTeam_core hk
    have hl' (c : Nat) (hcm : c ∈ l) : Takes (placeTeam s gi g core (g.next + r) cluster r) g c :=
      (hl c (List.mem_cons_of_mem _ hcm)).other (fun e => hcl (hc ▸ e ▸ hcm)) ht he
    obtain ⟨new, hnew, hp, -⟩ := ih (r + 1) (placeTeam s gi g core (g.next + r) cluster r) (ks ++ [key]) hn hl'
    have hkn : key ∉ new := fun h => hcl (by rw [← hp.cores, ← hc]; exact List.mem_map_of_mem h)
    have hpr : placeRanks gi g cluster (core :: l) r s ks =
        placeRanks gi g cluster l (r + 1) (placeTeam s gi g core (g.next + r) cluster r) (ks ++ [key]) := by
      rw [placeRanks, hk]; rfl
    rw [hpr]
    refine ⟨key :: new, by rw [hnew, List.append_assoc]; rfl, ⟨by rw [List.map_cons, hc, hp.cores], ?_, ?_, ?_, ?_⟩, fun _ => by simp [hk]⟩
    · refine List.forall_mem_cons.2 ⟨habs, fun k hkm => ?_⟩
      have := hp.absent k hkm
      rwa [ht, tget_tset_ne _ _ fun e : k = key => hkn (e ▸ hkm)] at this
    · intro i hi
      cases i with
      | zero => exact ⟨tm, by rw [List.getElem_cons_zero, hp.others key hkn, ht, tget_tset_self], htm⟩
      | succ i =>
        obtain ⟨x, hx, hxt⟩ := hp.teams i (Nat.lt_of_succ_lt_succ hi)
        exact ⟨x, hx, by rwa [show r + (i + 1) = r + 1 + i by omega]⟩
    · intro n hnk
      obtain ⟨h1, h2⟩ := not_or.1 fun h => hnk (List.mem_cons.2 h)
      rw [hp.others n h2, ht, tget_tset_ne _ _ h1]
    · refine (he.trans hp.enters).congr fun c i => ?_
      rw [List.mem_cons]
      tauto

/-- The next teams of a grid placed on cores that take them (R322, R323). -/
theorem place_places {s : State} {gi : Nat} {g : Grid} {l : List Nat} (hg : tget s.ex.grids gi = some g) (hl : l ≠ []) (hn : l.Nodup)
    (ht : ∀ c ∈ l, fits s g c = true) :
    ∃ ks, RanksPlaced gi g (ks.headD 0) 0 l s (place s gi g l) ks ∧ (place s gi g l).mm = s.mm ∧
      tget (place s gi g l).ex.clusters (ks.headD 0) = some { grid := gi, teams := ks } ∧
      tget (place s gi g l).ex.grids gi =
        some { g with next := g.next + l.length, rr := (l.getLastD 0 + 1) % Config.cores, waitSince := s.bd.clock, reserving := none } := by
  obtain ⟨ks, hks, hp, hh⟩ := placeRanks_places gi g ((tfree s.ex.teams Config.threadsPerCore (l.headD 0 * 2048)).getD 0) l 0 s [] hn
    fun c hc => takes_of_fits (ht c hc)
  have hf := OnlyPlaced.placeRanks gi g ((tfree s.ex.teams Config.threadsPerCore (l.headD 0 * 2048)).getD 0) l 0 s []
  rw [← hh hl] at hp hf hks
  rw [List.nil_append] at hks
  unfold place
  dsimp only
  rw [← hh hl, hks]
  generalize (placeRanks gi g (ks.headD 0) l 0 s []).1 = v at *
  unfold OnlyPlaced at hf
  have hgr : v.ex.grids = s.ex.grids := by rw [hf]
  refine ⟨ks, ⟨hp.cores, hp.absent, hp.teams, hp.others, ⟨hp.enters.every, hp.enters.only⟩⟩, ?_, ?_, ?_⟩
  · change v.mm = s.mm; rw [hf]
  · exact tget_tset_self _ _ _
  · refine (tget_tmod _ _ _ _).trans ?_
    rw [if_pos rfl]
    dsimp only
    rw [hgr, hg, hf]
    rfl

/-- TEAM_PLACEMENT (R19, R322, R324). -/
theorem teamPlacement_places {s : State} {gi : Nat} {g : Grid} {core : Nat} (hc : chooseGrid s = some (gi, g, [core])) (hh : s.halted = false)
    (h1 : g.cw * g.ch = 1) (hg : tget s.ex.grids gi = some g) (hf : fits s g core = true) :
    ∃ u key, exec .teamPlacement s = .next u ∧ u.mm = s.mm ∧ coreOf key = core ∧ tget s.ex.teams key = none ∧ (∀ n, n ≠ key → tget u.ex.teams n = tget s.ex.teams n) ∧
      (∃ tm, tget u.ex.teams key = some tm ∧ tm.grid = gi ∧ tm.lin = g.next ∧ tm.rank = 0 ∧ tm.threads = g.teamThreads ∧ tm.size = g.stash ∧ tm.base % 1024 = 0 ∧
        tm.base + tm.size ≤ Config.stashBytes ∧ tm.tileCount = g.tiles ∧ tm.stash = []) ∧
      (∃ h, tget u.ex.grids gi = some h ∧ h.record = g.record ∧ h.next = g.next + 1 ∧ h.rr = (core + 1) % Config.cores ∧ h.waitSince = s.bd.clock ∧ h.reserving = none) ∧
      (∀ i, i < g.teamThreads → ∃ k t, getThread s k = none ∧ getThread u k = some t ∧ AtEntry g key core i k t) ∧
      ∀ k, getThread u k = getThread s k ∨ ∃ i t, i < g.teamThreads ∧ getThread s k = none ∧ getThread u k = some t ∧ AtEntry g key core i k t := by
  obtain ⟨ks, hp, hmm, -, hgr⟩ := place_places hg (List.cons_ne_nil core []) (List.nodup_singleton core) (by simpa using hf)
  obtain ⟨key, rfl⟩ : ∃ key, ks = [key] := List.length_eq_one_iff.1 (by rw [← List.length_map (f := coreOf), hp.cores]; rfl)
  obtain rfl : coreOf key = core := by simpa using hp.cores
  obtain ⟨tm, htm, hnew⟩ := hp.teams 0 (by simp)
  refine ⟨place s gi g [coreOf key], key, ?_, hmm, rfl, hp.absent key (by simp), fun n hn => hp.others n (by simpa using hn),
    ⟨tm, htm, hnew.grid, hnew.lin, hnew.rank, hnew.threads, hnew.size, hnew.base, hnew.fits, hnew.tiles, hnew.stash⟩,
    ⟨_, hgr, rfl, rfl, rfl, rfl, rfl⟩, fun i hi => hp.enters.every key i ⟨by simp, hi⟩, fun k => (hp.enters.only k).imp_right ?_⟩
  · change execTeamPlacement s = _
    simp only [execTeamPlacement, hc, hh, h1, and_self, if_true]
  · rintro ⟨c, i, t, ⟨hcm, hi⟩, hk⟩
    obtain rfl := List.mem_singleton.1 hcm
    exact ⟨i, t, hi, hk⟩

/-- CLUSTER_PLACEMENT (R323, R324). -/
theorem clusterPlacement_places {s : State} {gi : Nat} {g : Grid} {l : List Nat} (hc : chooseGrid s = some (gi, g, l)) (hh : s.halted = false)
    (h1 : 1 < g.cw * g.ch) (hg : tget s.ex.grids gi = some g) (hl : l ≠ []) (hn : l.Nodup) (hf : ∀ c ∈ l, fits s g c = true) :
    ∃ u ks, exec .clusterPlacement s = .next u ∧ u.mm = s.mm ∧ ks.length = l.length ∧
      (∃ h, tget u.ex.grids gi = some h ∧ h.record = g.record ∧ h.next = g.next + l.length ∧ h.waitSince = s.bd.clock ∧ h.reserving = none) ∧
      (∃ c, tget u.ex.clusters (ks.headD 0) = some c ∧ c.grid = gi ∧ c.teams = ks) ∧
      (∀ r (h : r < ks.length), coreOf ks[r] = l[r]?.getD 0 ∧ (∃ tm, tget u.ex.teams ks[r] = some tm ∧ tm.grid = gi ∧ tm.lin = g.next + r ∧ tm.rank = r ∧
        tm.cluster = ks.headD 0 ∧ tm.threads = g.teamThreads ∧ tm.stash = []) ∧
        ∀ i, i < g.teamThreads → ∃ k t, getThread s k = none ∧ getThread u k = some t ∧ AtEntry g ks[r] (coreOf ks[r]) i k t) ∧
      ∀ k, getThread u k = getThread s k ∨ ∃ c i t, c ∈ ks ∧ i < g.teamThreads ∧ getThread s k = none ∧ getThread u k = some t ∧ AtEntry g c (coreOf c) i k t := by
  obtain ⟨ks, hp, hmm, hcl, hgr⟩ := place_places hg hl hn hf
  refine ⟨place s gi g l, ks, ?_, hmm, by rw [← List.length_map (f := coreOf), hp.cores], ⟨_, hgr, rfl, rfl, rfl, rfl⟩, ⟨_, hcl, rfl, rfl⟩, fun r hr => ?_,
    fun k => (hp.enters.only k).imp_right ?_⟩
  · change execClusterPlacement s = _
    simp only [execClusterPlacement, hc, hh, h1, and_self, if_true]
  · obtain ⟨tm, htm, hnew⟩ := hp.teams r hr
    rw [Nat.zero_add] at hnew
    refine ⟨by rw [← hp.cores]; simp [hr], ⟨tm, htm, hnew.grid, hnew.lin, hnew.rank, hnew.cluster, hnew.threads, hnew.stash⟩, fun i hi =>
      hp.enters.every ks[r] i ⟨List.getElem_mem hr, hi⟩⟩
  · rintro ⟨c, i, t, ⟨hcm, hi⟩, hk⟩
    exact ⟨c, i, t, hcm, hi, hk⟩

/-- GRID_RESERVING of a grid whose next team has waited 256 us (R322). -/
theorem gridReserving_reserves {grid : Nat} {s : State} {g : Grid} (hg : tget s.ex.grids grid = some g) (hw : waitsPlacement g = true)
    (hr : g.reserving = none) (hc : g.waitSince + Config.cycles256us ≤ s.bd.clock) :
    ∃ u, exec (.gridReserving grid) s = .next u ∧ tget u.ex.grids grid = some { g with reserving := some s.nextId } ∧
      (∀ n, n ≠ grid → tget u.ex.grids n = tget s.ex.grids n) ∧ u.ex.threads = s.ex.threads ∧ u.ex.teams = s.ex.teams ∧ u.mm = s.mm := by
  refine ⟨modGrid (fresh s).2 grid fun x => { x with reserving := some s.nextId }, ?_, ?_, fun n hn => ?_, rfl, rfl, rfl⟩
  · change execGridReserving grid s = _
    simp only [execGridReserving, hg, hw, hr, hc, and_self, if_true]
    rfl
  · refine (tget_tmod _ _ _ _).trans ?_
    rw [if_pos rfl]
    change (tget s.ex.grids grid).map _ = _
    rw [hg]; rfl
  · exact (tget_tmod _ _ _ _).trans (if_neg hn)

end Sys2Proof.Machine

namespace Sys2Proof.Machine

/-! TEAM_FREE (R204, R335). -/

/-- The end of a grid's snapshot touches the horizon table and the grids alone (R227). -/
theorem closeGridSnap_eq (s : State) (gi : Nat) : ∃ h gs, closeGridSnap s gi = { s with mm := { s.mm with horizon := h }, ex := { s.ex with grids := gs } } := by
  unfold closeGridSnap
  split
  · exact ⟨_, _, rfl⟩
  · split
    · exact ⟨_, _, rfl⟩
    · split
      · split <;> exact ⟨_, _, rfl⟩
      · exact ⟨_, _, rfl⟩

@[simp] theorem closeGridSnap_threads (s : State) (gi : Nat) : (closeGridSnap s gi).ex.threads = s.ex.threads := by
  obtain ⟨_, _, h⟩ := closeGridSnap_eq s gi; rw [h]
@[simp] theorem closeGridSnap_teams (s : State) (gi : Nat) : (closeGridSnap s gi).ex.teams = s.ex.teams := by
  obtain ⟨_, _, h⟩ := closeGridSnap_eq s gi; rw [h]
@[simp] theorem closeGridSnap_mem (s : State) (gi : Nat) : (closeGridSnap s gi).mm.mem = s.mm.mem := by
  obtain ⟨_, _, h⟩ := closeGridSnap_eq s gi; rw [h]
@[simp] theorem closeGridSnap_qu (s : State) (gi : Nat) : (closeGridSnap s gi).qu = s.qu := by
  obtain ⟨_, _, h⟩ := closeGridSnap_eq s gi; rw [h]
@[simp] theorem getLine_closeGridSnap (s : State) (gi n : Nat) : getLine (closeGridSnap s gi) n = getLine s n := by
  obtain ⟨_, _, h⟩ := closeGridSnap_eq s gi; rw [h]; rfl

theorem keepWrites_mm (s : State) (team : Nat) : (keepWrites s team).mm = s.mm := by
  unfold keepWrites; dsimp only; split <;> rfl

/-- A team whose threads owe no write leaves nothing in flight. -/
theorem keepWrites_none {s : State} {team : Nat} (h : ∀ e ∈ teamMates s team, threadOwes s e = false) : keepWrites s team = s := by
  have : (teamMates s team).filter (threadOwes s) = [] := List.filter_eq_nil_iff.2 fun e he => by simp [h e he]
  simp [keepWrites, this]

/-- The largest pts of a team's threads (R221, R357). -/
def exitTop (s : State) (team : Nat) : Nat := (teamMates s team).foldl (fun n e => max n e.2.pts) 0

/-- The grid of a team that is freed notes its threads' stamps (R357). -/
def noteExit (s : State) (team : Nat) : State := modGrid s (getTeam s team).grid fun g => { g with maxStamp := max g.maxStamp (exitTop s team) }

theorem keepWrites_noteExit {s : State} {team : Nat} (h : ∀ e ∈ teamMates s team, threadOwes s e = false) :
    keepWrites (noteExit s team) team = noteExit s team := keepWrites_none h

/-- A team gone: its threads leave the tables, and of the team only its stash range stays (R335). -/
def ungroup (s : State) (team top : Nat) : State :=
  modCore { s with ex := { s.ex with
      threads := s.ex.threads.filter fun e => e.2.team != team
      teams := tmod s.ex.teams team fun x => { x with gone := true, tiles := [], tileCount := 0, exitPts := top } } }
    (coreOf team) fun c => { c with hiddenAge := c.hiddenAge.filter fun x => x.1 != team }

/-- What is freed with a team: its threads, its share of the team table, and with the last team of its cluster the range (R335). -/
theorem freeTeam_eq (s : State) (team : Nat) :
    let u := ungroup (keepWrites (noteExit s team) team) team (exitTop s team)
    let mates := ((tget u.ex.clusters (getTeam s team).cluster).map (·.teams)).getD [team]
    freeTeam s team = closeGridSnap (if mates.all fun k => (getTeam u k).gone then dropCluster u (getTeam s team).cluster mates else u) (getTeam s team).grid :=
  rfl

theorem tget_filter_key {α : Type} (t : Tab α) (p : Nat → Bool) (n : Nat) : tget (t.filter fun e => p e.1) n = if p n then tget t n else none := by
  induction t with
  | nil => simp
  | cons e t ih =>
    obtain ⟨k, w⟩ := e
    by_cases hk : n = k
    · subst hk
      cases hp : p n <;> simp_all [tget]
    · cases hp : p k <;> simp_all [tget]

/-- The teams of a dropped cluster are listed no more. -/
theorem tget_dropCluster {s : State} {ck : Nat} {mates : List Nat} {k : Nat} (h : k ∈ mates) : tget (dropCluster s ck mates).ex.teams k = none := by
  unfold dropCluster
  dsimp only
  rw [tget_mapKey _ (fun n (x : Team) => if 2 ^ 90 ≤ n ∧ x.cluster = ck then { x with cluster := n } else x),
    tget_filter_key s.ex.teams (fun k => !mates.contains k)]
  simp [h]

theorem getTeam_of_tget {s : State} {k : Nat} {tm : Team} (h : tget s.ex.teams k = some tm) : getTeam s k = tm := by
  unfold getTeam; rw [h]; rfl

/-- The threads of the tables once a team is freed. -/
theorem freeTeam_threads (s : State) (team : Nat) :
    (freeTeam s team).ex.threads = (keepWrites (noteExit s team) team).ex.threads.filter fun e => e.2.team != team := by
  rw [freeTeam_eq, closeGridSnap_threads]
  split <;> rfl

theorem freeTeam_mem (s : State) (team : Nat) : (freeTeam s team).mm.mem = s.mm.mem := by
  have hk := congrArg MemSys.mem (keepWrites_mm (noteExit s team) team)
  rw [freeTeam_eq, closeGridSnap_mem]
  split <;> exact hk

/-- The teams once a team is freed whose threads owe no write: it is gone and its range kept while a team of its cluster is not gone, and the
cluster's teams are listed no more once they all are (R335). -/
theorem freeTeam_teams {s : State} {team : Nat} {tm : Team} (ht : tget s.ex.teams team = some tm) (h0 : tm.tiles = [])
    (ho : ∀ e ∈ teamMates s team, threadOwes s e = false) :
    let mates := ((tget s.ex.clusters tm.cluster).map (·.teams)).getD [team]
    ((∃ k ∈ mates, k ≠ team ∧ (getTeam s k).gone = false) →
      ∃ p, tget (freeTeam s team).ex.teams team = some { tm with gone := true, tileCount := 0, exitPts := p }) ∧
    (team ∈ mates → (∀ k ∈ mates, k ≠ team → (getTeam s k).gone = true) → ∀ k ∈ mates, tget (freeTeam s team).ex.teams k = none) := by
  have h := freeTeam_eq s team
  rw [keepWrites_noteExit ho, getTeam_of_tget ht] at h
  dsimp only at h
  set u := ungroup (noteExit s team) team (exitTop s team)
  have hteam (k : Nat) : tget u.ex.teams k =
      if k = team then some { tm with gone := true, tiles := [], tileCount := 0, exitPts := exitTop s team } else tget s.ex.teams k := by
    refine (tget_tmod s.ex.teams team k _).trans ?_
    rw [ht]; rfl
  have hgone (k : Nat) : (getTeam u k).gone = if k = team then true else (getTeam s k).gone := by
    unfold getTeam; rw [hteam]; split <;> rfl
  rw [h, closeGridSnap_teams, show u.ex.clusters = s.ex.clusters from rfl]
  generalize ((tget s.ex.clusters tm.cluster).map (·.teams)).getD [team] = mates
  dsimp only
  refine ⟨fun ⟨k, hk, hne, hg⟩ => ⟨exitTop s team, ?_⟩, fun _ hall k hk => ?_⟩
  · rw [if_neg, hteam, if_pos rfl, h0]
    refine fun ha => absurd (List.all_eq_true.1 ha k hk) ?_
    simp [hgone, hne, hg]
  · rw [if_pos]
    · exact tget_dropCluster hk
    · refine List.all_eq_true.2 fun j hj => ?_
      rw [hgone]
      split
      · rfl
      · exact hall j hj ‹_›

/-- TEAM_FREE of a team whose threads have exited (R204, R335). -/
theorem teamFree_frees {team : Nat} {s : State} {tm : Team} (ht : tget s.ex.teams team = some tm) (hg : tm.gone = false)
    (hm : ∀ e ∈ teamMates s team, e.2.live = false ∧ peerOwed e.2 = false) (hc : copyHolds s team = false) (h0 : tm.tiles = []) :
    ∃ u, exec (.teamFree team) s = .next u ∧ u.mm.mem = s.mm.mem ∧ (∀ e ∈ u.ex.threads, e.2.team ≠ team) ∧
      ((∀ e ∈ teamMates s team, threadOwes s e = false) → (∀ e, e ∈ u.ex.threads ↔ e ∈ s.ex.threads ∧ e.2.team ≠ team) ∧
        let mates := ((tget s.ex.clusters tm.cluster).map (·.teams)).getD [team]
        ((∃ k ∈ mates, k ≠ team ∧ (getTeam s k).gone = false) → ∃ p, tget u.ex.teams team = some { tm with gone := true, tileCount := 0, exitPts := p }) ∧
        (team ∈ mates → (∀ k ∈ mates, k ≠ team → (getTeam s k).gone = true) → ∀ k ∈ mates, tget u.ex.teams k = none)) := by
  refine ⟨freeTeam s team, ?_, freeTeam_mem s team, fun e he => ?_, fun ho => ⟨fun e => ?_, freeTeam_teams ht h0 ho⟩⟩
  · change execTeamFree team s = _
    have hl : (teamMates s team).any (fun e => e.2.live) = false := List.any_eq_false.2 fun e he => by simp [(hm e he).1]
    have hp : (teamMates s team).any (fun e => peerOwed e.2) = false := List.any_eq_false.2 fun e he => by simp [(hm e he).2]
    simp [execTeamFree, ht, hg, hl, hp, hc, h0]
  · rw [freeTeam_threads] at he
    simpa using (List.mem_filter.1 he).2
  · rw [freeTeam_threads, keepWrites_noteExit ho]
    simp [noteExit]

/-! GRID_COMPLETION (R357). -/

/-- Nothing but memory, what its homes keep, counts and what is made ready to send differs. -/
def OnlySettled (s u : State) : Prop := u = { s with mm := u.mm, bd := u.bd, fa := u.fa }

theorem OnlySettled.trans {s u v : State} (h : OnlySettled s u) (k : OnlySettled u v) : OnlySettled s v := by
  unfold OnlySettled at h k; rw [h] at k; exact k

theorem OnlySettled.dirty (s : State) (ln : Nat) : OnlySettled s (dirty s ln) := by
  unfold Machine.dirty; split <;> rfl

theorem OnlySettled.foldLine (s : State) (ln : Nat) : OnlySettled s (foldLine s ln) := by
  unfold Machine.foldLine
  split
  · rfl
  · exact (OnlySettled.dirty s ln).trans rfl

theorem OnlySettled.foldWhere (s : State) (f : Nat → Bool) : OnlySettled s (foldWhere s f) := by
  unfold Machine.foldWhere
  generalize s.mm.lines.map (·.1) = l
  induction l generalizing s with
  | nil => rfl
  | cons n l ih =>
    refine OnlySettled.trans (u := if f n then Machine.foldLine s n else s) ?_ (ih _)
    split
    · exact OnlySettled.foldLine s n
    · rfl

theorem OnlySettled.writeBackWhere (s : State) (f : Nat → Bool) : OnlySettled s (writeBackWhere s f) := by
  obtain ⟨p, hp⟩ := writeBackWhere_eq s f
  rw [hp]
  rfl

theorem OnlySettled.flushHost (s : State) : OnlySettled s (flushHost s) := by
  unfold Machine.flushHost; split <;> rfl

theorem OnlySettled.settleAll (s : State) : OnlySettled s (settleAll s) :=
  (OnlySettled.foldWhere s _).trans ((OnlySettled.writeBackWhere _ _).trans (OnlySettled.flushHost _))

theorem settleAll_ex (s : State) : (settleAll s).ex = s.ex := by
  have h := OnlySettled.settleAll s; unfold OnlySettled at h; rw [h]
theorem settleAll_qu (s : State) : (settleAll s).qu = s.qu := by
  have h := OnlySettled.settleAll s; unfold OnlySettled at h; rw [h]
theorem settleAll_en (s : State) : (settleAll s).en = s.en := by
  have h := OnlySettled.settleAll s; unfold OnlySettled at h; rw [h]

/-! Every delta and every dirty line goes to memory (R209, R222, R223). -/

/-- The deltas that the table of lines lists under a key. -/
def deltaAt (s : State) (k : Nat) : Option Delta := (tget s.mm.lines k).bind (·.delta)

theorem lineKey_of_not_host {n : Nat} (h : isHost (n * 128) = false) : lineKey n = n := by simp [lineKey, h]

theorem lineKey_lineKey (n : Nat) : lineKey (lineKey n) = lineKey n := by
  cases h : isHost (n * 128)
  · simp only [lineKey_of_not_host h]
  · have : lineKey n = 0xFFFFFFFFFF := by simp [lineKey, h]
    rw [this]
    decide

/-- A line's deltas and its older bytes stand under its key. -/
theorem getLine_delta (s : State) (n : Nat) : (getLine s n).delta = deltaAt s (lineKey n) := by
  unfold getLine deltaAt
  cases hn : isHost (n * 128)
  · rw [lineKey_of_not_host hn]
    cases tget s.mm.lines n <;> simp
  · cases tget s.mm.lines (lineKey n) <;> simp

theorem getLine_back (s : State) (n : Nat) : (getLine s n).back = (tget s.mm.lines (lineKey n)).bind (·.back) := by
  unfold getLine
  cases hn : isHost (n * 128)
  · rw [lineKey_of_not_host hn]
    cases tget s.mm.lines n <;> simp
  · cases tget s.mm.lines (lineKey n) <;> simp

/-- A line set without deltas brings none under any key. -/
theorem deltaAt_setLine {s : State} {ln k : Nat} {l : Line} (hl : l.delta = none) (h : deltaAt s k = none) : deltaAt (setLine s ln l) k = none := by
  unfold deltaAt at h ⊢
  unfold setLine
  dsimp only
  split
  · unfold putHostLine
    dsimp only
    have hk : (tget (tset s.mm.lines (lineKey ln) { wts := l.wts, rts := l.rts }) k).bind (·.delta) = none := by
      rw [tget_tset]
      split
      · rfl
      · exact h
    split
    · rw [tget_tset]
      split
      · rfl
      · exact hk
    · rw [tget_tdel]
      split
      · rfl
      · exact hk
  · rw [tget_tset]
    split
    · exact hl
    · exact h

theorem deltaAt_dirty (s : State) (ln k : Nat) : deltaAt (dirty s ln) k = deltaAt s k := by
  unfold dirty
  split
  · rfl
  · rename_i hb
    have hh : isHost (ln * 128) = false := (Bool.or_eq_false_iff.1 (Bool.eq_false_of_not_eq_true hb)).1
    have hd := getLine_delta s ln
    rw [lineKey_of_not_host hh] at hd
    change (tget (if isHost (ln * 128) then _ else tset s.mm.lines ln _) k).bind (·.delta) = _
    rw [hh, if_neg Bool.false_ne_true, tget_tset]
    split
    · rename_i e; subst e; exact hd
    · rfl

theorem deltaAt_foldLine {s : State} {k : Nat} (n : Nat) (h : deltaAt s k = none) : deltaAt (foldLine s n) k = none := by
  unfold foldLine
  split
  · exact h
  · exact deltaAt_setLine rfl ((deltaAt_dirty s n k).trans h)

/-- No delta stands under the key of a line once every listed line has been folded. -/
theorem deltaAt_foldWhere (s : State) (n : Nat) : deltaAt (foldWhere s fun _ => true) (lineKey n) = none := by
  have fold (l : List Nat) (s : State) (h : lineKey n ∈ l ∨ deltaAt s (lineKey n) = none) :
      deltaAt (l.foldl (fun s ln => if (fun _ => true) ln = true then foldLine s ln else s) s) (lineKey n) = none := by
    induction l generalizing s with
    | nil => exact h.resolve_left List.not_mem_nil
    | cons m l ih =>
      refine ih (foldLine s m) ?_
      rcases h with h | h
      · rcases List.mem_cons.1 h with rfl | h
        · obtain ⟨b, hb⟩ := getLine_foldLine s (lineKey n)
          have := getLine_delta (foldLine s (lineKey n)) (lineKey n)
          rw [hb, lineKey_lineKey] at this
          exact .inr this.symm
        · exact .inl h
      · exact .inr (deltaAt_foldLine m h)
  refine fold _ s ?_
  cases h : tget s.mm.lines (lineKey n) with
  | none => right; unfold deltaAt; rw [h]; rfl
  | some l => exact .inl (List.mem_map_of_mem (f := (·.1)) (mem_of_tget h))

/-- After a write-back of everything no line has deltas or is dirty. -/
theorem getLine_settleAll (s : State) (n : Nat) : (getLine (settleAll s) n).delta = none ∧ (getLine (settleAll s) n).back = none := by
  have hm (v : State) : (flushHost v).mm = v.mm := by unfold flushHost; split <;> rfl
  have hl (k : Nat) : tget (settleAll s).mm.lines k = (tget (foldWhere s fun _ => true).mm.lines k).map fun l => { l with back := none } := by
    obtain ⟨p, hp⟩ := writeBackWhere_eq (foldWhere s fun _ => true) fun _ => true
    rw [settleAll, hm, hp]
    exact tget_map _ (fun l : Line => { l with back := none }) k
  have hd := deltaAt_foldWhere s n
  rw [getLine_delta, getLine_back]
  unfold deltaAt at hd ⊢
  rw [hl]
  cases h : tget (foldWhere s fun _ => true).mm.lines (lineKey n) with
  | none => exact ⟨rfl, rfl⟩
  | some l => rw [h] at hd; exact ⟨hd, rfl⟩

/-! The end of a grid. -/

theorem tget_foldl_tset_ne {α : Type} (f : Nat → α) {l : List Nat} {n : Nat} (h : n ∉ l) (t : Tab α) :
    tget (l.foldl (fun m k => tset m k (f k)) t) n = tget t n := by
  induction l generalizing t with
  | nil => rfl
  | cons k l ih =>
    obtain ⟨hk, hl⟩ := not_or.1 fun e => h (List.mem_cons.2 e)
    rw [List.foldl_cons, ih hl, tget_tset_ne _ _ hk]

/-- A grid of the grid table leaves it (R357). -/
theorem tget_dropGrid {s : State} {gi : Nat} (h : gi < 2 ^ 90) : tget (dropGrid s gi).ex.grids gi = none := by
  unfold dropGrid
  split
  · assumption
  · rename_i g _
    dsimp only
    refine (tget_foldl_tset_ne _ ?_ _).trans ?_
    · simp only [List.mem_filter, List.mem_map, Bool.and_eq_true, decide_eq_true_eq]
      rintro ⟨⟨e, ⟨-, he, -⟩, rfl⟩, -⟩
      omega
    · rw [tget_filter_key _ (fun k => decide (k < 2 ^ 90)), tget_tdel_self, ite_self]

@[simp] theorem dropGrid_mm (s : State) (gi : Nat) : (dropGrid s gi).mm = s.mm := by unfold dropGrid; split <;> rfl
@[simp] theorem dropGrid_qu (s : State) (gi : Nat) : (dropGrid s gi).qu = s.qu := by unfold dropGrid; split <;> rfl

theorem gridDone_slot {g : Grid} {q i : Nat} (h : g.launcher = .slot q i) (s : State) (gi p : Nat) :
    gridDone s gi g p = completePending (raiseSlot (dropGrid (closeGridSnap s gi) gi) g.launchSlot p) q i p := by
  simp only [gridDone, raiseLauncher, h]

theorem gridDone_node {g : Grid} {d n : Nat} (h : g.launcher = .node d n) (s : State) (gi p : Nat) :
    gridDone s gi g p = modNode (raiseWalker (dropGrid (closeGridSnap s gi) gi) d p) d n fun x => { x with finished := some p } := by
  simp only [gridDone, raiseLauncher, h]

theorem gridDone_ex (s : State) (gi : Nat) (g : Grid) (p : Nat) : (gridDone s gi g p).ex = (dropGrid (closeGridSnap s gi) gi).ex := by
  cases h : g.launcher
  · rw [gridDone_slot h]; rfl
  · rw [gridDone_node h]; rfl

theorem gridDone_mm (s : State) (gi : Nat) (g : Grid) (p : Nat) : (gridDone s gi g p).mm = (closeGridSnap s gi).mm := by
  rw [← dropGrid_mm (closeGridSnap s gi) gi]
  cases h : g.launcher
  · rw [gridDone_slot h]; rfl
  · rw [gridDone_node h]; rfl

theorem tget_gridDone (s : State) {gi : Nat} (g : Grid) (p : Nat) (h : gi < Config.grids) : tget (gridDone s gi g p).ex.grids gi = none := by
  rw [gridDone_ex]
  unfold Config.grids at h
  exact tget_dropGrid (by omega)

@[simp] theorem getLine_gridDone (s : State) (gi : Nat) (g : Grid) (p n : Nat) : getLine (gridDone s gi g p) n = getLine s n := by
  rw [getLine_congr (s := closeGridSnap s gi) (by rw [gridDone_mm]) (by rw [gridDone_mm]), getLine_closeGridSnap]

theorem Stored.gridDone {s u : State} {pa : Nat} {bs : List Byte} (h : Stored s u pa bs) (gi : Nat) (g : Grid) (p : Nat) :
    Stored s (gridDone u gi g p) pa bs := by
  unfold Stored
  rw [gridDone_mm, closeGridSnap_mem]
  exact h

/-- The node that launched a grid finishes with its stamp (R360). -/
theorem getNode_gridDone {g : Grid} {d n : Nat} {x : GNode} {s : State} (h : g.launcher = .node d n) (hx : getNode s d n = some x) (gi p : Nat) :
    getNode (gridDone s gi g p) d n = some { x with finished := some p } := by
  rw [gridDone_node h]
  refine (tget_tmod _ _ _ _).trans ?_
  rw [if_pos rfl]
  change (tget (dropGrid (closeGridSnap s gi) gi).qu.nodes (d * 4096 + n)).map _ = _
  rw [dropGrid_qu, closeGridSnap_qu, show tget s.qu.nodes (d * 4096 + n) = some x from hx]
  rfl

/-- The slot that launched a grid has observed its stamp (R216). -/
theorem launcherPts_gridDone {g : Grid} {q i : Nat} (h : g.launcher = .slot q i) (s : State) (gi p : Nat) :
    launcherPts (gridDone s gi g p) g = max (launcherPts s g) p := by
  have hp (u : State) : launcherPts u g = (tget u.qu.slotPts g.launchSlot).getD 0 := by simp only [launcherPts, h]
  rw [hp, hp, gridDone_slot h]
  change (tget (tset _ _ _) _).getD 0 = _
  rw [tget_tset_self, dropGrid_qu, closeGridSnap_qu]
  rfl

/-- An entry among the settled ones is as it was, or it was a SIGNAL that had no completion (R274). -/
theorem mem_settleSignals {q stamp : Nat} {b : Bool} {ps : List Pending} {p : Pending} (h : p ∈ settleSignals q stamp b ps) :
    p ∈ ps ∨ ∃ y ∈ ps, y.fin = none ∧ p = { y with fin := some stamp } := by
  have later {ps : List Pending} {x : Pending} (h : p ∈ ps ∨ ∃ y ∈ ps, y.fin = none ∧ p = { y with fin := some stamp }) :
      p ∈ x :: ps ∨ ∃ y ∈ x :: ps, y.fin = none ∧ p = { y with fin := some stamp } :=
    h.imp (List.mem_cons_of_mem _) fun ⟨y, hy, e⟩ => ⟨y, List.mem_cons_of_mem _ hy, e⟩
  have kept {b : Bool} {x : Pending} {ps : List Pending}
      (ih : ∀ b, p ∈ settleSignals q stamp b ps → p ∈ ps ∨ ∃ y ∈ ps, y.fin = none ∧ p = { y with fin := some stamp })
      (h : p ∈ x :: settleSignals q stamp b ps) : p ∈ x :: ps ∨ ∃ y ∈ x :: ps, y.fin = none ∧ p = { y with fin := some stamp } := by
    rcases List.mem_cons.1 h with rfl | h
    · exact .inl List.mem_cons_self
    · exact later (ih b h)
  induction ps generalizing b with
  | nil => cases h
  | cons x ps ih =>
    unfold settleSignals at h
    split at h
    · exact kept (fun _ => ih) h
    · split at h
      · exact kept (fun _ => ih) h
      · rename_i hx
        split at h
        · rcases List.mem_cons.1 h with rfl | h
          · exact .inr ⟨x, List.mem_cons_self, by simpa using hx, rfl⟩
          · exact later (ih h)
        · exact kept (fun _ => ih) h

/-- A completed entry has its stamp (R274). -/
theorem completePending_fin {s : State} {q i stamp : Nat} {p : Pending} (h : p ∈ (completePending s q i stamp).qu.pendings) (hq : p.queue = q) (hi : p.index = i) :
    p.fin = some stamp := by
  have stamped {y : Pending} (hy : y ∈ s.qu.pendings.map fun p => if p.queue = q ∧ p.index = i then { p with fin := some stamp } else p)
      (hq : y.queue = q) (hi : y.index = i) : y.fin = some stamp := by
    obtain ⟨z, -, rfl⟩ := List.mem_map.1 hy
    by_cases hz : z.queue = q ∧ z.index = i
    · rw [if_pos hz]
    · rw [if_neg hz] at hq hi
      exact absurd ⟨hq, hi⟩ hz
  rcases mem_settleSignals (List.mem_filter.1 h).1 with hp | ⟨y, hy, hn, rfl⟩
  · exact stamped hp hq hi
  · have := stamped hy hq hi
    rw [hn] at this
    cases this

theorem gridDone_fin {g : Grid} {q i gi stamp : Nat} {s : State} (h : g.launcher = .slot q i) :
    ∀ p ∈ (gridDone s gi g stamp).qu.pendings, p.queue = q → p.index = i → p.fin = some stamp := by
  rw [gridDone_slot h]
  exact fun _ => completePending_fin

/-- The queue whose entry launched a grid notes its stamp (R274). -/
theorem gridDone_doneStamp {g : Grid} {q i : Nat} {s : State} {y : Queue} (h : g.launcher = .slot q i) (hy : tget s.qu.queues q = some y) (gi stamp : Nat) :
    ∃ z, tget (gridDone s gi g stamp).qu.queues q = some z ∧ z.doneStamp = max y.doneStamp stamp := by
  rw [gridDone_slot h]
  refine ⟨{ y with doneStamp := max y.doneStamp stamp }, (tget_tmod _ _ _ _).trans ?_, rfl⟩
  rw [if_pos rfl]
  change (tget (dropGrid (closeGridSnap s gi) gi).qu.queues q).map _ = _
  rw [dropGrid_qu, closeGridSnap_qu, hy]
  rfl

/-! GRID_COMPLETION. -/

theorem gridStamp_settleAll (s : State) (gi : Nat) (g : Grid) : gridStamp (settleAll s) gi g = gridStamp s gi g := by
  unfold gridStamp lateOf; rw [settleAll_ex]

theorem lt_gridStamp (s : State) (gi : Nat) (g : Grid) : max g.stamp g.maxStamp < gridStamp s gi g := by
  have le (l : List (Nat × Thread)) (n : Nat) : n ≤ l.foldl (fun p e => max p e.2.pts) n := by
    induction l generalizing n with
    | nil => exact le_rfl
    | cons e l ih => exact (le_max_left _ _).trans (ih _)
  exact Nat.lt_succ_of_le (le _ _)

/-- What GRID_COMPLETION does where the grid may complete now: of a grid that was ended nothing is settled (R357). -/
theorem gridCompletion_finishing {s : State} {grid : Nat} {g : Grid} (h : Finishing s grid g) :
    exec (.gridCompletion grid) s = .next (if g.ended then gridDone s grid g (gridStamp s grid g)
      else if g.word 14 + 2 ^ 32 * g.word 15 = 0 then gridDone (settleAll s) grid g (gridStamp s grid g)
      else match writeDenied (settleAll s) g with
        | some reason => gridDenied (settleAll s) grid g (gridStamp s grid g) reason
        | none => gridWrite (settleAll s) grid g (gridStamp s grid g)) := by
  obtain ⟨hg, hlt, hf, hr, hl⟩ := h
  have hn : ¬ (Config.grids ≤ grid ∨ allFreed s grid g = false ∨ ownRequests s (.grid grid) ≠ []) := by simp [hf, hr]; omega
  change execGridCompletion grid s = _
  simp only [execGridCompletion, hg, if_neg hn, gridStamp_settleAll]
  cases he : g.ended with
  | true => rfl
  | false =>
    have ho : (lateOf s grid).any (threadOwes s) = false := hl.resolve_left (by simp [he])
    simp only [ho, Bool.false_eq_true, if_false]
    split
    · rfl
    · cases writeDenied (settleAll s) g <;> rfl

/-- A grid that has no completion word, or that was ended, is done with its stamp (R357). -/
theorem gridCompletion_wordless {s : State} {grid : Nat} {g : Grid} (h : Finishing s grid g) (hw : g.word 14 + 2 ^ 32 * g.word 15 = 0 ∨ g.ended = true) :
    exec (.gridCompletion grid) s = .next (gridDone (if g.ended then s else settleAll s) grid g (gridStamp s grid g)) := by
  rw [gridCompletion_finishing h]
  cases he : g.ended with
  | true => rfl
  | false =>
    rw [if_neg Bool.false_ne_true, if_pos (hw.resolve_right (by simp [he]))]
    rfl

/-- Of any other grid the completion word is written once everything is settled (R357). -/
theorem gridCompletion_word {s : State} {grid : Nat} {g : Grid} (h : Finishing s grid g) (hw : 0 < g.word 14 + 2 ^ 32 * g.word 15) (he : g.ended = false)
    (hd : writeDenied (settleAll s) g = none) :
    exec (.gridCompletion grid) s = .next (gridWrite (settleAll s) grid g (gridStamp s grid g)) := by
  rw [gridCompletion_finishing h, if_neg (by simp [he]), if_neg (by omega), hd]

/-- Through what the agent that launched a grid translates. -/
def launcherVia (s : State) (g : Grid) : Via := match g.launcher with
  | .slot _ _ => baseVia
  | .node d _ => nodeVia s d

/-- The completion word of a grid, written where its launching agent reaches it: the grid is done with the stamp of the write, which is no
lower than the grid's and the agent's (R219, R357). -/
theorem gridWrite_writes {s : State} {g : Grid} {pa : Nat} (h : Reaches s (launcherVia s g) .engineWrite g.asid (g.word 14 + 2 ^ 32 * g.word 15) pa) (gi G : Nat) :
    ∃ v ts, gridWrite s gi g G = gridDone v gi g ts ∧ Stored s v pa (natLe 8 (g.word 16 + 2 ^ 32 * g.word 17)) ∧ (getLine v (pa / 128)).wts = ts ∧
      G ≤ ts ∧ launcherPts s g ≤ ts ∧ v.qu = s.qu := by
  have hw := agentWrite_reaches (bs := natLe 8 (g.word 16 + 2 ^ 32 * g.word 17)) h (max (launcherPts s g) G) false
  obtain ⟨hs, hwts, hts⟩ := writeAt_stored (noteWalk s (launcherVia s g) g.asid (g.word 14 + 2 ^ 32 * g.word 15)) (max (launcherPts s g) G) pa
    (natLe 8 (g.word 16 + 2 ^ 32 * g.word 17)) false
  have hq : (noteWalk s (launcherVia s g) g.asid (g.word 14 + 2 ^ 32 * g.word 15)).qu = s.qu := by unfold noteWalk; split <;> rfl
  refine ⟨_, _, ?_, ?_, hwts, ?_, ?_, (HomeFrame.writeAt _ _ _ _ _).qu.trans hq⟩
  · cases hl : g.launcher <;> simp only [gridWrite, launcherVia, hl] at hw ⊢ <;> rw [hw]
  · unfold Stored at hs ⊢
    rw [getLine_noteWalk, noteWalk_mm] at hs
    exact hs
  · omega
  · omega

end Sys2Proof.Machine

namespace Sys2Proof.Machine

theorem launcherPts_congr {s u : State} (h : u.qu = s.qu) (g : Grid) : launcherPts u g = launcherPts s g := by
  unfold launcherPts walkerPts; rw [h]

theorem getNode_settleAll (s : State) (d n : Nat) : getNode (settleAll s) d n = getNode s d n := by
  unfold getNode; rw [settleAll_qu]

theorem nodeVia_settleAll (s : State) (d : Nat) : nodeVia (settleAll s) d = nodeVia s d := by
  unfold nodeVia; rw [settleAll_en]

/-- GRID_COMPLETION of a grid that a queue entry launched, with no completion word to write (R274, R357). -/
theorem gridCompletion_slot {grid : Nat} {s : State} {g : Grid} {q i : Nat} (h : Finishing s grid g)
    (hw : g.word 14 + 2 ^ 32 * g.word 15 = 0 ∨ g.ended = true) (hl : g.launcher = .slot q i) :
    ∃ u, exec (.gridCompletion grid) s = .next u ∧ tget u.ex.grids grid = none ∧ max g.stamp g.maxStamp < gridStamp s grid g ∧
      (g.ended = false → ∀ ln, (getLine u ln).delta = none ∧ (getLine u ln).back = none) ∧
      launcherPts u g = max (launcherPts s g) (gridStamp s grid g) ∧
      (∀ p ∈ u.qu.pendings, p.queue = q → p.index = i → p.fin = some (gridStamp s grid g)) ∧
      ∀ y, tget s.qu.queues q = some y → ∃ z, tget u.qu.queues q = some z ∧ z.doneStamp = max y.doneStamp (gridStamp s grid g) := by
  have hq : (if g.ended then s else settleAll s).qu = s.qu := by
    split
    · rfl
    · exact settleAll_qu s
  refine ⟨_, gridCompletion_wordless h hw, tget_gridDone _ _ _ h.2.1, lt_gridStamp s grid g, fun he ln => ?_, ?_, gridDone_fin hl, fun y hy =>
    gridDone_doneStamp hl (by rw [hq]; exact hy) _ _⟩
  · rw [getLine_gridDone, he]
    exact getLine_settleAll s ln
  · rw [launcherPts_gridDone hl, launcherPts_congr hq]

/-- GRID_COMPLETION of a grid that a node launched, with no completion word to write (R357, R360). -/
theorem gridCompletion_node {grid : Nat} {s : State} {g : Grid} {d n : Nat} {x : GNode} (h : Finishing s grid g)
    (hw : g.word 14 + 2 ^ 32 * g.word 15 = 0 ∨ g.ended = true) (hl : g.launcher = .node d n) (hx : getNode s d n = some x) :
    ∃ u, exec (.gridCompletion grid) s = .next u ∧ tget u.ex.grids grid = none ∧
      getNode u d n = some { x with finished := some (gridStamp s grid g) } := by
  refine ⟨_, gridCompletion_wordless h hw, tget_gridDone _ _ _ h.2.1, getNode_gridDone hl ?_ _ _⟩
  split
  · exact hx
  · rw [getNode_settleAll, hx]

/-- GRID_COMPLETION of a grid that a queue entry launched, with its completion word (R274, R357). -/
theorem gridCompletion_slotWord {grid : Nat} {s : State} {g : Grid} {q i pa : Nat} (h : Finishing s grid g)
    (hw : 0 < g.word 14 + 2 ^ 32 * g.word 15) (he : g.ended = false) (hl : g.launcher = .slot q i)
    (hr : Reaches (settleAll s) baseVia .engineWrite g.asid (g.word 14 + 2 ^ 32 * g.word 15) pa) :
    ∃ u, exec (.gridCompletion grid) s = .next u ∧ tget u.ex.grids grid = none ∧ Stored (settleAll s) u pa (natLe 8 (g.word 16 + 2 ^ 32 * g.word 17)) ∧
      gridStamp s grid g ≤ (getLine u (pa / 128)).wts ∧ launcherPts s g ≤ (getLine u (pa / 128)).wts ∧
      ∀ p ∈ u.qu.pendings, p.queue = q → p.index = i → p.fin = some (getLine u (pa / 128)).wts := by
  have hv : launcherVia (settleAll s) g = baseVia := by simp only [launcherVia, hl]
  obtain ⟨v, ts, hg, hst, hts, hG, hp, -⟩ := gridWrite_writes (hv ▸ hr) grid (gridStamp s grid g)
  rw [launcherPts_congr (settleAll_qu s)] at hp
  refine ⟨gridDone v grid g ts, ?_, tget_gridDone _ _ _ h.2.1, hst.gridDone _ _ _, ?_⟩
  · rw [gridCompletion_word h hw he (by simp only [writeDenied, hl]), hg]
  · rw [getLine_gridDone, hts]
    exact ⟨hG, hp, gridDone_fin hl⟩

/-- GRID_COMPLETION of a grid that a node launched, with its completion word (R357, R360). -/
theorem gridCompletion_nodeWord {grid : Nat} {s : State} {g : Grid} {d n pa : Nat} {x : GNode} (h : Finishing s grid g)
    (hw : 0 < g.word 14 + 2 ^ 32 * g.word 15) (he : g.ended = false) (hl : g.launcher = .node d n) (hx : getNode s d n = some x)
    (hb : tget x.buf 0 = none) (hr : Reaches (settleAll s) (nodeVia s d) .engineWrite g.asid (g.word 14 + 2 ^ 32 * g.word 15) pa) :
    ∃ u, exec (.gridCompletion grid) s = .next u ∧ tget u.ex.grids grid = none ∧ Stored (settleAll s) u pa (natLe 8 (g.word 16 + 2 ^ 32 * g.word 17)) ∧
      gridStamp s grid g ≤ (getLine u (pa / 128)).wts ∧ getNode u d n = some { x with finished := some (getLine u (pa / 128)).wts } := by
  have hv : launcherVia (settleAll s) g = nodeVia s d := by simp only [launcherVia, hl, nodeVia_settleAll]
  rw [← getNode_settleAll] at hx
  obtain ⟨v, ts, hg, hst, hts, hG, -, hq⟩ := gridWrite_writes (hv ▸ hr) grid (gridStamp s grid g)
  refine ⟨gridDone v grid g ts, ?_, tget_gridDone _ _ _ h.2.1, hst.gridDone _ _ _, ?_⟩
  · rw [gridCompletion_word h hw he (by simp only [writeDenied, hl, hx, Option.bind_some, hb]), hg]
  · rw [getLine_gridDone, hts]
    exact ⟨hG, getNode_gridDone hl (by unfold getNode; rw [hq]; exact hx) _ _⟩

end Sys2Proof.Machine

section
open Sys2Proof Sys2Proof.Machine

/-- Settles O54: each event by the lemma that says what it does: `formBundle_bundle` and `formBundle_idle`; `teamPlacement_places` and
`clusterPlacement_places`, by induction on the cores and on each team's threads; `gridReserving_reserves`; `teamFree_frees`; and the four forms of
`gridCompletion`. -/
theorem placementAndCompletion : Obligations.PlacementAndCompletion :=
  ⟨fun _ _ _ _ hp hc hh hl hi hs hx ho => formBundle_bundle hp hc hh hl hi hs hx ho,
   fun _ _ _ hp hc hh hl hi he => formBundle_idle hp hc hh hl hi he,
   fun _ _ _ _ hc hh h1 hg hf => teamPlacement_places hc hh h1 hg hf,
   fun _ _ _ _ hc hh h1 hg hl hn hf => clusterPlacement_places hc hh h1 hg hl hn hf,
   fun _ _ _ hg hw hr hc => gridReserving_reserves hg hw hr hc,
   fun _ _ _ ht hg hm hc h0 => teamFree_frees ht hg hm hc h0,
   fun _ _ _ _ _ h hw hl => gridCompletion_slot h hw hl,
   fun _ _ _ _ _ _ h hw hl hx => gridCompletion_node h hw hl hx,
   fun _ _ _ _ _ _ h hw he hl hr => gridCompletion_slotWord h hw he hl hr,
   fun _ _ _ _ _ _ _ h hw he hl hx hb hr => gridCompletion_nodeWord h hw he hl hx hb hr⟩

end

/-! O44: MATRIX_OPERATION (spec/02_numbers.md, spec/08_matrix_splat.md, R42, R166, R168). -/

namespace Sys2Proof.Machine

/-! Spans, and the retiring of complete operations. -/

/-- A span written changes registers and what is known of them alone. -/
theorem writeSpan_eq (xs : List Word) (t : Thread) (n : Nat) :
    ∃ r v p, writeSpan t n xs = { t with regs := r, tvalid := v, rpoison := p } := by
  induction xs generalizing t n with
  | nil => exact ⟨_, _, _, rfl⟩
  | cons x xs ih => exact ih (writeReg t n x) (n + 1)

@[simp] theorem retire_pc (t : Thread) : (retire t).pc = t.pc := rfl
@[simp] theorem retire_preds (t : Thread) : (retire t).preds = t.preds := rfl
@[simp] theorem retire_pts (t : Thread) : (retire t).pts = t.pts := rfl
@[simp] theorem readReg_retire (t : Thread) (n : Nat) : readReg (retire t) n = readReg t n := rfl

/-- An operation on no counter retires as soon as it is complete (R396). -/
theorem retire_drops_uncounted {t : Thread} {o : Op} (ho : o ∈ t.ops) (hc : o.cnt = .uncounted) (hd : o.complete = true) :
    ∀ y ∈ (retire t).ops, y.id ≠ o.id := by
  intro y hy he
  simp only [retire, List.mem_filter, Bool.not_eq_true', List.any_eq_false, beq_iff_eq] at hy
  refine hy.2 o (List.mem_append_right _ (List.mem_filter.2 ⟨ho, ?_⟩)) he.symm
  simp [hc, hd]

/-! The row of a participant. -/

@[simp] theorem matRow_length (gr : Grid) (op : MatOp) (g : Nat) (cs : List Word) : (matRow gr op g cs).length = 8 := by simp [matRow]

/-- The row that a matrix operation writes for a thread outside handler mode: of the C that stood at the join, or in D now (R168). -/
def newRow (gr : Grid) (op : MatOp) (t : Thread) : List Word :=
  matRow gr op t.glane (if op.chained then readSpan t op.dstart 8 else (tget op.c t.glane).getD [])

/-- A thread whose part in a matrix operation is complete. -/
def completeMatrix (id : Nat) (t : Thread) : Thread :=
  { t with ops := t.ops.map fun o => if o.kind = .matrix id then { o with complete := true } else o }

/-- Outside handler mode the row goes to the thread's D span (R168). -/
theorem writeRow_of_no_frame (id : Nat) (gr : Grid) (op : MatOp) {t : Thread} (h : t.frame = none) :
    writeRow id gr op t = retire (completeMatrix id (writeSpan t op.dstart (newRow gr op t))) := by
  simp only [writeRow, h, Option.filter_none]
  rfl

theorem readReg_completeMatrix (id : Nat) (t : Thread) (n : Nat) : readReg (completeMatrix id t) n = readReg t n := rfl

/-- What the end of a matrix operation makes of a participant outside handler mode (R168). -/
theorem writeRow_writes (id : Nat) (gr : Grid) (op : MatOp) {t : Thread} (h : t.frame = none) :
    let x := writeRow id gr op t
    x.pc = t.pc ∧ x.preds = t.preds ∧ x.pts = t.pts ∧
      (∀ o ∈ t.ops, o.kind = .matrix id → o.cnt = .uncounted → ∀ y ∈ x.ops, y.id ≠ o.id) ∧
      ∀ n, readReg x n = if op.dstart ≤ n ∧ n < op.dstart + 8 then ((newRow gr op t)[n - op.dstart]?).getD 0 else readReg t n := by
  intro x
  have hx : x = retire (completeMatrix id (writeSpan t op.dstart (newRow gr op t))) := writeRow_of_no_frame id gr op h
  obtain ⟨r, v, p, hw⟩ := writeSpan_eq (newRow gr op t) t op.dstart
  refine ⟨by rw [hx, hw]; rfl, by rw [hx, hw]; rfl, by rw [hx, hw]; rfl, fun o ho hk hc => ?_, fun n => ?_⟩
  · rw [hx]
    refine retire_drops_uncounted (o := { o with complete := true }) ?_ hc rfl
    rw [hw]
    exact List.mem_map.2 ⟨o, ho, if_pos hk⟩
  · rw [hx, readReg_retire, readReg_completeMatrix, readReg_writeSpan, newRow, matRow_length]

/-! The engine. -/

@[simp] theorem startEngine_mm (s : State) (core e : Nat) : (startEngine s core e).mm = s.mm := by
  unfold startEngine; split <;> [rfl; (split <;> rfl)]

@[simp] theorem getThread_startEngine (s : State) (core e j : Nat) : getThread (startEngine s core e) j = getThread s j := by
  unfold startEngine; split <;> [rfl; (split <;> rfl)]

/-- An operation that has gone does not come back as its engine starts the next one. -/
theorem startEngine_keeps_absent {s : State} {id : Nat} (core e : Nat) (h : s.ex.matOps.Pairwise fun x y => x.1 < y.1)
    (hi : tget s.ex.matOps id = none) : tget (startEngine s core e).ex.matOps id = none := by
  unfold startEngine
  split
  · exact hi
  · rename_i n o l hl
    have ho : (n, o) ∈ engineOps s core e := hl ▸ List.mem_cons_self
    have hn : id ≠ n := fun he => by
      have := tget_of_mem h (List.mem_filter.1 ho).1
      rw [← he, hi] at this
      cases this
    split
    · exact hi
    · exact (tget_tset_ne _ _ hn).trans hi

/-! The event. -/

/-- Has a thread a part in a matrix operation? -/
def partOf (id : Nat) (t : Thread) : Bool := t.ops.any fun o => o.kind == .matrix id

theorem partOf_iff {id : Nat} {t : Thread} : partOf id t = true ↔ ∃ o ∈ t.ops, o.kind = .matrix id := by
  simp [partOf]

/-- The state once an operation has left its engine and every participant's row is written. -/
def rowsWritten (s : State) (id : Nat) (op : MatOp) : State :=
  let gr := gridOf s { team := op.team, pc := 0 }
  { s with ex := { s.ex with
    matOps := tdel s.ex.matOps id
    threads := s.ex.threads.map fun e => (e.1, if partOf id e.2 then writeRow id gr op e.2 else e.2) } }

/-- The oldest operation of its engine ends, and the next one starts (R168, R169). -/
theorem matrixOperation_oldest {s : State} {id : Nat} {op : MatOp} (h : tget s.ex.matOps id = some op)
    (ho : ∀ o ∈ s.ex.matOps, o.2.core = op.core → o.2.engine = op.engine → id ≤ o.1) :
    ∃ n, exec (.matrixOperation id) s = .next (startEngine (perf (rowsWritten s id op) 0 op.core n op.passes) op.core op.engine) := by
  have hf : (s.ex.matOps.any fun o => o.2.core == op.core && o.2.engine == op.engine && decide (o.1 < id)) = false := by
    simp only [List.any_eq_false, Bool.and_eq_true, beq_iff_eq, decide_eq_true_eq, not_and, not_lt, and_imp]
    exact ho
  have hm (gr : Grid) : (fun e : Nat × Thread => if e.2.ops.any (fun o => o.kind == .matrix id) then (e.1, writeRow id gr op e.2) else e) =
      fun e => (e.1, if partOf id e.2 then writeRow id gr op e.2 else e.2) := funext fun e => by
    unfold partOf; split <;> rfl
  refine ⟨if op.narrow.getD (isNarrow s op.core) then 7 else 6, ?_⟩
  change execMatrixOperation id s = _
  simp only [execMatrixOperation, h, hf, hm, Bool.false_eq_true, if_false, rowsWritten, gridOf]
  cases tget s.ex.teams op.team <;> rfl

theorem getThread_rowsWritten (s : State) (id : Nat) (op : MatOp) (j : Nat) : getThread (rowsWritten s id op) j =
    (getThread s j).map fun t => if partOf id t then writeRow id (gridOf s { team := op.team, pc := 0 }) op t else t :=
  tget_map s.ex.threads (fun t => if partOf id t then writeRow id (gridOf s { team := op.team, pc := 0 }) op t else t) j

/-- What MATRIX_OPERATION leaves where no thread is in handler mode (R168). -/
theorem matrixOperation_writes {s : State} {id : Nat} {op : MatOp} (h : tget s.ex.matOps id = some op)
    (ho : ∀ o ∈ s.ex.matOps, o.2.core = op.core → o.2.engine = op.engine → id ≤ o.1)
    (hs : s.ex.matOps.Pairwise fun x y => x.1 < y.1) :
    ∃ u, exec (.matrixOperation id) s = .next u ∧ u.mm = s.mm ∧ tget u.ex.matOps id = none ∧
      ∀ j, getThread u j = (getThread s j).map fun t => if partOf id t then writeRow id (gridOf s { team := op.team, pc := 0 }) op t else t := by
  obtain ⟨n, hn⟩ := matrixOperation_oldest h ho
  exact ⟨_, hn, by rw [startEngine_mm]; rfl, startEngine_keeps_absent _ _ (hs.filter _) (tget_tdel_self _ _), fun j => by
    rw [getThread_startEngine, getThread_perf, getThread_rowsWritten]⟩

/-! INT32 accumulation. -/

theorem mapIdx_range {α : Type} (n : Nat) (f : Nat → Nat → α) : (List.range n).mapIdx f = (List.range n).map fun i => f i i :=
  List.ext_getElem (by simp) (by simp)

/-- Under INT32 accumulation an element is the wrapped sum of C and the exact products (R42, R166). -/
theorem macElem_int32 (g : Grid) (k : Nat) {x : Nat} (aw mask bw : List Word) (c : Word) (h : slotAcc x = 1) :
    macElem g k x false aw mask bw c =
      BitVec.ofInt 32 (c.toInt + ((List.range (kExtent x)).map fun i => sext (elemAt aw 8 i) 8 * sext (elemAt bw 8 i) 8).sum) := by
  have hp : (positions x false mask).take (usedSlots x false) = List.range (kExtent x) :=
    List.take_of_length_le (by simp [positions, usedSlots])
  simp only [macElem, hp, h, if_true, mapIdx_range]

end Sys2Proof.Machine

section
open Sys2Proof Sys2Proof.Machine

/-- Settles O44: the event by `matrixOperation_writes`, a participant's thread by `writeRow_writes`, INT32 accumulation by `macElem_int32`. -/
theorem matrixOperationWrites : Obligations.MatrixOperationWrites := by
  refine ⟨fun s id op h ho hs hf => ?_, fun g k x aw mask bw c hx => macElem_int32 g k aw mask bw c hx⟩
  obtain ⟨u, hu, hmm, hgone, hth⟩ := matrixOperation_writes h ho hs
  refine ⟨u, hu, hmm, hgone, fun j t ht hno => ?_, fun j t ht hop => ?_⟩
  · have hp : partOf id t = false := Bool.eq_false_iff.2 fun hp => by
      obtain ⟨o, hm, hk⟩ := partOf_iff.1 hp
      exact hno o hm hk
    rw [hth, ht]
    simp [hp]
  · refine ⟨_, ?_, writeRow_writes id (gridOf s { team := op.team, pc := 0 }) op (hf _ (mem_of_tget ht))⟩
    rw [hth, ht]
    simp [partOf_iff.2 hop]

end

/-! O4: the faults of a word before its effect, and which temporaries are defined (spec/03_encoding.md, R51, R54, R56 to R59). -/

namespace Sys2Proof.Machine

/-! A word of code as memory holds it. -/

/-- The bytes of a word, lowest first, make its value (R6). -/
theorem wordOfBytes_eq_ofNat (b0 b1 b2 b3 : Byte) : wordOfBytes b0 b1 b2 b3 = BitVec.ofNat 32 (leNat [b0, b1, b2, b3]) := by
  apply BitVec.eq_of_toNat_eq
  have h0 := b0.isLt
  have h1 := b1.isLt
  have h2 := b2.isLt
  have h3 := b3.isLt
  have or_add (x : Nat) {y : Nat} (hy : y < 2 ^ 8) : x <<< 8 ||| y = x * 256 + y := by
    rw [← Nat.shiftLeft_add_eq_or_of_lt hy, Nat.shiftLeft_eq]
  simp only [wordOfBytes, BitVec.toNat_append, or_add _ h0, or_add _ h1, or_add _ h2, leNat, BitVec.toNat_ofNat]
  omega

/-- Decoding the four bytes at an address is decoding their word. -/
theorem decode_mread (m : Mem) (a : Nat) : decode (mread m a 4) = (decodeWord (BitVec.ofNat 32 (leNat (mread m a 4)))).map (·, []) := by
  change (decodeWord (wordOfBytes _ _ _ _)).map _ = _
  rw [wordOfBytes_eq_ofNat]
  rfl

/-- Four bytes that are no word of the map are none as fetch reads them. -/
theorem decodeWord_codeWord_error {s : State} {l : Leaf} {pa : Nat} {e : DecodeError} (hz : l.zf = false)
    (h : decode (mread s.mm.mem pa 4) = .error e) : decodeWord (codeWord s l pa) = .error e := by
  rw [decode_mread] at h
  simp only [codeWord, hz, Bool.false_eq_true, if_false]
  revert h
  cases decodeWord (BitVec.ofNat 32 (leNat (mread s.mm.mem pa 4))) <;> simp [Except.map]

/-! Fetching a reserved word. -/

/-- A word of code read from memory, which the core then holds (R181, R188). -/
theorem fetchWord_memory {s : State} {k : Nat} {t : Thread} {pc : Word} {l : Leaf} (hva : codeAddr (gridOf s t) pc < 2 ^ 57)
    (hx : xlate s k t .fetch (gridOf s t).asid (codeAddr (gridOf s t) pc) = .ok l) :
    let pa := l.frame + codeAddr (gridOf s t) pc % pageBytes l.size
    linePoison s pa = false → (isHost pa = true → hostPathOpen s = true) →
      fetchWord s k t pc none =
        .ok (codeWord s l pa) (holdCode (readHost s pa 4) (coreOf k) (codeLoc (gridOf s t) pc) (codeWord s l pa)) := by
  intro pa hp hh
  have hopen : (isHost pa && !hostPathOpen s) = false := by
    cases hi : isHost pa
    · rfl
    · simp [hh hi]
  unfold fetchWord
  simp only [if_neg (Nat.not_le.2 hva), hx, Option.bind_none]
  change (if (isHost pa && !hostPathOpen s) = true then Fetched.later else if linePoison s pa = true then .poison _ else _) = _
  rw [hopen, hp]
  rfl

/-- A reserved word ends the fetch with ILLEGAL_OP in every thread of the bundle (R57, R59). -/
theorem fetchSeq_reserved {port k : Nat} {t : Thread} {ks : List Nat} {s s' : State} {pc w : Word} {e : DecodeError} (n : Nat) (hs : List Hint)
    (hd : debugHit s (coreOf k) (gridOf s t) pc = false) (hf : fetchWord s k t pc none = .ok w s') (hw : decodeWord w = .error e) :
    fetchSeq port k t ks none (n + 1) s pc hs = .stop (faultAll s' ks 0x01 t.pc) := by
  simp [fetchSeq, hd, hf, hw]

/-- A port whose fetch ends without a word executes no instruction. -/
theorem issueMove_stop {s u : State} {core port k : Nat} {ks : List Nat} {t : Thread} (hm : mayIssue s = true) (hp : port ≠ stepPort)
    (hb : bundle s core port = k :: ks) (ht : getThread s k = some t) (hf : fetchSeq port k t (k :: ks) none 7 s t.pc [] = .stop u) :
    issueMove core port false s = .next u := by
  simp [issueMove, portUnit, hm, hb, ht, hf, hp]

/-! What the end of a step leaves. -/

/-- Memory stays, and of each thread at most its STATE and its serial mode change. -/
structure OnlyMarks (s u : State) : Prop where
  mm : u.mm = s.mm
  threads : ∀ k t, getThread s k = some t → ∃ st c d, getThread u k = some { t with st := st, serial := c, serialSeen := d }

theorem OnlyMarks.refl (s : State) : OnlyMarks s s := ⟨rfl, fun _ t h => ⟨t.st, t.serial, t.serialSeen, h⟩⟩

theorem OnlyMarks.trans {s u v : State} (h : OnlyMarks s u) (g : OnlyMarks u v) : OnlyMarks s v :=
  ⟨g.mm.trans h.mm, fun k t ht => by
    obtain ⟨_, _, _, hu⟩ := h.threads k t ht
    obtain ⟨st, c, d, hv⟩ := g.threads k _ hu
    exact ⟨st, c, d, hv⟩⟩

theorem OnlyMarks.foldl {α : Type} {f : State → α → State} (hf : ∀ s x, OnlyMarks s (f s x)) (l : List α) (s : State) :
    OnlyMarks s (l.foldl f s) := by
  induction l generalizing s with
  | nil => exact .refl s
  | cons x l ih => exact (hf s x).trans (ih _)

/-- A thread that leaves its bundle in another STATE. -/
theorem OnlyMarks.leaves (s : State) (j k : Nat) (x : TState) : OnlyMarks s (modThread (leaveBundle s j) k fun t => { t with st := x }) := by
  refine ⟨rfl, fun n t h => ?_⟩
  rw [getThread_modThread, getThread_leaveBundle, getThread_leaveBundle]
  split
  · rename_i hn
    exact ⟨x, t.serial, t.serialSeen, by rw [← hn, h]; rfl⟩
  · exact ⟨t.st, t.serial, t.serialSeen, h⟩

theorem markSerial_marks (team group : Nat) (b : Bool) (t : Thread) :
    ∃ c d, markSerial team group b t = { t with serial := c, serialSeen := d } := by
  unfold markSerial
  split
  · exact ⟨_, _, rfl⟩
  · exact ⟨t.serial, t.serialSeen, rfl⟩

theorem OnlyMarks.evalSerial (s : State) (team group : Nat) : OnlyMarks s (evalSerial s team group) := by
  unfold Machine.evalSerial
  dsimp only
  split
  · exact .refl s
  · refine ⟨by split <;> rfl, fun k t h => ?_⟩
    obtain ⟨c, d, hm⟩ := markSerial_marks team group (serialCond (groupMates s team group)) t
    have hk := tget_map s.ex.threads (markSerial team group (serialCond (groupMates s team group))) k
    rw [show tget s.ex.threads k = some t from h, Option.map_some, hm] at hk
    exact ⟨t.st, c, d, by split <;> exact hk⟩

/-- Debug stops and serial mode are all that the end of a step changes (R332, R337). -/
theorem OnlyMarks.settleSerial (b s : State) : OnlyMarks s (settleSerial b s) :=
  OnlyMarks.trans (.foldl (fun s (e : Nat × Thread) => .leaves s e.1 e.1 .stopped) _ s) (.foldl (fun s (e : Nat × Nat) => .evalSerial s e.1 e.2) _ _)

/-! Taking a fault. -/

/-- What every lane of a list leaves as it was stays. -/
theorem laneLoop_keeps {α : Type} {p : State → α} {f : State → Nat → State} (hf : ∀ s k, p (f s k) = p s) (ks : List Nat) (s : State) :
    p (laneLoop f s ks) = p s := by
  induction ks generalizing s with
  | nil => rfl
  | cons k ks ih => exact (ih _).trans (hf s k)

@[simp] theorem deliver_mm (s : State) (k code addr : Nat) (fpc : Word) : (deliver s k code addr fpc).mm = s.mm := by
  unfold deliver
  split
  · rfl
  · dsimp only
    split <;> rfl

@[simp] theorem faultAll_mm (s : State) (ks : List Nat) (code : Nat) (fpc : Word) : (faultAll s ks code fpc).mm = s.mm :=
  laneLoop_keeps (p := State.mm) (fun _ _ => deliver_mm _ _ _ _ _) ks s

@[simp] theorem holdCode_mm (s : State) (core loc : Nat) (w : Word) : (holdCode s core loc w).mm = s.mm := rfl
@[simp] theorem getThread_holdCode (s : State) (core loc : Nat) (w : Word) (k : Nat) : getThread (holdCode s core loc w) k = getThread s k := rfl

theorem getThread_readHost (s : State) (pa n k : Nat) : getThread (readHost s pa n) k = getThread s k := by
  unfold readHost; split <;> rfl

@[simp] theorem abortTx_regs (t : Thread) (n : Nat) : (abortTx t n).regs = t.regs := by unfold abortTx; split <;> rfl
@[simp] theorem abortTx_preds (t : Thread) (n : Nat) : (abortTx t n).preds = t.preds := by unfold abortTx; split <;> rfl

/-- The thread that takes a fault: FCODE and FPC are the fault's, registers and predicates stay (R86, R379 to R382). -/
theorem getThread_deliver {s : State} {k : Nat} {t : Thread} (code addr : Nat) (fpc : Word) (h : getThread s k = some t) :
    ∃ x, getThread (deliver s k code addr fpc) k = some x ∧ x.fcode = BitVec.ofNat 32 (faultClass code * 256 + code) ∧ x.fpc = fpc ∧
      x.regs = t.regs ∧ x.preds = t.preds := by
  unfold deliver
  simp only [h]
  split
  · rename_i hh
    have hc : faultClass code = 1 := by
      simp only [toHandler, Bool.and_eq_true, beq_iff_eq] at hh
      exact hh.1.1.1
    refine ⟨_, (getThread_setThread _ _ _ _).trans (if_pos rfl), ?_⟩
    simp [deliverToHandler, faultRegs, hc]
  · refine ⟨_, (getThread_setThread _ _ _ _).trans (if_pos rfl), ?_⟩
    simp [faultRegs]

/-! The checks before any lane. -/

/-- A hint of a kind that the word does not take (R56). -/
theorem hintsOk_of_foreign {w : WordSpec} {hs : List Hint} (n : Nat) {h : Hint} (hh : h ∈ hs) (h5 : h.kind ≠ 5) (hw : h.kind.toNat ∉ w.hints) :
    hintsOk w n hs = false := by
  have : hs.all (fun h => (h.kind == 5 || w.hints.contains h.kind.toNat) && payloadOk w.rnd7 h) = false :=
    List.all_eq_false.2 ⟨h, hh, by rw [beq_eq_false_iff_ne.2 h5]; simp [hw]⟩
  rw [hintsOk, this, Bool.and_false, Bool.false_and, Bool.false_and]

/-- The want of a hint that the word requires (R56). -/
theorem hintsOk_of_missing {w : WordSpec} {hs : List Hint} (n : Nat) {m : Nat} (hm : m ∈ w.needs) (hh : ∀ h ∈ hs, h.kind.toNat ≠ m) :
    hintsOk w n hs = false := by
  have : w.needs.all (fun n => hs.any fun h => h.kind.toNat == n) = false :=
    List.all_eq_false.2 ⟨m, hm, by simpa using hh⟩
  rw [hintsOk, this, Bool.and_false, Bool.false_and]

/-- No hint is needed where the word requires none. -/
theorem hintsOk_nil {w : WordSpec} (n : Nat) (h : w.needs = []) : hintsOk w n [] = true := by simp [hintsOk, h]

/-- A register at or above the count that is no temporary, and one that its span's alignment does not allow (R49, R58). -/
theorem checkSpan_of_outside {c : Nat} {x : Nat × Nat × Nat} (h : x.1 % x.2.2 ≠ 0 ∨ (x.1 < 120 ∧ c < x.1 + x.2.1)) : checkSpan c x = false := by
  rcases h with h | ⟨h1, h2⟩
  · simp [checkSpan, h]
  · simp [checkSpan, h1, Nat.not_le.2 h2]

/-- The hint sequence is checked first (R54, R57). -/
theorem prelude_illegal_hint {w : WordSpec} {s : State} {x : Issue} {t : Thread} {ts : List Thread} (hc : s.cur = some x)
    (ht : (bundle s x.core x.port).filterMap (getThread s) = t :: ts) (hh : hintsOk w t.runPos x.hints = false) :
    prelude w s = .refuse { core := x.core, port := x.port, hints := x.hints, fpc := x.fpc } 0x02 (bundle s x.core x.port) := by
  simp [prelude, hc, ht, hh]

/-- The spans are checked after it (R57, R58). -/
theorem prelude_reg_range {w : WordSpec} {s : State} {x : Issue} {t : Thread} {ts : List Thread} (hc : s.cur = some x)
    (ht : (bundle s x.core x.port).filterMap (getThread s) = t :: ts) (hh : hintsOk w t.runPos x.hints = true)
    {y : Nat × Nat × Nat} (hy : y ∈ w.spans) (hr : checkSpan (gridOf s t).regs y = false) :
    prelude w s = .refuse { core := x.core, port := x.port, hints := x.hints, fpc := x.fpc } 0x05 (bundle s x.core x.port) := by
  have hs : w.spans.all (checkSpan (gridOf s t).regs) = false := List.all_eq_false.2 ⟨y, hy, by simp [hr]⟩
  simp [prelude, hc, ht, hh, hs]

/-- A refused word is a fault of every thread of the bundle (R57). -/
theorem issueGo_refuse {w : WordSpec} {s : State} {c : Ctx} {code : Nat} {ks : List Nat} (go : Ctx → List Nat → State → State)
    (h : prelude w s = .refuse c code ks) : issueGo w go s = .next (done (faultAll s ks code c.fpc)) := by
  simp only [issueGo, h]

/-- A word with a wrong hint sequence is ILLEGAL_HINT in every thread of the bundle (R54, R57). -/
theorem issueGo_illegal_hint {w : WordSpec} {s : State} {x : Issue} (go : Ctx → List Nat → State → State) (hc : s.cur = some x)
    (hb : (bundle s x.core x.port).filterMap (getThread s) ≠ []) (hh : ∀ n, hintsOk w n x.hints = false) :
    issueGo w go s = .next (done (faultAll s (bundle s x.core x.port) 0x02 x.fpc)) := by
  obtain ⟨t, ts, ht⟩ := List.exists_cons_of_ne_nil hb
  exact issueGo_refuse go (prelude_illegal_hint hc ht (hh _))

/-- A register word with a wrong hint sequence (R54, R57). -/
theorem regWord_illegal_hint {w : WordSpec} {s : State} {x : Issue} (f : LaneFn) (hc : s.cur = some x)
    (hb : (bundle s x.core x.port).filterMap (getThread s) ≠ []) (hh : ∀ n, hintsOk w n x.hints = false) :
    regWord w f s = .next (done (faultAll s (bundle s x.core x.port) 0x02 x.fpc)) := by
  unfold regWord issueWord
  exact issueGo_illegal_hint _ hc hb hh

/-- A register word without hints one of whose registers does not stand is REG_RANGE in every thread of the bundle (R57, R58). -/
theorem regWord_reg_range {w : WordSpec} {s : State} {x : Issue} {t : Thread} {ts : List Thread} (f : LaneFn)
    (hc : s.cur = some x) (ht : (bundle s x.core x.port).filterMap (getThread s) = t :: ts) (hh : x.hints = []) (hn : w.needs = [])
    {y : Nat × Nat × Nat} (hy : y ∈ w.spans) (hr : checkSpan (gridOf s t).regs y = false) :
    regWord w f s = .next (done (faultAll s (bundle s x.core x.port) 0x05 x.fpc)) := by
  unfold regWord issueWord
  exact issueGo_refuse _ (prelude_reg_range hc ht (hh ▸ hintsOk_nil _ hn) hy hr)

/-! The checks in a lane. -/

/-- A temporary that the word uses, that nothing has written in its run and for which no denied value waits (R51). -/
theorem tempUndef_of_unwritten {w : WordSpec} {t : Thread} {n : Nat} (hu : n ∈ w.uses) (hn : 120 ≤ n) (hv : tget t.tvalid n ≠ some true)
    (hb : t.bad.any (Bad.covers t n) = false) : tempUndef w t = true := by
  have hd : (tget t.tvalid n).getD false = false := by
    cases h : tget t.tvalid n with
    | none => rfl
    | some b => cases b with
      | false => rfl
      | true => exact absurd h hv
  exact List.any_eq_true.2 ⟨n, hu, by simp [hn, hd, hb]⟩

/-- A register word whose bundle goes on: TEMP_UNDEF comes before FORMAT_SLOT, each in its lane (R41, R51, R57). -/
theorem regWord_lane_faults {w : WordSpec} (f : LaneFn) {s : State} {c : Ctx} {ks : List Nat} (h : prelude w s = .go c ks) :
    ∃ g : State → Nat → State, regWord w f s = .next (done (laneLoop g s ks)) ∧
      ∀ u k t, getThread u k = some t → readPred t w.guard = true →
        (tempUndef w t = true → g u k = deliver u k 0x03 0 c.fpc) ∧
        (tempUndef w t = false → w.slotOk (gridOf u t) = false → g u k = deliver u k 0x10 0 c.fpc) := by
  refine ⟨_, by simp only [regWord, issueWord, issueGo, h]; rfl, fun u k t ht hg => ⟨fun hu => ?_, fun hu hs => ?_⟩⟩
  · simp [laneStep, ht, hg, hu]
  · simp [laneStep, ht, hg, hu, hs]

/-! Which temporaries are defined. -/

/-- A register written defines itself where it is a temporary, and no other (R51). -/
theorem tget_tvalid_writeReg (t : Thread) (d n : Nat) (x : Word) :
    tget (writeReg t d x).tvalid n = if n = d ∧ 120 ≤ n then some true else tget t.tvalid n := by
  unfold writeReg
  by_cases hd : 120 ≤ d
  · by_cases hn : n = d <;> simp [hd, hn, tget_tset]
  · simp only [if_neg hd]
    rw [if_neg]
    omega

/-- The end of a run leaves no temporary defined (R51, R52). -/
theorem tget_tvalid_finish {w : WordSpec} (he : w.ends = false) (c : Ctx) (t : Thread) (n : Nat) :
    tget (finish w c t).tvalid n = if Config.runWords ≤ t.runPos + c.words then none else tget t.tvalid n := by
  simp only [finish, he, Bool.false_eq_true, false_or]
  split <;> rfl

@[simp] theorem schedQuiet_tvalid (s : State) (c : Ctx) (t : Thread) : (schedQuiet s c t).tvalid = t.tvalid := by rw [schedQuiet_eq]
@[simp] theorem schedQuiet_runPos (s : State) (c : Ctx) (t : Thread) : (schedQuiet s c t).runPos = t.runPos := by rw [schedQuiet_eq]

/-- A register word in a bundle of one lane that executes it, whose effect depends on the thread alone. -/
theorem regWord_alone {w : WordSpec} {f : LaneFn} {s : State} {c : Ctx} {k : Nat} {t : Thread} {g : Thread → Thread} (h : Issues w c [k] s)
    (ht : getThread s k = some t) (hf : ∀ s' t, f c s' t = .ok (g t)) :
    ∃ u, regWord w f s = .next u ∧ getThread u k = some (finish w c (g (schedQuiet s c t))) := by
  obtain ⟨u, hu, -, -, hmine, -⟩ := regWord_runs (f := f) (fun t => g (schedQuiet s c t)) h fun t s' ho => by
    rw [hf, schedQuiet, schedQuiet, ho.bd]
  exact ⟨u, hu, hmine k List.mem_cons_self t ht⟩

/-- A step whose fetch finds a reserved word: ILLEGAL_OP in every thread of the bundle, and no instruction (R57, R59). -/
theorem step_reserved {s : State} {rest : List Move} {core port k : Nat} {ks : List Nat} {t : Thread} {l : Leaf} {e : DecodeError}
    (ha : s.agenda = .issue core port false :: rest) (hm : mayIssue s = true) (hp : port < 4) (hb : bundle s core port = k :: ks)
    (ht : getThread s k = some t) (hd : debugHit s (coreOf k) (gridOf s t) t.pc = false) (hva : codeAddr (gridOf s t) t.pc < 2 ^ 57) :
    let s0 : State := { s with agenda := rest }
    let va := codeAddr (gridOf s t) t.pc
    let pa := l.frame + va % pageBytes l.size
    xlate s0 k t .fetch (gridOf s t).asid va = .ok l → l.zf = false → linePoison s pa = false → (isHost pa = true → hostPathOpen s = true) →
    decode (mread s.mm.mem pa 4) = .error e →
    step s = .next (settleSerial s0 (faultAll (holdCode (readHost s0 pa 4) (coreOf k) (codeLoc (gridOf s t) t.pc) (codeWord s l pa)) (k :: ks) 0x01 t.pc)) := by
  intro s0 va pa hx hz hl hh he
  have hf : fetchWord s0 k t t.pc none =
      .ok (codeWord s0 l pa) (holdCode (readHost s0 pa 4) (coreOf k) (codeLoc (gridOf s0 t) t.pc) (codeWord s0 l pa)) :=
    fetchWord_memory (s := s0) hva hx hl hh
  have hi := issueMove_stop (s := s0) (core := core) hm (by unfold stepPort; omega) hb ht
    (fetchSeq_reserved (port := port) (ks := k :: ks) 6 [] hd hf (decodeWord_codeWord_error (s := s0) hz he))
  simp only [step, nextMove, ha, runMove, partMove]
  exact congrArg (mapNext (settleSerial s0)) hi

/-- The thread of a reserved word that is alone in its bundle, once the step is over. -/
theorem getThread_reserved {s b : State} {k : Nat} {t : Thread} (pc : Word) (h : getThread s k = some t) :
    ∃ x, getThread (settleSerial b (faultAll s [k] 0x01 pc)) k = some x ∧ x.fcode = 0x101 ∧ x.fpc = pc ∧ x.regs = t.regs ∧ x.preds = t.preds := by
  obtain ⟨x, hx, hc, hp, hr, hq⟩ := getThread_deliver 0x01 0 pc h
  obtain ⟨st, c, d, hu⟩ := (OnlyMarks.settleSerial b (faultAll s [k] 0x01 pc)).threads k x hx
  exact ⟨_, hu, hc, hp, hr, hq⟩

/-! The words that the clauses name. -/

theorem exec_iadd (m : SatMode) (d a b : Reg) (s : State) :
    exec (.iadd m d a b) s = regWord (opSpec [sp1 a, sp1 b] [sp1 d]) (fun _ _ t => put t d (iaddVal m (rd t a) (rd t b))) s := rfl

theorem exec_add64 (d a b : Reg) (s : State) :
    exec (.add64 d a b) s = regWord (opSpec [sp2 a, sp2 b] [sp2 d]) (fun _ _ t => putPair t d (wrap (rdPair t a + rdPair t b : Nat) 64)) s := rfl

theorem exec_cvtn (n : BitVec 3) (d a b : Reg) (s : State) :
    exec (.cvtn n d a b) s = regWord { opSpec [sp1 a, sp1 b] [sp1 d] with hints := [4], slotOk := cvtSlot n }
      (fun c s t => put t d (cvtnVal ((gridOf s t).slot n.toNat) (hintRm c) (hintSat c) (rd t a) (rd t b))) s := rfl

theorem exec_cld (d a : Reg) (s : State) :
    exec (.cld d a) s = peerWord { opSpec [sp1 a] [sp1 d] with hints := [2], needs := [2], adds := [(.ld, 1)] } .ld [d.toNat] a false
      (fun _ team o => .peerLoad team o) s := rfl

end Sys2Proof.Machine

section
open Sys2Proof Sys2Proof.Machine

/-- Settles O4: the reserved word by `step_reserved`; a wrong hint sequence by `regWord_illegal_hint` and `issueGo_illegal_hint`, a register that does not stand by
`regWord_reg_range`; TEMP_UNDEF and FORMAT_SLOT by `regWord_lane_faults`; the temporaries by `regWord_alone`. -/
theorem reservedWordFaults : Obligations.ReservedWordFaults := by
  refine ⟨?reserved, ?hint, ?route, ?range, ?pair, ?undef, ?slot, ?defines, ?compare⟩
  case reserved =>
    intro s rest core port ks k t l e ha hm hp hb ht hd hva s0 va pa hx hz hl hh he
    refine ⟨_, step_reserved ha hm hp hb ht hd hva hx hz hl hh he, rfl, ?_, ?_⟩
    · rw [(OnlyMarks.settleSerial _ _).mm, faultAll_mm, holdCode_mm, readHost_mm]
    · rintro rfl
      refine getThread_reserved t.pc ?_
      rw [getThread_holdCode, getThread_readHost]
      exact ht
  case hint =>
    rintro m d a b s x hc hb ⟨h, hh, h5⟩
    rw [exec_iadd]
    refine regWord_illegal_hint _ hc hb fun n => hintsOk_of_foreign n hh h5 ?_
    exact List.not_mem_nil
  case route =>
    intro d a s x hc hb hh
    rw [exec_cld]
    exact issueGo_illegal_hint _ hc hb fun n => hintsOk_of_missing n List.mem_cons_self fun h hm he => hh h hm (BitVec.eq_of_toNat_eq he)
  case range =>
    rintro m d a b s x t ts hc ht hh hr ⟨r, hm, hlo, hhi⟩
    have hy : sp1 r ∈ (opSpec [sp1 a, sp1 b] [sp1 d]).spans := by
      simp only [List.mem_cons, List.not_mem_nil, or_false] at hm
      rcases hm with rfl | rfl | rfl <;> simp [opSpec]
    rw [exec_iadd]
    exact regWord_reg_range _ hc ht hh rfl hy (checkSpan_of_outside (.inr ⟨hhi, Nat.lt_succ_of_le hlo⟩))
  case pair =>
    rintro d a b s x t ts hc ht hh ⟨r, hm, hodd⟩
    have hy : sp2 r ∈ (opSpec [sp2 a, sp2 b] [sp2 d]).spans := by
      simp only [List.mem_cons, List.not_mem_nil, or_false] at hm
      rcases hm with rfl | rfl | rfl <;> simp [opSpec]
    rw [exec_add64]
    exact regWord_reg_range _ hc ht hh rfl hy (checkSpan_of_outside (.inl (hodd ▸ Nat.one_ne_zero)))
  case undef =>
    intro m d a b s c ks hp
    rw [exec_iadd]
    obtain ⟨g, hg, hl⟩ := regWord_lane_faults _ hp
    refine ⟨g, hg, fun u k t ht hr ⟨r, hm, hn, hv, hb⟩ => (hl u k t ht hr).1 (tempUndef_of_unwritten (n := r.toNat) ?_ hn hv hb)⟩
    exact List.mem_map_of_mem (f := BitVec.toNat) hm
  case slot =>
    intro n d a b s c ks w hp
    rw [exec_cvtn]
    obtain ⟨g, hg, hl⟩ := regWord_lane_faults _ hp
    exact ⟨g, hg, fun u k t ht hr => (hl u k t ht hr).2⟩
  case defines =>
    intro m d a b s c k t h ht
    obtain ⟨u, hu, hv⟩ := regWord_alone (f := fun _ _ t => put t d (iaddVal m (rd t a) (rd t b))) h ht fun _ _ => rfl
    refine ⟨u, _, hu, hv, fun n => ?_⟩
    rw [tget_tvalid_finish rfl, tget_tvalid_writeReg, writeReg_runPos, schedQuiet_runPos, schedQuiet_tvalid]
  case compare =>
    intro e pd pc a b s c k t h ht
    obtain ⟨u, hu, hv⟩ := regWord_alone
      (f := fun _ _ t => .ok (writePred t pd (condHolds e 32 (rd t a).toNat (rd t b).toNat && readPred t pc))) h ht fun _ _ => rfl
    refine ⟨u, _, hu, hv, fun n => ?_⟩
    rw [tget_tvalid_finish rfl, writePred_tvalid, writePred_runPos, schedQuiet_runPos, schedQuiet_tvalid]

end

/-! O1 and O2: the decoder reads back what the encoder writes (spec/03_encoding.md). -/

namespace Sys2Proof.Laws

/-- Every instruction that is well formed and has a word is read back from that word: each by the law of its own row of the map, and the
other steps have no word (R48, R59). -/
theorem encodes (i : Instr) : Encodes.Statement i := by
  cases i
  -- CLS 0x0 (R60)
  case iadd m d a b => exact Encodes.iadd m d a b
  case isub m d a b => exact Encodes.isub m d a b
  case imul m d a b => exact Encodes.imul m d a b
  case imin m d a b => exact Encodes.imin m d a b
  case imax m d a b => exact Encodes.imax m d a b
  case iabsd m d a b => exact Encodes.iabsd m d a b
  case and d a b => exact Encodes.and d a b
  case or d a b => exact Encodes.or d a b
  case xor d a b => exact Encodes.xor d a b
  case andn d a b => exact Encodes.andn d a b
  case shl d a b => exact Encodes.shl d a b
  case shr m d a b => exact Encodes.shr m d a b
  case rotl d a b => exact Encodes.rotl d a b
  case bcnt d a => exact Encodes.bcnt d a
  case clz d a => exact Encodes.clz d a
  case ctz d a => exact Encodes.ctz d a
  case bitrev d a => exact Encodes.bitrev d a
  case not d a => exact Encodes.not d a
  case fext m d a b => exact Encodes.fext m d a b
  case fins d a b => exact Encodes.fins d a b
  -- CLS 0x1 (R61, R62)
  case movi d imm => exact Encodes.movi d imm
  case iaddi d a imm => exact Encodes.iaddi d a imm
  case imuli d a imm => exact Encodes.imuli d a imm
  case andi d a imm => exact Encodes.andi d a imm
  case ori d a imm => exact Encodes.ori d a imm
  case xori d a imm => exact Encodes.xori d a imm
  case shli d a n => exact Encodes.shli d a n
  case shri d a n => exact Encodes.shri d a n
  case sari d a n => exact Encodes.sari d a n
  case add64i d a imm => exact Encodes.add64i d a imm
  case add64 d a b => exact Encodes.add64 d a b
  case lea64 sh d a b => exact Encodes.lea64 sh d a b
  case sub64 d a b => exact Encodes.sub64 d a b
  case mov m d a => exact Encodes.mov m d a
  case movsr d n => exact Encodes.movsr d n
  case movl d n => exact Encodes.movl d n
  -- CLS 0x2 (R63)
  case fadd m d a b => exact Encodes.fadd m d a b
  case fsub m d a b => exact Encodes.fsub m d a b
  case fmul m d a b => exact Encodes.fmul m d a b
  case fmin m d a b => exact Encodes.fmin m d a b
  case fmax m d a b => exact Encodes.fmax m d a b
  case fdiv m d a b => exact Encodes.fdiv m d a b
  case fabs d a => exact Encodes.fabs d a
  case fneg d a => exact Encodes.fneg d a
  case fsat d a => exact Encodes.fsat d a
  case ffrac d a => exact Encodes.ffrac d a
  case fround m d a => exact Encodes.fround m d a
  case fcopys d a b => exact Encodes.fcopys d a b
  case fldx m d a b => exact Encodes.fldx m d a b
  case fkind d a => exact Encodes.fkind d a
  case padd m d a b => exact Encodes.padd m d a b
  case pmul m d a b => exact Encodes.pmul m d a b
  case pmin m d a b => exact Encodes.pmin m d a b
  case pmax m d a b => exact Encodes.pmax m d a b
  case fdp2 m d a b => exact Encodes.fdp2 m d a b
  -- CLS 0x3 (R63)
  case fcvi m d a => exact Encodes.fcvi m d a
  case icvf m d a => exact Encodes.icvf m d a
  case pack16 m d a b => exact Encodes.pack16 m d a b
  case unpk16 m d a => exact Encodes.unpk16 m d a
  case cvtn k d a b => exact Encodes.cvtn k d a b
  case cvtw k d a b => exact Encodes.cvtw k d a b
  case unpk3 z m d a => exact Encodes.unpk3 z m d a
  case cbdec k d a => exact Encodes.cbdec k d a
  case recip d a => exact Encodes.recip d a
  case rroot d a => exact Encodes.rroot d a
  case sqrt d a => exact Encodes.sqrt d a
  case exp2 d a => exact Encodes.exp2 d a
  case log2 d a => exact Encodes.log2 d a
  case tanh d a => exact Encodes.tanh d a
  case sint d a => exact Encodes.sint d a
  case cost d a => exact Encodes.cost d a
  case icvi m d a => exact Encodes.icvi m d a
  case bsel d a b => exact Encodes.bsel d a b
  case dotb4 sat ua ub d a b => exact Encodes.dotb4 sat ua ub d a b
  case isgna d a b => exact Encodes.isgna d a b
  -- CLS 0x4 (R64)
  case shfl m d a b => exact Encodes.shfl m d a b
  case gpoll m d a => exact Encodes.gpoll m d a
  case ired m d a => exact Encodes.ired m d a
  case fred m d a => exact Encodes.fred m d a
  case iscan excl m d a => exact Encodes.iscan excl m d a
  case fscan excl m d a => exact Encodes.fscan excl m d a
  case peers d a => exact Encodes.peers d a
  case bcast d a b => exact Encodes.bcast d a b
  case leader d => exact Encodes.leader d
  case ddx m d a => exact Encodes.ddx m d a
  case gjoin => exact Encodes.gjoin
  case compact m d a b => exact Encodes.compact m d a b
  -- CLS 0x5 (R65)
  case icmp c pd pc a b => exact Encodes.icmp c pd pc a b
  case icmpi c pd pc a imm => exact Encodes.icmpi c pd pc a imm
  case fcmp c pd pc a b => exact Encodes.fcmp c pd pc a b
  case icmp64 c pd pc a b => exact Encodes.icmp64 c pd pc a b
  case pcomb m pd pc pa pb => exact Encodes.pcomb m pd pc pa pb
  case pget d => exact Encodes.pget d
  case pset a => exact Encodes.pset a
  case pick p d a b => exact Encodes.pick p d a b
  -- CLS 0x6 (R66)
  case ldN8 pg d a imm => exact Encodes.ldN8 pg d a imm
  case ldI8 pg d a imm => exact Encodes.ldI8 pg d a imm
  case ldN16 pg d a imm => exact Encodes.ldN16 pg d a imm
  case ldI16 pg d a imm => exact Encodes.ldI16 pg d a imm
  case ld32 pg d a imm => exact Encodes.ld32 pg d a imm
  case ld64 pg d a imm => exact Encodes.ld64 pg d a imm
  case ld128 pg d a imm => exact Encodes.ld128 pg d a imm
  case st8 pg d a imm => exact Encodes.st8 pg d a imm
  case st16 pg d a imm => exact Encodes.st16 pg d a imm
  case st32 pg d a imm => exact Encodes.st32 pg d a imm
  case st64 pg d a imm => exact Encodes.st64 pg d a imm
  case st128 pg d a imm => exact Encodes.st128 pg d a imm
  case lds32 pg d a imm => exact Encodes.lds32 pg d a imm
  case sts32 pg d a imm => exact Encodes.sts32 pg d a imm
  case lds128 pg d a imm => exact Encodes.lds128 pg d a imm
  case sts128 pg d a imm => exact Encodes.sts128 pg d a imm
  -- CLS 0x7 (R67)
  case atom m d a b => exact Encodes.atom m d a b
  case atom64 m d a b => exact Encodes.atom64 m d a b
  case atomf m d a b => exact Encodes.atomf m d a b
  case cas m d a b => exact Encodes.cas m d a b
  case radd m a b => exact Encodes.radd m a b
  case rflush m => exact Encodes.rflush m
  case chld m d a b => exact Encodes.chld m d a b
  case cld d a => exact Encodes.cld d a
  case cst a b => exact Encodes.cst a b
  case atoms m d a b => exact Encodes.atoms m d a b
  case tld m d a k => exact Encodes.tld m d a k
  case tst m d a k => exact Encodes.tst m d a k
  case tldf m d a k => exact Encodes.tldf m d a k
  case tstf d a k => exact Encodes.tstf d a k
  case tctlMap d a => exact Encodes.tctlMap d a
  case tctlFill k => exact Encodes.tctlFill k
  case tctlDrain k => exact Encodes.tctlDrain k
  case tctlFree k => exact Encodes.tctlFree k
  case tctlQuery d k => exact Encodes.tctlQuery d k
  case barwArrive d a => exact Encodes.barwArrive d a
  case barwWait a b => exact Encodes.barwWait a b
  case barwArriveWait d a => exact Encodes.barwArriveWait d a
  case barwInit a b => exact Encodes.barwInit a b
  -- CLS 0x8 (R68)
  case mma k d a b => exact Encodes.mma k d a b
  case mmaU k d a b => exact Encodes.mmaU k d a b
  case mmaSp k d a b => exact Encodes.mmaSp k d a b
  case mmaSpU k d a b => exact Encodes.mmaSpU k d a b
  case cmprs k d a => exact Encodes.cmprs k d a
  case spalpha d a b => exact Encodes.spalpha d a b
  case spblend d a b => exact Encodes.spblend d a b
  case keypk d a b => exact Encodes.keypk d a b
  case triedge d a b => exact Encodes.triedge d a b
  -- CLS 0x9 (R69), and the SYSOP words (R385)
  case wait ld st cp tl => exact Encodes.wait ld st cp tl
  case bar m => exact Encodes.bar m
  case job k a => exact Encodes.job k a
  case qpush d a b => exact Encodes.qpush d a b
  case txbegin => exact Encodes.txbegin
  case txcommit pd => exact Encodes.txcommit pd
  case txabort => exact Encodes.txabort
  case snapOpen => exact Encodes.snapOpen
  case snapClose => exact Encodes.snapClose
  case fence m => exact Encodes.fence m
  case trap n => exact Encodes.trap n
  case brkpt => exact Encodes.brkpt
  case yield => exact Encodes.yield
  case stop => exact Encodes.stop
  case iflush m => exact Encodes.iflush m
  case thrclr a d => exact Encodes.thrclr a d
  case thread a d => exact Encodes.thread a d
  case gridend a d => exact Encodes.gridend a d
  case agemax a d => exact Encodes.agemax a d
  case laurelsz a d => exact Encodes.laurelsz a d
  case migth a d => exact Encodes.migth a d
  case frameadd a d => exact Encodes.frameadd a d
  case migrate a d => exact Encodes.migrate a d
  case root a d => exact Encodes.root a d
  case inval a d => exact Encodes.inval a d
  case replay a d => exact Encodes.replay a d
  case ringset a d => exact Encodes.ringset a d
  case queue a d => exact Encodes.queue a d
  case release a d => exact Encodes.release a d
  case qpopen a d => exact Encodes.qpopen a d
  case cgroup a d => exact Encodes.cgroup a d
  case pkgset a d => exact Encodes.pkgset a d
  case exportPage a d => exact Encodes.exportPage a d
  case retire a d => exact Encodes.retire a d
  case dbgmatch a d => exact Encodes.dbgmatch a d
  case teamstop a d => exact Encodes.teamstop a d
  case debug a d => exact Encodes.debug a d
  case preempt a d => exact Encodes.preempt a d
  case restore a d => exact Encodes.restore a d
  case boxread a d => exact Encodes.boxread a d
  -- CLS 0xA (R70)
  case prep bt imm => exact Encodes.prep bt imm
  case prepr bt a => exact Encodes.prepr bt a
  case xfer bt ps neg => exact Encodes.xfer bt ps neg
  case xferCall bt ps neg => exact Encodes.xferCall bt ps neg
  case xferRet bt ps neg => exact Encodes.xferRet bt ps neg
  case bcopy bt bs => exact Encodes.bcopy bt bs
  case bload bt a => exact Encodes.bload bt a
  case binv bt => exact Encodes.binv bt
  case xdec bt a => exact Encodes.xdec bt a
  -- CLS 0xC, 0xD and 0xE (R71)
  case imad d a b c => exact Encodes.imad d a b c
  case fmac d a b c => exact Encodes.fmac d a b c
  case pmac d a b c => exact Encodes.pmac d a b c
  -- The steps that are no word of code
  all_goals exact encodes_of_none rfl

/-- The word that the encoder writes for an instruction decodes to it. -/
theorem decode_of_encode {i : Instr} {w : BitVec 32} (h : encode i = some w) (hi : i.WellFormed) :
    decode (bytesOfWord w) = .ok (.instr i, []) := by
  simpa using encodes i hi w h []

end Sys2Proof.Laws

section
open Sys2Proof Sys2Proof.Laws

/-- Settles O1: by `encodes`, which puts the laws of the rows together. -/
theorem decodingReadsBackEncoding : Obligations.DecodingReadsBackEncoding := encodes

/-- Settles O2: each word is the one that the encoder writes for its instruction, and so decodes to it by `decode_of_encode`; XFER is
well formed there because its PS is not p0. -/
theorem wordsOfTheMap : Obligations.WordsOfTheMap := by
  unfold Obligations.WordsOfTheMap
  and_intros
  all_goals
    refine decode_of_encode rfl ?_
    simp [Instr.WellFormed]

end

/-! O12, O15 and O16: immediates, compares and predicate logic (spec/05_integer.md, spec/06_float.md). -/

namespace Sys2Proof.Machine

/-! Words that write one register. -/

theorem exec_movi (d : Reg) (imm : BitVec 10) (s : State) :
    exec (.movi d imm) s = regWord { opSpec [] [sp1 d] with hints := [0] } (fun c _ t => put t d (imm32 c imm)) s := rfl

/-- A word of one source, Imm32 and one destination (R102). -/
theorem writesRegs_imm {i : Instr} {d a : Reg} {imm : BitVec 10} {f : Word → Word → Word} (he : ∀ s, exec i s = immWord d a imm f s) :
    WritesRegs { opSpec [sp1 a] [sp1 d] with hints := [0] } i fun c _ t => set1 t d (f (rd t a) (imm32 c imm)) :=
  writesRegs_put he fun _ _ _ _ _ => by rw [schedQuiet_eq]; rfl

/-- A word of two sources whose destination is a source too. -/
theorem writesRegs_binD {i : Instr} {d a b : Reg} {f : Word → Word → Word → Word}
    (he : ∀ s, exec i s = regWord (opSpecD [sp1 a, sp1 b] [sp1 d]) (fun _ _ t => put t d (f (rd t d) (rd t a) (rd t b))) s) :
    WritesRegs (opSpecD [sp1 a, sp1 b] [sp1 d]) i fun _ _ t => set1 t d (f (rd t d) (rd t a) (rd t b)) :=
  writesRegs_put he fun _ _ _ _ _ => by rw [schedQuiet_eq]; rfl

/-- Imm32: the hint's payload above IMM10, or the sign extension of IMM10 (R58). -/
theorem imm32_eq (c : Ctx) (imm : BitVec 10) : imm32 c imm = match c.hint 0 with
    | some h => BitVec.ofNat 22 h ++ imm
    | none => imm.signExtend 32 := by
  unfold imm32
  cases c.hint 0 with
  | none => rfl
  | some h =>
    apply BitVec.eq_of_toNat_eq
    have hi := imm.isLt
    rw [BitVec.toNat_append, ← Nat.shiftLeft_add_eq_or_of_lt hi, Nat.shiftLeft_eq, BitVec.toNat_ofNat, BitVec.toNat_ofNat]
    omega

/-- ISGNA: 0, the sign and the rest of a choose d, d - b and d + b (R145). -/
theorem isgnaVal_eq (d a b : Word) : isgnaVal d a b = if a = 0 then d else if a.toInt < 0 then d - b else d + b := by
  have h : a.getLsbD 31 = decide (a.toInt < 0) := (BitVec.msb_eq_getLsbD_last a).symm.trans BitVec.msb_eq_toInt
  simp only [isgnaVal, h, decide_eq_true_eq]

/-! Words that write predicates. -/

/-- A word that changes the predicates alone: what each lane reads in them afterwards is what `p` says, which does not look at QUIET. -/
theorem writesPreds_of {w : WordSpec} {i : Instr} {f : LaneFn} {g : Thread → Tab Bool} {p : Thread → PredIx → Bool}
    (he : ∀ s, exec i s = regWord w f s) (hf : ∀ c s t, f c s t = .ok { t with preds := g t })
    (hp : ∀ t q, readPred { t with preds := g t } q = p t q) (hq : ∀ t n, p { t with quiet := n } = p t) :
    WritesPreds w i fun _ _ t => p t := by
  intro s c ks h
  obtain ⟨u, h1, h2, h3, h4, h5⟩ := regWord_runs (f := f) (fun t => { schedQuiet s c t with preds := g (schedQuiet s c t) }) h
    fun t s' ho => by rw [hf, schedQuiet, schedQuiet, ho.bd]
  refine ⟨u, (he s).trans h1, h2, h3, fun k hk t ht => ⟨_, h4 k hk t ht, ?_⟩, h5⟩
  have e := schedQuiet_eq s c t
  generalize (schedQuiet s c t).quiet = n at e
  rw [e]
  have l := laneIs_finish (w := w) (c := c) (t := { t with preds := g { t with quiet := n } })
    (g := { t with quiet := n, preds := g { t with quiet := n } }) rfl rfl rfl rfl
  exact ⟨l.regs, fun q => (l.preds q).trans ((hp { t with quiet := n } q).trans (congrFun (hq t n) q)), l.bts, l.pc, l.rest⟩

/-- A write of a predicate changes the predicates alone. -/
theorem writePred_eq (t : Thread) (p : PredIx) (b : Bool) : writePred t p b = { t with preds := (writePred t p b).preds } := by
  unfold writePred; split <;> rfl

/-- A compare: PD reads as the condition AND PC, unless it is p0 (R110, R111, R112). -/
theorem writesPreds_cmp {i : Instr} {src : List (Nat × Nat × Nat)} {pd pc : PredIx} {f : Thread → Bool}
    (he : ∀ s, exec i s = cmpWord src pd pc f s) (hq : ∀ t n, f { t with quiet := n } = f t) :
    WritesPreds (opSpec src []) i fun _ _ t => fun q => if q = pd ∧ pd ≠ 0 then f t && readPred t pc else readPred t q := by
  refine writesPreds_of he (g := fun t => (writePred t pd (f t && readPred t pc)).preds) (fun _ _ t => by rw [← writePred_eq]) (fun t q => ?_)
    fun t n => by rw [hq]; rfl
  rw [← writePred_eq, readPred_writePred]

/-! The conditions of the integer compares. -/

/-- A word read as two's complement (R45). -/
theorem sext_toNat (x : Word) : sext x.toNat 32 = x.toInt := by
  have hx := x.isLt
  rw [BitVec.toInt_eq_toNat_cond, sext]
  simp only [Nat.mod_eq_of_lt hx]
  split <;> split <;> omega

/-- The conditions on two words (R110). -/
theorem condHolds_words (c : Cond) (x y : Word) : condHolds c 32 x.toNat y.toNat = match c with
    | .eq => decide (x = y) | .ne => decide (x ≠ y) | .ltI => x.slt y | .leI => x.sle y | .ltN => x.ult y | .leN => x.ule y
    | .gtI => y.slt x | .gtN => y.ult x := by
  cases c with
  | eq => simp [condHolds, BitVec.toNat_inj, beq_eq_decide]
  | ne => simp [condHolds, bne, BitVec.toNat_inj, beq_eq_decide]
  | ltI | leI | gtI => simp [condHolds, sext_toNat, BitVec.slt, BitVec.sle]
  | ltN | leN | gtN => simp [condHolds, BitVec.ult, BitVec.ule]

/-! PSET and PGET. -/

/-- The first `n` predicates written from the bits of a word. -/
def setPreds (x : Word) (n : Nat) (t : Thread) : Thread :=
  (List.range n).foldl (fun u k => writePred u (BitVec.ofNat 3 k) (x.getLsbD k)) t

theorem exec_pset (a : Reg) (s : State) : exec (.pset a) s = regWord (opSpec [sp1 a] []) (fun _ _ t => .ok (setPreds (rd t a) 8 t)) s := rfl

theorem setPreds_succ (x : Word) (n : Nat) (t : Thread) :
    setPreds x (n + 1) t = writePred (setPreds x n t) (BitVec.ofNat 3 n) (x.getLsbD n) := by
  simp [setPreds, List.range_succ]

theorem setPreds_eq (x : Word) (n : Nat) (t : Thread) : setPreds x n t = { t with preds := (setPreds x n t).preds } := by
  induction n with
  | zero => rfl
  | succ n ih => rw [setPreds_succ, writePred_eq, ih]

/-- Each predicate below `n` is the word's bit, but for p0 (R50, R113). -/
theorem readPred_setPreds (x : Word) {n : Nat} (hn : n ≤ 8) (t : Thread) (q : PredIx) :
    readPred (setPreds x n t) q = if q = 0 then true else if q.toNat < n then x.getLsbD q.toNat else readPred t q := by
  by_cases h0 : q = 0
  · rw [if_pos h0, h0]; rfl
  rw [if_neg h0]
  induction n with
  | zero => rfl
  | succ n ih =>
    have hq : q = BitVec.ofNat 3 n ↔ q.toNat = n := by rw [← BitVec.toNat_inj, BitVec.toNat_ofNat]; omega
    rw [setPreds_succ, readPred_writePred, ih (by omega)]
    by_cases hqn : q.toNat = n
    · rw [if_pos ⟨hq.2 hqn, hq.2 hqn ▸ h0⟩, hqn, if_pos n.lt_succ_self]
    · have hlt : q.toNat < n + 1 ↔ q.toNat < n := by omega
      rw [if_neg fun h => hqn (hq.1 h.1)]
      simp only [hlt]

/-- The bits of a number formed from bits. -/
theorem testBit_bitsNat (l : List Bool) (i : Nat) : (bitsNat l).testBit i = l[i]?.getD false := by
  induction l generalizing i with
  | nil => simp [bitsNat]
  | cons b l ih =>
    rw [bitsNat, Nat.add_comm, ← Nat.bit_val]
    cases i with
    | zero => simp
    | succ i => simp [Nat.testBit_bit_succ, ih]

/-- The word that PGET writes (R113). -/
def predWord (t : Thread) : Word := BitVec.ofNat 32 (bitsNat ((List.range 8).map fun k => readPred t (BitVec.ofNat 3 k)))

theorem exec_pget (d : Reg) (s : State) : exec (.pget d) s = regWord (opSpec [] [sp1 d]) (fun _ _ t => put t d (predWord t)) s := rfl

/-- Bits [7:0] are the predicates, and the rest is clear (R113). -/
theorem getLsbD_predWord (t : Thread) (i : Nat) : (predWord t).getLsbD i = (decide (i < 8) && readPred t (BitVec.ofNat 3 i)) := by
  rw [predWord, BitVec.getLsbD_ofNat, testBit_bitsNat]
  by_cases hi : i < 8
  · have h32 : i < 32 := by omega
    simp [hi, h32]
  · simp [hi]

end Sys2Proof.Machine

section
open Sys2Proof Sys2Proof.Machine

/-- Settles O12: every word by the lemma of its form (`writesRegs_imm`, `writesRegs_binD`), the immediate by `imm32_eq`. -/
theorem immediateResults : Obligations.ImmediateResults := by
  refine ⟨fun d imm => writesRegs_put (exec_movi d imm) fun _ _ _ _ _ => rfl, fun d a imm => writesRegs_imm fun _ => rfl,
    fun d a imm => writesRegs_imm fun _ => rfl, fun d a imm => writesRegs_imm fun _ => rfl, fun d a imm => writesRegs_imm fun _ => rfl,
    fun d a imm => writesRegs_imm fun _ => rfl, imm32_eq, fun d a b => writesRegs_binD fun _ => rfl,
    fun sat ua ub d a b => writesRegs_binD fun _ => rfl, fun d a b => ?isgna⟩
  case isgna =>
    simp only [← isgnaVal_eq]
    exact writesRegs_binD fun _ => rfl

/-- Settles O15: the words by `writesPreds_cmp`, the conditions by `condHolds_words`. -/
theorem compareWritesItsPredicate : Obligations.CompareWritesItsPredicate :=
  ⟨fun _ _ _ _ _ => writesPreds_cmp (fun _ => rfl) fun _ _ => rfl, fun _ _ _ _ _ => writesPreds_cmp (fun _ => rfl) fun _ _ => rfl,
    fun _ _ _ _ _ => writesPreds_cmp (fun _ => rfl) fun _ _ => rfl, fun _ _ _ _ _ => writesPreds_cmp (fun _ => rfl) fun _ _ => rfl,
    condHolds_words⟩

/-- Settles O16: PCOMB is a compare whose condition is its function (`writesPreds_cmp`), PSET by `readPred_setPreds`, PGET by
`getLsbD_predWord`. -/
theorem predicateLogicResults : Obligations.PredicateLogicResults := by
  refine ⟨fun m pd pc pa pb => ?pcomb, fun a => ?pset, fun d => ⟨predWord, getLsbD_predWord, ?pget⟩⟩
  case pcomb =>
    have h := writesPreds_cmp (i := .pcomb m pd pc pa pb) (src := []) (pd := pd) (pc := pc)
      (f := fun t => combine m (readPred t pa) (readPred t pb)) (fun _ => rfl) fun _ _ => rfl
    cases m <;> exact h
  case pset =>
    refine writesPreds_of (exec_pset a) (g := fun t => (setPreds (rd t a) 8 t).preds) (fun _ _ t => ?_) (fun t q => ?_) fun _ _ => rfl
    · rw [← setPreds_eq]
    · have hq : q.toNat < 8 := q.isLt
      simp [← setPreds_eq, readPred_setPreds, hq]
  case pget =>
    exact writesRegs_put (exec_pget d) fun _ _ _ _ _ => by rw [schedQuiet_eq]; rfl

end

/-! O3: a step runs the instruction whose bytes stand at the PC, or the event that comes next (spec/03_encoding.md, spec/09_transfer.md). -/

namespace Sys2Proof.Machine

/-! The move of the agenda. -/

/-- A step whose next move is a port's (R54, R332). -/
theorem step_issue {s : State} {core port : Nat} {held : Bool} {rest : List Move} (h : s.agenda = .issue core port held :: rest) :
    step s = mapNext (settleSerial { s with agenda := rest }) (issueMove core port held { s with agenda := rest }) := by
  simp only [step, nextMove, h, runMove, partMove]

/-- A step whose next move is a happening of the rest of the package (R332, R412). -/
theorem step_event {s : State} {i : Instr} {rest : List Move} (h : s.agenda = .event i :: rest) :
    step s = mapNext (settleSerial { s with agenda := rest }) (eventMove i { s with agenda := rest }) := by
  simp only [step, nextMove, h, runMove, partMove]

/-- A port whose fetch gives an instruction executes it as the one that it is issuing (R54, R188, R403). -/
theorem issueMove_run {s u : State} {core port k : Nat} {ks : List Nat} {t : Thread} {i : Instr} {hs : List Hint} (hm : mayIssue s = true)
    (hb : bundle s core port = k :: ks) (ht : getThread s k = some t) (hf : fetchSeq port k t (k :: ks) none 7 s t.pc [] = .run i hs u) :
    let s1 : State := { u with cur := some { core := core, port := port, hints := hs, fpc := t.pc } }
    issueMove core port false s = mapNext (afterUnit core port (hs.length + 1) s1) (exec i s1) := by
  simp [issueMove, portUnit, hm, hb, ht, hf]

/-! The words of a unit, one by one (R54, R188). -/

/-- The decoder reads from the four bytes at an address what it makes of the word of code there. -/
theorem decode_codeWord {s : State} {l : Leaf} (pa : Nat) (hz : l.zf = false) :
    decode (mread s.mm.mem pa 4) = (decodeWord (codeWord s l pa)).map (·, []) := by
  simp only [decode_mread, codeWord, hz, Bool.false_eq_true, if_false]

/-- Four bytes that are a word of the map are that word as fetch reads them. -/
theorem decodeWord_codeWord_ok {s : State} {l : Leaf} {pa : Nat} {x : CodeWord} (hz : l.zf = false)
    (h : decode (mread s.mm.mem pa 4) = .ok (x, [])) : decodeWord (codeWord s l pa) = .ok x := by
  rw [decode_codeWord pa hz] at h
  cases hd : decodeWord (codeWord s l pa) <;> simp_all [Except.map]

/-- A comparator that matches the word stops the bundle before it (R337). -/
theorem fetchSeq_debug {port k : Nat} {t : Thread} {ks : List Nat} {s : State} {pc : Word} (n : Nat) (hs : List Hint) (hp : port ≠ stepPort)
    (hd : debugHit s (coreOf k) (gridOf s t) pc = true) : fetchSeq port k t ks none (n + 1) s pc hs = .stop (debugMatch s ks) := by
  simp [fetchSeq, hp, hd]

/-- An instruction ends the unit. -/
theorem fetchSeq_instr {port k : Nat} {t : Thread} {ks : List Nat} {s u : State} {pc w : Word} {i : Instr} (n : Nat) (hs : List Hint)
    (hd : debugHit s (coreOf k) (gridOf s t) pc = false) (hf : fetchWord s k t pc none = .ok w u) (hw : decodeWord w = .ok (.instr i)) :
    fetchSeq port k t ks none (n + 1) s pc hs = .run i hs u := by
  simp [fetchSeq, hd, hf, hw]

/-- A hint is followed by the word after it. -/
theorem fetchSeq_hint {port k : Nat} {t : Thread} {ks : List Nat} {s u : State} {pc w : Word} {h : Hint} (n : Nat) (hs : List Hint)
    (hd : debugHit s (coreOf k) (gridOf s t) pc = false) (hf : fetchWord s k t pc none = .ok w u) (hw : decodeWord w = .ok (.hint h)) :
    fetchSeq port k t ks none (n + 1) s pc hs = fetchSeq port k t ks none n u (pc + 1) (hs ++ [h]) := by
  simp [fetchSeq, hd, hf, hw]

/-! What the read of one word of code leaves for the next. -/

/-- A read of host memory leaves a request of the host path, and counts (R308, R403). -/
theorem readHost_eq (s : State) (pa n : Nat) :
    ∃ p c, readHost s pa n = { s with fa := { s.fa with path := p }, bd := { s.bd with perf := c } } := by
  unfold readHost
  split
  · exact ⟨_, _, rfl⟩
  · exact ⟨_, _, rfl⟩

/-- The state in which a core has read a word of code from memory and holds it (R181, R188). -/
def readCode (s : State) (core loc pa : Nat) (w : Word) : State := holdCode (readHost s pa 4) core loc w

/-- A read of code moves no comparator. -/
theorem debugHit_readCode (s : State) (t : Thread) (k core loc pa : Nat) (w pc : Word) :
    debugHit (readCode s core loc pa w) k (gridOf (readCode s core loc pa w) t) pc = debugHit s k (gridOf s t) pc := by
  obtain ⟨p, c, h⟩ := readHost_eq s pa 4
  rw [readCode, h]
  rfl

/-- A word of code is read after another one as it would have been before it. -/
theorem fetchWord_readCode {s : State} {k : Nat} {t : Thread} {pc : Word} {l : Leaf} (core loc pa : Nat) (w : Word)
    (hva : codeAddr (gridOf s t) pc < 2 ^ 57) (hx : xlate s k t .fetch (gridOf s t).asid (codeAddr (gridOf s t) pc) = .ok l) :
    let pa2 := l.frame + codeAddr (gridOf s t) pc % pageBytes l.size
    linePoison s pa2 = false → (isHost pa2 = true → hostPathOpen s = true) →
      fetchWord (readCode s core loc pa w) k t pc none =
        .ok (codeWord s l pa2) (readCode (readCode s core loc pa w) (coreOf k) (codeLoc (gridOf s t) pc) pa2 (codeWord s l pa2)) := by
  intro pa2 hp hh
  obtain ⟨p, c, h⟩ := readHost_eq s pa 4
  simp only [readCode, h]
  exact fetchWord_memory (s := holdCode { s with fa := { s.fa with path := p }, bd := { s.bd with perf := c } } core loc w) hva hx hp hh

end Sys2Proof.Machine

section
open Sys2Proof Sys2Proof.Machine

/-- Settles O3: the move of the agenda by `step_event` and `step_issue`, and the words of a unit in turn by `fetchSeq_debug`,
`fetchSeq_hint` and `fetchSeq_instr`, the first read by `fetchWord_memory`, the second by `fetchWord_readCode`. -/
theorem stepRunsTheDecodedInstruction : Obligations.StepRunsTheDecodedInstruction := by
  refine ⟨?event, ?_⟩
  case event =>
    intro s rest i ha s0
    rw [step_event ha, eventMove]
    refine ⟨fun he => ?_, fun he => ?_⟩
    · rw [if_pos (show eventAllowed s0 i = true from he)]
    · rw [if_neg (show ¬ eventAllowed s0 i = true from Bool.eq_false_iff.1 he)]
      rfl
  intro s rest core port ks k t l ha hm hb ht hva s0
  rw [step_issue ha]
  refine ⟨fun hp hd => ?comparator, ?words⟩
  case comparator =>
    have hp4 : port ≠ stepPort := Nat.ne_of_lt hp
    rw [issueMove_stop (s := s0) hm hp4 hb ht (fetchSeq_debug 6 [] hp4 hd)]
    rfl
  case words =>
    intro va pa hd hx hz hl hh held
    have hf : fetchWord s0 k t t.pc none = .ok (codeWord s l pa) (held s0 pa t.pc) := fetchWord_memory (s := s0) hva hx hl hh
    refine ⟨?instr, ?hint⟩
    case instr =>
      intro i hi s1
      have hw := decodeWord_codeWord_ok (s := s) hz hi
      exact congrArg _ (issueMove_run (s := s0) hm hb ht (fetchSeq_instr 6 [] hd hf hw))
    case hint =>
      intro h i hi hva2 va2 pa2 hd2 hx2 hl2 hh2 hi2 s1
      have hw := decodeWord_codeWord_ok (s := s) hz hi
      have hw2 := decodeWord_codeWord_ok (s := s) hz hi2
      have hf2 : fetchWord (held s0 pa t.pc) k t (t.pc + 1) none = .ok (codeWord s l pa2) (held (held s0 pa t.pc) pa2 (t.pc + 1)) :=
        fetchWord_readCode (s := s0) _ _ _ _ hva2 hx2 hl2 hh2
      have hd2' : debugHit (held s0 pa t.pc) (coreOf k) (gridOf (held s0 pa t.pc) t) (t.pc + 1) = false :=
        (debugHit_readCode s0 t _ _ _ _ _ _).trans hd2
      have hseq := (fetchSeq_hint (port := port) (ks := k :: ks) (s := s0) 6 [] hd hf hw).trans (fetchSeq_instr 5 [h] hd2' hf2 hw2)
      exact congrArg _ (issueMove_run (s := s0) hm hb ht hseq)

end

/-! O21: MOVSR and MOVL (spec/04_registers.md, spec/05_integer.md). -/

namespace Sys2Proof.Machine

/-! What a read of a special register looks at. -/

/-- The grid of a thread is no other where only lanes have gone on. -/
theorem gridOf_of_only {s u : State} (h : OnlyLanes s u) (t : Thread) : gridOf u t = gridOf s t := by
  simp only [gridOf, h.teams, h.grids]

/-- No special register looks at what the lanes of a bundle change in the state. -/
theorem specialReg_of_only {s u : State} (h : OnlyLanes s u) (core : Nat) (t : Thread) (n : Nat) : specialReg u core t n = specialReg s core t n := by
  simp only [specialReg, corestat, gridOf_of_only h, h.teams, h.fa, h.bd, h.matNarrow]

/-- CORESTAT: bit 0 is the narrow mode of the matrix engines, bit 1 the thread's PREEMPTED (R85). -/
theorem corestat_eq (s : State) (core : Nat) (t : Thread) :
    corestat s core t = (if core ∈ s.ex.matNarrow then 1 else 0) + if t.preempted then 2 else 0 := by
  by_cases hm : core ∈ s.ex.matNarrow <;> cases hp : t.preempted <;> simp [corestat, bitsNat, hm, hp]

/-- The high halves that a read of CLOCKLO or PTSLO captures (R83). -/
def capture (s : State) (n : BitVec 10) (t : Thread) : Thread :=
  { t with capClk := if n = 10 then BitVec.ofNat 32 (s.bd.clock / 2 ^ 32) else t.capClk
           capPts := if n = 12 then BitVec.ofNat 32 (t.pts / 2 ^ 32) else t.capPts }

/-- The captures in the order in which MOVSR makes them. -/
theorem capture_eq (s : State) (n : BitVec 10) (t : Thread) : capture s n t =
    let t : Thread := if n = 10 then { t with capClk := BitVec.ofNat 32 (s.bd.clock / 2 ^ 32) } else t
    if n = 12 then { t with capPts := BitVec.ofNat 32 (t.pts / 2 ^ 32) } else t := by
  unfold capture
  split <;> split <;> rfl

/-- MOVSR writes the value that its register had before the capture (R83, R106). -/
theorem exec_movsr (d : Reg) (n : BitVec 10) (s : State) :
    exec (.movsr d n) s = regWord { opSpec [] [sp1 d] with order := n == 12 }
      (fun c s t => put (capture s n t) d (BitVec.ofNat 32 (specialReg s c.core t n.toNat))) s := by
  simp only [capture_eq]
  rfl

theorem exec_movl (d : Reg) (n : BitVec 6) (s : State) :
    exec (.movl d n) s = regWord (opSpec [] [sp1 d]) (fun _ s t => put t d (BitVec.ofNat 32 ((gridOf s t).word n.toNat))) s := rfl

/-- MOVSR in every lane of its bundle (R83, R106). -/
theorem movsr_runs (d : Reg) (n : BitVec 10) {s : State} {c : Ctx} {ks : List Nat} (h : Issues { opSpec [] [sp1 d] with order := n == 12 } c ks s) :
    ∃ u, exec (.movsr d n) s = .next u ∧ u.cur = none ∧ OnlyLanes s u ∧ Lanes ks s u fun t v =>
      LaneIs c (capture s n t) v (set1 t d (BitVec.ofNat 32 (specialReg s c.core t n.toNat))) (readPred t) (readBt t) := by
  obtain ⟨u, hu, hcur, ho, hmine, hothers⟩ := regWord_runs
    (f := fun c s t => put (capture s n t) d (BitVec.ofNat 32 (specialReg s c.core t n.toNat)))
    (fun t => writeReg (capture s n (schedQuiet s c t)) d.toNat (BitVec.ofNat 32 (specialReg s c.core (schedQuiet s c t) n.toNat))) h fun t s' ho => by
      simp only [put, schedQuiet, capture, specialReg_of_only ho, ho.bd]
  refine ⟨u, (exec_movsr d n s).trans hu, hcur, ho, fun k hk t ht => ⟨_, hmine k hk t ht, ?_⟩, hothers⟩
  rw [schedQuiet_eq]
  have l := laneIs_finish (w := { opSpec [] [sp1 d] with order := n == 12 }) (c := c) (t := capture s n t)
    (g := writeReg (capture s n { t with quiet := (schedQuiet s c t).quiet }) d.toNat (BitVec.ofNat 32 (specialReg s c.core t n.toNat))) rfl rfl rfl rfl
  refine ⟨fun m => (l.regs m).trans ?_, l.preds, l.bts, l.pc, l.rest⟩
  rw [readReg_writeReg, set1, Function.update_apply]
  rfl

end Sys2Proof.Machine

section
open Sys2Proof Sys2Proof.Machine

/-- Settles O21: MOVSR by `movsr_runs`, MOVL as a word that puts one value into one register, CORESTAT by `corestat_eq`; the other numbers
are the fields that `specialReg` names. -/
theorem specialRegisterReads : Obligations.SpecialRegisterReads := by
  refine ⟨fun d n s c ks h _ => movsr_runs d n h, fun _ _ _ => rfl, fun d n => ?movl, fun _ _ _ => rfl, fun s core t => ?corestat,
    fun s core t tm htm => ?team⟩
  case movl =>
    refine writesRegs_put (exec_movl d n) fun c s s' t ho => ?_
    rw [gridOf_of_only ho, schedQuiet_eq]
    rfl
  case corestat =>
    rw [← corestat_eq]
    rfl
  case team =>
    simp only [specialReg, htm, Option.map_some, Option.getD_some, Nat.mul_comm, and_self]

end

/-! O25 and O26: a fault is delivered to the user handler or to the supervisor (spec/19_faults.md, R379 to R382). -/

namespace Sys2Proof.Machine

/-- A fault goes to the handler where it is of class PROGRAM, there is a handler, and the thread can enter handler mode (R380). -/
theorem toHandler_iff {s : State} {t : Thread} {code : Nat} :
    toHandler s t code = true ↔ code ≠ 0x17 ∧ (gridOf s t).handler ≠ 0xFFFFFFFF ∧ t.frame = none ∧ t.depth < 255 := by
  have hc : faultClass code = 1 ↔ code ≠ 0x17 := by unfold faultClass; split <;> simp_all
  simp [toHandler, hc, and_assoc]

/-- An abort changes the transaction and its reason alone (R236). -/
theorem abortTx_eq (t : Thread) (n : Nat) : abortTx t n = { t with txReason := (abortTx t n).txReason, tx := (abortTx t n).tx } := by
  unfold abortTx; split <;> rfl

/-- A thread as its fault finds it: out of its word, its transaction aborted (R54, R265). -/
def faulting (t : Thread) : Thread := abortTx { t with buf := [], grants := [], quiet := 0 } 4

/-- What the fault drops of its thread. -/
theorem faulting_eq (t : Thread) : faulting t =
    { t with buf := [], grants := [], quiet := 0, txReason := (faulting t).txReason, tx := (faulting t).tx } :=
  abortTx_eq _ 4

/-- A thread that no handler serves, parked at FPC (R382). -/
def parkedAt (t : Thread) (code addr : Nat) (fpc : Word) : Thread :=
  { faultRegs t (faultClass code) code addr fpc with st := .parked, pc := fpc }

/-- FCODE of a parked thread names the class of its fault (R86, R378). -/
theorem parkedAt_fcode (t : Thread) (code addr : Nat) (fpc : Word) :
    (parkedAt t code addr fpc).fcode = BitVec.ofNat 32 ((if code = 0x17 then 0x300 else 0x100) + code) := by
  change BitVec.ofNat 32 (faultClass code * 256 + code) = _
  unfold faultClass
  split <;> rfl

/-- The state that counts a thread's fault, and in which nobody waits for what other packages return for its word. -/
def faultNoted (s : State) (k : Nat) : State := { s with fa := (forgetWord s k).fa, bd := (perf s 0 (coreOf k) 5 1).bd }

/-- A fault that the user handler takes (R380). -/
theorem deliver_of_toHandler {s : State} {k : Nat} {t : Thread} {code : Nat} (addr : Nat) (fpc : Word) (h : getThread s k = some t)
    (ht : toHandler s t code = true) : deliver s k code addr fpc =
      setThread (leaveBundle (faultNoted s k) k) k (deliverToHandler (faulting t) s.nextId (gridOf s t).handler code addr fpc) := by
  have hf : toHandler (perf (leaveBundle (forgetWord s k) k) 0 (coreOf k) 5 1) (faulting t) code = true := by
    rw [faulting_eq]; exact ht
  have hg : gridOf (perf (leaveBundle (forgetWord s k) k) 0 (coreOf k) 5 1) (faulting t) = gridOf s t := by
    rw [faulting_eq]; rfl
  simp only [deliver, h]
  rw [← faulting, if_pos hf, hg]
  rfl

/-- A fault that goes to the supervisor (R382). -/
theorem deliver_of_not_toHandler {s : State} {k : Nat} {t : Thread} {code : Nat} (addr : Nat) (fpc : Word) (h : getThread s k = some t)
    (ht : toHandler s t code = false) : deliver s k code addr fpc =
      let x := parkedAt (faulting t) code addr fpc
      setThread (leaveBundle (post (faultNoted s k) 0 (coreOf k) 3 (faultArg k x) (addr % 2 ^ 57)) k) k x := by
  have hf : toHandler (perf (leaveBundle (forgetWord s k) k) 0 (coreOf k) 5 1) (faulting t) code = false := by
    rw [faulting_eq]; exact ht
  simp only [deliver, h]
  rw [← faulting, if_neg (by rw [hf]; exact Bool.false_ne_true)]
  rfl

/-- A lane that leaves its bundle with the thread `t`. -/
theorem LaneEnds.leaves (s : State) (k : Nat) (t : Thread) : LaneEnds k s t (Machine.setThread (Machine.leaveBundle s k) k t) :=
  ⟨(OnlyLanes.leaveBundle s k).trans (OnlyLanes.setThread _ k t), by simp, fun j h => by simp [h]⟩

end Sys2Proof.Machine

section
open Sys2Proof Sys2Proof.Machine

/-- Settles O25: by `deliver_of_toHandler`, with `faulting_eq` for what the thread keeps. -/
theorem faultEntersHandler : Obligations.FaultEntersHandler := by
  intro s k t code addr fpc ht _ hc hh hf hd
  rw [deliver_of_toHandler addr fpc ht (toHandler_iff.2 ⟨hc, hh, hf, hd⟩)]
  refine ⟨_, .leaves (faultNoted s k) k _, ?_⟩
  rw [faulting_eq]
  exact ⟨rfl, rfl, rfl, ⟨_, rfl, rfl, rfl, rfl, rfl, rfl, rfl⟩, fun b => readBt_writeBt _ 7 b _, rfl, rfl, rfl, rfl, rfl, rfl, rfl, rfl, rfl, rfl⟩

/-- Settles O26: by `deliver_of_not_toHandler`, with `faulting_eq` for what the thread keeps and `parkedAt_fcode` for its code. -/
theorem faultGoesToSupervisor : Obligations.FaultGoesToSupervisor := by
  intro s k t code addr fpc ht hs
  have hn : toHandler s t code = false := by
    refine Bool.eq_false_iff.2 fun h => ?_
    obtain ⟨hc, hh, hf, hd⟩ := toHandler_iff.1 h
    rcases hs with hs | hs | hs | hs
    · exact hc hs
    · exact hh hs
    · exact hs hf
    · omega
  rw [deliver_of_not_toHandler addr fpc ht hn]
  refine ⟨_, _, .leaves _ k _, rfl, ?_⟩
  rw [faulting_eq]
  exact ⟨parkedAt_fcode _ _ _ _, rfl, rfl, rfl, rfl, rfl, rfl, rfl, rfl, rfl, rfl, rfl, rfl, rfl⟩

end

/-! O8 to O11, O13 and O14: integer, bit and pair arithmetic, copies and selection (spec/05_integer.md). -/

namespace Sys2Proof.Machine

/-! Words that write registers. -/

/-- A word that writes one register, by another account of the value. -/
theorem writesRegs_val {w : WordSpec} {i : Instr} {d : Reg} {x y : Thread → Word}
    (h : WritesRegs w i fun _ _ t => set1 t d (x t)) (e : ∀ t, x t = y t) : WritesRegs w i fun _ _ t => set1 t d (y t) := by
  rwa [← funext e]

/-- A register word that puts values into consecutive registers. -/
theorem writesRegs_span {w : WordSpec} {i : Instr} {d : Reg} {x : Ctx → Thread → List Word}
    (he : ∀ s, exec i s = regWord w (fun c _ t => .ok (writeSpan t d.toNat (x c t))) s) (hq : ∀ c t n, x c { t with quiet := n } = x c t) :
    WritesRegs w i fun c _ t => setSpan t d (x c t) := by
  intro s c ks h
  obtain ⟨u, hu, hcur, ho, hmine, hothers⟩ := regWord_runs (f := fun c _ t => .ok (writeSpan t d.toNat (x c t)))
    (fun t => writeSpan (schedQuiet s c t) d.toNat (x c (schedQuiet s c t))) h fun t s' ho => by simp only [schedQuiet, ho.bd]
  refine ⟨u, (he s).trans hu, hcur, ho, fun k hk t ht => ⟨_, hmine k hk t ht, ?_⟩, hothers⟩
  rw [schedQuiet_eq, hq]
  have hr := readReg_writeSpan (x c t) { t with quiet := (schedQuiet s c t).quiet } d.toNat
  obtain ⟨r, v, p, e⟩ := writeSpan_eq (x c t) { t with quiet := (schedQuiet s c t).quiet } d.toNat
  rw [e] at hr ⊢
  have l := laneIs_finish (w := w) (c := c) (t := t)
    (g := { t with quiet := (schedQuiet s c t).quiet, regs := r, tvalid := v, rpoison := p }) rfl rfl rfl rfl
  exact ⟨fun m => (l.regs m).trans (hr m), l.preds, l.bts, l.pc, l.rest⟩

/-- A pair is a span of two, low half first (R6). -/
theorem setSpan_pair (t : Thread) (d : Reg) (x : Nat) : setSpan t d [BitVec.ofNat 32 x, BitVec.ofNat 32 (x / 2 ^ 32)] = set2 t d x := by
  funext n
  simp only [setSpan, set2, Function.update_apply, List.length_cons, List.length_nil]
  by_cases hlo : n = d.toNat
  · simp [hlo]
  by_cases hhi : n = d.toNat + 1
  · simp [hhi]
  rw [if_neg (by omega), if_neg hhi, if_neg hlo]

/-- A register word that puts one value into a pair, by another account of the value. -/
theorem writesRegs_pair {w : WordSpec} {i : Instr} {d : Reg} {x y : Ctx → Thread → Nat}
    (he : ∀ s, exec i s = regWord w (fun c _ t => putPair t d (x c t)) s) (hq : ∀ c t n, x c { t with quiet := n } = x c t)
    (e : ∀ c t, x c t = y c t) : WritesRegs w i fun c _ t => set2 t d (y c t) := by
  obtain rfl : x = y := funext fun c => funext (e c)
  simp only [← setSpan_pair]
  exact writesRegs_span he fun c t n => by rw [hq]

/-! Sums, differences, products and order. -/

/-- SatI to 32 bits is a clamp (R45). -/
theorem satI_eq_clamp (x : Int) : satI x 32 = max (-(2 ^ 31)) (min (2 ^ 31 - 1) x) := by
  unfold satI
  split
  · omega
  · split <;> omega

/-- SatN to 32 bits is a clamp (R45). -/
theorem satN_eq_clamp (x : Int) : satN x 32 = max 0 (min (2 ^ 32 - 1) x) := by
  unfold satN
  split
  · omega
  · split <;> omega

/-- The three forms of a sum or a difference (R93). -/
theorem addMode_eq (m : SatMode) (x : Word) (si un : Int) : addMode m x si un = match m with
    | .wrap => x
    | .sati => BitVec.ofInt 32 (max (-(2 ^ 31)) (min (2 ^ 31 - 1) si))
    | .satn => BitVec.ofInt 32 (max 0 (min (2 ^ 32 - 1) un)) := by
  cases m with
  | wrap => rfl
  | sati => exact congrArg (BitVec.ofInt 32) (satI_eq_clamp si)
  | satn => exact congrArg (BitVec.ofInt 32) (satN_eq_clamp un)

/-- Wrap of a number (R45). -/
theorem wrap_natCast (x n : Nat) : wrap x n = x % 2 ^ n := rfl

/-- Wrap to 64 bits (R45). -/
theorem wrap_64 (x : Int) : wrap x 64 = (x % 2 ^ 64).toNat := rfl

/-- Bits [63:32] of an integer are its quotient by 2^32, wrapped (R94). -/
theorem ofNat_wrap_div (x : Int) : BitVec.ofNat 32 (wrap x 64 / 2 ^ 32) = BitVec.ofInt 32 (x / 2 ^ 32) := by
  apply BitVec.eq_of_toNat_eq
  rw [BitVec.toNat_ofNat, BitVec.toNat_ofInt, wrap]
  omega

/-- A word is its own number, wrapped. -/
theorem ofNat_toNat_word (x : Word) : BitVec.ofNat 32 x.toNat = x := by rw [BitVec.ofNat_toNat, BitVec.setWidth_eq]

/-- The halves of a product (R94). -/
theorem imulVal_eq (m : MulMode) (x y : Word) : imulVal m x y = match m with
    | .lo => BitVec.ofNat 32 (x.toNat * y.toNat)
    | .hiI => BitVec.ofInt 32 (x.toInt * y.toInt / 2 ^ 32)
    | .hiN => BitVec.ofNat 32 (x.toNat * y.toNat / 2 ^ 32) := by
  cases m with
  | lo => simp only [imulVal, BitVec.ofNat_mul, ofNat_toNat_word]
  | hiI => exact ofNat_wrap_div _
  | hiN => rfl

/-- The low half of a product and a sum (R109). -/
theorem ofNat_mul_add (x y z : Word) : x * y + z = BitVec.ofNat 32 (x.toNat * y.toNat + z.toNat) := by
  simp only [BitVec.ofNat_add, BitVec.ofNat_mul, ofNat_toNat_word]

/-- Signed order is that of the two's-complement values, unsigned order that of the numbers (R95). -/
theorem ltS_eq (m : Sgn) (x y : Word) : ltS m x y = match m with
    | .i => decide (x.toInt < y.toInt)
    | .n => decide (x.toNat < y.toNat) := by
  cases m <;> rfl

/-- The smaller source (R95). -/
theorem iminVal_eq (m : Sgn) (x y : Word) : iminVal m x y = match m with
    | .i => BitVec.ofInt 32 (min x.toInt y.toInt)
    | .n => BitVec.ofNat 32 (min x.toNat y.toNat) := by
  rw [min_comm x.toInt, min_comm x.toNat]
  cases m <;> simp only [iminVal, ltS_eq, decide_eq_true_eq, min_def_lt, apply_ite (BitVec.ofInt 32), apply_ite (BitVec.ofNat 32),
    BitVec.ofInt_toInt, ofNat_toNat_word]

/-- The larger source (R95). -/
theorem imaxVal_eq (m : Sgn) (x y : Word) : imaxVal m x y = match m with
    | .i => BitVec.ofInt 32 (max x.toInt y.toInt)
    | .n => BitVec.ofNat 32 (max x.toNat y.toNat) := by
  cases m <;> simp only [imaxVal, ltS_eq, decide_eq_true_eq, max_def_lt, apply_ite (BitVec.ofInt 32), apply_ite (BitVec.ofNat 32),
    BitVec.ofInt_toInt, ofNat_toNat_word]

/-- The distance of two integers, wrapped, is the difference of their words in the order of the integers. -/
theorem ofNat_natAbs_sub {p q : Int} {x y : Word} (hx : BitVec.ofInt 32 p = x) (hy : BitVec.ofInt 32 q = y) :
    BitVec.ofNat 32 (p - q).natAbs = if p < q then y - x else x - y := by
  have hsub (a b : Int) : BitVec.ofInt 32 (a - b) = BitVec.ofInt 32 a - BitVec.ofInt 32 b := by
    rw [Int.sub_eq_add_neg, BitVec.ofInt_add, BitVec.ofInt_neg, ← BitVec.sub_eq_add_neg]
  rw [← BitVec.ofInt_natCast, ← hx, ← hy, ← hsub, ← hsub]
  split
  · rw [Int.ofNat_natAbs_of_nonpos (by omega), Int.neg_sub]
  · rw [Int.natAbs_of_nonneg (by omega)]

/-- The exact distance of the sources (R95). -/
theorem iabsdVal_eq (m : Sgn) (x y : Word) : iabsdVal m x y = match m with
    | .i => BitVec.ofNat 32 (x.toInt - y.toInt).natAbs
    | .n => BitVec.ofNat 32 ((x.toNat : Int) - y.toNat).natAbs := by
  have hn (z : Word) : BitVec.ofInt 32 (z.toNat : Int) = z := by rw [BitVec.ofInt_natCast, ofNat_toNat_word]
  cases m with
  | i => simp only [iabsdVal, ltS_eq, decide_eq_true_eq, ofNat_natAbs_sub BitVec.ofInt_toInt BitVec.ofInt_toInt]
  | n => simp only [iabsdVal, ltS_eq, decide_eq_true_eq, ofNat_natAbs_sub (hn x) (hn y), Int.ofNat_lt]

/-! Shifts and bit fields. -/

/-- An arithmetic shift divides, rounding down (R97, R103). -/
theorem sshiftRight_eq_div (x : Word) (n : Nat) : x.sshiftRight n = BitVec.ofInt 32 (x.toInt / 2 ^ n) := by
  rw [BitVec.sshiftRight_eq, Int.shiftRight_eq_div_pow, Nat.cast_pow, Nat.cast_ofNat]

/-- The bits of a word formed from bits. -/
theorem getLsbD_ofBits (f : Nat → Bool) {i : Nat} (hi : i < 32) : (ofBits f).getLsbD i = f i := by
  rw [ofBits, BitVec.getLsbD_ofNat, testBit_bitsNat]
  simp [hi]

/-- FEXT takes the bits of a from its offset on (R99). -/
theorem getLsbD_fextVal (m : ExtMode) (x y : Word) {i : Nat} (hi : i < 32) (hl : i < fieldLen y) (ho : fieldOff y + i < 32) :
    (fextVal m x y).getLsbD i = x.getLsbD (fieldOff y + i) := by
  have hw : fieldLen y ≠ 0 := by omega
  simp only [fextVal, if_neg hw, getLsbD_ofBits _ hi, if_pos hl, if_pos ho]

/-! The words of CLS 0x0 whose MOD must be 000. -/

/-- AND, OR, XOR and ANDN have one MOD (R96). -/
theorem decodeClass0_logic {w : BitVec 32} (h6 : 6 ≤ (fld w 24 4).toNat) (h9 : (fld w 24 4).toNat ≤ 9) (hm : fld w 21 3 ≠ 0#3) :
    decodeClass0 w = .error .mustBeZero := by
  obtain h | h | h | h : (fld w 24 4).toNat = 6 ∨ (fld w 24 4).toNat = 7 ∨ (fld w 24 4).toNat = 8 ∨ (fld w 24 4).toNat = 9 := by omega
  all_goals simp only [decodeClass0, h]; exact if_neg hm

/-! The words whose lane function is their own. -/

theorem exec_fins (d a b : Reg) (s : State) : exec (.fins d a b) s =
    regWord (opSpecD [sp1 a, sp1 b] [sp1 d]) (fun _ _ t => put t d (finsVal (rd t d) (rd t a) (rd t b))) s := rfl

theorem exec_imad (d a b e : Reg) (s : State) : exec (.imad d a b e) s =
    regWord (opSpec [sp1 a, sp1 b, sp1 e] [sp1 d]) (fun _ _ t => put t d (rd t a * rd t b + rd t e)) s := rfl

theorem exec_pick (p : PredIx) (d a b : Reg) (s : State) : exec (.pick p d a b) s =
    regWord (opSpec [sp1 a, sp1 b] [sp1 d]) (fun _ _ t => put t d (if readPred t p then rd t a else rd t b)) s := rfl

/-- PICK in every lane (R114). -/
theorem writesRegs_pick (p : PredIx) (d a b : Reg) :
    WritesRegs (opSpec [sp1 a, sp1 b] [sp1 d]) (.pick p d a b) fun _ _ t => set1 t d (if readPred t p then rd t a else rd t b) :=
  writesRegs_put (exec_pick p d a b) fun _ _ _ _ _ => by rw [schedQuiet_eq]; rfl

end Sys2Proof.Machine

section
open Sys2Proof Sys2Proof.Machine

/-- Settles O8: the words by `writesRegs_bin`, their values by `addMode_eq`. -/
theorem integerAddSubtractResults : Obligations.IntegerAddSubtractResults :=
  ⟨fun m _ _ _ => writesRegs_val (writesRegs_bin fun _ => rfl) fun _ => addMode_eq m _ _ _,
    fun m _ _ _ => writesRegs_val (writesRegs_bin fun _ => rfl) fun _ => addMode_eq m _ _ _⟩

/-- Settles O9: the words of two sources by `writesRegs_bin` and an account of each value, IMAD by `ofNat_mul_add`. -/
theorem multiplyAndOrderResults : Obligations.MultiplyAndOrderResults := by
  refine ⟨fun m d a b => writesRegs_val (writesRegs_bin fun _ => rfl) fun _ => imulVal_eq m _ _,
    fun m d a b => writesRegs_val (writesRegs_bin fun _ => rfl) fun _ => iminVal_eq m _ _,
    fun m d a b => writesRegs_val (writesRegs_bin fun _ => rfl) fun _ => imaxVal_eq m _ _,
    fun m d a b => writesRegs_val (writesRegs_bin fun _ => rfl) fun _ => iabsdVal_eq m _ _, fun d a b e => ?imad⟩
  case imad =>
    exact writesRegs_val (writesRegs_put (exec_imad d a b e) (x := fun _ _ t => rd t a * rd t b + rd t e)
      fun _ _ _ _ _ => by rw [schedQuiet_eq]; rfl) fun _ => ofNat_mul_add _ _ _

/-- Settles O10: the words by `writesRegs_bin`, their bits by the library's lemmas, the reserved MODs by `decodeClass0_logic`. -/
theorem bitwiseLogicResults : Obligations.BitwiseLogicResults := by
  refine ⟨fun d a b => ⟨fun x y => x &&& y, fun _ _ _ => BitVec.getLsbD_and, writesRegs_bin fun _ => rfl⟩,
    fun d a b => ⟨fun x y => x ||| y, fun _ _ _ => BitVec.getLsbD_or, writesRegs_bin fun _ => rfl⟩,
    fun d a b => ⟨fun x y => x ^^^ y, fun _ _ _ => BitVec.getLsbD_xor, writesRegs_bin fun _ => rfl⟩,
    fun d a b => ⟨fun x y => x &&& ~~~y, fun x y i hi => ?andn, writesRegs_bin (f := fun x y => x &&& ~~~y) fun _ => rfl⟩,
    fun w h0 h6 h9 hm => ?reserved⟩
  case andn => simp [hi]
  case reserved =>
    rw [Laws.decodeWord_class0 h0, decodeClass0_logic h6 h9 hm]
    rfl

/-- Settles O11: the words by `writesRegs_bin`, `writesRegs_un` and `writesRegs_binD`, the arithmetic shifts by `sshiftRight_eq_div`, the
bits of a field by `getLsbD_fextVal` and `getLsbD_ofBits`. -/
theorem shiftAndBitFieldResults : Obligations.ShiftAndBitFieldResults :=
  ⟨fun _ _ _ => writesRegs_val (writesRegs_bin fun _ => rfl) fun _ => rfl,
    fun _ _ _ => writesRegs_val (writesRegs_bin fun _ => rfl) fun _ => rfl,
    fun _ _ _ => writesRegs_val (writesRegs_bin fun _ => rfl) fun _ => sshiftRight_eq_div _ _,
    fun _ _ _ => writesRegs_val (writesRegs_bin fun _ => rfl) fun _ => rfl,
    fun _ _ n => writesRegs_un (f := fun x => x <<< n.toNat) fun _ => rfl,
    fun _ _ n => writesRegs_un (f := fun x => x >>> n.toNat) fun _ => rfl,
    fun _ _ n => writesRegs_val (writesRegs_un (f := fun x => x.sshiftRight n.toNat) fun _ => rfl) fun _ => sshiftRight_eq_div _ _,
    fun _ _ => writesRegs_un fun _ => rfl, fun _ _ => writesRegs_un fun _ => rfl, fun _ _ => writesRegs_un fun _ => rfl,
    fun _ _ => writesRegs_un fun _ => rfl, fun _ _ => writesRegs_un fun _ => rfl, fun _ _ _ _ => writesRegs_bin fun _ => rfl,
    fun d a b => writesRegs_binD (exec_fins d a b), fun m x y _ => getLsbD_fextVal m x y, fun _ _ _ _ => getLsbD_ofBits _⟩

/-- Settles O13: the pairs by `writesRegs_pair`, their values by `wrap_64` and `wrap_natCast`, MOV by `writesRegs_span`. -/
theorem pairArithmeticResults : Obligations.PairArithmeticResults :=
  ⟨fun _ _ _ => writesRegs_pair (fun _ => rfl) (fun _ _ _ => rfl) fun _ _ => wrap_64 _,
    fun _ _ _ => writesRegs_pair (fun _ => rfl) (fun _ _ _ => rfl) fun _ _ => wrap_natCast _ 64,
    fun _ _ _ => writesRegs_pair (fun _ => rfl) (fun _ _ _ => rfl) fun _ _ => wrap_64 _,
    fun _ _ _ _ => writesRegs_pair (fun _ => rfl) (fun _ _ _ => rfl) fun _ _ => wrap_64 _,
    fun _ _ _ => writesRegs_span (fun _ => rfl) fun _ _ _ => rfl⟩

/-- Settles O14: by `writesRegs_pick`; p0 reads true. -/
theorem selectionByPredicate : Obligations.SelectionByPredicate :=
  ⟨writesRegs_pick, fun d a b => writesRegs_val (writesRegs_pick 0 d a b) fun t => if_pos (readPred_zero t)⟩

end

/-! O17 and O18: arithmetic on floating-point values and conversions (spec/06_float.md, R119 to R139). -/

namespace Sys2Proof.Machine

/-! Words whose value the hints or the grid's format slots help to decide. -/

/-- A register word that puts one value into one register, where the value does not look at QUIET, nor at what lanes change in the state. -/
theorem writesRegs_calc {w : WordSpec} {i : Instr} {d : Reg} {x : Ctx → State → Thread → Word}
    (he : ∀ s, exec i s = regWord w (fun c s t => put t d (x c s t)) s)
    (hx : ∀ c s s' t n, OnlyLanes s s' → x c s' { t with quiet := n } = x c s t) : WritesRegs w i fun c s t => set1 t d (x c s t) :=
  writesRegs_put he fun c s s' t ho => by rw [schedQuiet_eq, hx c s s' t _ ho]; rfl

/-- A word of two sources that accepts HINT.RND (R117). -/
theorem writesRegs_rndBin {i : Instr} {d a b : Reg} {f : Rm → Bool → Word → Word → Word} (he : ∀ s, exec i s = rndBin d a b f s) :
    WritesRegs { opSpec [sp1 a, sp1 b] [sp1 d] with hints := [4] } i
      fun c _ t => set1 t d (f (hintRm c) (hintSat c) (rd t a) (rd t b)) :=
  writesRegs_calc he fun _ _ _ _ _ _ => rfl

/-! Words that write a span. -/

/-- HINT.SCHED asks for the same QUIET wherever only lanes have gone on. -/
theorem schedQuiet_of_only {s u : State} (h : OnlyLanes s u) (c : Ctx) (t : Thread) : schedQuiet u c t = schedQuiet s c t := by
  simp only [schedQuiet, h.bd]

@[simp] theorem rd_schedQuiet (s : State) (c : Ctx) (t : Thread) (a : Reg) : rd (schedQuiet s c t) a = rd t a := by
  rw [schedQuiet_eq]; rfl

@[simp] theorem gridOf_schedQuiet (s u : State) (c : Ctx) (t : Thread) : gridOf u (schedQuiet s c t) = gridOf u t := by
  rw [schedQuiet_eq]; rfl

/-- A lane that completes its word with a span written. -/
theorem laneIs_writeSpan (w : WordSpec) (s : State) (c : Ctx) (t : Thread) (d : Reg) (xs : List Word) :
    LaneIs c t (finish w c (writeSpan (schedQuiet s c t) d.toNat xs)) (setSpan t d xs) (readPred t) (readBt t) := by
  rw [schedQuiet_eq]
  have hr := readReg_writeSpan xs { t with quiet := (schedQuiet s c t).quiet } d.toNat
  obtain ⟨r, v, p, e⟩ := writeSpan_eq xs { t with quiet := (schedQuiet s c t).quiet } d.toNat
  rw [e] at hr ⊢
  have l := laneIs_finish (w := w) (c := c) (t := t)
    (g := { t with quiet := (schedQuiet s c t).quiet, regs := r, tvalid := v, rpoison := p }) rfl rfl rfl rfl
  exact ⟨fun m => (l.regs m).trans (hr m), l.preds, l.bts, l.pc, l.rest⟩

theorem exec_cbdec (k : BitVec 3) (d a : Reg) (s : State) : exec (.cbdec k d a) s =
    regWord { opSpec [sp1 a] [sp2 d] with slotOk := cbSlot k } (fun _ s t => putPair t d (cbdecVal (gridOf s t) k.toNat (rd t a))) s := rfl

/-- CBDEC in every lane of its bundle, by the grid of the state in which the word began (R139). -/
theorem writesRegs_cbdec (k : BitVec 3) (d a : Reg) : WritesRegs { opSpec [sp1 a] [sp2 d] with slotOk := cbSlot k } (.cbdec k d a)
    fun _ s t => set2 t d (cbdecVal (gridOf s t) k.toNat (rd t a)) := by
  intro s c ks h
  obtain ⟨u, hu, hcur, ho, hmine, hothers⟩ := regWord_runs
    (f := fun _ s t => putPair t d (cbdecVal (gridOf s t) k.toNat (rd t a)))
    (fun t => writeSpan (schedQuiet s c t) d.toNat (natSpan 2 (cbdecVal (gridOf s t) k.toNat (rd t a)))) h
    fun t s' ho => by rw [schedQuiet_of_only ho, gridOf_of_only ho, gridOf_schedQuiet, rd_schedQuiet]; rfl
  refine ⟨u, (exec_cbdec k d a s).trans hu, hcur, ho, fun j hj t ht => ⟨_, hmine j hj t ht, ?_⟩, hothers⟩
  simp only [← setSpan_pair]
  exact laneIs_writeSpan _ s c t d _

/-! UNPK3. -/

/-- What a register word does where the word has no fault in any lane of its bundle: `P` holds of the threads of its lanes, and `g` says
what the word makes of such a thread. -/
theorem regWord_runs_of {w : WordSpec} {f : LaneFn} {s : State} {c : Ctx} {ks : List Nat} {P : Thread → Prop} (g : Thread → Thread)
    (h : Issues w c ks s) (hP : ∀ k ∈ ks, ∀ t, getThread s k = some t → P t)
    (hf : ∀ t s', P t → OnlyLanes s s' → f c s' (schedQuiet s' c t) = .ok (g t)) :
    ∃ u, regWord w f s = .next u ∧ u.cur = none ∧ OnlyLanes s u ∧
      (∀ k ∈ ks, ∀ t, getThread s k = some t → getThread u k = some (finish w c (g t))) ∧
      ∀ k, k ∉ ks → getThread u k = getThread s k := by
  have hlanes : ∀ k ∈ ks, ∃ t, P t ∧ getThread s k = some t ∧ ready s w t = true := fun k hk => by
    obtain ⟨t, ht, hr⟩ := h.lanes k hk
    exact ⟨t, hP k hk t ht, ht, hr⟩
  simp only [regWord, issueWord, issueGo, h.go]
  refine ⟨_, rfl, rfl, And.imp (fun ho => ho.trans (OnlyLanes.done _)) id (laneLoop_ok (fun _ => P) ?_ ks s h.nodup (OnlyLanes.rfl' s) hlanes)⟩
  intro k t s' hp _ ho
  rw [hf t s' hp ho]

theorem exec_unpk3 (z : Bool) (m : BitVec 2) (d a : Reg) (s : State) :
    exec (.unpk3 z m d a) s = regWord (opSpec [sp1 a] [(d.toNat, 5, 1)]) (fun _ _ t => unpk3Lane z m d a t) s := rfl

/-- The byte that UNPK3 unpacks (R138). -/
def t5Byte (m : BitVec 2) (a : Reg) (t : Thread) : Nat := bits (rd t a).toNat (8 * m.toNat + 7) (8 * m.toNat)

/-- The thread with TERNBAD set where the byte is illegal (R138). -/
def noteTrits (m : BitVec 2) (a : Reg) (t : Thread) : Thread := if t5Byte m a t < 243 then t else { t with ternBad := true }

/-- The five weights that UNPK3 writes (R138). -/
def tritWords (m : BitVec 2) (a : Reg) (t : Thread) : List Word :=
  if t5Byte m a t < 243 then tritsOf 5 (t5Byte m a t) else [0, 0, 0, 0, 0]

@[simp] theorem t5Byte_schedQuiet (m : BitVec 2) (a : Reg) (s : State) (c : Ctx) (t : Thread) : t5Byte m a (schedQuiet s c t) = t5Byte m a t := by
  rw [t5Byte, rd_schedQuiet, t5Byte]

theorem noteTrits_schedQuiet (m : BitVec 2) (a : Reg) (s : State) (c : Ctx) (t : Thread) :
    noteTrits m a (schedQuiet s c t) = schedQuiet s c (noteTrits m a t) := by
  rw [noteTrits, noteTrits, t5Byte_schedQuiet, apply_ite (schedQuiet s c)]
  unfold schedQuiet
  cases c.hint 5 <;> rfl

theorem tritWords_schedQuiet (m : BitVec 2) (a : Reg) (s : State) (c : Ctx) (t : Thread) :
    tritWords m a (schedQuiet s c t) = tritWords m a t := by
  rw [tritWords, t5Byte_schedQuiet, tritWords]

/-- TERNBAD is all that an illegal byte changes beside the registers. -/
theorem noteTrits_eq (m : BitVec 2) (a : Reg) (t : Thread) : noteTrits m a t = { t with ternBad := (noteTrits m a t).ternBad } := by
  unfold noteTrits; split <;> rfl

/-- TERNBAD may be set before a span is written, or after. -/
theorem writeSpan_ternBad (xs : List Word) (t : Thread) (n : Nat) :
    writeSpan { t with ternBad := true } n xs = { writeSpan t n xs with ternBad := true } := by
  induction xs generalizing t n with
  | nil => rfl
  | cons x xs ih => exact ih (writeReg t n x) (n + 1)

/-- UNPK3 in a lane that it does not stop: the byte is legal, or the form is .z (R138). -/
theorem unpk3Lane_ok {z : Bool} {m : BitVec 2} {a : Reg} {t : Thread} (d : Reg) (h : z = true ∨ t5Byte m a t < 243) :
    unpk3Lane z m d a t = .ok (writeSpan (noteTrits m a t) d.toNat (tritWords m a t)) := by
  by_cases hb : t5Byte m a t < 243
  · rw [noteTrits, tritWords, if_pos hb, if_pos hb]
    exact if_neg (Nat.not_le.2 hb)
  · rw [noteTrits, tritWords, if_neg hb, if_neg hb, writeSpan_ternBad, h.resolve_right hb]
    exact if_pos (Nat.not_lt.1 hb)

/-- UNPK3 in every lane of a bundle that it does not stop (R138). -/
theorem unpk3_runs {z : Bool} {m : BitVec 2} {d a : Reg} {s : State} {c : Ctx} {ks : List Nat} (h : Issues (opSpec [sp1 a] [(d.toNat, 5, 1)]) c ks s)
    (hl : ∀ k ∈ ks, ∀ t, getThread s k = some t → z = true ∨ t5Byte m a t < 243) :
    ∃ u, exec (.unpk3 z m d a) s = .next u ∧ u.cur = none ∧ OnlyLanes s u ∧ Lanes ks s u fun t v =>
      LaneIs c (noteTrits m a t) v (setSpan t d (tritWords m a t)) (readPred t) (readBt t) := by
  obtain ⟨u, hu, hcur, ho, hmine, hothers⟩ := regWord_runs_of (f := fun _ _ t => unpk3Lane z m d a t)
    (fun t => writeSpan (schedQuiet s c (noteTrits m a t)) d.toNat (tritWords m a t)) h hl fun t s' ht ho => by
      rw [schedQuiet_of_only ho, unpk3Lane_ok d (by rwa [t5Byte_schedQuiet]), noteTrits_schedQuiet, tritWords_schedQuiet]
  refine ⟨u, (exec_unpk3 z m d a s).trans hu, hcur, ho, fun k hk t ht => ⟨_, hmine k hk t ht, ?_⟩, hothers⟩
  have hlane := laneIs_writeSpan (opSpec [sp1 a] [(d.toNat, 5, 1)]) s c (noteTrits m a t) d (tritWords m a t)
  rw [noteTrits_eq] at hlane ⊢
  exact hlane

end Sys2Proof.Machine

section
open Sys2Proof Sys2Proof.Machine

/-- Settles O17: the words without hints by `writesRegs_bin` and `writesRegs_un`, those that HINT.RND rounds by `writesRegs_rndBin` and
`writesRegs_calc`. -/
theorem floatArithmeticResults : Obligations.FloatArithmeticResults :=
  ⟨fun _ _ _ _ => writesRegs_bin fun _ => rfl, fun _ _ _ _ => writesRegs_bin fun _ => rfl, fun _ _ _ _ => writesRegs_bin fun _ => rfl,
    fun _ _ _ _ => writesRegs_bin fun _ => rfl, fun _ _ _ _ => writesRegs_bin fun _ => rfl, fun _ _ _ _ => writesRegs_bin fun _ => rfl,
    fun _ _ _ _ => writesRegs_bin fun _ => rfl, fun _ _ _ _ => writesRegs_bin fun _ => rfl, fun _ _ _ _ => writesRegs_bin fun _ => rfl,
    fun _ _ => writesRegs_un fun _ => rfl, fun _ _ => writesRegs_un fun _ => rfl, fun _ _ => writesRegs_un fun _ => rfl,
    fun _ _ => writesRegs_un fun _ => rfl, fun _ _ => writesRegs_un fun _ => rfl, fun _ _ _ => writesRegs_un fun _ => rfl,
    fun _ _ _ => writesRegs_bin fun _ => rfl, fun m _ _ _ => writesRegs_rndBin (f := paddVal (pkFmt m)) fun _ => rfl,
    fun m _ _ _ => writesRegs_rndBin (f := pmulVal (pkFmt m)) fun _ => rfl,
    fun _ _ _ _ => writesRegs_calc (fun _ => rfl) fun _ _ _ _ _ _ => rfl, fun _ _ _ _ => writesRegs_calc (fun _ => rfl) fun _ _ _ _ _ _ => rfl,
    fun _ _ _ _ => writesRegs_calc (fun _ => rfl) fun _ _ _ _ _ _ => rfl⟩

/-- Settles O18: the words by their forms, CVTN and CVTW with the grid of the state in which they began (`gridOf_of_only`), CBDEC by
`writesRegs_cbdec`, UNPK3 by `unpk3_runs`. -/
theorem conversionResults : Obligations.ConversionResults := by
  refine ⟨fun _ _ _ => writesRegs_un fun _ => rfl, fun _ _ _ => writesRegs_calc (fun _ => rfl) fun _ _ _ _ _ _ => rfl,
    fun _ _ _ => writesRegs_un fun _ => rfl, fun _ _ _ _ => writesRegs_bin fun _ => rfl, fun _ _ _ => writesRegs_un fun _ => rfl,
    fun k d a b => ?cvtn, fun k d a b => ?cvtw, writesRegs_cbdec, fun z m d a s c ks h hl => unpk3_runs h hl⟩
  case cvtn => exact writesRegs_calc (fun _ => rfl) fun _ _ _ _ _ ho => by rw [gridOf_of_only ho]; rfl
  case cvtw => exact writesRegs_calc (fun _ => rfl) fun _ _ _ _ _ ho => by rw [gridOf_of_only ho]; rfl

end

/-! O19: the special functions (spec/06_float.md, R141, R142). -/

namespace Sys2Proof.Machine

/-- A special function is a word of one source (R141). -/
theorem writesRegs_special {i : Instr} {d a : Reg} {f : Word → Nat} (he : ∀ s, exec i s = special d a f s) :
    WritesRegs (opSpec [sp1 a] [sp1 d]) i fun _ _ t => set1 t d (BitVec.ofNat 32 (f (rd t a))) :=
  writesRegs_un (f := fun x => BitVec.ofNat 32 (f x)) he

/-! The values of the special operands (R22). -/

theorem value_posInf : value .fp32 (0x7F800000 : Word).toNat = .inf false := by decide
theorem value_negInf : value .fp32 (0xFF800000 : Word).toNat = .inf true := by decide
theorem value_posZero : value .fp32 (0 : Word).toNat = .fin false 0 (-149) := by decide
theorem value_negZero : value .fp32 (0x80000000 : Word).toNat = .fin true 0 (-149) := by decide

/-- A code whose magnitude stands above that of infinity is a NaN (R22). -/
theorem value_nan {a : Word} (h : 0x7F800000 < a.toNat % 2 ^ 31) : value .fp32 a.toNat = .nan := by
  have hn : isNaN .fp32 a.toNat = true := decide_eq_true h
  simp only [value, hn, if_true]

/-- Every special function gives CanonNaN for a NaN (R141, R142). -/
theorem special_nan {a : Word} (h : 0x7F800000 < a.toNat % 2 ^ 31) :
    ∀ f ∈ [recipVal, rrootVal, sqrtVal, exp2Val, log2Val, tanhVal, sintVal, costVal], f a = nan32 := by
  have hv := value_nan h
  have hz : a ≠ 0x80000000 := by rintro rfl; exact absurd h (by decide)
  have hs : sintVal a = turnVal 5 0 a := if_neg hz
  simp [recipVal, rrootVal, sqrtVal, exp2Val, log2Val, tanhVal, hs, costVal, turnVal, hv]

end Sys2Proof.Machine

section
open Sys2Proof Sys2Proof.Machine

/-- Settles O19: the words by `writesRegs_special`, the special operands by their exact values, the NaNs by `special_nan`. -/
theorem specialFunctionResults : Obligations.SpecialFunctionResults := by
  refine ⟨fun _ _ => writesRegs_special fun _ => rfl, fun _ _ => writesRegs_special fun _ => rfl,
    fun _ _ => writesRegs_special fun _ => rfl, fun _ _ => writesRegs_special fun _ => rfl, fun _ _ => writesRegs_special fun _ => rfl,
    fun _ _ => writesRegs_special fun _ => rfl, fun _ _ => writesRegs_special fun _ => rfl, fun _ _ => writesRegs_special fun _ => rfl,
    ?posInf, ?negInf, ?posZero, ?negZero, fun _ h => special_nan h⟩
  case posInf =>
    simp only [List.map, recipVal, rrootVal, sqrtVal, exp2Val, log2Val, tanhVal, value_posInf]
    rfl
  case negInf =>
    simp only [List.map, recipVal, rrootVal, sqrtVal, exp2Val, log2Val, tanhVal, value_negInf]
    rfl
  case posZero =>
    simp only [List.map, recipVal, rrootVal, sqrtVal, log2Val, tanhVal, value_posZero]
    rfl
  case negZero =>
    simp only [List.map, recipVal, rrootVal, sqrtVal, log2Val, tanhVal, value_negZero]
    rfl

end

/-! O41 and O43: the words at which a group joins (spec/07_group.md, spec/08_matrix_splat.md, R146 to R149, R159 to R161, R166 to R172). -/

namespace Sys2Proof.Machine

/-! Words that act lane by lane. -/

theorem LaneByLane.imp {s : State} {w : WordSpec} {i : Instr} {pre : Ctx → List Nat → Prop} {start : List Nat → State}
    {post post' : Ctx → State → Nat → Thread → State → Prop} (h : LaneByLane s w i pre start post)
    (hp : ∀ c u k t v, post c u k t v → post' c u k t v) : LaneByLane s w i pre start post' := fun c ks hg hk => by
  obtain ⟨f, he, hf⟩ := h c ks hg hk
  exact ⟨f, he, fun u k t ht hr => hp c u k _ _ (hf u k t ht hr)⟩

/-- In a bundle of one lane that executes it, a word that acts lane by lane ends with what it does there. -/
theorem LaneByLane.alone {s : State} {w : WordSpec} {i : Instr} {post : Ctx → State → Nat → Thread → State → Prop}
    (h : LaneByLane s w i always (fun _ => s) post) {c : Ctx} {k : Nat} {t : Thread} (hi : Issues w c [k] s) (ht : getThread s k = some t) :
    ∃ v, exec i s = .next (done v) ∧ post c s k (schedQuiet s c t) v := by
  obtain ⟨f, he, hf⟩ := h c [k] hi.go trivial
  obtain ⟨t', ht', hr⟩ := hi.lanes k (List.mem_singleton.2 rfl)
  cases ht.symm.trans ht'
  exact ⟨f s k, he, hf s k t ht hr⟩

theorem LaneByLane.completes {w : WordSpec} {i : Instr} {ok : Ctx → State → Nat → Thread → Prop} {post : Ctx → State → Nat → Thread → State → Prop}
    (h : ∀ s, LaneByLane s w i always (fun _ => s) fun c u k t v => ok c u k t → post c u k t (done v)) : Completes w i ok post := by
  intro s c k t hi ht hok
  obtain ⟨v, he, hv⟩ := (h s).alone hi ht
  exact ⟨done v, he, rfl, hv hok⟩

/-! Lists of threads that are changed one after another. -/

/-- In a list of rising keys the search for a member's key finds the member. -/
theorem find?_key {α : Type} {g : α → Nat} {l : List α} (h : l.Pairwise fun x y => g x < g y) {q : α} (hq : q ∈ l) :
    l.find? (fun x => g x == g q) = some q := by
  induction l with
  | nil => cases hq
  | cons x l ih =>
    obtain ⟨hx, hl⟩ := List.pairwise_cons.1 h
    rcases List.mem_cons.1 hq with rfl | hq
    · simp
    · rw [List.find?_cons_of_neg (by have := hx q hq; simp; omega), ih hl hq]

/-- Members of a list of rising keys are known by their keys. -/
theorem eq_of_key {α : Type} {g : α → Nat} {l : List α} (h : l.Pairwise fun x y => g x < g y) {p q : α} (hp : p ∈ l) (hq : q ∈ l)
    (he : g p = g q) : p = q :=
  Option.some.inj (by rw [← find?_key h hp, ← find?_key h hq, he])

/-- A list of different threads, each as the thread table has it. -/
structure Listed (s : State) (l : List (Nat × Thread)) : Prop where
  keys : (l.map (·.1)).Nodup
  stands : ∀ e ∈ l, getThread s e.1 = some e.2

theorem Listed.filter {s : State} {l : List (Nat × Thread)} (h : Listed s l) (p : Nat × Thread → Bool) : Listed s (l.filter p) :=
  ⟨h.keys.sublist (List.filter_sublist.map _), fun e he => h.stands e (List.mem_of_mem_filter he)⟩

/-- Steps that each change the thread of their own entry alone leave every other thread as it was. -/
theorem foldl_others {f : State → Nat × Thread → State} (ho : ∀ s e j, j ≠ e.1 → getThread (f s e) j = getThread s j)
    {l : List (Nat × Thread)} {j : Nat} (hj : j ∉ l.map (·.1)) (s : State) : getThread (l.foldl f s) j = getThread s j := by
  induction l generalizing s with
  | nil => rfl
  | cons a l ih =>
    obtain ⟨hja, hjl⟩ := List.ne_and_not_mem_of_not_mem_cons hj
    rw [List.foldl_cons, ih hjl, ho s a j hja]

/-- And they leave every thread of a list as its own step does. -/
theorem foldl_each {f : State → Nat × Thread → State} {P : Nat × Thread → Thread → Prop} {l : List (Nat × Thread)}
    (hf : ∀ s, ∀ e ∈ l, getThread s e.1 = some e.2 → ∃ t, getThread (f s e) e.1 = some t ∧ P e t)
    (ho : ∀ s e j, j ≠ e.1 → getThread (f s e) j = getThread s j) {s : State} (h : Listed s l) :
    ∀ e ∈ l, ∃ t, getThread (l.foldl f s) e.1 = some t ∧ P e t := by
  induction l generalizing s with
  | nil => exact fun _ he => absurd he List.not_mem_nil
  | cons a l ih =>
    obtain ⟨hk, hs⟩ := h
    obtain ⟨hal, hk⟩ := List.nodup_cons.1 hk
    intro e he
    rcases List.mem_cons.1 he with rfl | he
    · rw [List.foldl_cons, foldl_others ho hal]
      exact hf s e List.mem_cons_self (hs e List.mem_cons_self)
    · refine ih (fun s e he => hf s e (List.mem_cons_of_mem _ he)) ⟨hk, fun e he => ?_⟩ e he
      rw [ho s a e.1 fun hea => hal (List.mem_map.2 ⟨e, he, hea⟩)]
      exact hs e (List.mem_cons_of_mem _ he)

/-- Among steps of which one alone touches some threads, that one finds them as they were and leaves them as they end. -/
theorem foldl_one {α : Type} {f : State → α → State} {K : Nat → Prop} {q : α}
    (ho : ∀ s, ∀ p ≠ q, ∀ j, K j → getThread (f s p) j = getThread s j) {l : List α} (hn : l.Nodup) (hq : q ∈ l) (s : State) :
    ∃ s', (∀ j, K j → getThread s' j = getThread s j) ∧ ∀ j, K j → getThread (l.foldl f s) j = getThread (f s' q) j := by
  have keeps (l : List α) (s : State) (h : q ∉ l) : ∀ j, K j → getThread (l.foldl f s) j = getThread s j := by
    induction l generalizing s with
    | nil => exact fun _ _ => rfl
    | cons a l ih =>
      obtain ⟨ha, hl⟩ := List.ne_and_not_mem_of_not_mem_cons h
      exact fun j hj => (ih (f s a) hl j hj).trans (ho s a ha.symm j hj)
  obtain ⟨a, b, rfl⟩ := List.append_of_mem hq
  obtain ⟨-, hb, hab⟩ := List.nodup_append.1 hn
  refine ⟨a.foldl f s, keeps a s fun h => hab q h q List.mem_cons_self rfl, fun j hj => ?_⟩
  rw [List.foldl_append, List.foldl_cons]
  exact keeps b _ (List.nodup_cons.1 hb).1 j hj

/-! The participants of a group (R146). -/

theorem mem_participants {s : State} {team group : Nat} {e : Nat × Thread} (h : e ∈ participants s team group) :
    e ∈ s.ex.threads ∧ e.2.team = team ∧ e.2.group = group ∧ e.2.glane < 64 := by
  obtain ⟨g, hg, hf⟩ := List.mem_filterMap.1 h
  have hm := (List.mem_filter.1 (List.mem_of_find?_eq_some hf)).1
  have hgl := List.find?_some hf
  simp only [groupMates, List.mem_filter, Bool.and_eq_true, beq_iff_eq] at hm hgl
  exact ⟨hm.1, hm.2.1, hm.2.2, hgl ▸ List.mem_range.1 hg⟩

/-- Participants stand in ascending group lane. -/
theorem participants_ascend (s : State) (team group : Nat) : (participants s team group).Pairwise fun x y => x.2.glane < y.2.glane := by
  refine List.pairwise_filterMap.2 (List.pairwise_lt_range.imp fun {g h} hgh x hx y hy => ?_)
  have hx := List.find?_some hx
  have hy := List.find?_some hy
  simp only [beq_iff_eq] at hx hy
  rwa [hx, hy]

theorem listed_participants {s : State} (h : s.ex.threads.Pairwise fun x y => x.1 < y.1) (team group : Nat) :
    Listed s (participants s team group) := by
  have stands : ∀ e ∈ participants s team group, getThread s e.1 = some e.2 := fun e he => tget_of_mem h (mem_participants he).1
  refine ⟨List.pairwise_map.2 ((participants_ascend s team group).imp_of_mem fun {x y} hx hy hlt he => ?_), stands⟩
  have hxy := (stands x hx).symm.trans (he ▸ stands y hy)
  rw [Option.some.inj hxy] at hlt
  exact Nat.lt_irrefl _ hlt

/-! The parts of participants. -/

/-- The part of one participant. -/
def partAt (i : Instr) (e : Nat × Thread) : Part := { g := e.2.glane, x := rd e.2 (joinAB i).1, y := rd e.2 (joinAB i).2 }

theorem partsOf_ascend (i : Instr) {l : List (Nat × Thread)} (h : l.Pairwise fun x y => x.2.glane < y.2.glane) :
    (partsOf i l).Pairwise fun x y => x.g < y.g :=
  List.pairwise_map.2 h

theorem partAt_mem (i : Instr) {l : List (Nat × Thread)} {e : Nat × Thread} (he : e ∈ l) : partAt i e ∈ partsOf i l := List.mem_map_of_mem he

theorem find?_partsOf (i : Instr) {l : List (Nat × Thread)} (h : l.Pairwise fun x y => x.2.glane < y.2.glane) {e : Nat × Thread} (he : e ∈ l) :
    (partsOf i l).find? (fun p => p.g == e.2.glane) = some (partAt i e) :=
  find?_key (partsOf_ascend i h) (partAt_mem i he)

theorem eq_partAt {i : Instr} {l : List (Nat × Thread)} (h : l.Pairwise fun x y => x.2.glane < y.2.glane) {e : Nat × Thread} (he : e ∈ l)
    {p : Part} (hp : p ∈ partsOf i l) (hg : p.g = e.2.glane) : p = partAt i e :=
  eq_of_key (partsOf_ascend i h) hp (partAt_mem i he) hg

/-! Release, and the result of a participant. -/

theorem heldWords_of_held {t u : Thread} (h : u.held = t.held) : heldWords u = heldWords t := by simp only [heldWords, h]

theorem getThread_release (s : State) (k j : Nat) :
    getThread (release s k) j = if j = k then (getThread s k).map fun t => completeWait t (heldWords t) else getThread s j :=
  getThread_modThread s k j _

/-- GJOIN lets every participant go on (R161). -/
theorem foldl_release {s : State} {l : List (Nat × Thread)} (h : Listed s l) :
    ∀ e ∈ l, JoinsWith e (l.foldl (fun s e => release s e.1) s) e.2 := fun e he => by
  obtain ⟨t, ht, rfl⟩ := (foldl_each (P := fun e t => t = completeWait e.2 (heldWords e.2))
    (fun s e _ hs => ⟨_, by rw [getThread_release, if_pos rfl, hs]; rfl, rfl⟩)
    (fun s e j hj => by rw [getThread_release, if_neg hj]) h) e he
  exact ht

/-- Is an absent position of its quad used by a participant of DDX (R160)? -/
def joinLost (i : Instr) (ps : List Part) (p : Part) : Bool := match i with
  | .ddx m _ _ => (ddxVal m ps p).2
  | _ => false

theorem joinLost_of_not_ddx {i : Instr} (h : isDdx i = false) (ps : List Part) (p : Part) : joinLost i ps p = false := by
  unfold joinLost
  split
  · cases h
  · rfl

/-- The thread of a participant with the result of its part written (R147, R160). -/
def joinResult (i : Instr) (ps : List Part) (d : Reg) (f : Part → List Word) (e : Nat × Thread) : Thread :=
  { writeSpan e.2 d.toNat (f (partAt i e)) with derivLost := e.2.derivLost || joinLost i ps (partAt i e) }

theorem joinResult_held (i : Instr) (ps : List Part) (d : Reg) (f : Part → List Word) (e : Nat × Thread) :
    (joinResult i ps d f e).held = e.2.held := by
  obtain ⟨r, v, p, hw⟩ := writeSpan_eq (f (partAt i e)) e.2 d.toNat
  simp only [joinResult, hw]

theorem joinResult_of_not_ddx {i : Instr} (h : isDdx i = false) (ps : List Part) (d : Reg) (f : Part → List Word) (e : Nat × Thread) :
    joinResult i ps d f e = writeSpan e.2 d.toNat (f (partAt i e)) := by
  obtain ⟨r, v, p, hw⟩ := writeSpan_eq (f (partAt i e)) e.2 d.toNat
  simp only [joinResult, hw, joinLost_of_not_ddx h, Bool.or_false]

/-- A participant of whom the parts hold one completes the word with its result. -/
theorem joinWrite_eq {i : Instr} {ps : List Part} {e : Nat × Thread} (d : Reg) (f : Part → List Word) (s : State)
    (h : ps.find? (fun p => p.g == e.2.glane) = some (partAt i e)) :
    joinWrite i ps d f s e = release (setThread s e.1 (joinResult i ps d f e)) e.1 := by
  obtain ⟨r, v, p, hw⟩ := writeSpan_eq (f (partAt i e)) e.2 d.toNat
  simp only [joinWrite, h, joinResult, hw]
  unfold joinLost
  split
  · split <;> simp_all
  · simp

theorem joinWrite_others (i : Instr) (ps : List Part) (d : Reg) (f : Part → List Word) (s : State) (e : Nat × Thread) (j : Nat)
    (h : j ≠ e.1) : getThread (joinWrite i ps d f s e) j = getThread s j := by
  unfold joinWrite
  split
  · rfl
  · rw [getThread_release, if_neg h, getThread_setThread, if_neg h]

theorem OnlyThreads.joinWrite (i : Instr) (ps : List Part) (d : Reg) (f : Part → List Word) (s : State) (e : Nat × Thread) :
    OnlyThreads s (joinWrite i ps d f s e) := by
  unfold Machine.joinWrite
  split
  · exact .refl s
  · exact (OnlyThreads.setThread s _ _).trans (.modThread _ _ _)

/-- Every participant takes its result and completes the word (R147). -/
theorem foldl_joinWrite {s : State} {l : List (Nat × Thread)} (i : Instr) (d : Reg) (f : Part → List Word) (h : Listed s l)
    (hg : l.Pairwise fun x y => x.2.glane < y.2.glane) :
    ∀ e ∈ l, JoinsWith e (l.foldl (joinWrite i (partsOf i l) d f) s) (joinResult i (partsOf i l) d f e) := fun e he => by
  obtain ⟨t, ht, rfl⟩ := (foldl_each (P := fun e t => t = completeWait (joinResult i (partsOf i l) d f e) (heldWords e.2))
    (fun s e he _ => ⟨_, by
      rw [joinWrite_eq d f s (find?_partsOf i hg he), getThread_release, if_pos rfl, getThread_setThread, if_pos rfl]; rfl,
      congrArg (completeWait _) (heldWords_of_held (joinResult_held i _ d f e))⟩)
    (joinWrite_others i _ d f) h) e he
  exact ht

/-! A completed join of a word that writes registers. -/

/-- Does the result of some participant not fit (R159)? -/
def joinOvf (i : Instr) (ps : List Part) : Bool := match i with
  | .compact m _ _ _ => compactOvf m ps
  | _ => false

theorem runJoined_ovf {i : Instr} {l : List (Nat × Thread)} (s : State) (n : Nat) (hm : mmaParts i = none) (ho : joinOvf i (partsOf i l) = true) :
    runJoined s l i n = l.foldl (fun s e => deliver s e.1 0x0F 0 e.2.pc) s := by
  simp only [runJoined, hm]
  exact if_pos ho

theorem runJoined_writes {i : Instr} {l : List (Nat × Thread)} {n : Nat} {d : Reg} {f : Part → List Word} (s : State) (hm : mmaParts i = none)
    (ho : joinOvf i (partsOf i l) = false) (hw : joinWrites i n (partsOf i l) = some (d, f)) :
    runJoined s l i n = l.foldl (joinWrite i (partsOf i l) d f) s := by
  simp only [runJoined, hm, hw]
  exact if_neg (Bool.eq_false_iff.1 ho)

/-- What a word of the MMA family names: slot, D, A, B, sparse, uniform (R166). -/
abbrev MmaParts := BitVec 3 × Reg × Reg × Reg × Bool × Bool

theorem runJoined_matrix {i : Instr} {p : MmaParts} (hm : mmaParts i = some p) (s : State)
    (l : List (Nat × Thread)) (n : Nat) : runJoined s l i n = joinMatrix s l p := by
  simp only [runJoined, hm]

/-! Where a list of threads waits. -/

/-- A thread waits at the word `i`, whose PC is `pc`, and no debug stop holds it (R147, R149, R337). -/
def AtWord (pc : Word) (i : Instr) (e : Nat × Thread) : Prop :=
  e.2.st = .waiting ∧ e.2.waitOn = .join ∧ e.2.dstop = false ∧ e.2.waitPc = pc ∧ e.2.held.map (·.instr) = some i

/-- Threads that all wait at one word join at it. -/
theorem joinedAt_of_all {l : List (Nat × Thread)} {pc : Word} {i : Instr} (hl : l ≠ []) (h : ∀ e ∈ l, AtWord pc i e) : joinedAt l = some i := by
  obtain ⟨e, l, rfl⟩ := List.exists_cons_of_ne_nil hl
  obtain ⟨-, -, -, hpc, hi⟩ := h e List.mem_cons_self
  refine (if_pos (List.all_eq_true.2 fun x hx => ?_)).trans hi
  obtain ⟨hst, hon, hds, hx, -⟩ := h x hx
  simp [hst, hon, hds, hx, hpc]

/-- Where threads join, one of them holds the word, and all wait for a join at its PC. -/
theorem of_joinedAt {l : List (Nat × Thread)} {i : Instr} (h : joinedAt l = some i) :
    ∃ a ∈ l, a.2.held.map (·.instr) = some i ∧ ∀ e ∈ l, e.2.st = .waiting ∧ e.2.waitOn = .join ∧ e.2.waitPc = a.2.waitPc := by
  cases l with
  | nil => cases h
  | cons a l =>
    unfold joinedAt at h
    simp only at h
    split at h
    · rename_i hall
      refine ⟨a, List.mem_cons_self, h, fun e he => ?_⟩
      have he := List.all_eq_true.1 hall e he
      simp only [Bool.and_eq_true, beq_iff_eq, Bool.not_eq_true'] at he
      obtain ⟨⟨⟨hst, hon⟩, -⟩, hpc⟩ := he
      exact ⟨hst, hon, hpc⟩
    · cases h

/-- The participants of one quad of a group (R160). -/
def quadOf (l : List (Nat × Thread)) (q : Nat) : List (Nat × Thread) := l.filter fun e => e.2.glane / 4 == q

/-- A quad whose participants all wait at one DDX executes it (R160). -/
def runQuad (l : List (Nat × Thread)) (n : Nat) (s : State) (q : Nat) : State :=
  match joinedAt (quadOf l q) with
  | some i => if isDdx i then runJoined s (quadOf l q) i n else s
  | none => s

theorem checkQuads_eq (s : State) (l : List (Nat × Thread)) (n : Nat) : checkQuads s l n = (List.range 16).foldl (runQuad l n) s := rfl

/-- Where no participant stands at a DDX, no quad executes. -/
theorem checkQuads_idle {l : List (Nat × Thread)} (h : ∀ e ∈ l, ∀ m d a, e.2.held.map (·.instr) ≠ some (.ddx m d a)) (s : State) (n : Nat) :
    checkQuads s l n = s := by
  have hq : runQuad l n = fun s _ => s := funext fun s => funext fun q => by
    unfold runQuad
    split
    · rename_i i hi
      obtain ⟨e, he, hh, -⟩ := of_joinedAt hi
      refine if_neg fun hd => ?_
      unfold isDdx at hd
      split at hd
      · exact h e (List.mem_of_mem_filter he) _ _ _ hh
      · cases hd
    · rfl
  rw [checkQuads_eq, hq]
  exact List.foldl_fixed' (fun _ => rfl) _

/-- A step of a quad is a DDX of that quad, executed, or nothing (R160). -/
theorem runQuad_cases (l : List (Nat × Thread)) (n : Nat) (s : State) (q : Nat) :
    runQuad l n s q = s ∨ ∃ i d f, runQuad l n s q = (quadOf l q).foldl (joinWrite i (partsOf i (quadOf l q)) d f) s := by
  unfold runQuad
  split
  · rename_i i _
    split
    · rename_i hd
      unfold isDdx at hd
      split at hd
      · exact .inr ⟨_, _, _, runJoined_writes s rfl rfl rfl⟩
      · cases hd
    · exact .inl rfl
  · exact .inl rfl

theorem OnlyThreads.runQuad (l : List (Nat × Thread)) (n : Nat) (s : State) (q : Nat) : OnlyThreads s (runQuad l n s q) := by
  rcases runQuad_cases l n s q with h | ⟨i, d, f, h⟩ <;> rw [h]
  · exact .refl s
  · exact .foldl (fun s e => .joinWrite i _ d f s e) _ s

/-- A quad's step touches the threads of that quad alone. -/
theorem runQuad_others {l : List (Nat × Thread)} {q j : Nat} (hj : j ∉ (quadOf l q).map (·.1)) (n : Nat) (s : State) :
    getThread (runQuad l n s q) j = getThread s j := by
  rcases runQuad_cases l n s q with h | ⟨i, d, f, h⟩ <;> rw [h]
  exact foldl_others (joinWrite_others i _ d f) hj s

/-- A quad whose participants all wait at one DDX executes it, whatever the other quads do (R160). -/
theorem checkQuads_joins {s : State} {l : List (Nat × Thread)} {q : Nat} {pc : Word} {m : DdxMode} {d a : Reg} (hl : Listed s l)
    (hg : l.Pairwise fun x y => x.2.glane < y.2.glane) (h64 : ∀ e ∈ l, e.2.glane < 64) (hq : ∀ e ∈ quadOf l q, AtWord pc (.ddx m d a) e) (n : Nat) :
    ∀ e ∈ quadOf l q, JoinsWith e (checkQuads s l n) (joinResult (.ddx m d a) (partsOf (.ddx m d a) (quadOf l q)) d
      (fun p => [(ddxVal m (partsOf (.ddx m d a) (quadOf l q)) p).1]) e) := by
  intro e he
  have hlane : e.2.glane / 4 = q := beq_iff_eq.1 (List.mem_filter.1 he).2
  have hmem : q ∈ List.range 16 := List.mem_range.2 (by have := h64 e (List.mem_of_mem_filter he); omega)
  have apart (s' : State) (q' : Nat) (hne : q' ≠ q) (j : Nat) (hj : j ∈ (quadOf l q).map (·.1)) : getThread (runQuad l n s' q') j = getThread s' j := by
    refine runQuad_others (fun hj' => hne ?_) n s'
    obtain ⟨x, hx, rfl⟩ := List.mem_map.1 hj
    obtain ⟨y, hy, hxy⟩ := List.mem_map.1 hj'
    obtain ⟨hxl, hxq⟩ := List.mem_filter.1 hx
    obtain ⟨hyl, hyq⟩ := List.mem_filter.1 hy
    have : y.2 = x.2 := Option.some.inj ((hl.stands y hyl).symm.trans (hxy ▸ hl.stands x hxl))
    rw [← beq_iff_eq.1 hxq, ← beq_iff_eq.1 hyq, this]
  obtain ⟨s', hs', hend⟩ := foldl_one (K := fun j => j ∈ (quadOf l q).map (·.1)) apart List.nodup_range hmem s
  have hq' : Listed s' (quadOf l q) := ⟨(hl.filter _).keys, fun x hx => (hs' _ (List.mem_map_of_mem hx)).trans ((hl.filter _).stands x hx)⟩
  have hrun : runQuad l n s' q = (quadOf l q).foldl (joinWrite (.ddx m d a) (partsOf (.ddx m d a) (quadOf l q)) d
      fun p => [(ddxVal m (partsOf (.ddx m d a) (quadOf l q)) p).1]) s' := by
    rw [runQuad, joinedAt_of_all (List.ne_nil_of_mem he) hq]
    change runJoined s' (quadOf l q) (.ddx m d a) n = _
    exact runJoined_writes s' rfl rfl rfl
  exact (hend _ (List.mem_map_of_mem he)).trans (hrun ▸ foldl_joinWrite (.ddx m d a) d _ hq' (hg.filter _) e he)

/-! The check that follows an arrival. -/

theorem gridOf_of_team {t u : Thread} (h : t.team = u.team) (s : State) : gridOf s t = gridOf s u := by simp only [gridOf, h]

/-- A group of which some participant does not wait, and none stands at a DDX, goes on waiting (R147). -/
theorem checkGroup_waits {s : State} {team group : Nat} (hw : ∃ e ∈ participants s team group, e.2.st ≠ .waiting)
    (hd : ∀ e ∈ participants s team group, ∀ m d a, e.2.held.map (·.instr) ≠ some (.ddx m d a)) : checkGroup s team group = s := by
  obtain ⟨e, he, hst⟩ := hw
  have hj : joinedAt (participants s team group) = none := Option.eq_none_iff_forall_ne_some.2 fun i hi => by
    obtain ⟨_, _, _, hall⟩ := of_joinedAt hi
    exact hst (hall e he).1
  unfold checkGroup
  dsimp only
  split
  · rfl
  · rename_i hl
    rw [if_neg, hj]
    · exact checkQuads_idle hd s _
    · intro hall
      have := List.all_eq_true.1 hall e he
      simp [hst] at this

/-- A list of which some thread waits for no GJOIN is not released by one. -/
theorem not_all_gjoin {l : List (Nat × Thread)} {e : Nat × Thread} (he : e ∈ l) (h : e.2.waitOn = .join) :
    ¬ (l.all fun e => e.2.st == .waiting && e.2.waitOn == .gjoin && !e.2.dstop) = true := fun hall => by
  have := List.all_eq_true.1 hall e he
  simp [h] at this

/-- A group whose participants all wait at one word executes it (R147). -/
theorem checkGroup_joined {s : State} {t : Thread} {group : Nat} {pc : Word} {i : Instr} (hl : participants s t.team group ≠ [])
    (h : ∀ e ∈ participants s t.team group, AtWord pc i e) (hi : isDdx i = false) :
    checkGroup s t.team group = runJoined s (participants s t.team group) i (gridOf s t).width := by
  have hj := joinedAt_of_all hl h
  obtain ⟨a, l, hal⟩ := List.exists_cons_of_ne_nil hl
  have ha : a ∈ participants s t.team group := hal ▸ List.mem_cons_self
  unfold checkGroup
  dsimp only
  split
  · contradiction
  · rename_i k t' l' hl'
    have ht' : gridOf s t' = gridOf s t := gridOf_of_team (mem_participants (e := (k, t')) (hl' ▸ List.mem_cons_self)).2.1 s
    rw [if_neg (not_all_gjoin ha (h a ha).2.1), hj, ht']
    simp only [hi, Bool.false_eq_true, if_false]

/-- A group that joins at no word but a DDX looks at its quads (R160). -/
theorem checkGroup_quads {s : State} {team group : Nat} {e : Nat × Thread} (he : e ∈ participants s team group) (hon : e.2.waitOn = .join)
    (hd : ∀ i, joinedAt (participants s team group) = some i → isDdx i = true) :
    ∃ n, checkGroup s team group = checkQuads s (participants s team group) n := by
  unfold checkGroup
  dsimp only
  split
  · rename_i hl
    rw [hl] at he
    cases he
  · rw [if_neg (not_all_gjoin he hon)]
    split
    · rename_i i hi
      rw [if_pos (hd i hi)]
      exact ⟨_, rfl⟩
    · exact ⟨_, rfl⟩

/-- A group whose participants all wait for GJOIN goes on (R161). -/
theorem checkGroup_gjoin {s : State} {team group : Nat}
    (h : ∀ e ∈ participants s team group, e.2.st = .waiting ∧ e.2.waitOn = .gjoin ∧ e.2.dstop = false) :
    checkGroup s team group = (participants s team group).foldl (fun s e => release s e.1) s := by
  unfold checkGroup
  dsimp only
  split
  · rename_i hl
    rw [hl]
    rfl
  · refine if_pos (List.all_eq_true.2 fun e he => ?_)
    obtain ⟨hst, hon, hds⟩ := h e he
    simp [hst, hon, hds]

/-! A lane that arrives. -/

/-- The state in which a lane has come to wait at a word (R147). -/
def arrivedAt (c : Ctx) (s : State) (k : Nat) (t : Thread) (on : WaitOn) (i : Instr) : State := leaveBundle (setThread s k (waiting c t on i)) k

theorem LaneEnds.arrivedAt (c : Ctx) (s : State) (k : Nat) (t : Thread) (on : WaitOn) (i : Instr) :
    LaneEnds k s (waiting c t on i) (arrivedAt c s k t on i) :=
  (LaneEnds.setThread s k _).leaveBundle

/-- The participants of a lane's group as the lane has arrived are those that wait with it, in ascending group lane and as the table has them. -/
theorem listed_joining {s : State} (h : s.ex.threads.Pairwise fun x y => x.1 < y.1) (c : Ctx) (k : Nat) (t : Thread) (on : WaitOn) (i : Instr)
    (team group : Nat) : Listed (arrivedAt c s k t on i) (participants (arrivedAt c s k t on i) team group) :=
  listed_participants (tset_pairwise h k _) team group

/-- A word at which each lane arrives and waits, and at which the join that it completes executes (R147, R161). -/
def joinWord (w : WordSpec) (on : WaitOn) (i : Instr) (s : State) : Host.Outcome State Fault Refusal :=
  issueThen w (fun c s k t => .wait (setThread s k (waiting c t on i))) checkJoins s

/-- A word of joining acts lane by lane: a lane arrives, and the joins of its group are looked at. -/
theorem joinWord_lanes {w : WordSpec} {on : WaitOn} {i : Instr} {s : State} {post : Ctx → State → Nat → Thread → State → Prop}
    (he : exec i s = joinWord w on i s) (hp : ∀ c u k t, post c u k t (checkGroup (arrivedAt c u k t on i) t.team t.group)) :
    LaneByLane s w i always (fun _ => s) post := by
  intro c ks hg _
  refine ⟨fun s k => checkJoins (laneStep w c (fun s k t => .wait (setThread s k (waiting c t on i))) s k) k, ?_, fun u k t ht hr => ?_⟩
  · rw [he]
    simp only [joinWord, issueThen, issueGo, hg]
  · have hj : checkJoins (arrivedAt c u k (schedQuiet u c t) on i) k =
        checkGroup (arrivedAt c u k (schedQuiet u c t) on i) (schedQuiet u c t).team (schedQuiet u c t).group := by
      simp only [checkJoins, (LaneEnds.arrivedAt c u k (schedQuiet u c t) on i).mine]
      rfl
    dsimp only
    rw [laneStep_ready ht hr]
    exact hj ▸ hp c u k (schedQuiet u c t)

end Sys2Proof.Machine

namespace Sys2Proof.Machine

/-! Collective words that write registers. -/

/-- A collective word whose participants each write registers from `d` on (R153 to R159). -/
structure Collects (w : WordSpec) (i : Instr) (d : Reg) : Prop where
  runs : ∀ s, exec i s = joinWord w .join i s
  noMatrix : mmaParts i = none
  noDdx : isDdx i = false
  writes : ∀ n ps, ∃ f, joinWrites i n ps = some (d, f)

/-- The last arrival at a word that writes registers: every participant writes its result and completes the word (R147). -/
theorem Collects.last {w : WordSpec} {i : Instr} {d : Reg} (h : Collects w i d) {c : Ctx} {u : State} {k : Nat} {t : Thread}
    (hs : u.ex.threads.Pairwise fun x y => x.1 < y.1) (hl : joining c u k t i ≠ []) (ha : ∀ e ∈ joining c u k t i, AtWord (waiting c t .join i).waitPc i e)
    (ho : joinOvf i (partsOf i (joining c u k t i)) = false) :
    ∃ f, joinWrites i (gridOf u t).width (partsOf i (joining c u k t i)) = some (d, f) ∧
      (checkGroup (arrivedAt c u k t .join i) t.team t.group).mm = u.mm ∧
      ∀ e ∈ joining c u k t i, JoinsWith e (checkGroup (arrivedAt c u k t .join i) t.team t.group) (writeSpan e.2 d.toNat (f (partAt i e))) := by
  obtain ⟨f, hf⟩ := h.writes (gridOf u t).width (partsOf i (joining c u k t i))
  have hrun : checkGroup (arrivedAt c u k t .join i) t.team t.group =
      (joining c u k t i).foldl (joinWrite i (partsOf i (joining c u k t i)) d f) (arrivedAt c u k t .join i) :=
    (checkGroup_joined (s := arrivedAt c u k t .join i) hl ha h.noDdx).trans (runJoined_writes _ h.noMatrix ho hf)
  rw [hrun]
  refine ⟨f, hf, (OnlyThreads.foldl (fun s e => .joinWrite i _ d f s e) _ _).mm, fun e he => ?_⟩
  rw [← joinResult_of_not_ddx h.noDdx]
  exact foldl_joinWrite i d f (listed_joining hs c k t .join i _ _) (participants_ascend _ _ _) e he

/-- What a lane that reaches such a word brings about (R147, R148). -/
theorem Collects.reached {w : WordSpec} {i : Instr} {d : Reg} (h : Collects w i d) (s : State) :
    LaneByLane s w i always (fun _ => s) fun c u k t v => JoinReached c u k t v i fun e ps p =>
      ∀ r, joinWrites i (gridOf u t).width ps = some r → joinOvf i ps = false → JoinsWith e v (writeSpan e.2 d.toNat (r.2 p)) := by
  refine joinWord_lanes (h.runs s) fun c u k t hs _ => ⟨fun hw _ hd => ?_, fun ha e he p hp hg r hr ho => ?_⟩
  · rw [checkGroup_waits (s := arrivedAt c u k t .join i) hw hd]
    exact .arrivedAt c u k t .join i
  · obtain ⟨f, hf, -, hj⟩ := h.last hs (List.ne_nil_of_mem he) ha ho
    cases hr.symm.trans hf
    rw [eq_partAt (participants_ascend _ _ _) he hp hg]
    exact hj e he

/-- In a bundle of one lane that is the last to arrive, such a word completes in every participant (R147). -/
theorem Collects.completes {w : WordSpec} {i : Instr} {d : Reg} (h : Collects w i d) :
    Completes w i (fun c u k t => AllAtWord c u k t i (joining c u k t i) ∧ joinOvf i (partsOf i (joining c u k t i)) = false)
      fun c u k t v => let ps := partsOf i (joining c u k t i)
        ∃ r, joinWrites i (gridOf u t).width ps = some r ∧ v.mm = u.mm ∧
          ∀ e ∈ joining c u k t i, ∃ p ∈ ps, p.g = e.2.glane ∧ JoinsWith e v (writeSpan e.2 d.toNat (r.2 p)) := by
  refine LaneByLane.completes fun s => joinWord_lanes (h.runs s) fun c u k t ⟨ha, ho⟩ => ?_
  obtain ⟨f, hf, hmm, hj⟩ := h.last ha.listed (List.ne_nil_of_mem ha.mine) ha.all ho
  exact ⟨(d, f), hf, hmm, fun e he => ⟨partAt i e, partAt_mem i he, rfl, hj e he⟩⟩

/-- The same of a word whose results always fit. -/
theorem Collects.reached_of_fits {w : WordSpec} {i : Instr} {d : Reg} (h : Collects w i d) (ho : ∀ ps, joinOvf i ps = false) (s : State) :
    LaneByLane s w i always (fun _ => s) fun c u k t v => JoinReached c u k t v i fun e ps p =>
      ∀ r, joinWrites i (gridOf u t).width ps = some r → JoinsWith e v (writeSpan e.2 d.toNat (r.2 p)) :=
  (h.reached s).imp fun _ _ _ _ _ hv hs hg => ⟨(hv hs hg).1, fun ha e he p hp hpg r hr => (hv hs hg).2 ha e he p hp hpg r hr (ho _)⟩

theorem Collects.completes_of_fits {w : WordSpec} {i : Instr} {d : Reg} (h : Collects w i d) (ho : ∀ ps, joinOvf i ps = false) :
    Completes w i (fun c u k t => AllAtWord c u k t i (joining c u k t i)) fun c u k t v => let ps := partsOf i (joining c u k t i)
      ∃ r, joinWrites i (gridOf u t).width ps = some r ∧ v.mm = u.mm ∧
        ∀ e ∈ joining c u k t i, ∃ p ∈ ps, p.g = e.2.glane ∧ JoinsWith e v (writeSpan e.2 d.toNat (r.2 p)) :=
  fun s c k t hi ht ha => h.completes s c k t hi ht ⟨ha, ho _⟩

theorem collects_shfl (m : ShflMode) (d a b : Reg) : Collects (opSpec [sp1 a, sp1 b] [sp1 d]) (.shfl m d a b) d :=
  ⟨fun _ => rfl, rfl, rfl, fun _ _ => ⟨_, rfl⟩⟩
theorem collects_gpoll (m : GpollMode) (d a : Reg) : Collects (opSpec [sp1 a] [gpollD m d]) (.gpoll m d a) d :=
  ⟨fun _ => rfl, rfl, rfl, fun _ _ => ⟨_, rfl⟩⟩
theorem collects_ired (m : IredOp) (d a : Reg) : Collects (opSpec [sp1 a] [sp1 d]) (.ired m d a) d :=
  ⟨fun _ => rfl, rfl, rfl, fun _ _ => ⟨_, rfl⟩⟩
theorem collects_fred (m : FredOp) (d a : Reg) : Collects (opSpec [sp1 a] [sp1 d]) (.fred m d a) d :=
  ⟨fun _ => rfl, rfl, rfl, fun _ _ => ⟨_, rfl⟩⟩
theorem collects_iscan (ex : Bool) (m : IscanOp) (d a : Reg) : Collects (opSpec [sp1 a] [sp1 d]) (.iscan ex m d a) d :=
  ⟨fun _ => rfl, rfl, rfl, fun _ _ => ⟨_, rfl⟩⟩
theorem collects_fscan (ex : Bool) (m : FscanOp) (d a : Reg) : Collects (opSpec [sp1 a] [sp1 d]) (.fscan ex m d a) d :=
  ⟨fun _ => rfl, rfl, rfl, fun _ _ => ⟨_, rfl⟩⟩
theorem collects_peers (d a : Reg) : Collects (opSpec [sp1 a] [sp2 d]) (.peers d a) d :=
  ⟨fun _ => rfl, rfl, rfl, fun _ _ => ⟨_, rfl⟩⟩
theorem collects_bcast (d a b : Reg) : Collects (opSpec [sp1 a, sp1 b] [sp1 d]) (.bcast d a b) d :=
  ⟨fun _ => rfl, rfl, rfl, fun _ _ => ⟨_, rfl⟩⟩
theorem collects_leader (d : Reg) : Collects (opSpec [] [sp1 d]) (.leader d) d :=
  ⟨fun _ => rfl, rfl, rfl, fun _ _ => ⟨_, rfl⟩⟩
theorem collects_compact (m : CompactW) (d a b : Reg) : Collects (opSpec [sp1 a, sp1 b] [sp1 d]) (.compact m d a b) d :=
  ⟨fun _ => rfl, rfl, rfl, fun _ _ => ⟨_, rfl⟩⟩

/-- COMPACT whose slot overflows its field is FIELD_OVF in every participant (R159). -/
theorem compact_overflows (m : CompactW) (d a b : Reg) (s : State) :
    LaneByLane s (opSpec [sp1 a, sp1 b] [sp1 d]) (.compact m d a b) always (fun _ => s) fun c u k t v =>
      let l := joining c u k t (.compact m d a b)
      AllAtWord c u k t (.compact m d a b) l → compactOvf m (partsOf (.compact m d a b) l) = true →
        v = l.foldl (fun s e => deliver s e.1 0x0F 0 e.2.pc) (leaveBundle (setThread u k (waiting c t .join (.compact m d a b))) k) :=
  joinWord_lanes rfl fun c u k t ha ho =>
    (checkGroup_joined (s := arrivedAt c u k t .join _) (List.ne_nil_of_mem ha.mine) ha.all rfl).trans (runJoined_ovf _ _ rfl ho)

/-! GJOIN (R161). -/

/-- The last arrival at GJOIN: every participant goes on, and memory stays. -/
theorem gjoin_last {c : Ctx} {u : State} {k : Nat} {t : Thread} (hs : u.ex.threads.Pairwise fun x y => x.1 < y.1)
    (ha : ∀ e ∈ participants (setThread u k (waiting c t .gjoin .gjoin)) t.team t.group,
      e.2.st = .waiting ∧ e.2.waitOn = .gjoin ∧ e.2.dstop = false) :
    (checkGroup (arrivedAt c u k t .gjoin .gjoin) t.team t.group).mm = u.mm ∧
      ∀ e ∈ participants (setThread u k (waiting c t .gjoin .gjoin)) t.team t.group,
        JoinsWith e (checkGroup (arrivedAt c u k t .gjoin .gjoin) t.team t.group) e.2 := by
  rw [checkGroup_gjoin (s := arrivedAt c u k t .gjoin .gjoin) ha]
  exact ⟨(OnlyThreads.foldl (fun s (e : Nat × Thread) => .modThread s e.1 _) _ _).mm, foldl_release (listed_joining hs c k t .gjoin .gjoin _ _)⟩

/-! DDX (R160). -/

/-- Every participant of a group that waits for a join at the PC of a DDX holds that DDX. -/
def HoldsDdx (c : Ctx) (u : State) (k : Nat) (t : Thread) (i : Instr) : Prop :=
  ∀ e ∈ joining c u k t i, e.2.waitOn = .join → e.2.waitPc = (waiting c t .join i).waitPc → e.2.held.map (·.instr) = some i

/-- A DDX of the last arrival in its quad: the check of the group is that of its quads. -/
theorem ddx_quads {c : Ctx} {u : State} {k : Nat} {t : Thread} {m : DdxMode} {d a : Reg} (hh : HoldsDdx c u k t (.ddx m d a))
    {e : Nat × Thread} (he : e ∈ joining c u k t (.ddx m d a)) (hon : e.2.waitOn = .join)
    (hpc : e.2.waitPc = (waiting c t .join (.ddx m d a)).waitPc) :
    ∃ n, checkGroup (arrivedAt c u k t .join (.ddx m d a)) t.team t.group =
      checkQuads (arrivedAt c u k t .join (.ddx m d a)) (joining c u k t (.ddx m d a)) n := by
  refine checkGroup_quads (s := arrivedAt c u k t .join (.ddx m d a)) he hon fun i hi => ?_
  obtain ⟨x, hx, hxi, hall⟩ := of_joinedAt hi
  have hxpc : x.2.waitPc = (waiting c t .join (.ddx m d a)).waitPc := (hall e he).2.2.symm.trans hpc
  cases hxi.symm.trans (hh x hx (hall x hx).2.1 hxpc)
  rfl

/-- The thread of a participant of DDX with its result written, and an absent position noted. -/
theorem joinResult_ddx (m : DdxMode) (d a : Reg) (ps : List Part) (e : Nat × Thread) :
    joinResult (.ddx m d a) ps d (fun p => [(ddxVal m ps p).1]) e =
      { writeReg e.2 d.toNat (ddxVal m ps (partAt (.ddx m d a) e)).1 with
        derivLost := e.2.derivLost || (ddxVal m ps (partAt (.ddx m d a) e)).2 } := rfl

/-- The last arrival in a quad at DDX: every participant of the quad writes its result and completes the word, and memory stays. -/
theorem ddx_last {c : Ctx} {u : State} {k : Nat} {t : Thread} {m : DdxMode} {d a : Reg} (hs : u.ex.threads.Pairwise fun x y => x.1 < y.1)
    (hh : HoldsDdx c u k t (.ddx m d a))
    (ha : ∀ e ∈ quadOf (joining c u k t (.ddx m d a)) (t.glane / 4), AtWord (waiting c t .join (.ddx m d a)).waitPc (.ddx m d a) e)
    {e : Nat × Thread} (he : e ∈ quadOf (joining c u k t (.ddx m d a)) (t.glane / 4)) :
    let ps := partsOf (.ddx m d a) (quadOf (joining c u k t (.ddx m d a)) (t.glane / 4))
    let v := checkGroup (arrivedAt c u k t .join (.ddx m d a)) t.team t.group
    v.mm = u.mm ∧ JoinsWith e v { writeReg e.2 d.toNat (ddxVal m ps (partAt (.ddx m d a) e)).1 with
      derivLost := e.2.derivLost || (ddxVal m ps (partAt (.ddx m d a) e)).2 } := by
  obtain ⟨-, hon, -, hpc, -⟩ := ha e he
  obtain ⟨n, hn⟩ := ddx_quads hh (List.mem_of_mem_filter he) hon hpc
  intro ps v
  refine ⟨?_, ?_⟩
  · rw [show v = _ from hn, checkQuads_eq]
    exact (OnlyThreads.foldl (fun s q => .runQuad _ n s q) _ _).mm
  · rw [show v = _ from hn, ← joinResult_ddx]
    exact checkQuads_joins (listed_joining hs c k t .join _ _ _) (participants_ascend _ _ _) (fun e he => (mem_participants he).2.2.2) ha n e he

end Sys2Proof.Machine

section
open Sys2Proof Sys2Proof.Machine

/-- Settles O41: the words that write registers by `Collects.reached` and `Collects.completes`, COMPACT's overflow by `compact_overflows`, GJOIN
by `gjoin_last`, DDX by `ddx_last`. -/
theorem collectiveWordsJoin : Obligations.CollectiveWordsJoin := by
  refine ⟨fun m d a b => (collects_shfl m d a b).reached_of_fits fun _ => rfl, fun m d a b => (collects_shfl m d a b).completes_of_fits fun _ => rfl,
    fun m d a => (collects_gpoll m d a).reached_of_fits fun _ => rfl, fun m d a => (collects_gpoll m d a).completes_of_fits fun _ => rfl,
    fun m d a => (collects_ired m d a).reached_of_fits fun _ => rfl, fun m d a => (collects_ired m d a).completes_of_fits fun _ => rfl,
    fun m d a => (collects_fred m d a).reached_of_fits fun _ => rfl, fun m d a => (collects_fred m d a).completes_of_fits fun _ => rfl,
    fun ex m d a => (collects_iscan ex m d a).reached_of_fits fun _ => rfl,
    fun ex m d a => (collects_iscan ex m d a).completes_of_fits fun _ => rfl,
    fun ex m d a => (collects_fscan ex m d a).reached_of_fits fun _ => rfl,
    fun ex m d a => (collects_fscan ex m d a).completes_of_fits fun _ => rfl,
    fun d a => (collects_peers d a).reached_of_fits fun _ => rfl, fun d a => (collects_peers d a).completes_of_fits fun _ => rfl,
    fun d a b => (collects_bcast d a b).reached_of_fits fun _ => rfl, fun d a b => (collects_bcast d a b).completes_of_fits fun _ => rfl,
    fun d => (collects_leader d).reached_of_fits fun _ => rfl, fun d => (collects_leader d).completes_of_fits fun _ => rfl,
    fun m d a b => (collects_compact m d a b).reached, fun m d a b => (collects_compact m d a b).completes,
    compact_overflows, fun s => ?gjoin, ?gjoinCompletes, fun m d a => ?ddxCompletes, fun m d a s => ?ddx⟩
  case gjoin => exact joinWord_lanes rfl fun c u k t ha hs => (gjoin_last hs ha).2
  case gjoinCompletes => exact LaneByLane.completes fun s => joinWord_lanes rfl fun c u k t ⟨_, hs, ha⟩ => gjoin_last hs ha
  case ddxCompletes =>
    refine LaneByLane.completes fun s => joinWord_lanes rfl fun c u k t ⟨hh, ha⟩ => ⟨(ddx_last ha.listed hh ha.all ha.mine).1, fun e he => ?_⟩
    exact ⟨_, partAt_mem _ he, rfl, (ddx_last ha.listed hh ha.all he).2⟩
  case ddx =>
    refine joinWord_lanes rfl fun c u k t ha hh hs _ e he p hp hg => ?_
    rw [eq_partAt ((participants_ascend _ _ _).filter _) he hp hg]
    exact (ddx_last hs hh ha he).2

end

/-! O43: the words of the MMA family (spec/08_matrix_splat.md, R166 to R172). -/

namespace Sys2Proof.Machine

/-! The start of an engine (R168, R169). -/

/-- The oldest operation of an engine takes its mode as it starts, and keeps one that it has; every other operation stays (R168, R169). -/
theorem startEngine_first {s : State} {core e id : Nat} {o : MatOp} {l : Tab MatOp} (h : engineOps s core e = (id, o) :: l)
    (hs : s.ex.matOps.Pairwise fun x y => x.1 < y.1) :
    tget (startEngine s core e).ex.matOps id = some (if o.narrow.isSome then o else { o with narrow := some (s.ex.matNarrow.contains core) }) ∧
      ∀ j, j ≠ id → tget (startEngine s core e).ex.matOps j = tget s.ex.matOps j := by
  have ho : tget s.ex.matOps id = some o :=
    tget_of_mem hs (List.mem_of_mem_filter (h ▸ List.mem_cons_self : (id, o) ∈ engineOps s core e))
  simp only [startEngine, h]
  split
  · exact ⟨ho, fun _ _ => rfl⟩
  · exact ⟨tget_tset_self _ _ _, fun j hj => tget_tset_ne _ _ hj⟩

/-- The start of an engine looks at the operations and at the narrow mode alone. -/
theorem startEngine_congr {s u : State} (ho : u.ex.matOps = s.ex.matOps) (hn : u.ex.matNarrow = s.ex.matNarrow) (core e : Nat) :
    (startEngine u core e).ex.matOps = (startEngine s core e).ex.matOps := by
  simp only [startEngine, show engineOps u core e = engineOps s core e by simp only [engineOps, ho], isNarrow, hn]
  split
  · exact ho
  · split
    · exact ho
    · simp only [ho]

/-! The completed join. -/

/-- What every step of a fold keeps, the fold keeps. -/
theorem foldl_keeps {α β : Type} {p : State → α} {f : State → β → State} (hf : ∀ s x, p (f s x) = p s) (l : List β) (s : State) :
    p (l.foldl f s) = p s := by
  induction l generalizing s with
  | nil => rfl
  | cons x l ih => exact (ih _).trans (hf s x)

theorem deliver_matOps (s : State) (k code addr : Nat) (fpc : Word) : (deliver s k code addr fpc).ex.matOps = s.ex.matOps := by
  unfold deliver
  split
  · rfl
  · dsimp only
    split <;> rfl

/-- The operation through which a participant's D is pending (R168). -/
def pendingOp (n id d : Nat) : Op :=
  { id := n, wid := n, cnt := .uncounted, kind := .matrix id, dest := d, dlen := 8, performed := true }

theorem getThread_pendD (id d : Nat) (s : State) (e : Nat × Thread) (j : Nat) : getThread (pendD id d s e) j =
    if j = e.1 then (getThread s e.1).map fun t => completeWait { t with ops := t.ops ++ [pendingOp s.nextId id d] } (heldWords t)
    else getThread s j := by
  refine (getThread_release _ e.1 j).trans ?_
  split
  · rw [getThread_modThread, if_pos rfl, Option.map_map]
    rfl
  · rw [getThread_modThread, if_neg ‹_›]
    rfl

/-- Every participant completes the word with its D span pending (R168). -/
theorem foldl_pendD {s : State} {l : List (Nat × Thread)} (id d : Nat) (h : Listed s l) :
    ∀ e ∈ l, ∃ n, JoinsWith e (l.foldl (pendD id d) s) { e.2 with ops := e.2.ops ++ [pendingOp n id d] } := fun e he => by
  obtain ⟨t, ht, n, rfl⟩ := foldl_each (P := fun e t => ∃ n, t = completeWait { e.2 with ops := e.2.ops ++ [pendingOp n id d] } (heldWords e.2))
    (fun s e _ hs => ⟨_, by rw [getThread_pendD, if_pos rfl, hs]; rfl, s.nextId, rfl⟩)
    (fun s e j hj => by rw [getThread_pendD, if_neg hj]) h e he
  exact ⟨n, ht⟩

/-- The state in which a matrix operation has entered its engine (R168). -/
def entered (s : State) (op : MatOp) : State :=
  startEngine { s with nextId := s.nextId + 1, ex := { s.ex with matOps := tset s.ex.matOps s.nextId op } } op.core op.engine

/-- The participants whose metadata is not valid (R172). -/
def metaBad (s : State) (t : Thread) (l : List (Nat × Thread)) (p : MmaParts) : List (Nat × Thread) :=
  l.filter fun e => p.2.2.2.2.1 && !metaOk ((gridOf s t).slot p.1.toNat) ((tget (joinedOp s t l p).mask e.2.glane).getD [])

theorem metaBad_eq_nil {s : State} {t : Thread} {l : List (Nat × Thread)} {p : MmaParts} :
    metaBad s t l p = [] ↔ ∀ e ∈ l, MetaValid s t l p e := by
  simp [metaBad, List.filter_eq_nil_iff, MetaValid]

/-- A completed join of participants of one group: SPARSE_META where a participant's metadata is not valid, or one operation (R166, R172). -/
theorem joinMatrix_eq {s : State} {t : Thread} {l : List (Nat × Thread)} (p : MmaParts) (hl : l ≠ [])
    (ht : ∀ e ∈ l, e.2.team = t.team ∧ e.2.group = t.group) : joinMatrix s l p =
      if metaBad s t l p ≠ [] then (metaBad s t l p).foldl (fun s e => deliver s e.1 0x0D 0 e.2.pc) s
      else l.foldl (pendD s.nextId p.2.1.toNat) (entered s (joinedOp s t l p)) := by
  obtain ⟨⟨k0, t0⟩, l, rfl⟩ := List.exists_cons_of_ne_nil hl
  obtain ⟨hteam, hgroup⟩ := ht _ List.mem_cons_self
  obtain ⟨k, d, a, b, sp, un⟩ := p
  simp only [joinMatrix, gridOf_of_team hteam, show t0.team = t.team from hteam, show t0.group = t.group from hgroup]
  rfl

/-- Where a participant's metadata is not valid, no operation starts (R172). -/
theorem joinMatrix_invalid {s : State} {t : Thread} {l : List (Nat × Thread)} {p : MmaParts}
    (ht : ∀ e ∈ l, e.2.team = t.team ∧ e.2.group = t.group) (h : ∃ e ∈ l, ¬ MetaValid s t l p e) :
    (joinMatrix s l p).ex.matOps = s.ex.matOps := by
  obtain ⟨e, he, hv⟩ := h
  rw [joinMatrix_eq p (List.ne_nil_of_mem he) ht, if_pos fun hb => hv (metaBad_eq_nil.1 hb e he)]
  exact foldl_keeps (p := fun s => s.ex.matOps) (fun _ _ => deliver_matOps _ _ _ _ _) _ s

/-- Where every participant's metadata is valid, one operation starts and every participant goes on (R166, R168). -/
theorem joinMatrix_valid {s : State} {t : Thread} {l : List (Nat × Thread)} {p : MmaParts} (hl : l ≠ [])
    (ht : ∀ e ∈ l, e.2.team = t.team ∧ e.2.group = t.group) (h : ∀ e ∈ l, MetaValid s t l p e) (hs : Listed s l) :
    MatrixStarts s t l p (joinMatrix s l p) := by
  rw [joinMatrix_eq p hl ht, if_neg (not_not.2 (metaBad_eq_nil.2 h))]
  refine ⟨?_, ?_, foldl_pendD _ _ ⟨hs.keys, fun e he => (getThread_startEngine _ _ _ _).trans (hs.stands e he)⟩⟩
  · exact (foldl_keeps (p := State.mm) (f := pendD _ _) (fun _ _ => rfl) l _).trans (startEngine_mm _ _ _)
  · exact (foldl_keeps (p := fun s => s.ex.matOps) (f := pendD _ _) (fun _ _ => rfl) l _).trans (startEngine_congr (by rfl) (by rfl) _ _)

/-! The words. -/

/-- An operation is read from the participants, and from what an arrival leaves as it was (R166 to R168). -/
theorem joinedOp_arrivedAt (c : Ctx) (s : State) (k : Nat) (x : Thread) (on : WaitOn) (i : Instr) (t : Thread) (l : List (Nat × Thread))
    (p : MmaParts) : joinedOp (arrivedAt c s k x on i) t l p = joinedOp s t l p := rfl

/-- A word of the MMA family: its join runs a matrix operation of the parts `p` (R166). -/
structure Multiplies (w : State → WordSpec) (i : Instr) (p : MmaParts) : Prop where
  runs : ∀ s, exec i s = joinWord (w s) .join i s
  parts : mmaParts i = some p
  noDdx : isDdx i = false

/-- What a lane that reaches such a word brings about (R147, R166, R168, R172). -/
theorem Multiplies.joins {w : State → WordSpec} {i : Instr} {p : MmaParts} (h : Multiplies w i p) (s : State) :
    LaneByLane s (w s) i always (fun _ => s) fun c u k t v => MatrixJoin c u k t v i p := by
  refine joinWord_lanes (h.runs s) fun c u k t ha => ?_
  have hl := List.ne_nil_of_mem ha.mine
  have hrun : checkGroup (arrivedAt c u k t .join i) t.team t.group = joinMatrix (arrivedAt c u k t .join i) (joining c u k t i) p :=
    (checkGroup_joined (s := arrivedAt c u k t .join i) hl ha.all h.noDdx).trans (runJoined_matrix h.parts _ _ _)
  have hg : ∀ e ∈ joining c u k t i, e.2.team = t.team ∧ e.2.group = t.group := fun e he =>
    ⟨(mem_participants he).2.1, (mem_participants he).2.2.1⟩
  rw [hrun]
  refine ⟨fun hv => joinMatrix_invalid hg hv, fun hv => ?_⟩
  obtain ⟨hmm, hops, heach⟩ := joinMatrix_valid (s := arrivedAt c u k t .join i) hl hg hv (listed_joining ha.listed c k t .join i _ _)
  rw [joinedOp_arrivedAt] at hops
  exact ⟨hmm, hops.trans (startEngine_congr (by rfl) (by rfl) _ _), heach⟩

/-- In a bundle of one lane that is the last to arrive, such a word completes in every participant (R147, R168). -/
theorem Multiplies.starts {w : State → WordSpec} {i : Instr} {p : MmaParts} (h : Multiplies w i p) {s : State} {c : Ctx}
    {j : Nat} {t : Thread} (hi : Issues (w s) c [j] s) (ht : getThread s j = some t)
    (ha : AllAtWord c s j (schedQuiet s c t) i (joining c s j (schedQuiet s c t) i))
    (hv : ∀ e ∈ joining c s j (schedQuiet s c t) i, MetaValid s t (joining c s j (schedQuiet s c t) i) p e) :
    ∃ v, exec i s = .next v ∧ v.cur = none ∧ MatrixStarts s t (joining c s j (schedQuiet s c t) i) p v := by
  obtain ⟨v, he, hj⟩ := (h.joins s).alone hi ht
  rw [schedQuiet_eq] at hj ha hv ⊢
  obtain ⟨hmm, hops, heach⟩ := (hj ha).2 hv
  exact ⟨done v, he, rfl, hmm, hops, heach⟩

end Sys2Proof.Machine

section
open Sys2Proof Sys2Proof.Machine

/-- Settles O43: every word by `Multiplies.joins` and `Multiplies.starts`, the engine by `startEngine_first`. -/
theorem matrixWordsIssue : Obligations.MatrixWordsIssue := by
  have mma k d a b : Multiplies (mmaSpec k d a b false) (.mma k d a b) (k, d, a, b, false, false) := ⟨fun _ => rfl, rfl, rfl⟩
  have mmaU k d a b : Multiplies (mmaSpec k d a b false) (.mmaU k d a b) (k, d, a, b, false, true) := ⟨fun _ => rfl, rfl, rfl⟩
  have mmaSp k d a b : Multiplies (mmaSpec k d a b true) (.mmaSp k d a b) (k, d, a, b, true, false) := ⟨fun _ => rfl, rfl, rfl⟩
  have mmaSpU k d a b : Multiplies (mmaSpec k d a b true) (.mmaSpU k d a b) (k, d, a, b, true, true) := ⟨fun _ => rfl, rfl, rfl⟩
  exact ⟨fun k d a b => (mma k d a b).joins, fun k d a b _ _ _ _ => (mma k d a b).starts,
    fun k d a b => (mmaU k d a b).joins, fun k d a b _ _ _ _ => (mmaU k d a b).starts,
    fun k d a b => (mmaSp k d a b).joins, fun k d a b _ _ _ _ => (mmaSp k d a b).starts,
    fun k d a b => (mmaSpU k d a b).joins, fun k d a b _ _ _ _ => (mmaSpU k d a b).starts,
    fun _ _ _ _ _ _ h hs => startEngine_first h hs⟩

end

/-! O42: what the collective words compute (spec/07_group.md, R153 to R159). -/

namespace Sys2Proof.Machine

/-! SHFL and BCAST (R153, R154). -/

theorem partX_of_mem {l : List Part} (h : l.Pairwise fun x y => x.g < y.g) {q : Part} (hq : q ∈ l) : partX l q.g = some q.x := by
  rw [partX, find?_key h hq]
  rfl

theorem partX_of_absent {l : List Part} {g : Nat} (h : ∀ q ∈ l, q.g ≠ g) : partX l g = none := by
  simpa [partX] using h

theorem shflVal_lane (w : Nat) (l : List Part) (p : Part) : shflVal .lane w l p = (partX l (p.y.toNat % w)).getD p.x := rfl

theorem shflVal_below (w : Nat) (l : List Part) (p : Part) :
    shflVal .below w l p = if p.y.toNat ≤ p.g then (partX l (p.g - p.y.toNat)).getD p.x else p.x := by
  simp only [shflVal]
  split <;> rfl

theorem shflVal_above (w : Nat) (l : List Part) (p : Part) :
    shflVal .above w l p = if p.g + p.y.toNat < w then (partX l (p.g + p.y.toNat)).getD p.x else p.x := by
  simp only [shflVal]
  split <;> rfl

theorem shflVal_flip (w : Nat) (l : List Part) (p : Part) : shflVal .flip w l p = (partX l (p.g ^^^ (p.y.toNat % w))).getD p.x := rfl

theorem lowY_of_head {l : List Part} {f : Part} (h : l.head? = some f) : lowY l = f.y.toNat := by simp [lowY, h]

/-- SHFL and BCAST take the value of the lane that they name, where it is a participant. -/
theorem shfl_of_present {l : List Part} {q : Part} (w : Nat) (p : Part) (hq : q ∈ l) (h : l.Pairwise fun x y => x.g < y.g) :
    (q.g = p.y.toNat % w → shflVal .lane w l p = q.x) ∧ (q.g + p.y.toNat = p.g → shflVal .below w l p = q.x) ∧
      (q.g = p.g + p.y.toNat → q.g < w → shflVal .above w l p = q.x) ∧ (q.g = p.g ^^^ (p.y.toNat % w) → shflVal .flip w l p = q.x) ∧
      ∀ f, l.head? = some f → q.g = f.y.toNat % w → bcastVal w l p = q.x := by
  have hx := partX_of_mem h hq
  refine ⟨fun hg => ?_, fun hg => ?_, fun hg hw => ?_, fun hg => ?_, fun f hf hg => ?_⟩
  · rw [shflVal_lane, ← hg, hx]; rfl
  · rw [shflVal_below, if_pos (by omega), show p.g - p.y.toNat = q.g by omega, hx]; rfl
  · rw [shflVal_above, if_pos (hg ▸ hw), ← hg, hx]; rfl
  · rw [shflVal_flip, ← hg, hx]; rfl
  · rw [bcastVal, lowY_of_head hf, ← hg, hx]; rfl

/-- They take the lane's own value, where the lane that they name is beyond the group or no participant. -/
theorem shfl_of_absent (w : Nat) (l : List Part) (p : Part) :
    ((∀ q ∈ l, q.g ≠ p.y.toNat % w) → shflVal .lane w l p = p.x) ∧ ((∀ q ∈ l, q.g + p.y.toNat ≠ p.g) → shflVal .below w l p = p.x) ∧
      ((∀ q ∈ l, q.g = p.g + p.y.toNat → w ≤ q.g) → shflVal .above w l p = p.x) ∧
      ((∀ q ∈ l, q.g ≠ p.g ^^^ (p.y.toNat % w)) → shflVal .flip w l p = p.x) ∧
      ∀ f, l.head? = some f → (∀ q ∈ l, q.g ≠ f.y.toNat % w) → bcastVal w l p = p.x := by
  refine ⟨fun h => ?_, fun h => ?_, fun h => ?_, fun h => ?_, fun f hf h => ?_⟩
  · rw [shflVal_lane, partX_of_absent h]; rfl
  · rw [shflVal_below]
    split
    · rw [partX_of_absent fun q hq hg => h q hq (by omega)]; rfl
    · rfl
  · rw [shflVal_above]
    split
    · rw [partX_of_absent fun q hq hg => by have := h q hq hg; omega]; rfl
    · rfl
  · rw [shflVal_flip, partX_of_absent h]; rfl
  · rw [bcastVal, lowY_of_head hf, partX_of_absent h]; rfl

/-! IRED and ISCAN (R156). -/

theorem iredVal_add (l : List Part) : iredVal .add l = (l.map (·.x)).sum := List.sum_eq_foldl.symm

theorem getLsbD_foldl_and (l : List Word) (a : Word) (i : Nat) :
    (l.foldl (fun a b => a &&& b) a).getLsbD i = (a.getLsbD i && l.all fun x => x.getLsbD i) := by
  induction l generalizing a with
  | nil => simp
  | cons x l ih => rw [List.foldl_cons, ih, BitVec.getLsbD_and, List.all_cons, Bool.and_assoc]

theorem getLsbD_foldl_or (l : List Word) (a : Word) (i : Nat) :
    (l.foldl (fun a b => a ||| b) a).getLsbD i = (a.getLsbD i || l.any fun x => x.getLsbD i) := by
  induction l generalizing a with
  | nil => simp
  | cons x l ih => rw [List.foldl_cons, ih, BitVec.getLsbD_or, List.any_cons, Bool.or_assoc]

/-- A bit of an exclusive or is the parity of the ones. -/
theorem getLsbD_foldl_xor (l : List Word) (a : Word) (i : Nat) :
    (l.foldl (fun a b => a ^^^ b) a).getLsbD i = (a.getLsbD i ^^ decide ((l.filter fun x => x.getLsbD i).length % 2 = 1)) := by
  induction l generalizing a with
  | nil => simp
  | cons x l ih =>
    rw [List.foldl_cons, ih, BitVec.getLsbD_xor, Bool.xor_assoc]
    cases hx : x.getLsbD i
    · simp [hx]
    · have hp (n : Nat) : decide ((n + 1) % 2 = 1) = !decide (n % 2 = 1) := by
        rw [← decide_not]
        exact decide_eq_decide.2 (by omega)
      rw [List.filter_cons, if_pos hx, List.length_cons, hp, Bool.true_xor]

theorem getLsbD_iredVal_and (l : List Part) (i : Nat) : (iredVal .and l).getLsbD i = (decide (i < 32) && l.all fun p => p.x.getLsbD i) := by
  rw [iredVal, iredOp, getLsbD_foldl_and, show (0xFFFFFFFF : Word) = BitVec.allOnes 32 from rfl, BitVec.getLsbD_allOnes, List.all_map]
  rfl

theorem getLsbD_iredVal_or (l : List Part) (i : Nat) : (iredVal .or l).getLsbD i = l.any fun p => p.x.getLsbD i := by
  rw [iredVal, iredOp, getLsbD_foldl_or, List.any_map]
  simp [Function.comp_def]

theorem getLsbD_iredVal_xor (l : List Part) (i : Nat) :
    (iredVal .xor l).getLsbD i = decide ((l.filter fun p => p.x.getLsbD i).length % 2 = 1) := by
  rw [iredVal, iredOp, getLsbD_foldl_xor, List.filter_map, List.length_map]
  simp [Function.comp_def]

/-- A fold that keeps the lower of two keys, a tie the earlier, ends with its start or a member, and none has a lower key. -/
theorem foldl_lower {β : Type} [LinearOrder β] (k : Word → β) {op : Word → Word → Word} (ho : ∀ a b, op a b = if k b < k a then b else a)
    (l : List Word) (a : Word) :
    (l.foldl op a = a ∨ l.foldl op a ∈ l) ∧ k (l.foldl op a) ≤ k a ∧ ∀ x ∈ l, k (l.foldl op a) ≤ k x := by
  induction l generalizing a with
  | nil => simp
  | cons x l ih =>
    obtain ⟨hm, ha, hl⟩ := ih (op a x)
    have hax : k (op a x) ≤ k a ∧ k (op a x) ≤ k x := by
      rw [ho]
      split
      · exact ⟨le_of_lt ‹_›, le_rfl⟩
      · exact ⟨le_rfl, not_lt.1 ‹_›⟩
    have hor : op a x = a ∨ op a x = x := by
      rw [ho]
      split
      · exact .inr rfl
      · exact .inl rfl
    rw [List.foldl_cons]
    refine ⟨?_, ha.trans hax.1, fun y hy => ?_⟩
    · rcases hm with hm | hm
      · exact hor.imp hm.trans fun hx => List.mem_cons.2 (.inl (hm.trans hx))
      · exact .inr (List.mem_cons_of_mem _ hm)
    · rcases List.mem_cons.1 hy with rfl | hy
      · exact ha.trans hax.2
      · exact hl y hy

/-- From a start of the highest key such a fold over participants ends with the lowest of their keys. -/
theorem foldl_lowest {β : Type} [LinearOrder β] (k : Word → β) {op : Word → Word → Word} (ho : ∀ a b, op a b = if k b < k a then b else a)
    {a : Word} (ha : ∀ x, k x ≤ k a) {l : List Part} (hl : l ≠ []) :
    k ((l.map (·.x)).foldl op a) ∈ l.map (fun p => k p.x) ∧ ∀ p ∈ l, k ((l.map (·.x)).foldl op a) ≤ k p.x := by
  obtain ⟨hm, -, hle⟩ := foldl_lower k ho (l.map (·.x)) a
  have hle : ∀ p ∈ l, k ((l.map (·.x)).foldl op a) ≤ k p.x := fun p hp => hle _ (List.mem_map_of_mem hp)
  refine ⟨?_, hle⟩
  rcases hm with hm | hm
  · obtain ⟨p, hp⟩ := List.exists_mem_of_ne_nil l hl
    exact List.mem_map.2 ⟨p, hp, le_antisymm ((ha _).trans_eq (congrArg k hm.symm)) (hle p hp)⟩
  · obtain ⟨p, hp, he⟩ := List.mem_map.1 hm
    exact List.mem_map.2 ⟨p, hp, congrArg k he⟩

theorem iredVal_minN {l : List Part} (hl : l ≠ []) :
    (iredVal .minN l).toNat ∈ l.map (·.x.toNat) ∧ ∀ p ∈ l, (iredVal .minN l).toNat ≤ p.x.toNat :=
  foldl_lowest BitVec.toNat (op := iminVal .n) (a := 0xFFFFFFFF) (fun a b => by simp [iminVal, ltS_eq]) (fun x => Nat.le_of_lt_succ x.isLt) hl

theorem iredVal_maxN {l : List Part} (hl : l ≠ []) :
    (iredVal .maxN l).toNat ∈ l.map (·.x.toNat) ∧ ∀ p ∈ l, p.x.toNat ≤ (iredVal .maxN l).toNat :=
  foldl_lowest (fun x => OrderDual.toDual x.toNat) (op := imaxVal .n) (a := 0) (fun a b => by simp [imaxVal, ltS_eq]) (fun x => Nat.zero_le x.toNat) hl

theorem iredVal_minI {l : List Part} (hl : l ≠ []) :
    (iredVal .minI l).toInt ∈ l.map (·.x.toInt) ∧ ∀ p ∈ l, (iredVal .minI l).toInt ≤ p.x.toInt :=
  foldl_lowest BitVec.toInt (op := iminVal .i) (a := 0x7FFFFFFF) (fun a b => by simp [iminVal, ltS_eq]) (fun _ => BitVec.toInt_le) hl

theorem iredVal_maxI {l : List Part} (hl : l ≠ []) :
    (iredVal .maxI l).toInt ∈ l.map (·.x.toInt) ∧ ∀ p ∈ l, p.x.toInt ≤ (iredVal .maxI l).toInt :=
  foldl_lowest (fun x => OrderDual.toDual x.toInt) (op := imaxVal .i) (a := 0x80000000) (fun a b => by simp [imaxVal, ltS_eq]) BitVec.le_toInt hl

/-- ISCAN combines the lanes up to its own, or before it; before the lowest lane there are none (R156). -/
theorem iscanVal_eq (m : IscanOp) (l : List Part) (p : Part) :
    iscanVal false m l p = iredVal (iscanOp m) (l.filter fun q => q.g ≤ p.g) ∧
      iscanVal true m l p = iredVal (iscanOp m) (l.filter fun q => q.g < p.g) := by
  simp [iscanVal]

theorem iscanVal_first {l : List Part} {p : Part} (h : ∀ q ∈ l, p.g ≤ q.g) (m : IscanOp) :
    iscanVal true m l p = (iredOp (iscanOp m)).2 := by
  have hl : (l.filter fun q => decide (q.g < p.g)) = [] := List.filter_eq_nil_iff.2 fun q hq => by simpa using h q hq
  rw [(iscanVal_eq m l p).2, hl]
  rfl

/-! GPOLL, PEERS and LEADER (R155). -/

theorem natSpan_length (n x : Nat) : (natSpan n x).length = n := by
  induction n generalizing x with
  | zero => rfl
  | succ n ih => simp [natSpan, ih]

theorem spanNat_natSpan (n x : Nat) : spanNat (natSpan n x) = x % (2 ^ 32) ^ n := by
  induction n generalizing x with
  | zero => simp [natSpan, spanNat, Nat.mod_one]
  | succ n ih => rw [natSpan, spanNat, ih, BitVec.toNat_ofNat, Nat.pow_succ' (n := n), Nat.mod_mul]

/-- A bit of the mask is set where that lane is a participant that meets the condition. -/
theorem testBit_maskOf {l : List Part} (h : l.Pairwise fun x y => x.g < y.g) (f : Part → Bool) {i : Nat} (hi : i < 64) :
    (spanNat (maskOf l f)).testBit i = true ↔ ∃ q ∈ l, q.g = i ∧ f q = true := by
  have hs : ((l.filter f).map (·.g)).SortedLT := (List.pairwise_map.2 (h.filter f)).sortedLT
  have hsum : ((l.filter f).map fun p => 2 ^ p.g).sum = (((l.filter f).map (·.g)).map fun i => 2 ^ i).sum := by rw [List.map_map]; rfl
  rw [maskOf, spanNat_natSpan, ← Nat.pow_mul, Nat.testBit_mod_two_pow, hsum, Bool.and_eq_true, decide_eq_true_eq, ← Nat.mem_bitIndices,
    Nat.bitIndices_sum_map_two_pow hs, and_iff_right hi]
  simp only [List.mem_map, List.mem_filter]
  exact ⟨fun ⟨q, ⟨hq, hf⟩, hg⟩ => ⟨q, hq, hg, hf⟩, fun ⟨q, hq, hg, hf⟩ => ⟨q, ⟨hq, hf⟩, hg⟩⟩

theorem bitWord_eq_one (b : Bool) : [if b = true then (1 : Word) else 0] = [1] ↔ b = true := by cases b <;> decide

theorem gpollVal_some (l : List Part) (p : Part) : gpollVal .some l p = [1] ↔ ∃ q ∈ l, q.x ≠ 0 :=
  (bitWord_eq_one _).trans (by simp)

theorem gpollVal_every (l : List Part) (p : Part) : gpollVal .every l p = [1] ↔ ∀ q ∈ l, q.x ≠ 0 :=
  (bitWord_eq_one _).trans (by simp)

theorem gpollVal_same (l : List Part) (p : Part) : gpollVal .same l p = [1] ↔ ∀ q ∈ l, q.x = p.x :=
  (bitWord_eq_one _).trans (by simp)

/-- The first of participants in ascending group lane has the lowest one. -/
theorem head_is_lowest {l : List Part} (h : l.Pairwise fun x y => x.g < y.g) {p : Part} (hp : p ∈ l) :
    l.head?.map (·.g) = some p.g ↔ ∀ q ∈ l, p.g ≤ q.g := by
  cases l with
  | nil => cases hp
  | cons f l =>
    have hf := (List.pairwise_cons.1 h).1
    have hfp : f.g ≤ p.g := by
      rcases List.mem_cons.1 hp with rfl | hp
      · exact le_rfl
      · exact (hf p hp).le
    constructor
    · intro he q hq
      obtain rfl | hq := List.mem_cons.1 hq
      · exact (Option.some.inj he).ge
      · exact (Option.some.inj he) ▸ (hf q hq).le
    · exact fun hall => congrArg some (le_antisymm hfp (hall f List.mem_cons_self))

/-! FRED and FSCAN (R157, R158). -/

/-- The tree over lanes of which one has a value has one. -/
theorem fredTree_isSome (m : FredOp) (x : Nat → Option Word) (n g : Nat) (h : ∃ i, g ≤ i ∧ i < g + 2 ^ n ∧ (x i).isSome = true) :
    (fredTree m x n g).isSome = true := by
  induction n generalizing g with
  | zero =>
    obtain ⟨i, hgi, hi, hx⟩ := h
    rw [fredTree, show g = i by omega]
    exact hx
  | succ n ih =>
    obtain ⟨i, hgi, hi, hx⟩ := h
    rw [fredTree]
    by_cases hlow : i < g + 2 ^ n
    · obtain ⟨a, ha⟩ := Option.isSome_iff_exists.1 (ih g ⟨i, hgi, hlow, hx⟩)
      cases hb : fredTree m x n (g + 2 ^ n) <;> simp [ha]
    · obtain ⟨b, hb⟩ := Option.isSome_iff_exists.1 (ih (g + 2 ^ n) ⟨i, by omega, by rw [Nat.pow_succ] at hi; omega, hx⟩)
      cases ha : fredTree m x n g <;> simp [hb]

/-- FRED of a group of 2^n lanes is the root of its tree (R157). -/
theorem fredVal_root (m : FredOp) {n : Nat} {l : List Part} (h : l.Pairwise fun x y => x.g < y.g) {p : Part} (hp : p ∈ l) (hw : p.g < 2 ^ n) :
    ∃ x, fredTree m (partX l) n 0 = some x ∧ fredVal m (2 ^ n) l = canon32 x := by
  obtain ⟨x, hx⟩ := Option.isSome_iff_exists.1 (fredTree_isSome m (partX l) n 0 ⟨p.g, Nat.zero_le _, by omega, by rw [partX_of_mem h hp]; rfl⟩)
  exact ⟨x, hx, by rw [fredVal, Nat.log2_two_pow, hx]; rfl⟩

/-- A node of the tree: where one half has no value it is the other half's, and else the two halves' combination (R157). -/
theorem fredTree_node (m : FredOp) (x : Nat → Option Word) (n g : Nat) :
    (fredTree m x n (g + 2 ^ n) = none → fredTree m x (n + 1) g = fredTree m x n g) ∧
      (fredTree m x n g = none → fredTree m x (n + 1) g = fredTree m x n (g + 2 ^ n)) ∧
      ∀ a b, fredTree m x n g = some a → fredTree m x n (g + 2 ^ n) = some b → fredTree m x (n + 1) g = some (fredOp m a b) := by
  refine ⟨fun h => ?_, fun h => ?_, fun a b ha hb => ?_⟩
  · simp only [fredTree, h]
  · simp only [fredTree, h]
    cases fredTree m x n (g + 2 ^ n) <;> rfl
  · simp only [fredTree, ha, hb]

/-- The participants that FSCAN combines for a lane (R158). -/
def scanned (ex : Bool) (l : List Part) (p : Part) : List Part := l.filter fun q => if ex then decide (q.g < p.g) else decide (q.g ≤ p.g)

theorem fscanVal_eq (ex : Bool) (m : FscanOp) (l : List Part) (p : Part) :
    fscanVal ex m l p = canon32 ((runVal (fscanOp m).1 ((scanned ex l p).map (·.x))).getD (fscanOp m).2) := by
  cases ex <;> simp [fscanVal, scanned]

/-- The identities of FSCAN are no NaNs. -/
theorem canon32_identity (m : FscanOp) : canon32 (fscanOp m).2 = (fscanOp m).2 := by cases m <;> decide

/-! COMPACT (R159). -/

theorem compactVal_eq {l : List Part} {f : Part} (h : l.head? = some f) (p : Part) :
    compactVal l p = f.y.toNat + (l.filter fun q => decide (q.g < p.g) && decide (q.x ≠ 0)).length := by
  have hx : (fun q : Part => decide (q.g < p.g) && (q.x != 0)) = fun q => decide (q.g < p.g) && decide (q.x ≠ 0) :=
    funext fun q => by rw [Bool.eq_iff_iff]; simp
  rw [compactVal, lowY_of_head h, hx]

end Sys2Proof.Machine

section
open Sys2Proof Sys2Proof.Machine

/-- Settles O42: clause by clause, by the lemma of each word. -/
theorem collectiveValues : Obligations.CollectiveValues := by
  refine ⟨fun w l => ⟨fun _ _ _ _ => rfl, fun _ _ _ => rfl, fun _ _ _ => rfl, fun _ _ _ => rfl, fun _ _ _ _ => rfl, fun _ _ _ _ => rfl,
      fun _ _ _ => rfl, fun _ _ _ _ => rfl⟩,
    fun w l p q ⟨hq, hl⟩ => shfl_of_present w p hq hl, shfl_of_absent,
    fun l => ⟨iredVal_add l, getLsbD_iredVal_and l, getLsbD_iredVal_or l, getLsbD_iredVal_xor l, iredVal_minN, iredVal_maxN, iredVal_minI,
      iredVal_maxI⟩,
    fun m l p => ⟨(iscanVal_eq m l p).1, (iscanVal_eq m l p).2, fun h => ⟨iscanVal_first h .add, iscanVal_first h .or, iscanVal_first h .maxI,
      iscanVal_first h .minI⟩⟩,
    fun l f p i _ hl _ hi => ⟨testBit_maskOf hl f hi, rfl, gpollVal_some l p, gpollVal_every l p, gpollVal_same l p⟩,
    fun w l p d a i _ hl hp hi => ⟨?peers, ?leader⟩, fun m w l p hl hp hw => ⟨fun hw1 => ?fred1, fun n hn => ?fred⟩,
    fun m l g => ⟨fun q hq hg hl => hg ▸ partX_of_mem hl hq, partX_of_absent, fun n => ?node⟩, fun ex m l p => ⟨fun hq => ?fscan0, fun a r hq => ?fscan⟩,
    fun l p f hf => compactVal_eq hf p, fun l m => ?ovf⟩
  case peers =>
    refine ⟨_, rfl, natSpan_length _ _, (testBit_maskOf hl _ hi).trans ?_⟩
    simp only [beq_iff_eq]
  case leader =>
    refine ⟨_, rfl, fun h => ?_, fun ⟨q, hq, hlt⟩ => ?_⟩
    · simp only [(head_is_lowest hl hp).2 h, if_true]
    · simp only [mt (head_is_lowest hl hp).1 fun h => absurd (h q hq) (by omega), if_false]
  case fred1 =>
    subst hw1
    obtain ⟨x, hx, hv⟩ := fredVal_root m (n := 0) hl hp (hw p hp)
    have h0 : p.g = 0 := Nat.lt_one_iff.1 (hw p hp)
    have hpx := partX_of_mem hl hp
    rw [h0] at hpx
    cases hx.symm.trans hpx
    exact hv
  case fred =>
    subst hn
    exact fredVal_root m hl hp (hw p hp)
  case node =>
    obtain ⟨hlow, hhigh, hboth⟩ := fredTree_node m (partX l) n g
    exact ⟨hlow, hhigh, fun a b ha hb => by cases m <;> exact hboth a b ha hb⟩
  case fscan0 =>
    rw [fscanVal_eq, show scanned ex l p = [] from hq]
    cases m <;> exact canon32_identity _
  case fscan =>
    rw [fscanVal_eq, show scanned ex l p = a :: r from hq]
    cases m <;> rfl
  case ovf =>
    simp only [compactOvf, List.any_eq_true, decide_eq_true_eq]
    cases m <;> exact Iff.rfl

end

/-! O20: the splat and triangle words (spec/08_matrix_splat.md, R174 to R178). -/

namespace Sys2Proof.Machine

/-- A register of a span, read after the span is written. -/
theorem readReg_writeSpan_mem (xs : List Word) (t : Thread) (n : Nat) {i : Nat} (hi : i < xs.length) :
    readReg (writeSpan t n xs) (n + i) = xs[i] := by
  rw [readReg_writeSpan, if_pos (by omega), Nat.add_sub_cancel_left, List.getElem?_eq_getElem hi, Option.getD_some]

/-- A span that is read back from where it was written. -/
theorem map_readReg_writeSpan (xs : List Word) (t : Thread) (n : Nat) :
    ((List.range xs.length).map fun i => readReg (writeSpan t n xs) (n + i)) = xs :=
  List.ext_getElem (by simp) fun i _ hi => by simp [readReg_writeSpan_mem xs t n hi]

/-- Registers written with what they hold. -/
theorem setSpan_self (t : Thread) (d : Reg) (n : Nat) : setSpan t d ((List.range n).map fun i => readReg t (d.toNat + i)) = readReg t := by
  funext m
  rw [setSpan, List.length_map, List.length_range, ite_eq_right_iff]
  intro hm
  rw [List.getElem?_map, List.getElem?_range (by omega), Option.map_some, Option.getD_some, Nat.add_sub_cancel' hm.1]

theorem setSpan_nil (t : Thread) (d : Reg) : setSpan t d [] = readReg t := funext fun _ => if_neg fun hm => absurd hm.2 (Nat.not_lt.2 hm.1)

/-- SPBLEND leaves a lane as it is: T is below 2^-13 or a NaN, or alpha lies outside (0, 1] (R176). -/
abbrev spblendStops (d b : Reg) (t : Thread) : Prop :=
  regVal t d 3 = .nan ∨ (regVal t d 3).lt (.fin false 1 (-13)) ∨ ¬ (Ext.lt (.fin false 0 0) (regVal t b 0)) ∨
    (Ext.fin false 1 0).lt (regVal t b 0)

/-- The colour and the transmittance after a splat of weight `w` (R176). -/
def blendedWords (d a b : Reg) (t : Thread) (w : Nat) : List Word :=
  let channel (i : Nat) : Word := w32 (round .fp32 .rne false (sumExt false [regVal t d i, (value .fp32 w).mul (regVal t a i)]))
  [channel 0, channel 1, channel 2,
    w32 (round .fp32 .rne false ((regVal t d 3).mul (sumExt false [.fin false 1 0, (regVal t b 0).neg])))]

/-- What SPBLEND writes from D on: nothing, or the four words of the pixel (R176). -/
def spblendWords (d a b : Reg) (t : Thread) : List Word :=
  if spblendStops d b t then [] else blendedWords d a b t (round .fp32 .rne false ((regVal t d 3).mul (regVal t b 0)))

theorem spblendLane_eq (d a b : Reg) (t : Thread) : spblendLane d a b t = writeSpan t d.toNat (spblendWords d a b t) := by
  by_cases h : spblendStops d b t
  case pos => rw [spblendWords, if_pos h]; exact if_pos h
  case neg => rw [spblendWords, if_neg h]; exact if_neg h

/-- What SPBLEND writes are the registers of D as the lane then holds them. -/
theorem setSpan_spblendWords (d a b : Reg) (t : Thread) :
    setSpan t d (spblendWords d a b t) = setSpan t d ((List.range 4).map fun i => readReg (spblendLane d a b t) (d.toNat + i)) := by
  rw [spblendLane_eq, spblendWords]
  split
  case isTrue => exact (setSpan_nil t d).trans (setSpan_self t d 4).symm
  case isFalse => exact congrArg (setSpan t d) (map_readReg_writeSpan (blendedWords d a b t _) t d.toNat).symm

theorem exec_spblend (d a b : Reg) (s : State) : exec (.spblend d a b) s =
    regWord (opSpecD [(a.toNat, 3, 1), sp1 b] [sp4 d]) (fun _ _ t => .ok (writeSpan t d.toNat (spblendWords d a b t))) s := by
  simp only [← spblendLane_eq]
  rfl

/-- SPBLEND in every lane of its bundle (R176). -/
theorem writesRegs_spblend (d a b : Reg) : WritesRegs (opSpecD [(a.toNat, 3, 1), sp1 b] [sp4 d]) (.spblend d a b) fun _ _ t =>
    setSpan t d ((List.range 4).map fun i => readReg (spblendLane d a b t) (d.toNat + i)) := by
  simp only [← setSpan_spblendWords]
  exact writesRegs_span (exec_spblend d a b) fun _ _ _ => rfl

end Sys2Proof.Machine

section
open Sys2Proof Sys2Proof.Machine

/-- Settles O20: SPALPHA as a word that puts one value into one register (`writesRegs_calc`), SPBLEND by `writesRegs_spblend`, KEYPK and
TRIEDGE as words that write a pair (`writesRegs_span`). -/
theorem splatResults : Obligations.SplatResults :=
  ⟨fun _ _ _ => writesRegs_calc (fun _ => rfl) fun _ _ _ _ _ _ => rfl, writesRegs_spblend,
    fun _ _ _ => writesRegs_span (fun _ => rfl) fun _ _ _ => rfl, fun _ _ _ => writesRegs_span (fun _ => rfl) fun _ _ _ => rfl⟩

end

/-! O45: CMPRS (spec/08_matrix_splat.md, R171, R173). -/

namespace Sys2Proof.Machine

/-! What the word does in a lane. -/

/-- A register word that cannot fault completes in each lane that executes it, with what `g` makes of the lane's thread. -/
theorem regWord_ends {w : WordSpec} {i : Instr} {s : State} {g : Thread → Thread} (he : exec i s = regWord w (fun _ _ t => .ok (g t)) s) :
    LaneByLane s w i always (fun _ => s) fun c u k t v => LaneEnds k u (finish w c (g t)) v :=
  regWord_lanes he fun _ _ _ _ ht hr => laneStep_completes ht hr rfl

/-- In a bundle of one lane such a word completes. -/
theorem regWord_ends_alone {w : WordSpec} {i : Instr} {s : State} {g : Thread → Thread} (he : exec i s = regWord w (fun _ _ t => .ok (g t)) s)
    {c : Ctx} {k : Nat} {t : Thread} (hi : Issues w c [k] s) (ht : getThread s k = some t) :
    ∃ v, exec i s = .next v ∧ v.cur = none ∧ LaneEnds k s (finish w c (g (schedQuiet s c t))) v := by
  obtain ⟨v, hv, hend⟩ := (regWord_ends he).alone hi ht
  exact ⟨done v, hv, rfl, hend.done⟩

/-- A thread whose row in A has been pruned: the kept elements in D, the mask in the span of X1 (R173). -/
def cmprsLane (d a : Reg) (x x1 : Nat) (t : Thread) : Thread :=
  writeSpan (writeSpan t d.toNat (cmprsVal x (readSpan t a.toNat 16)).1) x1 (cmprsVal x (readSpan t a.toNat 16)).2

/-- CMPRS, where a port is issuing it. -/
theorem exec_cmprs (k : BitVec 3) (d a : Reg) {s : State} {y : Issue} (hy : s.cur = some y) : exec (.cmprs k d a) s =
    regWord { opSpec [(a.toNat, 16, 4)] [(d.toNat, 8, 4), (opxX1 y.hints,
          if cmprsSlot k (curGrid s) then metaWords ((curGrid s).slot k.toNat) else 1,
          if cmprsSlot k (curGrid s) then metaWords ((curGrid s).slot k.toNat) else 1)] with
        hints := [1], needs := [1], slotOk := cmprsSlot k }
      (fun _ _ t => .ok (cmprsLane d a ((curGrid s).slot k.toNat) (opxX1 y.hints) t)) s := by
  change execCmprs k d a s = _
  rw [execCmprs, hy]
  rfl

/-! The ranks of the members of a set. -/

/-- Of the members of a set, by an injective key, those that fewer than `k` others stand below are `k`, or all where there are no more. -/
theorem card_rank_lt {ι α : Type*} [DecidableEq ι] [LinearOrder α] {f : ι → α} (hf : Function.Injective f) (k : ℕ) (S : Finset ι) :
    (S.filter fun p => (S.filter fun r => f r < f p).card < k).card = min k S.card := by
  induction S using Finset.induction_on_max_value f with
  | empty => simp
  | insert a S ha hmax ih =>
    have hlt : ∀ x ∈ S, f x < f a := fun x hx => (hmax x hx).lt_of_ne fun e => ha (hf e ▸ hx)
    have hold : ∀ p ∈ S, ((insert a S).filter fun r => f r < f p) = S.filter fun r => f r < f p := fun p hp => by
      rw [Finset.filter_insert, if_neg (hlt p hp).not_gt]
    have hnew : ((insert a S).filter fun r => f r < f a) = S := by
      rw [Finset.filter_insert, if_neg (lt_irrefl _), Finset.filter_true_of_mem hlt]
    have hS : (S.filter fun p => ((insert a S).filter fun r => f r < f p).card < k) =
        S.filter fun p => (S.filter fun r => f r < f p).card < k := Finset.filter_congr fun p hp => by rw [hold p hp]
    rw [Finset.filter_insert, hnew, hS, Finset.card_insert_of_notMem ha]
    split
    · rw [Finset.card_insert_of_notMem fun h => ha (Finset.mem_of_mem_filter a h), ih]
      omega
    · rw [ih]
      omega

/-! The order by which CMPRS ranks. -/

/-- The magnitude of an exact value as a number, where it has one. -/
def Ext.size : Ext → WithTop ℚ
  | .fin _ m e _ => ((m * 2 ^ e : ℚ) : WithTop ℚ)
  | _ => ⊤

/-- An exact value without its sign. -/
def Ext.abs : Ext → Ext
  | .fin _ m e st => .fin false m e st
  | .inf _ => .inf false
  | .nan => .nan

/-- Magnitudes in units of 2^g, below the exponents of both, stand as the numbers do. -/
theorem scaled_lt (m n : ℕ) {e f g : ℤ} (he : g ≤ e) (hf : g ≤ f) :
    m * 2 ^ (e - g).toNat < n * 2 ^ (f - g).toNat ↔ (m * 2 ^ e : ℚ) < n * 2 ^ f := by
  have h2 (k : ℤ) (hk : g ≤ k) : (2 : ℚ) ^ k = 2 ^ (k - g).toNat * 2 ^ g := by
    rw [← zpow_natCast, ← zpow_add₀ two_ne_zero, Int.toNat_of_nonneg (by omega), sub_add_cancel]
  rw [h2 e he, h2 f hf, ← mul_assoc, ← mul_assoc, mul_lt_mul_iff_left₀ (zpow_pos two_pos g)]
  exact_mod_cast Iff.rfl

/-- Without signs and NaNs, the order of exact values is that of their sizes. -/
theorem abs_lt_abs {x y : Ext} (hx : x ≠ .nan) (hy : y ≠ .nan) : x.abs.lt y.abs = true ↔ x.size < y.size := by
  cases x with
  | nan => exact absurd rfl hx
  | inf a => cases y <;> simp [Ext.abs, Ext.lt, Ext.size]
  | fin a m e st =>
    cases y with
    | nan => exact absurd rfl hy
    | inf b => exact iff_of_true rfl (WithTop.coe_lt_top _)
    | fin b n f st' =>
      have hlt : (Ext.fin a m e st).abs.lt (Ext.fin b n f st').abs = decide (m * 2 ^ (e - min e f).toNat < n * 2 ^ (f - min e f).toNat) :=
        decide_eq_decide.2 Int.ofNat_lt
      rw [hlt, decide_eq_true_eq, scaled_lt m n (min_le_left e f) (min_le_right e f)]
      exact WithTop.coe_lt_coe.symm

/-- The sizes of values without NaN are equal where neither is below the other. -/
theorem abs_eqv_abs {x y : Ext} (hx : x ≠ .nan) (hy : y ≠ .nan) : x.abs.eqv y.abs = true ↔ x.size = y.size := by
  have habs {z : Ext} (hz : z ≠ .nan) : z.abs ≠ .nan := by cases z <;> simp_all [Ext.abs]
  simp only [Ext.eqv, Bool.and_eq_true, bne_iff_ne, habs hx, habs hy, Bool.not_eq_true', ← Bool.not_eq_true, abs_lt_abs hx hy, abs_lt_abs hy hx,
    ne_eq, not_false_eq_true, true_and, not_lt]
  exact ⟨fun h => le_antisymm h.2 h.1, fun h => ⟨h.ge, h.le⟩⟩

/-- A code that is no NaN has a value. -/
theorem value_ne_nan {f : NumFmt} {x : Nat} (h : isNaN f x = false) : value f x ≠ .nan := by
  intro hv
  cases f <;> simp only [value, h, Ext.ofInt, Bool.false_eq_true, if_false, reduceCtorEq] at hv
  all_goals grind

/-- What CMPRS ranks a position by: the larger magnitude first, then the lower position (R173). -/
def rankKey (f : NumFmt) (v : Nat → Nat) (p : Nat) : (WithTop ℚ)ᵒᵈ ×ₗ ℕ := toLex (OrderDual.toDual (value f (v p)).size, p)

theorem rankKey_injective (f : NumFmt) (v : Nat → Nat) : Function.Injective (rankKey f v) := fun _ _ h =>
  congrArg (fun x => (ofLex x).2) h

/-- Among numbers CMPRS ranks by the key (R173). -/
theorem ranksAbove_iff {f : NumFmt} {v : Nat → Nat} (h : ∀ p, isNaN f (v p) = false) (p q : Nat) :
    ranksAbove f v p q = true ↔ rankKey f v p < rankKey f v q := by
  have hab : ranksAbove f v p q = ((value f (v q)).abs.lt (value f (v p)).abs ||
      ((value f (v p)).abs.eqv (value f (v q)).abs && decide (p < q))) := by
    rw [ranksAbove, h p, h q]
    rfl
  have hn (r : Nat) := value_ne_nan (h r)
  rw [hab, Bool.or_eq_true, Bool.and_eq_true, abs_lt_abs (hn q) (hn p), abs_eqv_abs (hn p) (hn q), decide_eq_true_eq, Prod.Lex.lt_iff]
  rfl

/-! The kept positions of a group. -/

/-- The positions of a group (R171). -/
theorem div_eq_iff_mem_group {m q p : Nat} (hm : 0 < m) : p / m = q ↔ p ∈ Finset.Ico (q * m) (q * m + m) := by
  rw [Nat.div_eq_iff hm, Finset.mem_Ico]
  omega

/-- The positions of a group that meet a condition are as many as their places in the group. -/
theorem card_group (m q : Nat) (P : Nat → Prop) [DecidablePred P] :
    ((Finset.range m).filter fun i => P (q * m + i)).card = ((Finset.Ico (q * m) (q * m + m)).filter P).card := by
  rw [Finset.card_filter, Finset.card_filter, Finset.sum_Ico_eq_sum_range, Nat.add_sub_cancel_left]

/-- The members of an initial segment that meet a test, as a set and as a list. -/
theorem card_filter_range (n : Nat) (b : Nat → Bool) : ((Finset.range n).filter fun i => b i = true).card = ((List.range n).filter b).length := by
  change ((List.range n).filter fun i => decide (b i = true)).length = _
  simp only [Bool.decide_eq_true]

/-- CMPRS keeps a position of a group of numbers where fewer than half of the group's positions rank above it (R173). -/
theorem mem_cmprsKept {f : NumFmt} {m groups p : Nat} {v : Nat → Nat} (h : ∀ p, isNaN f (v p) = false) :
    p ∈ cmprsKept f m groups v ↔ p < groups * m ∧
      ((Finset.Ico (p / m * m) (p / m * m + m)).filter fun r => rankKey f v r < rankKey f v p).card < m / 2 := by
  simp only [cmprsKept, List.mem_filter, List.mem_range, decide_eq_true_eq, ← card_group, ← ranksAbove_iff h, card_filter_range]

/-- In a group of numbers CMPRS keeps half the positions (R171, R173). -/
theorem cmprsKept_group {f : NumFmt} {m groups q : Nat} {v : Nat → Nat} (hm : 0 < m) (hq : q < groups) (h : ∀ p, isNaN f (v p) = false) :
    ((cmprsKept f m groups v).filter fun p => decide (p / m = q)).length = m / 2 := by
  have hnd : ((cmprsKept f m groups v).filter fun p => decide (p / m = q)).Nodup := (List.nodup_range.filter _).filter _
  have hgroup : ((cmprsKept f m groups v).filter fun p => decide (p / m = q)).toFinset = (Finset.Ico (q * m) (q * m + m)).filter fun p =>
      ((Finset.Ico (q * m) (q * m + m)).filter fun r => rankKey f v r < rankKey f v p).card < m / 2 := by
    ext p
    have hend : q * m + m ≤ groups * m := Nat.succ_mul q m ▸ Nat.mul_le_mul_right m hq
    simp only [List.mem_toFinset, List.mem_filter, mem_cmprsKept h, decide_eq_true_eq, Finset.mem_filter, ← div_eq_iff_mem_group hm]
    constructor
    · rintro ⟨⟨_, hr⟩, rfl⟩
      exact ⟨rfl, hr⟩
    · rintro ⟨rfl, hr⟩
      obtain ⟨_, hp⟩ := Finset.mem_Ico.1 ((div_eq_iff_mem_group hm).1 (rfl : p / m = p / m))
      exact ⟨⟨hp.trans_le hend, hr⟩, rfl⟩
  rw [← List.toFinset_card_of_nodup hnd, hgroup, card_rank_lt (rankKey_injective f v), Nat.card_Ico]
  omega

end Sys2Proof.Machine

section
open Sys2Proof Sys2Proof.Machine

/-- Settles O45: the word by `exec_cmprs`, `regWord_ends` and `regWord_ends_alone`, the kept half of a group by `cmprsKept_group`. -/
theorem compressResult : Obligations.CompressResult :=
  ⟨fun k d a _ _ hy => regWord_ends (exec_cmprs k d a hy), fun k d a _ _ _ _ _ hy hi ht => regWord_ends_alone (exec_cmprs k d a hy) hi ht,
    fun _ _ _ _ _ hm hq h => cmprsKept_group (by omega) hq h⟩

end

/-! O22, O23, O28 and O35: branch targets, transfers, the end of a thread and the stashes of a cluster (spec/09_transfer.md, spec/12_memory_ops.md,
spec/16_thread_table.md). -/

namespace Sys2Proof.Machine

/-! What a word does in a lane that executes it. -/

/-- What a lane of a word leaves, from what the word's body says of it (R52, R57). -/
def laneEnd (w : WordSpec) (c : Ctx) (s : State) (k : Nat) : LaneOut → State
  | .fault code addr => deliver s k code addr c.fpc
  | .faultIn u code addr => deliver u k code addr c.fpc
  | .ok u => completeLane u k c.words w.ends
  | .wait u => leaveBundle u k

theorem laneStep_eq_laneEnd {w : WordSpec} {c : Ctx} {s : State} {k : Nat} {t : Thread} (body : State → Nat → Thread → LaneOut)
    (h : getThread s k = some t) (hr : ready s w t = true) : laneStep w c body s k = laneEnd w c s k (body s k (schedQuiet s c t)) := by
  rw [laneStep_ready h hr]
  cases body s k (schedQuiet s c t) <;> rfl

/-- A word that hands its bundle's lanes to a body acts lane by lane, as the body does to a lane's thread. -/
theorem issueGo_lanes {w : WordSpec} {i : Instr} {s : State} {go : Ctx → List Nat → State → State} {pre : Ctx → List Nat → Prop}
    {start : List Nat → State} (body : Ctx → State → Nat → Thread → LaneOut) {post : Ctx → State → Nat → Thread → State → Prop}
    (he : exec i s = issueGo w go s) (hg : ∀ c ks, pre c ks → go c ks s = laneLoop (laneStep w c (body c)) (start ks) ks)
    (hp : ∀ c u k t, post c u k t (laneEnd w c u k (body c u k t))) : LaneByLane s w i pre start post := by
  intro c ks hgo hpre
  refine ⟨laneStep w c (body c), ?_, fun u k t ht hr => ?_⟩
  · rw [he]
    simp only [issueGo, hgo, hg c ks hpre]
  · rw [laneStep_eq_laneEnd _ ht hr]
    exact hp c u k _

/-- The same of a word that has an effect in each lane and none before them. -/
theorem issueWord_lanes_of_body {w : WordSpec} {i : Instr} {s : State} {body : Ctx → State → Nat → Thread → LaneOut}
    {post : Ctx → State → Nat → Thread → State → Prop} (he : exec i s = issueWord w body s)
    (hp : ∀ c u k t, post c u k t (laneEnd w c u k (body c u k t))) : LaneByLane s w i always (fun _ => s) post :=
  issueGo_lanes body he (fun _ _ _ => rfl) hp

/-- In a bundle of one lane that executes it, a word with a condition of its own, which starts its lanes in a state with the same threads, ends
with what it does there. -/
theorem LaneByLane.alone_from {s : State} {w : WordSpec} {i : Instr} {pre : Ctx → List Nat → Prop} {start : List Nat → State}
    {post : Ctx → State → Nat → Thread → State → Prop} (h : LaneByLane s w i pre start post) {c : Ctx} {k : Nat} {t : Thread}
    (hi : Issues w c [k] s) (hp : pre c [k]) (ht : getThread s k = some t) (hs : getThread (start [k]) k = getThread s k)
    (hr : ready (start [k]) w t = ready s w t) : ∃ v, exec i s = .next (done v) ∧ post c (start [k]) k (schedQuiet (start [k]) c t) v := by
  obtain ⟨f, he, hf⟩ := h c [k] hi.go hp
  obtain ⟨t', ht', hr'⟩ := hi.lanes k (List.mem_singleton.2 rfl)
  cases ht.symm.trans ht'
  exact ⟨f (start [k]) k, he, hf _ k t (hs.trans ht) (hr.trans hr')⟩

/-- A lane that completes its word, from the state and the thread that the body made. -/
theorem LaneEnds.laneEnd_ok (w : WordSpec) (c : Ctx) (s u : State) (k : Nat) (t : Thread) :
    LaneEnds k u (finish w c t) (laneEnd w c s k (.ok (Machine.setThread u k t))) :=
  LaneEnds.completeLane w c u k t

/-- A lane whose run a transfer has ended (R52, R185). -/
theorem LaneEnds.laneEnd_transferTo (w : WordSpec) (c : Ctx) (s u : State) (k : Nat) (t : Thread) (pc : Word) :
    LaneEnds k u (endRun { t with pc := pc, grants := [], buf := [] }) (laneEnd w c s k (transferTo u k t pc)) :=
  (LaneEnds.setThread u k _).leaveBundle.leaveBundle

/-! Prefetches (R181, R187). -/

theorem Prefetched.refl (s : State) : Prefetched s s := rfl

theorem Prefetched.trans {s u v : State} (h : Prefetched s u) (g : Prefetched u v) : Prefetched s v := by
  unfold Prefetched at h g
  rw [h] at g
  exact g

theorem Prefetched.readHost (s : State) (pa n : Nat) : Prefetched s (readHost s pa n) := by
  obtain ⟨p, c, h⟩ := readHost_eq s pa n
  rw [h]
  rfl

/-- A word read for a prefetch leaves at most a request of the host path. -/
theorem Prefetched.fetchWord {s u : State} {k : Nat} {t : Thread} {pc w : Word} (h : fetchWord s k t pc none false = .ok w u) : Prefetched s u := by
  unfold Machine.fetchWord at h
  dsimp only at h
  split at h
  · cases h
  · split at h
    · simp only [Option.bind_none] at h
      split at h
      · cases h
      · split at h
        · cases h
        · cases h
          exact .readHost s _ _
    all_goals cases h

theorem Prefetched.prefetchWords (k : Nat) (t : Thread) : ∀ (n : Nat) (s : State) (pc : Word), Prefetched s (prefetchWords k t n s pc).2
  | 0, s, _ => .refl s
  | n + 1, s, pc => by
    unfold Machine.prefetchWords
    split
    · exact (Prefetched.fetchWord ‹_›).trans (Prefetched.prefetchWords k t n _ _)
    · exact .refl s

theorem Prefetched.prefetch (k : Nat) (t : Thread) (s : State) (pc : Word) : Prefetched s (prefetch k t s pc) :=
  (Prefetched.prefetchWords k t Config.runWords s pc).trans rfl

/-- A prefetch leaves a thread that was written before it as it was written. -/
theorem Prefetched.of_setThread {s u : State} {k : Nat} {t : Thread} (h : Prefetched (setThread s k t) u) :
    ∃ n, Prefetched s n ∧ u = setThread n k t :=
  ⟨{ s with ex := { s.ex with code := u.ex.code }, fa := { s.fa with path := u.fa.path }, bd := { s.bd with perf := u.bd.perf } }, rfl, h⟩

/-! The words that write a branch-target register (R183, R184). -/

/-- A word that changes a branch-target register and starts a prefetch: its lane completes after the prefetch. -/
theorem btWord_prefetches {w : WordSpec} {i : Instr} {s : State} {bt : BtIx} {f : Ctx → Thread → Bt} (he : exec i s = btWord w true bt f s) :
    LaneByLane s w i always (fun _ => s) fun c u k t v => ∃ n, Prefetched u n ∧ LaneEnds k n (finish w c (writeBt t bt (f c t))) v := by
  refine issueWord_lanes_of_body he fun c u k t => ?_
  dsimp only
  split
  · obtain ⟨n, hn, he⟩ := (Prefetched.prefetch k (writeBt t bt (f c t)) (setThread u k (writeBt t bt (f c t))) (f c t).target).of_setThread
    exact ⟨n, hn, he ▸ .laneEnd_ok w c u n k _⟩
  · exact ⟨u, .refl u, .laneEnd_ok w c u u k _⟩

/-- One that starts none. -/
theorem btWord_writes {w : WordSpec} {i : Instr} {s : State} {bt : BtIx} {f : Ctx → Thread → Bt} (he : exec i s = btWord w false bt f s) :
    LaneByLane s w i always (fun _ => s) fun c u k t v => LaneEnds k u (finish w c (writeBt t bt (f c t))) v :=
  issueWord_lanes_of_body he fun c u k _ => .laneEnd_ok w c u u k _

/-- In a bundle of one lane a word that prefetches completes. -/
theorem btWord_prefetches_alone {w : WordSpec} {i : Instr} {bt : BtIx} {f : Ctx → Thread → Bt} (he : ∀ s, exec i s = btWord w true bt f s) :
    Completes w i (fun _ _ _ _ => True) fun c u k t v => ∃ n, Prefetched u n ∧ LaneEnds k n (finish w c (writeBt t bt (f c t))) v :=
  LaneByLane.completes fun s => (btWord_prefetches (he s)).imp fun _ _ _ _ _ ⟨n, hn, hv⟩ _ => ⟨n, hn, hv.done⟩

/-- And so does one that starts no prefetch. -/
theorem btWord_writes_alone {w : WordSpec} {i : Instr} {bt : BtIx} {f : Ctx → Thread → Bt} (he : ∀ s, exec i s = btWord w false bt f s) :
    Completes w i (fun _ _ _ _ => True) fun c u k t v => LaneEnds k u (finish w c (writeBt t bt (f c t))) v :=
  LaneByLane.completes fun s => (btWord_writes (he s)).imp fun _ _ _ _ _ hv _ => hv.done

end Sys2Proof.Machine

section
open Sys2Proof Sys2Proof.Machine

/-- Settles O22: the words that prefetch by `btWord_prefetches`, the others by `btWord_writes`, a read after a write by `readBt_writeBt`. -/
theorem branchTargetWords : Obligations.BranchTargetWords :=
  ⟨fun _ _ _ => btWord_prefetches rfl, fun _ _ => btWord_prefetches_alone fun _ => rfl,
    fun _ _ _ => btWord_prefetches rfl, fun _ _ => btWord_prefetches_alone fun _ => rfl,
    fun _ _ _ => btWord_writes rfl, fun _ _ => btWord_writes_alone fun _ => rfl,
    fun _ _ _ => btWord_prefetches rfl, fun _ _ => btWord_prefetches_alone fun _ => rfl,
    fun _ _ => btWord_writes rfl, fun _ => btWord_writes_alone fun _ => rfl, readBt_writeBt⟩

end

namespace Sys2Proof.Machine

/-! Transfers (R185). -/

/-- XFER goes to its target where its condition holds, and on otherwise. -/
theorem xfer_lanes (bt : BtIx) (ps : PredIx) (neg : Bool) (s : State) : LaneByLane s {} (.xfer bt ps neg) always (fun _ => s) fun c u k t v =>
    if (readBt t bt).prepared then
      LaneEnds k u (endRun { t with pc := if readPred t ps != neg then (readBt t bt).target else c.pc + 1, grants := [], buf := [] }) v
    else v = deliver u k 0x04 0 c.fpc := by
  refine issueWord_lanes_of_body rfl fun c u k t => ?_
  cases hb : (readBt t bt).prepared with
  | false => exact congrArg (laneEnd {} c u k) (if_pos rfl)
  | true => exact LaneEnds.laneEnd_transferTo {} c u u k t _

/-- A thread that has called, before it transfers: b7 is prepared at the next word (R185). -/
def calling (c : Ctx) (t : Thread) : Thread := { writeBt t 7 { prepared := true, target := c.pc + 1 } with depth := t.depth + 1 }

/-- XFER.CALL calls where its condition holds and DEPTH has room, and goes on where its condition does not hold. -/
theorem xferCall_lanes (bt : BtIx) (ps : PredIx) (neg : Bool) (s : State) : LaneByLane s {} (.xferCall bt ps neg) always (fun _ => s) fun c u k t v =>
    if (readBt t bt).prepared = false then v = deliver u k 0x04 0 c.fpc
    else if (readPred t ps != neg) = false then LaneEnds k u (endRun { t with pc := c.pc + 1, grants := [], buf := [] }) v
    else if t.depth = 255 then v = deliver u k 0x16 0 c.fpc
    else ∃ n, Prefetched u n ∧ LaneEnds k n (endRun { calling c t with pc := (readBt t bt).target, grants := [], buf := [] }) v := by
  refine issueWord_lanes_of_body rfl fun c u k t => ?_
  cases hb : (readBt t bt).prepared with
  | false => rfl
  | true =>
    cases hp : (readPred t ps != neg) with
    | false => exact .laneEnd_transferTo {} c u u k t _
    | true =>
      by_cases hd : t.depth = 255
      · simp [hd, laneEnd]
      · simp only [hd, Bool.true_eq_false, if_false, if_true]
        exact ⟨_, .prefetch k (calling c t) u (c.pc + 1), .laneEnd_transferTo {} c u _ k (calling c t) _⟩

/-- XFER.RET returns where its condition holds and DEPTH is not 0, and goes on where its condition does not hold; the return that ends handler
mode is left out (R381). -/
theorem xferRet_lanes (bt : BtIx) (ps : PredIx) (neg : Bool) (s : State) : LaneByLane s {} (.xferRet bt ps neg) always (fun _ => s) fun c u k t v =>
    if (readBt t bt).prepared = false then v = deliver u k 0x04 0 c.fpc
    else if (readPred t ps != neg) = false then LaneEnds k u (endRun { t with pc := c.pc + 1, grants := [], buf := [] }) v
    else if t.depth = 0 then v = deliver u k 0x16 0 c.fpc
    else (∀ f, t.frame = some f → t.depth ≠ f.depth + 1) →
      LaneEnds k u (endRun { t with depth := t.depth - 1, pc := (readBt t bt).target, grants := [], buf := [] }) v := by
  refine issueWord_lanes_of_body rfl fun c u k t => ?_
  have returns := LaneEnds.laneEnd_transferTo {} c u u k { t with depth := t.depth - 1 } (readBt t bt).target
  cases hb : (readBt t bt).prepared with
  | false => rfl
  | true =>
    cases hp : (readPred t ps != neg) with
    | false => exact .laneEnd_transferTo {} c u u k t _
    | true =>
      by_cases hd : t.depth = 0
      · simp [hd, laneEnd]
      · simp only [hd, Bool.true_eq_false, if_false, if_true]
        intro hf
        split
        · rename_i f hfr
          rw [if_neg (hf f hfr)]
          exact returns
        · exact returns

/-- XDEC goes to its target where the decremented counter is not 0, and on otherwise. -/
theorem xdec_lanes (bt : BtIx) (a : Reg) (s : State) : LaneByLane s (opSpecD [] [sp1 a]) (.xdec bt a) always (fun _ => s) fun c u k t v =>
    if (readBt t bt).prepared = false then v = deliver u k 0x04 0 c.fpc
    else LaneEnds k u (endRun { writeReg t a.toNat (rd t a - 1) with
      pc := if rd t a = 1 then c.pc + 1 else (readBt t bt).target, grants := [], buf := [] }) v := by
  refine issueWord_lanes_of_body rfl fun c u k t => ?_
  have h1 : rd t a = 1 ↔ rd t a - 1 = 0 := sub_eq_zero.symm
  cases hb : (readBt t bt).prepared with
  | false => rfl
  | true =>
    simp only [h1]
    exact .laneEnd_transferTo _ c u u k (writeReg t a.toNat (rd t a - 1)) _

end Sys2Proof.Machine

section
open Sys2Proof Sys2Proof.Machine

/-- Settles O23: each word in a lane by its own lemma (`xfer_lanes`, `xferCall_lanes`, `xferRet_lanes`, `xdec_lanes`), and in a bundle of one lane
by the branch of it that transfers. -/
theorem transferWords : Obligations.TransferWords := by
  refine ⟨xfer_lanes, xferCall_lanes, xferRet_lanes, xdec_lanes, fun bt ps neg => ?xfer, fun bt ps neg => ?call, fun bt ps neg => ?ret,
    fun bt a => ?xdec⟩
  case xfer =>
    refine LaneByLane.completes fun s => (xfer_lanes bt ps neg s).imp fun c u k t v h hb => ?_
    rw [if_pos hb] at h
    exact h.done
  case call =>
    refine LaneByLane.completes fun s => (xferCall_lanes bt ps neg s).imp fun c u k t v h ⟨hb, hp, hd⟩ => ?_
    rw [if_neg (by simp [hb]), if_neg (by simp [hp]), if_neg hd.ne] at h
    obtain ⟨n, hn, hv⟩ := h
    exact ⟨n, hn, hv.done⟩
  case ret =>
    refine LaneByLane.completes fun s => (xferRet_lanes bt ps neg s).imp fun c u k t v h ⟨hb, hp, hd, hf⟩ => ?_
    rw [if_neg (by simp [hb]), if_neg (by simp [hp]), if_neg hd.ne'] at h
    exact (h hf).done
  case xdec =>
    refine LaneByLane.completes fun s => (xdec_lanes bt a s).imp fun c u k t v h hb => ?_
    rw [if_neg (by simp [hb])] at h
    exact h.done

end

namespace Sys2Proof.Machine

/-! Routed accesses to the stashes of a cluster (R257, R258). -/

/-- A routed access of the word `wid` that a thread issues: a new operation, with its destination (R258). -/
def peerOp (c : Ctx) (wid id : Nat) (t : Thread) (cnt : Cnt) (kind : OpKind) (dest len : Nat) : Op :=
  { newOp c wid id t cnt kind 0 (.here 0) 4 with dest := dest, dlen := len }

/-- A lane after a routed word whose route and offset give `p`: the fault of R257 or R348, or one access outstanding (R258). -/
def PeerEnds (w : WordSpec) (c : Ctx) (wid : Nat) (cnt : Cnt) (dest len : Nat) (kind : Thread → Nat → Nat → OpKind) (u : State) (k : Nat)
    (t : Thread) (v : State) : Except Nat (Nat × Nat) → Prop
  | .error code => v = deliver u k code 0 c.fpc
  | .ok (team, o) => LaneEnds k { u with nextId := u.nextId + 1 } (finish w c (addOp t (peerOp c wid u.nextId t cnt (kind t team o) dest len))) v

/-- A routed word numbers its accesses as one word, and then acts lane by lane. -/
theorem peerWord_lanes {w : WordSpec} {i : Instr} {s : State} {cnt : Cnt} {dest : List Nat} {a : Reg} {writes : Bool}
    {kind : Thread → Nat → Nat → OpKind} (he : exec i s = peerWord w cnt dest a writes kind s) :
    LaneByLane s w i always (fun _ => { s with nextId := s.nextId + 1 }) fun c u k t v =>
      PeerEnds w c s.nextId cnt (dest.headD 0) dest.length kind u k t v (peerAt u t c a writes) := by
  refine issueGo_lanes _ he (fun _ _ _ => rfl) fun c u k t => ?_
  dsimp only
  split
  · rename_i code h
    rw [h]
    rfl
  · rename_i team o h
    rw [h]
    exact .laneEnd_ok w c u { u with nextId := u.nextId + 1 } k _

/-- In a bundle of one lane whose route and offset stand, a routed word completes. -/
theorem peerWord_alone {w : WordSpec} {i : Instr} {s : State} {cnt : Cnt} {dest : List Nat} {a : Reg} {writes : Bool}
    {kind : Thread → Nat → Nat → OpKind} (he : exec i s = peerWord w cnt dest a writes kind s) {c : Ctx} {k : Nat} {t : Thread}
    (hi : Issues w c [k] s) (ht : getThread s k = some t) (hp : ∃ x, peerAt s (schedQuiet s c t) c a writes = .ok x) :
    ∃ v, exec i s = .next v ∧ v.cur = none ∧ ∃ team o, peerAt s (schedQuiet s c t) c a writes = .ok (team, o) ∧
      LaneEnds k { s with nextId := s.nextId + 2 } (finish w c (addOp (schedQuiet s c t)
        (peerOp c s.nextId (s.nextId + 1) (schedQuiet s c t) cnt (kind (schedQuiet s c t) team o) (dest.headD 0) dest.length))) v := by
  obtain ⟨v, hv, hend⟩ := (peerWord_lanes he).alone_from hi trivial ht rfl rfl
  obtain ⟨⟨team, o⟩, hp⟩ := hp
  have hp' : peerAt { s with nextId := s.nextId + 1 } (schedQuiet { s with nextId := s.nextId + 1 } c t) c a writes = .ok (team, o) := hp
  rw [hp'] at hend
  exact ⟨done v, hv, rfl, team, o, hp, hend.done⟩

theorem exec_cst (a b : Reg) (s : State) : exec (.cst a b) s =
    peerWord { opSpec [sp1 a, sp1 b] [] with hints := [2], needs := [2], adds := [(.st, 1)] } .st [] a true
      (fun t team o => .peerStore team o (rd t b).toNat) s := rfl

/-- ATOMS with a route is a routed word (R257). -/
theorem exec_atoms_routed (m : AtomOp) (d a b : Reg) {s : State} (h : routed s = true) : exec (.atoms m d a b) s =
    peerWord { opSpec [sp1 a, sp1 b] [sp1 d] with hints := [2], adds := [(.ld, 1)] } .ld [d.toNat] a true
      (fun t team o => .peerRmw team o m (rd t b).toNat) s :=
  if_pos h

end Sys2Proof.Machine

section
open Sys2Proof Sys2Proof.Machine

/-- Settles O35: each word in a lane by `peerWord_lanes`, in a bundle of one lane by `peerWord_alone`. -/
theorem routedStashWords : Obligations.RoutedStashWords := by
  refine ⟨fun d a s => (peerWord_lanes (exec_cld d a s)).imp fun c u k t v h => ?cld,
    fun d a s c k t hi ht hp => peerWord_alone (exec_cld d a s) hi ht hp,
    fun a b s => (peerWord_lanes (exec_cst a b s)).imp fun c u k t v h => ?cst,
    fun a b s c k t hi ht hp => peerWord_alone (exec_cst a b s) hi ht hp,
    fun m d a b s hr => (peerWord_lanes (exec_atoms_routed m d a b hr)).imp fun c u k t v h => ?atoms,
    fun m d a b s c k t hi ht ⟨hr, hp⟩ => peerWord_alone (exec_atoms_routed m d a b hr) hi ht hp⟩
  case cld => cases hp : peerAt u t c a false <;> (rw [hp] at h; exact h)
  case cst => cases hp : peerAt u t c a true <;> (rw [hp] at h; exact h)
  case atoms => cases hp : peerAt u t c a true <;> (rw [hp] at h; exact h)

end

namespace Sys2Proof.Machine

/-! A thread of which nothing changes while others are released or take faults. -/

/-- Memory is `m`, and the thread `k` is `x`, in every entry of the thread table that has its number. -/
structure Stands (k : Nat) (x : Thread) (m : MemSys) (s : State) : Prop where
  mm : s.mm = m
  mine : getThread s k = some x
  only : ∀ e ∈ s.ex.threads, e.1 = k → e.2 = x

section
variable {k : Nat} {x : Thread} {m : MemSys} {s : State}

theorem Stands.congr (h : Stands k x m s) {u : State} (hm : u.mm = s.mm) (ht : u.ex.threads = s.ex.threads) : Stands k x m u :=
  ⟨hm.trans h.mm, (getThread_of_threads ht k).trans h.mine, ht ▸ h.only⟩

theorem Stands.setThread (h : Stands k x m s) {j : Nat} (hj : j ≠ k) (t : Thread) : Stands k x m (setThread s j t) := by
  refine ⟨h.mm, (getThread_setThread _ _ _ _).trans ((if_neg hj.symm).trans h.mine), fun e he hk => ?_⟩
  rcases tset_mem he with rfl | he
  · exact absurd hk hj
  · exact h.only e he hk

theorem Stands.modThread (h : Stands k x m s) {j : Nat} (hj : j ≠ k) (f : Thread → Thread) : Stands k x m (modThread s j f) := by
  cases ht : getThread s j with
  | none => exact h.congr rfl (by simp only [Machine.modThread, tmod, show tget s.ex.threads j = none from ht])
  | some t =>
    have hm : Machine.modThread s j f = Machine.setThread s j (f t) := by
      simp only [Machine.modThread, Machine.setThread, tmod, show tget s.ex.threads j = some t from ht]
    exact hm ▸ h.setThread hj (f t)

theorem Stands.release (h : Stands k x m s) {j : Nat} (hj : j ≠ k) : Stands k x m (release s j) := h.modThread hj _

theorem Stands.deliver (h : Stands k x m s) {j : Nat} (hj : j ≠ k) (code addr : Nat) (fpc : Word) : Stands k x m (deliver s j code addr fpc) := by
  unfold Machine.deliver
  split
  · exact h
  · have hl : Stands k x m (perf (leaveBundle (forgetWord s j) j) 0 (coreOf j) 5 1) := h.congr rfl rfl
    dsimp only
    split
    · exact hl.setThread hj _
    · exact (hl.setThread hj _).congr rfl rfl

/-- What a list of steps keeps, each of which keeps it, all keep. -/
theorem Stands.foldl {α : Type} {f : State → α → State} {l : List α} (h : Stands k x m s)
    (hf : ∀ s, Stands k x m s → ∀ a ∈ l, Stands k x m (f s a)) : Stands k x m (l.foldl f s) :=
  List.foldlRecOn l f h hf

/-! A completed join (R147). -/

theorem Stands.joinWrite (h : Stands k x m s) {e : Nat × Thread} (he : e.1 ≠ k) (i : Instr) (ps : List Part) (d : Reg) (f : Part → List Word) :
    Stands k x m (joinWrite i ps d f s e) := by
  unfold Machine.joinWrite
  split
  · exact h
  · exact (h.setThread he _).release he

theorem Stands.startEngine (h : Stands k x m s) (core e : Nat) : Stands k x m (startEngine s core e) := by
  unfold Machine.startEngine
  split
  · exact h
  · split
    · exact h
    · exact h.congr rfl rfl

theorem Stands.joinMatrix {l : List (Nat × Thread)} (hl : ∀ e ∈ l, e.1 ≠ k) (h : Stands k x m s) (p : MmaParts) :
    Stands k x m (joinMatrix s l p) := by
  unfold Machine.joinMatrix
  split
  · exact h
  · dsimp only
    split
    · exact h.foldl fun s hs e he => hs.deliver (hl e (List.mem_of_mem_filter he)) _ _ _
    · refine Stands.foldl (.startEngine ?_ _ _) fun s hs e he => ?_
      · exact h.congr rfl rfl
      · exact ((hs.congr (u := { s with nextId := s.nextId + 1 }) rfl rfl).modThread (hl e he) _).release (hl e he)

/-- A completed join of a word that neither writes registers nor starts an operation changes nothing. -/
theorem runJoined_idle {i : Instr} {l : List (Nat × Thread)} {n : Nat} (s : State) (hm : mmaParts i = none) (ho : joinOvf i (partsOf i l) = false)
    (hw : joinWrites i n (partsOf i l) = none) : runJoined s l i n = s := by
  simp only [runJoined, hm, hw]
  exact if_neg (Bool.eq_false_iff.1 ho)

/-- A join executed by threads other than `k`. -/
theorem Stands.runJoined {l : List (Nat × Thread)} (hl : ∀ e ∈ l, e.1 ≠ k) (h : Stands k x m s) (i : Instr) (n : Nat) :
    Stands k x m (runJoined s l i n) := by
  cases hm : mmaParts i with
  | some p => exact runJoined_matrix hm s l n ▸ h.joinMatrix hl p
  | none =>
    cases ho : joinOvf i (partsOf i l) with
    | true => exact runJoined_ovf s n hm ho ▸ h.foldl fun s hs e he => hs.deliver (hl e he) _ _ _
    | false =>
      cases hw : joinWrites i n (partsOf i l) with
      | none =>
        rw [runJoined_idle s hm ho hw]
        exact h
      | some y => exact runJoined_writes s hm ho hw ▸ h.foldl fun s hs e he => hs.joinWrite (hl e he) _ _ _ _

theorem Stands.checkQuads {l : List (Nat × Thread)} (hl : ∀ e ∈ l, e.1 ≠ k) (h : Stands k x m s) (n : Nat) :
    Stands k x m (checkQuads s l n) := by
  refine h.foldl fun s hs q _ => ?_
  dsimp only
  split
  · split
    · exact hs.runJoined (fun e he => hl e (List.mem_of_mem_filter he)) _ _
    · exact hs
  · exact hs

/-- Participants are live (R146, R326). -/
theorem live_of_mem_participants {s : State} {team group : Nat} {e : Nat × Thread} (h : e ∈ participants s team group) : e.2.live = true := by
  obtain ⟨g, -, hf⟩ := List.mem_filterMap.1 h
  exact (List.mem_filter.1 (List.mem_of_find?_eq_some hf)).2

/-- The joins of a group go on without a thread that has exited (R147, R333). -/
theorem Stands.checkGroup (h : Stands k x m s) (hx : x.live = false) (team group : Nat) : Stands k x m (checkGroup s team group) := by
  have hl : ∀ e ∈ participants s team group, e.1 ≠ k := fun e he hk => by
    have hlive := live_of_mem_participants he
    rw [h.only e (mem_participants he).1 hk, hx] at hlive
    exact Bool.false_ne_true hlive
  unfold Machine.checkGroup
  dsimp only
  split
  · exact h
  · split
    · exact h.foldl fun s hs e he => hs.release (hl e he)
    · split
      · split
        · exact h.checkQuads hl _
        · exact h.runJoined hl _ _
      · exact h.checkQuads hl _

/-! A barrier that completes (R400). -/

theorem Stands.releaseBar (h : Stands k x m s) (hx : x.waitOn ≠ .bar) (b : BarScope) (p : Nat) {l : List (Nat × Thread)}
    (hl : ∀ e ∈ l, e ∈ s.ex.threads) : Stands k x m (releaseBar s b p l) := by
  have hbar : ∀ e ∈ l, atBar b e.2 = true → e.1 ≠ k := fun e he ha hk => by
    have hs : barScope x = none := if_neg hx
    rw [h.only e (hl e he) hk, atBar, hs] at ha
    cases ha
  refine h.foldl fun s hs e he => ?_
  split
  · exact (hs.modThread (hbar e he ‹_›) _).release (hbar e he ‹_›)
  · exact hs

theorem Stands.checkTeamBar (h : Stands k x m s) (hx : x.waitOn ≠ .bar) (team : Nat) : Stands k x m (checkTeamBar s team) := by
  unfold Machine.checkTeamBar
  split
  · exact h
  · dsimp only
    split
    · refine Stands.releaseBar ?_ hx _ _ fun e he => List.mem_of_mem_filter he
      exact h.congr rfl rfl
    · exact h

theorem Stands.checkClusterBar (h : Stands k x m s) (hx : x.waitOn ≠ .bar) (n : Nat) : Stands k x m (checkClusterBar s n) := by
  unfold Machine.checkClusterBar
  split
  · exact h
  · dsimp only
    split
    · refine Stands.releaseBar ?_ hx _ _ fun e he => ?_
      · exact h.congr rfl rfl
      rcases List.mem_append.1 he with he | he
      · obtain ⟨_, _, he⟩ := List.mem_flatMap.1 he
        exact List.mem_of_mem_filter he
      · exact List.mem_of_mem_filter he
    · exact h

/-- Barriers complete without a thread that waits at none (R400). -/
theorem Stands.checkBars (h : Stands k x m s) (hx : x.waitOn ≠ .bar) (team : Nat) : Stands k x m (checkBars s team) := by
  unfold Machine.checkBars
  dsimp only
  split
  · exact (h.checkTeamBar hx team).checkClusterBar hx _
  · exact h.checkTeamBar hx team

theorem Stands.exitTiles (h : Stands k x m s) (team : Nat) : Stands k x m (exitTiles s team) := by
  unfold Machine.exitTiles
  split
  · exact h.congr rfl rfl
  · exact h

end

/-! STOP (R265, R333). -/

theorem tset_tset {α : Type} (m : Tab α) (n : Nat) (v w : α) : tset (tset m n v) n w = tset m n w := by
  induction m with
  | nil => simp [tset]
  | cons a m ih =>
    rcases Nat.lt_trichotomy n a.1 with h | h | h
    · simp [tset, h, h.ne]
    · simp [tset, h]
    · simp [tset, h.ne', h.not_gt, ih]

theorem setThread_setThread (s : State) (k : Nat) (t x : Thread) : setThread (setThread s k t) k x = setThread s k x := by
  simp only [setThread, tset_tset]

theorem closeOwn_threads (s : State) (t : Thread) : (closeOwn s t).ex.threads = s.ex.threads := by
  unfold closeOwn
  dsimp only
  split <;> split <;> rfl

/-- What an exit closes of the horizon table is the same, whatever a thread is set to. -/
theorem closeOwn_setThread_mm (s : State) (k : Nat) (x t : Thread) : (closeOwn (setThread s k x) t).mm = (closeOwn s t).mm := by
  unfold closeOwn
  dsimp only
  split <;> split <;> rfl

/-- An exit drops the thread's transaction, its snapshot, its wait and its frame (R265, R333). -/
theorem exited_eq (t : Thread) : exited t = { t with
    txReason := (exited t).txReason, tx := {}, snap := .off, st := .draining, btag := Config.noTag, runPos := 0, waitOn := .nothing, held := none,
    frame := none } := by
  unfold exited
  rw [abortTx_eq]
  split <;> rfl

/-- A thread that exits drains, and memory is as its own openings leave it, whatever waits end with it (R333). -/
theorem exitThread_stands {s : State} {k : Nat} {t : Thread} (ht : getThread s k = some t) (hs : s.ex.threads.Pairwise fun x y => x.1 < y.1) :
    Stands k (exited t) (closeOwn s t).mm (exitThread s k) := by
  have hlive : (exited t).live = false := by rw [exited_eq]; rfl
  have hbar : (exited t).waitOn ≠ .bar := by rw [exited_eq]; exact fun h => nomatch h
  have hexit : Stands k (exited t) (closeOwn s t).mm (leaveBundle (setThread (closeOwn s t) k (exited t)) k) :=
    ⟨rfl, by simp, fun e he hk => by
      have hg := tget_of_mem (tset_pairwise ((closeOwn_threads s t).symm ▸ hs) k (exited t)) he
      rw [hk, tget_tset_self] at hg
      exact (Option.some.inj hg).symm⟩
  simp only [exitThread, ht]
  exact ((hexit.checkGroup hlive _ _).checkBars hbar _).exitTiles _

/-- What STOP does in a lane whose thread is `t`: it waits for its loads, or ends (R333). -/
def stopLane (c : Ctx) (u : State) (k : Nat) (t : Thread) : State :=
  if count t .ld = 0 then finishStop (setThread u k t) k c.fpc else setThread u k (waiting c t .stop .stop)

theorem stop_lanes (s : State) : LaneByLane s {} .stop always (fun _ => s) fun c u k t v => v = leaveBundle (stopLane c u k t) k :=
  issueWord_lanes_of_body rfl fun c u k t => by
    dsimp only [stopLane]
    split <;> rfl

/-- STOP waits while loads are outstanding. -/
theorem stopLane_waits {c : Ctx} {u : State} {k : Nat} {t : Thread} (h : count t .ld ≠ 0) :
    LaneEnds k u (waiting c t .stop .stop) (leaveBundle (stopLane c u k t) k) := by
  rw [stopLane, if_neg h]
  exact (LaneEnds.setThread u k _).leaveBundle

/-- STOP takes the fault of a poisoned or denied load result (R242). -/
theorem stopLane_faults {c : Ctx} {u : State} {k : Nat} {t : Thread} {b : Bad} (h : count t .ld = 0)
    (hb : t.bad.find? (fun b => b.cnt == .ld) = some b) :
    stopLane c u k t = deliver (setThread u k (dropBad t b)) k (badCode b) b.addr c.fpc := by
  simp only [stopLane, if_pos h, finishStop, getThread_setThread, if_true, hb, setThread_setThread]

/-- STOP ends a thread that has no load outstanding and no such result. -/
theorem stopLane_exits {c : Ctx} {u : State} {k : Nat} {t : Thread} (h : count t .ld = 0) (hb : ∀ b ∈ t.bad, b.cnt ≠ .ld)
    (hs : u.ex.threads.Pairwise fun x y => x.1 < y.1) : Stands k (exited t) (closeOwn u t).mm (stopLane c u k t) := by
  have hn : t.bad.find? (fun b => b.cnt == .ld) = none := List.find?_eq_none.2 fun b hm hc => hb b hm (beq_iff_eq.1 hc)
  simp only [stopLane, if_pos h, finishStop, getThread_setThread, if_true, hn]
  rw [← closeOwn_setThread_mm u k t t]
  exact exitThread_stands (by simp) (tset_pairwise hs k t)

/-- The thread that STOP ended, and memory, by name. -/
theorem Stands.stopped {k : Nat} {t : Thread} {m : MemSys} {v : State} (h : Stands k (exited t) m v) :
    v.mm = m ∧ ∃ x, getThread v k = some x ∧ x.st = .draining ∧ x.waitOn = .nothing ∧
      x.tx = {} ∧ x.snap = .off ∧ x.frame = none ∧ x.regs = t.regs ∧ x.preds = t.preds ∧ x.ops = t.ops ∧ x.pts = t.pts := by
  refine ⟨h.mm, _, h.mine, ?_⟩
  rw [exited_eq]
  exact ⟨rfl, rfl, rfl, rfl, rfl, rfl, rfl, rfl, rfl⟩

/-! YIELD, TXABORT and SNAP_CLOSE (R236, R265, R266, R334). -/

theorem yield_lanes (s : State) : LaneByLane s { ends := true } .yield always (fun _ => s) fun c u k t v =>
    LaneEnds k u (finish { ends := true } c { t with yielded := true }) v :=
  issueWord_lanes_of_body rfl fun c u k _ => .laneEnd_ok _ c u u k _

/-- TXABORT aborts a transaction whose body runs, at whatever depth, and nothing else. -/
theorem txabort_lanes (s : State) : LaneByLane s {} .txabort always (fun _ => s) fun c u k t v => LaneEnds k u (finish {} c
    (if 0 < t.tx.depth ∧ t.tx.active then { t with txReason := 4, tx := { t.tx with active := false, ws := [], adds := [] } } else t)) v := by
  refine issueWord_lanes_of_body rfl fun c u k t => ?_
  have ha : (if 0 < t.tx.depth ∧ t.tx.active then { t with txReason := 4, tx := { t.tx with active := false, ws := [], adds := [] } } else t) =
      if t.tx.depth = 0 then t else abortTx t 4 := by
    unfold abortTx
    by_cases hd : t.tx.depth = 0
    · simp [hd]
    · simp [hd, Nat.pos_of_ne_zero hd]
  rw [ha]
  exact .laneEnd_ok _ c u u k _

/-- The state in which a thread's own snapshot, where it has one, has given up its entry of the horizon table (R229, R266). -/
def snapClosed (u : State) (t : Thread) : State := match t.snap with
  | .own S => closeSnap u S
  | _ => u

theorem snapClosed_eq (u : State) (t : Thread) : snapClosed u t = { u with mm := (snapClosed u t).mm } := by
  unfold snapClosed
  split <;> rfl

theorem snapClose_lanes (s : State) : LaneByLane s { order := true } .snapClose always (fun _ => s) fun c u k t v =>
    LaneEnds k { u with mm := (snapClosed u t).mm } (finish { order := true } c { abortTx t 4 with snap := .off }) v :=
  issueWord_lanes_of_body rfl fun c u k t => by
    have hs : snapClosed u (abortTx t 4) = snapClosed u t := by rw [abortTx_eq]; rfl
    rw [← snapClosed_eq, ← hs]
    exact .laneEnd_ok _ c u (snapClosed u (abortTx t 4)) k _

/-! IFLUSH (R181, R190). -/

theorem count_schedQuiet (s : State) (c : Ctx) (t : Thread) (n : Cnt) : count (schedQuiet s c t) n = count t n := by
  rw [schedQuiet_eq]
  rfl

/-- A thread's epoch moved: nothing else of the state but the model's count differs (R181). -/
theorem moveEpoch_setThread (s : State) (k : Nat) (t : Thread) :
    moveEpoch (setThread s k t) k = setThread { s with nextId := s.nextId + 1 } k { t with epoch := s.nextId + 1 } := by
  have hg : tget (tset s.ex.threads k t) k = some t := tget_tset_self _ _ _
  simp only [moveEpoch, fresh, modThread, setThread, tmod, hg, tset_tset]

theorem getThread_moveEpoch (s : State) (k j : Nat) : getThread (moveEpoch s k) j =
    if j = k then (getThread s k).map fun t => { t with epoch := s.nextId + 1 } else getThread s j :=
  getThread_modThread _ k j _

/-- Where the epochs of some threads move, a thread keeps all but its epoch, which is above `n` where it moves, or was so before. -/
theorem getThread_foldl_moveEpoch {n j : Nat} (ks : List Nat) {s : State} (hn : n ≤ s.nextId) {t : Thread} (ht : getThread s j = some t) :
    ∃ e, getThread (ks.foldl moveEpoch s) j = some { t with epoch := e } ∧ (j ∈ ks ∨ n < t.epoch → n < e) := by
  induction ks generalizing s t with
  | nil => exact ⟨t.epoch, ht, fun h => h.resolve_left List.not_mem_nil⟩
  | cons a ks ih =>
    have hj := getThread_moveEpoch s a j
    have hn' : n ≤ (moveEpoch s a).nextId := Nat.le_succ_of_le hn
    by_cases ha : j = a
    · subst ha
      rw [if_pos rfl, ht] at hj
      obtain ⟨e, he, hlt⟩ := ih hn' hj
      exact ⟨e, he, fun _ => hlt (.inr (Nat.lt_succ_of_le hn))⟩
    · rw [if_neg ha, ht] at hj
      obtain ⟨e, he, hlt⟩ := ih hn' hj
      exact ⟨e, he, fun h => hlt (h.imp_left fun h => (List.mem_cons.1 h).resolve_left ha)⟩

/-- No thread comes of a move of epochs. -/
theorem getThread_of_foldl_moveEpoch {j : Nat} (ks : List Nat) {s : State} {t : Thread} (h : getThread (ks.foldl moveEpoch s) j = some t) :
    ∃ x, getThread s j = some x := by
  have hk : (getThread (ks.foldl moveEpoch s) j).isSome = (getThread s j).isSome :=
    foldl_keeps (p := fun s => (getThread s j).isSome) (fun s a => by
      rw [getThread_moveEpoch]
      split
      · simp [*]
      · rfl) ks s
  rw [h] at hk
  exact Option.isSome_iff_exists.1 hk.symm

/-- The state in which a core holds no word of code (R190). -/
def dropCode (core : Nat) (s : State) : State := { s with ex := { s.ex with code := s.ex.code.filter fun x => x.core != core } }

/-- The same with the epochs of the core's threads moved (R190). -/
def flushCore (core : Nat) (s : State) : State :=
  ((s.ex.threads.filter fun e => coreOf e.1 == core).map (·.1)).foldl moveEpoch (dropCode core s)

theorem flushCore_mm (core : Nat) (s : State) : (flushCore core s).mm = s.mm := foldl_keeps (p := State.mm) (f := moveEpoch) (fun _ _ => rfl) _ _

theorem flushCore_code (core : Nat) (s : State) : (flushCore core s).ex.code = s.ex.code.filter fun x => x.core != core :=
  foldl_keeps (p := fun s => s.ex.code) (f := moveEpoch) (fun _ _ => rfl) _ _

/-- A thread keeps all but its epoch, which is new where it is of the core. -/
theorem getThread_flushCore {core j : Nat} {s : State} {t : Thread} (ht : getThread s j = some t) :
    ∃ e, getThread (flushCore core s) j = some { t with epoch := e } ∧ (coreOf j = core → s.nextId < e) := by
  obtain ⟨e, he, hlt⟩ := getThread_foldl_moveEpoch ((s.ex.threads.filter fun e => coreOf e.1 == core).map (·.1))
    (s := dropCode core s) le_rfl ht
  exact ⟨e, he, fun hj => hlt (.inl (List.mem_map.2 ⟨(j, t), List.mem_filter.2 ⟨mem_of_tget ht, beq_iff_eq.2 hj⟩, rfl⟩))⟩

/-- Every thread of the core has a new epoch. -/
theorem epoch_of_flushCore {core j : Nat} {s : State} {t : Thread} (hj : coreOf j = core) (ht : getThread (flushCore core s) j = some t) :
    s.nextId < t.epoch := by
  obtain ⟨x, hx⟩ : ∃ x, getThread s j = some x := getThread_of_foldl_moveEpoch (s := dropCode core s) _ ht
  obtain ⟨e, he, hlt⟩ := getThread_flushCore (core := core) hx
  cases he.symm.trans ht
  exact hlt hj

/-- No thread of a bundle has a load outstanding. -/
def noLoads (s : State) (_ : Ctx) (ks : List Nat) : Prop := ∀ k ∈ ks, ∀ t, getThread s k = some t → count t .ld = 0

theorem noLoads_of_count {s : State} {c : Ctx} {k : Nat} {t : Thread} (ht : getThread s k = some t) (h : count (schedQuiet s c t) .ld = 0) :
    noLoads s c [k] := by
  intro j hj t' ht'
  cases List.mem_singleton.1 hj
  cases ht.symm.trans ht'
  rwa [count_schedQuiet] at h

/-- What IFLUSH does for a lane before the lane completes it (R190). -/
def iflushed (m : IflushScope) (c : Ctx) (s : State) (k : Nat) : State := match m with
  | .own => moveEpoch s k
  | .core => flushCore c.core s

/-- With no load outstanding in its bundle, IFLUSH acts lane by lane. -/
theorem iflush_lanes (m : IflushScope) (s : State) : LaneByLane s {} (.iflush m) (noLoads s) (fun _ => s) fun c u k t v =>
    v = completeLane (iflushed m c (setThread u k t) k) k c.words false := by
  refine issueGo_lanes (fun c s k t => .ok (iflushed m c (setThread s k t) k)) (show exec (.iflush m) s = execIflush m s from rfl)
    (fun c ks hn => ?_) fun _ _ _ _ => rfl
  dsimp only
  rw [if_neg]
  · cases m <;> rfl
  · intro hany
    obtain ⟨k, hk, hc⟩ := List.any_eq_true.1 hany
    split at hc
    · rename_i t ht
      simp [hn k hk t ht] at hc
    · cases hc

/-- IFLUSH.own completes with its thread's epoch moved. -/
theorem iflushOwn_ends (c : Ctx) (u : State) (k : Nat) (t : Thread) :
    LaneEnds k { u with nextId := u.nextId + 1 } (finish {} c { t with epoch := u.nextId + 1 })
      (completeLane (iflushed .own c (setThread u k t) k) k c.words false) := by
  change LaneEnds _ _ _ (completeLane (moveEpoch (setThread u k t) k) k c.words false)
  rw [moveEpoch_setThread]
  exact .completeLane {} c _ k _

/-- What IFLUSH.core leaves in a lane: the core holds no word of code, each of its threads has a new epoch, and the lane has completed (R190). -/
structure CoreFlushed (c : Ctx) (u : State) (k : Nat) (t : Thread) (v : State) : Prop where
  mm : v.mm = u.mm
  code : ∀ x ∈ v.ex.code, x.core ≠ c.core
  epochs : ∀ j t', coreOf j = c.core → getThread v j = some t' → u.nextId < t'.epoch
  mine : ∃ x, getThread v k = some x ∧ x.pc = t.pc + BitVec.ofNat 32 c.words ∧ x.regs = t.regs

/-- A completed word moves its thread's PC, and keeps its registers and its epoch. -/
theorem finish_keeps (w : WordSpec) (c : Ctx) (t : Thread) :
    (finish w c t).pc = t.pc + BitVec.ofNat 32 c.words ∧ (finish w c t).regs = t.regs ∧ (finish w c t).epoch = t.epoch := by
  unfold finish
  dsimp only
  split <;> exact ⟨rfl, rfl, rfl⟩

theorem iflushCore_ends (c : Ctx) (u : State) (k : Nat) (t : Thread) :
    CoreFlushed c u k t (completeLane (iflushed .core c (setThread u k t) k) k c.words false) := by
  change CoreFlushed c u k t (completeLane (flushCore c.core (setThread u k t)) k c.words false)
  obtain ⟨e, he, hlt⟩ := getThread_flushCore (core := c.core) (show getThread (setThread u k t) k = some t by simp)
  have hend := getThread_completeLane {} c he
  have honly := OnlyLanes.completeLane (flushCore c.core (setThread u k t)) k c.words false
  obtain ⟨hpc, hregs, hepoch⟩ := finish_keeps {} c { t with epoch := e }
  refine ⟨honly.mm.trans (flushCore_mm _ _), ?_, fun j t' hj ht' => ?_, _, (hend k).trans (if_pos rfl), hpc, hregs⟩
  · rw [honly.code, flushCore_code]
    exact fun x hx => bne_iff_ne.1 (List.mem_filter.1 hx).2
  · by_cases hk : j = k
    · subst hk
      cases ((hend j).trans (if_pos rfl)).symm.trans ht'
      exact hepoch ▸ hlt hj
    · exact epoch_of_flushCore (s := setThread u k t) hj (((hend j).trans (if_neg hk)).symm.trans ht')

end Sys2Proof.Machine

section
open Sys2Proof Sys2Proof.Machine

/-- Settles O28: STOP by what `stopLane` waits for, faults with or ends (`stop_lanes`), IFLUSH by `iflush_lanes`, the other words by the lemma of
each. -/
theorem yieldFlushAndClear : Obligations.YieldFlushAndClear := by
  refine ⟨fun s => (stop_lanes s).imp ?stop, LaneByLane.completes fun s => (stop_lanes s).imp ?stopAlone, yield_lanes,
    LaneByLane.completes fun s => (yield_lanes s).imp fun _ _ _ _ _ h _ => h.done, fun s => (iflush_lanes .own s).imp ?own,
    fun s c k t hi ht h => ?ownAlone, fun s => (iflush_lanes .core s).imp ?core, fun s c k t hi ht h => ?coreAlone, txabort_lanes,
    LaneByLane.completes fun s => (txabort_lanes s).imp fun _ _ _ _ _ h _ => h.done, fun s => (snapClose_lanes s).imp ?snap,
    LaneByLane.completes fun s => (snapClose_lanes s).imp ?snapAlone⟩
  case stop =>
    rintro c u k t v rfl
    refine ⟨stopLane_waits, fun h0 b hb => by rw [stopLane_faults h0 hb], fun h0 hb hs => ?_⟩
    exact ((stopLane_exits h0 hb hs).congr rfl rfl : Stands _ _ _ (leaveBundle _ k)).stopped
  case stopAlone =>
    rintro c u k t v rfl ⟨h0, hb, hs⟩
    exact ((stopLane_exits h0 hb hs).congr rfl rfl : Stands _ _ _ (done (leaveBundle _ k))).stopped
  case own =>
    rintro c u k t v rfl
    exact iflushOwn_ends c u k t
  case ownAlone =>
    obtain ⟨v, he, rfl⟩ := (iflush_lanes .own s).alone_from hi (noLoads_of_count ht h) ht rfl rfl
    exact ⟨_, he, rfl, (iflushOwn_ends c s k _).done⟩
  case core =>
    rintro c u k t v rfl
    obtain ⟨hmm, hcode, hepochs, hmine⟩ := iflushCore_ends c u k t
    exact ⟨hmm, hcode, hepochs, hmine⟩
  case coreAlone =>
    obtain ⟨v, he, rfl⟩ := (iflush_lanes .core s).alone_from hi (noLoads_of_count ht h) ht rfl rfl
    obtain ⟨hmm, hcode, hepochs, hmine⟩ := iflushCore_ends c s k (schedQuiet s c t)
    exact ⟨_, he, rfl, hmm, hcode, hepochs, hmine⟩
  case snap =>
    intro c u k t v h
    exact ⟨(snapClosed u t).mm, by unfold snapClosed; cases t.snap <;> rfl, h⟩
  case snapAlone =>
    intro c u k t v h _
    exact ⟨(snapClosed u t).mm, by unfold snapClosed; cases t.snap <;> rfl, h.done⟩

end

/-! O5 and O6: the state after reset. -/

namespace Sys2Proof.Machine

/-- The empty memory reads zero. -/
theorem mread_nil (pa n : Nat) : mread [] pa n = List.replicate n 0 := by
  simp [mread, mget]

theorem leNat_replicate_zero (n : Nat) : leNat (List.replicate n (0 : Byte)) = 0 := by
  induction n with
  | zero => rfl
  | succ n ih => rw [List.replicate_succ, leNat, ih]; rfl

/-- No line of the reset state is listed, so its stamps are 0. -/
theorem getLine_reset (ln : Nat) : (getLine State.reset ln).wts = 0 ∧ (getLine State.reset ln).rts = 0 := by
  unfold getLine
  split <;> exact ⟨rfl, rfl⟩

end Sys2Proof.Machine

section
open Sys2Proof Sys2Proof.Machine

/-- Settles O5: the reset state's fields, and zero bytes from a memory that lists none. -/
theorem resetState : Obligations.ResetState := by
  have hmem : State.reset.mm.mem = [] := rfl
  have hzero : ∀ pa n, leNat (mread State.reset.mm.mem pa n) = 0 := fun pa n => by
    rw [hmem, mread_nil, leNat_replicate_zero]
  refine ⟨hzero, getLine_reset, rfl, rfl, rfl, rfl, rfl, rfl, rfl, rfl, rfl, rfl, rfl, rfl, rfl, ⟨_, rfl, rfl, rfl, rfl, rfl⟩,
    ⟨_, _, rfl, rfl, rfl⟩, rfl, rfl, rfl, rfl, rfl, rfl⟩

/-- Settles O6: the memory after reset lists no byte. -/
theorem resetMemoryIsCanonical : Obligations.ResetMemoryIsCanonical :=
  nil_wf

end

/-! O7: every step keeps the canonical form of memory. Each function of the model that makes a state has one lemma here, in the model's order:
where it writes no byte of memory the form is the same before and after; where it may write some, the form is kept. The rules at the
head carry the form through folds, lane loops, outcomes and lane results; only `mwrite_wf` and `filter_wf` speak of bytes. -/

namespace Sys2Proof.Machine

/-- Memory's form is read from the memories alone. -/
@[simp] theorem memOk_mk (mm : MemSys) (ex : Exec) (tr : Trans) (qu : QueueUnit) (en : Engines) (fa : Fabric) (bd : Base) (b : Bool) (c : Option Issue)
    (a : List Move) (n : Nat) : MemOk ⟨mm, ex, tr, qu, en, fa, bd, b, c, a, n⟩ = (Memory.wf mm.mem = true) := rfl

@[simp] theorem wf_mem (s : State) : (Memory.wf s.mm.mem = true) = MemOk s := rfl

@[simp] theorem memOk_setMem (s : State) (m : Mem) : MemOk (setMem s m) = (Memory.wf m = true) := rfl

theorem memOk_ite {c : Prop} [Decidable c] {s u : State} (hs : MemOk s) (hu : MemOk u) : MemOk (if c then s else u) := by
  split <;> assumption

@[simp] theorem memOk_ite_eq {c : Prop} [Decidable c] (s u : State) : MemOk (if c then s else u) = if c then MemOk s else MemOk u := by
  split <;> rfl

/-- A fold over values that hold a state. -/
theorem memOk_foldl_of {α β : Type} {g : β → State} {f : β → α → β} (hf : ∀ r x, MemOk (g r) → MemOk (g (f r x))) {l : List α} {r : β} (h : MemOk (g r)) :
    MemOk (g (l.foldl f r)) := by
  induction l generalizing r with
  | nil => exact h
  | cons x l ih => exact ih (hf r x h)

theorem memOk_foldl {α : Type} {f : State → α → State} {l : List α} {s : State} (h : MemOk s) (hf : ∀ s x, MemOk s → MemOk (f s x)) : MemOk (l.foldl f s) :=
  memOk_foldl_of (g := id) hf h

theorem memOk_foldl_snd {α β : Type} {f : β × State → α → β × State} (hf : ∀ r x, MemOk r.2 → MemOk (f r x).2) {l : List α} {r : β × State} (h : MemOk r.2) :
    MemOk (l.foldl f r).2 :=
  memOk_foldl_of (g := Prod.snd) hf h

/-- A fold of which no step writes memory. -/
@[simp] theorem memOk_foldl_keeps {α : Type} {f : State → α → State} (hf : ∀ s x, MemOk (f s x) = MemOk s) (l : List α) (s : State) :
    MemOk (l.foldl f s) = MemOk s := by
  induction l generalizing s with
  | nil => rfl
  | cons x l ih => exact (ih _).trans (hf s x)

@[simp] theorem memOk_laneLoop_keeps {f : State → Nat → State} (hf : ∀ s x, MemOk (f s x) = MemOk s) (l : List Nat) (s : State) :
    MemOk (laneLoop f s l) = MemOk s := by
  induction l generalizing s with
  | nil => rfl
  | cons x l ih => exact (ih _).trans (hf s x)

theorem memOk_laneLoop {f : State → Nat → State} (hf : ∀ s x, MemOk s → MemOk (f s x)) {l : List Nat} {s : State} (h : MemOk s) :
    MemOk (laneLoop f s l) := by
  induction l generalizing s with
  | nil => exact h
  | cons x l ih => exact ih (hf s x h)

/-- The next state of an outcome, where there is one, has memory's form. -/
def NextOk (o : Host.Outcome State Fault Refusal) : Prop := ∀ u, o = .next u → MemOk u

@[simp] theorem nextOk_next (s : State) : NextOk (.next s) = MemOk s := by simp [NextOk]

@[simp] theorem nextOk_fault (f : Fault) : NextOk (.fault f) := by simp [NextOk]

@[simp] theorem nextOk_refused (f : Refusal) : NextOk (.refused f) := by simp [NextOk]

/-- The state that a lane's body leaves, where it leaves one, has memory's form. -/
def LaneOk : LaneOut → Prop
  | .ok s | .wait s | .faultIn s _ _ => MemOk s
  | .fault .. => True

@[simp] theorem laneOk_ok (s : State) : LaneOk (.ok s) = MemOk s := rfl

@[simp] theorem laneOk_wait (s : State) : LaneOk (.wait s) = MemOk s := rfl

@[simp] theorem laneOk_faultIn (s : State) (a b : Nat) : LaneOk (.faultIn s a b) = MemOk s := rfl

@[simp] theorem laneOk_fault (a b : Nat) : LaneOk (.fault a b) = True := rfl

/-! Memory's form through Machine/Table.lean. -/

@[simp] theorem memOk_fresh (s : State) : MemOk (fresh s).2 = MemOk s := by
  simp [fresh]

/-! Memory's form through Machine/Memory.lean. -/

@[simp] theorem memOk_setThread (s : State) (k : Nat) (t : Thread) : MemOk (setThread s k t) = MemOk s := by
  simp [setThread]

@[simp] theorem memOk_modThread (s : State) (k : Nat) (f : Thread → Thread) : MemOk (modThread s k f) = MemOk s := by
  simp [modThread]

@[simp] theorem memOk_mapThreads (s : State) (f : Thread → Thread) : MemOk (mapThreads s f) = MemOk s := by
  simp [mapThreads]

@[simp] theorem memOk_modTeam (s : State) (k : Nat) (f : Team → Team) : MemOk (modTeam s k f) = MemOk s := by
  simp [modTeam]

@[simp] theorem memOk_modCore (s : State) (c : Nat) (f : Core → Core) : MemOk (modCore s c f) = MemOk s := by
  simp [modCore]

@[simp] theorem memOk_modGrid (s : State) (g : Nat) (f : Grid → Grid) : MemOk (modGrid s g f) = MemOk s := by
  simp [modGrid]

@[simp] theorem memOk_modQueue (s : State) (q : Nat) (f : Queue → Queue) : MemOk (modQueue s q f) = MemOk s := by
  simp [modQueue]

@[simp] theorem memOk_modSlot (s : State) (q : Nat) (f : Slot → Slot) : MemOk (modSlot s q f) = MemOk s := by
  simp [modSlot]

@[simp] theorem memOk_modCard (s : State) (c : Nat) (f : Card → Card) : MemOk (modCard s c f) = MemOk s := by
  simp [modCard]

@[simp] theorem memOk_perf (s : State) (unit n counter by_ : Nat) : MemOk (perf s unit n counter by_) = MemOk s := by
  simp [perf]

@[simp] theorem memOk_post (s : State) (srcKind srcId code arg0 arg1 : Nat) : MemOk (post s srcKind srcId code arg0 arg1) = MemOk s := by
  simp [post]

@[simp] theorem memOk_setLine (s : State) (ln : Nat) (l : Line) : MemOk (setLine s ln l) = MemOk s := by
  simp [setLine]

@[simp] theorem memOk_noteFill (s : State) (ln : Nat) : MemOk (noteFill s ln) = MemOk s := by
  simp [noteFill]

@[simp] theorem memOk_touchLine (s : State) (ln : Nat) : MemOk (touchLine s ln) = MemOk s := by
  simp [touchLine]

@[simp] theorem memOk_hostFrames (s : State) : MemOk (hostFrames s) = MemOk s := by
  simp [hostFrames]

@[simp] theorem memOk_hostPath (s : State) (kind pa : Nat) (bs : List Byte) : MemOk (hostPath s kind pa bs) = MemOk s := by
  simp [hostPath]

@[simp] theorem memOk_readHost (s : State) (pa n : Nat) : MemOk (readHost s pa n) = MemOk s := by
  simp [readHost]

@[simp] theorem memOk_writeHost (s : State) (pa : Nat) (bs : List Byte) : MemOk (writeHost s pa bs) = MemOk s := by
  simp [writeHost]

@[simp] theorem memOk_writeBackWhere (s : State) (f : Nat → Bool) : MemOk (writeBackWhere s f) = MemOk s := by
  obtain ⟨p, hp⟩ := writeBackWhere_eq s f
  rw [hp]; rfl

@[simp] theorem memOk_noteStamp (s : State) (ln ts : Nat) : MemOk (noteStamp s ln ts) = MemOk s := by
  simp [noteStamp]

theorem foldElem_wf {m : Mem} (h : Memory.wf m = true) (ln : Nat) (e : Nat × (Bool × Word)) : Memory.wf (foldElem m ln e) = true := mwrite_wf _ h _

theorem foldElems_wf (ln : Nat) (l : List (Nat × (Bool × Word))) {m : Mem} (h : Memory.wf m = true) :
    Memory.wf (l.foldl (fun m e => foldElem m ln e) m) = true := by
  induction l generalizing m with
  | nil => exact h
  | cons e l ih => exact ih (foldElem_wf h ln e)

@[simp] theorem memOk_foldLine (s : State) (ln : Nat) (h : MemOk s) : MemOk (foldLine s ln) := by
  unfold foldLine
  split
  · exact h
  · simp only [MemOk, perf_mm, setLine_mm_mem, setMem_mem]
    exact foldElems_wf ln _ (by simpa using h)

@[simp] theorem memOk_raiseFloor (s : State) (w : Nat) : MemOk (raiseFloor s w) = MemOk s := by
  simp [raiseFloor]

@[simp] theorem memOk_keepVersion (s : State) (ln : Nat) : MemOk (keepVersion s ln) = MemOk s := by
  simp [keepVersion]

@[simp] theorem memOk_placeFor (s : State) (ln ts : Nat) : MemOk (placeFor s ln ts) = MemOk s := by
  simp only [MemOk, placeFor_mem]

@[simp] theorem memOk_supersede (s : State) (ln ts : Nat) : MemOk (supersede s ln ts) = MemOk s := by
  simp [supersede]

@[simp] theorem memOk_loadAt (s : State) (p pa n : Nat) (h : MemOk s) : MemOk (loadAt s p pa n).2 := by
  simp [loadAt, h]

@[simp] theorem memOk_zeroLoad (s : State) (p pa : Nat) : MemOk (zeroLoad s p pa).2 = MemOk s := by
  simp [zeroLoad]

@[simp] theorem memOk_zeroSnap (s : State) (p S pa : Nat) : MemOk (zeroSnap s p S pa).2 = MemOk s := by
  simp [zeroSnap]

@[simp] theorem memOk_snapReadAt (s : State) (S pa n : Nat) (h : MemOk s) : MemOk (snapReadAt s S pa n).2 := by
  unfold snapReadAt
  dsimp only
  split <;> simp [h]

@[simp] theorem memOk_readAt (s : State) (zf : Bool) (S : Option Nat) (p pa n : Nat) (h : MemOk s) : MemOk (readAt s zf S p pa n).2 := by
  unfold readAt
  split <;> simp [h]

theorem memOk_writeWith {s : State} (h : MemOk s) (p pa : Nat) (whole : Bool) {f : Mem → Mem} (hf : ∀ m, Memory.wf m = true → Memory.wf (f m) = true) :
    MemOk (writeWith s p pa whole f).2 := by
  simp only [writeWith, memOk_noteStamp, memOk_mk, setLine_mm_mem, setMem_mem]
  exact hf _ (by simp [h])

@[simp] theorem memOk_writeAt (s : State) (p pa : Nat) (bs : List Byte) (c : Bool) (h : MemOk s) : MemOk (writeAt s p pa bs c).2 :=
  memOk_writeWith (by simp [h]) p pa _ fun _ hm => mwrite_wf bs hm pa

@[simp] theorem memOk_rmwAt (s : State) (p pa n : Nat) (f : Rmw) (x : Nat) (h : MemOk s) : MemOk (rmwAt s p pa n f x).2 := by
  unfold rmwAt
  dsimp only
  repeat' split
  all_goals simp [h]

@[simp] theorem memOk_evictDelta (s : State) (slice : Nat) (h : MemOk s) : MemOk (evictDelta s slice) := by
  unfold evictDelta
  dsimp only
  repeat' split
  all_goals simp [h]

@[simp] theorem memOk_addElem (s : State) (ln ts id : Nat) (b : Bool) (e : Nat × Word) (h : MemOk s) : MemOk (addElem s ln ts id b e) := by
  unfold addElem
  dsimp only
  split
  · simp [h]
  · split
    · simp [h]
    · simp only [memOk_setLine, memOk_setMem]
      exact foldElem_wf (by simp [h]) _ _

@[simp] theorem memOk_addElems (ln ts id : Nat) (b : Bool) (l : List (Nat × Word)) (s : State) (h : MemOk s) :
    MemOk (l.foldl (fun s e => addElem s ln ts id b e) s) :=
  memOk_foldl h fun s e h => memOk_addElem s ln ts id b e h

@[simp] theorem memOk_raddAt (s : State) (p pa : Nat) (k : RaddKind) (x : Nat) (h : MemOk s) : MemOk (raddAt s p pa k x).2 := by
  unfold raddAt
  extract_lets ln s1 l1 ts s2 s3
  have h1 : MemOk s1 := by simpa [s1] using h
  have h2 : MemOk s2 := by
    unfold s2
    split
    · simp [h1]
    · exact h1
  have h3 : MemOk s3 := by simp [s3, h2]
  simp [h3]

@[simp] theorem memOk_raddHost (s : State) (p pa : Nat) (k : RaddKind) (x : Nat) (h : MemOk s) : MemOk (raddHost s p pa k x).2 := by
  have fold (l : List (Nat × Word)) (m : Mem) (hm : Memory.wf m = true) :
      Memory.wf (l.foldl (fun m e => foldElem m (pa / 128) (e.1, (raddInt k, e.2))) m) = true := by
    induction l generalizing m with
    | nil => exact hm
    | cons e l ih => exact ih _ (foldElem_wf hm _ _)
  simp only [raddHost, memOk_writeHost]
  exact memOk_writeWith (by simp [h]) p pa false (fold _)

@[simp] theorem memOk_foldWhere (s : State) (f : Nat → Bool) (h : MemOk s) : MemOk (foldWhere s f) :=
  memOk_foldl h fun s ln h => memOk_ite (by simp [h]) h

@[simp] theorem memOk_flushWhere (s : State) (f : Nat → Bool) (h : MemOk s) : MemOk (flushWhere s f) := by
  simp [flushWhere, h]

@[simp] theorem memOk_flushHost (s : State) : MemOk (flushHost s) = MemOk s := by
  simp [flushHost]

@[simp] theorem memOk_settleAll (s : State) (h : MemOk s) : MemOk (settleAll s) := by
  simp [settleAll, h]

@[simp] theorem memOk_openSnap (s : State) (S : Nat) : MemOk (openSnap s S) = MemOk s := by
  simp [openSnap]

@[simp] theorem memOk_closeSnap (s : State) (S : Nat) : MemOk (closeSnap s S) = MemOk s := by
  simp [closeSnap]

/-! Memory's form through Machine/Ops.lean. -/

@[simp] theorem memOk_leaveBundle (s : State) (k : Nat) : MemOk (leaveBundle s k) = MemOk s := by
  simp [leaveBundle]

@[simp] theorem memOk_evalSerial (s : State) (team group : Nat) : MemOk (evalSerial s team group) = MemOk s := by
  simp [evalSerial]

@[simp] theorem memOk_settleStops (s : State) : MemOk (settleStops s) = MemOk s := by
  simp [settleStops]

@[simp] theorem memOk_settleSerial (before after : State) : MemOk (settleSerial before after) = MemOk after := by
  simp [settleSerial]

@[simp] theorem memOk_forget (s : State) (p : Owner → Bool) : MemOk (forget s p) = MemOk s := by
  simp [forget]

@[simp] theorem memOk_forgetWord (s : State) (k : Nat) : MemOk (forgetWord s k) = MemOk s := by
  simp [forgetWord]

@[simp] theorem memOk_deliver (s : State) (k code addr : Nat) (fpc : Word) : MemOk (deliver s k code addr fpc) = MemOk s := by
  unfold deliver
  split <;> simp

@[simp] theorem memOk_park (s : State) (k : Nat) : MemOk (park s k) = MemOk s := by
  simp [park]

@[simp] theorem memOk_completeLane (s : State) (k words : Nat) (ends : Bool) : MemOk (completeLane s k words ends) = MemOk s := by
  unfold completeLane
  split <;> simp

theorem memOk_laneStep (w : WordSpec) (c : Ctx) {body : State → Nat → Thread → LaneOut} (hb : ∀ s k t, MemOk s → LaneOk (body s k t)) (s : State) (k : Nat)
    (h : MemOk s) : MemOk (laneStep w c body s k) := by
  unfold laneStep
  split
  · exact h
  · rename_i t _
    have hb := hb s k (schedQuiet s c t) h
    repeat' split
    all_goals simp_all

@[simp] theorem memOk_done (s : State) : MemOk (done s) = MemOk s := by
  simp [done]

@[simp] theorem memOk_faultAll (s : State) (ks : List Nat) (code : Nat) (fpc : Word) : MemOk (faultAll s ks code fpc) = MemOk s := by
  simp [faultAll]

theorem nextOk_issueGo (w : WordSpec) {go : Ctx → List Nat → State → State} (hg : ∀ c ks s, MemOk s → MemOk (go c ks s)) {s : State}
    (h : MemOk s) : NextOk (issueGo w go s) := by
  unfold issueGo
  split <;> simp [h, hg]

theorem nextOk_issueWord (w : WordSpec) {body : Ctx → State → Nat → Thread → LaneOut} (hb : ∀ c s k t, MemOk s → LaneOk (body c s k t)) {s : State}
    (h : MemOk s) : NextOk (issueWord w body s) :=
  nextOk_issueGo w (fun c _ _ h => memOk_laneLoop (memOk_laneStep w c (hb c)) h) h

theorem nextOk_issueThen (w : WordSpec) {body : Ctx → State → Nat → Thread → LaneOut} {after : State → Nat → State}
    (hb : ∀ c s k t, MemOk s → LaneOk (body c s k t)) (ha : ∀ s k, MemOk s → MemOk (after s k)) {s : State} (h : MemOk s) : NextOk (issueThen w body after s) :=
  nextOk_issueGo w (fun c _ _ h => memOk_laneLoop (fun s k h => ha _ k (memOk_laneStep w c (hb c) s k h)) h) h

@[simp] theorem memOk_release (s : State) (k : Nat) : MemOk (release s k) = MemOk s := by
  simp [release]

@[simp] theorem nextOk_regWord (w : WordSpec) (f : LaneFn) (s : State) (h : MemOk s) : NextOk (regWord w f s) :=
  nextOk_issueWord w (fun c s k t h => by split <;> simp [h]) h

/-! Memory's form through Machine/Translate.lean. -/

@[simp] theorem memOk_keepPointers (s : State) (kept : List Pointer) (die asid va : Nat) : MemOk (keepPointers s kept die asid va) = MemOk s := by
  unfold keepPointers
  split <;> simp

@[simp] theorem memOk_setMerge (s : State) (k : Nat) (m : Merge) : MemOk (setMerge s k m) = MemOk s := by
  simp [setMerge]

@[simp] theorem memOk_freeMerge (s : State) (k : Nat) : MemOk (freeMerge s k) = MemOk s := by
  simp [freeMerge]

@[simp] theorem memOk_startWalk (s : State) (die : Nat) : MemOk (startWalk s die) = MemOk s := by
  unfold startWalk
  repeat' split
  all_goals simp

@[simp] theorem memOk_queueWalk (s : State) (k : Nat) (m : Merge) : MemOk (queueWalk s k m) = MemOk s := by
  simp [queueWalk]

@[simp] theorem memOk_joinMerge (s : State) (die asid va acc : Nat) (src : Nat × Nat) (ph : MergePhase) (w : Waiter) : MemOk (joinMerge s die asid va acc src ph w) = MemOk s := by
  unfold joinMerge
  repeat' split
  all_goals simp

@[simp] theorem memOk_noteWalk (s : State) (u : Via) (asid va : Nat) : MemOk (noteWalk s u asid va) = MemOk s := by
  simp [noteWalk]

@[simp] theorem memOk_laneMiss (s : State) (k asid va : Nat) (a : Acc) (ph : MergePhase) (w : Waiter) : MemOk (laneMiss s k asid va a ph w) = MemOk s := by
  simp [laneMiss]

@[simp] theorem memOk_fillCore (s : State) (core : Nat) (lane : Option Nat) (e : TlbEntry) : MemOk (fillCore s core lane e) = MemOk s := by
  simp [fillCore]

@[simp] theorem memOk_touchPage (s : State) (k : Nat) (t : Thread) (asid va : Nat) : MemOk (touchPage s k t asid va) = MemOk s := by
  unfold touchPage
  repeat' split
  all_goals simp

@[simp] theorem memOk_unparkThread (s : State) (k : Nat) : MemOk (unparkThread s k) = MemOk s := by
  unfold unparkThread
  split <;> simp

@[simp] theorem memOk_setPage (s : State) (n : Nat) (e : TlbEntry) : MemOk (setPage s n e) = MemOk s := by
  simp [setPage]

@[simp] theorem memOk_grantTo (s : State) (e : TlbEntry) (w : Waiter) : MemOk (grantTo s e w) = MemOk s := by
  unfold grantTo
  dsimp only
  repeat' split
  all_goals simp

@[simp] theorem memOk_dropXlats (s : State) (p : TlbEntry → Bool) (q : Pointer → Bool) : MemOk (dropXlats s p q) = MemOk s := by
  simp [dropXlats]

@[simp] theorem memOk_dropPage (s : State) (asid va size : Nat) : MemOk (dropPage s asid va size) = MemOk s := by
  simp [dropPage]

@[simp] theorem memOk_rewalk (s : State) (asid vpn : Nat) : MemOk (rewalk s asid vpn) = MemOk s := by
  simp [rewalk]

/-! Memory's form through Machine/Access.lean. -/

@[simp] theorem memOk_joinLane (a : Acc) (fpc : Word) (s : State) (m : Nat × Nat × MergePhase) : MemOk (joinLane a fpc s m) = MemOk s := by
  unfold joinLane
  split <;> simp

theorem laneOk_globalLane (a : Acc) (n : Nat) (ea : Thread → Int) {body : State → Nat → Thread → Nat → Leaf → LaneOut}
    (hb : ∀ s k t va l, MemOk s → LaneOk (body s k t va l)) (s : State) (k : Nat) (t : Thread) (h : MemOk s) : LaneOk (globalLane a n ea body s k t) := by
  unfold globalLane
  repeat' split
  all_goals simp [h, hb]

theorem nextOk_globalWord (w : WordSpec) (a : Acc) (n : Nat) (ea : Thread → Int) {body : Ctx → Nat → State → Nat → Thread → Nat → Leaf → LaneOut}
    (hb : ∀ c wid s k t va l, MemOk s → LaneOk (body c wid s k t va l)) {s : State} (h : MemOk s) : NextOk (globalWord w a n ea body s) := by
  refine nextOk_issueGo w (fun c ks s h => ?_) h
  dsimp only
  split
  · exact memOk_laneLoop (memOk_laneStep w c (laneOk_globalLane a n ea (hb c _))) (by simp [h])
  · simp [h]

@[simp] theorem memOk_issueOp (s : State) (k : Nat) (t : Thread) (o : Op) : MemOk (issueOp s k t o) = MemOk s := by
  simp [issueOp]

@[simp] theorem memOk_viewRead (s : State) (x : Tx) (zf : Bool) (S : Option Nat) (p pa n : Nat) (h : MemOk s) : MemOk (viewRead s x zf S p pa n).2 := by
  unfold viewRead
  split <;> simp [h]

@[simp] theorem memOk_txView (s : State) (t : Thread) (pa n : Nat) (zf : Bool) (h : MemOk s) : MemOk (txView s t pa n zf).2 := by
  simp [txView, h]

@[simp] theorem memOk_uncounted (cold : Bool) (before after : State) : MemOk (uncounted cold before after) = MemOk after := by
  simp [uncounted]

@[simp] theorem laneOk_issueLoad (s : State) (k : Nat) (t : Thread) (o : Op) (h : MemOk s) : LaneOk (issueLoad s k t o) := by
  unfold issueLoad
  dsimp only
  repeat' split
  all_goals simp [h]

@[simp] theorem laneOk_issueStore (s : State) (k : Nat) (t : Thread) (o : Op) (x : Nat) (h : MemOk s) : LaneOk (issueStore s k t o x) := by
  unfold issueStore
  repeat' split
  all_goals simp [h]

@[simp] theorem laneOk_issueRmw (s : State) (k : Nat) (t : Thread) (o : Op) (f : Rmw) (x : Nat) (h : MemOk s) : LaneOk (issueRmw s k t o f x) := by
  unfold issueRmw
  dsimp only
  repeat' split
  all_goals simp [h]

@[simp] theorem laneOk_issueRadd (s : State) (k : Nat) (t : Thread) (o : Op) (f : RaddKind) (x : Nat) (h : MemOk s) : LaneOk (issueRadd s k t o f x) := by
  unfold issueRadd
  repeat' split
  all_goals simp [h]

@[simp] theorem memOk_performed (s : State) (k id : Nat) (snap : Bool) (a : Ack) : MemOk (performed s k id snap a) = MemOk s := by
  simp [performed]

@[simp] theorem memOk_l1Fill (s : State) (core pa : Nat) : MemOk (l1Fill s core pa) = MemOk s := by
  simp [l1Fill]

@[simp] theorem memOk_performHere (viaL1 : Bool) (s : State) (e : Nat × Op) (h : MemOk s) : MemOk (performHere viaL1 s e) := by
  unfold performHere
  dsimp only
  repeat' split
  all_goals simp [h]

@[simp] theorem memOk_acceptOp (s : State) (k id : Nat) : MemOk (acceptOp s k id) = MemOk s := by
  simp [acceptOp]

/-! Memory's form through Machine/Integer.lean. -/

@[simp] theorem nextOk_bin (d a b : Reg) (f : Word → Word → Word) (s : State) (h : MemOk s) : NextOk (bin d a b f s) := by
  simp [bin, h]

@[simp] theorem nextOk_un (d a : Reg) (f : Word → Word) (s : State) (h : MemOk s) : NextOk (un d a f s) := by
  simp [un, h]

@[simp] theorem nextOk_immWord (d a : Reg) (imm : BitVec 10) (f : Word → Word → Word) (s : State) (h : MemOk s) : NextOk (immWord d a imm f s) := by
  simp [immWord, h]

@[simp] theorem nextOk_execIadd (m : SatMode) (d a b : Reg) (s : State) (h : MemOk s) : NextOk (execIadd m d a b s) := by
  simp [execIadd, h]

@[simp] theorem nextOk_execIsub (m : SatMode) (d a b : Reg) (s : State) (h : MemOk s) : NextOk (execIsub m d a b s) := by
  simp [execIsub, h]

@[simp] theorem nextOk_execImul (m : MulMode) (d a b : Reg) (s : State) (h : MemOk s) : NextOk (execImul m d a b s) := by
  simp [execImul, h]

@[simp] theorem nextOk_execImin (m : Sgn) (d a b : Reg) (s : State) (h : MemOk s) : NextOk (execImin m d a b s) := by
  simp [execImin, h]

@[simp] theorem nextOk_execImax (m : Sgn) (d a b : Reg) (s : State) (h : MemOk s) : NextOk (execImax m d a b s) := by
  simp [execImax, h]

@[simp] theorem nextOk_execIabsd (m : Sgn) (d a b : Reg) (s : State) (h : MemOk s) : NextOk (execIabsd m d a b s) := by
  simp [execIabsd, h]

@[simp] theorem nextOk_execAnd (d a b : Reg) (s : State) (h : MemOk s) : NextOk (execAnd d a b s) := by
  simp [execAnd, h]

@[simp] theorem nextOk_execOr (d a b : Reg) (s : State) (h : MemOk s) : NextOk (execOr d a b s) := by
  simp [execOr, h]

@[simp] theorem nextOk_execXor (d a b : Reg) (s : State) (h : MemOk s) : NextOk (execXor d a b s) := by
  simp [execXor, h]

@[simp] theorem nextOk_execAndn (d a b : Reg) (s : State) (h : MemOk s) : NextOk (execAndn d a b s) := by
  simp [execAndn, h]

@[simp] theorem nextOk_execShl (d a b : Reg) (s : State) (h : MemOk s) : NextOk (execShl d a b s) := by
  simp [execShl, h]

@[simp] theorem nextOk_execShr (m : ShrMode) (d a b : Reg) (s : State) (h : MemOk s) : NextOk (execShr m d a b s) := by
  simp [execShr, h]

@[simp] theorem nextOk_execRotl (d a b : Reg) (s : State) (h : MemOk s) : NextOk (execRotl d a b s) := by
  simp [execRotl, h]

@[simp] theorem nextOk_execBcnt (d a : Reg) (s : State) (h : MemOk s) : NextOk (execBcnt d a s) := by
  simp [execBcnt, h]

@[simp] theorem nextOk_execClz (d a : Reg) (s : State) (h : MemOk s) : NextOk (execClz d a s) := by
  simp [execClz, h]

@[simp] theorem nextOk_execCtz (d a : Reg) (s : State) (h : MemOk s) : NextOk (execCtz d a s) := by
  simp [execCtz, h]

@[simp] theorem nextOk_execBitrev (d a : Reg) (s : State) (h : MemOk s) : NextOk (execBitrev d a s) := by
  simp [execBitrev, h]

@[simp] theorem nextOk_execNot (d a : Reg) (s : State) (h : MemOk s) : NextOk (execNot d a s) := by
  simp [execNot, h]

@[simp] theorem nextOk_execFext (m : ExtMode) (d a b : Reg) (s : State) (h : MemOk s) : NextOk (execFext m d a b s) := by
  simp [execFext, h]

@[simp] theorem nextOk_execFins (d a b : Reg) (s : State) (h : MemOk s) : NextOk (execFins d a b s) := by
  simp [execFins, h]

@[simp] theorem nextOk_execMovi (d : Reg) (imm : BitVec 10) (s : State) (h : MemOk s) : NextOk (execMovi d imm s) := by
  simp [execMovi, h]

@[simp] theorem nextOk_execIaddi (d a : Reg) (imm : BitVec 10) (s : State) (h : MemOk s) : NextOk (execIaddi d a imm s) := by
  simp [execIaddi, h]

@[simp] theorem nextOk_execImuli (d a : Reg) (imm : BitVec 10) (s : State) (h : MemOk s) : NextOk (execImuli d a imm s) := by
  simp [execImuli, h]

@[simp] theorem nextOk_execAndi (d a : Reg) (imm : BitVec 10) (s : State) (h : MemOk s) : NextOk (execAndi d a imm s) := by
  simp [execAndi, h]

@[simp] theorem nextOk_execOri (d a : Reg) (imm : BitVec 10) (s : State) (h : MemOk s) : NextOk (execOri d a imm s) := by
  simp [execOri, h]

@[simp] theorem nextOk_execXori (d a : Reg) (imm : BitVec 10) (s : State) (h : MemOk s) : NextOk (execXori d a imm s) := by
  simp [execXori, h]

@[simp] theorem nextOk_execShli (d a : Reg) (n : BitVec 5) (s : State) (h : MemOk s) : NextOk (execShli d a n s) := by
  simp [execShli, h]

@[simp] theorem nextOk_execShri (d a : Reg) (n : BitVec 5) (s : State) (h : MemOk s) : NextOk (execShri d a n s) := by
  simp [execShri, h]

@[simp] theorem nextOk_execSari (d a : Reg) (n : BitVec 5) (s : State) (h : MemOk s) : NextOk (execSari d a n s) := by
  simp [execSari, h]

@[simp] theorem nextOk_execAdd64i (d a : Reg) (imm : BitVec 10) (s : State) (h : MemOk s) : NextOk (execAdd64i d a imm s) := by
  simp [execAdd64i, h]

@[simp] theorem nextOk_execAdd64 (d a b : Reg) (s : State) (h : MemOk s) : NextOk (execAdd64 d a b s) := by
  simp [execAdd64, h]

@[simp] theorem nextOk_execSub64 (d a b : Reg) (s : State) (h : MemOk s) : NextOk (execSub64 d a b s) := by
  simp [execSub64, h]

@[simp] theorem nextOk_execLea64 (sh : BitVec 3) (d a b : Reg) (s : State) (h : MemOk s) : NextOk (execLea64 sh d a b s) := by
  simp [execLea64, h]

@[simp] theorem nextOk_execMov (m : MovWidth) (d a : Reg) (s : State) (h : MemOk s) : NextOk (execMov m d a s) := by
  simp [execMov, h]

@[simp] theorem nextOk_execMovsr (d : Reg) (n : BitVec 10) (s : State) (h : MemOk s) : NextOk (execMovsr d n s) := by
  simp [execMovsr, h]

@[simp] theorem nextOk_execMovl (d : Reg) (n : BitVec 6) (s : State) (h : MemOk s) : NextOk (execMovl d n s) := by
  simp [execMovl, h]

@[simp] theorem nextOk_execImad (d a b c : Reg) (s : State) (h : MemOk s) : NextOk (execImad d a b c s) := by
  simp [execImad, h]

@[simp] theorem nextOk_cmpWord (src : List (Nat × Nat × Nat)) (pd pc : PredIx) (f : Thread → Bool) (s : State) (h : MemOk s) : NextOk (cmpWord src pd pc f s) := by
  simp [cmpWord, h]

@[simp] theorem nextOk_execIcmp (c : Cond) (pd pc : PredIx) (a b : Reg) (s : State) (h : MemOk s) : NextOk (execIcmp c pd pc a b s) := by
  simp [execIcmp, h]

@[simp] theorem nextOk_execIcmpi (c : Cond) (pd pc : PredIx) (a : Reg) (imm : BitVec 7) (s : State) (h : MemOk s) : NextOk (execIcmpi c pd pc a imm s) := by
  simp [execIcmpi, h]

@[simp] theorem nextOk_execIcmp64 (c : Cond) (pd pc : PredIx) (a b : Reg) (s : State) (h : MemOk s) : NextOk (execIcmp64 c pd pc a b s) := by
  simp [execIcmp64, h]

@[simp] theorem nextOk_execPcomb (m : PCombOp) (pd pc pa pb : PredIx) (s : State) (h : MemOk s) : NextOk (execPcomb m pd pc pa pb s) := by
  simp [execPcomb, h]

@[simp] theorem nextOk_execPget (d : Reg) (s : State) (h : MemOk s) : NextOk (execPget d s) := by
  simp [execPget, h]

@[simp] theorem nextOk_execPset (a : Reg) (s : State) (h : MemOk s) : NextOk (execPset a s) := by
  simp [execPset, h]

@[simp] theorem nextOk_execPick (p : PredIx) (d a b : Reg) (s : State) (h : MemOk s) : NextOk (execPick p d a b s) := by
  simp [execPick, h]

/-! Memory's form through Machine/FloatOps.lean. -/

@[simp] theorem nextOk_execFadd (m : Rm) (d a b : Reg) (s : State) (h : MemOk s) : NextOk (execFadd m d a b s) := by
  simp [execFadd, h]

@[simp] theorem nextOk_execFsub (m : Rm) (d a b : Reg) (s : State) (h : MemOk s) : NextOk (execFsub m d a b s) := by
  simp [execFsub, h]

@[simp] theorem nextOk_execFmul (m : Rm) (d a b : Reg) (s : State) (h : MemOk s) : NextOk (execFmul m d a b s) := by
  simp [execFmul, h]

@[simp] theorem nextOk_execFmin (m : NanMode) (d a b : Reg) (s : State) (h : MemOk s) : NextOk (execFmin m d a b s) := by
  simp [execFmin, h]

@[simp] theorem nextOk_execFmax (m : NanMode) (d a b : Reg) (s : State) (h : MemOk s) : NextOk (execFmax m d a b s) := by
  simp [execFmax, h]

@[simp] theorem nextOk_execFdiv (m : Rm) (d a b : Reg) (s : State) (h : MemOk s) : NextOk (execFdiv m d a b s) := by
  simp [execFdiv, h]

@[simp] theorem nextOk_execFabs (d a : Reg) (s : State) (h : MemOk s) : NextOk (execFabs d a s) := by
  simp [execFabs, h]

@[simp] theorem nextOk_execFneg (d a : Reg) (s : State) (h : MemOk s) : NextOk (execFneg d a s) := by
  simp [execFneg, h]

@[simp] theorem nextOk_execFsat (d a : Reg) (s : State) (h : MemOk s) : NextOk (execFsat d a s) := by
  simp [execFsat, h]

@[simp] theorem nextOk_execFfrac (d a : Reg) (s : State) (h : MemOk s) : NextOk (execFfrac d a s) := by
  simp [execFfrac, h]

@[simp] theorem nextOk_execFround (m : FRoundMode) (d a : Reg) (s : State) (h : MemOk s) : NextOk (execFround m d a s) := by
  simp [execFround, h]

@[simp] theorem nextOk_execFcopys (d a b : Reg) (s : State) (h : MemOk s) : NextOk (execFcopys d a b s) := by
  simp [execFcopys, h]

@[simp] theorem nextOk_execFldx (m : Rm) (d a b : Reg) (s : State) (h : MemOk s) : NextOk (execFldx m d a b s) := by
  simp [execFldx, h]

@[simp] theorem nextOk_execFkind (d a : Reg) (s : State) (h : MemOk s) : NextOk (execFkind d a s) := by
  simp [execFkind, h]

@[simp] theorem nextOk_rndBin (d a b : Reg) (f : Rm → Bool → Word → Word → Word) (s : State) (h : MemOk s) : NextOk (rndBin d a b f s) := by
  simp [rndBin, h]

@[simp] theorem nextOk_execPadd (m : Pk) (d a b : Reg) (s : State) (h : MemOk s) : NextOk (execPadd m d a b s) := by
  simp [execPadd, h]

@[simp] theorem nextOk_execPmul (m : Pk) (d a b : Reg) (s : State) (h : MemOk s) : NextOk (execPmul m d a b s) := by
  simp [execPmul, h]

@[simp] theorem nextOk_execPmin (m : Pk) (d a b : Reg) (s : State) (h : MemOk s) : NextOk (execPmin m d a b s) := by
  simp [execPmin, h]

@[simp] theorem nextOk_execPmax (m : Pk) (d a b : Reg) (s : State) (h : MemOk s) : NextOk (execPmax m d a b s) := by
  simp [execPmax, h]

@[simp] theorem nextOk_execFdp2 (m : Pk) (d a b : Reg) (s : State) (h : MemOk s) : NextOk (execFdp2 m d a b s) := by
  simp [execFdp2, h]

@[simp] theorem nextOk_execFmac (d a b c : Reg) (s : State) (h : MemOk s) : NextOk (execFmac d a b c s) := by
  simp [execFmac, h]

@[simp] theorem nextOk_execPmac (d a b c : Reg) (s : State) (h : MemOk s) : NextOk (execPmac d a b c s) := by
  simp [execPmac, h]

@[simp] theorem nextOk_execFcmp (c : FCond) (pd pc : PredIx) (a b : Reg) (s : State) (h : MemOk s) : NextOk (execFcmp c pd pc a b s) := by
  simp [execFcmp, h]

/-! Memory's form through Machine/Convert.lean. -/

@[simp] theorem nextOk_execFcvi (m : FcviMode) (d a : Reg) (s : State) (h : MemOk s) : NextOk (execFcvi m d a s) := by
  simp [execFcvi, h]

@[simp] theorem nextOk_execIcvf (m : Sgn) (d a : Reg) (s : State) (h : MemOk s) : NextOk (execIcvf m d a s) := by
  simp [execIcvf, h]

@[simp] theorem nextOk_execPack16 (m : Pack16Mode) (d a b : Reg) (s : State) (h : MemOk s) : NextOk (execPack16 m d a b s) := by
  simp [execPack16, h]

@[simp] theorem nextOk_execUnpk16 (m : Unpk16Mode) (d a : Reg) (s : State) (h : MemOk s) : NextOk (execUnpk16 m d a s) := by
  simp [execUnpk16, h]

@[simp] theorem nextOk_execCvtn (k : BitVec 3) (d a b : Reg) (s : State) (h : MemOk s) : NextOk (execCvtn k d a b s) := by
  simp [execCvtn, h]

@[simp] theorem nextOk_execCvtw (k : BitVec 3) (d a b : Reg) (s : State) (h : MemOk s) : NextOk (execCvtw k d a b s) := by
  simp [execCvtw, h]

@[simp] theorem nextOk_execUnpk3 (z : Bool) (m : BitVec 2) (d a : Reg) (s : State) (h : MemOk s) : NextOk (execUnpk3 z m d a s) := by
  simp [execUnpk3, h]

@[simp] theorem nextOk_execCbdec (k : BitVec 3) (d a : Reg) (s : State) (h : MemOk s) : NextOk (execCbdec k d a s) := by
  simp [execCbdec, h]

@[simp] theorem nextOk_execIcvi (m : IcviMode) (d a : Reg) (s : State) (h : MemOk s) : NextOk (execIcvi m d a s) := by
  simp [execIcvi, h]

@[simp] theorem nextOk_execBsel (d a b : Reg) (s : State) (h : MemOk s) : NextOk (execBsel d a b s) := by
  simp [execBsel, h]

@[simp] theorem nextOk_execDotb4 (sat ua ub : Bool) (d a b : Reg) (s : State) (h : MemOk s) : NextOk (execDotb4 sat ua ub d a b s) := by
  simp [execDotb4, h]

@[simp] theorem nextOk_execIsgna (d a b : Reg) (s : State) (h : MemOk s) : NextOk (execIsgna d a b s) := by
  simp [execIsgna, h]

/-! Memory's form through Machine/Special.lean. -/

@[simp] theorem nextOk_special (d a : Reg) (f : Word → Nat) (s : State) (h : MemOk s) : NextOk (special d a f s) := by
  simp [special, h]

@[simp] theorem nextOk_execRecip (d a : Reg) (s : State) (h : MemOk s) : NextOk (execRecip d a s) := by
  simp [execRecip, h]

@[simp] theorem nextOk_execRroot (d a : Reg) (s : State) (h : MemOk s) : NextOk (execRroot d a s) := by
  simp [execRroot, h]

@[simp] theorem nextOk_execSqrt (d a : Reg) (s : State) (h : MemOk s) : NextOk (execSqrt d a s) := by
  simp [execSqrt, h]

@[simp] theorem nextOk_execExp2 (d a : Reg) (s : State) (h : MemOk s) : NextOk (execExp2 d a s) := by
  simp [execExp2, h]

@[simp] theorem nextOk_execLog2 (d a : Reg) (s : State) (h : MemOk s) : NextOk (execLog2 d a s) := by
  simp [execLog2, h]

@[simp] theorem nextOk_execTanh (d a : Reg) (s : State) (h : MemOk s) : NextOk (execTanh d a s) := by
  simp [execTanh, h]

@[simp] theorem nextOk_execSint (d a : Reg) (s : State) (h : MemOk s) : NextOk (execSint d a s) := by
  simp [execSint, h]

@[simp] theorem nextOk_execCost (d a : Reg) (s : State) (h : MemOk s) : NextOk (execCost d a s) := by
  simp [execCost, h]

/-! Memory's form through Machine/Splat.lean. -/

@[simp] theorem nextOk_execSpalpha (d a b : Reg) (s : State) (h : MemOk s) : NextOk (execSpalpha d a b s) := by
  simp [execSpalpha, h]

@[simp] theorem nextOk_execSpblend (d a b : Reg) (s : State) (h : MemOk s) : NextOk (execSpblend d a b s) := by
  simp [execSpblend, h]

@[simp] theorem nextOk_execKeypk (d a b : Reg) (s : State) (h : MemOk s) : NextOk (execKeypk d a b s) := by
  simp [execKeypk, h]

@[simp] theorem nextOk_execTriedge (d a b : Reg) (s : State) (h : MemOk s) : NextOk (execTriedge d a b s) := by
  simp [execTriedge, h]

/-! Memory's form through Machine/Join.lean. -/

@[simp] theorem memOk_joinWrite (i : Instr) (ps : List Part) (d : Reg) (f : Part → List Word) (s : State) (e : Nat × Thread) : MemOk (joinWrite i ps d f s e) = MemOk s := by
  unfold joinWrite
  split <;> simp

@[simp] theorem memOk_startEngine (s : State) (core e : Nat) : MemOk (startEngine s core e) = MemOk s := by
  unfold startEngine
  split <;> simp

@[simp] theorem memOk_pendD (id d : Nat) (s : State) (e : Nat × Thread) : MemOk (pendD id d s e) = MemOk s := by
  simp [pendD]

@[simp] theorem memOk_joinMatrix (s : State) (l : List (Nat × Thread)) (p : BitVec 3 × Reg × Reg × Reg × Bool × Bool) : MemOk (joinMatrix s l p) = MemOk s := by
  unfold joinMatrix
  split <;> simp

@[simp] theorem memOk_runJoined (s : State) (l : List (Nat × Thread)) (i : Instr) (w : Nat) : MemOk (runJoined s l i w) = MemOk s := by
  unfold runJoined
  dsimp only
  repeat' split
  all_goals simp

@[simp] theorem memOk_checkQuads (s : State) (l : List (Nat × Thread)) (w : Nat) : MemOk (checkQuads s l w) = MemOk s := by
  refine memOk_foldl_keeps (fun s q => ?_) _ s
  dsimp only
  split <;> simp

@[simp] theorem memOk_checkGroup (s : State) (team group : Nat) : MemOk (checkGroup s team group) = MemOk s := by
  unfold checkGroup
  dsimp only
  repeat' split
  all_goals simp

@[simp] theorem memOk_checkJoins (s : State) (k : Nat) : MemOk (checkJoins s k) = MemOk s := by
  unfold checkJoins
  split <;> simp

@[simp] theorem nextOk_collective (w : WordSpec) (i : Instr) (s : State) (h : MemOk s) : NextOk (collective w i s) :=
  nextOk_issueThen w (fun _ _ _ _ h => by simp [h]) (fun _ _ h => by simp [h]) h

/-! Memory's form through Machine/Waits.lean. -/

@[simp] theorem memOk_releaseBar (s : State) (m : BarScope) (p : Nat) (set : List (Nat × Thread)) : MemOk (releaseBar s m p set) = MemOk s := by
  simp [releaseBar]

@[simp] theorem memOk_checkTeamBar (s : State) (team : Nat) : MemOk (checkTeamBar s team) = MemOk s := by
  unfold checkTeamBar
  split <;> simp

@[simp] theorem memOk_checkClusterBar (s : State) (k : Nat) : MemOk (checkClusterBar s k) = MemOk s := by
  unfold checkClusterBar
  split <;> simp

@[simp] theorem memOk_checkBars (s : State) (team : Nat) : MemOk (checkBars s team) = MemOk s := by
  unfold checkBars
  dsimp only
  split <;> simp

@[simp] theorem memOk_checkWait (s : State) (k : Nat) : MemOk (checkWait s k) = MemOk s := by
  unfold checkWait
  repeat' split
  all_goals simp

@[simp] theorem memOk_closeOwn (s : State) (t : Thread) : MemOk (closeOwn s t) = MemOk s := by
  unfold closeOwn
  repeat' split
  all_goals simp

@[simp] theorem memOk_dropTileWaiters (s : State) (team : Nat) (p : Nat → Bool) : MemOk (dropTileWaiters s team p) = MemOk s := by
  simp [dropTileWaiters]

@[simp] theorem memOk_exitTiles (s : State) (team : Nat) : MemOk (exitTiles s team) = MemOk s := by
  simp [exitTiles]

@[simp] theorem memOk_exitThread (s : State) (k : Nat) : MemOk (exitThread s k) = MemOk s := by
  unfold exitThread
  split <;> simp

@[simp] theorem memOk_finishStop (s : State) (k : Nat) (fpc : Word) : MemOk (finishStop s k fpc) = MemOk s := by
  unfold finishStop
  repeat' split
  all_goals simp

@[simp] theorem memOk_checkStop (s : State) (k : Nat) : MemOk (checkStop s k) = MemOk s := by
  unfold checkStop
  split <;> simp

@[simp] theorem memOk_checkDrained (s : State) (k : Nat) : MemOk (checkDrained s k) = MemOk s := by
  unfold checkDrained
  split <;> simp

@[simp] theorem memOk_recheck (s : State) (k : Nat) : MemOk (recheck s k) = MemOk s := by
  simp [recheck]

@[simp] theorem memOk_tileOps (s : State) (team k : Nat) (b : Bool) : MemOk (tileOps s team k b) = MemOk s := by
  refine memOk_foldl_keeps (fun s e => ?_) _ s
  dsimp only
  split
  · rfl
  · simp

@[simp] theorem memOk_tileEmpty (s : State) (team k : Nat) : MemOk (tileEmpty s team k) = MemOk s := by
  simp [tileEmpty]

@[simp] theorem memOk_tileFault (s : State) (team k code va : Nat) : MemOk (tileFault s team k code va) = MemOk s := by
  unfold tileFault
  split
  · rfl
  · refine (memOk_foldl_keeps (fun s j => ?_) _ _).trans ?_
    · split <;> simp
    · split <;> simp

/-! Memory's form through Machine/Packet.lean. -/

@[simp] theorem memOk_chainDone (s : State) (k id c v : Nat) : MemOk (chainDone s k id c v) = MemOk s := by
  simp [chainDone]

@[simp] theorem memOk_chainPoison (s : State) (k id c va : Nat) : MemOk (chainPoison s k id c va) = MemOk s := by
  simp [chainPoison]

/-! Memory's form through Machine/Fabric.lean. -/

@[simp] theorem memOk_freezeEvent (s : State) (srcKind srcId master num asid reason detail : Nat) : MemOk (freezeEvent s srcKind srcId master num asid reason detail) = MemOk s := by
  simp [freezeEvent]

@[simp] theorem memOk_freezeCard (s : State) (card reason : Nat) : MemOk (freezeCard s card reason) = MemOk s := by
  unfold freezeCard
  split <;> simp

@[simp] theorem memOk_sendBy (s : State) (port : Option Nat) (f : Frame) : MemOk (sendBy s port f) = MemOk s := by
  unfold sendBy
  split <;> simp

@[simp] theorem memOk_sendFrame (s : State) (f : Frame) : MemOk (sendFrame s f) = MemOk s := by
  simp [sendFrame]

@[simp] theorem memOk_setPeer (s : State) (p : Nat) (x : Peer) : MemOk (setPeer s p x) = MemOk s := by
  simp [setPeer]

@[simp] theorem memOk_startRequest (s : State) (tag : Nat) (r : Request) : MemOk (startRequest s tag r) = MemOk s := by
  simp [startRequest]

@[simp] theorem memOk_sendRequest (s : State) (f : Frame) (owner : Owner) (parts : List (Nat × Nat × Nat)) (slot : Option Nat) : MemOk (sendRequest s f owner parts slot) = MemOk s := by
  unfold sendRequest
  split <;> simp

@[simp] theorem memOk_dropRequest (s : State) (tag : Nat) : MemOk (dropRequest s tag) = MemOk s := by
  unfold dropRequest
  dsimp only
  split <;> simp

@[simp] theorem memOk_sendOps (n : Nat) (s : State) (l : List (Nat × Op)) : MemOk (sendOps n s l) = MemOk s := by
  induction n generalizing s l with
  | zero => rfl
  | succ n ih =>
    rcases l with _ | ⟨⟨k, o⟩, rest⟩
    · rfl
    · refine (ih _ _).trans ((memOk_foldl_keeps (fun s e => by simp) _ _).trans ?_)
      split <;> simp

@[simp] theorem memOk_readSpanAt (s : State) (p pa n : Nat) (h : MemOk s) : MemOk (readSpanAt s p pa n).2 := by
  refine memOk_foldl_snd (fun r x h => ?_) h
  exact memOk_loadAt _ _ _ _ h

@[simp] theorem memOk_writeSpanAt (s : State) (p pa : Nat) (bs : List Byte) (c : Bool) (h : MemOk s) : MemOk (writeSpanAt s p pa bs c).2 := by
  refine memOk_foldl_snd (fun r x h => ?_) h
  exact memOk_writeAt _ _ _ _ _ h

theorem filter_wf {m : Mem} (h : Memory.wf m = true) (p : Host.Cell → Bool) : Memory.wf (m.filter p) = true := by
  simp only [Memory.wf, Bool.and_eq_true, decide_eq_true_eq, List.all_eq_true] at h ⊢
  exact ⟨h.1.filter p, fun c hc => h.2 c (List.mem_of_mem_filter hc)⟩

@[simp] theorem memOk_zeroFrame (s : State) (pa n : Nat) (h : MemOk s) : MemOk (zeroFrame s pa n) := filter_wf h _

@[simp] theorem memOk_zeroFill (s : State) (asid va : Nat) (l : Leaf) (h : MemOk s) : MemOk (zeroFill s asid va l) := by
  unfold zeroFill
  simp only [memOk_rewalk, memOk_dropPage, memOk_mk, setMem_mem]
  exact mwrite_wf _ (memOk_zeroFrame _ _ _ h) _

@[simp] theorem memOk_noteBad (s : State) (asid va : Nat) : MemOk (noteBad s asid va) = MemOk s := by
  unfold noteBad
  split <;> simp

theorem memOk_agentPa {s u : State} {x : Via} {a : Acc} {asid va : Nat} {l : Leaf} (e : agentPa s x a asid va = .ok (l, u)) (h : MemOk s) : MemOk u := by
  unfold agentPa at e
  split at e
  · dsimp only at e
    split at e <;> · cases e; simp [h]
  · cases e

@[simp] theorem memOk_sendAnswer (s : State) (f : Frame) : MemOk (sendAnswer s f) = MemOk s := by
  simp [sendAnswer]

@[simp] theorem memOk_respond (s : State) (f : Frame) : MemOk (respond s f) = MemOk s := by
  simp [respond]

@[simp] theorem memOk_strike (s : State) (port pkg : Nat) : MemOk (strike s port pkg) = MemOk s := by
  simp [strike]

@[simp] theorem memOk_sendRefused (s : State) (port : Nat) (f : Frame) : MemOk (sendRefused s port f) = MemOk s := by
  simp [sendRefused]

@[simp] theorem memOk_refuse (s : State) (port : Nat) (f : Frame) : MemOk (refuse s port f) = MemOk s := by
  simp [refuse]

@[simp] theorem memOk_discard (s : State) (port : Nat) (f : Frame) : MemOk (discard s port f) = MemOk s := by
  simp [discard]

theorem memOk_takeRequest (port : Nat) (f : Frame) (op : Nat) {act : State → State} (ha : ∀ s, MemOk s → MemOk (act s)) {s : State} (w : Bool) (h : MemOk s) :
    MemOk (takeRequest port f op act s w) := by
  unfold takeRequest
  dsimp only
  repeat' split
  all_goals simp [h, ha]

theorem memOk_homePages {f : Frame} {a : Acc} {l : List (Nat × Nat)} {s u : State} {ps : List (Leaf × Nat × Nat)} (e : homePages f a s l = .ok (ps, u)) (h : MemOk s) :
    MemOk u := by
  induction l generalizing s ps with
  | nil => cases e; exact h
  | cons x l ih =>
    obtain ⟨va, m⟩ := x
    unfold homePages at e
    split at e
    · cases e
    · split at e
      · cases e
      · rename_i hp
        split at e
        · cases e
        · split at e
          · cases e
          · rename_i hr
            cases e
            exact ih hr (memOk_agentPa hp h)

theorem memOk_atHomes (port : Nat) (f : Frame) (a : Acc) (n : Nat) {act : State → List (Leaf × Nat × Nat) → State} (ha : ∀ s ps, MemOk s → MemOk (act s ps))
    {s : State} (h : MemOk s) : MemOk (atHomes port f a n act s) := by
  unfold atHomes
  split
  · simp [h]
  · rename_i hp
    exact ha _ _ (memOk_homePages hp h)

theorem memOk_atHome (port : Nat) (f : Frame) (a : Acc) (n : Nat) {act : State → Leaf → Nat → State} (ha : ∀ s l pa, MemOk s → MemOk (act s l pa))
    {s : State} (h : MemOk s) : MemOk (atHome port f a n act s) := by
  unfold atHome
  split
  · simp [h]
  · refine memOk_atHomes _ _ _ _ (fun s ps h => ?_) h
    split
    · exact ha _ _ _ h
    · exact h

@[simp] theorem memOk_dataAnswer (s : State) (f : Frame) (ts : Nat) (bs : List Byte) (poison : Bool) (ack : Nat) : MemOk (dataAnswer s f ts bs poison ack) = MemOk s := by
  simp [dataAnswer]

@[simp] theorem memOk_readPages (s : State) (p : Nat) (ps : List (Leaf × Nat × Nat)) (h : MemOk s) : MemOk (readPages s p ps).2 := by
  refine memOk_foldl_snd (fun r x h => ?_) h
  dsimp only
  split
  · exact memOk_foldl_snd (fun r y h => by simp [h]) h
  · simp [h]

@[simp] theorem nextOk_execKolozRead (port : Nat) (f : Frame) (s : State) (h : MemOk s) : NextOk (execKolozRead port f s) := by
  simp only [execKolozRead, nextOk_next]
  exact memOk_takeRequest _ _ _ (fun s h => memOk_atHomes _ _ _ _ (fun s ps h => by simp [h]) h) _ h

@[simp] theorem memOk_ackBoth (s : State) (f : Frame) (ts : Nat) : MemOk (ackBoth s f ts) = MemOk s := by
  simp [ackBoth]

@[simp] theorem nextOk_execKolozWrite (port : Nat) (f : Frame) (s : State) (h : MemOk s) : NextOk (execKolozWrite port f s) := by
  simp only [execKolozWrite, nextOk_next]
  refine memOk_takeRequest _ _ _ (fun s h => memOk_atHomes _ _ _ _ (fun s ps h => ?_) h) _ h
  simp only [memOk_ackBoth, memOk_ite_eq, memOk_flushHost, ite_self]
  refine memOk_foldl_of (g := fun r : Nat × List Byte × State => r.2.2) (fun r x h => ?_) h
  exact memOk_writeSpanAt _ _ _ _ _ h

@[simp] theorem nextOk_execKolozAtomic (port : Nat) (f : Frame) (s : State) (h : MemOk s) : NextOk (execKolozAtomic port f s) := by
  simp only [execKolozAtomic, nextOk_next]
  refine memOk_takeRequest _ _ _ (fun s h => ?_) _ h
  split
  · exact h
  · exact memOk_atHome _ _ _ _ (fun s l pa h => by simp [h]) h

@[simp] theorem nextOk_execKolozRadd (port : Nat) (f : Frame) (s : State) (h : MemOk s) : NextOk (execKolozRadd port f s) := by
  simp only [execKolozRadd, nextOk_next]
  refine memOk_takeRequest _ _ _ (fun s h => ?_) _ h
  split
  · exact h
  · refine memOk_atHome _ _ _ _ (fun s l pa h => ?_) h
    by_cases hp : isHost pa = true
    · simp only [hp, if_true]; split <;> simp [h]
    · simp only [hp]; split <;> simp [h]

@[simp] theorem nextOk_execKolozRflush (port : Nat) (f : Frame) (s : State) (h : MemOk s) : NextOk (execKolozRflush port f s) := by
  simp only [execKolozRflush, nextOk_next]
  exact memOk_takeRequest _ _ _ (fun s h => by simp [h]) _ h

@[simp] theorem memOk_faultOp (s : State) (k : Nat) (o : Op) (code addr : Nat) : MemOk (faultOp s k o code addr) = MemOk s := by
  unfold faultOp
  split <;> simp

@[simp] theorem nextOk_execFrameFcsReplay (port : Nat) (s : State) (h : MemOk s) : NextOk (execFrameFcsReplay port s) := by
  simp [execFrameFcsReplay, h]

@[simp] theorem nextOk_execFrameDiscard (port : Nat) (a : Arrival) (s : State) (h : MemOk s) : NextOk (execFrameDiscard port a s) := by
  simp [execFrameDiscard, h]

@[simp] theorem nextOk_execKolozMgmt (port : Nat) (f : Frame) (s : State) (h : MemOk s) : NextOk (execKolozMgmt port f s) := by
  simp [execKolozMgmt, h]

@[simp] theorem nextOk_execKolozColl (port : Nat) (f : Frame) (s : State) (h : MemOk s) : NextOk (execKolozColl port f s) := by
  simp only [execKolozColl, nextOk_next]
  exact memOk_takeRequest _ _ _ (fun s h => by simp [h]) _ h

/-! Memory's form through Machine/Home.lean. -/

@[simp] theorem memOk_plainRead (s : State) (r : Reader) (va n : Nat) (h : MemOk s) : MemOk (plainRead s r va n).2.2 := by
  unfold plainRead
  dsimp only
  repeat' split
  all_goals simp [h]

/-- Every read that a function makes keeps memory's form. -/
def ReadOk (f : ReadFn) : Prop := ∀ s r va n, MemOk s → MemOk (f s r va n).2.2

theorem memOk_readElem {f : ReadFn} (hf : ReadOk f) (s : State) (r : Reader) (w : Window) (i : Nat) (h : MemOk s) : MemOk (readElem f s r w i).2.2 := by
  have h1 := hf s r (w.idx + 4 * i) 4 h
  unfold readElem
  split
  · rename_i e
    rw [e] at h1
    repeat' split
    · exact h1
    · exact h1
    · exact hf _ _ _ _ h1
  · exact h1

theorem memOk_readElems {f : ReadFn} (hf : ReadOk f) (w : Window) (k i : Nat) (s : State) (r : Reader) (h : MemOk s) : MemOk (readElems f w k i s r).2.2 := by
  induction k generalizing i s r with
  | zero => exact h
  | succ k ih => exact ih _ _ _ (memOk_readElem hf _ _ _ _ h)

theorem memOk_windowRead {f : ReadFn} (hf : ReadOk f) (s : State) (r : Reader) (w : Window) (va n : Nat) (h : MemOk s) : MemOk (windowRead f s r w va n).2.2 :=
  memOk_readElems hf _ _ _ _ _ h

theorem readOk_readThrough (n : Nat) : ReadOk (readThrough n) := by
  induction n with
  | zero => exact fun s r va n h => memOk_plainRead s r va n h
  | succ k ih =>
    intro s r va n h
    unfold readThrough
    split
    · exact memOk_windowRead ih _ _ _ _ _ h
    · exact memOk_plainRead s r va n h

@[simp] theorem memOk_agentRead (s : State) (r : Reader) (va n : Nat) (h : MemOk s) : MemOk (agentRead s r va n).2.2 := by
  unfold agentRead
  split
  · exact memOk_windowRead (readOk_readThrough _) _ _ _ _ _ h
  · exact memOk_plainRead s r va n h

/-- Memory's form in what a write of an agent leaves. -/
@[simp] def WrOk : Wr → Prop
  | .ok _ s | .denied s | .poison s => MemOk s
  | _ => True

theorem wrOk_agentWrite (s : State) (u : Via) (p asid va : Nat) (bs : List Byte) (c : Bool) (h : MemOk s) : WrOk (agentWrite s u p asid va bs c) := by
  unfold agentWrite
  split
  · exact h
  · split
    · trivial
    · split
      · trivial
      · simp [WrOk, h]
      · simp [WrOk, h]
      · rename_i e
        split
        · trivial
        · exact memOk_writeAt _ _ _ _ _ (memOk_agentPa e h)

@[simp] theorem memOk_addRecord (s : State) (die : Nat) (r : FaultRec) : MemOk (addRecord s die r) = MemOk s := by
  simp [addRecord]

@[simp] theorem memOk_agentMiss (s : State) (die asid va acc : Nat) (src : Nat × Nat) (w : Waiter) : MemOk (agentMiss s die asid va acc src w) = MemOk s := by
  unfold agentMiss
  repeat' split
  all_goals simp

@[simp] theorem memOk_askRead (s : State) (o : Owner) (ra pkg asid va n p tag : Nat) : MemOk (askRead s o ra pkg asid va n p tag) = MemOk s := by
  simp [askRead]

@[simp] theorem memOk_pursue (s : State) (r : Reader) (acc : Nat) (src : Nat × Nat) (o : Owner) (w : Nat → Waiter) (tag : Nat) :
    MemOk (pursue s r acc src o w tag) = MemOk s := by
  refine memOk_foldl_keeps (fun s x => ?_) _ s
  split <;> simp

@[simp] theorem memOk_setOp (s : State) (k id : Nat) (f : Op → Op) : MemOk (setOp s k id f) = MemOk s := by
  simp [setOp]

@[simp] theorem memOk_windowExcluded (s : State) (k : Nat) (o : Op) : MemOk (windowExcluded s k o) = MemOk s := by
  simp [windowExcluded]

@[simp] theorem memOk_performWindow (s : State) (e : Nat × Op) (h : MemOk s) : MemOk (performWindow s e) := by
  unfold performWindow
  split
  · dsimp only
    split
    · simp [h]
    · split <;> simp [h]
  · exact h

@[simp] theorem memOk_acceptDone (s : State) (e : Nat × Op) : MemOk (acceptDone s e) = MemOk s := by
  simp [acceptDone]

@[simp] theorem nextOk_execHomeAccess (wid line : Nat) (viaL1 : Bool) (s : State) (h : MemOk s) : NextOk (execHomeAccess wid line viaL1 s) := by
  unfold execHomeAccess
  dsimp only
  split
  · simp [h]
  · split
    · simp [h]
    · split
      · simpa using memOk_foldl (f := performHere viaL1) h fun s e h => by simp [h]
      · simp [h]
      · simpa using memOk_foldl (f := performWindow) h fun s e h => by simp [h]
      · simp [h]

@[simp] theorem memOk_arriveRadd (s : State) (e : Nat × Op) (h : MemOk s) : MemOk (arriveRadd s e) := by
  unfold arriveRadd
  split <;> simp [h]

@[simp] theorem nextOk_execRaddArrival (wid line : Nat) (s : State) (h : MemOk s) : NextOk (execRaddArrival wid line s) := by
  unfold execRaddArrival
  dsimp only
  split
  · simpa using memOk_foldl (f := arriveRadd) h fun s e h => by simp [h]
  · simp [h]

@[simp] theorem memOk_splitParts (a : Ack) (s : State) (v : Nat) (l : List (Nat × Nat × Nat)) : MemOk (splitParts a s v l) = MemOk s := by
  induction l generalizing s v with
  | nil => rfl
  | cons x l ih =>
    obtain ⟨k, id, y⟩ := x
    unfold splitParts
    dsimp only
    split <;> simp [ih]

@[simp] theorem memOk_performHost (s : State) (e : Nat × Op) (h : MemOk s) : MemOk (performHost s e) := by
  unfold performHost
  dsimp only
  repeat' split
  all_goals simp [h]

@[simp] theorem memOk_performHostLanes (n : Nat) (s : State) (l : List (Nat × Op)) (h : MemOk s) : MemOk (performHostLanes n s l) := by
  induction n generalizing s l with
  | zero => exact h
  | succ n ih =>
    rcases l with _ | ⟨⟨k, o⟩, rest⟩
    · exact h
    · refine ih _ _ ?_
      split <;> simp [h]

@[simp] theorem memOk_hostStores (s : State) (l : List (Nat × Byte)) (h : MemOk s) : MemOk (hostStores s l) :=
  memOk_foldl h fun _ _ h => memOk_ite (mset_wf h _ _) h

@[simp] theorem nextOk_execHostPathResponse (wid line : Nat) (l : List (Nat × Byte)) (s : State) (h : MemOk s) : NextOk (execHostPathResponse wid line l s) := by
  unfold execHostPathResponse
  dsimp only
  split <;> simp [h]

@[simp] theorem nextOk_execLoadReturn (thr op : Nat) (s : State) (h : MemOk s) : NextOk (execLoadReturn thr op s) := by
  unfold execLoadReturn
  repeat' split
  all_goals simp [h]

/-! Memory's form through Machine/Stash.lean. -/

@[simp] theorem memOk_foldHidden (s : State) (core : Nat) : MemOk (foldHidden s core) = MemOk s := by
  unfold foldHidden
  dsimp only
  repeat' split
  all_goals simp

@[simp] theorem memOk_setHidden (s : State) (team w h : Nat) : MemOk (setHidden s team w h) = MemOk s := by
  simp [setHidden]

@[simp] theorem memOk_phaseChanged (p : Nat) (s : State) (team w : Nat) : MemOk (phaseChanged p s team w) = MemOk s := by
  simp [phaseChanged]

@[simp] theorem memOk_stashWrite (s : State) (team o : Nat) (bs : List Byte) (p : Nat) : MemOk (stashWrite s team o bs p) = MemOk s := by
  simp [stashWrite]

@[simp] theorem nextOk_ldsWord (r : Nat) (pg : PredIx) (d a : Reg) (imm : BitVec 7) (s : State) (h : MemOk s) : NextOk (ldsWord r pg d a imm s) := by
  unfold ldsWord
  refine nextOk_issueWord _ (fun c s k t h => ?_) h
  dsimp only
  repeat' split
  all_goals simp [h]

@[simp] theorem nextOk_stsWord (r : Nat) (pg : PredIx) (d a : Reg) (imm : BitVec 7) (s : State) (h : MemOk s) : NextOk (stsWord r pg d a imm s) := by
  unfold stsWord
  refine nextOk_issueWord _ (fun c s k t h => ?_) h
  dsimp only
  repeat' split
  all_goals simp [h]

@[simp] theorem nextOk_execLds32 (pg : PredIx) (d a : Reg) (imm : BitVec 7) (s : State) (h : MemOk s) : NextOk (execLds32 pg d a imm s) := by
  simp [execLds32, h]

@[simp] theorem nextOk_execSts32 (pg : PredIx) (d a : Reg) (imm : BitVec 7) (s : State) (h : MemOk s) : NextOk (execSts32 pg d a imm s) := by
  simp [execSts32, h]

@[simp] theorem nextOk_execLds128 (pg : PredIx) (d a : Reg) (imm : BitVec 7) (s : State) (h : MemOk s) : NextOk (execLds128 pg d a imm s) := by
  simp [execLds128, h]

@[simp] theorem nextOk_execSts128 (pg : PredIx) (d a : Reg) (imm : BitVec 7) (s : State) (h : MemOk s) : NextOk (execSts128 pg d a imm s) := by
  simp [execSts128, h]

@[simp] theorem memOk_arrive (s : State) (team o p : Nat) : MemOk (arrive s team o p) = MemOk s := by
  simp [arrive]

@[simp] theorem laneOk_barwWaitAt (c : Ctx) (s : State) (k o token : Nat) (i : Instr) (h : MemOk s) : LaneOk (barwWaitAt c s k o token i) := by
  unfold barwWaitAt
  dsimp only
  repeat' split
  all_goals simp [h]

@[simp] theorem memOk_checkBarw (s : State) (k : Nat) : MemOk (checkBarw s k) = MemOk s := by
  unfold checkBarw
  repeat' split
  all_goals simp

@[simp] theorem nextOk_execBarwArrive (d a : Reg) (s : State) (h : MemOk s) : NextOk (execBarwArrive d a s) := by
  unfold execBarwArrive
  refine nextOk_issueWord _ (fun c s k t h => ?_) h
  split <;> simp [h]

@[simp] theorem nextOk_execBarwWait (a b : Reg) (s : State) (h : MemOk s) : NextOk (execBarwWait a b s) := by
  unfold execBarwWait
  refine nextOk_issueWord _ (fun c s k t h => ?_) h
  split <;> simp [h]

@[simp] theorem nextOk_execBarwArriveWait (d a : Reg) (s : State) (h : MemOk s) : NextOk (execBarwArriveWait d a s) := by
  unfold execBarwArriveWait
  refine nextOk_issueWord _ (fun c s k t h => ?_) h
  split <;> simp [h]

@[simp] theorem nextOk_execBarwInit (a b : Reg) (s : State) (h : MemOk s) : NextOk (execBarwInit a b s) := by
  unfold execBarwInit
  refine nextOk_issueWord _ (fun c s k t h => ?_) h
  split <;> simp [h]

@[simp] theorem nextOk_peerWord (w : WordSpec) (cnt : Cnt) (dest : List Nat) (a : Reg) (writes : Bool) (kind : Thread → Nat → Nat → OpKind) (s : State) (h : MemOk s) :
    NextOk (peerWord w cnt dest a writes kind s) := by
  refine nextOk_issueGo _ (fun c ks s h => memOk_laneLoop (memOk_laneStep _ _ fun s k t h => ?_) (by simp [h])) h
  split <;> simp [h]

@[simp] theorem nextOk_execCld (d a : Reg) (s : State) (h : MemOk s) : NextOk (execCld d a s) := by
  simp [execCld, h]

@[simp] theorem nextOk_execCst (a b : Reg) (s : State) (h : MemOk s) : NextOk (execCst a b s) := by
  simp [execCst, h]

@[simp] theorem nextOk_execAtoms (m : AtomOp) (d a b : Reg) (s : State) (h : MemOk s) : NextOk (execAtoms m d a b s) := by
  unfold execAtoms
  dsimp only
  split
  · simp [h]
  · refine nextOk_issueWord _ (fun c s k t h => ?_) h
    split <;> simp [h]

@[simp] theorem memOk_performPeer (s : State) (e : Nat × Op) : MemOk (performPeer s e) = MemOk s := by
  unfold performPeer
  dsimp only
  split <;> simp

@[simp] theorem nextOk_execPeerStashAccess (wid : Nat) (s : State) (h : MemOk s) : NextOk (execPeerStashAccess wid s) := by
  unfold execPeerStashAccess
  dsimp only
  split <;> simp [h]

/-! Memory's form through Machine/Chain.lean. -/

@[simp] theorem nextOk_execChld (m : ChldFin) (d a b : Reg) (s : State) (h : MemOk s) : NextOk (execChld m d a b s) := by
  unfold execChld
  refine nextOk_issueWord _ (fun c s k t h => ?_) h
  dsimp only
  repeat' split
  all_goals simp [h]

@[simp] theorem memOk_setChain (s : State) (k id : Nat) (ch : Chain) : MemOk (setChain s k id ch) = MemOk s := by
  simp [setChain]

@[simp] theorem memOk_chainTake (s : State) (k : Nat) (o : Op) (ch : Chain) (va c : Nat) (a : Ack) (fill : Option Nat) : MemOk (chainTake s k o ch va c a fill) = MemOk s := by
  unfold chainTake
  repeat' split
  all_goals simp

@[simp] theorem memOk_chainAddr (s : State) (k : Nat) (o : Op) (ch : Chain) : MemOk (chainAddr s k o ch) = MemOk s := by
  unfold chainAddr
  split <;> simp

@[simp] theorem memOk_chainAccess (s : State) (k : Nat) (t : Thread) (ch : Chain) (l : Leaf) (pa w : Nat) (add : Bool) (h : MemOk s) : MemOk (chainAccess s k t ch l pa w add).2.2 := by
  unfold chainAccess
  dsimp only
  repeat' split
  all_goals simp [h]

@[simp] theorem memOk_noteExcluded (s : State) (k : Nat) (excluded : Bool) : MemOk (noteExcluded s k excluded) = MemOk s := by
  simp [noteExcluded]

@[simp] theorem memOk_chainSend (s : State) (k : Nat) (t : Thread) (o : Op) (ch : Chain) (pkg asid va : Nat) (view excl : Bool) : MemOk (chainSend s k t o ch pkg asid va view excl) = MemOk s := by
  simp [chainSend]

@[simp] theorem memOk_chainGo (s : State) (k : Nat) (t : Thread) (o : Op) (ch : Chain) (l : Leaf) (va w : Nat) (acc : Acc) (h : MemOk s) : MemOk (chainGo s k t o ch l va w acc) := by
  unfold chainGo
  dsimp only
  repeat' split
  all_goals simp [h]

@[simp] theorem nextOk_execChainStep (thr op : Nat) (s : State) (h : MemOk s) : NextOk (execChainStep thr op s) := by
  unfold execChainStep
  dsimp only
  repeat' split
  all_goals simp [h]

@[simp] theorem memOk_packetAnswer (s : State) (f : Frame) (subop stamp : Nat) (bs : List Byte) : MemOk (packetAnswer s f subop stamp bs) = MemOk s := by
  simp [packetAnswer]

@[simp] theorem memOk_giveBack (s : State) (f : Frame) (x : Packet) : MemOk (giveBack s f x) = MemOk s := by
  simp [giveBack]

@[simp] theorem memOk_sendOn (s : State) (f : Frame) (x : Packet) (pkg asid va : Nat) : MemOk (sendOn s f x pkg asid va) = MemOk s := by
  simp [sendOn]

@[simp] theorem memOk_packetAccess (f : Frame) (x : Packet) (w va : Nat) (acc : Acc) (s : State) (l : Leaf) (pa : Nat) (h : MemOk s) : MemOk (packetAccess f x w va acc s l pa) := by
  unfold packetAccess
  dsimp only
  repeat' split
  all_goals simp [h]

@[simp] theorem memOk_visitOn (s : State) (f : Frame) (x : Packet) (h : MemOk s) : MemOk (visitOn s f x) := by
  unfold visitOn
  split
  · split <;> simp [h]
  · split
    · simp [h]
    · split
      · simp [h]
      · rename_i e
        have hu := memOk_agentPa e h
        repeat' split
        all_goals simp [h, hu]

@[simp] theorem memOk_runVisit (s : State) (h : MemOk s) : MemOk (runVisit s) := by
  unfold runVisit
  split
  · exact h
  · split
    · split
      · exact h
      · exact memOk_visitOn _ _ _ (by simpa using h)
    · simpa using h

@[simp] theorem nextOk_execKolozChain (port : Nat) (f : Frame) (s : State) (h : MemOk s) : NextOk (execKolozChain port f s) := by
  simp only [execKolozChain, nextOk_next]
  refine memOk_takeRequest _ _ _ (fun s h => ?_) _ h
  split
  · exact h
  · split
    · simp [h]
    · exact memOk_atHome _ _ _ _ (fun s l pa h => by simp [h]) h

/-! Memory's form through Machine/Sync.lean. -/

@[simp] theorem memOk_tryOpen (s : State) (p : Nat) : MemOk (tryOpen s p).2 = MemOk s := by
  unfold tryOpen
  dsimp only
  split <;> simp

@[simp] theorem nextOk_execTxbegin (s : State) (h : MemOk s) : NextOk (execTxbegin s) := by
  refine nextOk_issueWord _ (fun c s k t h => ?_) h
  have ho : MemOk (tryOpen s t.pts).2 := by simp [h]
  repeat' split
  all_goals simp_all

theorem commitWords_wf (l : List (Nat × List TxMod)) {m : Mem} (h : Memory.wf m = true) : Memory.wf (l.foldl commitWord m) = true := by
  induction l generalizing m with
  | nil => exact h
  | cons e l ih => exact ih (mwrite_wf _ h _)

theorem msets_wf (l : List (Nat × Byte)) {m : Mem} (h : Memory.wf m = true) : Memory.wf (l.foldl (fun m e => mset m e.1 e.2) m) = true := by
  induction l generalizing m with
  | nil => exact h
  | cons e l ih => exact ih (mset_wf h _ _)

@[simp] theorem memOk_commitLine (x : Tx) (C : Nat) (s : State) (ln : Nat) (h : MemOk s) : MemOk (commitLine x C s ln) := by
  simp only [commitLine, memOk_noteStamp, memOk_setLine, memOk_mk, setMem_mem]
  exact commitWords_wf _ (msets_wf _ (by simp [h]))

@[simp] theorem memOk_commit (s : State) (t : Thread) (h : MemOk s) : MemOk (commit s t).1 := by
  unfold commit
  dsimp only
  split
  · exact h
  · exact memOk_foldl h fun s ln h => memOk_commitLine _ _ s ln h

@[simp] theorem nextOk_execTxcommit (pd : PredIx) (s : State) (h : MemOk s) : NextOk (execTxcommit pd s) := by
  refine nextOk_issueWord _ (fun c s k t h => ?_) h
  dsimp only
  split
  · simp [h]
  · split
    · simp [h]
    · have hc (b : Bool) (u : State) (x : Thread) (p : Nat) (hu : MemOk u) : MemOk (if b = true then commit u x else (u, p, false)).1 := by
        split <;> simp [hu]
      split
      · exact hc _ _ _ _ (by simp [h])
      · simp only [laneOk_ok, memOk_setThread, memOk_ite_eq, memOk_closeSnap, ite_self]
        exact hc _ _ _ _ (by simp [h])

@[simp] theorem nextOk_execTxabort (s : State) (h : MemOk s) : NextOk (execTxabort s) := by
  unfold execTxabort
  exact nextOk_issueWord _ (fun c s k t h => by simp [h]) h

@[simp] theorem nextOk_execSnapOpen (s : State) (h : MemOk s) : NextOk (execSnapOpen s) := by
  have own (t : Thread) {s : State} (h : MemOk s) : MemOk (match t.snap with
      | .own S => closeSnap s S
      | _ => s) := by split <;> simp [h]
  have tried (s : State) (p : Nat) (f : Nat → State → State) (g : State → State) (hf : ∀ S u, MemOk u → MemOk (f S u)) (hg : ∀ u, MemOk u → MemOk (g u))
      (h : MemOk s) : LaneOk (match tryOpen s p with
      | (some S, u) => .ok (f S u)
      | (none, u) => .wait (g u)) := by
    have hu : MemOk (tryOpen s p).2 := by simpa using h
    split <;> simp_all
  refine nextOk_issueWord _ (fun c s k t h => ?_) h
  exact tried _ _ (fun S u => setThread u k _) (fun u => setThread u k _) (fun S u h => by simp [h]) (fun u h => by simp [h]) (own _ h)

@[simp] theorem nextOk_execSnapClose (s : State) (h : MemOk s) : NextOk (execSnapClose s) := by
  unfold execSnapClose
  refine nextOk_issueWord _ (fun c s k t h => ?_) h
  dsimp only
  split <;> simp [h]

@[simp] theorem memOk_raiseWalker (s : State) (die p : Nat) : MemOk (raiseWalker s die p) = MemOk s := by
  simp [raiseWalker]

@[simp] theorem memOk_raiseSlot (s : State) (slot p : Nat) : MemOk (raiseSlot s slot p) = MemOk s := by
  simp [raiseSlot]

@[simp] theorem memOk_raiseLauncher (s : State) (g : Grid) (p : Nat) : MemOk (raiseLauncher s g p) = MemOk s := by
  unfold raiseLauncher
  split <;> simp

@[simp] theorem memOk_openGrid (s : State) (g : Nat) : MemOk (openGrid s g) = MemOk s := by
  unfold openGrid
  split <;> simp

@[simp] theorem nextOk_execHorizonEntryFreed (grid : Bool) (waiter : Nat) (s : State) (h : MemOk s) : NextOk (execHorizonEntryFreed grid waiter s) := by
  unfold execHorizonEntryFreed
  dsimp only
  repeat' split
  all_goals simp [h]

@[simp] theorem nextOk_execFence (m : FenceScope) (s : State) (h : MemOk s) : NextOk (execFence m s) := by
  have go (c : Ctx) (ks : List Nat) {s : State} (h : MemOk s) :
      MemOk (laneLoop (laneStep { order := true } c fun s k t => .ok (setThread s k t)) s ks) :=
    memOk_laneLoop (memOk_laneStep _ _ fun s k t h => by simp [h]) h
  refine nextOk_issueGo _ (fun c ks s h => ?_) h
  split
  · exact go c ks h
  · exact memOk_ite h (go c ks (by simp [h]))

@[simp] theorem nextOk_execWait (ld st : BitVec 6) (cp tl : BitVec 4) (s : State) (h : MemOk s) : NextOk (execWait ld st cp tl s) := by
  unfold execWait
  refine nextOk_issueWord _ (fun c s k t h => ?_) h
  repeat' split
  all_goals simp [h]

@[simp] theorem memOk_countBar (s : State) (m : BarScope) (team : Nat) : MemOk (countBar s m team) = MemOk s := by
  unfold countBar
  split <;> simp

@[simp] theorem nextOk_execBar (m : BarScope) (s : State) (h : MemOk s) : NextOk (execBar m s) :=
  nextOk_issueThen _ (fun c s k t h => by simp [h]) (fun s k h => by split <;> simp [h]) h

@[simp] theorem memOk_stopThread (s : State) (e : Nat × Thread) : MemOk (stopThread s e) = MemOk s := by
  simp [stopThread]

@[simp] theorem memOk_debugStop (s : State) (team group : Nat) : MemOk (debugStop s team group) = MemOk s := by
  simp [debugStop]

@[simp] theorem memOk_meetBreak (s : State) (k code : Nat) (fpc pc : Word) (n : Nat) : MemOk (meetBreak s k code fpc pc n) = MemOk s := by
  unfold meetBreak
  split <;> simp

@[simp] theorem memOk_trapAt (c : Ctx) (s : State) (k code : Nat) : MemOk (trapAt c s k code) = MemOk s := by
  simp [trapAt]

@[simp] theorem nextOk_execTrap (n : BitVec 16) (s : State) (h : MemOk s) : NextOk (execTrap n s) :=
  nextOk_issueWord _ (fun c s k t h => by simp [h]) h

@[simp] theorem nextOk_execBrkpt (s : State) (h : MemOk s) : NextOk (execBrkpt s) := by
  unfold execBrkpt
  refine nextOk_issueWord _ (fun c s k t h => ?_) h
  split <;> simp [h]

/-! Memory's form through Machine/Transfer.lean. -/

@[simp] theorem memOk_holdCode (s : State) (core loc : Nat) (w : Word) : MemOk (holdCode s core loc w) = MemOk s := by
  simp [holdCode]

@[simp] theorem memOk_holdPrefetch (s : State) (core target : Nat) (ws : List (Nat × Word)) : MemOk (holdPrefetch s core target ws) = MemOk s := by
  simp [holdPrefetch]

/-- Memory's form in what a fetch leaves. -/
@[simp] def FetchedOk : Fetched → Prop
  | .ok _ s => MemOk s
  | _ => True

theorem fetchedOk_fetchWord (s : State) (k : Nat) (t : Thread) (pc : Word) (held : Option Nat) (keep : Bool) (h : MemOk s) :
    FetchedOk (fetchWord s k t pc held keep) := by
  unfold fetchWord
  dsimp only
  repeat' split
  all_goals simp [h]

@[simp] theorem memOk_prefetchWords (k : Nat) (t : Thread) (n : Nat) (s : State) (pc : Word) (h : MemOk s) : MemOk (prefetchWords k t n s pc).2 := by
  induction n generalizing s pc with
  | zero => exact h
  | succ n ih =>
    have hf := fetchedOk_fetchWord s k t pc none false h
    unfold prefetchWords
    split <;> simp_all

@[simp] theorem memOk_prefetch (k : Nat) (t : Thread) (s : State) (pc : Word) (h : MemOk s) : MemOk (prefetch k t s pc) := by
  simp [prefetch, h]

@[simp] theorem nextOk_btWord (w : WordSpec) (pre : Bool) (bt : BtIx) (f : Ctx → Thread → Bt) (s : State) (h : MemOk s) : NextOk (btWord w pre bt f s) := by
  unfold btWord
  exact nextOk_issueWord _ (fun c s k t h => by simp [h]) h

@[simp] theorem nextOk_execPrep (bt : BtIx) (imm : BitVec 17) (s : State) (h : MemOk s) : NextOk (execPrep bt imm s) := by
  simp [execPrep, h]

@[simp] theorem nextOk_execPrepr (bt : BtIx) (a : Reg) (s : State) (h : MemOk s) : NextOk (execPrepr bt a s) := by
  simp [execPrepr, h]

@[simp] theorem nextOk_execBload (bt : BtIx) (a : Reg) (s : State) (h : MemOk s) : NextOk (execBload bt a s) := by
  simp [execBload, h]

@[simp] theorem nextOk_execBcopy (bt bs : BtIx) (s : State) (h : MemOk s) : NextOk (execBcopy bt bs s) := by
  simp [execBcopy, h]

@[simp] theorem nextOk_execBinv (bt : BtIx) (s : State) (h : MemOk s) : NextOk (execBinv bt s) := by
  simp [execBinv, h]

@[simp] theorem laneOk_transferTo (s : State) (k : Nat) (t : Thread) (pc : Word) (h : MemOk s) : LaneOk (transferTo s k t pc) := by
  simp [transferTo, h]

@[simp] theorem nextOk_execXfer (bt : BtIx) (ps : PredIx) (neg : Bool) (s : State) (h : MemOk s) : NextOk (execXfer bt ps neg s) := by
  unfold execXfer
  refine nextOk_issueWord _ (fun c s k t h => ?_) h
  split <;> simp [h]

@[simp] theorem nextOk_execXferCall (bt : BtIx) (ps : PredIx) (neg : Bool) (s : State) (h : MemOk s) : NextOk (execXferCall bt ps neg s) := by
  unfold execXferCall
  refine nextOk_issueWord _ (fun c s k t h => ?_) h
  repeat' split
  all_goals simp [h]

@[simp] theorem nextOk_execXferRet (bt : BtIx) (ps : PredIx) (neg : Bool) (s : State) (h : MemOk s) : NextOk (execXferRet bt ps neg s) := by
  unfold execXferRet
  refine nextOk_issueWord _ (fun c s k t h => ?_) h
  repeat' split
  all_goals simp [h]

@[simp] theorem nextOk_execXdec (bt : BtIx) (a : Reg) (s : State) (h : MemOk s) : NextOk (execXdec bt a s) := by
  unfold execXdec
  refine nextOk_issueWord _ (fun c s k t h => ?_) h
  split <;> simp [h]

@[simp] theorem memOk_moveEpoch (s : State) (k : Nat) : MemOk (moveEpoch s k) = MemOk s := by
  simp [moveEpoch]

@[simp] theorem nextOk_execIflush (m : IflushScope) (s : State) (h : MemOk s) : NextOk (execIflush m s) := by
  refine nextOk_issueGo _ (fun c ks s h => memOk_ite h (memOk_laneLoop (memOk_laneStep _ _ fun s k t h => ?_) h)) h
  split <;> simp [h]

@[simp] theorem nextOk_execStop (s : State) (h : MemOk s) : NextOk (execStop s) := by
  unfold execStop
  refine nextOk_issueWord _ (fun c s k t h => ?_) h
  split <;> simp [h]

@[simp] theorem nextOk_execYield (s : State) (h : MemOk s) : NextOk (execYield s) := by
  unfold execYield
  exact nextOk_issueWord _ (fun c s k t h => by simp [h]) h

/-! Memory's form through Machine/Fetch.lean. -/

@[simp] theorem memOk_fetchMiss (s : State) (ks : List Nat) (va : Nat) (fpc : Word) : MemOk (fetchMiss s ks va fpc) = MemOk s := by
  refine memOk_foldl_keeps (fun s k => ?_) _ s
  split <;> simp

@[simp] theorem memOk_debugMatch (s : State) (ks : List Nat) : MemOk (debugMatch s ks) = MemOk s := by
  refine memOk_foldl_keeps (fun s k => ?_) _ s
  split <;> simp

/-- Memory's form in what the fetch of a unit leaves. -/
@[simp] def UnitOk : IssueUnit → Prop
  | .run _ _ s | .stop s => MemOk s

theorem unitOk_fetchSeq (port k : Nat) (t : Thread) (ks : List Nat) (held : Option Nat) (n : Nat) (s : State) (pc : Word) (hs : List Hint) (h : MemOk s) :
    UnitOk (fetchSeq port k t ks held n s pc hs) := by
  induction n generalizing s pc hs with
  | zero => simp [fetchSeq, h]
  | succ n ih =>
    have hf := fetchedOk_fetchWord s k t pc held true h
    unfold fetchSeq
    repeat' split
    all_goals simp_all

theorem unitOk_portUnit (s : State) (core port : Nat) (held : Bool) (h : MemOk s) : UnitOk (portUnit s core port held) := by
  unfold portUnit
  dsimp only
  split
  · exact h
  · rename_i k _ _
    split
    · exact h
    · rename_i t _
      have hu := unitOk_fetchSeq port k t (bundle s core port) (if held then some (bundleEpoch s (bundle s core port)) else none) 7 s t.pc [] h
      split
      · rename_i e
        rw [e] at hu
        exact hu
      · rename_i e
        rw [e] at hu
        simpa using hu

theorem nextOk_mapNext {f : State → State} (hf : ∀ s, MemOk s → MemOk (f s)) {o : Host.Outcome State Fault Refusal} (h : NextOk o) : NextOk (mapNext f o) := by
  cases o with
  | next s => exact (nextOk_next _).mpr (hf s ((nextOk_next s).mp h))
  | fault _ => exact nextOk_fault _
  | refused _ => exact nextOk_refused _

@[simp] theorem memOk_countWords (core port n : Nat) (before after : State) : MemOk (countWords core port n before after) = MemOk after := by
  simp [countWords]

@[simp] theorem memOk_endStep (before after : State) (core : Nat) : MemOk (endStep before after core) = MemOk after := by
  unfold endStep
  split
  · refine memOk_foldl_keeps (fun s k => ?_) _ after
    split <;> simp
  · rfl

/-! Memory's form through Machine/Walks.lean. -/

@[simp] theorem memOk_failWaiter (code : Nat) (s : State) (w : Waiter) : MemOk (failWaiter code s w) = MemOk s := by
  unfold failWaiter
  repeat' split
  all_goals simp

@[simp] theorem memOk_parkWaiter (s : State) (w : Waiter) : MemOk (parkWaiter s w) = MemOk s := by
  unfold parkWaiter
  repeat' split
  all_goals simp

@[simp] theorem memOk_walkBad (s : State) (key : Nat) (m : Merge) (code : Nat) : MemOk (walkBad s key m code) = MemOk s := by
  simp [walkBad]

@[simp] theorem memOk_walkAbsent (s : State) (die key : Nat) (m : Merge) : MemOk (walkAbsent s die key m) = MemOk s := by
  simp [walkAbsent]

@[simp] theorem nextOk_execWalkComplete (die : Nat) (w : WalkReturn) (s : State) (h : MemOk s) : NextOk (execWalkComplete die w s) := by
  unfold execWalkComplete
  dsimp only
  repeat' split
  all_goals simp [h]

@[simp] theorem nextOk_execZeroFillFirstWrite (die entry : Nat) (s : State) (h : MemOk s) : NextOk (execZeroFillFirstWrite die entry s) := by
  unfold execZeroFillFirstWrite
  dsimp only
  repeat' split
  all_goals simp [h]

/-- Memory's form in what the writing of a counted record leaves. -/
@[simp] def CountedOk : Counted → Prop
  | .ok _ s | .denied s => MemOk s
  | .waits => True

theorem countedOk_writeCounted (s : State) (u : Via) (p slot count : Nat) (bs : List Byte) (n : Nat) (h : MemOk s) :
    CountedOk (writeCounted s u p slot count bs n) := by
  unfold writeCounted
  split
  · trivial
  · have h1 := wrOk_agentWrite s u p 0 slot bs false h
    split
    · rename_i ts z e
      rw [e] at h1
      have h2 := wrOk_agentWrite z u (ts + 1) 0 count (natLe 8 n) false h1
      split <;> simp_all
    · simp [h]

@[simp] theorem memOk_setFaultQ (s : State) (die : Nat) (q : FaultQueue) : MemOk (setFaultQ s die q) = MemOk s := by
  simp [setFaultQ]

@[simp] theorem memOk_refuseRecord (s : State) (die : Nat) (q : FaultQueue) : MemOk (refuseRecord s die q) = MemOk s := by
  simp [refuseRecord]

@[simp] theorem nextOk_execFaultRecordWrite (die : Nat) (s : State) (h : MemOk s) : NextOk (execFaultRecordWrite die s) := by
  unfold execFaultRecordWrite
  split
  · simp [h]
  · rename_i q _
    split
    · simp [h]
    · rename_i r rest _
      split
      · simp [h]
      · split
        · simp [h]
        · rename_i b _
          have hw := countedOk_writeCounted s { die := die } q.pts (b + 32 * (q.seq % 4096)) (b + 131072) (natLe 32 (recordValue r (q.seq + 1))) (q.seq + 1) h
          split <;> simp_all

@[simp] theorem memOk_writeEvent (s : State) (h : MemOk s) : MemOk (writeEvent s) := by
  unfold writeEvent
  split
  · exact h
  · rename_i e rest _
    dsimp only
    split
    · exact h
    · split
      · exact h
      · rename_i b _
        have hw := countedOk_writeCounted { s with bd := { s.bd with evWait := rest } } { die := 0 } s.bd.eventQ.pts (b + 32 * (s.bd.eventQ.count % 8192)) (b + 262144)
          (natLe 32 (eventValue e)) (s.bd.eventQ.count + 1) (by simp [h])
        split
        · exact h
        · rename_i z hz
          rw [hz] at hw
          exact memOk_ite h hw
        · rename_i hz
          rw [hz] at hw
          exact hw

/-- Memory's form in what the locking of a page leaves. -/
@[simp] def MigAskOk : MigAsk → Prop
  | .locked s => MemOk s
  | .noFrame => True

theorem migAskOk_lockPage (s : State) (asid va die dest : Nat) (l : Leaf) (side : MigSide) (h : MemOk s) : MigAskOk (lockPage s asid va die dest l side) := by
  unfold lockPage
  dsimp only
  split
  · trivial
  · simp only [MigAskOk, memOk_dropPage, memOk_mk, setMem_mem]
    exact mwrite_wf _ h _

@[simp] theorem memOk_addRecent (s : State) (asid va : Nat) (host lost : Bool) : MemOk (addRecent s asid va host lost) = MemOk s := by
  simp [addRecent]

@[simp] theorem nextOk_execMigrationDeviceRequest (die asid va : Nat) (s : State) (h : MemOk s) : NextOk (execMigrationDeviceRequest die asid va s) := by
  unfold execMigrationDeviceRequest
  split
  · rename_i l _
    dsimp only
    split
    · simp [h]
    · split
      · simp [h]
      · have hl := migAskOk_lockPage { s with mm := { s.mm with fills := s.mm.fills.filter fun x => !fillOf l x } } asid (pageStart va l.size) die 1 l .device (by simp [h])
        split <;> simp_all
  · simp [h]

@[simp] theorem memOk_moveLine (s : State) (a b : Nat) (h : MemOk s) : MemOk (moveLine s a b) := by
  simp only [moveLine, memOk_mk, setLine_mm_mem, setMem_mem]
  exact mwrite_wf _ (by simp [h]) _

@[simp] theorem memOk_moveLines (n : Nat) (s : State) (a b : Nat) (h : MemOk s) : MemOk (moveLines n s a b) := by
  induction n generalizing s a b with
  | zero => exact h
  | succ n ih => exact ih _ _ _ (memOk_moveLine s a b h)

@[simp] theorem memOk_moveAccesses (before s : State) (old new n : Nat) : MemOk (moveAccesses before s old new n) = MemOk s := by
  simp [moveAccesses]

@[simp] theorem memOk_hostResult (s : State) (result x : Nat) (h : MemOk s) : MemOk (hostResult s result x) := by
  simp [hostResult, h]

@[simp] theorem memOk_returnFrame (s : State) (list f : Nat) : MemOk (returnFrame s list f) = MemOk s := by
  simp [returnFrame]

@[simp] theorem nextOk_execMigration (asid va : Nat) (s : State) (h : MemOk s) : NextOk (execMigration asid va s) := by
  unfold execMigration
  split
  · simp [h]
  · rename_i m _
    extract_lets toHost tr s1 old n s2 x s3 s4 s5
    split
    · simp [h]
    · have h1 : MemOk s1 := by simpa [s1] using h
      split
      · simp [h1]
      · have h2 : MemOk s2 := by simp [s2, h1]
        have h4 : MemOk s4 := by
          simp only [s4, s3, memOk_returnFrame, memOk_dropPage, memOk_setMem]
          exact mwrite_wf _ h2 _
        have h5 : MemOk s5 := by
          unfold s5
          split <;> simp [h4]
        simp [h5]

@[simp] theorem memOk_hostMigrate (s : State) (x : Nat) (h : MemOk s) : MemOk (hostMigrate s x) := by
  unfold hostMigrate
  dsimp only
  split
  · exact h
  · split
    · simp [h]
    · rename_i result dest asid va _
      split
      · rename_i l _
        have hl := migAskOk_lockPage s asid (pageStart va l.size) (homeDie l.frame) dest l (.host result) h
        repeat' split
        all_goals simp_all
      · simp [h]

/-! Memory's form through Machine/Tile.lean. -/

@[simp] theorem memOk_modTile (s : State) (team k : Nat) (f : Tile → Tile) : MemOk (modTile s team k f) = MemOk s := by
  simp [modTile]

@[simp] theorem memOk_readTileElem (desc : List Word) (start : Nat) (x : TileRead × BlockRead) (n : Nat) (h : MemOk x.1.s) : MemOk (readTileElem desc start x n).1.s := by
  unfold readTileElem
  extract_lets va
  have hr := memOk_agentRead x.1.s x.1.rd va (tileEs desc) h
  rcases e : agentRead x.1.s x.1.rd va (tileEs desc) with ⟨a, r, u⟩
  rw [e] at hr
  cases a <;> exact hr

@[simp] theorem memOk_readBlock (desc : List Word) (start : Nat) (x : TileRead) (b : Nat) (h : MemOk x.s) : MemOk (readBlock desc start x b).s :=
  memOk_foldl_of (g := fun r : TileRead × BlockRead => r.1.s) (fun r n h => memOk_readTileElem desc start r n h) h

@[simp] theorem memOk_readBlocks (s : State) (team : Nat) (desc : List Word) (p : Nat) (buf : Tab Nat) (bs : List Nat) (h : MemOk s) :
    MemOk (readBlocks s team desc p buf bs).s :=
  memOk_foldl_of (g := TileRead.s) (fun r n h => memOk_readBlock desc p r n h) h

@[simp] theorem memOk_commitBlock (team k : Nat) (x : Tile) (s : State) (e : Nat × BlockRead) : MemOk (commitBlock team k x s e) = MemOk s := by
  simp [commitBlock]

@[simp] theorem memOk_pursueTile (s : State) (team k : Nat) (desc : List Word) (r : Reader) : MemOk (pursueTile s team k desc r) = MemOk s := by
  refine memOk_foldl_keeps (fun s w => ?_) _ s
  dsimp only
  repeat' split
  all_goals simp

@[simp] theorem memOk_fillTile (s : State) (team k thr : Nat) (x : Tile) (p : Nat) (bs : List Nat) (h : MemOk s) : MemOk (fillTile s team k thr x p bs).2 := by
  unfold fillTile
  extract_lets a again b s1
  have hb : MemOk b.s := by
    unfold b
    split <;> simp [a, h]
  have h1 : MemOk s1 := by simp [s1, hb]
  clear_value s1 b
  split
  · simpa using hb
  · split
    · simpa using hb
    · dsimp only
      split <;> simpa using h1

@[simp] theorem memOk_faultRevoked (x : Tile) (s : State) (j : Nat) : MemOk (faultRevoked x s j) = MemOk s := by
  unfold faultRevoked
  split <;> simp

@[simp] theorem nextOk_execTileFillComplete (team tile : Nat) (s : State) (h : MemOk s) : NextOk (execTileFillComplete team tile s) := by
  unfold execTileFillComplete
  split
  · simp [h]
  · rename_i x _
    have hf := memOk_fillTile s team tile x.fillThr x x.fillPts (List.range (tileArea x.desc / 128)) h
    repeat' split
    all_goals simp_all

@[simp] theorem nextOk_execTileDrainComplete (team tile : Nat) (s : State) (h : MemOk s) : NextOk (execTileDrainComplete team tile s) := by
  unfold execTileDrainComplete
  repeat' split
  all_goals simp [h]

@[simp] theorem memOk_startFill (s : State) (team k thr : Nat) : MemOk (startFill s team k thr) = MemOk s := by
  simp [startFill]

@[simp] theorem memOk_tileWait (s : State) (w : WordSpec) (team k : Nat) (x : Tile) (ks : List Nat) : MemOk (tileWait s w team k x ks) = MemOk s := by
  simp [tileWait]

@[simp] theorem memOk_renewAll (w : WordSpec) (team k : Nat) (desc : List Word) (coords : Thread → List (List Int)) (ks : List Nat) (s : State) (h : MemOk s) :
    MemOk (renewAll w team k desc coords ks s).2 := by
  induction ks generalizing s with
  | nil => exact h
  | cons j js ih =>
    unfold renewAll
    split
    · rename_i t x _ _
      extract_lets bs
      have hf := memOk_fillTile s team k j x t.pts bs h
      repeat' split
      all_goals simp_all
    · exact ih s h

@[simp] theorem memOk_tileLoadOne (x : Tile) (dest : Nat) (r : Thread × State) (e : List Int × Nat) (h : MemOk r.2) : MemOk (tileLoadOne x dest r e).2 := by
  unfold tileLoadOne
  dsimp only
  split <;> simpa using h

@[simp] theorem laneOk_tileReadLane (k dest least : Nat) (coords : Thread → List (List Int)) (pack : Nat → List Nat → List Word) (reg : Nat → Nat → Nat)
    (s : State) (j : Nat) (t : Thread) (h : MemOk s) : LaneOk (tileReadLane k dest least coords pack reg s j t) := by
  unfold tileReadLane
  dsimp only
  split
  · simp
  · split
    · simp
    · simp only [laneOk_ok, memOk_setThread]
      exact memOk_foldl_snd (fun r _ h => by simpa using h) (memOk_foldl_snd (fun r e h => memOk_tileLoadOne _ _ r e h) h)

@[simp] theorem nextOk_tileReadWord (w : WordSpec) (k : Nat) (ok : List Word → Bool) (dest least : Nat) (coords : List Word → Thread → List (List Int))
    (pack : Nat → List Nat → List Word) (reg : Nat → Nat → Nat) (s : State) (h : MemOk s) : NextOk (tileReadWord w k ok dest least coords pack reg s) := by
  unfold tileReadWord
  refine nextOk_issueGo _ (fun c ks s h => ?_) h
  have hfault : MemOk (laneLoop (laneStep w c fun _ _ _ => .fault 0x0A 0) s ks) := memOk_laneLoop (memOk_laneStep w c (body := fun _ _ _ => .fault 0x0A 0) fun _ _ _ _ => trivial) h
  dsimp only
  split
  · exact hfault
  · rename_i x _
    have hr := memOk_renewAll w (teamOf s ks) k x.desc (coords x.desc) ks s h
    split
    · exact hfault
    · split
      · simp [h]
      · split
        · exact h
        · split
          · rename_i e
            rw [e] at hr
            simpa using hr
          · rename_i e
            rw [e] at hr
            exact memOk_laneLoop (memOk_laneStep w c fun s j t => laneOk_tileReadLane _ _ _ _ _ _ s j t) (by simpa using hr)

@[simp] theorem nextOk_execTld (m : TileEs) (d a : Reg) (k : BitVec 5) (s : State) (h : MemOk s) : NextOk (execTld m d a k s) := by
  simp [execTld, h]

@[simp] theorem nextOk_execTldf (m : TldfForm) (d a : Reg) (k : BitVec 5) (s : State) (h : MemOk s) : NextOk (execTldf m d a k s) := by
  simp [execTldf, h]

@[simp] theorem memOk_tileStoreOne (c : Ctx) (wid k : Nat) (x : Tile) (j : Nat) (s : State) (e : (List Int × Nat) × Leaf) : MemOk (tileStoreOne c wid k x j s e) = MemOk s := by
  unfold tileStoreOne
  split <;> simp

@[simp] theorem nextOk_tileStoreWord (w : WordSpec) (k least : Nat) (ok : List Word → Bool) (coords : List Word → Thread → List (List Int))
    (vals : Thread → List Nat) (s : State) (h : MemOk s) : NextOk (tileStoreWord w k least ok coords vals s) := by
  unfold tileStoreWord
  refine nextOk_issueGo _ (fun c ks s h => ?_) h
  have hfault : MemOk (laneLoop (laneStep w c fun _ _ _ => .fault 0x0A 0) s ks) := memOk_laneLoop (memOk_laneStep w c (body := fun _ _ _ => .fault 0x0A 0) fun _ _ _ _ => trivial) h
  dsimp only
  split
  · exact hfault
  · split
    · exact hfault
    · split
      · simp [h]
      · split
        · exact h
        · split
          · refine memOk_laneLoop (memOk_laneStep w c fun s j t h => ?_) (by simpa using h)
            split
            · trivial
            · exact memOk_foldl (by simpa using h) fun s e h => by simpa using h
          · exact memOk_foldl h fun s m h => by simpa using h

@[simp] theorem nextOk_execTst (m : TileEs) (d a : Reg) (k : BitVec 5) (s : State) (h : MemOk s) : NextOk (execTst m d a k s) := by
  simp [execTst, h]

@[simp] theorem nextOk_execTstf (d a : Reg) (k : BitVec 5) (s : State) (h : MemOk s) : NextOk (execTstf d a k s) := by
  simp [execTstf, h]

@[simp] theorem nextOk_execTctlMap (d a : Reg) (s : State) (h : MemOk s) : NextOk (execTctlMap d a s) := by
  unfold execTctlMap
  refine nextOk_issueWord _ (fun c s k t h => ?_) h
  dsimp only
  repeat' split
  all_goals simp [h]

@[simp] theorem memOk_tlOp (s : State) (j : Nat) (t : Thread) (k : Nat) (fill done_ : Bool) : MemOk (tlOp s j t k fill done_) = MemOk s := by
  simp [tlOp]

@[simp] theorem nextOk_execTctlFill (k : BitVec 5) (s : State) (h : MemOk s) : NextOk (execTctlFill k s) := by
  unfold execTctlFill
  refine nextOk_issueGo _ (fun c ks s h => ?_) h
  dsimp only
  split
  · exact h
  · refine memOk_laneLoop (memOk_laneStep _ c fun s j t h => ?_) h
    repeat' split
    all_goals simp [h]

@[simp] theorem memOk_drainTile (s : State) (team k : Nat) : MemOk (drainTile s team k) = MemOk s := by
  unfold drainTile
  repeat' split
  all_goals simp

@[simp] theorem nextOk_execTctlDrain (k : BitVec 5) (s : State) (h : MemOk s) : NextOk (execTctlDrain k s) := by
  unfold execTctlDrain
  refine nextOk_issueWord _ (fun c s k t h => ?_) h
  split <;> simp [h]

@[simp] theorem nextOk_execTctlFree (k : BitVec 5) (s : State) (h : MemOk s) : NextOk (execTctlFree k s) := by
  unfold execTctlFree
  refine nextOk_issueWord _ (fun c s k t h => ?_) h
  repeat' split
  all_goals simp [h]

@[simp] theorem nextOk_execTctlQuery (d : Reg) (k : BitVec 5) (s : State) (h : MemOk s) : NextOk (execTctlQuery d k s) := by
  unfold execTctlQuery
  refine nextOk_issueWord _ (fun c s k t h => ?_) h
  split <;> simp [h]

/-! Memory's form through Machine/Bundle.lean. -/

@[simp] theorem memOk_giveBundle (s : State) (core port : Nat) (x : Cand) : MemOk (giveBundle s core port x) = MemOk s := by
  simp [giveBundle]

@[simp] theorem memOk_ageAll (s : State) (l : List Cand) : MemOk (ageAll s l) = MemOk s := by
  simp [ageAll]

@[simp] theorem memOk_clearYield (s : State) (core : Nat) : MemOk (clearYield s core) = MemOk s := by
  simp [clearYield]

@[simp] theorem nextOk_execFormBundle (core port : Nat) (s : State) (h : MemOk s) : NextOk (execFormBundle core port s) := by
  unfold execFormBundle
  dsimp only
  repeat' split
  all_goals simp [h]

/-! Memory's form through Machine/Launch.lean. -/

@[simp] theorem memOk_readArray (m n va : Nat) (s : State) (r : Reader) (h : MemOk s) : MemOk (readArray m n va s r).2.2 := by
  induction n generalizing va s r with
  | zero => exact h
  | succ n ih =>
    have hr := memOk_agentRead s r va m h
    unfold readArray
    split
    · rename_i e
      rw [e] at hr
      exact hr
    · rename_i r' s' e
      rw [e] at hr
      split
      · exact hr
      · have ht := ih (va + m) s' r' hr
        split <;> simp_all

@[simp] theorem memOk_readBooks (g : Grid) (ks : List Nat) (s : State) (r : Reader) (h : MemOk s) : MemOk (readBooks g ks s r).2.2 := by
  induction ks generalizing s r with
  | nil => exact h
  | cons k ks ih =>
    have hr := memOk_readArray 128 4 (slotCb (g.slot k)) s r h
    unfold readBooks
    split
    · rename_i e
      rw [e] at hr
      exact hr
    · rename_i r' s' e
      rw [e] at hr
      split
      · exact hr
      · have ht := ih s' r' hr
        split <;> simp_all

@[simp] theorem memOk_enterGrid (s : State) (idx : Nat) (ws : List Word) (books : Tab (List Nat)) (p prio queue : Nat) (l : Launcher) (slot : Nat) : MemOk (enterGrid s idx ws books p prio queue l slot) = MemOk s := by
  unfold enterGrid
  dsimp only
  repeat' split
  all_goals simp

/-- Memory's form in what a launch leaves. -/
@[simp] def LaunchedOk : Launched → Prop
  | .ok _ _ s | .full _ s | .fail _ _ s | .asid _ s | .poison _ s | .lacks _ s => MemOk s

theorem launchedOk_launchGrid (s : State) (r : Reader) (g : Grid) (prio queue : Nat) (l : Launcher) (slot : Nat) (h : MemOk s) :
    LaunchedOk (launchGrid s r g prio queue l slot) := by
  have hr := memOk_readBooks g (codebookSlots g) s r h
  unfold launchGrid
  repeat' split
  all_goals simp_all

theorem launchedOk_launch (s : State) (r : Reader) (va : Nat) (ovr : Option Nat) (prio queue : Nat) (l : Launcher) (slot : Nat) (h : MemOk s) :
    LaunchedOk (launch s r va ovr prio queue l slot) := by
  have hr := memOk_readArray 128 2 va s r h
  unfold launch
  split
  · rename_i e
    rw [e] at hr
    exact hr
  · rename_i e
    rw [e] at hr
    dsimp only
    repeat' split
    · exact hr
    · exact hr
    · exact hr
    · exact launchedOk_launchGrid _ _ _ _ _ _ _ hr

@[simp] theorem memOk_placeThreads (e : Nat) (g : Grid) (core team n i : Nat) (s : State) : MemOk (placeThreads e g core team n i s) = MemOk s := by
  induction n generalizing i s with
  | zero => rfl
  | succ n ih => simp [placeThreads, ih]

@[simp] theorem memOk_placeTeam (s : State) (gi : Nat) (g : Grid) (core lin cluster rank : Nat) : MemOk (placeTeam s gi g core lin cluster rank) = MemOk s := by
  unfold placeTeam
  split
  · simp
  · rfl

@[simp] theorem memOk_placeRanks (gi : Nat) (g : Grid) (cluster : Nat) (cs : List Nat) (rank : Nat) (s : State) (ks : List Nat) :
    MemOk (placeRanks gi g cluster cs rank s ks).1 = MemOk s := by
  induction cs generalizing rank s ks with
  | nil => rfl
  | cons c cs ih => simp [placeRanks, ih]

@[simp] theorem memOk_place (s : State) (gi : Nat) (g : Grid) (cores : List Nat) (h : MemOk s) : MemOk (place s gi g cores) := by
  simp [place, h]

@[simp] theorem nextOk_execTeamPlacement (s : State) (h : MemOk s) : NextOk (execTeamPlacement s) := by
  unfold execTeamPlacement
  repeat' split
  all_goals simp [h]

@[simp] theorem nextOk_execClusterPlacement (s : State) (h : MemOk s) : NextOk (execClusterPlacement s) := by
  unfold execClusterPlacement
  repeat' split
  all_goals simp [h]

@[simp] theorem nextOk_execGridReserving (grid : Nat) (s : State) (h : MemOk s) : NextOk (execGridReserving grid s) := by
  unfold execGridReserving
  dsimp only
  repeat' split
  all_goals simp [h]

@[simp] theorem memOk_closeGridSnap (s : State) (gi : Nat) : MemOk (closeGridSnap s gi) = MemOk s := by
  unfold closeGridSnap
  repeat' split
  all_goals simp

@[simp] theorem memOk_keepWrites (s : State) (team : Nat) : MemOk (keepWrites s team) = MemOk s := by
  simp [keepWrites]

@[simp] theorem memOk_dropCluster (s : State) (ck : Nat) (mates : List Nat) : MemOk (dropCluster s ck mates) = MemOk s := by
  simp [dropCluster]

@[simp] theorem memOk_freeTeam (s : State) (team : Nat) : MemOk (freeTeam s team) = MemOk s := by
  simp [freeTeam]

@[simp] theorem nextOk_execTeamFree (team : Nat) (s : State) (h : MemOk s) : NextOk (execTeamFree team s) := by
  unfold execTeamFree
  dsimp only
  repeat' split
  all_goals simp [h]

/-! Memory's form through Machine/Queues.lean. -/

@[simp] theorem memOk_unbind (s : State) (n : Nat) : MemOk (unbind s n) = MemOk s := by
  unfold unbind
  split <;> simp

@[simp] theorem memOk_freezeQueue (s : State) (n reason detail : Nat) : MemOk (freezeQueue s n reason detail) = MemOk s := by
  unfold freezeQueue
  split <;> simp

@[simp] theorem memOk_presentBell (s : State) (n w stamp : Nat) : MemOk (presentBell s n w stamp) = MemOk s := by
  unfold presentBell
  split <;> simp

@[simp] theorem memOk_hostAnswer (s : State) (qp code : Nat) (bs : List Byte) : MemOk (hostAnswer s qp code bs) = MemOk s := by
  simp [hostAnswer]

@[simp] theorem memOk_freezePair (s : State) (qp : Nat) : MemOk (freezePair s qp) = MemOk s := by
  unfold freezePair
  split <;> simp

@[simp] theorem memOk_hostNak (s : State) (qp : Nat) : MemOk (hostNak s qp) = MemOk s := by
  simp [hostNak]

theorem memOk_hostRequest (s : State) (qp key : Nat) (serves : Nat → Bool) {act : QueuePair → State} (h : MemOk s) (ha : ∀ x, MemOk (act x)) :
    MemOk (hostRequest s qp key serves act) := by
  unfold hostRequest
  split
  · exact h
  · repeat' split
    all_goals simp [h, ha]

@[simp] theorem memOk_noteRange (s : State) (asid va n : Nat) : MemOk (noteRange s asid va n) = MemOk s := by
  unfold noteRange
  split <;> simp

theorem memOk_hostAccess (s : State) (qp : Nat) (a : Acc) (asid va n : Nat) (act : State) (h : MemOk s) (ha : MemOk act) : MemOk (hostAccess s qp a asid va n act) := by
  unfold hostAccess
  split
  · simpa using h
  · split
    · exact h
    · exact ha

@[simp] theorem memOk_hostWrite (s : State) (p asid va : Nat) (bs : List Byte) (c : Bool) (h : MemOk s) : MemOk (hostWrite s p asid va bs c).2 := by
  refine memOk_foldl_snd (fun r x h => ?_) h
  have hw := wrOk_agentWrite r.2 baseVia r.1 asid x.1 ((bs.drop (x.1 - va)).take x.2) c h
  split
  · rename_i e
    rw [e] at hw
    exact hw
  · exact h

@[simp] theorem memOk_hostRead (s : State) (p asid va n : Nat) (h : MemOk s) : MemOk (hostRead s p asid va n).2 := by
  refine memOk_foldl_snd (fun r x h => ?_) h
  have hr := memOk_plainRead r.2 { via := baseVia, asid := asid, p := r.1.1 } x.1 x.2 h
  split
  · rename_i e
    rw [e] at hr
    exact hr
  · exact h

@[simp] theorem memOk_raisePair (s : State) (qp p : Nat) : MemOk (raisePair s qp p) = MemOk s := by
  simp [raisePair]

@[simp] theorem memOk_performHostWrite (s : State) (qp : Nat) (x : QueuePair) (va : Nat) (bs : List Byte) (h : MemOk s) : MemOk (performHostWrite s qp x va bs).2 := by
  simp [performHostWrite, h]

@[simp] theorem nextOk_execDoorbell (qp key va : Nat) (data : List Byte) (s : State) (h : MemOk s) : NextOk (execDoorbell qp key va data s) := by
  refine (nextOk_next _).mpr (memOk_hostRequest _ _ _ _ h fun x => ?_)
  dsimp only
  split
  · exact h
  · split
    · simpa using h
    · exact memOk_hostAccess _ _ _ _ _ _ _ h (by simp [h])

@[simp] theorem nextOk_execHostRdmaWrite (qp key va : Nat) (data : List Byte) (s : State) (h : MemOk s) : NextOk (execHostRdmaWrite qp key va data s) := by
  refine (nextOk_next _).mpr (memOk_hostRequest _ _ _ _ h fun x => ?_)
  split
  · exact h
  · exact memOk_hostAccess _ _ _ _ _ _ _ h (by simp [h])

@[simp] theorem nextOk_execHostRdmaRead (qp key va n : Nat) (s : State) (h : MemOk s) : NextOk (execHostRdmaRead qp key va n s) := by
  refine (nextOk_next _).mpr (memOk_hostRequest _ _ _ _ h fun x => memOk_hostAccess _ _ _ _ _ _ _ h ?_)
  dsimp only
  split <;> simp [h]

@[simp] theorem nextOk_execHostRdmaFlush (r : FlushReq) (s : State) (h : MemOk s) : NextOk (execHostRdmaFlush r s) :=
  (nextOk_next _).mpr (memOk_hostRequest _ _ _ _ h fun x => memOk_hostAccess _ _ _ _ _ _ _ h (by simpa using h))

@[simp] theorem nextOk_execHostUnsupportedRequest (qp : Nat) (s : State) (h : MemOk s) : NextOk (execHostUnsupportedRequest qp s) := by
  unfold execHostUnsupportedRequest
  split <;> simp [h]

@[simp] theorem nextOk_execHostMigrationRequest (qp key va : Nat) (data : List Byte) (s : State) (h : MemOk s) :
    NextOk (execHostMigrationRequest qp key va data s) := by
  refine (nextOk_next _).mpr (memOk_hostRequest _ _ _ _ h fun x => ?_)
  repeat' split
  all_goals simp [h]

@[simp] theorem nextOk_execSlotBind (slot : Nat) (s : State) (h : MemOk s) : NextOk (execSlotBind slot s) := by
  unfold execSlotBind
  repeat' split
  all_goals simp [h]

@[simp] theorem nextOk_execSlotUnbind (slot : Nat) (s : State) (h : MemOk s) : NextOk (execSlotUnbind slot s) := by
  unfold execSlotUnbind
  repeat' split
  all_goals simp [h]

@[simp] theorem memOk_slotLacks (s : State) (slot n : Nat) (r : Reader) : MemOk (slotLacks s slot n r) = MemOk s := by
  unfold slotLacks
  dsimp only
  split
  · simp
  · refine (memOk_foldl_keeps (fun s w => ?_) _ _).trans (by simp)
    split <;> simp

theorem memOk_slotRead (s : State) (slot va n : Nat) {act : State → Nat → State} (ha : ∀ s x, MemOk s → MemOk (act s x)) (h : MemOk s) :
    MemOk (slotRead s slot va n act) := by
  unfold slotRead
  split
  · exact h
  · rename_i x _
    split
    · exact h
    · rename_i q _
      have hr := memOk_agentRead s (slotReader x q) va n h
      repeat' split
      all_goals simp_all

@[simp] theorem nextOk_execEntryTake (slot : Nat) (s : State) (h : MemOk s) : NextOk (execEntryTake slot s) := by
  unfold execEntryTake
  split
  · exact (nextOk_next s).mpr h
  · split
    · exact (nextOk_next s).mpr h
    · split
      · exact (nextOk_next s).mpr h
      · refine (nextOk_next _).mpr (memOk_slotRead _ _ _ _ (fun s e h => ?_) (by simpa using h))
        repeat' split
        all_goals simp [h]

@[simp] theorem memOk_blockHead (s : State) (slot : Nat) (buf : Tab Nat) : MemOk (blockHead s slot buf) = MemOk s := by
  simp [blockHead]

@[simp] theorem nextOk_execEntryWaitPoll (slot : Nat) (s : State) (h : MemOk s) : NextOk (execEntryWaitPoll slot s) := by
  unfold execEntryWaitPoll
  split
  · refine (nextOk_next _).mpr (memOk_slotRead _ _ _ _ (fun s e h => ?_) h)
    split <;> simp [h]
  · simpa using h

@[simp] theorem memOk_settlePending (s : State) (q : Nat) : MemOk (settlePending s q) = MemOk s := by
  simp [settlePending]

@[simp] theorem memOk_completePending (s : State) (q i stamp : Nat) : MemOk (completePending s q i stamp) = MemOk s := by
  simp [completePending]

@[simp] theorem memOk_dropPending (s : State) (q i : Nat) : MemOk (dropPending s q i) = MemOk s := by
  simp [dropPending]

@[simp] theorem memOk_handOn (s : State) (slot e : Nat) (h : MemOk s) : MemOk (handOn s slot e) := by
  unfold handOn
  split
  · exact h
  · rename_i x _
    split
    · exact h
    · rename_i q _
      extract_lets s1 qu s2 s3 s4
      have h4 : MemOk s4 := by simp [s4, s3, s2, s1, h]
      have hw := wrOk_agentWrite s4 baseVia x.pts q.asid (q.ctl + 64) (natLe 8 (q.ridx + 1)) false h4
      split <;> simp_all

@[simp] theorem memOk_handLaunch (s : State) (slot e : Nat) (h : MemOk s) : MemOk (handLaunch s slot e) := by
  unfold handLaunch
  split
  · exact h
  · rename_i x _
    split
    · exact h
    · rename_i q _
      dsimp only
      have hl := launchedOk_launch s (slotReader x q) (bits e 127 64) (entryOverride e) q.prio x.queue (.slot x.queue q.ridx) slot h
      split
      · simpa using h
      · split <;> simp_all

@[simp] theorem nextOk_execEntryHandOn (slot : Nat) (s : State) (h : MemOk s) : NextOk (execEntryHandOn slot s) := by
  unfold execEntryHandOn
  repeat' split
  all_goals simp [h]

@[simp] theorem memOk_freezeSignal (s : State) (n entry reason : Nat) : MemOk (freezeSignal s n entry reason) = MemOk s := by
  simp [freezeSignal]

@[simp] theorem memOk_signalled (s : State) (n entry ts : Nat) : MemOk (signalled s n entry ts) = MemOk s := by
  unfold signalled
  split <;> simp

@[simp] theorem nextOk_execEntrySignalWrite (queue entry : Nat) (s : State) (h : MemOk s) : NextOk (execEntrySignalWrite queue entry s) := by
  unfold execEntrySignalWrite
  split
  · rename_i p q _ _
    split
    · rename_i fin va _ _
      split
      · simpa using h
      · have hw := wrOk_agentWrite s baseVia (fin + 1) q.asid va (natLe 8 p.sigVal) false h
        split
        case h_3 => split <;> simp [h]
        all_goals simp_all
    · simpa using h
  · simpa using h

@[simp] theorem memOk_pushEntry (s : State) (n p e : Nat) (h : MemOk s) : MemOk (pushEntry s n p e).2.2 := by
  unfold pushEntry
  dsimp only
  repeat' split
  all_goals simp [h]

@[simp] theorem memOk_laneRead (s : State) (r : Reader) (l : Leaf) (va n : Nat) (h : MemOk s) : MemOk (laneRead s r l va n).2.2 := by
  unfold laneRead
  split
  · split
    · exact memOk_windowRead (readOk_readThrough _) _ _ _ _ _ h
    · exact h
  · split
    · split <;> exact h
    · dsimp only
      split
      · exact h
      · cases r.tx <;> simp [h]

@[simp] theorem memOk_askLanes (w : WordSpec) (view : Bool) (n : Nat) (ea : Thread → Int) (fpc : Word) (s : State) (ks : List Nat) :
    MemOk (askLanes w view n ea fpc s ks).2 = MemOk s := by
  induction ks generalizing s with
  | nil => rfl
  | cons k ks ih =>
    unfold askLanes
    dsimp only
    split
    · simp [ih]
    · exact ih s

theorem nextOk_readWord (w : WordSpec) (view : Bool) (n : Nat) (ea : State → Thread → Int) {go : Ctx → List Nat → State → State}
    (hg : ∀ c ks s, MemOk s → MemOk (go c ks s)) {s : State} (h : MemOk s) : NextOk (readWord w view n ea go s) := by
  unfold readWord
  refine nextOk_issueGo _ (fun c ks s h => ?_) h
  have ha := memOk_askLanes w view n (ea s) c.fpc s ks
  split
  · split
    · rename_i e
      rw [e] at ha
      exact ha.mpr h
    · rename_i e
      rw [e] at ha
      exact hg _ _ _ (ha.mpr h)
  · simpa using h

@[simp] theorem memOk_pushLost (s : State) (k : Nat) (t : Thread) (d : Reg) (va : Nat) (prot : Bool) : MemOk (pushLost s k t d va prot) = MemOk s := by
  simp [pushLost]

@[simp] theorem laneOk_pushLane (d a b : Reg) (s : State) (k : Nat) (t : Thread) (h : MemOk s) : LaneOk (pushLane d a b s k t) := by
  unfold pushLane
  split
  · trivial
  · refine laneOk_globalLane _ _ _ (fun s k t va l h => ?_) _ _ _ h
    have hr := memOk_laneRead s (laneReader s k t false) l va 64 h
    split
    · rename_i e r s' he
      rw [he] at hr
      split
      · simpa using hr
      · simp [hr]
    · rename_i he
      rw [he] at hr
      simpa using hr

@[simp] theorem nextOk_execQpush (d a b : Reg) (s : State) (h : MemOk s) : NextOk (execQpush d a b s) := by
  unfold execQpush
  refine nextOk_readWord _ _ _ _ (fun c ks s h => ?_) h
  split
  · exact h
  · exact memOk_laneLoop (memOk_laneStep _ c fun s k t => laneOk_pushLane d a b s k t) h

/-! Memory's form through Machine/Engines.lean. -/

@[simp] theorem memOk_appendCard (s : State) (c : Card) : MemOk (appendCard s c).2 = MemOk s := by
  simp [appendCard]

@[simp] theorem memOk_appendLane (s : State) (e : (Nat × Thread × JobKind) × Nat) : MemOk (appendLane s e) = MemOk s := by
  simp [appendLane]

@[simp] theorem memOk_appendJobs (s : State) (wid : Nat) : MemOk (appendJobs s wid) = MemOk s := by
  simp [appendJobs]

@[simp] theorem laneOk_jobLane (c : Ctx) (wid : Nat) (kind : JobKind) (a : Reg) (s : State) (k : Nat) (t : Thread) (h : MemOk s) : LaneOk (jobLane c wid kind a s k t) := by
  unfold jobLane
  refine laneOk_globalLane _ _ _ (fun s k t va l h => ?_) _ _ _ h
  have hr := memOk_laneRead s (laneReader s k t true) l va 128 h
  split
  · simpa using h
  · split
    · rename_i he
      rw [he] at hr
      simpa using hr
    · rename_i he
      rw [he] at hr
      split <;> simpa using hr

@[simp] theorem memOk_rejoin (core port : Nat) (ks : List Nat) (s : State) : MemOk (rejoin core port ks s) = MemOk s := by
  unfold rejoin
  split <;> simp

@[simp] theorem nextOk_execJob (kind : JobKind) (a : Reg) (s : State) (h : MemOk s) : NextOk (execJob kind a s) := by
  unfold execJob
  refine nextOk_readWord _ _ _ _ (fun c ks s h => ?_) h
  simp only [memOk_rejoin, memOk_appendJobs]
  exact memOk_laneLoop (memOk_laneStep _ c fun s k t => laneOk_jobLane c _ kind a s k t) (by simpa using h)

@[simp] theorem nextOk_execJobAppend (wid : Nat) (s : State) (h : MemOk s) : NextOk (execJobAppend wid s) := by
  simp [execJobAppend, h]

@[simp] theorem nextOk_execJobStart (card : Nat) (s : State) (h : MemOk s) : NextOk (execJobStart card s) := by
  unfold execJobStart
  repeat' split
  all_goals simp [h]

@[simp] theorem memOk_keepPage (s : State) (c : Card) (a : Acc) (va : Nat) : MemOk (keepPage s c a va) = MemOk s := by
  unfold keepPage
  split <;> simp

@[simp] theorem memOk_cardTook (s : State) (card tag : Nat) (r : Reader) : MemOk (cardTook s card tag r) = MemOk s := by
  simp [cardTook]

@[simp] theorem memOk_cardRead (card tag : Nat) (s : State) (va n : Nat) (h : MemOk s) : MemOk (cardRead card tag s va n).2 := by
  unfold cardRead
  split
  · exact h
  · rename_i c _
    have hr := memOk_agentRead s (cardReader s c tag) va n h
    dsimp only
    split
    · exact h
    · split
      · simpa using h
      · split
        · rename_i he
          rw [he] at hr
          split <;> simpa using hr
        · rename_i he
          rw [he] at hr
          split <;> simpa using hr

@[simp] theorem memOk_cardReads (card tag : Nat) (l : List (Nat × Nat)) (s : State) (h : MemOk s) : MemOk (cardReads card tag l s).2 := by
  induction l generalizing s with
  | nil => exact h
  | cons x l ih => exact ih _ (memOk_cardRead card tag s x.1 x.2 h)

@[simp] theorem memOk_cardReadSpan (s : State) (card tag va n : Nat) (h : MemOk s) : MemOk (cardReadSpan s card tag va n).2 :=
  memOk_cardReads card tag _ s h

@[simp] theorem memOk_cardWrite (card : Nat) (clears : Bool) (s : State) (x : Nat × List Byte) (h : MemOk s) : MemOk (cardWrite card clears s x) := by
  unfold cardWrite
  split
  · exact h
  · rename_i c _
    have hw := wrOk_agentWrite s (cardVia s c) c.pts c.asid x.1 x.2 clears h
    dsimp only
    split
    · exact h
    · split
      · simpa using h
      · split <;> simp_all

@[simp] theorem memOk_cardWriteSpans (s : State) (card : Nat) (l : List (Nat × List Byte)) (c : Bool) (h : MemOk s) : MemOk (cardWriteSpans s card l c).2 :=
  memOk_foldl h fun s x h => memOk_cardWrite card c s x h

@[simp] theorem memOk_cardWorked (s : State) (card status : Nat) : MemOk (cardWorked s card status) = MemOk s := by
  simp [cardWorked]

@[simp] theorem memOk_pieceBytes (s : State) (card : Nat) (c : Card) (row dst : Nat) (h : MemOk s) : MemOk (pieceBytes s card c row dst).2 := by
  unfold pieceBytes
  dsimp only
  repeat' split
  all_goals simp [h]

@[simp] theorem memOk_pieceDone (s : State) (card row dst : Nat) : MemOk (pieceDone s card row dst) = MemOk s := by
  simp [pieceDone]

@[simp] theorem memOk_pieceAhead (s : State) (card row dst : Nat) : MemOk (pieceAhead s card row dst) = MemOk s := by
  simp [pieceAhead]

@[simp] theorem memOk_stashPiece (s : State) (card k row dst : Nat) (bs : List Byte) : MemOk (stashPiece s card k row dst bs) = MemOk s := by
  unfold stashPiece
  dsimp only
  split <;> simp

@[simp] theorem nextOk_execCopyPiece (card row dst : Nat) (s : State) (h : MemOk s) : NextOk (execCopyPiece card row dst s) := by
  unfold execCopyPiece
  split
  · simpa using h
  · rename_i c _
    have hp := memOk_pieceBytes s card c row dst h
    split
    · simpa using h
    · split
      · rename_i e
        rw [e] at hp
        simpa using hp
      · rename_i bs s' e
        rw [e] at hp
        have hw := memOk_cardWriteSpans s' card [(dst, bs)] true hp
        repeat' split
        all_goals simp_all

@[simp] theorem nextOk_execSortJob (card : Nat) (s : State) (h : MemOk s) : NextOk (execSortJob card s) := by
  unfold execSortJob
  split
  · simpa using h
  · rename_i c _
    dsimp only
    have h2 := memOk_cardReadSpan (cardReadSpan s card 0 (bits c.body 63 0) (8 * sortN c.body)).2 card 0 (bits c.body 127 64) (4 * sortN c.body)
      (memOk_cardReadSpan s card 0 _ _ h)
    split
    · split
      · rename_i u e
        have hw : MemOk (true, u).2 := e ▸ memOk_cardWriteSpans _ _ _ _ h2
        simpa using hw
      · rename_i u e
        have hw : MemOk (false, u).2 := e ▸ memOk_cardWriteSpans _ _ _ _ h2
        exact (nextOk_next _).mpr hw
    · exact (nextOk_next _).mpr h2

@[simp] theorem nextOk_execGatherbindJob (card : Nat) (s : State) (h : MemOk s) : NextOk (execGatherbindJob card s) := by
  unfold execGatherbindJob
  dsimp only
  repeat' split
  all_goals simp [h]

@[simp] theorem nextOk_execUnbindJob (card : Nat) (s : State) (h : MemOk s) : NextOk (execUnbindJob card s) := by
  unfold execUnbindJob
  repeat' split
  all_goals simp [h]

@[simp] theorem memOk_collOperand (s : State) (card : Nat) (c : Card) (h : MemOk s) : MemOk (collOperand s card c).2 := by
  unfold collOperand
  split <;> simp [h]

@[simp] theorem memOk_sendStep (s : State) (card : Nat) (c : Card) (pkg at_ : Nat) (v : List Byte) : MemOk (sendStep s card c pkg at_ v) = MemOk s := by
  simp [sendStep]

@[simp] theorem memOk_present (s : State) (card : Nat) (c : Card) (v : List Byte) : MemOk (present s card c v) = MemOk s := by
  simp [present]

@[simp] theorem memOk_dropSteps (s : State) (c : Card) : MemOk (dropSteps s c) = MemOk s := by
  simp [dropSteps]

@[simp] theorem memOk_collEnd (s : State) (card : Nat) (c : Card) (own : Nat) (result lost : List Present → List (Nat × List Byte)) (h : MemOk s) :
    MemOk (collEnd s card c own result lost) := by
  unfold collEnd
  extract_lets ps others
  have hw := memOk_cardWriteSpans s card (result ps) false h
  have hl := memOk_cardWriteSpans (modCard s card fun c => { c with status := 5 }) card (lost ps) false (by simpa using h)
  repeat' split
  all_goals simp_all

@[simp] theorem memOk_collWork (s : State) (card : Nat) (c : Card) (result lost : List Present → List (Nat × List Byte)) (h : MemOk s) :
    MemOk (collWork s card c result lost) := by
  unfold collWork
  have ho := memOk_collOperand s card c h
  repeat' split
  all_goals simp_all

@[simp] theorem nextOk_execCollJob (card : Nat) (s : State) (h : MemOk s) : NextOk (execCollJob card s) := by
  unfold execCollJob
  split <;> simp [h]

@[simp] theorem nextOk_execOcompJob (card : Nat) (s : State) (h : MemOk s) : NextOk (execOcompJob card s) := by
  unfold execOcompJob
  split <;> simp [h]

@[simp] theorem memOk_finishCard (s : State) (card : Nat) (c : Card) : MemOk (finishCard s card c) = MemOk s := by
  unfold finishCard
  repeat' split
  all_goals simp

@[simp] theorem memOk_dropCard (s : State) (card : Nat) : MemOk (dropCard s card) = MemOk s := by
  simp [dropCard]

@[simp] theorem memOk_completionWord (s : State) (card : Nat) (c : Card) (h : MemOk s) : MemOk (completionWord s card c) := by
  unfold completionWord
  extract_lets va bs
  have hw := wrOk_agentWrite (settleAll s) (cardVia s c) (c.finish + 1) c.asid va bs false (memOk_settleAll s h)
  repeat' split
  all_goals simp_all

@[simp] theorem nextOk_execJobCompletion (card : Nat) (s : State) (h : MemOk s) : NextOk (execJobCompletion card s) := by
  unfold execJobCompletion
  repeat' split
  all_goals simp [h]

/-! Memory's form through Machine/Graph.lean. -/

@[simp] theorem memOk_modNode (s : State) (die n : Nat) (f : GNode → GNode) : MemOk (modNode s die n f) = MemOk s := by
  simp [modNode]

@[simp] theorem memOk_enterGraph (s : State) (die p queue index asid : Nat) (xs : List Nat) : MemOk (enterGraph s die p queue index asid xs) = MemOk s := by
  simp [enterGraph]

@[simp] theorem memOk_copyGraph (s : State) (slot e desc : Nat) (r : Reader) (x : Slot) (q : Queue) (h : MemOk s) : MemOk (copyGraph s slot e desc r x q) := by
  unfold copyGraph
  extract_lets die n va
  have hr := memOk_readArray 64 n va s r h
  split
  · simpa using h
  · split
    · rename_i he
      rw [he] at hr
      simpa using hr
    · rename_i he
      rw [he] at hr
      dsimp only
      repeat' split
      all_goals simp [hr]

@[simp] theorem memOk_startGraph (s : State) (slot e : Nat) (x : Slot) (q : Queue) (h : MemOk s) : MemOk (startGraph s slot e x q) := by
  unfold startGraph
  extract_lets va
  have hr := memOk_readArray 16 1 va s (slotReader x q) h
  split
  · simpa using h
  · split
    · rename_i he
      rw [he] at hr
      simpa using hr
    · rename_i he
      rw [he] at hr
      repeat' split
      all_goals simp [hr]

@[simp] theorem nextOk_execGraphStart (slot : Nat) (s : State) (h : MemOk s) : NextOk (execGraphStart slot s) := by
  unfold execGraphStart
  repeat' split
  all_goals simp [h]

@[simp] theorem memOk_endGraph (s : State) (g : Nat) : MemOk (endGraph s g) = MemOk s := by
  unfold endGraph
  repeat' split
  all_goals simp

@[simp] theorem memOk_failNode (s : State) (die n reason detail : Nat) : MemOk (failNode s die n reason detail) = MemOk s := by
  unfold failNode
  split <;> simp

@[simp] theorem memOk_walkerKeeps (s : State) (die : Nat) (a : Acc) (asid va : Nat) : MemOk (walkerKeeps s die a asid va) = MemOk s := by
  unfold walkerKeeps
  split <;> simp

@[simp] theorem memOk_nodeTook (s : State) (die n : Nat) (r : Reader) : MemOk (nodeTook s die n r) = MemOk s := by
  simp [nodeTook]

@[simp] theorem memOk_nodeLacks (s : State) (die n acc : Nat) (r : Reader) : MemOk (nodeLacks s die n acc r) = MemOk s := by
  simp [nodeLacks]

theorem memOk_nodeRun (s : State) (die n kind : Nat) {act : State → Graph → GNode → State} (ha : ∀ s g x, MemOk s → MemOk (act s g x)) (h : MemOk s) :
    MemOk (nodeRun s die n kind act) := by
  unfold nodeRun
  split
  · exact h
  · split
    · exact h
    · rename_i x _ _ _
      split
      · exact h
      · extract_lets s1
        have h1 : MemOk s1 := by
          unfold s1
          split <;> simpa using h
        repeat' split
        all_goals simp [h1, ha]

@[simp] theorem memOk_nodeDone (s : State) (die n : Nat) (choice : Bool) : MemOk (nodeDone s die n choice) = MemOk s := by
  simp [nodeDone]

theorem memOk_nodeLoad (s : State) (die node : Nat) (g : Graph) (x : GNode) (n : Nat) {act : State → Nat → State} (ha : ∀ s v, MemOk s → MemOk (act s v))
    (h : MemOk s) : MemOk (nodeLoad s die node g x n act) := by
  have hr := memOk_agentRead s (nodeReader s die g x) (nodeAddr x.bits) n h
  unfold nodeLoad
  repeat' split
  all_goals simp_all

@[simp] theorem nextOk_execKernelNode (die node : Nat) (s : State) (h : MemOk s) : NextOk (execKernelNode die node s) := by
  refine (nextOk_next _).mpr (memOk_nodeRun _ _ _ _ (fun s g x h => ?_) h)
  extract_lets ov prio
  have hl := launchedOk_launch s (nodeReader s die g x) (nodeAddr x.bits) ov prio g.queue (.node die node) 0 h
  split <;> simp_all

@[simp] theorem memOk_nodeCard (s : State) (die node : Nat) (g : Graph) (k : JobKind) (v : Nat) : MemOk (nodeCard s die node g k v) = MemOk s := by
  simp [nodeCard]

@[simp] theorem nextOk_execJobNode (die node : Nat) (s : State) (h : MemOk s) : NextOk (execJobNode die node s) := by
  refine (nextOk_next _).mpr (memOk_nodeRun _ _ _ _ (fun s g x h => ?_) h)
  split
  · exact h
  · simp [h]
  · exact memOk_nodeLoad _ _ _ _ _ _ (fun s v h => by simp [h]) h

@[simp] theorem nextOk_execCondNode (die node : Nat) (s : State) (h : MemOk s) : NextOk (execCondNode die node s) :=
  (nextOk_next _).mpr (memOk_nodeRun _ _ _ _ (fun _ _ _ h => memOk_nodeLoad _ _ _ _ _ _ (fun s v h => by simp [h]) h) h)

@[simp] theorem memOk_whileDone (s : State) (die node : Nat) (a : Ack) : MemOk (whileDone s die node a) = MemOk s := by
  simp [whileDone]

@[simp] theorem nextOk_execWhileNode (die node : Nat) (s : State) (h : MemOk s) : NextOk (execWhileNode die node s) := by
  refine (nextOk_next _).mpr (memOk_nodeRun _ _ _ _ (fun s g x h => ?_) h)
  dsimp only
  split
  · simp [h]
  · split
    · exact h
    · split
      · simp [h]
      · split
        · exact h
        · split
          · simp [h]
          · simp [h]
          · simp [h]
          · rename_i e
            have hp := memOk_agentPa e h
            split <;> simp [hp]

@[simp] theorem nextOk_execSignalNode (die node : Nat) (s : State) (h : MemOk s) : NextOk (execSignalNode die node s) := by
  refine (nextOk_next _).mpr (memOk_nodeRun _ _ _ _ (fun s g x h => ?_) h)
  extract_lets va bs
  have hw := wrOk_agentWrite s (nodeVia s die) (walkerPts s die) g.asid va bs false h
  split <;> simp_all

@[simp] theorem nextOk_execWaitNode (die node : Nat) (s : State) (h : MemOk s) : NextOk (execWaitNode die node s) := by
  refine (nextOk_next _).mpr (memOk_nodeRun _ _ _ _ (fun _ _ _ h => memOk_nodeLoad _ _ _ _ _ _ (fun s v h => ?_) h) h)
  split <;> simp [h]

@[simp] theorem memOk_arriveAt (s : State) (g i : Nat) : MemOk (arriveAt s g i) = MemOk s := by
  simp [arriveAt]

@[simp] theorem nextOk_execNodeComplete (die node : Nat) (s : State) (h : MemOk s) : NextOk (execNodeComplete die node s) := by
  unfold execNodeComplete
  dsimp only
  repeat' split
  all_goals simp [h]

@[simp] theorem memOk_dropGrid (s : State) (gi : Nat) : MemOk (dropGrid s gi) = MemOk s := by
  unfold dropGrid
  split <;> simp

@[simp] theorem memOk_gridDone (s : State) (gi : Nat) (g : Grid) (stamp : Nat) : MemOk (gridDone s gi g stamp) = MemOk s := by
  unfold gridDone
  split <;> simp

@[simp] theorem memOk_gridDenied (s : State) (gi : Nat) (g : Grid) (G reason : Nat) : MemOk (gridDenied s gi g G reason) = MemOk s := by
  unfold gridDenied
  split <;> simp

@[simp] theorem memOk_gridWrite (s : State) (gi : Nat) (g : Grid) (G : Nat) (h : MemOk s) : MemOk (gridWrite s gi g G) := by
  unfold gridWrite
  extract_lets va bs p via
  have hw := wrOk_agentWrite s via p g.asid va bs false h
  split
  case h_6 => repeat' split <;> simp [h]
  all_goals simp_all

@[simp] theorem nextOk_execGridCompletion (grid : Nat) (s : State) (h : MemOk s) : NextOk (execGridCompletion grid s) := by
  unfold execGridCompletion
  dsimp only
  repeat' split
  all_goals simp [h]

/-! Memory's form through Machine/Answers.lean. -/

@[simp] theorem memOk_threadGot (s : State) (k key : Nat) (id : Option Nat) (a : Ack) : MemOk (threadGot s k key id a) = MemOk s := by
  simp [threadGot]

@[simp] theorem memOk_nodeAnswered (s : State) (r : Request) (d n : Nat) (a : Ack) : MemOk (nodeAnswered s r d n a) = MemOk s := by
  simp [nodeAnswered]

@[simp] theorem memOk_answered (s : State) (r : Request) (a : Ack) : MemOk (answered s r a) = MemOk s := by
  unfold answered
  repeat' split
  all_goals simp

@[simp] theorem memOk_acceptIfWrite (s : State) (r : Request) : MemOk (acceptIfWrite s r) = MemOk s := by
  unfold acceptIfWrite
  repeat' split
  all_goals simp

@[simp] theorem memOk_chainExcluded (s : State) (k id : Nat) : MemOk (chainExcluded s k id) = MemOk s := by
  simp [chainExcluded]

@[simp] theorem memOk_chainAnswered (s : State) (k id : Nat) (f : Frame) : MemOk (chainAnswered s k id f) = MemOk s := by
  unfold chainAnswered
  repeat' split
  all_goals simp

@[simp] theorem memOk_setRequest (s : State) (tag : Nat) (r : Request) : MemOk (setRequest s tag r) = MemOk s := by
  simp [setRequest]

theorem memOk_takeAnswer (port : Nat) (f : Frame) (op : Nat) {act : State → Request → State} (ha : ∀ s r, MemOk s → MemOk (act s r)) {s : State} (h : MemOk s) :
    MemOk (takeAnswer port f op act s) := by
  unfold takeAnswer
  repeat' split
  all_goals simp [h, ha]

@[simp] theorem memOk_takeData (f : Frame) (s : State) (r : Request) : MemOk (takeData f s r) = MemOk s := by
  unfold takeData
  split <;> simp

@[simp] theorem nextOk_execKolozData (port : Nat) (f : Frame) (s : State) (h : MemOk s) : NextOk (execKolozData port f s) :=
  (nextOk_next _).mpr (memOk_takeAnswer _ _ _ (fun s r h => by simp [h]) h)

@[simp] theorem memOk_takeAck (f : Frame) (s : State) (r : Request) : MemOk (takeAck f s r) = MemOk s := by
  simp [takeAck]

@[simp] theorem nextOk_execKolozAck (port : Nat) (f : Frame) (s : State) (h : MemOk s) : NextOk (execKolozAck port f s) :=
  (nextOk_next _).mpr (memOk_takeAnswer _ _ _ (fun s r h => by simp [h]) h)

@[simp] theorem memOk_refuseOp (s : State) (r : Request) (k id addr : Nat) : MemOk (refuseOp s r k id addr) = MemOk s := by
  unfold refuseOp
  split
  · rfl
  · split
    · simp
    · simp only [memOk_faultOp]
      refine memOk_foldl_keeps (fun s p => ?_) _ _
      repeat' split
      all_goals simp

@[simp] theorem memOk_refusedTo (s : State) (r : Request) (addr : Nat) (h : MemOk s) : MemOk (refusedTo s r addr) := by
  unfold refusedTo
  repeat' split
  all_goals simp [h]

@[simp] theorem nextOk_execKolozRefused (port : Nat) (f : Frame) (s : State) (h : MemOk s) : NextOk (execKolozRefused port f s) := by
  refine (nextOk_next _).mpr (memOk_takeAnswer _ _ _ (fun s r h => ?_) h)
  split <;> simp [h]

@[simp] theorem memOk_giveUp (s : State) (e : Nat × Request) : MemOk (giveUp s e) = MemOk s := by
  unfold giveUp
  dsimp only
  repeat' split
  all_goals simp

@[simp] theorem memOk_losePackage (s : State) (pkg : Nat) : MemOk (losePackage s pkg) = MemOk s := by
  simp [losePackage]

@[simp] theorem memOk_resend (s : State) (tag : Nat) (r : Request) (port : Option Nat) : MemOk (resend s tag r port) = MemOk s := by
  simp [resend]

@[simp] theorem nextOk_execRetransmitTimeout (tag : Nat) (s : State) (h : MemOk s) : NextOk (execRetransmitTimeout tag s) := by
  unfold execRetransmitTimeout
  repeat' split
  all_goals simp [h]

@[simp] theorem memOk_moveFlows (s : State) (port : Nat) : MemOk (moveFlows s port) = MemOk s := by
  simp [moveFlows]

@[simp] theorem nextOk_execPortFailure (port : Nat) (s : State) (h : MemOk s) : NextOk (execPortFailure port s) := by
  unfold execPortFailure
  split <;> simp [h]

/-! Memory's form through Machine/Global.lean. -/

@[simp] theorem nextOk_loadWord (f : LoadForm) (pg : PredIx) (d a : Reg) (imm : BitVec 7) (s : State) (h : MemOk s) : NextOk (loadWord f pg d a imm s) := by
  unfold loadWord
  exact nextOk_globalWord _ _ _ _ (fun c wid s k t va l h => by simp [h]) h

@[simp] theorem nextOk_storeWord (n r : Nat) (pg : PredIx) (d a : Reg) (imm : BitVec 7) (s : State) (h : MemOk s) : NextOk (storeWord n r pg d a imm s) := by
  unfold storeWord
  exact nextOk_globalWord _ _ _ _ (fun c wid s k t va l h => by simp [h]) h

@[simp] theorem nextOk_execLdN8 (pg : PredIx) (d a : Reg) (imm : BitVec 7) (s : State) (h : MemOk s) : NextOk (execLdN8 pg d a imm s) := by
  simp [execLdN8, h]

@[simp] theorem nextOk_execLdI8 (pg : PredIx) (d a : Reg) (imm : BitVec 7) (s : State) (h : MemOk s) : NextOk (execLdI8 pg d a imm s) := by
  simp [execLdI8, h]

@[simp] theorem nextOk_execLdN16 (pg : PredIx) (d a : Reg) (imm : BitVec 7) (s : State) (h : MemOk s) : NextOk (execLdN16 pg d a imm s) := by
  simp [execLdN16, h]

@[simp] theorem nextOk_execLdI16 (pg : PredIx) (d a : Reg) (imm : BitVec 7) (s : State) (h : MemOk s) : NextOk (execLdI16 pg d a imm s) := by
  simp [execLdI16, h]

@[simp] theorem nextOk_execLd32 (pg : PredIx) (d a : Reg) (imm : BitVec 7) (s : State) (h : MemOk s) : NextOk (execLd32 pg d a imm s) := by
  simp [execLd32, h]

@[simp] theorem nextOk_execLd64 (pg : PredIx) (d a : Reg) (imm : BitVec 7) (s : State) (h : MemOk s) : NextOk (execLd64 pg d a imm s) := by
  simp [execLd64, h]

@[simp] theorem nextOk_execLd128 (pg : PredIx) (d a : Reg) (imm : BitVec 7) (s : State) (h : MemOk s) : NextOk (execLd128 pg d a imm s) := by
  simp [execLd128, h]

@[simp] theorem nextOk_execSt8 (pg : PredIx) (d a : Reg) (imm : BitVec 7) (s : State) (h : MemOk s) : NextOk (execSt8 pg d a imm s) := by
  simp [execSt8, h]

@[simp] theorem nextOk_execSt16 (pg : PredIx) (d a : Reg) (imm : BitVec 7) (s : State) (h : MemOk s) : NextOk (execSt16 pg d a imm s) := by
  simp [execSt16, h]

@[simp] theorem nextOk_execSt32 (pg : PredIx) (d a : Reg) (imm : BitVec 7) (s : State) (h : MemOk s) : NextOk (execSt32 pg d a imm s) := by
  simp [execSt32, h]

@[simp] theorem nextOk_execSt64 (pg : PredIx) (d a : Reg) (imm : BitVec 7) (s : State) (h : MemOk s) : NextOk (execSt64 pg d a imm s) := by
  simp [execSt64, h]

@[simp] theorem nextOk_execSt128 (pg : PredIx) (d a : Reg) (imm : BitVec 7) (s : State) (h : MemOk s) : NextOk (execSt128 pg d a imm s) := by
  simp [execSt128, h]

@[simp] theorem nextOk_rmwWord (w : WordSpec) (r : Nat) (d a b : Reg) (f : Thread → Rmw) (s : State) (h : MemOk s) : NextOk (rmwWord w r d a b f s) := by
  unfold rmwWord
  exact nextOk_globalWord _ _ _ _ (fun c wid s k t va l h => by simp [h]) h

@[simp] theorem nextOk_execAtom (m : AtomOp) (d a b : Reg) (s : State) (h : MemOk s) : NextOk (execAtom m d a b s) := by
  simp [execAtom, h]

@[simp] theorem nextOk_execAtom64 (m : Atom64Op) (d a b : Reg) (s : State) (h : MemOk s) : NextOk (execAtom64 m d a b s) := by
  simp [execAtom64, h]

@[simp] theorem nextOk_execAtomf (m : AtomfOp) (d a b : Reg) (s : State) (h : MemOk s) : NextOk (execAtomf m d a b s) := by
  simp [execAtomf, h]

@[simp] theorem nextOk_execCas (m : CasWidth) (d a b : Reg) (s : State) (h : MemOk s) : NextOk (execCas m d a b s) := by
  unfold execCas
  split <;> simp [h]

@[simp] theorem nextOk_execRadd (m : RaddKind) (a b : Reg) (s : State) (h : MemOk s) : NextOk (execRadd m a b s) := by
  unfold execRadd
  exact nextOk_globalWord _ _ _ _ (fun c wid s k t va l h => by simp [h]) h

@[simp] theorem nextOk_execRflush (m : RflushScope) (s : State) (h : MemOk s) : NextOk (execRflush m s) := by
  unfold execRflush
  exact nextOk_issueWord _ (fun c s k t h => by simp [h]) h

/-! Memory's form through Machine/Group.lean. -/

@[simp] theorem nextOk_execShfl (m : ShflMode) (d a b : Reg) (s : State) (h : MemOk s) : NextOk (execShfl m d a b s) := by
  simp [execShfl, h]

@[simp] theorem nextOk_execGpoll (m : GpollMode) (d a : Reg) (s : State) (h : MemOk s) : NextOk (execGpoll m d a s) := by
  simp [execGpoll, h]

@[simp] theorem nextOk_execIred (m : IredOp) (d a : Reg) (s : State) (h : MemOk s) : NextOk (execIred m d a s) := by
  simp [execIred, h]

@[simp] theorem nextOk_execFred (m : FredOp) (d a : Reg) (s : State) (h : MemOk s) : NextOk (execFred m d a s) := by
  simp [execFred, h]

@[simp] theorem nextOk_execIscan (excl : Bool) (m : IscanOp) (d a : Reg) (s : State) (h : MemOk s) : NextOk (execIscan excl m d a s) := by
  simp [execIscan, h]

@[simp] theorem nextOk_execFscan (excl : Bool) (m : FscanOp) (d a : Reg) (s : State) (h : MemOk s) : NextOk (execFscan excl m d a s) := by
  simp [execFscan, h]

@[simp] theorem nextOk_execPeers (d a : Reg) (s : State) (h : MemOk s) : NextOk (execPeers d a s) := by
  simp [execPeers, h]

@[simp] theorem nextOk_execBcast (d a b : Reg) (s : State) (h : MemOk s) : NextOk (execBcast d a b s) := by
  simp [execBcast, h]

@[simp] theorem nextOk_execLeader (d : Reg) (s : State) (h : MemOk s) : NextOk (execLeader d s) := by
  simp [execLeader, h]

@[simp] theorem nextOk_execDdx (m : DdxMode) (d a : Reg) (s : State) (h : MemOk s) : NextOk (execDdx m d a s) := by
  simp [execDdx, h]

@[simp] theorem nextOk_execCompact (m : CompactW) (d a b : Reg) (s : State) (h : MemOk s) : NextOk (execCompact m d a b s) := by
  simp [execCompact, h]

@[simp] theorem nextOk_execGjoin (s : State) (h : MemOk s) : NextOk (execGjoin s) := by
  unfold execGjoin
  exact nextOk_issueThen _ (fun c s k t h => by simp [h]) (fun s k h => by simp [h]) h

/-! Memory's form through Machine/Matrix.lean. -/

@[simp] theorem nextOk_execMma (k : BitVec 3) (d a b : Reg) (s : State) (h : MemOk s) : NextOk (execMma k d a b s) := by
  simp [execMma, h]

@[simp] theorem nextOk_execMmaU (k : BitVec 3) (d a b : Reg) (s : State) (h : MemOk s) : NextOk (execMmaU k d a b s) := by
  simp [execMmaU, h]

@[simp] theorem nextOk_execMmaSp (k : BitVec 3) (d a b : Reg) (s : State) (h : MemOk s) : NextOk (execMmaSp k d a b s) := by
  simp [execMmaSp, h]

@[simp] theorem nextOk_execMmaSpU (k : BitVec 3) (d a b : Reg) (s : State) (h : MemOk s) : NextOk (execMmaSpU k d a b s) := by
  simp [execMmaSpU, h]

@[simp] theorem nextOk_execCmprs (k : BitVec 3) (d a : Reg) (s : State) (h : MemOk s) : NextOk (execCmprs k d a s) := by
  simp [execCmprs, h]

@[simp] theorem nextOk_execMatrixOperation (id : Nat) (s : State) (h : MemOk s) : NextOk (execMatrixOperation id s) := by
  unfold execMatrixOperation
  repeat' split
  all_goals simp [h]

/-! Memory's form through Machine/Sysop.lean. -/

/-- An operation of a SYSOP keeps memory's form. -/
def SysOk (f : State → Nat → Args → Nat × State) : Prop := ∀ s k x, MemOk s → MemOk (f s k x).2

theorem laneOk_sysLane (a d : Reg) {f : State → Nat → Args → Nat × State} (hf : SysOk f) (s : State) (k : Nat) (t : Thread) (h : MemOk s) :
    LaneOk (sysLane a d f s k t) := by
  unfold sysLane
  split
  · simp
  · simpa using hf _ k _ (by simp [h])

theorem nextOk_sysWord (a d : Reg) {f : State → Nat → Args → Nat × State} (hf : SysOk f) {s : State} (h : MemOk s) : NextOk (sysWord a d f s) :=
  nextOk_issueWord _ (fun _ => laneOk_sysLane a d hf) h

theorem nextOk_sysGo (w : WordSpec) (a d : Reg) (waits : State → Args → Bool) {f : State → Nat → Args → Nat × State} (hf : SysOk f) {s : State} (h : MemOk s) :
    NextOk (sysGo w a d waits f s) :=
  nextOk_issueGo _ (fun _ _ _ h => memOk_ite h (memOk_laneLoop (memOk_laneStep _ _ (laneOk_sysLane a d hf)) h)) h

theorem nextOk_sysWordOrd (a d : Reg) (waits : State → Args → Bool) {f : State → Nat → Args → Nat × State} (hf : SysOk f) {s : State} (h : MemOk s) :
    NextOk (sysWordOrd a d waits f s) := nextOk_sysGo _ a d waits hf h

@[simp] theorem memOk_sysopDone (s : State) (k id status p : Nat) : MemOk (sysopDone s k id status p) = MemOk s := by
  simp [sysopDone]

theorem nextOk_sysPend (a d : Reg) {f : State → Nat → Args → (Nat ⊕ OpKind) × State} (hf : ∀ s k x, MemOk s → MemOk (f s k x).2) {s : State} (h : MemOk s) :
    NextOk (sysPend a d f s) := by
  refine nextOk_issueWord _ (fun c s k t h => ?_) h
  split
  · simp
  · have hk := hf (setThread (fresh s).2 k t) k (argsOf t a) (by simp [h])
    dsimp only
    split <;> simp [hk]

@[simp] theorem memOk_thrclr (s : State) (i : Nat) (x : Args) (h : MemOk s) : MemOk (thrclr s i x).2 := by
  unfold thrclr
  split <;> simp [h]

@[simp] theorem nextOk_execThrclr (a d : Reg) (s : State) (h : MemOk s) : NextOk (execThrclr a d s) := by
  unfold execThrclr
  exact nextOk_sysWord _ _ (fun s k x h => by simp [h]) h

@[simp] theorem memOk_dropWaiters (s : State) (p : Nat → Bool) : MemOk (dropWaiters s p) = MemOk s := by
  simp [dropWaiters]

@[simp] theorem memOk_endParked (s : State) (k : Nat) (t : Thread) : MemOk (endParked s k t) = MemOk s := by
  simp [endParked]

@[simp] theorem memOk_threadCtl (s : State) (i : Nat) (x : Args) (h : MemOk s) : MemOk (threadCtl s i x).2 := by
  unfold threadCtl
  dsimp only
  repeat' split
  all_goals simp [h]

@[simp] theorem nextOk_execThread (a d : Reg) (s : State) (h : MemOk s) : NextOk (execThread a d s) := by
  unfold execThread
  exact nextOk_sysWord _ _ (fun s k x h => by simp [h]) h

@[simp] theorem memOk_endTeam (s : State) (team : Nat) : MemOk (endTeam s team) = MemOk s := by
  simp [endTeam]

@[simp] theorem memOk_dropSaved (s : State) (gi : Nat) : MemOk (dropSaved s gi) = MemOk s := by
  simp [dropSaved]

@[simp] theorem memOk_endGrid (s : State) (gi : Nat) : MemOk (endGrid s gi) = MemOk s := by
  simp [endGrid]

@[simp] theorem memOk_gridEnd (s : State) (i : Nat) (x : Args) (h : MemOk s) : MemOk (gridEnd s i x).2 := by
  unfold gridEnd
  repeat' split
  all_goals simp [h]

@[simp] theorem nextOk_execGridend (a d : Reg) (s : State) (h : MemOk s) : NextOk (execGridend a d s) := by
  unfold execGridend
  exact nextOk_sysWord _ _ (fun s k x h => by simp [h]) h

@[simp] theorem memOk_coreTableError (s : State) (core : Nat) : MemOk (coreTableError s core) = MemOk s := by
  simp [coreTableError]

@[simp] theorem nextOk_execAgemax (a d : Reg) (s : State) (h : MemOk s) : NextOk (execAgemax a d s) := by
  unfold execAgemax
  refine nextOk_sysWord _ _ (fun s k x h => ?_) h
  split <;> simp [h]

@[simp] theorem nextOk_execLaurelsz (a d : Reg) (s : State) (h : MemOk s) : NextOk (execLaurelsz a d s) := by
  unfold execLaurelsz
  refine nextOk_sysWord _ _ (fun s k x h => ?_) h
  split <;> simp [h]

@[simp] theorem nextOk_execMigth (a d : Reg) (s : State) (h : MemOk s) : NextOk (execMigth a d s) := by
  unfold execMigth
  refine nextOk_sysWord _ _ (fun s k x h => ?_) h
  split <;> simp [h]

@[simp] theorem memOk_frameAdd (s : State) (i : Nat) (x : Args) (h : MemOk s) : MemOk (frameAdd s i x).2 := by
  unfold frameAdd
  dsimp only
  repeat' split
  all_goals simp [h]

@[simp] theorem nextOk_execFrameadd (a d : Reg) (s : State) (h : MemOk s) : NextOk (execFrameadd a d s) := by
  unfold execFrameadd
  exact nextOk_sysWord _ _ (fun s k x h => by simp [h]) h

@[simp] theorem memOk_migrateNow (s : State) (asid va dest : Nat) (h : MemOk s) : MemOk (migrateNow s asid va dest).2 := by
  unfold migrateNow
  split
  · rename_i l _
    have hl := migAskOk_lockPage s asid (pageStart va l.size) (homeDie l.frame) dest l .supervisor h
    dsimp only
    repeat' split
    all_goals simp_all
  · exact h

@[simp] theorem memOk_migrateReq (s : State) (i : Nat) (x : Args) (h : MemOk s) : MemOk (migrateReq s i x).2 := by
  unfold migrateReq
  dsimp only
  repeat' split
  all_goals simp [h]

@[simp] theorem nextOk_execMigrate (a d : Reg) (s : State) (h : MemOk s) : NextOk (execMigrate a d s) := by
  unfold execMigrate
  exact nextOk_sysPend _ _ (fun s k x h => by simp [h]) h

@[simp] theorem nextOk_execRoot (a d : Reg) (s : State) (h : MemOk s) : NextOk (execRoot a d s) := by
  unfold execRoot
  refine nextOk_sysWord _ _ (fun s k x h => ?_) h
  dsimp only
  split <;> simp [h]

@[simp] theorem memOk_dropScope (s : State) (scope asid va size : Nat) : MemOk (dropScope s scope asid va size) = MemOk s := by
  simp [dropScope]

@[simp] theorem memOk_invalReq (s : State) (i : Nat) (x : Args) (h : MemOk s) : MemOk (invalReq s i x).2 := by
  unfold invalReq
  dsimp only
  repeat' split
  all_goals simp [h]

@[simp] theorem nextOk_execInval (a d : Reg) (s : State) (h : MemOk s) : NextOk (execInval a d s) := by
  unfold execInval
  exact nextOk_sysPend _ _ (fun s k x h => by simp [h]) h

@[simp] theorem memOk_runSysop (s : State) (k id : Nat) (h : MemOk s) : MemOk (runSysop s k id) := by
  unfold runSysop
  dsimp only
  repeat' split
  all_goals simp [h]

@[simp] theorem memOk_replayReq (s : State) (i : Nat) (x : Args) (h : MemOk s) : MemOk (replayReq s i x).2 := by
  unfold replayReq
  dsimp only
  repeat' split
  all_goals simp [h]

@[simp] theorem nextOk_execReplay (a d : Reg) (s : State) (h : MemOk s) : NextOk (execReplay a d s) := by
  unfold execReplay
  exact nextOk_sysWord _ _ (fun s k x h => by simp [h]) h

@[simp] theorem memOk_ringSet (s : State) (i : Nat) (x : Args) (h : MemOk s) : MemOk (ringSet s i x).2 := by
  unfold ringSet
  dsimp only
  repeat' split
  all_goals simp [h]

@[simp] theorem nextOk_execRingset (a d : Reg) (s : State) (h : MemOk s) : NextOk (execRingset a d s) := by
  unfold execRingset
  exact nextOk_sysWord _ _ (fun s k x h => by simp [h]) h

@[simp] theorem memOk_destroyQueue (s : State) (n : Nat) : MemOk (destroyQueue s n) = MemOk s := by
  simp [destroyQueue]

@[simp] theorem memOk_queueReq (s : State) (i : Nat) (x : Args) (h : MemOk s) : MemOk (queueReq s i x).2 := by
  unfold queueReq
  dsimp only
  repeat' split
  all_goals simp [h]

@[simp] theorem nextOk_execQueue (a d : Reg) (s : State) (h : MemOk s) : NextOk (execQueue a d s) := by
  unfold execQueue
  exact nextOk_sysWord _ _ (fun s k x h => by simp [h]) h

@[simp] theorem memOk_rereadBell (s : State) (n : Nat) (h : MemOk s) : MemOk (rereadBell s n) := by
  unfold rereadBell
  split
  · exact h
  · rename_i q _
    have hr := memOk_plainRead s { via := baseVia, asid := q.asid, p := q.bell } q.ctl 8 h
    repeat' split
    all_goals simp_all

@[simp] theorem memOk_releaseQueue (s : State) (n mode : Nat) (h : MemOk s) : MemOk (releaseQueue s n mode).2 := by
  unfold releaseQueue
  repeat' split
  all_goals simp [h]

@[simp] theorem memOk_releaseStream (s : State) (inst asid mode : Nat) : MemOk (releaseStream s inst asid mode).2 = MemOk s := by
  unfold releaseStream
  dsimp only
  split <;> simp

@[simp] theorem memOk_releasePeer (s : State) (pkg mode : Nat) : MemOk (releasePeer s pkg mode).2 = MemOk s := by
  unfold releasePeer
  dsimp only
  repeat' split
  all_goals simp

@[simp] theorem memOk_releaseReq (s : State) (i : Nat) (x : Args) (h : MemOk s) : MemOk (releaseReq s i x).2 := by
  unfold releaseReq
  dsimp only
  repeat' split
  all_goals simp [h]

@[simp] theorem nextOk_execRelease (a d : Reg) (s : State) (h : MemOk s) : NextOk (execRelease a d s) :=
  nextOk_sysGo _ a d _ (fun s k x h => by simp [h]) h

@[simp] theorem memOk_qpOpen (s : State) (i : Nat) (x : Args) (h : MemOk s) : MemOk (qpOpen s i x).2 := by
  unfold qpOpen
  dsimp only
  repeat' split
  all_goals simp [h]

@[simp] theorem nextOk_execQpopen (a d : Reg) (s : State) (h : MemOk s) : NextOk (execQpopen a d s) := by
  unfold execQpopen
  exact nextOk_sysWord _ _ (fun s k x h => by simp [h]) h

@[simp] theorem memOk_cgroup (s : State) (k : Nat) (x : Args) (h : MemOk s) : MemOk (cgroup s k x).2 := by
  unfold cgroup
  dsimp only
  repeat' split
  all_goals simp [h]

@[simp] theorem nextOk_execCgroup (a d : Reg) (s : State) (h : MemOk s) : NextOk (execCgroup a d s) := by
  unfold execCgroup
  exact nextOk_sysWordOrd _ _ _ (fun s k x h => by simp [h]) h

@[simp] theorem nextOk_execPkgset (a d : Reg) (s : State) (h : MemOk s) : NextOk (execPkgset a d s) := by
  unfold execPkgset
  refine nextOk_sysWord _ _ (fun s k x h => ?_) h
  split <;> simp [h]

@[simp] theorem memOk_exportReq (s : State) (i : Nat) (x : Args) (h : MemOk s) : MemOk (exportReq s i x).2 := by
  unfold exportReq
  dsimp only
  split <;> simp [h]

@[simp] theorem nextOk_execExportPage (a d : Reg) (s : State) (h : MemOk s) : NextOk (execExportPage a d s) := by
  unfold execExportPage
  exact nextOk_sysWord _ _ (fun s k x h => by simp [h]) h

@[simp] theorem memOk_flashMap (s : State) : MemOk (flashMap s) = MemOk s := by
  simp [flashMap]

@[simp] theorem memOk_retireReq (s : State) (i : Nat) (x : Args) (h : MemOk s) : MemOk (retireReq s i x).2 := by
  unfold retireReq
  dsimp only
  repeat' split
  all_goals simp [h]

@[simp] theorem nextOk_execRetire (a d : Reg) (s : State) (h : MemOk s) : NextOk (execRetire a d s) := by
  unfold execRetire
  exact nextOk_sysWord _ _ (fun s k x h => by simp [h]) h

@[simp] theorem nextOk_execDbgmatch (a d : Reg) (s : State) (h : MemOk s) : NextOk (execDbgmatch a d s) := by
  unfold execDbgmatch
  exact nextOk_sysWord _ _ (fun s k x h => by simp [h]) h

@[simp] theorem nextOk_execTeamstop (a d : Reg) (s : State) (h : MemOk s) : NextOk (execTeamstop a d s) := by
  unfold execTeamstop
  refine nextOk_sysWord _ _ (fun s k x h => ?_) h
  dsimp only
  split <;> simp [h]

@[simp] theorem memOk_debugContinue (s : State) (t : Thread) : MemOk (debugContinue s t) = MemOk s := by
  simp [debugContinue]

@[simp] theorem memOk_debugStep (s : State) (k : Nat) (t : Thread) : MemOk (debugStep s k t) = MemOk s := by
  simp [debugStep]

@[simp] theorem memOk_debugDo (s : State) (k req : Nat) : MemOk (debugDo s k req).2 = MemOk s := by
  unfold debugDo
  dsimp only
  repeat' split
  all_goals simp

@[simp] theorem memOk_debugReq (s : State) (i : Nat) (x : Args) (h : MemOk s) : MemOk (debugReq s i x).2 := by
  unfold debugReq
  dsimp only
  repeat' split
  all_goals simp [h]

@[simp] theorem nextOk_execDebug (a d : Reg) (s : State) (h : MemOk s) : NextOk (execDebug a d s) := by
  unfold execDebug
  exact nextOk_sysWord _ _ (fun s k x h => by simp [h]) h

@[simp] theorem memOk_boxread (s : State) (k : Nat) (x : Args) (h : MemOk s) : MemOk (boxread s k x).2 := by
  unfold boxread
  dsimp only
  split <;> simp [h]

@[simp] theorem nextOk_execBoxread (a d : Reg) (s : State) (h : MemOk s) : NextOk (execBoxread a d s) := by
  unfold execBoxread
  exact nextOk_sysWordOrd _ _ _ (fun s k x h => by simp [h]) h

/-! Memory's form through Machine/Preempt.lean. -/

theorem laneOk_ite {c : Prop} [Decidable c] {a b : LaneOut} (ha : LaneOk a) (hb : LaneOk b) : LaneOk (if c then a else b) := by
  split <;> assumption

@[simp] theorem nextOk_execPreempt (a d : Reg) (s : State) (h : MemOk s) : NextOk (execPreempt a d s) := by
  unfold execPreempt
  refine nextOk_issueWord _ (fun c s k t h => ?_) h
  refine laneOk_ite trivial ?_
  extract_lets x base cores n
  clear_value x base cores n
  split
  rename_i id u e
  have hu : MemOk (id, u).2 := e ▸ (memOk_fresh (setThread s k t)).mpr (by simpa using h)
  extract_lets status o ex
  have hs : ∀ y, LaneOk (status y) := fun y => by simpa [status] using hu
  exact laneOk_ite (hs _) (laneOk_ite (hs _) (laneOk_ite (hs _) ((memOk_issueOp u k t o).mpr hu)))

@[simp] theorem memOk_discardFills (s : State) (cores : List Nat) : MemOk (discardFills s cores) = MemOk s := by
  simp [discardFills]

@[simp] theorem memOk_emptyCores (s : State) (x : SavedSet) : MemOk (emptyCores s x) = MemOk s := by
  simp [emptyCores]

@[simp] theorem memOk_writeAreas (b : State) (x : SavedSet) (regs : Nat → Nat) (cs : List Nat) (i p : Nat) (s : State) (h : MemOk s) :
    MemOk (writeAreas b x regs cs i p s).2 := by
  induction cs generalizing i p s with
  | nil => exact h
  | cons c cs ih => exact ih _ _ _ ((memOk_post _ _ _ _ _ _).mpr (memOk_writeSpanAt s p _ _ false h))

@[simp] theorem memOk_writeStatus (s : State) (k id status p : Nat) (h : MemOk s) : MemOk (writeStatus s k id status p) := by
  unfold writeStatus
  split
  · exact h
  · split
    · exact h
    · exact memOk_foldl h fun s y h => memOk_writeSpanAt s p _ _ false h

@[simp] theorem nextOk_execPreemptComplete (base : Nat) (s : State) (h : MemOk s) : NextOk (execPreemptComplete base s) := by
  unfold execPreemptComplete
  split
  · simpa using h
  · split
    · simpa using h
    · simp only [nextOk_next, memOk_sysopDone]
      exact memOk_writeStatus _ _ _ _ _ (memOk_writeAreas _ _ _ _ _ _ _ (by simpa using h))

@[simp] theorem memOk_restoreCore (x : SavedSet) (m : List (Nat × Nat)) (s : State) (f : Nat × Nat) : MemOk (restoreCore x m s f) = MemOk s := by
  simp [restoreCore]

@[simp] theorem memOk_recheckAll (s : State) (ks : List Nat) : MemOk (recheckAll s ks) = MemOk s := by
  refine memOk_foldl_keeps (fun s k => ?_) _ s
  split <;> simp

@[simp] theorem memOk_putBack (s : State) (x : SavedSet) (m : List (Nat × Nat)) (ts : List (Nat × Thread)) (tiles : List (Nat × Tab Tile)) (h : MemOk s) : MemOk (putBack s x m ts tiles) := by
  simp [putBack, h]

@[simp] theorem memOk_restoreReq (s : State) (i : Nat) (a : Args) (h : MemOk s) : MemOk (restoreReq s i a).2 := by
  unfold restoreReq
  repeat' split
  all_goals simp [h]

@[simp] theorem nextOk_execRestore (a d : Reg) (s : State) (h : MemOk s) : NextOk (execRestore a d s) := by
  unfold execRestore
  exact nextOk_sysWord _ _ (fun s k x h => by simp [h]) h

/-! Memory's form through Machine/Module.lean. -/

@[simp] theorem memOk_privetOne (ch : Nat) (s : State) (x : Nat × Nat) : MemOk (privetOne ch s x) = MemOk s := by
  unfold privetOne
  dsimp only
  split <;> simp

@[simp] theorem nextOk_execPrivetSlot (recs : List (Nat × Nat)) (s : State) (h : MemOk s) : NextOk (execPrivetSlot recs s) := by
  unfold execPrivetSlot
  repeat' split
  all_goals simp [h]

@[simp] theorem memOk_softError (s : State) (memory : Nat) : MemOk (softError s memory) = MemOk s := by
  simp [softError]

@[simp] theorem nextOk_execScrubSlot (line : Nat) (result : ScrubResult) (s : State) (h : MemOk s) : NextOk (execScrubSlot line result s) := by
  unfold execScrubSlot
  dsimp only
  repeat' split
  all_goals simp [h]

@[simp] theorem memOk_refreshed (s : State) (ch : Nat) : MemOk (refreshed s ch) = MemOk s := by
  simp [refreshed]

@[simp] theorem nextOk_execRefreshSlot (channel : Nat) (s : State) (h : MemOk s) : NextOk (execRefreshSlot channel s) := by
  unfold execRefreshSlot
  split <;> simp [h]

@[simp] theorem nextOk_execPerBankRefresh (channel : Nat) (s : State) (h : MemOk s) : NextOk (execPerBankRefresh channel s) := by
  unfold execPerBankRefresh
  split <;> simp [h]

@[simp] theorem nextOk_execTelemetrySlot (channel temp errors : Nat) (s : State) (h : MemOk s) : NextOk (execTelemetrySlot channel temp errors s) := by
  unfold execTelemetrySlot
  split <;> simp [h]

@[simp] theorem nextOk_execCycleCounter (s : State) (h : MemOk s) : NextOk (execCycleCounter s) := by
  simp [execCycleCounter, h]

@[simp] theorem nextOk_execCounterSample (s : State) (h : MemOk s) : NextOk (execCounterSample s) := by
  simp [execCounterSample, h]

@[simp] theorem nextOk_execPriorityFlowControl (port prio quanta : Nat) (s : State) (h : MemOk s) : NextOk (execPriorityFlowControl port prio quanta s) := by
  unfold execPriorityFlowControl
  split <;> simp [h]

@[simp] theorem memOk_setAlarm (s : State) (on : Bool) : MemOk (setAlarm s on) = MemOk s := by
  simp [setAlarm]

@[simp] theorem nextOk_execPowerAlarm (moduleW packageW junction : Nat) (s : State) (h : MemOk s) : NextOk (execPowerAlarm moduleW packageW junction s) := by
  unfold execPowerAlarm
  dsimp only
  repeat' split
  all_goals simp [h]

@[simp] theorem nextOk_execPowerAlarmClear (moduleW packageW junction : Nat) (s : State) (h : MemOk s) : NextOk (execPowerAlarmClear moduleW packageW junction s) := by
  unfold execPowerAlarmClear
  repeat' split
  all_goals simp [h]

theorem hostMem_wf {s : State} (h : MemOk s) : Memory.wf (hostMem s) = true := filter_wf h _

@[simp] theorem memOk_darkState (s : State) (p : Power) (h : MemOk s) : MemOk (darkState s p) := hostMem_wf h

@[simp] theorem nextOk_execTrip (cause reading : Nat) (s : State) (h : MemOk s) : NextOk (execTrip cause reading s) := by
  unfold execTrip
  split <;> simp [h]

@[simp] theorem nextOk_execPowerOn (s : State) (h : MemOk s) : NextOk (execPowerOn s) := by
  simp [execPowerOn, h]

@[simp] theorem memOk_booted (s r : State) (image : Option Nat) (badCores downPorts : List Nat) : MemOk (booted s r image badCores downPorts) = MemOk r := by
  simp [booted]

@[simp] theorem memOk_postDown (s : State) : MemOk (postDown s) = MemOk s := by
  simp [postDown]

@[simp] theorem memOk_coldState (s : State) (image : Option Nat) (badCores downPorts : List Nat) (h : MemOk s) :
    MemOk (coldState s image badCores downPorts) := hostMem_wf h

@[simp] theorem nextOk_execColdReset (badCores downPorts : List Nat) (s : State) (h : MemOk s) : NextOk (execColdReset badCores downPorts s) := by
  unfold execColdReset
  repeat' split
  all_goals simp [h]

theorem warmMem_wf {s : State} (h : MemOk s) : Memory.wf (warmMem s) = true := by
  refine List.foldlRecOn (motive := fun m => Memory.wf m = true) _ _ h fun m hm e _ => ?_
  split
  · split
    · exact mwrite_wf _ hm _
    · exact hm
  · exact hm

@[simp] theorem memOk_warmKept (s : State) (h : MemOk s) : MemOk (warmKept s) := warmMem_wf h

@[simp] theorem memOk_warmState (s : State) (image : Nat) (badCores downPorts : List Nat) (h : MemOk s) : MemOk (warmState s image badCores downPorts) := by
  simp [warmState, h]

@[simp] theorem nextOk_execWarmReset (s : State) (h : MemOk s) : NextOk (execWarmReset s) := by
  unfold execWarmReset
  repeat' split
  all_goals simp [h]

@[simp] theorem nextOk_execRedfishReset (cold : Bool) (s : State) (h : MemOk s) : NextOk (execRedfishReset cold s) := by
  unfold execRedfishReset
  split <;> simp [h]

@[simp] theorem nextOk_execRedfishUpdate (slot version : Nat) (crcOk : Bool) (retired : List Nat) (s : State) (h : MemOk s) : NextOk (execRedfishUpdate slot version crcOk retired s) := by
  unfold execRedfishUpdate
  repeat' split
  all_goals simp [h]

@[simp] theorem nextOk_execRedfishRead (r : RedfishGet) (s : State) (h : MemOk s) : NextOk (execRedfishRead r s) := by
  simp [execRedfishRead, h]

@[simp] theorem nextOk_evictLine (s : State) (line : Nat) (h : MemOk s) : NextOk (evictLine s line) := by
  unfold evictLine
  dsimp only
  repeat' split
  all_goals simp [h]

@[simp] theorem memOk_registerError (s : State) (k r : Nat) : MemOk (registerError s k r) = MemOk s := by
  simp [registerError]

@[simp] theorem memOk_stashError (s : State) (team off : Nat) : MemOk (stashError s team off) = MemOk s := by
  simp [stashError]

@[simp] theorem memOk_lineError (s : State) (line : Nat) : MemOk (lineError s line) = MemOk s := by
  simp [lineError]

@[simp] theorem memOk_sendDue (s : State) : MemOk (sendDue s) = MemOk s := by
  simp [sendDue]

/-! Memory's form through Machine/Dispatch.lean. -/

@[simp] theorem nextOk_exec (i : Instr) (s : State) (h : MemOk s) : NextOk (exec i s) := by
  unfold exec
  split <;> simp [h]

/-! Memory's form through Machine/Sched.lean. -/

@[simp] theorem memOk_afterUnit (core port n : Nat) (before after : State) (h : MemOk after) : MemOk (afterUnit core port n before after) := by
  simp [afterUnit, h]

@[simp] theorem nextOk_issueMove (core port : Nat) (held : Bool) (s : State) (h : MemOk s) : NextOk (issueMove core port held s) := by
  have hu := unitOk_portUnit s core port held h
  unfold issueMove
  split
  · exact (nextOk_next s).mpr h
  · split
    · rename_i e
      rw [e] at hu
      rw [nextOk_next]
      split
      · simpa using hu
      · exact hu
    · rename_i e
      rw [e] at hu
      exact nextOk_mapNext (fun s h => by simp [h]) (nextOk_exec _ _ hu)

@[simp] theorem nextOk_eventMove (i : Instr) (s : State) (h : MemOk s) : NextOk (eventMove i s) := by
  unfold eventMove
  split
  · exact nextOk_exec _ _ (by simpa using h)
  · exact (nextOk_next s).mpr h

@[simp] theorem nextOk_partMove (m : Move) (s : State) (h : MemOk s) : NextOk (partMove m s) := by
  unfold partMove
  split <;> simp [h]

theorem nextOk_runMove (m : Move) (s : State) (h : MemOk s) : NextOk (runMove m s) :=
  nextOk_mapNext (fun u hu => by simpa using hu) (nextOk_partMove m s h)

theorem nextOk_defaultStep (s : State) (h : MemOk s) : NextOk (defaultStep s) := by
  unfold defaultStep
  dsimp only
  split
  · simp [h]
  · rename_i m _
    have hr := nextOk_runMove m s h
    split
    · rename_i e
      rw [e] at hr
      simp [(nextOk_next _).mp hr]
    · exact hr

theorem nextOk_nextMove (s : State) (h : MemOk s) : NextOk (nextMove s) := by
  unfold nextMove
  split
  · exact nextOk_runMove _ _ (by simpa using h)
  · exact nextOk_defaultStep s h

end Sys2Proof.Machine

section
open Sys2Proof Sys2Proof.Machine

/-- Settles O7: every part of a step keeps memory's form, which `mwrite` and `filter` keep. -/
theorem stepKeepsMemoryCanonical : Obligations.StepKeepsMemoryCanonical :=
  fun s u h hs => nextOk_nextMove s h u hs

end


/-! O34: what a write to a team's stash leaves there, and which threads it releases. -/

namespace Sys2Proof.Machine

/-! Bytes of a stash (R203). -/

theorem stashRead_one (tm : Team) (a : Nat) : stashRead tm a 1 = ((tget tm.stash a).getD 0).toNat := by
  simp [stashRead, leNat]

theorem stashRead_congr {tm tm' : Team} (h : tm.stash = tm'.stash) (o n : Nat) : stashRead tm o n = stashRead tm' o n := by
  rw [stashRead, stashRead, h]

/-- A byte read after bytes are set. -/
theorem getD_stashBytes (m : Tab Byte) (a : Nat) (bs : List Byte) (b : Nat) :
    (tget (stashBytes m a bs) b).getD 0 = if a ≤ b ∧ b < a + bs.length then (bs[b - a]?).getD 0 else (tget m b).getD 0 := by
  induction bs generalizing m a with
  | nil =>
    rw [if_neg (by simp only [List.length_nil]; omega)]
    rfl
  | cons x bs ih =>
    have hx : (tget (if x = 0 then tdel m a else tset m a x) b).getD 0 = if b = a then x else (tget m b).getD 0 := by
      split
      · rw [tget_tdel]
        split <;> simp_all
      · rw [tget_tset]
        split <;> rfl
    simp only [stashBytes, ih, hx, List.length_cons]
    by_cases hb : b = a
    · subst hb
      simp
    · by_cases hi : a + 1 ≤ b ∧ b < a + 1 + bs.length
      · rw [if_pos hi, if_pos (by omega), show b - a = (b - (a + 1)) + 1 by omega, List.getElem?_cons_succ]
      · rw [if_neg hi, if_neg hb, if_neg (by omega)]

/-! Teams but for their hidden stamps. -/

/-- A team without the hidden stamps of its barrier words. -/
def Team.plain (tm : Team) : Team := { tm with hidden := [], hiddenAt := [] }

theorem getTeam_modTeam (s : State) (k j : Nat) (f : Team → Team) :
    getTeam (modTeam s k f) j = if j = k ∧ (tget s.ex.teams k).isSome then f (getTeam s j) else getTeam s j := by
  simp only [getTeam, modTeam, tget_tmod]
  by_cases hj : j = k
  · subst hj
    cases tget s.ex.teams j <;> simp
  · simp [hj]

theorem plain_modTeam (s : State) (k : Nat) {f : Team → Team} (hf : ∀ tm, (f tm).plain = tm.plain) (j : Nat) :
    (getTeam (modTeam s k f) j).plain = (getTeam s j).plain := by
  rw [getTeam_modTeam]
  split
  · exact hf _
  · rfl

/-! What the release of waiters leaves. -/

/-- Threads have rising numbers, and `u` differs from `s` in the hidden stamps of teams and cores and in threads, which keep their numbers. -/
structure StampsOnly (s u : State) : Prop where
  mm : u.mm = s.mm
  ports : ∀ n, (getCore u n).ports = (getCore s n).ports
  teams : ∀ j, (getTeam u j).plain = (getTeam s j).plain
  rising : s.ex.threads.Pairwise (fun x y => x.1 < y.1) → u.ex.threads.Pairwise fun x y => x.1 < y.1

theorem StampsOnly.refl (s : State) : StampsOnly s s := ⟨rfl, fun _ => rfl, fun _ => rfl, id⟩

theorem StampsOnly.trans {s u v : State} (h : StampsOnly s u) (g : StampsOnly u v) : StampsOnly s v :=
  ⟨g.mm.trans h.mm, fun n => (g.ports n).trans (h.ports n), fun j => (g.teams j).trans (h.teams j), fun hs => g.rising (h.rising hs)⟩

theorem StampsOnly.foldl {α : Type} {f : State → α → State} (hf : ∀ s x, StampsOnly s (f s x)) (l : List α) (s : State) : StampsOnly s (l.foldl f s) := by
  induction l generalizing s with
  | nil => exact .refl s
  | cons x l ih => exact (hf s x).trans (ih _)

theorem StampsOnly.modTeam (s : State) (k : Nat) {f : Team → Team} (hf : ∀ tm, (f tm).plain = tm.plain) : StampsOnly s (modTeam s k f) :=
  ⟨rfl, fun _ => rfl, plain_modTeam s k hf, id⟩

theorem StampsOnly.modCore (s : State) (k : Nat) {f : Core → Core} (hf : ∀ c, (f c).ports = c.ports) : StampsOnly s (modCore s k f) := by
  refine ⟨rfl, fun n => ?_, fun _ => rfl, id⟩
  rw [getCore_modCore]
  split
  · rename_i h
    rw [hf, h]
  · rfl

theorem StampsOnly.modThread (s : State) (k : Nat) (f : Thread → Thread) : StampsOnly s (modThread s k f) := by
  refine ⟨rfl, fun _ => rfl, fun _ => rfl, fun h => ?_⟩
  simp only [Machine.modThread, tmod]
  split
  · exact tset_pairwise h k _
  · exact h

theorem StampsOnly.foldHidden (s : State) (core : Nat) : StampsOnly s (foldHidden s core) := by
  unfold Machine.foldHidden
  dsimp only
  split
  · exact .refl s
  · split
    · exact .refl s
    · exact (StampsOnly.modTeam s _ (by intro; rfl)).trans (.modCore _ _ (by intro; rfl))

theorem StampsOnly.setHidden (s : State) (team w h : Nat) : StampsOnly s (setHidden s team w h) := by
  unfold Machine.setHidden
  dsimp only
  split
  · exact .modTeam s _ (by intro; rfl)
  · exact (StampsOnly.foldHidden s _).trans ((StampsOnly.modCore _ _ (by intro; rfl)).trans (.modTeam _ _ (by intro; rfl)))

@[simp] theorem setHidden_threads (s : State) (team w h : Nat) : (setHidden s team w h).ex.threads = s.ex.threads := by
  simp only [setHidden, foldHidden]
  split
  · rfl
  · split
    · rfl
    · split <;> rfl

theorem StampsOnly.phaseChanged (p : Nat) (s : State) (team w : Nat) : StampsOnly s (phaseChanged p s team w) := by
  unfold Machine.phaseChanged
  exact ((StampsOnly.setHidden s team w _).trans (.modTeam _ _ (by intro; rfl))).trans
    (.foldl (fun s e => (StampsOnly.modThread s _ _).trans (.modThread _ _ _)) _ _)

/-! The threads that a changed phase releases (R261). -/

/-- A waiter released at a hidden stamp. -/
def freed (h : Nat) (t : Thread) : Thread := completeWait { t with pts := max t.pts h } (heldWords t)

theorem completeWait_keeps (t : Thread) (n : Nat) : (completeWait t n).regs = t.regs ∧ (completeWait t n).team = t.team ∧ (completeWait t n).waitOn = .nothing := by
  unfold completeWait
  dsimp only
  split <;> exact ⟨rfl, rfl, rfl⟩

theorem modThread_modThread (s : State) (k : Nat) (f g : Thread → Thread) : modThread (modThread s k f) k g = modThread s k fun t => g (f t) := by
  unfold modThread tmod
  cases h : tget s.ex.threads k with
  | none => simp [h]
  | some t => simp [tset_tset]

/-- A thread waits at the barrier word `w` of a team. -/
def WaitsAt (team w : Nat) (t : Thread) : Prop := t.team = team ∧ t.waitOn = .barw ∧ t.held.map (·.off) = some w

theorem mem_barwWaiters {s : State} (hs : s.ex.threads.Pairwise fun x y => x.1 < y.1) {team w k : Nat} {t : Thread} (ht : getThread s k = some t) :
    k ∈ (barwWaiters s team w).map (·.1) ↔ WaitsAt team w t := by
  have hmem : k ∈ (barwWaiters s team w).map (·.1) ↔ (k, t) ∈ barwWaiters s team w := by
    refine ⟨fun h => ?_, fun h => List.mem_map_of_mem (f := (·.1)) h⟩
    obtain ⟨e, he, rfl⟩ := List.mem_map.1 h
    have hes : e ∈ s.ex.threads := (List.mem_filter.1 (List.mem_filter.1 he).1).1
    rwa [show (e.1, t) = e from Prod.ext rfl (Option.some.inj (ht.symm.trans (tget_of_mem hs hes)))]
  rw [hmem]
  simp only [barwWaiters, teamMates, List.mem_filter, Bool.and_eq_true, beq_iff_eq, WaitsAt]
  exact ⟨fun h => ⟨h.1.2, h.2.1, h.2.2⟩, fun h => ⟨⟨mem_of_tget ht, h.1⟩, h.2.1, h.2.2⟩⟩

/-- The stamps of a barrier word after a change of its phase. -/
def restamped (s : State) (team w h : Nat) : State :=
  modTeam (setHidden s team w h) team fun tm => { tm with hiddenAt := tset tm.hiddenAt w h }

theorem restamped_threads (s : State) (team w h : Nat) : (restamped s team w h).ex.threads = s.ex.threads := setHidden_threads s team w h

/-- A change of phase sets the word's stamps, and then releases its waiters one after another. -/
theorem phaseChanged_eq (p : Nat) (s : State) (team w : Nat) : phaseChanged p s team w =
    ((barwWaiters s team w).map (·.1)).foldl (fun u k => modThread u k (freed (max (hiddenStamp s team w) p)))
      (restamped s team w (max (hiddenStamp s team w) p)) := by
  simp only [phaseChanged, release, modThread_modThread, List.foldl_map, barwWaiters, teamMates, modTeam_ex_threads, setHidden_threads]
  rfl

/-- The threads after a change of phase: each waiter at the word is released, and no other is touched. -/
theorem getThread_phaseChanged {s : State} (hs : s.ex.threads.Pairwise fun x y => x.1 < y.1) (p team w : Nat) {k : Nat} {t : Thread}
    (ht : getThread s k = some t) : (WaitsAt team w t → getThread (phaseChanged p s team w) k = some (freed (max (hiddenStamp s team w) p) t)) ∧
      (¬ WaitsAt team w t → getThread (phaseChanged p s team w) k = some t) := by
  have hnodup : ((barwWaiters s team w).map (·.1)).Nodup :=
    List.pairwise_map.2 (((hs.filter _).filter _).imp fun h => Nat.ne_of_lt h)
  rw [phaseChanged_eq, getThread_foldl_modThread (.inl hnodup), getThread_of_threads (restamped_threads s team w _), ht]
  refine ⟨fun h => ?_, fun h => ?_⟩
  · rw [if_pos ((mem_barwWaiters hs ht).2 h)]
    rfl
  · rw [if_neg fun hk => h ((mem_barwWaiters hs ht).1 hk)]

/-- The changes of phase that a write makes, in the order of its words. -/
def changePhases (p team : Nat) (changed : Nat → Bool) (s : State) (ws : List Nat) : State :=
  ws.foldl (fun s w => if changed w then phaseChanged p s team w else s) s

theorem StampsOnly.changePhases (p team : Nat) (changed : Nat → Bool) (s : State) (ws : List Nat) : StampsOnly s (changePhases p team changed s ws) :=
  .foldl (fun s w => by split; exacts [.phaseChanged p s team w, .refl s]) ws s

/-- A thread that waits at no word whose phase changes is not touched. -/
theorem getThread_changePhases_other {p team : Nat} {changed : Nat → Bool} {ws : List Nat} {s : State} (hs : s.ex.threads.Pairwise fun x y => x.1 < y.1)
    {k : Nat} {t : Thread} (ht : getThread s k = some t) (hn : ∀ w ∈ ws, changed w = true → ¬ WaitsAt team w t) :
    getThread (changePhases p team changed s ws) k = some t := by
  induction ws generalizing s with
  | nil => exact ht
  | cons w ws ih =>
    have htail : ∀ w ∈ ws, changed w = true → ¬ WaitsAt team w t := fun w hw => hn w (List.mem_cons_of_mem _ hw)
    unfold changePhases
    rw [List.foldl_cons]
    split
    · rename_i hc
      exact ih ((StampsOnly.phaseChanged p s team w).rising hs) ((getThread_phaseChanged hs p team w ht).2 (hn w List.mem_cons_self hc)) htail
    · exact ih hs ht htail

/-- A thread that waits at a word whose phase changes is released once, at a stamp that is not below the writer's. -/
theorem getThread_changePhases_waiter {p team : Nat} {changed : Nat → Bool} {ws : List Nat} {s : State} (hs : s.ex.threads.Pairwise fun x y => x.1 < y.1)
    {k : Nat} {t : Thread} (ht : getThread s k = some t) {w : Nat} (hw : w ∈ ws) (hc : changed w = true) (hwait : WaitsAt team w t) :
    ∃ h, p ≤ h ∧ getThread (changePhases p team changed s ws) k = some (freed h t) := by
  induction ws generalizing s with
  | nil => cases hw
  | cons x ws ih =>
    unfold changePhases
    rw [List.foldl_cons]
    by_cases hx : x = w
    · subst hx
      rw [if_pos hc]
      have hfreed := (getThread_phaseChanged hs p team x ht).1 hwait
      refine ⟨_, Nat.le_max_right _ p, getThread_changePhases_other ((StampsOnly.phaseChanged p s team x).rising hs) hfreed fun y _ _ hy => ?_⟩
      exact absurd ((completeWait_keeps _ _).2.2.symm.trans hy.2.1) (by decide)
    · have hw' : w ∈ ws := (List.mem_cons.1 hw).resolve_left fun h => hx h.symm
      split
      · have hkept := (getThread_phaseChanged hs p team x ht).2 fun h => hx (Option.some.inj (h.2.2.symm.trans hwait.2.2))
        exact ih ((StampsOnly.phaseChanged p s team x).rising hs) hkept hw'
      · exact ih hs ht hw'

/-! A write to a team's stash (R221, R261). -/

/-- Does a write change the phase of a barrier word? -/
def phaseFlips (s : State) (team o : Nat) (bs : List Byte) (w : Nat) : Bool :=
  bit (stashRead (getTeam s team) w 4) 31 != bit (stashRead (getTeam (modTeam s team fun tm => stashPut tm o bs) team) w 4) 31

/-- A write puts its bytes, and then changes the phases of the barrier words among them. -/
theorem stashWrite_eq (s : State) (team o : Nat) (bs : List Byte) (p : Nat) : stashWrite s team o bs p =
    changePhases p team (phaseFlips s team o bs) (modTeam s team fun tm => stashPut tm o bs) (wordsOf o bs.length) := by
  unfold stashWrite changePhases
  dsimp only
  congr 1
  funext u w
  simp only [phaseFlips, bne_iff_ne, ne_eq, ite_not]

section
variable {s : State} {team : Nat} {tm : Team} (o : Nat) (bs : List Byte) (p : Nat)

/-- The team that is written has the bytes; its hidden stamps are not named. -/
theorem plain_stashWrite (h : tget s.ex.teams team = some tm) : (getTeam (stashWrite s team o bs p) team).plain = (stashPut tm o bs).plain := by
  rw [stashWrite_eq, (StampsOnly.changePhases p team _ _ _).teams, getTeam_modTeam, if_pos ⟨rfl, by rw [h]; rfl⟩, getTeam_of_tget h]

theorem stash_stashWrite (h : tget s.ex.teams team = some tm) : (getTeam (stashWrite s team o bs p) team).stash = stashBytes tm.stash o bs :=
  congrArg Team.stash (plain_stashWrite o bs p h)

theorem plain_stashWrite_other (s : State) {j : Nat} (hj : j ≠ team) : (getTeam (stashWrite s team o bs p) j).plain = (getTeam s j).plain := by
  rw [stashWrite_eq, (StampsOnly.changePhases p team _ _ _).teams, getTeam_modTeam, if_neg fun h => hj h.1]

theorem stashWrite_mm (s : State) (team : Nat) : (stashWrite s team o bs p).mm = s.mm := by
  rw [stashWrite_eq, (StampsOnly.changePhases p team _ _ _).mm]
  rfl

theorem stashWrite_ports (s : State) (team n : Nat) : (getCore (stashWrite s team o bs p) n).ports = (getCore s n).ports := by
  rw [stashWrite_eq, (StampsOnly.changePhases p team _ _ _).ports]
  rfl

theorem stashRead_stashWrite (h : tget s.ex.teams team = some tm) (a : Nat) : stashRead (getTeam (stashWrite s team o bs p) team) a 1 =
    if o ≤ a ∧ a < o + bs.length then ((bs[a - o]?).getD 0).toNat else stashRead tm a 1 := by
  rw [stashRead_one, stash_stashWrite o bs p h, getD_stashBytes, stashRead_one]
  split <;> rfl

/-- The words whose phase a write changes, told by what it leaves. -/
theorem phaseFlips_iff (h : tget s.ex.teams team = some tm) (w : Nat) : phaseFlips s team o bs w = true ↔
    bit (stashRead tm w 4) 31 ≠ bit (stashRead (getTeam (stashWrite s team o bs p) team) w 4) 31 := by
  have hput : (getTeam (modTeam s team fun tm => stashPut tm o bs) team).stash = stashBytes tm.stash o bs := by
    rw [getTeam_modTeam, if_pos ⟨rfl, by rw [h]; rfl⟩, getTeam_of_tget h]
    rfl
  rw [phaseFlips, bne_iff_ne, getTeam_of_tget h, stashRead_congr (hput.trans (stash_stashWrite o bs p h).symm)]

end

/-! An arrival (R260). -/

/-- The word after an arrival, told by the fields of the word before it. -/
theorem arriveWord_fields {ph n k : Nat} (hph : ph < 2) (hn : n < 2 ^ 15) (hk : k < 2 ^ 15) : arriveWord (ph * 2 ^ 31 + n * 2 ^ 16 + k) =
    if n ≤ k + 1 then (1 - ph) * 2 ^ 31 + n * 2 ^ 16 else ph * 2 ^ 31 + n * 2 ^ 16 + (k + 1) := by
  have hcount : bits (ph * 2 ^ 31 + n * 2 ^ 16 + k) 14 0 = k := by simp only [bits]; omega
  have hfull : bits (ph * 2 ^ 31 + n * 2 ^ 16 + k) 30 16 = n := by simp only [bits]; omega
  have hphase : bits (ph * 2 ^ 31 + n * 2 ^ 16 + k) 31 31 = ph := by simp only [bits]; omega
  have hbit : bit (ph * 2 ^ 31 + n * 2 ^ 16 + k) 31 = (ph == 1) := by
    have hdiv : (ph * 2 ^ 31 + n * 2 ^ 16 + k) / 2 ^ 31 % 2 = ph := by omega
    rw [bit, hdiv]
  simp only [arriveWord, hcount, hfull, hphase, hbit]
  split
  · obtain rfl | rfl : ph = 0 ∨ ph = 1 := by omega
    all_goals rfl
  · omega

end Sys2Proof.Machine

section
open Sys2Proof Sys2Proof.Machine

/-- Settles O34: the bytes by `stashRead_stashWrite`, the threads by the two lemmas on `changePhases`, an arrival by the fields of its word. -/
theorem stashBytes : Obligations.StashBytes := by
  refine ⟨fun s team o bs p tm htm _ => ⟨stashWrite_mm o bs p s team, fun i hi => ?inside, fun a ha => ?outside,
      fun j hj => plain_stashWrite_other o bs p s hj⟩,
    fun s team o bs p tm htm _ hs => ⟨stashWrite_ports o bs p s team, fun k t ht hn => ?other, fun k t h ht hteam hon hheld hflip => ?waiter⟩,
    fun ph n k hph hn hk hlt => ?counts, fun ph n k hph hn hk hle => ?completes⟩
  case inside => rw [stashRead_stashWrite o bs p htm, if_pos (by omega), Nat.add_sub_cancel_left]
  case outside => rw [stashRead_stashWrite o bs p htm, if_neg (by omega)]
  case other =>
    rw [stashWrite_eq]
    refine getThread_changePhases_other (s := modTeam s team fun tm => stashPut tm o bs) hs ht fun w hw hc hwait => ?_
    obtain ⟨hteam, hon, hoff⟩ := hwait
    obtain ⟨x, hx, rfl⟩ := Option.map_eq_some_iff.1 hoff
    rcases hn with hn | hn | hn
    · exact hn hteam
    · exact hn hon
    · exact hn x hx ⟨hw, (phaseFlips_iff o bs p htm _).1 hc⟩
  case waiter =>
    have hwait : WaitsAt team h.off t := ⟨hteam, hon, by rw [hheld]; rfl⟩
    obtain ⟨q, hq, hu⟩ := getThread_changePhases_waiter (p := p) (s := modTeam s team fun tm => stashPut tm o bs) hs ht hflip.1 ((phaseFlips_iff o bs p htm _).2 hflip.2) hwait
    refine ⟨max t.pts q, Nat.le_max_left _ _, hq.trans (Nat.le_max_right _ _), ?_, (completeWait_keeps _ _).1⟩
    rw [stashWrite_eq]
    exact hu
  case counts => rw [arriveWord_fields hph hn hk, if_neg (by omega)]
  case completes => rw [arriveWord_fields hph hn hk, if_pos hle]

end


/-! O33: the words on a team's own stash (R246, R258, R260). -/

namespace Sys2Proof.Machine

/-! A thread through a write to a stash. -/

/-- The thread `k` has kept its registers and its team. -/
def Carries (k : Nat) (t : Thread) (s : State) : Prop := ∃ x, getThread s k = some x ∧ x.regs = t.regs ∧ x.team = t.team

theorem Carries.of_threads {k : Nat} {t : Thread} {s u : State} (h : Carries k t s) (ht : u.ex.threads = s.ex.threads) : Carries k t u := by
  obtain ⟨x, hx, hk⟩ := h
  exact ⟨x, (getThread_of_threads ht k).trans hx, hk⟩

theorem Carries.modThread {k : Nat} {t : Thread} {s : State} (h : Carries k t s) (j : Nat) {f : Thread → Thread}
    (hf : ∀ x, (f x).regs = x.regs ∧ (f x).team = x.team) : Carries k t (modThread s j f) := by
  obtain ⟨x, hx, hr, hteam⟩ := h
  simp only [Carries, getThread_modThread]
  split
  · rename_i hj
    subst hj
    exact ⟨f x, by rw [hx]; rfl, (hf x).1.trans hr, (hf x).2.trans hteam⟩
  · exact ⟨x, hx, hr, hteam⟩

theorem Carries.phaseChanged {k : Nat} {t : Thread} {s : State} (h : Carries k t s) (p team w : Nat) : Carries k t (phaseChanged p s team w) := by
  rw [phaseChanged_eq]
  refine List.foldlRecOn (motive := Carries k t) _ _ (h.of_threads (restamped_threads s team w _)) fun u hu j _ => hu.modThread j fun x => ?_
  exact ⟨(completeWait_keeps _ _).1, (completeWait_keeps _ _).2.1⟩

theorem Carries.stashWrite {k : Nat} {t : Thread} {s : State} (h : Carries k t s) (team o : Nat) (bs : List Byte) (p : Nat) :
    Carries k t (stashWrite s team o bs p) := by
  rw [stashWrite_eq]
  refine List.foldlRecOn (motive := Carries k t) _ _ (h.of_threads rfl) fun u hu w _ => ?_
  split
  · exact hu.phaseChanged p team w
  · exact hu

theorem Carries.arrive {k : Nat} {t : Thread} {s : State} (h : Carries k t s) (team o p : Nat) : Carries k t (arrive s team o p) :=
  (h.of_threads (setHidden_threads s team o _)).stashWrite team o _ p

/-! What the words do in a lane. -/

/-- A lane after an access to its team's stash, the offset of which is `x`: the access's fault, or what `f` says at its offset. -/
def StashEnds (c : Ctx) (u : State) (k : Nat) (v : State) (f : Nat → Prop) : Except Nat Nat → Prop
  | .error code => v = deliver u k code 0 c.fpc
  | .ok o => f o

theorem StashEnds.of_ok {c : Ctx} {u : State} {k : Nat} {v : State} {f : Nat → Prop} {x : Except Nat Nat} {o : Nat} (h : StashEnds c u k v f x)
    (ho : x = .ok o) : f o := by
  subst ho
  exact h

/-- A word that acts in each lane by its place in the team's stash. -/
theorem stashWord_lanes {w : WordSpec} {i : Instr} {s : State} {at_ : State → Thread → Except Nat Nat} {act : Ctx → State → Nat → Thread → Nat → LaneOut}
    {post : Ctx → State → Nat → Thread → State → Nat → Prop}
    (he : exec i s = issueWord w (fun c u k t => match at_ u t with
      | .error code => .fault code 0
      | .ok o => act c u k t o) s)
    (hp : ∀ c u k t o, post c u k t (laneEnd w c u k (act c u k t o)) o) :
    LaneByLane s w i always (fun _ => s) fun c u k t v => StashEnds c u k v (post c u k t v) (at_ u t) := by
  refine issueWord_lanes_of_body he fun c u k t => ?_
  cases at_ u t with
  | error code => rfl
  | ok o => exact hp c u k t o

/-- LDS of `r` registers in a lane (R246, R387). -/
theorem ldsWord_lanes {r : Nat} {pg : PredIx} {d a : Reg} {imm : BitVec 7} {i : Instr} {s : State} (he : exec i s = ldsWord r pg d a imm s) :
    LaneByLane s { opSpec [sp1 a] [(d.toNat, r, r)] with guard := pg } i always (fun _ => s) fun c u k t v =>
      StashEnds c u k v (fun o => if stashPoison (getTeam u t.team) o (4 * r) then v = deliver u k 0x17 0 c.fpc
        else LaneEnds k u (finish { opSpec [sp1 a] [(d.toNat, r, r)] with guard := pg } c
          (writeSpan t d.toNat (natSpan r (stashRead (getTeam u t.team) o (4 * r))))) v)
        (stashAt (getTeam u t.team) ((rd t a).toNat + imm.toInt * (4 * r : Nat)) (4 * r)) := by
  refine stashWord_lanes (at_ := fun u t => stashAt (getTeam u t.team) ((rd t a).toNat + imm.toInt * (4 * r : Nat)) (4 * r)) he fun c u k t o => ?_
  dsimp only
  split
  · rfl
  · exact .laneEnd_ok _ c u u k _

/-- STS of `r` registers in a lane (R246, R348). -/
theorem stsWord_lanes {r : Nat} {pg : PredIx} {d a : Reg} {imm : BitVec 7} {i : Instr} {s : State} (he : exec i s = stsWord r pg d a imm s) :
    LaneByLane s { opSpec [sp1 a, (d.toNat, r, r)] [] with guard := pg } i always (fun _ => s) fun c u k t v =>
      StashEnds c u k v (fun o => if inTiles u (getTeam u t.team) o (4 * r) then v = deliver u k 0x0A 0 c.fpc
        else v = completeLane (stashWrite (setThread u k t) t.team o (natLe (4 * r) (spanNat (readSpan t d.toNat r))) t.pts) k c.words false)
        (stashAt (getTeam u t.team) ((rd t a).toNat + imm.toInt * (4 * r : Nat)) (4 * r)) := by
  refine stashWord_lanes (at_ := fun u t => stashAt (getTeam u t.team) ((rd t a).toNat + imm.toInt * (4 * r : Nat)) (4 * r)) he fun c u k t o => ?_
  dsimp only
  split <;> rfl

theorem barwInit_lanes (a b : Reg) (s : State) : LaneByLane s (opSpec [sp1 a, sp1 b] []) (.barwInit a b) always (fun _ => s) fun c u k t v =>
    StashEnds c u k v (fun o =>
      v = completeLane (stashWrite (setThread u k t) t.team o (natLe 4 (2 ^ 16 * ((rd t b).toNat % 2 ^ 15))) t.pts) k c.words false) (barwAt u t a) := by
  refine stashWord_lanes (at_ := fun u t => barwAt u t a) rfl fun c u k t o => ?_
  have hcount : bits (rd t b).toNat 14 0 * 2 ^ 16 = 2 ^ 16 * ((rd t b).toNat % 2 ^ 15) := by simp only [bits]; omega
  rw [hcount]
  rfl

theorem barwArrive_lanes (d a : Reg) (s : State) :
    LaneByLane s { opSpec [sp1 a] [sp1 d] with order := true } (.barwArrive d a) always (fun _ => s) fun c u k t v => StashEnds c u k v (fun o =>
      v = completeLane (arrive (setThread u k (writeReg t d.toNat (BitVec.ofNat 32 (stashRead (getTeam u t.team) o 4)))) t.team o t.pts) k c.words false)
      (barwAt u t a) :=
  stashWord_lanes (at_ := fun u t => barwAt u t a) rfl fun _ _ _ _ _ => rfl

theorem bit_ne_iff (x y n : Nat) : bit x n ≠ bit y n ↔ x / 2 ^ n % 2 ≠ y / 2 ^ n % 2 := by
  simp only [bit, ne_eq, Bool.beq_eq_decide_eq, decide_eq_decide]
  omega

/-- A lane after the wait of a barrier word at `o` for a token: past it where the phase differs, and waiting there otherwise (R260). -/
theorem barwWaitAt_ends (w : WordSpec) (c : Ctx) (s u : State) (k o token : Nat) (i : Instr) {t : Thread} (ht : getThread u k = some t) {team : Nat}
    (hteam : t.team = team) :
    if stashRead (getTeam u team) o 4 / 2 ^ 31 % 2 ≠ token / 2 ^ 31 % 2 then
      LaneEnds k u (finish w c { t with pts := max t.pts ((tget (getTeam u team).hiddenAt o).getD (getCore u (coreOf k)).hiddenFloor) })
        (laneEnd w c s k (barwWaitAt c u k o token i))
    else ∃ x, LaneEnds k u x (laneEnd w c s k (barwWaitAt c u k o token i)) ∧ x.st = .waiting ∧ x.waitOn = .barw ∧ x.pc = t.pc ∧ x.regs = t.regs := by
  subst hteam
  unfold barwWaitAt
  rw [ht]
  dsimp only
  by_cases hb : bit (stashRead (getTeam u t.team) o 4) 31 ≠ bit token 31
  · rw [if_pos ((bit_ne_iff _ _ _).1 hb), if_pos hb]
    exact .laneEnd_ok w c s u k _
  · rw [if_neg fun h => hb ((bit_ne_iff _ _ _).2 h), if_neg hb]
    exact ⟨_, (LaneEnds.setThread u k _).leaveBundle, rfl, rfl, rfl, rfl⟩

/-- A lane that ends from a state in which its own thread was written ends from the state before. -/
theorem LaneEnds.of_setThread {k : Nat} {s u : State} {t x : Thread} (h : LaneEnds k (Machine.setThread s k t) x u) : LaneEnds k s x u :=
  ⟨(OnlyLanes.setThread s k t).trans h.only, h.mine, fun j hj => (h.others j hj).trans (by simp [hj])⟩

theorem barwWait_lanes (a b : Reg) (s : State) : LaneByLane s (opSpec [sp1 a, sp1 b] []) (.barwWait a b) always (fun _ => s) fun c u k t v =>
    StashEnds c u k v (fun o => if stashRead (getTeam u t.team) o 4 / 2 ^ 31 % 2 ≠ (rd t b).toNat / 2 ^ 31 % 2 then
        LaneEnds k u (finish (opSpec [sp1 a, sp1 b] []) c
          { t with pts := max t.pts ((tget (getTeam u t.team).hiddenAt o).getD (getCore u (coreOf k)).hiddenFloor) }) v
      else ∃ x, LaneEnds k u x v ∧ x.st = .waiting ∧ x.waitOn = .barw ∧ x.pc = t.pc ∧ x.regs = t.regs) (barwAt u t a) := by
  refine stashWord_lanes (at_ := fun u t => barwAt u t a) rfl fun c u k t o => ?_
  have hwait := barwWaitAt_ends (opSpec [sp1 a, sp1 b] []) c u (setThread u k t) k o (rd t b).toNat (.barwWait a b) (t := t) (by simp) rfl
  split at hwait
  · rename_i hb
    exact (if_pos hb).mpr hwait.of_setThread
  · rename_i hb
    obtain ⟨x, hx, hk⟩ := hwait
    exact (if_neg hb).mpr ⟨x, hx.of_setThread, hk⟩

/-- The state in which BARW.ARRIVE_WAIT waits: D written with the word, and the arrival counted (R260). -/
def barwArrived (d : Reg) (u : State) (k : Nat) (t : Thread) (o : Nat) : State :=
  arrive (setThread u k (writeReg t d.toNat (BitVec.ofNat 32 (stashRead (getTeam u t.team) o 4)))) t.team o t.pts

/-- A lane at BARW.ARRIVE_WAIT still has its thread, with D written. -/
theorem carries_barwArrived (d : Reg) (u : State) (k : Nat) (t : Thread) (o : Nat) :
    Carries k (writeReg t d.toNat (BitVec.ofNat 32 (stashRead (getTeam u t.team) o 4))) (barwArrived d u k t o) :=
  Carries.arrive ⟨_, by simp, rfl, rfl⟩ _ _ _

theorem barwArriveWait_lanes (d a : Reg) (s : State) :
    LaneByLane s { opSpec [sp1 a] [sp1 d] with order := true } (.barwArriveWait d a) always (fun _ => s) fun c u k t v => StashEnds c u k v (fun o =>
      ∀ t', getThread (barwArrived d u k t o) k = some t' → t'.team = t.team →
        if stashRead (getTeam (barwArrived d u k t o) t.team) o 4 / 2 ^ 31 % 2 ≠ stashRead (getTeam u t.team) o 4 / 2 ^ 31 % 2 then
          LaneEnds k (barwArrived d u k t o) (finish { opSpec [sp1 a] [sp1 d] with order := true } c { t' with
            pts := max t'.pts ((tget (getTeam (barwArrived d u k t o) t.team).hiddenAt o).getD (getCore (barwArrived d u k t o) (coreOf k)).hiddenFloor) }) v
        else ∃ x, LaneEnds k (barwArrived d u k t o) x v ∧ x.st = .waiting ∧ x.waitOn = .barw ∧ x.pc = t'.pc) (barwAt u t a) := by
  refine stashWord_lanes (at_ := fun u t => barwAt u t a) rfl fun c u k t o t' ht' hteam => ?_
  have hwait := barwWaitAt_ends { opSpec [sp1 a] [sp1 d] with order := true } c u (barwArrived d u k t o) k o (stashRead (getTeam u t.team) o 4)
    (.barwArriveWait d a) ht' hteam
  split at hwait
  · rename_i hb
    exact (if_pos hb).mpr hwait
  · rename_i hb
    obtain ⟨x, hx, hst, hon, hpc, -⟩ := hwait
    exact (if_neg hb).mpr ⟨x, hx, hst, hon, hpc⟩

/-- ATOMS without a route is a word on the team's own stash (R258). -/
theorem atoms_lanes (m : AtomOp) (d a b : Reg) {s : State} (h : routed s = false) :
    LaneByLane s { opSpec [sp1 a, sp1 b] [sp1 d] with hints := [2], adds := [(.ld, 1)] } (.atoms m d a b) always (fun _ => s) fun c u k t v =>
      StashEnds c u k v (fun o =>
        v = completeLane (stashWrite (setThread { u with nextId := u.nextId + 1 } k
          (addDone (writeReg t d.toNat (BitVec.ofNat 32 (stashRead (getTeam u t.team) o 4))) u.nextId .ld)) t.team o
          (natLe 4 ((Rmw.atom m).apply (stashRead (getTeam u t.team) o 4) (rd t b).toNat)) t.pts) k c.words false) (barwAt u t a) :=
  stashWord_lanes (at_ := fun u t => barwAt u t a) ((if_neg (by simp [h])).trans rfl) fun _ _ _ _ _ => rfl

/-- A word that names no route is not routed. -/
theorem routed_eq_false {s : State} (h : ∀ x, s.cur = some x → ∀ h ∈ x.hints, h.kind ≠ 2) : routed s = false := by
  unfold routed
  split
  · rename_i x hx
    rw [List.any_eq_false]
    exact fun y hy => by simpa using h x hx y hy
  · rfl

/-- An access in a lane whose guard is false is none: the lane goes on past the word (R246). -/
theorem laneStep_guard_false {w : WordSpec} {c : Ctx} {body : State → Nat → Thread → LaneOut} {s : State} {k : Nat} {t : Thread}
    (ht : getThread s k = some t) (h : readPred t w.guard = false) : LaneEnds k s (finish w c (schedQuiet s c t)) (laneStep w c body s k) := by
  unfold laneStep
  rw [ht]
  dsimp only
  rw [if_pos h]
  exact .completeLane w c s k _

theorem issueWord_skips {w : WordSpec} {i : Instr} {body : Ctx → State → Nat → Thread → LaneOut} {s : State} (he : exec i s = issueWord w body s)
    {c : Ctx} {ks : List Nat} (hgo : prelude w s = .go c ks) : ∃ f : State → Nat → State, exec i s = .next (done (laneLoop f s ks)) ∧
      ∀ u k t, getThread u k = some t → readPred t w.guard = false → LaneEnds k u (finish w c (schedQuiet u c t)) (f u k) := by
  refine ⟨laneStep w c (body c), ?_, fun u k t ht h => laneStep_guard_false ht h⟩
  rw [he]
  simp only [issueWord, issueGo, hgo]

end Sys2Proof.Machine

section
open Sys2Proof Sys2Proof.Machine

/-- Settles O33: each word in a lane by its own lemma (`ldsWord_lanes` to `atoms_lanes`), in a bundle of one lane by the branch of it that
completes, and behind a false guard by `issueWord_skips`. -/
theorem stashWords : Obligations.StashWords := by
  refine ⟨fun pg d a imm s => ldsWord_lanes (r := 1) rfl, fun pg d a imm => ?lds32, fun pg d a imm s => ldsWord_lanes (r := 4) rfl,
    fun pg d a imm => ?lds128, fun pg d a imm s c ks h => issueWord_skips rfl h, fun pg d a imm s c ks h => issueWord_skips rfl h,
    fun pg d a imm s c ks h => issueWord_skips rfl h, fun pg d a imm s c ks h => issueWord_skips rfl h, fun pg d a imm s => stsWord_lanes (r := 1) rfl,
    fun pg d a imm => ?sts32, fun pg d a imm s => stsWord_lanes (r := 4) rfl, fun pg d a imm => ?sts128, barwInit_lanes, fun a b => ?init,
    barwArrive_lanes, fun d a => ?arrive, barwArriveWait_lanes, fun d a => ?arriveWait, barwWait_lanes, fun a b => ?wait,
    fun m d a b s h _ => atoms_lanes m d a b (routed_eq_false h), fun m d a b => ?atoms⟩
  case lds32 =>
    refine LaneByLane.completes fun s => (ldsWord_lanes (r := 1) rfl).imp fun c u k t v h ⟨o, ho, hp⟩ => ⟨o, ho, ?_⟩
    have hv := h.of_ok ho
    rw [if_neg (by simp [hp])] at hv
    exact hv.done
  case lds128 =>
    refine LaneByLane.completes fun s => (ldsWord_lanes (r := 4) rfl).imp fun c u k t v h ⟨o, ho, hp⟩ => ⟨o, ho, ?_⟩
    have hv := h.of_ok ho
    rw [if_neg (by simp [hp])] at hv
    exact hv.done
  case sts32 =>
    refine LaneByLane.completes fun s => (stsWord_lanes (r := 1) rfl).imp fun c u k t v h ⟨o, ho, hp⟩ => ⟨o, ho, congrArg done ?_⟩
    have hv := h.of_ok ho
    rw [if_neg (by simp [hp])] at hv
    exact hv
  case sts128 =>
    refine LaneByLane.completes fun s => (stsWord_lanes (r := 4) rfl).imp fun c u k t v h ⟨o, ho, hp⟩ => ⟨o, ho, congrArg done ?_⟩
    have hv := h.of_ok ho
    rw [if_neg (by simp [hp])] at hv
    exact hv
  case init => exact LaneByLane.completes fun s => (barwInit_lanes a b s).imp fun c u k t v h ⟨o, ho⟩ => ⟨o, ho, congrArg done (h.of_ok ho)⟩
  case arrive => exact LaneByLane.completes fun s => (barwArrive_lanes d a s).imp fun c u k t v h ⟨o, ho⟩ => ⟨o, ho, congrArg done (h.of_ok ho)⟩
  case arriveWait =>
    refine LaneByLane.completes fun s => (barwArriveWait_lanes d a s).imp fun c u k t v h ⟨o, ho, hflip⟩ => ?_
    obtain ⟨t', ht', hregs, hteam⟩ := carries_barwArrived d u k t o
    have hv := (if_pos hflip).mp (h.of_ok ho t' ht' hteam)
    refine ⟨o, t', ho, ht', ?_, hv.done⟩
    rw [readReg, hregs]
    exact (readReg_writeReg t d.toNat d.toNat _).trans (if_pos rfl)
  case wait =>
    refine LaneByLane.completes fun s => (barwWait_lanes a b s).imp fun c u k t v h ⟨o, ho, hflip⟩ => ⟨o, ho, ?_⟩
    have hv := h.of_ok ho
    rw [if_pos hflip] at hv
    exact hv.done
  case atoms =>
    intro s c k t hi ht ⟨hr, o, ho⟩
    obtain ⟨v, he, hv⟩ := (atoms_lanes m d a b hr).alone hi ht
    exact ⟨done v, he, rfl, o, ho, congrArg done (hv.of_ok ho)⟩

end


/-! O59: the module's events (R209, R231, R306, R402 to R414). -/

namespace Sys2Proof.Machine

/-! Events in Boxwood. -/

/-- An event that is posted stands at the head of Boxwood (R405). -/
theorem post_head (s : State) (kind id code x y : Nat) :
    (post s kind id code x y).bd.boxwood.head?.map (fun e => (e.srcKind, e.code)) = some (kind, code) := by
  have htake : Config.boxwoodEvents = Config.boxwoodEvents - 1 + 1 := by decide
  simp only [post]
  rw [htake, List.take_succ_cons]
  rfl

/-- The events of ports that are down change Boxwood and its counts alone. -/
structure EventsOnly (s u : State) : Prop where
  mm : u.mm = s.mm
  ex : u.ex = s.ex
  qu : u.qu = s.qu
  en : u.en = s.en
  fa : u.fa = s.fa
  power : u.bd.power = s.bd.power
  image : u.bd.image = s.bd.image
  eventQ : u.bd.eventQ = s.bd.eventQ
  badCores : u.bd.badCores = s.bd.badCores
  clock : u.bd.clock = s.bd.clock
  resetPending : u.bd.resetPending = s.bd.resetPending

theorem EventsOnly.refl (s : State) : EventsOnly s s := ⟨rfl, rfl, rfl, rfl, rfl, rfl, rfl, rfl, rfl, rfl, rfl⟩

theorem EventsOnly.post {s u : State} (h : EventsOnly s u) (kind id code x y : Nat) : EventsOnly s (post u kind id code x y) :=
  ⟨h.mm, h.ex, h.qu, h.en, h.fa, h.power, h.image, h.eventQ, h.badCores, h.clock, h.resetPending⟩

theorem EventsOnly.postDown (s : State) : EventsOnly s (postDown s) :=
  List.foldlRecOn (motive := EventsOnly s) _ _ (.refl s) fun u hu p _ => by
    split
    · exact hu.post 9 0 0x0F p 0
    · exact hu.post 0xA p 0x0F p 0

/-! The slots of the memory channels (R408, R409). -/

theorem recordChannel_isSome {s : State} {ln w i : Nat} (h : (getLine s ln).recs.findIdx? (fun r => r.wts == w) = some i) :
    ∃ ch, recordChannel s (ln, w) = some ch := by
  have hany : ((getLine s ln).recs.find? fun r => r.wts == w).isSome := by
    rw [List.find?_isSome]
    obtain ⟨hi, hw, -⟩ := List.findIdx?_eq_some_iff_getElem.1 h
    exact ⟨_, List.getElem_mem hi, hw⟩
  obtain ⟨r, hr⟩ := Option.isSome_iff_exists.1 hany
  exact ⟨_, by rw [recordChannel, hr]; rfl⟩

/-- Privet at one record of its channel. -/
theorem exec_privetSlot {s : State} {ln w i : Nat} (h : (getLine s ln).recs.findIdx? (fun r => r.wts == w) = some i) :
    ∃ ch, exec (.privetSlot [(ln, w)]) s = .next (if readable s w (successor (getLine s ln) i) then perf s 2 ch 3 1
      else perf (raiseFloor (setLine (perf s 2 ch 3 1) ln { getLine s ln with recs := (getLine s ln).recs.eraseIdx i }) (successor (getLine s ln) i)) 2 ch 6 1) := by
  obtain ⟨ch, hch⟩ := recordChannel_isSome h
  refine ⟨ch, ?_⟩
  have hperf : recordChannel (perf s 2 ch 3 1) (ln, w) = some ch := hch
  have hone : privetOne ch (perf s 2 ch 3 1) (ln, w) = if readable s w (successor (getLine s ln) i) then perf s 2 ch 3 1
      else perf (raiseFloor (setLine (perf s 2 ch 3 1) ln { getLine s ln with recs := (getLine s ln).recs.eraseIdx i }) (successor (getLine s ln) i)) 2 ch 6 1 := by
    have hidx : (getLine (perf s 2 ch 3 1) ln).recs.findIdx? (fun r => r.wts == w) = some i := h
    simp only [privetOne, hidx, hperf, ne_eq, not_true_eq_false, false_or]
    rfl
  change execPrivetSlot [(ln, w)] s = _
  simp only [execPrivetSlot, List.head?_cons, Option.bind_some, hch, List.length_singleton, List.foldl_cons, List.foldl_nil, hone]
  rfl

theorem privet_ends {s : State} {ln w i : Nat} (h : (getLine s ln).recs.findIdx? (fun r => r.wts == w) = some i) :
    ∃ u, exec (.privetSlot [(ln, w)]) s = .next u ∧ u.mm.mem = s.mm.mem ∧
      (readable s w (successor (getLine s ln) i) = true → u.mm = s.mm ∧ u.ex = s.ex) ∧
      (readable s w (successor (getLine s ln) i) = false → (getLine u ln).recs = (getLine s ln).recs.eraseIdx i ∧ (getLine u ln).wts = (getLine s ln).wts ∧
        u.mm.floor = max s.mm.floor (successor (getLine s ln) i)) := by
  obtain ⟨ch, he⟩ := exec_privetSlot h
  cases hr : readable s w (successor (getLine s ln) i) with
  | true =>
    rw [hr, if_pos rfl] at he
    exact ⟨_, he, rfl, fun _ => ⟨rfl, rfl⟩, (fun h => by cases h)⟩
  | false =>
    rw [hr, if_neg (by decide)] at he
    exact ⟨_, he, rfl, (fun h => by cases h), fun _ => ⟨getLine_setLine_recs _ _ _, getLine_setLine_wts _ _ _, rfl⟩⟩

/-- A line of HBM4 is scrubbed (R208, R408). -/
theorem exec_scrubSlot {s : State} {line : Nat} (h : line * 128 < 0x9000000000) (r : ScrubResult) : ∃ ch, exec (.scrubSlot line r) s = .next (match r with
    | .clean => perf s 2 ch 4 1
    | .corrected => post (softError (perf s 2 ch 4 1) rowHbm4) 6 ch 9 (line * 128) 0
    | .uncorrectable => post (setLine (perf s 2 ch 4 1) line { getLine s line with poison := true }) 6 ch 0xA (line * 128) 0) := by
  refine ⟨channelOf (line * 128), ?_⟩
  change execScrubSlot line r s = _
  unfold execScrubSlot
  dsimp only
  rw [if_neg (by omega)]
  cases r <;> rfl

theorem scrub_ends {s : State} {line : Nat} (h : line * 128 < 0x9000000000) :
    (∃ u, exec (.scrubSlot line .clean) s = .next u ∧ u.mm = s.mm ∧ u.bd.posted = s.bd.posted) ∧
    (∃ u, exec (.scrubSlot line .corrected) s = .next u ∧ u.mm = s.mm ∧
      tget u.bd.corrected rowHbm4 = some (min (2 ^ 32 - 1) ((tget s.bd.corrected rowHbm4).getD 0 + 1)) ∧
      u.bd.boxwood.head?.map (fun e => (e.srcKind, e.code)) = some (6, 9)) ∧
    ∃ u, exec (.scrubSlot line .uncorrectable) s = .next u ∧ u.mm.mem = s.mm.mem ∧ (getLine u line).poison = true ∧
      (getLine u line).wts = (getLine s line).wts ∧ u.bd.boxwood.head?.map (fun e => (e.srcKind, e.code)) = some (6, 0xA) := by
  obtain ⟨c1, h1⟩ := exec_scrubSlot (s := s) h .clean
  obtain ⟨c2, h2⟩ := exec_scrubSlot (s := s) h .corrected
  obtain ⟨c3, h3⟩ := exec_scrubSlot (s := s) h .uncorrectable
  refine ⟨⟨_, h1, rfl, rfl⟩, ⟨_, h2, rfl, tget_tset_self _ _ _, post_head _ _ _ _ _ _⟩, ⟨_, h3, rfl, ?_, ?_, post_head _ _ _ _ _ _⟩⟩
  · exact getLine_setLine_poison _ _ _
  · exact getLine_setLine_wts _ _ _

/-! Power (R411, R412). -/

theorem overLimit_of {m p j : Nat} (h : 3200 < m ∨ 2800 < p ∨ 95 < j) : overLimit m p j = true ∧ belowClear m p j = false := by
  simp only [overLimit, belowClear, Bool.or_eq_true, decide_eq_true_eq, Bool.and_eq_false_iff, decide_eq_false_iff_not]
  omega

/-- Readings above a limit set the alarm. -/
theorem exec_powerAlarm {s : State} {m p j : Nat} (h : 3200 < m ∨ 2800 < p ∨ 95 < j) (ha : s.bd.alarm = false) :
    exec (.powerAlarm m p j) s = .next (setAlarm { s with bd := { s.bd with quietSince := none } } true) := by
  obtain ⟨ho, hb⟩ := overLimit_of h
  change execPowerAlarm m p j s = _
  simp only [execPowerAlarm, hb, ho, Bool.false_eq_true, if_false, true_and]
  exact if_pos ha

theorem setAlarm_head (s : State) (on : Bool) :
    (setAlarm s on).bd.boxwood.head?.map (fun e => (e.srcKind, e.code)) = some (0xB, 0x11) := by
  unfold setAlarm
  exact post_head _ 0xB 0 0x11 on.toNat 0

theorem setAlarm_matNarrow (s : State) (on : Bool) : (setAlarm s on).ex.matNarrow = if on then List.range Config.cores else [] := rfl

theorem exec_powerAlarmClear {s : State} {m p j c : Nat} (hm : m < 3040) (hp : p < 2660) (hj : j < 90) (hq : s.bd.quietSince = some c)
    (ha : s.bd.alarm = true) (hc : c + 12500000 ≤ s.bd.clock) : exec (.powerAlarmClear m p j) s = .next (setAlarm s false) := by
  have hb : belowClear m p j = true := by simp [belowClear, hm, hp, hj]
  change execPowerAlarmClear m p j s = _
  simp only [execPowerAlarmClear, hb, hq, Bool.not_true, Bool.false_eq_true, if_false]
  exact if_pos ⟨ha, hc⟩

/-! Resets (R413, R414). -/

/-- A warm reset that finds no dirty line loses none. -/
theorem warmMem_of_clean {s : State} (h : ∀ e ∈ s.mm.lines, e.2.back = none) : warmMem s = s.mm.mem :=
  List.foldlRecOn (motive := fun m => m = s.mm.mem) _ _ rfl fun m hm e he => by rw [h e he]; exact hm

theorem exec_coldReset {s : State} (h : s.bd.resetPending = some true) (bad down : List Nat) : exec (.coldReset bad down) s = match bootImage s with
    | some i => .next (postDown (coldState s (some i) bad down))
    | none => .next (darkState s .managementOnly) := by
  change execColdReset bad down s = _
  unfold execColdReset
  rw [if_neg (by simp [h])]
  all_goals rfl

theorem exec_warmReset {s : State} (h : s.bd.resetPending = some false) (hm : managed s = true) : exec .warmReset s = match bootImage s with
    | some i => .next (postDown (warmState s i (Config.selfTestFails s.nextId) (Config.trainingFails s.nextId)))
    | none => .next (warmKept s) := by
  change execWarmReset s = _
  unfold execWarmReset
  rw [if_pos ⟨h, hm⟩]
  all_goals rfl

/-- The sizes of the version and spill regions, written to the flash (R210; notes/assumptions/9.md). -/
theorem exec_redfishUpdate_regions (s : State) {v n : Nat} (ok : Bool) (hv : versionOk v = true) (hn : n ≤ 1024) :
    exec (.redfishUpdate 3 v ok [n]) s = .next { s with bd := { s.bd with flashVersion := v, flashSpill := n } } := by
  change execRedfishUpdate 3 v ok [n] s = _
  simp [execRedfishUpdate, hv, hn]

end Sys2Proof.Machine

section
open Sys2Proof Sys2Proof.Machine

/-- Settles O59: each event by what it does where its conditions hold (`privet_ends`, `scrub_ends`, `exec_powerAlarm` to
`exec_redfishUpdate_regions`); the events of ports that are down by `EventsOnly.postDown`. -/
theorem moduleAndResets : Obligations.ModuleAndResets := by
  refine ⟨fun s => ⟨_, rfl, rfl⟩, fun s ln w i h => privet_ends h, fun s line h => scrub_ends h, fun s ch h => ?refresh, fun s ch h => ?perBank,
    fun s ch temp errs h => ?telemetry, fun s => ⟨_, rfl, rfl⟩, fun s m p j h ha => ⟨_, exec_powerAlarm h ha, rfl, (setAlarm_matNarrow _ _).trans (if_pos rfl), rfl, rfl, setAlarm_head _ _⟩,
    fun s m p j c hm hp hj hq ha hc => ⟨_, exec_powerAlarmClear hm hp hj hq ha hc, rfl, (setAlarm_matNarrow _ _).trans (if_neg Bool.false_ne_true), rfl, setAlarm_head _ _⟩,
    fun s cause x h => ⟨_, if_pos h, rfl, rfl, rfl, rfl, post_head s 0xB 0 0x14 cause x⟩, fun s => ⟨_, rfl, rfl, rfl, rfl, rfl, rfl⟩, fun s h hi => ?cold,
    fun s bad down h hi => ?coldDark, fun s i h hm hc hi => ?warm, fun s h hm hc hi => ?warmDark, fun s cold h => ?redfishReset,
    fun s slot v ok l hl hs => ?image, fun s v n ok hv hn => ?regions, fun s r a n => rfl, fun s prio quanta h => ?pause⟩
  case refresh => exact ⟨_, if_pos h, tget_tset_self _ _ _, rfl, rfl⟩
  case perBank => exact ⟨_, if_pos h, tget_tset_self _ _ _, rfl⟩
  case telemetry => exact ⟨_, if_pos h, tget_tset_self _ _ _, rfl, rfl⟩
  case cold =>
    obtain ⟨i, hi⟩ := Option.isSome_iff_exists.1 hi
    refine ⟨_, (exec_coldReset h [] []).trans (by rw [hi]), ?_⟩
    rw [hi]
    exact ⟨rfl, rfl, rfl, rfl, rfl, rfl, rfl, rfl, rfl, rfl, rfl, rfl, rfl, rfl, rfl⟩
  case coldDark => exact ⟨_, (exec_coldReset h bad down).trans (by rw [hi]), rfl, rfl⟩
  case warm =>
    have hk := EventsOnly.postDown (warmState s i (Config.selfTestFails s.nextId) (Config.trainingFails s.nextId))
    refine ⟨_, _, (exec_warmReset h hm).trans (by rw [hi]), rfl, (congrArg MemSys.mem hk.mm).trans (warmMem_of_clean hc), hk.power, hk.image, hk.eventQ,
      hk.badCores, congrArg Fabric.downPorts hk.fa, (congrArg Fabric.downPorts hk.fa).symm, congrArg Exec.threads hk.ex, congrArg Exec.grids hk.ex,
      hk.qu, hk.en, hk.clock, rfl, rfl, congrArg MemSys.horizon hk.mm, hk.resetPending⟩
  case warmDark =>
    exact ⟨warmKept s, (exec_warmReset h hm).trans (by rw [hi]), warmMem_of_clean hc, rfl, rfl, rfl, rfl, rfl, rfl, rfl, rfl, rfl, rfl, rfl, rfl⟩
  case redfishReset =>
    refine ⟨_, if_pos (by simpa using h), rfl, rfl, ?_⟩
    simp [Bool.beq_eq_decide_eq]
  case image =>
    refine ⟨_, if_pos hs, ?_, rfl, rfl⟩
    exact List.getElem?_set_self hl
  case regions =>
    exact ⟨_, exec_redfishUpdate_regions s ok hv hn, rfl, rfl, rfl, rfl⟩
  case pause =>
    refine ⟨_, if_pos ⟨rfl, h⟩, rfl, ?_⟩
    dsimp only
    split
    · exact tget_tdel_self _ _
    · exact tget_tset_self _ _ _

end

/-! O29 to O32: the words that access global memory (spec/12_memory_ops.md, R228 to R251). -/

namespace Sys2Proof.Machine

/-! The address of an access (R238). -/

theorem addrOf_outside {ea : Int} (n : Nat) (h : ea < 0 ∨ 2 ^ 57 ≤ ea) : addrOf ea n = .error (0x08, (ea % 2 ^ 57).toNat) := if_pos h

theorem addrOf_misaligned {ea : Int} {n : Nat} (h0 : 0 ≤ ea) (h1 : ea < 2 ^ 57) (hn : ea % n ≠ 0) : addrOf ea n = .error (0x06, ea.toNat) := by
  lift ea to ℕ using h0
  have hin : ¬ ((ea : Int) < 0 ∨ 2 ^ 57 ≤ (ea : Int)) := by omega
  have hal : (ea : Int).toNat % n ≠ 0 := by rw [Int.toNat_natCast]; exact_mod_cast hn
  rw [addrOf, if_neg hin, if_pos hal]

theorem addrOf_ok {ea : Int} {n va : Nat} (he : ea = va) (h1 : va < 2 ^ 57) (hn : va % n = 0) : addrOf ea n = .ok va := by
  subst he
  have hin : ¬ ((va : Int) < 0 ∨ 2 ^ 57 ≤ (va : Int)) := by omega
  rw [addrOf, if_neg hin, Int.toNat_natCast, if_neg (not_not.2 hn)]

/-! What a word that accesses global memory does in a lane (R238, R240). -/

section
variable {w : WordSpec} {i : Instr} {a : Acc} {n : Nat} {ea : Thread → Int} {body : Ctx → Nat → State → Nat → Thread → Nat → Leaf → LaneOut}
  {post : Ctx → Nat → State → Nat → Thread → Nat → Leaf → State → Prop}

/-- Where every lane has its translation, the lanes take the word one after another. -/
theorem globalWord_go {s : State} (he : ∀ s, exec i s = globalWord w a n ea body s) {c : Ctx} {ks : List Nat} (hgo : prelude w s = .go c ks)
    (hm : missing s w a n ea ks = []) :
    exec i s = .next (done (laneLoop (laneStep w c (globalLane a n ea (body c s.nextId))) { s with nextId := s.nextId + 1 } ks)) := by
  rw [he]
  simp only [globalWord, issueGo, hgo, hm]
  rfl

/-- A word acts in each lane as its body does at the lane's address, behind the faults of R238. -/
theorem globalLanes_of_body (he : ∀ s, exec i s = globalWord w a n ea body s)
    (hp : ∀ c wid s u k t va l, post c wid u k t va l (laneEnd w c s k (body c wid u k t va l))) : GlobalLanes w i a n ea post := by
  intro s c ks hgo hm
  refine ⟨_, globalWord_go he hgo hm, fun u k t ht hr => ?_⟩
  rw [laneStep_eq_laneEnd _ ht hr]
  generalize schedQuiet u c t = t'
  refine ⟨fun h => ?_, fun h0 h1 hn => ?_, fun va hva hlt hal => ⟨fun hx => ?_, fun l hx => ?_⟩⟩
  · rw [globalLane, addrOf_outside n h]; rfl
  · rw [globalLane, addrOf_misaligned h0 h1 hn]; rfl
  · rw [globalLane, addrOf_ok hva hlt hal]; simp only [hx]; rfl
  · rw [globalLane, addrOf_ok hva hlt hal]; simp only [hx]; exact hp c s.nextId u _ k t' va l

/-- A lane whose guard is false goes on past the word (R239). -/
theorem globalWord_skips (he : ∀ s, exec i s = globalWord w a n ea body s) {s : State} {c : Ctx} {ks : List Nat} (hgo : prelude w s = .go c ks)
    (hm : missing s w a n ea ks = []) : ∃ f : State → Nat → State, exec i s = .next (done (laneLoop f { s with nextId := s.nextId + 1 } ks)) ∧
      ∀ u k t, getThread u k = some t → readPred t w.guard = false → LaneEnds k u (finish w c (schedQuiet u c t)) (f u k) :=
  ⟨_, globalWord_go he hgo hm, fun _ _ _ ht h => laneStep_guard_false ht h⟩

/-- A bundle of one lane whose access stands misses no translation. -/
theorem missing_alone {s : State} {k va : Nat} {t : Thread} {l : Leaf} (ht : getThread s k = some t) (h : AccessAt s k t a n (ea t) va l) :
    missing s w a n ea [k] = [] := by
  simp only [missing, List.filterMap_cons, List.filterMap_nil, ht, Option.bind_some, addrOf_ok h.addr h.inside h.aligned, h.leaf, ite_self]

/-- QUIET of a lane is no part of what `f` says of its thread. -/
def IgnoresQuiet {α : Sort*} (f : Thread → α) : Prop := ∀ t q, f { t with quiet := q } = f t

theorem IgnoresQuiet.schedQuiet {α : Sort*} {f : Thread → α} (h : IgnoresQuiet f) (s : State) (c : Ctx) (t : Thread) : f (schedQuiet s c t) = f t := by
  rw [schedQuiet_eq]; exact h t _

/-- In a bundle of one lane whose access stands, a word with an effect in each lane completes with that effect. -/
theorem GlobalLanes.completes {ok : Thread → Prop} (h : GlobalLanes w i a n ea post) (hea : IgnoresQuiet ea) (hok : IgnoresQuiet ok)
    (hd : ∀ {c wid u k t va l v}, ok t → post c wid u k t va l v → post c wid u k t va l (done v)) : GlobalCompletes w i a n ea ok post := by
  intro s c k t va l hi ht hat hk
  obtain ⟨v, hv, -, -, hp⟩ := (h s).alone_from hi (missing_alone ht hat) ht rfl rfl
  have hg : gridOf s t = gridOf s (schedQuiet s c t) := (gridOf_schedQuiet _ _ _ _).symm
  have hx : xlate s k (schedQuiet s c t) a (gridOf s (schedQuiet s c t)).asid va = .ok l := by
    rw [← hg, schedQuiet_eq]; exact hat.leaf
  refine ⟨done v, hv, rfl, hd ((hok.schedQuiet s c t).mpr hk) ?_⟩
  exact (hp va ((hea.schedQuiet _ _ _).trans hat.addr) hat.inside hat.aligned).2 l hx

end

/-! The loads (R228, R232 to R234, R243). -/

section
variable {s : State} {k : Nat} {t : Thread} {o : Op}

theorem issueLoad_revoked (hr : revokedNow t = true) (hv : versioned o.loc = true) :
    issueLoad s k t o = .faultIn (setThread s k (clearRevoked t)) 0x11 o.va := by simp only [issueLoad, hr, hv, Bool.and_self, if_true]

theorem issueLoad_outside (hr : revokedNow t = false) (hd : t.tx.depth = 0) (hv : versioned o.loc = true) (he : o.excl = false) (hi : o.inTx = false) :
    issueLoad s k t o = .ok (issueOp s k t { o with snap := readSnap t }) := by
  obtain ⟨⟩ := o
  subst he hi
  cases ‹Loc› with
  | here pa => simp [issueLoad, hr, hd, versioned]
  | window asid va => simp [issueLoad, hr, hd, versioned]
  | host pa => cases hv
  | remote pkg asid va => cases hv

/-- A load of a place that R233 excludes from a snapshot reads the current value. -/
theorem issueLoad_excluded (hd : t.tx.depth = 0) (hv : versioned o.loc = false) (hi : o.inTx = false) :
    issueLoad s k t o = .ok (issueOp s k t { o with excl := (readSnap t).isSome }) := by
  obtain ⟨⟩ := o
  subst hi
  cases ‹Loc› with
  | here pa => cases hv
  | window asid va => cases hv
  | host pa => simp [issueLoad, hd, versioned]
  | remote pkg asid va => simp [issueLoad, hd, versioned]

theorem issueLoad_window_inTx {x y : Nat} (hr : revokedNow t = false) (hd : 0 < t.tx.depth) (hl : o.loc = .window x y) (he : o.excl = false) :
    issueLoad s k t o = .ok (issueOp s k t { o with snap := readSnap t, inTx := true }) := by
  obtain ⟨⟩ := o
  subst he
  simp_all [issueLoad, versioned]

/-- A body's load of a line of this package reads its view at once (R234). -/
theorem issueLoad_here_inTx {pa : Nat} (hr : revokedNow t = false) (hd : 0 < t.tx.depth) (hl : o.loc = .here pa) (he : o.excl = false) :
    issueLoad s k t o = .ok (issueOp (uncounted o.cold s (txView s t pa o.size o.zf).2) k { t with pts := max t.pts (txView s t pa o.size o.zf).1.ts }
      { o with inTx := true, performed := true, visible := true, value := (txView s t pa o.size o.zf).1.value, poisoned := (txView s t pa o.size o.zf).1.poison }) := by
  obtain ⟨⟩ := o
  subst he
  simp_all [issueLoad, versioned]

/-- A body's load of a place that R233 excludes aborts the body (R234). -/
theorem issueLoad_excluded_inTx (hd : 0 < t.tx.depth) (hv : versioned o.loc = false) :
    issueLoad s k t o = .ok (issueOp s k (abortTx t 3) { o with excl := true, inTx := true }) := by
  obtain ⟨⟩ := o
  cases ‹Loc› with
  | here pa => cases hv
  | window asid va => cases hv
  | host pa => simp [issueLoad, hd, versioned, remoteAbort]
  | remote pkg asid va => simp [issueLoad, hd, versioned, remoteAbort]

end

/-- The issue of a load in a lane. -/
theorem loadIssued_issueLoad (w : WordSpec) (c : Ctx) (wid : Nat) (s u : State) (k : Nat) (t : Thread) (va : Nat) (l : Leaf) (n : Nat) (form : LoadForm)
    (d : Reg) (r : Nat) : LoadIssued c wid u k t va l n form d r (finish w c) (laneEnd w c s k (issueLoad { u with nextId := u.nextId + 1 } k t
      { newOp c wid u.nextId t .ld (.load form) va (locOf l (gridOf u t).asid va) n with zf := l.zf, dest := d.toNat, dlen := r })) := by
  refine ⟨fun hr hv => ?_, fun hr hd hv => ?_, fun hd hv => ?_, fun hr hd ⟨_, _, hl⟩ => ?_, fun hr hd pa hl => ?_, fun hd hv => ?_⟩
  · rw [issueLoad_revoked hr hv]; rfl
  · rw [issueLoad_outside hr hd hv rfl rfl]; exact .laneEnd_ok _ _ _ _ _ _
  · rw [issueLoad_excluded hd hv rfl]; exact .laneEnd_ok _ _ _ _ _ _
  · rw [issueLoad_window_inTx hr hd hl rfl]; exact .laneEnd_ok _ _ _ _ _ _
  · rw [issueLoad_here_inTx hr hd hl rfl]; exact .laneEnd_ok _ _ _ _ _ _
  · rw [issueLoad_excluded_inTx hd hv]; exact .laneEnd_ok _ _ _ _ _ _

/-- The port that issued the word is free of it. -/
theorem LoadIssued.done {c : Ctx} {wid : Nat} {u : State} {k : Nat} {t : Thread} {va : Nat} {l : Leaf} {n : Nat} {form : LoadForm} {d : Reg} {r : Nat}
    {f : Thread → Thread} {v : State} (hr : revokedNow t = false) (h : LoadIssued c wid u k t va l n form d r f v) :
    LoadIssued c wid u k t va l n form d r f (done v) := by
  obtain ⟨-, h1, h2, h3, h4, h5⟩ := h
  exact ⟨fun h => absurd (hr.symm.trans h) Bool.false_ne_true, fun a b e => (h1 a b e).done, fun a b => (h2 a b).done, fun a b e => (h3 a b e).done,
    fun a b pa e => (h4 a b pa e).done, fun a b => (h5 a b).done⟩

/-- What a global load is checked for before its lanes (R243). -/
def loadSpec (f : LoadForm) (pg : PredIx) (d a : Reg) : WordSpec :=
  { opSpec [sp2 a] [(d.toNat, (loadShape f).2, (loadShape f).2)] with guard := pg, hints := [3], adds := [(.ld, 1)] }

section
variable {i : Instr} {f : LoadForm} {pg : PredIx} {d a : Reg} {imm : BitVec 7} (he : ∀ s, exec i s = loadWord f pg d a imm s)
include he

theorem exec_loadWord (s : State) : exec i s = globalWord (loadSpec f pg d a) .load (loadShape f).1 (amAddr a imm (loadShape f).1) (fun c wid s k t va l =>
    issueLoad { s with nextId := s.nextId + 1 } k t { newOp c wid s.nextId t .ld (.load f) va (locOf l (gridOf s t).asid va) (loadShape f).1 with
      zf := l.zf, dest := d.toNat, dlen := (loadShape f).2 }) s := he s

theorem loadWord_lanes : GlobalLanes (loadSpec f pg d a) i .load (loadShape f).1 (amAddr a imm (loadShape f).1) fun c wid u k t va l v =>
    LoadIssued c wid u k t va l (loadShape f).1 f d (loadShape f).2 (finish (loadSpec f pg d a) c) v :=
  globalLanes_of_body (exec_loadWord he) fun c wid s u k t va l => loadIssued_issueLoad _ c wid s u k t va l _ f d _

theorem loadWord_completes : GlobalCompletes (loadSpec f pg d a) i .load (loadShape f).1 (amAddr a imm (loadShape f).1) (fun t => revokedNow t = false)
    fun c wid u k t va l v => LoadIssued c wid u k t va l (loadShape f).1 f d (loadShape f).2 (finish (loadSpec f pg d a) c) v :=
  (loadWord_lanes he).completes (fun _ _ => rfl) (fun _ _ => rfl) .done

theorem loadWord_skips (s : State) (c : Ctx) (ks : List Nat) (hgo : prelude (loadSpec f pg d a) s = .go c ks)
    (hm : missing s (loadSpec f pg d a) .load (loadShape f).1 (amAddr a imm (loadShape f).1) ks = []) : ∃ f' : State → Nat → State,
      exec i s = .next (done (laneLoop f' { s with nextId := s.nextId + 1 } ks)) ∧ ∀ u k t, getThread u k = some t → readPred t pg = false →
        LaneEnds k u (finish (loadSpec f pg d a) c (schedQuiet u c t)) (f' u k) :=
  globalWord_skips (exec_loadWord he) hgo hm

end

end Sys2Proof.Machine

section
open Sys2Proof Sys2Proof.Machine

/-- Settles O29: every form by `loadWord_lanes`, `loadWord_completes` and `loadWord_skips`. -/
theorem globalLoadsIssue : Obligations.GlobalLoadsIssue :=
  ⟨fun _ _ _ _ => loadWord_lanes (f := .n8) fun _ => rfl, fun _ _ _ _ => loadWord_completes (f := .n8) fun _ => rfl,
    fun _ _ _ _ => loadWord_lanes (f := .i8) fun _ => rfl, fun _ _ _ _ => loadWord_completes (f := .i8) fun _ => rfl,
    fun _ _ _ _ => loadWord_lanes (f := .n16) fun _ => rfl, fun _ _ _ _ => loadWord_completes (f := .n16) fun _ => rfl,
    fun _ _ _ _ => loadWord_lanes (f := .i16) fun _ => rfl, fun _ _ _ _ => loadWord_completes (f := .i16) fun _ => rfl,
    fun _ _ _ _ => loadWord_lanes (f := .w32) fun _ => rfl, fun _ _ _ _ => loadWord_completes (f := .w32) fun _ => rfl,
    fun _ _ _ _ => loadWord_lanes (f := .w64) fun _ => rfl, fun _ _ _ _ => loadWord_completes (f := .w64) fun _ => rfl,
    fun _ _ _ _ => loadWord_lanes (f := .w128) fun _ => rfl, fun _ _ _ _ => loadWord_completes (f := .w128) fun _ => rfl,
    fun _ _ _ _ => loadWord_skips (f := .n8) fun _ => rfl, fun _ _ _ _ => loadWord_skips (f := .i8) fun _ => rfl,
    fun _ _ _ _ => loadWord_skips (f := .n16) fun _ => rfl, fun _ _ _ _ => loadWord_skips (f := .i16) fun _ => rfl,
    fun _ _ _ _ => loadWord_skips (f := .w32) fun _ => rfl, fun _ _ _ _ => loadWord_skips (f := .w64) fun _ => rfl,
    fun _ _ _ _ => loadWord_skips (f := .w128) fun _ => rfl⟩

end

namespace Sys2Proof.Machine

/-! The stores (R234, R244, R395). -/

section
variable {s : State} {k : Nat} {t : Thread} {o : Op} {x : Nat}

theorem issueStore_outside (hd : t.tx.depth = 0) : issueStore s k t o x = .ok (issueOp s k t o) := if_neg (by omega)

/-- A body's store of a line of this package enters the write set (R234). -/
theorem issueStore_here_inTx {pa : Nat} (hd : 0 < t.tx.depth) (hl : o.loc = .here pa) :
    issueStore s k t o x = .ok (setThread s k (addDone (enterWs t pa (natLe o.size x)) o.id .st)) := by
  simp only [issueStore, if_pos hd, hl]

/-- A body's store elsewhere aborts the body (R234). -/
theorem issueStore_elsewhere_inTx (hd : 0 < t.tx.depth) (hl : ∀ pa, o.loc ≠ .here pa) :
    issueStore s k t o x = .ok (setThread s k (addDone (abortTx t 3) o.id .st)) := by
  rw [issueStore, if_pos hd]
  split
  · exact absurd ‹_› (hl _)
  · rfl

end

/-- The issue of a store in a lane. -/
theorem storeIssued_issueStore (w : WordSpec) (c : Ctx) (wid : Nat) (s u : State) (k : Nat) (t : Thread) (va : Nat) (l : Leaf) (n x : Nat) :
    StoreIssued c wid u k t va l n (.store x) (fun pa => enterWs t pa (natLe n x)) (finish w c) (laneEnd w c s k
      (issueStore { u with nextId := u.nextId + 1 } k t (newOp c wid u.nextId t .st (.store x) va (locOf l (gridOf u t).asid va) n) x)) := by
  refine ⟨fun hd => ?_, fun hd pa hl => ?_, fun hd hl => ?_⟩
  · rw [issueStore_outside hd]; exact .laneEnd_ok _ _ _ _ _ _
  · rw [issueStore_here_inTx hd hl]; exact .laneEnd_ok _ _ _ _ _ _
  · rw [issueStore_elsewhere_inTx hd hl]; exact .laneEnd_ok _ _ _ _ _ _

theorem StoreIssued.done {c : Ctx} {wid : Nat} {u : State} {k : Nat} {t : Thread} {va : Nat} {l : Leaf} {n : Nat} {kind : OpKind} {ws : Nat → Thread}
    {f : Thread → Thread} {v : State} (h : StoreIssued c wid u k t va l n kind ws f v) : StoreIssued c wid u k t va l n kind ws f (done v) := by
  obtain ⟨h1, h2, h3⟩ := h
  exact ⟨fun a => (h1 a).done, fun a pa e => (h2 a pa e).done, fun a e => (h3 a e).done⟩

/-- What a global store from `r` registers is checked for before its lanes (R244). -/
def storeSpec (r : Nat) (pg : PredIx) (d a : Reg) : WordSpec :=
  { opSpec [sp2 a, (d.toNat, r, r)] [] with guard := pg, hints := [3], adds := [(.st, 1)] }

/-- A lane after a global store of `n` bytes from `r` registers. -/
def StoreEnds (n r : Nat) (pg : PredIx) (d a : Reg) (c : Ctx) (wid : Nat) (u : State) (k : Nat) (t : Thread) (va : Nat) (l : Leaf) (v : State) : Prop :=
  let x := spanNat (readSpan t d.toNat r) % 2 ^ (8 * n)
  StoreIssued c wid u k t va l n (.store x) (fun pa => enterWs t pa (natLe n x)) (finish (storeSpec r pg d a) c) v

section
variable {i : Instr} {n r : Nat} {pg : PredIx} {d a : Reg} {imm : BitVec 7} (he : ∀ s, exec i s = storeWord n r pg d a imm s)
include he

theorem exec_storeWord (s : State) : exec i s = globalWord (storeSpec r pg d a) .store n (amAddr a imm n) (fun c wid s k t va l =>
    issueStore { s with nextId := s.nextId + 1 } k t (newOp c wid s.nextId t .st (.store (spanNat (readSpan t d.toNat r) % 2 ^ (8 * n))) va
      (locOf l (gridOf s t).asid va) n) (spanNat (readSpan t d.toNat r) % 2 ^ (8 * n))) s := he s

theorem storeWord_lanes : GlobalLanes (storeSpec r pg d a) i .store n (amAddr a imm n) (StoreEnds n r pg d a) :=
  globalLanes_of_body (exec_storeWord he) fun c wid s u k t va l => storeIssued_issueStore _ c wid s u k t va l n _

theorem storeWord_completes : GlobalCompletes (storeSpec r pg d a) i .store n (amAddr a imm n) (fun _ => True) (StoreEnds n r pg d a) :=
  (storeWord_lanes he).completes (fun _ _ => rfl) (fun _ _ => rfl) fun _ h => h.done

theorem storeWord_skips (s : State) (c : Ctx) (ks : List Nat) (hgo : prelude (storeSpec r pg d a) s = .go c ks)
    (hm : missing s (storeSpec r pg d a) .store n (amAddr a imm n) ks = []) : ∃ f : State → Nat → State,
      exec i s = .next (done (laneLoop f { s with nextId := s.nextId + 1 } ks)) ∧ ∀ u k t, getThread u k = some t → readPred t pg = false →
        LaneEnds k u (finish (storeSpec r pg d a) c (schedQuiet u c t)) (f u k) :=
  globalWord_skips (exec_storeWord he) hgo hm

end

end Sys2Proof.Machine

section
open Sys2Proof Sys2Proof.Machine

/-- Settles O30: every form by `storeWord_lanes`, `storeWord_completes` and `storeWord_skips`. -/
theorem globalStoresIssue : Obligations.GlobalStoresIssue :=
  ⟨fun _ _ _ _ => storeWord_lanes (n := 1) (r := 1) fun _ => rfl, fun _ _ _ _ => storeWord_completes (n := 1) (r := 1) fun _ => rfl,
    fun _ _ _ _ => storeWord_lanes (n := 2) (r := 1) fun _ => rfl, fun _ _ _ _ => storeWord_completes (n := 2) (r := 1) fun _ => rfl,
    fun _ _ _ _ => storeWord_lanes (n := 4) (r := 1) fun _ => rfl, fun _ _ _ _ => storeWord_completes (n := 4) (r := 1) fun _ => rfl,
    fun _ _ _ _ => storeWord_lanes (n := 8) (r := 2) fun _ => rfl, fun _ _ _ _ => storeWord_completes (n := 8) (r := 2) fun _ => rfl,
    fun _ _ _ _ => storeWord_lanes (n := 16) (r := 4) fun _ => rfl, fun _ _ _ _ => storeWord_completes (n := 16) (r := 4) fun _ => rfl,
    fun _ _ _ _ => storeWord_skips (n := 1) (r := 1) fun _ => rfl, fun _ _ _ _ => storeWord_skips (n := 2) (r := 1) fun _ => rfl,
    fun _ _ _ _ => storeWord_skips (n := 4) (r := 1) fun _ => rfl, fun _ _ _ _ => storeWord_skips (n := 8) (r := 2) fun _ => rfl,
    fun _ _ _ _ => storeWord_skips (n := 16) (r := 4) fun _ => rfl⟩

end

namespace Sys2Proof.Machine

/-! The atomics (R234, R247 to R249). -/

section
variable {s : State} {k : Nat} {t : Thread} {o : Op} {f : Rmw} {x : Nat}

theorem issueRmw_outside (hd : t.tx.depth = 0) : issueRmw s k t o f x = .ok (issueOp s k t o) := if_neg (by omega)

/-- A body's atomic on a line of this package works in its view, and writes nothing where its comparison fails or the line is poisoned
(R234, R248). -/
theorem issueRmw_here_inTx {pa : Nat} (hd : 0 < t.tx.depth) (hl : o.loc = .here pa) : issueRmw s k t o f x =
    let a := (txView s t pa o.size o.zf).1
    let t' := if a.poison = false ∧ f.writes a.value = true then enterWs t pa (natLe o.size (f.apply a.value x)) else t
    .ok (issueOp (uncounted o.cold s (txView s t pa o.size o.zf).2) k { t' with pts := max t'.pts a.ts }
      { o with inTx := true, performed := true, visible := true, value := a.value, poisoned := a.poison }) := by
  simp only [issueRmw, if_pos hd, hl]
  cases (txView s t pa o.size o.zf).1.poison <;> cases f.writes (txView s t pa o.size o.zf).1.value <;> rfl

/-- A body's atomic elsewhere aborts the body and only reads (R249). -/
theorem issueRmw_elsewhere_inTx (hd : 0 < t.tx.depth) (hl : ∀ pa, o.loc ≠ .here pa) :
    issueRmw s k t o f x = .ok (issueOp s k (abortTx t 3) { o with kind := .load (if o.size = 8 then .w64 else .w32), inTx := true }) := by
  rw [issueRmw, if_pos hd]
  split
  · exact absurd ‹_› (hl _)
  · rfl

end

/-- The issue of an atomic in a lane. -/
theorem rmwIssued_issueRmw (w : WordSpec) (c : Ctx) (wid : Nat) (s u : State) (k : Nat) (t : Thread) (va : Nat) (l : Leaf) (n : Nat) (f : Rmw) (x : Nat)
    (d : Reg) (r : Nat) : RmwIssued c wid u k t va l n f x d r (finish w c) (laneEnd w c s k (issueRmw { u with nextId := u.nextId + 1 } k t
      { newOp c wid u.nextId t .ld (.rmw f x) va (locOf l (gridOf u t).asid va) n with dest := d.toNat, dlen := r } f x)) := by
  refine ⟨fun hd => ?_, fun hd pa hl => ?_, fun hd hl => ?_⟩
  · rw [issueRmw_outside hd]; exact .laneEnd_ok _ _ _ _ _ _
  · rw [issueRmw_here_inTx hd hl]; exact .laneEnd_ok _ _ _ _ _ _
  · rw [issueRmw_elsewhere_inTx hd hl]; exact .laneEnd_ok _ _ _ _ _ _

theorem RmwIssued.done {c : Ctx} {wid : Nat} {u : State} {k : Nat} {t : Thread} {va : Nat} {l : Leaf} {n : Nat} {g : Rmw} {x : Nat} {d : Reg} {r : Nat}
    {f : Thread → Thread} {v : State} (h : RmwIssued c wid u k t va l n g x d r f v) : RmwIssued c wid u k t va l n g x d r f (done v) := by
  obtain ⟨h1, h2, h3⟩ := h
  exact ⟨fun a => (h1 a).done, fun a pa e => (h2 a pa e).done, fun a e => (h3 a e).done⟩

/-- What an atomic is checked for before its lanes (R247, R248). -/
def rmwSpec (w : WordSpec) : WordSpec := { w with hints := [3], adds := [(.ld, 1)] }

/-- A lane after an atomic of `r` registers. -/
def RmwEnds (w : WordSpec) (r : Nat) (d b : Reg) (f : Thread → Rmw) (c : Ctx) (wid : Nat) (u : State) (k : Nat) (t : Thread) (va : Nat) (l : Leaf)
    (v : State) : Prop :=
  RmwIssued c wid u k t va l (4 * r) (f t) (spanNat (readSpan t b.toNat r)) d r (finish (rmwSpec w) c) v

section
variable {i : Instr} {w : WordSpec} {r : Nat} {d a b : Reg} {f : Thread → Rmw} (he : ∀ s, exec i s = rmwWord w r d a b f s)
include he

theorem exec_rmwWord (s : State) : exec i s = globalWord (rmwSpec w) .atomic (4 * r) (pairAddr a) (fun c wid s k t va l =>
    issueRmw { s with nextId := s.nextId + 1 } k t { newOp c wid s.nextId t .ld (.rmw (f t) (spanNat (readSpan t b.toNat r))) va
      (locOf l (gridOf s t).asid va) (4 * r) with dest := d.toNat, dlen := r } (f t) (spanNat (readSpan t b.toNat r))) s := he s

theorem rmwWord_lanes : GlobalLanes (rmwSpec w) i .atomic (4 * r) (pairAddr a) (RmwEnds w r d b f) :=
  globalLanes_of_body (exec_rmwWord he) fun c wid s u k t va l => rmwIssued_issueRmw _ c wid s u k t va l _ _ _ d r

theorem rmwWord_completes : GlobalCompletes (rmwSpec w) i .atomic (4 * r) (pairAddr a) (fun _ => True) (RmwEnds w r d b f) :=
  (rmwWord_lanes he).completes (fun _ _ => rfl) (fun _ _ => rfl) fun _ h => h.done

end

/-! The new values (R247, R248). -/

theorem apply_atom_minI (old x : Word) : (Rmw.atom .minI).apply old.toNat x.toNat = (if x.slt old then x else old).toNat := by
  simp only [Rmw.apply, sext_toNat, BitVec.slt_eq_decide, decide_eq_true_eq]
  split <;> rfl

theorem apply_atom_maxI (old x : Word) : (Rmw.atom .maxI).apply old.toNat x.toNat = (if old.slt x then x else old).toNat := by
  simp only [Rmw.apply, sext_toNat, BitVec.slt_eq_decide, decide_eq_true_eq]
  split <;> rfl

end Sys2Proof.Machine

section
open Sys2Proof Sys2Proof.Machine

/-- Settles O31: every word by `rmwWord_lanes` and `rmwWord_completes`, the signed minimum and maximum by `apply_atom_minI` and `apply_atom_maxI`. -/
theorem atomicsIssue : Obligations.AtomicsIssue :=
  ⟨fun _ _ _ _ => rmwWord_lanes (r := 1) fun _ => rfl, fun _ _ _ _ => rmwWord_completes (r := 1) fun _ => rfl,
    fun _ _ _ _ => rmwWord_lanes (r := 2) fun _ => rfl, fun _ _ _ _ => rmwWord_completes (r := 2) fun _ => rfl,
    fun _ _ _ _ => rmwWord_lanes (r := 1) fun _ => rfl, fun _ _ _ _ => rmwWord_completes (r := 1) fun _ => rfl,
    fun _ _ _ => rmwWord_lanes (r := 1) fun _ => rfl, fun _ _ _ => rmwWord_completes (r := 1) fun _ => rfl,
    fun _ _ _ => rmwWord_lanes (r := 2) fun _ => rfl, fun _ _ _ => rmwWord_completes (r := 2) fun _ => rfl,
    fun old x => ⟨(BitVec.toNat_add old x).symm, rfl, apply_atom_minI old x, apply_atom_maxI old x, rfl, rfl, (BitVec.toNat_and old x).symm,
      (BitVec.toNat_or old x).symm⟩,
    fun _ _ _ _ => ⟨rfl, beq_iff_eq⟩⟩

end

namespace Sys2Proof.Machine

/-! RADD and RFLUSH (R222, R234, R250, R251). -/

section
variable {s : State} {k : Nat} {t : Thread} {o : Op} {f : RaddKind} {x : Nat}

theorem issueRadd_outside (hd : t.tx.depth = 0) : issueRadd s k t o f x = .ok (issueOp s k t o) := if_neg (by omega)

/-- A body's RADD to a line of this package enters the write set (R234). -/
theorem issueRadd_here_inTx {pa : Nat} (hd : 0 < t.tx.depth) (hl : o.loc = .here pa) :
    issueRadd s k t o f x = .ok (setThread s k (addDone (enterRadd t pa f x) o.id .st)) := by
  simp only [issueRadd, if_pos hd, hl]

/-- A body's RADD elsewhere aborts the body (R234). -/
theorem issueRadd_elsewhere_inTx (hd : 0 < t.tx.depth) (hl : ∀ pa, o.loc ≠ .here pa) :
    issueRadd s k t o f x = .ok (setThread s k (addDone (abortTx t 3) o.id .st)) := by
  rw [issueRadd, if_pos hd]
  split
  · exact absurd ‹_› (hl _)
  · rfl

end

/-- The issue of a RADD in a lane. -/
theorem raddIssued_issueRadd (w : WordSpec) (c : Ctx) (wid : Nat) (s u : State) (k : Nat) (t : Thread) (va : Nat) (l : Leaf) (n : Nat) (g : RaddKind)
    (x : Nat) : RaddIssued c wid u k t va l n g x (finish w c) (laneEnd w c s k
      (issueRadd { u with nextId := u.nextId + 1 } k t (newOp c wid u.nextId t .st (.radd g x) va (locOf l (gridOf u t).asid va) n) g x)) := by
  refine ⟨fun hd => ?_, fun hd pa hl => ?_, fun hd hl => ?_⟩
  · rw [issueRadd_outside hd]; exact .laneEnd_ok _ _ _ _ _ _
  · rw [issueRadd_here_inTx hd hl]; exact .laneEnd_ok _ _ _ _ _ _
  · rw [issueRadd_elsewhere_inTx hd hl]; exact .laneEnd_ok _ _ _ _ _ _

theorem RaddIssued.done {c : Ctx} {wid : Nat} {u : State} {k : Nat} {t : Thread} {va : Nat} {l : Leaf} {n : Nat} {g : RaddKind} {x : Nat}
    {f : Thread → Thread} {v : State} (h : RaddIssued c wid u k t va l n g x f v) : RaddIssued c wid u k t va l n g x f (done v) := by
  obtain ⟨h1, h2, h3⟩ := h
  exact ⟨fun a => (h1 a).done, fun a pa e => (h2 a pa e).done, fun a e => (h3 a e).done⟩

/-- What a RADD is checked for before its lanes (R250). -/
def raddSpec (m : RaddKind) (a b : Reg) : WordSpec := { opSpec [sp2 a, (b.toNat, raddCount m, raddCount m)] [] with adds := [(.st, 1)] }

/-- A lane after a RADD. -/
def RaddEnds (m : RaddKind) (a b : Reg) (c : Ctx) (wid : Nat) (u : State) (k : Nat) (t : Thread) (va : Nat) (l : Leaf) (v : State) : Prop :=
  RaddIssued c wid u k t va l (4 * raddCount m) m (spanNat (readSpan t b.toNat (raddCount m))) (finish (raddSpec m a b) c) v

theorem exec_radd (m : RaddKind) (a b : Reg) (s : State) : exec (.radd m a b) s =
    globalWord (raddSpec m a b) .radd (4 * raddCount m) (pairAddr a) (fun c wid s k t va l =>
      issueRadd { s with nextId := s.nextId + 1 } k t (newOp c wid s.nextId t .st (.radd m (spanNat (readSpan t b.toNat (raddCount m)))) va
        (locOf l (gridOf s t).asid va) (4 * raddCount m)) m (spanNat (readSpan t b.toNat (raddCount m)))) s := rfl

theorem radd_lanes (m : RaddKind) (a b : Reg) :
    GlobalLanes (raddSpec m a b) (.radd m a b) .radd (4 * raddCount m) (pairAddr a) (RaddEnds m a b) :=
  globalLanes_of_body (exec_radd m a b) fun c wid s u k t va l => raddIssued_issueRadd _ c wid s u k t va l _ m _

theorem radd_completes (m : RaddKind) (a b : Reg) :
    GlobalCompletes (raddSpec m a b) (.radd m a b) .radd (4 * raddCount m) (pairAddr a) (fun _ => True) (RaddEnds m a b) :=
  (radd_lanes m a b).completes (fun _ _ => rfl) (fun _ _ => rfl) fun _ h => h.done

/-- The one element of a RADD is kept as an add where the write set has nothing of its word (R234). -/
theorem enterRadd_one {k : RaddKind} {t : Thread} {pa x : Nat} {e : Nat × Word} (ha : t.tx.active = true)
    (hroom : t.tx.lines.contains (pa / 128) = true ∨ t.tx.lines.length < Config.writeSetLines) (hadds : t.tx.adds = []) (he : raddElems k pa x = [e])
    (hws : ∀ i, i < 4 → tget t.tx.ws (pa / 128 * 128 + 4 * e.1 + i) = none) :
    enterRadd t pa k x = { t with tx := { t.tx with adds := [(pa / 128 * 32 + e.1, [.add (raddInt k) e.2])] } } := by
  have hnone (w : Nat) : t.tx.wordMods w = [] := by rw [Tx.wordMods, hadds]; rfl
  have hholds : t.tx.holds (4 * (pa / 128 * 32 + e.1) + 0) = false := by
    rw [Tx.holds, hnone, show 4 * (pa / 128 * 32 + e.1) + 0 = pa / 128 * 128 + 4 * e.1 + 0 by omega, hws 0 (by decide)]
    rfl
  have hnot : ¬ (t.tx.wordMods (pa / 128 * 32 + e.1) = [] ∧ (List.range 4).all fun i => t.tx.holds (4 * (pa / 128 * 32 + e.1) + i)) := by
    rw [List.all_eq_true]
    exact fun h => absurd (hholds.symm.trans (h.2 0 (by decide))) Bool.false_ne_true
  rw [enterRadd, enterLine, if_neg (by simp [ha]), if_pos hroom, he]
  simp only [List.map_cons, List.map_nil, List.foldl_cons, List.foldl_nil, Tx.addWord]
  rw [if_neg hnot, hnone, hadds]
  rfl

/-- The lines that an RFLUSH flushes (R251). -/
def flushSel (m : RflushScope) (c : Ctx) (ln : Nat) : Bool := match m with
  | .die => homedOn (dieOf c.core) ln
  | .pkg => true

theorem flushWhere_nextId (s : State) (f : Nat → Bool) : (flushWhere s f).nextId = s.nextId := by
  have h : OnlySettled s (flushWhere s f) := (OnlySettled.foldWhere s f).trans (.writeBackWhere _ _)
  rw [OnlySettled] at h
  rw [h]

theorem rflush_lanes (m : RflushScope) (s : State) : LaneByLane s { opSpec [] [] with adds := [(.st, 1)] } (.rflush m) always (fun _ => s) fun c u k t v =>
    LaneEnds k { flushWhere u (flushSel m c) with nextId := u.nextId + 1 } (finish { opSpec [] [] with adds := [(.st, 1)] } c (addDone t u.nextId .st)) v ∧
      (LinesOk u → Flushed (flushSel m c) u (flushWhere u (flushSel m c))) :=
  issueWord_lanes_of_body rfl fun c u k t => by
    refine ⟨?_, fun h => flushWhere_flushed h _⟩
    rw [← flushWhere_nextId u (flushSel m c)]
    exact .laneEnd_ok _ _ _ _ _ _

end Sys2Proof.Machine

section
open Sys2Proof Sys2Proof.Machine

/-- Settles O32: RADD by `radd_lanes` and `radd_completes`, RFLUSH by `rflush_lanes`, the write set by `enterRadd_one`. -/
theorem reductionsIssue : Obligations.ReductionsIssue := by
  refine ⟨radd_lanes .f32, radd_completes .f32, radd_lanes .f32x2, radd_completes .f32x2, radd_lanes .f32x4, radd_completes .f32x4,
    radd_lanes .i32, radd_completes .i32, fun m s => rflush_lanes m s, fun m => ?_, fun k t pa x e ha hroom hadds he hws => ?_⟩
  · exact LaneByLane.completes fun s => (rflush_lanes m s).imp fun c u k t v h _ => ⟨h.1.done, h.2⟩
  · rw [enterRadd_one ha hroom hadds he hws]
    exact ⟨by rw [Tx.wordMods]; exact congrArg (Option.getD · []) (if_pos rfl), rfl, rfl⟩

end

/-! O37 to O40: WAIT, fences, barriers and transactions (spec/11_ordering.md, spec/12_memory_ops.md, spec/20_counters.md). -/

namespace Sys2Proof.Machine

/-! WAIT (R225, R398). -/

theorem waitMet_iff {t : Thread} {ld st : BitVec 6} {cp tl : BitVec 4} : waitMet t ld st cp tl = true ↔
    (ld = 63 ∨ count t .ld ≤ ld.toNat) ∧ (st = 63 ∨ count t .st ≤ st.toNat) ∧ (cp = 15 ∨ count t .cp ≤ cp.toNat) ∧ (tl = 15 ∨ count t .tl ≤ tl.toNat) := by
  have hsix (x : BitVec 6) : x.toNat = 63 ↔ x = 63 := ⟨fun h => BitVec.eq_of_toNat_eq h, fun h => h ▸ rfl⟩
  have hfour (x : BitVec 4) : x.toNat = 15 ↔ x = 15 := ⟨fun h => BitVec.eq_of_toNat_eq h, fun h => h ▸ rfl⟩
  simp only [waitMet, Bool.and_eq_true, Bool.or_eq_true, beq_iff_eq, decide_eq_true_eq, hsix, hfour, and_assoc]

/-- A maximum over a list, from a start, is at least the start and what each member gives. -/
theorem le_foldl_max {α : Type} (g : α → Nat) (l : List α) (p : Nat) : p ≤ l.foldl (fun n e => max n (g e)) p ∧ ∀ e ∈ l, g e ≤ l.foldl (fun n e => max n (g e)) p := by
  induction l generalizing p with
  | nil => exact ⟨le_refl p, fun e he => absurd he List.not_mem_nil⟩
  | cons x l ih =>
    obtain ⟨hp, hl⟩ := ih (max p (g x))
    refine ⟨(le_max_left _ _).trans hp, fun e he => ?_⟩
    rcases List.mem_cons.1 he with rfl | he
    · exact (le_max_right _ _).trans hp
    · exact hl e he

/-- What a WAIT that completes makes of its thread (R225). -/
structure Joined (cp : BitVec 4) (t x : Thread) : Prop where
  same : x = { t with pts := x.pts, retF := x.retF }
  pts : t.pts ≤ x.pts
  idle : cp = 15 → x = t
  covered : cp ≠ 15 → ∀ e ∈ t.retF, e.1 + cp.toNat ≤ t.cpIssued → e.2 ≤ x.pts ∧ e ∉ x.retF

theorem joined_waitJoin (t : Thread) (cp : BitVec 4) : Joined cp t (waitJoin t cp) := by
  by_cases hcp : cp = 15
  · subst hcp
    exact ⟨rfl, le_refl _, fun _ => rfl, fun h => absurd rfl h⟩
  · have hw : waitJoin t cp = { t with
        pts := (t.retF.filter fun e => decide (e.1 + cp.toNat ≤ t.cpIssued)).foldl (fun n e => max n e.2) t.pts
        retF := t.retF.filter fun e => !decide (e.1 + cp.toNat ≤ t.cpIssued) } := if_neg fun h => hcp (BitVec.eq_of_toNat_eq h)
    obtain ⟨hpts, hall⟩ := le_foldl_max (fun e : Nat × Nat => e.2) (t.retF.filter fun e => decide (e.1 + cp.toNat ≤ t.cpIssued)) t.pts
    rw [hw]
    refine ⟨rfl, hpts, fun h => absurd h hcp, fun _ e he hc => ⟨hall e (List.mem_filter.2 ⟨he, decide_eq_true hc⟩), fun hm => ?_⟩⟩
    simp [hc] at hm

/-- What WAIT does in a lane. -/
structure WaitEnds (ld st : BitVec 6) (cp tl : BitVec 4) (c : Ctx) (u : State) (k : Nat) (t : Thread) (v : State) : Prop where
  waits : waitMet t ld st cp tl = false → LaneEnds k u (waiting c t .wait (.wait ld st cp tl)) v
  faults : waitMet t ld st cp tl = true → ∀ b, waitBad t ld = some b → v = deliver (setThread u k (dropBad t b)) k (badCode b) b.addr c.fpc
  joins : waitMet t ld st cp tl = true → waitBad t ld = none → LaneEnds k u (finish {} c (waitJoin t cp)) v

theorem wait_lanes (ld st : BitVec 6) (cp tl : BitVec 4) (s : State) :
    LaneByLane s {} (.wait ld st cp tl) always (fun _ => s) (WaitEnds ld st cp tl) :=
  issueWord_lanes_of_body rfl fun c u k t => by
    refine ⟨fun h => ?_, fun h b hb => ?_, fun h hb => ?_⟩
    · rw [if_neg (by simp [h])]; exact (LaneEnds.setThread u k _).leaveBundle
    · rw [if_pos h, hb]; rfl
    · rw [if_pos h, hb]; exact .laneEnd_ok _ _ _ _ _ _

end Sys2Proof.Machine

section
open Sys2Proof Sys2Proof.Machine

/-- Settles O37: the word by `wait_lanes`, its condition by `waitMet_iff`, what it joins by `joined_waitJoin`. -/
theorem waitCompletes : Obligations.WaitCompletes := by
  refine ⟨fun ld st cp tl s => (wait_lanes ld st cp tl s).imp fun c u k t v h => ?_,
    fun ld st cp tl => LaneByLane.completes fun s => (wait_lanes ld st cp tl s).imp fun c u k t v h ⟨hl, hs, hc, ht, hb⟩ => ?_⟩
  · intro met
    refine ⟨fun hm => ⟨_, h.waits (Bool.eq_false_iff.2 fun e => hm (waitMet_iff.1 e)), rfl, rfl, rfl, rfl⟩,
      fun hm b hb => h.faults (waitMet_iff.2 hm) b hb, fun hm hb => ?_⟩
    have hj := joined_waitJoin t cp
    exact ⟨_, h.joins (waitMet_iff.2 hm) hb, hj.same, hj.pts, hj.idle, hj.covered⟩
  · have hj := joined_waitJoin t cp
    exact ⟨_, (h.joins (waitMet_iff.2 ⟨hl, hs, hc, ht⟩) hb).done, hj.same, hj.pts, hj.idle, hj.covered⟩

end

namespace Sys2Proof.Machine

/-! Fences (R223, R267). -/

/-- The lanes of a FENCE, which have nothing to do (R267). -/
def fenceLanes (c : Ctx) (s : State) (ks : List Nat) : State := laneLoop (laneStep { order := true } c fun s k t => .ok (setThread s k t)) s ks

theorem exec_fence (m : FenceScope) (s : State) : exec (.fence m) s = issueGo { order := true } (fun c ks s => match m with
    | .tgt => fenceLanes c s ks
    | .sys => if ks.any (owes s) || flushWaits s then s else fenceLanes c (settleAll s) ks) s := rfl

theorem fenceTgt_lanes (s : State) : LaneByLane s { order := true } (.fence .tgt) always (fun _ => s) fun c u k t v =>
    LaneEnds k u (finish { order := true } c t) v :=
  issueGo_lanes (fun _ u k t => .ok (setThread u k t)) (exec_fence .tgt s) (fun _ _ _ => rfl) fun c u k t => .laneEnd_ok _ c u u k t

theorem fenceSys_lanes (s : State) : LaneByLane s { order := true } (.fence .sys) (fun _ ks => (∀ k ∈ ks, owes s k = false) ∧ flushWaits s = false)
    (fun _ => settleAll s) fun c u k t v => LaneEnds k u (finish { order := true } c t) v :=
  issueGo_lanes (fun _ u k t => .ok (setThread u k t)) (exec_fence .sys s) (fun _ _ h => if_neg (by simpa [h.2] using h.1))
    fun c u k t => .laneEnd_ok _ c u u k t

theorem dirty_clock (s : State) (ln : Nat) : (dirty s ln).bd.clock = s.bd.clock := by
  unfold dirty; split <;> rfl

theorem foldLine_clock (s : State) (ln : Nat) : (foldLine s ln).bd.clock = s.bd.clock := by
  unfold foldLine
  split
  · rfl
  · exact dirty_clock s ln

theorem settleAll_clock (s : State) : (settleAll s).bd.clock = s.bd.clock := by
  have hfold : (foldWhere s fun _ => true).bd.clock = s.bd.clock :=
    foldl_keeps (p := fun s => s.bd.clock) (f := fun s ln => if (fun _ => true) ln = true then foldLine s ln else s) (fun s ln => foldLine_clock s ln) _ s
  have hhost (u : State) : (flushHost u).bd.clock = u.bd.clock := by unfold flushHost; split <;> rfl
  obtain ⟨p, hp⟩ := writeBackWhere_eq (foldWhere s fun _ => true) fun _ => true
  rw [settleAll, hhost, hp]
  exact hfold

/-- In a bundle of one lane FENCE.sys completes once every write is flushed (R267; notes/assumptions/55.md). -/
theorem fenceSys_completes : Completes { order := true } (.fence .sys) (fun _ u k _ => owes u k = false ∧ flushWaits u = false) fun c u k t v =>
    LaneEnds k (settleAll u) (finish { order := true } c t) v := by
  intro s c k t hi ht ⟨hk, hf⟩
  have hthr : getThread (settleAll s) k = getThread s k := getThread_of_threads (congrArg Exec.threads (settleAll_ex s)) k
  have hready : ready (settleAll s) { order := true } t = ready s { order := true } t := by simp only [ready]
  have hquiet : schedQuiet (settleAll s) c t = schedQuiet s c t := by simp only [schedQuiet, settleAll_clock]
  obtain ⟨v, he, hv⟩ := (fenceSys_lanes s).alone_from hi ⟨fun j hj => List.mem_singleton.1 hj ▸ hk, hf⟩ ht hthr hready
  exact ⟨done v, he, rfl, hquiet ▸ hv.done⟩

/-! The table of lines stays in ascending order. -/

/-- The lines stand in ascending order. -/
def Sorted (s : State) : Prop := s.mm.lines.Pairwise fun x y => x.1 < y.1

theorem Sorted.setLine {s : State} (h : Sorted s) (ln : Nat) (l : Line) : Sorted (setLine s ln l) := by
  unfold Sorted Machine.setLine putHostLine
  dsimp only
  split
  · split
    · exact tset_pairwise (tset_pairwise h _ _) _ _
    · exact (tset_pairwise h _ _).filter _
  · exact tset_pairwise h _ _

theorem Sorted.dirty {s : State} (h : Sorted s) (ln : Nat) : Sorted (dirty s ln) := by
  unfold Machine.dirty
  split
  · exact h
  · exact h.setLine _ _

theorem Sorted.foldLine {s : State} (h : Sorted s) (ln : Nat) : Sorted (foldLine s ln) := by
  unfold Machine.foldLine
  split
  · exact h
  · exact Sorted.setLine (s := { setMem (Machine.dirty s ln) _ with fa := _ }) (h.dirty ln) _ _

theorem Sorted.settleAll {s : State} (h : Sorted s) : Sorted (settleAll s) := by
  have hfold : Sorted (foldWhere s fun _ => true) := List.foldlRecOn (motive := Sorted) _ _ h fun u hu ln _ => hu.foldLine ln
  have hhost (u : State) : (flushHost u).mm = u.mm := by unfold flushHost; split <;> rfl
  obtain ⟨p, hp⟩ := writeBackWhere_eq (foldWhere s fun _ => true) fun _ => true
  rw [Sorted, Machine.settleAll, hhost, hp]
  exact List.pairwise_map.2 hfold

/-- A line of no host memory is clean once everything is flushed (R209, R223). -/
theorem settleAll_clean {s : State} {ln : Nat} {l : Line} (hm : (ln, l) ∈ (settleAll s).mm.lines) (hh : isHost (ln * 128) = false) (hs : Sorted s) :
    l.delta = none ∧ l.back = none := by
  have hget : getLine (settleAll s) ln = l := by
    rw [getLine, hh, tget_of_mem hs.settleAll hm]
    rfl
  exact hget ▸ getLine_settleAll s ln

/-! Barriers (R221, R400). -/

/-- The state in which a lane has arrived at a barrier. -/
def atBarrier (m : BarScope) (c : Ctx) (u : State) (k : Nat) (t : Thread) : State :=
  leaveBundle (countBar (setThread u k (waiting c t .bar (.bar m))) m t.team) k

theorem getThread_atBarrier (m : BarScope) (c : Ctx) (u : State) (k : Nat) (t : Thread) (j : Nat) :
    getThread (atBarrier m c u k t) j = if j = k then some (waiting c t .bar (.bar m)) else getThread u j := by
  cases m <;> exact tget_tset _ _ _ _

/-- A lane that reaches BAR arrives, and what barriers it completes are looked at. -/
theorem bar_lanes (m : BarScope) (s : State) : LaneByLane s { order := true } (.bar m) always (fun _ => s) fun c u k t v =>
    (∃ x, getThread u k = some x ∧ x.team = t.team) ∧ v = checkBars (atBarrier m c u k t) t.team := by
  intro c ks hgo _
  refine ⟨_, by simp only [exec, execBar, issueThen, issueGo, hgo]; rfl, fun u k t ht hr => ⟨⟨t, ht, by rw [schedQuiet_eq]⟩, ?_⟩⟩
  rw [laneStep_ready ht hr]
  change (match getThread (atBarrier m c u k (schedQuiet u c t)) k with | some x => _ | none => _) = _
  rw [getThread_atBarrier, if_pos rfl]
  rfl

/-- A release of a barrier's threads changes threads alone. -/
theorem OnlyThreads.releaseBar (s : State) (m : BarScope) (p : Nat) (l : List (Nat × Thread)) : OnlyThreads s (releaseBar s m p l) :=
  .foldl (fun s e => by split; exacts [rfl, .refl s]) l s

/-- A thread that a barrier releases completes its word, with the largest pts of the barrier's threads (R221). -/
theorem getThread_releaseBar {s : State} {l : List (Nat × Thread)} (h : Listed s l) (m : BarScope) (p : Nat) {e : Nat × Thread} (he : e ∈ l)
    (ha : atBar m e.2 = true) : getThread (releaseBar s m p l) e.1 =
      some (completeWait { e.2 with pts := l.foldl (fun n e => max n e.2.pts) p } (heldWords e.2)) := by
  have hmax (e : Nat × Thread) (he : e ∈ l) : max e.2.pts (l.foldl (fun n e => max n e.2.pts) p) = l.foldl (fun n e => max n e.2.pts) p :=
    max_eq_right ((le_foldl_max (fun e : Nat × Thread => e.2.pts) l p).2 e he)
  obtain ⟨t, ht, hp⟩ := foldl_each (P := fun e t => atBar m e.2 = true →
      t = completeWait { e.2 with pts := l.foldl (fun n e => max n e.2.pts) p } (heldWords e.2))
    (f := fun s e => if atBar m e.2 then release (modThread s e.1 fun t => { t with pts := max t.pts (l.foldl (fun n e => max n e.2.pts) p) }) e.1 else s)
    (fun s e he hs => by
      split
      · refine ⟨_, by simp only [release, getThread_modThread, if_true, hs, Option.map_some]; rfl, fun _ => ?_⟩
        rw [hmax e he]
        rfl
      · exact ⟨e.2, hs, fun h => absurd h ‹_›⟩)
    (fun s e j hj => by
      split
      · simp only [release, getThread_modThread, if_neg hj]
      · rfl) h e he
  exact ht.trans (congrArg some (hp ha))

theorem atBar_iff {m : BarScope} {t : Thread} : atBar m t = true ↔ t.waitOn = .bar ∧ t.held.map (·.instr) = some (.bar m) := by
  unfold atBar barScope
  split
  · rename_i hw
    split
    · rename_i hh
      simp [hw, hh]
    · rename_i hh
      simp only [hw, true_and, beq_iff_eq, reduceCtorEq, false_iff, Option.map_eq_some_iff, not_exists, not_and]
      exact fun x hx hi => hh m x.hints x.token x.off (by rw [hx, ← hi])
  · rename_i hw
    simp [hw]

theorem atBar_waiting (m : BarScope) (c : Ctx) (t : Thread) : atBar m (waiting c t .bar (.bar m)) = true := atBar_iff.2 ⟨rfl, rfl⟩

theorem Listed.of_threads {s u : State} {l : List (Nat × Thread)} (h : Listed s l) (hu : u.ex.threads = s.ex.threads) : Listed u l :=
  ⟨h.keys, fun e he => (getThread_of_threads hu e.1).trans (h.stands e he)⟩

/-- The threads of a team are listed as the thread table has them. -/
theorem listed_teamMates {s : State} (h : s.ex.threads.Pairwise fun x y => x.1 < y.1) (team : Nat) : Listed s (teamMates s team) :=
  ⟨List.pairwise_map.2 ((h.filter _).imp Nat.ne_of_lt), fun _ he => tget_of_mem h (List.mem_of_mem_filter he)⟩

/-- The condition of a team's barrier (R400). -/
def TeamDone (n : Nat) (l : List (Nat × Thread)) (size : Nat) : Prop := n + (l.filter fun e => !e.2.live).length = size ∧ drainedStamped l = true

theorem checkTeamBar_idle {s : State} {team : Nat} {tm : Team} (h : tget s.ex.teams team = some tm)
    (hc : tm.barCount = 0 ∨ ¬ TeamDone tm.barCount (teamMates s team) tm.threads) : checkTeamBar s team = s := by
  rw [checkTeamBar, h]
  exact if_neg fun ⟨hp, hd⟩ => hc.elim (fun h => by omega) fun h => h hd

theorem checkTeamBar_completed {s : State} {team : Nat} {tm : Team} (h : tget s.ex.teams team = some tm) (hp : 0 < tm.barCount)
    (hd : TeamDone tm.barCount (teamMates s team) tm.threads) :
    checkTeamBar s team = releaseBar (modTeam s team fun tm => { tm with barCount := 0 }) .team 0 (teamMates s team) := by
  rw [checkTeamBar, h]
  exact if_pos ⟨hp, hd⟩

theorem checkClusterBar_idle {s : State} {k : Nat} (h : ∀ cl, tget s.ex.clusters k = some cl → cl.barCount = 0) : checkClusterBar s k = s := by
  unfold checkClusterBar
  split
  · rfl
  · rename_i cl hcl
    exact if_neg fun hp => by simp [h cl hcl] at hp

/-- A cluster's barrier in a cluster of one team that still runs (R400). -/
theorem checkClusterBar_alone {s : State} {k team : Nat} {cl : Cluster} {tm : Team} (hc : tget s.ex.clusters k = some cl) (hts : cl.teams = [team])
    (ht : tget s.ex.teams team = some tm) (hg : tm.gone = false) (hlate : lateThreads s k = []) (hp : 0 < cl.barCount)
    (hd : TeamDone cl.barCount (teamMates s team) tm.threads) :
    checkClusterBar s k =
      releaseBar { s with ex := { s.ex with clusters := tset s.ex.clusters k { cl with barCount := 0 } } } .cluster tm.exitPts (teamMates s team) := by
  have hl : clusterThreads s cl = teamMates s team := by simp [clusterThreads, hts]
  obtain ⟨hn, hst⟩ := hd
  simp only [checkClusterBar, hc, hl, hlate, hts, ht, hg, List.foldl_cons, List.foldl_nil, Option.map_some, Option.getD_some, List.append_nil,
    Nat.zero_add, Nat.zero_max, Bool.false_eq_true, if_false, Nat.add_zero, hst, and_true]
  exact if_pos ⟨hp, hn⟩

theorem OnlyThreads.ex_teams {s u : State} (h : OnlyThreads s u) : u.ex.teams = s.ex.teams := by
  unfold OnlyThreads at h; rw [h]

theorem OnlyThreads.ex_clusters {s u : State} (h : OnlyThreads s u) : u.ex.clusters = s.ex.clusters := by
  unfold OnlyThreads at h; rw [h]

theorem atBarrier_mm (m : BarScope) (c : Ctx) (u : State) (k : Nat) (t : Thread) : (atBarrier m c u k t).mm = u.mm := by
  cases m <;> rfl

theorem teamMates_atBarrier (m : BarScope) (c : Ctx) (u : State) (k : Nat) (t : Thread) (team : Nat) :
    teamMates (atBarrier m c u k t) team = teamMates (setThread u k (waiting c t .bar (.bar m))) team := by
  cases m <;> rfl

theorem threads_atBarrier (m : BarScope) (c : Ctx) (u : State) (k : Nat) (t : Thread) :
    (atBarrier m c u k t).ex.threads = tset u.ex.threads k (waiting c t .bar (.bar m)) := by
  cases m <;> rfl

theorem atBarrier_pairwise {m : BarScope} {c : Ctx} {u : State} {k : Nat} {t : Thread} (h : u.ex.threads.Pairwise fun x y => x.1 < y.1) :
    (atBarrier m c u k t).ex.threads.Pairwise fun x y => x.1 < y.1 := threads_atBarrier m c u k t ▸ tset_pairwise h _ _

/-- The lane that arrives is one of its team's threads. -/
theorem mem_teamMates_self (u : State) (k : Nat) (x : Thread) : (k, x) ∈ teamMates (setThread u k x) x.team :=
  List.mem_filter.2 ⟨mem_of_tget (tget_tset_self _ _ _), beq_self_eq_true _⟩

theorem tget_teams_atBarrier {c : Ctx} {u : State} {k : Nat} {t : Thread} {tm : Team} (h : tget u.ex.teams t.team = some tm) :
    tget (atBarrier .team c u k t).ex.teams t.team = some { tm with barCount := tm.barCount + 1 } :=
  (tget_tmod _ _ _ _).trans (by rw [if_pos rfl]; exact h ▸ rfl)

/-- A BAR.team that does not complete its team's barrier is counted and waits. -/
theorem barTeam_waits {c : Ctx} {u : State} {k : Nat} {t : Thread} {tm : Team} (h : tget u.ex.teams t.team = some tm)
    (hcl : ∀ cl, tget u.ex.clusters tm.cluster = some cl → cl.barCount = 0)
    (hd : ¬ TeamDone (tm.barCount + 1) (teamMates (setThread u k (waiting c t .bar (.bar .team))) t.team) tm.threads) :
    checkBars (atBarrier .team c u k t) t.team = atBarrier .team c u k t := by
  have hat := tget_teams_atBarrier (c := c) (k := k) h
  rw [checkBars, checkTeamBar_idle hat (.inr (teamMates_atBarrier .team c u k t t.team ▸ hd))]
  rw [hat]
  exact checkClusterBar_idle hcl

/-- A BAR.team that completes its team's barrier releases its threads and starts the count afresh (R221, R400). -/
structure TeamReleased (u : State) (team : Nat) (l : List (Nat × Thread)) (v : State) : Prop where
  mm : v.mm = u.mm
  count : ∀ tm, tget v.ex.teams team = some tm → tm.barCount = 0
  threads : u.ex.threads.Pairwise (fun x y => x.1 < y.1) → ∀ e ∈ l, atBar .team e.2 = true →
    getThread v e.1 = some (completeWait { e.2 with pts := l.foldl (fun n e => max n e.2.pts) 0 } (heldWords e.2))

theorem barTeam_releases {c : Ctx} {u : State} {k : Nat} {t : Thread} {tm : Team} (h : tget u.ex.teams t.team = some tm)
    (hcl : ∀ cl, tget u.ex.clusters tm.cluster = some cl → cl.barCount = 0)
    (hd : TeamDone (tm.barCount + 1) (teamMates (setThread u k (waiting c t .bar (.bar .team))) t.team) tm.threads) :
    TeamReleased u t.team (teamMates (setThread u k (waiting c t .bar (.bar .team))) t.team) (checkBars (atBarrier .team c u k t) t.team) := by
  have hat := tget_teams_atBarrier (c := c) (k := k) h
  rw [← teamMates_atBarrier] at hd ⊢
  have honly := OnlyThreads.releaseBar (modTeam (atBarrier .team c u k t) t.team fun tm => { tm with barCount := 0 }) .team 0
    (teamMates (atBarrier .team c u k t) t.team)
  have hteam : tget (checkTeamBar (atBarrier .team c u k t) t.team).ex.teams t.team = some { tm with barCount := 0 } := by
    rw [checkTeamBar_completed hat (Nat.succ_pos _) hd, honly.ex_teams]
    exact (tget_tmod _ _ _ _).trans (by rw [if_pos rfl, hat]; rfl)
  have hbars : checkBars (atBarrier .team c u k t) t.team = checkTeamBar (atBarrier .team c u k t) t.team := by
    unfold checkBars
    dsimp only
    rw [hteam]
    refine checkClusterBar_idle fun cl hc => hcl cl ?_
    rw [checkTeamBar_completed hat (Nat.succ_pos _) hd, honly.ex_clusters] at hc
    exact hc
  rw [hbars]
  refine ⟨?_, fun x hx => ?_, fun hs e he ha => ?_⟩
  · rw [checkTeamBar_completed hat (Nat.succ_pos _) hd, honly.mm]; rfl
  · rw [hteam] at hx; exact Option.some.inj hx ▸ rfl
  · rw [checkTeamBar_completed hat (Nat.succ_pos _) hd]
    refine getThread_releaseBar ?_ .team 0 he ha
    exact (listed_teamMates (atBarrier_pairwise hs) t.team).of_threads rfl

/-- A BAR.cluster that completes the barrier of a cluster of one team releases the lane and starts the count afresh (R221, R400). -/
structure ClusterReleased (u : State) (k cluster p : Nat) (c : Ctx) (w : Thread) (v : State) : Prop where
  mm : v.mm = u.mm
  count : ∀ cl, tget v.ex.clusters cluster = some cl → cl.barCount = 0
  thread : getThread v k = some (completeWait { w with pts := p } c.words)

theorem lateThreads_none {s : State} (h : ∀ e ∈ s.ex.threads, e.2.team < 2 ^ 90) (k : Nat) : lateThreads s k = [] :=
  List.filter_eq_nil_iff.2 fun e he => by
    have hlt := h e he
    simp only [Bool.and_eq_true, decide_eq_true_eq, not_and]
    omega

theorem barCluster_releases {c : Ctx} {u : State} {k : Nat} {t x : Thread} {tm : Team} {cl : Cluster} (h : tget u.ex.teams t.team = some tm)
    (hc : tget u.ex.clusters tm.cluster = some cl) (hz : tm.barCount = 0) (hts : cl.teams = [t.team]) (hg : tm.gone = false)
    (hs : u.ex.threads.Pairwise fun x y => x.1 < y.1) (hlt : ∀ e ∈ u.ex.threads, e.2.team < 2 ^ 90) (hx : getThread u k = some x) (hxt : x.team = t.team)
    (hd : TeamDone (cl.barCount + 1) (teamMates (setThread u k (waiting c t .bar (.bar .cluster))) t.team) tm.threads) :
    ClusterReleased u k tm.cluster
      ((teamMates (setThread u k (waiting c t .bar (.bar .cluster))) t.team).foldl (fun n e => max n e.2.pts) tm.exitPts) c
      (waiting c t .bar (.bar .cluster)) (checkBars (atBarrier .cluster c u k t) t.team) := by
  have hteam : tget (atBarrier .cluster c u k t).ex.teams t.team = some tm := h
  have hat : tget (atBarrier .cluster c u k t).ex.clusters tm.cluster = some { cl with barCount := cl.barCount + 1 } := by
    have hcl : (getTeam (setThread u k (waiting c t .bar (.bar .cluster))) t.team).cluster = tm.cluster := by
      rw [getTeam_of_tget (s := setThread u k _) h]
    refine (tget_tmod _ _ _ _).trans ?_
    rw [hcl, if_pos rfl]
    exact hc ▸ rfl
  have hlate : lateThreads (atBarrier .cluster c u k t) tm.cluster = [] := lateThreads_none (fun e he => by
    rw [threads_atBarrier] at he
    rcases tset_mem he with rfl | he
    · exact hxt ▸ hlt _ (mem_of_tget hx)
    · exact hlt e he) _
  have hbars : checkBars (atBarrier .cluster c u k t) t.team = checkClusterBar (atBarrier .cluster c u k t) tm.cluster := by
    rw [checkBars, checkTeamBar_idle hteam (.inl hz)]
    rw [hteam]
  rw [← teamMates_atBarrier] at hd ⊢
  rw [hbars, checkClusterBar_alone hat hts hteam hg hlate (Nat.succ_pos _) hd]
  refine ⟨(OnlyThreads.releaseBar _ _ _ _).mm, fun cl' h' => ?_, ?_⟩
  · rw [(OnlyThreads.releaseBar _ _ _ _).ex_clusters] at h'
    exact Option.some.inj ((tget_tset_self _ _ _).symm.trans h') ▸ rfl
  · refine getThread_releaseBar (e := (k, waiting c t .bar (.bar .cluster))) ?_ .cluster tm.exitPts ?_ (atBar_waiting .cluster c t)
    · exact (listed_teamMates (atBarrier_pairwise hs) t.team).of_threads rfl
    · rw [teamMates_atBarrier]
      exact mem_teamMates_self u k (waiting c t .bar (.bar .cluster))

end Sys2Proof.Machine

section
open Sys2Proof Sys2Proof.Machine

/-- Settles O38: fences by `fenceSys_completes` and `settleAll_clean`, barriers by `bar_lanes` with `barTeam_releases`,
`barTeam_waits` and `barCluster_releases`. -/
theorem barrierReleases : Obligations.BarrierReleases := by
  refine ⟨fenceTgt_lanes, LaneByLane.completes fun s => (fenceTgt_lanes s).imp fun c u k t v h _ => h.done, fenceSys_lanes, fenceSys_completes,
    fun s ln l hm hh hs => settleAll_clean hm hh hs, fun s => (bar_lanes .team s).imp fun c u k t v ⟨_, hv⟩ => ?_,
    fun s => (bar_lanes .cluster s).imp fun c u k t v ⟨hx, hv⟩ => ?_, LaneByLane.completes fun s => (bar_lanes .team s).imp fun c u k t v ⟨_, hv⟩ => ?_,
    LaneByLane.completes fun s => (bar_lanes .cluster s).imp fun c u k t v ⟨hx, hv⟩ => ?_⟩
  · intro tm htm hcl w l
    refine ⟨fun hn hst => ?_, fun hd => ?_⟩
    · have hr := hv ▸ barTeam_releases htm hcl ⟨hn, hst⟩
      exact ⟨hr.count, fun e he hs hw hh => hr.threads hs e he (atBar_iff.2 ⟨hw, hh⟩)⟩
    · have hw := barTeam_waits htm hcl fun ⟨hn, hst⟩ => hd.elim (fun h => h hn) fun h => by simp [l, w, hst] at h
      rw [hv, hw]
      exact ⟨⟨_, tget_teams_atBarrier htm, rfl⟩, (getThread_atBarrier _ _ _ _ _ _).trans (if_pos rfl)⟩
  · intro tm cl htm hc hz hts hg hs hlt w l hn hst
    obtain ⟨x, hx, hxt⟩ := hx
    have hr := hv ▸ barCluster_releases htm hc hz hts hg hs hlt hx hxt ⟨hn, hst⟩
    exact ⟨hr.count, hr.thread⟩
  · intro ⟨tm, htm, hcl, hs, hn, hst⟩
    have hr := hv ▸ barTeam_releases htm hcl ⟨hn, hst⟩
    exact ⟨hr.threads hs _ (mem_teamMates_self u k (waiting c t .bar (.bar .team))) (atBar_waiting .team c t), hr.mm, hr.count⟩
  · intro ⟨tm, cl, htm, hc, hz, hts, hg, hs, hlt, hn, hst⟩
    obtain ⟨x, hx, hxt⟩ := hx
    have hr := hv ▸ barCluster_releases htm hc hz hts hg hs hlt hx hxt ⟨hn, hst⟩
    exact ⟨_, hr.thread, hr.mm, fun e he => (le_foldl_max (fun e : Nat × Thread => e.2.pts) _ tm.exitPts).2 e he⟩

end

namespace Sys2Proof.Machine

/-! What a revocation leaves of a transaction: its S (R232, R236). -/

/-- The S of a thread's transaction, where there is the thread. -/
def txS (s : State) (k : Nat) : Option Nat := (getThread s k).map fun t => t.tx.s

theorem txS_of_ex {s u : State} (h : u.ex.threads = s.ex.threads) (k : Nat) : txS u k = txS s k := by
  rw [txS, txS, getThread_of_threads h]

theorem revokeThread_txS (s : State) (S : Nat) (t : Thread) : (revokeThread s S t).tx.s = t.tx.s := by
  unfold revokeThread
  dsimp only
  split_ifs <;> rfl

theorem txS_revoke (s : State) (S k : Nat) : txS (revoke s S) k = txS s k := by
  have hlease : (leaseAll s S (pendingLines s S)).ex.threads = s.ex.threads :=
    foldl_keeps (p := fun s : State => s.ex.threads) (f := fun s ln => setLine s ln { getLine s ln with rts := max (getLine s ln).rts S }) (fun _ _ => rfl) _ s
  have hmap : (revoke s S).ex.threads = s.ex.threads.map fun e => (e.1, revokeThread (dropSnap (leaseAll s S (pendingLines s S)) S) S e.2) :=
    congrArg (List.map fun e : Nat × Thread => (e.1, revokeThread (dropSnap (leaseAll s S (pendingLines s S)) S) S e.2)) hlease
  rw [txS, getThread, hmap, tget_map, Option.map_map]
  exact congrArg (fun f => Option.map f (tget s.ex.threads k)) (funext fun t => revokeThread_txS _ S t)

theorem txS_revokeReaders (n : Nat) (s : State) (a b k : Nat) : txS (revokeReaders n s a b) k = txS s k := by
  induction n generalizing s with
  | zero => rfl
  | succ n ih =>
    unfold revokeReaders
    split
    · exact (ih _).trans (txS_revoke s _ k)
    · rfl

theorem txS_dropOldest (s : State) (ln k : Nat) : txS (dropOldest s ln) k = txS s k := by
  unfold dropOldest
  dsimp only
  split
  · rfl
  · exact (txS_of_ex rfl k).trans (txS_revokeReaders _ s _ _ k)

theorem txS_moveOldest (s : State) (d k : Nat) : txS (moveOldest s d) k = txS s k := by
  unfold moveOldest
  split
  · rfl
  · dsimp only
    exact txS_of_ex (foldl_keeps (p := fun s : State => s.ex.threads) (fun s m => by simp) _ s) k

theorem txS_makeRoom (n : Nat) (s : State) (d k : Nat) : txS (makeRoom n s d) k = txS s k := by
  induction n generalizing s with
  | zero => rfl
  | succ n ih =>
    unfold makeRoom
    split
    · rfl
    · split
      · exact txS_moveOldest s d k
      · split
        · exact (ih _).trans ((txS_of_ex rfl k).trans (txS_revoke s _ k))
        · rfl

theorem txS_placeFor (s : State) (ln ts k : Nat) : txS (placeFor s ln ts) k = txS s k := by
  have hroom : txS (if needed s ln ts then makeRoom (s.mm.horizon.length + 1) s (homeDie (ln * 128)) else s) k = txS s k := by
    split
    · exact txS_makeRoom _ s _ k
    · rfl
  have drop (u : State) : txS (if needed u ln ts = true ∧ Config.recordsPerLine ≤ (getLine u ln).recs.length then dropOldest u ln else u) k = txS u k := by
    split
    · exact txS_dropOldest u ln k
    · rfl
  exact (drop _).trans hroom

theorem txS_supersede (s : State) (ln ts k : Nat) : txS (supersede s ln ts) k = txS s k := by
  unfold supersede
  dsimp only
  split
  · rfl
  · split <;> exact (txS_of_ex rfl k).trans (txS_placeFor s ln ts k)

theorem dirty_ex (s : State) (ln : Nat) : (dirty s ln).ex = s.ex := by
  unfold dirty; split <;> rfl

theorem foldLine_ex (s : State) (ln : Nat) : (foldLine s ln).ex = s.ex := by
  unfold foldLine
  split
  · rfl
  · exact dirty_ex s ln

theorem noteStamp_ex (s : State) (ln ts : Nat) : (noteStamp s ln ts).ex = s.ex := by
  unfold noteStamp; split <;> rfl

/-- The bytes of memory with a line of a write set in them: its stores, and then its RADDs (R234, R235). -/
def commitBytes (x : Tx) (ln : Nat) (m : Mem) : Mem :=
  (x.adds.filter fun e => e.1 / 32 == ln).foldl commitWord ((x.ws.filter fun e => e.1 / 128 == ln).foldl (fun m e => mset m e.1 e.2) m)

/-- Does a write set hold all 128 bytes of a line? (R387) -/
def holdsLine (x : Tx) (ln : Nat) : Bool := (List.range 128).all fun i => x.holds (ln * 128 + i)

/-- A line of a write set written at C, its old version dealt with. -/
def writeCommitted (x : Tx) (C : Nat) (s : State) (ln : Nat) : State :=
  setLine { s with mm := { s.mm with mem := commitBytes x ln s.mm.mem, maxWrite := max s.mm.maxWrite C } } ln
    { getLine s ln with wts := C, rts := C, poison := (getLine s ln).poison && !holdsLine x ln }

theorem commitLine_eq (x : Tx) (C : Nat) (s : State) (ln : Nat) :
    commitLine x C s ln = noteStamp (writeCommitted x C (dirty (supersede (foldLine s ln) ln C) ln) ln) ln C := rfl

theorem commitLine_ex (x : Tx) (C : Nat) (s : State) (ln : Nat) : (commitLine x C s ln).ex = (supersede (foldLine s ln) ln C).ex := by
  rw [commitLine_eq, noteStamp_ex]
  exact dirty_ex _ ln

theorem txS_commitLine (x : Tx) (C : Nat) (s : State) (ln k : Nat) : txS (commitLine x C s ln) k = txS s k :=
  (txS_of_ex (congrArg Exec.threads (commitLine_ex x C s ln)) k).trans
    ((txS_supersede _ ln C k).trans (txS_of_ex (congrArg Exec.threads (foldLine_ex s ln)) k))

theorem HomeFrame.commitLine (x : Tx) (C : Nat) (s : State) (ln : Nat) : HomeFrame s (commitLine x C s ln) :=
  (HomeFrame.foldLine s ln).trans ((HomeFrame.supersede _ ln C).trans ((HomeFrame.dirty _ ln).trans
    ((HomeFrame.ofMm _ (writeCommitted x C _ ln).mm).trans (HomeFrame.noteStamp _ ln C))))

/-- The thread that commits, after its lines are: it keeps all but its snapshots, and its transaction's S. -/
theorem commit_keeps {s : State} {k : Nat} {t : Thread} (h : getThread s k = some t) (x : Tx) (C : Nat) (lns : List Nat) :
    ∃ y, getThread (lns.foldl (commitLine x C) s) k = some y ∧ Kept t y ∧ y.tx.s = t.tx.s := by
  obtain ⟨y, hy, hk⟩ := (HomeFrame.foldl (HomeFrame.commitLine x C) lns s).threads k t h
  have hs : txS (lns.foldl (commitLine x C) s) k = txS s k :=
    foldl_keeps (p := fun s => txS s k) (fun s ln => txS_commitLine x C s ln k) lns s
  rw [txS, txS, hy, h] at hs
  exact ⟨y, hy, hk, Option.some.inj hs⟩

/-! TXBEGIN (R227, R229, R263). -/

/-- What TXBEGIN does in a lane. -/
structure BeginEnds (c : Ctx) (u : State) (k : Nat) (t : Thread) (v : State) : Prop where
  opens : t.tx.depth = 0 → horizonRoom u (openAt u t.pts) = true →
    LaneEnds k (openSnap u (openAt u t.pts)) (finish { order := true } c (beginTx t (openAt u t.pts))) v
  waits : t.tx.depth = 0 → horizonRoom u (openAt u t.pts) = false → LaneEnds k (post u 6 0 8 t.pts 0) (waiting c t .table .txbegin) v
  nests : 0 < t.tx.depth → t.tx.depth < 255 → LaneEnds k u (finish { order := true } c { t with tx := { t.tx with depth := t.tx.depth + 1 } }) v
  aborts : t.tx.depth = 255 → LaneEnds k u (finish { order := true } c (abortTx t 2)) v

theorem tryOpen_room {s : State} {p : Nat} (h : horizonRoom s (openAt s p) = true) : tryOpen s p = (some (openAt s p), openSnap s (openAt s p)) :=
  if_pos h

theorem tryOpen_full {s : State} {p : Nat} (h : horizonRoom s (openAt s p) = false) : tryOpen s p = (none, post s 6 0 8 p 0) :=
  if_neg (by simp [h])

theorem txbegin_lanes (s : State) : LaneByLane s { order := true } .txbegin always (fun _ => s) BeginEnds :=
  issueWord_lanes_of_body rfl fun c u k t => by
    refine ⟨fun hd hr => ?_, fun hd hr => ?_, fun hp hl => ?_, fun hd => ?_⟩
    · rw [if_pos hd, tryOpen_room hr]; exact .laneEnd_ok _ c u _ k _
    · rw [if_pos hd, tryOpen_full hr]; exact (LaneEnds.setThread _ k _).leaveBundle
    · rw [if_neg (Nat.ne_of_gt hp), if_pos hl]; exact .laneEnd_ok _ c u u k _
    · rw [if_neg (by omega), if_neg (by omega)]; exact .laneEnd_ok _ c u u k _

/-! TXCOMMIT (R235, R236, R264). -/

/-- The words that the issue of TXCOMMIT needs. -/
def commitSpec : WordSpec := { order := true, adds := [(.st, 1)] }

/-- A lane whose transaction commits: its lines are written at C, and PD holds. -/
def CommitEnds (pd : PredIx) (c : Ctx) (u : State) (k : Nat) (t : Thread) (v : State) : Prop :=
  ∃ y, getThread (t.tx.lines.foldl (commitLine t.tx (commitStamp u t.pts t.tx.lines))
      (setThread { u with nextId := u.nextId + 1 } k (addDone t u.nextId .st))) k = some y ∧
    y = { addDone t u.nextId .st with ops := y.ops, snap := y.snap, revoked := y.revoked, txReason := y.txReason, tx := y.tx } ∧
    LaneEnds k (if y.tx.held then closeSnap (t.tx.lines.foldl (commitLine t.tx (commitStamp u t.pts t.tx.lines))
        (setThread { u with nextId := u.nextId + 1 } k (addDone t u.nextId .st))) t.tx.s
      else t.tx.lines.foldl (commitLine t.tx (commitStamp u t.pts t.tx.lines)) (setThread { u with nextId := u.nextId + 1 } k (addDone t u.nextId .st)))
      (finish commitSpec c (writePred { y with pts := max t.pts (commitStamp u t.pts t.tx.lines), txReason := 0, tx := {} } pd true)) v

/-- What TXCOMMIT does in a lane. -/
structure TxcommitEnds (pd : PredIx) (c : Ctx) (u : State) (k : Nat) (t : Thread) (v : State) : Prop where
  none_ : t.tx.depth = 0 → LaneEnds k { u with nextId := u.nextId + 1 } (finish commitSpec c (writePred (addDone t u.nextId .st) pd false)) v
  nested : 1 < t.tx.depth → LaneEnds k { u with nextId := u.nextId + 1 }
    (finish commitSpec c (writePred { addDone t u.nextId .st with tx := { t.tx with depth := t.tx.depth - 1 } } pd t.tx.active)) v
  aborts : t.tx.depth = 1 → (t.tx.active = false ∨ conflicts u t.tx.s t.tx.lines = true) →
    LaneEnds k (if t.tx.held then closeSnap { u with nextId := u.nextId + 1 } t.tx.s else { u with nextId := u.nextId + 1 })
      (finish commitSpec c (writePred { abortTx (addDone t u.nextId .st) 1 with tx := {} } pd false)) v
  commits : t.tx.depth = 1 → t.tx.active = true → conflicts u t.tx.s t.tx.lines = false → CommitEnds pd c u k t v

theorem commit_conflicts {s : State} {t : Thread} (h : conflicts s t.tx.s t.tx.lines = true) : commit s t = (s, t.pts, false) := if_pos h

theorem commit_ok {s : State} {t : Thread} (h : conflicts s t.tx.s t.tx.lines = false) :
    commit s t = (t.tx.lines.foldl (commitLine t.tx (commitStamp s t.pts t.tx.lines)) s, commitStamp s t.pts t.tx.lines, true) :=
  if_neg (by simp [h])

/-- How the outermost TXCOMMIT ends in a lane, from what the commit came to. -/
def endCommit (pd : PredIx) (k : Nat) (r : State × Nat × Bool) : LaneOut :=
  match getThread r.1 k with
  | none => .ok r.1
  | some t =>
    let t := if r.2.2 then { t with pts := max t.pts r.2.1, txReason := 0 } else abortTx t 1
    let s := if t.tx.held then closeSnap r.1 t.tx.s else r.1
    .ok (setThread s k (writePred { t with tx := {} } pd r.2.2))

theorem LaneEnds.closeSnap_held {k : Nat} {u v : State} {t x : Thread} {b : Bool} {S : Nat}
    (h : LaneEnds k (if b then closeSnap (Machine.setThread u k t) S else Machine.setThread u k t) x v) :
    LaneEnds k (if b then closeSnap u S else u) x v := by
  cases b <;> exact h.of_setThread

/-- A commit that did not happen leaves PD false and aborts the transaction. -/
theorem endCommit_false (pd : PredIx) (c : Ctx) (u w : State) (k : Nat) (t : Thread) (p : Nat) :
    LaneEnds k (if t.tx.held then closeSnap u t.tx.s else u) (finish commitSpec c (writePred { abortTx t 1 with tx := {} } pd false))
      (laneEnd commitSpec c w k (endCommit pd k (setThread u k t, p, false))) := by
  have hheld : (abortTx t 1).tx.held = t.tx.held ∧ (abortTx t 1).tx.s = t.tx.s := by unfold abortTx; split <;> exact ⟨rfl, rfl⟩
  simp only [endCommit, getThread_setThread, if_true, Bool.false_eq_true, if_false, hheld.1, hheld.2]
  exact LaneEnds.closeSnap_held (.laneEnd_ok _ c w _ k _)

/-- A commit that did happen ends the transaction, with PD true. -/
theorem endCommit_done (pd : PredIx) (c : Ctx) {z : State} (w : State) {k : Nat} {y : Thread} (p : Nat) (hy : getThread z k = some y) :
    LaneEnds k (if y.tx.held then closeSnap z y.tx.s else z)
      (finish commitSpec c (writePred { y with pts := max y.pts p, txReason := 0, tx := {} } pd true))
      (laneEnd commitSpec c w k (endCommit pd k (z, p, true))) := by
  simp only [endCommit, hy, if_true]
  exact .laneEnd_ok _ c w _ k _

/-- A commit of no conflict leaves PD true and the thread at the stamp of its lines. -/
theorem endCommit_true (pd : PredIx) (c : Ctx) (u w : State) (k : Nat) (t : Thread) (hc : conflicts u t.tx.s t.tx.lines = false) :
    CommitEnds pd c u k t (laneEnd commitSpec c w k (endCommit pd k
      (commit (setThread { u with nextId := u.nextId + 1 } k (addDone t u.nextId .st)) (addDone t u.nextId .st)))) := by
  rw [commit_ok (s := setThread { u with nextId := u.nextId + 1 } k (addDone t u.nextId .st)) (t := addDone t u.nextId .st) hc]
  obtain ⟨y, hy, hk, hs⟩ := commit_keeps (s := setThread { u with nextId := u.nextId + 1 } k (addDone t u.nextId .st)) (t := addDone t u.nextId .st)
    (tget_tset_self _ _ _) t.tx (commitStamp u t.pts t.tx.lines) t.tx.lines
  have hpts : y.pts = t.pts := by rw [hk.same]; rfl
  have htx : y.tx.s = t.tx.s := hs
  have hend := endCommit_done pd c w (commitStamp u t.pts t.tx.lines) hy
  rw [htx, hpts] at hend
  exact ⟨y, hy, hk.same, hend⟩

theorem txcommit_lanes (pd : PredIx) (s : State) : LaneByLane s commitSpec (.txcommit pd) always (fun _ => s) (TxcommitEnds pd) :=
  issueWord_lanes_of_body rfl fun c u k t => by
    change TxcommitEnds pd c u k t (laneEnd commitSpec c u k (if t.tx.depth = 0 then
        .ok (setThread { u with nextId := u.nextId + 1 } k (writePred (addDone t u.nextId .st) pd false))
      else if 1 < t.tx.depth then
        .ok (setThread { u with nextId := u.nextId + 1 } k (writePred { addDone t u.nextId .st with tx := { t.tx with depth := t.tx.depth - 1 } } pd t.tx.active))
      else endCommit pd k (if t.tx.active then
          commit (setThread { u with nextId := u.nextId + 1 } k (addDone t u.nextId .st)) (addDone t u.nextId .st)
        else (setThread { u with nextId := u.nextId + 1 } k (addDone t u.nextId .st), t.pts, false))))
    refine ⟨fun hd => ?_, fun hd => ?_, fun hd ha => ?_, fun hd ha hc => ?_⟩
    · rw [if_pos hd]; exact .laneEnd_ok _ c u _ k _
    · rw [if_neg (Nat.ne_of_gt (Nat.lt_of_succ_lt hd)), if_pos hd]; exact .laneEnd_ok _ c u _ k _
    · rw [hd, if_neg Nat.one_ne_zero, if_neg (Nat.lt_irrefl 1)]
      by_cases hact : t.tx.active = true
      · have hc := ha.resolve_left (by simp [hact])
        rw [if_pos hact, commit_conflicts (s := setThread { u with nextId := u.nextId + 1 } k (addDone t u.nextId .st)) (t := addDone t u.nextId .st) hc]
        exact endCommit_false pd c _ u k (addDone t u.nextId .st) _
      · rw [if_neg hact]
        exact endCommit_false pd c _ u k (addDone t u.nextId .st) _
    · rw [hd, if_neg Nat.one_ne_zero, if_neg (Nat.lt_irrefl 1), if_pos ha]
      exact endCommit_true pd c u u k t hc

theorem abortTx_pc (t : Thread) (n : Nat) : (abortTx t n).pc = t.pc := by
  unfold abortTx; split <;> rfl

/-! SNAP_OPEN (R229, R265, R266). -/

/-- What SNAP_OPEN does in a lane, whose own snapshot has given up its entry. -/
structure SnapOpenEnds (c : Ctx) (u : State) (k : Nat) (t : Thread) (v : State) : Prop where
  opens : horizonRoom u (openAt u t.pts) = true →
    LaneEnds k (openSnap u (openAt u t.pts)) (finish { order := true } c (beginSnap { abortTx t 4 with pts := t.pts } (openAt u t.pts))) v
  waits : horizonRoom u (openAt u t.pts) = false → LaneEnds k (post u 6 0 8 t.pts 0) (waiting c { abortTx t 4 with snap := .off } .table .snapOpen) v

theorem snapOpen_lanes (s : State) : LaneByLane s { order := true } .snapOpen always (fun _ => s) fun c u k t v =>
    SnapOpenEnds c (snapClosed u t) k t v :=
  issueWord_lanes_of_body rfl fun c u k t => by
    have hpts : (abortTx t 4).pts = t.pts := by rw [abortTx_eq]
    have hs : snapClosed u (abortTx t 4) = snapClosed u t := by rw [abortTx_eq]; rfl
    change SnapOpenEnds c (snapClosed u t) k t (laneEnd { order := true } c u k
      (match tryOpen (snapClosed u (abortTx t 4)) (abortTx t 4).pts with
        | (some S, s) => .ok (setThread s k (beginSnap { abortTx t 4 with snap := .off } S))
        | (none, s) => .wait (setThread s k (waiting c { abortTx t 4 with snap := .off } .table .snapOpen))))
    rw [hs, hpts]
    refine ⟨fun hr => ?_, fun hr => ?_⟩
    · rw [tryOpen_room hr, ← hpts]; exact .laneEnd_ok _ c u _ k _
    · rw [tryOpen_full hr]; exact (LaneEnds.setThread _ k _).leaveBundle

end Sys2Proof.Machine

section
open Sys2Proof Sys2Proof.Machine

/-- Settles O39: what each word does in a lane by `txbegin_lanes`, `txcommit_lanes` and `snapOpen_lanes`. -/
theorem transactionWords : Obligations.TransactionWords := by
  refine ⟨fun s => (txbegin_lanes s).imp fun c u k t v h => ?_, LaneByLane.completes fun s => (txbegin_lanes s).imp fun c u k t v h ⟨hd, hr⟩ => ?_,
    fun pd s => (txcommit_lanes pd s).imp fun c u k t v h => ?_,
    fun pd => LaneByLane.completes fun s => (txcommit_lanes pd s).imp fun c u k t v h ⟨hd, ha, hc⟩ => ?_,
    fun s => (snapOpen_lanes s).imp fun c u k t v h => ?_, LaneByLane.completes fun s => (snapOpen_lanes s).imp fun c u k t v h hr => ?_⟩
  · exact ⟨h.opens, fun hd hr => ⟨_, h.waits hd hr, rfl, rfl, rfl⟩, h.nests, h.aborts⟩
  · exact (h.opens hd hr).done
  · exact ⟨h.none_, h.nested, h.aborts, h.commits⟩
  · obtain ⟨y, hy, hk, he⟩ := h.commits hd ha hc
    exact ⟨y, hy, hk, he.done⟩
  · exact ⟨h.opens, fun hr => ⟨_, h.waits hr, rfl, rfl, abortTx_pc t 4, rfl⟩⟩
  · exact (h.opens (hr _ rfl)).done

end

namespace Sys2Proof.Machine

/-! Commits (R235). The condition names a line's wts, where `supersede` asks for its version, which `own` gives where it is set (R377). -/

/-- A line of HBM4 of which `own` names an older version than its wts, a live snapshot that stands between the two, and no room for records. -/
def ownVersion : State where
  mm := { lines := [(0, { wts := 10, rts := 10, own := some 0 })], horizon := [{ s := 5, holders := 1 }], versionGiB := 0, spillGiB := 0 }
  ex := { threads := [(0, { team := 0, pc := 0, snap := .own 5 })] }

/-- A write set of one byte of that line. -/
def ownWrite : Tx := { ws := [(0, 1)] }

theorem ownWrite_lines : ownWrite.lines = [0] := by decide

/-- No live snapshot can read what has the line's wts, which is all that the condition asks. -/
theorem ownVersion_stands : ∀ ln ∈ ownWrite.lines, (getLine ownVersion ln).delta = none ∧ (getLine ownVersion ln).recs = [] ∧ isHost (ln * 128) = false ∧
    ln ≠ 0xFFFFFFFFFF ∧ readable ownVersion (getLine ownVersion ln).wts 11 = false := by
  rw [ownWrite_lines]; decide

/-- The live snapshot reads the line's version, so the commit makes room for it, and revokes the snapshot of its thread (R211, R232). -/
theorem ownVersion_revoked :
    ((ownWrite.lines.foldl (commitLine ownWrite 11) ownVersion).ex.threads.map fun e => e.2.snap) = [.off] := by
  rw [ownWrite_lines]
  change (((commitLine ownWrite 11 ownVersion 0).ex.threads.map fun e => e.2.snap) = _)
  rw [commitLine_ex]
  decide

end Sys2Proof.Machine

section
open Sys2Proof Sys2Proof.Machine

/-- Refutes O40: in `ownVersion` no live snapshot can read the line's wts, but one can read its version, `own`; the commit revokes it, and a
thread changes. -/
theorem not_commitWritesItsLines : ¬ Obligations.CommitWritesItsLines := by
  intro h
  obtain ⟨_, _, _, _, hex⟩ := h ownVersion ownWrite 11 (by decide) (by decide) rfl ownVersion_stands
  have hsnap := ownVersion_revoked
  rw [hex] at hsnap
  exact absurd hsnap (by decide)

end

namespace Sys2Proof.Machine

/-! Tile events (R344). The condition that no thread of the team waits speaks of the threads that the table lists; where a key stands twice in it,
`tileOps` acts on the first one. -/

/-- A thread of team 1 that waits at STOP and holds a snapshot, and under the same key a thread of team 0 with an operation on the draining tile. -/
def twiceListed : State where
  mm := { horizon := [{ s := 5, holders := 1 }] }
  ex := { teams := [(0, { grid := 0, lin := 0, cluster := 0, rank := 0, prio := 0, threads := 1, base := 0, size := 0, tileCount := 1, tiles := [(0, { desc := [], doff := 0, st := .draining })] })]
          threads := [(0, { team := 1, pc := 0, st := .waiting, waitOn := .stop, snap := .own 5 }),
            (0, { team := 0, pc := 0, ops := [{ id := 1, wid := 1, cnt := .tl, kind := .tile 0 false }] })] }

theorem twiceListed_drains : exec (.tileDrainComplete 0 0) twiceListed = .next (tileEmpty twiceListed 0 0) :=
  if_pos (e := .next twiceListed) (show TileState.draining = .draining ∧ tileStores twiceListed 0 0 = 0 by decide)

/-- The thread of team 1 exits, and its snapshot with it. -/
theorem twiceListed_horizon : (tileEmpty twiceListed 0 0).mm.horizon = [] := by decide

end Sys2Proof.Machine

section
open Sys2Proof Sys2Proof.Machine

/-- Refutes O49: in `twiceListed` no thread of team 0 waits, but the retirement of its tile operation is looked at under a key that a waiting
thread of team 1 has first; that thread exits, and the horizon, which is part of memory, changes. -/
theorem not_tileEvents : ¬ Obligations.TileEvents := by
  intro ⟨_, h⟩
  obtain ⟨v, hv, hmm, _⟩ := h twiceListed 0 0 _ rfl rfl (by decide) (by decide) (by decide)
  obtain rfl : v = _ := (Host.Outcome.next.inj (twiceListed_drains.symm.trans hv)).symm
  have hz := twiceListed_horizon
  rw [hmm] at hz
  exact absurd hz (by decide)

end

namespace Sys2Proof.Machine

/-! A returned load (R396). What its retirement ends is looked at by key: where a key stands twice in the thread table, a barrier that it
completes releases the first thread of the key, which does not wait there. -/

/-- An exited thread with a load that has been performed. -/
def lastLoad : Thread := { team := 0, pc := 0, st := .draining, ops := [{ id := 5, wid := 9, cnt := .ld, kind := .load .w64, performed := true }] }

/-- That thread, and under the same key the other thread of its team, which waits at BAR.team. -/
def barredTwice : State where
  ex := { teams := [(0, { grid := 0, lin := 0, cluster := 0, threads := 2, barCount := 1 })]
          threads := [(0, lastLoad), (0, { team := 0, pc := 0, st := .waiting, waitOn := .bar, held := some { instr := .bar .team, hints := [] } })] }

/-- The load as the thread table has it. -/
def lastOp : Op := { id := 5, wid := 9, cnt := .ld, kind := .load .w64, performed := true }

theorem barredTwice_returns : exec (.loadReturn 0 5) barredTwice = .next (recheck (setThread barredTwice 0 (returnOp lastLoad lastOp)) 0) := rfl

/-- The exited thread goes on by a word, as if it had waited at the barrier. -/
theorem barredTwice_pc : (getThread (recheck (setThread barredTwice 0 (returnOp lastLoad lastOp)) 0) 0).map (·.pc) = some 1 := by decide

end Sys2Proof.Machine

section
open Sys2Proof Sys2Proof.Machine

/-- Refutes O55, in what it says of LOAD_RETURN: in `barredTwice` the load's retirement completes a barrier, and the PC of the load's own
thread moves. -/
theorem not_accessesPerformAndReturn : ¬ Obligations.AccessesPerformAndReturn := by
  intro ⟨_, _, _, _, _, _, _, _, _, _, _, hreturn, _, _⟩
  obtain ⟨u, v, hu, hv, _, hpc, _⟩ := hreturn 0 5 barredTwice lastLoad lastOp rfl rfl rfl rfl rfl rfl rfl rfl
  obtain rfl : u = _ := (Host.Outcome.next.inj (barredTwice_returns.symm.trans hu)).symm
  have hmoved := barredTwice_pc
  rw [hv] at hmoved
  exact absurd (hpc.symm.trans (Option.some.inj hmoved)) (by decide)

end

/-! O57: jobs (spec/14_engines.md). -/

namespace Sys2Proof.Machine

/-! Cards (R290, R291). -/

theorem Works.atWork {s : State} {card : Nat} {k : JobKind} {c : Card} (h : Works s card k c) {f : JobKind → Bool} (hf : f k = true) :
    atWork s card f = some c := by
  obtain ⟨hc, hk, hst, hfr, hw, hfi⟩ := h
  simp [Machine.atWork, hc, hk, hst, hfr, hw, hfi, hf]

theorem tget_modCard (s : State) (n : Nat) (f : Card → Card) (m : Nat) :
    tget (modCard s n f).en.cards m = if m = n then (tget s.en.cards n).map f else tget s.en.cards m := tget_tmod _ _ _ _

theorem tget_modCard_self {s : State} {n : Nat} {c : Card} (h : tget s.en.cards n = some c) (f : Card → Card) :
    tget (modCard s n f).en.cards n = some (f c) := by
  rw [tget_modCard, if_pos rfl, h]; rfl

/-- A card of `s` has ended in `u` with a status, and nothing of memory differs. -/
structure Ended (s u : State) (card status : Nat) : Prop where
  mm : u.mm = s.mm
  card : ∃ y, tget u.en.cards card = some y ∧ y.worked = true ∧ y.status = status

theorem ended_cardWorked {s : State} {card : Nat} {c : Card} (h : tget s.en.cards card = some c) (status : Nat) : Ended s (cardWorked s card status) card status :=
  ⟨rfl, _, tget_modCard_self h _, rfl, rfl⟩

/-- Where all of a job's writes are made, its card stands, and its stream is not frozen. -/
theorem card_of_cardWriteSpans {s w : State} {card : Nat} {l : List (Nat × List Byte)} {b : Bool} (h : cardWriteSpans s card l b = (true, w)) :
    ∃ c, tget w.en.cards card = some c := by
  obtain ⟨hany, rfl⟩ := Prod.mk.inj h
  obtain ⟨c, hc, _⟩ := (Option.any_eq_true _ _).1 hany
  exact ⟨c, hc⟩

/-! JOB_START (R224, R289, R292). -/

/-- A stream that is not frozen has no frozen card. -/
theorem frozen_of_streamFrozen {s : State} {card : Nat} {c : Card} (hc : tget s.en.cards card = some c) (h : streamFrozen s c = false) : c.frozen = none := by
  have hmem := List.any_eq_false.1 h _ (mem_of_tget hc)
  simpa using hmem

theorem freezeCard_fresh {s : State} {card : Nat} {c : Card} (hc : tget s.en.cards card = some c) (hf : c.frozen = none) (reason : Nat) :
    ∃ b, freezeCard s card reason = { modCard s card (fun c => { c with frozen := some reason }) with bd := b } ∧ b.posted = s.bd.posted + 1 := by
  have h : freezeCard s card reason = freezeEvent (modCard s card fun c => { c with frozen := some reason }) (engineSrc c.instance_).1
      (engineSrc c.instance_).2 1 c.instance_ c.asid reason 0 := by
    simp only [freezeCard, hc, hf, Option.isSome_none, Bool.false_eq_true, if_false]
  exact ⟨(freezeCard s card reason).bd, by rw [h]; rfl, by rw [h]; rfl⟩

/-- Every page of a window whose walk meets a bad entry is reported (R365). -/
theorem noteBad_fold (asid : Nat) (l : List Nat) (s : State) (h : ∀ va ∈ l, walk s asid va = .bad ∨ walk s asid va = .poison) :
    ∃ b, l.foldl (fun s va => noteBad s asid va) s = { s with bd := b } ∧ b.posted = s.bd.posted + l.length := by
  induction l generalizing s with
  | nil => exact ⟨s.bd, rfl, rfl⟩
  | cons va l ih =>
    have hone : noteBad s asid va = post s 7 0 0x0B asid va := by
      rcases h va List.mem_cons_self with hw | hw <;> simp only [noteBad, hw]
    have hwalk (x : Nat) : walk (post s 7 0 0x0B asid va) asid x = walk s asid x := walk_congr rfl rfl rfl rfl rfl rfl asid x
    obtain ⟨b, hb, hn⟩ := ih (post s 7 0 0x0B asid va) fun x hx => by
      rw [hwalk]; exact h x (List.mem_cons_of_mem _ hx)
    refine ⟨b, by rw [List.foldl_cons, hone, hb]; rfl, ?_⟩
    rw [hn, List.length_cons]
    change s.bd.posted + 1 + l.length = _
    omega

theorem badPages_walk {s : State} {c : Card} {va : Nat} (h : va ∈ badPages s c) : walk s c.asid va = .bad ∨ walk s c.asid va = .poison := by
  unfold badPages at h
  split at h
  · simpa using (List.mem_filter.1 h).2
  · cases h

/-- A card may start: its dependences are met, and its stream is not frozen (R224, R292). -/
structure MayStart (s : State) (card : Nat) (c : Card) : Prop where
  listed : tget s.en.cards card = some c
  started : c.started = false
  finished : c.finished = false
  deps : c.deps = []
  stream : streamFrozen s c = false
  status : c.status ≠ 3

theorem jobStart_next {card : Nat} {s : State} {c : Card} (h : MayStart s card c) :
    exec (.jobStart card) s = .next (if cardOk s c then modCard s card fun c => { c with started := true }
      else freezeCard ((badPages s c).foldl (fun s va => noteBad s c.asid va) s) card 1) := by
  have hgo : ¬ (c.started = true ∨ c.finished = true ∨ c.deps ≠ [] ∨ streamFrozen s c = true) := by simp [h.started, h.finished, h.deps, h.stream]
  simp only [exec, execJobStart, h.listed, if_neg hgo, if_neg h.status]
  split <;> rfl

/-- A card whose dependences are met starts where it stands, and freezes its stream with reason 1 otherwise. -/
theorem jobStart_ends {card : Nat} {s : State} {c : Card} (h : MayStart s card c) : ∃ u, exec (.jobStart card) s = .next u ∧ u.mm = s.mm ∧
      (cardOk s c = true → tget u.en.cards card = some { c with started := true }) ∧
      (cardOk s c = false → tget u.en.cards card = some { c with frozen := some 1 } ∧ u.bd.posted = s.bd.posted + 1 + (badPages s c).length) := by
  refine ⟨_, jobStart_next h, ?_⟩
  cases hok : cardOk s c with
  | true => exact ⟨rfl, fun _ => tget_modCard_self h.listed _, fun h => by simp at h⟩
  | false =>
    obtain ⟨b, hb, hn⟩ := noteBad_fold c.asid (badPages s c) s fun va hva => badPages_walk hva
    obtain ⟨b', hb', hn'⟩ := freezeCard_fresh (s := { s with bd := b }) h.listed (frozen_of_streamFrozen h.listed h.stream) 1
    rw [if_neg Bool.false_ne_true, hb, hb']
    refine ⟨rfl, fun h => by simp at h, fun _ => ⟨tget_modCard_self h.listed _, ?_⟩⟩
    change b'.posted = _
    rw [hn']
    change b.posted + 1 = _
    omega

/-! COPY_PIECE (R295, R296). -/

theorem spanLines_one {a n : Nat} (hn : 0 < n) (hfit : n ≤ 128 - a % 128) : spanLines (n + 1) a n = [(a, n)] := by
  obtain ⟨m, rfl⟩ : ∃ m, n = m + 1 := ⟨n - 1, by omega⟩
  simp only [spanLines, spanBy, if_neg (Nat.succ_ne_zero m), min_eq_left hfit, Nat.sub_self, if_true]

theorem writeLines_one {a : Nat} {bs : List Byte} (hn : 0 < bs.length) (hfit : bs.length ≤ 128 - a % 128) : writeLines [(a, bs)] = [(a, bs)] := by
  simp [writeLines, spanLines_one hn hfit]

/-- A piece of a copy has bytes, all of one line. -/
theorem pieceLen_bounds {c : Card} {row dst : Nat} (h : isPiece c row dst = true) :
    0 < pieceLen c.body (copyDst c.body row).toNat dst ∧ pieceLen c.body (copyDst c.body row).toNat dst ≤ 128 - dst % 128 := by
  simp only [isPiece, Bool.and_eq_true, decide_eq_true_eq] at h
  have hlt := h.1.1.2
  have hmod := Nat.mod_lt dst (show 0 < 128 by decide)
  exact ⟨Nat.lt_min.2 ⟨by omega, by omega⟩, Nat.min_le_left _ _⟩

theorem Stored.of_mm {s s' u : State} {pa : Nat} {bs : List Byte} (h : Stored s u pa bs) (hs : s'.mm = s.mm) : Stored s' u pa bs := by
  have hg : getLine s' (pa / 128) = getLine s (pa / 128) := getLine_congr (by rw [hs]) (by rw [hs]) _
  refine ⟨h.1, fun hd a ha => ?_⟩
  rw [hs]
  exact h.2 (hg ▸ hd) a ha

theorem setPage_mm (s : State) (n : Nat) (e : TlbEntry) : (setPage s n e).mm = s.mm := by
  unfold setPage; split <;> rfl

theorem setPage_cards (s : State) (n : Nat) (e : TlbEntry) : (setPage s n e).en.cards = s.en.cards := by
  unfold setPage; split <;> rfl

theorem noteWalk_ex (s : State) (x : Via) (asid va : Nat) : (noteWalk s x asid va).ex = s.ex := by
  unfold noteWalk; split <;> rfl

theorem noteWalk_en (s : State) (x : Via) (asid va : Nat) : (noteWalk s x asid va).en = s.en := by
  unfold noteWalk; split <;> rfl

theorem keepPage_mm (s : State) (c : Card) (a : Acc) (va : Nat) : (keepPage s c a va).mm = s.mm := by
  unfold keepPage
  split
  · rw [setPage_mm]
    split
    · exact noteWalk_mm s _ _ _
    · rfl
  · rfl

theorem keepPage_cards (s : State) (c : Card) (a : Acc) (va : Nat) : (keepPage s c a va).en.cards = s.en.cards := by
  unfold keepPage
  split
  · rw [setPage_cards]
    split
    · rw [noteWalk_en]
    · rfl
  · rfl

/-- A card that notes a write at a stamp. -/
def noteWrite (va ts : Nat) (c : Card) : Card := { c with pts := max c.pts ts, fin := max c.fin ts, buf := tset c.buf (wroteKey va) 1 }

/-- A card may write `n` bytes at `va` now, which stand at `pa`: its stream is not frozen, they lie in its footprints, and the write is not yet
made (R290, R292). -/
structure MayWrite (s : State) (card : Nat) (c : Card) (va n pa : Nat) : Prop where
  listed : tget s.en.cards card = some c
  frozen : c.frozen = none
  unmade : tget c.buf (wroteKey va) = none
  allowed : inFootprint c va n true = true
  reaches : Reaches s (cardVia s c) .engineWrite c.asid va pa

/-- A write of a job that reaches its bytes is made, and noted (R290, R292). -/
theorem cardWrite_reaches {s : State} {card va pa : Nat} {c : Card} {bs : List Byte} (h : MayWrite s card c va bs.length pa) (b : Bool) :
    Stored s (cardWrite card b s (va, bs)) pa bs ∧ ∃ ts, tget (cardWrite card b s (va, bs)).en.cards card = some (noteWrite va ts c) := by
  obtain ⟨hst, _, _⟩ := writeAt_stored (noteWalk s (cardVia s c) c.asid va) c.pts pa bs b
  have hen := (HomeFrame.writeAt (noteWalk s (cardVia s c) c.asid va) c.pts pa bs b).en.trans (noteWalk_en s _ _ _)
  have he : cardWrite card b s (va, bs) = modCard (keepPage (writeAt (noteWalk s (cardVia s c) c.asid va) c.pts pa bs b).2 c .engineWrite va) card
      (noteWrite va (writeAt (noteWalk s (cardVia s c) c.asid va) c.pts pa bs b).1) := by
    simp only [cardWrite, h.listed, h.frozen, h.unmade, h.allowed, Option.isSome_none, Bool.false_eq_true, or_self, if_false, Bool.not_true, agentWrite_reaches h.reaches c.pts b]
    rfl
  rw [he]
  refine ⟨⟨?_, ?_⟩, _, tget_modCard_self (by rw [keepPage_cards, hen]; exact h.listed) _⟩
  · rw [modCard_mm, keepPage_mm]; exact hst.1
  · rw [modCard_mm, keepPage_mm]; exact (hst.of_mm (noteWalk_mm s _ _ _).symm).2

/-- The one write of a piece. -/
theorem cardWriteSpans_reaches {s : State} {card va pa : Nat} {c : Card} {bs : List Byte} (hn : 0 < bs.length) (hfit : bs.length ≤ 128 - va % 128)
    (h : MayWrite s card c va bs.length pa) (b : Bool) :
    ∃ u ts, cardWriteSpans s card [(va, bs)] b = (true, u) ∧ Stored s u pa bs ∧ tget u.en.cards card = some (noteWrite va ts c) := by
  obtain ⟨hst, ts, hcard⟩ := cardWrite_reaches h b
  refine ⟨_, ts, ?_, hst, hcard⟩
  simp [cardWriteSpans, writeLines_one hn hfit, hcard, noteWrite, h.frozen]

theorem pieceDone_card {s : State} {card : Nat} {c : Card} (h : tget s.en.cards card = some c) (row dst : Nat) :
    ∃ y, tget (pieceDone s card row dst).en.cards card = some y ∧ (row, dst) ∈ y.pieces ∧ y.bits = c.bits :=
  ⟨_, tget_modCard_self h _, List.mem_cons_self, rfl⟩

/-- A piece whose bytes are at hand, and whose write reaches its place, is stored (R295). -/
theorem copyPiece_stores {card row dst pa : Nat} {s w : State} {c c' : Card} {bs : List Byte} (hwork : Works s card .copy c) (hp : isPiece c row dst = true)
    (hm : copyMode c.body ≠ 1) (hb : pieceBytes s card c row dst = (some bs, w)) (hl : bs.length = pieceLen c.body (copyDst c.body row).toNat dst)
    (h : MayWrite w card c' dst (pieceLen c.body (copyDst c.body row).toNat dst) pa) :
    ∃ u y, exec (.copyPiece card row dst) s = .next u ∧ Stored w u pa bs ∧ tget u.en.cards card = some y ∧ (row, dst) ∈ y.pieces ∧ y.bits = c'.bits := by
  obtain ⟨hpos, hfit⟩ := pieceLen_bounds hp
  obtain ⟨u, ts, hu, hst, hcard⟩ := cardWriteSpans_reaches (hl ▸ hpos) (hl ▸ hfit) (hl ▸ h) true
  obtain ⟨y, hy, hmem, hbits⟩ := pieceDone_card hcard row dst
  refine ⟨pieceDone u card row dst, y, ?_, hst, hy, hmem, hbits⟩
  have hat : atWork s card (fun k => k == .copy) = some c := hwork.atWork rfl
  simp only [exec, execCopyPiece, hat, hp, hb, hm, hu, Bool.not_true, Bool.false_eq_true, if_false]

/-- The bytes of the fill pattern that a piece receives (R295). -/
theorem pieceBytes_fill {s : State} {card row dst : Nat} {c : Card} (hm : copyMode c.body = 3) : pieceBytes s card c row dst =
    (some ((List.range (pieceLen c.body (copyDst c.body row).toNat dst)).map fun i =>
      BitVec.ofNat 8 (bits c.body 255 192 / 2 ^ (8 * ((dst - (copyDst c.body row).toNat + i) % 8)))), s) := if_pos hm

/-- The bytes that a piece reads from memory (R295). -/
theorem pieceBytes_read {s : State} {card row dst : Nat} {c : Card} (hm : copyMode c.body < 2) : pieceBytes s card c row dst =
    cardReadSpan s card (pieceTag row dst) ((copySrc c.body row).toNat + (dst - (copyDst c.body row).toNat)) (pieceLen c.body (copyDst c.body row).toNat dst) := by
  unfold pieceBytes
  rw [if_neg (by omega), if_neg (by omega)]

/-! A piece of a copy into a stash (R296, R348). -/

theorem inTiles_congr {s u : State} (h : u.ex = s.ex) (tm : Team) (o n : Nat) : inTiles u tm o n = inTiles s tm o n := by
  simp only [inTiles, tileBase, h]

theorem setHidden_en (s : State) (team w h : Nat) : (setHidden s team w h).en = s.en := by
  simp only [setHidden, foldHidden]
  split
  · rfl
  · split
    · rfl
    · split <;> rfl

theorem phaseChanged_en (p : Nat) (s : State) (team w : Nat) : (phaseChanged p s team w).en = s.en :=
  (foldl_keeps (p := fun s : State => s.en)
    (f := fun u (e : Nat × Thread) => release (modThread u e.1 fun t => { t with pts := max t.pts (max (hiddenStamp s team w) p) }) e.1)
    (fun _ _ => rfl) _ _).trans (setHidden_en s team w (max (hiddenStamp s team w) p))

theorem stashWrite_en (s : State) (team o : Nat) (bs : List Byte) (p : Nat) : (stashWrite s team o bs p).en = s.en := by
  rw [stashWrite_eq]
  refine (foldl_keeps (p := fun s : State => s.en) (f := fun u w => if phaseFlips s team o bs w then phaseChanged p u team w else u) (fun u w => ?_) _ _).trans rfl
  split
  · exact phaseChanged_en p u team w
  · rfl

/-- The bytes that a write put are read back. -/
theorem stashRead_stashWrite_all {s : State} {team : Nat} {tm : Team} (h : tget s.ex.teams team = some tm) (o : Nat) (bs : List Byte) (p : Nat) :
    stashRead (getTeam (stashWrite s team o bs p) team) o bs.length = leNat bs := by
  refine congrArg leNat (List.ext_getElem (by simp) fun i hi hj => ?_)
  rw [List.getElem_map, List.getElem_range, stash_stashWrite o bs p h, getD_stashBytes, if_pos (by omega), Nat.add_sub_cancel_left,
    List.getElem?_eq_getElem hj]
  rfl

theorem teamAway_false {s : State} {c : Card} {k : Nat} (ht : c.team = some k) (hk : (tget s.ex.teams k).isSome = true) : teamAway s c = false := by
  rw [teamAway, ht]
  have hn : (tget s.ex.teams k).isNone = false := by rw [Option.isNone_eq_false_iff]; exact hk
  dsimp only
  rw [hn, Bool.and_false]

/-- A piece that lies in no tile of its team, and whose phases may change now, is stored in the stash (R261, R296). -/
theorem stashPiece_stores {s : State} {card k row dst : Nat} {c : Card} {bs : List Byte} (hk : (tget s.ex.teams k).isSome = true)
    (ht : inTiles s (getTeam s k) dst bs.length = false) (hc : tget (pieceAhead s card row dst).en.cards card = some c) (hteam : c.team = some k)
    (hph : changesPhase (getTeam s k) dst bs = false ∨ pieceSum c.body (c.ahead ++ c.pieces) = copyRows c.body * copyLen c.body) :
    ∃ y, stashRead (getTeam (stashPiece s card k row dst bs) k) dst bs.length = leNat bs ∧
      tget (stashPiece s card k row dst bs).en.cards card = some y ∧ (row, dst) ∈ y.pieces := by
  obtain ⟨tm, htm⟩ := Option.isSome_iff_exists.1 hk
  have haway : teamAway (pieceAhead s card row dst) c = false := teamAway_false hteam hk
  have htiles : inTiles (pieceAhead s card row dst) (getTeam s k) dst bs.length = false := (inTiles_congr rfl _ _ _).trans ht
  have hnow : (changesPhase (getTeam s k) dst bs && pieceSum c.body (c.ahead ++ c.pieces) != copyRows c.body * copyLen c.body) = false := by
    rcases hph with h | h <;> simp [h]
  have he : stashPiece s card k row dst bs = pieceDone (stashWrite (pieceAhead s card row dst) k dst bs (max c.stamp c.fin)) card row dst := by
    simp only [stashPiece, hc, haway, htiles, hnow, Bool.false_eq_true, if_false]
  obtain ⟨y, hy, hmem, _⟩ := pieceDone_card (s := stashWrite (pieceAhead s card row dst) k dst bs (max c.stamp c.fin)) (by rw [stashWrite_en]; exact hc) row dst
  rw [he]
  exact ⟨y, stashRead_stashWrite_all (s := pieceAhead s card row dst) htm dst bs _, hy, hmem⟩

theorem copyPiece_stash {card row dst k : Nat} {s w : State} {c c' : Card} {bs : List Byte} (hwork : Works s card .copy c) (hp : isPiece c row dst = true)
    (hm : copyMode c.body = 1) (hck : c.team = some k) (hb : pieceBytes s card c row dst = (some bs, w)) (hk : (tget w.ex.teams k).isSome = true)
    (ht : inTiles w (getTeam w k) dst bs.length = false) (hc : tget (pieceAhead w card row dst).en.cards card = some c') (hteam : c'.team = some k)
    (hph : changesPhase (getTeam w k) dst bs = false ∨ pieceSum c'.body (c'.ahead ++ c'.pieces) = copyRows c'.body * copyLen c'.body) :
    ∃ u y, exec (.copyPiece card row dst) s = .next u ∧ stashRead (getTeam u k) dst bs.length = leNat bs ∧ tget u.en.cards card = some y ∧ (row, dst) ∈ y.pieces := by
  obtain ⟨y, hst, hy, hmem⟩ := stashPiece_stores hk ht hc hteam hph
  have hat : atWork s card (fun k => k == .copy) = some c := hwork.atWork rfl
  refine ⟨_, y, ?_, hst, hy, hmem⟩
  simp only [exec, execCopyPiece, hat, hp, hb, hm, hck, Bool.not_true, Bool.false_eq_true, if_false, if_true]

/-! SORT_JOB (R298). -/

theorem insertPair_perm (f : Nat → Nat) (x : Nat × Nat) (l : List (Nat × Nat)) : (insertPair f x l).Perm (x :: l) := by
  induction l with
  | nil => exact .refl _
  | cons y l ih =>
    unfold insertPair
    split
    · exact .refl _
    · exact (ih.cons y).trans (.swap x y l)

theorem insertPair_sorted {f : Nat → Nat} {l : List (Nat × Nat)} (h : l.Pairwise fun x y => f x.1 ≤ f y.1) (x : Nat × Nat) :
    (insertPair f x l).Pairwise fun x y => f x.1 ≤ f y.1 := by
  induction l with
  | nil => exact List.pairwise_singleton _ _
  | cons y l ih =>
    obtain ⟨hy, hl⟩ := List.pairwise_cons.1 h
    unfold insertPair
    split
    · rename_i hlt
      exact List.pairwise_cons.2 ⟨fun z hz => (List.mem_cons.1 hz).elim (fun e => e ▸ hlt.le) fun hz => hlt.le.trans (hy z hz), h⟩
    · rename_i hge
      refine List.pairwise_cons.2 ⟨fun z hz => ?_, ih hl⟩
      rcases List.mem_cons.1 ((insertPair_perm f x l).mem_iff.1 hz) with rfl | hz
      · exact Nat.le_of_not_lt hge
      · exact hy z hz

/-- An element goes after those of its value. -/
theorem filter_insertPair {f : Nat → Nat} {l : List (Nat × Nat)} (h : l.Pairwise fun x y => f x.1 ≤ f y.1) (x : Nat × Nat) (v : Nat) :
    (insertPair f x l).filter (fun y => f y.1 == v) = l.filter (fun y => f y.1 == v) ++ [x].filter fun y => f y.1 == v := by
  induction l with
  | nil => rfl
  | cons y l ih =>
    obtain ⟨hy, hl⟩ := List.pairwise_cons.1 h
    unfold insertPair
    split
    · rename_i hlt
      by_cases hx : f x.1 = v
      · have hnone : (y :: l).filter (fun y => f y.1 == v) = [] := List.filter_eq_nil_iff.2 fun z hz => by
          have hz' : f y.1 ≤ f z.1 := (List.mem_cons.1 hz).elim (fun e => e ▸ le_refl _) (hy z)
          simp only [beq_iff_eq]
          omega
        rw [List.filter_cons, hnone]
        simp [hx]
      · simp [List.filter_cons, hx]
    · rw [List.filter_cons, List.filter_cons, ih hl]
      split <;> rfl

/-- Elements put into an ordered list one after another, each after those of its value. -/
theorem foldl_insertPair (f : Nat → Nat) (l acc : List (Nat × Nat)) (h : acc.Pairwise fun x y => f x.1 ≤ f y.1) :
    (l.foldl (fun acc x => insertPair f x acc) acc).Pairwise (fun x y => f x.1 ≤ f y.1) ∧ (l.foldl (fun acc x => insertPair f x acc) acc).Perm (acc ++ l) ∧
    ∀ v, (l.foldl (fun acc x => insertPair f x acc) acc).filter (fun x => f x.1 == v) = acc.filter (fun x => f x.1 == v) ++ l.filter fun x => f x.1 == v := by
  induction l generalizing acc with
  | nil => exact ⟨h, by simp, by simp⟩
  | cons x l ih =>
    obtain ⟨hsorted, hperm, hstable⟩ := ih _ (insertPair_sorted h x)
    refine ⟨hsorted, ?_, fun v => ?_⟩
    · exact hperm.trans (((insertPair_perm f x acc).append_right l).trans List.perm_middle.symm)
    · rw [List.foldl_cons, hstable v, filter_insertPair h, List.append_assoc, ← List.filter_append]
      rfl

theorem stableSort_spec (f : Nat → Nat) (l : List (Nat × Nat)) : (stableSort f l).Pairwise (fun x y => f x.1 ≤ f y.1) ∧ (stableSort f l).Perm l ∧
    ∀ v, (stableSort f l).filter (fun x => f x.1 == v) = l.filter fun x => f x.1 == v :=
  foldl_insertPair f l [] List.Pairwise.nil

theorem sortJob_ends {card : Nat} {s w1 w2 w3 : State} {c : Card} {ks ps : List Byte} (hwork : Works s card .sort c)
    (hk : cardReadSpan s card 0 (bits c.body 63 0) (8 * sortN c.body) = (some ks, w1))
    (hp : cardReadSpan w1 card 0 (bits c.body 127 64) (4 * sortN c.body) = (some ps, w2))
    (hw : cardWriteSpans w2 card (sortWrites card c.body (stableSort (sortField c.body) ((elemsOf 8 (sortN c.body) ks).zip (elemsOf 4 (sortN c.body) ps)))) = (true, w3)) :
    ∃ u, exec (.sortJob card) s = .next u ∧ Ended w3 u card 0 := by
  have hat : atWork s card (fun k => k == .sort) = some c := hwork.atWork rfl
  obtain ⟨y, hy⟩ := card_of_cardWriteSpans hw
  refine ⟨cardWorked w3 card 0, ?_, ended_cardWorked hy 0⟩
  simp only [exec, execSortJob, hat, hk, hp, hw]

/-! GATHERBIND_JOB and UNBIND_JOB (R299, R302). -/

/-- The card ends with a status, and the windows are as given. -/
structure Bound (u : State) (card status : Nat) (ws : List Window) : Prop where
  windows : u.en.windows = ws
  card : ∃ y, tget u.en.cards card = some y ∧ y.worked = true ∧ y.status = status

theorem bound_cardWorked {s : State} {card : Nat} {c : Card} (h : tget s.en.cards card = some c) (status : Nat) :
    Bound (cardWorked s card status) card status s.en.windows := ⟨rfl, (ended_cardWorked h status).card⟩

theorem gatherbindJob_ends {card : Nat} {s : State} {c : Card} (hwork : Works s card .gatherbind c) : ∃ u n ws, exec (.gatherbindJob card) s = .next u ∧
    Bound u card n ws ∧ (Config.windows ≤ s.en.windows.length → n = 6 ∧ ws = s.en.windows) ∧
      (s.en.windows.length < Config.windows → (∃ x ∈ s.en.windows, windowsMeet (windowOf c.asid c.body) x = true) → n = 7 ∧ ws = s.en.windows) ∧
      (s.en.windows.length < Config.windows → (∀ x ∈ s.en.windows, windowsMeet (windowOf c.asid c.body) x = false) →
        n = 0 ∧ ws = s.en.windows ++ [windowOf c.asid c.body]) := by
  have hat : atWork s card (fun k => k == .gatherbind) = some c := hwork.atWork rfl
  simp only [exec, execGatherbindJob, hat]
  by_cases hfull : Config.windows ≤ s.en.windows.length
  · rw [if_pos hfull]
    exact ⟨_, _, _, rfl, bound_cardWorked hwork.1 6, fun _ => ⟨rfl, rfl⟩, fun h => absurd hfull h.not_ge, fun h => absurd hfull h.not_ge⟩
  · rw [if_neg hfull]
    by_cases hmeet : s.en.windows.any (windowsMeet (windowOf c.asid c.body)) = true
    · rw [if_pos hmeet]
      refine ⟨_, _, _, rfl, bound_cardWorked hwork.1 7, fun h => absurd h hfull, fun _ _ => ⟨rfl, rfl⟩, fun _ h => ?_⟩
      obtain ⟨x, hx, hm⟩ := List.any_eq_true.1 hmeet
      exact absurd hm (by simp [h x hx])
    · rw [if_neg hmeet]
      refine ⟨_, _, _, rfl, bound_cardWorked (s := { s with en := { s.en with windows := s.en.windows ++ [windowOf c.asid c.body] } }) hwork.1 0,
        fun h => absurd h hfull, fun _ h => absurd (List.any_eq_true.2 h) hmeet, fun _ _ => ⟨rfl, rfl⟩⟩

theorem unbindJob_none {card : Nat} {s : State} {c : Card} (hwork : Works s card .unbind c)
    (hn : ∀ w ∈ s.en.windows, w.asid ≠ c.asid ∨ w.wbase ≠ bits c.body 63 0) : ∃ u, exec (.unbindJob card) s = .next u ∧ Ended s u card 4 := by
  have hat : atWork s card (fun k => k == .unbind) = some c := hwork.atWork rfl
  have hfind : s.en.windows.find? (fun w => w.asid == c.asid && w.wbase == bits c.body 63 0) = none := List.find?_eq_none.2 fun w hw => by
    simpa [imp_iff_not_or] using hn w hw
  exact ⟨cardWorked s card 4, by simp only [exec, execUnbindJob, hat, hfind], ended_cardWorked hwork.1 4⟩

theorem unbindJob_frees {card : Nat} {s : State} {c : Card} {w : Window} (hwork : Works s card .unbind c)
    (hw : s.en.windows.find? (fun w => w.asid == c.asid && w.wbase == bits c.body 63 0) = some w) (hb : windowBusy s w = false) :
    ∃ u, exec (.unbindJob card) s = .next u ∧ Bound u card 0 (s.en.windows.filter (· != w)) := by
  have hat : atWork s card (fun k => k == .unbind) = some c := hwork.atWork rfl
  refine ⟨cardWorked { s with en := { s.en with windows := s.en.windows.filter (· != w) } } card 0, ?_, bound_cardWorked
    (s := { s with en := { s.en with windows := s.en.windows.filter (· != w) } }) hwork.1 0⟩
  simp only [exec, execUnbindJob, hat, hw, hb, Bool.false_eq_true, if_false]

/-! Collectives (R303 to R305). -/

/-- A request goes to the fabric: memory and the engines stay. -/
theorem startRequest_keeps (s : State) (tag : Nat) (r : Request) : (startRequest s tag r).mm = s.mm ∧ (startRequest s tag r).en = s.en := by
  simp only [startRequest, sendBy]
  split
  · exact ⟨rfl, rfl⟩
  · split <;> exact ⟨rfl, rfl⟩

theorem sendStep_keeps (s : State) (card : Nat) (c : Card) (pkg at_ : Nat) (v : List Byte) :
    (sendStep s card c pkg at_ v).mm = s.mm ∧ (sendStep s card c pkg at_ v).en = s.en := by
  unfold sendStep sendRequest
  dsimp only
  split
  · exact ⟨rfl, rfl⟩
  · exact startRequest_keeps s _ _

/-- The card keeps its operand, and nothing of the engines but the card differs. -/
theorem present_en (s : State) (card : Nat) (c : Card) (v : List Byte) :
    (present s card c v).en = (modCard s card fun c => { c with buf := [(1, leNat v)] }).en := by
  refine foldl_keeps (p := fun s : State => s.en) (f := fun u m => if m = u.fa.pkg then u
    else (chunks (1984 - (stepHead u c).length) v.length 0 v).foldl (fun u x => sendStep u card c m x.1 x.2) u) (fun u m => ?_) _ _
  split
  · rfl
  · exact foldl_keeps (p := fun s : State => s.en) (fun u (x : Nat × List Byte) => (sendStep_keeps u card c m x.1 x.2).2) _ u

theorem exec_collJob {s : State} {card : Nat} {c : Card} (h : Works s card .coll c) :
    exec (.collJob card) s = .next (collWork s card c (collResult c.body) (lostResult card c.body)) := by
  have hat : atWork s card (fun k => k == .coll) = some c := h.atWork rfl
  simp only [exec, execCollJob, hat]

/-- What an OCOMP card whose image has no address writes is nothing (R305). -/
def imageWrites (b : Nat) (f : List Present → List (Nat × List Byte)) (ps : List Present) : List (Nat × List Byte) := if bits b 191 128 = 0 then [] else f ps

theorem exec_ocompJob {s : State} {card : Nat} {c : Card} (h : Works s card .ocomp c) :
    exec (.ocompJob card) s = .next (collWork s card c (imageWrites c.body fun ps => [(bits c.body 191 128, ocompImage (bits c.body 223 192) ps)])
      (imageWrites c.body (ocompLost card (bits c.body 223 192) (bits c.body 191 128)))) := by
  have hat : atWork s card (fun k => k == .ocomp) = some c := h.atWork rfl
  simp only [exec, execOcompJob, hat]
  rfl

/-- Either event of a collective is the work of its card. -/
theorem collective_next {s : State} {card : Nat} {c : Card} (h : Works s card .coll c ∨ Works s card .ocomp c) :
    tget s.en.cards card = some c ∧ ∃ result lost, exec (if c.kind = .coll then .collJob card else .ocompJob card) s = .next (collWork s card c result lost) := by
  rcases h with h | h
  · rw [if_pos h.2.1]
    exact ⟨h.1, _, _, exec_collJob h⟩
  · rw [if_neg (by rw [h.2.1]; decide)]
    exact ⟨h.1, _, _, exec_ocompJob h⟩

theorem collWork_presents {s w : State} {card : Nat} {c : Card} {v : List Byte} (hb : tget c.buf 1 = none) (ho : collOperand s card c = (some v, w))
    (result lost : List Present → List (Nat × List Byte)) : collWork s card c result lost = present w card c v := by
  simp only [collWork, hb, ho]

section
variable {s : State} {card own : Nat} {c : Card} (hown : tget c.buf 1 = some own) (hst : c.status = 0) (result lost : List Present → List (Nat × List Byte))
include hown hst

theorem collWork_strangers (hs : strangers s c ≠ []) (hc : tget s.en.cards card = some c) : Ended s (collWork s card c result lost) card 8 := by
  have hkeep (l : List Nat) (u : State) : (l.foldl (fun s m => sendStep s card c m 0 []) u).mm = u.mm ∧ (l.foldl (fun s m => sendStep s card c m 0 []) u).en = u.en :=
    ⟨foldl_keeps (p := fun s : State => s.mm) (fun u m => (sendStep_keeps u card c m 0 []).1) l u,
      foldl_keeps (p := fun s : State => s.en) (fun u m => (sendStep_keeps u card c m 0 []).2) l u⟩
  simp only [collWork, hown, collEnd]
  rw [if_pos ⟨hst, hs⟩]
  refine ⟨(hkeep _ s).1, (ended_cardWorked (s := dropSteps _ c) (c := c) ?_ 8).card⟩
  change tget (List.foldl _ s _).en.cards card = some c
  rw [(hkeep _ s).2]
  exact hc

variable (hs : strangers s c = []) (hall : (presented s c (natLe (collBytes c) own)).length = (collMembers s c.body).length)
  (hps : presented s c (natLe (collBytes c) own) ≠ [])
include hs hall hps

theorem collWork_agrees (hp : ∀ p ∈ presented s c (natLe (collBytes c) own), p.head = collHead s c.kind c.body) {w : State}
    (hw : cardWriteSpans s card (result (presented s c (natLe (collBytes c) own))) = (true, w)) : Ended w (collWork s card c result lost) card 0 := by
  have hno : (presented s c (natLe (collBytes c) own)).any (fun p => p.head != collHead s c.kind c.body) = false :=
    List.any_eq_false.2 fun p hm => by simp [hp p hm]
  obtain ⟨y, hy⟩ := card_of_cardWriteSpans hw
  simp only [collWork, hown, collEnd]
  rw [if_neg fun h => h.2 hs, if_pos ⟨hst, hall, hps⟩, hno, if_neg Bool.false_ne_true, hw]
  exact ⟨rfl, (ended_cardWorked (s := dropSteps w c) hy 0).card⟩

theorem collWork_differs (hp : ∃ p ∈ presented s c (natLe (collBytes c) own), p.head ≠ collHead s c.kind c.body) (hc : tget s.en.cards card = some c) :
    Ended s (collWork s card c result lost) card 8 := by
  have hyes : (presented s c (natLe (collBytes c) own)).any (fun p => p.head != collHead s c.kind c.body) = true :=
    List.any_eq_true.2 (hp.imp fun p h => ⟨h.1, by simpa using h.2⟩)
  simp only [collWork, hown, collEnd]
  rw [if_neg fun h => h.2 hs, if_pos ⟨hst, hall, hps⟩, hyes, if_pos rfl]
  exact ⟨rfl, (ended_cardWorked (s := dropSteps s c) hc 8).card⟩

end

/-! JOB_COMPLETION (R224, R225, R291). -/

/-- What the completion of a card makes of another card (R224). -/
def freedBy (card F : Nat) (y : Card) : Card := if card ∈ y.deps then { y with deps := y.deps.filter (· != card), pts := max y.pts F } else y

/-- What it makes of the card with a number. -/
def afterCard (card F n : Nat) (y : Card) : Card := if n = card then { y with finished := true } else freedBy card F y

/-- A card has completed, and the cards that depend on it no longer do (R224). -/
def freeDeps (s : State) (card F : Nat) : State := { s with en := { s.en with cards := s.en.cards.map fun e => (e.1, afterCard card F e.1 e.2) } }

theorem tget_freeDeps (s : State) (card F m : Nat) : tget (freeDeps s card F).en.cards m = (tget s.en.cards m).map (afterCard card F m) :=
  tget_mapKey s.en.cards (afterCard card F) m

theorem freeDeps_eq (s : State) (card F : Nat) : freeDeps s card F = { s with en := { s.en with cards := s.en.cards.map fun e =>
    if e.1 = card then (e.1, { e.2 with finished := true })
    else (e.1, if e.2.deps.contains card then { e.2 with deps := e.2.deps.filter (· != card), pts := max e.2.pts F } else e.2) } } := by
  have hone : (fun e : Nat × Card => (e.1, afterCard card F e.1 e.2)) = fun e =>
      if e.1 = card then (e.1, { e.2 with finished := true })
      else (e.1, if e.2.deps.contains card then { e.2 with deps := e.2.deps.filter (· != card), pts := max e.2.pts F } else e.2) := funext fun e => by
    simp only [afterCard, freedBy, List.contains_iff_mem]
    split <;> rfl
  rw [freeDeps, hone]

/-- The operation of a job's issuer completes at F (R225). -/
def finOp (F id : Nat) (t : Thread) : Thread := retire (modOp t id fun o => { o with finish := F, complete := true })

/-- What stays of the operation is complete, with its F. -/
theorem finOp_done {F id : Nat} {t : Thread} {p : Op} (hp : p ∈ (finOp F id t).ops) (hid : p.id = id) : p.complete = true ∧ p.finish = F := by
  obtain ⟨o, _, rfl⟩ := List.mem_map.1 (List.mem_of_mem_filter hp)
  by_cases ho : o.id = id
  · simp [ho]
  · simp only [if_neg ho] at hid
    exact absurd hid ho

theorem finishCard_node {s : State} {card : Nat} {c : Card} {d n : Nat} (ht : c.thr = none) (hn : c.node = some (d, n)) :
    finishCard s card c = freeDeps (modNode s d n fun x => { x with finished := some c.finish }) card c.finish := by
  simp only [finishCard, ht, hn, freeDeps_eq]
  rfl

/-- A card's issuer is operation `id` of thread `k`, which waits for nothing. -/
structure IssuedBy (s : State) (c : Card) (k id : Nat) (t : Thread) : Prop where
  thr : c.thr = some (k, id)
  node : c.node = none
  thread : getThread s k = some t
  op : (findOp t id).isSome = true
  held : t.held = none
  waitOn : t.waitOn = .nothing

theorem finishCard_thr {s : State} {card : Nat} {c : Card} {k id : Nat} {t : Thread} (h : IssuedBy s c k id t) :
    finishCard s card c = freeDeps (recheck (modThread s k (finOp c.finish id)) k) card c.finish := by
  simp only [finishCard, h.thr, h.node, h.thread, Option.bind_some, h.op, if_true, freeDeps_eq]
  rfl

/-- A card that has worked, and whose every write is accepted, has still to complete (R291). -/
structure Completing (s : State) (card : Nat) (c : Card) : Prop where
  listed : tget s.en.cards card = some c
  frozen : c.frozen = none
  worked : c.worked = true
  accepted : ∀ r ∈ ownRequests s (.card card), r.accepted = true
  unfinished : c.finished = false

theorem jobCompletion_next {s : State} {card : Nat} {c : Card} (h : Completing s card c) :
    exec (.jobCompletion card) s = .next (completionWord (finishCard s card c) card c) := by
  have hno : (ownRequests s (.card card)).any (fun r => !r.accepted) = false := List.any_eq_false.2 fun r hm => by simp [h.accepted r hm]
  have hgo : ¬ (c.frozen.isSome = true ∨ c.worked = false ∨ (ownRequests s (.card card)).any (fun r => !r.accepted) = true) := by
    simp only [h.frozen, h.worked, hno, Option.isSome_none, Bool.false_eq_true, Bool.true_eq_false, or_self, not_false_iff]
  simp only [exec, execJobCompletion, h.listed, if_neg hgo, h.unfinished, Bool.false_eq_true, if_false]

theorem getNode_modNode {s : State} {d n : Nat} {x : GNode} (h : getNode s d n = some x) (f : GNode → GNode) : getNode (modNode s d n f) d n = some (f x) := by
  refine (tget_tmod _ _ _ _).trans ?_
  rw [if_pos rfl, show tget s.qu.nodes (d * 4096 + n) = some x from h]
  rfl

/-- A job of a node completes for its node and for the cards that depend on it (R224, R291). -/
theorem jobCompletion_node {s : State} {card : Nat} {c : Card} {d n : Nat} {x : GNode} (h : Completing s card c) (hva : bits c.bits 120 64 = 0)
    (ht : c.thr = none) (hn : c.node = some (d, n)) (hx : getNode s d n = some x) :
    ∃ u, exec (.jobCompletion card) s = .next u ∧ u.mm = s.mm ∧ tget u.en.cards card = none ∧ getNode u d n = some { x with finished := some c.finish } ∧
      ∀ m y, m ≠ card → tget s.en.cards m = some y → tget u.en.cards m = some (freedBy card c.finish y) := by
  have hword : completionWord (finishCard s card c) card c = dropCard (finishCard s card c) card := if_pos hva
  refine ⟨_, jobCompletion_next h, ?_⟩
  rw [hword, finishCard_node ht hn]
  refine ⟨rfl, tget_tdel_self _ _, getNode_modNode hx _, fun m y hm hy => ?_⟩
  refine (tget_tdel_ne _ hm).trans ((tget_freeDeps _ card c.finish m).trans ?_)
  rw [show tget (modNode s d n _).en.cards m = some y from hy, Option.map_some, afterCard, if_neg hm]

/-! What the completion of an issuer's operation may end (R221, R400). -/

/-- A thread that waits for nothing is not woken; where it has exited, barriers may complete. -/
theorem recheck_noWait {s : State} {k : Nat} {t : Thread} (h : getThread s k = some t) (hh : t.held = none) (hw : t.waitOn = .nothing) :
    recheck s k = s ∨ recheck s k = checkBars s t.team := by
  have hwait : checkWait s k = s := by simp [checkWait, h, hh]
  have hstop : checkStop s k = s := by simp [checkStop, h, hw]
  rw [recheck, hwait, hstop, checkDrained, h]
  dsimp only
  split
  · exact .inr rfl
  · exact .inl rfl

/-- Threads, teams and the like apart, nothing differs. -/
def ExOnly (s u : State) : Prop := u = { s with ex := u.ex }

theorem ExOnly.trans {s u v : State} (h : ExOnly s u) (k : ExOnly u v) : ExOnly s v := by
  unfold ExOnly at h k; rw [h] at k; exact k

theorem ExOnly.releaseBar (s : State) (m : BarScope) (p : Nat) (l : List (Nat × Thread)) : ExOnly s (releaseBar s m p l) := by
  have h := OnlyThreads.releaseBar s m p l
  unfold OnlyThreads at h
  rw [h]
  rfl

theorem ExOnly.checkTeamBar (s : State) (team : Nat) : ExOnly s (checkTeamBar s team) := by
  unfold Machine.checkTeamBar
  split
  · rfl
  · dsimp only
    split
    · exact ExOnly.trans (u := modTeam s team _) rfl (.releaseBar _ _ _ _)
    · rfl

theorem ExOnly.checkClusterBar (s : State) (k : Nat) : ExOnly s (checkClusterBar s k) := by
  unfold Machine.checkClusterBar
  split
  · rfl
  · dsimp only
    split
    · exact ExOnly.trans (u := { s with ex := _ }) rfl (.releaseBar _ _ _ _)
    · rfl

theorem ExOnly.checkBars (s : State) (team : Nat) : ExOnly s (checkBars s team) := by
  unfold Machine.checkBars
  dsimp only
  split
  · exact (ExOnly.checkTeamBar s team).trans (.checkClusterBar _ _)
  · exact .checkTeamBar s team

/-- The thread `k` has kept its registers and its operations. -/
def Retains (k : Nat) (t : Thread) (s : State) : Prop := ∃ x, getThread s k = some x ∧ x.regs = t.regs ∧ x.ops = t.ops

theorem Retains.of_threads {k : Nat} {t : Thread} {s u : State} (h : Retains k t s) (ht : u.ex.threads = s.ex.threads) : Retains k t u := by
  obtain ⟨x, hx, hk⟩ := h
  exact ⟨x, (getThread_of_threads ht k).trans hx, hk⟩

theorem Retains.modThread {k : Nat} {t : Thread} {s : State} (h : Retains k t s) (j : Nat) {f : Thread → Thread}
    (hf : ∀ x, (f x).regs = x.regs ∧ (f x).ops = x.ops) : Retains k t (modThread s j f) := by
  obtain ⟨x, hx, hr, ho⟩ := h
  unfold Retains
  rw [getThread_modThread]
  split
  · rename_i hj
    subst hj
    exact ⟨f x, by rw [hx]; rfl, (hf x).1.trans hr, (hf x).2.trans ho⟩
  · exact ⟨x, hx, hr, ho⟩

theorem completeWait_ops (t : Thread) (n : Nat) : (completeWait t n).ops = t.ops := by
  unfold completeWait
  dsimp only
  split <;> rfl

theorem Retains.releaseBar {k : Nat} {t : Thread} {s : State} (h : Retains k t s) (m : BarScope) (p : Nat) (l : List (Nat × Thread)) :
    Retains k t (releaseBar s m p l) :=
  List.foldlRecOn (motive := Retains k t) _ _ h fun u hu e _ => by
    split
    · refine Retains.modThread ?_ e.1 fun x => ⟨(completeWait_keeps x _).1, completeWait_ops x _⟩
      exact hu.modThread e.1 fun x => ⟨rfl, rfl⟩
    · exact hu

theorem Retains.checkTeamBar {k : Nat} {t : Thread} {s : State} (h : Retains k t s) (team : Nat) : Retains k t (checkTeamBar s team) := by
  unfold Machine.checkTeamBar
  split
  · exact h
  · dsimp only
    split
    · exact (h.of_threads (u := modTeam s team _) rfl).releaseBar _ _ _
    · exact h

theorem Retains.checkClusterBar {k : Nat} {t : Thread} {s : State} (h : Retains k t s) (n : Nat) : Retains k t (checkClusterBar s n) := by
  unfold Machine.checkClusterBar
  split
  · exact h
  · dsimp only
    split
    · refine Retains.releaseBar ?_ _ _ _
      exact h.of_threads rfl
    · exact h

theorem Retains.checkBars {k : Nat} {t : Thread} {s : State} (h : Retains k t s) (team : Nat) : Retains k t (checkBars s team) := by
  unfold Machine.checkBars
  dsimp only
  split
  · exact (h.checkTeamBar team).checkClusterBar _
  · exact h.checkTeamBar team

/-- A job of a thread completes for its operation; barriers may complete, and the cards that depend on it are freed. -/
structure Finished (s : State) (k : Nat) (t : Thread) (u : State) : Prop where
  rest : u = { s with ex := u.ex, en := { s.en with cards := u.en.cards } }
  thread : Retains k t u

theorem finished_finishCard {s : State} (card : Nat) {c : Card} {k id : Nat} {t : Thread} (h : IssuedBy s c k id t) :
    Finished s k (finOp c.finish id t) (finishCard s card c) := by
  have hthr : getThread (modThread s k (finOp c.finish id)) k = some (finOp c.finish id t) := by rw [getThread_modThread, if_pos rfl, h.thread]; rfl
  have hmine : Retains k (finOp c.finish id t) (modThread s k (finOp c.finish id)) := ⟨_, hthr, rfl, rfl⟩
  rw [finishCard_thr h]
  rcases recheck_noWait hthr h.held h.waitOn with he | he <;> rw [he]
  · exact ⟨rfl, hmine.of_threads rfl⟩
  · have hex := ExOnly.checkBars (modThread s k (finOp c.finish id)) (finOp c.finish id t).team
    refine ⟨?_, (hmine.checkBars _).of_threads rfl⟩
    unfold ExOnly at hex
    rw [hex]
    rfl

/-- The job of a thread whose completion word reaches its place: the word is written above F, and the issuer's operation is complete (R225, R291). -/
theorem jobCompletion_thread {s : State} {card : Nat} {c : Card} {k id pa : Nat} {t : Thread} (h : Completing s card c) (hi : IssuedBy s c k id t)
    (hr : ownRequests s (.card card) = []) (hr' : ownRequests s (.completion card) = []) (hva : bits c.bits 120 64 ≠ 0)
    (hreach : Reaches (settleAll (finishCard s card c)) (cardVia s c) .engineWrite c.asid (bits c.bits 120 64) pa) :
    ∃ u v, exec (.jobCompletion card) s = .next u ∧ tget u.en.cards card = none ∧
      Stored (settleAll (finishCard s card c)) u pa (natLe 8 (bits c.bits 63 32 + 2 ^ 32 * c.status)) ∧ c.finish < (getLine u (pa / 128)).wts ∧
      getThread u k = some v ∧ v.regs = t.regs ∧ ∀ p ∈ v.ops, p.id = id → p.complete = true ∧ p.finish = c.finish := by
  obtain ⟨hrest, x, hx, hregs, hops⟩ := finished_finishCard card hi
  have hvia : cardVia (finishCard s card c) c = cardVia s c := by rw [hrest]; rfl
  have hown (w : Owner) : ownRequests (finishCard s card c) w = ownRequests s w := by rw [hrest]; rfl
  have hword : completionWord (finishCard s card c) card c = dropCard (writeAt (noteWalk (settleAll (finishCard s card c)) (cardVia s c) c.asid (bits c.bits 120 64))
      (c.finish + 1) pa (natLe 8 (bits c.bits 63 32 + 2 ^ 32 * c.status)) false).2 card := by
    simp only [completionWord, if_neg hva, hown, hr, hr', ne_eq, not_true_eq_false, or_self, if_false, hvia, agentWrite_reaches hreach]
  generalize hw' : noteWalk (settleAll (finishCard s card c)) (cardVia s c) c.asid (bits c.bits 120 64) = z at hword
  have hz : getThread z k = some x := by
    rw [← hw']
    exact (getThread_of_threads (by rw [noteWalk_ex, settleAll_ex]) k).trans hx
  obtain ⟨hst, hwts, hts⟩ := writeAt_stored z (c.finish + 1) pa (natLe 8 (bits c.bits 63 32 + 2 ^ 32 * c.status)) false
  have habove : c.finish < (getLine (writeAt z (c.finish + 1) pa (natLe 8 (bits c.bits 63 32 + 2 ^ 32 * c.status)) false).2 (pa / 128)).wts := by
    rw [hwts, hts]
    exact (Nat.lt_succ_self _).trans_le (Nat.le_max_left _ _)
  obtain ⟨v, hv, hkept⟩ := (HomeFrame.writeAt z (c.finish + 1) pa (natLe 8 (bits c.bits 63 32 + 2 ^ 32 * c.status)) false).threads k x hz
  refine ⟨_, v, jobCompletion_next h, ?_⟩
  rw [hword]
  refine ⟨tget_tdel_self _ _, hst.of_mm ?_, ?_, hv, ?_, ?_⟩
  · rw [← hw', noteWalk_mm]
  · exact habove
  · rw [hkept.same]; exact hregs
  · obtain ⟨g, hgv, hgk⟩ := hkept.ops
    intro p hp hid
    rw [hgv, hops] at hp
    obtain ⟨q, hq, rfl⟩ := List.mem_map.1 hp
    obtain ⟨hgid, hgc, _, hgf, _⟩ := hgk q
    rw [hgc, hgf]
    exact finOp_done hq (hgid ▸ hid)

end Sys2Proof.Machine

section
open Sys2Proof Sys2Proof.Machine

/-- Settles O57, a clause for each event, by the lemmas of this part. -/
theorem enginesWork : Obligations.EnginesWork := by
  refine ⟨fun card s c hc hst hfi hd hs h3 => jobStart_ends ⟨hc, hst, hfi, hd, hs, h3⟩, ?fill, ?copy, ?stash, ?sort, stableSort_spec, ?bind, ?unbind, ?presents,
    ?coll, ?ocomp, ?strangers, ?node, ?thread⟩
  case fill =>
    intro card row dst s c pa hwork hp hm n bs hw hin hr
    exact copyPiece_stores hwork hp (by omega) (pieceBytes_fill hm) ((List.length_map _).trans List.length_range) ⟨hwork.1, hwork.2.2.2.1, hw, hin, hr⟩
  case copy =>
    intro card row dst s c c' pa bs w hwork hp hm j n hb hl hc hf hw hin hr
    obtain ⟨u, y, hu, hst, hy, hmem, _⟩ := copyPiece_stores hwork hp (by omega) ((pieceBytes_read (by omega)).trans hb) hl ⟨hc, hf, hw, hin, hr⟩
    exact ⟨u, y, hu, hst, hy, hmem⟩
  case stash =>
    intro card row dst s c c' bs w k hwork hp hm hck _ j n hb hl hk ht hc hteam hph
    have hfound := copyPiece_stash hwork hp hm hck ((pieceBytes_read (by omega)).trans hb) hk (hl ▸ ht) hc hteam hph
    rwa [hl] at hfound
  case sort =>
    intro card s c ks ps w1 w2 w3 hwork hk hp hw
    obtain ⟨u, hu, hmm, y, hy⟩ := sortJob_ends hwork hk hp hw
    exact ⟨u, y, hu, hmm, hy⟩
  case bind =>
    intro card s c hwork w
    obtain ⟨u, n, ws, hu, ⟨hws, y, hy, hwk, hn⟩, hfull, hmeet, hfree⟩ := gatherbindJob_ends hwork
    rw [← hws, ← hn] at hfull hmeet hfree
    exact ⟨u, y, hu, hy, hwk, hfull, hmeet, hfree⟩
  case unbind =>
    intro card s c hwork
    refine ⟨fun hn => ?_, fun w hw hb => ?_⟩
    · obtain ⟨u, hu, _, y, hy⟩ := unbindJob_none hwork hn
      exact ⟨u, y, hu, hy⟩
    · obtain ⟨u, hu, hws, y, hy, hwk, hst⟩ := unbindJob_frees hwork hw hb
      exact ⟨u, y, hu, hy, hwk, hst, fun x => by rw [hws]; simp⟩
  case presents =>
    intro card s c v w hwork hb ho hc
    obtain ⟨_, result, lost, hu⟩ := collective_next hwork
    obtain ⟨c', hc'⟩ := Option.isSome_iff_exists.1 hc
    refine ⟨present w card c v, { c' with buf := [(1, leNat v)] }, by rw [hu, collWork_presents hb ho], ?_, rfl⟩
    rw [present_en]
    exact tget_modCard_self hc' _
  case coll =>
    intro card s c own hwork hown hst hs ps hall hps
    refine ⟨fun hp w hw => ?_, fun hp => ?_⟩
    · obtain ⟨hmm, y, hy⟩ := collWork_agrees hown hst (collResult c.body) (lostResult card c.body) hs hall hps hp hw
      exact ⟨_, y, exec_collJob hwork, hmm, hy⟩
    · obtain ⟨hmm, y, hy⟩ := collWork_differs hown hst (collResult c.body) (lostResult card c.body) hs hall hps hp hwork.1
      exact ⟨_, y, exec_collJob hwork, hmm, hy⟩
  case ocomp =>
    intro card s c own w hwork hown hst hs ps hall hps hp hd hw
    have hwrites : imageWrites c.body (fun ps => [(bits c.body 191 128, ocompImage (bits c.body 223 192) ps)]) ps =
        [(bits c.body 191 128, ocompImage (bits c.body 223 192) ps)] := if_neg hd
    obtain ⟨hmm, y, hy⟩ := collWork_agrees hown hst _ (imageWrites c.body (ocompLost card (bits c.body 223 192) (bits c.body 191 128))) hs hall hps hp
      ((congrArg (cardWriteSpans s card ·) hwrites).trans hw)
    exact ⟨_, y, exec_ocompJob hwork, hmm, hy⟩
  case strangers =>
    intro card s c own hwork hown hst hs
    obtain ⟨hc, result, lost, hu⟩ := collective_next hwork
    obtain ⟨hmm, y, hy⟩ := collWork_strangers hown hst result lost hs hc
    exact ⟨_, y, hu, hmm, hy⟩
  case node =>
    intro card s c d n x hc hf hw hr hfi hva ht hn hx
    exact jobCompletion_node ⟨hc, hf, hw, hr, hfi⟩ hva ht hn hx
  case thread =>
    intro card s c k id t o pa hc hf hw hr hr' hfi hva ht hn hg ho hh hwt w hreach
    exact jobCompletion_thread ⟨hc, hf, hw, by simp [hr], hfi⟩ ⟨ht, hn, hg, ho ▸ rfl, hh, hwt⟩ hr hr' hva hreach

end

namespace Sys2Proof.Machine

/-! The end of handler mode (R381). -/

/-- A thread whose transfer to `tgt` has ended handler mode, out of its word. -/
def handlerEnded (t : Thread) (f : HFrame) (tgt : Word) : Thread := { endHandler (endRun t) f tgt with grants := [], buf := [] }

/-- The XFER.RET that transfers from DEPTH one above the frame's ends handler mode. -/
theorem xferRet_ends_handler (bt : BtIx) (ps : PredIx) (neg : Bool) (s : State) :
    LaneByLane s {} (.xferRet bt ps neg) always (fun _ => s) fun _ u k t v => ∀ f, t.frame = some f → t.depth = f.depth + 1 →
      (readBt t bt).prepared = true → (readPred t ps != neg) = true → LaneEnds k u (handlerEnded t f (readBt t bt).target) v := by
  refine issueWord_lanes_of_body rfl fun c u k t f hf hd hb hp => ?_
  have hz : t.depth ≠ 0 := by omega
  simp only [hb, hp, hf, if_neg hz, if_pos hd, Bool.true_eq_false, if_false, if_true]
  exact (LaneEnds.setThread u k _).leaveBundle.leaveBundle

/-- What the end of handler mode gives back wherever it goes on, and what it leaves. -/
structure LeftHandler (t : Thread) (f : HFrame) (tgt : Word) (x : Thread) : Prop where
  pc : x.pc = tgt
  depth : x.depth = f.depth
  frame : x.frame = none
  bts : ∀ b, readBt x b = if b = 7 then f.b7 else readBt t b
  preds : x.preds = t.preds
  ops : x.ops = t.ops
  pts : x.pts = t.pts
  st : x.st = t.st

/-- At FPC the run goes on, with the temporaries of the frame. -/
theorem handlerEnded_resumes (t : Thread) (f : HFrame) (hf : f.ts.length = 8) :
    LeftHandler t f t.fpc (handlerEnded t f t.fpc) ∧ (handlerEnded t f t.fpc).runPos = f.runPos ∧ (handlerEnded t f t.fpc).btag = f.btag ∧
      (handlerEnded t f t.fpc).tvalid = f.tvalid ∧
      ∀ n, readReg (handlerEnded t f t.fpc) n = if 120 ≤ n ∧ n < 128 then (f.ts[n - 120]?).getD 0 else readReg t n := by
  let t' : Thread := { endRun t with depth := f.depth, bts := tset t.bts 7 f.b7, frame := none, pc := t.fpc }
  have he : handlerEnded t f t.fpc = { writeSpan t' 120 f.ts with
      tvalid := f.tvalid, runPos := f.runPos, btag := f.btag, grants := [], buf := [] } := by
    simp only [handlerEnded, endHandler, endRun, if_true, t']
  obtain ⟨r, v, p, hw⟩ := writeSpan_eq f.ts t' 120
  have hregs (n : Nat) : readReg (handlerEnded t f t.fpc) n = readReg (writeSpan t' 120 f.ts) n := by rw [he]; rfl
  refine ⟨?_, by rw [he], by rw [he], by rw [he], fun n => ?_⟩
  · rw [he, hw]
    exact ⟨rfl, rfl, rfl, fun b => readBt_writeBt t 7 b f.b7, rfl, rfl, rfl, rfl⟩
  · rw [hregs, readReg_writeSpan, hf]
    rfl

/-- Elsewhere a new run begins. -/
theorem handlerEnded_elsewhere (t : Thread) (f : HFrame) {tgt : Word} (h : tgt ≠ t.fpc) :
    LeftHandler t f tgt (handlerEnded t f tgt) ∧ (handlerEnded t f tgt).runPos = 0 ∧ (handlerEnded t f tgt).btag = Config.noTag ∧
      (handlerEnded t f tgt).tvalid = [] ∧ ∀ n, readReg (handlerEnded t f tgt) n = readReg t n := by
  have he : handlerEnded t f tgt = { endRun t with
      depth := f.depth, bts := tset t.bts 7 f.b7, frame := none, pc := tgt, grants := [], buf := [] } := by
    have hfpc : tgt ≠ (endRun t).fpc := h
    simp only [handlerEnded, endHandler, if_neg hfpc]
    rfl
  rw [he]
  exact ⟨⟨rfl, rfl, rfl, fun b => readBt_writeBt t 7 b f.b7, rfl, rfl, rfl, rfl⟩, rfl, rfl, rfl, fun _ => rfl⟩

end Sys2Proof.Machine

section
open Sys2Proof Sys2Proof.Machine

/-- Settles O24: the word by `xferRet_ends_handler`, its thread by `handlerEnded_resumes` at FPC and by `handlerEnded_elsewhere`. -/
theorem handlerReturn : Obligations.HandlerReturn := by
  refine fun bt ps neg s => (xferRet_ends_handler bt ps neg s).imp fun c u k t v h f hf hd hb hp hl => ?_
  refine ⟨_, h f hf hd hb hp, ?_⟩
  split
  case isTrue hfpc =>
    rw [hfpc]
    obtain ⟨hleft, hrest⟩ := handlerEnded_resumes t f hl
    exact ⟨hleft.pc, hleft.depth, hleft.frame, hleft.bts, hleft.preds, hleft.ops, hleft.pts, hleft.st, hrest⟩
  case isFalse hfpc =>
    obtain ⟨hleft, hrest⟩ := handlerEnded_elsewhere t f hfpc
    exact ⟨hleft.pc, hleft.depth, hleft.frame, hleft.bts, hleft.preds, hleft.ops, hleft.pts, hleft.st, hrest⟩

end

namespace Sys2Proof.Machine

/-! BRKPT in a DEBUG grid (R337, R384): a thread of the stopped group whose word is under way is READY still, and stops at its next word boundary. -/

/-- A thread at a BRKPT, and a READY one of its group whose CHLD is under way. -/
def chainUnderWay : State where
  ex := { cores := [(0, { ports := [(0, [0])] })]
          grids := [(0, { record := [0, 0, 0, 0, 0x40000], launcher := .slot 0 0 })]
          teams := [(0, { grid := 0, lin := 0, cluster := 0, threads := 2 })]
          threads := [(0, { team := 0, pc := 0 }),
            (1, { team := 0, pc := 5, glane := 1, hlane := 1, ops := [{ id := 1, wid := 1, cnt := .ld, kind := .chain { fin := .ld64, steps := [], p := 0, c := 0 } }] })] }
  cur := some { core := 0, port := 0, fpc := 0 }

theorem chainUnderWay_issues : Issues {} { core := 0, port := 0, hints := [], fpc := 0 } [0] chainUnderWay :=
  ⟨by decide, by decide, by decide⟩

theorem chainUnderWay_stops : exec .brkpt chainUnderWay = .next (done (leaveBundle (meetBreak chainUnderWay 0 0x15 0 0 1) 0)) := rfl

/-- The thread of the chain has its debug stop, and is READY still. -/
theorem chainUnderWay_ready : (getThread (done (leaveBundle (meetBreak chainUnderWay 0 0x15 0 0 1) 0)) 1).map (fun t => (t.dstop, t.st)) =
    some (true, .ready) := by decide

end Sys2Proof.Machine

section
open Sys2Proof Sys2Proof.Machine

/-- Refutes O27, in what it says of the debug stop: in `chainUnderWay` a READY thread of the group has a CHLD under way, and BRKPT leaves it READY,
to stop at its next word boundary (R337). -/
theorem not_trapAndBreakpoint : ¬ Obligations.TrapAndBreakpoint := by
  intro ⟨_, _, _, _, hstop⟩
  obtain ⟨v, hv, _, _, _, _, _, _, _, _, _, _, hmates⟩ := hstop chainUnderWay _ 0 _ chainUnderWay_issues rfl (by decide)
  obtain rfl : v = _ := (Host.Outcome.next.inj (chainUnderWay_stops.symm.trans hv)).symm
  obtain ⟨y, hy, _, hst⟩ := hmates rfl (by decide) (1, _) (List.mem_cons_of_mem _ List.mem_cons_self) rfl
  have hready := chainUnderWay_ready
  rw [hy] at hready
  obtain ⟨_, hready⟩ := Prod.mk.inj (Option.some.inj hready)
  exact absurd ((hst rfl).symm.trans hready) (by decide)

end

namespace Sys2Proof.Machine

/-! CHLD (R252 to R254). -/

/-- The first register of X1 of the word that a port is issuing, where one is. -/
def issuedX1 (s : State) : Nat := (s.cur.map fun x => opxX1 x.hints).getD 0

/-- What a CHLD needs: X1 is an operand of .add32 alone. -/
def chldSpec (m : ChldFin) (d a b : Reg) (x1 : Nat) : WordSpec :=
  { opSpec ([sp2 a, sp1 b] ++ if isAdd m then [(x1, 1, 1)] else []) [sp2 d] with
    hints := if isAdd m then [1] else [], needs := if isAdd m then [1] else [], adds := [(.ld, 1)] }

/-- The operation of a CHLD of the descriptor's steps `l`, numbered `id` (R252, R254). -/
def chldOp (m : ChldFin) (d a : Reg) (x1 : Nat) (c : Ctx) (id : Nat) (t : Thread) (l : List Nat) : Op :=
  { newOp c id id t .ld (.chain { fin := m, steps := l, p := rdPair t a, c := t.pts, base := if hasIndex l then rdPair t d else 0, x1 := (readReg t x1).toNat }) 0 (.here 0) 8 with dest := d.toNat, dlen := 2 }

/-- What CHLD does in a lane. -/
def chldLane (m : ChldFin) (d a b : Reg) (x1 : Nat) (c : Ctx) (s : State) (k : Nat) (t : Thread) : LaneOut :=
  let (l, e) := chainDesc (getTeam s t.team) (rd t b).toNat
  if hasIndex l && [d.toNat, d.toNat + 1].any (fun n => decide (120 ≤ n) && !(tget t.tvalid n).getD false) then .fault 0x03 0
  else match e with
    | some code => .fault code 0
    | none => if hasIndex l && [d.toNat, d.toNat + 1].any t.rpoison.contains then .fault 0x17 0
      else .ok (issueOp { s with nextId := s.nextId + 1 } k t (chldOp m d a x1 c s.nextId t l))

theorem exec_chld (m : ChldFin) (d a b : Reg) (s : State) :
    exec (.chld m d a b) s = issueWord (chldSpec m d a b (issuedX1 s)) (chldLane m d a b (issuedX1 s)) s := by
  change execChld m d a b s = _
  unfold execChld issuedX1
  cases s.cur <;> rfl

/-- The base pair, where an index step needs it, is an undefined temporary (R254). -/
def BaseUndef (t : Thread) (d : Reg) (l : List Nat) : Prop :=
  hasIndex l = true ∧ ∃ n ∈ [d.toNat, d.toNat + 1], 120 ≤ n ∧ tget t.tvalid n ≠ some true

/-- The base pair, where an index step needs it, is poisoned (R254, R387). -/
def BasePoisoned (t : Thread) (d : Reg) (l : List Nat) : Prop := hasIndex l = true ∧ ∃ n ∈ [d.toNat, d.toNat + 1], n ∈ t.rpoison

theorem baseUndef_iff (t : Thread) (d : Reg) (l : List Nat) : BaseUndef t d l ↔
    (hasIndex l && [d.toNat, d.toNat + 1].any fun n => decide (120 ≤ n) && !(tget t.tvalid n).getD false) = true := by
  have hv (x : Option Bool) : x ≠ some true ↔ x.getD false = false := by rcases x with _ | _ | _ <;> simp
  simp only [BaseUndef, hv, Bool.and_eq_true, List.any_eq_true, decide_eq_true_eq, Bool.not_eq_true']

theorem basePoisoned_iff (t : Thread) (d : Reg) (l : List Nat) : BasePoisoned t d l ↔
    (hasIndex l && [d.toNat, d.toNat + 1].any t.rpoison.contains) = true := by
  simp only [BasePoisoned, Bool.and_eq_true, List.any_eq_true, List.contains_iff_mem]

/-- A lane after a CHLD whose descriptor names the steps `l` and the fault `e`: a fault, or one chain outstanding (R252 to R254). -/
structure ChldEnds (w : WordSpec) (m : ChldFin) (d a : Reg) (x1 : Nat) (c : Ctx) (u : State) (k : Nat) (t : Thread) (v : State) (l : List Nat)
    (e : Option Nat) : Prop where
  undef : BaseUndef t d l → v = deliver u k 0x03 0 c.fpc
  fault : ¬ BaseUndef t d l → ∀ code, e = some code → v = deliver u k code 0 c.fpc
  poison : ¬ BaseUndef t d l → e = none → BasePoisoned t d l → v = deliver u k 0x17 0 c.fpc
  issued : ¬ BaseUndef t d l → e = none → ¬ BasePoisoned t d l →
    LaneEnds k { u with nextId := u.nextId + 1 } (finish w c (addOp t (chldOp m d a x1 c u.nextId t l))) v

theorem ChldEnds.laneEnd_chldLane {w : WordSpec} {m : ChldFin} {d a b : Reg} {x1 : Nat} {c : Ctx} {u : State} {k : Nat} {t : Thread} {l : List Nat}
    {e : Option Nat} (h : chainDesc (getTeam u t.team) (rd t b).toNat = (l, e)) :
    ChldEnds w m d a x1 c u k t (laneEnd w c u k (chldLane m d a b x1 c u k t)) l e := by
  unfold chldLane
  rw [h]
  refine ⟨fun hu => ?_, fun hu code he => ?_, fun hu he hp => ?_, fun hu he hp => ?_⟩ <;> rw [baseUndef_iff] at hu <;> dsimp only
  · rw [if_pos hu]
    rfl
  · rw [if_neg hu, he]
    rfl
  · rw [if_neg hu, he, if_pos ((basePoisoned_iff t d l).1 hp)]
    rfl
  · rw [if_neg hu, he, if_neg fun hb => hp ((basePoisoned_iff t d l).2 hb)]
    exact .laneEnd_ok w c u _ k _

theorem chld_lanes (m : ChldFin) (d a b : Reg) (s : State) :
    LaneByLane s (chldSpec m d a b (issuedX1 s)) (.chld m d a b) always (fun _ => s) fun c u k t v =>
      ∀ l e, chainDesc (getTeam u t.team) (rd t b).toNat = (l, e) → ChldEnds (chldSpec m d a b (issuedX1 s)) m d a (issuedX1 s) c u k t v l e :=
  issueWord_lanes_of_body (exec_chld m d a b s) fun _ _ _ _ _ _ h => .laneEnd_chldLane h

/-- In a bundle of one lane whose descriptor and base stand, CHLD completes. -/
theorem chld_completes {m : ChldFin} {d a b : Reg} {s : State} {c : Ctx} {k : Nat} {t : Thread} (hi : Issues (chldSpec m d a b (issuedX1 s)) c [k] s)
    (ht : getThread s k = some t) (ok : ∃ l, chainDesc (getTeam s (schedQuiet s c t).team) (rd (schedQuiet s c t) b).toNat = (l, none) ∧
      ¬ BaseUndef (schedQuiet s c t) d l ∧ ¬ BasePoisoned (schedQuiet s c t) d l) :
    ∃ v, exec (.chld m d a b) s = .next v ∧ v.cur = none ∧ ∃ l, chainDesc (getTeam s (schedQuiet s c t).team) (rd (schedQuiet s c t) b).toNat = (l, none) ∧
      LaneEnds k { s with nextId := s.nextId + 1 } (finish (chldSpec m d a b (issuedX1 s)) c
        (addOp (schedQuiet s c t) (chldOp m d a (issuedX1 s) c s.nextId (schedQuiet s c t) l))) v := by
  obtain ⟨v, hv, hend⟩ := (chld_lanes m d a b s).alone hi ht
  obtain ⟨l, hl, hu, hp⟩ := ok
  exact ⟨done v, hv, rfl, l, hl, ((hend l none hl).issued hu rfl hp).done⟩

end Sys2Proof.Machine

section
open Sys2Proof Sys2Proof.Machine

/-- Settles O36: each form in a lane by `chld_lanes`, in a bundle of one lane by `chld_completes`. -/
theorem chainIssue : Obligations.ChainIssue := by
  refine ⟨fun d a b s => (chld_lanes .ld64 d a b s).imp fun _ _ _ _ _ h l e hl => ?ld64, fun d a b s c k t hi ht ok => chld_completes (m := .ld64) hi ht ok,
    fun d a b s => (chld_lanes .ld32 d a b s).imp fun _ _ _ _ _ h l e hl => ?ld32, fun d a b s c k t hi ht ok => chld_completes (m := .ld32) hi ht ok,
    fun d a b s => (chld_lanes .addr d a b s).imp fun _ _ _ _ _ h l e hl => ?addr, fun d a b s c k t hi ht ok => chld_completes (m := .addr) hi ht ok,
    fun d a b s x hx => ?add, fun d a b s c k t x hx => ?addAlone⟩
  case add =>
    have hx1 : issuedX1 s = opxX1 x.hints := by rw [issuedX1, hx]; rfl
    have h := chld_lanes .add32 d a b s
    rw [hx1] at h
    refine h.imp fun _ _ _ _ _ h l e hl => ?_
    obtain ⟨hundef, hfault, hpoison, hissued⟩ := h l e hl
    exact ⟨hundef, hfault, hpoison, hissued⟩
  case addAlone =>
    have hx1 : issuedX1 s = opxX1 x.hints := by rw [issuedX1, hx]; rfl
    intro hi ht u t' ok
    rw [← hx1] at hi ⊢
    exact chld_completes hi ht ok
  all_goals
    obtain ⟨hundef, hfault, hpoison, hissued⟩ := h l e hl
    exact ⟨hundef, hfault, hpoison, hissued⟩

end

namespace Sys2Proof.Machine

/-! Tile reads under a snapshot (R233, R346): a block whose fill returned the current value of a line that R233 excludes has the stamp of that
Load, and a lane that reads the block joins it. -/

theorem finish_pts (w : WordSpec) (c : Ctx) (t : Thread) : (finish w c t).pts = t.pts := by
  unfold finish
  dsimp only
  split <;> rfl

/-- A READY tile of one element of four bytes, whose block has the stamp 7. -/
def stampedTile : Tile := { desc := [0, 0x4000000, 0, 0, 0, 0, 0, 0], doff := 0, st := .ready, blocks := [(0, (7, 100))] }

/-- A thread at a TLD from that tile, in a grid that reads at the snapshot 3. -/
def excludedBlock : State where
  ex := { cores := [(0, { ports := [(0, [0])] })]
          grids := [(0, { record := [0, 0, 0, 0, 0x10800], launcher := .slot 0 0, snap := some 3 })]
          teams := [(0, { grid := 0, lin := 0, cluster := 0, threads := 1, size := 1024, tileCount := 1, tiles := [(0, stampedTile)] })]
          threads := [(0, { team := 0, pc := 0, snap := .grid 3 })] }
  cur := some { core := 0, port := 0, fpc := 0 }

theorem excludedBlock_issues : Issues { opSpec [sp1 1] [sp1 0] with order := true, adds := [(.ld, 1)] } { core := 0, port := 0, hints := [], fpc := 0 } [0]
    excludedBlock :=
  ⟨by decide, by decide, by decide⟩

theorem excludedBlock_pts {v : State} (h : exec (.tld .b32 0 1 0) excludedBlock = .next v) : (getThread v 0).map (·.pts) = some 7 := by
  have hs : (match exec (.tld .b32 0 1 0) excludedBlock with
    | .next v => (getThread v 0).map (·.pts)
    | _ => none) = some 7 := by decide
  rwa [h] at hs

end Sys2Proof.Machine

section
open Sys2Proof Sys2Proof.Machine

/-- Refutes O46, in what it says of a snapshot: in `excludedBlock` a lane reads under a snapshot a block that has a stamp, and its pts joins it. -/
theorem not_tileReads : ¬ Obligations.TileReads := by
  intro ⟨_, _, hread, _⟩
  obtain ⟨v, hv, _, y, n, hend, _, _, _, _, _, hsnap, _⟩ := hread .b32 0 1 0 excludedBlock _ 0 _ excludedBlock_issues rfl stampedTile rfl (by decide) rfl
    (by decide) (by decide) fun _ _ => ⟨rfl, List.not_mem_nil⟩
  have hpts := excludedBlock_pts hv
  rw [hend.mine] at hpts
  have h7 : y.pts = 7 := (finish_pts _ _ y).symm.trans (Option.some.inj hpts)
  exact absurd (h7.symm.trans (hsnap (by decide))) (by decide)

end

namespace Sys2Proof.Machine

/-! TCTL.DRAIN of an EMPTY tile (R353). The condition that no thread of the team waits speaks of the threads that the table lists; where a key stands
twice in it, the retirement of the second one's operations is looked at in the first one. -/

/-- A thread at a TCTL.DRAIN of an EMPTY tile; and under one key a thread of team 1 that waits at STOP and holds a snapshot, and a thread of the tile's
team with an operation on the tile. -/
def drainedTwice : State where
  mm := { horizon := [{ s := 5, holders := 1 }] }
  ex := { cores := [(0, { ports := [(0, [0])] })]
          teams := [(0, { grid := 0, lin := 0, cluster := 0, threads := 2, tileCount := 1, tiles := [(0, { desc := [], doff := 0 })] })]
          threads := [(0, { team := 0, pc := 0 }), (1, { team := 1, pc := 0, st := .waiting, waitOn := .stop, snap := .own 5 }),
            (1, { team := 0, pc := 0, glane := 1, hlane := 1, ops := [{ id := 1, wid := 1, cnt := .tl, kind := .tile 0 false }] })] }
  cur := some { core := 0, port := 0, fpc := 0 }
  nextId := 2

theorem drainedTwice_issues : Issues { adds := [(.tl, 1)] } { core := 0, port := 0, hints := [], fpc := 0 } [0] drainedTwice :=
  ⟨by decide, by decide, by decide⟩

/-- The thread of team 1 exits, and its snapshot with it. -/
theorem drainedTwice_horizon {v : State} (h : exec (.tctlDrain 0) drainedTwice = .next v) : v.mm.horizon = [] := by
  have hs : (match exec (.tctlDrain 0) drainedTwice with
    | .next v => v.mm.horizon
    | _ => []) = [] := by decide
  rwa [h] at hs

end Sys2Proof.Machine

section
open Sys2Proof Sys2Proof.Machine

/-- Refutes O48, in what it says of TCTL.DRAIN: in `drainedTwice` no thread of team 0 waits, but the retirement of an operation on its tile is looked at
under a key that a waiting thread of team 1 has first; that thread exits, and the horizon, which is part of memory, changes. -/
theorem not_tileControlWords : ¬ Obligations.TileControlWords := by
  intro ⟨_, _, _, _, _, _, hdrain, _⟩
  obtain ⟨v, hv, _, _, _, hmm, _⟩ := hdrain 0 drainedTwice _ 0 _ drainedTwice_issues rfl ⟨_, rfl, by decide⟩
  have hz := drainedTwice_horizon hv
  rw [hmm] at hz
  exact absurd hz (by decide)

end

namespace Sys2Proof.Machine

/-! What an agent reaches depends on memory, the tables and the host path alone. -/

/-- Two states in which the agents of the base die translate alike and reach the same bytes. -/
structure SameReach (s u : State) : Prop where
  mm : u.mm = s.mm
  tr : u.tr = s.tr
  fa : u.fa.pkg = s.fa.pkg
  windows : u.en.windows = s.en.windows
  cores : u.ex.cores = s.ex.cores
  host : hostPathOpen u = hostPathOpen s

theorem SameReach.walk {s u : State} (h : SameReach s u) (asid va : Nat) : walk u asid va = walk s asid va :=
  walk_congr (by rw [h.mm]) (by rw [h.mm]) (by rw [h.tr]) h.fa (by rw [h.mm]) (by rw [h.mm]) asid va

theorem SameReach.walkNow {s u : State} (h : SameReach s u) (x : Via) (a : Acc) (asid va : Nat) : walkNow u x a asid va = walkNow s x a asid va := by
  have hw (va : Nat) : windowAt u asid va = windowAt s asid va := by unfold windowAt; rw [h.windows]
  have hj (l : Leaf) : judge u l a asid va = judge s l a asid va := by unfold judge; rw [hw]
  have hm : mergeOf u x.die asid va = mergeOf s x.die asid va := by unfold mergeOf; rw [h.tr]
  have hf : freeEntry u x.die = freeEntry s x.die := by unfold freeEntry; rw [h.tr]
  have hc : walksOf u x.die = walksOf s x.die := by unfold walksOf; rw [h.tr]
  have hv : viaHeld u x asid va = viaHeld s x asid va := by
    have hg (c : Nat) : (getCore u c).tlb = (getCore s c).tlb := by unfold getCore; rw [h.cores]
    unfold viaHeld; simp only [hg]
  unfold Machine.walkNow
  simp only [hj, hm, hf, hc, hv, h.walk]

theorem SameReach.reaches {s u : State} (h : SameReach s u) {x : Via} {a : Acc} {asid va pa : Nat} (hr : Reaches s x a asid va pa) :
    Reaches u x a asid va pa := by
  unfold Reaches at hr ⊢
  rw [h.walkNow, h.host]
  exact hr

theorem SameReach.getLine {s u : State} (h : SameReach s u) (ln : Nat) : getLine u ln = getLine s ln :=
  getLine_congr (by rw [h.mm]) (by rw [h.mm]) ln

theorem SameReach.standing {s u : State} (h : SameReach s u) (pa n : Nat) : standing u pa n = standing s pa n := by
  unfold Machine.standing; rw [foldLine_mem_congr h.mm]

/-- The queues and what the queue unit keeps do not count. -/
theorem SameReach.of_qu (s : State) (q : QueueUnit) : SameReach s { s with qu := q } := ⟨rfl, rfl, rfl, rfl, rfl, rfl⟩

/-! What an access of an agent leaves of the queue unit and of the grids' records. -/

/-- Neither the queue unit nor a grid's record differs. -/
structure QueueFrame (s u : State) : Prop where
  qu : u.qu = s.qu
  records : ∀ n, (tget u.ex.grids n).map (·.record) = (tget s.ex.grids n).map (·.record)

theorem QueueFrame.refl (s : State) : QueueFrame s s := ⟨rfl, fun _ => rfl⟩
theorem QueueFrame.trans {s u v : State} (h : QueueFrame s u) (k : QueueFrame u v) : QueueFrame s v :=
  ⟨k.qu.trans h.qu, fun n => (k.records n).trans (h.records n)⟩

theorem QueueFrame.of_eq {s u : State} (h1 : u.qu = s.qu) (h2 : u.ex.grids = s.ex.grids) : QueueFrame s u := ⟨h1, fun n => by rw [h2]⟩

theorem HomeFrame.queueFrame {s u : State} (h : HomeFrame s u) : QueueFrame s u where
  qu := h.qu
  records n := by
    have hr (o : Option Grid) : o.map (·.record) = (o.map fun g => { g with snapRevoked := false }).map (·.record) := by
      rw [Option.map_map]; rfl
    rw [hr, h.grids n, ← hr]

theorem QueueFrame.foldl {α : Type} {f : State → α → State} (hf : ∀ s x, QueueFrame s (f s x)) (l : List α) (s : State) : QueueFrame s (l.foldl f s) := by
  induction l generalizing s with
  | nil => exact QueueFrame.refl s
  | cons x l ih => exact (hf s x).trans (ih _)

theorem QueueFrame.noteWalk (s : State) (x : Via) (asid va : Nat) : QueueFrame s (noteWalk s x asid va) := by
  unfold Machine.noteWalk; split <;> exact QueueFrame.of_eq rfl rfl

theorem QueueFrame.noteBad (s : State) (asid va : Nat) : QueueFrame s (noteBad s asid va) := by
  unfold Machine.noteBad; split <;> exact QueueFrame.of_eq rfl rfl

theorem QueueFrame.startWalk (s : State) (die : Nat) : QueueFrame s (startWalk s die) := by
  unfold Machine.startWalk; repeat' split
  all_goals exact QueueFrame.of_eq rfl rfl

theorem QueueFrame.zeroFill (s : State) (asid va : Nat) (l : Leaf) : QueueFrame s (zeroFill s asid va l) := by
  unfold Machine.zeroFill rewalk
  refine QueueFrame.trans (u := dropPage _ asid va l.size) ?_ (QueueFrame.foldl (fun s e => ?_) _ _)
  · exact QueueFrame.of_eq rfl rfl
  · unfold queueWalk
    refine QueueFrame.trans ?_ (QueueFrame.startWalk _ _)
    exact QueueFrame.of_eq rfl rfl

theorem HomeFrame.zeroLoad (s : State) (p pa : Nat) : HomeFrame s (zeroLoad s p pa).2 := (HomeFrame.setLine s _ _).trans (HomeFrame.noteStamp _ _ _)
theorem HomeFrame.zeroSnap (s : State) (p S pa : Nat) : HomeFrame s (zeroSnap s p S pa).2 := HomeFrame.setLine s _ _

theorem HomeFrame.snapReadAt (s : State) (S pa n : Nat) : HomeFrame s (snapReadAt s S pa n).2 := by
  refine HomeFrame.trans ?_ (HomeFrame.setLine _ _ _)
  repeat' split
  · exact (HomeFrame.touchLine s _).trans (HomeFrame.foldLine _ _)
  · exact HomeFrame.perf s _ _ _ _
  · exact (HomeFrame.touchLine s _).trans (HomeFrame.foldLine _ _)
  · exact HomeFrame.refl s

theorem HomeFrame.readAt (s : State) (zf : Bool) (S : Option Nat) (p pa n : Nat) : HomeFrame s (readAt s zf S p pa n).2 := by
  cases zf <;> cases S
  · exact HomeFrame.loadAt s p pa n
  · exact HomeFrame.snapReadAt s _ pa n
  · exact HomeFrame.zeroLoad s p pa
  · exact HomeFrame.zeroSnap s p _ pa

theorem HomeFrame.viewRead (s : State) (x : Tx) (zf : Bool) (S : Option Nat) (p pa n : Nat) : HomeFrame s (viewRead s x zf S p pa n).2 := by
  unfold Machine.viewRead
  dsimp only
  split
  · exact HomeFrame.refl s
  · exact HomeFrame.readAt s _ _ _ _ _

theorem QueueFrame.plainRead (s : State) (r : Reader) (va n : Nat) : QueueFrame s (plainRead s r va n).2.2 := by
  unfold Machine.plainRead
  dsimp only
  have hw := QueueFrame.noteWalk s r.via r.asid va
  repeat' split
  · exact QueueFrame.refl s
  · exact QueueFrame.refl s
  · exact QueueFrame.refl s
  · exact QueueFrame.noteBad s _ _
  · exact QueueFrame.noteBad s _ _
  · exact hw
  · exact hw
  · exact hw
  · exact hw.trans (HomeFrame.readAt _ _ _ _ _ _).queueFrame
  · exact hw.trans (HomeFrame.readAt _ _ _ _ _ _).queueFrame
  · exact hw.trans (HomeFrame.viewRead _ _ _ _ _ _ _).queueFrame
  · exact hw.trans (HomeFrame.viewRead _ _ _ _ _ _ _).queueFrame

/-- Every read that a function makes leaves the queue unit. -/
def ReadsQuietly (f : ReadFn) : Prop := ∀ s r va n, QueueFrame s (f s r va n).2.2

theorem QueueFrame.readElem {f : ReadFn} (hf : ReadsQuietly f) (s : State) (r : Reader) (w : Window) (i : Nat) : QueueFrame s (readElem f s r w i).2.2 := by
  have h1 := hf s r (w.idx + 4 * i) 4
  unfold Machine.readElem
  split
  · rename_i e
    rw [e] at h1
    repeat' split
    · exact h1
    · exact h1
    · exact h1.trans (hf _ _ _ _)
  · exact h1

theorem QueueFrame.readElems {f : ReadFn} (hf : ReadsQuietly f) (w : Window) (k i : Nat) (s : State) (r : Reader) : QueueFrame s (readElems f w k i s r).2.2 := by
  induction k generalizing i s r with
  | zero => exact QueueFrame.refl s
  | succ k ih => exact (QueueFrame.readElem hf s r w i).trans (ih _ _ _)

theorem readsQuietly_readThrough (n : Nat) : ReadsQuietly (readThrough n) := by
  induction n with
  | zero => exact QueueFrame.plainRead
  | succ k ih =>
    intro s r va n
    unfold readThrough
    split
    · exact QueueFrame.readElems ih _ _ _ _ _
    · exact QueueFrame.plainRead s r va n

theorem QueueFrame.agentRead (s : State) (r : Reader) (va n : Nat) : QueueFrame s (agentRead s r va n).2.2 := by
  unfold Machine.agentRead
  split
  · exact QueueFrame.readElems (readsQuietly_readThrough _) _ _ _ _ _
  · exact QueueFrame.plainRead s r va n

theorem QueueFrame.readArray (m n va : Nat) (s : State) (r : Reader) : QueueFrame s (readArray m n va s r).2.2 := by
  induction n generalizing va s r with
  | zero => exact QueueFrame.refl s
  | succ n ih =>
    have hr := QueueFrame.agentRead s r va m
    unfold Machine.readArray
    split
    · rename_i e
      rw [e] at hr
      exact hr
    · rename_i r' s' e
      rw [e] at hr
      split
      · exact hr
      · have ht := hr.trans (ih (va + m) s' r')
        split <;> simp_all

theorem QueueFrame.readBooks (g : Grid) (ks : List Nat) (s : State) (r : Reader) : QueueFrame s (readBooks g ks s r).2.2 := by
  induction ks generalizing s r with
  | nil => exact QueueFrame.refl s
  | cons k ks ih =>
    have hr := QueueFrame.readArray 128 4 (slotCb (g.slot k)) s r
    unfold Machine.readBooks
    split
    · rename_i e
      rw [e] at hr
      exact hr
    · rename_i r' s' e
      rw [e] at hr
      split
      · exact hr
      · have ht := hr.trans (ih s' r')
        split <;> simp_all

/-- What an agent's write leaves, where it leaves a state. -/
def Wr.state : Wr → Option State
  | .ok _ s | .denied s | .poison s => some s
  | _ => none

/-- However a write of an agent ends, the queue unit is as it was. -/
theorem QueueFrame.agentWrite {s u : State} {x : Via} {p asid va : Nat} {bs : List Byte} {c : Bool}
    (h : (agentWrite s x p asid va bs c).state = some u) : QueueFrame s u := by
  have hw (v : State) (l : Leaf) : QueueFrame v (writeAt v p (l.frame + va % pageBytes l.size) bs c).2 := (HomeFrame.writeAt _ _ _ _ _).queueFrame
  have hb := QueueFrame.noteBad s asid va
  unfold Machine.agentWrite agentPa at h
  split at h
  · cases h; exact QueueFrame.refl s
  split at h
  · cases h
  cases hn : walkNow s x .engineWrite asid va <;> simp only [hn] at h
  case absent => cases h
  case bad => cases h; exact hb
  case poison => cases h; exact hb
  case leaf l =>
    cases hz : l.zf <;> cases hr : l.remote <;> simp [hz, hr, needsW, Wr.state] at h
    · obtain rfl := h
      exact (QueueFrame.noteWalk s _ _ _).trans (hw _ l)
    · obtain rfl := h
      exact (QueueFrame.noteWalk s _ _ _).trans ((QueueFrame.zeroFill _ _ _ _).trans (hw _ { l with zf := false }))

/-- A write of an agent that reaches its bytes is stored, with a stamp above the agent's and above every read of the line (R219). -/
theorem agentWrite_stored {s : State} {x : Via} {asid va pa : Nat} (h : Reaches s x .engineWrite asid va pa) (p : Nat) (bs : List Byte) (c : Bool) :
    ∃ ts v, agentWrite s x p asid va bs c = .ok ts v ∧ Stored s v pa bs ∧ (getLine v (pa / 128)).wts = ts ∧ ts = max p ((getLine s (pa / 128)).rts + 1) ∧
      v.qu = s.qu := by
  obtain ⟨hs, hwts, hts⟩ := writeAt_stored (noteWalk s x asid va) p pa bs c
  have hw := agentWrite_reaches (bs := bs) h p c
  rw [getLine_noteWalk] at hts
  exact ⟨_, _, hw, hs.of_mm (noteWalk_mm s x asid va).symm, hwts, hts, (QueueFrame.agentWrite (congrArg Wr.state hw)).qu⟩

end Sys2Proof.Machine

namespace Sys2Proof.Machine

/-! The slots of the queue unit (R275). -/

theorem tget_tmod_some {α : Type} {t : Tab α} {n : Nat} {v : α} (f : α → α) (h : tget t n = some v) : tget (tmod t n f) n = some (f v) := by
  rw [tget_tmod, if_pos rfl, h]; rfl

theorem tget_slots_raiseSlot (s : State) (slot p m : Nat) :
    tget (raiseSlot s slot p).qu.slots m = if m = slot then (tget s.qu.slots slot).map (fun x => { x with pts := max x.pts p }) else tget s.qu.slots m :=
  tget_tmod _ _ _ _

theorem slotPts_raiseSlot (s : State) (slot p : Nat) : tget (raiseSlot s slot p).qu.slotPts slot = some (max ((tget s.qu.slotPts slot).getD 0) p) :=
  tget_tset_self _ _ _

/-- A queue unbound keeps all but the time since which it waits (R275). -/
theorem queues_unbind (s : State) (n : Nat) {q : Queue} (h : tget s.qu.queues n = some q) :
    ∃ t, tget (unbind s n).qu.queues n = some { q with waitingSince := t } := by
  unfold unbind
  split
  · exact ⟨_, h⟩
  · refine ⟨s.bd.clock, (tget_tmod _ _ _ _).trans ?_⟩
    rw [if_pos rfl]
    change (tget s.qu.queues n).map _ = _
    rw [h]; rfl

theorem grids_unbind (s : State) (n : Nat) : (unbind s n).ex.grids = s.ex.grids := by unfold unbind; split <;> rfl

/-- A queue that is frozen keeps its indexes; one that was not frozen has its reason (R282). -/
theorem queues_freezeQueue (s : State) {n : Nat} (reason detail : Nat) {q : Queue} (h : tget s.qu.queues n = some q) :
    ∃ y, tget (freezeQueue s n reason detail).qu.queues n = some y ∧ y.ridx = q.ridx ∧ y.widx = q.widx ∧
      (q.frozen = false → y.frozen = true ∧ y.freason = reason) := by
  unfold freezeQueue
  simp only [h]
  split
  · rename_i hf
    exact ⟨q, h, rfl, rfl, fun e => by rw [hf] at e; cases e⟩
  · have hq : tget (freezeEvent (modQueue s n fun q => { q with frozen := true, freason := reason, detail := detail }) 8 0 0 n 0 reason detail).qu.queues n =
        some { q with frozen := true, freason := reason, detail := detail } := by
      refine (tget_tmod _ _ _ _).trans ?_
      rw [if_pos rfl, h]; rfl
    obtain ⟨t, ht⟩ := queues_unbind _ n hq
    exact ⟨_, ht, rfl, rfl, fun _ => ⟨rfl, rfl⟩⟩

theorem grids_freezeQueue (s : State) (n reason detail : Nat) : (freezeQueue s n reason detail).ex.grids = s.ex.grids := by
  unfold freezeQueue
  repeat' split
  · rfl
  · rfl
  · exact grids_unbind _ _

/-- The list order in which a free slot takes the waiting queues (R275). -/
def waitKey (s : State) (e : Nat × Queue) : List Nat := [7 - effPrio s e.2, e.2.waitingSince, e.1]

theorem lexLt_waitKey {s : State} {e f : Nat × Queue} : lexLt (waitKey s e) (waitKey s f) = true ↔
    effPrio s f.2 < effPrio s e.2 ∨ (effPrio s e.2 = effPrio s f.2 ∧
      (e.2.waitingSince < f.2.waitingSince ∨ (e.2.waitingSince = f.2.waitingSince ∧ e.1 < f.1))) := by
  have h1 : effPrio s e.2 ≤ 7 := min_le_left _ _
  have h2 : effPrio s f.2 ≤ 7 := min_le_left _ _
  simp only [waitKey, lexLt, Bool.or_eq_true, Bool.and_eq_true, decide_eq_true_eq, beq_iff_eq, Bool.false_eq_true, and_false, or_false]
  omega

/-- The queue that waits before all others is the next one bound (R275). -/
theorem nextQueue_eq {s : State} {n : Nat} {q : Queue} (hm : (n, q) ∈ s.qu.queues) (hw : isWaiting s n q = true)
    (h : ∀ e ∈ s.qu.queues, isWaiting s e.1 e.2 = true → e ≠ (n, q) → effPrio s e.2 < effPrio s q ∨ (effPrio s e.2 = effPrio s q ∧
      (q.waitingSince < e.2.waitingSince ∨ (q.waitingSince = e.2.waitingSince ∧ n < e.1)))) : nextQueue s = some (n, q) := by
  refine firstBy_eq_some (List.mem_filter.2 ⟨hm, hw⟩) fun e he hne => ?_
  obtain ⟨hem, hew⟩ := List.mem_filter.1 he
  have hb := h e hem hew hne
  have h1 : lexLt (waitKey s (n, q)) (waitKey s e) = true := lexLt_waitKey.2 (by dsimp only; omega)
  have h2 : ¬ lexLt (waitKey s e) (waitKey s (n, q)) = true := fun hl => by
    have := lexLt_waitKey.1 hl
    dsimp only at this; omega
  exact ⟨h1, Bool.not_eq_true _ ▸ h2⟩

/-- SLOT_BIND of a free slot (R275). -/
theorem exec_slotBind {slot : Nat} {s : State} {n : Nat} {q : Queue} (hs : slot < Config.slots) (hf : tget s.qu.slots slot = none)
    (h : nextQueue s = some (n, q)) : exec (.slotBind slot) s = .next { s with qu := { s.qu with
      slots := tset s.qu.slots slot { queue := n, pts := (tget s.qu.slotPts slot).getD 0, boundAt := s.bd.clock } } } := by
  have hn : ¬ (Config.slots ≤ slot ∨ (tget s.qu.slots slot).isSome = true) := by rw [hf]; simp; omega
  change execSlotBind slot s = _
  simp only [execSlotBind, if_neg hn, h]

/-- SLOT_UNBIND of a slot whose queue is to be unbound (R275). -/
theorem exec_slotUnbind {slot : Nat} {s : State} {x : Slot} {q : Queue} (hx : tget s.qu.slots slot = some x) (hq : tget s.qu.queues x.queue = some q)
    (h : unbinds s x q = true) : exec (.slotUnbind slot) s = .next (unbind s x.queue) := by
  change execSlotUnbind slot s = _
  simp only [execSlotUnbind, hx, hq, h, if_true]

/-- A slot whose queue is unbound is free, with the largest stamp that it has observed (R216, R275). -/
theorem unbind_slot {s : State} {slot : Nat} {x : Slot} {q : Queue} (hx : tget s.qu.slots slot = some x) (hq : tget s.qu.queues x.queue = some q)
    (h : slotOf s x.queue = some slot) : tget (unbind s x.queue).qu.slots slot = none ∧
      tget (unbind s x.queue).qu.slotPts slot = some (max ((tget s.qu.slotPts slot).getD 0) x.pts) ∧
      tget (unbind s x.queue).qu.queues x.queue = some { q with waitingSince := s.bd.clock } ∧ (unbind s x.queue).mm = s.mm := by
  unfold unbind
  simp only [h, hx]
  refine ⟨tget_tdel_self _ _, slotPts_raiseSlot s slot x.pts, (tget_tmod _ _ _ _).trans ?_, rfl⟩
  rw [if_pos rfl]
  change (tget s.qu.queues x.queue).map _ = _
  rw [hq]; rfl

/-! A slot's reads and writes (R273, R274). -/

theorem SameReach.raiseSlot (s : State) (slot p : Nat) : SameReach s (raiseSlot s slot p) := SameReach.of_qu s _

/-- A slot that has read nothing yet reads the bytes that it reaches (R274). -/
theorem slotRead_reaches {s : State} {slot va n pa : Nat} {x : Slot} {q : Queue} (hx : tget s.qu.slots slot = some x)
    (hq : tget s.qu.queues x.queue = some q) (hb : x.buf = []) (hr : Reaches s baseVia .engineRead q.asid va pa)
    (hp : (getLine s (pa / 128)).poison = false) (act : State → Nat → State) :
    ∃ u, u.qu = s.qu ∧ u.bd.clock = s.bd.clock ∧
      slotRead s slot va n act = act (raiseSlot u slot (max x.pts (getLine s (pa / 128)).wts)) (standing s pa n) := by
  have hn : ∀ m, tget x.buf m = none := by rw [hb]; exact fun m => rfl
  have h := agentRead_reaches (r := slotReader x q) (n := n) hr (hn _) rfl rfl
  have hw := HomeFrame.loadAt (noteWalk s baseVia q.asid va) x.pts pa n
  have hc : (noteWalk s baseVia q.asid va).bd.clock = s.bd.clock := by unfold noteWalk; split <;> rfl
  refine ⟨_, hw.qu.trans (QueueFrame.noteWalk s _ _ _).qu, hw.clock.trans hc, ?_⟩
  simp only [slotRead, hx, hq, hn, h, hp]
  simp [slotReader, Reader.took]

/-- An entry that has been read: taken, or its queue freezes (R273, R274). -/
def takeEntry (slot n : Nat) (s : State) (e : Nat) : State :=
  if !entryOk e then freezeQueue s n 4 0
  else if !entryAddrs e then freezeQueue s n 5 0
  else modSlot s slot fun x => { x with entry := some e, waitMet := !bit e 8, blockedAt := none, buf := [] }

theorem exec_entryTake {slot : Nat} {s : State} {x : Slot} {q : Queue} (hx : tget s.qu.slots slot = some x) (hq : tget s.qu.queues x.queue = some q)
    (he : x.entry = none) (hf : q.frozen = false) (hi : q.ridx < q.widx) :
    exec (.entryTake slot) s = .next (slotRead (raiseSlot s slot q.bell) slot (q.at_ q.ridx) 64 (takeEntry slot x.queue)) := by
  have hn : ¬ (x.entry.isSome = true ∨ q.frozen = true ∨ q.widx ≤ q.ridx) := by simp [he, hf]; omega
  change execEntryTake slot s = _
  simp only [execEntryTake, hx, hq, if_neg hn]
  rfl

theorem entryTake_head {slot : Nat} {s : State} {x : Slot} {q : Queue} {pa : Nat} (hx : tget s.qu.slots slot = some x) (hq : tget s.qu.queues x.queue = some q)
    (he : x.entry = none) (hf : q.frozen = false) (hi : q.ridx < q.widx) (hb : x.buf = []) (hr : Reaches s baseVia .engineRead q.asid (q.at_ q.ridx) pa)
    (hp : (getLine s (pa / 128)).poison = false) :
    ∃ v, v.qu.queues = s.qu.queues ∧ tget v.qu.slots slot = some { x with pts := max (max x.pts q.bell) (getLine s (pa / 128)).wts } ∧
      exec (.entryTake slot) s = .next (takeEntry slot x.queue v (standing s pa 64)) := by
  have hs := SameReach.raiseSlot s slot q.bell
  have hx' : tget (raiseSlot s slot q.bell).qu.slots slot = some { x with pts := max x.pts q.bell } := by
    rw [tget_slots_raiseSlot, if_pos rfl, hx]; rfl
  obtain ⟨u, hu, -, h⟩ := slotRead_reaches (n := 64) (q := q) hx' hq hb (hs.reaches hr) (by rw [hs.getLine]; exact hp) (takeEntry slot x.queue)
  refine ⟨raiseSlot u slot (max (max x.pts q.bell) (getLine s (pa / 128)).wts), (congrArg QueueUnit.queues hu :), ?_, ?_⟩
  · rw [tget_slots_raiseSlot, if_pos rfl, hu, hx']; simp
  · rw [exec_entryTake hx hq he hf hi, h, hs.standing, hs.getLine]

theorem takeEntry_bad {slot n e : Nat} {v : State} {q : Queue} (hq : tget v.qu.queues n = some q) (hf : q.frozen = false) (he : entryOk e = false ∨ entryAddrs e = false) :
    ∃ y, tget (takeEntry slot n v e).qu.queues n = some y ∧ y.ridx = q.ridx ∧ y.widx = q.widx ∧ y.frozen = true ∧
      y.freason = if entryOk e then 5 else 4 := by
  unfold takeEntry
  cases ho : entryOk e
  · obtain ⟨y, hy, h1, h2, h3⟩ := queues_freezeQueue v 4 0 hq
    exact ⟨y, hy, h1, h2, h3 hf⟩
  · obtain ⟨y, hy, h1, h2, h3⟩ := queues_freezeQueue v 5 0 hq
    rw [he.resolve_left (by simp [ho])]
    exact ⟨y, hy, h1, h2, h3 hf⟩

theorem takeEntry_good {slot n e : Nat} {v : State} (ho : entryOk e = true) (ha : entryAddrs e = true) :
    takeEntry slot n v e = modSlot v slot fun x => { x with entry := some e, waitMet := !bit e 8, blockedAt := none, buf := [] } := by
  simp [takeEntry, ho, ha]

/-- The wait word of an entry that has been read: met, or the head is blocked (R274, R275). -/
def pollWait (slot e : Nat) (s : State) (x : Nat) : State :=
  if waitWordMet (bit e 11) x (bits e 383 320) then modSlot s slot fun x => { x with waitMet := true, blockedAt := none, buf := [] }
  else blockHead s slot []

theorem exec_entryWaitPoll {slot : Nat} {s : State} {x : Slot} {e : Nat} (hx : tget s.qu.slots slot = some x) (he : x.entry = some e) (hw : x.waitMet = false) :
    exec (.entryWaitPoll slot) s = .next (slotRead s slot (bits e 319 256) 8 (pollWait slot e)) := by
  change execEntryWaitPoll slot s = _
  simp only [execEntryWaitPoll, hx, he, hw, Option.bind_some, Option.map_some]
  rfl

/-- A slot after its wait word was read (R274, R275). -/
theorem pollWait_slot {slot e : Nat} {v : State} {x : Slot} (hx : tget v.qu.slots slot = some x) (hw : x.waitMet = false) (m : Nat) :
    ∃ y, tget (pollWait slot e v m).qu.slots slot = some y ∧ y.entry = x.entry ∧ y.pts = x.pts ∧ y.waitMet = waitWordMet (bit e 11) m (bits e 383 320) ∧
      (y.waitMet = false → y.blockedAt = some (x.blockedAt.getD v.bd.clock)) := by
  unfold pollWait
  cases hm : waitWordMet (bit e 11) m (bits e 383 320)
  · refine ⟨_, tget_tmod_some _ hx, rfl, rfl, hw, fun _ => rfl⟩
  · refine ⟨_, tget_tmod_some _ hx, rfl, rfl, rfl, fun h => by cases h⟩

/-! An entry handed on (R272, R274). -/

/-- The state in which the read index of a handed-on entry has moved, before it is written to memory. -/
def movedOn (s : State) (slot e : Nat) (x : Slot) (q : Queue) : State :=
  let s := modQueue s x.queue fun q => { q with ridx := q.ridx + 1, doneStamp := if entryType e = 3 then max q.doneStamp x.pts else q.doneStamp }
  let s := { s with qu := { s.qu with pendings := s.qu.pendings ++ [pendingOf x.queue q e] } }
  settlePending (modSlot s slot fun x => { x with entry := none, waitMet := false, blockedAt := none, buf := [] }) x.queue

theorem handOn_eq {s : State} {slot e : Nat} {x : Slot} {q : Queue} (hx : tget s.qu.slots slot = some x) (hq : tget s.qu.queues x.queue = some q) :
    handOn s slot e = match agentWrite (movedOn s slot e x q) baseVia x.pts q.asid (q.ctl + 64) (natLe 8 (q.ridx + 1)) with
      | .ok ts s => raiseSlot s slot ts
      | .denied s => freezeQueue s x.queue 5 0
      | .poison s => freezeQueue s x.queue 8 0
      | _ => freezeQueue (movedOn s slot e x q) x.queue 5 0 := by
  simp only [handOn, hx, hq]
  rfl

theorem SameReach.movedOn (s : State) (slot e : Nat) (x : Slot) (q : Queue) : SameReach s (movedOn s slot e x q) := SameReach.of_qu s _

theorem queues_movedOn {s : State} {slot e : Nat} {x : Slot} {q : Queue} (hq : tget s.qu.queues x.queue = some q) :
    tget (movedOn s slot e x q).qu.queues x.queue =
      some { q with ridx := q.ridx + 1, doneStamp := if entryType e = 3 then max q.doneStamp x.pts else q.doneStamp } :=
  (tget_tmod _ _ _ _).trans (by rw [if_pos rfl, hq]; rfl)

theorem slots_movedOn {s : State} {slot e : Nat} {x : Slot} {q : Queue} (hx : tget s.qu.slots slot = some x) :
    tget (movedOn s slot e x q).qu.slots slot = some { x with entry := none, waitMet := false, blockedAt := none, buf := [] } :=
  (tget_tmod _ _ _ _).trans (by rw [if_pos rfl]; change (tget s.qu.slots slot).map _ = _; rw [hx]; rfl)

/-- An entry handed on by a slot that reaches its queue's read-index word (R272). -/
theorem handOn_reaches {s : State} {slot e pa : Nat} {x : Slot} {q : Queue} (hx : tget s.qu.slots slot = some x) (hq : tget s.qu.queues x.queue = some q)
    (hr : Reaches s baseVia .engineWrite q.asid (q.ctl + 64) pa) : ∃ y z, tget (handOn s slot e).qu.queues x.queue = some y ∧ y.ridx = q.ridx + 1 ∧
      y.widx = q.widx ∧ y.frozen = q.frozen ∧ Stored s (handOn s slot e) pa (natLe 8 (q.ridx + 1)) ∧
      tget (handOn s slot e).qu.slots slot = some z ∧ z.entry = none ∧ z.queue = x.queue := by
  have hm := SameReach.movedOn s slot e x q
  obtain ⟨ts, v, hw, hs, -, -, hqu⟩ := agentWrite_stored (hm.reaches hr) x.pts (natLe 8 (q.ridx + 1)) false
  have hy : tget (raiseSlot v slot ts).qu.queues x.queue = some _ :=
    (congrArg (fun u : QueueUnit => tget u.queues x.queue) hqu).trans (queues_movedOn hq)
  have hz : tget (raiseSlot v slot ts).qu.slots slot = some _ :=
    tget_tmod_some _ ((congrArg (fun u : QueueUnit => tget u.slots slot) hqu).trans (slots_movedOn hx))
  rw [handOn_eq hx hq, hw]
  exact ⟨_, _, hy, rfl, rfl, rfl, hs.of_mm hm.mm.symm, hz, rfl, rfl⟩

/-- Whatever becomes of the write of the read index, it has moved, and the grids' records stand (R272). -/
theorem handOn_moves {s : State} {slot e : Nat} {x : Slot} {q : Queue} (hx : tget s.qu.slots slot = some x) (hq : tget s.qu.queues x.queue = some q) :
    (∃ y, tget (handOn s slot e).qu.queues x.queue = some y ∧ y.ridx = q.ridx + 1) ∧
      ∀ n, (tget (handOn s slot e).ex.grids n).map (·.record) = (tget s.ex.grids n).map (·.record) := by
  have frozen (v : State) (reason : Nat) (h : QueueFrame (movedOn s slot e x q) v) :
      (∃ y, tget (freezeQueue v x.queue reason 0).qu.queues x.queue = some y ∧ y.ridx = q.ridx + 1) ∧
        ∀ n, (tget (freezeQueue v x.queue reason 0).ex.grids n).map (·.record) = (tget s.ex.grids n).map (·.record) := by
    obtain ⟨y, hy, h1, -, -⟩ := queues_freezeQueue v reason 0 (by rw [h.qu]; exact queues_movedOn hq)
    exact ⟨⟨y, hy, h1⟩, fun n => by rw [grids_freezeQueue]; exact h.records n⟩
  rw [handOn_eq hx hq]
  have hn := QueueFrame.noteBad (movedOn s slot e x q) q.asid (q.ctl + 64)
  cases hw : agentWrite (movedOn s slot e x q) baseVia x.pts q.asid (q.ctl + 64) (natLe 8 (q.ridx + 1)) with
  | ok ts v =>
    have h := QueueFrame.agentWrite (congrArg Wr.state hw)
    exact ⟨⟨_, (congrArg (fun u : QueueUnit => tget u.queues x.queue) h.qu).trans (queues_movedOn hq), rfl⟩, h.records⟩
  | denied v => exact frozen v 5 (QueueFrame.agentWrite (congrArg Wr.state hw))
  | poison v => exact frozen v 8 (QueueFrame.agentWrite (congrArg Wr.state hw))
  | absent => exact frozen _ 5 (QueueFrame.refl _)
  | away _ _ => exact frozen _ 5 (QueueFrame.refl _)
  | later => exact frozen _ 5 (QueueFrame.refl _)

end Sys2Proof.Machine

namespace Sys2Proof.Machine

/-! The launch of an entry (R274, R356). -/

/-- A launch that enters its grid has read, and nothing else (R356). -/
theorem launch_ok {s w : State} {r r' : Reader} {va prio queue slot gi : Nat} {ovr : Option Nat} {l : Launcher}
    (h : launch s r va ovr prio queue l slot = .ok gi r' w) :
    ∃ v ws books, QueueFrame s v ∧ w = enterGrid v gi ws books r'.p prio queue l slot := by
  have hr := QueueFrame.readArray 128 2 va s r
  unfold launch at h
  split at h
  · cases h
  rename_i x bad r1 s1 hx
  rw [hx] at hr
  dsimp only at h
  repeat' split at h
  all_goals try cases h
  unfold launchGrid at h
  have hb := QueueFrame.readBooks (protoGrid (recordWords (override x ovr))) (codebookSlots (protoGrid (recordWords (override x ovr)))) s1 r1
  split at h
  · split at h <;> cases h
  rename_i books bad' r2 s2 hx2
  rw [hx2] at hb
  repeat' split at h
  all_goals try cases h
  exact ⟨_, _, _, hr.trans hb, rfl⟩

theorem HomeFrame.openSnap (s : State) (S : Nat) : HomeFrame s (openSnap s S) :=
  (HomeFrame.ofMm s _).trans ((HomeFrame.post _ _ _ _ _ _).trans (HomeFrame.noteStamp _ _ _))

/-- The queues are as they were, and every bound slot serves its queue. -/
structure SlotsKept (s u : State) : Prop where
  queues : u.qu.queues = s.qu.queues
  slots : ∀ m x, tget s.qu.slots m = some x → ∃ y, tget u.qu.slots m = some y ∧ y.queue = x.queue

theorem SlotsKept.of_qu {s u : State} (h : u.qu = s.qu) : SlotsKept s u := ⟨by rw [h], fun _ x hx => ⟨x, by rw [h]; exact hx, rfl⟩⟩

theorem SlotsKept.trans {s u v : State} (h : SlotsKept s u) (k : SlotsKept u v) : SlotsKept s v where
  queues := k.queues.trans h.queues
  slots m x hx := by
    obtain ⟨y, hy, e⟩ := h.slots m x hx
    obtain ⟨z, hz, e'⟩ := k.slots m y hy
    exact ⟨z, hz, e'.trans e⟩

theorem SlotsKept.raiseSlot (s : State) (slot p : Nat) : SlotsKept s (raiseSlot s slot p) where
  queues := rfl
  slots m x hx := by
    rw [tget_slots_raiseSlot]
    split
    · subst m; rw [hx]; exact ⟨_, rfl, rfl⟩
    · exact ⟨x, hx, rfl⟩

theorem SlotsKept.raiseLauncher (s : State) (g : Grid) (p : Nat) : SlotsKept s (raiseLauncher s g p) := by
  unfold Machine.raiseLauncher
  split
  · exact SlotsKept.raiseSlot s _ p
  · exact ⟨rfl, fun _ x hx => ⟨x, hx, rfl⟩⟩

theorem grids_raiseLauncher (s : State) (g : Grid) (p : Nat) : (raiseLauncher s g p).ex.grids = s.ex.grids := by
  unfold raiseLauncher; split <;> rfl

/-- Where a grid's snapshot opens, its launching slot may observe its stamp (R216, R227). -/
theorem SlotsKept.openGrid (s : State) (gi : Nat) : SlotsKept s (openGrid s gi) := by
  unfold Machine.openGrid
  dsimp only
  repeat' split
  · exact SlotsKept.of_qu rfl
  · refine SlotsKept.trans ?_ (SlotsKept.raiseLauncher _ _ _)
    exact SlotsKept.of_qu (HomeFrame.openSnap s _).qu
  · exact SlotsKept.of_qu rfl

theorem openGrid_isSome {s : State} {gi : Nat} (h : (tget s.ex.grids gi).isSome = true) : (tget (openGrid s gi).ex.grids gi).isSome = true := by
  unfold openGrid
  dsimp only
  repeat' split
  · exact h
  · rename_i g _ _
    have hg := congrArg Option.isSome ((HomeFrame.openSnap s (openAt s g.stamp)).grids gi)
    rw [grids_raiseLauncher]
    refine (congrArg Option.isSome (tget_tmod _ _ _ _)).trans ?_
    simp only [Option.isSome_map, if_true] at hg ⊢
    exact hg.trans h
  · exact h

/-- A grid entered in the distributor list stands there, and the queues are as they were (R356). -/
theorem enterGrid_kept (s : State) (idx : Nat) (ws : List Word) (books : Tab (List Nat)) (p prio queue : Nat) (l : Launcher) (slot : Nat) :
    SlotsKept s (enterGrid s idx ws books p prio queue l slot) ∧ (tget (enterGrid s idx ws books p prio queue l slot).ex.grids idx).isSome = true := by
  unfold enterGrid
  dsimp only
  have entered (v : State) (g : Grid) (h : v.qu = s.qu) (hg : tget v.ex.grids idx = some g) :
      SlotsKept s (openGrid v idx) ∧ (tget (openGrid v idx).ex.grids idx).isSome = true :=
    ⟨(SlotsKept.of_qu h).trans (SlotsKept.openGrid v idx), openGrid_isSome (by rw [hg]; rfl)⟩
  have posted (v : State) (h : SlotsKept s v ∧ (tget v.ex.grids idx).isSome = true) :
      let u := match tget v.ex.grids idx with
        | some x => if x.waitsHorizon then post v 6 0 8 p 0 else v
        | none => v
      SlotsKept s u ∧ (tget u.ex.grids idx).isSome = true := by
    repeat' split
    · exact ⟨h.1.trans (SlotsKept.of_qu rfl), h.2⟩
    · exact h
    · exact h
  split
  · exact posted _ (entered _ _ rfl (tget_tset_self _ _ _))
  · exact ⟨SlotsKept.of_qu rfl, by rw [tget_tset_self]; rfl⟩

/-! ENTRY_HAND_ON (R274). -/

theorem slotQueue_eq {s : State} {slot : Nat} {x : Slot} {q : Queue} (hx : tget s.qu.slots slot = some x) (hq : tget s.qu.queues x.queue = some q) :
    slotQueue s slot = q := by simp [slotQueue, hx, hq]

theorem exec_entryHandOn {slot : Nat} {s : State} {x : Slot} {q : Queue} {e : Nat} (hx : tget s.qu.slots slot = some x) (hq : tget s.qu.queues x.queue = some q)
    (he : x.entry = some e) (hm : x.waitMet = true) (hw : indexWaits s q = false) :
    exec (.entryHandOn slot) s = .next (if entryType e = 1 then handLaunch s slot e else if entryType e = 3 then handOn s slot e else s) := by
  change execEntryHandOn slot s = _
  simp only [execEntryHandOn, hx, he, hm, slotQueue_eq hx hq, hw, Option.bind_some, Option.map_some]
  by_cases h1 : entryType e = 1
  · simp [h1]
  · by_cases h3 : entryType e = 3 <;> simp [h1, h3]

/-- An entry that launches its grid (R274, R356). -/
theorem handLaunch_ok {s w : State} {slot e gi : Nat} {x : Slot} {q : Queue} {r : Reader} (hx : tget s.qu.slots slot = some x) (hq : tget s.qu.queues x.queue = some q)
    (ha : bits e 127 64 % 256 = 0) (hv : bits e 127 64 + 256 ≤ 2 ^ 57) (hb : tget x.buf 0 = none)
    (h : launch s (slotReader x q) (bits e 127 64) (entryOverride e) q.prio x.queue (.slot x.queue q.ridx) slot = .ok gi r w) :
    handLaunch s slot e = handOn (raiseSlot w slot r.p) slot e := by
  have hn : ¬ (bits e 127 64 % 256 ≠ 0 ∨ 2 ^ 57 < bits e 127 64 + 256 ∨ tget x.buf 0 = some 1) := by
    rw [hb, ha]; simp; omega
  simp only [handLaunch, hx, hq, if_neg hn, h]

/-- A launched entry is handed on: the read index moves, and its grid stands (R272, R274). -/
theorem handLaunch_moves {s w : State} {slot e gi : Nat} {x : Slot} {q : Queue} {r : Reader} (hx : tget s.qu.slots slot = some x)
    (hq : tget s.qu.queues x.queue = some q)
    (h : launch s (slotReader x q) (bits e 127 64) (entryOverride e) q.prio x.queue (.slot x.queue q.ridx) slot = .ok gi r w) :
    ∃ y, tget (handOn (raiseSlot w slot r.p) slot e).qu.queues x.queue = some y ∧ y.ridx = q.ridx + 1 ∧
      (tget (handOn (raiseSlot w slot r.p) slot e).ex.grids gi).map (·.record) = (tget w.ex.grids gi).map (·.record) ∧
      (tget (handOn (raiseSlot w slot r.p) slot e).ex.grids gi).isSome = true := by
  obtain ⟨v, ws, books, hv, rfl⟩ := launch_ok h
  obtain ⟨hk, hg⟩ := enterGrid_kept v gi ws books r.p q.prio x.queue (.slot x.queue q.ridx) slot
  have hk := (SlotsKept.of_qu hv.qu).trans (hk.trans (SlotsKept.raiseSlot _ slot r.p))
  obtain ⟨z, hz, hzq⟩ := hk.slots slot x hx
  obtain ⟨⟨y, hy, hi⟩, hr⟩ := handOn_moves (e := e) hz (q := q) (by rw [hk.queues, hzq]; exact hq)
  rw [hzq] at hy
  refine ⟨y, hy, hi, hr gi, ?_⟩
  have := congrArg Option.isSome (hr gi)
  simp only [Option.isSome_map] at this
  exact this.trans hg

/-! ENTRY_SIGNAL_WRITE (R274, R282) and FAULT_RECORD_WRITE (R279 to R281). -/

theorem signalled_mm (s : State) (n i ts : Nat) : (signalled s n i ts).mm = s.mm := by
  unfold signalled
  split <;> rfl

/-- An entry dropped waits for nothing more (R282). -/
theorem pendings_dropPending {s : State} {n i : Nat} {y : Pending} (h : y ∈ (dropPending s n i).qu.pendings) : y.queue ≠ n ∨ y.index ≠ i := by
  have kept {y : Pending} (hy : y ∈ s.qu.pendings.filter fun p => !(p.queue == n && p.index == i)) : y.queue ≠ n ∨ y.index ≠ i := by
    have := (List.mem_filter.1 hy).2
    simp only [Bool.not_eq_true', Bool.and_eq_false_iff, beq_eq_false_iff_ne] at this
    exact this
  rcases mem_settleSignals (List.mem_filter.1 h).1 with hp | ⟨z, hz, -, rfl⟩
  · exact kept hp
  · exact (kept hz : z.queue ≠ n ∨ z.index ≠ i)

/-- A finished entry's signal, written where its queue's agent reaches it (R274). -/
theorem exec_entrySignalWrite {n i f va pa : Nat} {s : State} {p : Pending} {q : Queue}
    (hp : s.qu.pendings.find? (fun p => p.queue == n && p.index == i) = some p) (hf : p.fin = some f) (ha : p.sigAddr = some va)
    (hq : tget s.qu.queues n = some q) (hz : q.frozen = false ∨ q.sigFrozen ≠ some i) (ho : ownRequests s (.signal n i) = [])
    (hr : Reaches s baseVia .engineWrite q.asid va pa) :
    ∃ ts v, exec (.entrySignalWrite n i) s = .next (signalled v n i ts) ∧ Stored s v pa (natLe 8 p.sigVal) ∧ f < (getLine v (pa / 128)).wts := by
  obtain ⟨ts, v, hw, hs, hwts, hts, -⟩ := agentWrite_stored hr (f + 1) (natLe 8 p.sigVal) false
  have hn : ¬ (q.frozen = true ∧ q.sigFrozen = some i ∨ ownRequests s (.signal n i) ≠ []) := by
    rcases hz with h | h <;> simp [h, ho]
  refine ⟨ts, v, ?_, hs, by omega⟩
  change execEntrySignalWrite n i s = _
  simp only [execEntrySignalWrite, hp, hq, hf, ha, if_neg hn, hw]

theorem exec_faultRecordWrite_room {die b ts : Nat} {s w : State} {q : FaultQueue} {r : FaultRec} {rest : List FaultRec}
    (hq : tget s.tr.faultQs die = some q) (hr : q.waiting = r :: rest) (hn : (q.seq + 2 ^ 32 - q.readIx % 2 ^ 32) % 2 ^ 32 < 4096)
    (hb : q.base = some b) (hw : writeCounted s { die := die } q.pts (b + 32 * (q.seq % 4096)) (b + 131072) (natLe 32 (recordValue r (q.seq + 1))) (q.seq + 1) = .ok ts w) :
    exec (.faultRecordWrite die) s = .next (perf (setFaultQ w die { q with seq := q.seq + 1, pts := ts, waiting := rest, full := false }) 3 die 2 1) := by
  change execFaultRecordWrite die s = _
  simp only [execFaultRecordWrite, hq, hr, if_neg (Nat.not_le.2 hn), hb, hw]

theorem exec_faultRecordWrite_full {die : Nat} {s : State} {q : FaultQueue} {r : FaultRec} {rest : List FaultRec}
    (hq : tget s.tr.faultQs die = some q) (hr : q.waiting = r :: rest) (hn : 4096 ≤ (q.seq + 2 ^ 32 - q.readIx % 2 ^ 32) % 2 ^ 32) :
    exec (.faultRecordWrite die) s = .next (refuseRecord s die q) := by
  change execFaultRecordWrite die s = _
  simp only [execFaultRecordWrite, hq, hr, if_pos hn]

end Sys2Proof.Machine

section
open Sys2Proof Sys2Proof.Machine

/-- Settles O56: a queue unit's steps change its slots and queues, and reach memory through the base die alone, so each of its
reads and writes is that of the state in which the event begins. -/
theorem queueUnitWorks : Obligations.QueueUnitWorks := by
  unfold Obligations.QueueUnitWorks
  refine ⟨?bind, ?unbind, ?take, ?poll, ?signal, ?launch, ?signalWrite, ?record, ?full⟩
  case bind =>
    intro slot s n q hs hf hm hw h
    exact ⟨_, _, exec_slotBind hs hf (nextQueue_eq hm hw h), tget_tset_self _ _ _, rfl, rfl, rfl, fun m hm => tget_tset_ne _ _ hm, rfl, rfl, rfl⟩
  case unbind =>
    intro slot s x q hx hq hu ho
    exact ⟨_, exec_slotUnbind hx hq hu, unbind_slot hx hq ho⟩
  case take =>
    intro slot s x q pa hx hq he hf hi hb hr hp e
    obtain ⟨v, hvq, hvs, hv⟩ := entryTake_head hx hq he hf hi hb hr hp
    have hq' : tget v.qu.queues x.queue = some q := by rw [hvq]; exact hq
    by_cases hg : entryOk e = true ∧ entryAddrs e = true
    · obtain ⟨h1, h2⟩ := hg
      refine ⟨_, hv, ⟨q, ?_, rfl, rfl, fun h => ?_, fun _ h => ?_⟩, fun _ _ => ?_⟩
      · rw [takeEntry_good h1 h2]; exact hq'
      · rw [h1] at h; cases h
      · rw [h2] at h; cases h
      · rw [takeEntry_good h1 h2]
        exact ⟨_, tget_tmod_some _ hvs, rfl, rfl, rfl, rfl⟩
    · obtain ⟨y, hy, h1, h2, h3, h4⟩ := takeEntry_bad (slot := slot) (e := e) hq' hf (by
        rcases Bool.eq_false_or_eq_true (entryOk e) with h | h
        · exact .inr (Bool.not_eq_true _ ▸ fun h' => hg ⟨h, h'⟩)
        · exact .inl h)
      exact ⟨_, hv, ⟨y, hy, h1, h2, fun h => ⟨h3, by simp [h4, h]⟩, fun h _ => ⟨h3, by simp [h4, h]⟩⟩, fun h h' => absurd ⟨h, h'⟩ hg⟩
  case poll =>
    intro slot s x q e pa hx hq he hw hb hr hp
    obtain ⟨u, hu, hc, h⟩ := slotRead_reaches (n := 8) hx hq hb hr hp (pollWait slot e)
    have hs : tget (raiseSlot u slot (max x.pts (getLine s (pa / 128)).wts)).qu.slots slot = some _ := tget_tmod_some _ (by rw [← hu] at hx; exact hx)
    obtain ⟨y, hy, h1, h2, h3, h4⟩ := pollWait_slot (e := e) hs hw (standing s pa 8)
    refine ⟨_, y, (exec_entryWaitPoll hx he hw).trans (congrArg _ h), hy, h1.trans he, h2.trans (by simp), h3, fun hn => ?_⟩
    rw [h4 hn, ← hc]; rfl
  case signal =>
    intro slot s x q e pa hx hq he hm ht hw hr
    obtain ⟨y, z, hy, h1, h2, h3, h4, hz, h5, h6⟩ := handOn_reaches (e := e) hx hq hr
    exact ⟨_, y, z, (exec_entryHandOn hx hq he hm hw).trans (by simp [ht]), hy, h1, h2, h3, h4, hz, h5, h6⟩
  case launch =>
    intro slot s x q e gi r w hx hq he hm ht hw ha hv hb hl
    obtain ⟨y, hy, h1, h2, h3⟩ := handLaunch_moves hx hq hl
    exact ⟨_, y, (exec_entryHandOn hx hq he hm hw).trans (by rw [if_pos ht, handLaunch_ok hx hq ha hv hb hl]), hy, h1, h2, h3⟩
  case signalWrite =>
    intro n i s p f va q pa hp hf ha hq hz ho hr
    obtain ⟨ts, v, h, hs, hw⟩ := exec_entrySignalWrite hp hf ha hq hz ho hr
    have hmm := signalled_mm v n i ts
    refine ⟨_, h, ⟨by rw [hmm]; exact hs.1, by rw [hmm]; exact hs.2⟩, ?_, fun y hy => pendings_dropPending hy⟩
    rw [getLine_congr (u := signalled v n i ts) (s := v) (by rw [hmm]) (by rw [hmm])]; exact hw
  case record =>
    intro die s q r rest b ts w hq hr hn hb hw
    exact ⟨_, exec_faultRecordWrite_room hq hr hn hb hw, rfl, tget_tset_self _ _ _⟩
  case full =>
    intro die s q r rest hq hr hn hf
    refine ⟨_, exec_faultRecordWrite_full hq hr hn, ?_⟩
    unfold refuseRecord
    rw [hf, if_neg Bool.false_ne_true]
    exact ⟨rfl, tget_tset_self _ _ _, rfl⟩

end

namespace Sys2Proof.Machine

/-! The one element that a list's function keeps. -/

theorem flatMap_one {α β : Type} {f : α → List β} {l : List α} {a : α} (hm : a ∈ l) (hn : l.Nodup) (h : ∀ b ∈ l, b ≠ a → f b = []) :
    l.flatMap f = f a := by
  induction l with
  | nil => cases hm
  | cons x l ih =>
    obtain ⟨hx, hl⟩ := List.nodup_cons.1 hn
    rw [List.flatMap_cons]
    rcases List.mem_cons.1 hm with rfl | hm
    · have hz : l.flatMap f = [] := List.flatMap_eq_nil_iff.2 fun b hb => h b (List.mem_cons_of_mem _ hb) fun e => hx (e ▸ hb)
      rw [hz, List.append_nil]
    · rw [h x List.mem_cons_self fun e => hx (e ▸ hm), ih hm hl fun b hb => h b (List.mem_cons_of_mem _ hb), List.nil_append]

theorem filterMap_one {α β : Type} {f : α → Option β} {l : List α} {a : α} {b : β} (hm : a ∈ l) (hn : l.Nodup) (h : ∀ c ∈ l, c ≠ a → f c = none)
    (ha : f a = some b) : l.filterMap f = [b] := by
  rw [List.filterMap_eq_flatMap_toList, flatMap_one hm hn fun c hc hne => by rw [h c hc hne]; rfl, ha]
  rfl

/-! The words whose lanes each read bytes at their issue (R278, R285). -/

/-- A read at the current versions: under no snapshot and in no transaction's view. -/
structure Current (r : Reader) : Prop where
  snap : r.snap = none
  tx : r.tx = none
  view : r.view = false
  excl : r.excl = false

theorem current_laneReader {s : State} {k : Nat} {t : Thread} {view : Bool} (h : view = true → t.tx.depth = 0 ∧ t.snap = .off) :
    Current (laneReader s k t view) := by
  cases view
  · exact ⟨rfl, rfl, rfl, rfl⟩
  · obtain ⟨hd, hs⟩ := h rfl
    have hr : readSnap t = none := by simp [readSnap, hd, hs]
    exact ⟨by simp [laneReader, hr], by simp [laneReader, hd], by simp [laneReader, hr, hd], rfl⟩

/-- A lane reads bytes of this package, through a leaf that is no gather window and where the host path carries them. -/
structure ReadsHere (s : State) (l : Leaf) (va : Nat) : Prop where
  gather : l.gather = false
  remote : l.remote = false
  port : isHost (l.frame + va % pageBytes l.size) = true → hostPathOpen s = true

theorem laneRead_here {s w : State} {r : Reader} {l : Leaf} {va n : Nat} {e : Ack} (hr : Current r) (h : ReadsHere s l va)
    (he : readAt s l.zf none r.p (l.frame + va % pageBytes l.size) n = (e, w)) : laneRead s r l va n = (some e, r.took va n e, w) := by
  have hp : (isHost (l.frame + va % pageBytes l.size) && !hostPathOpen s) = false := by
    cases hi : isHost (l.frame + va % pageBytes l.size)
    · rfl
    · simp [h.port hi]
  simp only [laneRead, h.gather, h.remote, hp, hr.snap, hr.tx, hr.view, hr.excl, he, Bool.false_eq_true, if_false, ite_self, Bool.false_and, Bool.or_self]
  congr 3
  cases r
  cases hr.excl
  rfl

/-- A lane that reads bytes of this package lacks nothing. -/
theorem laneLacks_here {s : State} {k : Nat} {t : Thread} {view : Bool} {va n : Nat} {l : Leaf} (hv : view = true → t.tx.depth = 0 ∧ t.snap = .off)
    (hx : xlate s k t .load (gridOf s t).asid va = .ok l) (h : ReadsHere s l va) : laneLacks s k t view va n = none := by
  simp only [laneLacks, hx, laneRead_here (current_laneReader hv) h rfl]

theorem askLanes_alone {w : WordSpec} {view : Bool} {n : Nat} {ea : Thread → Int} {fpc : Word} {s : State} {k : Nat} {t : Thread} (ht : getThread s k = some t)
    (h : ∀ va, addrOf (ea t) n = .ok va → laneLacks s k t view va n = none) : askLanes w view n ea fpc s [k] = (false, s) := by
  simp only [askLanes, ht, Option.bind_some]
  cases ready s w t
  · rfl
  · cases ha : addrOf (ea t) n with
    | ok va => simp only [h va ha, if_true]
    | error e => rfl

/-- A word of one lane that lacks nothing goes on. -/
theorem readWord_alone {w : WordSpec} {view : Bool} {n k : Nat} {ea : State → Thread → Int} {go : Ctx → List Nat → State → State} {s : State} {c : Ctx} {t : Thread}
    (hgo : prelude w s = .go c [k]) (ht : getThread s k = some t) (hm : missing s w .load n (ea s) [k] = [])
    (h : ∀ va, addrOf (ea s t) n = .ok va → laneLacks s k t view va n = none) : readWord w view n ea go s = .next (done (go c [k] s)) := by
  simp only [readWord, issueGo, hgo, hm, askLanes_alone ht h]

/-! The threads that wait at a JOB word (R285). -/

/-- What a thread that waits at a JOB word is to the word's step. -/
def jobWaiter (wid : Nat) (e : Nat × Thread) : Option (Nat × Thread × JobKind) := match e.2.held with
  | some { instr := .job k _, token, .. } => if e.2.waitOn = .table ∧ token = wid then some (e.1, e.2, k) else none
  | _ => none

theorem jobWaiters_eq (s : State) (wid : Nat) :
    jobWaiters s wid = (List.range 64).flatMap fun h => (s.ex.threads.filterMap (jobWaiter wid)).filter fun e => e.1 % 64 == h := rfl

theorem jobWaiter_token {wid : Nat} {e : Nat × Thread} (h : ∀ x, e.2.held = some x → x.token ≠ wid) : jobWaiter wid e = none := by
  unfold jobWaiter
  split
  · rename_i heq
    rw [if_neg fun hc => h _ heq hc.2]
  · rfl

/-- Where one thread waits at a JOB word, it is the word's only waiter. -/
theorem jobWaiters_one {s : State} {wid k : Nat} {t : Thread} {kind : JobKind} (hs : s.ex.threads.Pairwise fun x y => x.1 < y.1)
    (hm : (k, t) ∈ s.ex.threads) (ht : jobWaiter wid (k, t) = some (k, t, kind)) (ho : ∀ e ∈ s.ex.threads, e ≠ (k, t) → ∀ x, e.2.held = some x → x.token ≠ wid) :
    jobWaiters s wid = [(k, t, kind)] := by
  have hn : s.ex.threads.Nodup := hs.imp fun h e => absurd h (by rw [e]; exact lt_irrefl _)
  rw [jobWaiters_eq, filterMap_one hm hn (fun e he hne => jobWaiter_token (ho e he hne)) ht,
    flatMap_one (a := k % 64) (List.mem_range.2 (Nat.mod_lt _ (by decide))) List.nodup_range fun h _ hne => by simp [Ne.symm hne]]
  simp

/-! What a JOB word appends (R285, R287). -/

/-- The card of a waiting thread, bound for an instance (R287). -/
def waitingCard (s : State) (k : Nat) (t : Thread) (kind : JobKind) (i : Nat) : Card :=
  { instance_ := i, asid := (gridOf s t).asid, kind := kind, bits := (tget t.buf 0).getD 0, stamp := t.pts, thr := some (k, s.nextId), team := some t.team }

/-- The operation on cp of a card's number (R284). -/
def cardOp (s : State) (t : Thread) : Op :=
  { id := s.nextId, wid := s.nextId, cnt := .cp, kind := .job (s.nextId + 1), fpc := t.pc, performed := true, visible := true }

/-- One lane's card appended: the card stands, and its thread goes on with one operation outstanding (R284, R285). -/
structure Appended (s : State) (k : Nat) (t : Thread) (kind : JobKind) (u : State) : Prop where
  mm : u.mm = s.mm
  cur : u.cur = s.cur
  card : ∃ deps i, tget u.en.cards (s.nextId + 1) = some { waitingCard s k t kind i with deps := deps, pts := t.pts }
  lane : getThread u k = some (completeWait (addOp { t with buf := [] } (cardOp s t)) (heldWords t))

theorem Appended.appendLane {s : State} {k : Nat} {t : Thread} {kind : JobKind} (i : Nat) (ht : getThread s k = some t) (hd : t.dstop = false) :
    Appended s k t kind (appendLane s ((k, t, kind), i)) := by
  have he : Machine.appendLane s ((k, t, kind), i) = release (modThread (appendCard { s with nextId := s.nextId + 1 } (waitingCard s k t kind i)).2 k
      fun v => addOp { v with buf := [] } (cardOp s t)) k :=
    if_neg (Bool.eq_false_iff.1 hd)
  rw [he]
  refine ⟨rfl, rfl, ⟨_, i, tget_tset_self _ _ _⟩, ?_⟩
  exact tget_tmod_some _ (tget_tmod_some _ ht)

/-- A thread whose wait is met goes on past its word, with what it has outstanding (R336). -/
theorem completeWait_goesOn (t : Thread) (n : Nat) : (completeWait t n).pc = t.pc + BitVec.ofNat 32 n ∧ (completeWait t n).regs = t.regs ∧
    (completeWait t n).ops = t.ops ∧ (completeWait t n).st = if t.dstop then .stopped else .ready := by
  unfold completeWait
  dsimp only
  split <;> exact ⟨rfl, rfl, rfl, rfl⟩

/-- The thread of an appended card goes on with the card's operation outstanding on cp (R284). -/
theorem completeWait_addOp (t : Thread) (n : Nat) (o : Op) : (completeWait (addOp { t with buf := [] } o) n).pc = t.pc + BitVec.ofNat 32 n ∧
    (completeWait (addOp { t with buf := [] } o) n).regs = t.regs ∧ (t.dstop = false → (completeWait (addOp { t with buf := [] } o) n).st = .ready) ∧
    ∃ x ∈ (completeWait (addOp { t with buf := [] } o) n).ops, x.cnt = o.cnt ∧ x.kind = o.kind := by
  obtain ⟨hpc, hregs, hops, hst⟩ := completeWait_goesOn (addOp { t with buf := [] } o) n
  refine ⟨hpc, hregs, fun hd => hst.trans (by simp [addOp, hd]), ?_⟩
  rw [hops]
  exact ⟨_, List.mem_append_right _ (List.mem_singleton_self _), rfl, rfl⟩

/-- Do the cards of a word of one waiting thread fit? (R285) -/
theorem jobsFit_one {s : State} {k i : Nat} {t : Thread} {kind : JobKind} : jobsFit s [(k, t, kind)] [i] = true ↔
    count t .cp + 1 ≤ 63 ∧ (heldCards s).length + 1 ≤ Config.trackerCards ∧ queuedAt s i + 1 ≤ Config.cardsPerInstance := by
  simp [jobsFit, and_assoc]

theorem appendJobs_unfit {s : State} {wid : Nat} (h : jobsFit s (jobWaiters s wid) (planJobs s (jobWaiters s wid) []) = false) : appendJobs s wid = s := by
  simp [appendJobs, h]

theorem appendJobs_one {s : State} {wid k : Nat} {t : Thread} {kind : JobKind} (hw : jobWaiters s wid = [(k, t, kind)])
    (h : jobsFit s (jobWaiters s wid) (planJobs s (jobWaiters s wid) []) = true) :
    appendJobs s wid = appendLane s ((k, t, kind), instanceFor s (coreOf k / Config.coresPerDie) kind []) := by
  rw [hw] at h
  simp only [appendJobs, hw, h, if_true]
  rfl

theorem instanceFor_congr {s u : State} (h : u.en = s.en) (die : Nat) (k : JobKind) (l : List Nat) : instanceFor u die k l = instanceFor s die k l := by
  unfold instanceFor queuedAt heldCards; rw [h]

/-! JOB (R284 to R286). -/

theorem readAt_current_ex (s : State) (zf : Bool) (p pa n : Nat) : (readAt s zf none p pa n).2.ex = s.ex := by
  cases zf
  · change (loadAt s p pa n).2.ex = s.ex
    unfold loadAt
    simp only [noteStamp_ex, setLine_ex, foldLine_ex]
    have ht (s : State) (ln : Nat) : (touchLine s ln).ex = s.ex := by
      unfold touchLine noteFill; dsimp only; repeat' split
      all_goals rfl
    rw [ht]
    unfold readHost; split <;> rfl
  · change (zeroLoad s p pa).2.ex = s.ex
    unfold zeroLoad
    simp only [noteStamp_ex, setLine_ex]

theorem touchPage_cores (s : State) (k : Nat) (t : Thread) (asid va : Nat) : ∃ cores, touchPage s k t asid va = { s with ex := { s.ex with cores := cores } } := by
  unfold touchPage
  repeat' split
  · exact ⟨_, rfl⟩
  · exact ⟨_, rfl⟩
  · exact ⟨_, rfl⟩

/-- A value read at a home fits its bytes (R219, R372). -/
theorem readAt_value_lt {s w : State} {zf : Bool} {p pa n : Nat} {e : Ack} (h : readAt s zf none p pa n = (e, w)) : e.value < 256 ^ n := by
  cases zf
  · have he : e = (loadAt s p pa n).1 := congrArg Prod.fst h.symm
    rw [he, loadAt_ack]; exact standing_lt s pa n
  · have he : e = (zeroLoad s p pa).1 := congrArg Prod.fst h.symm
    rw [he]; exact Nat.pow_pos (by decide)

/-- A read at the current version gives a stamp no lower than the agent's (R219). -/
theorem le_readAt_ts {s w : State} {zf : Bool} {p pa n : Nat} {e : Ack} (h : readAt s zf none p pa n = (e, w)) : p ≤ e.ts := by
  cases zf
  · have he : e = (loadAt s p pa n).1 := congrArg Prod.fst h.symm
    rw [he, loadAt_ack]; exact le_max_left _ _
  · have he : e = (zeroLoad s p pa).1 := congrArg Prod.fst h.symm
    rw [he]; exact le_max_left _ _

/-- What JOB needs. -/
def jobSpec (a : Reg) : WordSpec := { opSpec [(a.toNat, 2, 2)] [] with order := true, adds := [(.cp, 1)] }

section
variable {s w : State} {c : Ctx} {k va : Nat} {t : Thread} {l : Leaf} {e : Ack} {kind : JobKind} {a : Reg}

/-- The lane of a JOB reads its card and waits for room (R285). -/
theorem jobLane_waits {wid : Nat} (ha : rdPair t a = va) (hal : va % 128 = 0) (hlt : va < 2 ^ 57) (hx : xlate s k t .load (gridOf s t).asid va = .ok l)
    (hh : ReadsHere (touchPage s k t (gridOf s t).asid va) l va) (hd : t.tx.depth = 0) (hs : t.snap = .off) (hr : t.revoked = false)
    (he : readAt (touchPage s k t (gridOf s t).asid va) l.zf none t.pts (l.frame + va % pageBytes l.size) 128 = (e, w)) (hp : e.poison = false) :
    jobLane c wid kind a s k t = .wait (setThread w k (jobWaits c wid kind a { t with pts := max t.pts e.ts } e.value)) := by
  have hc := current_laneReader (s := touchPage s k t (gridOf s t).asid va) (k := k) (view := true) fun _ => ⟨hd, hs⟩
  have hrd := laneRead_here hc hh he
  have hrev : revokedNow t = false := by simp [revokedNow, hd, hr]
  have hts := le_readAt_ts he
  have hm : max t.pts (max t.pts e.ts) = max t.pts e.ts := by omega
  have hex : ((laneReader (touchPage s k t (gridOf s t).asid va) k t true).took va 128 e).excl = false := hc.excl
  have hpt : ((laneReader (touchPage s k t (gridOf s t).asid va) k t true).took va 128 e).p = max t.pts e.ts := rfl
  rw [jobLane, globalLane, addrOf_ok (va := va) (by rw [← ha]; rfl) hlt hal]
  simp only [hx, hrev, hrd, hp, hex, hpt, hm, Bool.false_and, Bool.false_eq_true, if_false]

/-- What the card's read of a bundle of one lane needs: an access that stands, to bytes of this package or of the host, under no
snapshot and in no transaction, which gives `e` and leaves `w` (R238, R285). -/
structure CardRead (s : State) (a : Reg) (kind : JobKind) (c : Ctx) (k : Nat) (t : Thread) (va : Nat) (l : Leaf) (e : Ack) (w : State) : Prop where
  go : prelude (jobSpec a) s = .go c [k]
  lane : getThread s k = some t
  ready : ready s (jobSpec a) t = true
  sorted : s.ex.threads.Pairwise fun x y => x.1 < y.1
  tokens : ∀ e ∈ s.ex.threads, ∀ h, e.2.held = some h → h.token ≠ s.nextId
  addr : rdPair t a = va
  aligned : va % 128 = 0
  inside : va < 2 ^ 57
  leaf : xlate s k t .load (gridOf s t).asid va = .ok l
  gather : l.gather = false
  remote : l.remote = false
  port : isHost (l.frame + va % pageBytes l.size) = true → hostPathOpen s = true
  depth : t.tx.depth = 0
  snap : t.snap = .off
  revoked : t.revoked = false
  read : readAt (touchPage { s with nextId := s.nextId + 1 } k (schedQuiet s c t) (gridOf s t).asid va) l.zf none t.pts (l.frame + va % pageBytes l.size) 128 = (e, w)
  clean : e.poison = false

/-- The thread of a lane that has read its card (R285). -/
def jobReader (s : State) (c : Ctx) (kind : JobKind) (a : Reg) (t : Thread) (e : Ack) : Thread :=
  jobWaits c s.nextId kind a { schedQuiet s c t with pts := max t.pts e.ts } e.value

theorem CardRead.access (h : CardRead s a kind c k t va l e w) : AccessAt s k t .load 128 (readPair t a.toNat : Int) va l :=
  ⟨by rw [← h.addr]; rfl, h.inside, h.aligned, h.leaf⟩

/-- The state in which a JOB of one lane has read its card, and the lane waits for room (R285). -/
def cardWaits (s : State) (c : Ctx) (kind : JobKind) (a : Reg) (k : Nat) (t : Thread) (e : Ack) (w : State) : State :=
  leaveBundle (setThread w k (jobReader s c kind a t e)) k

theorem CardRead.exec_job (h : CardRead s a kind c k t va l e w) :
    exec (.job kind a) s = .next (done (rejoin c.core c.port [k] (appendJobs (cardWaits s c kind a k t e w) s.nextId))) := by
  have hm : missing s (jobSpec a) .load 128 (fun t => (readPair t a.toNat : Int)) [k] = [] := missing_alone h.lane h.access
  have hl : ∀ x, addrOf (readPair t a.toNat : Int) 128 = .ok x → laneLacks s k t true x 128 = none := fun x hx => by
    rw [addrOf_ok h.access.addr h.inside h.aligned] at hx
    cases hx
    exact laneLacks_here (fun _ => ⟨h.depth, h.snap⟩) h.leaf ⟨h.gather, h.remote, h.port⟩
  refine (readWord_alone (ea := fun _ t => (readPair t a.toNat : Int)) h.go h.lane hm hl).trans ?_
  have hq := schedQuiet_eq s c t
  have hb : jobLane c s.nextId kind a { s with nextId := s.nextId + 1 } k (schedQuiet s c t) = .wait (setThread w k (jobReader s c kind a t e)) := by
    have hp : (schedQuiet s c t).pts = t.pts := by rw [hq]
    have hg : gridOf { s with nextId := s.nextId + 1 } (schedQuiet s c t) = gridOf s t := gridOf_schedQuiet s s c t
    have hr := h.read
    rw [← hg, ← hp] at hr
    have := jobLane_waits (s := { s with nextId := s.nextId + 1 }) (c := c) (k := k) (t := schedQuiet s c t) (kind := kind) (a := a) (wid := s.nextId)
      (by rw [hq]; exact h.addr) h.aligned h.inside (l := l) (by rw [hg, hq]; exact h.leaf) ⟨h.gather, h.remote, fun hi => ?_⟩ (by rw [hq]; exact h.depth)
      (by rw [hq]; exact h.snap) (by rw [hq]; exact h.revoked) hr h.clean
    · rw [this, hp]; rfl
    · obtain ⟨cores, hc⟩ := touchPage_cores { s with nextId := s.nextId + 1 } k (schedQuiet s c t) (gridOf { s with nextId := s.nextId + 1 } (schedQuiet s c t)).asid va
      rw [hc]; exact h.port hi
  have hs : laneStep (jobSpec a) c (jobLane c s.nextId kind a) { s with nextId := s.nextId + 1 } k = cardWaits s c kind a k t e w := by
    rw [laneStep_eq_laneEnd (s := { s with nextId := s.nextId + 1 }) (t := t) _ h.lane h.ready]
    exact congrArg (laneEnd (jobSpec a) c _ k) hb
  exact congrArg (fun u => Host.Outcome.next (done (rejoin c.core c.port [k] (appendJobs u s.nextId)))) hs

/-- What the lane's read leaves (R219). -/
theorem CardRead.waits (h : CardRead s a kind c k t va l e w) : (cardWaits s c kind a k t e w).mm = w.mm ∧ (cardWaits s c kind a k t e w).en = s.en ∧
    getThread (cardWaits s c kind a k t e w) k = some (jobReader s c kind a t e) ∧
    gridOf (cardWaits s c kind a k t e w) (jobReader s c kind a t e) = gridOf s t ∧
    jobWaiters (cardWaits s c kind a k t e w) s.nextId = [(k, jobReader s c kind a t e, kind)] := by
  obtain ⟨cores, hc⟩ := touchPage_cores { s with nextId := s.nextId + 1 } k (schedQuiet s c t) (gridOf s t).asid va
  have hr := h.read
  rw [hc] at hr
  have hw : w = (readAt { s with nextId := s.nextId + 1, ex := { s.ex with cores := cores } } l.zf none t.pts (l.frame + va % pageBytes l.size) 128).2 :=
    congrArg Prod.snd hr.symm
  have hex : w.ex = { s.ex with cores := cores } := by rw [hw]; exact readAt_current_ex _ _ _ _ _
  have hen : w.en = s.en := by rw [hw]; exact (HomeFrame.readAt _ _ _ _ _ _).en
  have ht : (cardWaits s c kind a k t e w).ex.threads = tset s.ex.threads k (jobReader s c kind a t e) := by
    change tset w.ex.threads k _ = _
    rw [hex]
  have hg : gridOf (cardWaits s c kind a k t e w) (jobReader s c kind a t e) = gridOf s (schedQuiet s c t) := by
    have hteams : (cardWaits s c kind a k t e w).ex.teams = s.ex.teams := (congrArg Exec.teams hex :)
    have hgrids : (cardWaits s c kind a k t e w).ex.grids = s.ex.grids := (congrArg Exec.grids hex :)
    simp only [gridOf, hteams, hgrids]
    rfl
  have hmine : getThread (cardWaits s c kind a k t e w) k = some (jobReader s c kind a t e) := by
    rw [getThread, ht]; exact tget_tset_self _ _ _
  refine ⟨rfl, hen, hmine, hg.trans (gridOf_schedQuiet s s c t), jobWaiters_one ?_ (mem_of_tget hmine) ?_ ?_⟩
  · rw [ht]; exact tset_pairwise h.sorted _ _
  · exact if_pos ⟨rfl, rfl⟩
  · intro x hx hne
    rw [ht] at hx
    exact h.tokens x ((tset_mem hx).resolve_left hne)

theorem rejoin_cores (core port : Nat) (ks : List Nat) (u : State) : ∃ cores, rejoin core port ks u = { u with ex := { u.ex with cores := cores } } := by
  unfold rejoin; split
  · exact ⟨_, rfl⟩
  · exact ⟨_, rfl⟩

/-- JOB with room: the card stands, and the lane goes on (R284, R285). -/
theorem CardRead.appends (h : CardRead s a kind c k t va l e w) (hd : t.dstop = false) (hn : count t .cp < 63)
    (hc : (heldCards s).length < Config.trackerCards) (hi : ∀ i, queuedAt s i < Config.cardsPerInstance) :
    ∃ u id card y, exec (.job kind a) s = .next u ∧ u.cur = none ∧ u.mm = w.mm ∧ tget u.en.cards id = some card ∧ card.kind = kind ∧
      card.bits = e.value ∧ card.asid = (gridOf s t).asid ∧ card.stamp = max t.pts e.ts ∧ card.team = some t.team ∧ card.started = false ∧
      getThread u k = some y ∧ y.pc = t.pc + BitVec.ofNat 32 c.words ∧ y.regs = t.regs ∧ ∃ o ∈ y.ops, o.cnt = .cp ∧ o.kind = .job id := by
  obtain ⟨hmm, hen, ht, hg, hw⟩ := h.waits
  have hq := schedQuiet_eq s c t
  have hfit : jobsFit (cardWaits s c kind a k t e w) (jobWaiters (cardWaits s c kind a k t e w) s.nextId)
      (planJobs (cardWaits s c kind a k t e w) (jobWaiters (cardWaits s c kind a k t e w) s.nextId) []) = true := by
    rw [hw]
    have hops : count (jobReader s c kind a t e) .cp = count t .cp := by simp only [jobReader, jobWaits, waiting, count]; rw [hq]
    refine jobsFit_one.2 ⟨by rw [hops]; omega, ?_, ?_⟩
    · rw [show heldCards (cardWaits s c kind a k t e w) = heldCards s by unfold heldCards; rw [hen]]; omega
    · rw [show queuedAt (cardWaits s c kind a k t e w) = queuedAt s by funext i; unfold queuedAt heldCards; rw [hen]]
      exact hi _
  have happ := Appended.appendLane (kind := kind) (instanceFor (cardWaits s c kind a k t e w) (coreOf k / Config.coresPerDie) kind []) ht
    (show (jobReader s c kind a t e).dstop = false by simp only [jobReader, jobWaits, waiting]; rw [hq]; exact hd)
  rw [← appendJobs_one hw hfit] at happ
  obtain ⟨cores, hr⟩ := rejoin_cores c.core c.port [k] (appendJobs (cardWaits s c kind a k t e w) s.nextId)
  have hx := h.exec_job
  rw [hr] at hx
  obtain ⟨deps, i, hcard⟩ := happ.card
  obtain ⟨hpc, hregs, -, o, ho, hcnt, hkind⟩ := completeWait_addOp (jobReader s c kind a t e) (heldWords (jobReader s c kind a t e))
    (cardOp (cardWaits s c kind a k t e w) (jobReader s c kind a t e))
  refine ⟨_, _, _, _, hx, rfl, happ.mm.trans hmm, hcard, rfl, rfl, congrArg Grid.asid hg, rfl, ?_, rfl, happ.lane, hpc.trans ?_, hregs.trans ?_, o, ho, hcnt, hkind⟩
  all_goals simp only [waitingCard, jobReader, jobWaits, waiting]; rw [hq]
  rfl

/-- JOB without room: the lane waits at the word with its card (R285). -/
theorem CardRead.waits_unfit (h : CardRead s a kind c k t va l e w)
    (hf : Config.trackerCards ≤ (heldCards s).length ∨ Config.cardsPerInstance ≤ queuedAt s (instanceFor s (coreOf k / Config.coresPerDie) kind [])) :
    ∃ u y, exec (.job kind a) s = .next u ∧ u.cur = none ∧ u.mm = w.mm ∧ u.en.cards = s.en.cards ∧ getThread u k = some y ∧ y.st = .waiting ∧ y.waitOn = .table ∧
      y.held.map (·.instr) = some (.job kind a) ∧ tget y.buf 0 = some e.value ∧ y.pc = t.pc ∧ y.regs = t.regs ∧ y.ops = t.ops := by
  obtain ⟨hmm, hen, ht, -, hw⟩ := h.waits
  have hq := schedQuiet_eq s c t
  have hfit : jobsFit (cardWaits s c kind a k t e w) (jobWaiters (cardWaits s c kind a k t e w) s.nextId)
      (planJobs (cardWaits s c kind a k t e w) (jobWaiters (cardWaits s c kind a k t e w) s.nextId) []) = false := by
    rw [hw, Bool.eq_false_iff]
    intro hj
    obtain ⟨-, h1, h2⟩ := jobsFit_one.1 hj
    rw [instanceFor_congr hen] at h2
    rw [show heldCards (cardWaits s c kind a k t e w) = heldCards s by unfold heldCards; rw [hen]] at h1
    rw [show queuedAt (cardWaits s c kind a k t e w) = queuedAt s by funext i; unfold queuedAt heldCards; rw [hen]] at h2
    rcases hf with hf | hf
    · omega
    · exact absurd (hf.trans_lt h2) (lt_irrefl _)
  obtain ⟨cores, hr⟩ := rejoin_cores c.core c.port [k] (appendJobs (cardWaits s c kind a k t e w) s.nextId)
  have hx := h.exec_job
  rw [hr, appendJobs_unfit hfit] at hx
  refine ⟨_, _, hx, rfl, hmm, congrArg Engines.cards hen, ht, rfl, rfl, rfl, rfl, ?_, ?_, ?_⟩
  all_goals simp only [jobReader, jobWaits, waiting]; rw [hq]

end

/-- JOB_APPEND of one waiting thread (R285). -/
theorem jobAppend_one {s : State} {wid k : Nat} {t : Thread} {kind : JobKind} (hw : jobWaiters s wid = [(k, t, kind)]) (ht : getThread s k = some t) (hd : t.dstop = false)
    (h : jobsFit s (jobWaiters s wid) (planJobs s (jobWaiters s wid) []) = true) :
    ∃ u id card y, exec (.jobAppend wid) s = .next u ∧ tget u.en.cards id = some card ∧ card.kind = kind ∧ card.bits = (tget t.buf 0).getD 0 ∧
      getThread u k = some y ∧ y.st = .ready ∧ y.pc = t.pc + BitVec.ofNat 32 (heldWords t) ∧ ∃ o ∈ y.ops, o.cnt = .cp ∧ o.kind = .job id := by
  have happ := Appended.appendLane (kind := kind) (instanceFor s (coreOf k / Config.coresPerDie) kind []) ht hd
  rw [← appendJobs_one hw h] at happ
  obtain ⟨deps, i, hcard⟩ := happ.card
  obtain ⟨hpc, -, hst, o, ho, hcnt, hkind⟩ := completeWait_addOp t (heldWords t) (cardOp s t)
  exact ⟨_, _, _, _, rfl, hcard, rfl, rfl, happ.lane, hst hd, hpc, o, ho, hcnt, hkind⟩

end Sys2Proof.Machine

namespace Sys2Proof.Machine

/-! What an agent's write leaves of the threads. -/

/-- Every thread has its registers, its place and its pts. -/
def LanesKept (s u : State) : Prop :=
  ∀ k t, getThread s k = some t → ∃ v, getThread u k = some v ∧ v.regs = t.regs ∧ v.pc = t.pc ∧ v.pts = t.pts

theorem LanesKept.refl (s : State) : LanesKept s s := fun _ t h => ⟨t, h, rfl, rfl, rfl⟩

theorem LanesKept.trans {s u v : State} (h : LanesKept s u) (j : LanesKept u v) : LanesKept s v := fun k t ht => by
  obtain ⟨x, hx, h1, h2, h3⟩ := h k t ht
  obtain ⟨y, hy, j1, j2, j3⟩ := j k x hx
  exact ⟨y, hy, j1.trans h1, j2.trans h2, j3.trans h3⟩

theorem LanesKept.of_threads {s u : State} (h : u.ex.threads = s.ex.threads) : LanesKept s u := fun k t ht => ⟨t, by rw [getThread, h]; exact ht, rfl, rfl, rfl⟩

theorem HomeFrame.lanesKept {s u : State} (h : HomeFrame s u) : LanesKept s u := fun k t ht => by
  obtain ⟨v, hv, hk⟩ := h.threads k t ht
  refine ⟨v, hv, ?_, ?_, ?_⟩
  all_goals rw [hk.same]

theorem LanesKept.foldl {α : Type} {f : State → α → State} (hf : ∀ s x, LanesKept s (f s x)) (l : List α) (s : State) : LanesKept s (l.foldl f s) := by
  induction l generalizing s with
  | nil => exact LanesKept.refl s
  | cons x l ih => exact (hf s x).trans (ih _)

/-- Every thread changed, in what is none of the three. -/
theorem LanesKept.of_map {s u : State} {f : Nat × Thread → Thread} (h : u.ex.threads = s.ex.threads.map fun e => (e.1, f e))
    (hf : ∀ e, (f e).regs = e.2.regs ∧ (f e).pc = e.2.pc ∧ (f e).pts = e.2.pts) : LanesKept s u := fun k t ht => by
  rw [getThread] at ht
  exact ⟨f (k, t), by rw [getThread, h, tget_mapKey _ (fun n t => f (n, t)), ht]; rfl, hf (k, t)⟩

theorem LanesKept.dropPage (s : State) (asid va size : Nat) : LanesKept s (dropPage s asid va size) :=
  LanesKept.of_map rfl fun _ => ⟨rfl, rfl, rfl⟩

theorem LanesKept.zeroFill (s : State) (asid va : Nat) (l : Leaf) : LanesKept s (zeroFill s asid va l) := by
  unfold Machine.zeroFill
  extract_lets n z x y z' tr v inFrame ex u
  have hv : LanesKept s v := LanesKept.of_threads rfl
  have hu : LanesKept v u := LanesKept.of_map rfl fun _ => ⟨rfl, rfl, rfl⟩
  refine ((hv.trans hu).trans (LanesKept.dropPage u asid va l.size)).trans (LanesKept.foldl (fun s e => ?_) _ _)
  unfold queueWalk Machine.startWalk
  repeat' split
  all_goals exact LanesKept.of_threads rfl

theorem LanesKept.noteWalk (s : State) (x : Via) (asid va : Nat) : LanesKept s (noteWalk s x asid va) := by
  unfold Machine.noteWalk; split <;> exact LanesKept.of_threads rfl

theorem LanesKept.noteBad (s : State) (asid va : Nat) : LanesKept s (noteBad s asid va) := by
  unfold Machine.noteBad; split <;> exact LanesKept.of_threads rfl

theorem LanesKept.agentWrite {s u : State} {x : Via} {p asid va : Nat} {bs : List Byte} {c : Bool}
    (h : (agentWrite s x p asid va bs c).state = some u) : LanesKept s u := by
  have hw (v : State) (l : Leaf) : LanesKept v (writeAt v p (l.frame + va % pageBytes l.size) bs c).2 := (HomeFrame.writeAt _ _ _ _ _).lanesKept
  have hb := LanesKept.noteBad s asid va
  unfold Machine.agentWrite agentPa at h
  split at h
  · cases h; exact LanesKept.refl s
  split at h
  · cases h
  cases hn : walkNow s x .engineWrite asid va <;> simp only [hn] at h
  case absent => cases h
  case bad => cases h; exact hb
  case poison => cases h; exact hb
  case leaf l =>
    cases hz : l.zf <;> cases hr : l.remote <;> simp [hz, hr, needsW, Wr.state] at h
    · obtain rfl := h
      exact (LanesKept.noteWalk s _ _ _).trans (hw _ l)
    · obtain rfl := h
      exact (LanesKept.noteWalk s _ _ _).trans ((LanesKept.zeroFill _ _ _ _).trans (hw _ { l with zf := false }))

/-! The writes of the queue unit through the host's page tables (R307). -/

/-- What holds of what every write of an agent leaves holds of what the writes of a range leave. -/
theorem hostWrite_keeps {R : State → State → Prop} (hr : ∀ s, R s s) (ht : ∀ s u v, R s u → R u v → R s v)
    (hw : ∀ s u p asid va bs c, (agentWrite s baseVia p asid va bs c).state = some u → R s u) (s : State) (p asid va : Nat) (bs : List Byte) (c : Bool) :
    R s (hostWrite s p asid va bs c).2 := by
  unfold hostWrite
  generalize spanLines (bs.length + 1) va bs.length = l
  have fold (r : Nat × State) : R s r.2 → R s (l.foldl (fun (r : Nat × State) x =>
      match agentWrite r.2 baseVia r.1 asid x.1 ((bs.drop (x.1 - va)).take x.2) c with
      | .ok ts s => (max r.1 ts, s)
      | _ => r) r).2 := by
    induction l generalizing r with
    | nil => exact id
    | cons x l ih =>
      intro h
      refine ih _ ?_
      dsimp only
      split
      · rename_i he
        exact ht _ _ _ h (hw _ _ _ _ _ _ _ (congrArg Wr.state he))
      · exact h
  exact fold (p, s) (hr s)

theorem QueueFrame.hostWrite (s : State) (p asid va : Nat) (bs : List Byte) (c : Bool) : QueueFrame s (hostWrite s p asid va bs c).2 :=
  hostWrite_keeps QueueFrame.refl (fun _ _ _ => QueueFrame.trans) (fun _ _ _ _ _ _ _ => QueueFrame.agentWrite) s p asid va bs c

theorem LanesKept.hostWrite (s : State) (p asid va : Nat) (bs : List Byte) (c : Bool) : LanesKept s (hostWrite s p asid va bs c).2 :=
  hostWrite_keeps LanesKept.refl (fun _ _ _ => LanesKept.trans) (fun _ _ _ _ _ _ _ => LanesKept.agentWrite) s p asid va bs c

/-- Bytes of one line that their agent reaches are stored (R219, R307). -/
theorem hostWrite_stored {s : State} {asid va pa : Nat} {bs : List Byte} (hr : Reaches s baseVia .engineWrite asid va pa) (hn : 0 < bs.length)
    (hfit : bs.length ≤ 128 - va % 128) (p : Nat) (c : Bool) : Stored s (hostWrite s p asid va bs c).2 pa bs := by
  obtain ⟨ts, v, hw, hs, -⟩ := agentWrite_stored hr p bs c
  simp only [hostWrite, spanLines_one hn hfit, List.foldl_cons, List.foldl_nil, Nat.sub_self, List.drop_zero, List.take_length, hw]
  exact hs

theorem Stored.to_mm {s u v : State} {pa : Nat} {bs : List Byte} (h : Stored s u pa bs) (hm : v.mm = u.mm) : Stored s v pa bs := by
  unfold Stored at h ⊢; rw [hm]; exact h

/-! QPUSH (R278). -/

theorem pushEntry_frozen {s : State} {n : Nat} {q : Queue} (hq : tget s.qu.queues n = some q) (hf : q.frozen = true) (p e : Nat) :
    pushEntry s n p e = (0x80000001, p, s) := by simp [pushEntry, hq, hf]

theorem pushEntry_full {s : State} {n : Nat} {q : Queue} (hq : tget s.qu.queues n = some q) (hf : q.frozen = false) (hn : q.widx - q.ridx = q.size) (p e : Nat) :
    pushEntry s n p e = (0x80000000, p, s) := by simp [pushEntry, hq, hf, hn]

/-- The writes of an entry that a queue takes: its bytes, then the write index (R278). -/
def pushWrites (s : State) (p e : Nat) (q : Queue) : Nat × State :=
  let (ts, s) := hostWrite s p q.asid (q.at_ q.widx) (natLe 64 e)
  hostWrite s ts q.asid q.ctl (natLe 8 (q.widx + 1))

theorem pushEntry_taken {s : State} {n : Nat} {q : Queue} (hq : tget s.qu.queues n = some q) (hf : q.frozen = false) (hn : q.widx - q.ridx ≠ q.size)
    (h1 : hostMay s .engineWrite q.asid (q.at_ q.widx) 64 = true) (h2 : hostMay s .engineWrite q.asid q.ctl 8 = true) (p e : Nat) :
    pushEntry s n p e = (q.widx % 2 ^ 31, (pushWrites s p e q).1, modQueue (pushWrites s p e q).2 n fun x =>
      { x with widx := x.widx + 1, bell := max x.bell (pushWrites s p e q).1, waitingSince := if x.ridx < x.widx then x.waitingSince else (pushWrites s p e q).2.bd.clock }) := by
  simp only [pushEntry, hq, hf, hn, h1, h2, Bool.false_eq_true, if_false, Bool.not_true, pushWrites]

theorem QueueFrame.pushWrites (s : State) (p e : Nat) (q : Queue) : QueueFrame s (pushWrites s p e q).2 := by
  unfold Machine.pushWrites
  dsimp only
  exact (QueueFrame.hostWrite s _ _ _ _ _).trans (QueueFrame.hostWrite _ _ _ _ _ _)

theorem LanesKept.freezeQueue (s : State) (n reason detail : Nat) : LanesKept s (freezeQueue s n reason detail) := by
  unfold Machine.freezeQueue unbind
  repeat' split
  all_goals exact LanesKept.of_threads rfl

theorem LanesKept.noteRange (s : State) (asid va n : Nat) : LanesKept s (noteRange s asid va n) := by
  unfold Machine.noteRange; split
  · exact LanesKept.noteBad s _ _
  · exact LanesKept.refl s

theorem LanesKept.modQueue (s : State) (n : Nat) (f : Queue → Queue) : LanesKept s (modQueue s n f) := LanesKept.of_threads rfl

theorem LanesKept.pushEntry (s : State) (n p e : Nat) : LanesKept s (pushEntry s n p e).2.2 := by
  unfold Machine.pushEntry
  dsimp only
  repeat' split
  · exact LanesKept.refl s
  · exact LanesKept.refl s
  · exact LanesKept.refl s
  · exact (LanesKept.noteRange s _ _ _).trans (LanesKept.freezeQueue _ _ _ _)
  · exact (LanesKept.noteRange s _ _ _).trans (LanesKept.freezeQueue _ _ _ _)
  · refine LanesKept.trans ?_ (LanesKept.modQueue _ _ _)
    refine LanesKept.trans ?_ (LanesKept.hostWrite _ _ _ _ _ _)
    exact LanesKept.hostWrite _ _ _ _ _ _

/-- A ring at a multiple of 64 has each entry, and its control line, within a line (R269). -/
theorem ring_fits {q : Queue} (h : q.ringBase % 64 = 0) (i : Nat) : 64 ≤ 128 - q.at_ i % 128 ∧ 8 ≤ 128 - q.ctl % 128 := by
  unfold Queue.at_ Queue.ctl
  omega

/-- What QPUSH needs. -/
def pushSpec (a b d : Reg) : WordSpec := { opSpec [(a.toNat, 2, 2), sp1 b] [sp1 d] with order := true, adds := [(.ld, 1)] }

section
variable {s : State} {c : Ctx} {k : Nat} {t : Thread} {a b d : Reg}

theorem pushOk_schedQuiet : pushOk s (schedQuiet s c t) b = pushOk s t b := by
  have hr : rd (schedQuiet s c t) b = rd t b := by rw [schedQuiet_eq]; rfl
  unfold pushOk
  rw [hr, gridOf_schedQuiet]

/-- QPUSH of a bundle of one lane that lacks nothing (R278). -/
theorem exec_qpush (hgo : prelude (pushSpec a b d) s = .go c [k]) (ht : getThread s k = some t) (hr : ready s (pushSpec a b d) t = true)
    (hm : missing s (pushSpec a b d) .load 64 (fun t => if pushOk s t b then (readPair t a.toNat : Int) else -1) [k] = [])
    (hl : ∀ va, addrOf (if pushOk s t b then (readPair t a.toNat : Int) else -1) 64 = .ok va → laneLacks s k t false va 64 = none)
    (hw : pushWaits s 1 t b = false) :
    exec (.qpush d a b) s = .next (done (laneEnd (pushSpec a b d) c s k (pushLane d a b s k (schedQuiet s c t)))) := by
  refine (readWord_alone (ea := fun s t => if pushOk s t b then (readPair t a.toNat : Int) else -1) hgo ht hm hl).trans ?_
  have hn : ([k].any fun k => (getThread s k).any fun t => ready s (pushSpec a b d) t && pushWaits s [k].length t b) = false := by simp [ht, hw]
  exact congrArg (fun u => Host.Outcome.next (done u)) ((if_neg (Bool.eq_false_iff.1 hn)).trans (laneStep_eq_laneEnd _ ht hr))

/-- A QPUSH to no queue that the lane may push (R278). -/
theorem qpush_refused (hgo : prelude (pushSpec a b d) s = .go c [k]) (ht : getThread s k = some t) (hr : ready s (pushSpec a b d) t = true)
    (h : pushOk s t b = false) : exec (.qpush d a b) s = .next (done (deliver s k 0x13 0 c.fpc)) := by
  have ha : addrOf (-1) 64 = .error (0x08, ((-1 : Int) % 2 ^ 57).toNat) := addrOf_outside 64 (.inl (by decide))
  have hw : pushWaits s 1 t b = false := by
    unfold pushWaits
    split
    · rfl
    · rw [h]; rfl
  rw [exec_qpush hgo ht hr (by simp [missing, ht, h, ha]) (fun va hv => by rw [h, if_neg Bool.false_ne_true, ha] at hv; cases hv) hw]
  simp [pushLane, pushOk_schedQuiet, h, laneEnd]

/-- A lane whose entry has been appended: the result in D, the stamp observed, and one operation done on ld (R278). -/
def pushDone (v : State) (k : Nat) (d : Reg) (p x : Nat) : State :=
  modThread { v with nextId := v.nextId + 1 } k fun t => addDone (writeReg { t with pts := max t.pts p } d.toNat (BitVec.ofNat 32 x)) v.nextId .ld

/-- The lane of a QPUSH whose entry is at hand appends it and goes on (R278). -/
theorem pushLane_ok {va : Nat} {l : Leaf} {e : Ack} {w : State} (h : pushOk s t b = true) (ha : rdPair t a = va) (hal : va % 64 = 0) (hlt : va < 2 ^ 57)
    (hx : xlate s k t .load (gridOf s t).asid va = .ok l) (hh : ReadsHere (touchPage s k t (gridOf s t).asid va) l va)
    (he : readAt (touchPage s k t (gridOf s t).asid va) l.zf none t.pts (l.frame + va % pageBytes l.size) 64 = (e, w)) (hp : e.poison = false) :
    pushLane d a b s k t = let r := pushEntry (setThread w k t) (rd t b).toNat (max t.pts e.ts) e.value
      .ok (pushDone r.2.2 k d r.2.1 r.1) := by
  have hrd := laneRead_here (current_laneReader (s := touchPage s k t (gridOf s t).asid va) (k := k) (t := t) (view := false) fun h => by cases h) hh he
  have hts := le_readAt_ts he
  have hpt : max t.pts ((laneReader (touchPage s k t (gridOf s t).asid va) k t false).took va 64 e).p = max t.pts e.ts := by
    change max t.pts (max t.pts e.ts) = _; omega
  rw [pushLane, h, Bool.not_true, if_neg Bool.false_ne_true, globalLane, addrOf_ok (va := va) (by rw [← ha]; rfl) hlt hal]
  simp only [hx, hrd, hp, hpt, Bool.false_eq_true, if_false]
  rfl

theorem modThread_eq (s : State) {k : Nat} {t : Thread} (f : Thread → Thread) (h : getThread s k = some t) : modThread s k f = setThread s k (f t) := by
  rw [getThread] at h
  simp only [modThread, tmod, h]
  rfl

/-- A lane goes on past its QPUSH, after a step that keeps its thread's registers, place and pts. -/
theorem pushDone_ends {w : WordSpec} {u v : State} {p x : Nat} (h : LanesKept u v) (ht : getThread u k = some t) :
    let z := laneEnd w c s k (.ok (pushDone v k d p x))
    ∃ y, z.mm = v.mm ∧ z.qu = v.qu ∧ getThread z k = some y ∧ readReg y d.toNat = BitVec.ofNat 32 x ∧ y.pc = t.pc + BitVec.ofNat 32 c.words ∧ y.pts = max t.pts p := by
  obtain ⟨z, hz, -, hpc, hpts⟩ := h k t ht
  rw [pushDone, modThread_eq (t := z) { v with nextId := v.nextId + 1 } _ hz]
  have hl := LaneEnds.laneEnd_ok w c s { v with nextId := v.nextId + 1 } k (addDone (writeReg { z with pts := max z.pts p } d.toNat (BitVec.ofNat 32 x)) v.nextId .ld)
  obtain ⟨fpc, fregs, -⟩ := finish_keeps w c (addDone (writeReg { z with pts := max z.pts p } d.toNat (BitVec.ofNat 32 x)) v.nextId .ld)
  refine ⟨_, hl.only.mm, hl.only.qu, hl.mine, ?_, fpc.trans (congrArg (· + _) hpc), ?_⟩
  · rw [readReg, fregs]
    exact (readReg_writeReg { z with pts := max z.pts p } d.toNat d.toNat (BitVec.ofNat 32 x)).trans (if_pos rfl)
  · rw [← hpts]
    unfold finish
    dsimp only
    split <;> rfl

end

end Sys2Proof.Machine

section
open Sys2Proof Sys2Proof.Machine

/-- Settles O53: a JOB word's lane waits with its card, and the word's step then appends it or leaves it; a QPUSH's lane reads its
entry and goes on from the queue unit's step. -/
theorem jobAndQueueWords : Obligations.JobAndQueueWords := by
  unfold Obligations.JobAndQueueWords
  refine ⟨?room, ?noRoom, fun wid s h => congrArg _ (appendJobs_unfit h), ?append, ?push, ?qpush⟩
  case room =>
    intro kind a s c k t va l e w hgo ht hr hs htok ha hal hlt hx hg hrm hp hd hsn hrv he hpo hds hn hc hi
    have h : CardRead s a kind c k t va l e w := ⟨hgo, ht, hr, hs, htok, ha, hal, hlt, hx, hg, hrm, hp, hd, hsn, hrv, he, hpo⟩
    rw [leNat_natLe, Nat.mod_eq_of_lt (readAt_value_lt he)]
    exact h.appends hds hn hc hi
  case noRoom =>
    intro kind a s c k t va l e w hgo ht hr hs htok ha hal hlt hx hg hrm hp hd hsn hrv he hpo hf
    have h : CardRead s a kind c k t va l e w := ⟨hgo, ht, hr, hs, htok, ha, hal, hlt, hx, hg, hrm, hp, hd, hsn, hrv, he, hpo⟩
    obtain ⟨u, y, hu, h1, h2, h3, h4, h5, h6, h7, h8, h9⟩ := h.waits_unfit hf
    exact ⟨u, y, hu, h1, h2, h3, h4, h5, h6, h7, by rw [h8]; rfl, h9⟩
  case append =>
    intro wid s k t kind hw ht hd h
    obtain ⟨u, id, card, y, h1, h2, h3, h4, h5⟩ := jobAppend_one hw ht hd h
    exact ⟨u, id, card, y, h1, h2, h3, congrArg some h4, h5⟩
  case push =>
    intro s n p e q hq
    refine ⟨fun hf => pushEntry_frozen hq hf p e, fun hf hn => pushEntry_full hq hf hn p e, fun hf hn h1 h2 => ?_⟩
    have hpe := pushEntry_taken hq hf hn h1 h2 p e
    have hqu : tget (pushWrites s p e q).2.qu.queues n = some q := by rw [(QueueFrame.pushWrites s p e q).qu]; exact hq
    refine ⟨by rw [hpe], by rw [hpe]; exact ⟨_, tget_tmod_some _ hqu, rfl, rfl, hf⟩, fun pa pc hb hr => ⟨?_, fun hr' => ?_⟩⟩
    · exact hostWrite_stored (bs := natLe 64 e) hr (by simp) (by rw [natLe_length]; exact (ring_fits hb q.widx).1) p false
    · have hs := hostWrite_stored hr' (bs := natLe 8 (q.widx + 1)) (by simp) (by rw [natLe_length]; exact (ring_fits hb q.widx).2)
        (hostWrite s p q.asid (q.at_ q.widx) (natLe 64 e)).1 false
      exact hs.to_mm (by rw [hpe, modQueue_mm, pushWrites])
  case qpush =>
    intro d a b s c k t va l e w sp hgo ht hr
    refine ⟨qpush_refused hgo ht hr, fun hok ha hal hlt hx hg hrm hp hw he hpo => ?_⟩
    have hat : AccessAt s k t .load 64 (if pushOk s t b then (readPair t a.toNat : Int) else -1) va l :=
      ⟨by rw [if_pos hok, ← ha]; rfl, hlt, hal, hx⟩
    have hx' : exec (.qpush d a b) s = .next (done (laneEnd (pushSpec a b d) c s k (pushLane d a b s k (schedQuiet s c t)))) := by
      refine exec_qpush hgo ht hr (missing_alone (ea := fun t => if pushOk s t b then (readPair t a.toNat : Int) else -1) ht hat) (fun x hv => ?_) hw
      rw [addrOf_ok hat.addr hlt hal] at hv
      cases hv
      exact laneLacks_here (fun h => by cases h) hx ⟨hg, hrm, hp⟩
    have hq := schedQuiet_eq s c t
    have hpts : (schedQuiet s c t).pts = t.pts := by rw [hq]
    have hgr : gridOf s (schedQuiet s c t) = gridOf s t := gridOf_schedQuiet s s c t
    obtain ⟨cores, hcores⟩ := touchPage_cores s k (schedQuiet s c t) (gridOf s t).asid va
    rw [pushLane_ok (t := schedQuiet s c t) (va := va) (l := l) (e := e) (w := w) (pushOk_schedQuiet.trans hok) (by rw [hq]; exact ha) hal hlt
      (by rw [hgr, hq]; exact hx) (by rw [hgr, hcores]; exact ⟨hg, hrm, hp⟩) (by rw [hgr, hpts]; exact he) hpo] at hx'
    have hrd : rd (schedQuiet s c t) b = rd t b := by rw [hq]; rfl
    rw [hpts, hrd] at hx'
    rw [leNat_natLe, Nat.mod_eq_of_lt (readAt_value_lt he)]
    obtain ⟨y, h1, h2, h3, h4, h5, h6⟩ := pushDone_ends (w := pushSpec a b d) (c := c) (s := s) (d := d)
      (p := (pushEntry (setThread w k (schedQuiet s c t)) (rd t b).toNat (max t.pts e.ts) e.value).2.1)
      (x := (pushEntry (setThread w k (schedQuiet s c t)) (rd t b).toNat (max t.pts e.ts) e.value).1)
      (LanesKept.pushEntry (setThread w k (schedQuiet s c t)) (rd t b).toNat (max t.pts e.ts) e.value) (tget_tset_self _ _ _)
    exact ⟨_, y, hx', rfl, h1, h2, h3, h4, h5.trans (by rw [hq]), h6.trans (by rw [hpts])⟩

end

namespace Sys2Proof.Machine

/-! The ACK of a store (R314). The clause gives the thread's pts after it; where the table lists a key twice, a barrier that the first thread's last
stamp completes raises the first one's pts for the second. -/

/-- A store of an exited thread, which another package has performed; under the same key a thread of its team, of pts 100, waits at BAR.team for that
store's stamp alone. -/
def ackedTwice : State where
  ex := { teams := [(0, { grid := 0, lin := 0, cluster := 0, threads := 2, barCount := 1 })]
          threads := [(0, { team := 0, pc := 0, st := .draining, ops := [{ id := 1, wid := 1, cnt := .st, kind := .store 0 }] }),
            (0, { team := 0, pc := 0, st := .waiting, waitOn := .bar, held := some { instr := .bar .team, hints := [] }, pts := 100 })] }
  fa := { requests := [(0, { frame := { dpkg := 1, spkg := 0, cls := 0, stamp := 0, addr := 0, asid := 0, tag := 0, op := 2 }, since := 0, owner := .op 0 1 })] }

/-- The first answer of the store. -/
def storeAck : Frame := { dpkg := 0, spkg := 1, cls := 1, stamp := 0, addr := 0, asid := 0, tag := 0, ack := 1, op := 0x82 }

/-- The barrier's release gives the exited thread the pts of the other. -/
theorem ackedTwice_pts {u : State} (h : exec (.kolozAck 0 storeAck) ackedTwice = .next u) : (getThread u 0).map (·.pts) = some 100 := by
  have hs : (match exec (.kolozAck 0 storeAck) ackedTwice with
    | .next u => (getThread u 0).map (·.pts)
    | _ => none) = some 100 := by decide
  rwa [h] at hs

end Sys2Proof.Machine

section
open Sys2Proof Sys2Proof.Machine

/-- Refutes O60, in what it says of the ACK of a write: in `ackedTwice` the thread's pts and the frame's stamp are 0, and the thread's pts is 100
afterwards. -/
theorem not_hostPortAndFabric : ¬ Obligations.HostPortAndFabric := by
  intro ⟨_, _, _, _, _, _, _, _, _, _, _, _, _, _, _, hack, _⟩
  obtain ⟨_, _, h⟩ := hack 0 storeAck ackedTwice _ rfl (by decide) (by decide) rfl rfl
  obtain ⟨u, v, hu, _, hv, hpts, _⟩ := h 0 1 _ _ (.inl rfl) rfl (by decide) (by decide) rfl rfl rfl rfl rfl rfl rfl rfl
  have hz := ackedTwice_pts hu
  rw [hv, Option.map_some, hpts] at hz
  exact absurd hz (by decide)

end

namespace Sys2Proof.Machine

/-! A walk that ends at an invalid entry (R365, R370). The clause gives the merge entry after it; where the merge table lists a key twice, the walk that
starts in the ended one's place is the second entry's, and it is written over the first. -/

/-- A merge entry whose walk ends at the address space that has no root, with a lane that waits for it; and under the same key one that is queued. -/
def walkedTwice : State where
  ex := { threads := [(0, { team := 0, pc := 0 })] }
  tr := { merges := [(0, { asid := 1, vpn := 0, acc := 0, srcKind := 0, srcId := 0, va := 0, phase := .walking, waiters := [.lane 0 0 0] }),
      (0, { asid := 2, vpn := 0, acc := 0, srcKind := 0, srcId := 0, va := 0, phase := .queued })] }

/-- The second entry's walk has started under the key. -/
theorem walkedTwice_starts {u : State} (h : exec (.walkComplete 0 ⟨0, false⟩) walkedTwice = .next u) : (tget u.tr.merges 0).map (·.asid) = some 2 := by
  have hs : (match exec (.walkComplete 0 ⟨0, false⟩) walkedTwice with
    | .next u => (tget u.tr.merges 0).map (·.asid)
    | _ => none) = some 2 := by decide
  rwa [h] at hs

end Sys2Proof.Machine

section
open Sys2Proof Sys2Proof.Machine

/-- Refutes O58, in what it says of a walk that ends at an invalid entry: in `walkedTwice` the merge entry of its key is afterwards that of another address
space, whose walk has started. -/
theorem not_walksMigrationsAndGraphs : ¬ Obligations.WalksMigrationsAndGraphs := by
  intro ⟨_, habsent, _⟩
  obtain ⟨u, _, _, hu, hm, _⟩ := habsent 0 0 false walkedTwice _ 0 0 0 _ rfl (by decide) rfl (by decide) rfl rfl rfl
  have hz := walkedTwice_starts hu
  rw [show 0 * 1024 + 0 = 0 from rfl] at hm
  rw [hm] at hz
  exact absurd hz (by decide)

end

namespace Sys2Proof.Machine

/-! REPLAY of an absent page (R370, R386). The clause keeps all of the merge entry but its phase and its arrival; where the merge table lists a key twice,
the walk that starts is the second entry's, and it is written over the first. -/

/-- A merge entry of address space 1 that waits for an absent page. -/
def absentEntry : Merge := { asid := 1, vpn := 0, acc := 0, phase := .absent }

/-- A thread at a REPLAY of merge entry 0, `absentEntry`; and under the same key an entry of address space 2, queued. -/
def replayedTwice : State where
  ex := { cores := [(0, { ports := [(0, [0])] })]
          threads := [(0, { team := 0, pc := 0, tvalid := [(124, true), (125, true), (126, true), (127, true)] })] }
  tr := { merges := [(0, absentEntry), (0, { asid := 2, vpn := 0, acc := 0, phase := .queued })] }
  cur := some { core := 0, port := 0, fpc := 0 }
  nextId := 1

theorem replayedTwice_issues : Issues (sysSpec 124 120) { core := 0, port := 0, hints := [], fpc := 0 } [0] replayedTwice :=
  ⟨by decide, by decide, by decide⟩

/-- The second entry's walk has started under the key. -/
theorem replayedTwice_starts {z : State} (h : exec (.replay 124 120) replayedTwice = .next z) : (tget z.tr.merges 0).map (·.asid) = some 2 := by
  have hs : (match exec (.replay 124 120) replayedTwice with
    | .next z => (tget z.tr.merges 0).map (·.asid)
    | _ => none) = some 2 := by decide
  rwa [h] at hs

end Sys2Proof.Machine

section
open Sys2Proof Sys2Proof.Machine

/-- Refutes O51, in what it says of REPLAY: in `replayedTwice` the merge entry of the key is afterwards that of another address space, whose walk has
started. -/
theorem not_supervisorQueuesAndThreads : ¬ Obligations.SupervisorQueuesAndThreads := by
  intro ⟨_, _, _, _, _, _, hreplay, _⟩
  obtain ⟨z, v, _, hz, _, hpost, _, hlane⟩ := (hreplay 124 120).2 replayedTwice _ 0 _ replayedTwice_issues rfl (by decide) rfl
    ⟨by decide, by decide, by decide, absentEntry, by decide, by decide⟩
  obtain ⟨_, _, hwalk⟩ := hpost
  obtain ⟨_, _, _, _, _, _, m, hm, hsame, _⟩ :=
    (hwalk absentEntry (by decide) (by decide) (by decide) (by decide)).2.1 (by decide) (by decide)
  have hkey : tget z.tr.merges 0 = some m := by
    rw [hlane.only.tr]
    exact hm
  have hasid := replayedTwice_starts hz
  rw [hkey, Option.map_some, Option.some_inj, hsame] at hasid
  exact absurd (show absentEntry.asid = 2 from hasid) (by decide)

end

namespace Sys2Proof.Machine

/-! What PREEMPT_COMPLETE keeps of the thread table and of the saved sets (R389): which threads there are, and of each set its base, its cores and the
numbers of its threads. -/

/-- The numbers of the threads. -/
def threadKeys (s : State) : List Nat := s.ex.threads.map (·.1)

/-- A saved set, as it is found: its base, its cores, whether it is written, and the numbers of its threads. -/
def SavedSet.frame (x : SavedSet) : Nat × List Nat × Bool × List Nat := (x.base, x.cores, x.written, x.threads.map (·.1))

/-- The threads are those numbered `K`, in that order where `K` rises, and the saved sets have the frames `F`. -/
structure Lists (K : List Nat) (F : List (Nat × List Nat × Bool × List Nat)) (s : State) : Prop where
  mem : ∀ k, k ∈ threadKeys s ↔ k ∈ K
  listed : K.Pairwise (· < ·) → threadKeys s = K
  saved : s.ex.saved.map SavedSet.frame = F

theorem Lists.refl (s : State) : Lists (threadKeys s) (s.ex.saved.map SavedSet.frame) s := ⟨fun _ => Iff.rfl, fun _ => rfl, rfl⟩

theorem mem_tset_keys {α : Type} (t : Tab α) (n k : Nat) (v : α) : k ∈ (tset t n v).map (·.1) ↔ k = n ∨ k ∈ t.map (·.1) := by
  induction t with
  | nil => simp [tset]
  | cons e t ih =>
    unfold tset
    split
    · subst_vars
      simp
    · split
      · simp
      · rw [List.map_cons, List.mem_cons, ih, List.map_cons, List.mem_cons]
        tauto

/-- Where a table of rising keys lists a key, setting it changes no key. -/
theorem tset_keys {α : Type} {t : Tab α} {n : Nat} (v : α) (hs : (t.map (·.1)).Pairwise (· < ·)) (hn : n ∈ t.map (·.1)) :
    (tset t n v).map (·.1) = t.map (·.1) := by
  induction t with
  | nil => cases hn
  | cons e t ih =>
    rw [List.map_cons, List.pairwise_cons] at hs
    unfold tset
    split
    · subst_vars
      rfl
    · have ht : n ∈ t.map (·.1) := (List.mem_cons.1 hn).resolve_left ‹_›
      rw [if_neg (hs.1 n ht).not_gt, List.map_cons, ih hs.2 ht, List.map_cons]

section
variable {K : List Nat} {F : List (Nat × List Nat × Bool × List Nat)} {s : State}

theorem Lists.congr (h : Lists K F s) {u : State} (ht : threadKeys u = threadKeys s) (hs : u.ex.saved.map SavedSet.frame = s.ex.saved.map SavedSet.frame) :
    Lists K F u :=
  ⟨fun k => ht ▸ h.mem k, fun hk => ht.trans (h.listed hk), hs.trans h.saved⟩

theorem Lists.of_ex (h : Lists K F s) {u : State} (he : u.ex = s.ex) : Lists K F u := h.congr (by rw [threadKeys, he]; rfl) (by rw [he])

theorem Lists.of_get (h : Lists K F s) {k : Nat} {t : Thread} (ht : getThread s k = some t) : k ∈ K :=
  (h.mem k).1 (List.mem_map_of_mem (mem_of_tget ht))

theorem Lists.of_mem (h : Lists K F s) {e : Nat × Thread} (he : e ∈ s.ex.threads) : e.1 ∈ K := (h.mem e.1).1 (List.mem_map_of_mem he)

theorem Lists.setThread (h : Lists K F s) {k : Nat} (hk : k ∈ K) (t : Thread) : Lists K F (setThread s k t) := by
  refine ⟨fun j => ?_, fun hs => ?_, h.saved⟩
  · have hj := (mem_tset_keys s.ex.threads k j t).trans (or_congr Iff.rfl (h.mem j))
    exact hj.trans ⟨fun hj => hj.elim (fun e => e ▸ hk) id, .inr⟩
  · have hl : s.ex.threads.map (·.1) = K := h.listed hs
    exact (tset_keys t (hl ▸ hs) (hl ▸ hk)).trans hl

theorem Lists.modThread (h : Lists K F s) (k : Nat) (f : Thread → Thread) : Lists K F (modThread s k f) := by
  cases ht : getThread s k with
  | none => exact h.of_ex (by simp only [Machine.modThread, tmod, show tget s.ex.threads k = none from ht])
  | some t => exact modThread_eq s f ht ▸ h.setThread (h.of_get ht) (f t)

theorem Lists.mapThreads (h : Lists K F s) (f : Thread → Thread) : Lists K F (mapThreads s f) :=
  h.congr (List.map_map ..) ((List.map_map ..).trans (List.map_congr_left fun x _ => by
    simp only [Function.comp_apply, SavedSet.frame, List.map_map]
    rfl))

theorem Lists.release (h : Lists K F s) (k : Nat) : Lists K F (release s k) := h.modThread k _

theorem Lists.deliver (h : Lists K F s) (k code addr : Nat) (fpc : Word) : Lists K F (deliver s k code addr fpc) := by
  unfold Machine.deliver
  split
  · exact h
  · rename_i t ht
    have hl : Lists K F (perf (leaveBundle (forgetWord s k) k) 0 (coreOf k) 5 1) := h.congr rfl rfl
    dsimp only
    split
    · exact hl.setThread (h.of_get ht) _
    · exact (hl.setThread (h.of_get ht) _).of_ex rfl

/-- What a list of steps keeps, each of which keeps it, all keep. -/
theorem Lists.foldl {α : Type} {f : State → α → State} {l : List α} (h : Lists K F s) (hf : ∀ s, Lists K F s → ∀ a ∈ l, Lists K F (f s a)) :
    Lists K F (l.foldl f s) :=
  List.foldlRecOn l f h hf

/-! A write at a home, which may revoke snapshots (R219, R230, R232). -/

theorem Lists.revoke (h : Lists K F s) (S : Nat) : Lists K F (revoke s S) := by
  have hl : Lists K F (leaseAll s S (pendingLines s S)) := h.foldl fun _ hs _ _ => hs.of_ex rfl
  have hd : Lists K F (dropSnap (leaseAll s S (pendingLines s S)) S) := hl.congr rfl rfl
  exact (hd.mapThreads _).of_ex rfl

theorem Lists.revokeReaders (n : Nat) (h : Lists K F s) (a b : Nat) : Lists K F (revokeReaders n s a b) := by
  induction n generalizing s with
  | zero => exact h
  | succ n ih =>
    unfold Machine.revokeReaders
    split
    · exact ih (h.revoke _)
    · exact h

theorem Lists.dropOldest (h : Lists K F s) (ln : Nat) : Lists K F (dropOldest s ln) := by
  unfold Machine.dropOldest
  dsimp only
  split
  · exact h
  · exact (h.revokeReaders _ _ _).of_ex rfl

theorem Lists.moveOldest (h : Lists K F s) (d : Nat) : Lists K F (moveOldest s d) := by
  unfold Machine.moveOldest
  split
  · exact h
  · dsimp only
    refine Lists.of_ex (h.foldl fun s hs m _ => ?_) rfl
    exact hs.of_ex rfl

theorem Lists.makeRoom (n : Nat) (h : Lists K F s) (d : Nat) : Lists K F (makeRoom n s d) := by
  induction n generalizing s with
  | zero => exact h
  | succ n ih =>
    unfold Machine.makeRoom
    split
    · exact h
    · split
      · exact h.moveOldest d
      · split
        · exact ih ((h.revoke _).of_ex rfl)
        · exact h

theorem Lists.placeFor (h : Lists K F s) (ln ts : Nat) : Lists K F (placeFor s ln ts) := by
  have drop (u : State) (hu : Lists K F u) :
      Lists K F (if needed u ln ts = true ∧ Config.recordsPerLine ≤ (getLine u ln).recs.length then Machine.dropOldest u ln else u) := by
    split
    · exact hu.dropOldest ln
    · exact hu
  refine drop _ ?_
  split
  · exact h.makeRoom _ _
  · exact h

theorem Lists.supersede (h : Lists K F s) (ln ts : Nat) : Lists K F (supersede s ln ts) := by
  unfold Machine.supersede
  dsimp only
  split
  · exact h
  · split <;> exact (h.placeFor ln ts).of_ex rfl

theorem touchLine_ex (s : State) (ln : Nat) : (touchLine s ln).ex = s.ex := by
  have hf : (noteFill s ln).ex = s.ex := by unfold noteFill; dsimp only; split <;> rfl
  unfold touchLine
  split
  · exact hf
  · split
    · rfl
    · exact hf

theorem writeHost_ex (s : State) (pa : Nat) (bs : List Byte) : (writeHost s pa bs).ex = s.ex := by
  unfold writeHost; split <;> rfl

theorem Lists.writeAt (h : Lists K F s) (p pa : Nat) (bs : List Byte) (clears : Bool) : Lists K F (writeAt s p pa bs clears).2 := by
  let u := foldLine (touchLine (writeHost s pa bs) (pa / 128)) (pa / 128)
  have hline : Lists K F u := h.of_ex ((foldLine_ex _ _).trans ((touchLine_ex _ _).trans (writeHost_ex s pa bs)))
  have hstamped := hline.supersede (pa / 128) (writeStamp p (getLine u (pa / 128)))
  exact hstamped.of_ex ((noteStamp_ex _ _ _).trans (dirty_ex _ (pa / 128)))

theorem Lists.writeSpanAt (h : Lists K F s) (p pa : Nat) (bs : List Byte) (clears : Bool) : Lists K F (writeSpanAt s p pa bs clears).2 := by
  unfold Machine.writeSpanAt
  exact List.foldlRecOn (motive := fun r : Nat × State => Lists K F r.2) _ _ h fun r hr x _ => hr.writeAt ..

theorem Lists.writeAreas (b : State) (x : SavedSet) (regs : Nat → Nat) (cs : List Nat) (i p : Nat) (h : Lists K F s) :
    Lists K F (writeAreas b x regs cs i p s).2 := by
  induction cs generalizing s i p with
  | nil => exact h
  | cons c cs ih => exact ih _ _ ((h.writeSpanAt ..).of_ex rfl)

theorem Lists.writeStatus (h : Lists K F s) (k id status p : Nat) : Lists K F (writeStatus s k id status p) := by
  unfold Machine.writeStatus
  split
  · exact h
  · split
    · exact h
    · exact h.foldl fun _ hs _ _ => hs.writeSpanAt ..

/-! The waits that a retirement may end (R333, R398, R400). -/

theorem Lists.joinWrite (h : Lists K F s) {e : Nat × Thread} (he : e.1 ∈ K) (i : Instr) (ps : List Part) (d : Reg) (f : Part → List Word) :
    Lists K F (joinWrite i ps d f s e) := by
  unfold Machine.joinWrite
  split
  · exact h
  · exact (h.setThread he _).release _

theorem Lists.startEngine (h : Lists K F s) (core e : Nat) : Lists K F (startEngine s core e) := by
  unfold Machine.startEngine
  repeat' split
  · exact h
  · exact h
  · exact h.congr rfl rfl

theorem Lists.joinMatrix (h : Lists K F s) (l : List (Nat × Thread)) (p : MmaParts) : Lists K F (joinMatrix s l p) := by
  unfold Machine.joinMatrix
  split
  · exact h
  · dsimp only
    split
    · exact h.foldl fun _ hs _ _ => hs.deliver ..
    · refine Lists.foldl (.startEngine ?_ _ _) fun s hs e _ => ?_
      · exact h.congr rfl rfl
      exact ((hs.of_ex (u := { s with nextId := s.nextId + 1 }) rfl).modThread _ _).release _

theorem Lists.runJoined (h : Lists K F s) {l : List (Nat × Thread)} (hl : ∀ e ∈ l, e.1 ∈ K) (i : Instr) (n : Nat) : Lists K F (runJoined s l i n) := by
  cases hm : mmaParts i with
  | some p => exact runJoined_matrix hm s l n ▸ h.joinMatrix l p
  | none =>
    cases ho : joinOvf i (partsOf i l) with
    | true => exact runJoined_ovf s n hm ho ▸ h.foldl fun _ hs _ _ => hs.deliver ..
    | false =>
      cases hw : joinWrites i n (partsOf i l) with
      | none => exact (runJoined_idle s hm ho hw).symm ▸ h
      | some y => exact runJoined_writes s hm ho hw ▸ h.foldl fun _ hs e he => hs.joinWrite (hl e he) ..

theorem Lists.checkQuads (h : Lists K F s) {l : List (Nat × Thread)} (hl : ∀ e ∈ l, e.1 ∈ K) (n : Nat) : Lists K F (checkQuads s l n) := by
  refine h.foldl fun s hs q _ => ?_
  dsimp only
  split
  · split
    · exact hs.runJoined (fun e he => hl e (List.mem_of_mem_filter he)) _ _
    · exact hs
  · exact hs

theorem Lists.checkGroup (h : Lists K F s) (team group : Nat) : Lists K F (checkGroup s team group) := by
  have hl : ∀ e ∈ participants s team group, e.1 ∈ K := fun e he => h.of_mem (mem_participants he).1
  unfold Machine.checkGroup
  dsimp only
  split
  · exact h
  · split
    · exact h.foldl fun _ hs _ _ => hs.release _
    · split
      · split
        · exact h.checkQuads hl _
        · exact h.runJoined hl _ _
      · exact h.checkQuads hl _

theorem Lists.releaseBar (h : Lists K F s) (b : BarScope) (p : Nat) (l : List (Nat × Thread)) : Lists K F (releaseBar s b p l) := by
  refine h.foldl fun s hs e _ => ?_
  split
  · exact (hs.modThread _ _).release _
  · exact hs

theorem Lists.checkTeamBar (h : Lists K F s) (team : Nat) : Lists K F (checkTeamBar s team) := by
  unfold Machine.checkTeamBar
  split
  · exact h
  · dsimp only
    split
    · refine Lists.releaseBar ?_ _ _ _
      exact h.congr rfl rfl
    · exact h

theorem Lists.checkClusterBar (h : Lists K F s) (n : Nat) : Lists K F (checkClusterBar s n) := by
  unfold Machine.checkClusterBar
  split
  · exact h
  · dsimp only
    split
    · refine Lists.releaseBar ?_ _ _ _
      exact h.congr rfl rfl
    · exact h

theorem Lists.checkBars (h : Lists K F s) (team : Nat) : Lists K F (checkBars s team) := by
  unfold Machine.checkBars
  dsimp only
  split
  · exact (h.checkTeamBar team).checkClusterBar _
  · exact h.checkTeamBar team

theorem Lists.exitTiles (h : Lists K F s) (team : Nat) : Lists K F (exitTiles s team) := by
  unfold Machine.exitTiles
  split
  · exact h.congr rfl rfl
  · exact h

theorem closeOwn_ex (s : State) (t : Thread) : (closeOwn s t).ex = s.ex := by
  unfold closeOwn
  dsimp only
  split <;> split <;> rfl

theorem Lists.exitThread (h : Lists K F s) (k : Nat) : Lists K F (exitThread s k) := by
  unfold Machine.exitThread
  split
  · exact h
  · rename_i t ht
    have hset : Lists K F (Machine.leaveBundle (Machine.setThread (closeOwn s t) k (exited t)) k) :=
      ((h.of_ex (closeOwn_ex s t)).setThread (h.of_get ht) _).congr rfl rfl
    exact ((hset.checkGroup _ _).checkBars _).exitTiles _

theorem Lists.checkWait (h : Lists K F s) (k : Nat) : Lists K F (checkWait s k) := by
  unfold Machine.checkWait
  split
  · exact h
  · rename_i t ht
    split
    · split
      · split
        · exact (h.setThread (h.of_get ht) _).deliver ..
        · exact (h.setThread (h.of_get ht) _).release _
      · exact h
    · exact h

theorem Lists.finishStop (h : Lists K F s) (k : Nat) (fpc : Word) : Lists K F (finishStop s k fpc) := by
  unfold Machine.finishStop
  split
  · exact h
  · rename_i t ht
    split
    · exact (h.setThread (h.of_get ht) _).deliver ..
    · exact h.exitThread k

theorem Lists.checkStop (h : Lists K F s) (k : Nat) : Lists K F (checkStop s k) := by
  unfold Machine.checkStop
  split
  · exact h
  · rename_i t ht
    split
    · split
      · exact h.setThread (h.of_get ht) _
      · exact h.finishStop k _
    · exact h

theorem Lists.checkDrained (h : Lists K F s) (k : Nat) : Lists K F (checkDrained s k) := by
  unfold Machine.checkDrained
  split
  · split
    · exact h.checkBars _
    · exact h
  · exact h

theorem Lists.recheck (h : Lists K F s) (k : Nat) : Lists K F (recheck s k) := ((h.checkWait k).checkStop k).checkDrained k

theorem Lists.sysopDone (h : Lists K F s) (k id status p : Nat) : Lists K F (sysopDone s k id status p) := (h.mapThreads _).recheck k

/-! The fills of a pre-emption set's tiles, discarded (R349, R353). -/

theorem Lists.tileOps (h : Lists K F s) (team k : Nat) (b : Bool) : Lists K F (tileOps s team k b) := by
  refine h.foldl fun s hs e _ => ?_
  dsimp only
  split
  · exact hs
  · exact (hs.foldl fun _ hs _ _ => hs.modThread _ _).recheck _

theorem Lists.tileEmpty (h : Lists K F s) (team k : Nat) : Lists K F (tileEmpty s team k) := by
  refine Lists.tileOps ?_ _ _ _
  exact h.congr rfl rfl

theorem Lists.discardFills (h : Lists K F s) (cores : List Nat) : Lists K F (discardFills s cores) :=
  h.foldl fun _ hs _ _ => hs.foldl fun _ hs _ _ => hs.tileEmpty ..

end

end Sys2Proof.Machine

namespace Sys2Proof.Machine

/-! PREEMPT_COMPLETE (R389, R390). -/

theorem threadKeys_emptyCores (s : State) (x : SavedSet) : threadKeys (emptyCores s x) = (threadKeys s).filter fun k => !onCores x.cores k := by
  simp only [threadKeys, List.filter_map]
  rfl

theorem fillSet_keys (s : State) (x : SavedSet) : (fillSet s x).threads.map (·.1) = (threadKeys s).filter (onCores x.cores) := by
  simp only [fillSet, threadKeys, List.filter_map, List.map_map]
  rfl

/-- The set `x` as PREEMPT_COMPLETE leaves it, with the fills of its tiles discarded in `s` and the status at stamp `p` in the thread that asked. -/
def completedSet (s : State) (x : SavedSet) (p : Nat) : SavedSet :=
  { fillSet s x with threads := (fillSet s x).threads.map fun e => (e.1, statusIn x.op stOk p e.2) }

theorem completedSet_frame (s : State) (x : SavedSet) (p : Nat) :
    (completedSet s x p).frame = (x.base, x.cores, true, (threadKeys s).filter (onCores x.cores)) := by
  have hk : (completedSet s x p).threads.map (·.1) = (fillSet s x).threads.map (·.1) := List.map_map ..
  rw [SavedSet.frame, hk, fillSet_keys]
  rfl

/-- The stamp of the writes of a set's areas, as its threads were before the status. -/
def areasStamp (s : State) (x : SavedSet) : Nat :=
  (writeAreas s (fillSet s x) (teamRegs s (fillSet s x).teams) (fillSet s x).cores 0 (ptsOf s (fillSet s x).op) s).1

/-- The stamp of the areas, and the state with them written and the cores emptied. -/
def areasWritten (s : State) (y : SavedSet) : Nat × State := writeAreas s y (teamRegs s y.teams) y.cores 0 (ptsOf s y.op) (emptyCores s y)

/-- The state after PREEMPT_COMPLETE of the set `x`, from that in which the fills of its tiles are discarded. -/
def preempted (s : State) (x : SavedSet) : State :=
  let r := areasWritten s (completedSet s x (areasStamp s x))
  sysopDone (writeStatus r.2 x.thr x.op stOk r.1) x.thr x.op stOk r.1

theorem exec_preemptComplete {s : State} {base : Nat} {x : SavedSet} (hx : s.ex.saved.find? (fun x => x.base == base && !x.written) = some x)
    (hh : canHalt s x.cores = true) : exec (.preemptComplete base) s = .next (preempted (discardFills s x.cores) x) := by
  change execPreemptComplete base s = _
  unfold execPreemptComplete
  rw [hx]
  dsimp only
  rw [hh]
  rfl

/-- The cores of the set are emptied, and the writes of its areas and its status change no thread's number and no saved set's frame. -/
theorem Lists.preempted (s : State) (x : SavedSet) :
    let z := emptyCores s (completedSet s x (areasStamp s x))
    Lists (threadKeys z) (z.ex.saved.map SavedSet.frame) (preempted s x) :=
  (((Lists.refl _).writeAreas _ _ _ _ _ _).writeStatus _ _ _ _).sysopDone _ _ _ _

/-- No thread is left on the cores of the set. -/
theorem coreOf_of_mem_preempted {s : State} {x : SavedSet} {e : Nat × Thread} (he : e ∈ (preempted s x).ex.threads) : coreOf e.1 ∉ x.cores := by
  have hk := (Lists.preempted s x).of_mem he
  rw [threadKeys_emptyCores, List.mem_filter, Bool.not_eq_true'] at hk
  exact fun hc => Bool.false_ne_true (hk.2.symm.trans (List.contains_iff_mem.2 hc))

/-- The set is written, with the threads that were on its cores. -/
theorem saved_preempted {s : State} {x : SavedSet} (hx : x.base ∈ s.ex.saved.map (·.base)) :
    ∃ y ∈ (preempted s x).ex.saved, y.base = x.base ∧ y.written = true ∧ y.cores = x.cores ∧
      y.threads.map (·.1) = (threadKeys s).filter (onCores x.cores) := by
  obtain ⟨y0, hy0, hb⟩ := List.mem_map.1 hx
  let w := completedSet s x (areasStamp s x)
  have hw : w ∈ (emptyCores s w).ex.saved := List.mem_map.2 ⟨y0, hy0, if_pos hb⟩
  have hframe : w.frame ∈ (preempted s x).ex.saved.map SavedSet.frame := by
    rw [(Lists.preempted s x).saved]
    exact List.mem_map_of_mem hw
  obtain ⟨y, hy, hf⟩ := List.mem_map.1 hframe
  rw [completedSet_frame, SavedSet.frame, Prod.mk.injEq, Prod.mk.injEq, Prod.mk.injEq] at hf
  obtain ⟨hbase, hcores, hwritten, hthreads⟩ := hf
  exact ⟨y, hy, hbase, hwritten, hcores, hthreads⟩

/-- PREEMPT_COMPLETE of a set whose cores may halt. -/
theorem preemptComplete_writes {s : State} {base : Nat} {x : SavedSet} (hx : s.ex.saved.find? (fun x => x.base == base && !x.written) = some x)
    (hh : canHalt s x.cores = true) : ∃ u, exec (.preemptComplete base) s = .next u ∧ (∀ e ∈ u.ex.threads, coreOf e.1 ∉ x.cores) ∧
      ∃ y ∈ u.ex.saved, y.base = base ∧ y.written = true ∧ y.cores = x.cores ∧ (s.ex.threads.Pairwise (fun a b => a.1 < b.1) →
        y.threads.map (·.1) = (s.ex.threads.filter fun e => x.cores.contains (coreOf e.1)).map (·.1)) := by
  have hd := (Lists.refl s).discardFills x.cores
  have hmem : x.frame ∈ (discardFills s x.cores).ex.saved.map SavedSet.frame := hd.saved ▸ List.mem_map_of_mem (List.mem_of_find?_eq_some hx)
  obtain ⟨y0, hy0, hf⟩ := List.mem_map.1 hmem
  obtain ⟨y, hy, hb, hw, hc, ht⟩ := saved_preempted (s := discardFills s x.cores) (x := x) (List.mem_map.2 ⟨y0, hy0, congrArg (·.1) hf⟩)
  have hbase := (Bool.and_eq_true _ _ ▸ List.find?_some hx : _ ∧ _).1
  refine ⟨_, exec_preemptComplete hx hh, fun e he => coreOf_of_mem_preempted he, y, hy, hb.trans (beq_iff_eq.1 hbase), hw, hc, fun hs => ?_⟩
  rw [ht, hd.listed (List.pairwise_map.2 hs), threadKeys, List.filter_map]
  rfl

end Sys2Proof.Machine

namespace Sys2Proof.Machine

/-! The scope of an invalidation, and the lock of a page (R371, R374, R376). -/

/-- Is an entry of the scope of an invalidation? (R371, R386) -/
def inDrop (scope asid va size : Nat) (e : TlbEntry) : Prop := scope = 2 ∨ (e.asid = asid ∧ (scope = 1 ∨ pageScope asid va size e = true))

theorem getCore_dropXlats (s : State) (p : TlbEntry → Bool) (q : Pointer → Bool) (n : Nat) : getCore (dropXlats s p q) n =
    { getCore s n with lastPage := (getCore s n).lastPage.filter fun x => !p x.2, tlb := (getCore s n).tlb.filter fun x => !p x } := by
  have hm := tget_map s.ex.cores (fun c => { c with lastPage := c.lastPage.filter fun x => !p x.2, tlb := c.tlb.filter fun x => !p x }) n
  unfold getCore
  rw [show tget (dropXlats s p q).ex.cores n = _ from hm]
  cases tget s.ex.cores n <;> rfl

theorem dropScope_keeps (s : State) (scope asid va size n : Nat) :
    (∀ e, e ∈ (getCore (dropScope s scope asid va size) n).tlb ↔ e ∈ (getCore s n).tlb ∧ ¬ inDrop scope asid va size e) ∧
    ∀ e, e ∈ (getCore (dropScope s scope asid va size) n).lastPage ↔ e ∈ (getCore s n).lastPage ∧ ¬ inDrop scope asid va size e.2 := by
  have hin (e : TlbEntry) : (!(scope == 2 || e.asid == asid && (scope == 1 || pageScope asid va size e))) = true ↔ ¬ inDrop scope asid va size e := by
    simp only [inDrop, Bool.not_eq_true', ← Bool.not_eq_true, Bool.or_eq_true, Bool.and_eq_true, beq_iff_eq]
  rw [dropScope, getCore_dropXlats]
  exact ⟨fun e => by rw [List.mem_filter, hin], fun e => by rw [List.mem_filter, hin]⟩

theorem LanesKept.dropXlats (s : State) (p : TlbEntry → Bool) (q : Pointer → Bool) : LanesKept s (dropXlats s p q) :=
  LanesKept.of_map rfl fun _ => ⟨rfl, rfl, rfl⟩

/-- The size of an invalidation of a page takes in that of each translation that covers its address. -/
theorem le_foldl_covers (l : List TlbEntry) (asid va size : Nat) :
    size ≤ l.foldl (fun n e => if covers e asid va then max n e.leaf.size else n) size ∧
      ∀ e ∈ l, covers e asid va = true → e.leaf.size ≤ l.foldl (fun n e => if covers e asid va then max n e.leaf.size else n) size := by
  induction l generalizing size with
  | nil => exact ⟨le_rfl, fun _ he => nomatch he⟩
  | cons x l ih =>
    obtain ⟨hle, hall⟩ := ih (if covers x asid va then max size x.leaf.size else size)
    have hstep : size ≤ if covers x asid va then max size x.leaf.size else size := by
      split
      · exact le_max_left _ _
      · exact le_rfl
    refine ⟨hstep.trans hle, fun e he hc => ?_⟩
    rcases List.mem_cons.1 he with rfl | he
    · exact (le_max_right size _).trans ((if_pos hc).ge.trans hle)
    · exact hall e he hc

theorem mem_heldXlats {s : State} {n : Nat} {c : Core} {e : TlbEntry} (hn : (n, c) ∈ s.ex.cores) (he : e ∈ c.tlb) : e ∈ heldXlats s := by
  simp only [heldXlats, List.mem_append, List.mem_flatMap]
  exact .inl (.inl ⟨_, hn, .inr he⟩)

theorem scopeSize_covers (s : State) (asid va size : Nat) : size ≤ scopeSize s asid va size ∧
    ∀ n e, e ∈ (getCore s n).tlb → (n, getCore s n) ∈ s.ex.cores → covers e asid va = true → e.leaf.size ≤ scopeSize s asid va size := by
  unfold scopeSize
  obtain ⟨hle, hall⟩ := le_foldl_covers (heldXlats s) asid va size
  exact ⟨hle, fun n e he hn hc => hall e (mem_heldXlats hn he) hc⟩

/-- A state in which a page of an address space is locked, with the lines of memory and what lanes keep as they were (R374). -/
structure PageLocked (s z : State) (asid va : Nat) : Prop where
  lock : (lockOf z asid va).isSome = true
  lines : z.mm.lines = s.mm.lines
  lanes : LanesKept s z

/-- A lock is noted, the leaf marked, and the translations of the page dropped. -/
theorem PageLocked.dropPage (s : State) (m : Mem) (f : Tab (List Nat)) (x : MigLock) (size : Nat) :
    PageLocked s (dropPage { setMem s m with tr := { (setMem s m).tr with frames := f, locks := x :: (setMem s m).tr.locks } } x.asid x.va size)
      x.asid x.va where
  lock := List.find?_isSome.2 ⟨x, List.mem_cons_self, by simp⟩
  lines := rfl
  lanes := (LanesKept.of_threads rfl).trans (LanesKept.dropPage _ _ _ _)

/-- A request for a page takes no frame, or locks the page. -/
theorem lockPage_ends (s : State) (asid va die dest : Nat) (l : Leaf) (side : MigSide) :
    lockPage s asid va die dest l side = .noFrame ∨ ∃ z, lockPage s asid va die dest l side = .locked z ∧ PageLocked s z asid va := by
  unfold lockPage
  dsimp only
  split
  · exact .inl rfl
  · exact .inr ⟨_, rfl, .dropPage s _ _ { asid := asid, va := va, dest := dest, side := side, .. } _⟩

section
variable {s : State} {asid va dest : Nat} {l : Leaf}

theorem migrateNow_barred (hw : walk s asid va = .leaf l) (hb : (l.gather || l.remote || (l.zf && destList dest == 2)) = true) :
    migrateNow s asid va dest = (2, s) := by
  simp only [migrateNow, hw]
  exact if_pos hb

theorem migrateNow_asks (hw : walk s asid va = .leaf l) (hb : (l.gather || l.remote || (l.zf && destList dest == 2)) = false) :
    migrateNow s asid va dest = match lockPage s asid (pageStart va l.size) (homeDie l.frame) dest l .supervisor with
      | .locked s => (stOk, s)
      | .noFrame => (stState, post s 6 0 0x0E asid (pageStart va l.size)) := by
  simp only [migrateNow, hw]
  exact if_neg (Bool.eq_false_iff.1 hb)

theorem migrateNow_locks (hw : walk s asid va = .leaf l) (hb : (l.gather || l.remote || (l.zf && destList dest == 2)) = false) :
    ((migrateNow s asid va dest).1 = 0 ∧ (lockOf (migrateNow s asid va dest).2 asid (pageStart va l.size)).isSome = true ∧
        (migrateNow s asid va dest).2.mm.lines = s.mm.lines) ∨
      ((migrateNow s asid va dest).1 = 2 ∧ (migrateNow s asid va dest).2 = post s 6 0 0x0E asid (pageStart va l.size)) := by
  rw [migrateNow_asks hw hb]
  rcases lockPage_ends s asid (pageStart va l.size) (homeDie l.frame) dest l .supervisor with hz | ⟨z, hz, hp⟩ <;> rw [hz]
  · exact .inr ⟨rfl, rfl⟩
  · exact .inl ⟨rfl, hp.lock, hp.lines⟩

end

theorem LanesKept.migrateNow (s : State) (asid va dest : Nat) : LanesKept s (migrateNow s asid va dest).2 := by
  unfold Machine.migrateNow
  split
  · rename_i l _
    dsimp only
    split
    · exact LanesKept.refl s
    · rcases lockPage_ends s asid (pageStart va l.size) (homeDie l.frame) dest l .supervisor with hz | ⟨z, hz, hp⟩ <;> rw [hz]
      · exact LanesKept.of_threads rfl
      · exact hp.lanes
  · exact LanesKept.refl s

end Sys2Proof.Machine

namespace Sys2Proof.Machine

/-! A SYSOP that may stay in progress, in one lane (R385). -/

/-- A lane goes on from `z` with a status in D, counted on ld. -/
def StatusGiven (a d : Reg) (c : Ctx) (u : State) (k : Nat) (t : Thread) (st : Nat) (z v : State) : Prop :=
  ∃ y, getThread z k = some y ∧ y.regs = t.regs ∧
    LaneEnds k z (finish (sysSpec a d) c (addDone (writeReg y d.toNat (BitVec.ofNat 32 st)) u.nextId .ld)) v

/-- A lane goes on from `z` with its status pending on ld, in an operation of a kind. -/
def StatusPends (a d : Reg) (c : Ctx) (u : State) (k : Nat) (t : Thread) (kind : OpKind) (z v : State) : Prop :=
  ∃ y, LaneEnds k z (finish (sysSpec a d) c y) v ∧ y.regs = t.regs ∧ y.pts = t.pts ∧
    ∃ o ∈ y.ops, o.id = u.nextId ∧ o.cnt = .ld ∧ o.kind = kind ∧ o.complete = false ∧ o.dest = d.toNat ∧ o.dlen = 1

/-- The operation in which a status pends. -/
def statusOp (d : Reg) (c : Ctx) (id : Nat) (t : Thread) (kind : OpKind) : Op :=
  { newOp c id id t .ld kind 0 (.here 0) 0 with dest := d.toNat, dlen := 1, performed := true, visible := true }

theorem StatusPends.of_addOp {a d : Reg} {c : Ctx} {u z v : State} {k : Nat} {t y x : Thread} {kind : OpKind} (hr : y.regs = t.regs) (hp : y.pts = t.pts)
    (h : LaneEnds k z (finish (sysSpec a d) c (addOp y (statusOp d c u.nextId x kind))) v) : StatusPends a d c u k t kind z v :=
  ⟨_, h, hr, hp, _, List.mem_append_right _ (List.mem_singleton.2 rfl), rfl, rfl, rfl, rfl, rfl, rfl⟩

/-- The state in which a SYSOP acts in a lane: its operation is numbered. -/
def numbered (u : State) (k : Nat) (t : Thread) : State := setThread { u with nextId := u.nextId + 1 } k t

section
variable {a d : Reg} {c : Ctx} {u : State} {k : Nat} {t : Thread}

/-- The number taken counts in no translation. -/
theorem walk_numbered (asid va : Nat) : walk (numbered u k t) asid va = walk u asid va := walk_congr rfl rfl rfl rfl rfl rfl asid va

theorem migrateWaits_numbered (asid va : Nat) : migrateWaits (numbered u k t) asid va = migrateWaits u asid va := by
  unfold migrateWaits
  rw [walk_numbered]
  rfl

/-- What a SYSOP that may stay in progress does in a lane. -/
def pendLane (a d : Reg) (f : State → Nat → Args → (Nat ⊕ OpKind) × State) (c : Ctx) (u : State) (k : Nat) (t : Thread) : LaneOut :=
  if !privileged u t then .fault 0x13 0
  else
    let r := f (numbered u k t) k (argsOf t a)
    match r.1 with
    | .inl st => .ok (modThread r.2 k fun t => addDone (writeReg t d.toNat (BitVec.ofNat 32 st)) u.nextId .ld)
    | .inr kind => .ok (modThread r.2 k fun t => addOp t (statusOp d c u.nextId t kind))

theorem sysPend_eq (f : State → Nat → Args → (Nat ⊕ OpKind) × State) (s : State) : sysPend a d f s = issueWord (sysSpec a d) (pendLane a d f) s := rfl

variable {f : State → Nat → Args → (Nat ⊕ OpKind) × State} {z : State}

theorem pendLane_denied (h : (gridOf u t).asid ≠ 0) : laneEnd (sysSpec a d) c u k (pendLane a d f c u k t) = deliver u k 0x13 0 c.fpc := by
  have hp : (!privileged u t) = true := by simp [privileged, h]
  rw [pendLane, if_pos hp]
  rfl

theorem pendLane_gives {st : Nat} (h : (gridOf u t).asid = 0) (hf : f (numbered u k t) k (argsOf t a) = (.inl st, z)) (hk : LanesKept (numbered u k t) z) :
    StatusGiven a d c u k t st z (laneEnd (sysSpec a d) c u k (pendLane a d f c u k t)) := by
  obtain ⟨y, hy, hr, -, -⟩ := hk k t (by simp [numbered])
  have hp : ¬ (!privileged u t) = true := by simp [privileged, h]
  refine ⟨y, hy, hr, ?_⟩
  rw [pendLane, if_neg hp, hf]
  dsimp only
  rw [modThread_eq z _ hy]
  exact .laneEnd_ok _ c u z k _

theorem pendLane_pends {kind : OpKind} (h : (gridOf u t).asid = 0) (hf : f (numbered u k t) k (argsOf t a) = (.inr kind, z))
    (hk : LanesKept (numbered u k t) z) : StatusPends a d c u k t kind z (laneEnd (sysSpec a d) c u k (pendLane a d f c u k t)) := by
  obtain ⟨y, hy, hr, -, hpts⟩ := hk k t (by simp [numbered])
  have hp : ¬ (!privileged u t) = true := by simp [privileged, h]
  rw [pendLane, if_neg hp, hf]
  dsimp only
  rw [modThread_eq z _ hy]
  exact .of_addOp hr hpts (.laneEnd_ok _ c u z k _)

end

/-! MIGRATE (R374, R376). -/

theorem migrateReq_eq (x : Args) (u : State) (k : Nat) (t : Thread) : migrateReq (numbered u k t) k x =
    if 4096 ≤ x 0 ∨ 2 ^ 57 ≤ x 1 + 2 ^ 32 * x 2 ∨ 3 ≤ x 3 then (.inl 1, numbered u k t)
    else if migrateWaits u (x 0) (x 1 + 2 ^ 32 * x 2) then (.inr (.migrate (x 0) (x 1 + 2 ^ 32 * x 2) (x 3)), numbered u k t)
    else (.inl (migrateNow (numbered u k t) (x 0) (x 1 + 2 ^ 32 * x 2) (x 3)).1, (migrateNow (numbered u k t) (x 0) (x 1 + 2 ^ 32 * x 2) (x 3)).2) := by
  rw [← migrateWaits_numbered (u := u) (k := k) (t := t)]
  rfl

/-- A lane after a MIGRATE of the arguments `x`. -/
structure MigrateEnds (a d : Reg) (x : Args) (c : Ctx) (u : State) (k : Nat) (t : Thread) (v : State) : Prop where
  denied : (gridOf u t).asid ≠ 0 → v = deliver u k 0x13 0 c.fpc
  bad : (gridOf u t).asid = 0 → 4096 ≤ x 0 ∨ 2 ^ 57 ≤ x 1 + 2 ^ 32 * x 2 ∨ 3 ≤ x 3 → StatusGiven a d c u k t 1 (numbered u k t) v
  waits : (gridOf u t).asid = 0 → ¬ (4096 ≤ x 0 ∨ 2 ^ 57 ≤ x 1 + 2 ^ 32 * x 2 ∨ 3 ≤ x 3) → migrateWaits u (x 0) (x 1 + 2 ^ 32 * x 2) = true →
    StatusPends a d c u k t (.migrate (x 0) (x 1 + 2 ^ 32 * x 2) (x 3)) { u with nextId := u.nextId + 1 } v
  ends : (gridOf u t).asid = 0 → ¬ (4096 ≤ x 0 ∨ 2 ^ 57 ≤ x 1 + 2 ^ 32 * x 2 ∨ 3 ≤ x 3) → migrateWaits u (x 0) (x 1 + 2 ^ 32 * x 2) = false →
    StatusGiven a d c u k t (migrateNow (numbered u k t) (x 0) (x 1 + 2 ^ 32 * x 2) (x 3)).1
      (migrateNow (numbered u k t) (x 0) (x 1 + 2 ^ 32 * x 2) (x 3)).2 v

theorem migrate_lanes (a d : Reg) (s : State) : LaneByLane s (sysSpec a d) (.migrate a d) always (fun _ => s) fun c u k t v =>
    MigrateEnds a d (argsOf t a) c u k t v := by
  refine issueWord_lanes_of_body (sysPend_eq migrateReq s) fun c u k t => ⟨pendLane_denied, fun h hb => ?_, fun h hb hw => ?_, fun h hb hw => ?_⟩
  · exact pendLane_gives h ((migrateReq_eq ..).trans (if_pos hb)) (LanesKept.refl _)
  · have hf := (migrateReq_eq (argsOf t a) u k t).trans ((if_neg hb).trans (if_pos hw))
    obtain ⟨y, hy, hrest⟩ := pendLane_pends (d := d) (c := c) h hf (LanesKept.refl _)
    exact ⟨y, hy.of_setThread, hrest⟩
  · refine pendLane_gives h ((migrateReq_eq ..).trans ((if_neg hb).trans (if_neg ?_))) (LanesKept.migrateNow _ _ _ _)
    exact Bool.eq_false_iff.1 hw

/-! INVAL (R371). -/

/-- The state after the first steps of an INVAL of the arguments `x`. -/
def invalidated (x : Args) (u : State) (k : Nat) (t : Thread) : State :=
  dropScope (numbered u k t) (x 0 % 4) (x 0 / 2 ^ 4 % 2 ^ 12) (x 1 + 2 ^ 32 * x 2) (x 0 / 4 % 4)

/-- The size of the pages whose accesses an INVAL waits for. -/
def invalSize (x : Args) (u : State) (k : Nat) (t : Thread) : Nat :=
  if x 0 % 4 = 0 then scopeSize (numbered u k t) (x 0 / 2 ^ 4 % 2 ^ 12) (x 1 + 2 ^ 32 * x 2) (x 0 / 4 % 4) else x 0 / 4 % 4

/-- Does an INVAL stay in progress? -/
def invalStays (x : Args) (u : State) (k : Nat) (t : Thread) : Bool :=
  invalWaits (invalidated x u k t) (invalidated x u k t).nextId (x 0 % 4) (x 0 / 2 ^ 4 % 2 ^ 12) (x 1 + 2 ^ 32 * x 2) (invalSize x u k t)

theorem invalReq_eq (x : Args) (u : State) (k : Nat) (t : Thread) : invalReq (numbered u k t) k x =
    if x 0 % 4 = 3 ∨ (x 0 % 4 = 0 ∧ x 0 / 4 % 4 = 3) then (.inl 1, numbered u k t)
    else if invalStays x u k t then
      (.inr (.inval (x 0 % 4) (x 0 / 2 ^ 4 % 2 ^ 12) (x 1 + 2 ^ 32 * x 2) (invalSize x u k t)), invalidated x u k t)
    else (.inl 0, invalidated x u k t) := by
  have h0 (n : Nat) : bits n 1 0 = n % 4 := by
    rw [bits, pow_zero, Nat.div_one]
    rfl
  have h1 (n : Nat) : bits n 3 2 = n / 4 % 4 := rfl
  have h2 (n : Nat) : bits n 15 4 = n / 2 ^ 4 % 2 ^ 12 := rfl
  simp only [invalReq, h0, h1, h2]
  rfl

/-- A lane after an INVAL of the arguments `x`. -/
structure InvalEnds (a d : Reg) (x : Args) (c : Ctx) (u : State) (k : Nat) (t : Thread) (v : State) : Prop where
  denied : (gridOf u t).asid ≠ 0 → v = deliver u k 0x13 0 c.fpc
  bad : (gridOf u t).asid = 0 → (x 0 % 4 = 3 ∨ (x 0 % 4 = 0 ∧ x 0 / 4 % 4 = 3)) → StatusGiven a d c u k t 1 (numbered u k t) v
  ends : (gridOf u t).asid = 0 → ¬ (x 0 % 4 = 3 ∨ (x 0 % 4 = 0 ∧ x 0 / 4 % 4 = 3)) → invalStays x u k t = false →
    StatusGiven a d c u k t 0 (invalidated x u k t) v
  stays : (gridOf u t).asid = 0 → ¬ (x 0 % 4 = 3 ∨ (x 0 % 4 = 0 ∧ x 0 / 4 % 4 = 3)) → invalStays x u k t = true →
    StatusPends a d c u k t (.inval (x 0 % 4) (x 0 / 2 ^ 4 % 2 ^ 12) (x 1 + 2 ^ 32 * x 2) (invalSize x u k t)) (invalidated x u k t) v

theorem inval_lanes (a d : Reg) (s : State) : LaneByLane s (sysSpec a d) (.inval a d) always (fun _ => s) fun c u k t v =>
    InvalEnds a d (argsOf t a) c u k t v := by
  refine issueWord_lanes_of_body (sysPend_eq invalReq s) fun c u k t => ⟨pendLane_denied, fun h hb => ?_, fun h hb hw => ?_, fun h hb hw => ?_⟩
  · exact pendLane_gives h ((invalReq_eq ..).trans (if_pos hb)) (LanesKept.refl _)
  · refine pendLane_gives h ((invalReq_eq ..).trans ((if_neg hb).trans (if_neg ?_))) (LanesKept.dropXlats _ _ _)
    exact Bool.eq_false_iff.1 hw
  · exact pendLane_pends h ((invalReq_eq ..).trans ((if_neg hb).trans (if_pos hw))) (LanesKept.dropXlats _ _ _)

end Sys2Proof.Machine

namespace Sys2Proof.Machine

/-! PREEMPT (R213, R386, R389). -/

/-- The areas of a set of cores do not stand: they are misaligned, or do not lie in memory (R386). -/
abbrev AreasBad (u : State) (base : Nat) (cores : List Nat) : Prop :=
  base % Config.areaBytes ≠ 0 ∨ frameOk u base (cores.length * Config.areaBytes) = false

theorem not_areasBad {u : State} {base : Nat} {cores : List Nat} (hb : base % Config.areaBytes = 0)
    (hf : frameOk u base (cores.length * Config.areaBytes) = true) : ¬ AreasBad u base cores := by
  rintro (hn | hn)
  · exact hn hb
  · exact Bool.false_ne_true (hn.symm.trans hf)

theorem areasBad_numbered (u : State) (k : Nat) (t : Thread) (base : Nat) (cores : List Nat) :
    AreasBad (numbered u k t) base cores ↔ AreasBad u base cores := by
  have hf (pa n : Nat) : frameOk (numbered u k t) pa n = frameOk u pa n := by
    unfold frameOk versionBase spillBase
    rfl
  rw [AreasBad, hf]

/-- The state in which the thread `k` has asked for a set of cores. -/
def askedFor (u : State) (k base : Nat) (cores : List Nat) : State :=
  { u with nextId := u.nextId + 1, ex := { u.ex with saved := { base := base, cores := cores, thr := k, op := u.nextId } :: u.ex.saved } }

/-- What a PREEMPT of a set of cores does in a lane, with `n` in the fourth argument word. -/
def preemptLane (d : Reg) (base : Nat) (cores : List Nat) (n : Nat) (c : Ctx) (u : State) (k : Nat) (t : Thread) : LaneOut :=
  let status (st : Nat) : LaneOut := .ok (modThread (numbered u k t) k fun t => addDone (writeReg t d.toNat (BitVec.ofNat 32 st)) u.nextId .ld)
  if !privileged u t then .fault 0x13 0
  else if AreasBad (numbered u k t) base cores then status 1
  else if n < cores.length then status 3
  else if areaHeld (numbered u k t) base cores.length then status 2
  else .ok (setThread (setThread (askedFor u k base cores) k t) k (addOp t (statusOp d c u.nextId t (.sysop base))))

theorem exec_preempt (a d : Reg) (s : State) : exec (.preempt a d) s = issueWord (sysSpec a d) (fun c u k t =>
    preemptLane d (argsOf t a 1 + 2 ^ 32 * argsOf t a 2) (preemptSet u (argsOf t a 0 % 2 ^ 8)) (argsOf t a 3) c u k t) s := by
  have h0 (n : Nat) : bits n 7 0 = n % 2 ^ 8 := by
    rw [bits, pow_zero, Nat.div_one]
  change execPreempt a d s = _
  unfold execPreempt
  refine congrArg (fun f => issueWord (sysSpec a d) f s) (funext fun c => funext fun u => funext fun k => funext fun t => ?_)
  dsimp only
  rw [h0]
  generalize preemptSet u _ = cores
  rfl

/-- A lane after a PREEMPT of a set of cores. -/
structure PreemptEnds (a d : Reg) (base : Nat) (cores : List Nat) (n : Nat) (c : Ctx) (u : State) (k : Nat) (t : Thread) (v : State) : Prop where
  denied : (gridOf u t).asid ≠ 0 → v = deliver u k 0x13 0 c.fpc
  bad : (gridOf u t).asid = 0 → AreasBad u base cores → LaneEnds k { u with nextId := u.nextId + 1 }
    (finish (sysSpec a d) c (addDone (writeReg t d.toNat (BitVec.ofNat 32 1)) u.nextId .ld)) v
  small : (gridOf u t).asid = 0 → ¬ AreasBad u base cores → n < cores.length → LaneEnds k { u with nextId := u.nextId + 1 }
    (finish (sysSpec a d) c (addDone (writeReg t d.toNat (BitVec.ofNat 32 3)) u.nextId .ld)) v
  held : (gridOf u t).asid = 0 → ¬ AreasBad u base cores → ¬ n < cores.length → areaHeld u base cores.length = true →
    LaneEnds k { u with nextId := u.nextId + 1 } (finish (sysSpec a d) c (addDone (writeReg t d.toNat (BitVec.ofNat 32 2)) u.nextId .ld)) v
  asks : (gridOf u t).asid = 0 → ¬ AreasBad u base cores → ¬ n < cores.length → areaHeld u base cores.length = false →
    StatusPends a d c u k t (.sysop base) (askedFor u k base cores) v

/-- A lane of which a SYSOP changes nothing but the status. -/
theorem status_ends (a d : Reg) (c : Ctx) (u w : State) (k : Nat) (t : Thread) (st : Nat) : LaneEnds k { u with nextId := u.nextId + 1 }
    (finish (sysSpec a d) c (addDone (writeReg t d.toNat (BitVec.ofNat 32 st)) u.nextId .ld)) (laneEnd (sysSpec a d) c w k
      (.ok (modThread (numbered u k t) k fun t => addDone (writeReg t d.toNat (BitVec.ofNat 32 st)) u.nextId .ld))) := by
  rw [modThread_eq (numbered u k t) _ (show getThread (numbered u k t) k = some t by simp [numbered])]
  exact (LaneEnds.laneEnd_ok _ c w (numbered u k t) k _).of_setThread

theorem preemptLane_ends (a d : Reg) (base : Nat) (cores : List Nat) (n : Nat) (c : Ctx) (u : State) (k : Nat) (t : Thread) :
    PreemptEnds a d base cores n c u k t (laneEnd (sysSpec a d) c u k (preemptLane d base cores n c u k t)) := by
  have hheld : areaHeld (numbered u k t) base cores.length = areaHeld u base cores.length := rfl
  unfold preemptLane
  dsimp only
  rw [hheld]
  by_cases h : (gridOf u t).asid = 0
  · have hp : ¬ (!privileged u t) = true := by simp [privileged, h]
    rw [if_neg hp]
    refine ⟨fun hn => absurd h hn, fun _ hb => ?_, fun _ hb hs => ?_, fun _ hb hs hh => ?_, fun _ hb hs hh => ?_⟩ <;>
      rw [← areasBad_numbered u k t] at hb
    · rw [if_pos hb]
      exact status_ends ..
    · rw [if_neg hb, if_pos hs]
      exact status_ends ..
    · rw [if_neg hb, if_neg hs, if_pos hh]
      exact status_ends ..
    · rw [if_neg hb, if_neg hs, if_neg (Bool.eq_false_iff.1 hh)]
      exact .of_addOp rfl rfl (LaneEnds.laneEnd_ok _ c u _ k _).of_setThread
  · have hp : (!privileged u t) = true := by simp [privileged, h]
    rw [if_pos hp]
    exact ⟨fun _ => rfl, fun h0 => absurd h0 h, fun h0 => absurd h0 h, fun h0 => absurd h0 h, fun h0 => absurd h0 h⟩

theorem preempt_lanes (a d : Reg) (s : State) : LaneByLane s (sysSpec a d) (.preempt a d) always (fun _ => s) fun c u k t v =>
    PreemptEnds a d (argsOf t a 1 + 2 ^ 32 * argsOf t a 2) (preemptSet u (argsOf t a 0 % 2 ^ 8)) (argsOf t a 3) c u k t v :=
  issueWord_lanes_of_body (exec_preempt a d s) fun c u k t => preemptLane_ends a d _ _ _ c u k t

theorem StatusPends.done {a d : Reg} {c : Ctx} {u z v : State} {k : Nat} {t : Thread} {kind : OpKind} (h : StatusPends a d c u k t kind z v) :
    StatusPends a d c u k t kind z (done v) := by
  obtain ⟨y, hy, hrest⟩ := h
  exact ⟨y, hy.done, hrest⟩

theorem StatusGiven.done {a d : Reg} {c : Ctx} {u z v : State} {k st : Nat} {t : Thread} (h : StatusGiven a d c u k t st z v) :
    StatusGiven a d c u k t st z (done v) := by
  obtain ⟨y, hy, hr, hends⟩ := h
  exact ⟨y, hy, hr, hends.done⟩

theorem StatusGiven.ends {a d : Reg} {c : Ctx} {u z v : State} {k st : Nat} {t : Thread} (h : StatusGiven a d c u k t st z v) :
    ∃ y, getThread z k = some y ∧ LaneEnds k z (finish (sysSpec a d) c (addDone (writeReg y d.toNat (BitVec.ofNat 32 st)) u.nextId .ld)) v := by
  obtain ⟨y, hy, -, hends⟩ := h
  exact ⟨y, hy, hends⟩

end Sys2Proof.Machine

section
open Sys2Proof Sys2Proof.Machine

/-- Settles O52: each word in a lane by `preempt_lanes`, `migrate_lanes` and `inval_lanes`, and PREEMPT_COMPLETE by `preemptComplete_writes`, whose writes
keep the thread table and the saved sets as `Lists` says. -/
theorem preemptMigrateInvalidate : Obligations.PreemptMigrateInvalidate := by
  refine ⟨fun a d s => (preempt_lanes a d s).imp fun c u k t v h => ⟨h.denied, fun h0 => ?preempt⟩,
    fun a d => LaneByLane.completes fun s => (preempt_lanes a d s).imp fun c u k t v h ⟨h0, hb, hf, hs, hh⟩ => ?preemptAlone,
    fun a d s => (migrate_lanes a d s).imp fun c u k t v h => ⟨h.denied, fun h0 => ?migrate⟩,
    fun a d => LaneByLane.completes fun s => (migrate_lanes a d s).imp fun c u k t v h ⟨h0, h1, h2, h3, hw⟩ => ?migrateAlone,
    fun s asid va dest l hw _ => ⟨migrateNow_barred hw, migrateNow_locks hw⟩,
    fun a d s => (inval_lanes a d s).imp fun c u k t v h => ⟨h.denied, fun h0 => ?inval⟩,
    fun a d => LaneByLane.completes fun s => (inval_lanes a d s).imp fun c u k t v h ⟨h0, h1, h2, hw⟩ => ?invalAlone,
    fun s asid va size => scopeSize_covers s asid va size,
    fun s scope asid va size => ⟨rfl, rfl, fun n => dropScope_keeps s scope asid va size n⟩,
    fun s base x hx hh _ => preemptComplete_writes hx hh⟩
  case preempt =>
    refine ⟨fun hb => h.bad h0 hb, fun hb hf => ?_⟩
    have hgood := not_areasBad hb hf
    exact ⟨fun hs => h.small h0 hgood hs, fun hs hh => h.held h0 hgood hs.not_gt hh, fun hs hh => h.asks h0 hgood hs.not_gt hh⟩
  case preemptAlone => exact (h.asks h0 (not_areasBad hb hf) hs.not_gt hh).done
  case migrate =>
    refine ⟨fun hb => (h.bad h0 hb).ends, fun h1 h2 h3 hw => ?_, fun h1 h2 h3 hw => ?_⟩
    · exact h.waits h0 (by omega) hw
    · exact (h.ends h0 (by omega) hw).ends
  case migrateAlone => exact (h.ends h0 (by omega) hw).done
  case inval =>
    refine ⟨fun hb => (h.bad h0 hb).ends, fun h1 h2 => ⟨fun hw => ?_, fun hw => ?_⟩⟩
    · exact (h.ends h0 (by tauto) hw).ends
    · exact h.stays h0 (by tauto) hw
  case invalAlone => exact (h.ends h0 (by tauto) hw).done

end
